-- ==== Sys2Proof/Word.lean ====
section
/-!
DEFINITION. The byte and word types, the two container shapes that hold the device's tables and memories, and
nothing else: the operations on them stand in Machine/Data.lean.
-/
namespace Sys2Proof

/-- One byte (R7). -/
abbrev Byte := BitVec 8

/-- A 32-bit word, the unit of the direct registers (R36). -/
abbrev Word := BitVec 32

/-- A string of bytes, lowest address first. -/
abbrev Bytes := List Byte

/-- A table keyed by number: strictly rising keys, an unlisted key reading as the default its reader gives. -/
abbrev Tab (α : Type) := List (Nat × α)

end Sys2Proof
end

