-- ==== Sys2Proof/Syntax.lean ====
section
/-!
DEFINITION. The commands of the block: one constructor for each row of spec/opcode_table.json, with the operands that
the outside world (or the elapse of time) supplies. A mailbox command carries no operand of its own: its request lies
in a mailbox slot, where the CP finds it (R46, R49).
-/
namespace Sys2Proof

/-- The strap levels sampled at POR_N (R75, R512). -/
structure Straps where
  /-- STRAP_BOOT, 2 bits. -/
  boot : Nat
  /-- STRAP_HWINIT. -/
  hwinit : Bool
  /-- STRAP_SMBADDR, 3 bits. -/
  smb : Nat
deriving DecidableEq, Repr

/-- What the world outside the CP decides at a reset: whether the flash answers the boot ROM (R77) and which
memory stacks fail their link at power-up (R394). -/
structure BootEnv where
  /-- R76, R77: the system PLL locks, so that the boot ROM runs. -/
  pllLocks : Bool
  /-- R77: the flash answers. -/
  flashAnswers : Bool
  /-- R394: stacks whose link does not come up. -/
  failedStacks : List Nat
deriving DecidableEq, Repr

/-- The registers of an Aster core (R359). -/
inductive RegName where
  | g (n : Nat) | p (n : Nat) | cb (n : Nat) | cl (n : Nat) | acc (n : Nat) | lc (n : Nat)
  /-- The status register, and its SAT bit as an instruction sets it. -/
  | status | sat
deriving DecidableEq, Repr

/-- The registers that MOV reads and writes (R359). -/
inductive MovReg where
  | g (n : Nat) | p (n : Nat) | cb (n : Nat) | cl (n : Nat) | status
deriving DecidableEq, Repr

/-- A g register or an immediate. -/
inductive GSrc where
  | reg (n : Nat) | imm (v : Int)
deriving DecidableEq, Repr

/-- The address forms of loads and stores (R365). -/
inductive AddrForm where
  /-- [p]. -/
  | plain (p : Nat)
  /-- [p + imm] and [p + g]. -/
  | offset (p : Nat) (inc : GSrc)
  /-- [p]+=imm and [p]+=g. -/
  | post (p : Nat) (inc : GSrc)
  /-- [p]%=imm and [p]%=g. -/
  | circ (p : Nat) (inc : GSrc)
deriving DecidableEq, Repr

/-- A load or store (R363). -/
inductive LsOp where
  | none
  /-- LDB, LDBU, LDH, LDHU, LDW: bytes, sign extension, destination, address. -/
  | load (size : Nat) (signed : Bool) (g : Nat) (addr : AddrForm)
  /-- STB, STH, STW. -/
  | store (size : Nat) (g : Nat) (addr : AddrForm)
  /-- VLD. -/
  | vld (q : Nat) (addr : AddrForm)
  /-- VST. -/
  | vst (q : Nat) (addr : AddrForm)
deriving DecidableEq, Repr

/-- What a MAC does with its accumulator (R367). -/
inductive MacKind where
  | mul | mac | msu
deriving DecidableEq, Repr

/-- The M slot (R363, R367): operands and the options .S .F .R. -/
inductive MacOp where
  | none
  | dot (kind : MacKind) (acc qa qb : Nat) (s f r : Bool)
  | lane (kind : MacKind) (qa qb : Nat) (s f r : Bool)
deriving DecidableEq, Repr

/-- The integer operations with two sources (R363). -/
inductive AluKind where
  | add | sub | and | or | xor | shl | shr | sar | cmpEq | cmpNe | cmpLt | cmpLtu | cmpGe | cmpGeu
deriving DecidableEq, Repr

/-- The rounding modes of ACCX (R368). -/
inductive RoundMode where
  | t | hu | he
deriving DecidableEq, Repr

/-- The conditions of BC (R363). -/
inductive BranchCond where
  | zero | nonZero | negative | nonNegative
deriving DecidableEq, Repr

/-- The A slot (R363). -/
inductive AOp where
  | none
  | alu (kind : AluKind) (gd : Nat) (a b : GSrc)
  | mov (dst src : MovReg)
  | movImm (gd : Nat) (v : Int)
  | accx (gd acc shift : Nat) (round : RoundMode) (wide : Bool) (sat : Bool)
  | norm (gd gs : Nat)
  | norma (gd acc : Nat)
  | expb (gd qs ga : Nat)
  | scale (qd qs gk : Nat)
  | lbin (gd gs k : Nat)
  | branch (target : Nat)
  | branchReg (g : Nat)
  | branchIf (cond : BranchCond) (g target : Nat)
  | loop (n : Nat) (count : GSrc) (stop : Nat)
  | svc (n : Nat)
  /-- R364: a reserved encoding. -/
  | reserved
deriving DecidableEq, Repr

/-- What takes effect after two delay slots (R361). -/
inductive CtlOp where
  | branch (target : Nat)
  /-- A conditional branch whose condition does not hold. -/
  | untaken
  /-- A service and the bundle of its SVC. -/
  | svc (n pc : Nat)
  | loop (n count stop : Nat)
deriving DecidableEq, Repr
/-- What a module answers to a poll (R155, R156). -/
structure OpticsReading where
  /-- What the identifier in byte 0 at 0x50 tells: 1 SFF-8472, 2 CMIS, 3 unknown. -/
  ident : Nat
  /-- R156: the alarms, bits 5:0. -/
  alarms : Nat
  /-- R156: temperature, 16 bits, 1/256 degree. -/
  temp : Nat
  /-- R156: supply, 100 µV. -/
  vcc : Nat
  /-- R156: bias, 2 µA. -/
  bias : Nat
  /-- R156: transmit power, 0.1 µW. -/
  txPower : Nat
  /-- R156: receive power, 0.1 µW. -/
  rxPower : Nat
deriving DecidableEq, Repr
/-- A bundle: its four slots (R360). The spec gives no bit encoding of a bundle (log 30). -/
structure Bundle where
  ls0 : LsOp
  ls1 : LsOp
  m : MacOp
  a : AOp
deriving DecidableEq, Repr

/-- What happens to low-power idle on a host port (R149, R447). -/
inductive LpiEvent where
  /-- The port has been without a frame to send for tx_lpi_idle_us. -/
  | idle
  /-- The partner signals low-power idle. -/
  | partnerSleeps
  /-- The partner signals the wake. -/
  | partnerWakes
  /-- A periodic refresh of the device's own deep sleep begins, or ends (R149). -/
  | refresh (on : Bool)
  /-- A periodic refresh of the partner's deep sleep begins, or ends (R149). -/
  | partnerRefresh (on : Bool)
deriving DecidableEq, Repr

/-- What happens to low-power idle, and on which host port (R149, R447). -/
structure LpiMoment where
  port : Nat
  event : LpiEvent
deriving DecidableEq, Repr

/-- A keep-alive of a plane's Rill, and whether its CRC is right (R256). -/
structure KeepAlive where
  plane : Nat
  crcOk : Bool
deriving DecidableEq, Repr

/-- How a received frame ended (R443). -/
structure RxCheck where
  /-- Its FCS is right. -/
  fcsOk : Bool
  /-- The port's receive buffer took it. -/
  room : Bool
deriving DecidableEq, Repr

/-- A moment at which a defect detector of a receive port decides (R183, R186). -/
structure DefectMoment where
  port : Nat
  /-- A higher defect changes in the same cycle and suppresses this one (R186). -/
  higher : Bool
deriving DecidableEq, Repr

/-- How the AVSBus slave answers a status poll (R479). -/
structure AvsPoll where
  /-- The Write that the poll follows was acknowledged with good CRC and action taken. -/
  writeGood : Bool
  /-- The poll itself was. -/
  readGood : Bool
  /-- The status shows VDone. -/
  vDone : Bool
deriving DecidableEq, Repr

/-- What AVSBus reads back of VDD_CORE (R110). -/
structure AvsReading where
  /-- Millivolts. -/
  mv : Nat
  /-- The current readback. -/
  idd : Nat
deriving DecidableEq, Repr

/-- Why a host port lost its link-up condition (R438, R449, R456). -/
structure LinkLoss where
  /-- Clause 82 block lock was lost. -/
  blockLock : Bool
  /-- A local fault is present. -/
  localFault : Bool
  /-- A remote fault is present. -/
  remoteFault : Bool
deriving DecidableEq, Repr

/-- What a hunter sees at a position of the downstream (R166): whether the 64 received bits and the superframe counter
structure pass their checks. -/
structure PsyncObs where
  /-- The instant of the position's first bit, in ticks of 1/155,520 ns. -/
  at_ : Nat
  /-- Bits that differ from the plane's PSync pattern, 0 to 64. -/
  errs : Nat
  /-- The SFC structure passes its HEC. -/
  sfcHec : Bool
  /-- The SFC value, 51 bits. -/
  sfc : Nat
deriving DecidableEq, Repr

/-- What the decoding of a frame yields beside its PSync (R171 to R174, R326). -/
structure FrameObs where
  /-- R171: the PON-ID passes its HEC. -/
  ponHec : Bool
  /-- R171: the PON-ID, 51 bits. -/
  ponId : Nat
  /-- R173: bits that the decoder changed in corrected codewords. -/
  corrected : Nat
  /-- R173: codewords delivered as received, of those that a frame has (R160). -/
  uncorrectable : Nat
  /-- R174: the FS header passes its HEC. -/
  fsHec : Bool
  /-- R326: the PLOAM partition, 48 bytes a message. -/
  ploam : Bytes
  /-- R326: the bandwidth map. -/
  bwmap : Bytes
deriving DecidableEq, Repr

/-- An allocation structure of the bandwidth map (R175, R225). -/
structure AllocStruct where
  /-- R175: the structure passes its HEC. -/
  hec : Bool
  /-- The Alloc-ID. -/
  alloc : Nat
  /-- R224: the Alloc-ID is the broadcast value that the plane's standard defines. -/
  broadcast : Bool
  /-- DBRu flag. -/
  dbru : Bool
  /-- PLOAM flag. -/
  ploam : Bool
  /-- StartTime in its unit; none for the value that the standard reserves for chaining. -/
  start : Option Nat
  /-- GrantSize in words. -/
  grant : Nat
  /-- BurstProfile. -/
  profile : Nat
  /-- The last structure of its map. -/
  last : Bool
deriving DecidableEq, Repr

/-- An XGEM frame as the delineator finds it (R178 to R182). -/
structure XgemObs where
  /-- 0 a frame, 1 an idle frame (R179), 2 a header that cannot be corrected (R178). -/
  kind : Nat
  /-- The header's HEC corrected a bit (R178). -/
  fixed : Bool
  /-- Port-ID of the header. -/
  portId : Nat
  /-- Key index of the header. -/
  keyIdx : Nat
  /-- LF bit of the header. -/
  lf : Bool
  /-- R172: a byte of the frame lies in an uncorrectable codeword. -/
  fecUnc : Bool
  /-- R134: ticks from the first bit of the PSync of its frame to the first bit of the header. -/
  off : Nat
  /-- The 8 header bytes as received. -/
  header : Bytes
  /-- The payload bytes that the PLI counts. -/
  payload : Bytes
  /-- The zero padding of the payload to a multiple of 4 bytes. -/
  pad : Bytes
deriving DecidableEq, Repr

/-- A tap burst as the delineator finds it (R19, R328). The tap lane delivers samples at the plane's highest rate, so each
of its byte strings, those of its frames among them, holds 1, 2 or 4 samples of every bit, the first in the highest bit of
the first byte (R137, R147, log 66). -/
structure TapObs where
  /-- The expected burst it is matched with, as a position in the plane's list of expected bursts (R175). -/
  grant : Option Nat
  /-- The delimiter's first bit at the tap ball, in ticks of 1/155,520 ns. -/
  at_ : Nat
  /-- The FS header passes its HEC. -/
  fsHec : Bool
  /-- ONU-ID of the FS header. -/
  onuId : Nat
  /-- FS burst words received. -/
  words : Nat
  bipRx : Nat
  bipCalc : Nat
  /-- Bits corrected. -/
  fecCorrected : Nat
  /-- Codewords that could not be corrected. -/
  fecUncorrectable : Nat
  /-- R328: FS header, PLOAM message, DBRu words and trailer, in line order. -/
  overhead : Bytes
  /-- R328: the first 256 bytes of the FS burst; at a lower rate, their samples (R137). -/
  head : Bytes
  /-- Its XGEM frames; `off` counts from the delimiter. -/
  frames : List XgemObs
deriving DecidableEq, Repr

/-- The downstream PLOAM messages that the MV4810 handles, by their fields (R177, R200, R208). -/
inductive DsBody where
  /-- Burst_Profile: index, rate code of R328 (5 for a rate that is none of R136), lengths of preamble and delimiter in
  bits, their patterns, FEC. -/
  | burstProfile (index rate preBits delBits : Nat) (preamble delimiter : Bytes) (fec : Bool)
  /-- Assign_ONU-ID. -/
  | assignOnu (serial : Bytes) (onu : Nat)
  /-- Ranging_Time: the equalisation delay in the message's unit. -/
  | rangingTime (eqd : Nat)
  /-- Deactivate_ONU-ID. -/
  | deactivate
  /-- Disable_Serial_Number: enable or disable, and the serial number; none addresses every terminal. -/
  | disableSerial (enable : Bool) (serial : Option Bytes)
  /-- Request_Registration. -/
  | requestRegistration
  /-- Assign_Alloc-ID: binds or releases. -/
  | assignAlloc (alloc : Nat) (release : Bool)
  /-- Key_Control: the key index, and whether a new key is asked for. -/
  | keyControl (index : Nat) (fresh : Bool)
  /-- Sleep_Allow and every other type. -/
  | other
deriving DecidableEq, Repr

/-- A downstream PLOAM message (R176). -/
structure DsMsg where
  /-- The ONU-ID it is addressed to; none for the broadcast ONU-ID. -/
  onu : Option Nat
  /-- R207: the integrity key under which its MIC is right: none for no key, some none for the default key, some k for
  the key derived from the MSK k. -/
  mic : Option (Option (BitVec 128))
  /-- R208: the standard requires an Acknowledge for it. -/
  ack : Bool
  body : DsBody
  /-- The 48 bytes. -/
  bytes : Bytes
deriving DecidableEq, Repr

/-- One command or event of the block; the docstring of each constructor gives its row of the table. -/
inductive Instr where
  /-- POR_N_DEASSERT (R73): Release of POR_N resets every island, samples the straps and starts boot. -/
  | porNDeassert (straps : Straps) (env : BootEnv)
  /-- POR_N_ASSERT (R518): Assertion of POR_N puts every output in its reset state and drives TX_EN low. -/
  | porNAssert
  /-- PERST_N_DEASSERT (R73): PCIe conventional reset clears every island except the always-on island and re-enters boot. -/
  | perstNDeassert (env : BootEnv)
  /-- FUNCTION_LEVEL_RESET (R38): A PCIe FLR frees all mailbox slots, disables all rings, clears MSI-X and MB_BIND, and discards any pending response. -/
  | functionLevelReset
  /-- TRST_N_ASSERT (R73): Assertion of TRST_N resets the JTAG TAP only. -/
  | trstNAssert
  /-- PLL_LOCK_TIMEOUT (R77): The system PLL has not locked 10 ms after reset release, so boot fails with cause 1. -/
  | pllLockTimeout (flashAnswers : Bool)
  /-- BOOT_COMPLETE (R57): Firmware completes initialisation, sets FW_VERSION and moves the device from BOOT to READY. -/
  | bootComplete
  /-- CP_WATCHDOG_EXPIRY (R42): The CP watchdog goes unserved for 100 ms; hardware enters FAULT, drops TX_EN, stops the Basins and signals vector 0. -/
  | cpWatchdogExpiry
  /-- CP_HEARTBEAT_TICK (R40): Vexet firmware increments CP_HEARTBEAT every 1 ms. -/
  | cpHeartbeatTick
  /-- FIRMWARE_FAULT (R57): Firmware detects an uncontainable fault and enters FAULT as for the watchdog, with FAULT_HW 0. -/
  | firmwareFault (description : Bytes)
  /-- SOFT_RESET_WRITE (R43): Writing 0xB007_5EED to SOFT_RESET resets every island except always-on and PCIe; other values are ignored. -/
  | softResetWrite (value : BitVec 32) (env : BootEnv)
  /-- DOORBELL_WRITE (R48): A write to DB_CH submits each named FREE slot, flags non-FREE slots, or only wakes the device in STILL. -/
  | doorbellWrite (ch : Nat) (value : BitVec 32)
  /-- REQUEST_SLOT_WRITE (R45): A host write to a request slot is stored while the slot is FREE, and otherwise discarded with WRITE_DISCARDED set. -/
  | requestSlotWrite (ch : Nat) (off : Nat) (data : Bytes)
  /-- MB_RELEASE_WRITE (R52): A write to MB_RELEASE returns each named DONE slot to FREE. -/
  | mbReleaseWrite (ch : Nat) (value : BitVec 32)
  /-- MB_ERR_READ (R44): A read of MB_ERR returns the latched errors and clears the latches. -/
  | mbErrRead (ch : Nat)
  /-- RING_CTRL_ENABLE (R68): Setting RING_CTRL.EN resets RING_HEAD to 0 and, for ring 0, writes EV_EVENTS_LOST and any held EV_STATE_CHANGED. -/
  | ringCtrlEnable (ring : Nat) (dir : Bool)
  /-- RING_CTRL_DISABLE (R63): Clearing RING_CTRL.EN stops the ring and keeps RING_HEAD readable. -/
  | ringCtrlDisable (ring : Nat)
  /-- RING_TAIL_WRITE (R67): A write to RING_TAIL gives room back to the ring, so waiting entries or exports can resume. -/
  | ringTailWrite (ring : Nat) (value : BitVec 32)
  /-- REGISTER_WRITE (R10): A write to a direct register that has no behaviour of its own sets the field according to its access code. -/
  | registerWrite (off : Nat) (data : Bytes)
  /-- TIME_NS_LO_READ (R125): A read of TIME_NS_LO latches TIME_NS_HI and TIME_FRAC at the same instant. -/
  | timeNsLoRead
  /-- PPS_IN_TS_LO_READ (R125): A read of PPS_IN_TS_LO latches PPS_IN_TS_HI. -/
  | ppsInTsLoRead
  /-- TIME_STATUS_READ (R125): A read of TIME_STATUS clears the TIME_STEP_REFUSED and INCR_REJECTED latches. -/
  | timeStatusRead
  /-- INCR_WRITE (R126): A write to INCR applies from the next CK_TS cycle, or is discarded and flagged when out of range. -/
  | incrWrite (value : BitVec 32)
  /-- CLK_FORCED_CLEAR (R125): A write of 1 to a CLK_STATUS.CLK_FORCED bit clears it. -/
  | clkForcedClear (value : BitVec 32)
  /-- LOG_VIEW_SLOT_WRITE (R502): A write to LOG_VIEW_SLOT starts a fill of LOG_VIEW from that slot. -/
  | logViewSlotWrite (value : BitVec 32)
  /-- LOG_VIEW_FILL_DONE (R502): The LOG_VIEW fill completes and VIEW_BUSY clears. -/
  | logViewFillDone
  /-- INJECT_ARM (R506): INJECT_ARM with ARM set arms or replaces an injection entry, or is refused with a cause. -/
  | injectArm (value : BitVec 32)
  /-- INJECT_DISARM (R506): INJECT_ARM with DISARM set removes the named entry, or is refused with a cause. -/
  | injectDisarm (value : BitVec 32)
  /-- INJECT_STATUS_READ (R505): A read of INJECT_STATUS clears the REFUSED latch. -/
  | injectStatusRead
  /-- BAR2_READ (R350): A read through a BAR2 window returns the stored bytes, 0 when unmapped, or poisoned data for an uncorrectable block. -/
  | bar2Read (off : Nat) (len : Nat)
  /-- BAR2_WRITE (R350): A write through a BAR2 window stores the bytes, or is discarded when unmapped or in a capture buffer. -/
  | bar2Write (off : Nat) (data : Bytes)
  /-- OFF_DOMAIN_ACCESS (R477): A BAR access to a stopped island reads 0x0BAD_0FF0 or discards the write and is latched and counted. -/
  | offDomainAccess (bar : Nat) (off : Nat) (data : Option Bytes) (len : Nat)
  /-- SMBUS_BLOCK_WRITE (R70): SMBus command 0x10 submits one request to the fallback mailbox, or is not acknowledged. -/
  | smbusBlockWrite (data : Bytes) (pecOk : Bool)
  /-- SMBUS_STATUS_READ (R69): SMBus command 0x11 returns the fallback mailbox status. -/
  | smbusStatusRead (pecOk : Bool)
  /-- SMBUS_BLOCK_READ (R69): SMBus command 0x12 returns the response and returns the slave to idle. -/
  | smbusBlockRead (pecOk : Bool)
  /-- SMBUS_STATE_READ (R69): SMBus command 0x13 returns the device state, CP_ALIVE and FAULT_HW from hardware. -/
  | smbusStateRead (pecOk : Bool)
  /-- NOP (R60): NOP does nothing and measures the round trip. -/
  | nop
  /-- DEVICE_INFO (R61): DEVICE_INFO returns identity, capacities, fences and link figures. -/
  | deviceInfo
  /-- DEVICE_START (R60): DEVICE_START enables the line side and enters RUN. -/
  | deviceStart
  /-- DEVICE_STOP (R60): DEVICE_STOP drops TX_EN, stops Basins and planes and returns to READY. -/
  | deviceStop
  /-- DEVICE_RESET (R60): DEVICE_RESET posts its response and schedules a soft reset 100 µs later. -/
  | deviceReset
  /-- DEVICE_RESET_DELAY_EXPIRY (R60): 100 µs after DEVICE_RESET the device resets as by SOFT_RESET. -/
  | deviceResetDelayExpiry (env : BootEnv)
  /-- FW_UPDATE_BEGIN (R88): FW_UPDATE_BEGIN enters UPDATE and starts erasing the other image. -/
  | fwUpdateBegin
  /-- FW_ERASE_DONE (R87): Erasure of the other image completes. -/
  | fwEraseDone
  /-- FW_UPDATE_WRITE (R89): FW_UPDATE_WRITE programs data into the other image at the next unwritten offset. -/
  | fwUpdateWrite
  /-- FW_UPDATE_END (R90): FW_UPDATE_END abandons the update, or checks the image and marks it TRIAL, and returns to READY. -/
  | fwUpdateEnd
  /-- FW_TRIAL_DECIDE (R91): FW_TRIAL_DECIDE commits the running TRIAL image as GOOD or rejects it. -/
  | fwTrialDecide
  /-- FW_STATUS (R92): FW_STATUS returns both image headers and the update progress. -/
  | fwStatus
  /-- HWINIT (R87): HWINIT sets or clears the HWINIT flag in device data for the next reset. -/
  | hwinit
  /-- ATTEST (R94): ATTEST builds and signs a report for part 0, or returns the second half for part 1. -/
  | attest
  /-- ATTEST_CERT (R96): ATTEST_CERT returns part of the certificate chain from the given offset. -/
  | attestCert
  /-- CLOCK_SET (R105): CLOCK_SET changes CK_NOC, CK_CP and CK_MEMC within the ratio limits. -/
  | clockSet
  /-- CORE_POINT (R110): CORE_POINT sets the DVFS ceiling and steps CK_CORE to it. -/
  | corePoint
  /-- AVSBUS_STATUS_POLL (R479): Every 10 µs after a voltage request the master reads the rail status for VDone. -/
  | avsbusStatusPoll (answer : AvsPoll)
  /-- AVSBUS_ACK (R107): The VDD_CORE regulator acknowledges the request, and the sequencer completes the DVFS step. -/
  | avsbusAck
  /-- AVSBUS_ACK_TIMEOUT (R108): No acknowledgement arrives within 2 ms, so the sequencer abandons the step. -/
  | avsbusAckTimeout
  /-- AVSBUS_MONITOR (R479): Every 1 ms the master reads the rail voltage and current. -/
  | avsbusMonitor (good : Bool) (reading : AvsReading)
  /-- CLK_FORCED_SWITCH (R112): After 64 cycles of the new clock without an edge from the old one, a multiplexer switches by force. -/
  | clkForcedSwitch (mux : Nat)
  /-- FREQ_SOURCE_SET (R119): FREQ_SOURCE_SET selects the frequency-source mode, revertive behaviour and WTR. -/
  | freqSourceSet
  /-- SOURCE_QUALIFIED (R113): A plane holds frame lock for 2 s without LOS, LOL or LOF and qualifies as a frequency source. -/
  | sourceQualified (plane : Nat)
  /-- SOURCE_WTR_EXPIRY (R114): The preferred source has been qualified for WTR, and the DPLL reverts to it. -/
  | sourceWtrExpiry
  /-- DPLL_BRIDGE_EXPIRY (R117): The plane has not regained qualification 1 s into a protection switch, so the source counts as lost. -/
  | dpllBridgeExpiry
  /-- RC_TRIM (R120): Every 1 s the RC oscillator is measured against the trim reference and corrected, and REFCLK_SYS is compared with the line. -/
  | rcTrim (refIn : Bool) (ppb : Int)
  /-- TIME_ADJUST (R127): TIME_ADJUST steps device time by a signed offset, or refuses a step above TIME_STEP_MAX. -/
  | timeAdjust
  /-- TIME_FORCE (R128): TIME_FORCE sets device time absolutely or by offset and clears UNSYNCED. -/
  | timeForce
  /-- TIME_CONFIG (R131): TIME_CONFIG sets the step limit, PPS_OUT shape and offset, PPS_IN events and the trim reference. -/
  | timeConfig
  /-- CLOCK_STATUS (R135): CLOCK_STATUS returns the source, point, trim and clock settings. -/
  | clockStatus
  /-- PPS_OUT_RISE (R132): Device time plus the offset passes a whole second, and PPS_OUT rises. -/
  | ppsOutRise
  /-- PPS_OUT_FALL (R132): PPS_OUT falls after pps_out_width_us. -/
  | ppsOutFall
  /-- PPS_IN_EDGE (R133): A PPS_IN rising edge is latched into PPS_IN_TS and counted. -/
  | ppsInEdge
  /-- LANE_TX_EQ (R141): LANE_TX_EQ sets the transmit FIR, amplitude and polarity of a lane. -/
  | laneTxEq
  /-- LANE_RX_EQ (R142): LANE_RX_EQ sets the receiver equalisation mode, values and polarity. -/
  | laneRxEq
  /-- PORT_SIGNALS (R146): PORT_SIGNALS sets the polarities and timing of TX_EN, SD and BM_RST. -/
  | portSignals
  /-- HOST_LANE_LPI (R149): HOST_LANE_LPI sets the host port low-power-idle modes for the next link-up. -/
  | hostLaneLpi
  /-- LANE_TEST (R151): LANE_TEST starts or stops a lane test, or injects errors into a running test. -/
  | laneTest
  /-- LANE_STATUS (R158): LANE_STATUS returns the lane state, equalisation and counters. -/
  | laneStatus
  /-- OPTICS_CONFIG (R156): OPTICS_CONFIG sets the laser enable, bus speed, layout and poll period of a line port's optics. -/
  | opticsConfig
  /-- OPTICS_STATUS (R156): OPTICS_STATUS returns the last polled optics diagnostics. -/
  | opticsStatus
  /-- OPTICS_ACCESS (R157): OPTICS_ACCESS reads or writes module memory, and refuses writes to the transmit-disable control. -/
  | opticsAccess (answer : Option Bytes)
  /-- OPTICS_POLL (R156): Each poll period the master reads diagnostics and alarms and rewrites the transmit-disable control. -/
  | opticsPoll (port : Nat) (reading : Option OpticsReading)
  /-- OPTICS_BUS_STUCK (R156): The two-wire bus has been held low for more than 25 ms, so the master sends nine clocks. -/
  | opticsBusStuck (port : Nat)
  /-- CDR_LOCK_CHANGE (R159): CDR lock of a continuous lane is gained or lost. -/
  | cdrLockChange (lane : Nat) (locked : Bool)
  /-- SD_INPUT_CHANGE (R183): The SD input of a line port changes level, which starts or stops the LOS and LOL timing. -/
  | sdInputChange (port : Nat) (level : Bool)
  /-- SD_T_DEASSERT (R148): A deasserting edge of SD_T schedules a BM_RST pulse after bm_rst_delay. -/
  | sdTDeassert (port : Nat)
  /-- BM_RST_PULSE_START (R148): bm_rst_delay has passed, and BM_RST becomes active. -/
  | bmRstPulseStart (port : Nat)
  /-- BM_RST_PULSE_END (R148): bm_rst_width has passed, and BM_RST becomes inactive. -/
  | bmRstPulseEnd (port : Nat)
  /-- PLANE_CONFIG (R162): PLANE_CONFIG sets a stopped plane's mode and hunt parameters for the next start. -/
  | planeConfig
  /-- PLANE_START (R163): PLANE_START puts the plane's lanes in service, binds the engines and enters HUNT. -/
  | planeStart
  /-- PLANE_STOP (R164): PLANE_STOP drops TX_EN, ends framing, clears the defects and enters STOPPED. -/
  | planeStop
  /-- PLANE_STATUS (R188): PLANE_STATUS returns the plane state, defects, SFC and PON-ID. -/
  | planeStatus
  /-- PLANE_COUNTERS (R189): PLANE_COUNTERS returns the framing counters of the plane and optionally clears them. -/
  | planeCounters
  /-- DEFECT_CONFIG (R187): DEFECT_CONFIG sets the declaration and clearing thresholds of the port defects. -/
  | defectConfig
  /-- PSYNC_MATCH_HUNT (R166): A PSync match in HUNT at a new position opens a candidate, or is ignored and counted. -/
  | psyncMatchHunt (hunter : Nat) (psync : PsyncObs)
  /-- CANDIDATE_POSITION_REACHED (R166): At a candidate's expected position the hunter confirms the candidate, drops it, or locks on it. -/
  | candidatePositionReached (hunter : Nat) (cand : Nat) (psync : PsyncObs) (frame : FrameObs)
  /-- SYNC_POSITION_REACHED (R166): At the expected position in SYNC the frame is accepted, allowed as a miss, or lock is lost. -/
  | syncPositionReached (hunter : Nat) (psync : PsyncObs) (frame : FrameObs)
  /-- BWMAP_STRUCTURE (R225): An allocation structure that passes HEC is resolved by the Spout, placed as a burst or dropped, and expected by the tap delineator. -/
  | bwmapStructure (plane : Nat) (alloc : AllocStruct)
  /-- PLOAM_MESSAGE_RX (R176): A downstream PLOAM message is counted, checked and passed to its terminal or to the host queues. -/
  | ploamMessageRx (plane : Nat) (msg : DsMsg)
  /-- XGEM_FRAME_DELINEATED (R178): A non-idle XGEM frame is delineated, reassembled and passed to the Basin and the classifier. -/
  | xgemFrameDelineated (plane : Nat) (frame : XgemObs)
  /-- REASM_TIMEOUT (R181): A fragment has not arrived within reasm_frames, so the partial SDU is discarded and its context released. -/
  | reasmTimeout (plane : Nat) (portId : Nat)
  /-- LOS_DECLARE (R183): SD has been inactive for los_set, so LOS is declared. -/
  | losDeclare (port : Nat)
  /-- LOS_CLEAR (R183): SD has been active for los_clear, so LOS clears. -/
  | losClear (port : Nat)
  /-- LOL_DECLARE (R183): SD is active without CDR lock for lol_set, so LOL is declared. -/
  | lolDeclare (moment : DefectMoment)
  /-- LOL_CLEAR (R183): The CDR has been locked for lol_clear, so LOL clears. -/
  | lolClear (moment : DefectMoment)
  /-- LOF_DECLARE (R183): The port monitor has been out of SYNC for lof_set frames, so LOF is declared. -/
  | lofDeclare (moment : DefectMoment)
  /-- LOF_CLEAR (R183): SYNC has been held for lof_clear frames, so LOF clears. -/
  | lofClear (moment : DefectMoment)
  /-- LOFEC_WINDOW_END (R183): A 10 ms window ends and is judged for declaring or clearing LOFEC. -/
  | lofecWindowEnd (moment : DefectMoment)
  /-- SD_WINDOW_END (R183): A 100 ms window ends and is judged for declaring or clearing the SD defect. -/
  | sdWindowEnd (moment : DefectMoment)
  /-- TAP_BURST (R328): A tap burst is delineated, its frames are recorded and classified, and its BURST record is committed at its end. -/
  | tapBurst (plane : Nat) (burst : TapObs)
  /-- TERM_CREATE (R194): TERM_CREATE creates a terminal, DISABLED or in O1. -/
  | termCreate
  /-- TERM_DELETE (R197): TERM_DELETE silences the terminal, clears it and leaves it ABSENT. -/
  | termDelete
  /-- TERM_ENABLE (R197): TERM_ENABLE moves a terminal into O1, or disables it and discards its activation state. -/
  | termEnable
  /-- TERM_DISTANCE (R206): TERM_DISTANCE changes the emulated distance and response time at once or at a chosen boundary. -/
  | termDistance
  /-- TERM_CONFIG (R198): TERM_CONFIG sets the PLOAM mode, the PLOAM copy and the key mode. -/
  | termConfig
  /-- TERM_MSK (R216): TERM_MSK installs or clears the terminal's master session key and its derived keys. -/
  | termMsk
  /-- TERM_PORT_SET (R199): TERM_PORT_SET configures or invalidates an XGEM port context. -/
  | termPortSet
  /-- TERM_MISBEHAVE (R221): TERM_MISBEHAVE sets or clears a misbehaviour item from the next superframe boundary. -/
  | termMisbehave
  /-- TERM_STATUS (R222): TERM_STATUS returns the terminal's state, parameters and counters. -/
  | termStatus
  /-- TERM_PLOAM_SEND (R211): TERM_PLOAM_SEND queues an upstream PLOAM message. -/
  | termPloamSend
  /-- TERM_PLOAM_RECV (R212): TERM_PLOAM_RECV reads messages from a terminal's queue or the plane broadcast queue. -/
  | termPloamRecv
  /-- OMCI_SEND (R220): OMCI_SEND assembles a fragment of an upstream OMCI frame and queues the frame when it is complete. -/
  | omciSend
  /-- OMCI_RECV (R219): OMCI_RECV reads from the oldest downstream OMCI SDU of a terminal and removes it when fully read. -/
  | omciRecv
  /-- TERM_PLANE_CONFIG (R203): TERM_PLANE_CONFIG sets LOK, TO1, TO2 and the serial-number delay for a plane. -/
  | termPlaneConfig
  /-- TERM_VIEW_PLOAM (R200): A terminal acts on a PLOAM message in its own view, dist_steps after acceptance, and takes state transitions and answers. -/
  | termViewPloam (term : Nat)
  /-- TERM_VIEW_LODS (R217): A terminal sees, in its own view, the loss or regain of the downstream and declares or clears LODS. -/
  | termViewLods (term : Nat) (lost : Bool)
  /-- TERM_VIEW_KEY_INDEX (R215): A terminal sees a frame with a new valid key index and switches its upstream key index. -/
  | termViewKeyIndex (term : Nat) (keyIndex : Nat)
  /-- TO1_EXPIRY (R200): TO1 expires in O4, and the terminal returns to O2-3. -/
  | to1Expiry (term : Nat)
  /-- TO2_EXPIRY (R200): TO2 expires in O6, and the terminal falls to O1 with keys zeroised. -/
  | to2Expiry (term : Nat)
  /-- EV_TERMS_BULK (R204): Once every terminal reached by a plane-wide cause has acted on it, one event per state pair reports the count. -/
  | evTermsBulk (plane : Nat)
  /-- PLOAM_DELAY_EXPIRY (R221): A delayed upstream PLOAM message enters its queue, or is dropped when the queue is full. -/
  | ploamDelayExpiry (term : Nat)
  /-- BURST_START (R227): At a placed burst's training lead the Spout fetches and encrypts the payload and sends the burst under TX_EN. -/
  | burstStart (plane : Nat)
  /-- POOL_RESERVE (R237): POOL_RESERVE reserves the pattern pool in the store. -/
  | poolReserve
  /-- PATTERN_DESC_SET (R240): PATTERN_DESC_SET writes a pattern descriptor and resets its position. -/
  | patternDescSet
  /-- AMAP_WRITE (R243): AMAP_WRITE writes queue or context entries of the standby page. -/
  | amapWrite
  /-- AMAP_SWAP (R244): AMAP_SWAP exchanges the allocation-map pages at a chosen boundary. -/
  | amapSwap
  /-- AMAP_COPY_DONE (R244): Firmware finishes copying the new active page into the standby page. -/
  | amapCopyDone (plane : Nat)
  /-- SHAPER_SET (R246): SHAPER_SET sets a queue's shaper at once or holds an MV3200-compatible change. -/
  | shaperSet
  /-- BURST_CONFIG (R248): BURST_CONFIG selects whole-frame or fragmentation mode for a terminal. -/
  | burstConfig
  /-- SPOUT_STATUS (R249): SPOUT_STATUS returns the Spout counters of a plane. -/
  | spoutStatus
  /-- QUEUE_STATUS (R250): QUEUE_STATUS returns an allocation queue's shaper and counters. -/
  | queueStatus
  /-- RILL_MESSAGE (R254): A Rill message reaches the standby, which applies it in order or counts a CRC failure and has it resent. -/
  | rillMessage (plane : Nat) (crcOk : Bool)
  /-- RILL_KEEPALIVE (R256): The active engine sends a keep-alive after 2 µs without a change to send. -/
  | rillKeepalive (alive : KeepAlive)
  /-- RILL_TIMEOUT (R256): No valid message for 20 µs, or four failures of one message, takes the Rill DOWN and makes the standby STALE. -/
  | rillTimeout (plane : Nat)
  /-- RILL_RETRAIN (R256): While the Rill is DOWN, link training is retried every 100 ms. -/
  | rillRetrain (plane : Nat) (trained : Bool)
  /-- RILL_UP (R256): After the link has held for 1 s, the Rill is UP and the standby enters RESYNC. -/
  | rillUp (plane : Nat)
  /-- FULL_COPY_DONE (R257): The full copy has been applied, and the standby becomes CURRENT. -/
  | fullCopyDone (plane : Nat)
  /-- ENGINE_WATCHDOG (R258): An engine has not finished a frame 125 µs after its PSync and is faulty, which leads to a takeover or a fence. -/
  | engineWatchdog (engine : Nat)
  /-- MIRROR_CHECK_FAIL (R258): The standby is out of SYNC at the active SFC for 16 frames, or receives a change out of order, and is faulty. -/
  | mirrorCheckFail (engine : Nat) (cause : Nat)
  /-- SWAP_PERIOD_EXPIRY (R261): swap_period_s passes, and a periodic role swap is scheduled. -/
  | swapPeriodExpiry (plane : Nat)
  /-- ROLE_SWAP (R260): At a superframe boundary that meets the conditions, the engines exchange roles without a hit. -/
  | roleSwap (plane : Nat)
  /-- SWAP_ABANDON (R259): After 8 boundaries without its conditions met, the role swap is abandoned. -/
  | swapAbandon (plane : Nat)
  /-- HOLD_OFF_EXPIRY (R267): A trigger that persists for hold_off_ms causes a line switch. -/
  | holdOffExpiry (plane : Nat)
  /-- PROT_WTR_EXPIRY (R267): In revertive mode, the working port has been free of enabled defects for wtr_s, and the plane returns to it. -/
  | protWtrExpiry (plane : Nat)
  /-- PROT_CONFIG (R271): PROT_CONFIG sets the working port, triggers, revertive mode, timers and swap period. -/
  | protConfig
  /-- PROT_SWAP (R272): PROT_SWAP requests a role swap and answers after it. -/
  | protSwap
  /-- PROT_LINE (R273): PROT_LINE sets a LOCKOUT, FORCE, MANUAL or CLEAR request. -/
  | protLine
  /-- PROT_STATUS (R274): PROT_STATUS returns the protection state and counters. -/
  | protStatus
  /-- PROT_TAKEOVER_LIST (R275): PROT_TAKEOVER_LIST returns the map of terminals put in O1 by the latest takeover. -/
  | protTakeoverList
  /-- PROT_ENGINE_RESTORE (R276): PROT_ENGINE_RESTORE self-tests a FAILED engine and returns it to RESYNC or keeps it fenced. -/
  | protEngineRestore (passed : Bool)
  /-- CLS_PASS0 (R289): The classifier parses and looks up an item in PASS 0 and issues its action, or sends it for decryption. -/
  | clsPass0 (item : Nat)
  /-- CLS_PASS1 (R298): The decrypted plaintext is parsed and looked up in PASS 1 and the action is issued. -/
  | clsPass1 (item : Nat)
  /-- CLS_EXPIRY (R307): A frame still in the classifier 50 µs after entry expires without an action. -/
  | clsExpiry (item : Nat)
  /-- VERSION_RETIRED (R301): The last frame of a superseded version leaves, and the version retires and frees its shadow entries. -/
  | versionRetired
  /-- RULE_WRITE (R310): RULE_WRITE writes or invalidates a rule entry in the draft. -/
  | ruleWrite
  /-- PROFILE_WRITE (R311): PROFILE_WRITE writes a key profile in the draft. -/
  | profileWrite
  /-- CLS_SOURCE_WRITE (R312): CLS_SOURCE_WRITE writes a source's profile, FCS setting and default actions in the draft. -/
  | clsSourceWrite
  /-- RULE_COMMIT (R313): RULE_COMMIT commits the draft as a new version or discards it. -/
  | ruleCommit
  /-- RULE_STATUS (R314): RULE_STATUS reports the state of a committed version. -/
  | ruleStatus
  /-- RULE_READ (R315): RULE_READ returns a rule entry from the draft or a version. -/
  | ruleRead
  /-- CLS_COUNTERS (R317): CLS_COUNTERS returns a source's classifier counters. -/
  | clsCounters
  /-- CLS_CP_RECV (R316): CLS_CP_RECV reads the oldest COPY_CP copy of a source and removes it when fully read. -/
  | clsCpRecv
  /-- BASIN_DECISION (R320): The classifier's decision reaches the Basin, and the record is stored and committed in the chosen form. -/
  | basinDecision (basin : Nat) (item : Nat) (returned : Bool)
  /-- STAGING_TIMEOUT (R320): 2 µs after an item's end without a decision, it is stored in the Basin's own mode with DEFAULT_MODE set. -/
  | stagingTimeout (basin : Nat) (item : Nat) (returned : Bool)
  /-- FOLD_WINDOW_EXPIRY (R330): FOLD_WINDOW passes after a run's first frame, and the run closes. -/
  | foldWindowExpiry (basin : Nat)
  /-- EPOCH_SECOND (R331): At the first record boundary after each whole second, each running Basin writes an EPOCH record. -/
  | epochSecond (basin : Nat)
  /-- GAP_WRITE (R337): A Basin that can write again writes one GAP record covering its lost items. -/
  | gapWrite (basin : Nat)
  /-- WEIR_NO_RETURN (R336): A Weir that holds a record for more than 10 µs is fenced, and its records are written in KEEP form. -/
  | weirNoReturn (weir : Nat)
  /-- CAP_CONFIG (R352): CAP_CONFIG allocates a capture buffer and sets its mode and triggers. -/
  | capConfig
  /-- CAP_START (R340): CAP_START starts a capture in WAIT or RUNNING. -/
  | capStart
  /-- CAP_STOP (R351): CAP_STOP stops a capture and answers after its MARK record. -/
  | capStop
  /-- CAP_TRIGGER (R338): CAP_TRIGGER fires a trigger at the device time of execution. -/
  | capTrigger
  /-- CAP_RELEASE (R340): CAP_RELEASE frees a capture's segments. -/
  | capRelease
  /-- CAP_STATUS (R354): CAP_STATUS returns a capture's state and counters. -/
  | capStatus
  /-- CAP_SEGMENTS (R355): CAP_SEGMENTS lists retained segments by ordinal. -/
  | capSegments
  /-- CAP_EXPORT (R353): CAP_EXPORT starts an export of records to a ring or a host port. -/
  | capExport
  /-- CAP_WINDOW_MAP (R350): CAP_WINDOW_MAP maps or unmaps a BAR2 window. -/
  | capWindowMap
  /-- CAP_EXPORT_STOP (R351): CAP_EXPORT_STOP ends an export after the record in flight. -/
  | capExportStop
  /-- EXPORT_RECORD_SEND (R344): An export sends a waiting record to its ring buffers or host port frames. -/
  | exportRecordSend (exp : Nat)
  /-- RING_HOLD_EXPIRY (R344): ring_hold_us passes without buffers, so the record is dropped and RING_HEAD rewound. -/
  | ringHoldExpiry (exp : Nat)
  /-- KERNEL_LOAD (R374): KERNEL_LOAD begins, writes or ends the load of a kernel slot. -/
  | kernelLoad
  /-- JOB_SUBMIT (R375): JOB_SUBMIT queues a job, allocates its result segments and pins its input. -/
  | jobSubmit
  /-- JOB_STATUS (R379): JOB_STATUS returns a job's state, result and timing. -/
  | jobStatus
  /-- JOB_CANCEL (R376): JOB_CANCEL stops a job at a bundle boundary and ends it with result 4. -/
  | jobCancel
  /-- JOB_RELEASE (R376): JOB_RELEASE frees a done job and its result segments. -/
  | jobRelease
  /-- BUNDLE_ISSUE (R360): An Aster core issues one bundle of up to four instructions. -/
  | bundleIssue (core : Nat) (bundle : Bundle)
  /-- BLOCK_NEXT (R372): SVC 1 releases the last block and returns the next input block. -/
  | blockNext (core : Nat)
  /-- OUT_FLUSH (R372): SVC 2 appends output staging to the result segments. -/
  | outFlush (core : Nat)
  /-- DONE_SERVICE (R372): SVC 3 completes the job with the kernel's result code. -/
  | doneService (core : Nat)
  /-- CYCLES (R372): SVC 4 returns the cycles since entry. -/
  | cycles (core : Nat)
  /-- JOB_TIME_LIMIT (R376): A job reaches its time limit, and its core is stopped with result 3. -/
  | jobTimeLimit (core : Nat)
  /-- CORE_NO_ISSUE (R380): A core issues no bundle for 1 ms while not stalled and is fenced, and its job is re-run or ended. -/
  | coreNoIssue (core : Nat)
  /-- MEM_CONFIG (R404): MEM_CONFIG sets the scrub period, the fencing limit and the event interval. -/
  | memConfig
  /-- MEM_STATUS (R405): MEM_STATUS returns a stack's state and counters. -/
  | memStatus
  /-- MEM_SRAM_STATUS (R406): MEM_SRAM_STATUS returns the SRAM CRC counters. -/
  | memSramStatus
  /-- MEM_FLIP (R403): MEM_FLIP arms a flip mask on the next write into a memory. -/
  | memFlip
  /-- MEM_FENCE_LIST (R407): MEM_FENCE_LIST returns a map of fenced segments. -/
  | memFenceList
  /-- SCRUB_BLOCK (R395): Patrol scrub reads a block and rewrites it if corrected, unless a newer write intervened. -/
  | scrubBlock (stack : Nat)
  /-- INNER_COUNT_READ (R388): Every 1 s the controller reads the dies' inner correction counts. -/
  | innerCountRead (stack : Nat) (count : Nat)
  /-- STACK_TEMP_REPORT (R387): A stack reports its temperature, and the refresh rate is doubled or restored. -/
  | stackTempReport (stack : Nat) (above85 : Bool)
  /-- STACK_LINK_LOST (R394): A controller loses its link to a stack, and the whole stack is fenced. -/
  | stackLinkLost (stack : Nat)
  /-- SRAM_REPAIR_DONE (R399): A refetch or recompute after an SRAM CRC error completes or fails. -/
  | sramRepairDone (inst : Nat) (addr : Nat) (ok : Bool)
  /-- DMA_CHANNEL_RESET (R402): Firmware resets a DMA channel halted by an SRAM error. -/
  | dmaChannelReset (parterre : Nat) (channel : Nat)
  /-- KEK_ESTABLISH (R412): KEK_ESTABLISH runs an ECDH exchange and derives the device KEK. -/
  | kekEstablish
  /-- KEY_UNWRAP (R414): KEY_UNWRAP unwraps a key into a slot and makes it VALID. -/
  | keyUnwrap
  /-- KEY_ZEROISE (R416): KEY_ZEROISE overwrites a key and sets its slot EMPTY. -/
  | keyZeroise
  /-- KEY_STATUS (R433): KEY_STATUS returns a slot's state and usage. -/
  | keyStatus
  /-- BUNDLE_LOAD (R424): BUNDLE_LOAD starts the GCM load of a sealed bundle into the pool and marks the segments PENDING. -/
  | bundleLoad
  /-- SEG_SEAL_OUT (R428): SEG_SEAL_OUT starts sending a sealed segment to the host. -/
  | segSealOut
  /-- XFER_STATUS (R429): XFER_STATUS returns a transfer's state and outcome. -/
  | xferStatus
  /-- CIPHER_STATUS (R434): CIPHER_STATUS returns the KEK, entropy and transfer status. -/
  | cipherStatus
  /-- XFER_BUFFER (R423): A transfer consumes or fills one ring buffer and marks it DONE. -/
  | xferBuffer (xfer : Nat)
  /-- BUNDLE_TAG_CHECK (R425): After EOP the tag is compared, and the segments become READY or POISONED and start zero-filling. -/
  | bundleTagCheck (xfer : Nat)
  /-- ZERO_FILL_DONE (R425): The zero-fill of the touched segments completes and the transfer ends. -/
  | zeroFillDone (xfer : Nat)
  /-- XFER_STALL (R426): stall_ms passes without a usable descriptor, so the transfer is abandoned. -/
  | xferStall (xfer : Nat)
  /-- DRBG_RESEED (R430): Every 1 s the entropy source is health-tested and the CTR_DRBG is reseeded. -/
  | drbgReseed (failed : Nat)
  /-- HOST_PORT_CONFIG (R451): HOST_PORT_CONFIG sets a disabled host port's medium, negotiation, pause, addresses and timers. -/
  | hostPortConfig
  /-- HOST_PORT_START (R438): HOST_PORT_START puts a port's lanes in service and enters TRAINING. -/
  | hostPortStart
  /-- HOST_PORT_STOP (R438): HOST_PORT_STOP discards the queues and disables the port. -/
  | hostPortStop
  /-- HOST_PORT_STATUS (R456): HOST_PORT_STATUS returns a port's state and flags. -/
  | hostPortStatus
  /-- HOST_PORT_COUNTERS (R456): HOST_PORT_COUNTERS returns a port's counters. -/
  | hostPortCounters
  /-- HOST_CLASS_SET (R452): HOST_CLASS_SET sets a class policer and refills its tokens. -/
  | hostClassSet
  /-- HOST_PORT_SEND (R453): HOST_PORT_SEND queues a frame for transmission. -/
  | hostPortSend
  /-- HOST_PORT_RECV (R454): HOST_PORT_RECV removes the oldest frame of a port's CP receive queue. -/
  | hostPortRecv
  /-- PTP_TX_TS_READ (R455): PTP_TX_TS_READ returns the egress stamp of a sent frame. -/
  | ptpTxTsRead
  /-- HOST_LINK_UP (R438): The link-up condition is met, and the port enters UP. -/
  | hostLinkUp (port : Nat) (eeeNegotiated : Bool)
  /-- HOST_LINK_DOWN (R438): The link-up condition is lost, so the queues are discarded and the port re-enters TRAINING. -/
  | hostLinkDown (port : Nat) (cond : LinkLoss)
  /-- AN_RESTART (R438): A port in TRAINING restarts auto-negotiation every 1 s. -/
  | anRestart (port : Nat)
  /-- HOST_FRAME_RX (R443): A received frame is dropped, consumed as pause, or queued for the CP. -/
  | hostFrameRx (port : Nat) (data : Bytes) (check : RxCheck) (fecCorrected : Nat) (fecUncorrectable : Nat)
  /-- HOST_FRAME_TX (R440): The port sends the next whole frame from its highest unpaused class. -/
  | hostFrameTx (port : Nat)
  /-- PAUSE_EXPIRY (R445): A class's pause time runs out, and the class may send again. -/
  | pauseExpiry (port : Nat) (cls : Nat)
  /-- PAUSE_WD_EXPIRY (R446): A class paused longer than pause_wd_limit_ms has its pause ended and ignored for the hold time. -/
  | pauseWdExpiry (port : Nat) (cls : Nat)
  /-- PAUSE_WD_HOLD_END (R446): pause_wd_hold_ms ends, and pause frames are honoured again. -/
  | pauseWdHoldEnd (port : Nat) (cls : Nat)
  /-- LPI_IDLE_EXPIRY (R447): After tx_lpi_idle_us of idle, transmit low-power idle is entered. -/
  | lpiIdleExpiry (moment : LpiMoment)
  /-- CHASSIS_CONFIG (R462): CHASSIS_CONFIG sets the chassis bus enable, masks, mark period and ages. -/
  | chassisConfig
  /-- CHASSIS_SEND (R463): CHASSIS_SEND queues a chassis frame. -/
  | chassisSend
  /-- CHASSIS_STATUS (R464): CHASSIS_STATUS returns bus counters and peer entries. -/
  | chassisStatus
  /-- CHASSIS_FRAME_RX (R460): A chassis frame is received, checked, tracked, and fires a trigger or raises an event or wake. -/
  | chassisFrameRx (data : Bytes) (fcsOk : Bool)
  /-- CHASSIS_TX_ATTEMPT (R457): The chassis MAC attempts to send the head frame once the bus is idle. -/
  | chassisTxAttempt (collides : Bool)
  /-- CHASSIS_COLLISION (R457): A collision during an attempt causes a jam and a back-off, or discards the frame. -/
  | chassisCollision (late : Bool)
  /-- BACKOFF_EXPIRY (R457): The back-off after a collision ends, and the frame may be attempted again. -/
  | backoffExpiry
  /-- CHASSIS_TX_AGED (R457): A frame unsent after tx_max_age_ms is discarded. -/
  | chassisTxAged
  /-- PEER_AGE_EXPIRY (R461): A peer silent for peer_age_s leaves the table. -/
  | peerAgeExpiry (identity : BitVec 64)
  /-- MARK_PERIOD_EXPIRY (R461): Every mark_period_ms a time-mark frame is queued. -/
  | markPeriodExpiry
  /-- POWER_STATE (R486): POWER_STATE enters RUN, Hush or Still after the entry checks, or refuses. -/
  | powerState
  /-- POWER_BUDGET_SET (R487): POWER_BUDGET_SET sets the Sluice budget and the thermal ceiling. -/
  | powerBudgetSet
  /-- POWER_STATUS (R488): POWER_STATUS returns the power, thermal, budget and last-wake state. -/
  | powerStatus
  /-- GATE_ACK (R473): A block gives its idle acknowledgement, and its clock is gated or its island stopped. -/
  | gateAck (island : Nat)
  /-- GATE_TIMEOUT (R473): No idle acknowledgement within 4,096 CK_NOC cycles, so the gate is abandoned. -/
  | gateTimeout (island : Nat)
  /-- WAKE_TIMER_EXPIRY (R474): The wake timer expires timer_ms after entry and acts as a wake source. -/
  | wakeTimerExpiry
  /-- WAKE_COMPLETE (R475): The wake sequence ends: the device state is restored and the POWER_STATE response posted. -/
  | wakeComplete (stillNs : Nat)
  /-- SLUICE_WINDOW (R482): At each 10 ms window boundary, Sluice updates the balance, starts jobs and steps the point. -/
  | sluiceWindow (fixedUj : Nat)
  /-- THERMAL_READING (R481): The eight sensors are read every 1 ms, and the ceiling, THERM_HOT and THERM_CRIT are acted on. -/
  | thermalReading (temps : List Int)
  /-- LOG_READ (R503): LOG_READ returns log state and up to three slots. -/
  | logRead
  /-- LOG_CLEAR (R504): LOG_CLEAR starts erasing the event-log region. -/
  | logClear
  /-- LOG_ERASE_DONE (R504): The log erase ends, EV_LOG_CLEARED is recorded in slot 0, and the waiting records follow. -/
  | logEraseDone
  /-- RECORD_PROGRAMMED (R496): The flush engine finishes programming a waiting record into its slot. -/
  | recordProgrammed
  /-- HOUR_TICK (R494): A whole operating hour is counted and the counter journal is written. -/
  | hourTick
  /-- PWR_FAIL_N_ASSERT (R499): PWR_FAIL_N asserts, so new events are refused, the journal is written and a power-fail record is programmed. -/
  | pwrFailNAssert
  /-- PWR_FAIL_N_DEASSERT (R520): PWR_FAIL_N deasserts, and the recorder finishes its steps and accepts events again. -/
  | pwrFailNDeassert
  /-- UNASSIGNED_OPCODE (R72): The CP takes up a request whose opcode is not an assigned command of its block, and it completes with ST_UNSUPPORTED. -/
  | unassignedOpcode
  /-- PCIE_D0_CONFIG_WRITE (R474): A PCIe configuration write returns the function from D3hot to D0 and acts as wake source 2 in Still. -/
  | pcieD0ConfigWrite
  /-- PRBS_CHECKER_LOCK (R152): A PRBS checker locks after 64 error-free bits, or loses lock when more than 256 of 1,024 bits are in error and counts the loss. -/
  | prbsCheckerLock (lane : Nat) (good : Nat) (bad : Nat) (more : List (Nat × Nat))
  /-- WEIR_SELF_CHECK (R336): A Weir runs its self-check, and on failure it is fenced and its held records are written in KEEP form. -/
  | weirSelfCheck (weir : Nat) (passed : Bool)
  /-- SUPPLY_REMOVAL (R466): The supplies are removed and the device enters OFF, losing unflushed log records and uncounted hours. -/
  | supplyRemoval
deriving DecidableEq, Repr

end Sys2Proof
end

