-- ==== Sys2Proof/Decode.lean ====
section
/-!
DEFINITION. Commands as words. The MV4810 takes its commands as accesses, messages and events, and
spec/opcode_table.json gives no row any bits, so no word spells a command: opcodes of mailbox commands (R46, R72) stand
in the request that the CP reads, and Machine/Operands.lean reads them there.
-/
namespace Sys2Proof

/-- The command that a word of `nbits` bits spells by the table's bits: none, since no row of the table has any. -/
def decodeTableWord (_nbits _w : Nat) : Option Instr := none

end Sys2Proof
end

