-- ==== Sys2Proof/Machine/Data.lean ====
section
/-!
DEFINITION. Tables, byte-addressed memories, byte strings and check sums: the plain operations every other file of
the machine is written over.
-/
namespace Sys2Proof.Machine

/-- A byte-addressed memory: cells with strictly rising addresses, none equal to what an unlisted address reads as. -/
abbrev Mem := List Host.Cell

/-! ### Tables -/

/-- The entry of key `k`, or the default `d` where the table lists none. -/
def tget {α : Type} (d : α) : Tab α → Nat → α
  | [], _ => d
  | (j, v) :: t, k => if k = j then v else tget d t k

/-- The entry of key `k`, or none. -/
def tfind {α : Type} : Tab α → Nat → Option α
  | [], _ => none
  | (j, v) :: t, k => if k = j then some v else tfind t k

/-- The table with `v` at key `k`. -/
def tset {α : Type} : Tab α → Nat → α → Tab α
  | [], k, v => [(k, v)]
  | (j, w) :: t, k, v =>
    if k < j then (k, v) :: (j, w) :: t
    else if k = j then (k, v) :: t
    else (j, w) :: tset t k v

/-- The table without key `k`. -/
def tdel {α : Type} : Tab α → Nat → Tab α
  | [], _ => []
  | (j, w) :: t, k => if k = j then tdel t k else (j, w) :: tdel t k

/-- The table with `f` applied to the entry of key `k`. -/
def tmod {α : Type} (d : α) (t : Tab α) (k : Nat) (f : α → α) : Tab α :=
  tset t k (f (tget d t k))

/-- The keys the table lists. -/
def tkeys {α : Type} (t : Tab α) : List Nat := t.map Prod.fst

/-- The table with `f` applied to every listed entry. -/
def tmap {α : Type} (t : Tab α) (f : Nat → α → α) : Tab α := t.map fun e => (e.1, f e.1 e.2)

/-- Strictly rising keys. -/
def tsorted {α : Type} : Tab α → Bool
  | [] => true
  | [_] => true
  | (j, _) :: (k, w) :: t => decide (j < k) && tsorted ((k, w) :: t)

/-! ### Memories -/

/-- The byte at address `a`; `d` is what an unlisted address reads as. -/
def Memory.read (d : Byte) (m : Mem) (a : Nat) : Byte := tget d m a

/-- The memory with byte `b` at address `a`, in canonical form. -/
def Memory.write (d : Byte) (m : Mem) (a : Nat) (b : Byte) : Mem :=
  if b = d then tdel m a else tset m a b

/-- `n` bytes from address `a`. -/
def Memory.readBytes (d : Byte) (m : Mem) (a : Nat) : Nat → Bytes
  | 0 => []
  | n + 1 => Memory.read d m a :: Memory.readBytes d m (a + 1) n

/-- The memory with the bytes `bs` from address `a`. -/
def Memory.writeBytes (d : Byte) (m : Mem) (a : Nat) : Bytes → Mem
  | [] => m
  | b :: bs => Memory.writeBytes d (Memory.write d m a b) (a + 1) bs

/-- The memory with `n` bytes from address `a` unlisted again. -/
def Memory.clear (m : Mem) (a n : Nat) : Mem :=
  m.filter fun c => decide (c.1 < a ∨ a + n ≤ c.1)

/-- The canonical form: strictly rising addresses and no entry equal to the default byte. -/
def Memory.wf (d : Byte) (m : Mem) : Bool := tsorted m && m.all fun c => decide (c.2 ≠ d)

/-! ### Byte strings -/

/-- The low `n` bytes of `v`, least significant first (R8). -/
def le : Nat → Nat → Bytes
  | 0, _ => []
  | n + 1, v => BitVec.ofNat 8 v :: le n (v / 256)

/-- The number a little-endian byte string holds (R8). -/
def leNat : Bytes → Nat
  | [] => 0
  | b :: bs => b.toNat + 256 * leNat bs

/-- The number a byte string holds in network byte order (R8). -/
def beNat (bs : Bytes) : Nat := leNat bs.reverse

/-- The low `n` bytes of `v` in network byte order (R8). -/
def be (n v : Nat) : Bytes := (le n v).reverse

/-- `n` zero bytes. -/
def zeros (n : Nat) : Bytes := List.replicate n 0

/-- `n` bytes from offset `o`; bytes beyond the end are 0. -/
def slice (bs : Bytes) (o n : Nat) : Bytes :=
  let t := (bs.drop o).take n
  t ++ zeros (n - t.length)

/-- The bytes cut or filled with zeros to `n`. -/
def fit (n : Nat) (bs : Bytes) : Bytes := slice bs 0 n

/-- The byte at offset `o`, 0 beyond the end. -/
def u8 (bs : Bytes) (o : Nat) : Nat := (bs.getD o 0).toNat

/-- The little-endian 16-bit field at offset `o`. -/
def u16 (bs : Bytes) (o : Nat) : Nat := leNat (slice bs o 2)

/-- The little-endian 32-bit field at offset `o`. -/
def u32 (bs : Bytes) (o : Nat) : Nat := leNat (slice bs o 4)

/-- The little-endian 64-bit field at offset `o`. -/
def u64 (bs : Bytes) (o : Nat) : Nat := leNat (slice bs o 8)

/-- The bytes with `p` written over them from offset `o`. -/
def patch (bs : Bytes) (o : Nat) (p : Bytes) : Bytes :=
  bs.take o ++ p ++ bs.drop (o + p.length)

/-- Every byte of the field at offset `o` of `n` bytes is 0 (R9). -/
def zeroAt (bs : Bytes) (o n : Nat) : Bool := (slice bs o n).all fun b => b == 0

/-- The signed reading of the low `w` bits of `v`. -/
def signed (w v : Nat) : Int := (BitVec.ofNat w v).toInt

/-- The `w`-bit pattern of a signed number. -/
def unsigned (w : Nat) (v : Int) : Nat := (BitVec.ofInt w v).toNat

/-- Bit `i` of `v`. -/
def bit (v i : Nat) : Bool := v.testBit i

/-- Bits `i + n - 1` down to `i` of `v`. -/
def field (v i n : Nat) : Nat := (v >>> i) % 2 ^ n

/-- 1 for true, 0 for false. -/
def b2n (b : Bool) : Nat := if b then 1 else 0

/-- The number whose bit `i` is `f i`, for the `n` lowest bits. -/
def maskOf (n : Nat) (f : Nat → Bool) : Nat :=
  (List.range n).foldl (fun acc i => acc + b2n (f i) * 2 ^ i) 0

/-- The numbers of the set bits among the `n` lowest of `v`, rising. -/
def bitsOf (n v : Nat) : List Nat := (List.range n).filter (bit v)

/-- A sum that stops at the largest `w`-bit number. -/
def satAdd (w a b : Nat) : Nat := min (a + b) (2 ^ w - 1)

/-- The position and the element of the first list entry that satisfies `p`. -/
def firstIdx {α : Type} (p : α → Bool) : List α → Nat → Option Nat
  | [], _ => none
  | x :: xs, n => if p x then some n else firstIdx p xs (n + 1)

/-! ### Check sums -/

/-- One bit of CRC-32C, reflected. -/
def crc32cBit (c : Nat) : Nat :=
  if c % 2 = 1 then (c / 2) ^^^ 0x82F63B78 else c / 2

/-- One byte of CRC-32C. -/
def crc32cByte (c : Nat) (b : Byte) : Nat :=
  let x := c ^^^ b.toNat
  crc32cBit (crc32cBit (crc32cBit (crc32cBit (crc32cBit (crc32cBit (crc32cBit (crc32cBit x)))))))

/-- CRC-32C of a byte string (R46, R80, R323). -/
def crc32c (bs : Bytes) : Nat := bs.foldl crc32cByte 0xFFFFFFFF ^^^ 0xFFFFFFFF

/-- One bit of the CRC-16 of R492, most significant bit first. -/
def crc16Bit (c : Nat) : Nat :=
  if c / 0x8000 % 2 = 1 then (c * 2 % 0x10000) ^^^ 0x1021 else c * 2 % 0x10000

/-- One byte of the CRC-16 of R492. -/
def crc16Byte (c : Nat) (b : Byte) : Nat :=
  let x := c ^^^ (b.toNat * 256)
  crc16Bit (crc16Bit (crc16Bit (crc16Bit (crc16Bit (crc16Bit (crc16Bit (crc16Bit x)))))))

/-- The CRC-16 of R492: polynomial x^16 + x^12 + x^5 + 1, initial value 0xFFFF. -/
def crc16 (bs : Bytes) : Nat := bs.foldl crc16Byte 0xFFFF

end Sys2Proof.Machine
end

