-- ==== Sys2Proof/Config.lean ====
section
/-!
DEFINITION. What the spec leaves open, as constants without a body: no proof can see their value, so every claim
holds for every value. The cryptographic primitives stand here too: the spec names them by their standards and the
model uses them as functions about which nothing is assumed.
-/
namespace Sys2Proof

/-- The n-th free value drawn by the machine, as a number (log 7). -/
opaque Config.freeNat : Nat → Nat

/-- The n-th free byte string of a given length (log 7). -/
opaque Config.freeBytes : Nat → Nat → Bytes

/-- The undefined byte that the store holds at an address since a reservation of the pattern pool (R237, log 7). -/
opaque Config.storeByte : Nat → Nat → Byte

/-- The n-th draw from the CTR_DRBG, as a number (R430, log 7). -/
opaque Config.drbg : Nat → Nat

/-- ECDSA P-384 with SHA-384 under the device identity key, from a nonce draw and the signed bytes (R93, R95). -/
opaque Config.sign : Nat → Bytes → Bytes

/-- The token stream a Weir chooses for a frame's bytes in PACK form (R327, log 7). -/
opaque Config.packTokens : Nat → Bytes → Bytes

/-- Whether the runtime's self-check at the start of an attempt passes, by the n-th free value (R380, log 7). -/
opaque Config.coreSelfCheck : Nat → Bool

/-- The hundredths of an operating hour that passed while CK_TS stood (R494): a free value for the hours counted so far and
the sequence number that the log gives next (log 81). -/
opaque Config.hourUnseen : Nat → Nat → Nat

/-- XTS-AES encryption of a data unit: key, unit number, plaintext (R342). -/
opaque Config.xtsEncrypt : Bytes → Nat → Bytes → Bytes

/-- XTS-AES decryption of a data unit: key, unit number, ciphertext (R342). -/
opaque Config.xtsDecrypt : Bytes → Nat → Bytes → Bytes

/-- Whether a 97-byte string is a valid point of P-384 (R412). -/
opaque Config.p384Valid : Bytes → Bool

/-- The public point of an ephemeral private value, 97 bytes (R412). -/
opaque Config.p384Public : Nat → Bytes

/-- The ECDH shared secret of a private value and a public point (R412). -/
opaque Config.p384Shared : Nat → Bytes → Bytes

/-- AES-KW unwrap under a key: none when the integrity check fails (R414, R216). -/
opaque Config.aesUnwrap : Bytes → Bytes → Option Bytes

/-- AES-GCM encryption or decryption of a byte string: key, IV, input (R418). -/
opaque Config.gcmCrypt : Bytes → Bytes → Bytes → Bytes

/-- CTR encryption or decryption of a frame's payload: key, counter block, input (R418). -/
opaque Config.ctrCrypt : Bytes → Nat → Bytes → Bytes

/-- The GCM tag: key, IV, additional data, ciphertext (R418). -/
opaque Config.gcmTag : Bytes → Bytes → Bytes → Bytes → Bytes

/-- The result of an Aster compare: kind and sources (R363 names compares and gives no result value; log 31). -/
opaque Config.asterCompare : Nat → BitVec 32 → BitVec 32 → BitVec 32

/-- The result of an Aster shift by 32 or more: kind, value, amount (log 31). -/
opaque Config.asterShift : Nat → BitVec 32 → BitVec 32 → BitVec 32

/-- Whether the n-th pattern of more than four symbols escapes the outer code (R389, log 7). -/
opaque Config.miscorrects : Nat → Bool

/-- Bytes of the unit of StartTime on plane B, by the burst's rate code (R225; the spec leaves it to G.9804.2,
log 40). -/
opaque Config.startUnit : Nat → Nat

/-- Bytes of the unit of a DBRu on plane B (R232, log 40). -/
opaque Config.dbruUnit : Nat

/-- The largest value a DBRu can carry (R232, log 40). -/
opaque Config.dbruMax : Nat

/-- Ticks of 1/155,520 ns of one unit of the equalisation delay, by plane (R227, log 40). -/
opaque Config.eqdTicks : Nat → Nat

/-- The 13-bit HEC over the fields of a header (R230, R234; the spec leaves the code to the standards, log 70). -/
opaque Config.hec13 : Nat → Nat

/-- The bytes of an upstream PLOAM message from its type, the ONU-ID, its content and the MSK of its keys (R210, R211,
log 70). -/
opaque Config.upPloam : Nat → Nat → Bytes → Option (BitVec 128) → Bytes

/-- The 4 bytes that carry a DBRu value (R232, log 70). -/
opaque Config.dbruField : Nat → Bytes

/-- The parity of RS(248,232) over a codeword's data (R230). -/
opaque Config.rsParity : Bytes → Bytes

/-- An upstream burst of plane B under its LDPC code (R230, log 40). -/
opaque Config.ldpcBurst : Bytes → Bytes

/-- Parity bytes of an upstream LDPC burst on plane B, from the bytes of its FS burst (R230, log 40). -/
opaque Config.parityB : Nat → Nat

/-- Payload bits of a downstream LDPC codeword of plane B (R173, R183, log 40). -/
opaque Config.codewordBitsB : Nat

/-- Downstream LDPC codewords of a frame of plane B (R160, log 40). -/
opaque Config.frameCodewordsB : Nat

/-- The first and the last downstream codeword of plane B that hold bytes of an XGEM frame, from the ticks between its
PSync and its header and its length (R172, log 40). -/
opaque Config.codewordsB : Nat → Nat → Nat × Nat

end Sys2Proof
end

