-- ==== Sys2Proof/Machine/State.lean ====
section
/-!
DEFINITION. The state of the MV4810: every register, table, queue, counter, mode and pin the spec names, as plain
data; the reasons a step can stop; and the state right after reset. Each field's docstring names its rule; the
default of each field is its value at reset.
-/
namespace Sys2Proof.Machine

/-- Why a step can fault. No command of this block faults on a path the spec gives an effect to. -/
inductive Fault where
  /-- Raised by no meaning of this block: every access the spec leaves undecoded has a stated answer (R36, R39).
  Safe. -/
  | none
deriving DecidableEq, Repr

/-- Why a step can be refused. -/
inductive Refusal where
  /-- Raised by an arm of `exec` whose command has no meaning yet. Safe. -/
  | notModelled (mnemonic : String)
deriving DecidableEq, Repr

/-- The header of the image in the boot flash at reset, 256 bytes in the layout of R80: a GOOD image A of 4,096
bytes, sequence 1, whose four stages are one erased byte each (DESIGN CHOICE, log 11). -/
def factoryHeader : Bytes :=
  [0x46, 0x58, 0x45, 0x56, 0x17, 0xCB, 0x85, 0xD2, 0x01, 0x00, 0x00, 0x01, 0x01, 0x00, 0x00, 0x00] ++
  [0x3F, 0x00, 0x00, 0x00, 0x00, 0x10, 0x00, 0x00, 0x00, 0x01, 0x00, 0x00, 0x01, 0x00, 0x00, 0x00] ++
  [0x00, 0x00, 0x00, 0x00, 0x00, 0x00, 0x00, 0xFF, 0x01, 0x01, 0x00, 0x00, 0x01, 0x00, 0x00, 0x00] ++
  [0x01, 0x00, 0x00, 0x00, 0x00, 0x00, 0x00, 0xFF, 0x02, 0x01, 0x00, 0x00, 0x01, 0x00, 0x00, 0x00] ++
  [0x02, 0x00, 0x00, 0x00, 0x00, 0x00, 0x00, 0xFF, 0x03, 0x01, 0x00, 0x00, 0x01, 0x00, 0x00, 0x00] ++
  [0x03, 0x00, 0x00, 0x00, 0x00, 0x00, 0x00, 0xFF, 0x00, 0x00, 0x00, 0x00, 0x00, 0x00, 0x00, 0x00] ++
  [0x00, 0x00, 0x00, 0x00, 0x00, 0x00, 0x00, 0x00, 0x00, 0x00, 0x00, 0x00, 0x00, 0x00, 0x00, 0x00] ++
  [0x00, 0x00, 0x00, 0x00, 0x00, 0x00, 0x00, 0x00, 0x00, 0x00, 0x00, 0x00, 0x00, 0x00, 0x00, 0x00] ++
  [0x00, 0x00, 0x00, 0x00, 0x00, 0x00, 0x00, 0x00, 0x00, 0x00, 0x00, 0x00, 0x00, 0x00, 0x00, 0x00] ++
  [0x00, 0x00, 0x00, 0x00, 0x00, 0x00, 0x00, 0x00, 0x00, 0x00, 0x00, 0x00, 0x00, 0x00, 0x00, 0x00] ++
  [0x00, 0x00, 0x00, 0x00, 0x00, 0x00, 0x00, 0x00, 0x00, 0x00, 0x00, 0x00, 0x00, 0x00, 0x00, 0x00] ++
  [0x00, 0x00, 0x00, 0x00, 0x00, 0x00, 0x00, 0x00, 0x00, 0x00, 0x00, 0x00, 0x00, 0x00, 0x00, 0x00] ++
  [0x00, 0x00, 0x00, 0x00, 0x00, 0x00, 0x00, 0x00, 0x00, 0x00, 0x00, 0x00, 0x00, 0x00, 0x00, 0x00] ++
  [0x00, 0x00, 0x00, 0x00, 0x00, 0x00, 0x00, 0x00, 0x00, 0x00, 0x00, 0x00, 0x00, 0x00, 0x00, 0x00] ++
  [0x00, 0x00, 0x00, 0x00, 0x00, 0x00, 0x00, 0x00, 0x00, 0x00, 0x00, 0x00, 0x00, 0x00, 0x00, 0x00] ++
  [0x00, 0x00, 0x00, 0x00, 0x00, 0x00, 0x00, 0x00, 0x00, 0x00, 0x00, 0x00, 0x00, 0x00, 0x00, 0x00]

/-- The image regions of the boot flash at reset (DESIGN CHOICE, log 11): the header above at image A's offset. -/
def factoryFlash : Mem :=
  (factoryHeader.zipIdx 0x100000).filterMap fun c => if c.1 = 0xFF then none else some (c.2, c.1)

/-- The digests of that image's stages, each one erased byte (R86, log 11). -/
def factoryDigests : Tab (BitVec 384) :=
  [0, 1, 2, 3].map fun k =>
    (k, 0x43950796d9883503655e35b5190aee687a2dd99f265012625b95753978e4efff3e8414d178a6e2318480d8eb6ddee643)

/-- DEVICE_STATE.STATE (R41). -/
inductive DevState where
  | boot | ready | run | hush | still | update | fault
deriving DecidableEq, Repr

/-- State of a mailbox slot (R44). -/
inductive SlotState where
  | free | submitted | executing | done
deriving DecidableEq, Repr

/-- State of the SMBus fallback mailbox (R69). -/
inductive SmbState where
  | idle | executing | ready
deriving DecidableEq, Repr

/-- Who requested a step of the CK_CORE point (R108, R110). -/
inductive StepOrigin where
  | sluice | thermal | power | command
deriving DecidableEq, Repr

/-- An upstream PLOAM message by its content (R208 to R211, R214). -/
inductive UpBody where
  /-- Serial_Number_ONU. -/
  | serialNumber (serial : Bytes)
  /-- Registration. -/
  | registration (regId : Bytes)
  /-- Key_Report: index, key, and the MSK whose KEK encrypts it, none for the default (R214, R216). -/
  | keyReport (index : Nat) (key : Bytes) (msk : Option (BitVec 128))
  /-- Acknowledge: 0 done, 1 parameter error, 2 no message to send. -/
  | acknowledge (code : Nat) (msk : Option (BitVec 128))
  /-- TERM_PLOAM_SEND: the bytes, and the MSK of the key under which the MV4810 writes the MIC, if it does (R211). -/
  | host (msg : Bytes) (mic : Option (Option (BitVec 128)))
deriving DecidableEq, Repr

/-- What a host port advertises in Clause 73 auto-negotiation (R436, R437). -/
structure Advert where
  /-- The PHY type: 0 100GBASE-KR4, 1 100GBASE-CR4. -/
  medium : Nat
  /-- RS-FEC ability. -/
  rsFec : Bool
  /-- EEE ability. -/
  eee : Bool
  /-- The port honours pause from its partner. -/
  honoursPause : Bool
  /-- The port sends pause. -/
  sendsPause : Bool
deriving DecidableEq, Repr

/-- An announced upstream burst profile (R177, R226) -/
structure BurstProfile where
  /-- R328: rate code 0 to 4 -/
  rate : Nat := 0
  /-- R227: preamble bits -/
  preBits : Nat := 0
  /-- R227: delimiter bits -/
  delBits : Nat := 0
  /-- R230: FEC enabled -/
  fec : Bool := false
  /-- R230: preamble pattern, repeated to its length -/
  preamble : Bytes := []
  /-- R230: delimiter pattern -/
  delimiter : Bytes := []
deriving DecidableEq, Repr

/-- One frame of a placed burst (R230, R234) -/
structure UpFrame where
  /-- R233: 0 idle, 1 OMCI, 2 pattern, 3 zero fill -/
  kind : Nat := 0
  /-- R234: XGEM Port-ID -/
  portId : Nat := 0
  /-- R234: its context encrypts upstream -/
  enc : Bool := false
  /-- R221: the key index that WRONG_KEY_INDEX puts into the header -/
  wrong : Option Nat := none
  /-- R234: key index in the header, from the sending on -/
  keyIdx : Nat := 0
  /-- R234: key index the payload is encrypted under, from the sending on; 0 clear -/
  encKey : Nat := 0
  /-- R234: LF -/
  lf : Bool := true
  /-- R236: a continuation of a cut frame -/
  more : Bool := false
  /-- R240: descriptor of a pattern frame -/
  desc : Nat := 0
  /-- R241: the descriptor's kind -/
  gen : Nat := 0
  /-- R241: polynomial of kind 2 -/
  poly : Nat := 0
  /-- R241: pool offset of the SDU bytes, generator state at the SDU's first byte, or the fill byte -/
  src : Nat := 0
  /-- R236: first byte of the SDU sent in this frame -/
  off : Nat := 0
  /-- R234: payload bytes -/
  len : Nat := 0
  /-- R234: bytes taken in the allocation -/
  space : Nat := 0
  /-- R241: sequence stamp -/
  stamp : Option Nat := none
  /-- R241: stamp_offset -/
  stampAt : Nat := 0
  /-- R230: payload bytes: OMCI bytes at placing, pattern bytes once sent -/
  data : Bytes := []
  /-- R231: mask on the XGEM header HEC -/
  hecMask : Nat := 0
deriving DecidableEq, Repr

/-- One allocation of a placed burst (R230) -/
structure UpAlloc where
  /-- R225: Alloc-ID -/
  alloc : Nat := 0
  /-- R22: allocation queue -/
  queue : Nat := 0
  /-- R225: GrantSize in words -/
  grant : Nat := 0
  /-- R225: DBRu flag -/
  wantDbru : Bool := false
  /-- R232: DBRu value in the plane's unit -/
  dbru : Option Nat := none
  /-- R233: filled frames -/
  frames : List UpFrame := []
deriving DecidableEq, Repr

/-- A placed burst (R227 to R231) -/
structure Burst where
  /-- R224: flat index of the terminal -/
  f : Nat := 0
  /-- R227: T, first preamble bit, in ticks -/
  start : Nat := 0
  /-- R229: end of the last bit, in ticks -/
  stop : Nat := 0
  /-- R226: ticks per bit at the burst's rate -/
  bitTicks : Nat := 0
  /-- R226: profile index -/
  profile : Nat := 0
  /-- R226: the profile as the placing found it -/
  prof : BurstProfile := {}
  /-- R226: rate code -/
  rate : Nat := 0
  /-- R225: PLOAM flag of the first allocation -/
  wantPloam : Bool := false
  /-- R225: StartTime of the first allocation, in bytes of the upstream frame -/
  pos : Nat := 0
  /-- R225: end of its last allocation, in bytes of the upstream frame -/
  endPos : Nat := 0
  /-- R230: ONU-ID in the FS header -/
  onuId : Nat := 0
  /-- R201: a serial-number response -/
  sn : Bool := false
  /-- R205: state of the terminal in its own view of the grant -/
  view : Nat := 0
  /-- R230: upstream PLOAM message -/
  ploam : Option UpBody := none
  /-- R215: upstream key index of its frames, from the sending on -/
  keyIdx : Nat := 0
  /-- R205: messages and plane-wide causes that the terminal has yet to act on before it sees the grant -/
  after : Nat := 0
  /-- R205, R210: its message is an answer to a message that is not yet in the terminal's view -/
  owed : Bool := false
  /-- R230: indication field -/
  ploamWaiting : Bool := false
  /-- R230: allocations in map order -/
  allocs : List UpAlloc := []
  /-- R230: words of the FS burst before FEC -/
  words : Nat := 0
  /-- R231: BIP_CORRUPT mask -/
  bipMask : Nat := 0
  /-- R231: FS header HEC mask -/
  hecMask : Nat := 0
  /-- R268: port code of the map it was placed from -/
  epoch : Nat := 0
  /-- R228: 12 µs after t_b + d of its map, in ticks -/
  earliest : Nat := 0
  /-- R205: number of the structure that its grant began with -/
  grantNo : Nat := 0
deriving DecidableEq, Repr

/-- What left the device; the model's own record (log 6). -/
inductive Out where
  /-- R64: an MSI-X message of a vector. -/
  | msix (vector : Nat)
  /-- R143, R144: TX_EN of a line port is driven active or inactive, at a line instant in ticks or, with none, at once. -/
  | txEn (port : Nat) (active : Bool) (at_ : Option Int)
  /-- R144, R145: a transmit lane enters or leaves electrical idle at a line instant. -/
  | laneIdle (port : Nat) (idle : Bool) (at_ : Int)
  /-- R144, R145: between two line instants a transmit lane sends 1010, or zeros in a bridged gap, inverted or not (R141). -/
  | laneFill (port : Nat) (ones inverted : Bool) (start stop : Int)
  /-- R227, R230: an upstream burst on a transmit lane, and its bits at the lane's rate as the balls carry them (R141). -/
  | burst (port : Nat) (burst : Burst) (bits : List Bool)
  /-- R440: a frame sent by a host port, without its FCS. -/
  | hostFrame (port : Nat) (data : Bytes)
  /-- R436, R437: what a host port advertises as Clause 73 auto-negotiation begins. -/
  | anAdvertise (port : Nat) (advert : Advert)
  /-- R447: transmit low-power idle of a host port. -/
  | hostLpi (port : Nat)
  /-- R457: an attempt of the chassis MAC to send a frame, without its FCS. -/
  | chassisFrame (data : Bytes)
  /-- R457: the jam after a collision. -/
  | chassisJam
  /-- R479: an AVSBus write of the rail voltage in mV, with commit. -/
  | avsWrite (mv : Nat)
  /-- R479: an AVSBus status read. -/
  | avsStatus
  /-- R479: an AVSBus read of the rail voltage and current. -/
  | avsRead
  /-- R156: the two-wire master writes the bank and page selection of a CMIS module before an access. -/
  | opticsSelect (port bank page : Nat)
  /-- R155: the two-wire master sets or clears the transmit-disable bits of a module: device address, byte and the mask of
  the bits in it. -/
  | opticsDisable (port dev addr mask : Nat) (disabled : Bool)
  /-- R157: the two-wire master writes module memory: device address, bank, page, first byte, data. -/
  | opticsWrite (port dev bank page addr : Nat) (data : Bytes)
  /-- R151, R152: a lane's generator begins a pattern; its first 64 bits as the balls carry them (R141). -/
  | testPattern (lane gen : Nat) (first : List Bool)
  /-- R151: errors are inserted into a lane's pattern: one, or one every so many bits. -/
  | testErrors (lane inject interval : Nat)
  /-- R153: a lane's transmitter repeats the data that its receiver recovers. -/
  | farLoop (lane : Nat)
  /-- R156: nine clocks on a stuck two-wire bus. -/
  | opticsClocks (port : Nat)
deriving DecidableEq, Repr

/-- The channel, client and tag an event or a continuation carries (R65, R50) -/
structure Cause where
  /-- R65: channel 0 to 16 -/
  channel : Nat := 0
  /-- R65: client of the causing command -/
  client : Nat := 0
  /-- R65: tag of the causing command -/
  tag : Nat := 0
deriving DecidableEq, Repr

/-- One event before it has a sequence number (R65) -/
structure Event where
  /-- R65: EV_ code, 16 bits -/
  code : Nat := 0
  /-- R65: object_id, 32 bits -/
  obj : Nat := 0
  /-- R65: argument bytes, at most 40; bytes past the list are 0 -/
  args : Bytes := []
  /-- R65: set when flags.CMD is 1 -/
  cause : Option Cause := none
  /-- R65: device time in ns when the event arose -/
  time : BitVec 64 := 0
deriving DecidableEq, Repr

/-- A request whose response is still to be posted (R50) -/
structure Exec where
  /-- R46: command -/
  opcode : Nat := 0
  /-- R49: channel -/
  ch : Nat := 0
  /-- R44: slot -/
  slot : Nat := 0
  /-- R46: tag -/
  tag : Nat := 0
  /-- R46: client -/
  client : Nat := 0
  /-- R46: flags bit 0 -/
  irq : Bool := false
  /-- R38: a Function Level Reset came while it executed -/
  discard : Bool := false
deriving DecidableEq, Repr

/-- What the last host access that returns something returned -/
structure BusAnswer where
  /-- R36, R477: 32-bit words of the last read -/
  words : List (BitVec 32) := []
  /-- R69: bytes of the last SMBus read -/
  bytes : Bytes := []
  /-- R69, R70: the last SMBus transaction was acknowledged -/
  ack : Bool := true
  /-- R390: the last completion had the EP bit set -/
  poisoned : Bool := false
deriving DecidableEq, Repr

/-- What the device is given at manufacture and keeps (R40, R79) -/
structure Ident where
  /-- R40: ID_PART.VARIANT, 8 bits: 0 MV4810-BGH, 1 MV4810L-BGH; DESIGN CHOICE 0 (log 4) -/
  variant : Nat := 0
  /-- R40: ID_PART.STEPPING; DESIGN CHOICE 0x10 (log 4) -/
  stepping : BitVec 8 := 0x10
  /-- R40: device serial number; DESIGN CHOICE 0 (log 4) -/
  serial : BitVec 64 := 0
  /-- R96, R78, R79: certificate chain of the device data region, which no command erases: two certificates, each after its length; DESIGN CHOICE one-byte stand-ins (log 12) -/
  certChain : Bytes := [0x01, 0x00, 0x00, 0x00, 0x30, 0x01, 0x00, 0x00, 0x00, 0x30]
deriving DecidableEq, Repr

/-- Identity region, device state and the CP's execution (R40, R41, R50) -/
structure Ctl where
  /-- R41: DEVICE_STATE.STATE, 4 bits -/
  devState : DevState := .boot
  /-- R40: DEVICE_STATE.CP_ALIVE -/
  cpAlive : Bool := false
  /-- R40: DEVICE_STATE.FAULT_HW -/
  faultHw : Bool := false
  /-- R40: FW_VERSION -/
  fwVersion : BitVec 32 := 0
  /-- R40: CP_HEARTBEAT -/
  heartbeat : BitVec 32 := 0
  /-- R60: DEVICE_RESET answered, its reset still to come -/
  resetPending : Bool := false
  /-- R46, R60: the command that caused that reset -/
  resetBy : Option Cause := none
  /-- R50: the request being executed whose response is not yet posted -/
  exec : Option Exec := none
  /-- R49: channel at which the CP's rotation stands (0 to 16); DESIGN CHOICE 0 (log 5) -/
  turn : Nat := 0
  /-- R466: false in OFF -/
  powered : Bool := true
  /-- R518: POR_N is asserted -/
  porLow : Bool := false
  /-- R33: trained link speed 1 to 5; DESIGN CHOICE 5 (log 4) -/
  linkGen : Nat := 5
  /-- R33: trained link width; DESIGN CHOICE 8 (log 4) -/
  linkWidth : Nat := 8
  /-- R36: answer of the last host access -/
  bus : BusAnswer := {}
  /-- R37: the model's own record of what left the device, newest first (log 6) -/
  out : List Out := []
  /-- -: the model's own counter of free values drawn; DESIGN CHOICE 0 (log 7) -/
  free : Nat := 0
deriving DecidableEq, Repr

/-- One mailbox channel; channel 16 is the SMBus fallback mailbox (R44, R49) -/
structure Chan where
  /-- R44: MB_SLOT_STATE, 2 bits each -/
  slots : List SlotState := [.free, .free, .free, .free]
  /-- R49: slots SUBMITTED, in the order the requests start -/
  queue : List Nat := []
  /-- R44: MB_BIND.CLIENT, 8 bits -/
  bindClient : Nat := 0
  /-- R44: MB_BIND.BOUND -/
  bound : Bool := false
  /-- R44: MB_ERR.DB_IGNORED latch -/
  dbIgnored : Bool := false
  /-- R44: MB_ERR.WRITE_DISCARDED latch -/
  writeDiscarded : Bool := false
  /-- R44: MB_ERR.CHECKSUM latch -/
  checksum : Bool := false
  /-- R94: id of the latest attestation report of this channel -/
  reportId : Option (BitVec 32) := none
  /-- R94, R95: the latest report, 384 bytes -/
  report : Bytes := []
deriving DecidableEq, Repr

/-- The mailbox region and the SMBus fallback mailbox (R44, R69) -/
structure Mbx where
  /-- R44: channels 0 to 15 and the fallback channel 16 -/
  chans : Tab Chan := []
  /-- R44: request slot bytes, address = channel x 0x1000 + offset in page; DESIGN CHOICE 0 (log 8) -/
  req : Mem := []
  /-- R44: response slot s of channel n at key 4n + s; DESIGN CHOICE zeros (log 8) -/
  resp : Tab Bytes := []
  /-- R69: fallback mailbox state -/
  smbState : SmbState := .idle
  /-- R69: the Block Write's bytes -/
  smbReq : Bytes := []
  /-- R69: the response waiting for code 0x12 -/
  smbResp : Bytes := []
  /-- R75: SMBus slave address -/
  smbAddr : Nat := 0x58
deriving DecidableEq, Repr

/-- One DMA ring's registers (R63) -/
structure Ring where
  /-- R63: RING_BASE_LO -/
  baseLo : BitVec 32 := 0
  /-- R63: RING_BASE_HI -/
  baseHi : BitVec 32 := 0
  /-- R63: RING_SIZE.LOG2, 5 bits; for ring 0 forced to 10 -/
  log2 : Nat := 0
  /-- R63: RING_CTRL.EN -/
  en : Bool := false
  /-- R63: RING_CTRL.DIR -/
  dir : Bool := false
  /-- R63: RING_HEAD, 16 bits -/
  head : Nat := 0
  /-- R63: RING_TAIL, 16 bits -/
  tail : Nat := 0
  /-- R63: RING_DROP -/
  drop : BitVec 32 := 0
  /-- R63: RING_LOST (ring 0) -/
  lost : BitVec 32 := 0
deriving DecidableEq, Repr

/-- One MSI-X table entry (R39, R64) -/
structure Vector64 where
  /-- R64: message address; PRESUMED 0 (PCIe) (log 9) -/
  addrLo : BitVec 32 := 0
  /-- R64: message upper address; PRESUMED 0 (PCIe) (log 9) -/
  addrHi : BitVec 32 := 0
  /-- R64: message data; PRESUMED 0 (PCIe) (log 9) -/
  data : BitVec 32 := 0
  /-- R64: vector control bit 0; PRESUMED true (PCIe) (log 9) -/
  masked : Bool := true
deriving DecidableEq, Repr

/-- Rings, event ring state and MSI-X (R63 to R68) -/
structure Rings where
  /-- R63: rings 0 to 31 -/
  rings : Tab Ring := []
  /-- R65, R68: sequence number of the next event -/
  seq : BitVec 32 := 0
  /-- R66: PHASE of the present pass -/
  phase : Bool := true
  /-- R67: events not written since the last EV_EVENTS_LOST -/
  unreported : Nat := 0
  /-- R68: the held EV_STATE_CHANGED -/
  held : Option Event := none
  /-- R39, R64: MSI-X table, 64 vectors -/
  vectors : Tab Vector64 := []
  /-- R39, R64: pending bits; PRESUMED 0 (PCIe) (log 9) -/
  pba : BitVec 64 := 0
  /-- R37, R343: host memory as the device reads and writes it over PCIe; DESIGN CHOICE 0 (log 10) -/
  hostMem : Mem := []
deriving DecidableEq, Repr

/-- A firmware update in progress (R87 to R92) -/
structure Update where
  /-- R92: 0 none, 1 erasing, 2 writing -/
  phase : Nat := 0
  /-- R88: size announced -/
  imageBytes : Nat := 0
  /-- R89, R92: next unwritten byte -/
  next : Nat := 0
  /-- R50, R87: FW_UPDATE_BEGIN's channel and tag, for EV_FW_ERASED -/
  cause : Option Cause := none
deriving DecidableEq, Repr

/-- Straps, flash, image selection and measurement (R73 to R97) -/
structure Boot where
  /-- R75, R512: STRAP_BOOT as sampled, 2 bits; an unconnected strap reads 0 -/
  strapBoot : Nat := 0
  /-- R75, R512: STRAP_HWINIT as sampled -/
  strapHwinit : Bool := false
  /-- R75, R512: STRAP_SMBADDR as sampled, 3 bits -/
  strapSmb : Nat := 0
  /-- R78, R74: image regions of the boot flash by flash offset, unlisted bytes erased (0xFF); DESIGN CHOICE one GOOD image A (log 11) -/
  flash : Mem := factoryFlash
  /-- R84, R78: HWINIT flag of the device data region; DESIGN CHOICE false (log 12) -/
  hwinitFlag : Bool := false
  /-- R61, R83: running image: 0 A, 1 B; DESIGN CHOICE A (log 11) -/
  image : Nat := 0
  /-- R91, R95: state byte of the running image as read at boot; DESIGN CHOICE 0x3F (log 11) -/
  imageState : Nat := 0x3F
  /-- R76, R77: the system PLL has locked since the last reset; DESIGN CHOICE true (log 11) -/
  pllLocked : Bool := true
  /-- R77: the boot ROM has an image that runs; DESIGN CHOICE true (log 11) -/
  bootOk : Bool := true
  /-- R81: EV_FW_TRIAL_BOOT to be raised once READY -/
  trialBoot : Bool := false
  /-- R61, R84: HWINIT was in force at the last reset -/
  sramInit : Bool := false
  /-- R86: M0 to M3, locked until the next reset; 0 where a stage is absent; DESIGN CHOICE the stages of the image at reset (log 11) -/
  meas : Tab (BitVec 384) := factoryDigests
  /-- R92: update progress -/
  update : Update := {}
  /-- R95: the report counter; DESIGN CHOICE 0 (log 12) -/
  reportCount : BitVec 32 := 0
deriving DecidableEq, Repr

/-- One step of the DVFS sequencer (R107) -/
structure DvfsStep where
  /-- R106: point to reach -/
  target : Nat := 0
  /-- R489: point before the step -/
  old : Nat := 0
  /-- R107: a step up -/
  up : Bool := false
  /-- R108: who requested it -/
  origin : StepOrigin := .sluice
  /-- R489: EV_CORE_POINT reason -/
  reason : Nat := 0
deriving DecidableEq, Repr

/-- Clock settings, CK_CORE point and AVSBus (R100 to R112, R479) -/
structure Clk where
  /-- R104: CLOCK_SET noc, reset CK_NOC 1.0 GHz -/
  noc : Nat := 0
  /-- R104: CLOCK_SET cp_ratio, reset CK_CP 1.2 GHz -/
  cpRatio : Nat := 1
  /-- R104: CLOCK_SET memc, reset CK_MEMC 800 MHz -/
  memc : Nat := 0
  /-- R106, R484: CK_CORE point now running -/
  point : Nat := 2
  /-- R110, R484: CORE_POINT ceiling -/
  ceiling : Nat := 3
  /-- R108: VDD_CONFIRMED -/
  vddConfirmed : Bool := true
  /-- R107: the step in progress -/
  step : Option DvfsStep := none
  /-- R110: a Sluice step waiting behind a CORE_POINT step -/
  waiting : Option DvfsStep := none
  /-- R125, R112: CLK_STATUS.CLK_FORCED -/
  forced : BitVec 7 := 0
  /-- R479: a voltage request is awaiting its acknowledgement -/
  avsPending : Bool := false
  /-- R509: the acknowledgement of the request is withheld by an injection -/
  avsWithheld : Bool := false
  /-- R479, R515: last voltage requested, mV -/
  avsMv : Nat := 800
  /-- R488: last AVSBus voltage readback; DESIGN CHOICE 0 (log 13) -/
  vddMv : Nat := 0
  /-- R488: last AVSBus current readback, 10 mA; DESIGN CHOICE 0 (log 13) -/
  idd : Nat := 0
deriving DecidableEq, Repr

/-- Frequency source of device time and RC trim (R113 to R120) -/
structure Src where
  /-- R115, R125: 0 FREERUN, 1 LOCKED, 2 HOLDOVER -/
  state : Nat := 0
  /-- R125: 0 REFCLK_SYS, 1 plane A, 2 plane B -/
  source : Nat := 0
  /-- R119: FREQ_SOURCE_SET mode; DESIGN CHOICE 0 AUTO (log 13) -/
  mode : Nat := 0
  /-- R114: AUTO is revertive -/
  revertive : Bool := true
  /-- R114: WTR in seconds -/
  wtr : Nat := 10
  /-- R113: plane A qualified -/
  qualA : Bool := false
  /-- R113: plane B qualified -/
  qualB : Bool := false
  /-- R117: the DPLL bridges a protection switch -/
  bridging : Bool := false
  /-- R131: TIME_CONFIG trim_ref; DESIGN CHOICE 0 (log 13) -/
  trimRef : Nat := 0
  /-- R135: reference of the last trim -/
  trimUsed : Nat := 0
  /-- R120, R135: REFCLK_SYS offset -/
  refPpb : BitVec 32 := 0x80000000
deriving DecidableEq, Repr

/-- Device time and its registers (R121 to R133) -/
structure Time where
  /-- R121, R441: CK_TS cycles since the power-on reset, Still included: elapsed time that neither a step of device time nor a warm reset touches (log 76) -/
  cycles : Nat := 0
  /-- R121, R122: nanoseconds -/
  ns : BitVec 64 := 0
  /-- R121, R122: fraction bits accumulated; the upper 16 are presented -/
  frac : BitVec 24 := 0
  /-- R122, R125: INCR, 8.24 ns -/
  incr : BitVec 32 := 0x01999999
  /-- R122, R125: TIME_STATUS.UNSYNCED -/
  unsynced : Bool := true
  /-- R125: TIME_STEP_REFUSED latch -/
  stepRefused : Bool := false
  /-- R125: INCR_REJECTED latch -/
  incrRejected : Bool := false
  /-- R125: TIME_NS_HI as latched -/
  latHi : BitVec 32 := 0
  /-- R125: TIME_FRAC as latched -/
  latFrac : BitVec 16 := 0
  /-- R126, R127, R128, R134: the changes of device time and of INCR within the last two superframes, newest first: cycle of CK_TS, device time before the change in units of 2^-24 ns, and INCR before it -/
  past : List (Nat × Nat × Nat) := []
  /-- R125, R133: device time of the last PPS_IN edge -/
  ppsTs : BitVec 64 := 0
  /-- R125: PPS_IN_TS_HI as latched -/
  ppsTsHi : BitVec 32 := 0
  /-- R125: PPS_IN_COUNT -/
  ppsCount : BitVec 32 := 0
  /-- R131: TIME_STEP_MAX -/
  stepMax : Nat := 1000
  /-- R131: pps_out_width_us -/
  ppsWidth : Nat := 10000
  /-- R131: pps_out_offset_ns -/
  ppsOffset : Int := 0
  /-- R131: pps_in_event -/
  ppsEvent : Bool := false
  /-- R132: the PPS_OUT pin -/
  ppsOut : Bool := false
  /-- R132: the whole second of device time plus pps_out_offset_ns up to which PPS_OUT has had its edges -/
  ppsDone : Int := 0
deriving DecidableEq, Repr

/-- Transmit equalisation of a lane (R138) -/
structure TxEq where
  /-- R138: pre-cursor -/
  pre : Nat := 0
  /-- R138, R139: post-cursor -/
  post : Nat := 4
  /-- R138, R139: amplitude code -/
  amp : Nat := 8
  /-- R141: transmit polarity; DESIGN CHOICE false (log 14) -/
  invert : Bool := false
deriving DecidableEq, Repr

/-- One serial lane (R136 to R159) -/
structure Lane where
  /-- R150: 0 IDLE, 1 SERVICE, 2 TEST -/
  state : Nat := 0
  /-- R139: line transmit lanes; host lanes reset to pre 4, post 8, amplitude 12 -/
  tx : TxEq := {}
  /-- R140: a change waiting for the next training lead -/
  pendTx : Option TxEq := none
  /-- R142: receiver mode; tap lanes reset to 2 -/
  rxMode : Nat := 0
  /-- R142: CTLE code of mode 2; tap lanes reset to 6; DESIGN CHOICE 0 elsewhere (log 14) -/
  ctle : Nat := 0
  /-- R142: h1 to h5 of mode 2; DESIGN CHOICE 0 (log 14) -/
  dfe : List Int := [0, 0, 0, 0, 0]
  /-- R142: receive polarity; DESIGN CHOICE false (log 14) -/
  invertRx : Bool := false
  /-- R158: CDR lock; DESIGN CHOICE false (log 14) -/
  cdrLock : Bool := false
  /-- R152: PRBS checker lock; DESIGN CHOICE false (log 14) -/
  chkLock : Bool := false
  /-- R149: transmit low-power idle -/
  lpiTx : Bool := false
  /-- R149: receive low-power idle -/
  lpiRx : Bool := false
  /-- R149: CTLE and DFE values that an adapting receiver holds through the quiet of deep sleep, its CDR frozen with them -/
  frozen : Option (Nat × List Int) := none
  /-- R150: transmitter in electrical idle -/
  elecIdle : Bool := true
  /-- R151: generator pattern -/
  gen : Nat := 0
  /-- R151: checker pattern -/
  chk : Nat := 0
  /-- R151: loopback -/
  loopback : Nat := 0
  /-- R151: error insertion -/
  inject : Nat := 0
  /-- R151: inject_interval -/
  interval : Nat := 0
  /-- R151: user pattern -/
  user : BitVec 64 := 0
  /-- R151, R154: TX_EN held high by the test -/
  txForce : Bool := false
  /-- R152: error-free bits in a row while the checker hunts -/
  chkRun : Nat := 0
  /-- R152: bits of the present group of 1,024 while it is locked -/
  chkWin : Nat := 0
  /-- R152: bits in error among them -/
  chkErr : Nat := 0
  /-- R151: bits of the pattern still to pass before the next inserted error; 0 none -/
  injLeft : Nat := 0
  /-- R158: 48 bits, saturates -/
  prbsBits : Nat := 0
  /-- R158: 48 bits, saturates -/
  prbsErrors : Nat := 0
  /-- R158: 32 bits, saturates -/
  cdrLosses : Nat := 0
  /-- R158, R145: tx_en_merged, 32 bits, saturates -/
  merged : Nat := 0
  /-- R509: host lane: invalid 64b/66b headers that an injection has still to make -/
  hdrLeft : Nat := 0
  /-- R438: host lane: invalid headers in the present window of block lock -/
  hdrBad : Nat := 0
  /-- R438: host lane: blocks of that window -/
  hdrBlocks : Nat := 0
  /-- R158: prbs_lock_losses, 32 bits, saturates -/
  prbsLosses : Nat := 0
deriving DecidableEq, Repr

/-- The burst times of PORT_SIGNALS in 1.6 ns units (R146) -/
structure TxTimes where
  /-- R146: default 40 -/
  trainLead : Nat := 40
  /-- R146: default 8 -/
  tonLead : Nat := 8
  /-- R146: default 2 -/
  toffLag : Nat := 2
  /-- R146: default 4 -/
  minLow : Nat := 4
deriving DecidableEq, Repr

/-- Control pins of a line port or tap input (R146 to R148) -/
structure Port where
  /-- R146: txen_polarity, 1 active low -/
  txPol : Bool := false
  /-- R146: a txen_polarity waiting for the next deassertion -/
  heldTxPol : Option Bool := none
  /-- R146: sd_polarity -/
  sdPol : Bool := false
  /-- R146: bm_rst_polarity -/
  bmPol : Bool := false
  /-- R146: a bm_rst_polarity waiting for the pulse's end -/
  heldBmPol : Option Bool := none
  /-- R146: values now configured -/
  times : TxTimes := {}
  /-- R146: values that the last burst took -/
  inForce : TxTimes := {}
  /-- R145, R146: t1 of the last burst sent since the lane entered SERVICE, in ticks; none before the first -/
  lastEnd : Option Nat := none
  /-- R146: the values in force at that t1, once PORT_SIGNALS has changed them since -/
  latched : Option TxTimes := none
  /-- R143, R144: where the TX_EN lead of the burst begun last begins, in ticks -/
  lead : Int := 0
  /-- R143, R262: bursts in flight: the instant of each one's TX_EN deassertion, in ticks -/
  air : List Nat := []
  /-- R146: bm_rst_delay -/
  bmDelay : Nat := 0
  /-- R146: bm_rst_width -/
  bmWidth : Nat := 8
  /-- R148: BM_RST pulses scheduled and not yet started -/
  bmCount : Nat := 0
  /-- R143: TX_EN active -/
  txEn : Bool := false
  /-- R158, R183: level of the SD or SD_T ball; DESIGN CHOICE low (log 14) -/
  sdBall : Bool := false
  /-- R148: BM_RST active -/
  bmRst : Bool := false
deriving DecidableEq, Repr

/-- The two-wire master of a line port (R155, R156) -/
structure Optics where
  /-- R155: laser enable -/
  laser : Bool := false
  /-- R156: 0 100 kHz -/
  speed : Nat := 0
  /-- R156: 0 automatic -/
  layoutCfg : Nat := 0
  /-- R156: poll period -/
  pollMs : Nat := 1000
  /-- R156: layout found; 0 none answering; DESIGN CHOICE 0 (log 14) -/
  layout : Nat := 0
  /-- R156: alarm bits 5:0; DESIGN CHOICE 0 (log 14) -/
  alarms : Nat := 0
  /-- R156: last temperature, 16 bits; DESIGN CHOICE 0 (log 14) -/
  temp : Nat := 0
  /-- R156: last supply; DESIGN CHOICE 0 (log 14) -/
  vcc : Nat := 0
  /-- R156: last bias; DESIGN CHOICE 0 (log 14) -/
  bias : Nat := 0
  /-- R156: last transmit power; DESIGN CHOICE 0 (log 14) -/
  txPower : Nat := 0
  /-- R156: last receive power; DESIGN CHOICE 0 (log 14) -/
  rxPower : Nat := 0
  /-- R156: CK_TS cycles at which the values were read; DESIGN CHOICE 0 (log 14) -/
  readAt : Nat := 0
  /-- R156: poll_failures -/
  failures : BitVec 32 := 0
  /-- R156: attempts in a row not acknowledged -/
  nacks : Nat := 0
  /-- R156: EV_OPTICS_FAULT raised and no poll has succeeded since -/
  faulted : Bool := false
deriving DecidableEq, Repr

/-- Lanes, port pins and optics (chapter 05) -/
structure LaneBlk where
  /-- R136: by lane ID; an unlisted lane is in its reset state -/
  lanes : Tab Lane := []
  /-- R137: by port code -/
  ports : Tab Port := []
  /-- R155: by line port code -/
  optics : Tab Optics := []
  /-- R149: tx_mode and rx_mode per host port for the next link-up, reset off -/
  lpiCfg : Tab (Nat × Nat) := []
deriving DecidableEq, Repr

/-- A candidate of a hunter (R166) -/
structure Cand where
  /-- R166: position of its last accepted PSync, in ticks -/
  pos : Nat := 0
  /-- R166: SFC recorded, 51 bits -/
  sfc : Nat := 0
  /-- R166: confirmations -/
  conf : Nat := 0
deriving DecidableEq, Repr

/-- The hunter of a line engine or port monitor (R166) -/
structure Hunter where
  /-- R163: started -/
  running : Bool := false
  /-- R166: in SYNC -/
  sync : Bool := false
  /-- R166: open candidates, at most 4 -/
  cands : List Cand := []
  /-- R168: bit at which a candidate was last tested, in ticks: no match there opens another -/
  tested : Option Nat := none
  /-- R166: position of the last accepted PSync in SYNC, in ticks -/
  lastPos : Nat := 0
  /-- R170: last accepted SFC -/
  sfc : Nat := 0
  /-- R166: consecutive misses -/
  misses : Nat := 0
  /-- R268: one SFC discontinuity allowed after a line switch -/
  jump : Bool := false
  /-- R188: CK_TS cycles at which it entered SYNC -/
  syncCycles : Nat := 0
deriving DecidableEq, Repr

/-- Defect thresholds of a plane (R187) -/
structure DefectCfg where
  /-- R183: us -/
  losSet : Nat := 10
  /-- R183: us -/
  losClear : Nat := 125
  /-- R183: us -/
  lolSet : Nat := 10
  /-- R183: us -/
  lolClear : Nat := 125
  /-- R183: frames -/
  lofSet : Nat := 24
  /-- R183: frames -/
  lofClear : Nat := 8
  /-- R183: ppm -/
  lofecSet : Nat := 1000
  /-- R183: ppm -/
  lofecClear : Nat := 100
  /-- R183: exponent -/
  sdSet : Nat := 4
  /-- R183: exponent -/
  sdClear : Nat := 5
deriving DecidableEq, Repr

/-- Defect detectors of one receive line port (R183 to R186) -/
structure DefPort where
  /-- R183: mask of declared, unsuppressed defects, bits 4:0 -/
  declared : Nat := 0
  /-- R183: consecutive LOFEC windows counted -/
  lofecRun : Nat := 0
  /-- R183: consecutive SD windows counted -/
  sdRun : Nat := 0
  /-- R183: codewords of the port monitor in the 10 ms window -/
  winCw : Nat := 0
  /-- R183: uncorrectable codewords in the 10 ms window -/
  winUnc : Nat := 0
  /-- R183: codewords in the 100 ms window -/
  sdCw : Nat := 0
  /-- R183: corrected bits in the 100 ms window -/
  sdBits : Nat := 0
  /-- R184: the LOFEC window in progress does not count -/
  skipLofec : Bool := false
  /-- R184: the SD window in progress does not count -/
  skipSd : Bool := false
  /-- R183: consecutive LOFEC windows counted towards clearing -/
  lofecClear : Nat := 0
  /-- R183: consecutive SD windows counted towards clearing -/
  sdClear : Nat := 0
  /-- R187: lofec_set of the window in progress -/
  wLofecSet : Nat := 1000
  /-- R187: lofec_clear of the window in progress -/
  wLofecClear : Nat := 100
  /-- R187: sd_set_exp of the window in progress -/
  wSdSet : Nat := 4
  /-- R187: sd_clear_exp of the window in progress -/
  wSdClear : Nat := 5
  /-- R509: windows of an SD injection still to be taken at the set threshold -/
  sdInj : Nat := 0
  /-- R509: cycle of CK_TS up to which injection 0x05 has SD seen inactive -/
  sdUntil : Nat := 0
deriving DecidableEq, Repr

/-- A reassembly context (R181) -/
structure Reasm where
  /-- R180: SDU bytes gathered -/
  data : Bytes := []
  /-- R180: fragments so far -/
  frags : Nat := 0
  /-- R180: FEC_UNC of any fragment -/
  fecUnc : Bool := false
  /-- R180, R134: timestamp of the first fragment -/
  ns : BitVec 64 := 0
  /-- R134: its 16-bit fraction -/
  frac : Nat := 0
  /-- R181: frames waited for the next fragment -/
  age : Nat := 0
  /-- R181: the SDU exceeded 16,384 bytes and the context discards -/
  overLong : Bool := false
  /-- R297: key index of each fragment -/
  keys : List Nat := []
  /-- R297: length of each fragment -/
  lens : List Nat := []
deriving DecidableEq, Repr

/-- A PLOAM message kept for the host (R212) -/
structure PloamEntry where
  /-- R212: terminal_id -/
  tid : Nat := 0
  /-- R212: flags bit 0 -/
  micOk : Bool := true
  /-- R212: flags bit 1 -/
  acted : Bool := false
  /-- R212: flags bit 2 -/
  bcast : Bool := false
  /-- R212: device time -/
  time : BitVec 64 := 0
  /-- R212: 48 bytes -/
  msg : Bytes := []
deriving DecidableEq, Repr

/-- A downstream OMCI SDU waiting for the host (R218) -/
structure OmciSdu where
  /-- R218: flat index of the terminal -/
  owner : Nat := 0
  /-- R218: SDU bytes -/
  data : Bytes := []
  /-- R219: FEC_UNC -/
  fecUnc : Bool := false
  /-- R219: timestamp of the first fragment -/
  time : BitVec 64 := 0
  /-- R400: a line of it fails its CRC; true when an injection spoiled it -/
  bad : Option Bool := none
deriving DecidableEq, Repr

/-- One page of a plane's allocation map (R242) -/
structure AmapPage where
  /-- R242: 16-bit mask per allocation queue -/
  masks : Tab Nat := []
  /-- R242: descriptor of each valid context entry -/
  ctxs : Tab Nat := []
deriving DecidableEq, Repr

/-- An action scheduled at a superframe boundary (R206, R244) -/
structure Sched where
  /-- R206: 0 next boundary, 1 the boundary apply_sfc -/
  when : Nat := 0
  /-- R206: apply_sfc, then the SFC of the boundary -/
  sfc : Nat := 0
  /-- R206: device time at which that boundary is due -/
  due : BitVec 64 := 0
  /-- R206: the plane's breaks at acceptance -/
  breaks : Nat := 0
  /-- R50: channel and tag of the command -/
  cause : Option Cause := none
deriving DecidableEq, Repr

/-- A plane-wide cause being acted on by its terminals (R204) -/
structure Bulk where
  /-- R223: cause code -/
  cause : Nat := 0
  /-- R204: flat indices that have not yet acted on it, each with its state at the cause -/
  waiting : Tab Nat := []
  /-- R204: count per old x 256 + new state -/
  pairs : Tab Nat := []
  /-- R50: channel and tag of a causing command -/
  ev : Option Cause := none
deriving DecidableEq, Repr

/-- A terminal that has yet to see a grant (R205) -/
structure Unseen where
  /-- R205: flat index of the terminal -/
  f : Nat := 0
  /-- R205: messages and plane-wide causes that it acts on before -/
  after : Nat := 0
  /-- R205, R206: its distance for this grant, in steps -/
  dist : Nat := 0
  /-- R206, R227: its response time for this grant, in steps -/
  resp : Nat := 0
deriving DecidableEq, Repr

/-- A grant that terminals may yet answer which were not to answer it as it was accepted (R205) -/
structure OpenGrant where
  /-- R205: number of its structure -/
  no : Nat := 0
  /-- R225: number of the last structure that chains to it -/
  last : Nat := 0
  /-- R201: a serial-number grant -/
  broadcast : Bool := false
  /-- R225: PLOAM flag -/
  ploam : Bool := false
  /-- R225: StartTime -/
  start : Nat := 0
  /-- R225: its allocations in map order, none yet given to a queue -/
  allocs : List UpAlloc := []
  /-- R226: profile index -/
  profile : Nat := 0
  /-- R226: the profile as the resolving found it -/
  prof : BurstProfile := {}
  /-- R227: superframe boundary of its map, in ticks -/
  at_ : Nat := 0
  /-- R205: cycle of CK_TS at which the active engine accepted it -/
  cycle : Nat := 0
  /-- R243: page that was active at the superframe boundary of its map -/
  page : AmapPage := {}
  /-- R229: the bursts of its map have been placed -/
  placed : Bool := false
  /-- R249: counted among the grants acted on -/
  acted : Bool := false
  /-- R205: the terminals that have yet to see it -/
  unseen : List Unseen := []
deriving DecidableEq, Repr

/-- A tap burst the delineator expects (R175, R328) -/
structure GrantExp where
  /-- R328: Alloc-ID of the first allocation -/
  alloc : Nat := 0
  /-- R328: expected instant without tap_offset_ns, in ticks -/
  expect : Int := 0
  /-- R328: rate code -/
  rate : Nat := 0
  /-- R328: profile -/
  profile : Nat := 0
  /-- R328: FEC enabled -/
  fec : Bool := false
deriving DecidableEq, Repr

/-- A descriptor's position (R240, R254) -/
structure DescPos where
  /-- R241: offset of the next entry from base -/
  list : Nat := 0
  /-- R241: generator state, 0 stands for all ones at the start -/
  prbs : Nat := 0
  /-- R241: next SDU length, 0 stands for len_min -/
  len : Nat := 0
  /-- R241: sequence stamp count -/
  seq : BitVec 32 := 0
deriving DecidableEq, Repr

/-- The settings of one shaper (R245) -/
structure Shaper where
  /-- R245: rate_kbps, 0 unshaped -/
  rate : Nat := 0
  /-- R245: burst_bytes -/
  burst : Nat := 16392
  /-- R245: overhead -/
  overhead : Nat := 8
  /-- R245: report_cap -/
  cap : Nat := 65536
deriving DecidableEq, Repr

/-- What a plane record carries beside the schedule, the tokens and the cut frames, which a takeover from an older record discards (R254, R264) -/
structure PlaneRec where
  /-- R254: descriptor positions, PRBS states and sequence stamps -/
  descs : Tab DescPos := []
  /-- R254: held MV3200 changes by queue -/
  held : Tab Shaper := []
  /-- R254: active page -/
  active : AmapPage := {}
  /-- R254: standby page -/
  standby : AmapPage := {}
  /-- R254: burst profiles -/
  profiles : Tab BurstProfile := []
  /-- R254: PON-ID valid -/
  ponValid : Bool := false
  /-- R254: PON-ID -/
  ponId : Nat := 0
deriving DecidableEq, Repr

/-- A line key as a terminal record carries it (R191, R254) -/
structure LineKey where
  /-- R213: the slot holds a valid key -/
  valid : Bool := false
  /-- R409: key bytes -/
  key : Bytes := []
deriving DecidableEq, Repr

/-- An upstream message that PLOAM_DELAY holds (R221) -/
structure DelayedMsg where
  /-- R221: cycle of CK_TS at which it enters the queue -/
  due : Nat := 0
  /-- R221: the message -/
  body : UpBody := .acknowledge 2 none
deriving DecidableEq, Repr

/-- A downstream PLOAM message on its way to a terminal's view (R205) -/
structure DsPloam where
  /-- R205: the message -/
  msg : DsMsg := { onu := none, mic := none, ack := false, body := .other, bytes := [] }
  /-- R205: device time of acceptance -/
  time : BitVec 64 := 0
deriving DecidableEq, Repr

/-- A misbehaviour item (R221) -/
structure Misb where
  /-- R221: 0 off, 1 always, 2 counted -/
  mode : Nat := 0
  /-- R221: param0, 32 bits -/
  p0 : Nat := 0
  /-- R221: param1, 32 bits -/
  p1 : Nat := 0
  /-- R221: occurrences left in mode 2 -/
  count : Nat := 0
deriving DecidableEq, Repr

/-- A pending TERM_DISTANCE (R206) -/
structure PendDist where
  /-- R206: dist_steps -/
  dist : Nat := 0
  /-- R206: resp_steps -/
  resp : Nat := 0
  /-- R206: boundary -/
  sched : Sched := {}
deriving DecidableEq, Repr

/-- An XGEM port context of a terminal (R199) -/
structure PortCtx where
  /-- R199: flags bit 0 -/
  valid : Bool := false
  /-- R199: flags bit 1 -/
  down : Bool := false
  /-- R199: flags bit 2 -/
  up : Bool := false
  /-- R199: flags bit 3 -/
  enc : Bool := false
  /-- R199: XGEM Port-ID -/
  portId : Nat := 0
deriving DecidableEq, Repr

/-- One emulated terminal (R191) -/
structure Term where
  /-- R192: state code -/
  state : Nat := 0
  /-- R55: creating client -/
  client : Nat := 0
  /-- R194: serial number, 8 bytes -/
  serial : Bytes := []
  /-- R194: registration ID, 36 bytes -/
  regId : Bytes := []
  /-- R196: ONU-ID 0 to 1022 -/
  onuId : Option Nat := none
  /-- R200, R222: equalisation delay as the last Ranging_Time carried it -/
  eqd : Option Nat := none
  /-- R194: dist_steps in force -/
  dist : Nat := 0
  /-- R194: resp_steps in force -/
  resp : Nat := 21875
  /-- R206: distance step pending -/
  pendDist : Option PendDist := none
  /-- R191: Alloc-ID of each queue -/
  allocs : List (Option Nat) := [none, none, none, none]
  /-- R199: port contexts 0 to 15 -/
  ctxs : Tab PortCtx := []
  /-- R199: changes waiting for a superframe boundary -/
  pendCtxs : Tab PortCtx := []
  /-- R215: upstream key index -/
  keyUp : Nat := 0
  /-- R215: index that the next burst takes -/
  keyNext : Option Nat := none
  /-- R216: master session key -/
  msk : Option (BitVec 128) := none
  /-- R209: PLOAM mode MANUAL -/
  manual : Bool := false
  /-- R214: key mode FIXED -/
  fixedKey : Bool := false
  /-- R198: ploam_copy -/
  copy : Bool := false
  /-- R221: items in effect -/
  misb : Tab Misb := []
  /-- R221: items waiting for a superframe boundary -/
  pendMisb : List (Nat × Misb) := []
  /-- R210: upstream PLOAM queue, at most 8 -/
  ploamUp : List UpBody := []
  /-- R221: messages held by PLOAM_DELAY -/
  ploamDelayed : List DelayedMsg := []
  /-- R212: host queue, at most 16 -/
  hostQ : List PloamEntry := []
  /-- R220: upstream OMCI frames, at most 16 -/
  omciQ : List Bytes := []
  /-- R220: total_len of the frame being assembled, 0 none -/
  omciTotal : Nat := 0
  /-- R220: partial frame -/
  omciPart : Bytes := []
  /-- R205: messages accepted and not yet in the terminal's view -/
  view : List DsPloam := []
  /-- R205, R215: key indices other than 0 of downstream frames on its port contexts, not yet in the terminal's view -/
  keyView : List Nat := []
  /-- R217: LODS -/
  lods : Bool := false
  /-- R217: LOPLOAM -/
  loploam : Bool := false
  /-- R217: LOK -/
  lok : Bool := false
  /-- R217: consecutive unicast messages failing their MIC -/
  micRun : Nat := 0
  /-- R203, R217: lok_n of the run in progress -/
  lokLim : Nat := 8
  /-- R217: consecutive frames counted under R213 -/
  lokRun : Nat := 0
  /-- R200: 0 none, 1 TO1, 2 TO2 running -/
  timer : Nat := 0
  /-- R205, R222: device time at which it expires, in ns -/
  timerEnd : Nat := 0
  /-- R248: fragmentation mode -/
  frag : Bool := false
  /-- R247: mode waiting for a superframe boundary -/
  pendFrag : Option Bool := none
  /-- R222: cause of the last transition -/
  lastCause : Nat := 0
  /-- R222: counters by response offset, 32 bits each -/
  cnt : Tab Nat := []
deriving DecidableEq, Repr

/-- A terminal record: the terminal and its two line keys (R254) -/
structure TermRec where
  /-- R191: the terminal -/
  term : Term := {}
  /-- R191: the keys of index 1 and 2 -/
  keys : List LineKey := []
deriving DecidableEq, Repr

/-- One change on its way to the standby (R254) -/
structure RillMsg where
  /-- R254: terminal index, or 0xFFFF for the plane record -/
  record : Nat := 0
  /-- R254: generation of the record -/
  gen : BitVec 32 := 0
  /-- R254: the terminal record -/
  term : Option TermRec := none
  /-- R254: the plane record -/
  plane : Option PlaneRec := none
  /-- R256: consecutive failures of this message -/
  fails : Nat := 0
deriving DecidableEq, Repr

/-- Protection of a plane (chapter 09) -/
structure Prot where
  /-- R271: working port -/
  working : Nat := 0
  /-- R271: trigger_mask -/
  mask : Nat := 0x0F
  /-- R271: revertive -/
  revertive : Bool := false
  /-- R271: hold_off_ms -/
  holdOff : Nat := 0
  /-- R271: wtr_s -/
  wtr : Nat := 300
  /-- R271: swap_period_s -/
  period : Nat := 3600
  /-- R273: PROT_LINE request in force; DESIGN CHOICE CLEAR (log 17) -/
  request : Nat := 0
  /-- R253: active engine: 0 x.E0, 1 x.E1 -/
  activeEng : Nat := 0
  /-- R252: active port: 0 x.0, 1 x.1 -/
  activePort : Nat := 0
  /-- R274: Rill UP; DESIGN CHOICE UP (log 17) -/
  rillUp : Bool := true
  /-- R256: link training succeeded and the 1 s hold runs -/
  rillHeld : Bool := false
  /-- R256: consecutive failures of the present keep-alive -/
  keepFails : Nat := 0
  /-- R267: hold-off timer runs -/
  holdRunning : Bool := false
  /-- R267: wait to restore runs -/
  wtrRunning : Bool := false
  /-- R259: role swap pending, origin 0 periodic, 1 PROT_SWAP -/
  swap : Option Nat := none
  /-- R259: boundaries tried -/
  swapTries : Nat := 0
  /-- R261: cycle of CK_TS at which the swap period started -/
  swapBase : Nat := 0
  /-- R261: cycle of CK_TS since which the swap period is held -/
  swapHeld : Option Nat := none
  /-- R269: a line switch is in progress -/
  lineBusy : Bool := false
  /-- R267, R269: a line switch waits for the end of a role swap: 0 none, 1 asked for, 2 its hold-off has ended, 3 its wait to restore has ended -/
  switchDue : Nat := 0
  /-- R254: changes sent and not yet applied, oldest first -/
  rillQ : List RillMsg := []
  /-- R254: generation of each record as sent -/
  gens : Tab (BitVec 32) := []
  /-- R254: generation of each record that the standby has applied; none of a record that it does not hold -/
  applied : Tab (BitVec 32) := []
  /-- R254, R262: the terminal records that the standby holds, by terminal index -/
  mirTerms : Tab TermRec := []
  /-- R254, R264: the plane record that the standby holds -/
  mirPlane : PlaneRec := {}
  /-- R274: role swaps performed -/
  swaps : BitVec 32 := 0
  /-- R274: line switches -/
  lineSwitches : BitVec 32 := 0
  /-- R274: takeovers -/
  takeovers : BitVec 32 := 0
  /-- R274: rill_crc_errors -/
  rillCrc : BitVec 32 := 0
  /-- R274: bursts_discarded -/
  discarded : BitVec 32 := 0
  /-- R275: terminal indices of the latest takeover -/
  takeList : List Nat := []
deriving DecidableEq, Repr

/-- One passive-optical plane (chapters 06 to 09) -/
structure Plane where
  /-- R161: 0 STOPPED, 1 HUNT, 2 SYNC -/
  state : Nat := 0
  /-- R162: mode configured -/
  cfgMode : Nat := 0
  /-- R162: psync_err configured -/
  cfgErr : Nat := 2
  /-- R162: sync_loss configured -/
  cfgLoss : Nat := 2
  /-- R162: reasm_frames configured -/
  cfgReasm : Nat := 8
  /-- R188: mode in force since the last PLANE_START -/
  mode : Nat := 0
  /-- R162: psync_err in force -/
  psyncErr : Nat := 2
  /-- R162: sync_loss in force -/
  syncLoss : Nat := 2
  /-- R162: reasm_frames in force -/
  reasmFrames : Nat := 8
  /-- R170: superframe count; DESIGN CHOICE 0 (log 15) -/
  sfc : Nat := 0
  /-- R169: last superframe boundary, in ticks -/
  psyncAt : Nat := 0
  /-- R134: device time of that boundary -/
  psyncNs : BitVec 64 := 0
  /-- R134: its 16-bit fraction -/
  psyncFrac : Nat := 0
  /-- R206: times that the plane has left SYNC or its superframe count has jumped -/
  breaks : Nat := 0
  /-- R134: CK_TS cycles at that boundary, by which line time runs on through a step of device time -/
  psyncCycles : Nat := 0
  /-- R171: PON-ID valid -/
  ponValid : Bool := false
  /-- R171: PON-ID, 51 bits -/
  ponId : Nat := 0
  /-- R171: value of the run -/
  ponCand : Nat := 0
  /-- R171: accepted frames in a row with that value -/
  ponRun : Nat := 0
  /-- R189: plane counters by response offset, 48 bits each -/
  cnt : Tab Nat := []
  /-- R177: announced burst profiles by index -/
  profiles : Tab BurstProfile := []
  /-- R181: reassembly contexts by XGEM Port-ID -/
  reasm : Tab Reasm := []
  /-- R279: LF bit of the last tap frame per Port-ID -/
  tapLf : Tab Bool := []
  /-- R212: plane broadcast queue, at most 64 -/
  bcast : List PloamEntry := []
  /-- R218: OMCI SDUs for the host, oldest first, 256 KiB -/
  omciRx : List OmciSdu := []
  /-- R187: thresholds -/
  defCfg : DefectCfg := {}
  /-- R203: lok_n -/
  lokN : Nat := 8
  /-- R203: to1_ms -/
  to1 : Nat := 10000
  /-- R203: to2_ms -/
  to2 : Nat := 100
  /-- R203: sn_delay_max -/
  snMax : Nat := 30000
  /-- R204: plane-wide causes not yet reported -/
  bulks : List Bulk := []
  /-- R242: active page -/
  active : AmapPage := {}
  /-- R242: standby page -/
  standby : AmapPage := {}
  /-- R243: page active at the last accepted boundary -/
  atBoundary : AmapPage := {}
  /-- R244: page swap pending -/
  swap : Option Sched := none
  /-- R244: page copy in progress after a swap -/
  copying : Option Sched := none
  /-- R251: SFC of the swap boundary -/
  swapSfc : Nat := 0
  /-- R225: structures acted on in the present map -/
  structs : Nat := 0
  /-- R225: terminal of the previous structure of the map and number of the structure that its grant began with, none when it was ignored or dropped -/
  prevGrant : Option (Nat × Nat) := none
  /-- R255: placed schedule of pending bursts, in order of placing -/
  sched : List Burst := []
  /-- R229: bursts of the present map -/
  mapSched : List Burst := []
  /-- R175: tap bursts expected -/
  expects : List GrantExp := []
  /-- R205: structures that have been accepted -/
  grantNo : Nat := 0
  /-- R205: grants of the last 300 µs that some terminal has yet to see, newest first -/
  opened : List OpenGrant := []
  /-- R249: Spout counters by response offset, 48 bits each -/
  spout : Tab Nat := []
  /-- R174: the present frame's FS header passed -/
  fsOk : Bool := false
  /-- R178: a header of the present frame could not be corrected -/
  badXgem : Bool := false
  /-- R509: codewords of the present frame that an injection declared uncorrectable -/
  fecHits : List Nat := []
  /-- R274: protection state -/
  prot : Prot := {}
deriving DecidableEq, Repr

/-- The injections drawn for the frame at one position of a port, shared by every hunter of the port (R509) -/
structure LineInj where
  /-- R509: position, in ticks -/
  at_ : Nat := 0
  /-- R509: the expected PSync of this position has been drawn -/
  seen : Bool := false
  /-- R509: the expected PSync is taken as missed -/
  miss : Bool := false
  /-- R509: the codewords have been drawn -/
  drawn : Bool := false
  /-- R509: codewords declared uncorrectable, by their number in the frame -/
  hits : List Nat := []
  /-- R509: bits reported corrected -/
  corr : Nat := 0
deriving DecidableEq, Repr

/-- Planes, hunters, defects and engines -/
structure Framing where
  /-- R509: by receive port code -/
  lineInj : Tab LineInj := []
  /-- R161: planes 0 A and 1 B -/
  planes : Tab Plane := []
  /-- R166: engine hunters at 0x100 + engine code, port monitors at the port code -/
  hunters : Tab Hunter := []
  /-- R183: by receive line port code -/
  defects : Tab DefPort := []
  /-- R257: status per engine code; reset 1 CURRENT for x.E1, 0 ACTIVE for x.E0 (log 17) -/
  engines : Tab Nat := []
deriving DecidableEq, Repr

/-- The population (R191) -/
structure Terms where
  /-- R191: by flat index; an unlisted terminal is ABSENT -/
  terms : Tab Term := []
deriving DecidableEq, Repr

/-- A pattern descriptor (R240) -/
structure Desc where
  /-- R240: 0 invalid -/
  kind : Nat := 0
  /-- R240: flags bit 0 -/
  stamp : Bool := false
  /-- R240: pool offset -/
  base : Nat := 0
  /-- R240: region_bytes -/
  region : Nat := 0
  /-- R240: len_min -/
  lenMin : Nat := 0
  /-- R240: len_max -/
  lenMax : Nat := 0
  /-- R240: len_step -/
  lenStep : Nat := 0
  /-- R240: polynomial -/
  prbs : Nat := 0
  /-- R240: payload byte -/
  fill : Nat := 0
  /-- R240: stamp_offset -/
  stampOff : Nat := 0
  /-- R241, R55: client that made it valid -/
  client : Nat := 0
  /-- R240: position -/
  pos : DescPos := {}
  /-- R238, R241: cause already reported, 3 stopped by a format error -/
  refused : Nat := 0
deriving DecidableEq, Repr

/-- A frame cut under R236 -/
structure CutFrame where
  /-- R236: the frame as first taken -/
  frame : UpFrame := {}
  /-- R236: SDU bytes -/
  total : Nat := 0
  /-- R236: bytes already sent -/
  sent : Nat := 0
  /-- R233: context -/
  ctx : Nat := 0
deriving DecidableEq, Repr

/-- An allocation queue (R245, R250) -/
structure AQueue where
  /-- R245: settings in force -/
  shaper : Shaper := {}
  /-- R245: units of 1/64 byte; DESIGN CHOICE full (log 16) -/
  tokens : Nat := 1049088
  /-- R246: held MV3200 change -/
  held : Option Shaper := none
  /-- R236: cut frame waiting -/
  cut : Option CutFrame := none
  /-- R233: context after the one that sent last; DESIGN CHOICE 0 (log 16) -/
  turn : Nat := 0
  /-- R250: last DBRu sent -/
  dbruLast : Option Nat := none
  /-- R250: counters by response offset -/
  cnt : Tab Nat := []
  /-- R250: an OMCI frame waits for room -/
  omciWait : Bool := false
deriving DecidableEq, Repr

/-- Queues, descriptors and pool (chapter 08) -/
structure Upstream where
  /-- R245: by queue index -/
  queues : Tab AQueue := []
  /-- R240: by descriptor -/
  descs : Tab Desc := []
  /-- R240: writes waiting for a superframe boundary -/
  pendDescs : Tab Desc := []
  /-- R237: pool size in 4 MiB segments -/
  poolSegs : Nat := 0
  /-- R55: client of the last POOL_RESERVE; DESIGN CHOICE 0 (log 16) -/
  poolClient : Nat := 0
  /-- R239: ranges of the pool, first byte and end, that host software wrote under a descriptor in use -/
  tainted : List (Nat × Nat) := []
  /-- R238: per pool segment: 1 PENDING, 2 POISONED; unlisted READY -/
  poolState : Tab Nat := []
deriving DecidableEq, Repr

/-- An action record (R290) -/
structure ActionRec where
  /-- R290: 0 DROP, 1 FORWARD, 2 COPY_CP, 3 MIRROR -/
  action : Nat := 0
  /-- R290: EARLY -/
  early : Bool := false
  /-- R290: host_port -/
  hostPort : Nat := 0
  /-- R290: tclass -/
  tclass : Nat := 0
  /-- R290: 0 none, n arms trigger n - 1 -/
  trigger : Nat := 0
  /-- R290: cmode -/
  cmode : Nat := 0
  /-- R290: head_n -/
  headN : Nat := 0
  /-- R290: mirror_len -/
  mirrorLen : Nat := 0
deriving DecidableEq, Repr

/-- A rule entry (R310) -/
structure Rule where
  /-- R296: valid -/
  valid : Bool := false
  /-- R299: last writer -/
  client : Nat := 0
  /-- R310: 48 bytes -/
  key : Bytes := []
  /-- R310: 8 bytes -/
  metaKey : Bytes := []
  /-- R310: 48 bytes -/
  mask : Bytes := []
  /-- R310: 8 bytes -/
  metaMask : Bytes := []
  /-- R310: action -/
  act : ActionRec := {}
deriving DecidableEq, Repr

/-- One extractor of a key profile (R285) -/
structure Extractor where
  /-- R285: header code -/
  code : Nat := 0
  /-- R285: occurrence, 0xFF innermost -/
  occ : Nat := 0
  /-- R285: offset -/
  off : Nat := 0
  /-- R285: length -/
  len : Nat := 0
deriving DecidableEq, Repr

/-- A source configuration (R312) -/
structure SourceCfg where
  /-- R296: key profile -/
  profile : Nat := 0
  /-- R296: fcs_in_sdu -/
  fcs : Bool := true
  /-- R296: no-match action -/
  noMatch : ActionRec := {}
  /-- R296: parse-fail action -/
  parseFail : ActionRec := {}
deriving DecidableEq, Repr

/-- Rule table, profiles and sources (R299) -/
structure RuleSet where
  /-- R296: by index -/
  rules : Tab Rule := []
  /-- R296: by profile -/
  profiles : Tab (List Extractor) := []
  /-- R296: by source -/
  sources : Tab SourceCfg := []
deriving DecidableEq, Repr

/-- A committed version (R300, R301) -/
structure Version where
  /-- R313: version number -/
  num : Nat := 0
  /-- R299: its tables -/
  tables : RuleSet := {}
  /-- R302, R313, R318: rule entries it changed, whose superseded copies take shadow entries -/
  rules : Nat := 0
  /-- R318: device time of the commit point -/
  time : BitVec 64 := 0
  /-- R50: channel and tag of the RULE_COMMIT -/
  cause : Option Cause := none
  /-- R301: the commit has completed -/
  done : Bool := true
deriving DecidableEq, Repr

/-- An item in the classifier (R278, R300) -/
structure ClsItem where
  /-- -: the model's own name of the item (log 18) -/
  id : Nat := 0
  /-- R278: source code -/
  source : Nat := 0
  /-- R320: staging item that waits for its decision; 0 none -/
  basinItem : Nat := 0
  /-- R300: entry version -/
  version : Nat := 0
  /-- R295: Port-ID -/
  portId : Nat := 0
  /-- R281: XGEM header and SDU or frame bytes -/
  frame : Bytes := []
  /-- R182, R279: payload label -/
  label : Nat := 0
  /-- R287: key index of the level-1 header -/
  keyIdx : Nat := 0
  /-- R297: key index of each fragment -/
  keys : List Nat := []
  /-- R297: length of each fragment -/
  lens : List Nat := []
  /-- R287: flat index of the owner of the Port-ID -/
  term : Option Nat := none
  /-- R279: CONT -/
  cont : Bool := false
  /-- R134: timestamp -/
  ns : BitVec 64 := 0
  /-- R134: its fraction -/
  frac : Nat := 0
  /-- R289: 0 awaiting PASS 0, 1 awaiting PASS 1, 2 decided and waiting in order -/
  pass : Nat := 0
  /-- R295: action decided -/
  act : ActionRec := {}
  /-- R292: deciding rule -/
  rule : Nat := 0xFFFF
  /-- R315: a rule entry decided it, and not a source default -/
  byRule : Bool := false
  /-- R294, R320: 2 µs passed after its end before its decision -/
  late : Bool := false
  /-- R294: CK_TS cycles at its end -/
  endCycles : Nat := 0
  /-- R399: its FIFO line fails its CRC; true when an injection spoiled it -/
  lineBad : Option Bool := none
  /-- R287: metadata of the deciding pass -/
  metaB : Bytes := []
  /-- R292: bytes that the deciding pass parsed -/
  form : Bytes := []
  /-- R291: first byte and end of the Ethernet frame in form, none when level 2 is not Ethernet -/
  fwd : Option (Nat × Nat) := none
deriving DecidableEq, Repr

/-- A COPY_CP copy (R293) -/
structure Copy where
  /-- R293: bytes -/
  data : Bytes := []
  /-- R316: timestamp -/
  time : BitVec 64 := 0
  /-- R316: deciding rule -/
  rule : Nat := 0xFFFF
  /-- R400: a line of it fails its CRC; true when an injection spoiled it -/
  bad : Option Bool := none
deriving DecidableEq, Repr

/-- The classifier (chapter 10) -/
structure Classifier where
  /-- R299: the draft -/
  draft : RuleSet := {}
  /-- R299: client of the first change -/
  owner : Option Nat := none
  /-- R302: entries changed: rule index, 0x10000 + profile, 0x10100 + source -/
  dirty : List Nat := []
  /-- R296, R301: live versions, newest first; version 0 after reset -/
  versions : List Version := [{}]
  /-- R313: version numbers have wrapped to 0 -/
  wrapped : Bool := false
  /-- R301: items in the classifier, in entry order -/
  items : List ClsItem := []
  /-- -: next item name (log 18) -/
  nextItem : Nat := 0
  /-- R315: hits per rule index, 48 bits -/
  hits : Tab Nat := []
  /-- R317: counters at source x 256 + offset, 48 bits -/
  cnt : Tab Nat := []
  /-- R293: COPY_CP queue per source, 128 KiB each -/
  copies : Tab (List Copy) := []
  /-- R305: cycle of CK_TS of the last EV_CLS_OVERFLOW per source -/
  overflowAt : Tab Nat := []
  /-- R308: rule entries whose compiled line is under recomputation -/
  badLines : List Nat := []
  /-- R400: rule entries whose master in CP memory fails its CRC, and whether an injection spoiled it -/
  badMasters : List (Nat × Bool) := []
deriving DecidableEq, Repr

/-- A Basin's CAP_CONFIG (R352) -/
structure CapCfg where
  /-- R352: own mode; DESIGN CHOICE KEEP (log 19) -/
  mode : Nat := 1
  /-- R352: head_n -/
  headN : Nat := 0
  /-- R352: COARSE_TIME -/
  coarse : Bool := false
  /-- R352: encrypt -/
  encrypt : Bool := false
  /-- R352: record PLOAM partitions -/
  ploam : Bool := false
  /-- R352: record bandwidth maps -/
  bwmap : Bool := false
  /-- R352: on_full stop -/
  stopFull : Bool := false
  /-- R352: buffer size -/
  segments : Nat := 0
  /-- R352: trigger_mode -/
  trigMode : Nat := 0
  /-- R352: start_mask -/
  startMask : Nat := 0
  /-- R352: stop_mask -/
  stopMask : Nat := 0
  /-- R352: post_bytes -/
  postBytes : Nat := 0
  /-- R352: FOLD_WINDOW -/
  foldUs : Nat := 1000
  /-- R352: key_slot -/
  keySlot : Nat := 0
  /-- R352: tap_offset_ns -/
  tapOffset : Int := 0
deriving DecidableEq, Repr

/-- The classifier's decision on a staging item (R294) -/
structure Decision where
  /-- R292: deciding rule -/
  rule : Nat := 0xFFFF
  /-- R290: cmode -/
  cmode : Nat := 0
  /-- R290: head_n -/
  headN : Nat := 0
  /-- R324: the frame fired a trigger -/
  trig : Bool := false
deriving DecidableEq, Repr

/-- An item in Basin staging (R320) -/
structure StageItem where
  /-- -: the model's own name (log 18) -/
  id : Nat := 0
  /-- R326: 0 XGEM frame, 1 PLOAM partition, 2 bandwidth map -/
  content : Nat := 0
  /-- R320: waits for the classifier's decision -/
  waits : Bool := false
  /-- R326: bytes in line form -/
  data : Bytes := []
  /-- R324: payload label -/
  label : Nat := 0
  /-- R325: timestamp -/
  ns : BitVec 64 := 0
  /-- R325: 16-bit fraction -/
  frac : Nat := 0
  /-- R401: a staging line failed its CRC -/
  sramBad : Bool := false
  /-- R507: an injection corrupted it -/
  sramInj : Bool := false
  /-- R320: the decision that reached it -/
  decided : Option Decision := none
  /-- R328: its decision or its 2 µs have come, and the record of an earlier burst comes first: whether a Weir that it needs returns its record at once -/
  due : Option Bool := none
deriving DecidableEq, Repr

/-- The open FOLD run (R330) -/
structure FoldRun where
  /-- R330: first frame -/
  first : StageItem := {}
  /-- R326: its deciding rule -/
  rule : Nat := 0xFFFF
  /-- R324: record flags of the first frame -/
  flags : Nat := 0
  /-- R329: frames in the run -/
  count : Nat := 0
  /-- R329: timestamp of the last frame -/
  lastNs : BitVec 64 := 0
  /-- R329: its fraction -/
  lastFrac : Nat := 0
deriving DecidableEq, Repr

/-- Items lost since the last committed record (R333) -/
structure Gap where
  /-- R333: frames_lost -/
  frames : Nat := 0
  /-- R333: bursts_lost -/
  bursts : Nat := 0
  /-- R333: other_lost -/
  other : Nat := 0
  /-- R333: bytes_lost -/
  bytes : Nat := 0
  /-- R325: timestamp of the first lost item -/
  firstNs : BitVec 64 := 0
  /-- R325: its fraction -/
  firstFrac : Nat := 0
  /-- R333: timestamp of the last lost item -/
  lastNs : BitVec 64 := 0
  /-- R333: its fraction -/
  lastFrac : Nat := 0
  /-- R337: cause -/
  cause : Nat := 0
deriving DecidableEq, Repr

/-- A segment of a capture (R322, R323) -/
structure Seg where
  /-- R322: ordinal -/
  ord : Nat := 0
  /-- R321: store segment -/
  seg : Nat := 0
  /-- R323: CLOSED -/
  closed : Bool := false
  /-- R323: bytes used so far -/
  used : Nat := 64
  /-- R323: records in the segment -/
  records : Nat := 0
  /-- R323: seq of the first record -/
  firstSeq : Nat := 0
  /-- R323: flags bit 1 -/
  bypass : Bool := false
  /-- R323: flags bit 0 -/
  enc : Bool := false
  /-- R323: open_time -/
  openNs : BitVec 64 := 0
  /-- R343: offsets of its records, newest first -/
  recs : List Nat := []
deriving DecidableEq, Repr

/-- A tap burst whose BURST record waits for the records of its frames (R328) -/
structure BurstWait where
  /-- R328: its frames still in staging -/
  ids : List Nat := []
  /-- R320, R328: it found staging full: no record follows, but its frames still come before those of the next burst -/
  lost : Bool := false
  /-- R328: seq of its first record -/
  first : Option (BitVec 32) := none
  /-- R325: timestamp -/
  ns : BitVec 64 := 0
  /-- R134: its 16-bit fraction -/
  frac : Nat := 0
  /-- R328: offsets 16 to 47 of the record -/
  fields : Bytes := []
  /-- R328: data -/
  data : Bytes := []
  /-- R401: a staging line failed its CRC -/
  sramBad : Bool := false
  /-- R507: an injection corrupted it -/
  sramInj : Bool := false
deriving DecidableEq, Repr

/-- A capture engine (R319 to R342) -/
structure Basin where
  /-- R340: capture state -/
  state : Nat := 0
  /-- R351: client of the CAP_CONFIG -/
  client : Nat := 0
  /-- R352: configuration -/
  cfg : CapCfg := {}
  /-- R340: capture_id; DESIGN CHOICE 0 (log 19) -/
  captureId : BitVec 32 := 0
  /-- R340: stop cause -/
  stopCause : Nat := 0
  /-- R321: segments held, ascending -/
  buffer : List Nat := []
  /-- R322: retained segments, ascending ordinal; the last is open unless closed -/
  segs : List Seg := []
  /-- R322: next ordinal -/
  nextOrd : Nat := 0
  /-- R324: next seq -/
  nextSeq : BitVec 32 := 0
  /-- R320: items in staging, oldest first, 256 KiB -/
  staging : List StageItem := []
  /-- R330: the open run -/
  fold : Option FoldRun := none
  /-- R337: losses not yet in a GAP record -/
  gap : Gap := {}
  /-- R356: frames lost since the last EV_CAP_GAP -/
  lostEvFrames : Nat := 0
  /-- R356: bytes lost since the last EV_CAP_GAP -/
  lostEvBytes : Nat := 0
  /-- R337: cycle of CK_TS of the last EV_CAP_GAP -/
  gapEvAt : Option Nat := none
  /-- R340: post_bytes still to commit -/
  postLeft : Nat := 0
  /-- R354: trigger_time -/
  trigTime : BitVec 64 := 0
  /-- R354: flags bit 0 -/
  triggered : Bool := false
  /-- R354: a Weir fallback is in force -/
  fallback : Bool := false
  /-- R336: the rest of the open segment is in KEEP form -/
  keepRest : Bool := false
  /-- R354: counters by response offset, 64 bits -/
  cnt : Tab Nat := []
  /-- R328: tap bursts whose BURST record waits for their frames, in line order -/
  bursts : List BurstWait := []
  /-- R422: the storage key may still be used -/
  encLeft : Bool := true
deriving DecidableEq, Repr

/-- A record that a Weir holds (R336) -/
structure Held where
  /-- R336: the item -/
  item : StageItem := {}
  /-- R326: deciding rule -/
  rule : Nat := 0xFFFF
  /-- R334: the form asked for, coded as cmode -/
  mode : Nat := 2
  /-- R290: head_n -/
  headN : Nat := 0
  /-- R324: record flags -/
  flags : Nat := 0
deriving DecidableEq, Repr

/-- A compression unit (R335, R336) -/
structure Weir where
  /-- R336: fenced -/
  fenced : Bool := false
  /-- R335: Basin whose record it holds -/
  basin : Option Nat := none
  /-- R336: the record it holds -/
  item : Option Held := none
  /-- R347: export whose compression job runs on it -/
  job : Option Nat := none
  /-- R27, R467: the job is suspended at a record boundary -/
  suspended : Bool := false
deriving DecidableEq, Repr

/-- A running export (R353) -/
structure Export where
  /-- R353: basin -/
  basin : Nat := 0
  /-- R55: client -/
  client : Nat := 0
  /-- R353: route: true host port -/
  port : Bool := false
  /-- R353: ring or port -/
  target : Nat := 0
  /-- R353: tclass -/
  tclass : Nat := 0
  /-- R346: follow -/
  follow : Bool := false
  /-- R347: compress -/
  compress : Bool := false
  /-- R347: energy_mj -/
  energy : Nat := 0
  /-- R353: mtu -/
  mtu : Nat := 0
  /-- R353: ring_hold_us -/
  hold : Nat := 20
  /-- R346: seq of the next record to send -/
  nextSeq : BitVec 32 := 0
  /-- R346: follow 0: seq after the last record to send -/
  endSeq : BitVec 32 := 0
  /-- R356: records sent -/
  sent : Nat := 0
  /-- R345: frame_seq -/
  frameSeq : BitVec 32 := 0
  /-- R344: waiting for ring buffers within a record -/
  holding : Bool := false
  /-- R343, R345, R347: the record in flight as it was read and re-encoded, none when empty -/
  record : Bytes := []
  /-- R343, R345: its bytes already sent -/
  off : Nat := 0
  /-- R344: descriptors of the ring that it has taken so far -/
  bufs : Nat := 0
  /-- R351: ends after the record in flight -/
  stopping : Bool := false
  /-- R346: the capture it reads has given way to a new one: its next seq and its capture_id -/
  stale : Option (BitVec 32 × BitVec 32) := none
  /-- R483: the present segment has been charged -/
  charged : Bool := false
  /-- R483: ordinal of the segment charged -/
  chargedSeg : Nat := 0
  /-- R483: µJ charged for it -/
  charge : Nat := 0
  /-- R483: windows waited for budget -/
  waitWin : Nat := 0
  /-- R50: channel and tag of CAP_EXPORT -/
  cause : Option Cause := none
deriving DecidableEq, Repr

/-- Basins, Weirs, exports and BAR2 windows -/
structure Capture where
  /-- R319: Basins 0 to 3 -/
  basins : Tab Basin := []
  /-- R335: Weirs 0 to 7 -/
  weirs : Tab Weir := []
  /-- R348: exports by export_id -/
  exports : Tab Export := []
  /-- R350: base_segment per mapped window -/
  windows : Tab Nat := []
  /-- R321, R74: capture store by store address, before encryption (log 28); DESIGN CHOICE 0 (log 20) -/
  store : Mem := []
  /-- R237: ranges of the store that hold undefined contents since a POOL_RESERVE: first address, end, number of the reservation (log 7) -/
  undef : List (Nat × Nat × Nat) := []
  /-- R342: XTS key under which a 4 KiB data unit of the store is held; unlisted units are in the clear -/
  unitKey : Tab Bytes := []
deriving DecidableEq, Repr

/-- A kernel slot (R374) -/
structure Kernel where
  /-- R378: client of the action 0 -/
  client : Nat := 0
  /-- R374: length set by action 0 -/
  len : Nat := 0
  /-- R374: image bytes written -/
  data : Bytes := []
  /-- R374: usable -/
  usable : Bool := false
  /-- R400: a line of the slot fails its CRC; true when an injection spoiled it -/
  bad : Option Bool := none
deriving DecidableEq, Repr

/-- An analysis job (R375 to R379) -/
structure Job where
  /-- R376: 1 QUEUED, 2 RUNNING, 3 DONE -/
  state : Nat := 1
  /-- R55: client -/
  client : Nat := 0
  /-- R375: kernel_id -/
  kernel : Nat := 0
  /-- R375: priority -/
  prio : Nat := 0
  /-- R375: parterre -/
  parterre : Nat := 0xFF
  /-- R375: energy_mj -/
  energy : Nat := 0
  /-- R375: time_limit_ms -/
  limit : Nat := 0
  /-- R375: basin -/
  basin : Nat := 0
  /-- R375: out_segments -/
  outSegs : Nat := 0
  /-- R375: out_base_segment -/
  outBase : Nat := 0xFFFFFFFF
  /-- R375: from_ordinal -/
  fromOrd : Nat := 0
  /-- R375: to_ordinal -/
  toOrd : Nat := 0
  /-- R375: params -/
  params : Bytes := []
  /-- R379: result -/
  result : Nat := 0
  /-- R379: retries -/
  retries : Nat := 0
  /-- R379: core of the latest attempt -/
  core : Nat := 0xFF
  /-- R379: kernel_code -/
  code : BitVec 32 := 0
  /-- R379: out_bytes -/
  outBytes : Nat := 0
  /-- R379: start_time -/
  startNs : BitVec 64 := 0
  /-- R379: end_time -/
  endNs : BitVec 64 := 0
  /-- R379: bundles issued -/
  bundles : Nat := 0
  /-- R379: trap_pc -/
  trapPc : Nat := 0
  /-- R379: trap_cause -/
  trapCause : Nat := 0
  /-- R379: segments_skipped -/
  skipped : Nat := 0
  /-- R349: store segments pinned -/
  pins : List Nat := []
  /-- R373, R375: the input segments as they stood at JOB_SUBMIT -/
  input : List Seg := []
  /-- R373, R342: storage key slot of the input capture -/
  inSlot : Nat := 0
  /-- R483: µJ charged for the attempt -/
  charge : Nat := 0
  /-- R483: windows waited for budget -/
  waitWin : Nat := 0
  /-- R376: queued ahead of every other job -/
  front : Bool := false
  /-- R381: core of the failed attempt, on which the re-run does not start -/
  avoid : Option Nat := none
  /-- R377: held at a bundle boundary in Hush -/
  held : Bool := false
  /-- R373: ordinal of the segment being read -/
  readOrd : Nat := 0
  /-- R373: offset of the next record in it -/
  readOff : Nat := 64
  /-- R372: input buffer delivered last, 0 or 1 -/
  buf : Nat := 0
  /-- R50: channel and tag of JOB_SUBMIT -/
  cause : Option Cause := none
deriving DecidableEq, Repr

/-- A result that has not landed yet (R361) -/
structure PendWrite where
  /-- R361: bundle count at which it is first readable -/
  due : Nat := 0
  /-- R362: slot that wrote it: 0 LS0, 1 LS1, 2 M, 3 A -/
  slot : Nat := 0
  /-- R359: register -/
  reg : RegName := .g 0
  /-- R361: value -/
  val : BitVec 48 := 0
deriving DecidableEq, Repr

/-- An Aster core (R357 to R370) -/
structure Core where
  /-- R380: fenced -/
  fenced : Bool := false
  /-- R376: job running on it -/
  job : Option Nat := none
  /-- R371: bundle index, or the 32-bit target of a branch outside the kernel's bundles (R364) -/
  pc : Nat := 0
  /-- R357: bundles of the kernel, from bundle 0 of the 64 KiB instruction space; the runtime's bundles have no contents in the spec (log 74) -/
  code : Bytes := []
  /-- R379: bundles issued in the attempt -/
  issued : Nat := 0
  /-- R359: g0 to g31; DESIGN CHOICE 0 (log 21) -/
  g : Tab (BitVec 32) := []
  /-- R359: p0 to p7; DESIGN CHOICE 0 (log 21) -/
  p : Tab (BitVec 32) := []
  /-- R359: cb0 to cb3; DESIGN CHOICE 0 (log 21) -/
  cb : Tab (BitVec 32) := []
  /-- R359: cl0 to cl3; DESIGN CHOICE 0 (log 21) -/
  cl : Tab (BitVec 32) := []
  /-- R359: acc0 to acc7 as readers other than a MAC see them; DESIGN CHOICE 0 (log 21) -/
  acc : Tab (BitVec 48) := []
  /-- R361: acc0 to acc7 as a later MAC reads them; DESIGN CHOICE 0 (log 21) -/
  mac : Tab (BitVec 48) := []
  /-- R359: lc0 and lc1, 16 bits; DESIGN CHOICE 0 (log 21) -/
  lc : Tab Nat := []
  /-- R359: SAT -/
  sat : Bool := false
  /-- R361: results not yet landed -/
  pend : List PendWrite := []
  /-- R361: a branch, SVC or LOOP and the delay slots left -/
  ctl : Option (CtlOp × Nat) := none
  /-- R372: service called and not yet answered -/
  svcWait : Option Nat := none
  /-- R364: bundle of the SVC that called it -/
  svcPc : Nat := 0
  /-- R370: first and end bundle of the active loops of lc0 and lc1 -/
  loops : Tab (Nat × Nat) := []
  /-- R357: local data; DESIGN CHOICE 0 (log 21) -/
  mem : Mem := []
  /-- R358: Bed slice; DESIGN CHOICE 0 (log 21) -/
  slice : Mem := []
  /-- R399: 64-byte lines of the data space that fail their CRC, and whether an injection spoiled them -/
  badLines : List (Nat × Bool) := []
  /-- R399: an instruction refetch failed -/
  badFetch : Bool := false
deriving DecidableEq, Repr

/-- Kernels, jobs and cores -/
structure Aster where
  /-- R374: kernel slots 0 to 15 -/
  kernels : Tab Kernel := []
  /-- R375: by job_id -/
  jobs : Tab Job := []
  /-- R375: next job_id; DESIGN CHOICE 0 (log 21) -/
  nextJob : BitVec 32 := 0
  /-- R357: by core ID -/
  cores : Tab Core := []
deriving DecidableEq, Repr

/-- A memory stack (R405) -/
structure Stack where
  /-- R394: fenced wholly -/
  fenced : Bool := false
  /-- R387: refresh doubled -/
  doubled : Bool := false
  /-- R405: next segment the scrub reads -/
  scrubSeg : Nat := 0
  /-- R395: next block in that segment -/
  scrubBlk : Nat := 0
  /-- R396: block the scrub has read and not yet written back -/
  scrubRead : Option Nat := none
  /-- R395: its corrected data where these are not what was stored -/
  scrubData : Bytes := []
  /-- R405: scrub_passes -/
  passes : BitVec 32 := 0
  /-- R405: counters by response offset, 48 bits -/
  cnt : Tab Nat := []
  /-- R408: outer-corrected blocks since the last EV_MEM_CORRECTED -/
  evBlocks : Nat := 0
  /-- R388: corrections of the dies not yet read by the controller -/
  dieCorr : Nat := 0
  /-- R408: inner corrections since the last EV_MEM_CORRECTED -/
  evInner : Nat := 0
  /-- R404: cycle of CK_TS of the last EV_MEM_CORRECTED -/
  evAt : Option Nat := none
  /-- R403: outer flip mask armed -/
  outerFlip : BitVec 128 := 0
  /-- R403: inner flip mask armed -/
  innerFlip : BitVec 128 := 0
deriving DecidableEq, Repr

/-- Symbols in error in a block of the store (R389) -/
structure BlockErr where
  /-- R389: symbols the outer code sees in error -/
  symbols : Nat := 0
  /-- R388: corrections that a die makes when the block is read -/
  inner : Nat := 0
  /-- R507: an injection put them there -/
  inj : Bool := false
deriving DecidableEq, Repr

/-- Memory integrity (chapter 13) -/
structure MemInt where
  /-- R405: by stack -/
  stackTab : Tab Stack := []
  /-- R391: corrected blocks per segment since reset -/
  corr : Tab Nat := []
  /-- R391, R392, R507: per segment: 1 marked, 2 fenced, 3 marked by a correction that an injection caused -/
  fence : Tab Nat := []
  /-- R389: errors per 64-byte block of the store; unlisted blocks have none -/
  errs : Tab BlockErr := []
  /-- R404: scrub_period_h -/
  period : Nat := 24
  /-- R404: scrub_enable -/
  scrubOn : Bool := true
  /-- R404: corr_fence_limit -/
  limit : Nat := 64
  /-- R404: corr_event_ms -/
  evMs : Nat := 1000
  /-- R406: SRAM counters by response offset, 48 bits -/
  sram : Tab Nat := []
  /-- R403: flip masks armed per SRAM instance -/
  sramFlip : Tab (BitVec 128) := []
  /-- R403: lines that a mask corrupted as their repair, their commit or a change of a record wrote them: instance, line address, and whether an injection did -/
  spoilt : List (Nat × Nat × Bool) := []
  /-- R408: cycle of CK_TS of the last EV_SRAM_ERROR of a repaired error per instance -/
  sramEvAt : Tab Nat := []
  /-- R402, R507: halted DMA channels: Parterre, channel, transfer, and whether an injection caused it -/
  halted : List (Nat × Nat × Nat × Bool) := []
deriving DecidableEq, Repr

/-- A key slot (R409, R410, R420) -/
structure Slot where
  /-- R410: 0 EMPTY, 1 VALID, 2 EXHAUSTED -/
  state : Nat := 0
  /-- R433: key -/
  kind : Nat := 0
  /-- R410: owner -/
  owner : Nat := 0
  /-- R420: 48 bits, saturates; DESIGN CHOICE 0 (log 22) -/
  usage : Nat := 0
  /-- R414: limit -/
  limit : Nat := 0
  /-- R409: key bytes -/
  key : Bytes := []
  /-- R421: EV_KEY_USAGE raised since the unwrap -/
  told : Bool := false
deriving DecidableEq, Repr

/-- A transfer (R423, R429) -/
structure Xfer where
  /-- R429: 0 never used, 1 running, 2 ended -/
  state : Nat := 0
  /-- R429: kind -/
  kind : Nat := 0
  /-- R429: cause -/
  cause : Nat := 0
  /-- R429: outcome -/
  status : Nat := 0
  /-- R429: slot -/
  slot : Nat := 0
  /-- R423: ring -/
  ring : Nat := 0
  /-- R424: pool_offset -/
  offset : Nat := 0
  /-- R424: length -/
  length : Nat := 0
  /-- R424: iv -/
  iv : Bytes := []
  /-- R424: tag -/
  tag : Bytes := []
  /-- R417: key read at the start -/
  key : Bytes := []
  /-- R429: bytes moved -/
  bytes : Nat := 0
  /-- R425: ciphertext so far -/
  cipher : Bytes := []
  /-- R425: EOP consumed -/
  eop : Bool := false
  /-- R425: zero-filling -/
  filling : Bool := false
  /-- R429: first_segment -/
  first : Nat := 0
  /-- R428: object to send -/
  object : Bytes := []
  /-- R428: ordinal -/
  ordinal : Nat := 0
  /-- R428: segment pinned -/
  pin : Option Nat := none
  /-- R428: the object has been sealed -/
  built : Bool := false
  /-- R50: channel and tag of the command -/
  cmd : Option Cause := none
deriving DecidableEq, Repr

/-- The cipher engine (chapter 14) -/
structure Cipher where
  /-- R410: by slot -/
  slots : Tab Slot := []
  /-- R411: the device KEK -/
  kek : Option (BitVec 256) := none
  /-- R423: transfers 0 to 3 -/
  xfers : Tab Xfer := []
  /-- R434: last health test failed -/
  entropyBad : Bool := false
  /-- R434: health_failures, 48 bits -/
  health : Nat := 0
  /-- R434: reseeds, 48 bits -/
  reseeds : Nat := 0
  /-- R434: expired_waits, 48 bits -/
  expired : Nat := 0
  /-- R430: draws made from the CTR_DRBG; DESIGN CHOICE 0 (log 7) -/
  draws : Nat := 0
deriving DecidableEq, Repr

/-- A frame in a transmit queue (R440) -/
structure TxFrame where
  /-- R440: bytes without FCS -/
  data : Bytes := []
  /-- R448: send_id when it is to be stamped -/
  stamp : Option Nat := none
  /-- R46: the HOST_PORT_SEND that queued it -/
  cause : Option Cause := none
deriving DecidableEq, Repr

/-- A transmit class of a host port (R440, R441) -/
structure HClass where
  /-- R440: frames, oldest first, 64 KiB -/
  queue : List TxFrame := []
  /-- R441: rate_mbps -/
  rate : Nat := 0
  /-- R441: burst_bytes; DESIGN CHOICE 1536 (log 23) -/
  burst : Nat := 1536
  /-- R441: units of 1/5,000 byte; DESIGN CHOICE 0 (log 23) -/
  tokens : Nat := 0
  /-- R441: CK_TS cycle up to which tokens have accumulated -/
  since : Nat := 0
  /-- R445: paused now -/
  paused : Bool := false
  /-- R446: in watchdog hold -/
  hold : Bool := false
deriving DecidableEq, Repr

/-- A frame in the CP receive queue (R443) -/
structure RxFrame where
  /-- R443: bytes without FCS -/
  data : Bytes := []
  /-- R443: PTP flag -/
  ptp : Bool := false
  /-- R443: receive stamp -/
  time : BitVec 64 := 0
deriving DecidableEq, Repr

/-- An entry of the stamp table (R448) -/
structure TxStamp where
  /-- R448: send_id -/
  id : Nat := 0
  /-- R455: sent, or dropped before sending -/
  sent : Bool := true
  /-- R448: egress stamp -/
  time : BitVec 64 := 0
deriving DecidableEq, Repr

/-- A host Ethernet port (R438 to R456) -/
structure HPort where
  /-- R438: 0 DISABLED, 1 TRAINING, 2 UP -/
  state : Nat := 0
  /-- R451: medium -/
  medium : Nat := 0
  /-- R451: an -/
  an : Bool := true
  /-- R451: lt -/
  lt : Bool := true
  /-- R451: pause_mode -/
  pauseMode : Nat := 0
  /-- R451: eee -/
  eee : Bool := false
  /-- R451: vlan_id; DESIGN CHOICE 0 (log 23) -/
  vlan : Nat := 0
  /-- R451: src_addr; DESIGN CHOICE 0 (log 23) -/
  src : Bytes := [0, 0, 0, 0, 0, 0]
  /-- R451: dst_addr, 0 selects FF-FF-FF-FF-FF-FF -/
  dst : Bytes := [0, 0, 0, 0, 0, 0]
  /-- R451: pause_wd_limit_ms -/
  wdLimit : Nat := 500
  /-- R451: pause_wd_hold_ms -/
  wdHold : Nat := 100
  /-- R451: tx_lpi_idle_us -/
  lpiIdle : Nat := 100
  /-- R456: AN complete, of a port that is UP -/
  anDone : Bool := false
  /-- R456: training done, of a port that is UP -/
  trained : Bool := false
  /-- R456: EEE negotiated -/
  eeeNeg : Bool := false
  /-- R149: transmit LPI mode taken at the last link-up -/
  lpiTx : Nat := 0
  /-- R149: receive LPI mode taken at the last link-up -/
  lpiRx : Nat := 0
  /-- R456: CK_TS cycles at UP entry -/
  upCycles : Nat := 0
  /-- R456: link_downs -/
  linkDowns : BitVec 32 := 0
  /-- R440: classes 0 to 7 -/
  classes : Tab HClass := []
  /-- R443: CP receive queue, 64 KiB -/
  rx : List RxFrame := []
  /-- R448: last 64 stamps, newest first -/
  stamps : List TxStamp := []
  /-- R449: counters by index, 48 bits -/
  cnt : Tab Nat := []
deriving DecidableEq, Repr

/-- A chassis frame waiting to be sent (R457) -/
structure ChFrame where
  /-- R458: kind -/
  kind : Nat := 0
  /-- R458: trigger -/
  trigger : Nat := 0
  /-- R458: arg -/
  arg : BitVec 32 := 0
  /-- R458: origin_time -/
  origin : BitVec 64 := 0
  /-- R457: collisions so far -/
  attempts : Nat := 0
  /-- R65: causing command -/
  cause : Option Cause := none
deriving DecidableEq, Repr

/-- A peer of the chassis bus (R461) -/
structure Peer where
  /-- R461: identity -/
  identity : BitVec 64 := 0
  /-- R464: CK_TS cycles at its last frame -/
  lastCycles : Nat := 0
  /-- R464: frames -/
  frames : BitVec 32 := 0
  /-- R464: lost -/
  lost : BitVec 32 := 0
  /-- R464: last seq -/
  seq : BitVec 32 := 0
  /-- R461: last heard in STILL, where CK_TS stands -/
  inStill : Bool := false
deriving DecidableEq, Repr

/-- The chassis trigger bus (R457 to R464) -/
structure Chassis where
  /-- R462: enable -/
  enable : Bool := false
  /-- R462: rx_event; DESIGN CHOICE false (log 23) -/
  rxEvent : Bool := false
  /-- R462: tx_trigger_mask; DESIGN CHOICE 0 (log 23) -/
  txMask : Nat := 0
  /-- R462: rx_trigger_mask; DESIGN CHOICE 0 (log 23) -/
  rxMask : Nat := 0
  /-- R462: mark_period_ms -/
  markMs : Nat := 1000
  /-- R462: dst_addr, 0 broadcast; DESIGN CHOICE 0 (log 23) -/
  dst : Bytes := [0, 0, 0, 0, 0, 0]
  /-- R462: peer_age_s -/
  peerAge : Nat := 10
  /-- R462: tx_max_age_ms -/
  maxAge : Nat := 10
  /-- R457: transmit queue, at most 16 -/
  queue : List ChFrame := []
  /-- R457: an attempt is in progress -/
  sending : Bool := false
  /-- R457: back-off slots drawn and not yet waited -/
  backoff : Option Nat := none
  /-- R458: next seq -/
  seq : BitVec 32 := 0
  /-- R461: peer table, at most 32 -/
  peers : List Peer := []
  /-- R464: tx_frames -/
  txFrames : BitVec 32 := 0
  /-- R464: rx_frames -/
  rxFrames : BitVec 32 := 0
  /-- R464: collisions -/
  collisions : BitVec 32 := 0
  /-- R464: tx_failed -/
  txFailed : BitVec 32 := 0
  /-- R464: untracked -/
  untracked : BitVec 32 := 0
  /-- R464: rx_in_still -/
  rxInStill : BitVec 32 := 0
deriving DecidableEq, Repr

/-- Host ports and chassis bus -/
structure HostNet where
  /-- R438: host ports 0 to 3 -/
  ports : Tab HPort := []
  /-- R457: chassis bus -/
  chassis : Chassis := {}
deriving DecidableEq, Repr

/-- A power-state entry or exit under way (R467, R470) -/
structure Entry where
  /-- R486: 0 RUN, 1 Hush, 2 Still -/
  target : Nat := 0
  /-- R470: islands stopped so far, last first -/
  stopped : List Nat := []
  /-- R471: device state before the command -/
  fromSt : DevState := .run
  /-- R467: waiting for the CK_CORE step -/
  waitStep : Bool := false
  /-- R46, R472: the POWER_STATE that awaits its response; none for an exit that a wake source began -/
  cause : Option Cause := none
  /-- R474: the wake mask that the entered state will have -/
  mask : Nat := 0
  /-- R474: timer_ms of the entered state -/
  timer : Nat := 0
deriving DecidableEq, Repr

/-- The last-wake record (R476) -/
structure WakeRec where
  /-- R488: wake_source -/
  source : Nat := 0
  /-- R488: wake_result -/
  result : Nat := 0
  /-- R488: island -/
  island : Nat := 0
  /-- R488: cause -/
  cause : Nat := 0
  /-- R488: unit -/
  unit : Nat := 0
  /-- R488: wake_time -/
  time : BitVec 64 := 0
deriving DecidableEq, Repr

/-- Power states, thermal limits and Sluice (chapter 16) -/
structure Power where
  /-- R470: entry or exit under way -/
  entry : Option Entry := none
  /-- R57: device state recorded at entry into STILL; DESIGN CHOICE run (log 24) -/
  entryState : DevState := .run
  /-- R474: wake mask in force; DESIGN CHOICE 0 (log 24) -/
  wakeMask : Nat := 0
  /-- R474: wake timer; DESIGN CHOICE 0 (log 24) -/
  timerMs : Nat := 0
  /-- R474: wake_mask and timer_ms of the Hush in which Still was entered -/
  hushWake : Nat × Nat := (0, 0)
  /-- R475: wake source latched and its unit -/
  latched : Option (Nat × Nat) := none
  /-- R472: the POWER_STATE answered on wake -/
  stillExec : Option Exec := none
  /-- R467: CK_CORE point at entry into Hush; DESIGN CHOICE 2 (log 24) -/
  hushPoint : Nat := 2
  /-- R467: Aster cores and Weirs gated -/
  gated : Bool := false
  /-- R476: last-wake record -/
  wake : WakeRec := {}
  /-- R477: first access to a stopped island: write, BAR, offset -/
  offAddr : Option (Nat × Nat × Nat) := none
  /-- R477: accesses to stopped islands -/
  offCount : Nat := 0
  /-- R480: sensors, 1/16 degree; DESIGN CHOICE 0 (log 24) -/
  temps : List Int := [0, 0, 0, 0, 0, 0, 0, 0]
  /-- R481: THERM_HOT in force -/
  hot : Bool := false
  /-- R484: the ceiling event has been raised and not cleared -/
  ceilHit : Bool := false
  /-- R481: THERM_TRIP_N asserted -/
  trip : Bool := false
  /-- R487: budget_mw -/
  budget : Nat := 46000
  /-- R487: ceiling_c -/
  ceilingC : Nat := 100
  /-- R487: values waiting for the next window boundary -/
  pendBudget : Option (Nat × Nat) := none
  /-- R482: balance in µJ; DESIGN CHOICE 0 (log 24) -/
  balance : Int := 0
  /-- R488: F of the last window; DESIGN CHOICE 0 (log 24) -/
  fixedUj : Nat := 0
  /-- R483: budget stall -/
  stalled : Bool := false
  /-- R484: a job has waited for budget in the present window -/
  waited : Bool := false
  /-- R484: windows in which no job waited for budget; DESIGN CHOICE 0 (log 24) -/
  quiet : Nat := 0
deriving DecidableEq, Repr

/-- A waiting record of the event recorder (R496) -/
structure LogRec where
  /-- R496: its slot -/
  slot : Nat := 0
  /-- R492: 64 bytes -/
  data : Bytes := []
deriving DecidableEq, Repr

/-- The event recorder (R490 to R504) -/
structure Recorder where
  /-- R492, R78: programmed slots of the event-log region; unlisted blank; DESIGN CHOICE blank (log 25) -/
  slots : Tab Bytes := []
  /-- R490: RAM buffer, at most 512, oldest first -/
  buf : List LogRec := []
  /-- R496: next seq -/
  nextSeq : BitVec 32 := 0
  /-- R496, R501: LOG_NEXT_SLOT -/
  nextSlot : Nat := 0
  /-- R501: LOG_LAST_SEQ -/
  lastSeq : BitVec 32 := 0xFFFFFFFF
  /-- R501: LOG_REFUSED -/
  refused : BitVec 32 := 0
  /-- R500: LOG_FULL -/
  full : Bool := false
  /-- R504: CLEARING -/
  clearing : Bool := false
  /-- R504: channel and tag of the LOG_CLEAR -/
  clearCause : Option Cause := none
  /-- R495: slots in use before the clear -/
  usedBefore : Nat := 0
  /-- R499: PWR_FAIL_N asserted -/
  powerFail : Bool := false
  /-- R495: the newest record is EV_LOG_POWER_FAIL -/
  lastPf : Bool := false
  /-- R495: seq of the last record given a slot; DESIGN CHOICE 0 (log 25) -/
  lastWritten : BitVec 32 := 0
  /-- R494: operating hours at the last whole hour counted, 1/100 h; DESIGN CHOICE 0 (log 25) -/
  hours : Nat := 0
  /-- R494: elapsed time, in cycles of CK_TS, at which that hour was counted -/
  hourMark : Nat := 0
  /-- R494: time of this hour has passed that no cycle of CK_TS shows (log 81) -/
  hourGap : Bool := false
  /-- R496, R504: seq that the LOG_CLEAR in progress has given EV_LOG_CLEARED -/
  clearSeq : BitVec 32 := 0
  /-- R499: slots programmed while the erase of a LOG_CLEAR was suspended -/
  since : Tab Bytes := []
  /-- R494: power-cycle count, 24 bits, saturates; DESIGN CHOICE 0 (log 25) -/
  cycles : Nat := 0
  /-- R494: hours in the counter journal; DESIGN CHOICE 0 (log 25) -/
  jHours : Nat := 0
  /-- R494: cycles in the counter journal; DESIGN CHOICE 0 (log 25) -/
  jCycles : Nat := 0
  /-- R501: LOG_VIEW_SLOT -/
  viewSlot : Nat := 0
  /-- R501: VIEW_BUSY -/
  viewBusy : Bool := false
  /-- R501: LOG_VIEW as last filled; undefined from reset, a read then gives a free value -/
  view : List Bytes := []
deriving DecidableEq, Repr

/-- An injection entry (R505, R507) -/
structure InjEntry where
  /-- R505: DETECTOR -/
  det : Nat := 0
  /-- R505: TARGET -/
  target : BitVec 32 := 0
  /-- R505: param -/
  param : BitVec 32 := 0
  /-- R505: REPEAT -/
  rep : Bool := false
  /-- R505: REMAINING -/
  remaining : BitVec 32 := 0
  /-- R505: FIRED -/
  fired : BitVec 32 := 0
  /-- R507: INJECT_SPACING taken at arming -/
  spacing : Nat := 0
  /-- R507: occurrences still to pass over -/
  skip : Nat := 0
  /-- R507: injections since the last EV_INJECTED -/
  since : Nat := 0
  /-- R507: cycle of CK_TS of the last EV_INJECTED -/
  evAt : Option Nat := none
deriving DecidableEq, Repr

/-- The injection window (R505) -/
structure Inject where
  /-- R505: INJECT_TARGET -/
  target : BitVec 32 := 0
  /-- R505: INJECT_PARAM -/
  param : BitVec 32 := 0
  /-- R505: INJECT_MODE.REPEAT -/
  rep : Bool := false
  /-- R505: INJECT_COUNT -/
  count : BitVec 32 := 0
  /-- R505: INJECT_SPACING -/
  spacing : BitVec 32 := 0
  /-- R505: INJECT_ENABLE.EN -/
  enable : Bool := false
  /-- R505: REFUSED latch -/
  refused : Bool := false
  /-- R505: CAUSE -/
  cause : Nat := 0
  /-- R505: INJECT_FIRED -/
  fired : BitVec 32 := 0
  /-- R505: armed entries by entry number -/
  entries : Tab InjEntry := []
deriving DecidableEq, Repr

/-- The whole device and its queue of commands. Every default is the value at reset. -/
structure State where
  /-- R40: identity -/
  ident : Ident := {}
  /-- R41: device control -/
  ctl : Ctl := {}
  /-- R44: mailboxes -/
  mbx : Mbx := {}
  /-- R63: rings and MSI-X -/
  rings : Rings := {}
  /-- R73: boot and flash -/
  boot : Boot := {}
  /-- R100: clocks -/
  clk : Clk := {}
  /-- R113: frequency source -/
  src : Src := {}
  /-- R121: device time -/
  time : Time := {}
  /-- R136: lanes and ports -/
  lane : LaneBlk := {}
  /-- R160: planes -/
  fr : Framing := {}
  /-- R191: terminals -/
  tm : Terms := {}
  /-- R224: upstream -/
  up : Upstream := {}
  /-- R278: classifier -/
  cls : Classifier := {}
  /-- R319: capture -/
  cap : Capture := {}
  /-- R357: Aster cores -/
  ast : Aster := {}
  /-- R383: memory integrity -/
  mem : MemInt := {}
  /-- R409: cipher engine -/
  cip : Cipher := {}
  /-- R436: host network -/
  net : HostNet := {}
  /-- R466: power -/
  pwr : Power := {}
  /-- R490: event recorder -/
  log : Recorder := {}
  /-- R505: injection window -/
  inj : Inject := {}
  /-- the model's own queue of waiting commands, first in, first out -/
  pending : List Instr := []
deriving DecidableEq, Repr

/-- The machine right after POR_N is released: BOOT, every field at its reset value. -/
def State.reset : State := { pending := [] }

end Sys2Proof.Machine
end

