-- ==== Sys2Proof/Machine/Flags.lean ====
section
/-!
DEFINITION. The codes a response or an event carries: command statuses (R62), device state codes (R41), the device
states a command is legal in (R58), and the record flags of the event recorder.
-/
namespace Sys2Proof.Machine

/-! ### Statuses (R62) -/
def stOk : Nat := 0x0000
def stBusy : Nat := 0x0001
def stStateConflict : Nat := 0x0002
def stBadParam : Nat := 0x0003
def stNoResource : Nat := 0x0004
def stUnsupported : Nat := 0x0005
def stDenied : Nat := 0x0006
def stTimeout : Nat := 0x0007
def stDomainOff : Nat := 0x0008
def stFenced : Nat := 0x0009
def stTagFail : Nat := 0x000A
def stKeyExhausted : Nat := 0x000B
def stSleepRefused : Nat := 0x000C
def stVersionPending : Nat := 0x000D
def stStale : Nat := 0x000E
def stInternal : Nat := 0x00FF

/-- The code of a device state (R41). -/
def stateCode : DevState → Nat
  | .boot => 0
  | .ready => 1
  | .run => 2
  | .hush => 3
  | .still => 4
  | .update => 5
  | .fault => 6

/-- The states that R58 calls READY to FAULT. -/
def readyToFault : DevState → Bool
  | .ready | .run | .hush | .update | .fault => true
  | .boot | .still => false

/-- The states that accept a block without a rule of its own (R58). -/
def legalStd : DevState → Bool
  | .ready | .run | .hush => true
  | .boot | .still | .update | .fault => false

/-- The response payload of ST_STATE_CONFLICT (R59). -/
def conflictBytes (cls state id : Nat) : Bytes := le 1 cls ++ [0] ++ le 2 state ++ le 4 id

/-- The bytes of a response header with its check sum over header and payload (R47). -/
def responseBytes (tag status : Nat) (st : DevState) (payload : Bytes) : Bytes :=
  let head := le 2 tag ++ le 2 status ++ le 2 payload.length ++ le 1 (stateCode st) ++ zeros 5
  head ++ le 4 (crc32c (head ++ zeros 4 ++ payload)) ++ payload

/-- Whether the event recorder keeps an event that is also raised to the ring (R495). -/
def recorded (code : Nat) (args : Bytes) : Bool :=
  if code ∈ [0x0002, 0x0102, 0x0103, 0x0202, 0x0204, 0x0703, 0x0705, 0x0904, 0x0A02, 0x0B02, 0x0B03, 0x0B04,
      0x0B06, 0x0C04, 0x0E01, 0x0E02, 0x0F06, 0x0F08] then true
  else if code = 0x0B05 then u8 args 0 == 3
  else if code = 0x0E04 then u8 args 0 == 3
  else if code = 0x0E05 then u8 args 2 == 1
  else false

/-- The 64 bytes of a record of the event log (R492). -/
def recordBytes (seq hours cycles flags : Nat) (e : Event) : Bytes :=
  let who := match e.cause with
    | none => le 1 0xFF ++ zeros 3
    | some c => le 1 c.channel ++ le 1 c.client ++ le 2 c.tag
  let head := le 4 seq ++ le 4 hours ++ le 3 cycles ++ le 1 flags ++ le 2 e.code
  let tail := le 8 e.time.toNat ++ le 4 e.obj ++ who ++ fit 32 e.args
  head ++ le 2 (crc16 (head ++ zeros 2 ++ tail)) ++ tail

/-- The 64 bytes of an event ring entry (R65). -/
def entryBytes (seq : Nat) (phase : Bool) (e : Event) : Bytes :=
  let who := match e.cause with
    | none => zeros 4
    | some c => le 1 c.channel ++ le 1 c.client ++ le 2 c.tag
  le 4 seq ++ le 2 e.code ++ le 2 (b2n e.cause.isSome + b2n phase * 0x8000) ++ le 8 e.time.toNat ++ who ++
    le 4 e.obj ++ fit 40 e.args

end Sys2Proof.Machine
end

