-- ==== Sys2Proof/Machine/Ops.lean ====
section
/-!
DEFINITION. The shared operations: interrupts, the event recorder and the event ring, the injection window's
occurrences, the record of what leaves the device, and the accessors of the parts of State.
-/
namespace Sys2Proof.Machine

/-! ### Small accessors -/

/-- The state with `f` applied to its control part. -/
def State.modCtl (s : State) (f : Ctl → Ctl) : State := { s with ctl := f s.ctl }

/-- One more thing that left the device (log 6). -/
def emit (o : Out) (s : State) : State := s.modCtl fun c => { c with out := o :: c.out }

/-- The answer of a read access of 32-bit words. -/
def answerWords (ws : List Word) (s : State) : State :=
  s.modCtl fun c => { c with bus := { c.bus with words := ws, poisoned := false } }

/-- Advances the counter of free values; the value drawn is the opaque constant at the counter (log 7). -/
def drawFree (s : State) : Nat × State := (s.ctl.free, s.modCtl fun c => { c with free := c.free + 1 })

/-- One draw from the CTR_DRBG (R430, log 7). -/
def drawDrbg (s : State) : Nat × State :=
  (Config.drbg s.cip.draws, { s with cip := { s.cip with draws := s.cip.draws + 1 } })

/-- Channel `n`, 16 being the SMBus fallback mailbox (R49). -/
def chan (s : State) (n : Nat) : Chan := tget {} s.mbx.chans n

/-- The state with `f` applied to channel `n`. -/
def modChan (n : Nat) (f : Chan → Chan) (s : State) : State :=
  { s with mbx := { s.mbx with chans := tmod {} s.mbx.chans n f } }

/-- The registers of ring `n`; RING_SIZE of ring 0 is forced to 10 (R63). -/
def ring (s : State) (n : Nat) : Ring := tget {} s.rings.rings n

/-- The number of entries of ring `n` (R63). -/
def ringEntries (s : State) (n : Nat) : Nat := if n = 0 then 1024 else 2 ^ (ring s n).log2

/-- The bus address of entry `i` of ring `n`, its entries being `w` bytes long (R63). -/
def ringAddr (s : State) (n i w : Nat) : Nat :=
  let r := ring s n
  r.baseHi.toNat * 2 ^ 32 + r.baseLo.toNat + i * w

/-- The state with `f` applied to ring `n`. -/
def modRing (n : Nat) (f : Ring → Ring) (s : State) : State :=
  { s with rings := { s.rings with rings := tmod {} s.rings.rings n f } }

/-- A DMA write to host memory (R37). -/
def hostWrite (a : Nat) (bs : Bytes) (s : State) : State :=
  { s with rings := { s.rings with hostMem := Memory.writeBytes 0 s.rings.hostMem a bs } }

/-- A DMA read from host memory (R343). -/
def hostRead (s : State) (a n : Nat) : Bytes := Memory.readBytes 0 s.rings.hostMem a n

/-- Signals MSI-X vector `v`; a masked vector is left pending (R64). -/
def signal (v : Nat) (s : State) : State :=
  if (tget {} s.rings.vectors v).masked then
    { s with rings := { s.rings with pba := s.rings.pba ||| BitVec.ofNat 64 (2 ^ v) } }
  else emit (.msix v) s

/-! ### The event ring (R65 to R68) -/

/-- One event that is not written: it consumes its sequence number and counts in RING_LOST (R67, R68). -/
def loseEvent (s : State) : State :=
  modRing 0 (fun r => { r with lost := r.lost + 1 })
    { s with rings := { s.rings with seq := s.rings.seq + 1, unreported := s.rings.unreported + 1 } }

/-- The event ring has room for an entry (R67). -/
def eventRoom (s : State) : Bool := (ring s 0).en && ((ring s 0).head + 1) % 1024 != (ring s 0).tail

/-- Writes one entry at RING_HEAD and signals vector 0 (R65, R66). -/
def writeEntry (e : Event) (s : State) : State :=
  let h := (ring s 0).head
  let s1 := hostWrite (ringAddr s 0 h 64) (entryBytes s.rings.seq.toNat s.rings.phase e) s
  let s2 := { s1 with rings := { s1.rings with
    seq := s1.rings.seq + 1
    unreported := 0
    phase := if (h + 1) % 1024 = 0 then !s1.rings.phase else s1.rings.phase } }
  signal 0 (modRing 0 (fun r => { r with head := (h + 1) % 1024 }) s2)

/-- EV_EVENTS_LOST for the events not written since the last entry (R67). -/
def lostEvent (s : State) : Event :=
  { code := 0x0001, args := le 4 s.rings.unreported, time := s.time.ns }

/-- What space in the ring lets out first: EV_EVENTS_LOST, then the held EV_STATE_CHANGED (R67, R68). -/
def flushEvents (s : State) : State :=
  let s1 := if eventRoom s && s.rings.unreported != 0 then writeEntry (lostEvent s) s else s
  match s1.rings.held with
  | none => s1
  | some e =>
    if eventRoom s1 && s1.rings.unreported == 0 then
      writeEntry e { s1 with rings := { s1.rings with held := none } }
    else s1

/-- Holds an EV_STATE_CHANGED; one it replaces is counted as lost (R68). -/
def holdEvent (e : Event) (s : State) : State :=
  let s1 := if s.rings.held.isSome then loseEvent s else s
  { s1 with rings := { s1.rings with held := some e } }

/-- Posts an event to the event ring (R65 to R68). -/
def postEvent (e : Event) (s : State) : State :=
  if (ring s 0).en then
    let s1 := flushEvents s
    if e.code = 0x0002 ∧ s1.rings.held.isSome then holdEvent e s1
    else if eventRoom s1 && s1.rings.unreported == 0 then writeEntry e s1
    else loseEvent s1
  else if e.code = 0x0002 then holdEvent e s
  else loseEvent s

/-! ### The event recorder (R490 to R500) -/

/-- The newest fill of the event-log view is out of date when slot `n` lies in it (R502). -/
def viewTouched (n : Nat) (l : Recorder) : Recorder :=
  if l.viewSlot ≤ n ∧ n < l.viewSlot + 512 then { l with viewBusy := true } else l

/-- CK_TS stands while the hours go on: in STILL, and in FAULT without the lock of the system PLL (R76, R123, R494). -/
def clockStands (s : State) : Bool := s.ctl.devState == .still || (!s.boot.pllLocked && s.ctl.devState == .fault)

/-- LOG_HOURS: the operating hours in units of 1/100 h, those of the hour in progress included (R494). What passed of this
hour while CK_TS stood is a free value until the next whole hour or the end of STILL tells (log 81). -/
def hoursNow (s : State) : Nat :=
  let seen := (s.time.cycles - s.log.hourMark) / 22500000000
  let unseen := if s.log.hourGap || clockStands s then Config.hourUnseen s.log.hours s.log.nextSeq.toNat else 0
  (s.log.hours + min 99 (seen + unseen)) % 2 ^ 32

/-- Puts one event into the recorder; `inj` marks a record that an injection caused, `only` a log-only code
(R492, R496, R497, R500). After PWR_FAIL_N new events are refused uncounted (R499). -/
def recordEvent (inj only : Bool) (e : Event) (s : State) : State :=
  if s.log.powerFail then s
  else
    let l := { s.log with nextSeq := s.log.nextSeq + 1, lastSeq := s.log.nextSeq }
    if 512 ≤ l.buf.length then { s with log := { l with refused := l.refused + 1 } }
    else if 32768 ≤ l.nextSlot ∨ (l.full && !l.clearing) then
      let s1 := { s with log := { l with full := true } }
      if l.full then s1
      else postEvent { code := 0x0F07, args := le 4 l.lastWritten.toNat, time := s.time.ns } s1
    else
      let flags := b2n inj + 2 * b2n s.time.unsynced + 4 * b2n only
      let r : LogRec := {
        slot := l.nextSlot
        data := recordBytes s.log.nextSeq.toNat (hoursNow s) l.cycles flags e }
      { s with log := viewTouched l.nextSlot { l with
          buf := l.buf ++ [r]
          nextSlot := l.nextSlot + 1
          lastWritten := s.log.nextSeq
          lastPf := e.code == 0x0F02 } }

/-- An event as the machine raises it now. -/
def eventOf (code obj : Nat) (args : Bytes) (cause : Option Cause) (s : State) : Event :=
  { code, obj, args, cause, time := s.time.ns }

/-- Raises an event: the recorder keeps it when R495 lists it, and it is posted to the event ring (R65, R495).
`inj` marks an event traced to an injection (R507). -/
def raiseWith (inj : Bool) (code obj : Nat) (args : Bytes) (cause : Option Cause) (s : State) : State :=
  let e := eventOf code obj args cause s
  postEvent e (if recorded code args then recordEvent inj false e s else s)

/-- Raises an event that no injection caused. -/
def raise (code obj : Nat) (args : Bytes) (cause : Option Cause) (s : State) : State :=
  raiseWith false code obj args cause s

/-- Records a log-only event (R495). -/
def logOnly (inj : Bool) (code obj : Nat) (args : Bytes) (s : State) : State :=
  recordEvent inj true (eventOf code obj args none s) s

/-! ### Device state -/

/-- A transition of the device state, with EV_STATE_CHANGED (R57, R67). -/
def setDevState (new : DevState) (cause : Option Cause) (s : State) : State :=
  let old := s.ctl.devState
  raise 0x0002 0 (le 1 (stateCode old) ++ le 1 (stateCode new)) cause
    (s.modCtl fun c => { c with devState := new })

/-- The recorder has its supply and is out of reset: it lies in the always-on island (R490). -/
def aonRuns (s : State) : Bool := s.ctl.powered && !s.ctl.porLow

/-- The CP runs: not in BOOT or STILL, and its watchdog is served (R58, R70). -/
def cpRuns (s : State) : Bool :=
  s.ctl.powered && !s.ctl.porLow && s.ctl.cpAlive && readyToFault s.ctl.devState

/-- An island, by its code in R488, has not been stopped by a power-state entry under way (R470). -/
def islandUp (island : Nat) (s : State) : Bool :=
  match s.pwr.entry with
  | none => true
  | some e => !e.stopped.contains island

/-! ### Injections (R505 to R509) -/

/-- The number of the armed entry of a detector and target (R506). -/
def injIndex (det target : Nat) (s : State) : Option Nat :=
  (s.inj.entries.find? fun e => e.2.det == det && e.2.target.toNat == target).map Prod.fst

/-- EV_INJECTED of an entry, at most once per second (R507). -/
def injEvent (i : Nat) (s : State) : State :=
  let e := tget {} s.inj.entries i
  let due := match e.evAt with
    | none => true
    | some t => decide (t + 625000000 ≤ s.time.cycles)
  if due then
    let s1 := raiseWith true 0x0F08 e.det
      (le 4 e.target.toNat ++ le 4 e.param.toNat ++ le 4 e.since) none s
    let es := tmod ({} : InjEntry) s1.inj.entries i fun x => { x with since := 0, evAt := some s.time.cycles }
    { s1 with inj := { s1.inj with entries := es } }
  else s

/-- One occurrence at a detector's target: whether an armed entry acts on it, and with which param (R507). A
one-shot entry, and a repeat entry whose count is spent, disarms itself. -/
def occurrence (det target : Nat) (s : State) : Option Word × State :=
  match injIndex det target s with
  | none => (none, s)
  | some i =>
    let e := tget {} s.inj.entries i
    if e.skip ≠ 0 then
      let es := tset s.inj.entries i { e with skip := e.skip - 1 }
      (none, { s with inj := { s.inj with entries := es } })
    else
      let e' := { e with
        fired := e.fired + 1
        since := e.since + 1
        skip := e.spacing
        remaining := if e.rep then (if e.remaining = 0 then 0 else e.remaining - 1) else 0 }
      let s1 := { s with inj := { s.inj with
        fired := s.inj.fired + 1
        entries := tset s.inj.entries i e' } }
      let s2 := injEvent i s1
      let spent := !e.rep || e.remaining == 1
      (some e.param, if spent then { s2 with inj := { s2.inj with entries := tdel s2.inj.entries i } } else s2)

end Sys2Proof.Machine
end

