-- ==== Sys2Proof/Machine/Operands.lean ====
section
/-!
DEFINITION. The operand form of every mailbox command: the request in its slot (R46), the order of service (R49), the
checks in the order of R529, and the posting of the response (R47, R52), at once or later (R50).
-/
namespace Sys2Proof.Machine

/-- A request as the CP reads it from its slot (R46). -/
structure Req where
  ch : Nat
  slot : Nat
  opcode : Nat
  tag : Nat
  len : Nat
  flags : Nat
  /-- The issuing client; 0 on the fallback mailbox whatever its client field holds (R71). -/
  client : Nat
  /-- The three reserved header bytes as a number (R53). -/
  resv : Nat
  sum : Nat
  /-- The 12 header bytes that the check sum covers. -/
  head : Bytes
  /-- The `len` payload bytes. -/
  payload : Bytes
  /-- Bytes of the SMBus Block Write; 0 for a mailbox channel (R70). -/
  block : Nat
deriving DecidableEq, Repr

/-- The request that a string of at most 256 bytes holds. -/
def parseReq (ch slot block : Nat) (bs : Bytes) : Req :=
  { ch, slot, block
    opcode := u16 bs 0
    tag := u16 bs 2
    len := u16 bs 4
    flags := u16 bs 6
    client := if ch = 16 then 0 else u8 bs 8
    resv := leNat (slice bs 9 3)
    sum := u32 bs 12
    head := slice bs 0 12
    payload := slice bs 16 (min (u16 bs 4) 240) }

/-- The request in a channel's slot, channel 16 being the SMBus fallback mailbox (R44, R69). -/
def readReq (s : State) (ch slot : Nat) : Req :=
  if ch = 16 then parseReq 16 0 s.mbx.smbReq.length s.mbx.smbReq
  else parseReq ch slot 0 (Memory.readBytes 0 s.mbx.req (ch * 0x1000 + slot * 0x100) 256)

/-- The slot that channel `ch` offers to the CP next (R49). -/
def waiting (s : State) (ch : Nat) : Option Nat :=
  if ch = 16 then (if s.mbx.smbState = .executing then some 0 else none)
  else (chan s ch).queue.head?

/-- The seventeen channels in the order of the rotation from `turn` (R49). -/
def rotation (turn : Nat) : List Nat := (List.range 17).map fun i => (turn + i) % 17

/-- The request the CP takes up next: none while the CP does not run, while a request executes (R50), while the power sequencer moves the device (R467), or while no
request waits. -/
def nextReq (s : State) : Option Req :=
  if cpRuns s && s.ctl.exec.isNone && s.pwr.entry.isNone then
    match (rotation s.ctl.turn).find? fun ch => (waiting s ch).isSome with
    | none => none
    | some ch => (waiting s ch).map fun slot => readReq s ch slot
  else none

/-- The request's slot becomes EXECUTING and leaves its queue; the rotation moves on (R44, R49). -/
def takeUp (r : Req) (s : State) : State :=
  let s1 := s.modCtl fun c => { c with turn := (r.ch + 1) % 17 }
  if r.ch = 16 then s1
  else modChan r.ch (fun c => { c with queue := c.queue.tail, slots := c.slots.set r.slot .executing }) s1

/-- A request as the state keeps it while its response is still to come (R50). -/
def reqExec (r : Req) : Exec :=
  { opcode := r.opcode, ch := r.ch, slot := r.slot, tag := r.tag, client := r.client, irq := bit r.flags 0 }

/-- The channel, client and tag that an event of this request carries (R65). -/
def causeOf (r : Req) : Option Cause := some { channel := r.ch, client := r.client, tag := r.tag }

/-- Posts a response: the slot becomes DONE, then the channel's vector is signalled if flags.IRQ asks for it (R47,
R52). A response that a Function Level Reset overtook is discarded (R38). -/
def postResponse (e : Exec) (status : Nat) (payload : Bytes) (s : State) : State :=
  let bytes := responseBytes e.tag status s.ctl.devState payload
  if e.discard then s
  else if e.ch = 16 then { s with mbx := { s.mbx with smbState := .ready, smbResp := bytes } }
  else
    let k := 4 * e.ch + e.slot
    let s1 := { s with mbx := { s.mbx with resp := tset s.mbx.resp k (patch (tget (zeros 256) s.mbx.resp k) 0 bytes) } }
    let s2 := modChan e.ch (fun c => { c with slots := c.slots.set e.slot .done }) s1
    if e.irq then signal (e.ch + 1) s2 else s2

/-- Posts the response of the request that was left executing (R50). -/
def finishLater (status : Nat) (payload : Bytes) (s : State) : State :=
  match s.ctl.exec with
  | none => s
  | some e => postResponse e status payload (s.modCtl fun c => { c with exec := none })

/-- How a command that passed the general checks ends. -/
inductive Served where
  /-- The response is posted in the same step. -/
  | done (s : State) (status : Nat) (payload : Bytes)
  /-- The command goes on executing; its response follows (R50). -/
  | later (s : State)

/-- What R529 checks of a command before its object checks. -/
structure CmdSpec where
  /-- R72: the opcode. -/
  op : Nat
  /-- R71: accepted on the fallback mailbox. -/
  smb : Bool
  /-- R56, R529 check 4: client 0 only. -/
  priv : Bool
  /-- R58: the device states that accept it. -/
  legal : DevState → Bool
  /-- R529 check 6: the payload form. -/
  form : Bytes → Bool

/-- Header integrity (R53, R70, R529 check 1); `bad` is an injected check-sum failure (R509, 0x14). For a length above
240 the sum covers the 240 payload bytes that the slot holds (log 62). -/
def sumOk (bad : Bool) (r : Req) : Bool := !bad && r.sum == crc32c (r.head ++ zeros 4 ++ r.payload)

def headerOk (bad : Bool) (r : Req) : Bool :=
  sumOk bad r && decide (r.len ≤ 240) && r.resv == 0 && r.flags / 2 == 0 &&
    (r.ch != 16 || (decide (r.len ≤ 239) && r.len + 16 == r.block))

/-- The channel's binding accepts the request's client (R54, R529 check 2); the fallback mailbox has no binding. -/
def bindOk (s : State) (r : Req) : Bool :=
  r.ch == 16 || !(chan s r.ch).bound || r.client == (chan s r.ch).bindClient

/-- The status of the first of the checks 1 to 6 of R529 that fails. -/
def firstFailure (c : CmdSpec) (bad : Bool) (r : Req) (s : State) : Option Nat :=
  if !headerOk bad r then some stBadParam
  else if !bindOk s r then some stDenied
  else if r.ch = 16 ∧ !c.smb then some stUnsupported
  else if c.priv ∧ r.client ≠ 0 then some stDenied
  else if !c.legal s.ctl.devState then some stStateConflict
  else if !c.form r.payload then some stBadParam
  else none

/-- The payload of a general failure: the device's own state for ST_STATE_CONFLICT, else nothing (R59, R529). -/
def failureBytes (st : Nat) (s : State) : Bytes :=
  if st = stStateConflict then conflictBytes 0 (stateCode s.ctl.devState) 0 else []

/-- MB_ERR.CHECKSUM latches a failed check sum (R44, R53). -/
def noteChecksum (bad : Bool) (r : Req) (s : State) : State :=
  if !sumOk bad r ∧ r.ch ≠ 16 then modChan r.ch (fun c => { c with checksum := true }) s else s

/-- A request that passed or failed its checks, brought to its end (R50, R52). -/
def conclude (r : Req) : Served → State
  | .done s st p => postResponse (reqExec r) st p s
  | .later s => s.modCtl fun c => { c with exec := some (reqExec r) }

/-- The CP serves its next request as command `c`, whose own effect is `act`. When the next request is of another
command, or there is none, this step does not occur and nothing changes (log 2). -/
def serve (c : CmdSpec) (act : Req → State → Served) (s : State) : State :=
  match nextReq s with
  | none => s
  | some r =>
    if r.opcode ≠ c.op then s
    else
      let o := occurrence 0x14 r.ch s
      let bad := o.1.isSome
      let s1 := noteChecksum bad r (takeUp r o.2)
      match firstFailure c bad r s1 with
      | some st => postResponse (reqExec r) st (failureBytes st s1) s1
      | none => conclude r (act r s1)

/-! ### The answers an owning chapter gives -/

/-- Done, with nothing to return. -/
def ok (s : State) : Served := .done s stOk []

/-- Done, with a payload. -/
def okWith (p : Bytes) (s : State) : Served := .done s stOk p

/-- Ended by a check, without a side effect (R529). -/
def fail (st : Nat) (s : State) : Served := .done s st []

/-- ST_STATE_CONFLICT of an object (R59). -/
def conflict (cls state id : Nat) (s : State) : Served := .done s stStateConflict (conflictBytes cls state id)

/-- The request's client may change an object of `owner` (R55). -/
def mayChange (r : Req) (owner : Nat) : Bool := r.client == owner || r.client == 0

/-- The payload has exactly `n` bytes. -/
def len (n : Nat) (p : Bytes) : Bool := p.length == n

end Sys2Proof.Machine
end

