-- ==== Sys2Proof/Machine/Recorder.lean ====
section
/-!
DEFINITION. The event recorder: the flush engine, the counter journal, power failure, the view of the log and its
commands (R490 to R504, R520).
-/
namespace Sys2Proof.Machine

/-- The state with `f` applied to the recorder. -/
def modLog (f : Recorder → Recorder) (s : State) : State := { s with log := f s.log }

/-- The counter journal is written (R494). -/
def journal (s : State) : Recorder := { s.log with jHours := hoursNow s, jCycles := s.log.cycles }

/-! ### Slots (R492, R502) -/

/-- A slot as the view shows it: a waiting record, a programmed one, or blank; beyond the region 0xFF (R501, R502). -/
def logSlot (l : Recorder) (n : Nat) : Bytes :=
  let blank := List.replicate 64 (0xFF : Byte)
  if 32768 ≤ n then blank
  else match l.buf.find? fun r => r.slot == n with
    | some r => fit 64 r.data
    | none => (tfind l.slots n).getD blank

/-- LOG_FIRST_SEQ: the seq of the record in slot 0, 0 for a blank one (R501). -/
def logFirst (l : Recorder) : Nat :=
  match tfind l.slots 0 with
  | none => 0
  | some bs => u32 bs 0

/-- LOG_STATUS (R501). -/
def logStatus (l : Recorder) : Nat :=
  b2n l.full + 2 * b2n l.clearing + 4 * b2n l.viewBusy + 0x10000 * min l.buf.length 512

/-! ### The flush engine (R496, R499) -/

/-- A slot is programmed; one programmed within the erase of a LOG_CLEAR is not erased by it (R499, R504, log 81). -/
def programSlot (n : Nat) (bs : Bytes) (l : Recorder) : Recorder :=
  { l with
    slots := tset l.slots n bs
    since := if l.clearing then tset l.since n bs else l.since }

/-- RECORD_PROGRAMMED (R496, R499, R504): the oldest waiting record is in its slot; during an erase of the log records
wait, unless a power failure has suspended the erase. -/
def execRecordProgrammed (s : State) : Host.Outcome State Fault Refusal :=
  match s.log.buf with
  | [] => .next s
  | r :: rest =>
    if !aonRuns s || (s.log.clearing && !s.log.powerFail) then .next s
    else .next (modLog (fun l => programSlot r.slot (fit 64 r.data) { l with buf := rest }) s)

/-- HOUR_TICK (R494): a whole hour, 100 units of 1/100 h. In STILL, whose time the wake adds to the cycles of CK_TS, it is
counted one hour of cycles after the last. -/
def execHourTick (s : State) : Host.Outcome State Fault Refusal :=
  if aonRuns s then
    let still := s.ctl.devState == .still
    let s1 := modLog (fun l => { l with
      hours := (l.hours + 100) % 2 ^ 32
      hourMark := if still then l.hourMark + 2250000000000 else s.time.cycles
      hourGap := clockStands s && !still }) s
    .next { s1 with log := journal s1 }
  else .next s

/-- The first slot reserved for the waiting records (R499). -/
def firstWaiting (l : Recorder) : Nat :=
  match l.buf with
  | [] => l.nextSlot
  | r :: _ => r.slot

/-- EV_LOG_POWER_FAIL as a record in the slot after those of the waiting records (R499). -/
def powerFailRecord (s : State) : Bytes :=
  let l := s.log
  let e := eventOf 0x0F02 0 (le 4 l.buf.length ++ le 4 (firstWaiting l)) none s
  recordBytes l.nextSeq.toNat (hoursNow s) l.cycles (2 * b2n s.time.unsynced + 4) e

/-- PWR_FAIL_N_ASSERT (R499, R500): new events are refused, the journal and the power-fail record are written. -/
def execPwrFailNAssert (s : State) : Host.Outcome State Fault Refusal :=
  if !aonRuns s || s.log.powerFail then .next s
  else
    let l := { journal s with powerFail := true }
    if 32768 ≤ l.nextSlot ∨ (l.full && !l.clearing) then .next { s with log := l }
    else .next { s with log := viewTouched l.nextSlot { programSlot l.nextSlot (powerFailRecord s) l with
      lastSeq := l.nextSeq
      lastWritten := l.nextSeq
      nextSeq := l.nextSeq + 1
      nextSlot := l.nextSlot + 1
      lastPf := true } }

/-- PWR_FAIL_N_DEASSERT (R520): events are accepted again; the waiting records go on being programmed. -/
def execPwrFailNDeassert (s : State) : Host.Outcome State Fault Refusal :=
  if aonRuns s then .next (modLog (fun l => { l with powerFail := false }) s) else .next s

/-! ### Clearing the log (R504) -/

def logClearSpec : CmdSpec := { op := 0x0F02, smb := false, priv := true, legal := legalStd, form := len 0 }

/-- A record under the seq that follows its own (R493, R496). -/
def laterSeq (d : Bytes) : Bytes :=
  let head := le 4 (u32 d 0 + 1) ++ slice d 4 10
  head ++ le 2 (crc16 (head ++ zeros 2 ++ d.drop 16)) ++ d.drop 16

/-- The waiting records take the slots, and the seqs, that follow those of EV_LOG_CLEARED (R496, R504). -/
def renumber : Nat → List LogRec → List LogRec
  | _, [] => []
  | n, r :: rest => { r with slot := n, data := laterSeq r.data } :: renumber (n + 1) rest

/-- LOG_CLEAR (R502, R504): the erase goes on after the response. EV_LOG_CLEARED, which will stand in slot 0, takes its seq
now and before those of the waiting records, so that slot order equals seq order (R496, log 81). -/
def logClearAct (r : Req) (s : State) : Served :=
  if s.log.clearing then fail stBusy s
  else ok (modLog (fun l => { l with
    clearing := true
    clearCause := causeOf r
    clearSeq := (l.buf.head?.map fun x => BitVec.ofNat 32 (u32 x.data 0)).getD l.nextSeq
    usedBefore := min l.nextSlot 32768
    slots := tdel l.slots 0
    since := []
    buf := renumber 1 l.buf
    nextSlot := 1 + l.buf.length
    lastSeq := l.nextSeq
    lastWritten := if l.buf.isEmpty then l.nextSeq else l.lastWritten + 1
    nextSeq := l.nextSeq + 1
    lastPf := l.lastPf && !l.buf.isEmpty
    viewBusy := true }) s)

def execLogClear (s : State) : Host.Outcome State Fault Refusal := .next (serve logClearSpec logClearAct s)

/-- LOG_ERASE_DONE (R504): the region is blank but for what a power failure had programmed meanwhile, and EV_LOG_CLEARED
stands in slot 0 under the seq that LOG_CLEAR gave it (R496, log 81). -/
def execLogEraseDone (s : State) : Host.Outcome State Fault Refusal :=
  if !aonRuns s || !s.log.clearing || s.log.powerFail then .next s
  else
    let l := s.log
    let e := eventOf 0x0F06 0 (le 4 l.usedBefore) l.clearCause s
    let flags := 2 * b2n s.time.unsynced
    let r := recordBytes l.clearSeq.toNat (hoursNow s) l.cycles flags e
    .next (postEvent e { s with log := viewTouched 0 { l with
      slots := tset l.since 0 r
      since := []
      clearing := false
      clearCause := none
      full := false
      refused := 0 } })

/-! ### Reading the log (R501 to R503) -/

def logReadForm (p : Bytes) : Bool :=
  len 4 p && decide (u16 p 0 ≤ 32767) && decide (1 ≤ u8 p 2 ∧ u8 p 2 ≤ 3) && zeroAt p 3 1

def logReadSpec : CmdSpec := { op := 0x0F01, smb := true, priv := false, legal := readyToFault, form := logReadForm }

/-- LOG_READ (R503). -/
def logReadAct (r : Req) (s : State) : Served :=
  let l := s.log
  let from_ := u16 r.payload 0
  okWith (le 4 (logFirst l) ++ le 4 l.lastSeq.toNat ++ le 2 l.nextSlot ++ le 2 l.buf.length ++
    le 1 (b2n l.full + 2 * b2n l.clearing) ++ zeros 3 ++
    (List.range (u8 r.payload 2)).flatMap fun i => logSlot l (from_ + i)) s

def execLogRead (s : State) : Host.Outcome State Fault Refusal := .next (serve logReadSpec logReadAct s)

/-- LOG_VIEW_FILL_DONE (R502). -/
def execLogViewFillDone (s : State) : Host.Outcome State Fault Refusal :=
  if aonRuns s && s.log.viewBusy then
    .next (modLog (fun l => { l with
      viewBusy := false
      view := (List.range 512).map fun i => logSlot l (l.viewSlot + i) }) s)
  else .next s

/-! ### After POR_N (R494 to R496, R504) -/

/-- The number of the last programmed slot, which holds the newest record (R496). -/
def newestSlot (l : Recorder) : Option Nat := (tkeys l.slots).foldl (fun m k => some (max (m.getD 0) k)) none

/-- The recorder as POR_N leaves it: seq and slot continue from the newest record, an interrupted erase is completed, the
counters resume from the journal, and the power cycle is counted. -/
def recorderAfterPor (l : Recorder) : Recorder :=
  let slots := if (tfind l.slots 0).isNone then [] else l.slots
  let cycles := min (l.jCycles + 1) 0xFFFFFF
  let base : Recorder := { slots, hours := l.jHours, cycles, jHours := l.jHours, jCycles := cycles }
  match newestSlot { l with slots } with
  | none => base
  | some n =>
    let r := (tfind slots n).getD []
    let seq := BitVec.ofNat 32 (u32 r 0)
    { base with
      nextSeq := seq + 1
      nextSlot := n + 1
      lastSeq := seq
      lastWritten := seq
      full := n == 32767
      lastPf := u16 r 12 == 0x0F02 }

/-- EV_LOG_POWER_ON (R495). -/
def logPowerOn (s : State) : State := logOnly false 0x0F01 0 (le 1 (b2n s.log.lastPf)) s

end Sys2Proof.Machine
end

