-- ==== Sys2Proof/Machine/Sram.lean ====
section
/-!
DEFINITION. SRAM lines with their CRC (R399 to R403): a write that a flip mask corrupts, and the report of an error.
-/
namespace Sys2Proof.Machine

/-- A line is written into an SRAM instance: the mask that corrupts it, 0 for none, and whether an injection is part of
it (R403, R509 0x0D). An armed mask clears. -/
def sramWrite (inst : Nat) (s : State) : (Nat × Bool) × State :=
  let o := occurrence 0x0D inst s
  let armed := (tget 0 s.mem.sramFlip inst).toNat
  let mask := armed ^^^ (o.1.map BitVec.toNat).getD 0
  ((mask, o.1.isSome), if armed = 0 then o.2
    else { o.2 with mem := { o.2.mem with sramFlip := tdel o.2.mem.sramFlip inst } })

/-- The same for a line that keeps its error until it is read: none, or whether an injection is part of it. -/
def writeLine (inst : Nat) (s : State) : Option Bool × State :=
  let k := sramWrite inst s
  (if k.1.1 = 0 then none else some k.1.2, k.2)

/-- Where the counters of an instance's group stand in MEM_SRAM_STATUS (R406): CP; line engines, classifier and Basin
staging; the Parterres. -/
def sramGroup (inst : Nat) : Nat :=
  match inst / 0x1000 with
  | 0 => 8
  | 1 | 2 | 3 => 40
  | _ => 72

/-- Adds 1 to an SRAM counter, which wraps (R406). -/
def countSram (off : Nat) (s : State) : State :=
  { s with mem := { s.mem with sram := tmod 0 s.mem.sram off fun v => (v + 1) % 2 ^ 48 } }

/-- An SRAM error with its outcome: 1 refetched, 2 recomputed, 3 unrepaired (R399, R406, R408). Outcomes 1 and 2 are
reported at most once per second and instance. -/
def sramError (inj : Bool) (inst outcome addr seq : Nat) (s : State) : State :=
  let g := sramGroup inst
  let s1 := countSram (g + 8 * outcome) (countSram g s)
  let due := match tfind s.mem.sramEvAt inst with
    | none => true
    | some t => decide (t + 625000000 ≤ s.time.cycles)
  let args := le 1 outcome ++ zeros 3 ++ le 4 addr ++ le 4 seq
  if outcome == 3 then raiseWith inj 0x0B05 inst args none s1
  else if due then
    raiseWith inj 0x0B05 inst args none
      { s1 with mem := { s1.mem with sramEvAt := tset s1.mem.sramEvAt inst s.time.cycles } }
  else s1

/-- A line as it is written into an SRAM instance: one that a mask corrupts is bad, and its next read meets the error
(R399, R403). -/
def rewriteLine (inst addr : Nat) (s : State) : Bool × State :=
  let k := sramWrite inst s
  let rest := k.2.mem.spoilt.filter fun e => !(e.1 == inst && e.2.1 == addr)
  (k.1.1 == 0, { k.2 with mem := { k.2.mem with
    spoilt := if k.1.1 = 0 then rest else (inst, addr, k.1.2) :: rest } })

/-- An injection is part of the error of a line (R507). -/
def lineInjected (s : State) (inst addr : Nat) : Bool := s.mem.spoilt.any fun e => e.1 == inst && e.2.1 == addr && e.2.2

/-- The exclusive or of a mask with the first 16 bytes of a line (R403). -/
def xorLine (mask : Nat) (bs : Bytes) : Bytes :=
  List.zipWith (fun a b => a ^^^ b) (bs.take 16) (le 16 mask) ++ bs.drop 16

end Sys2Proof.Machine
end

