-- ==== Sys2Proof/Machine/Store.lean ====
section
/-!
DEFINITION. The capture store as its controllers see it (chapter 13): stacks and segments, the writing of blocks with
their flip masks, and who holds a segment. Reading a block, which can fence its segment, stands in Machine/Fence.lean.
-/
namespace Sys2Proof.Machine

/-- Memory stacks fitted (R1, R40). -/
def stackTotal (s : State) : Nat := if s.ident.variant = 1 then 2 else 4

/-- Segments of the store (R321). -/
def segCount (s : State) : Nat := stackTotal s * 4096

/-- Bytes of a segment (R321). -/
def segBytes : Nat := 0x400000

/-- The stack of a segment (R383). -/
def stackOf (s : State) (seg : Nat) : Nat := seg % stackTotal s

/-- The state kept for a stack. -/
def stack (s : State) (n : Nat) : Stack := tget {} s.mem.stackTab n

def modStack (n : Nat) (f : Stack → Stack) (s : State) : State :=
  { s with mem := { s.mem with stackTab := tmod {} s.mem.stackTab n f } }

/-- Adds to a 48-bit counter of a stack, by its offset in MEM_STATUS; it wraps (R405, R189). -/
def countStack (n off k : Nat) (s : State) : State :=
  modStack n (fun x => { x with cnt := tmod 0 x.cnt off fun v => (v + k) % 2 ^ 48 }) s

/-- A segment is fenced (R392). -/
def fenced (s : State) (seg : Nat) : Bool := tget 0 s.mem.fence seg == 2

/-- A segment is marked for fencing or fenced (R391). -/
def fencedOrMarked (s : State) (seg : Nat) : Bool := tget 0 s.mem.fence seg != 0

/-- Fenced segments. -/
def fencedCount (s : State) : Nat := (s.mem.fence.filter fun e => e.2 == 2).length

/-- Set bits among the `n` lowest. -/
def popcount (n v : Nat) : Nat := (bitsOf n v).length

/-- What a write leaves in error in a block: the symbols that the outer code sees and the corrections that a die makes
at a read. An armed outer mask selects whole symbols, an inner mask of one bit is corrected by the die, and one of two
bits leaves 0 to 3 symbols and 0 or 1 correction (R388, R403; these numbers are free values, log 7). -/
def symbolsHit (outer inner : Nat) (s : State) : (Nat × Nat) × State :=
  if inner = 2 then
    let f := drawFree s
    ((popcount 72 outer + Config.freeNat f.1 % 4, Config.freeNat f.1 / 4 % 2), f.2)
  else ((popcount 72 outer, b2n (inner != 0)), s)

/-- One block written in full: its old errors go, armed flip masks and injections act on it, and a scrub write-back
that waits for it is discarded (R389, R396, R403, R509). -/
def blockWritten (blk : Nat) (s : State) : State :=
  let n := stackOf s (blk / 65536)
  let k := stack s n
  let o := occurrence 0x0E n s
  let i := occurrence 0x0F n o.2
  let inj := o.1.isSome || i.1.isSome
  let outer := k.outerFlip.toNat ^^^ (o.1.map BitVec.toNat).getD 0
  let inner := max (k.innerFlip.toNat % 4) ((i.1.map BitVec.toNat).getD 0)
  let h := symbolsHit outer inner i.2
  let s1 := modStack n (fun x => { x with
      outerFlip := 0
      innerFlip := 0
      scrubRead := if x.scrubRead = some blk then none else x.scrubRead }) h.2
  let es := if h.1.1 + h.1.2 = 0 then tdel s1.mem.errs blk
    else tset s1.mem.errs blk { symbols := h.1.1, inner := h.1.2, inj }
  { s1 with mem := { s1.mem with errs := es } }

/-- The blocks that `n` bytes from store address `a` touch. -/
def blocksOf (a n : Nat) : List Nat :=
  if n = 0 then [] else (List.range ((a + n - 1) / 64 - a / 64 + 1)).map fun i => a / 64 + i

/-- The 4 KiB data units that `n` bytes from store address `a` touch (R342). -/
def unitsOf (a n : Nat) : List Nat :=
  if n = 0 then [] else (List.range ((a + n - 1) / 4096 - a / 4096 + 1)).map fun i => a / 4096 + i

/-- The ranges without the addresses from `a` to `b` - 1. -/
def cutRanges (a b : Nat) : List (Nat × Nat × Nat) → List (Nat × Nat × Nat)
  | [] => []
  | (x, y, k) :: t =>
    let low := if x < min y a then [(x, min y a, k)] else []
    let high := if max x b < y then [(max x b, y, k)] else []
    low ++ high ++ cutRanges a b t

/-- The same for ranges without a number. -/
def cutPairs (a b : Nat) (l : List (Nat × Nat)) : List (Nat × Nat) :=
  (cutRanges a b (l.map fun r => (r.1, r.2, 0))).map fun r => (r.1, r.2.1)

/-- The contents of `n` bytes of the store from address `a` are defined from now on (R237, R239). -/
def define (a n : Nat) (s : State) : State :=
  { s with
    cap := { s.cap with undef := cutRanges a (a + n) s.cap.undef }
    up := { s.up with tainted := cutPairs a (a + n) s.up.tainted } }

/-- A byte of the store: a free value where a reservation of the pool left it undefined (R237). -/
def storeByte (s : State) (a : Nat) : Byte :=
  match s.cap.undef.find? fun r => decide (r.1 ≤ a ∧ a < r.2.1) with
  | none => Memory.read 0 s.cap.store a
  | some r => Config.storeByte r.2.2 a

/-- Bytes of the store before encryption, without the codes of chapter 13. -/
def storePeek (s : State) (a n : Nat) : Bytes :=
  if s.cap.undef = [] then Memory.readBytes 0 s.cap.store a n else (List.range n).map fun i => storeByte s (a + i)

/-- The bytes of a data unit as the store holds them, under its XTS key where it has one (R342, R350). -/
def cipherUnit (s : State) (u : Nat) : Bytes :=
  let plain := storePeek s (u * 4096) 4096
  match tfind s.cap.unitKey u with
  | none => plain
  | some k => Config.xtsEncrypt k u plain

/-- A data unit whose ciphertext is no longer to be read through its key: the ciphertext becomes its plain content. -/
def bareUnit (s : State) (u : Nat) : State :=
  match tfind s.cap.unitKey u with
  | none => s
  | some _ => { s with cap := { s.cap with
      store := Memory.writeBytes 0 s.cap.store (u * 4096) (fit 4096 (cipherUnit s u))
      unitKey := tdel s.cap.unitKey u } }

/-- A write of whole blocks into the store, held in the clear or under an XTS key (R342, R398). -/
def storeWrite (key : Bytes) (a : Nat) (bs : Bytes) (s : State) : State :=
  let s0 := if key = [] then (unitsOf a bs.length).foldl bareUnit s else s
  let s1 := (blocksOf a bs.length).foldl (fun x b => blockWritten b x) s0
  let uk := (unitsOf a bs.length).foldl (fun t u => if key = [] then tdel t u else tset t u key) s1.cap.unitKey
  define a bs.length { s1 with cap := { s1.cap with store := Memory.writeBytes 0 s1.cap.store a bs, unitKey := uk } }

/-- A run of zero bytes written into the store, in the clear or under an XTS key (R322, R342, R425). -/
def storeZero (key : Bytes) (a n : Nat) (s : State) : State :=
  let s0 := if key = [] then (unitsOf a n).foldl bareUnit s else s
  let s1 := (blocksOf a n).foldl (fun x b => blockWritten b x) s0
  let uk := (unitsOf a n).foldl (fun t u => if key = [] then tdel t u else tset t u key) s1.cap.unitKey
  define a n { s1 with cap := { s1.cap with store := Memory.clear s1.cap.store a n, unitKey := uk } }

/-! ### Holders of a segment (R321, R392) -/

/-- A Basin. -/
def basin (s : State) (b : Nat) : Basin := tget {} s.cap.basins b

def modBasin (b : Nat) (f : Basin → Basin) (s : State) : State :=
  { s with cap := { s.cap with basins := tmod {} s.cap.basins b f } }

/-- The Basin whose capture buffer holds a segment. -/
def bufferHolder (s : State) (seg : Nat) : Option Nat :=
  (List.range 4).find? fun b => (basin s b).buffer.contains seg

/-- The job that holds a segment for its results (R375). -/
def jobHolder (s : State) (seg : Nat) : Option Nat :=
  (s.ast.jobs.find? fun j => decide (j.2.outSegs ≠ 0 ∧ j.2.outBase ≤ seg ∧ seg < j.2.outBase + j.2.outSegs)).map
    Prod.fst

/-- The holder of a segment as EV_SEGMENT_FENCED codes it (R408). -/
def holderCode (s : State) (seg : Nat) : Nat :=
  if seg < s.up.poolSegs then 1
  else if (bufferHolder s seg).isSome then 2
  else if (jobHolder s seg).isSome then 3
  else 0

/-- A job or a transfer pins a segment (R349, R428). -/
def pinned (s : State) (seg : Nat) : Bool :=
  (s.ast.jobs.any fun j => j.2.state != 3 && j.2.pins.contains seg) ||
    s.cip.xfers.any fun x => x.2.state == 1 && x.2.pin == some seg

/-- A segment that nothing holds or pins and that may be allocated (R321, R349, R391, R392). -/
def segFree (s : State) (seg : Nat) : Bool := holderCode s seg == 0 && !fencedOrMarked s seg && !pinned s seg

/-- The `n` lowest free segments, or none when there are fewer (R321). -/
def lowestFree (s : State) (n : Nat) : Option (List Nat) :=
  let fs := ((List.range (segCount s)).filter (segFree s)).take n
  if fs.length = n then some fs else none

end Sys2Proof.Machine
end

