-- ==== Sys2Proof/Machine/KeySlots.lean ====
section
/-!
DEFINITION. Key slots as requests use them (R409, R410, R417, R420, R421).
-/
namespace Sys2Proof.Machine

/-- A key slot. -/
def slot (s : State) (n : Nat) : Slot := tget {} s.cip.slots n

def modSlot (n : Nat) (f : Slot → Slot) (s : State) : State :=
  { s with cip := { s.cip with slots := tmod {} s.cip.slots n f } }

/-- A storage key slot (R22). -/
def isStorageSlot (n : Nat) : Bool := decide (4096 ≤ n ∧ n ≤ 4351)

/-- A transfer key slot (R22). -/
def isTransferSlot (n : Nat) : Bool := decide (4352 ≤ n ∧ n ≤ 4607)

/-- One use of a slot: the count rises and saturates; a storage or transfer slot that reaches its limit becomes
EXHAUSTED, and passing 15/16 of the limit is reported once per unwrap (R420, R421). -/
def useOnce (n : Nat) (s : State) : State :=
  let x := slot s n
  let u := satAdd 48 x.usage 1
  let s1 := modSlot n (fun y => { y with usage := u }) s
  if n < 4096 then s1
  else
    let near := !x.told && decide (x.limit * 15 < u * 16)
    let s2 := if near then
        raise 0x0C03 n (le 8 u ++ le 8 x.limit) none (modSlot n (fun y => { y with told := true }) s1)
      else s1
    if x.state = 1 ∧ x.limit ≤ u then
      raise 0x0C02 n (le 8 x.limit) none (modSlot n (fun y => { y with state := 2 }) s2)
    else s2

/-- `k` uses of a slot, one after the other: a request is one unit (R417, R420). -/
def useSlot (n : Nat) : Nat → State → State
  | 0, s => s
  | k + 1, s => useSlot n k (useOnce n s)

/-- Uses of a storage slot that remain before its limit (R422). -/
def usesLeft (s : State) (n : Nat) : Nat := (slot s n).limit - (slot s n).usage

end Sys2Proof.Machine
end

