-- ==== Sys2Proof/Machine/Records.lean ====
section
/-!
DEFINITION. The capture engines (chapter 11): the bytes of every record, the segments a Basin opens and closes, the
commit of a record, FOLD runs, losses, triggers and the capture state machine.
-/
namespace Sys2Proof.Machine

/-- A time of device time: nanoseconds and the 16-bit fraction. -/
structure Stamp where
  ns : Nat
  frac : Nat
deriving DecidableEq, Repr

/-- Device time now (R121). -/
def nowStamp (s : State) : Stamp := { ns := s.time.ns.toNat, frac := s.time.frac.toNat / 256 }

/-- The multiple of 6.4 ns at or before a time (R325). -/
def coarseStamp (t : Stamp) : Stamp :=
  let k := ((t.ns * 65536 + t.frac) * 5) / (32 * 65536)
  { ns := k * 32 / 5, frac := (k * 32 % 5) * 65536 / 5 }

/-- The stored time of a FRAME, BURST or FOLD record (R325). -/
def recStamp (coarse : Bool) (t : Stamp) : Stamp := if coarse then coarseStamp t else t

/-- Zero padding to a multiple of 8 bytes (R324). -/
def pad8 (bs : Bytes) : Bytes := bs ++ zeros ((8 - bs.length % 8) % 8)

/-- A record: its 16-byte header and its body, padded (R324). -/
def recordOf (type flags label form b : Nat) (t : Stamp) (seq : Nat) (body : Bytes) : Bytes :=
  let n := 16 + (pad8 body).length
  le 1 type ++ le 1 flags ++ le 2 n ++ le 4 t.ns ++ le 1 (t.frac / 256) ++ le 1 b ++ le 1 label ++ le 1 form ++
    le 4 seq ++ pad8 body

/-- What a Basin loses with an item or with the items of a record (R333, R337). -/
structure Loss where
  frames : Nat := 0
  bursts : Nat := 0
  other : Nat := 0
  /-- The sum of orig_len. -/
  bytes : Nat := 0
  /-- The times of the first and of the last item. -/
  first : Stamp := { ns := 0, frac := 0 }
  last : Stamp := { ns := 0, frac := 0 }
deriving DecidableEq, Repr

/-- A record before the Basin gives it its seq. -/
structure Draft where
  type : Nat
  flags : Nat
  label : Nat
  form : Nat
  stamp : Stamp
  body : Bytes
  /-- R354: what line_bytes rises by. -/
  line : Nat
  /-- What is lost when no segment takes the record; a record that holds no item loses nothing. -/
  loss : Loss := {}
  /-- R401: a staging line of an item of the record failed its CRC. -/
  bad : Bool := false
  /-- R507: an injection corrupted it. -/
  badInj : Bool := false
deriving DecidableEq, Repr

/-- Bytes of a record (R324). -/
def Draft.size (d : Draft) : Nat := 16 + (pad8 d.body).length

/-- EPOCH (R331). -/
def epochDraft (reason : Nat) (s : State) : Draft :=
  let t := nowStamp s
  { type := 4, flags := 0, label := 0, form := 0, stamp := t, line := 0
    body := le 8 t.ns ++ le 2 t.frac ++ le 1 reason ++ le 1 (b2n s.time.unsynced) ++ le 4 s.time.incr.toNat }

/-- MARK (R332). -/
def markDraft (t : Stamp) (kind trigger rule arg peer : Nat) : Draft :=
  { type := 5, flags := 0, label := 0, form := 0, stamp := t, line := 0
    body := le 1 kind ++ le 1 trigger ++ le 2 rule ++ le 4 arg ++ le 8 peer }

/-- GAP (R333). -/
def gapDraft (g : Gap) : Draft :=
  { type := 6, flags := 0, label := 0, form := 0
    stamp := { ns := g.firstNs.toNat, frac := g.firstFrac }, line := 0
    body := le 4 g.frames ++ le 4 g.bursts ++ le 4 g.other ++ zeros 4 ++ le 8 g.bytes ++ le 4 g.lastNs.toNat ++
      le 1 (g.lastFrac / 256) ++ le 1 g.cause ++ zeros 2 }

/-- The decoding of a PACK token stream (R327): none for a stream that the rule does not allow, one whose last token is
cut short or whose distance is 0, above 16,384 or outside the record's output. `fuel` bounds the tokens. -/
def unpackTokens : Nat → Bytes → Bytes → Option Bytes
  | 0, [], out => some out
  | 0, _ :: _, _ => none
  | _ + 1, [], out => some out
  | fuel + 1, c :: rest, out =>
    if c.toNat < 0x80 then
      if rest.length ≤ c.toNat then none
      else unpackTokens fuel (rest.drop (c.toNat + 1)) (out ++ rest.take (c.toNat + 1))
    else
      let d := u16 rest 0
      if rest.length < 2 ∨ d = 0 ∨ 16384 < d ∨ out.length < d then none
      else
        let copied := (List.range (c.toNat - 0x80 + 4)).foldl (fun o _ => o ++ [o.getD (o.length - d) 0]) out
        unpackTokens fuel (rest.drop 2) copied

/-- The data of a PACK record (R327): the Weir's tokens when they decode to the frame and are shorter than it, else
the frame as it is. `n` picks the Weir's free choice. -/
def packData (n : Nat) (bs : Bytes) : Bytes :=
  let c := Config.packTokens n bs
  if c.length < bs.length ∧ unpackTokens c.length c [] = some bs then le 4 1 ++ c else le 4 0 ++ bs

/-- The n of HEAD(n) by its code (R290). -/
def headBytes (code : Nat) : Nat :=
  match code with
  | 0 => 64
  | 1 => 96
  | 2 => 128
  | 3 => 192
  | _ => 256

/-- Offsets 16 to 27 of a FRAME record (R326). -/
def frameFields (orig stored rule content crc : Nat) : Bytes :=
  le 2 orig ++ le 2 stored ++ le 2 rule ++ le 1 content ++ [0] ++ le 4 crc

/-- The stamp of a staging item. -/
def itemStamp (i : StageItem) : Stamp := { ns := i.ns.toNat, frac := i.frac }

/-- What is lost with a staging item (R333). -/
def itemLoss (i : StageItem) : Loss :=
  { frames := b2n (i.content == 0), other := b2n (i.content != 0), bytes := i.data.length
    first := itemStamp i, last := itemStamp i }

/-- FRAME (R326) in the form `mode`: 1 KEEP, 2 PACK, 3 HEAD (R290, R334). -/
def frameDraft (i : StageItem) (rule mode headN flags : Nat) (coarse : Bool) (pick : Nat) : Draft :=
  let orig := i.data.length
  let keep := if i.content = 2 then i.data.take 16384 else i.data
  let n := headBytes headN
  let data := if mode = 2 then packData pick i.data else if mode = 3 then i.data.take n else keep
  let crc := if mode = 3 ∧ n < orig then crc32c (i.data.drop n) else 0
  let form := if mode = 2 then 1 else if mode = 3 then 2 + headN * 8 else 0
  { type := 1, flags := flags + b2n coarse, label := i.label, form
    stamp := recStamp coarse (itemStamp i), line := orig
    body := frameFields orig data.length rule i.content crc ++ data
    loss := itemLoss i, bad := i.sramBad, badInj := i.sramInj }

/-- What is lost with a FOLD run: its last item is the run's last frame (R333). -/
def runLoss (r : FoldRun) : Loss :=
  { frames := r.count, bytes := r.first.data.length * r.count, first := itemStamp r.first
    last := { ns := r.lastNs.toNat, frac := r.lastFrac } }

/-- FOLD (R329). -/
def foldDraft (r : FoldRun) (coarse : Bool) : Draft :=
  let orig := r.first.data.length
  let last := recStamp coarse { ns := r.lastNs.toNat, frac := r.lastFrac }
  { type := 3, flags := r.flags + b2n coarse, label := r.first.label, form := 0
    stamp := recStamp coarse (itemStamp r.first), line := orig * r.count
    body := le 2 r.count ++ zeros 2 ++ le 4 last.ns ++ le 1 (last.frac / 256) ++ zeros 3 ++
      frameFields orig orig r.rule r.first.content 0 ++ r.first.data
    loss := runLoss r, bad := r.first.sramBad, badInj := r.first.sramInj }

/-! ### Segments -/

/-- A Basin records: its capture is in RUNNING or POST (R340). -/
def recording (b : Basin) : Bool := b.state == 3 || b.state == 4

/-- The 64-byte segment header (R323). -/
def segHeader (b n : Nat) (bs : Basin) (g : Seg) (closeNs : Nat) : Bytes :=
  let h := le 4 0x4D474553 ++ le 1 b ++ le 1 n ++ le 1 (b2n g.enc + 2 * b2n g.bypass) ++ [0] ++
    le 4 bs.captureId.toNat ++ le 4 g.ord ++ le 4 g.firstSeq ++ le 4 (if n = 1 then 0 else g.records) ++
    le 4 (if n = 1 then 0 else g.used) ++ le 2 (if g.enc then bs.cfg.keySlot else 0) ++ zeros 2 ++
    le 8 g.openNs.toNat ++ le 8 closeNs ++ zeros 12
  h ++ le 4 (crc32c h)

/-- The open segment of a Basin. -/
def openSeg (b : Basin) : Option Seg :=
  match b.segs.getLast? with
  | some g => if g.closed then none else some g
  | none => none

/-- What a Basin writes whole: a data unit under a storage key, else a block (R342, R398). -/
def segGrain (g : Seg) : Nat := if g.enc then 4096 else 64

/-- The end of the last whole unit of writing that holds bytes below offset `off` of a segment. -/
def grainEnd (g : Seg) (off : Nat) : Nat := (off + segGrain g - 1) / segGrain g * segGrain g

/-- The key under which a segment of a capture is written: none for a segment in the clear. -/
def captureKey (b : Nat) (g : Seg) (s : State) : Bytes := if g.enc then (slot s (basin s b).cfg.keySlot).key else []

/-- The whole units of writing into which the bytes `bs` at offset `off` of a segment go: what the segment holds before
them, and behind them what it holds below `g.used` and zero bytes from there on, since a unit that is still filling is
written padded with zeros (R342, R398). -/
def segImage (g : Seg) (off : Nat) (bs : Bytes) (s : State) : Nat × Bytes :=
  let lo := off / segGrain g * segGrain g
  let stop := off + bs.length
  let held := fun x n => Memory.readBytes 0 s.cap.store (g.seg * segBytes + x) n
  let rest := held stop (min (grainEnd g stop) g.used - stop)
  (lo, fit (grainEnd g stop - lo) (held lo (off - lo) ++ bs ++ rest))

/-- Writes bytes into a segment, under the capture's storage key when the segment is encrypted; every data unit
written counts against the slot, a rewrite included (R342, R420). -/
def segWrite (b : Nat) (g : Seg) (off : Nat) (bs : Bytes) (s : State) : State :=
  let w := segImage g off bs s
  let s1 := storeWrite (captureKey b g s) (g.seg * segBytes + w.1) w.2 s
  if g.enc then useSlot (basin s b).cfg.keySlot (w.2.length / 4096) s1 else s1

/-- The tail of a segment that is closed holds zero bytes (R322). Under a storage key it is no use of the key, since R422
closes an encrypted segment with one use (log 28). -/
def zeroTail (b : Nat) (g : Seg) (s : State) : State :=
  let a := grainEnd g g.used
  storeZero (captureKey b g s) (g.seg * segBytes + a) (segBytes - a) s

/-- Replaces the last segment of a Basin. -/
def setOpen (b : Nat) (g : Seg) (s : State) : State :=
  modBasin b (fun x => { x with segs := x.segs.dropLast ++ [g] }) s

/-- The Basin's counter at an offset of CAP_STATUS, 64 bits (R354). -/
def countBasin (b off k : Nat) (s : State) : State :=
  modBasin b (fun x => { x with cnt := tmod 0 x.cnt off fun v => (v + k) % 2 ^ 64 }) s

/-- Closes the open segment: its tail holds zero bytes and its header is rewritten (R322, R323). -/
def closeSeg (b : Nat) (s : State) : State :=
  match openSeg (basin s b) with
  | none => s
  | some g =>
    let h := segHeader b 2 (basin s b) g s.time.ns.toNat
    setOpen b { g with closed := true } (segWrite b g 0 h (zeroTail b g s))

/-- A draft fits in the open segment (R322). -/
def fits (b : Basin) (n : Nat) : Bool :=
  match openSeg b with
  | none => false
  | some g => decide (g.used + n ≤ segBytes)

/-- The bytes of a record of Basin `b`: in HUSH every record has DEFAULT_MODE set (R324, R336). -/
def draftBytes (b : Nat) (d : Draft) (s : State) : Bytes :=
  recordOf d.type (if s.ctl.devState = .hush then d.flags ||| 4 else d.flags) d.label d.form b d.stamp
    (basin s b).nextSeq.toNat d.body

/-- A staging line that failed its CRC is reported with the seq of the record that is committed as read (R401). -/
def reportStaging (b seq : Nat) (d : Draft) (s : State) : State :=
  if d.bad then
    let f := drawFree s
    sramError d.badInj (0x3000 + b) 3 (Config.freeNat f.1) seq f.2
  else s

/-- Appends a record to the open segment: it gets the next seq and is counted (R320, R324, R354, R401). -/
def append (b : Nat) (d : Draft) (s : State) : State :=
  match openSeg (basin s b) with
  | none => s
  | some g =>
    let bytes := draftBytes b d s
    let byp := bit d.flags 1
    let s1 := segWrite b g g.used bytes (reportStaging b (basin s b).nextSeq.toNat d s)
    let s2 := setOpen b { g with
      used := g.used + bytes.length
      records := g.records + 1
      bypass := g.bypass || byp
      recs := g.used :: g.recs } s1
    let s3 := modBasin b (fun y => { y with
      nextSeq := y.nextSeq + 1
      postLeft := y.postLeft - bytes.length }) s2
    countBasin b 32 1 (countBasin b 40 d.line (countBasin b 48 bytes.length (countBasin b 72 (b2n byp) s3)))

/-- The segment a Basin would open next: the buffer's next free one that nothing pins, or in wrap operation the one of lowest retained
ordinal that nothing pins (R322, R349). -/
def nextSeg (s : State) (b : Nat) : Option Nat :=
  let x := basin s b
  match x.buffer.find? fun g => !(x.segs.any fun y => y.seg == g) && !pinned s g with
  | some g => some g
  | none =>
    if x.cfg.stopFull then none
    else (x.segs.find? fun y => !pinned s y.seg).map fun y => y.seg

/-- Segment `g` becomes the newest of a Basin, under the next ordinal (R322, R323). -/
def newSeg (b g : Nat) (enc : Bool) (s : State) : Seg :=
  let x := basin s b
  { ord := x.nextOrd, seg := g, enc, firstSeq := x.nextSeq.toNat, openNs := s.time.ns }

def addSeg (b : Nat) (seg : Seg) (s : State) : State :=
  modBasin b (fun y => { y with
    segs := (y.segs.filter fun z => z.seg != seg.seg) ++ [seg]
    nextOrd := (y.nextOrd + 1) % 2 ^ 32
    keepRest := false }) s

/-- The header of an open segment is written (R323). -/
def openHeader (b : Nat) (seg : Seg) (s : State) : State := segWrite b seg 0 (segHeader b 1 (basin s b) seg 0) s

/-- Opens segment `g` under the next ordinal, with its header and its first EPOCH record (R322, R323, R331). -/
def openSegAt (b g : Nat) (enc : Bool) (s : State) : State :=
  let seg := newSeg b g enc s
  let s1 := addSeg b seg s
  append b (epochDraft 1 s1) (openHeader b seg s1)

/-- `k` writes of data units under the storage key would not leave one use before the limit (R422). -/
def keyShort (b k : Nat) (s : State) : Bool :=
  let x := basin s b
  x.cfg.encrypt && x.encLeft && decide (usesLeft s x.cfg.keySlot < k + 1)

/-- How the writing of a record ends: done, no writable segment, or the uses of the storage key do not suffice. -/
inductive Put where
  | done | full | spent
deriving DecidableEq, Repr

/-- The open segment, or the next one, has room for `n` bytes (R322). The change of segment under a storage key takes
three writes: the old header, the new header and the EPOCH record. -/
def ensureRoom (b n : Nat) (s : State) : Put × State :=
  if fits (basin s b) n then (.done, s)
  else match nextSeg s b with
    | none => (.full, s)
    | some g =>
      if keyShort b (2 + b2n (openSeg (basin s b)).isSome) s then (.spent, s)
      else
        let c := closeSeg b s
        (.done, openSegAt b g ((basin c b).cfg.encrypt && (basin c b).encLeft) c)

/-- The units of a record that the storage key still allows before its last use are written; the record is not
committed (R422). -/
def writeSome (b : Nat) (g : Seg) (d : Draft) (s : State) : State :=
  let units := usesLeft s (basin s b).cfg.keySlot - 1
  if units = 0 then s else segWrite b g g.used ((draftBytes b d s).take (units * 4096 - g.used % 4096)) s

/-- Writes a record (R322, R422). A capture whose storage key is used up writes no items any more. -/
def tryPut (b : Nat) (d : Draft) (s : State) : Put × State :=
  let x := basin s b
  if x.cfg.encrypt && !x.encLeft && decide (d.type < 4) then (.full, s)
  else
    let r := ensureRoom b d.size s
    match r.1 with
    | .full => (.full, s)
    | .spent => (.spent, s)
    | .done => match openSeg (basin r.2 b) with
      | none => (.full, r.2)
      | some g =>
        if g.enc && keyShort b (unitsOf g.used d.size).length r.2 then (.spent, writeSome b g d r.2)
        else (.done, append b d r.2)

/-- Where no segment is open and uses remain of the storage key, the next segment is opened to take them, with no record in
it (DESIGN CHOICE, log 73). -/
def spareSeg (b : Nat) (s : State) : State :=
  let left := usesLeft s (basin s b).cfg.keySlot
  if (openSeg (basin s b)).isSome ∨ left = 0 then s
  else match nextSeg s b with
    | none => s
    | some g =>
      let seg := newSeg b g true s
      let s1 := addSeg b seg s
      if left = 1 then s1 else openHeader b seg s1

/-- The storage key is used up: the uses that remain, the last among them, rewrite the header of the open segment as
CLOSED, by which the slot becomes EXHAUSTED (R420, R422, log 73). Without a use that remains, as when another Basin has
taken the last, the segment takes no record any more, but its header stays as it is; without a writable segment nothing is
spent. -/
def spendKey (b : Nat) (s0 : State) : State :=
  let s := spareSeg b s0
  let left := if (openSeg (basin s b)).isSome then usesLeft s (basin s b).cfg.keySlot else 0
  let rewrite := fun x : State => match (basin x b).segs.getLast? with
    | none => x
    | some g => if g.enc then segWrite b g 0 (segHeader b 2 (basin x b) g x.time.ns.toNat) x else x
  let shut := fun x : State => match openSeg (basin x b) with
    | none => x
    | some g =>
      if g.enc then setOpen b { g with closed := true } (if left = 0 then x else zeroTail b g x) else x
  modBasin b (fun x => { x with encLeft := false }) ((List.range left).foldl (fun x _ => rewrite x) (shut s))

/-- Commits a record where a segment can take it; false where none can. When the storage key does not suffice, only
records that hold no item go on, in a segment in the clear (R422). -/
def putFit (b : Nat) (d : Draft) (s : State) : Bool × State :=
  let r := tryPut b d s
  match r.1 with
  | .done => (true, r.2)
  | .full => (false, s)
  | .spent =>
    let q := tryPut b d (spendKey b r.2)
    (q.1 == .done, q.2)

/-! ### Losses (R337) -/

/-- Notes what is lost (R333, R337). -/
def loseItem (b : Nat) (l : Loss) (cause : Nat) (s : State) : State :=
  if l.frames + l.bursts + l.other = 0 then s
  else modBasin b (fun x =>
    let g := x.gap
    let first := g.frames + g.bursts + g.other = 0
    { x with
      lostEvFrames := x.lostEvFrames + l.frames
      lostEvBytes := x.lostEvBytes + l.bytes
      gap := { g with
        frames := g.frames + l.frames
        bursts := g.bursts + l.bursts
        other := g.other + l.other
        bytes := g.bytes + l.bytes
        firstNs := if first then BitVec.ofNat 64 l.first.ns else g.firstNs
        firstFrac := if first then l.first.frac else g.firstFrac
        lastNs := BitVec.ofNat 64 l.last.ns
        lastFrac := l.last.frac
        cause } }) s

/-- Items wait to be reported in a GAP record. -/
def gapPending (b : Basin) : Bool := b.gap.frames + b.gap.bursts + b.gap.other != 0

/-- EV_CAP_GAP, at most once per second per Basin (R337, R356). -/
def gapEvent (b : Nat) (s : State) : State :=
  let x := basin s b
  let due := match x.gapEvAt with
    | none => true
    | some t => decide (t + 625000000 ≤ s.time.cycles)
  if due then
    modBasin b (fun y => { y with lostEvFrames := 0, lostEvBytes := 0, gapEvAt := some s.time.cycles })
      (raise 0x0902 b (le 4 x.lostEvFrames ++ le 8 x.lostEvBytes ++ le 1 x.gap.cause) none s)
  else s

/-- Writes the GAP record that covers every item lost since the last committed record, where it can (R337). -/
def writeGap (b : Nat) (s : State) : State :=
  if gapPending (basin s b) then
    let g := (basin s b).gap
    let r := putFit b (gapDraft g) s
    if r.1 then
      let s1 := countBasin b 56 g.frames (countBasin b 64 g.bytes (gapEvent b r.2))
      modBasin b (fun x => { x with gap := {} }) s1
    else s
  else s

/-! ### Capture states -/

/-- A transition of a capture, with EV_CAP_STATE (R340, R356). -/
def setCapState (b new stopCause : Nat) (cmd : Option Cause) (s : State) : State :=
  let old := (basin s b).state
  raise 0x0901 b (le 1 old ++ le 1 new ++ le 1 stopCause) cmd
    (modBasin b (fun x => { x with state := new, stopCause }) s)

/-- A Weir that Basin `b` may claim: its first-claim Weirs, then any other that is idle or runs an export-compression
job (R335). R27 and R335 do not say which of several the Basin takes; DESIGN CHOICE (log 73): b, then b + 4, then the
lowest-numbered other, an idle one no sooner than one that runs a job. -/
def claimWeir (s : State) (b : Nat) : Option Nat :=
  let free := fun w =>
    let x := tget ({} : Weir) s.cap.weirs w
    !x.fenced && x.basin.isNone
  ([b, b + 4] ++ (List.range 8).filter fun w => w % 4 != b).find? free

def modWeir (w : Nat) (f : Weir → Weir) (s : State) : State :=
  { s with cap := { s.cap with weirs := tmod {} s.cap.weirs w f } }

/-- The form in which a Basin stores a frame: the rule's cmode, or its own mode for cmode 0 and without a decision
(R290, R320, R334); KEEP in HUSH (R336). -/
def chosenMode (s : State) (b cmode headN : Nat) (default : Bool) : Nat × Nat :=
  if s.ctl.devState = .hush then (1, 0)
  else if cmode = 0 ∨ default then ((basin s b).cfg.mode, (basin s b).cfg.headN)
  else (cmode, headN)

/-- The open FOLD run as a record: a run of one frame is a FRAME record in KEEP form (R330). -/
def runDraft (r : FoldRun) (coarse : Bool) : Draft :=
  if r.count = 1 then frameDraft r.first r.rule 1 0 r.flags coarse 0 else foldDraft r coarse

/-- Commits a record after a pending GAP record; one that finds no writable segment is lost under cause 4 (R322,
R337). -/
def putOrLose (b : Nat) (d : Draft) (s : State) : State :=
  let r := putFit b d (writeGap b s)
  if r.1 then r.2 else loseItem b d.loss 4 r.2

/-- Closes the open FOLD run (R330). -/
def closeRun (put : Draft → State → State) (b : Nat) (s : State) : State :=
  match (basin s b).fold with
  | none => s
  | some r => put (runDraft r (basin s b).cfg.coarse) (modBasin b (fun x => { x with fold := none }) s)

/-- The bytes that the open FOLD run may need (R329). -/
def runSize (b : Basin) : Nat := ((b.fold.map fun r => (foldDraft r false).size)).getD 0

/-- In the last segment of a buffer under on_full stop a Basin keeps room for what ends the capture: the open run, GAP
records before and after it, and MARK kind 4 (R330, R337, R339, log 73). `n` bytes more do not fit there. -/
def lastRoom (s : State) (b n : Nat) : Bool :=
  let x := basin s b
  x.cfg.stopFull && (nextSeg s b).isNone && !fits x (n + runSize x + 128 + if gapPending x then 48 else 0)

/-- The buffer of a running capture is full (R340). -/
def bufferFull (s : State) (b n : Nat) : Bool := (basin s b).state == 3 && lastRoom s b n

/-- A frame that the Weirs have returned is still in staging until a record or the open run holds it (R320): what ends
the capture meanwhile finds it there with its decision, and a burst that it ends waits for it. -/
def restage (b rule flags : Nat) (i : StageItem) (s : State) : State :=
  let decision : Decision := { rule, cmode := 4, headN := 0, trig := bit flags 3 }
  let back := { i with decided := if bit flags 2 then none else some decision }
  let wait := fun l : List BurstWait => match l.findIdx? fun w => w.ids == [] && w.first.isSome with
    | none => l
    | some k => l.modify k fun w => { w with ids := [i.id] }
  modBasin b (fun x => { x with staging := back :: x.staging, bursts := wait x.bursts }) s

/-- The same frame leaves staging again. -/
def dropStaged (b id : Nat) (s : State) : State :=
  modBasin b (fun x => { x with
    staging := x.staging.filter fun i => i.id != id
    bursts := x.bursts.map fun w => { w with ids := w.ids.erase id } }) s

/-- A frame that is to be stored in FOLD form joins the open run, or closes it and opens a new one (R330); where the
buffer has no room left for a run, it is committed at once. -/
def foldFrame (put : Draft → State → State) (b rule flags : Nat) (i : StageItem) (s : State) : State :=
  let fresh : FoldRun := { first := i, rule, flags, count := 1, lastNs := i.ns, lastFrac := i.frac }
  let joins := match (basin s b).fold with
    | none => false
    | some r => r.first.data == i.data && r.first.label == i.label &&
        decide (i.ns.toNat * 65536 + i.frac
          < r.first.ns.toNat * 65536 + r.first.frac + (basin s b).cfg.foldUs * 1000 * 65536)
  if joins then
    let s1 := modBasin b (fun x => { x with fold := x.fold.map fun r => { r with
      count := r.count + 1
      flags := r.flags ||| (flags &&& 12)
      first := { r.first with sramBad := r.first.sramBad || i.sramBad, sramInj := r.first.sramInj || i.sramInj }
      lastNs := i.ns
      lastFrac := i.frac } }) s
    if ((basin s1 b).fold.map fun r => r.count) = some 65535 then closeRun put b s1 else s1
  else
    let s1 := closeRun put b (restage b rule flags i s)
    if !recording (basin s1 b) then s1
    else
      let s2 := dropStaged b i.id s1
      if lastRoom s2 b (foldDraft fresh false).size then put (runDraft fresh (basin s2 b).cfg.coarse) s2
      else modBasin b (fun x => { x with fold := some fresh }) s2

/-- Stores a frame in the form `mode` (R334). -/
def storeForm (put : Draft → State → State) (b rule mode headN flags : Nat) (i : StageItem) (s : State) : State :=
  if mode = 4 then foldFrame put b rule flags i s
  else
    let f := drawFree s
    put (frameDraft i rule mode headN flags (basin s b).cfg.coarse f.1) f.2

/-- A Weir is fenced (R336): 1 it failed its self-check, 2 it did not return a record. What it held is written in KEEP
form with WEIR_BYPASS, and the Basin keeps that form for the rest of its open segment. An export-compression job loses
the Weir and resumes on another. -/
def fenceWeir (put : Draft → State → State) (inj : Bool) (w cause : Nat) (s : State) : State :=
  let x := tget ({} : Weir) s.cap.weirs w
  if x.fenced then s
  else
    let s1 := raiseWith inj 0x0904 w (le 1 (x.basin.getD 0xFF) ++ le 1 cause) none
      (modWeir w (fun _ => { fenced := true }) s)
    match x.basin with
    | none => s1
    | some b =>
      let s2 := modBasin b (fun y => { y with keepRest := true, fallback := true }) s1
      match x.item with
      | none => s2
      | some h => storeForm put b h.rule 1 0 (h.flags ||| 2) h.item s2

/-- A line of a Weir fails its CRC: nothing repairs it (R399, R408). -/
def weirLineBad (inj : Bool) (w : Nat) (s : State) : State :=
  let f := drawFree s
  sramError inj (0x4000 + w) 3 (Config.freeNat f.1) 0 f.2

/-- A frame whose form needs a Weir goes through Weir `w`, which returns it at once or holds it (R335, R336). A line of
the Weir that an armed mask corrupts fails the Weir's self-check (R399, R408). -/
def throughWeir (put : Draft → State → State) (b rule : Nat) (m : Nat × Nat) (flags w : Nat) (returned : Bool)
    (i : StageItem) (s : State) : State :=
  let k := sramWrite (0x4000 + w) (modBasin b (fun x => { x with fallback := false }) s)
  let s1 := modWeir w (fun x => { x with
    basin := some b
    suspended := x.suspended || x.job.isSome
    item := some { item := i, rule, mode := m.1, headN := m.2, flags } }) k.2
  if k.1.1 ≠ 0 then fenceWeir put k.1.2 w 1 (weirLineBad k.1.2 w s1)
  else if returned then
    storeForm put b rule m.1 m.2 flags i
      (modWeir w (fun x => { x with basin := none, item := none, suspended := false }) s1)
  else s1

/-- A staging item leaves staging and is committed (R320, R335, R336): `default` when no decision reached it. A form
that needs a Weir is stored in KEEP form with WEIR_BYPASS when no Weir can be claimed. `returned` says whether the
Weir returns the record at once; otherwise it holds it. -/
def storeItem (put : Draft → State → State) (b rule cmode headN : Nat) (default trig returned : Bool)
    (i : StageItem) (s : State) : State :=
  let flags := 4 * b2n default + 8 * b2n trig
  if i.content ≠ 0 then storeForm put b 0xFFFE 1 0 (8 * b2n trig) i s
  else
    let m := chosenMode s b cmode headN default
    if m.1 = 1 then storeForm put b rule 1 0 flags i s
    else
      let bypass := fun x => storeForm put b rule 1 0 (flags + 2) i (modBasin b (fun y => { y with fallback := true }) x)
      if (basin s b).keepRest then bypass s
      else match claimWeir s b with
        | none => bypass s
        | some w => throughWeir put b rule m flags w returned i s

/-- A staging item is stored as its decision says, or under the Basin's own mode where none has reached it (R294,
R320). -/
def storeDecided (put : Draft → State → State) (b : Nat) (returned : Bool) (i : StageItem) (s : State) : State :=
  match i.decided with
  | some d => storeItem put b d.rule d.cmode d.headN false d.trig returned i s
  | none => storeItem put b 0xFFFE 0 0 true false returned i s

/-- Takes an item out of staging; a tap burst notes the seq that its first record will carry (R328). -/
def unstage (b id : Nat) (s : State) : State :=
  modBasin b (fun x =>
    let note : BurstWait → BurstWait := fun w =>
      if w.ids.contains id then { w with ids := w.ids.erase id, first := some (w.first.getD x.nextSeq) } else w
    { x with
      staging := x.staging.filter fun i => i.id != id
      bursts := x.bursts.map note }) s

/-- What is lost with a BURST record (R333). -/
def burstLoss (w : BurstWait) : Loss :=
  let t : Stamp := { ns := w.ns.toNat, frac := w.frac }
  { bursts := 1, bytes := w.data.length, first := t, last := t }

/-- BURST (R328). -/
def burstDraft (w : BurstWait) (coarse : Bool) (next : BitVec 32) : Draft :=
  { type := 2, flags := b2n coarse, label := 0, form := 0
    stamp := recStamp coarse { ns := w.ns.toNat, frac := w.frac }, line := 0
    body := w.fields ++ le 4 (w.first.getD next).toNat ++ zeros 4 ++ w.data
    loss := burstLoss w, bad := w.sramBad, badInj := w.sramInj }

/-- A Weir holds a record of a Basin. -/
def weirHolds (s : State) (b : Nat) : Bool := s.cap.weirs.any fun e => e.2.basin == some b

/-- A staging item by its name. -/
def staged (s : State) (b id : Nat) : Option StageItem := (basin s b).staging.find? fun i => i.id == id

/-- A frame of a later burst than the first whose record is still to come: its record would stand among those of that burst
(R328). -/
def waitsBurst (s : State) (b id : Nat) : Bool := ((basin s b).bursts.drop 1).any fun w => w.ids.contains id

/-- A frame of the first burst in line that has been held back and is due, in line order (R328). -/
def dueItem (x : Basin) (w : BurstWait) : Option StageItem :=
  x.staging.find? fun i => w.ids.contains i.id && i.due.isSome

/-- The BURST records whose frames have all been committed are committed, in line order; any FOLD run closes first
(R328). Frames of the next burst that have been held back follow. A burst that staging had no room for brings no record, and
its end closes the run all the same (R320, R330). `fuel` bounds the bursts and the frames. -/
def settleBursts (put : Draft → State → State) (b : Nat) : Nat → State → State
  | 0, s => s
  | fuel + 1, s =>
    match (basin s b).bursts with
    | [] => s
    | w :: rest =>
      if w.ids ≠ [] then match dueItem (basin s b) w with
        | none => s
        | some i => settleBursts put b fuel (storeDecided put b (i.due.getD true) i (unstage b i.id s))
      else if weirHolds s b then s
      else
        let s1 := closeRun put b s
        if !recording (basin s1 b) then s1
        else
          let s2 := modBasin b (fun x => { x with bursts := rest }) s1
          if w.lost then settleBursts put b fuel s2
          else
            let s3 := if lastRoom s2 b 0 then s2 else writeGap b s2
            settleBursts put b fuel (put (burstDraft w (basin s b).cfg.coarse (basin s3 b).nextSeq) s3)

/-- Every BURST record of a Basin that can be committed. -/
def settleAll (put : Draft → State → State) (b : Nat) (s : State) : State :=
  settleBursts put b ((basin s b).bursts.length + (basin s b).staging.length) s

/-- The records that the Weirs hold for a Basin are written from staging in KEEP form with WEIR_BYPASS, and the Weirs
are free again (R336). -/
def flushWeirs (put : Draft → State → State) (b : Nat) (s : State) : State :=
  (List.range 8).foldl (fun x w =>
    let y := tget ({} : Weir) x.cap.weirs w
    match y.basin, y.item with
    | some c, some h =>
      if c = b then storeForm put b h.rule 1 0 (h.flags ||| 2) h.item
        (modWeir w (fun z => { z with basin := none, item := none, suspended := false }) x)
      else x
    | _, _ => x) s

/-- Commits a record of staging ahead of a stop; one that would take the room kept for the end of the capture is lost
under cause 4 (R337, R339, log 73). -/
def putStop (b : Nat) (d : Draft) (s : State) : State :=
  if lastRoom s b d.size then loseItem b d.loss 4 s else putOrLose b d s

/-- Everything in staging is committed ahead of the stop, undecided frames under the Basin's own mode with DEFAULT_MODE
(R320, R340). -/
def flushStaging (b : Nat) (s : State) : State :=
  (basin s b).staging.foldl (fun x i =>
    if (staged x b i.id).isNone then x
    else settleAll (putStop b) b (storeDecided (putStop b) b true i (unstage b i.id x)))
    (settleAll (putStop b) b (flushWeirs (putStop b) b s))

/-- MARK kind 4 (R332, R339). -/
def stopMark (s : State) : Draft := markDraft (nowStamp s) 4 0xFF 0xFFFF 0 0

/-- The records that the Weirs hold for a Basin are lost under a cause, and the Weirs are free again. -/
def loseWeirs (b cause : Nat) (s : State) : State :=
  (List.range 8).foldl (fun x w =>
    let y := tget ({} : Weir) x.cap.weirs w
    match y.basin, y.item with
    | some c, some h =>
      if c = b then loseItem b (itemLoss h.item) cause
        (modWeir w (fun z => { z with basin := none, item := none, suspended := false }) x)
      else x
    | _, _ => x) s

/-- Everything that has reached a Basin and is in no record is lost under a cause, the FOLD run apart (R337). -/
def loseHeld (b cause : Nat) (s : State) : State :=
  let x := basin s b
  let s1 := x.staging.foldl (fun y i => loseItem b (itemLoss i) cause y) (loseWeirs b cause s)
  let s2 := (x.bursts.filter fun w => !w.lost).foldl (fun y w => loseItem b (burstLoss w) cause y) s1
  modBasin b (fun y => { y with staging := [], bursts := [] }) s2

/-- Commits a record that leaves `tail` bytes of the open segment; one that does not is lost under cause 4. -/
def keepOrLose (b tail : Nat) (d : Draft) (s : State) : State :=
  if fits (basin s b) (d.size + tail) then putOrLose b d s else loseItem b d.loss 4 s

/-- Commits the FOLD run of a capture that stops: in the last segment under on_full stop it leaves the 80 bytes of a GAP
record and MARK kind 4 (R330, R339, log 73). -/
def putEnd (b : Nat) (d : Draft) (s : State) : State :=
  if (basin s b).cfg.stopFull && (nextSeg s b).isNone then keepOrLose b 80 d s else putOrLose b d s

/-- The end of a capture that records: the pending GAP record, MARK kind 4, and the open segment is closed (R337, R339,
R340). -/
def endCapture (b cause : Nat) (cmd : Option Cause) (s : State) : State :=
  setCapState b 5 cause cmd (closeSeg b (putFit b (stopMark s) (writeGap b s)).2)

/-- One use of the storage key remains, or none: the open segment is closed with the last use. What has not been
recorded is lost under cause 4; EPOCH, the GAP record that counts it and MARK kind 4 stand in a new segment in the
clear, where there is one (R337, R340, R422, log 73). -/
def stopKey (b : Nat) (s : State) : State :=
  let s1 := if (basin s b).encLeft then spendKey b s else s
  let s2 := closeRun (fun d x => loseItem b d.loss 4 x) b (loseHeld b 4 s1)
  endCapture b 4 none s2

/-- The storage key of a capture that records has one use left or none (R422). -/
def keyOut (s : State) (b : Nat) : Bool :=
  let x := basin s b
  recording x && x.cfg.encrypt && (!x.encLeft || decide (usesLeft s x.cfg.keySlot ≤ 1))

/-- Every Basin whose storage key has one use left stops, the one that has just written first (R422): several Basins may
share a slot. -/
def settleKeys (b : Nat) (s : State) : State :=
  (b :: List.range 4).foldl (fun x c => if keyOut x c then stopKey c x else x) s

/-- The buffer is full and on_full is stop: the record `d` found no room. What staging holds is lost under cause 4 and
counted in a GAP record, the FOLD run closes, and MARK kind 4 ends the capture with cause 3 (R330, R337, R339, R340). -/
def stopFull (b : Nat) (d : Option Draft) (s : State) : State :=
  let s1 := closeRun (keepOrLose b 80) b (writeGap b (loseHeld b 4 s))
  let s2 := match d with
    | none => s1
    | some e => keepOrLose b 80 e s1
  settleKeys b (endCapture b 3 none s2)

/-- A capture stops and is DONE: what staging and the FOLD run hold is committed, then MARK kind 4, and the open
segment is closed (R330, R339, R340). In WAIT nothing was recorded. -/
def stopCapture (b cause : Nat) (cmd : Option Cause) (s : State) : State :=
  let x := basin s b
  if recording x then
    settleKeys b (endCapture b cause cmd (closeRun (putEnd b) b (flushStaging b s)))
  else if x.state = 2 then setCapState b 5 cause cmd (modBasin b (fun y => { y with staging := [], bursts := [] }) s)
  else s

/-- The transitions that a committed record brings: the storage key has one use left, or the post count is reached
(R340, R422). -/
def settleBasin (b : Nat) (s : State) : State :=
  let s1 := settleKeys b s
  let x := basin s1 b
  if x.state = 4 ∧ x.postLeft = 0 then stopCapture b 2 none s1 else s1

/-- Commits a record of a running capture and takes the transitions it brings: a full buffer under on_full stop, an
exhausted storage key, and the end of the post count. In POST a record that finds the buffer full is lost under cause 4
(R337, R340, R422). -/
def putRec (b : Nat) (d : Draft) (s : State) : State :=
  if !recording (basin s b) then s
  else if bufferFull s b d.size then stopFull b (some d) s
  else settleBasin b (putStop b d s)

/-- A Basin whose open segment was fenced opens its next one (R392). -/
def openNext (b : Nat) (s : State) : State :=
  if recording (basin s b) && (openSeg (basin s b)).isNone then
    let r := ensureRoom b 32 s
    match r.1 with
    | .done => settleBasin b r.2
    | .full => s
    | .spent => stopKey b s
  else s

/-- Commits a record that is no item (EPOCH, MARK). -/
def putNote (b : Nat) (d : Draft) (s : State) : State := putRec b d s

/-- The bytes that staging holds: frames, and tap bursts whose records wait for those of their frames (R319, R320). -/
def stagedBytes (x : Basin) : Nat := ((x.staging.map fun j => j.data.length) ++ x.bursts.map fun w => w.data.length).sum

/-- An item reaches a Basin (R319, R320, R337): it waits in staging for the classifier's decision, or is committed
at once; an item that finds staging full is lost under cause 2. -/
def basinItem (b : Nat) (i : StageItem) (s : State) : State :=
  let x := basin s b
  if !recording x then s
  else if i.content = 1 ∧ !x.cfg.ploam then s
  else if i.content = 2 ∧ !x.cfg.bwmap then s
  else if 262144 < stagedBytes x + i.data.length then
    loseItem b (itemLoss i) 2 s
  else
    let k := sramWrite (0x3000 + b) s
    let i := if k.1.1 = 0 then i else { i with data := xorLine k.1.1 i.data, sramBad := true, sramInj := k.1.2 }
    if i.waits then modBasin b (fun y => { y with staging := y.staging ++ [i] }) k.2
    else storeItem (putRec b) b 0xFFFE 0 0 false false true i k.2

/-- A Basin begins to record: EPOCH and MARK kind 3 (R331, R340). Where every segment of its buffer is fenced, it ends at
once under cause 7. -/
def beginCapture (b : Nat) (t : Stamp) (cmd : Option Cause) (s : State) : State :=
  let s1 := setCapState b 3 0 cmd s
  if (basin s1 b).buffer = [] then setCapState b 5 7 cmd s1
  else putNote b (markDraft t 3 0xFF 0xFFFF 0 0) (putNote b (epochDraft 3 s1) s1)

/-- One firing of a trigger, as Basin `b` acts on it (R338, R339, R340). `own` is the Basin of the frame that fired
it. -/
def fireAt (n kind rule arg peer : Nat) (own : Option Nat) (t : Stamp) (cmd : Option Cause) (s : State) (b : Nat) :
    State :=
  let x := basin s b
  let starts := x.state == 2 && bit x.cfg.startMask n
  let s1 := if starts then
      beginCapture b t cmd (modBasin b (fun y => { y with triggered := true, trigTime := BitVec.ofNat 64 t.ns }) s)
    else s
  let y := basin s1 b
  let mark := markDraft t kind n (if kind = 0 then rule else 0xFFFF) arg peer
  if y.state = 3 ∧ y.cfg.trigMode = 2 ∧ bit y.cfg.stopMask n then
    let s2 := putNote b mark s1
    if (basin s2 b).state = 3 then
      let s3 := setCapState b 4 0 cmd (modBasin b (fun z => { z with
        triggered := true
        trigTime := BitVec.ofNat 64 t.ns
        postLeft := z.cfg.postBytes }) s2)
      if y.cfg.postBytes = 0 then stopCapture b 2 cmd s3 else s3
    else s2
  else if recording y ∧ !starts ∧ (bit (x.cfg.startMask ||| x.cfg.stopMask) n ∨ own = some b) then putNote b mark s1
  else s1

/-- A trigger fires: EV_CAP_TRIGGER, and every Basin sees it (R338, R356). -/
def fireTrigger (n kind rule arg peer : Nat) (own : Option Nat) (t : Stamp) (cmd : Option Cause) (s : State) :
    State :=
  (List.range 4).foldl (fireAt n kind rule arg peer own t cmd)
    (raise 0x0903 n (le 1 kind ++ le 8 t.ns) cmd s)

/-- Every capture in WAIT, RUNNING or POST stops with a cause (R42, R60, R340). -/
def stopAllCaptures (cause : Nat) (s : State) : State :=
  (List.range 4).foldl (fun x b => stopCapture b cause none x) s

/-- After a time step every running Basin closes its FOLD run and writes an EPOCH record (R129, R330, R331). -/
def epochAll (s : State) : State :=
  (List.range 4).foldl (fun x b =>
    if recording (basin x b) then
      let y := closeRun (putRec b) b x
      if recording (basin y b) then putNote b (epochDraft 2 y) y else y
    else x) s

end Sys2Proof.Machine
end

