-- ==== Sys2Proof/Machine/Fence.lean ====
section
/-!
DEFINITION. The reading of the store (R389, R390), the fencing of segments and stacks with what it does to their
holders (R391 to R394), and how a transfer ends (R425, R426).
-/
namespace Sys2Proof.Machine

/-! ### Transfers -/

/-- A transfer of the cipher engine (R423). -/
def xfer (s : State) (n : Nat) : Xfer := tget {} s.cip.xfers n

def modXfer (n : Nat) (f : Xfer → Xfer) (s : State) : State :=
  { s with cip := { s.cip with xfers := tmod {} s.cip.xfers n f } }

/-- The pool segments that a load touches (R425). -/
def touched (x : Xfer) : List Nat :=
  if x.length = 0 then []
  else (List.range ((x.offset + x.length - 1) / segBytes - x.offset / segBytes + 1)).map fun i =>
    x.offset / segBytes + i

/-- The state of pool segments: 1 PENDING, 2 POISONED, 0 READY (R238). -/
def setPool (segs : List Nat) (v : Nat) (s : State) : State :=
  let t := segs.foldl (fun p g => if v = 0 then tdel p g else tset p g v) s.up.poolState
  { s with up := { s.up with poolState := t } }

/-- A transfer ends: EV_XFER_DONE (R425, R435). -/
def xferDone (n : Nat) (s : State) : State :=
  let x := xfer s n
  raise 0x0C01 n (le 2 x.status ++ le 1 x.cause ++ le 1 x.kind ++ le 8 x.bytes ++ le 4 x.first) x.cmd
    (modXfer n (fun y => { y with state := 2, filling := false, pin := none }) s)

/-- A load that does not pass: its segments become POISONED before any is zeroed, and the zero-fill starts (R425,
R426). A seal-out simply ends. -/
def xferFail (n cause status : Nat) (s : State) : State :=
  let s1 := modXfer n (fun y => { y with cause, status }) s
  if (xfer s n).kind = 1 then modXfer n (fun y => { y with filling := true }) (setPool (touched (xfer s n)) 2 s1)
  else xferDone n s1

/-- Loads whose touched segments include a segment that has just been fenced end under cause 4 (R426). -/
def abortLoads (seg : Nat) (s : State) : State :=
  (List.range 4).foldl (fun y n =>
    let x := xfer y n
    if x.state = 1 ∧ x.kind = 1 ∧ !x.filling ∧ (touched x).contains seg then xferFail n 4 stFenced y else y) s

/-! ### Fencing -/

/-- What a fence does to the capture that holds the segment: the segment leaves the buffer with its records, items
whose write into the open segment had not completed are lost under cause 3, and a capture left without any segment ends
with cause 7 (R340, R392): its FOLD run is lost with what it holds (R337). Those items are the ones that Weirs hold: they have left staging and are in no record
(DEDUCED, log 73). -/
def fenceBuffer (b seg : Nat) (s : State) : State :=
  let x := basin s b
  let writing := recording x && (openSeg x).map Seg.seg == some seg
  let s1 := modBasin b (fun x => { x with
    buffer := x.buffer.filter fun g => g != seg
    segs := x.segs.filter fun g => g.seg != seg }) (if writing then loseWeirs b 3 s else s)
  if recording (basin s1 b) ∧ (basin s1 b).buffer = [] then
    setCapState b 5 7 none (closeRun (fun d x => loseItem b d.loss 3 x) b (loseHeld b 3 s1))
  else s1

/-- Every Basin whose open segment was fenced opens its next one (R392), and commits the BURST records for which nothing
more is to come, now that its Weirs hold nothing (R328). -/
def openNextAll (s : State) : State := (List.range 4).foldl (fun x b => settleAll (putRec b) b (openNext b x)) s

/-- Fences a segment: EV_SEGMENT_FENCED and the consequences for its holder (R392, R393). -/
def fenceSegment (inj : Bool) (cause seg : Nat) (s : State) : State :=
  if fenced s seg then s
  else
    let hb := bufferHolder s seg
    let code := holderCode s seg
    let s1 := { s with mem := { s.mem with fence := tset s.mem.fence seg 2 } }
    let s2 := raiseWith inj 0x0B03 seg (le 1 cause ++ le 1 code ++ le 1 (hb.getD 0xFF)) none s1
    let s3 := match hb with
      | some b => fenceBuffer b seg s2
      | none => s2
    abortLoads seg s3

/-- Marks a segment for fencing; a free one is fenced at once (R391). -/
def markSegment (inj : Bool) (seg : Nat) (s : State) : State :=
  if fencedOrMarked s seg then s
  else if holderCode s seg = 0 then fenceSegment inj 2 seg s
  else { s with mem := { s.mem with fence := tset s.mem.fence seg (if inj then 3 else 1) } }

/-- The holder of a segment has released it: a marked segment is fenced now, by an injection where that made the
correction that marked it (R391, R507). -/
def releaseSegment (seg : Nat) (s : State) : State :=
  let m := tget 0 s.mem.fence seg
  if (m = 1 ∨ m = 3) ∧ holderCode s seg = 0 then fenceSegment (m == 3) 2 seg s else s

def releaseSegments (segs : List Nat) (s : State) : State := segs.foldl (fun x g => releaseSegment g x) s

/-- Fences a whole stack (R394). -/
def fenceStack (cause n : Nat) (s : State) : State :=
  if n < stackTotal s ∧ !(stack s n).fenced then
    let s1 := raise 0x0B04 n (le 1 cause) none (modStack n (fun x => { x with fenced := true }) s)
    openNextAll ((List.range 4096).foldl (fun x i => fenceSegment false 3 (i * stackTotal s + n) x) s1)
  else s

/-! ### Reading -/

/-- EV_MEM_CORRECTED, at most once per corr_event_ms and stack (R404, R408). -/
def correctedEvent (n : Nat) (s : State) : State :=
  let k := stack s n
  let due := match k.evAt with
    | none => true
    | some t => decide (t + s.mem.evMs * 625000 ≤ s.time.cycles)
  if due then
    modStack n (fun x => { x with evBlocks := 0, evInner := 0, evAt := some s.time.cycles })
      (raise 0x0B01 n (le 8 k.evBlocks ++ le 8 k.evInner) none s)
  else s

/-- A corrected block: the counters, the segment's count and its mark, and the event (R389, R391). -/
def corrected (inj : Bool) (blk symbols : Nat) (s : State) : State :=
  let seg := blk / 65536
  let n := stackOf s seg
  let s1 := countStack n 24 1 (countStack n 32 symbols (modStack n (fun x => { x with evBlocks := x.evBlocks + 1 }) s))
  let c := tget 0 s.mem.corr seg + 1
  let s2 := { s1 with mem := { s1.mem with corr := tset s1.mem.corr seg c } }
  let s3 := if s.mem.limit ≠ 0 ∧ s.mem.limit ≤ c then markSegment inj seg s2 else s2
  correctedEvent n s3

/-- An uncorrectable block: EV_MEM_UNCORRECTABLE and the fence of its segment (R390, R392). -/
def uncorrectable (inj : Bool) (reader blk : Nat) (s : State) : State :=
  let seg := blk / 65536
  let n := stackOf s seg
  let s1 := raiseWith inj 0x0B02 seg (le 1 n ++ le 1 reader ++ zeros 2 ++ le 4 (blk % 65536 * 64)) none
    (countStack n 40 1 s)
  openNextAll (fenceSegment inj 1 seg s1)

/-- Reads one block for a reader (R408), of which `clean` are the bytes without an error: its 64 bytes, or none when it is
uncorrectable. What the dies correct is counted by them (R388). A pattern of more than four symbols that the decoder
does not recognise is delivered as a corrected block with free bytes (R389, log 7). -/
def readBlock (reader blk : Nat) (clean : Bytes) (s : State) : Option Bytes × State :=
  match tfind s.mem.errs blk with
  | none => (some clean, s)
  | some e =>
    let s1 := if e.inner = 0 then s
      else modStack (stackOf s (blk / 65536)) (fun k => { k with dieCorr := k.dieCorr + e.inner }) s
    if e.symbols = 0 then (some clean, s1)
    else if e.symbols ≤ 4 then (some clean, corrected e.inj blk e.symbols s1)
    else
      let f := drawFree s1
      if Config.miscorrects f.1 then
        (some (fit 64 (Config.freeBytes f.1 64)), corrected e.inj blk (Config.freeNat f.1 % 4 + 1) f.2)
      else (none, uncorrectable e.inj reader blk f.2)

/-- A block may be delivered with other data than were stored (R389). -/
def mayMiscorrect (s : State) (blk : Nat) : Bool :=
  match tfind s.mem.errs blk with
  | none => false
  | some e => decide (4 < e.symbols)

/-- Reads the blocks of a list, stopping at the first uncorrectable one. -/
def readBlocks (reader : Nat) (view : Nat → Bytes) : List Nat → State → Option Bytes × State
  | [], s => (some [], s)
  | blk :: rest, s =>
    let r := readBlock reader blk (view blk) s
    match r.1 with
    | none => (none, r.2)
    | some bs =>
      let q := readBlocks reader view rest r.2
      (q.1.map fun t => bs ++ t, q.2)

/-- Reads `n` bytes at store address `a`, of which `view` shows each block, or none when a block is uncorrectable (R389,
R390). -/
def readView (reader : Nat) (view : Nat → Bytes) (a n : Nat) (s : State) : Option Bytes × State :=
  let r := readBlocks reader view (blocksOf a n) s
  (r.1.map fun bs => slice bs (a % 64) n, r.2)

/-- Reads `n` bytes at store address `a` before encryption (R389, R390). -/
def storeRead (reader a n : Nat) (s : State) : Option Bytes × State :=
  readView reader (fun blk => storePeek s (blk * 64) 64) a n s

/-- The stored bytes of a range (R350). -/
def storedBytes (s : State) (a n : Nat) : Bytes :=
  slice ((unitsOf a n).flatMap (cipherUnit s)) (a % 4096) n

/-- Reads the stored bytes of a range, encrypted units as they are stored (R342, R350). -/
def readStored (reader a n : Nat) (s : State) : Option Bytes × State :=
  if (unitsOf a n).any fun u => (tfind s.cap.unitKey u).isSome then
    readView reader (fun blk => storedBytes s (blk * 64) 64) a n s
  else storeRead reader a n s

/-- One write to one block (R398): a whole block is written as it is, a narrower one by read-modify-write, which is
counted, merges into the bytes that the read delivered, and is discarded where the block is uncorrectable (R390). -/
def blockWrite (a : Nat) (bs : Bytes) (s : State) : State :=
  let blk := a / 64
  if bs.length = 64 then storeWrite [] a bs s
  else
    let counted := countStack (stackOf s (blk / 65536)) 48 1 s
    let old := storedBytes counted (blk * 64) 64
    let r := readBlock 6 blk old counted
    match r.1 with
    | none => r.2
    | some got =>
      if mayMiscorrect s blk then
        storeWrite [] (blk * 64) (got.take (a % 64) ++ bs ++ got.drop (a % 64 + bs.length)) r.2
      else storeWrite [] a bs r.2

/-- A write that does not come in whole blocks: each block it touches is a write of its own (R398). -/
def narrowWrite (a : Nat) (bs : Bytes) (s : State) : State :=
  (blocksOf a bs.length).foldl (fun x blk =>
    let lo := max a (blk * 64)
    blockWrite lo (slice bs (lo - a) (min (a + bs.length) (blk * 64 + 64) - lo)) x) s

/-- The bytes of a range of an encrypted capture as an export or a job decrypts them with the capture's slot: the
plaintext while the slot still holds the key they were written under, else what the present key makes of the stored
ciphertext (R342, R416). -/
def decryptedBytes (s : State) (key : Bytes) (a n : Nat) : Bytes :=
  let unit := fun u =>
    if tfind s.cap.unitKey u = some key then storePeek s (u * 4096) 4096
    else Config.xtsDecrypt key u (cipherUnit s u)
  slice ((unitsOf a n).flatMap unit) (a % 4096) n

/-- Each block of a segment as a reader sees it after decryption with the capture's key where the segment is encrypted
(R342, R416). -/
def plainView (s : State) (enc : Bool) (key : Bytes) (a n blk : Nat) : Bytes :=
  if enc && (unitsOf a n).any fun u => tfind s.cap.unitKey u != some key then decryptedBytes s key (blk * 64) 64
  else storePeek s (blk * 64) 64

/-- Reads a range of a segment for an export or a job and decrypts it with the capture's key where the segment is
encrypted (R342, R389, R390, R416); none when a block is uncorrectable. -/
def readPlain (reader : Nat) (enc : Bool) (key : Bytes) (a n : Nat) (s : State) : Option Bytes × State :=
  readView reader (plainView s enc key a n) a n s

/-- Reads every block of a range; an uncorrectable one, whose segment is fenced as for every reader, gives free bytes
(R390, R428, log 75). -/
def readAll (reader : Nat) (view : Nat → Bytes) : List Nat → State → Bytes × State
  | [], s => ([], s)
  | blk :: rest, s =>
    let r := readBlock reader blk (view blk) s
    let got := match r.1 with
      | some bs => (bs, r.2)
      | none =>
        let f := drawFree r.2
        (fit 64 (Config.freeBytes f.1 64), f.2)
    let q := readAll reader view rest got.2
    (got.1 ++ q.1, q.2)

/-- A DMA channel has been halted and not yet reset (R402). -/
def channelHalted (s : State) (p channel : Nat) : Bool := s.mem.halted.any fun h => h.1 == p && h.2.1 == channel

/-- A DMA channel halts on an uncorrectable line in its complex (R402, log 32): the transfer ends. -/
def haltChannel (inj : Bool) (p channel transfer : Nat) (s : State) : State :=
  let f := drawFree s
  sramError inj (0x8000 + p) 3 (Config.freeNat f.1) 0
    { f.2 with mem := { f.2.mem with halted := f.2.mem.halted ++ [(p, channel, transfer, inj)] } }

/-! ### Descriptors of a DMA ring (R343, R423) -/

/-- The bus address of the descriptor `i` places after RING_HEAD. -/
def descAddr (s : State) (n i : Nat) : Nat := ringAddr s n (((ring s n).head + i) % ringEntries s n) 32

/-- Descriptors that host software has given to ring `n` (R343). -/
def descCount (s : State) (n : Nat) : Nat :=
  if (ring s n).en then ((ring s n).tail + ringEntries s n - (ring s n).head) % ringEntries s n else 0

/-- A buffer of a ring: host address and bytes (R343). -/
def descBuf (s : State) (n i : Nat) : Nat × Nat :=
  let d := hostRead s (descAddr s n i) 16
  (u64 d 0, u32 d 8)

/-- RING_HEAD moves on by `k` descriptors, whose buffers are done, and the ring's vector is signalled (R64). -/
def advanceHead (n k : Nat) (s : State) : State :=
  signal (16 + n) (modRing n (fun r => { r with head := (r.head + k) % ringEntries s n }) s)

/-- The completion of the descriptor `i` places after RING_HEAD (R343). -/
def complete (n i used flags basin exportId firstSeq records : Nat) (s : State) : State :=
  hostWrite (descAddr s n i + 16) (le 4 used ++ le 1 flags ++ le 1 basin ++ le 1 exportId ++ zeros 1 ++
    le 4 firstSeq ++ le 4 records) s

/-- A ring is used by an export or a transfer (R353, R423). -/
def ringUsed (s : State) (n : Nat) : Bool :=
  (s.cap.exports.any fun e => !e.2.port && e.2.target == n) || s.cip.xfers.any fun x => x.2.state == 1 && x.2.ring == n

/-- Why a ring cannot be taken for a use of direction `dir` (R353, R423): 0 not enabled, 1 the other direction, 2 in
use; none when it can. -/
def ringRefusal (s : State) (n : Nat) (dir : Bool) : Option Nat :=
  if !(ring s n).en then some 0 else if (ring s n).dir != dir then some 1 else if ringUsed s n then some 2 else none

end Sys2Proof.Machine
end

