-- ==== Sys2Proof/Machine/Mirror.lean ====
section
/-!
DEFINITION. The planes, their engines' roles, and the changes that the active engine sends to its mirror (R252, R254,
R256, R257).
-/
namespace Sys2Proof.Machine

/-- Plane `p`: 0 A, 1 B. -/
def plane (s : State) (p : Nat) : Plane := tget {} s.fr.planes p

def modPlane (p : Nat) (f : Plane → Plane) (s : State) : State :=
  { s with fr := { s.fr with planes := tmod {} s.fr.planes p f } }

def prot (s : State) (p : Nat) : Prot := (plane s p).prot

def modProt (p : Nat) (f : Prot → Prot) (s : State) : State := modPlane p (fun x => { x with prot := f x.prot }) s

/-- Engine code of an engine of a plane (R20). -/
def engineCode (p e : Nat) : Nat := 16 * p + e

/-- The status of an engine (R257): after reset x.E0 is ACTIVE and x.E1 CURRENT. -/
def engineStatus (s : State) (code : Nat) : Nat := tget (code % 16) s.fr.engines code

/-- The swap period of a plane is held while no engine of it is CURRENT, and goes on where it stood (R261). -/
def holdPeriod (current : Bool) (now : Nat) (x : Prot) : Prot :=
  match x.swapHeld with
  | none => if current then x else { x with swapHeld := some now }
  | some t => if current then { x with swapBase := x.swapBase + (now - t), swapHeld := none } else x

/-- The swap period of a plane starts again (R261, R271). -/
def restartPeriod (p : Nat) (s : State) : State :=
  modProt p (fun x => { x with
    swapBase := s.time.cycles
    swapHeld := x.swapHeld.map fun _ => s.time.cycles }) s

/-- An engine takes a status (R257). -/
def setEngine (code v : Nat) (s : State) : State :=
  let p := code / 16
  let s1 : State := { s with fr := { s.fr with engines := tset s.fr.engines code v } }
  modProt p (holdPeriod (engineStatus s1 (engineCode p 0) == 1 || engineStatus s1 (engineCode p 1) == 1) s.time.cycles) s1

/-- The active and the standby engine of a plane (R252). -/
def activeCode (s : State) (p : Nat) : Nat := engineCode p (prot s p).activeEng

def standbyCode (s : State) (p : Nat) : Nat := engineCode p (1 - (prot s p).activeEng)

/-- The record number of a plane record; a terminal record has the terminal's index. -/
def planeRecord : Nat := 0xFFFF

/-- The positions of the descriptors as a plane record carries them (R254). -/
def descPositions (s : State) : Tab DescPos := s.up.descs.map fun e => (e.1, e.2.pos)

/-- A plane record as it stands now (R254). -/
def planeRec (s : State) (p : Nat) : PlaneRec :=
  let x := plane s p
  { descs := descPositions s
    held := s.up.queues.filterMap fun e => if e.1 / 4096 = p then e.2.held.map fun h => (e.1, h) else none
    active := x.active
    standby := x.standby
    profiles := x.profiles
    ponValid := x.ponValid
    ponId := x.ponId }

/-- The two line keys of a terminal (R191, R213). -/
def lineKeys (s : State) (f : Nat) : List LineKey :=
  [2 * f, 2 * f + 1].map fun n =>
    let x : Slot := tget {} s.cip.slots n
    { valid := x.state == 1, key := x.key }

/-- A terminal record as it stands now (R254). -/
def termRec (s : State) (f : Nat) (t : Term) : TermRec := { term := t, keys := lineKeys s f }

/-- A change of a record as it goes out (R254). -/
def rillMsg (s : State) (p rec : Nat) (gen : BitVec 32) : RillMsg :=
  { record := rec
    gen
    term := if rec = planeRecord then none
      else (tfind s.tm.terms (1024 * p + rec)).map fun t => termRec s (1024 * p + rec) t
    plane := if rec = planeRecord then some (planeRec s p) else none }

/-- The line of an engine's memory that holds a mirrored record, in the model's numbering (log 39). -/
def stateLine (rec : Nat) : Nat := 0x80000000 + rec

/-- An engine writes a record into its memory. A line that a mask corrupts there is met at the engine's next frame, unless
the record is written again before (R399, R403, log 56). -/
def recordWritten (code rec : Nat) (s : State) : State := (rewriteLine (0x1000 + code) (stateLine rec) s).2

/-- A mirrored record of a plane changes: the active engine writes it, its generation advances, and the change goes out on the Rill where there is a
standby to take it (R254, R256). A stopped plane has none; its start brings a full copy (R253). -/
def touch (p rec : Nat) (s0 : State) : State :=
  let s := recordWritten (activeCode s0 p) rec s0
  let x := prot s p
  let st := engineStatus s (standbyCode s p)
  let gen := tget 0 x.gens rec + 1
  if (plane s p).state = 0 then s
  else
    modProt p (fun y => { y with
      gens := tset y.gens rec gen
      rillQ := if x.rillUp && (st == 1 || st == 2) then y.rillQ ++ [rillMsg s p rec gen] else y.rillQ }) s

/-- A page of a plane names a descriptor (R240, R242). -/
def planeNames (s : State) (p d : Nat) : Bool :=
  [(plane s p).active, (plane s p).standby].any fun g => g.ctxs.any fun e => bit e.2 31 && e.2 % 0x4000 == d

/-- The positions of descriptors change: they are in the record of every plane that names one of them (R254). -/
def touchDescs (planes ds : List Nat) (s : State) : State :=
  planes.foldl (fun x p => if ds.any (planeNames s p) then touch p planeRecord x else x) s

/-- A state line of an engine that a mask corrupted and that has not been written again, and whether an injection did. -/
def badState (s : State) (code : Nat) : Option Bool :=
  (s.mem.spoilt.find? fun e => e.1 == 0x1000 + code && decide (stateLine 0 ≤ e.2.1)).map fun e => e.2.2

/-- The state lines of an engine hold no error any more: it has failed, or holds no state yet. -/
def clearState (code : Nat) (s : State) : State :=
  { s with mem := { s.mem with spoilt := s.mem.spoilt.filter fun e =>
    !(e.1 == 0x1000 + code && decide (stateLine 0 ≤ e.2.1)) } }

/-- A full copy of the mirrored state has been applied (R253, R257, R260). -/
def fullCopy (p : Nat) (s : State) : State :=
  let mine := s.tm.terms.filter fun e => e.1 / 1024 == p
  modProt p (fun x => { x with
    keepFails := 0
    applied := mine.foldl (fun t e => tset t (e.1 % 1024) (tget 0 x.gens (e.1 % 1024)))
      (tset x.gens planeRecord (tget 0 x.gens planeRecord))
    rillQ := []
    mirTerms := mine.map fun e => (e.1 % 1024, termRec s e.1 e.2)
    mirPlane := planeRec s p }) (recordWritten (standbyCode s p) planeRecord s)

/-- A full copy starts; the records that the standby has applied stay applied (R254, R257). -/
def copyAgain (p : Nat) (s : State) : State := modProt p (fun x => { x with keepFails := 0, rillQ := [] }) s

/-- A full copy starts to a standby that holds no record (R253, R254, R257). -/
def copyAnew (p : Nat) (s : State) : State := modProt p (fun x => { x with applied := [], mirTerms := [] }) (copyAgain p s)

end Sys2Proof.Machine
end

