-- ==== Sys2Proof/Machine/Wires.lean ====
section
/-!
DEFINITION. Lanes, line ports and host ports as other blocks use them: lane states (R136, R150), TX_EN (R143, R146),
the transmit queues of the host ports (R440 to R442) and the frames the chassis bus queues (R457 to R459).
-/
namespace Sys2Proof.Machine

/-! ### Lanes -/

/-- The receive lanes of the line ports (R136). -/
def lineRx : List Nat := [0x00, 0x01, 0x10, 0x11]

/-- The tap lanes (R136). -/
def tapLanes : List Nat := [0x02, 0x12]

/-- The transmit lanes of the line ports (R136). -/
def lineTx : List Nat := [0x40, 0x41, 0x50, 0x51]

/-- A host lane (R136). -/
def isHostLane (l : Nat) : Bool := decide (0x80 ≤ l ∧ l ≤ 0x8F)

/-- A lane ID that is not reserved (R136). -/
def isLane (l : Nat) : Bool := lineRx.contains l || tapLanes.contains l || lineTx.contains l || isHostLane l

/-- A lane with a transmitter. -/
def canSend (l : Nat) : Bool := lineTx.contains l || isHostLane l

/-- A lane with a receiver. -/
def canReceive (l : Nat) : Bool := lineRx.contains l || tapLanes.contains l || isHostLane l

/-- A continuous lane with a receiver (R136). -/
def isContinuous (l : Nat) : Bool := lineRx.contains l || isHostLane l

/-- The four lanes of a host port (R136). -/
def hostLanes (p : Nat) : List Nat := [0x80 + 4 * p, 0x81 + 4 * p, 0x82 + 4 * p, 0x83 + 4 * p]

/-- A lane as it is after reset (R139, R142, R150). -/
def laneReset (l : Nat) : Lane :=
  if tapLanes.contains l then { rxMode := 2, ctle := 6 }
  else if isHostLane l then { tx := { pre := 4, post := 8, amp := 12 } }
  else {}

def lane (s : State) (l : Nat) : Lane := tget (laneReset l) s.lane.lanes l

def modLane (l : Nat) (f : Lane → Lane) (s : State) : State :=
  { s with lane := { s.lane with lanes := tmod (laneReset l) s.lane.lanes l f } }

/-- The control pins of a line port or tap input. -/
def linePort (s : State) (p : Nat) : Port := tget {} s.lane.ports p

def modLinePort (p : Nat) (f : Port → Port) (s : State) : State :=
  { s with lane := { s.lane with ports := tmod {} s.lane.ports p f } }

/-- The two-wire master of a line port. -/
def optics (s : State) (p : Nat) : Optics := tget {} s.lane.optics p

def modOptics (p : Nat) (f : Optics → Optics) (s : State) : State :=
  { s with lane := { s.lane with optics := tmod {} s.lane.optics p f } }

/-- Lanes to SERVICE (R150). -/
def toService (ls : List Nat) (s : State) : State :=
  ls.foldl (fun x l => modLane l (fun y => { y with state := 1, elecIdle := !isHostLane l }) x) s

/-- The first lane of a list that is in TEST (R150). -/
def inTest (ls : List Nat) (s : State) : Option Nat := ls.find? fun l => (lane s l).state == 2

/-! ### TX_EN -/

/-- Drives TX_EN of a line port, at a line instant or at once; a held txen_polarity takes effect at the deassertion
(R143, R144, R146). -/
def setTxEn (p : Nat) (v : Bool) (at_ : Option Int) (s : State) : State :=
  if (linePort s p).txEn = v then s
  else emit (.txEn p v at_) (modLinePort p (fun x => { x with
    txEn := v
    txPol := if v then x.txPol else x.heldTxPol.getD x.txPol
    heldTxPol := if v then x.heldTxPol else none }) s)

/-- A near-end loopback runs on a line port (R153). -/
def nearLoop (s : State) (p : Nat) : Bool := (lane s p).loopback == 1 || (lane s (p + 0x40)).loopback == 1

/-- A burst may assert TX_EN of a line port (R143). -/
def burstEnables (s : State) (p : Nat) : Bool :=
  (optics s p).laser && (s.ctl.devState == .run || s.ctl.devState == .hush)

/-- TX_EN of a line port as its forcing or a burst may hold it, the latter from its lead to its lag (R143, R151, R154). -/
def txAllowed (s : State) (p : Nat) : Bool :=
  let l := lane s (p + 0x40)
  if l.state = 2 then
    l.txForce && !nearLoop s p && (optics s p).laser && (s.ctl.devState == .ready || s.ctl.devState == .run)
  else !(linePort s p).air.isEmpty && burstEnables s p

/-- One step of 1.6 ns, a nominal cycle of CK_TS, in ticks of 1/155,520 ns (R205). -/
def stepTicks : Nat := 248832

/-- The line instant of a plane now, in ticks: the last boundary and the cycles of CK_TS since it. -/
def lineNow (s : State) (p : Nat) : Nat := (plane s p).psyncAt + (s.time.cycles - (plane s p).psyncCycles) * stepTicks

/-- TX_EN of a line port that R143 allows to be active: at once in a burst, in its lead or lag and in a forcing; else at the
lead of the burst begun last, once the lag of the burst before it has passed. -/
def raiseTx (p : Nat) (s : State) : State :=
  let x := linePort s p
  let now := lineNow s (p / 16)
  if x.txEn then s
  else if (lane s (p + 0x40)).state = 2 ∨ x.lead ≤ now then setTxEn p true none s
  else
    let s1 := match (x.air.dropLast.filter fun t => decide (now < t)).getLast? with
      | none => s
      | some stop => setTxEn p false (some stop) (setTxEn p true none s)
    setTxEn p true (some x.lead) s1

/-- Brings TX_EN of a line port to what R143 allows now. -/
def settleTx (p : Nat) (s : State) : State := if txAllowed s p then raiseTx p s else setTxEn p false none s

/-- The device enters another state, and TX_EN of every line port with it what R143 allows there: a forcing lasts in READY
and RUN only (log 65). -/
def changeState (new : DevState) (cause : Option Cause) (s : State) : State :=
  lineRx.foldl (fun x p => settleTx p x) (setDevState new cause s)

/-- The bursts in flight on a line port are cut: TX_EN low and the transmit lane in electrical idle at once (R262). -/
def cutLane (p : Nat) (s : State) : State :=
  modLane (p + 0x40) (fun l => { l with elecIdle := true })
    (modLinePort p (fun x => { x with air := [] }) (setTxEn p false none s))

/-- Ends every burst and every forcing: TX_EN low on every line port (R42, R143, R154). -/
def dropTxEn (ports : List Nat) (s : State) : State :=
  ports.foldl (fun x p => modLinePort p (fun y => { y with air := [] })
    (setTxEn p false none (modLane (p + 0x40) (fun l => { l with txForce := false }) x))) s

/-- Lanes to IDLE; a line port whose transmit lane leaves service has TX_EN low (R150, R164). A host lane that was in TEST
keeps its patterns, its loopback and its checker lock (DESIGN CHOICE, log 85). -/
def toIdle (ls : List Nat) (s : State) : State :=
  ls.foldl (fun x l =>
    let y := modLane l (fun z => { z with
      state := 0
      elecIdle := true
      lpiTx := false
      lpiRx := false
      frozen := none }) x
    if lineTx.contains l then
      modLinePort (l - 0x40) (fun z => { z with lastEnd := none, latched := none, air := [] })
        (setTxEn (l - 0x40) false none y)
    else y) s

/-- SD of a line port, or SD_T of a tap input, is active after its polarity (R158, R183). -/
def sdActive (s : State) (port : Nat) : Bool := (linePort s port).sdBall != (linePort s port).sdPol

/-- A BM_RST pulse ends, and a held polarity takes effect (R146, R148). -/
def endBmRst (port : Nat) (s : State) : State :=
  if (linePort s port).bmRst then
    modLinePort port (fun x => { x with
      bmRst := false
      bmPol := x.heldBmPol.getD x.bmPol
      heldBmPol := none }) s
  else s

/-! ### Host ports -/

def hport (s : State) (p : Nat) : HPort := tget {} s.net.ports p

def modHPort (p : Nat) (f : HPort → HPort) (s : State) : State :=
  { s with net := { s.net with ports := tmod {} s.net.ports p f } }

def hclass (s : State) (p c : Nat) : HClass := tget {} (hport s p).classes c

def modHClass (p c : Nat) (f : HClass → HClass) (s : State) : State :=
  modHPort p (fun x => { x with classes := tmod {} x.classes c f }) s

/-- Adds to a counter of a host port; crossing 2^47 raises EV_HOST_COUNTER_HALF, and the counter rolls over (R449). -/
def countHost (p i k : Nat) (s : State) : State :=
  let old := tget 0 (hport s p).cnt i
  let s1 := modHPort p (fun x => { x with cnt := tset x.cnt i ((old + k) % 2 ^ 48) }) s
  if old < 2 ^ 47 ∧ 2 ^ 47 ≤ old + k then raise 0x0D03 p (le 1 i) none s1 else s1

/-- Frames of a class's queue have room for `n` more bytes (R440). -/
def classRoom (s : State) (p c n : Nat) : Bool :=
  decide (((hclass s p c).queue.map fun f => f.data.length).sum + n ≤ 65536)

/-- The tokens of a class now, in 1/5,000 byte: at 1 Mb/s one per cycle of CK_TS (R441). -/
def tokensNow (s : State) (p c : Nat) : Nat :=
  let k := hclass s p c
  min (k.burst * 5000) (k.tokens + k.rate * (s.time.cycles - k.since))

/-- What the policer charges a frame given without its FCS, in 1/5,000 byte (R441). -/
def frameCharge (bs : Bytes) : Nat := (bs.length + 4) * 5000

/-- The policer of a class passes a frame (R441). -/
def policed (s : State) (p c : Nat) (bs : Bytes) : Bool :=
  (hclass s p c).rate == 0 || decide (frameCharge bs ≤ tokensNow s p c)

/-- The highest class that holds a frame and is not paused (R440). -/
def readyClass (s : State) (p : Nat) : Option Nat :=
  [7, 6, 5, 4, 3, 2, 1, 0].find? fun c => !(hclass s p c).paused && !(hclass s p c).queue.isEmpty

/-- A frame to send ends transmit low-power idle, and the quiet of deep sleep with it (R149, R447). -/
def wakeTx (p : Nat) (s : State) : State :=
  if (readyClass s p).isSome then
    (hostLanes p).foldl (fun x l => modLane l (fun y =>
      { y with lpiTx := false, elecIdle := y.elecIdle && !y.lpiTx }) x) s
  else s

/-- The partner has woken: the receivers leave low-power idle, thaw and acquire again (R149, R447). -/
def wakeRx (p : Nat) (s : State) : State :=
  (hostLanes p).foldl (fun x l => modLane l (fun y => { y with lpiRx := false, frozen := none }) x) s

/-- A CTLE code and DFE taps that adaptation has reached: free values in their ranges (R142, log 14). -/
def adapted (s : State) : (Nat × List Int) × State :=
  let f := drawFree s
  let v := Config.freeNat f.1
  ((v % 16, (List.range 5).map fun i => ((v / 16 / 64 ^ i % 64 : Nat) : Int) - 32), f.2)

/-- Charges a frame and queues it (R440, R441). -/
def queueFrame (p c : Nat) (charge : Bool) (f : TxFrame) (s : State) : State :=
  wakeTx p (modHClass p c (fun k =>
    if charge ∧ k.rate ≠ 0 then { k with
      queue := k.queue ++ [f]
      tokens := tokensNow s p c - frameCharge f.data
      since := s.time.cycles }
    else { k with queue := k.queue ++ [f] }) s)

/-- A FORWARD or MIRROR frame reaches a host port (R440, R441). -/
def forwardFrame (p c : Nat) (bs : Bytes) (s : State) : State :=
  if (hport s p).state ≠ 2 then countHost p 11 1 s
  else if !classRoom s p c bs.length then countHost p 10 1 s
  else if !policed s p c bs then countHost p (16 + c) 1 s
  else queueFrame p c true { data := bs } s

/-- The default source address with its last byte (R442). -/
def defaultAddr (s : State) (n : Nat) : Bytes := [2] ++ be 4 (s.ident.serial.toNat % 2 ^ 32) ++ le 1 n

/-- A host port's own address (R442). -/
def portAddr (s : State) (p : Nat) : Bytes :=
  if zeroAt (hport s p).src 0 6 then defaultAddr s p else (hport s p).src

/-- An address field of 0 selects the broadcast address (R451, R462). -/
def orBroadcast (a : Bytes) : Bytes := if zeroAt a 0 6 then List.replicate 6 0xFF else a

/-- The addresses and the tag of a MIRROR or export frame (R442). -/
def ownHeader (s : State) (p tclass : Nat) : Bytes :=
  let h := hport s p
  let tag := if h.vlan = 0 then [] else be 2 0x8100 ++ be 2 (tclass * 0x2000 + h.vlan)
  orBroadcast h.dst ++ portAddr s p ++ tag

/-- A stamp enters the table of the port's last 64, with EV_PTP_TX_TS, which carries the tag of the HOST_PORT_SEND (R46, R448,
R455). -/
def enterStamp (p id : Nat) (sent : Bool) (cmd : Option Cause) (s : State) : State :=
  let t := if sent then s.time.ns else 0
  raise 0x0D05 p (le 2 id ++ le 1 (if sent then 1 else 2) ++ zeros 5 ++ le 8 t.toNat) cmd
    (modHPort p (fun x => { x with stamps := ({ id, sent, time := t } :: x.stamps).take 64 }) s)

/-- Discards a port's transmit queues (R438, R440): every frame counts in tx_drop_link, and one that was to be stamped
is entered as dropped (R455). -/
def discardQueues (p : Nat) (s : State) : State :=
  let fs := (List.range 8).flatMap fun c => (hclass s p c).queue
  let s1 := (List.range 8).foldl (fun x c => modHClass p c (fun k => { k with queue := [] }) x) s
  let s2 := if fs.length = 0 then s1 else countHost p 11 fs.length s1
  fs.foldl (fun x f => match f.stamp with
    | some id => enterStamp p id false f.cause x
    | none => x) s2

/-! ### The chassis bus -/

def modChassis (f : Chassis → Chassis) (s : State) : State := { s with net := { s.net with chassis := f s.net.chassis } }

/-- A chassis frame that is not sent: EV_CHASSIS_TX_FAIL (R457, R463, R465). -/
def chassisFail (kind trigger cause : Nat) (cmd : Option Cause) (s : State) : State :=
  raise 0x0D08 4 (le 1 kind ++ le 1 trigger ++ le 1 cause) cmd
    (modChassis (fun c => { c with txFailed := c.txFailed + 1 }) s)

/-- Queues a chassis frame where the queue has room; a full queue discards it (R457, R463). -/
def chassisQueue (f : ChFrame) (s : State) : State :=
  if s.net.chassis.queue.length < 16 then modChassis (fun c => { c with queue := c.queue ++ [f] }) s
  else chassisFail f.kind f.trigger 4 f.cause s

/-- A trigger that fired by rule or by CAP_TRIGGER goes out on the chassis bus when tx_trigger_mask names it (R459). -/
def shareTrigger (n arg : Nat) (t : Stamp) (cmd : Option Cause) (s : State) : State :=
  if s.net.chassis.enable && bit s.net.chassis.txMask n then
    chassisQueue { kind := 1, trigger := n, arg := BitVec.ofNat 32 arg, origin := BitVec.ofNat 64 t.ns, cause := cmd } s
  else s

end Sys2Proof.Machine
end

