-- ==== Sys2Proof/Machine/FaultEntry.lean ====
section
/-!
DEFINITION. Entry into FAULT, by hardware and by firmware (R42, R57, R481, R495, R498).
-/
namespace Sys2Proof.Machine

/-- What FAULT does to the line side: TX_EN low on every line port, and every Basin stopped (R42, R340). -/
def haltLine (s : State) : State := stopAllCaptures 6 (dropTxEn lineRx s)

/-- Hardware enters FAULT (R42): the recorder keeps the fault's own record first and then the change of state, neither
of which is an event entry, the captures that FAULT stops raise EV_CAP_STATE like any other event (R340; DESIGN CHOICE, log
83), vector 0 is signalled whether or not ring 0 is enabled (log 61), and the CP no longer runs. -/
def hardwareFault (inj : Bool) (code obj : Nat) (args : Bytes) (s : State) : State :=
  let old := s.ctl.devState
  let s1 := logOnly inj code obj args s
  let change := eventOf 0x0002 0 (le 1 (stateCode old) ++ le 1 (stateCode .fault)) none s
  let s2 := if old = .fault then s1 else recordEvent inj false change s1
  let s3 : State := { s2 with
    ctl := { s2.ctl with
      devState := .fault
      faultHw := true
      cpAlive := false
      exec := none }
    pwr := { s2.pwr with entry := none }
    log := journal s2 }
  signal 0 (haltLine s3)

/-- The change to FAULT as firmware reports it; `inj` says that an injection caused it (R507). -/
def faultState (inj : Bool) (s : State) : State :=
  raiseWith inj 0x0002 0 (le 1 (stateCode s.ctl.devState) ++ le 1 (stateCode .fault)) none
    (s.modCtl fun c => { c with devState := .fault })

/-- Firmware enters FAULT (R42, R57, R495): vector 0 is signalled with the entry of EV_STATE_CHANGED, or alone where the
ring takes none; a POWER_STATE under way ends with ST_INTERNAL, since firmware has found itself
inconsistent (R62). -/
def firmwareFault (inj : Bool) (description : Bytes) (s : State) : State :=
  let moving := match s.pwr.entry with
    | some e => e.cause.isSome
    | none => false
  let s1 := logOnly inj 0x0F05 0 (fit 32 description) s
  let s2 := faultState inj { s1 with pwr := { s1.pwr with entry := none }, log := journal s1 }
  let s3 := haltLine (if (ring s2 0).head = (ring s1 0).head then signal 0 s2 else s2)
  if moving then finishLater stInternal [] s3 else s3

/-- CP_WATCHDOG_EXPIRY (R42, R57): in any state; a watchdog that has expired is not served again before a reset and does
not expire twice (log 61). An injection withholds the service (R509, 0x1A). -/
def execCpWatchdogExpiry (s : State) : Host.Outcome State Fault Refusal :=
  if aonRuns s && (s.ctl.cpAlive || s.ctl.devState != .fault) then
    let o := occurrence 0x1A 0 s
    .next (hardwareFault o.1.isSome 0x0F03 0 (le 4 s.ctl.heartbeat.toNat) o.2)
  else .next s

/-- FIRMWARE_FAULT (R57): firmware detects a fault that it cannot contain. -/
def execFirmwareFault (description : Bytes) (s : State) : Host.Outcome State Fault Refusal :=
  if cpRuns s && s.ctl.devState != .fault then .next (firmwareFault false description s) else .next s

end Sys2Proof.Machine
end

