-- ==== Sys2Proof/Machine/Boot.lean ====
section
/-!
DEFINITION. Boot: images in the flash, the choice of the boot ROM, measurement, boot failure, and BOOT to READY
(R57, R76 to R86).
-/
namespace Sys2Proof.Machine

/-! ### Images (R78, R80) -/

/-- The flash offset of an image: 0 A, 1 B (R78). -/
def imageBase (i : Nat) : Nat := if i = 0 then 0x100000 else 0xD00000

/-- Bytes of the flash; an erased byte is 0xFF. -/
def flashBytes (s : State) (a n : Nat) : Bytes := Memory.readBytes 0xFF s.boot.flash a n

/-- Programs bytes into the flash: bits are only cleared (R80). -/
def program (a : Nat) (bs : Bytes) (s : State) : State :=
  let kept := List.zipWith (fun x y => x &&& y) (flashBytes s a bs.length) bs
  { s with boot := { s.boot with flash := Memory.writeBytes 0xFF s.boot.flash a kept } }

/-- The header of an image (R80). -/
def imageHeader (s : State) (i : Nat) : Bytes := flashBytes s (imageBase i) 256

/-- A header's CRC is taken with header_crc, sequence, state and trial_left as 0 (R80). -/
def headerCrc (h : Bytes) : Nat := crc32c (patch (patch h 4 (zeros 4)) 12 (zeros 6))

/-- Magic and header_crc check (R81). -/
def headerGood (h : Bytes) : Bool := u32 h 0 == 0x56455846 && u32 h 4 == headerCrc h

/-- A stage is absent, or lies in its image and its CRC checks (R80, R81, R86): a length of 0 marks it absent, and an entry
that lies outside the image, or an image above 12 MiB, fails. The stage's target and the lower bound of image_bytes are not
tested, because R81 names the CRCs only (DESIGN CHOICE, log 63). -/
def stageGood (s : State) (i k : Nat) : Bool :=
  let h := imageHeader s i
  let o := u32 h (24 + 16 * k)
  let n := u32 h (28 + 16 * k)
  n == 0 || (decide (256 ≤ o ∧ o + n ≤ u32 h 20 ∧ u32 h 20 ≤ 12582912) &&
    crc32c (flashBytes s (imageBase i + o) n) == u32 h (36 + 16 * k))

def stagesGood (s : State) (i : Nat) : Bool := [0, 1, 2, 3].all (stageGood s i)

/-- The SHA-384 digest of a stage as stored; 0 for an absent one, which is one of length 0 (R86, log 63). -/
def measure (s : State) (i k : Nat) : BitVec 384 :=
  let h := imageHeader s i
  let n := u32 h (28 + 16 * k)
  if n = 0 then 0 else sha384 (flashBytes s (imageBase i + u32 h (24 + 16 * k)) n)

/-! ### The choice (R81, R82) -/

/-- state and trial_left of a header. -/
def imageState (s : State) (i : Nat) : Nat := u8 (imageHeader s i) 16

def trialLeft (s : State) (i : Nat) : Nat := u8 (imageHeader s i) 17

/-- usable() of R81. -/
def usable (s : State) (i : Nat) : Bool :=
  headerGood (imageHeader s i) && (imageState s i == 0x3F || (imageState s i == 0x7F && trialLeft s i != 0))

/-- newer() of R81: sequence numbers wrap. -/
def newer (x y : Nat) : Bool :=
  let d := (x + 2 ^ 32 - y) % 2 ^ 32
  decide (1 ≤ d ∧ d ≤ 2 ^ 31 - 1)

/-- The images in the order in which they are tried (R81). -/
def imageOrder (s : State) : List Nat :=
  let b := newer (u32 (imageHeader s 1) 12) (u32 (imageHeader s 0) 12)
  (if b then [1, 0] else [0, 1]).filter (usable s)

/-- A trial whose boots are used up, the last resort of automatic selection (R81). -/
def exhausted (s : State) (i : Nat) : Bool :=
  headerGood (imageHeader s i) && imageState s i == 0x7F && trialLeft s i == 0 && stagesGood s i

/-- What the boot ROM decides: the image to run, and whether it uses up a trial boot; or the cause of R77. Of two
exhausted trials image A runs (log 63). -/
def chooseImage (s : State) : (Nat × Bool) ⊕ Nat :=
  match s.boot.strapBoot with
  | 1 => if headerGood (imageHeader s 0) && stagesGood s 0 then .inl (0, false) else .inr 3
  | 2 => if headerGood (imageHeader s 1) && stagesGood s 1 then .inl (1, false) else .inr 3
  | _ =>
    match (imageOrder s).find? (stagesGood s) with
    | some i => .inl (i, imageState s i == 0x7F)
    | none =>
      match [0, 1].find? (exhausted s) with
      | some i => .inl (i, false)
      | none => .inr 2

/-! ### Boot (R76, R77, R84 to R86) -/

/-- Boot cannot complete (R57, R77): FAULT with FAULT_HW set; without the flash no record is written. -/
def bootFails (flashAnswers : Bool) (cause : Nat) (s : State) : State :=
  let s0 : State := { s with ctl := { s.ctl with faultHw := true } }
  if flashAnswers then
    let s1 := setDevState .fault none (raise 0x0103 0 (le 1 cause) none s0)
    { s1 with log := journal s1 }
  else
    postEvent (eventOf 0x0002 0 (le 1 (stateCode .boot) ++ le 1 (stateCode .fault)) none s)
      (s0.modCtl fun c => { c with devState := .fault })

/-- The boot ROM runs an image: its stages are measured, and a trial boot is used up (R81, R86). -/
def runImage (i : Nat) (trial : Bool) (s : State) : State :=
  let s1 : State := { s with boot := { s.boot with
    image := i
    imageState := imageState s i
    bootOk := true
    trialBoot := trial
    meas := [0, 1, 2, 3].map fun k => (k, measure s i k) } }
  if trial then program (imageBase i + 17) [BitVec.ofNat 8 (trialLeft s i / 2)] s1 else s1

/-- What happens between the release of a reset and the start of firmware, as far as the world decides it (R76, R77,
R84, R385, R394). -/
def bootRom (env : BootEnv) (s : State) : State :=
  let s1 : State := { s with boot := { s.boot with
    pllLocked := env.pllLocks
    bootOk := false
    sramInit := s.boot.strapHwinit || s.boot.hwinitFlag } }
  if !env.pllLocks then s1
  else if !env.flashAnswers then bootFails false 0 s1
  else
    let s2 := env.failedStacks.foldl (fun x n => fenceStack 1 n x) s1
    match chooseImage s2 with
    | .inl (i, trial) => runImage i trial s2
    | .inr cause => bootFails true cause s2

/-- PLL_LOCK_TIMEOUT (R77): the system PLL has not locked 10 ms after the release of the reset. -/
def execPllLockTimeout (flashAnswers : Bool) (s : State) : Host.Outcome State Fault Refusal :=
  if s.ctl.devState == .boot && !s.boot.pllLocked && s.ctl.powered && !s.ctl.porLow then
    .next (bootFails flashAnswers 1 s)
  else .next s

/-- EV_OFF_ACCESS for the accesses to stopped islands, once Control runs again (R477, R489). -/
def reportOff (s : State) : State :=
  match s.pwr.offAddr with
  | none => s
  | some a =>
    raise 0x0E03 0 (le 1 a.1 ++ le 1 a.2.1 ++ zeros 2 ++ le 4 a.2.2 ++ le 4 s.pwr.offCount) none
      { s with pwr := { s.pwr with offAddr := none, offCount := 0 } }

/-- BOOT_COMPLETE (R57, R76, R80, R81): firmware is initialised. -/
def execBootComplete (s : State) : Host.Outcome State Fault Refusal :=
  if s.ctl.devState == .boot && s.boot.pllLocked && s.boot.bootOk && s.ctl.powered && !s.ctl.porLow then
    let s1 := s.modCtl fun c => { c with
      fwVersion := BitVec.ofNat 32 (u32 (imageHeader s s.boot.image) 8)
      cpAlive := true }
    let s2 := setDevState .ready none s1
    let s3 := if s.boot.trialBoot then
        raise 0x0102 0 [] none { s2 with boot := { s2.boot with trialBoot := false } }
      else s2
    .next (reportOff s3)
  else .next s

/-- CP_HEARTBEAT_TICK (R40). -/
def execCpHeartbeatTick (s : State) : Host.Outcome State Fault Refusal :=
  if cpRuns s then .next (s.modCtl fun c => { c with heartbeat := c.heartbeat + 1 }) else .next s

end Sys2Proof.Machine
end

