-- ==== Sys2Proof/Machine/CipherEngine.lean ====
section
/-!
DEFINITION. Keys and transfers of the cipher engine (chapter 14).
-/
namespace Sys2Proof.Machine

/-! ### Keys -/

/-- KEK_ESTABLISH (R412). -/
def kekForm (p : Bytes) : Bool := len 100 p && u8 p 0 == 4 && zeroAt p 97 3

def kekSpec : CmdSpec := { op := 0x0C01, smb := false, priv := true, legal := legalStd, form := kekForm }

/-- KEK_ESTABLISH (R411, R412): the one-step KDF of SP 800-56C with SHA-384 over the counter 1, the shared secret and
the FixedInfo; the first 256 bits are the KEK. -/
def kekAct (r : Req) (s : State) : Served :=
  let host := slice r.payload 0 97
  if !Config.p384Valid host then fail stBadParam s
  else
    let d := drawDrbg s
    let pub := fit 97 (Config.p384Public d.1)
    let fixedInfo := le 8 s.ident.serial.toNat ++ host ++ pub
    let k := sha384 (be 4 1 ++ Config.p384Shared d.1 host ++ fixedInfo)
    okWith (pub ++ zeros 3) { d.2 with cip := { d.2.cip with kek := some (k.extractLsb' 128 256) } }

def execKekEstablish (s : State) : Host.Outcome State Fault Refusal := .next (serve kekSpec kekAct s)

/-- The key that a blob of a class carries (R414, R433): 1 AES-128, 2 AES-256, 3 XTS-AES-128, 4 XTS-AES-256. -/
def keyKind (n blob : Nat) : Option Nat :=
  if n < 4096 then (if blob = 24 then some 1 else none)
  else if isStorageSlot n then (if blob = 40 then some 3 else if blob = 72 then some 4 else none)
  else if blob = 24 then some 1 else if blob = 40 then some 2 else none

/-- The default limit of a slot's class (R409). -/
def defaultLimit (n : Nat) : Nat := if n < 4096 then 0 else if isStorageSlot n then 2 ^ 36 else 2 ^ 32

/-- KEY_UNWRAP (R414). -/
def keyUnwrapForm (p : Bytes) : Bool :=
  decide (u16 p 0 ≤ 4607) && (keyKind (u16 p 0) (u8 p 2)).isSome && zeroAt p 3 5 &&
    decide (u64 p 8 ≤ defaultLimit (u16 p 0)) && len (16 + u8 p 2) p

def keyUnwrapSpec : CmdSpec :=
  { op := 0x0C02, smb := false, priv := false, legal := legalStd, form := keyUnwrapForm }

/-- A terminal ID from a flat index (R21). -/
def termId (f : Nat) : Nat := if f < 1024 then f else 0x8000 + (f - 1024)

/-- A terminal that exists. -/
def findTerm (s : State) (f : Nat) : Option Term := tfind s.tm.terms f

/-- The client a slot belongs to, none when nobody owns it (R410). -/
def slotOwner (s : State) (n : Nat) : Option Nat :=
  if n < 4096 then (findTerm s (n / 2)).map fun t => t.client
  else if (slot s n).state = 0 then none else some (slot s n).owner

/-- The request's client may change the slot (R55, R410). -/
def maySlot (r : Req) (s : State) (n : Nat) : Bool :=
  match slotOwner s n with
  | none => true
  | some c => mayChange r c

/-- A capture in WAIT, RUNNING or POST names the slot (R416). -/
def slotInCapture (s : State) (n : Nat) : Bool :=
  (List.range 4).any fun b =>
    let x := basin s b
    (recording x || x.state == 2) && x.cfg.encrypt && x.cfg.keySlot == n

/-- A running transfer names the slot (R416). -/
def slotInXfer (s : State) (n : Nat) : Bool := s.cip.xfers.any fun x => x.2.state == 1 && x.2.slot == n

/-- ST_STATE_CONFLICT naming a slot (R410). -/
def slotConflict (n : Nat) (s : State) : Served := conflict 0x0C (slot s n).state n s

/-- The KEK as bytes, most significant first. -/
def kekBytes (k : BitVec 256) : Bytes := be 32 k.toNat

/-- The two halves of an XTS key are equal (R414). -/
def halvesEqual (k : Bytes) : Bool := k.take (k.length / 2) == k.drop (k.length / 2)

/-- A line slot's terminal exists and is in key mode FIXED (R415). -/
def lineFixed (s : State) (n : Nat) : Bool := ((findTerm s (n / 2)).map fun t => t.fixedKey).getD false

/-- The state code of a terminal, 0 ABSENT (R192). -/
def termState (s : State) (f : Nat) : Nat := ((findTerm s f).map fun t => t.state).getD 0

/-- A line key is part of its terminal's mirrored record (R254). -/
def touchLine (n : Nat) (s : State) : State := if n < 4096 then touch (n / 2 / 1024) (n / 2 % 1024) s else s

/-- KEY_UNWRAP (R411, R414 to R416). -/
def keyUnwrapAct (r : Req) (s : State) : Served :=
  let p := r.payload
  let n := u16 p 0
  let kind := (keyKind n (u8 p 2)).getD 0
  if !maySlot r s n then fail stDenied s
  else match s.cip.kek with
    | none => conflict 0x0C 0 0xFFFF s
    | some kek =>
      match Config.aesUnwrap (kekBytes kek) (p.drop 16) with
      | none => fail stBadParam s
      | some raw =>
        let key := fit (u8 p 2 - 8) raw
        if 3 ≤ kind ∧ halvesEqual key then fail stBadParam s
        else if n < 4096 ∧ !lineFixed s n then conflict 0x05 (termState s (n / 2)) (termId (n / 2)) s
        else if 4096 ≤ n ∧ (slotInCapture s n ∨ slotInXfer s n) then slotConflict n s
        else ok (touchLine n (modSlot n (fun x => { x with
          state := 1
          kind
          owner := if x.state = 0 then r.client else x.owner
          usage := 0
          limit := if u64 p 8 = 0 then defaultLimit n else u64 p 8
          key
          told := false }) s))

def execKeyUnwrap (s : State) : Host.Outcome State Fault Refusal := .next (serve keyUnwrapSpec keyUnwrapAct s)

/-- A slot and two reserved bytes (R416, R433). -/
def slotForm (p : Bytes) : Bool := len 4 p && decide (u16 p 0 ≤ 4607) && zeroAt p 2 2

def keyZeroiseSpec : CmdSpec := { op := 0x0C03, smb := false, priv := false, legal := legalStd, form := slotForm }

/-- KEY_ZEROISE (R416): the usage count stays until the next unwrap. -/
def keyZeroiseAct (r : Req) (s : State) : Served :=
  let n := u16 r.payload 0
  if !maySlot r s n then fail stDenied s
  else if 4096 ≤ n ∧ (slotInCapture s n ∨ slotInXfer s n) then slotConflict n s
  else ok (touchLine n (modSlot n (fun x => { x with state := 0, kind := 0, key := [] }) s))

def execKeyZeroise (s : State) : Host.Outcome State Fault Refusal := .next (serve keyZeroiseSpec keyZeroiseAct s)

def keyStatusSpec : CmdSpec := { op := 0x0C04, smb := true, priv := false, legal := readyToFault, form := slotForm }

/-- The 24 bytes of KEY_STATUS (R433): no key material. -/
def keyStatusBytes (s : State) (n : Nat) : Bytes :=
  let x := slot s n
  le 2 n ++ le 1 x.state ++ le 1 x.kind ++ le 1 ((slotOwner s n).getD 0) ++
    le 1 (b2n (slotInCapture s n) + 2 * b2n (slotInXfer s n)) ++ zeros 2 ++ le 8 x.usage ++
    le 8 (if n < 4096 then 0 else x.limit)

def keyStatusAct (r : Req) (s : State) : Served := okWith (keyStatusBytes s (u16 r.payload 0)) s

def execKeyStatus (s : State) : Host.Outcome State Fault Refusal := .next (serve keyStatusSpec keyStatusAct s)

/-! ### Starting a transfer -/

/-- BUNDLE_LOAD (R424). -/
def bundleLoadForm (p : Bytes) : Bool :=
  len 56 p && isTransferSlot (u16 p 0) && decide (1 ≤ u8 p 2 ∧ u8 p 2 ≤ 31) && zeroAt p 3 1 &&
    decide (1 ≤ u32 p 4 ∧ u32 p 4 ≤ 10000) && u64 p 8 % segBytes == 0 && decide (1 ≤ u64 p 16) && zeroAt p 36 4

def bundleLoadSpec : CmdSpec :=
  { op := 0x0C05, smb := false, priv := false, legal := legalStd, form := bundleLoadForm }

/-- The first transfer ID that is not running (R423). -/
def freeXfer (s : State) : Option Nat := [0, 1, 2, 3].find? fun n => (xfer s n).state != 1

/-- What R416 and R420 check of a slot before a use of it starts. -/
def useRefusal (n : Nat) (s : State) : Option Served :=
  if (slot s n).state = 0 then some (slotConflict n s)
  else if (slot s n).state = 2 then some (fail stKeyExhausted s)
  else none

/-- The checks of R416, R420 and R423 that every transfer command makes; the transfer ID when they pass. -/
def xferChecks (r : Req) (n ringNo : Nat) (dir : Bool) (s : State) (go : Nat → Served) : Served :=
  if !maySlot r s n then fail stDenied s
  else match useRefusal n s with
    | some x => x
    | none =>
      match freeXfer s with
      | none => fail stNoResource s
      | some id =>
        match ringRefusal s ringNo dir with
        | some st => conflict 0x0C st ringNo s
        | none => go id

/-- The additional data of a sealed bundle (R424). -/
def bundleAad (s : State) (offset length : Nat) : Bytes := le 8 s.ident.serial.toNat ++ le 8 offset ++ le 8 length

/-- BUNDLE_LOAD (R423 to R425): the touched segments become PENDING and the invocation is counted. -/
def bundleLoadAct (r : Req) (s : State) : Served :=
  let p := r.payload
  let n := u16 p 0
  xferChecks r n (u8 p 2) true s fun id =>
    let x : Xfer := {
      state := 1
      kind := 1
      slot := n
      ring := u8 p 2
      offset := u64 p 8
      length := u64 p 16
      iv := slice p 24 12
      tag := slice p 40 16
      key := (slot s n).key
      first := u64 p 8 / segBytes
      cmd := causeOf r }
    if s.up.poolSegs * segBytes < u64 p 8 + u64 p 16 then fail stBadParam s
    else match (touched x).find? fun g => tget 0 s.up.poolState g == 1 with
      | some g => conflict 0x06 1 g s
      | none =>
        if (touched x).any (fenced s) then fail stFenced s
        else okWith (le 1 id ++ zeros 3) (useSlot n 1 (setPool (touched x) 1 (modXfer id (fun _ => x) s)))

def execBundleLoad (s : State) : Host.Outcome State Fault Refusal := .next (serve bundleLoadSpec bundleLoadAct s)

/-- SEG_SEAL_OUT (R428). -/
def sealForm (p : Bytes) : Bool :=
  len 16 p && isTransferSlot (u16 p 0) && decide (1 ≤ u8 p 2 ∧ u8 p 2 ≤ 31) && decide (u8 p 3 ≤ 1) &&
    (if u8 p 3 = 0 then decide (u8 p 4 ≤ 3) else u8 p 4 == 0) && zeroAt p 5 3 &&
    decide (1 ≤ u32 p 12 ∧ u32 p 12 ≤ 10000)

def sealSpec : CmdSpec := { op := 0x0C06, smb := false, priv := false, legal := legalStd, form := sealForm }

/-- The IV of a seal (R428). -/
def sealIv (s : State) (usage : Nat) : Bytes := le 4 s.ident.serial.toNat ++ le 8 usage

/-- The 64-byte seal header (R428). -/
def sealHeader (s : State) (source b seg ordinal owner : Nat) (iv : Bytes) (n : Nat) : Bytes :=
  le 4 0x4C414553 ++ le 1 1 ++ le 1 source ++ le 1 b ++ zeros 1 ++ le 8 s.ident.serial.toNat ++ le 4 seg ++
    le 4 ordinal ++ le 4 owner ++ le 4 segBytes ++ iv ++ le 2 n ++ zeros 18

/-- Starts a seal-out of a segment, which it pins (R349, R428). The header stands in `cipher` until the object is
built. -/
def startSeal (r : Req) (id seg ordinal owner : Nat) (s : State) : Served :=
  let p := r.payload
  let n := u16 p 0
  let iv := sealIv s (slot s n).usage
  let x : Xfer := {
    state := 1
    kind := 2
    slot := n
    ring := u8 p 2
    length := segBytes
    iv
    key := (slot s n).key
    first := seg
    ordinal
    offset := u8 p 4
    pin := some seg
    cipher := sealHeader s (u8 p 3) (u8 p 4) seg ordinal owner iv n
    cmd := causeOf r }
  okWith (le 1 id ++ zeros 3 ++ iv) (useSlot n 1 (modXfer id (fun _ => x) s))

/-- SEG_SEAL_OUT (R428): a closed retained segment of a capture, or a segment of a job's results. A segment whose
storage key is gone cannot be read (R416). -/
def sealAct (r : Req) (s : State) : Served :=
  let p := r.payload
  xferChecks r (u16 p 0) (u8 p 2) false s fun id =>
    if u8 p 3 = 0 then
      let b := basin s (u8 p 4)
      match b.segs.find? fun g => g.ord == u32 p 8 && g.closed with
      | none => fail stBadParam s
      | some g =>
        if g.enc ∧ (slot s b.cfg.keySlot).state = 0 then slotConflict b.cfg.keySlot s
        else startSeal r id g.seg g.ord b.captureId.toNat s
    else match jobHolder s (u32 p 8) with
      | none => fail stBadParam s
      | some j => startSeal r id (u32 p 8) 0 j s

def execSegSealOut (s : State) : Host.Outcome State Fault Refusal := .next (serve sealSpec sealAct s)

/-! ### Status -/

/-- A transfer ID and three reserved bytes (R429). -/
def xferStatusForm (p : Bytes) : Bool := len 4 p && decide (u8 p 0 ≤ 3) && zeroAt p 1 3

def xferStatusSpec : CmdSpec :=
  { op := 0x0C07, smb := false, priv := false, legal := readyToFault, form := xferStatusForm }

/-- XFER_STATUS (R429): the status is the transfer's outcome once it has ended. -/
def xferStatusAct (r : Req) (s : State) : Served :=
  let n := u8 r.payload 0
  let x := xfer s n
  .done s (if x.state = 2 then x.status else stOk)
    (le 1 n ++ le 1 x.state ++ le 1 x.kind ++ le 1 x.cause ++ le 2 x.slot ++ zeros 2 ++ le 8 x.bytes ++
      le 4 x.first ++ zeros 4)

def execXferStatus (s : State) : Host.Outcome State Fault Refusal := .next (serve xferStatusSpec xferStatusAct s)

/-- Four reserved bytes (R434). -/
def reserved4 (p : Bytes) : Bool := len 4 p && zeroAt p 0 4

def cipherStatusSpec : CmdSpec :=
  { op := 0x0C08, smb := true, priv := false, legal := readyToFault, form := reserved4 }

/-- CIPHER_STATUS (R434). -/
def cipherStatusAct (_ : Req) (s : State) : Served :=
  okWith (le 1 (b2n s.cip.kek.isSome) ++ le 1 (b2n s.cip.entropyBad) ++
    le 1 ((List.range 4).filter fun n => (xfer s n).state == 1).length ++ zeros 5 ++ le 8 s.cip.health ++
    le 8 s.cip.reseeds ++ le 8 s.cip.expired) s

def execCipherStatus (s : State) : Host.Outcome State Fault Refusal :=
  .next (serve cipherStatusSpec cipherStatusAct s)

/-! ### The run of a transfer -/

/-- The bytes of a whole object that are ciphertext among its first `n` (R428, R429). -/
def sealedBytes (n : Nat) : Nat := min (n - 64) segBytes

/-- The key and the class of an encrypted capture segment: none when the segment is in the clear. -/
def segKey (s : State) (seg : Nat) : Option Bytes :=
  match bufferHolder s seg with
  | none => none
  | some b =>
    if (basin s b).segs.any fun g => g.seg == seg && g.enc then some (slot s (basin s b).cfg.keySlot).key else none

/-- Seals the segment into the object to send: header, ciphertext, tag (R428). A seal-out ends under causes 2 and 3 only,
so an uncorrectable block fences its segment and stands in the object as free bytes (R390, log 75). -/
def buildSeal (n : Nat) (s : State) : State :=
  let x := xfer s n
  let k := segKey s x.first
  let a := x.first * segBytes
  let r := readAll 2 (plainView s k.isSome (k.getD []) a segBytes) (blocksOf a segBytes) s
  let c := fit segBytes (Config.gcmCrypt x.key x.iv r.1)
  modXfer n (fun y => { y with
    object := x.cipher ++ c ++ fit 16 (Config.gcmTag x.key x.iv x.cipher c)
    built := true }) r.2

/-- One buffer of a seal-out is filled and completed (R343, R428). -/
def sealBuffer (n : Nat) (s : State) : State :=
  let x := xfer s n
  let whole := 64 + segBytes + 16
  let d := descBuf s x.ring 0
  let chunk := x.object.take d.2
  let sent := whole - x.object.length + chunk.length
  let first := x.object.length == whole
  let last := sent == whole
  let s1 := hostWrite d.1 chunk s
  let s2 := advanceHead x.ring 1
    (complete x.ring 0 chunk.length (1 + 2 * b2n first + 4 * b2n last) x.offset 0 0 0 s1)
  let s3 := modXfer n (fun y => { y with object := y.object.drop d.2, bytes := sealedBytes sent }) s2
  if last then xferDone n s3 else s3

/-- One buffer of a load is consumed (R423, R425, R426). -/
def loadBuffer (n : Nat) (s : State) : State :=
  let x := xfer s n
  let d := hostRead s (descAddr s x.ring 0) 32
  let used := u32 d 16
  let eop := bit (u8 d 20) 2
  let total := x.bytes + used
  let mark := advanceHead x.ring 1 (hostWrite (descAddr s x.ring 0 + 20) (le 1 (u8 d 20 ||| 1)) s)
  if x.length < total ∨ (eop ∧ total < x.length) then xferFail n 5 stBadParam mark
  else
    let cipher := x.cipher ++ hostRead s (u64 d 0) used
    let plain := (fit total (Config.gcmCrypt x.key x.iv cipher)).drop x.bytes
    let s1 := modXfer n (fun y => { y with cipher, bytes := total, eop }) mark
    narrowWrite (x.offset + x.bytes) plain s1

/-- The next descriptor of a load is usable (R423). -/
def loadUsable (s : State) (x : Xfer) : Bool :=
  let d := hostRead s (descAddr s x.ring 0) 32
  decide (1 ≤ u32 d 16 ∧ u32 d 16 ≤ u32 d 8)

/-- The islands a transfer needs run. -/
def xferRuns (s : State) (n : Nat) : Bool :=
  (xfer s n).state == 1 && !(xfer s n).filling && s.ctl.devState != .still

/-- One buffer of a running transfer moves, where its ring has one (R423). -/
def moveBuffer (n : Nat) (s : State) : State :=
  let x := xfer s n
  if x.kind = 1 then loadBuffer n s
  else
    let s1 := if x.built then s else buildSeal n s
    if (descBuf s1 x.ring 0).2 ≠ 0 then sealBuffer n s1 else s1

/-- XFER_BUFFER (R402, R423, R426): a corrupted line of the DMA complex halts the channel and ends the transfer. Transfer `x`
uses the DMA complex of Parterre x modulo 2 (DESIGN CHOICE, log 84). -/
def execXferBuffer (xfer : Nat) (s : State) : Host.Outcome State Fault Refusal :=
  let x := Machine.xfer s xfer
  if !xferRuns s xfer ∨ descCount s x.ring = 0 ∨ channelHalted s (xfer % 2) (8 + xfer) then .next s
  else if x.kind = 1 ∧ (x.eop ∨ !loadUsable s x) then .next s
  else
    let k := sramWrite (0x8000 + xfer % 2) s
    if k.1.1 = 0 then .next (moveBuffer xfer k.2)
    else
      let transfer := if x.kind = 1 then 4 else 1
      .next (xferFail xfer 3 stTimeout (haltChannel k.1.2 (xfer % 2) (8 + xfer) transfer k.2))

/-- BUNDLE_TAG_CHECK (R425): steps 3 to 5. Where the zeros of step 4 meet an uncorrectable block, the load ends under
cause 4 (R426). -/
def execBundleTagCheck (xfer : Nat) (s : State) : Host.Outcome State Fault Refusal :=
  let x := Machine.xfer s xfer
  if !xferRuns s xfer ∨ x.kind ≠ 1 ∨ !x.eop then .next s
  else
    let o := occurrence 0x0C 0 s
    let good := fit 16 (Config.gcmTag x.key x.iv (bundleAad s x.offset x.length) x.cipher) == x.tag
    if o.1.isSome ∨ !good then .next (xferFail xfer 1 stTagFail o.2)
    else
      let stop := x.offset + x.length
      let tail := (segBytes - stop % segBytes) % segBytes
      let edge := (64 - stop % 64) % 64
      let s1 := storeZero [] (stop + edge) (tail - edge) (narrowWrite stop (zeros edge) o.2)
      if (Machine.xfer s1 xfer).filling then .next s1 else .next (xferDone xfer (setPool (touched x) 0 s1))

/-- ZERO_FILL_DONE (R425, R426): the touched segments are zeros; a fenced one stays fenced. -/
def execZeroFillDone (xfer : Nat) (s : State) : Host.Outcome State Fault Refusal :=
  let x := Machine.xfer s xfer
  if x.state ≠ 1 ∨ !x.filling ∨ s.ctl.devState = .still then .next s
  else .next (xferDone xfer
    (((touched x).filter fun g => !fenced s g).foldl (fun y g => storeZero [] (g * segBytes) segBytes y) s))

/-- A usable descriptor waits in the ring of a transfer (R423). -/
def bufferWaits (s : State) (n : Nat) : Bool :=
  let x := xfer s n
  descCount s x.ring != 0 && (if x.kind = 1 then loadUsable s x else (descBuf s x.ring 0).2 != 0)

/-- XFER_STALL (R426): stall_ms without a usable descriptor. -/
def execXferStall (xfer : Nat) (s : State) : Host.Outcome State Fault Refusal :=
  if !xferRuns s xfer ∨ (Machine.xfer s xfer).eop ∨ bufferWaits s xfer then .next s
  else .next (xferFail xfer 2 stTimeout s)

/-- DRBG_RESEED (R430, R434): the health test of every second; `failed` is 0, or the test that failed: 1 repetition
count, 2 adaptive proportion. -/
def execDrbgReseed (failed : Nat) (s : State) : Host.Outcome State Fault Refusal :=
  if s.ctl.devState = .still then .next s
  else
    let o := occurrence 0x19 0 s
    let test := if failed ≠ 0 then failed else (o.1.map BitVec.toNat).getD 0
    if test = 0 then .next { o.2 with cip := { o.2.cip with
      entropyBad := false
      reseeds := (o.2.cip.reseeds + 1) % 2 ^ 48 } }
    else .next (raiseWith o.1.isSome 0x0C04 0 (le 1 test) none { o.2 with cip := { o.2.cip with
      entropyBad := true
      health := (o.2.cip.health + 1) % 2 ^ 48 } })

end Sys2Proof.Machine
end

