-- ==== Sys2Proof/Machine/Captures.lean ====
section
/-!
DEFINITION. The capture commands (R340, R350 to R355) and the events of the capture engines: decisions, time-outs, FOLD
windows, EPOCH and GAP records, and the Weirs (R320, R330, R331, R336, R337).
-/
namespace Sys2Proof.Machine

/-! ### CAP_CONFIG (R352) -/

def int32 (p : Bytes) (o : Nat) : Int := signed 32 (u32 p o)

/-- The combination of modes, options and triggers (R352). -/
def capTriggers (p : Bytes) : Bool :=
  decide (u8 p 8 ≤ 2) && (u16 p 12 == 0 || u8 p 8 == 2) && (u16 p 10 != 0 || u8 p 8 != 1) &&
    (if u8 p 8 = 2 then decide (u64 p 16 ≤ u32 p 4 * segBytes) else u64 p 16 == 0)

def capConfigForm (p : Bytes) : Bool :=
  let down := decide (u8 p 0 ≤ 1)
  len 40 p && decide (u8 p 0 ≤ 3) && decide (1 ≤ u8 p 1 ∧ u8 p 1 ≤ 4) && decide (u8 p 2 ≤ 4) &&
    (u8 p 1 == 3 || u8 p 2 == 0) && decide (u8 p 3 < 32) && (down || field (u8 p 3) 2 2 == 0) &&
    decide (1 ≤ u32 p 4 ∧ u32 p 4 ≤ 16384) && zeroAt p 9 1 && zeroAt p 14 2 && capTriggers p &&
    decide (1 ≤ u32 p 24 ∧ u32 p 24 ≤ 1000000) &&
    (isStorageSlot (u16 p 28) || (u16 p 28 == 0 && !bit (u8 p 3) 1)) && zeroAt p 30 2 &&
    (if down then u32 p 32 == 0 else decide (-1000000 ≤ int32 p 32 ∧ int32 p 32 ≤ 1000000)) && zeroAt p 36 4

def capConfigSpec : CmdSpec :=
  { op := 0x0901, smb := false, priv := false, legal := legalStd, form := capConfigForm }

/-- The configuration a payload holds. -/
def capCfgOf (p : Bytes) : CapCfg :=
  { mode := u8 p 1
    headN := u8 p 2
    coarse := bit (u8 p 3) 0
    encrypt := bit (u8 p 3) 1
    ploam := bit (u8 p 3) 2
    bwmap := bit (u8 p 3) 3
    stopFull := bit (u8 p 3) 4
    segments := u32 p 4
    trigMode := u8 p 8
    startMask := u16 p 10
    stopMask := u16 p 12
    postBytes := u64 p 16
    foldUs := u32 p 24
    keySlot := u16 p 28
    tapOffset := int32 p 32 }

/-- The request's client may change the capture of a Basin; a Basin in NONE belongs to no one (R55, R351). -/
def mayCapture (r : Req) (x : Basin) : Bool := x.state == 0 || mayChange r x.client

/-- CAP_CONFIG (R340, R352): the buffer of an earlier capture is released first, and the new one is made of the lowest
free segments (R321). -/
def capConfigAct (r : Req) (s : State) : Served :=
  let p := r.payload
  let b := u8 p 0
  let x := basin s b
  if !mayCapture r x then fail stDenied s
  else if x.state ≠ 0 ∧ x.state ≠ 1 ∧ x.state ≠ 5 then conflict 0x09 x.state b s
  else
    let s1 := modBasin b (fun y => { y with buffer := [], segs := [] }) s
    match lowestFree s1 (u32 p 4) with
    | none => fail stNoResource s
    | some g =>
      let s2 := modBasin b (fun y => { y with client := r.client, cfg := capCfgOf p, buffer := g }) s1
      ok (setCapState b 1 0 (causeOf r) (releaseSegments x.buffer s2))

def execCapConfig (s : State) : Host.Outcome State Fault Refusal := .next (serve capConfigSpec capConfigAct s)

/-! ### CAP_START, CAP_STOP, CAP_TRIGGER, CAP_RELEASE -/

/-- A Basin and three reserved bytes (R351). -/
def basinForm (p : Bytes) : Bool := len 4 p && decide (u8 p 0 ≤ 3) && zeroAt p 1 3

def capStartSpec : CmdSpec :=
  { op := 0x0902, smb := false, priv := false, legal := fun d => d == .run || d == .hush, form := basinForm }

/-- A Basin as CAP_START leaves it before it waits or runs: ordinals, seq and counters begin anew (R322, R324, R340,
R354); the interval of EV_CAP_GAP and what has been lost since the last such event go on (R337, R356). -/
def freshBasin (x : Basin) : Basin :=
  { state := x.state
    client := x.client
    cfg := x.cfg
    captureId := x.captureId + 1
    stopCause := x.stopCause
    buffer := x.buffer
    lostEvFrames := x.lostEvFrames
    lostEvBytes := x.lostEvBytes
    gapEvAt := x.gapEvAt }

/-- The exports that read the capture which gives way to a new one (R346). -/
def outdate (b : Nat) (old : Basin) (s : State) : State :=
  let mark : Export → Export := fun e =>
    if e.basin = b ∧ e.stale = none then { e with stale := some (old.nextSeq, old.captureId) } else e
  { s with cap := { s.cap with exports := s.cap.exports.map fun e => (e.1, mark e.2) } }

/-- CAP_START (R340, R351). -/
def capStartAct (r : Req) (s : State) : Served :=
  let b := u8 r.payload 0
  let x := basin s b
  let k := slot s x.cfg.keySlot
  if !mayCapture r x then fail stDenied s
  else if x.state ≠ 1 ∧ x.state ≠ 5 then conflict 0x09 x.state b s
  else if s.ctl.devState = .hush ∧ x.cfg.mode ≠ 1 then conflict 0x09 x.state b s
  else if x.cfg.encrypt ∧ k.state = 2 then fail stKeyExhausted s
  else if x.cfg.encrypt ∧ k.state = 0 then slotConflict x.cfg.keySlot s
  else
    let s1 := outdate b x (modBasin b freshBasin s)
    if x.cfg.trigMode = 1 ∨ (x.cfg.trigMode = 2 ∧ x.cfg.startMask ≠ 0) then ok (setCapState b 2 0 (causeOf r) s1)
    else ok (beginCapture b (nowStamp s1) (causeOf r) s1)

def execCapStart (s : State) : Host.Outcome State Fault Refusal := .next (serve capStartSpec capStartAct s)

def capStopSpec : CmdSpec := { op := 0x0903, smb := false, priv := false, legal := legalStd, form := basinForm }

/-- CAP_STOP (R340, R351). -/
def capStopAct (r : Req) (s : State) : Served :=
  let b := u8 r.payload 0
  let x := basin s b
  if !mayCapture r x then fail stDenied s
  else if x.state ≠ 2 ∧ x.state ≠ 3 ∧ x.state ≠ 4 then conflict 0x09 x.state b s
  else ok (stopCapture b 1 (causeOf r) s)

def execCapStop (s : State) : Host.Outcome State Fault Refusal := .next (serve capStopSpec capStopAct s)

/-- trigger, three reserved bytes and arg (R351). -/
def capTriggerForm (p : Bytes) : Bool := len 8 p && decide (u8 p 0 ≤ 15) && zeroAt p 1 3

def capTriggerSpec : CmdSpec :=
  { op := 0x0904, smb := false, priv := false, legal := legalStd, form := capTriggerForm }

/-- CAP_TRIGGER (R338, R459): the trigger fires at device time now, and goes out on the chassis bus when the mask names
it. -/
def capTriggerAct (r : Req) (s : State) : Served :=
  let n := u8 r.payload 0
  let arg := u32 r.payload 4
  let t := nowStamp s
  ok (shareTrigger n arg t (causeOf r) (fireTrigger n 1 0xFFFF arg 0 none t (causeOf r) s))

def execCapTrigger (s : State) : Host.Outcome State Fault Refusal := .next (serve capTriggerSpec capTriggerAct s)

def capReleaseSpec : CmdSpec := { op := 0x0905, smb := false, priv := false, legal := legalStd, form := basinForm }

/-- A segment of a Basin is pinned or being exported (R349). -/
def capInUse (s : State) (b : Nat) : Bool :=
  (basin s b).buffer.any (pinned s) || s.cap.exports.any fun e => e.2.basin == b

/-- CAP_RELEASE (R340, R349, R391). -/
def capReleaseAct (r : Req) (s : State) : Served :=
  let b := u8 r.payload 0
  let x := basin s b
  if !mayCapture r x then fail stDenied s
  else if capInUse s b then fail stBusy s
  else if x.state ≠ 1 ∧ x.state ≠ 5 then conflict 0x09 x.state b s
  else
    let s1 := modBasin b (fun y => { y with buffer := [], segs := [] }) s
    ok (releaseSegments x.buffer (setCapState b 0 0 (causeOf r) s1))

def execCapRelease (s : State) : Host.Outcome State Fault Refusal := .next (serve capReleaseSpec capReleaseAct s)

/-! ### Status and windows -/

def capStatusSpec : CmdSpec :=
  { op := 0x0906, smb := true, priv := false, legal := readyToFault, form := basinForm }

/-- The 88 bytes of CAP_STATUS (R354); without a segment the position is ordinal 0, offset 64 (log 36). -/
def capStatusBytes (b : Nat) (x : Basin) : Bytes :=
  let g := x.segs.getLast?.getD {}
  le 1 b ++ le 1 x.state ++ le 1 x.stopCause ++
    le 1 (b2n x.triggered + 2 * b2n x.fallback + 4 * b2n x.cfg.encrypt) ++ le 4 x.captureId.toNat ++
    le 4 x.buffer.length ++ le 4 g.ord ++ le 4 g.used ++ le 4 x.nextSeq.toNat ++ le 8 x.trigTime.toNat ++
    ([32, 40, 48, 56, 64, 72].flatMap fun o => le 8 (tget 0 x.cnt o)) ++ zeros 8

def capStatusAct (r : Req) (s : State) : Served :=
  okWith (capStatusBytes (u8 r.payload 0) (basin s (u8 r.payload 0))) s

def execCapStatus (s : State) : Host.Outcome State Fault Refusal := .next (serve capStatusSpec capStatusAct s)

def capSegmentsForm (p : Bytes) : Bool := len 8 p && decide (u8 p 0 ≤ 3) && zeroAt p 1 3

def capSegmentsSpec : CmdSpec :=
  { op := 0x0907, smb := false, priv := false, legal := readyToFault, form := capSegmentsForm }

/-- CAP_SEGMENTS (R355). -/
def capSegmentsAct (r : Req) (s : State) : Served :=
  let b := u8 r.payload 0
  let gs := ((basin s b).segs.filter fun g => decide (u32 r.payload 4 ≤ g.ord)).take 28
  okWith (le 1 b ++ zeros 3 ++ le 4 gs.length ++ gs.flatMap fun g => le 4 g.ord ++ le 4 g.seg) s

def execCapSegments (s : State) : Host.Outcome State Fault Refusal := .next (serve capSegmentsSpec capSegmentsAct s)

def windowForm (p : Bytes) : Bool := len 8 p && decide (u8 p 0 ≤ 15) && zeroAt p 1 3

def windowSpec : CmdSpec := { op := 0x0909, smb := false, priv := false, legal := legalStd, form := windowForm }

/-- CAP_WINDOW_MAP (R350). -/
def windowAct (r : Req) (s : State) : Served :=
  let w := u8 r.payload 0
  let g := u32 r.payload 4
  if g = 0xFFFFFFFF then ok { s with cap := { s.cap with windows := tdel s.cap.windows w } }
  else if segCount s ≤ g then fail stBadParam s
  else ok { s with cap := { s.cap with windows := tset s.cap.windows w g } }

def execCapWindowMap (s : State) : Host.Outcome State Fault Refusal := .next (serve windowSpec windowAct s)

/-! ### The events of a Basin -/

/-- The capture engines run: not in BOOT or STILL (R28, R466). -/
def basinsRun (s : State) : Bool :=
  s.ctl.powered && !s.ctl.porLow && s.ctl.devState != .boot && s.ctl.devState != .still && islandUp 3 s

/-- A staged item whose decision or whose 2 µs have come is committed; a frame of a tap burst waits until the records of the
bursts before its own have been committed (R320, R328). -/
def commitStaged (b : Nat) (returned : Bool) (i : StageItem) (s : State) : State :=
  if waitsBurst s b i.id then
    let wait : StageItem → StageItem := fun k => if k.id == i.id then { k with due := some (k.due.getD returned) } else k
    modBasin b (fun x => { x with staging := x.staging.map wait }) s
  else settleAll (putRec b) b (storeDecided (putRec b) b returned i (unstage b i.id s))

/-- BASIN_DECISION (R294, R320, R334, R335): the item with a decision leaves staging and is committed in the chosen
form; `returned` says whether a Weir it needs returns the record at once. -/
def execBasinDecision (basin item : Nat) (returned : Bool) (s : State) : Host.Outcome State Fault Refusal :=
  match staged s basin item with
  | none => .next s
  | some i =>
    if i.decided.isSome && recording (Machine.basin s basin) && basinsRun s then
      .next (commitStaged basin returned i s)
    else .next s

/-- 2 µs have passed since the end of an item of a Basin's source that the classifier has not decided (R294). -/
def passDeadline (src item : Nat) (s : State) : State :=
  { s with cls := { s.cls with items := s.cls.items.map fun i =>
    if i.source == src && i.id == item then { i with late := true } else i } }

/-- STAGING_TIMEOUT (R294, R320): an item without a decision is stored in the Basin's own mode with DEFAULT_MODE set. -/
def execStagingTimeout (basin item : Nat) (returned : Bool) (s0 : State) : Host.Outcome State Fault Refusal :=
  let s := if basinsRun s0 then passDeadline basin item s0 else s0
  match staged s basin item with
  | none => .next s
  | some i =>
    if i.decided.isNone && recording (Machine.basin s basin) && basinsRun s then
      .next (commitStaged basin returned i s)
    else .next s

/-- FOLD_WINDOW_EXPIRY (R330). -/
def execFoldWindowExpiry (basin : Nat) (s : State) : Host.Outcome State Fault Refusal :=
  if recording (Machine.basin s basin) && basinsRun s then .next (closeRun (putRec basin) basin s) else .next s

/-- EPOCH_SECOND (R331). -/
def execEpochSecond (basin : Nat) (s : State) : Host.Outcome State Fault Refusal :=
  if recording (Machine.basin s basin) && basinsRun s then .next (putNote basin (epochDraft 0 s) s) else .next s

/-- GAP_WRITE (R337): a record that would take the room kept for the end of the capture ends it, or in POST waits for
its end (log 73). -/
def execGapWrite (basin : Nat) (s : State) : Host.Outcome State Fault Refusal :=
  if recording (Machine.basin s basin) && basinsRun s then
    if bufferFull s basin 0 then .next (stopFull basin none s)
    else if lastRoom s basin 0 then .next s
    else .next (settleBasin basin (writeGap basin s))
  else .next s

/-! ### Weirs -/

def weir (s : State) (w : Nat) : Weir := tget {} s.cap.weirs w

/-- Fences a Weir; what it holds goes to its Basin (R336). -/
def fenceWeirOf (inj : Bool) (w cause : Nat) (s : State) : State :=
  let b := (weir s w).basin.getD 0
  settleAll (putRec b) b (fenceWeir (putRec b) inj w cause s)

/-- A Weir has a record that it has not returned: one of a Basin, or one of the export-compression job that runs on it
(R336). -/
def weirBusy (x : Weir) : Bool := x.item.isSome || (x.job.isSome && !x.suspended)

/-- WEIR_NO_RETURN (R336): a Weir has held a record for more than 10 µs. -/
def execWeirNoReturn (weir : Nat) (s : State) : Host.Outcome State Fault Refusal :=
  if weirBusy (Machine.weir s weir) && basinsRun s then .next (fenceWeirOf false weir 2 s) else .next s

/-- WEIR_SELF_CHECK (R336, R509 0x17): it fails by itself or by an injection. Gated Weirs run none (R467). -/
def execWeirSelfCheck (weir : Nat) (passed : Bool) (s : State) : Host.Outcome State Fault Refusal :=
  if basinsRun s && !s.pwr.gated && !(Machine.weir s weir).fenced then
    let o := occurrence 0x17 weir s
    if o.1.isSome || !passed then .next (fenceWeirOf o.1.isSome weir 1 o.2) else .next o.2
  else .next s

end Sys2Proof.Machine
end

