-- ==== Sys2Proof/Machine/Sequencer.lean ====
section
/-!
DEFINITION. The DVFS sequencer (R107, R108, R110), leaving Hush (R467) and the latching of wake sources (R474, R475).
-/
namespace Sys2Proof.Machine

/-- VDD_CORE of a point in mV (R106). -/
def pointMv (p : Nat) : Nat :=
  match p with
  | 0 => 650
  | 1 => 720
  | 2 => 800
  | _ => 880

/-- The last-wake record as POWER_STATUS lays it out at offsets 48 to 63 (R476, R486, R488). -/
def wakeBytes (w : WakeRec) : Bytes :=
  le 1 w.source ++ le 1 w.result ++ le 1 w.island ++ le 1 w.cause ++ le 1 w.unit ++ zeros 3 ++ le 8 w.time.toNat

/-- EV_POWER_STATE (R489), with the channel, client and tag of the POWER_STATE that caused it (R46). -/
def powerEvent (old new : DevState) (cause : Option Cause) (s : State) : State :=
  let w := s.pwr.wake
  raise 0x0E01 0 (le 1 (stateCode old) ++ le 1 (stateCode new) ++ le 1 w.result ++ le 1 w.source ++ le 1 w.island ++
    le 1 w.cause ++ le 1 w.unit) cause s

/-- Starts a step of the CK_CORE point: a step down switches the clock first; then one AVSBus request (R107). A step
that meets one in progress waits behind it (R110). An injection may withhold the acknowledgement (R509, 0x12). -/
def startStep (st : DvfsStep) (s : State) : State :=
  if s.clk.step.isSome then
    let w := match s.clk.waiting with
      | some w => if w.origin = .power then { w with target := min w.target st.target } else st
      | none => st
    { s with clk := { s.clk with waiting := some w } }
  else
    let mv := pointMv st.target
    let o := occurrence 0x12 0 s
    let s := o.2
    emit (.avsWrite mv) { s with clk := { s.clk with
      avsWithheld := o.1.isSome
      step := some { st with old := s.clk.point, up := decide (s.clk.point < st.target) }
      point := if st.target < s.clk.point then st.target else s.clk.point
      avsPending := true
      avsMv := mv } }

/-- Resumes what Hush held: cores and Weirs are ungated, suspended export-compression jobs and held jobs go on
(R467). -/
def ungate (s : State) : State :=
  { s with
    pwr := { s.pwr with gated := false }
    ast := { s.ast with jobs := tmap s.ast.jobs fun _ j => { j with held := false } }
    cap := { s.cap with weirs := tmap s.cap.weirs fun _ w =>
      if w.basin.isNone then { w with suspended := false } else w } }

/-- Hush has been left: the device is in RUN, the last-wake record says why, and the POWER_STATE that asked for it
completes (R467, R468, R476). Its events carry that command's tag (R46); those of a wake by a wake source carry none
(DESIGN CHOICE, log 84). -/
def leaveHush (acked : Bool) (s : State) : State :=
  let cause := s.pwr.entry.bind fun e => e.cause
  let s1 := ungate { s with pwr := { s.pwr with
    entry := none
    wake := { s.pwr.wake with result := 1, time := s.time.ns } } }
  let s2 := powerEvent .hush .run cause (changeState .run cause s1)
  if cause.isSome then finishLater (if acked then stOk else stTimeout) (wakeBytes s2.pwr.wake) s2 else s2

/-- Begins to leave Hush on a wake source or a POWER_STATE, which is the `cause`: CK_CORE steps up to the point in force
at entry, limited by the ceiling (R467). -/
def exitHush (source unit : Nat) (cause : Option Cause) (s : State) : State :=
  let target := if s.pwr.hot then 0 else min s.pwr.hushPoint s.clk.ceiling
  let s1 := { s with pwr := { s.pwr with
    entry := some { target := 0, fromSt := .hush, waitStep := true, cause }
    wake := { source, unit } } }
  if s.clk.point < target then startStep { target, origin := .power } s1 else leaveHush true s1

/-- Hush has been entered (R467, R468). -/
def enterHush (acked : Bool) (s : State) : State :=
  let e := s.pwr.entry.getD {}
  let s1 := changeState .hush e.cause { s with pwr := { s.pwr with
    entry := none
    wakeMask := e.mask
    timerMs := e.timer } }
  finishLater (if acked then stOk else stTimeout) (wakeBytes s1.pwr.wake) s1

/-- A step that the power sequencer waited for has ended (R467, R468). -/
def powerStepDone (acked : Bool) (s : State) : State :=
  match s.pwr.entry with
  | none => s
  | some e => if e.target = 1 then enterHush acked s else leaveHush acked s

/-- A step ends, with the acknowledgement or without it (R107, R108): the point, VDD_CONFIRMED, and the report to
whoever asked for it, marked where an injection withheld the acknowledgement (R507). A step that waited then starts. -/
def endStep (acked : Bool) (s : State) : State :=
  match s.clk.step with
  | none => s
  | some st =>
    let point := if st.up ∧ acked then st.target else s.clk.point
    let s1 := { s with clk := { s.clk with
      step := none
      avsPending := false
      point
      vddConfirmed := if acked then true else if st.up then s.clk.vddConfirmed else false } }
    let s2 := match st.origin with
      | .sluice | .thermal =>
        raiseWith (!acked && s.clk.avsWithheld) 0x0E05 0 (le 1 st.old ++ le 1 point ++ le 1 (b2n !acked) ++ le 1 st.reason) none s1
      | .command =>
        finishLater (if acked then stOk else stTimeout)
          (le 1 point ++ le 1 (b2n s1.clk.vddConfirmed) ++ zeros 2) s1
      | .power => powerStepDone acked s1
    match s2.clk.waiting with
    | none => s2
    | some w =>
      let s3 := { s2 with clk := { s2.clk with waiting := none } }
      let target := min w.target s3.clk.ceiling
      if w.origin = .power then
        (if target = s3.clk.point then powerStepDone true s3 else startStep { w with target } s3)
      else
        let next := match w.origin with
          | .sluice => if w.up then s3.clk.point + 1 else s3.clk.point - 1
          | .thermal | .power | .command => w.target
        if next = s3.clk.point ∨ s3.clk.ceiling < next then s3 else startStep { w with target := next } s3

/-- The bit of the wake mask that enables a source (R474): none for a source without one. -/
def maskBit (source unit : Nat) : Option Nat :=
  match source with
  | 1 => some 0
  | 3 => some 1
  | 4 => some (2 + (if unit ≥ 0x10 then 2 else 0) + unit % 16)
  | 5 => some 6
  | 6 => some 7
  | _ => none

/-- A wake source acts in the device's present state (R474). -/
def wakeEnabled (source unit : Nat) (s : State) : Bool :=
  match s.ctl.devState with
  | .hush => source != 2 && ((maskBit source unit).map (bit s.pwr.wakeMask)).getD false
  | .still => source == 1 || source == 2 || ((maskBit source unit).map (bit s.pwr.wakeMask)).getD false
  | _ => false

/-- A wake source: in Still it is latched and the wake sequence begins, further sources being ignored until it ends;
in Hush it begins the return to RUN (R474, R475). -/
def wakeSource (source unit : Nat) (s : State) : State :=
  if wakeEnabled source unit s then
    if s.ctl.devState = .still then
      if s.pwr.latched.isSome then s else { s with pwr := { s.pwr with latched := some (source, unit) } }
    else if s.pwr.entry.isSome then s
    else exitHush source unit none s
  else s

end Sys2Proof.Machine
end

