-- ==== Sys2Proof/Machine/TimeBase.lean ====
section
/-!
DEFINITION. Device time as it advances and is stepped (R121 to R132), and the source state machine of the time DPLL
(R113 to R118).
-/
namespace Sys2Proof.Machine

/-! ### Device time -/

/-- The time island runs: the device is powered, out of POR_N, its system PLL has locked, and it is not in STILL (R28,
R76, R122, R123). -/
def timeRuns (s : State) : Bool :=
  s.ctl.powered && !s.ctl.porLow && s.boot.pllLocked && s.ctl.devState != .still && islandUp 7 s

/-- Device time in units of 2^-24 ns (R121). -/
def timeUnits (t : Time) : Nat := t.ns.toNat * 2 ^ 24 + t.frac.toNat

/-- Device time set to a number of units of 2^-24 ns, 64 bits of nanoseconds. -/
def setUnits (v : Nat) (t : Time) : Time :=
  { t with ns := BitVec.ofNat 64 (v / 2 ^ 24), frac := BitVec.ofNat 24 v }

/-- The whole second whose edge PPS_OUT has had when the 64 bits of nanoseconds start again from 0: the one before the
time 0, so that a multiple of 10^9 at 0 itself still brings an edge (R132, log 64). -/
def ppsAtWrap (offset : Int) : Int := (offset - 1) / 1000000000

/-- One cycle of CK_TS: the time unit adds INCR (R121). Where the nanoseconds start again from 0, so do the whole seconds
of PPS_OUT (R132). -/
def tick (s : State) : State :=
  if timeRuns s then
    let t := setUnits (timeUnits s.time + s.time.incr.toNat) s.time
    { s with time := { t with
      cycles := s.time.cycles + 1
      ppsDone := if t.ns.toNat < s.time.ns.toNat then ppsAtWrap t.ppsOffset else t.ppsDone } }
  else s

/-- What device time and INCR are in this cycle is kept before a change of them, for the stamps of instants up to two
superframes ago (R126, R134). -/
def keepPast (t : Time) : Time :=
  { t with past := (t.cycles, timeUnits t, t.incr.toNat) :: t.past.filter fun e => decide (t.cycles ≤ e.1 + 156250) }

/-- Device time, in units of 2^-24 ns, at an instant given in ticks of elapsed time: INCR for each cycle of CK_TS from the
first change after that instant back to it, else from now (R121, R126, R130, R134). An instant at the cycle of a change
comes after it. -/
def deviceUnits (t : Time) (ticks : Int) : Nat :=
  let later := t.past.filter fun e => decide (ticks < ((e.1 * stepTicks : Nat) : Int))
  let e := later.getLast?.getD (t.cycles, timeUnits t, t.incr.toNat)
  (((e.2.1 : Int) + (ticks - (e.1 * stepTicks : Nat)) * e.2.2 / stepTicks) % 2 ^ 88).toNat

/-- The whole second that device time with the offset of PPS_OUT has reached (R132). -/
def ppsSecond (offset : Int) (ns : BitVec 64) : Int := ((ns.toNat : Int) + offset) / 1000000000

/-- Device time becomes `v` by a step: running Basins write EPOCH records, and PPS_OUT has one edge where the step passes
a whole second (R129, R132). An edge that is still to come in this cycle is decided by the stepped time (R130). -/
def stepTime (v : BitVec 64) (frac : BitVec 24) (s : State) : State :=
  let second := ppsSecond s.time.ppsOffset v
  epochAll { s with time := { keepPast s.time with
    ns := v
    frac
    ppsOut := s.time.ppsOut || decide (s.time.ppsDone < second)
    ppsDone := second } }

/-- INCR becomes `v`, from the next cycle of CK_TS on (R126). -/
def setIncr (v : BitVec 32) (s : State) : State := { s with time := { keepPast s.time with incr := v } }

/-! ### The frequency source -/

/-- The planes that a mode of FREQ_SOURCE_SET allows (R119). -/
def sourceAllowed (mode p : Nat) : Bool :=
  match mode with
  | 0 => p == 0 || p == 1
  | 1 => p == 1
  | 2 => p == 0
  | _ => false

/-- A plane is qualified (R113). -/
def qualified (s : State) (p : Nat) : Bool := if p = 0 then s.src.qualA else s.src.qualB

def setQualified (p : Nat) (v : Bool) (s : State) : State :=
  if p = 0 then { s with src := { s.src with qualA := v } } else { s with src := { s.src with qualB := v } }

/-- A change of source state or selected plane, with EV_FREQ_SOURCE (R115). The event codes a plane as TIME_STATUS.SOURCE
does, 0 for none, since the spec gives it no code (DESIGN CHOICE, log 80). What refclk_sys_ppb reads until the next RC_TRIM
is the value that it had (DESIGN CHOICE, log 84). -/
def setSource (state source : Nat) (cmd : Option Cause) (s : State) : State :=
  let o := s.src
  if o.state = state ∧ o.source = source then s
  else raise 0x0201 0 (le 1 o.state ++ le 1 o.source ++ le 1 state ++ le 1 source) cmd
    { s with src := { o with
      state
      source
      bridging := false
      refPpb := if state = 1 then o.refPpb else 0x80000000 } }

/-- The best qualified and allowed plane in the order of preference (R114). -/
def bestPlane (s : State) : Option Nat := [1, 0].find? fun p => qualified s p && sourceAllowed s.src.mode p

/-- The selected plane has been lost as a source (R115); `cmd` is the command that brings it about (R46). -/
def sourceLost (cmd : Option Cause) (s : State) : State :=
  match bestPlane s with
  | some p => setSource 1 (p + 1) cmd s
  | none => setSource 2 0 cmd s

/-- A plane loses its qualification (R113); while the DPLL bridges a protection switch of it nothing else happens
(R117). -/
def loseQual (p : Nat) (cmd : Option Cause) (s : State) : State :=
  if qualified s p then
    let s1 := setQualified p false s
    if s1.src.state = 1 ∧ s1.src.source = p + 1 ∧ !s1.src.bridging then sourceLost cmd s1 else s1
  else s

/-- A protection switch begins on a plane: while it is the selected source, the DPLL bridges it (R117). -/
def bridge (p : Nat) (s : State) : State :=
  if s.src.state = 1 ∧ s.src.source = p + 1 then { s with src := { s.src with bridging := true } } else s

/-- A plane has qualified (R114, R115, R117). -/
def gainQual (p : Nat) (s : State) : State :=
  let s1 := setQualified p true s
  let x := s1.src
  if x.state ≠ 1 then (if sourceAllowed x.mode p then setSource 1 (p + 1) none s1 else s1)
  else if x.source = p + 1 then { s1 with src := { x with bridging := false } }
  else if x.mode = 0 ∧ x.revertive ∧ x.wtr = 0 ∧ p = 1 then setSource 1 2 none s1
  else s1

end Sys2Proof.Machine
end

