-- ==== Sys2Proof/Machine/ChassisBus.lean ====
section
/-!
DEFINITION. The chassis trigger bus (R457 to R465): its commands, its frames, its attempts and its peers.
-/
namespace Sys2Proof.Machine

/-! ### Commands -/

/-- CHASSIS_CONFIG (R462). -/
def chassisConfigForm (p : Bytes) : Bool :=
  len 24 p && decide (u8 p 0 ≤ 1) && decide (u8 p 1 ≤ 1) && decide (u16 p 6 ≤ 60000) &&
    decide (1 ≤ u16 p 14 ∧ u16 p 14 ≤ 3600) && decide (1 ≤ u16 p 16 ∧ u16 p 16 ≤ 1000) && zeroAt p 18 6

def chassisConfigSpec : CmdSpec :=
  { op := 0x0D0A, smb := false, priv := true, legal := legalStd, form := chassisConfigForm }

def chassisConfigAct (r : Req) (s : State) : Served :=
  let p := r.payload
  ok (modChassis (fun c => { c with
    enable := u8 p 0 == 1
    rxEvent := u8 p 1 == 1
    txMask := u16 p 2
    rxMask := u16 p 4
    markMs := u16 p 6
    dst := slice p 8 6
    peerAge := u16 p 14
    maxAge := u16 p 16 }) s)

def execChassisConfig (s : State) : Host.Outcome State Fault Refusal :=
  .next (serve chassisConfigSpec chassisConfigAct s)

/-- CHASSIS_SEND (R463); a time mark names no trigger (R458). -/
def chassisSendForm (p : Bytes) : Bool :=
  len 8 p && ((u8 p 0 == 1 && decide (u8 p 1 ≤ 15)) || (u8 p 0 == 2 && u8 p 1 == 0)) && zeroAt p 2 2

def chassisSendSpec : CmdSpec :=
  { op := 0x0D0B, smb := false, priv := false, legal := legalStd, form := chassisSendForm }

def chassisSendAct (r : Req) (s : State) : Served :=
  let p := r.payload
  let c := s.net.chassis
  if !c.enable then conflict 0x0D 0 4 s
  else if 16 ≤ c.queue.length then fail stNoResource s
  else
    ok (chassisQueue {
      kind := u8 p 0
      trigger := u8 p 1
      arg := BitVec.ofNat 32 (if u8 p 0 = 1 then u32 p 4 else 0)
      origin := s.time.ns
      cause := causeOf r } s)

def execChassisSend (s : State) : Host.Outcome State Fault Refusal := .next (serve chassisSendSpec chassisSendAct s)

/-- CHASSIS_STATUS (R464). -/
def chassisStatusForm (p : Bytes) : Bool := len 4 p && decide (u8 p 0 ≤ 31) && zeroAt p 1 3

def chassisStatusSpec : CmdSpec :=
  { op := 0x0D0C, smb := true, priv := false, legal := readyToFault, form := chassisStatusForm }

/-- A peer entry as CHASSIS_STATUS returns it (R464), at a count of CK_TS cycles. -/
def peerBytes (now : Nat) (p : Peer) : Bytes :=
  le 8 p.identity.toNat ++ le 4 ((now - p.lastCycles) / 625000) ++ le 4 p.frames.toNat ++ le 4 p.lost.toNat ++
    le 4 p.seq.toNat

def chassisStatusAct (r : Req) (s : State) : Served :=
  let c := s.net.chassis
  let ps := (c.peers.drop (u8 r.payload 0)).take 8
  okWith (le 1 (b2n c.enable) ++ le 1 c.peers.length ++ le 1 ps.length ++ zeros 1 ++ le 4 c.txFrames.toNat ++
    le 4 c.rxFrames.toNat ++ le 4 c.collisions.toNat ++ le 4 c.txFailed.toNat ++ le 4 c.untracked.toNat ++
    le 4 c.rxInStill.toNat ++ zeros 4 ++ ps.flatMap (peerBytes s.time.cycles)) s

def execChassisStatus (s : State) : Host.Outcome State Fault Refusal :=
  .next (serve chassisStatusSpec chassisStatusAct s)

/-! ### Reception -/

/-- The fields of a chassis frame (R458). -/
structure ChassisRx where
  kind : Nat
  trigger : Nat
  arg : Nat
  identity : Nat
  origin : Nat
  seq : Nat

/-- A received chassis frame, none when R460 has it ignored. -/
def parseChassis (s : State) (bs : Bytes) : Option ChassisRx :=
  let kind := u8 bs 15
  if beNat (slice bs 12 2) = 0x88B5 ∧ u8 bs 14 = 1 ∧ (kind = 1 ∨ kind = 2) ∧ u64 bs 22 ≠ s.ident.serial.toNat then
    some {
      kind
      trigger := u8 bs 16
      arg := u32 bs 18
      identity := u64 bs 22
      origin := u64 bs 30
      seq := u32 bs 38 }
  else none

/-- EV_CHASSIS_PEER (R461). -/
def peerEvent (what id : Nat) (s : State) : State := raise 0x0D06 4 (le 1 what ++ zeros 7 ++ le 8 id) none s

/-- The peer table takes note of a frame (R461). -/
def trackPeer (f : ChassisRx) (s : State) : State :=
  let c := s.net.chassis
  let id := BitVec.ofNat 64 f.identity
  let inStill := s.ctl.devState == .still
  match c.peers.find? fun p => p.identity == id with
  | none =>
    if c.peers.length < 32 then
      peerEvent 1 f.identity (modChassis (fun x => { x with peers := x.peers ++
        [({ identity := id, lastCycles := s.time.cycles, frames := 1, seq := BitVec.ofNat 32 f.seq, inStill } : Peer)] }) s)
    else modChassis (fun x => { x with untracked := x.untracked + 1 }) s
  | some p =>
    let seq := BitVec.ofNat 32 f.seq
    let skipped := if f.seq = 0 then 0 else seq - p.seq - 1
    let p' := { p with lastCycles := s.time.cycles, frames := p.frames + 1, lost := p.lost + skipped, seq, inStill }
    let s1 := modChassis (fun x => { x with peers := x.peers.map fun q => if q.identity == id then p' else q }) s
    if f.seq = 0 then peerEvent 3 f.identity s1 else s1

/-- At the wake: a peer that was last heard in STILL was heard at a moment of the `span` cycles of CK_TS that STILL lasted,
which is a free value (R461, R464, log 53). -/
def agePeers (span : Nat) (s : State) : State :=
  (s.net.chassis.peers.filter Peer.inStill).foldl (fun x p =>
    let d := drawFree x
    let heard : Peer → Peer := fun q => if q.identity = p.identity then
      { q with inStill := false, lastCycles := q.lastCycles + Config.freeNat d.1 % (span + 1) } else q
    modChassis (fun c => { c with peers := c.peers.map heard }) d.2) s

/-- EV_CHASSIS_RX (R460, R465). -/
def chassisRxEvent (f : ChassisRx) (s : State) : State :=
  raise 0x0D07 4 (le 1 f.kind ++ le 1 f.trigger ++ zeros 2 ++ le 4 f.arg ++ le 8 f.identity ++ le 8 f.origin ++
    le 8 s.time.ns.toNat) none s

/-- What an accepted frame does while device time runs (R460, R461). -/
def chassisAct (f : ChassisRx) (s : State) : State :=
  let s1 := trackPeer f s
  let s2 := if f.kind = 1 ∧ f.trigger ≤ 15 ∧ bit s1.net.chassis.rxMask f.trigger then
      fireTrigger f.trigger 2 0xFFFF f.arg f.identity none (nowStamp s1) none s1
    else s1
  if f.kind = 2 ∨ s2.net.chassis.rxEvent then chassisRxEvent f s2 else s2

/-- CHASSIS_FRAME_RX (R460, R461): `data` is the frame without its FCS. In STILL it enters the peer table, is counted and may
wake the device, and that is all (log 53). -/
def execChassisFrameRx (data : Bytes) (fcsOk : Bool) (s : State) : Host.Outcome State Fault Refusal :=
  if fcsOk ∧ s.net.chassis.enable then
    match parseChassis s data with
    | none => .next s
    | some f =>
      let s1 := modChassis (fun c => { c with rxFrames := c.rxFrames + 1 }) s
      if s.ctl.devState = .still then
        .next (wakeSource 3 0 (trackPeer f (modChassis (fun c => { c with rxInStill := c.rxInStill + 1 }) s1)))
      else .next (wakeSource 3 0 (chassisAct f s1))
  else .next s

/-! ### Transmission -/

/-- The origin_time of a time mark whose attempt begins now: device time at the first bit after its SFD, 64 bits or 6.4 µs
later, which are 4,000 cycles of CK_TS where device time runs (R123, R458, R461). A change of device time within them is not
foreseen (log 83). -/
def markTime (s : State) : BitVec 64 :=
  if !timeRuns s then s.time.ns
  else BitVec.ofNat 64 (deviceUnits s.time ((s.time.cycles + 4000) * stepTicks : Nat) / 2 ^ 24)

/-- The bytes of a chassis frame without its FCS (R442, R458). The multi-byte fields of the payload are little-endian, as
R8 has all payloads (DESIGN CHOICE, log 83: their table names no order). -/
def chassisBytes (s : State) (f : ChFrame) : Bytes :=
  let c := s.net.chassis
  let origin := if f.kind = 2 then markTime s else f.origin
  orBroadcast c.dst ++ defaultAddr s 4 ++ be 2 0x88B5 ++ le 1 1 ++ le 1 f.kind ++ le 1 f.trigger ++
    le 1 (b2n s.time.unsynced) ++ le 4 f.arg.toNat ++ le 8 s.ident.serial.toNat ++ le 8 origin.toNat ++
    le 4 c.seq.toNat ++ zeros 18

/-- CHASSIS_TX_ATTEMPT (R457): the MAC begins to send the oldest frame; unless the attempt collides, the frame is sent
whole. -/
def execChassisTxAttempt (collides : Bool) (s : State) : Host.Outcome State Fault Refusal :=
  let c := s.net.chassis
  match c.queue with
  | [] => .next s
  | f :: fs =>
    if !c.enable ∨ c.sending ∨ c.backoff.isSome then .next s
    else if collides then .next (modChassis (fun x => { x with sending := true }) s)
    else .next (emit (.chassisFrame (chassisBytes s f)) (modChassis (fun x => { x with
      queue := fs
      seq := x.seq + 1
      txFrames := x.txFrames + 1 }) s))

/-- The oldest frame is discarded with EV_CHASSIS_TX_FAIL (R457). -/
def chassisDiscard (cause : Nat) (s : State) : State :=
  match s.net.chassis.queue with
  | [] => s
  | f :: fs => chassisFail f.kind f.trigger cause f.cause (modChassis (fun c => { c with
      queue := fs
      sending := false
      backoff := none }) s)

/-- CHASSIS_COLLISION (R457): the attempt in progress meets a collision, within its first 512 bits or `late`. -/
def execChassisCollision (late : Bool) (s : State) : Host.Outcome State Fault Refusal :=
  let c := s.net.chassis
  match c.queue with
  | [] => .next s
  | f :: fs =>
    if !c.sending then .next s
    else
      let n := f.attempts + 1
      let s1 := emit .chassisJam (modChassis (fun x => { x with
        sending := false
        collisions := x.collisions + 1
        queue := { f with attempts := n } :: fs }) s)
      if late then .next (chassisDiscard 2 s1)
      else if 16 ≤ n then .next (chassisDiscard 1 s1)
      else
        let d := drawDrbg s1
        .next (modChassis (fun x => { x with backoff := some (d.1 % 2 ^ min n 10) }) d.2)

/-- BACKOFF_EXPIRY (R457): the slots drawn have passed. -/
def execBackoffExpiry (s : State) : Host.Outcome State Fault Refusal :=
  if s.net.chassis.backoff.isSome then .next (modChassis (fun c => { c with backoff := none }) s) else .next s

/-- CHASSIS_TX_AGED (R457): the oldest frame has waited tx_max_age_ms. -/
def execChassisTxAged (s : State) : Host.Outcome State Fault Refusal :=
  if s.net.chassis.sending ∨ s.net.chassis.queue = [] then .next s else .next (chassisDiscard 3 s)

/-- PEER_AGE_EXPIRY (R461): a peer has sent nothing for peer_age_s, in STILL too, where the MAC runs. -/
def execPeerAgeExpiry (identity : BitVec 64) (s : State) : Host.Outcome State Fault Refusal :=
  if (s.net.chassis.peers.any fun p => p.identity == identity) then
    .next (peerEvent 2 identity.toNat (modChassis (fun c => { c with
      peers := c.peers.filter fun p => p.identity != identity }) s))
  else .next s

/-- MARK_PERIOD_EXPIRY (R461): a time mark is queued every mark_period_ms, in STILL too, where the MAC runs. -/
def execMarkPeriodExpiry (s : State) : Host.Outcome State Fault Refusal :=
  if s.net.chassis.enable ∧ s.net.chassis.markMs ≠ 0 then
    .next (chassisQueue { kind := 2 } s)
  else .next s

end Sys2Proof.Machine
end

