-- ==== Sys2Proof/Machine/Parser.lean ====
section
/-!
DEFINITION. The parser of the classifier, the lookup key, the metadata and the matching of rules (R281 to R288).
-/
namespace Sys2Proof.Machine

/-- A parsed header: its code, first byte and length (R281). -/
structure Header where
  code : Nat
  off : Nat
  len : Nat
deriving DecidableEq, Repr

/-- What a parse yields: headers, outermost first, PARSE_TRUNC and LEN_CONFLICT (R283, R284). -/
structure Parsed where
  headers : List Header
  trunc : Bool
  conflict : Bool
deriving DecidableEq, Repr

/-- A 16-bit field of the line side, in network order (R8). -/
def be16 (d : Bytes) (o : Nat) : Nat := u8 d o * 256 + u8 d (o + 1)

/-- The bytes of a header that must lie in its container before its length can be read (R281). -/
def fixedBytes (code : Nat) : Nat :=
  match code with
  | 0x02 => 14
  | 0x03 | 0x04 | 0x0C => 4
  | 0x06 | 0x0A => 20
  | 0x07 => 40
  | 0x0E => 34
  | 0x10 => 28
  | _ => 8

/-- The successor an EtherType names; 0 none (R281). -/
def etherNext (t : Nat) : Nat :=
  match t with
  | 0x8100 | 0x88A8 | 0x9100 => 0x03
  | 0x8847 | 0x8848 => 0x04
  | 0x8864 => 0x05
  | 0x0800 => 0x06
  | 0x86DD => 0x07
  | 0x88F7 => 0x0E
  | 0x0806 => 0x10
  | _ => 0

/-- The successor an IP protocol names. -/
def protoNext (p : Nat) : Nat :=
  match p with
  | 17 => 0x09
  | 6 => 0x0A
  | 1 | 58 => 0x0B
  | 47 => 0x0C
  | _ => 0

/-- The successor an IPv6 Next Header names. -/
def nextHeader (n : Nat) : Nat := if n = 0 ∨ n = 43 ∨ n = 44 ∨ n = 60 then 0x08 else protoNext n

/-- The length a header takes, none when it fails its length check (R281). `via` is the value that named the header,
`room` its container. -/
def headerLen (code via : Nat) (d : Bytes) (off room : Nat) : Option Nat :=
  let within := fun n => if n ≤ room then some n else none
  match code with
  | 0x05 => if 8 ≤ be16 d (off + 4) + 6 ∧ be16 d (off + 4) + 6 ≤ room then some 8 else none
  | 0x06 =>
    let n := u8 d off % 16 * 4
    if 20 ≤ n ∧ n ≤ be16 d (off + 2) ∧ be16 d (off + 2) ≤ room then some n else none
  | 0x07 => if 40 + be16 d (off + 4) ≤ room then some 40 else none
  | 0x08 => within (if via = 44 then 8 else (u8 d (off + 1) + 1) * 8)
  | 0x09 => if 8 ≤ be16 d (off + 4) ∧ be16 d (off + 4) ≤ room then some 8 else none
  | 0x0A =>
    let n := u8 d (off + 12) / 16 * 4
    if 20 ≤ n then within n else none
  | 0x0C => within (4 + 4 * (b2n (bit (u8 d off) 7) + b2n (bit (u8 d off) 5) + b2n (bit (u8 d off) 4)))
  | 0x0E => if 34 ≤ be16 d (off + 2) ∧ be16 d (off + 2) ≤ room then some 34 else none
  | _ => within (fixedBytes code)

/-- What follows a header. -/
structure Succ where
  /-- The successor's code, 0 when none is recognised. -/
  code : Nat
  /-- The value that named it. -/
  via : Nat
  /-- The end of its enclosing data. -/
  lim : Nat
  /-- The successor's kind lies beyond the window. -/
  unseen : Bool
deriving DecidableEq, Repr

/-- The successor of a parsed header and the end of its container (R281). -/
def succOf (code via : Nat) (d : Bytes) (off lim : Nat) : Succ :=
  let plain := fun c => ({ code := c, via := 0, lim, unseen := false } : Succ)
  let bounded := fun c v e => ({ code := c, via := v, lim := e, unseen := false } : Succ)
  match code with
  | 0x02 => plain (etherNext (be16 d (off + 12)))
  | 0x03 => plain (etherNext (be16 d (off + 2)))
  | 0x04 =>
    if !bit (u8 d (off + 2)) 0 then plain 0x04
    else if lim ≤ off + 4 then plain 0
    else if 256 ≤ off + 4 then { code := 0, via := 0, lim, unseen := true }
    else plain (if u8 d (off + 4) / 16 = 4 then 0x06 else if u8 d (off + 4) / 16 = 6 then 0x07 else 0)
  | 0x05 => plain (if be16 d (off + 6) = 0x0021 then 0x06 else if be16 d (off + 6) = 0x0057 then 0x07 else 0)
  | 0x06 =>
    if be16 d (off + 6) % 0x2000 ≠ 0 then plain 0
    else bounded (protoNext (u8 d (off + 9))) 0 (off + be16 d (off + 2))
  | 0x07 => bounded (nextHeader (u8 d (off + 6))) (u8 d (off + 6)) (off + 40 + be16 d (off + 4))
  | 0x08 =>
    if via = 44 ∧ be16 d (off + 2) / 8 ≠ 0 then plain 0
    else bounded (nextHeader (u8 d off)) (u8 d off) lim
  | 0x09 =>
    let port := be16 d (off + 2)
    bounded (if port = 4789 then 0x0D else if port = 319 ∨ port = 320 then 0x0E else 0) 0 (off + be16 d (off + 4))
  | 0x0C =>
    let t := be16 d (off + 2)
    plain (if t = 0x6558 then 0x02 else if t = 0x0800 then 0x06 else if t = 0x86DD then 0x07 else 0)
  | 0x0D => plain 0x02
  | _ => plain 0

/-- The walk from one header to the next: `fuel` is the number of levels still allowed (R281 to R284). A length check
is made before the window is looked at (log 37). -/
def walk (d : Bytes) : Nat → Nat → Succ → List Header → Parsed
  | 0, _, k, hs =>
    { headers := hs.reverse, trunc := k.code != 0 || k.unseen, conflict := false }
  | fuel + 1, off, k, hs =>
    if k.unseen then { headers := hs.reverse, trunc := true, conflict := false }
    else if k.code = 0 then { headers := hs.reverse, trunc := false, conflict := false }
    else if k.lim < off + fixedBytes k.code then { headers := hs.reverse, trunc := false, conflict := true }
    else if 256 < off + fixedBytes k.code then { headers := hs.reverse, trunc := true, conflict := false }
    else match headerLen k.code k.via d off (k.lim - off) with
      | none => { headers := hs.reverse, trunc := false, conflict := true }
      | some n =>
        if 256 < off + n then { headers := hs.reverse, trunc := true, conflict := false }
        else walk d fuel (off + n) (succOf k.code k.via d off k.lim) ({ code := k.code, off, len := n } :: hs)

/-- The XGEM header alone (R279, R297, R298). -/
def levelOne : Parsed := { headers := [{ code := 1, off := 0, len := 8 }], trunc := false, conflict := false }

/-- The end of the level-2 container (R281). -/
def sduEnd (d : Bytes) (fcs : Bool) : Nat := max (d.length - 4 * b2n fcs) 8

/-- Parses a frame from its XGEM header: `kind` is the KIND of its label, `shallow` stops after level 1. -/
def parseFrame (d : Bytes) (kind : Nat) (fcs shallow : Bool) : Parsed :=
  if shallow then levelOne
  else
    let code := if kind = 0 then 0x02 else if kind = 1 then 0x0F else 0
    walk d 11 8 { code, via := 0, lim := sduEnd d fcs, unseen := false } levelOne.headers

/-- The header that an extractor names (R285). -/
def pickHeader (hs : List Header) (x : Extractor) : Option Header :=
  let found := hs.filter fun h => h.code == x.code
  if x.occ = 0xFF then found.getLast? else found[x.occ]?

/-- The key bytes of a frame, each with its validity: bytes after the last extractor are unparsed (R285, R286). -/
def keyBytes (d : Bytes) (hs : List Header) (xs : List Extractor) : List (Byte × Bool) :=
  let one := fun (x : Extractor) => (List.range x.len).map fun i =>
    match pickHeader hs x with
    | none => ((0, false) : Byte × Bool)
    | some h => if x.off + i < h.len then (d.getD (h.off + x.off + i) 0, true) else (0, false)
  let ks := xs.flatMap one
  (ks ++ List.replicate (48 - ks.length) (0, false)).take 48

/-- The metadata of a pass (R287). -/
def metaBytes (i : ClsItem) (p : Parsed) (second cipher plain : Bool) (profile length : Nat) : Bytes :=
  let f := i.term.getD 0
  le 1 (i.source + 4 * b2n second + 16 * profile) ++ le 1 i.label ++ le 1 (f % 256) ++
    le 1 (f / 256 + 0x80 * b2n i.term.isSome) ++
    le 1 (b2n p.trunc + 2 * b2n cipher + 4 * b2n i.cont + 8 * b2n plain) ++
    le 1 (p.headers.length + 16 * i.keyIdx) ++ le 2 length

/-- A key byte satisfies a rule (R288). -/
def keyMatch (k : Byte × Bool) (key mask : Byte) : Bool := mask == 0 || (k.2 && (k.1 &&& mask) == key)

/-- A valid rule matches a key and its metadata (R288). -/
def ruleMatches (r : Rule) (ks : List (Byte × Bool)) (m : Bytes) : Bool :=
  r.valid &&
    ((List.range 48).all fun b => keyMatch (ks.getD b (0, false)) (r.key.getD b 0) (r.mask.getD b 0)) &&
    (List.range 8).all fun b => (m.getD b 0 &&& r.metaMask.getD b 0) == r.metaKey.getD b 0

/-- The lowest matching rule of a table (R288). -/
def lookupRule (rules : Tab Rule) (ks : List (Byte × Bool)) (m : Bytes) : Option (Nat × Rule) :=
  rules.find? fun e => ruleMatches e.2 ks m

end Sys2Proof.Machine
end

