-- ==== Sys2Proof/Machine/Classifier.lean ====
section
/-!
DEFINITION. The classifier (chapter 10): entry of an item, both passes, actions in entry order, expiry, the versions of
the rule set, and the rule commands.
-/
namespace Sys2Proof.Machine

def modCls (f : Classifier → Classifier) (s : State) : State := { s with cls := f s.cls }

/-- Adds to a counter of a source, by its offset in CLS_COUNTERS; it wraps (R317, R189). -/
def countCls (src off k : Nat) (s : State) : State :=
  modCls (fun c => { c with cnt := tmod 0 c.cnt (src * 256 + off) fun v => (v + k) % 2 ^ 48 }) s

/-! ### Versions (R299 to R303) -/

/-- The newest committed version. -/
def newest (s : State) : Version := s.cls.versions.headD {}

/-- A live version by its number. -/
def liveVersion (s : State) (n : Nat) : Option Version := s.cls.versions.find? fun v => v.num == n

/-- The tables that an item is decided by (R300). -/
def tablesOf (s : State) (i : ClsItem) : RuleSet := ((liveVersion s i.version).getD {}).tables

/-- The source configuration an item is decided by. -/
def sourceOf (s : State) (i : ClsItem) : SourceCfg := tget {} (tablesOf s i).sources i.source

/-- Free shadow entries: each live version but the oldest holds those of the rule entries it changed (R302). -/
def shadowFree (s : State) : Nat := 8192 - (s.cls.versions.dropLast.map Version.rules).sum

/-- Frames in the classifier that entered under a version (R314). -/
def inVersion (s : State) (n : Nat) : Nat := (s.cls.items.filter fun i => i.version == n).length

/-- VERSION_RETIRED (R301): the oldest superseded version retires when no frame that entered under it remains; a commit
completes when no older version is live. -/
def execVersionRetired (s : State) : Host.Outcome State Fault Refusal :=
  match s.cls.versions.reverse with
  | old :: next :: _ =>
    if inVersion s old.num ≠ 0 then .next s
    else
      let vs := s.cls.versions.dropLast.map fun v => if v.num = next.num then { v with done := true } else v
      .next (raise 0x0801 next.num (le 4 old.num ++ le 4 next.rules ++ le 8 next.time.toNat) next.cause
        (modCls (fun c => { c with versions := vs }) s))
  | _ => .next s

/-! ### Issuing actions (R290 to R295) -/

def modItem (id : Nat) (f : ClsItem → ClsItem) (s : State) : State :=
  modCls (fun c => { c with items := c.items.map fun i => if i.id = id then f i else i }) s

def dropItem (id : Nat) (s : State) : State :=
  modCls (fun c => { c with items := c.items.filter fun i => i.id != id }) s

/-- More than 2 µs have passed since the end of an item: 1,250 cycles of CK_TS, or the staging time-out has said so
(R294, R320, log 72). -/
def decidedLate (i : ClsItem) (s : State) : Bool := i.late || decide (i.endCycles + 1250 < s.time.cycles)

/-- The decision reaches the Basin (R294): a late one is counted and its cmode is not applied, whether the Basin still
holds the item, never held it, or no longer records; one in time is taken by the item in staging. -/
def informBasin (i : ClsItem) (s : State) : State :=
  if decidedLate i s then countCls i.source 120 1 s
  else if (staged s i.source i.basinItem).isSome then
    let d : Decision := { rule := i.rule, cmode := i.act.cmode, headN := i.act.headN, trig := i.act.trigger != 0 }
    modBasin i.source (fun x => { x with staging := x.staging.map fun k =>
      if k.id == i.basinItem then { k with decided := some d } else k }) s
  else s

/-- The trigger of a deciding action fires at the frame's timestamp and is shared on the chassis bus with the rule
index as its value (R294, R338, R458, R459). -/
def fireRule (i : ClsItem) (s : State) : State :=
  if i.act.trigger = 0 then s
  else
    let t : Stamp := { ns := i.ns.toNat, frac := i.frac }
    shareTrigger (i.act.trigger - 1) i.rule t none
      (fireTrigger (i.act.trigger - 1) 0 i.rule 0 0 (some i.source) t none s)

/-- FORWARD (R291). -/
def doForward (i : ClsItem) (s : State) : State :=
  match i.fwd with
  | none => countCls i.source 128 1 s
  | some (a, b) => forwardFrame i.act.hostPort i.act.tclass (slice i.form a (b - a)) s

/-- The mirror header (R292). Its multi-byte fields are little-endian, though R8 does not name frames on host ports and the
table gives no order (DESIGN CHOICE, log 83). -/
def mirrorHeader (i : ClsItem) : Bytes :=
  [1] ++ le 1 i.source ++ le 2 i.rule ++ le 4 i.version ++ le 8 i.ns.toNat ++ fit 8 i.metaB ++ le 2 i.form.length ++
    zeros 6

/-- MIRROR (R292, R442): padded to the Ethernet minimum of 64 bytes with the FCS. -/
def doMirror (i : ClsItem) (s : State) : State :=
  let data := if i.act.mirrorLen = 0 then i.form else i.form.take i.act.mirrorLen
  let bs := ownHeader s i.act.hostPort i.act.tclass ++ be 2 0x88B6 ++ mirrorHeader i ++ data
  forwardFrame i.act.hostPort i.act.tclass (bs ++ zeros (60 - bs.length)) s

/-- COPY_CP (R293). -/
def doCopy (i : ClsItem) (s : State) : State :=
  let q := tget [] s.cls.copies i.source
  if 131072 < (q.map fun c => c.data.length).sum + i.form.length then countCls i.source 136 1 s
  else
    let l := writeLine 0 s
    let q1 := q ++ [({ data := i.form, time := i.ns, rule := i.rule, bad := l.1 } : Copy)]
    let s1 := modCls (fun c => { c with copies := tset c.copies i.source q1 }) l.2
    if q = [] then raise 0x0803 i.source (le 2 1) none s1 else s1

/-- Issues the action of a decided item, which leaves the classifier (R291 to R295). -/
def issue (i : ClsItem) (s : State) : State :=
  let s1 := countCls i.source (72 + 8 * i.act.action) 1 (dropItem i.id s)
  let s2 := fireRule i (informBasin i s1)
  match i.act.action with
  | 0 => s2
  | 1 => doForward i s2
  | 2 => doCopy i s2
  | _ => doMirror i s2

/-- Issues what is decided among the frames of one source and Port-ID, in entry order (R295). -/
def drain : Nat → Nat → Nat → State → State
  | 0, _, _, s => s
  | fuel + 1, src, port, s =>
    match s.cls.items.find? fun i => i.source == src && i.portId == port with
    | none => s
    | some i => if i.pass = 2 then drain fuel src port (issue i s) else s

def drainAll (src port : Nat) (s : State) : State := drain s.cls.items.length src port s

/-! ### The passes (R289, R297, R298) -/

/-- A line key slot of a terminal that holds a valid key (R213). -/
def lineKeyValid (s : State) (f idx : Nat) : Bool :=
  (idx == 1 || idx == 2) && (slot s (2 * f + idx - 1)).state == 1

/-- ENC of a label (R182). -/
def encrypted (i : ClsItem) : Bool := bit i.label 4

/-- A decryptable frame (R297). -/
def decryptable (s : State) (i : ClsItem) : Bool :=
  encrypted i && !i.cont && (match i.term with
    | none => false
    | some f => lineKeyValid s f i.keyIdx)

/-- What FORWARD sends: from the level-2 Ethernet header to the end of its container (R291). -/
def forwardRange (d : Bytes) (fcs : Bool) (p : Parsed) : Option (Nat × Nat) :=
  match p.headers with
  | _ :: h :: _ => if h.code = 0x02 then some (h.off, sduEnd d fcs) else none
  | _ => none

/-- The rule entry that has decided a frame counts it (R315). -/
def countHit (rule : Option Nat) (s : State) : State :=
  match rule with
  | none => s
  | some n => modCls (fun c => { c with hits := tmod 0 c.hits n fun v => (v + 1) % 2 ^ 48 }) s

/-- An item is decided, by the rule entry `rule` or by a source default (R289, R292, R295, R315). -/
def decided (i : ClsItem) (act : ActionRec) (rule : Option Nat) (m form : Bytes) (fwd : Option (Nat × Nat)) (s : State) :
    State :=
  drainAll i.source i.portId (modItem i.id (fun x => { x with
    pass := 2
    act
    rule := rule.getD 0xFFFF
    byRule := rule.isSome
    metaB := m
    form
    fwd }) (countHit rule s))

/-- A lookup meets a compiled line under recomputation: it reads the entries up to the one that decides (R308, R399,
log 38). -/
def meetsBadLine (s : State) (hit : Option (Nat × Rule)) : Bool :=
  match hit with
  | none => s.cls.badLines != []
  | some h => s.cls.badLines.any fun b => decide (b ≤ h.1)

/-- A pass as it looks an item up: the lookup counts as a pass, and a bad line gives the parse-fail action (R288, R289,
R308). `onward` is what follows for a lookup that was good. -/
def lookupPass (i : ClsItem) (d : Bytes) (p : Parsed) (m : Bytes) (onward : Option (Nat × Rule) → State → State)
    (s : State) : State :=
  let cfg := sourceOf s i
  let ks := keyBytes d p.headers (tget [] (tablesOf s i).profiles cfg.profile)
  let hit := lookupRule (tablesOf s i).rules ks m
  let s1 := countCls i.source 16 1 s
  if meetsBadLine s hit then
    let s2 := countCls i.source 144 1 (if p.trunc then countCls i.source 56 1 s1 else s1)
    decided i cfg.parseFail none m d (forwardRange d cfg.fcs p) s2
  else onward hit s1

/-- The deciding lookup of an item: its rule's action, or the no-match action (R289, R283). -/
def finishLookup (i : ClsItem) (d : Bytes) (p : Parsed) (m : Bytes) (hit : Option (Nat × Rule)) (s : State) : State :=
  let cfg := sourceOf s i
  let s1 := if p.trunc then countCls i.source 56 1 s else s
  let fwd := forwardRange d cfg.fcs p
  match hit with
  | some h => decided i h.2.act (some h.1) m d fwd s1
  | none => decided i cfg.noMatch none m d fwd (countCls i.source 48 1 s1)

/-- LEN_CONFLICT: the item is not looked up (R284). -/
def conflictPass (i : ClsItem) (d : Bytes) (p : Parsed) (m : Bytes) (s : State) : State :=
  let cfg := sourceOf s i
  decided i cfg.parseFail none m d (forwardRange d cfg.fcs p) (countCls i.source 64 1 s)

/-- PASS 0 (R289, R298). `forced` is an injected LEN_CONFLICT (R509 0x0B). -/
def passZero (i : ClsItem) (forced : Bool) (s : State) : State :=
  let cfg := sourceOf s i
  let dec := decryptable s i
  let p0 := parseFrame i.frame (i.label % 4) cfg.fcs (i.cont || encrypted i)
  let p := if forced then { levelOne with conflict := true } else p0
  let m := metaBytes i p false (encrypted i) false cfg.profile (i.frame.length - 8)
  let s1 := if encrypted i && !dec then countCls i.source 40 1 s else s
  if p.conflict then conflictPass i i.frame p m s1
  else lookupPass i i.frame p m (fun hit x =>
    if dec then
      let early := (hit.map fun h => h.2.act.early).getD false
      if early then finishLookup i i.frame p m hit (countCls i.source 24 1 x)
      else modItem i.id (fun y => { y with pass := 1 }) (countCls i.source 32 1 x)
    else finishLookup i i.frame p m hit x) s1

/-- The payload of an item in plaintext: each fragment under its own key index, with a counter block that the spec
leaves to the plane's standard, a free value (R297, log 7). A fragment in the clear, or whose slot holds no valid key,
stays as it is. -/
def decryptParts (f : Nat) : List (Nat × Nat) → Bytes → State → Bytes × State
  | [], rest, s => (rest, s)
  | (k, n) :: parts, rest, s =>
    let part := rest.take n
    if lineKeyValid s f k then
      let fr := drawFree s
      let sl := 2 * f + k - 1
      let plain := fit part.length (Config.ctrCrypt (slot s sl).key fr.1 part)
      let q := decryptParts f parts (rest.drop n) (useSlot sl 1 fr.2)
      (plain ++ q.1, q.2)
    else
      let q := decryptParts f parts (rest.drop n) s
      (part ++ q.1, q.2)

/-- A FIFO line or a cipher buffer of the item fails its CRC: it takes the parse-fail action (R399). -/
def badFifo (i : ClsItem) (inj : Bool) (s : State) : State :=
  let cfg := sourceOf s i
  let f := drawFree s
  let s1 := sramError inj 0x2000 3 (Config.freeNat f.1) 0 (countCls i.source 144 1 f.2)
  decided i cfg.parseFail none (metaBytes i levelOne false (encrypted i) false cfg.profile (i.frame.length - 8))
    i.frame none s1

/-- PASS 1 of the plaintext that the cipher engine returns (R289, R298). -/
def decryptedPass (i : ClsItem) (s : State) : State :=
  let cfg := sourceOf s i
  let q := decryptParts (i.term.getD 0) (i.keys.zip i.lens) (i.frame.drop 8) s
  let d := i.frame.take 8 ++ q.1
  let p := parseFrame d (i.label % 4) cfg.fcs false
  let m := metaBytes i p true false true cfg.profile (d.length - 8)
  if p.conflict then conflictPass i d p m q.2
  else lookupPass i d p m (finishLookup i d p m) q.2

/-- An item in the classifier by its name, in a given pass. -/
def itemIn (s : State) (id pass : Nat) : Option ClsItem := s.cls.items.find? fun i => i.id == id && i.pass == pass

/-- PASS 1 (R289, R298): the plaintext comes through a cipher buffer, whose line a mask may corrupt (R399, R403). -/
def passOne (i : ClsItem) (s : State) : State :=
  let l := writeLine 0x2000 s
  match l.1 with
  | some inj => badFifo i inj l.2
  | none => decryptedPass i l.2

/-- CLS_PASS0 (R289). -/
def execClsPass0 (item : Nat) (s : State) : Host.Outcome State Fault Refusal :=
  match itemIn s item 0 with
  | none => .next s
  | some i =>
    if !basinsRun s then .next s
    else match i.lineBad with
      | some inj => .next (badFifo i inj s)
      | none =>
        let o := occurrence 0x0B i.source s
        .next (passZero i o.1.isSome o.2)

/-- CLS_PASS1 (R298). -/
def execClsPass1 (item : Nat) (s : State) : Host.Outcome State Fault Refusal :=
  match itemIn s item 1 with
  | none => .next s
  | some i => if basinsRun s then .next (passOne i s) else .next s

/-- CLS_EXPIRY (R307): a decryptable item that still awaits a cipher pipe counts in expired_waits too (R419, R434). -/
def execClsExpiry (item : Nat) (s : State) : Host.Outcome State Fault Refusal :=
  match s.cls.items.find? fun i => i.id == item with
  | none => .next s
  | some i =>
    if basinsRun s then
      let s1 := countCls i.source 112 1 (dropItem item s)
      let s2 := if i.pass = 1 then { s1 with cip := { s1.cip with expired := (s1.cip.expired + 1) % 2 ^ 48 } } else s1
      .next (drainAll i.source i.portId s2)
    else .next s

/-! ### Entry (R278, R300, R305) -/

/-- EV_CLS_OVERFLOW, at most once per second and source (R305). -/
def overflowEvent (src : Nat) (s : State) : State :=
  let due := match tfind s.cls.overflowAt src with
    | none => true
    | some t => decide (t + 625000000 ≤ s.time.cycles)
  if due then
    raise 0x0802 src (le 8 (tget 0 s.cls.cnt (src * 256 + 104))) none
      (modCls (fun c => { c with overflowAt := tset c.overflowAt src s.time.cycles }) s)
  else s

/-- Bytes that wait in the input FIFO. -/
def fifoBytes (s : State) : Nat := ((s.cls.items.filter fun i => i.pass == 0).map fun i => i.frame.length).sum

/-- An item enters the classifier under the newest version, or finds the FIFO full (R300, R305). -/
def clsEnter (i : ClsItem) (s : State) : State :=
  let s1 := countCls i.source 8 1 s
  if 65536 < fifoBytes s + i.frame.length then overflowEvent i.source (countCls i.source 104 1 s1)
  else
    let k := sramWrite 0x2000 s1
    let item := { i with
      version := (newest s).num
      endCycles := s.time.cycles
      lineBad := if k.1.1 = 0 then none else some k.1.2 }
    modCls (fun c => { c with items := c.items ++ [item] }) k.2

/-- A name for the next item, shared by the classifier and Basin staging (log 18). -/
def freshName (s : State) : Nat × State :=
  (s.cls.nextItem + 1, modCls (fun c => { c with nextItem := c.nextItem + 1 }) s)

/-! ### Writing the draft (R290, R299, R310 to R312) -/

/-- The action record at an offset (R290). -/
def actionOf (p : Bytes) (o : Nat) : ActionRec :=
  { action := u8 p o
    early := bit (u8 p (o + 1)) 0
    hostPort := u8 p (o + 2)
    tclass := u8 p (o + 3)
    trigger := u8 p (o + 4)
    cmode := u8 p (o + 5)
    headN := u8 p (o + 6)
    mirrorLen := u16 p (o + 8) }

/-- An action record keeps to R290; `rule` allows EARLY. -/
def actionForm (p : Bytes) (o : Nat) (rule : Bool) : Bool :=
  let sends := u8 p o == 1 || u8 p o == 3
  decide (u8 p o ≤ 3) && decide (u8 p (o + 1) ≤ b2n rule) &&
    decide (u8 p (o + 2) ≤ if sends then 3 else 0) && decide (u8 p (o + 3) ≤ if sends then 7 else 0) &&
    decide (u8 p (o + 4) ≤ 16) && decide (u8 p (o + 5) ≤ 4) &&
    decide (u8 p (o + 6) ≤ if u8 p (o + 5) = 3 then 4 else 0) && zeroAt p (o + 7) 1 &&
    (u16 p (o + 8) == 0 || (u8 p o == 3 && decide (64 ≤ u16 p (o + 8) ∧ u16 p (o + 8) ≤ 16384))) && zeroAt p (o + 10) 6

/-- The bytes of an action record. -/
def actionBytes (a : ActionRec) : Bytes :=
  le 1 a.action ++ le 1 (b2n a.early) ++ le 1 a.hostPort ++ le 1 a.tclass ++ le 1 a.trigger ++ le 1 a.cmode ++
    le 1 a.headN ++ zeros 1 ++ le 2 a.mirrorLen ++ zeros 6

/-- The reserved bits of the metadata (R287). -/
def metaReserved : Bytes := [0x08, 0, 0, 0x78, 0xF0, 0xC0, 0, 0]

/-- No bit of `a` is 1 where `m` has 0. -/
def within (a m : Bytes) : Bool := (List.zipWith (fun x y => x &&& y == x) a m).all id

def ruleForm (p : Bytes) : Bool :=
  len 132 p && decide (u8 p 2 ≤ 1) && zeroAt p 3 1 &&
    (if u8 p 2 = 0 then zeroAt p 4 128
     else within (slice p 4 48) (slice p 60 48) && within (slice p 52 8) (slice p 108 8) &&
       ((List.zipWith (fun x y => x &&& y == 0) (slice p 108 8) metaReserved).all id) && actionForm p 116 true)

def ruleSpec : CmdSpec := { op := 0x0801, smb := false, priv := false, legal := legalStd, form := ruleForm }

/-- The draft may be changed by a client (R299). -/
def mayDraft (r : Req) (s : State) : Bool :=
  match s.cls.owner with
  | none => true
  | some o => mayChange r o

/-- The draft with an entry changed; the first change makes its client the owner (R299, R302). -/
def draftChange (r : Req) (entry : Nat) (f : RuleSet → RuleSet) (s : State) : State :=
  modCls (fun c => { c with
    draft := f c.draft
    owner := some (c.owner.getD r.client)
    dirty := if c.dirty.contains entry then c.dirty else c.dirty ++ [entry] }) s

/-- Rule entries that the draft changes. -/
def dirtyRules (s : State) : List Nat := s.cls.dirty.filter fun e => decide (e < 65536)

/-- The entry a RULE_WRITE writes. -/
def ruleOf (r : Req) : Rule :=
  let p := r.payload
  if u8 p 2 = 0 then { client := r.client }
  else
    { valid := true
      client := r.client
      key := slice p 4 48
      metaKey := slice p 52 8
      mask := slice p 60 48
      metaMask := slice p 108 8
      act := actionOf p 116 }

/-- RULE_WRITE (R299, R302, R310): the entry's master is written into CP memory (R400, R403). -/
def ruleAct (r : Req) (s : State) : Served :=
  let n := u16 r.payload 0
  let old := tfind s.cls.draft.rules n
  if !mayDraft r s then fail stDenied s
  else if (old.map fun x => !mayChange r x.client).getD false then fail stDenied s
  else if !(s.cls.dirty.contains n) ∧ 8192 ≤ (dirtyRules s).length then fail stNoResource s
  else
    let l := writeLine 0 s
    let masters := fun (m : List (Nat × Bool)) => (m.filter fun e => e.1 != n) ++ (l.1.map fun inj => (n, inj)).toList
    ok (draftChange r n (fun t => { t with rules := tset t.rules n (ruleOf r) })
      (modCls (fun c => { c with badMasters := masters c.badMasters }) l.2))

def execRuleWrite (s : State) : Host.Outcome State Fault Refusal := .next (serve ruleSpec ruleAct s)

/-- The extractor `i` of a PROFILE_WRITE. -/
def extractorOf (p : Bytes) (i : Nat) : Extractor :=
  { code := u8 p (4 + 4 * i), occ := u8 p (5 + 4 * i), off := u8 p (6 + 4 * i), len := u8 p (7 + 4 * i) }

def extractorOk (x : Extractor) : Bool :=
  decide (1 ≤ x.code ∧ x.code ≤ 16) && (decide (x.occ ≤ 11) || x.occ == 0xFF) && decide (x.off ≤ 63) &&
    decide (1 ≤ x.len ∧ x.len ≤ 16) && decide (x.off + x.len ≤ 64)

/-- The extractors a PROFILE_WRITE gives. -/
def extractorsOf (p : Bytes) : List Extractor := (List.range (u8 p 1)).map (extractorOf p)

def profileForm (p : Bytes) : Bool :=
  len 52 p && decide (u8 p 0 ≤ 15) && decide (u8 p 1 ≤ 12) && zeroAt p 2 2 && (extractorsOf p).all extractorOk &&
    decide (((extractorsOf p).map fun x => x.len).sum ≤ 48) && zeroAt p (4 + 4 * u8 p 1) (48 - 4 * u8 p 1)

def profileSpec : CmdSpec := { op := 0x0802, smb := false, priv := true, legal := legalStd, form := profileForm }

/-- PROFILE_WRITE (R311). -/
def profileAct (r : Req) (s : State) : Served :=
  let n := u8 r.payload 0
  if !mayDraft r s then fail stDenied s
  else ok (draftChange r (0x10000 + n) (fun t => { t with profiles := tset t.profiles n (extractorsOf r.payload) }) s)

def execProfileWrite (s : State) : Host.Outcome State Fault Refusal := .next (serve profileSpec profileAct s)

def clsSourceForm (p : Bytes) : Bool :=
  len 40 p && decide (u8 p 0 ≤ 3) && decide (u8 p 1 ≤ 15) && decide (u8 p 2 ≤ 1) && zeroAt p 3 5 &&
    actionForm p 8 false && actionForm p 24 false

def clsSourceSpec : CmdSpec :=
  { op := 0x0803, smb := false, priv := true, legal := legalStd, form := clsSourceForm }

/-- CLS_SOURCE_WRITE (R312). -/
def clsSourceAct (r : Req) (s : State) : Served :=
  let p := r.payload
  let n := u8 p 0
  let c : SourceCfg := {
    profile := u8 p 1
    fcs := u8 p 2 == 1
    noMatch := actionOf p 8
    parseFail := actionOf p 24 }
  if !mayDraft r s then fail stDenied s
  else ok (draftChange r (0x10100 + n) (fun t => { t with sources := tset t.sources n c }) s)

def execClsSourceWrite (s : State) : Host.Outcome State Fault Refusal := .next (serve clsSourceSpec clsSourceAct s)

/-! ### RULE_COMMIT (R299 to R303, R313) -/

def commitForm (p : Bytes) : Bool := len 4 p && decide (u8 p 0 ≤ 1) && zeroAt p 1 3

def commitSpec : CmdSpec := { op := 0x0804, smb := false, priv := false, legal := legalStd, form := commitForm }

/-- The response of RULE_COMMIT. -/
def commitBytes (changed : Nat) (s : State) : Bytes := le 4 (newest s).num ++ le 4 changed ++ le 4 (shadowFree s)

/-- The draft is a copy of the newest version again, and free; the masters that its changes wrote are no longer those of
any entry (R299, R400). -/
def freshDraft (s : State) : State :=
  modCls (fun c => { c with draft := (newest s).tables, owner := none, dirty := [], badMasters := [] }) s

/-- A rule entry is invalid in every live version (R399), and in the draft where the draft holds it unchanged. -/
def invalidateRule (n : Nat) (s : State) : State :=
  let bad := fun (t : RuleSet) => match tfind t.rules n with
    | none => t
    | some r => { t with rules := tset t.rules n { r with valid := false } }
  modCls (fun c => { c with
    versions := c.versions.map fun v => { v with tables := bad v.tables }
    draft := if c.dirty.contains n then c.draft else bad c.draft }) s

/-- The masters of a commit's rule entries are read from CP memory: one that fails its CRC is invalidated (R400). -/
def readMasters (ns : List Nat) (s : State) : State :=
  (s.cls.badMasters.filter fun e => ns.contains e.1).foldl (fun x e =>
    invalidateRule e.1 (sramError e.2 0 3 (0x10000 + e.1) 0 x)) s

/-- The commit point: a new version is newest, and the lines of its changed rules are compiled (R300, R399, R403). -/
def commitPoint (r : Req) (s : State) : State :=
  let v : Version := {
    num := ((newest s).num + 1) % 0xFFFFFFFF
    tables := s.cls.draft
    rules := (dirtyRules s).length
    time := s.time.ns
    cause := causeOf r
    done := false }
  let s1 := freshDraft (readMasters (dirtyRules s)
    (modCls (fun c => { c with versions := v :: c.versions, wrapped := c.wrapped || v.num == 0 }) s))
  match (dirtyRules s).head? with
  | none => s1
  | some n =>
    let k := rewriteLine 0x2000 n s1
    if k.1 then k.2 else modCls (fun c => { c with badLines := c.badLines ++ [n] }) k.2

/-- RULE_COMMIT (R299, R302, R313). -/
def commitAct (r : Req) (s : State) : Served :=
  if !mayDraft r s then fail stDenied s
  else if u8 r.payload 0 = 0 then
    let s1 := freshDraft s
    okWith (commitBytes 0 s1) s1
  else if 4 ≤ s.cls.versions.length ∨ shadowFree s < (dirtyRules s).length then fail stNoResource s
  else if s.cls.dirty = [] then okWith (commitBytes 0 s) s
  else
    let s1 := commitPoint r s
    okWith (commitBytes (dirtyRules s).length s1) s1

def execRuleCommit (s : State) : Host.Outcome State Fault Refusal := .next (serve commitSpec commitAct s)

/-! ### Reading -/

def ruleStatusSpec : CmdSpec := { op := 0x0805, smb := true, priv := false, legal := readyToFault, form := len 4 }

/-- A number names no committed version (R314). Once the numbers have wrapped every number has been committed, and one
is newer than the newest version when it lies less than half of the numbers ahead of it (R313, log 72). -/
def neverCommitted (s : State) (n : Nat) : Bool :=
  let m := (newest s).num
  n == 0xFFFFFFFF ||
    (if s.cls.wrapped then n != m && decide ((n + 0xFFFFFFFF - m) % 0xFFFFFFFF < 2 ^ 31) else decide (m < n))

/-- An older version than `n` is still live (R303). -/
def olderLive (s : State) (n : Nat) : Bool :=
  match s.cls.versions.getLast? with
  | none => false
  | some v => v.num != n

/-- The state code of a version (R314). -/
def versionState (s : State) (n : Nat) : Nat :=
  if (liveVersion s n).isNone then 4
  else if (newest s).num = n then (if olderLive s n then 1 else 2)
  else 3

/-- RULE_STATUS (R303, R314). -/
def ruleStatusAct (r : Req) (s : State) : Served :=
  let n := u32 r.payload 0
  if neverCommitted s n then fail stBadParam s
  else
    let pendingOlder := (liveVersion s n).isSome && olderLive s n
    .done s (if pendingOlder then stVersionPending else stOk)
      (le 4 n ++ le 1 (versionState s n) ++ le 1 s.cls.versions.length ++ zeros 2 ++ le 4 (newest s).num ++
        le 4 (inVersion s n) ++ le 4 (shadowFree s))

def execRuleStatus (s : State) : Host.Outcome State Fault Refusal := .next (serve ruleStatusSpec ruleStatusAct s)

def ruleReadForm (p : Bytes) : Bool :=
  len 8 p && decide (u8 p 2 ≤ 2) && zeroAt p 3 1 && (u8 p 2 == 2 || zeroAt p 4 4)

def ruleReadSpec : CmdSpec :=
  { op := 0x0806, smb := false, priv := false, legal := readyToFault, form := ruleReadForm }

/-- The response of RULE_READ (R315). -/
def ruleBytes (n version : Nat) (t : RuleSet) (s : State) : Bytes :=
  let x : Rule := tget {} t.rules n
  le 2 n ++ le 1 (b2n x.valid) ++ le 1 x.client ++ le 4 version ++ fit 48 x.key ++ fit 8 x.metaKey ++ fit 48 x.mask ++
    fit 8 x.metaMask ++ actionBytes x.act ++ le 8 (tget 0 s.cls.hits n)

/-- RULE_READ (R315). -/
def ruleReadAct (r : Req) (s : State) : Served :=
  let p := r.payload
  let n := u16 p 0
  match u8 p 2 with
  | 0 => okWith (ruleBytes n 0xFFFFFFFF s.cls.draft s) s
  | 1 => okWith (ruleBytes n (newest s).num (newest s).tables s) s
  | _ =>
    if neverCommitted s (u32 p 4) then fail stBadParam s
    else match liveVersion s (u32 p 4) with
      | none => conflict 0x08 4 n s
      | some v => okWith (ruleBytes n v.num v.tables s) s

def execRuleRead (s : State) : Host.Outcome State Fault Refusal := .next (serve ruleReadSpec ruleReadAct s)

def clsCountersForm (p : Bytes) : Bool := len 4 p && decide (u8 p 0 ≤ 3) && decide (u8 p 1 ≤ 1) && zeroAt p 2 2

def clsCountersSpec : CmdSpec :=
  { op := 0x0807, smb := false, priv := false, legal := readyToFault, form := clsCountersForm }

/-- CLS_COUNTERS (R317). -/
def clsCountersAct (r : Req) (s : State) : Served :=
  let n := u8 r.payload 0
  let body := (List.range 18).flatMap fun i => le 8 (tget 0 s.cls.cnt (n * 256 + 8 + 8 * i))
  okWith (le 1 n ++ zeros 7 ++ body)
    (if u8 r.payload 1 = 1 then modCls (fun c => { c with cnt := c.cnt.filter fun e => e.1 / 256 != n }) s else s)

def execClsCounters (s : State) : Host.Outcome State Fault Refusal := .next (serve clsCountersSpec clsCountersAct s)

def cpRecvForm (p : Bytes) : Bool := len 8 p && decide (u8 p 0 ≤ 3) && zeroAt p 1 1 && zeroAt p 4 4

def cpRecvSpec : CmdSpec := { op := 0x0808, smb := false, priv := false, legal := legalStd, form := cpRecvForm }

/-- The oldest copy of a COPY_CP queue is discarded (R400). -/
def dropCopy (source : Nat) (s : State) : State :=
  match tget [] s.cls.copies source with
  | [] => s
  | _ :: rest => countCls source 136 1 (modCls (fun c => { c with copies := tset c.copies source rest }) s)

/-- Copies at the head of a queue whose lines fail their CRC are discarded as they are read (R400). `fuel` bounds
them. -/
def goodCopies (source : Nat) : Nat → State → State
  | 0, s => s
  | fuel + 1, s =>
    match ((tget [] s.cls.copies source).head?).bind fun c => c.bad with
    | none => s
    | some inj => goodCopies source fuel (dropCopy source (sramError inj 0 3 (0x100 + source) 0 s))

/-- CLS_CP_RECV (R316, R400). -/
def cpRecvAct (r : Req) (s0 : State) : Served :=
  let n := u8 r.payload 0
  let s := goodCopies n (tget [] s0.cls.copies n).length s0
  let o := u16 r.payload 2
  match tget [] s.cls.copies n with
  | [] => okWith (le 1 n ++ zeros 3 ++ le 2 o ++ zeros 18) s
  | c :: rest =>
    if c.data.length ≤ o then fail stBadParam s
    else
      let bs := (c.data.drop o).take 208
      let last := o + bs.length == c.data.length
      okWith (le 1 n ++ le 1 (b2n (rest != []) + 2 * b2n last) ++ le 2 c.data.length ++ le 2 o ++ le 1 bs.length ++
        zeros 1 ++ le 8 c.time.toNat ++ le 2 c.rule ++ zeros 6 ++ bs)
        (if last then modCls (fun x => { x with copies := tset x.copies n rest }) s else s)

def execClsCpRecv (s : State) : Host.Outcome State Fault Refusal := .next (serve cpRecvSpec cpRecvAct s)

end Sys2Proof.Machine
end

