-- ==== Sys2Proof/Machine/Clocks.lean ====
section
/-!
DEFINITION. Clock settings, the CK_CORE point, the AVSBus exchange, the frequency source and device time (chapter 4,
R479).
-/
namespace Sys2Proof.Machine

/-! ### Clocks and points -/

/-- READY only (R105). -/
def legalReady : DevState → Bool
  | .ready => true
  | .boot | .run | .hush | .still | .update | .fault => false

/-- CLOCK_SET (R103 to R105): the combinations that the ratio limits and the 1.2 GHz limit allow. -/
def clockSetForm (p : Bytes) : Bool :=
  len 4 p && decide (u8 p 0 ≤ 1) && decide (u8 p 1 ≤ 2) && decide (u8 p 2 ≤ 1) && zeroAt p 3 1 &&
    (u8 p 0 == 1 || (decide (u8 p 1 ≤ 1) && u8 p 2 == 0))

def clockSetSpec : CmdSpec := { op := 0x0207, smb := false, priv := false, legal := legalReady, form := clockSetForm }

def clockSetAct (r : Req) (s : State) : Served :=
  let p := r.payload
  ok { s with clk := { s.clk with noc := u8 p 0, cpRatio := u8 p 1, memc := u8 p 2 } }

def execClockSet (s : State) : Host.Outcome State Fault Refusal := .next (serve clockSetSpec clockSetAct s)

/-- CORE_POINT (R110). -/
def corePointForm (p : Bytes) : Bool := len 4 p && decide (u8 p 0 ≤ 3) && zeroAt p 1 3

def corePointSpec : CmdSpec :=
  { op := 0x0206, smb := false, priv := false, legal := legalStd, form := corePointForm }

/-- The point now running and VDD_CONFIRMED (R110). -/
def pointBytes (s : State) : Bytes := le 1 s.clk.point ++ le 1 (b2n s.clk.vddConfirmed) ++ zeros 2

/-- CORE_POINT (R110): sets the ceiling and steps to it, in HUSH only on the return to RUN. While THERM_HOT holds
CK_CORE at point 0 there is nothing to step to (R481). ST_BUSY answers any step in progress, a thermal one too, where R110
names steps of Sluice only (DESIGN CHOICE, log 83). -/
def corePointAct (r : Req) (s : State) : Served :=
  let p := u8 r.payload 0
  let s1 := { s with clk := { s.clk with ceiling := p } }
  if s.ctl.devState = .hush then okWith (pointBytes s1) s1
  else if s.clk.step.isSome then fail stBusy s
  else if p = s.clk.point ∨ (s.pwr.hot ∧ s.clk.point = 0) then okWith (pointBytes s1) s1
  else .later (startStep { target := p, origin := .command } s1)

def execCorePoint (s : State) : Host.Outcome State Fault Refusal := .next (serve corePointSpec corePointAct s)

/-- The acknowledgement of the voltage request; an injection withholds it (R107, R479, R509). -/
def avsAck (s : State) : State :=
  if s.clk.step.isSome ∧ s.clk.avsPending ∧ !s.clk.avsWithheld then endStep true s else s

/-- AVSBUS_STATUS_POLL (R479): every 10 µs the status is read; VDone acknowledges the request. `writeGood` and `readGood`
say whether the slave acknowledged the Write and the read with "good CRC, action taken": what it did not so acknowledge is
sent again, and nothing is acknowledged. -/
def execAvsbusStatusPoll (answer : AvsPoll) (s : State) : Host.Outcome State Fault Refusal :=
  if s.clk.step.isSome ∧ s.clk.avsPending then
    let s1 := emit .avsStatus s
    if !answer.writeGood then .next (emit (.avsWrite s.clk.avsMv) s1)
    else if !answer.readGood then .next (emit .avsStatus s1)
    else .next (if answer.vDone then avsAck s1 else s1)
  else .next s

/-- AVSBUS_ACK (R107). -/
def execAvsbusAck (s : State) : Host.Outcome State Fault Refusal := .next (avsAck s)

/-- AVSBUS_ACK_TIMEOUT (R108): no acknowledgement within 2 ms. -/
def execAvsbusAckTimeout (s : State) : Host.Outcome State Fault Refusal :=
  .next (if s.clk.step.isSome then endStep false s else s)

/-- AVSBUS_MONITOR (R479): the readback of voltage and current; a read that the slave did not acknowledge with "good CRC,
action taken" is sent again. The master is in Control, which neither POR_N low nor STILL lets run (R470, R518). -/
def execAvsbusMonitor (good : Bool) (reading : AvsReading) (s : State) : Host.Outcome State Fault Refusal :=
  let s1 := emit .avsRead s
  .next (if !aonRuns s ∨ s.ctl.devState = .still then s
    else if good then { s1 with clk := { s1.clk with vddMv := reading.mv % 0x10000, idd := reading.idd % 0x10000 } }
    else emit .avsRead s1)

/-- CLK_FORCED_SWITCH (R112): a multiplexer switches by force. -/
def execClkForcedSwitch (mux : Nat) (s : State) : Host.Outcome State Fault Refusal :=
  if mux < 7 ∧ timeRuns s then
    .next (raise 0x0202 0 (le 1 mux) none
      { s with clk := { s.clk with forced := s.clk.forced ||| BitVec.ofNat 7 (2 ^ mux) } })
  else .next s

/-! ### The frequency source -/

/-- FREQ_SOURCE_SET (R119). -/
def freqSourceForm (p : Bytes) : Bool :=
  len 4 p && decide (u8 p 0 ≤ 3) && decide (u8 p 1 ≤ 1) && decide (u16 p 2 ≤ 600)

def freqSourceSpec : CmdSpec :=
  { op := 0x0202, smb := false, priv := false, legal := legalStd, form := freqSourceForm }

/-- What a new mode requires at once (R115, R116, R119). -/
def applyMode (cmd : Option Cause) (s : State) : State :=
  let x := s.src
  if x.mode = 0 then
    if x.state = 1 then s
    else match bestPlane s with
      | some p => setSource 1 (p + 1) cmd s
      | none => s
  else if x.state = 1 ∧ 1 ≤ x.source ∧ sourceAllowed x.mode (x.source - 1) then s
  else match bestPlane s with
    | some p => setSource 1 (p + 1) cmd s
    | none => setSource 2 0 cmd s

def freqSourceAct (r : Req) (s : State) : Served :=
  let p := r.payload
  ok (applyMode (causeOf r) { s with src := { s.src with mode := u8 p 0, revertive := u8 p 1 == 1, wtr := u16 p 2 } })

def execFreqSourceSet (s : State) : Host.Outcome State Fault Refusal := .next (serve freqSourceSpec freqSourceAct s)

/-- SOURCE_QUALIFIED (R113): 2 s of frame lock without LOS, LOL or LOF on the active port. -/
def execSourceQualified (plane : Nat) (s : State) : Host.Outcome State Fault Refusal :=
  let x := tget ({} : Plane) s.fr.planes plane
  let d := (tget ({} : DefPort) s.fr.defects (16 * plane + x.prot.activePort)).declared
  if plane ≤ 1 ∧ x.state = 2 ∧ d % 8 = 0 ∧ !qualified s plane ∧ timeRuns s then .next (gainQual plane s) else .next s

/-- SOURCE_WTR_EXPIRY (R114): plane B has been qualified for WTR while plane A is the source. -/
def execSourceWtrExpiry (s : State) : Host.Outcome State Fault Refusal :=
  if s.src.state = 1 ∧ s.src.source = 1 ∧ s.src.mode = 0 ∧ s.src.revertive ∧ s.src.qualB ∧ timeRuns s then
    .next (setSource 1 2 none s)
  else .next s

/-- DPLL_BRIDGE_EXPIRY (R117): 1 s after a protection switch of the selected plane. -/
def execDpllBridgeExpiry (s : State) : Host.Outcome State Fault Refusal :=
  if s.src.bridging ∧ timeRuns s then
    let s1 := { s with src := { s.src with bridging := false } }
    .next (if qualified s (s.src.source - 1) then s1 else sourceLost none s1)
  else .next s

/-- RC_TRIM (R120): the reference of the trim, and the offset of REFCLK_SYS from the line, in parts per 10^9, while
the DPLL is LOCKED. Without the reference that TIME_CONFIG asks for there is no trim. -/
def execRcTrim (refIn : Bool) (ppb : Int) (s : State) : Host.Outcome State Fault Refusal :=
  let locked := s.src.state == 1
  let used :=
    if s.src.trimRef = 0 then (if refIn then 1 else 2)
    else if s.src.trimRef = 1 then (if refIn then 1 else s.src.trimUsed)
    else if s.src.trimRef = 2 then 2
    else (if locked && timeRuns s then 3 else s.src.trimUsed)
  .next { s with src := { s.src with
    trimUsed := used
    refPpb := if !locked then 0x80000000 else if timeRuns s then BitVec.ofInt 32 ppb else s.src.refPpb } }

/-! ### Device time -/

def timeAdjustSpec : CmdSpec := { op := 0x0203, smb := false, priv := false, legal := legalStd, form := len 8 }

/-- TIME_ADJUST (R127). -/
def timeAdjustAct (r : Req) (s : State) : Served :=
  let v := u64 r.payload 0
  if s.time.stepMax < (signed 64 v).natAbs then
    fail stBadParam (raise 0x0203 0 (le 8 v) (causeOf r) { s with time := { s.time with stepRefused := true } })
  else ok (stepTime (s.time.ns + BitVec.ofNat 64 v) s.time.frac s)

def execTimeAdjust (s : State) : Host.Outcome State Fault Refusal := .next (serve timeAdjustSpec timeAdjustAct s)

/-- TIME_FORCE (R128). -/
def timeForceForm (p : Bytes) : Bool := len 16 p && decide (u8 p 0 ≤ 1) && zeroAt p 1 7

def timeForceSpec : CmdSpec :=
  { op := 0x0204, smb := false, priv := false, legal := legalStd, form := timeForceForm }

/-- TIME_FORCE (R128): an absolute value clears the fraction, an offset leaves it. -/
def timeForceAct (r : Req) (s : State) : Served :=
  let v := BitVec.ofNat 64 (u64 r.payload 8)
  let before := s.time.ns
  let s1 := { s with time := { s.time with unsynced := false } }
  let s2 := if u8 r.payload 0 = 0 then stepTime v 0 s1 else stepTime (before + v) s.time.frac s1
  ok (raise 0x0204 0 (le 8 before.toNat ++ le 8 s2.time.ns.toNat) (causeOf r) s2)

def execTimeForce (s : State) : Host.Outcome State Fault Refusal := .next (serve timeForceSpec timeForceAct s)

/-- TIME_CONFIG (R131). -/
def timeConfigForm (p : Bytes) : Bool :=
  len 16 p && decide (1 ≤ u32 p 0 ∧ u32 p 0 ≤ 1000000) && decide (1 ≤ u32 p 4 ∧ u32 p 4 ≤ 500000) &&
    decide (-500000 ≤ signed 32 (u32 p 8) ∧ signed 32 (u32 p 8) ≤ 500000) && decide (u8 p 12 ≤ 1) &&
    decide (u8 p 13 ≤ 3) && zeroAt p 14 2

def timeConfigSpec : CmdSpec :=
  { op := 0x0205, smb := false, priv := false, legal := legalStd, form := timeConfigForm }

/-- TIME_CONFIG (R131): a new offset of PPS_OUT makes no edge of its own (log 64). -/
def timeConfigAct (r : Req) (s : State) : Served :=
  let p := r.payload
  ok { s with
    time := { s.time with
      stepMax := u32 p 0
      ppsWidth := u32 p 4
      ppsOffset := signed 32 (u32 p 8)
      ppsDone := ppsSecond (signed 32 (u32 p 8)) s.time.ns
      ppsEvent := u8 p 12 == 1 }
    src := { s.src with trimRef := u8 p 13 } }

def execTimeConfig (s : State) : Host.Outcome State Fault Refusal := .next (serve timeConfigSpec timeConfigAct s)

def clockStatusSpec : CmdSpec := { op := 0x0201, smb := true, priv := false, legal := readyToFault, form := len 0 }

/-- The 24 bytes of CLOCK_STATUS (R135). -/
def clockStatusBytes (s : State) : Bytes :=
  le 1 s.src.state ++ le 1 s.src.source ++ le 1 s.src.mode ++ le 1 (b2n s.src.qualA + 2 * b2n s.src.qualB) ++
    le 1 s.clk.point ++ le 1 s.clk.ceiling ++ le 1 (b2n s.clk.vddConfirmed) ++ le 1 s.src.trimUsed ++
    le 4 s.src.refPpb.toNat ++ le 4 s.time.incr.toNat ++ le 1 (s.clk.noc + 2 * s.clk.cpRatio) ++ le 1 s.clk.memc ++
    le 1 s.clk.forced.toNat ++ zeros 5

def clockStatusAct (_ : Req) (s : State) : Served := okWith (clockStatusBytes s) s

def execClockStatus (s : State) : Host.Outcome State Fault Refusal := .next (serve clockStatusSpec clockStatusAct s)

/-! ### PPS -/

/-- PPS_OUT_RISE (R130, R132): device time plus the offset has passed a whole second since the last edge. -/
def execPpsOutRise (s : State) : Host.Outcome State Fault Refusal :=
  let second := ppsSecond s.time.ppsOffset s.time.ns
  .next (if timeRuns s ∧ s.time.ppsDone < second then
      { s with time := { s.time with ppsOut := true, ppsDone := second } }
    else s)

/-- PPS_OUT_FALL (R132). -/
def execPpsOutFall (s : State) : Host.Outcome State Fault Refusal :=
  .next { s with time := { s.time with ppsOut := false } }

/-- PPS_IN_EDGE (R131, R133, R474): latched and counted while the time island runs, and a wake source. -/
def execPpsInEdge (s : State) : Host.Outcome State Fault Refusal :=
  if timeRuns s then
    let s1 := { s with time := { s.time with ppsTs := s.time.ns, ppsCount := s.time.ppsCount + 1 } }
    let s2 := if s.time.ppsEvent then raise 0x0205 0 (le 8 s.time.ns.toNat) none s1 else s1
    .next (wakeSource 6 0 s2)
  else .next (wakeSource 6 0 s)

end Sys2Proof.Machine
end

