-- ==== Sys2Proof/Machine/Planes.lean ====
section
/-!
DEFINITION. The planes as every line chapter uses them: accessors, counters, line time, the mirror of the active
engine's state (R254, R257), and the withdrawal of placed bursts (R102, R202).
-/
namespace Sys2Proof.Machine

/-- One frame of 125 µs, in ticks of 1/155,520 ns (R166). -/
def frameTicks : Nat := 19440000000

/-- One microsecond, in ticks. -/
def usTicks : Nat := 155520000

/-- Ticks of one bit at a rate code (R328, R136). -/
def bitTicks (rate : Nat) : Nat :=
  match rate with
  | 0 => 62500
  | 1 => 15625
  | 2 => 12500
  | 3 => 6250
  | _ => 3125

/-- A rate code is one of the plane's burst rates (R136). -/
def rateAllowed (p rate : Nat) : Bool := if p = 0 then decide (rate ≤ 1) else decide (2 ≤ rate ∧ rate ≤ 4)

/-- Ticks of one bit at the plane's highest rate (R137). -/
def topTicks (p : Nat) : Nat := if p = 0 then 15625 else 3125

/-- Adds to a plane counter by its offset in PLANE_COUNTERS; it wraps (R189). -/
def countPlane (p off k : Nat) (s : State) : State :=
  modPlane p (fun x => { x with cnt := tmod 0 x.cnt off fun v => (v + k) % 2 ^ 48 }) s

/-- Adds to a Spout counter by its offset in SPOUT_STATUS; it wraps (R249). -/
def countSpout (p off k : Nat) (s : State) : State :=
  modPlane p (fun x => { x with spout := tmod 0 x.spout off fun v => (v + k) % 2 ^ 48 }) s

/-- A line engine of R20: plane and engine. -/
def isEngine (code : Nat) : Bool := code == 0x00 || code == 0x01 || code == 0x10 || code == 0x11

/-- Where an engine's hunter stands in the table of hunters; a port monitor stands at its port code. -/
def engineKey (code : Nat) : Nat := 0x100 + code

def hunter (s : State) (k : Nat) : Hunter := tget {} s.fr.hunters k

def modHunter (k : Nat) (f : Hunter → Hunter) (s : State) : State :=
  { s with fr := { s.fr with hunters := tmod {} s.fr.hunters k f } }

/-- The port bound to both engines (R252). -/
def activePort (s : State) (p : Nat) : Nat := 16 * p + (prot s p).activePort

/-- Defect detectors of a receive port. -/
def defPort (s : State) (port : Nat) : DefPort := tget {} s.fr.defects port

def modDef (port : Nat) (f : DefPort → DefPort) (s : State) : State :=
  { s with fr := { s.fr with defects := tmod {} s.fr.defects port f } }

/-- A downstream HEC check of a kind: whether an injection of that kind corrupts it (R509 0x03: 0 XGEM header, 1 FS
header, 2 SFC, 3 allocation structure, 4 PON-ID). -/
def hecInjected (p kind : Nat) (s : State) : Bool × State :=
  match (injIndex 0x03 p s).map fun i => (tget ({} : InjEntry) s.inj.entries i).param.toNat with
  | none => (false, s)
  | some k =>
    if k = kind then
      let o := occurrence 0x03 p s
      (o.1.isSome, o.2)
    else (false, s)

/-- The line island of a plane runs (R28, R466, R470): plane B's stops before plane A's. -/
def lineRuns (p : Nat) (s : State) : Bool := basinsRun s && islandUp (5 + p) s

/-! ### Samples (R137, R147) -/

/-- The bits of a byte string, the highest of each byte first. -/
def bitList (bs : Bytes) : List Bool := bs.flatMap fun b => (List.range 8).map fun i => b.getLsbD (7 - i)

/-- Whole bytes of a list of bits. -/
def packBits : List Bool → Bytes
  | a :: b :: c :: d :: e :: f :: g :: h :: rest =>
    BitVec.ofNat 8 ([a, b, c, d, e, f, g, h].foldl (fun n x => 2 * n + b2n x) 0) :: packBits rest
  | _ => []

/-- The bits that 4 samples each decide: the majority, or sample 2 of a 2-2 split (R137). -/
def decide4 : List Bool → List Bool
  | a :: b :: c :: d :: rest =>
    let n := b2n a + b2n b + b2n c + b2n d
    (if n = 2 then c else decide (2 < n)) :: decide4 rest
  | _ => []

/-- The bits that 2 samples each decide: the common value, or sample 1 where they differ (R137). -/
def decide2 : List Bool → List Bool
  | a :: b :: rest => (if a = b then a else b) :: decide2 rest
  | _ => []

/-- Samples of a bit at a rate, on a lane that runs at its plane's highest rate (R137). -/
def sampleRatio (p rate : Nat) : Nat := bitTicks rate / topTicks p

/-- The bytes that a string of samples decides (R137). -/
def decimate (k : Nat) (bs : Bytes) : Bytes :=
  match k with
  | 4 => packBits (decide4 (bitList bs))
  | 2 => packBits (decide2 (bitList bs))
  | _ => bs

/-! ### Line time and device time -/

/-- The device time of a line instant of a plane: the last superframe boundary tells the instant's place among the
cycles of CK_TS (R130, R134). -/
def stampAt (s : State) (p at_ : Nat) : Stamp :=
  let x := plane s p
  let u := deviceUnits s.time ((x.psyncCycles * stepTicks + at_ : Nat) - (x.psyncAt : Int))
  { ns := u / 2 ^ 24, frac := u / 256 % 65536 }

/-- The device time `ticks` after the last superframe boundary of a plane. -/
def stampAfter (s : State) (p ticks : Nat) : Stamp := stampAt s p ((plane s p).psyncAt + ticks)

/-- Whole milliseconds since a count of CK_TS cycles, which no step of device time changes (R127, R188). -/
def msSince (s : State) (cycles : Nat) : Nat := (s.time.cycles - cycles) / 625000

/-! ### The mirror (R254, R257) -/

/-- A record is not current on the standby: the standby has not applied it since it last held nothing, or the generation
applied is not the one sent (R254, R263). -/
def isBehind (x : Prot) (rec : Nat) : Bool := tfind x.applied rec != some (tget 0 x.gens rec)

/-- The standby engine changes its status, with EV_MIRROR_STATE (R257, R277). -/
def setMirror (p new : Nat) (cmd : Option Cause) (s : State) : State :=
  let c := standbyCode s p
  let old := engineStatus s c
  if old = new then s else raise 0x0704 p (le 1 c ++ le 1 old ++ le 1 new) cmd (setEngine c new s)

/-! ### Bursts on the lane (R143 to R146, R262) -/

/-- The pending burst with the earliest T. -/
def nextBurst (s : State) (p : Nat) : Option Burst :=
  (plane s p).sched.foldl (fun o b => match o with
    | none => some b
    | some c => if b.start < c.start then some b else some c) none

/-- The times that the next burst of a line port takes: those in force at the end of the burst before it, or now where
there is none (R146). -/
def nextTimes (x : Port) : TxTimes := if x.lastEnd.isNone then x.times else x.latched.getD x.times

/-- How the lane handles the gap between an end and the start of the next burst (R145): 0 bridged with TX_EN high, 1 with
1010 throughout, 2 with electrical idle. -/
def gapKind (x : Port) (stop start : Nat) : Nat :=
  let n := nextTimes x
  if start < stop + (x.inForce.toffLag + n.minLow + n.tonLead) * stepTicks then 0
  else if start < stop + (x.inForce.toffLag + 17 + n.trainLead) * stepTicks then 1
  else 2

/-- The gap that the next pending burst of a plane leaves after the last one sent; without one the lane goes idle. -/
def nextGap (s : State) (p : Nat) : Nat :=
  let x := linePort s (activePort s p)
  match x.lastEnd, nextBurst s p with
  | some e, some b => gapKind x e b.start
  | _, _ => 2

/-- Steps 4 and 5 of R144: TX_EN of a port falls toff_lag after its last burst, or at once where that instant has
passed. -/
def fallTx (p port : Nat) (s : State) : State :=
  let x := linePort s port
  let e := x.lastEnd.getD 0
  let fall := e + x.inForce.toffLag * stepTicks
  let late := decide (fall + stepTicks ≤ lineNow s p)
  modLinePort port (fun y => { y with air := [] })
    (setTxEn port false (if late then none else some (fall : Int)) s)

/-- Step 6 of R144: the lane enters electrical idle 1.6 ns after TX_EN has fallen. -/
def idleLane (port : Nat) (s : State) : State :=
  let x := linePort s port
  let stop := x.lastEnd.getD 0 + (x.inForce.toffLag + 1) * stepTicks
  emit (.laneIdle port true stop) (emit (.laneFill port true (lane s (port + 0x40)).tx.invert (x.lastEnd.getD 0) stop)
    (modLane (port + 0x40) (fun l => { l with elecIdle := true }) s))

/-- What the passing of time does to the active port of a plane: TX_EN falls once every burst in flight has had its lag,
unless the gap to the next burst is bridged, and the lane then goes idle unless that gap is short (R144, R145). -/
def endBursts (p : Nat) (s : State) : State :=
  let port := activePort s p
  let x := linePort s port
  let now := lineNow s p
  if (lane s (port + 0x40)).state ≠ 1 ∨ x.lastEnd.isNone then s
  else
    let s1 := if !x.air.isEmpty ∧ x.air.all (fun t => decide (t ≤ now)) ∧ nextGap s p ≠ 0 then fallTx p port s else s
    let quiet := x.lastEnd.getD 0 + (x.inForce.toffLag + 1) * stepTicks
    if (linePort s1 port).air.isEmpty ∧ !(lane s1 (port + 0x40)).elecIdle ∧ nextGap s1 p = 2 ∧ quiet ≤ now then
      idleLane port s1
    else s1

/-! ### Placed bursts -/

/-- Pending bursts that are not to be sent leave the schedule (R102, R202). -/
def withdraw (p : Nat) (gone : Burst → Bool) (s : State) : State :=
  let x := plane s p
  if (x.sched ++ x.mapSched).any gone then
    touch p planeRecord (endBursts p (modPlane p (fun y => { y with
      sched := y.sched.filter fun b => !gone b
      mapSched := y.mapSched.filter fun b => !gone b }) s))
  else s

/-- A number of discarded bursts is counted (R262, R264, R268, R274). -/
def countDiscarded (p k : Nat) (s : State) : State :=
  modProt p (fun x => { x with discarded := x.discarded + BitVec.ofNat 32 k }) s

end Sys2Proof.Machine
end

