-- ==== Sys2Proof/Machine/Population.lean ====
section
/-!
DEFINITION. The population of emulated terminals as every line chapter uses it: accessors, misbehaviour items, PLOAM
queues, and the transitions of R200 with all they entail.
-/
namespace Sys2Proof.Machine

/-! ### Accessors -/

/-- The plane of a flat index (R21). -/
def planeOf (f : Nat) : Nat := f / 1024

/-- A terminal that does not exist is left alone; a change is mirrored (R254). -/
def modTerm (f : Nat) (g : Term → Term) (s : State) : State :=
  match findTerm s f with
  | none => s
  | some t => touch (planeOf f) (f % 1024) { s with tm := { s.tm with terms := tset s.tm.terms f (g t) } }

/-- The same for what the mirror does not carry: counters, defects, timers and host queues (R191, R254). -/
def modTermLocal (f : Nat) (g : Term → Term) (s : State) : State :=
  match findTerm s f with
  | none => s
  | some t => { s with tm := { s.tm with terms := tset s.tm.terms f (g t) } }

/-- Adds 1 to a counter of a terminal by its offset in TERM_STATUS; it wraps (R222). -/
def countTerm (f off : Nat) (s : State) : State :=
  modTermLocal f (fun t => { t with cnt := tmod 0 t.cnt off fun v => (v + 1) % 2 ^ 32 }) s

/-- The terminals of a plane, in order of their index. -/
def planeTerms (s : State) (p : Nat) : List (Nat × Term) := s.tm.terms.filter fun e => planeOf e.1 == p

/-- A terminal runs the state machine of R200. -/
def enabledState (st : Nat) : Bool := decide (0x11 ≤ st)

/-- A terminal may send bursts for its own Alloc-IDs (R202). -/
def ownBursts (st : Nat) : Bool := st == 0x14 || st == 0x15

/-- The terminal of a plane that holds an ONU-ID (R196). -/
def byOnu (s : State) (p onu : Nat) : Option Nat :=
  ((planeTerms s p).find? fun e => e.2.onuId == some onu).map Prod.fst

/-- The terminal and the queue of a plane that an Alloc-ID is bound to (R224); of several terminals that the head end has bound
it to, the one with the lowest flat index (DESIGN CHOICE, log 85). -/
def byAlloc (s : State) (p alloc : Nat) : Option (Nat × Nat) :=
  (planeTerms s p).findSome? fun e => (firstIdx (fun a => a == some alloc) e.2.allocs 0).map fun q => (e.1, q)

/-- The ONU-ID as an event carries it (R223). -/
def onuField (o : Option Nat) : Nat := o.getD 0xFFFF

/-! ### Misbehaviour items (R221) -/

/-- An item in effect. -/
def misbItem (t : Term) (item : Nat) : Option Misb :=
  match tfind t.misb item with
  | none => none
  | some m => if m.mode = 0 then none else some m

/-- One occurrence of an item: in mode 2 its count falls, and the item ends when it is spent. -/
def useItem (f item : Nat) (s : State) : State :=
  match (findTerm s f).bind fun t => misbItem t item with
  | none => s
  | some m =>
    if m.mode ≠ 2 then s
    else if m.count ≤ 1 then modTerm f (fun t => { t with misb := tdel t.misb item }) s
    else modTerm f (fun t => { t with misb := tset t.misb item { m with count := m.count - 1 } }) s

/-- An item in effect on a terminal now. -/
def itemOf (s : State) (f item : Nat) : Option Misb := (findTerm s f).bind fun t => misbItem t item

/-! ### Upstream PLOAM messages (R210, R221) -/

/-- The bit of a message in a type mask (R221). -/
def typeBit : UpBody → Nat
  | .serialNumber _ => 0
  | .registration _ => 1
  | .keyReport _ _ _ => 2
  | .acknowledge _ _ => 3
  | .host _ _ => 4

/-- PLOAM_SUPPRESS names the message. -/
def suppressed (s : State) (f : Nat) (m : UpBody) : Bool :=
  ((itemOf s f 4).map fun i => bit i.p0 (typeBit m)).getD false

/-- The first burst of a terminal that waits for a message to enter the queue gets it (R205, R210). -/
def giveOwed (f : Nat) (m : UpBody) : List Burst → List Burst
  | [] => []
  | b :: rest => if b.f = f ∧ b.owed then { b with ploam := some m, owed := false } :: rest else b :: giveOwed f m rest

/-- A message enters the queue of 8; one that finds it full is dropped and counted (R210). Where a grant that the terminal
has yet to see has already been given the head that the queue will then have, the message goes with that grant's burst. -/
def enterUp (f : Nat) (m : UpBody) (s : State) : State :=
  match findTerm s f with
  | none => s
  | some t =>
    if (plane s (planeOf f)).sched.any fun b => b.f == f && b.owed then
      touch (planeOf f) planeRecord (modPlane (planeOf f) (fun x => { x with sched := giveOwed f m x.sched }) s)
    else if t.ploamUp.length < 8 then modTerm f (fun x => { x with ploamUp := x.ploamUp ++ [m] }) s else countTerm f 80 s

/-- A message on its way to the queue: a suppressed one is never sent, a delayed one waits (R221). -/
def queueUp (f : Nat) (m : UpBody) (s : State) : State :=
  if suppressed s f m then useItem f 4 s
  else match itemOf s f 5 with
    | none => enterUp f m s
    | some i =>
      if bit i.p1 (typeBit m) then
        let due := s.time.cycles + i.p0 * 625
        useItem f 5 (modTerm f (fun t => { t with ploamDelayed := t.ploamDelayed ++ [{ due, body := m }] }) s)
      else enterUp f m s

/-! ### Host queues (R212) -/

/-- A message for the host enters the terminal's queue of 16. -/
def hostPloam (f : Nat) (e : PloamEntry) (s : State) : State :=
  match findTerm s f with
  | none => s
  | some t =>
    if 16 ≤ t.hostQ.length then countTerm f 44 s
    else
      let s1 := modTermLocal f (fun x => { x with hostQ := x.hostQ ++ [e] }) s
      if t.hostQ.isEmpty then raise 0x0504 (termId f) [0, 1] none s1 else s1

/-- A message enters the plane broadcast queue of 64. -/
def bcastPloam (p : Nat) (e : PloamEntry) (s : State) : State :=
  let q := (plane s p).bcast
  if 64 ≤ q.length then countPlane p 168 1 s
  else
    let s1 := modPlane p (fun x => { x with bcast := x.bcast ++ [e] }) s
    if q.isEmpty then raise 0x0504 (0x8000 * p) [1, 1] none s1 else s1

/-! ### Alloc-IDs and keys -/

/-- EV_ALLOC_CHANGED (R208). -/
def allocEvent (f q alloc : Nat) (bound : Bool) (cmd : Option Cause) (s : State) : State :=
  raise 0x0507 (termId f) (le 1 q ++ le 2 alloc ++ le 1 (b2n bound)) cmd s

/-- Binds a queue to an Alloc-ID or releases it. -/
def setAlloc (f q : Nat) (a : Option Nat) (s : State) : State :=
  modTerm f (fun t => { t with allocs := t.allocs.set q a }) s

/-- Releases every Alloc-ID, with its event unless another event reports the transition (R208). -/
def releaseAllocs (f : Nat) (events : Bool) (cmd : Option Cause) (s : State) : State :=
  [0, 1, 2, 3].foldl (fun x q =>
    match ((findTerm x f).map fun t => t.allocs.getD q none).getD none with
    | none => x
    | some a =>
      let y := setAlloc f q none x
      if events then allocEvent f q a false cmd y else y) s

/-- The upstream key index changes, with EV_KEY_SWITCH (R215). -/
def switchKey (f new : Nat) (cmd : Option Cause) (s : State) : State :=
  match findTerm s f with
  | none => s
  | some t =>
    let s1 := modTerm f (fun x => { x with keyUp := new, keyNext := none }) s
    if t.keyUp = new then s1 else raise 0x0506 (termId f) (le 1 t.keyUp ++ le 1 new) cmd s1

/-- Both line key slots are zeroised and the upstream index is 0 (R215). -/
def zeroiseLine (f : Nat) (cmd : Option Cause) (s : State) : State :=
  let clear : Slot → Slot := fun x => { x with state := 0, kind := 0, key := [] }
  switchKey f 0 cmd (modSlot (2 * f) clear (modSlot (2 * f + 1) clear s))

/-! ### Distance (R206) -/

/-- Changes what the grants that a terminal has yet to see record of it (R205). -/
def modUnseen (f : Nat) (g : Unseen → Unseen) (s : State) : State :=
  let one : OpenGrant → OpenGrant := fun o => { o with unseen := o.unseen.map fun u => if u.f = f then g u else u }
  if (plane s (planeOf f)).opened.isEmpty then s
  else modPlane (planeOf f) (fun x => { x with opened := x.opened.map one }) s

/-- The SFC field of a change that no boundary brought (R206). -/
def noSfc : Nat := 2 ^ 64 - 1

/-- A pending distance change applies, with EV_TERM_DISTANCE. A grant accepted before a boundary keeps the old values; a
change that no boundary brings holds for every grant that the terminal has yet to see (R206). -/
def applyDistance (f sfc : Nat) (cmd : Option Cause) (s : State) : State :=
  match findTerm s f with
  | none => s
  | some t =>
    match t.pendDist with
    | none => s
    | some d =>
      let s1 := if sfc = noSfc then modUnseen f (fun u => { u with dist := d.dist, resp := d.resp }) s else s
      raise 0x0508 (termId f) (le 4 t.dist ++ le 4 d.dist ++ le 8 sfc) (if cmd.isSome then cmd else d.sched.cause)
        (modTerm f (fun x => { x with dist := d.dist, resp := d.resp, pendDist := none }) s1)

/-! ### Defects of a terminal (R217) -/

/-- EV_TERM_DEFECT. -/
def termDefectEvent (f bit : Nat) (on : Bool) (cmd : Option Cause) (s : State) : State :=
  raise 0x0503 (termId f) (le 1 bit ++ le 1 (b2n on)) cmd s

/-- A defect leaves the states in which it is evaluated; `lodsEvent` whether the clearing of LODS is reported. -/
def clearDefects (f new : Nat) (lodsEvent : Bool) (cmd : Option Cause) (s : State) : State :=
  match findTerm s f with
  | none => s
  | some t =>
    let inLods := new == 0x12 || new == 0x14 || new == 0x15 || new == 0x16
    let inPloam := new == 0x14 || new == 0x15
    let s1 := modTermLocal f (fun x => { x with
      lods := x.lods && inLods
      loploam := x.loploam && inPloam
      lok := x.lok && new == 0x15
      micRun := if inPloam then x.micRun else 0
      lokRun := if new = 0x15 then x.lokRun else 0 }) s
    let s2 := if t.lods && !inLods && lodsEvent then termDefectEvent f 0 false cmd s1 else s1
    let s3 := if t.loploam && !inPloam then termDefectEvent f 1 false cmd s2 else s2
    if t.lok && new != 0x15 then termDefectEvent f 2 false cmd s3 else s3

/-! ### Plane-wide causes (R204) -/

/-- A plane-wide cause reaches terminals, each given with its present state. -/
def startBulk (p cause : Nat) (who : Tab Nat) (s : State) : State :=
  if who.isEmpty then s else modPlane p (fun x => { x with bulks := x.bulks ++ [{ cause, waiting := who }] }) s

/-- The first cause of a kind that a terminal has yet to act on. -/
def bulkOf (s : State) (f : Nat) (causes : List Nat) : Option (Nat × Bulk) :=
  (((plane s (planeOf f)).bulks.zipIdx).find? fun b => causes.contains b.1.cause && (tfind b.1.waiting f).isSome).map
    fun b => (b.2, b.1)

/-- A terminal has acted on the plane-wide cause at place `n`; `pair` when it took the pair of states that the cause
brings (R204). -/
def actedBulk (f n : Nat) (pair : Option (Nat × Nat)) (s : State) : State :=
  modPlane (planeOf f) (fun x => { x with bulks := x.bulks.modify n fun b => { b with
    waiting := tdel b.waiting f
    pairs := match pair with
      | none => b.pairs
      | some (o, w) => tmod 0 b.pairs (o * 256 + w) fun v => v + 1 } }) s

/-- A terminal acts on no plane-wide cause of these kinds any more. -/
def leaveBulks (f : Nat) (causes : List Nat) (s : State) : State :=
  let leave : Bulk → Bulk := fun b => if causes.contains b.cause then { b with waiting := tdel b.waiting f } else b
  modPlane (planeOf f) (fun x => { x with bulks := x.bulks.map leave }) s

/-- One EV_TERMS_BULK for each pair of states (R204, R223). -/
def bulkEvents (p cause : Nat) (pairs : Tab Nat) (cmd : Option Cause) (s : State) : State :=
  pairs.foldl (fun x e =>
    if e.2 = 0 then x
    else raise 0x0502 p (le 1 (e.1 / 256) ++ le 1 (e.1 % 256) ++ le 1 cause ++ le 2 e.2) cmd x) s

/-! ### Transitions (R200) -/

/-- What entering a state other than O5 and O6 discards: queued OMCI frames and cut frames (R220, R236). -/
def dropOperation (f : Nat) (s : State) : State :=
  let s1 := modTerm f (fun t => { t with omciQ := [], omciPart := [], omciTotal := 0 }) s
  let s2 := { s1 with up := { s1.up with queues := tmap s1.up.queues fun q x =>
      if q / 4 = f then { x with cut := none, omciWait := false } else x } }
  if s.up.queues.any fun e => e.1 / 4 == f && e.2.cut.isSome then touch (planeOf f) planeRecord s2 else s2

/-- The identity that the head end gave is discarded (R197, R200). -/
def dropIdentity (f : Nat) (events : Bool) (cmd : Option Cause) (s : State) : State :=
  modTerm f (fun t => { t with onuId := none, eqd := none }) (releaseAllocs f events cmd s)

/-- The plane's downstream is in SYNC with a known burst profile, and its Spouts may send (R200). -/
def planeReady (s : State) (p : Nat) : Bool :=
  let x := plane s p
  x.state == 2 && !x.profiles.isEmpty && x.mode == 0

/-- In the terminal's own view the plane has come into SYNC (R205). -/
def viewSync (s : State) (p : Nat) (t : Term) : Bool :=
  decide ((hunter s (engineKey (activeCode s p))).syncCycles + t.dist ≤ s.time.cycles)

/-- EV_TERM_STATE (R204, R223). -/
def stateEvent (f old new cause : Nat) (before after : Option Nat) (cmd : Option Cause) (s : State) : State :=
  raise 0x0501 (termId f) (le 1 old ++ le 1 new ++ le 1 cause ++ le 2 (onuField after) ++ le 2 (onuField before)) cmd s

/-- Changes what a terminal's bursts record of the things ahead of their grants (R205). -/
def setAhead (f : Nat) (g : Nat → Nat) (s : State) : State :=
  let one : Burst → Burst := fun b => if b.f = f then { b with after := g b.after } else b
  if (plane s (planeOf f)).sched.isEmpty ∧ (plane s (planeOf f)).mapSched.isEmpty then s
  else modPlane (planeOf f) (fun x => { x with sched := x.sched.map one, mapSched := x.mapSched.map one }) s

/-- A burst that its terminal may send in the state that it has (R202). -/
def mayBurst (s : State) (b : Burst) : Bool := if b.sn then termState s b.f == 0x12 else ownBursts (termState s b.f)

/-- A burst that answers a grant of its terminal: it may be sent, and its Alloc-IDs are the terminal's own (R202). -/
def ownGrant (s : State) (b : Burst) : Bool :=
  mayBurst s b && (b.sn || b.allocs.all fun a => byAlloc s (planeOf b.f) a.alloc == some (b.f, a.queue))

/-- The grants that a terminal sees from now on with nothing ahead of them are judged as it has then become (R202, R205). -/
def judgeSeen (f : Nat) (s : State) : State := withdraw (planeOf f) (fun b => b.f == f && b.after == 0 && !ownGrant s b) s

/-- A terminal has acted on something: one thing less is ahead of the grants that it has yet to see, and those that it sees
now are judged anew (R202, R205). -/
def passAhead (f : Nat) (s : State) : State :=
  let last : Burst → Bool := fun b => b.f == f && b.after == 1
  let x := plane s (planeOf f)
  let s1 := modUnseen f (fun u => { u with after := u.after - 1 }) (setAhead f (fun n => n - 1) s)
  if (x.sched ++ x.mapSched).any last then judgeSeen f s1 else s1

/-- A transition that no message on its way foretells: every burst of the terminal is judged by it (R202). -/
def judgeAhead (f : Nat) (s : State) : State := setAhead f (fun _ => 0) s

/-- The change of state itself: the timer stops, bursts of the grants that the terminal has seen and that the new state
does not send leave the schedule (R205), and the event follows unless another event reports the transition (R200, R202, R204). -/
def setTermState (f new cause : Nat) (alone : Bool) (onu before : Option Nat) (cmd : Option Cause) (s : State) : State :=
  match findTerm s f with
  | none => s
  | some t =>
    let s1 := modTerm f (fun x => { x with
      state := new
      lastCause := cause
      timer := 0
      onuId := if onu.isSome then onu else x.onuId }) s
    let s2 := withdraw (planeOf f) (fun b => b.f == f && b.after == 0 && !(if b.sn then new == 0x12 else ownBursts new)) s1
    if alone then stateEvent f t.state new cause before (if onu.isSome then onu else t.onuId) cmd s2 else s2

/-- What entering a state discards (R197, R200, R206, R215, R220). -/
def discardFor (f new : Nat) (alone : Bool) (cmd : Option Cause) (s : State) : State :=
  let old := termState s f
  let s1 := if new ≠ 0x15 ∧ new ≠ 0x16 then dropOperation f s else s
  let s2 := if new ≤ 0x12 ∨ new = 0x17 then dropIdentity f alone cmd s1 else s1
  let s3 := if new ≤ 0x11 ∨ new = 0x17 then applyDistance f noSfc cmd (zeroiseLine f cmd s2) else s2
  let s4 := if old = 0x16 then leaveBulks f [10] s3 else s3
  clearDefects f new alone cmd s4

/-- A terminal enters a state (R200): `alone` when the transition has an event of its own, `onu` an ONU-ID taken with
it. In O1 it goes on to O2-3 where its own view already has SYNC and a burst profile (R204). -/
def enterState (f new cause : Nat) (alone : Bool) (onu : Option Nat) (cmd : Option Cause) (s : State) : State :=
  match findTerm s f with
  | none => s
  | some t =>
    let s1 := setTermState f new cause alone onu t.onuId cmd (discardFor f new alone cmd s)
    if new = 0x11 ∧ planeReady s1 (planeOf f) ∧ viewSync s1 (planeOf f) t then
      setTermState f 0x12 2 true none none none s1
    else s1

/-- Every enabled terminal of a plane is put in O1 for a plane-wide cause that reaches all of them at once: plane
stopped, or wake from Still (R200, R204). -/
def allToInitial (p cause : Nat) (cmd : Option Cause) (s : State) : State :=
  let who := (planeTerms s p).filter fun e => enabledState e.2.state && e.2.state != 0x11
  let pairs := who.foldl (fun (t : Tab Nat) e => tmod 0 t (e.2.state * 256 + 0x11) fun v => v + 1) []
  let s1 := who.foldl (fun x e => enterState e.1 0x11 cause false none none x)
    (modPlane p (fun x => { x with bulks := x.bulks.map fun b => { b with waiting := [] } }) s)
  bulkEvents p cause pairs cmd s1

end Sys2Proof.Machine
end

