-- ==== Sys2Proof/Machine/EngineFaults.lean ====
section
/-!
DEFINITION. What happens to a whole plane: loss and gain of frame lock (R166, R190), the stop of a plane (R164), the
choice of the active port and the line switch (R266 to R269), takeover and engine faults (R257, R258, R262 to R265).
-/
namespace Sys2Proof.Machine

/-! ### Frame lock of the active engine -/

/-- EV_FRAME_LOCK (R190). -/
def frameLock (p : Nat) (gained : Bool) (sfc : Nat) (s : State) : State :=
  raise 0x0401 p (le 1 p ++ le 1 (activeCode s p) ++ le 1 (b2n gained) ++ le 8 sfc) none s

/-- What the loss or the regain of the downstream makes of a terminal in a state (R200). -/
def afterCause (cause st : Nat) : Nat :=
  if cause = 7 then (if st = 0x12 ∨ st = 0x14 then 0x11 else if st = 0x15 then 0x16 else st)
  else if cause = 8 then (if st = 0x16 then 0x15 else st)
  else if cause = 2 ∧ st = 0x11 then 0x12
  else st

/-- The state in which a terminal will be once it has acted, in its own view, on the plane-wide causes that are on their way
to it (R204, R205). -/
def dueState (s : State) (p f st : Nat) : Nat :=
  (plane s p).bulks.foldl (fun x b => if (tfind b.waiting f).isSome then afterCause b.cause x else x) st

/-- A plane-wide cause that the terminals of a plane act on in their own views (R204, R205): those for which `reach`
holds in the state that they will have by then. -/
def reachTerms (p cause : Nat) (reach : Nat → Bool) (s : State) : State :=
  startBulk p cause (((planeTerms s p).map fun e => (e.1, dueState s p e.1 e.2.state)).filter fun e => reach e.2) s

/-- The plane's downstream is lost to its terminals (R200). -/
def downstreamLost (p : Nat) (s : State) : State :=
  reachTerms p 7 (fun st => st == 0x12 || st == 0x14 || st == 0x15) s

/-- Terminals in O1 go on to O2-3: the plane is in SYNC with a known profile (R204, cause 2). -/
def profileKnown (p : Nat) (s : State) : State := if planeReady s p then reachTerms p 2 (fun st => st == 0x11) s else s

/-- The active engine is in HUNT: no frame lock, no PON-ID, no burst (R102, R166, R171). -/
def enterHunt (p : Nat) (s : State) : State :=
  let known := (plane s p).ponValid
  let s1 := modPlane p (fun x => { x with
    state := 1
    breaks := x.breaks + 1
    ponValid := false
    ponRun := 0
    fsOk := false
    expects := []
    prot := { x.prot with lineBusy := false } }) s
  withdraw p (fun _ => true) (if known then touch p planeRecord s1 else s1)

/-- The active engine loses SYNC (R166). -/
def loseSync (p : Nat) (s : State) : State :=
  downstreamLost p (enterHunt p (frameLock p false 0 (countPlane p 24 1 s)))

/-- The active engine gains SYNC (R166, R169): its terminals in O6 and O1 are reached by it (R200, R204). -/
def gainSync (p sfc : Nat) (s : State) : State :=
  let s1 := modPlane p (fun x => { x with state := 2, sfc }) s
  profileKnown p (reachTerms p 8 (fun st => st == 0x16) (frameLock p true sfc s1))

/-! ### Stopping a plane (R164) -/

/-- EV_DEFECT (R185). -/
def defectEvent (port bitNo : Nat) (on : Bool) (suppressed : Nat) (cmd : Option Cause) (s : State) : State :=
  raise 0x0402 (port / 16) (le 1 port ++ le 1 bitNo ++ le 1 (b2n on) ++ le 1 suppressed) cmd s

/-- The lowest set bit among the five defects: the highest defect (R184). -/
def highest (mask : Nat) : Option Nat := (bitsOf 5 mask).head?

/-- The port monitor stops: its defect is cleared (R164), by an event that carries the command's tag (R46). An injection of LOS or SD that is under way goes on (R509). -/
def stopMonitor (port : Nat) (cmd : Option Cause) (s : State) : State :=
  let s1 := match highest (defPort s port).declared with
    | none => s
    | some b => defectEvent port b false 0 cmd s
  modHunter port (fun _ => {}) (modDef port (fun d => { sdInj := d.sdInj, sdUntil := d.sdUntil }) s1)

/-- The receive, tap and transmit lanes of a plane (R163). -/
def planeLanes (p : Nat) : List Nat := [16 * p, 16 * p + 1, 16 * p + 2, 16 * p + 0x40, 16 * p + 0x41]

/-- EV_ROLE_SWAP (R277). -/
def roleSwapEvent (p old new : Nat) (abandoned : Bool) (origin : Nat) (cmd : Option Cause) (s : State) : State :=
  raise 0x0701 p (le 1 old ++ le 1 new ++ le 1 (b2n abandoned) ++ le 1 origin ++ zeros 4 ++ le 8 (plane s p).sfc) cmd s

/-- The cause of a swap that PROT_SWAP asked for. -/
def swapCause (s : State) (origin : Nat) : Option Cause :=
  if origin = 1 then s.ctl.exec.map fun e => { channel := e.ch, client := e.client, tag := e.tag } else none

/-- A pending role swap is given up: the command that asked for it completes with ST_TIMEOUT, and the period restarts
(R259, R261, R272). -/
def abandonSwap (p : Nat) (cmd : Option Cause) (s : State) : State :=
  match (prot s p).swap with
  | none => s
  | some origin =>
    let c := activeCode s p
    let s1 := roleSwapEvent p c c true origin (if origin = 1 then swapCause s origin else cmd)
      (restartPeriod p (modProt p (fun x => { x with swap := none, swapTries := 0 }) s))
    if origin = 1 then finishLater stTimeout [] s1 else s1

/-- Stops a plane as by PLANE_STOP (R164): TX_EN low, framing ended, lanes IDLE, defects cleared, and every enabled
terminal in O1 (R200). -/
def stopPlane (p : Nat) (cmd : Option Cause) (s : State) : State :=
  if (plane s p).state = 0 then s
  else
    let s1 := dropTxEn [16 * p, 16 * p + 1] s
    let s2 := stopMonitor (16 * p + 1) cmd (stopMonitor (16 * p) cmd (abandonSwap p cmd s1))
    let s3 := modHunter (engineKey (engineCode p 0)) (fun _ => {}) (modHunter (engineKey (engineCode p 1)) (fun _ => {}) s2)
    let s4 := modPlane p (fun x => { x with
      state := 0
      fsOk := false
      sched := []
      mapSched := []
      opened := []
      expects := []
      prot := { x.prot with
        holdRunning := false
        wtrRunning := false
        lineBusy := false
        switchDue := 0
        keepFails := 0
        rillQ := [] } }) (toIdle (planeLanes p) s3)
    let s5 := modLinePort (16 * p + 2) (fun x => { x with bmCount := 0 }) (endBmRst (16 * p + 2) s4)
    loseQual p cmd (allToInitial p 12 cmd s5)

/-! ### The active port (R266 to R269) -/

/-- The enabled defects of a port of a plane (R266). -/
def enabledDefects (s : State) (p e : Nat) : Nat := (defPort s (16 * p + e)).declared &&& (prot s p).mask

/-- The rank of a port's worst enabled defect (R266): 3 signal fail, 4 SD, 9 none. -/
def defectRank (mask : Nat) : Nat := if mask % 16 ≠ 0 then 3 else if bit mask 4 then 4 else 9

/-- What the requests and triggers ask of a plane (R266, R267): the port, the reason of EV_LINE_SWITCH, and how it comes
about: 0 no switch, 1 at once, 2 after the hold-off, 3 after the wait to restore. The reason of a return after the wait to
restore is 8, the code of no request (DESIGN CHOICE, log 85). -/
def wantedPort (s : State) (p : Nat) : Nat × Nat × Nat :=
  let x := prot s p
  let a := x.activePort
  let here := enabledDefects s p a
  let there := enabledDefects s p (1 - a)
  if x.request = 1 then (x.working, 9, if a = x.working then 0 else 1)
  else if x.request = 2 ∨ x.request = 3 then (x.request - 2, 8 + x.request, if a = x.request - 2 then 0 else 1)
  else if here ≠ 0 ∧ defectRank here < defectRank there then (1 - a, (highest here).getD 0, 2)
  else if (x.request = 4 ∨ x.request = 5) then
    (x.request - 4, 8 + x.request, if a ≠ x.request - 4 ∧ there = 0 then 1 else 0)
  else if x.revertive ∧ a ≠ x.working ∧ there = 0 then (x.working, 8, 3)
  else (a, 0, 0)

/-- A hunter takes the frame alignment of a monitor, with one SFC discontinuity allowed (R268). -/
def alignHunter (code mon : Nat) (s : State) : State :=
  let m := hunter s mon
  modHunter (engineKey code) (fun h => { h with
    cands := []
    syncCycles := if h.sync then h.syncCycles else s.time.cycles
    sync := m.sync
    lastPos := m.lastPos
    sfc := m.sfc
    misses := 0
    jump := m.sync }) s

/-- The line switch itself (R268): both engines, the tap binding and the transmit lane move; pending bursts placed
from maps of the old port are discarded; the DPLL bridges (R117), and a port that is LOS, LOL or LOF qualifies no
source (R113). -/
def lineSwitch (p target reason : Nat) (cmd : Option Cause) (s : State) : State :=
  let old := activePort s p
  let new := 16 * p + target
  let n := (plane s p).sched.length
  let s1 := countDiscarded p n (modPlane p (fun x => { x with sched := [], mapSched := [], opened := [], expects := [] }) s)
  let s2 := cutLane old (bridge p s1)
  let s3 := modProt p (fun x => { x with
    activePort := target
    lineSwitches := x.lineSwitches + 1
    lineBusy := true
    holdRunning := false
    wtrRunning := false
    switchDue := 0 }) s2
  let s4 := raise 0x0702 p (le 1 old ++ le 1 new ++ le 1 reason) cmd s3
  let s5 := alignHunter (engineCode p 0) new (alignHunter (engineCode p 1) new s4)
  let s6 := touch p planeRecord s5
  let s7 := if (hunter s new).sync then s6
    else if (plane s p).state = 2 then loseSync p s6
    else enterHunt p s6
  if (defPort s new).declared % 8 ≠ 0 then loseQual p cmd s7 else s7

/-- A line switch that is due now: it waits for the end of a role swap in progress (R269). -/
def runSwitch (p : Nat) (cmd : Option Cause) (s : State) : State :=
  let w := wantedPort s p
  if w.2.2 = 0 ∨ w.1 = (prot s p).activePort then modProt p (fun x => { x with switchDue := 0 }) s
  else if (prot s p).swap.isSome ∨ (prot s p).lineBusy then modProt p (fun x => { x with switchDue := w.2.2 }) s
  else lineSwitch p w.1 w.2.1 cmd s

/-- The requests and triggers of a started plane are weighed again: a switch asked for at once is made, and the timers
run while their condition holds (R266, R267). A switch that waits for a role swap is given up with its trigger, whose next
coming has a hold-off of its own. -/
def judge (p : Nat) (cmd : Option Cause) (s : State) : State :=
  if (plane s p).state = 0 then s
  else
    let w := wantedPort s p
    let s1 := modProt p (fun x => { x with
      holdRunning := w.2.2 == 2 && x.switchDue != 2
      wtrRunning := w.2.2 == 3 && x.switchDue != 3
      switchDue := if x.switchDue = w.2.2 then x.switchDue else 0 }) s
    if w.2.2 = 1 then runSwitch p cmd s1 else s1

/-- What waited for a role swap or a line switch to end (R269). -/
def afterAction (p : Nat) (s : State) : State := if (prot s p).switchDue ≠ 0 then judge p none (runSwitch p none s) else s

/-- A line switch that waited for the one in progress to end takes place once that has ended (R268, R269). -/
def switchNow (p : Nat) (s : State) : State :=
  if (prot s p).lineBusy ∨ (prot s p).swap.isSome then s else afterAction p s

/-! ### Takeover (R262 to R265) -/

/-- Terminals that a takeover puts in O1: those that run the state machine elsewhere and whose record is behind (R263,
log 44). -/
def lostTerms (s : State) (p : Nat) : List Nat :=
  let x := prot s p
  (planeTerms s p).filterMap fun e =>
    if enabledState e.2.state && e.2.state != 0x11 && isBehind x (e.1 % 1024) then some e.1 else none

/-- A terminal as the new active engine holds it when its record is behind (R254, R262): what the mirror holds, but for its
state, the counters and what the mirror does not carry. -/
def mirrored (m t : Term) : Term :=
  { t with
    serial := m.serial
    regId := m.regId
    onuId := m.onuId
    eqd := m.eqd
    dist := m.dist
    resp := m.resp
    pendDist := m.pendDist
    allocs := m.allocs
    ctxs := m.ctxs
    pendCtxs := m.pendCtxs
    keyUp := m.keyUp
    keyNext := m.keyNext
    msk := m.msk
    manual := m.manual
    fixedKey := m.fixedKey
    copy := m.copy
    misb := m.misb
    pendMisb := m.pendMisb
    ploamUp := m.ploamUp
    ploamDelayed := m.ploamDelayed
    omciQ := m.omciQ
    omciTotal := m.omciTotal
    omciPart := m.omciPart
    frag := m.frag
    pendFrag := m.pendFrag }

/-- The line keys of a terminal record return to its slots (R213, R254, R262). -/
def restoreKeys (f : Nat) (ks : List LineKey) (s : State) : State :=
  ks.zipIdx.foldl (fun x k => modSlot (2 * f + k.2) (fun y =>
    if k.1.valid then { y with state := 1, kind := 1, key := k.1.key } else { y with state := 0, kind := 0, key := [] }) x) s

/-- The terminals of a plane whose records are behind go on from the records that the standby has applied (R262); one that
the mirror does not hold keeps what it has (log 44). -/
def restoreTerms (p : Nat) (s : State) : State :=
  let x := prot s p
  let back : Nat → Term → Term := fun f t =>
    if planeOf f = p ∧ isBehind x (f % 1024) then ((tfind x.mirTerms (f % 1024)).map fun m => mirrored m.term t).getD t
    else t
  (planeTerms s p).foldl (fun y e =>
    match if isBehind x (e.1 % 1024) then tfind x.mirTerms (e.1 % 1024) else none with
    | none => y
    | some m => restoreKeys e.1 m.keys y)
    { s with tm := { s.tm with terms := tmap s.tm.terms back } }

/-- The traffic state goes on from the plane record that the standby has applied (R254, R264): allocation-map pages, burst
profiles, PON-ID and held shaper changes, and the positions of the descriptors that its pages name (log 44), which are in
the other plane's record too where that plane names them (R254). -/
def restorePlane (p : Nat) (s : State) : State :=
  let m := (prot s p).mirPlane
  let pages := [m.active, m.standby, (plane s p).active, (plane s p).standby]
  let named := pages.flatMap fun g => (g.ctxs.filter fun e => bit e.2 31).map fun e => e.2 % 0x4000
  let back : Nat → Desc → Desc := fun d v =>
    if named.contains d then { v with pos := (tfind m.descs d).getD v.pos } else v
  if (tfind (prot s p).applied planeRecord).isNone then s
  else
  let s1 := modPlane p (fun x => { x with
    active := m.active
    standby := m.standby
    profiles := m.profiles
    ponValid := m.ponValid
    ponId := m.ponId }) s
  let hold : Nat → AQueue → AQueue := fun q x => if q / 4096 = p then { x with held := tfind m.held q } else x
  let moved := (s.up.descs.filter fun e => (back e.1 e.2).pos != e.2.pos).map Prod.fst
  touchDescs [1 - p] moved { s1 with up := { s1.up with descs := tmap s1.up.descs back, queues := tmap s1.up.queues hold } }

/-- Every shaper of a plane is full again, and its cut frames are gone (R264). -/
def refillAll (p : Nat) (s : State) : State :=
  let full : Nat → AQueue → AQueue := fun q x =>
    if q / 4096 = p then { x with tokens := x.shaper.burst * 64, cut := none } else x
  { s with up := { s.up with queues := tmap s.up.queues full } }

/-- The plane record is behind: pending bursts are discarded and the traffic state starts again (R264). Those of a map whose
end has yet to come are not placed yet, and the new active engine goes on with that map. -/
def restartTraffic (p : Nat) (s : State) : State :=
  let n := (plane s p).sched.length
  refillAll p (restorePlane p (countDiscarded p n (modPlane p (fun x => { x with sched := [], opened := [] }) s)))

/-- The next pending burst is in flight already: the gap before it is bridged, and the burst before it has ended
(R262). -/
def bridgedNow (s : State) (p : Nat) : Bool :=
  let x := linePort s (activePort s p)
  !x.air.isEmpty && decide (x.lastEnd.getD 0 ≤ lineNow s p) && nextGap s p == 0

/-- A pending burst whose training lead has begun, or which a bridged gap has put in flight (R144, R262). -/
def begun (s : State) (p : Nat) (b : Burst) : Bool :=
  decide (b.start ≤ lineNow s p + (nextTimes (linePort s (activePort s p))).trainLead * stepTicks) ||
    (bridgedNow s p && nextBurst s p == some b)

/-- The bursts sent whose TX_EN deassertion is still to come (R262); after a bridged gap only the later one counts. -/
def onLane (s : State) (p : Nat) : Nat :=
  if bridgedNow s p then 0
  else ((linePort s (activePort s p)).air.filter fun t => decide (lineNow s p < t)).length

/-- EV_ENGINE_TAKEOVER (R277). -/
def takeoverEvent (inj : Bool) (p failed new cause flags : Nat) (lost : List Nat) (s : State) : State :=
  raiseWith inj 0x0703 p (le 1 failed ++ le 1 new ++ le 1 cause ++ le 1 flags ++ le 2 lost.length ++ zeros 2 ++
    ((lost.take 16).map termId).flatMap (le 2)) none s

/-- Every burst in flight is cut and counted, and the active port's lane goes idle at once (R262). The lane stays in
SERVICE, so the next burst takes the times in force at the cut (R146). -/
def cutBursts (p : Nat) (s : State) : State :=
  let port := activePort s p
  let gone := (plane s p).sched.filter fun b => begun s p b
  let s1 := countDiscarded p (onLane s p + gone.length) (cutLane port s)
  let s2 := if gone.isEmpty then s1
    else modPlane p (fun x => { x with sched := x.sched.filter fun b => !begun s p b }) s1
  modLinePort port (fun x => { x with lastEnd := x.lastEnd.map fun e => min e (lineNow s p) }) s2

/-- The standby takes every duty of the failed active engine (R262 to R265). Where it is not in SYNC the plane is in HUNT
before the lost terminals enter O1, so they stay there. -/
def takeover (inj : Bool) (p cause : Nat) (s : State) : State :=
  let failed := activeCode s p
  let new := standbyCode s p
  let behind := isBehind (prot s p) planeRecord
  let synced := (hunter s (engineKey new)).sync
  let lost := lostTerms s p
  let s1 := restoreTerms p (cutBursts p (bridge p s))
  let s2 := modProt p (fun x => { x with
    activeEng := new % 16
    keepFails := 0
    takeovers := x.takeovers + 1
    rillQ := []
    applied := []
    mirTerms := []
    takeList := lost.map fun f => f % 1024 }) (setEngine new 0 (setEngine failed 4 s1))
  let s3 := if behind then restartTraffic p s2 else s2
  let flags := b2n (decide (16 < lost.length)) + 2 * b2n behind + 4 * b2n !synced
  let s4 := takeoverEvent inj p failed new cause flags lost s3
  let hunt := !synced && (plane s4 p).state == 2
  let s5 := if hunt then enterHunt p (frameLock p false 0 (countPlane p 24 1 s4)) else s4
  let s6 := lost.foldl (fun x f => enterState f 0x11 0 false none none (judgeAhead f x)) s5
  if hunt then downstreamLost p s6
  else if synced then modPlane p (fun x => { x with sfc := (hunter s6 (engineKey new)).sfc }) s6
  else s6

/-- EV_ENGINE_FAULT (R277). -/
def engineFaultEvent (inj : Bool) (code cause : Nat) (stopped : Bool) (s : State) : State :=
  raiseWith inj 0x0705 (code / 16) (le 1 code ++ le 1 cause ++ le 1 (b2n stopped)) none s

/-- An engine is faulty (R257, R258): a standby is fenced; an active engine is taken over, or, with the standby FAILED,
its plane is stopped. A swap that waits is given up. -/
def engineFault (inj : Bool) (code cause : Nat) (s : State) : State :=
  let p := code / 16
  if engineStatus s code = 4 then s
  else if (plane s p).state = 0 ∨ code ≠ activeCode s p then
    engineFaultEvent inj code cause false (modHunter (engineKey code) (fun _ => {}) (setEngine code 4 s))
  else if engineStatus s (standbyCode s p) = 4 then
    engineFaultEvent inj code cause true (setEngine code 4 (stopPlane p none s))
  else afterAction p (takeover inj p cause (abandonSwap p none s))

end Sys2Proof.Machine
end

