-- ==== Sys2Proof/Machine/Views.lean ====
section
/-!
DEFINITION. What a terminal makes of a message or of a plane-wide cause in its own view of the downstream (R200, R205,
R207 to R212, R217), and the view that a grant finds (R205).
-/
namespace Sys2Proof.Machine

/-- A type of broadcast message that the MV4810 handles (R200, R208). -/
def handledType : DsBody → Bool
  | .other => false
  | _ => true

/-! ### Messages (R200, R207 to R214) -/

/-- LOPLOAM and the MIC counter (R207, R217). -/
def micChecked (f : Nat) (good : Bool) (s : State) : State :=
  match findTerm s f with
  | none => s
  | some t =>
    if good then
      let s1 := modTermLocal f (fun x => { x with micRun := 0, loploam := false }) s
      if t.loploam then termDefectEvent f 1 false none s1 else s1
    else
      let watched := t.state == 0x14 || t.state == 0x15
      let run := if watched then t.micRun + 1 else 0
      let s1 := countTerm f 40 (modTermLocal f (fun x => { x with micRun := run }) s)
      if 3 ≤ run ∧ !t.loploam then termDefectEvent f 1 true none (modTermLocal f (fun x => { x with loploam := true }) s1)
      else s1

/-- An answer of the MV4810, which a MANUAL terminal does not give (R208, R209). -/
def answer (f : Nat) (m : UpBody) (s : State) : State :=
  match findTerm s f with
  | none => s
  | some t => if t.manual then s else queueUp f m s

/-- The Acknowledge of a message, under the terminal's integrity key (R208, R216). -/
def acknowledge (f code : Nat) (s : State) : State :=
  match findTerm s f with
  | none => s
  | some t => answer f (.acknowledge code t.msk) s

/-- Assign_ONU-ID (R195, R196, R200): an older holder of the ONU-ID goes to O1. -/
def assignOnu (f onu : Nat) (s : State) : State :=
  let p := planeOf f
  let s1 := match byOnu s p onu with
    | none => s
    | some g => if g = f then s else enterState g 0x11 11 true none none (judgeAhead g s)
  let s2 := allocEvent f 0 onu true none (setAlloc f 0 (some onu) s1)
  let s3 := enterState f 0x14 3 true (some onu) none s2
  let stop := s.time.ns.toNat + (plane s p).to1 * 1000000
  modTermLocal f (fun t => { t with timer := 1, timerEnd := stop }) s3

/-- Ranging_Time (R200): the equalisation delay, and from O4 the entry into O5. -/
def rangingTime (f eqd : Nat) (ack : Bool) (st : Nat) (s : State) : State :=
  let s1 := modTerm f (fun t => { t with eqd := some eqd }) s
  let s2 := if st = 0x14 then enterState f 0x15 4 true none none s1 else s1
  if ack then acknowledge f 0 s2 else s2

/-- Assign_Alloc-ID (R208): queues 1 to 3 are bound or released; a fifth Alloc-ID is refused. -/
def assignAlloc (f alloc : Nat) (release ack : Bool) (t : Term) (s : State) : State :=
  let at_ := firstIdx (fun a => a == some alloc) t.allocs 0
  let done : State → State := fun x => if ack then acknowledge f 0 x else x
  if release then
    match at_ with
    | some q => if q = 0 then done s else done (allocEvent f q alloc false none (setAlloc f q none s))
    | none => done s
  else match at_ with
    | some _ => done s
    | none =>
      match [1, 2, 3].find? fun q => (t.allocs.getD q none).isNone with
      | some q => done (allocEvent f q alloc true none (setAlloc f q (some alloc) s))
      | none => acknowledge f 1 s

/-- Key_Report of the key a slot now holds (R214). It counts in key_reports as it is made, whether or not PLOAM_SUPPRESS or a
full queue then keeps it from being sent (DESIGN CHOICE, log 85). -/
def reportKey (f i : Nat) (t : Term) (s : State) : State :=
  countTerm f 56 (answer f (.keyReport i (slot s (2 * f + i - 1)).key t.msk) s)

/-- Key_Control in AUTO mode and O5 (R214); whether the terminal acted on it, which a refused one was not (R212). -/
def keyControl (f i : Nat) (fresh : Bool) (t : Term) (s : State) : Bool × State :=
  if i = 0 ∨ 3 ≤ i then (false, countTerm f 60 s)
  else
    let valid := lineKeyValid s f i
    let keep := !fresh || i == t.keyUp
    if t.fixedKey || keep then
      if valid then (true, reportKey f i t s) else (false, countTerm f 60 s)
    else
      let d := drawDrbg s
      let n := 2 * f + i - 1
      (true, reportKey f i t (touchLine n (modSlot n (fun x => { x with state := 1, kind := 1, key := be 16 d.1 }) d.2)))

/-- A message that passed its MIC, as the terminal's state machine and its handlers take it (R200, R208, R209): whether
the terminal acted on it. -/
def takeBody (f : Nat) (m : DsMsg) (t : Term) (s : State) : Bool × State :=
  let st := t.state
  match m.body with
  | .assignOnu serial onu =>
    if st = 0x12 ∧ serial = t.serial ∧ onu ≤ 1022 then (true, assignOnu f onu s) else (false, s)
  | .rangingTime eqd =>
    if m.onu.isSome ∧ (st = 0x14 ∨ st = 0x15) then (true, rangingTime f eqd m.ack st s) else (false, s)
  | .deactivate =>
    if st = 0x12 ∨ st = 0x14 ∨ st = 0x15 then (true, enterState f 0x11 5 true none none s) else (false, s)
  | .disableSerial enable serial =>
    if serial.isSome ∧ serial ≠ some t.serial then (false, s)
    else if enable then
      if st ≠ 0x17 then (false, s)
      else if (misbItem t 8).isSome then (true, s)
      else (true, enterState f 0x11 6 true none none s)
    else if 0x11 ≤ st ∧ st ≤ 0x16 then (true, enterState f 0x17 6 true none none s)
    else (false, s)
  | .requestRegistration =>
    if m.onu.isSome ∧ st = 0x14 ∧ !t.manual then (true, answer f (.registration t.regId) s) else (false, s)
  | .assignAlloc alloc release =>
    if m.onu.isSome ∧ (st = 0x14 ∨ st = 0x15) then (true, assignAlloc f alloc release m.ack t s) else (false, s)
  | .keyControl i fresh =>
    if st = 0x15 ∧ !t.manual then keyControl f i fresh t s else (false, s)
  | .burstProfile _ _ _ _ _ _ _ => (false, s)
  | .other => (false, s)

/-- An entry of the terminal's host queue (R212). -/
def hostEntry (f : Nat) (micOk acted : Bool) (m : DsMsg) (s : State) : PloamEntry :=
  { tid := termId f, micOk, acted, time := s.time.ns, msg := m.bytes }

/-- A message in a terminal's view (R205, R207 to R212). -/
def viewMessage (f : Nat) (m : DsMsg) (t : Term) (s : State) : State :=
  let unicast := m.onu.isSome
  if !enabledState t.state ∨ (unicast ∧ m.onu ≠ t.onuId) then s
  else if unicast ∧ m.mic ≠ some t.msk then
    hostPloam f (hostEntry f false false m s) (micChecked f false s)
  else
    let s1 := if unicast then micChecked f true s else s
    let r := takeBody f m t s1
    let s2 := if r.1 then countTerm f 32 r.2 else r.2
    let toHost := unicast && (t.manual || t.copy || !handledType m.body)
    if toHost then hostPloam f (hostEntry f true r.1 m s) s2 else s2

/-- A message that its view has reached: the bursts of the grants behind it have one thing less ahead of them (R205). -/
def actOn (f : Nat) (m : DsMsg) (t : Term) (s : State) : State := passAhead f (viewMessage f m t s)

/-! ### LODS (R200, R204, R217) -/

/-- What a plane-wide cause of the downstream makes of a terminal in a state: the next state, and its cause (R200): loss 7,
regain 8, SYNC with a known profile 2. -/
def lodsTarget (cause st : Nat) : Option (Nat × Nat) :=
  if afterCause cause st = st then none else some (afterCause cause st, cause)

/-- A terminal that waits for TO2 is reached by the plane-wide TO2 expiry (R204, cause 10). -/
def joinTo2 (f : Nat) (s : State) : State :=
  let p := planeOf f
  if (plane s p).bulks.any fun b => b.cause == 10 then
    let join : Bulk → Bulk := fun b => if b.cause = 10 then { b with waiting := tset b.waiting f 0x16 } else b
    modPlane p (fun x => { x with bulks := x.bulks.map join }) s
  else startBulk p 10 [(f, 0x16)] s

/-- TO2 starts as the terminal enters O6 (R200, R203). -/
def startTo2 (f : Nat) (s : State) : State :=
  let stop := s.time.ns.toNat + (plane s (planeOf f)).to2 * 1000000
  joinTo2 f (modTermLocal f (fun t => { t with timer := 2, timerEnd := stop, lods := true }) s)

/-- A terminal acts on the plane-wide cause `b` at place `n`: the transition that it brings, told together with those of
the other terminals where the terminal stands in the state that it was to have by then (R204). A regain clears LODS
(R217). -/
def bulkStep (f n : Nat) (b : Bulk) (st : Nat) (s : State) : State :=
  let s0 := if b.cause = 7 then s else modTermLocal f (fun x => { x with lods := false }) s
  match lodsTarget b.cause st with
  | none => passAhead f (actedBulk f n none s0)
  | some (new, cause) =>
    let old := tget st b.waiting f
    let together := old == st
    let s1 := actedBulk f n (if together then some (old, new) else none)
      (enterState f new cause (!together) none none s0)
    passAhead f (if new = 0x16 then startTo2 f s1 else s1)

/-! ### The terminal's own view of a grant (R205) -/

/-- What a terminal has yet to act on when a grant reaches it: the plane-wide causes and then the messages that the active
engine accepted before the grant. -/
def ahead (f : Nat) (s : State) : State :=
  let s1 := ((plane s (planeOf f)).bulks.zipIdx).foldl (fun x b =>
    if b.1.cause ≠ 10 ∧ (tfind b.1.waiting f).isSome then bulkStep f b.2 b.1 (termState x f) x else x) s
  ((findTerm s f).map fun t => t.view).getD [] |>.foldl (fun x v => match findTerm x f with
    | none => x
    | some t => actOn f v.msg t x) s1

/-- A terminal has something to act on yet. -/
def lagging (s : State) (f : Nat) (t : Term) : Bool :=
  !t.view.isEmpty || (plane s (planeOf f)).bulks.any fun b => b.cause != 10 && (tfind b.waiting f).isSome

/-- The plane's terminals as a grant that is accepted now will find them, each in its own view (R205). The state itself does
not go on to it: the views act on their messages when these reach them. -/
def viewed (s : State) (p : Nat) : State :=
  (planeTerms s p).foldl (fun x e => if lagging s e.1 e.2 then ahead e.1 x else x) s

end Sys2Proof.Machine
end

