-- ==== Sys2Proof/Machine/Filling.lean ====
section
/-!
DEFINITION. Pattern descriptors, the allocation map, shapers and the filling of an allocation (R232 to R246).
-/
namespace Sys2Proof.Machine

/-! ### Queues -/

def aqueue (s : State) (q : Nat) : AQueue := tget {} s.up.queues q

/-- A change of a queue's traffic state is part of the plane record (R254). -/
def modQueue (q : Nat) (f : AQueue → AQueue) (s : State) : State :=
  { s with up := { s.up with queues := tmod {} s.up.queues q f } }

/-- Adds to a counter of a queue by its offset in QUEUE_STATUS: 32 bits, bytes_sent 64 (R250). -/
def countQueue (q off k : Nat) (s : State) : State :=
  let w := if off = 32 then 2 ^ 64 else 2 ^ 32
  modQueue q (fun x => { x with cnt := tmod 0 x.cnt off fun v => (v + k) % w }) s

/-- One refill of a shaper at a superframe boundary: a held change takes force with it (R245, R246). -/
def refill (x : AQueue) : AQueue :=
  let sh := x.held.getD x.shaper
  let kept := if x.held.isSome then min x.tokens (sh.burst * 64) else x.tokens
  { x with
    shaper := sh
    held := none
    tokens := if sh.rate = 0 then kept else min (kept + sh.rate) (sh.burst * 64) }

/-- The queue of a plane is changed by a refill. -/
def refills (p q : Nat) (x : AQueue) : Bool := q / 4096 == p && (x.held.isSome || x.shaper.rate != 0)

/-! ### Descriptors (R240, R241) -/

def desc (s : State) (d : Nat) : Desc := tget {} s.up.descs d

def modDesc (d : Nat) (f : Desc → Desc) (s : State) : State :=
  { s with up := { s.up with descs := tmod {} s.up.descs d f } }

/-- The two taps of a generator polynomial of R152: x^a + x^b + 1. -/
def prbsTaps (poly : Nat) : Nat × Nat :=
  match poly with
  | 1 => (7, 6)
  | 2 => (9, 5)
  | 3 => (15, 14)
  | 4 => (23, 18)
  | _ => (31, 28)

/-- A generator's state, 0 standing for all ones at the start (R241). -/
def prbsState (poly st : Nat) : Nat := if st = 0 then 2 ^ (prbsTaps poly).1 - 1 else st

/-- One bit of a generator: the bit that leaves it and its next state (R152, log 41). -/
def prbsBit (poly st : Nat) : Nat × Nat :=
  let (a, b) := prbsTaps poly
  let out := st / 2 ^ (a - 1) % 2
  (out, (2 * st + (out ^^^ (st / 2 ^ (b - 1) % 2))) % 2 ^ a)

/-- `n` bits of a generator, the first the most significant, and its next state (log 41). -/
def prbsBits (poly : Nat) : Nat → Nat → Nat → Nat × Nat
  | 0, st, acc => (acc, st)
  | n + 1, st, acc =>
    let r := prbsBit poly st
    prbsBits poly n r.2 (2 * acc + r.1)

/-- `n` bytes of a generator and its next state. -/
def prbsBytes (poly : Nat) : Nat → Nat → Bytes × Nat
  | 0, st => ([], st)
  | n + 1, st =>
    let r := prbsBits poly 8 st 0
    let q := prbsBytes poly n r.2
    (BitVec.ofNat 8 r.1 :: q.1, q.2)

/-- The state of a pool range: 0 READY, 1 PENDING, 2 POISONED or fenced (R238, R392). -/
def poolCause (s : State) (a n : Nat) : Nat :=
  let segs := (List.range ((a + n - 1) / segBytes - a / segBytes + 1)).map fun i => a / segBytes + i
  if segs.any fun g => fenced s g || tget 0 s.up.poolState g == 2 then 2
  else if segs.any fun g => tget 0 s.up.poolState g == 1 then 1
  else 0

/-- The next SDU of a descriptor: its length and where its bytes come from, or the cause why there is none. -/
inductive NextSdu where
  | sdu (len src : Nat)
  | refused (cause : Nat)
deriving DecidableEq, Repr

/-- Two ranges overlap. -/
def overlaps (a0 a1 b0 b1 : Nat) : Bool := decide (a0 < b1 ∧ b0 < a1)

/-- The bytes of a range of the pool that host software wrote under a descriptor in use are undefined (R239, log 7). -/
def taintedRange (s : State) (a n : Nat) : Bool := s.up.tainted.any fun r => overlaps a (a + n) r.1 r.2

/-- The length field of a list entry, none when the store cannot give it; a free value where host software has written it
under a descriptor in use (R239, log 7). -/
def entryLen (a : Nat) (s : State) : Option Nat × State :=
  let r := storeRead 1 a 4 s
  if taintedRange s a 4 then
    let f := drawFree r.2
    (r.1.map fun _ => leNat (fit 4 (Config.freeBytes f.1 4)), f.2)
  else (r.1.map leNat, r.2)

/-- The entry of a frame list at an offset from its base (R241). -/
def listEntry (d : Desc) (off n : Nat) (s : State) : NextSdu :=
  let a := d.base + off
  if n = 0 ∨ 16383 < n ∨ d.region < off + 8 + n then .refused 3
  else match poolCause s a (8 + n) with
    | 0 => .sdu n (a + 8)
    | c => .refused c

/-- The next entry of a frame list; an entry with L = 0 past the base, and the end of the region, return to the base
(R241). -/
def peekList (k : Nat) (s : State) : NextSdu × State :=
  let d := desc s k
  let off := if d.region ≤ d.pos.list then 0 else d.pos.list
  match poolCause s (d.base + off) 4 with
  | 0 =>
    let r := entryLen (d.base + off) s
    match r.1 with
    | none => (.refused 2, r.2)
    | some n =>
      if n = 0 ∧ off ≠ 0 then
        match poolCause r.2 d.base 4 with
        | 0 =>
          let q := entryLen d.base r.2
          let s2 := modDesc k (fun x => { x with pos := { x.pos with list := 0 } }) q.2
          match q.1 with
          | none => (.refused 2, s2)
          | some m => (listEntry d 0 m s2, s2)
        | c => (.refused c, r.2)
      else (listEntry d off n r.2, r.2)
  | c => (.refused c, s)

/-- The next SDU of a descriptor (R241). -/
def peek (k : Nat) (s : State) : NextSdu × State :=
  let d := desc s k
  if bit d.refused 3 then (.refused 3, s)
  else match d.kind with
    | 1 => peekList k s
    | 2 => (.sdu (if d.pos.len = 0 then d.lenMin else d.pos.len) (prbsState d.prbs d.pos.prbs), s)
    | _ => (.sdu (if d.pos.len = 0 then d.lenMin else d.pos.len) d.fill, s)

/-- A descriptor moves past an SDU of `n` bytes whose bytes come from `src` (R241). -/
def advance (k n src : Nat) (s : State) : State :=
  modDesc k (fun d =>
    let next := n + d.lenStep
    let list := src + n - d.base + (8 - (src + n - d.base) % 8) % 8
    { d with pos := {
        list := if d.kind = 1 then list else d.pos.list
        prbs := if d.kind = 2 then (prbsBytes d.prbs n src).2 else d.pos.prbs
        len := if d.kind = 1 then d.pos.len else if d.lenStep = 0 ∨ d.lenMax < next then d.lenMin else next
        seq := if d.stamp then d.pos.seq + 1 else d.pos.seq } }) s

/-- The stamp that the SDU of `n` bytes carries (R241). -/
def stampOf (d : Desc) (n : Nat) : Option Nat :=
  if d.stamp && decide (d.stampOff + 4 ≤ n) then some d.pos.seq.toNat else none

/-- A pattern frame is refused: counted, and reported once per descriptor and cause (R238, R241, R251). -/
def refuse (p k ctx cause : Nat) (s : State) : State :=
  let s1 := countSpout p 104 1 s
  if bit (desc s k).refused cause then s1
  else raise 0x0602 k (le 1 cause ++ le 2 ctx) none (modDesc k (fun d => { d with refused := d.refused ||| 2 ^ cause }) s1)

/-! ### The allocation map (R242) -/

/-- The descriptor that a context sends from, where the page, the descriptor and TERM_PORT_SET make it eligible. -/
def eligible (s : State) (page : AmapPage) (f q m : Nat) (t : Term) : Option Nat :=
  let e := tget 0 page.ctxs (16 * f + m)
  let d := e % 0x4000
  let c := tget ({} : PortCtx) t.ctxs m
  if bit (tget 0 page.masks (4 * f + q)) m && bit e 31 && (desc s d).kind != 0 && c.valid && c.up then some d else none

/-! ### Frames (R233 to R236) -/

/-- Bytes with their padding to a multiple of 4 (R234). -/
def pad4 (n : Nat) : Nat := n + (4 - n % 4) % 4

/-- An allocation as it is being filled. -/
structure Fill where
  s : State
  /-- Bytes left. -/
  left : Nat
  /-- Frames so far, last first. -/
  frames : List UpFrame
  /-- Contexts passed over for the rest of the allocation. -/
  passed : List Nat
  /-- A frame waited for tokens. -/
  waited : Bool
  /-- The present turn has taken a frame. -/
  took : Bool
deriving DecidableEq, Repr

/-- The upstream key index of the terminal's next burst (R215): KEY_SWITCH_REFUSE keeps the present one. -/
def upKey (s : State) (f : Nat) (t : Term) : Nat :=
  if (itemOf s f 7).isSome then t.keyUp else t.keyNext.getD t.keyUp

/-- The key index that WRONG_KEY_INDEX puts into a header, and one occurrence of it (R221, R234). -/
def headerKey (f : Nat) (s : State) : Option Nat × State :=
  match itemOf s f 6 with
  | none => (none, s)
  | some i => (some i.p0, useItem f 6 s)

/-- The mask on a header's HEC, and one occurrence of HEC_CORRUPT (R231). -/
def headerMask (f : Nat) (s : State) : Nat × State :=
  match itemOf s f 3 with
  | none => (0, s)
  | some i => if i.p1 = 0 then (i.p0, useItem f 3 s) else (0, s)

/-- Adds a frame to an allocation. -/
def addFrame (f : Nat) (u : UpFrame) (x : Fill) : Fill :=
  let k := headerKey f x.s
  let m := headerMask f k.2
  { x with
    s := m.2
    left := x.left - u.space
    frames := { u with wrong := k.1, hecMask := m.1 } :: x.frames }

/-- A part of a cut frame (R236). -/
def cutPart (c : CutFrame) (n : Nat) (last : Bool) : UpFrame :=
  { c.frame with lf := last, more := true, off := c.sent, len := n, space := 8 + pad4 n }

/-- Step 1 of R233: the rest of a cut frame. What does not fit is cut again at the end of the allocation, where 12 bytes
remain for 4 payload bytes or more (R236). -/
def fillCut (f q : Nat) (x : Fill) : Fill :=
  let n := 4 * f + q
  match (aqueue x.s n).cut with
  | none => x
  | some c =>
    let rest := c.total - c.sent
    if 8 + pad4 rest ≤ x.left then
      let y := addFrame f (cutPart c rest true) x
      { y with s := modQueue n (fun a => { a with cut := none }) y.s }
    else
      let k := (x.left - 8) / 4 * 4
      if x.left < 12 then x
      else
        let y := addFrame f (cutPart c k false) x
        { y with s := modQueue n (fun a => { a with cut := some { c with sent := c.sent + k } }) y.s }

/-- Step 2 of R233: OMCI frames of queue 0, whole, oldest first. -/
def fillOmci (f : Nat) : Nat → Fill → Fill
  | 0, x => x
  | fuel + 1, x =>
    match findTerm x.s f with
    | none => x
    | some t =>
      match t.omciQ with
      | [] => x
      | o :: rest =>
        let space := 8 + pad4 o.length
        if x.left < space then { x with s := modQueue (4 * f) (fun a => { a with omciWait := true }) x.s }
        else
          let y := addFrame f { kind := 1, portId := t.onuId.getD 0, len := o.length, space, data := o } x
          fillOmci f fuel { y with s := modTerm f (fun z => { z with omciQ := rest }) y.s }

/-- A context is passed over for the rest of the allocation. -/
def passOver (m : Nat) (x : Fill) : Fill := { x with passed := m :: x.passed }

/-- Takes the next frame of a context, whole or its first part (R233, R234, R236, R245). -/
def takeFrame (f q m k n src take : Nat) (c : PortCtx) (x : Fill) : Fill :=
  let a := 4 * f + q
  let d := desc x.s k
  let u : UpFrame := {
    kind := 2
    portId := c.portId
    enc := c.enc
    lf := take == n
    desc := k
    gen := d.kind
    poly := d.prbs
    src
    len := take
    space := 8 + pad4 take
    stamp := stampOf d n
    stampAt := d.stampOff }
  let y := addFrame f u x
  let cost := if (aqueue x.s a).shaper.rate = 0 then 0 else (n + (aqueue x.s a).shaper.overhead) * 64
  let s1 := advance k n src (modQueue a (fun z => { z with
    tokens := z.tokens - cost
    turn := (m + 1) % 16
    cut := if take = n then z.cut else some { frame := u, total := n, sent := take, ctx := m } }) y.s)
  let z := { y with s := s1, took := true }
  if take = n then z else passOver m z

/-- The bytes of a frame of `n` that an allocation with `left` bytes can take: all of them, a first part in
fragmentation mode, or none (R235, R236). -/
def partOf (frag : Bool) (left n : Nat) : Nat :=
  if 8 + pad4 n ≤ left then n
  else if !frag ∨ left < 12 then 0
  else (left - 8) / 4 * 4

/-- The frame at the head of a context against its shaper and the room that is left (R233 step 3, R245). -/
def offerSdu (f q m k n src : Nat) (t : Term) (y : Fill) : Fill :=
  let a := 4 * f + q
  let sh := (aqueue y.s a).shaper
  let cost := n + sh.overhead
  if sh.rate ≠ 0 ∧ sh.burst < cost then { y with s := countQueue a 28 1 (advance k n src y.s) }
  else if sh.rate ≠ 0 ∧ (aqueue y.s a).tokens < cost * 64 then { passOver m y with waited := true }
  else
    let take := partOf t.frag y.left n
    if take = 0 then passOver m y else takeFrame f q m k n src take (tget {} t.ctxs m) y

/-- A frame of a context waits, cut, in one of its terminal's queues: in another one than that which the context now feeds
where AMAP_SWAP has moved it since (R233, R236, R244). -/
def cutWaits (s : State) (f m : Nat) : Bool :=
  [0, 1, 2, 3].any fun q => ((aqueue s (4 * f + q)).cut.map fun c => c.ctx == m).getD false

/-- One context's place in a turn (R233 step 3). -/
def offerContext (f q : Nat) (page : AmapPage) (x : Fill) (m : Nat) : Fill :=
  match findTerm x.s f with
  | none => x
  | some t =>
    if cutWaits x.s f m || x.passed.contains m then x
    else match eligible x.s page f q m t with
      | none => x
      | some k =>
        let r := peek k x.s
        match r.1 with
        | .refused c => passOver m { x with s := refuse (planeOf f) k (16 * f + m) c r.2 }
        | .sdu n src => offerSdu f q m k n src t { x with s := modDesc k (fun d => { d with refused := 0 }) r.2 }

/-- Step 3 of R233: turns until a full turn takes no frame. -/
def fillTurns (f q : Nat) (page : AmapPage) : Nat → Fill → Fill
  | 0, x => x
  | fuel + 1, x =>
    let first := (aqueue x.s (4 * f + q)).turn
    let y := ((List.range 16).map fun i => (first + i) % 16).foldl (offerContext f q page) { x with took := false }
    if y.took then fillTurns f q page fuel y else y

/-- Step 4 of R233: an idle frame, or zero bytes for a remainder of 4. A remainder above 16,391 bytes is one idle frame too,
whose 14-bit PLI wraps (DESIGN CHOICE, log 84). WRONG_KEY_INDEX does not act on it (DESIGN CHOICE, log 85). -/
def fillIdle (f : Nat) (x : Fill) : Fill :=
  if 8 ≤ x.left then
    let u : UpFrame := { kind := 0, portId := 0xFFFF, len := x.left - 8, space := x.left }
    let m := headerMask f x.s
    { x with s := m.2, left := 0, frames := { u with hecMask := m.1 } :: x.frames }
  else if 0 < x.left then { x with left := 0, frames := { kind := 3, space := x.left } :: x.frames }
  else x

/-- The frames of one allocation of `room` bytes (R233); `st` is the terminal's state in its own view of the grant
(R205). -/
def fillAlloc (f q room st : Nat) (page : AmapPage) (sn : Bool) (s : State) : List UpFrame × State :=
  let a := 4 * f + q
  let s0 := if sn then s else countQueue a 16 1 s
  let x : Fill := { s := s0, left := room, frames := [], passed := [], waited := false, took := false }
  let y := if st = 0x15 ∧ !sn then
      let x1 := fillCut f q x
      let x2 := if q = 0 then
          fillOmci f 16 { x1 with s := modQueue a (fun z => { z with omciWait := false }) x1.s }
        else x1
      fillTurns f q page (room + 1) x2
    else x
  let z := fillIdle f y
  (z.frames.reverse, if y.waited then countQueue a 40 1 z.s else z.s)

/-- The occupancy that the DBRu of a queue reports, in bytes (R232). -/
def occupancy (s : State) (f q : Nat) : Nat :=
  let x := aqueue s (4 * f + q)
  let tokens := if x.shaper.rate = 0 then x.shaper.cap else x.tokens / 64
  let omci := if q = 0 then (((findTerm s f).map fun t => (t.omciQ.map List.length).sum).getD 0) else 0
  let cut := (x.cut.map fun c => c.total - c.sent).getD 0
  min x.shaper.cap (tokens + omci + cut)

/-- Bytes of the unit of a DBRu (R232). -/
def dbruBytes (p : Nat) : Nat := if p = 0 then 4 else Config.dbruUnit

/-- The DBRu of an allocation, evaluated after its payload is filled (R232). That of a serial-number response is 0, and
DBRU_FORCE does not act on it (DESIGN CHOICE, log 85). -/
def dbruOf (f q st : Nat) (sn : Bool) (s : State) : Nat × State :=
  if sn then (0, s)
  else match itemOf s f 9 with
    | some i => if i.p1 = q then (i.p0, useItem f 9 s) else (autoDbru s, s)
    | none => (autoDbru s, s)
where
  /-- The automatic value, and 0 in O4. -/
  autoDbru (s : State) : Nat :=
    let u := dbruBytes (planeOf f)
    if st = 0x15 then min ((occupancy s f q + u - 1) / u) Config.dbruMax else 0

end Sys2Proof.Machine
end

