-- ==== Sys2Proof/Machine/Spout.lean ====
section
/-!
DEFINITION. The Spout: the resolution of grants (R224 to R226), the placing of bursts (R227 to R231), their sending
(R143 to R146, R255), and what a superframe boundary does to the traffic state (R243 to R246).
-/
namespace Sys2Proof.Machine

/-! ### Times of a burst (R225, R227) -/

/-- Bytes of the unit of StartTime (R225): words of 4 bytes on plane A. -/
def startBytes (p rate : Nat) : Nat := if p = 0 then 4 else Config.startUnit rate

/-- Bytes of an upstream frame at a rate (R227). -/
def upFrameBytes (rate : Nat) : Nat := frameTicks / (8 * bitTicks rate)

/-- The equalisation delay in ticks, 0 before the first Ranging_Time (R227). -/
def eqdTime (p : Nat) (e : Option Nat) : Nat :=
  match e with
  | none => 0
  | some v => v * Config.eqdTicks p

/-- T of a burst, rounded to the nearest bit boundary at the plane's highest rate from the superframe boundary `at_` of its
map (R227). -/
def burstStart (p at_ : Nat) (t : Term) (b : BurstProfile) (pos j : Nat) (shift : Int) : Nat :=
  let top := (topTicks p : Int)
  let v : Int := 2 * t.dist * stepTicks + t.resp * stepTicks + eqdTime p t.eqd + j * stepTicks
    + pos * 8 * bitTicks b.rate - (b.preBits + b.delBits) * bitTicks b.rate + shift * stepTicks
  ((at_ : Int) + (2 * v + top) / (2 * top) * top).toNat

/-- BURST_OFFSET of a terminal in steps, unless the bursts of this map have already spent it (R221, R227). -/
def burstShift (s : State) (f : Nat) : Int :=
  match itemOf s f 1 with
  | none => 0
  | some i =>
    let used := ((plane s (planeOf f)).mapSched.filter fun b => b.f == f).length
    if i.mode = 2 ∧ i.count ≤ used then 0 else signed 32 i.p0

/-! ### Resolving a structure (R224 to R226) -/

/-- Bytes of an FS burst before its first allocation: the FS header, and the PLOAM message where the burst has one
(R230). -/
def firstBytes (ploam : Bool) : Nat := if ploam then 52 else 4

/-- A structure that the Spout ignores ends the chain (R225). -/
def noChain (p : Nat) (s : State) : State := modPlane p (fun x => { x with prevGrant := none }) s

def ignoreGrant (p off : Nat) (s : State) : State := noChain p (countSpout p off 1 s)

/-- What a terminal has yet to act on before it sees a grant that is accepted now (R205). -/
def aheadCount (s : State) (f : Nat) : Nat :=
  ((plane s (planeOf f)).bulks.filter fun b => b.cause != 10 && (tfind b.waiting f).isSome).length +
    (((findTerm s f).map fun t => t.view.length).getD 0)

/-- A grant as its structure gives it, for the terminals that have yet to see it (R205, R225). -/
def grantOf (p : Nat) (a : AllocStruct) (b : BurstProfile) (s : State) : OpenGrant :=
  let x := plane s p
  { no := x.grantNo
    last := x.grantNo
    broadcast := a.broadcast
    ploam := a.ploam
    start := a.start.getD 0
    allocs := [{ alloc := a.alloc, grant := a.grant, wantDbru := a.dbru }]
    profile := a.profile
    prof := b
    at_ := x.psyncAt
    cycle := s.time.cycles
    page := x.atBoundary
    unseen := ((planeTerms s p).filter fun e => decide (0 < e.2.dist)).map fun e =>
      { f := e.1, after := aheadCount s e.1, dist := e.2.dist, resp := e.2.resp } }

/-- Where the first allocation of a grant begins, in bytes of the upstream frame (R225). -/
def grantPos (p : Nat) (g : OpenGrant) : Nat := g.start * startBytes p g.prof.rate

/-- The burst with which terminal `f` answers a grant with these allocations, after the random delay `j` (R227, R228, R230);
`t` is the terminal in its own view (R205). -/
def burstFor (p f j : Nat) (allocs : List UpAlloc) (t : Term) (g : OpenGrant) (s : State) : Burst :=
  let pos := grantPos p g
  { f
    start := burstStart p g.at_ t g.prof pos j (burstShift s f)
    earliest := g.at_ + t.dist * stepTicks + 12 * usTicks
    bitTicks := bitTicks g.prof.rate
    profile := g.profile
    prof := g.prof
    rate := g.prof.rate
    onuId := if g.broadcast then 1023 else t.onuId.getD 0
    sn := g.broadcast
    view := t.state
    wantPloam := g.broadcast || g.ploam
    pos
    endPos := pos + firstBytes (g.broadcast || g.ploam) + 4 * (allocs.map fun a => a.grant).sum
    allocs
    grantNo := g.no
    epoch := activePort s p }

/-- A burst of the present map waits to be placed at the map's end (R229); `t` is its terminal in its own view (R205). -/
def newBurst (p f j queue : Nat) (g : OpenGrant) (t : Term) (s : State) : State :=
  let b := burstFor p f j (g.allocs.map fun a => { a with queue }) t g s
  modPlane p (fun y => { y with
    mapSched := y.mapSched ++ [{ b with after := aheadCount s f }]
    prevGrant := if g.broadcast then none else some (f, g.no) }) s

/-- The first allocation of a structure lies in the upstream frame (R225). -/
def fitsFrame (p : Nat) (a : AllocStruct) (b : BurstProfile) : Bool :=
  let pos := a.start.getD 0 * startBytes p b.rate
  decide (pos < upFrameBytes b.rate ∧ pos + firstBytes (a.broadcast || a.ploam) + 4 * a.grant ≤ upFrameBytes b.rate)

/-- A structure that starts a burst: its profile must be known and its allocation end in the frame (R225, R226). `v` holds
the terminals as the grant finds them. -/
def startGrant (p : Nat) (who : List Nat) (queue : Nat) (a : AllocStruct) (v s : State) : State :=
  match tfind (plane s p).profiles a.profile with
  | none => ignoreGrant p 40 s
  | some b =>
    if !fitsFrame p a b then ignoreGrant p 24 s
    else
      let g := grantOf p a b s
      who.foldl (fun x f => match findTerm v f with
        | none => x
        | some t =>
          if a.broadcast then
            let d := drawDrbg x
            newBurst p f (d.1 % ((plane s p).snMax + 1)) queue g t d.2
          else newBurst p f 0 queue g t x) s

/-- A structure that chains adds its allocation to the previous burst of the same terminal (R225); one that names no
announced profile adds nothing (R226). -/
def chainGrant (p f queue : Nat) (a : AllocStruct) (s : State) : State :=
  let own : Burst → Bool := fun b => b.f == f && some (b.f, b.grantNo) == (plane s p).prevGrant
  if (tfind (plane s p).profiles a.profile).isNone then ignoreGrant p 40 s
  else match (plane s p).mapSched.find? own with
  | none => ignoreGrant p 24 s
  | some b =>
    if b.sn ∨ upFrameBytes b.rate < b.endPos + 4 * a.grant then ignoreGrant p 24 s
    else
      let more : UpAlloc := { alloc := a.alloc, queue, grant := a.grant, wantDbru := a.dbru }
      let longer : Burst := { b with allocs := b.allocs ++ [more], endPos := b.endPos + 4 * a.grant }
      modPlane p (fun y => { y with mapSched := y.mapSched.map fun z => if own z then longer else z }) s

/-- CK_TS cycles after which a grant has reached every terminal, however far (R194, R205). -/
def farthest : Nat := 187500

/-- A structure is kept while a terminal may yet see it: a terminal that comes to answer it unforeseen answers it when it
sees it (R205). One that chains goes with the structure that it follows (R225). -/
def openGrant (p : Nat) (a : AllocStruct) (acted : Bool) (s : State) : State :=
  let x := plane s p
  match tfind x.profiles a.profile with
  | none => s
  | some b =>
    if a.start.isSome then
      if !fitsFrame p a b then s
      else modPlane p (fun y => { y with
        opened := { grantOf p a b s with acted } ::
          y.opened.filter fun g => decide (s.time.cycles < g.cycle + farthest) }) s
    else match x.opened with
      | [] => s
      | g :: rest =>
        if g.placed ∨ g.broadcast ∨ g.last + 1 ≠ x.grantNo then s
        else
          let more : UpAlloc := { alloc := a.alloc, grant := a.grant, wantDbru := a.dbru }
          modPlane p (fun y => { y with opened := { g with last := x.grantNo, allocs := g.allocs ++ [more] } :: rest }) s

/-- Some terminal answers a structure as the grant finds it (R201, R202, R224). -/
def grantTaken (v : State) (p : Nat) (a : AllocStruct) : Bool :=
  if a.broadcast then (planeTerms v p).any fun e => e.2.state == 0x12
  else ((byAlloc v p a.alloc).map fun x => ownBursts (termState v x.1)).getD false

/-- The Spout resolves a structure that passed its HEC (R224, R225), by the states and bindings that the terminals have in
their own views (R205). -/
def resolveGrant (p : Nat) (a : AllocStruct) (s0 : State) : State :=
  let v := viewed s0 p
  let s := openGrant p a (grantTaken v p a) s0
  if a.broadcast then
    let who := ((planeTerms v p).filter fun e => e.2.state == 0x12).map Prod.fst
    if who.isEmpty then noChain p s
    else if a.start.isNone then ignoreGrant p 24 (countSpout p 8 1 s)
    else startGrant p who 0 a v (countSpout p 8 1 s)
  else match byAlloc v p a.alloc with
    | none => noChain p s
    | some (f, q) =>
      if !ownBursts (termState v f) then ignoreGrant p 16 s
      else
        let s1 := countSpout p 8 1 s
        if a.start.isNone then chainGrant p f q a s1 else startGrant p [f] q a v s1

/-- The tap delineator expects the burst of a structure that starts one and names a known profile (R175, R226, R328). -/
def expectTap (p : Nat) (a : AllocStruct) (s : State) : State :=
  match a.start, tfind (plane s p).profiles a.profile with
  | some st, some b =>
    let at_ : Int := (plane s p).psyncAt + st * startBytes p b.rate * 8 * bitTicks b.rate
      - (b.preBits + b.delBits) * bitTicks b.rate
    let g : GrantExp := { alloc := a.alloc, expect := at_, rate := b.rate, profile := a.profile, fec := b.fec }
    modPlane p (fun x => { x with expects := x.expects ++ [g] }) s
  | _, _ => s

/-! ### Placing (R228 to R231) -/

/-- Parity bytes of an FS burst of `n` bytes (R230). -/
def parityBytes (p : Nat) (fec : Bool) (n : Nat) : Nat :=
  if !fec then 0 else if p = 0 then (n + 231) / 232 * 16 else Config.parityB n

/-- Words of the FS burst: header, PLOAM message, allocations and trailer (R230). -/
def fsWords (b : Burst) : Nat := 2 + (if b.wantPloam then 12 else 0) + (b.allocs.map fun a => a.grant).sum

/-- The end of a burst's last bit (R229). -/
def burstStop (p : Nat) (b : Burst) : Nat :=
  let n := 4 * fsWords b
  b.start + (b.prof.preBits + b.prof.delBits + 8 * (n + parityBytes p b.prof.fec n)) * b.bitTicks

/-- A burst meets one already placed on the active port's transmitter. -/
def collides (s : State) (p : Nat) (b : Burst) : Bool :=
  ((plane s p).sched.any fun x => overlaps b.start b.stop x.start x.stop) ||
    (match (linePort s (activePort s p)).lastEnd with
      | none => false
      | some e => decide (b.start < e))

/-- The upstream message of a granted slot: the head of the queue, or what the standard prescribes for an empty one by the
terminal's state in its own view (R201, R205, R210). -/
def slotMessage (st : Nat) (t : Term) : UpBody :=
  match t.ploamUp with
  | m :: _ => m
  | [] =>
    if st = 0x12 then .serialNumber t.serial
    else if st = 0x14 then .registration t.regId
    else .acknowledge 2 t.msk

/-- PLOAM_DELAY holds back the message with which an empty queue would answer a grant (R221). -/
def delayHolds (s : State) (f : Nat) (t : Term) (m : UpBody) : Bool :=
  t.ploamUp.isEmpty && ((itemOf s f 5).map fun i => bit i.p1 (typeBit m)).getD false

/-- A terminal as a grant that is placed now will find it, in its own view (R205). -/
def termThen (s : State) (f : Nat) (t : Term) : Term :=
  if lagging s f t then (findTerm (ahead f s) f).getD t else t

/-- The head of the queue that the grant will find is an answer to a message which is not yet in the terminal's view: `t` is
the terminal now, `v` in its view of the grant (R205, R210). -/
def headOwed (t v : Term) : Bool :=
  !v.ploamUp.isEmpty && (t.ploamUp.isEmpty || !t.ploamUp.isPrefixOf v.ploamUp)

/-- The message leaves the queue unless it is suppressed, or is held back on its way there (R210, R221); `t` is the terminal
in its view of the grant. One that has yet to enter the queue stays owed to the burst. -/
def takeMessage (f : Nat) (owed : Bool) (t : Term) (m : UpBody) (s : State) : Option UpBody × State :=
  let s1 := if owed ∨ t.ploamUp.isEmpty then s else modTerm f (fun x => { x with ploamUp := x.ploamUp.tail }) s
  if suppressed s f m then (none, useItem f 4 s1)
  else if delayHolds s f t m then (none, queueUp f m s1)
  else (some m, s1)

/-- The allocations of a burst are filled in map order (R233), each with its DBRu (R232). -/
def fillAllocs (f st : Nat) (page : AmapPage) (sn : Bool) : List UpAlloc → State → List UpAlloc × State
  | [], s => ([], s)
  | a :: rest, s =>
    let r := fillAlloc f a.queue (4 * a.grant - (if a.wantDbru then 4 else 0)) st page sn s
    let d := if a.wantDbru then dbruOf f a.queue st sn r.2 else (0, r.2)
    let q := fillAllocs f st page sn rest d.2
    ({ a with frames := r.1, dbru := if a.wantDbru then some d.1 else none } :: q.1, q.2)

/-- The mask of a burst-wide misbehaviour item, and one occurrence of it (R231). -/
def burstMask (f item p1 : Nat) (s : State) : Nat × State :=
  match itemOf s f item with
  | none => (0, s)
  | some i => if i.p1 = p1 then (i.p0, useItem f item s) else (0, s)

/-- The content of a burst that is kept is decided (R255), all but the key index, which the next burst after a key frame in
the terminal's view takes (R215). -/
def placeBurst (p : Nat) (page : AmapPage) (b : Burst) (s : State) : State :=
  match findTerm s b.f with
  | none => s
  | some t =>
    let v := termThen s b.f t
    let owed := b.wantPloam && headOwed t v
    let s0 := useItem b.f 1 s
    let m := if b.wantPloam then takeMessage b.f owed v (slotMessage b.view v) s0 else (none, s0)
    let h := burstMask b.f 3 1 m.2
    let r := fillAllocs b.f b.view page b.sn b.allocs h.2
    let i := burstMask b.f 2 0 r.2
    let placed : Burst := { b with
      ploam := m.1
      owed := owed && m.1.isSome
      ploamWaiting := !(if b.wantPloam then v.ploamUp.tail else v.ploamUp).isEmpty
      allocs := r.1
      words := fsWords b
      bipMask := i.1
      hecMask := h.1 }
    let moved := (i.2.up.descs.filter fun e => (desc s e.1).pos != e.2.pos).map Prod.fst
    touchDescs [1 - p] moved (touch p planeRecord (modPlane p (fun x => { x with sched := x.sched ++ [placed] }) i.2))

/-- A Serial_Number_ONU that is suppressed or held back: the terminal does not answer and stays in O2-3 (R221). -/
def silentAnswer (s : State) (b : Burst) (t : Term) : Bool :=
  b.sn && (suppressed s b.f (slotMessage b.view t) || delayHolds s b.f t (slotMessage b.view t))

/-- A terminal has answered a grant, or its burst has been dropped: it does not answer it again (R205). -/
def closeGrant (p no f : Nat) (s : State) : State :=
  let one : OpenGrant → OpenGrant := fun g =>
    if g.no = no then { g with unseen := g.unseen.filter fun u => u.f != f } else g
  if (plane s p).opened.isEmpty then s else modPlane p (fun x => { x with opened := x.opened.map one }) s

/-- A burst of the map is placed or dropped whole (R201, R228, R229). -/
def placeOrDrop (p : Nat) (page : AmapPage) (s : State) (b0 : Burst) : State :=
  match findTerm s b0.f with
  | none => s
  | some t =>
    let b := { b0 with stop := burstStop p b0 }
    if b.start < b.earliest then
      closeGrant p b.grantNo b.f (countSpout p 56 1 (useItem b.f 1 s))
    else if silentAnswer s b (termThen s b.f t) then
      let v := termThen s b.f t
      closeGrant p b.grantNo b.f (takeMessage b.f (headOwed t v) v (slotMessage b.view v) s).2
    else if collides s p b then
      let s1 := closeGrant p b.grantNo b.f (countSpout p 64 1 s)
      if b.sn then countTerm b.f 52 s1 else s1
    else placeBurst p page b s

/-- Inserts a burst in order of T, after those that start with it. -/
def insertBurst (b : Burst) : List Burst → List Burst
  | [] => [b]
  | x :: xs => if b.start < x.start then b :: x :: xs else x :: insertBurst b xs

/-- The bursts of a map are placed in order of T (R229). -/
def placeMap (p : Nat) (s : State) : State :=
  ((plane s p).mapSched.foldl (fun l b => insertBurst b l) []).foldl (placeOrDrop p (plane s p).atBoundary)
    (modPlane p (fun x => { x with mapSched := [], opened := x.opened.map fun g => { g with placed := true } }) s)

/-! ### Grants that a terminal comes to answer unforeseen (R205) -/

/-- The first allocations of a grant that are bound to a terminal and end in the room that is left (R224, R225). -/
def ownAllocs (s : State) (p f : Nat) : Nat → List UpAlloc → List UpAlloc
  | _, [] => []
  | room, a :: rest => match byAlloc s p a.alloc with
    | none => []
    | some (g, q) => if g ≠ f ∨ room < 4 * a.grant then [] else { a with queue := q } :: ownAllocs s p f (room - 4 * a.grant) rest

/-- What a terminal answers of a grant that it sees as it is now; nothing where it answers none (R201, R202, R224). -/
def lateAllocs (s : State) (p : Nat) (t : Term) (f : Nat) (g : OpenGrant) : List UpAlloc :=
  if g.broadcast then (if t.state = 0x12 then g.allocs else [])
  else if ownBursts t.state then
    ownAllocs s p f (upFrameBytes g.prof.rate - grantPos p g - firstBytes g.ploam) g.allocs
  else []

/-- The structures of a grant that nobody was to answer are counted with its first late answer (R249). -/
def countLate (p : Nat) (g : OpenGrant) (n : Nat) (s : State) : State :=
  let one : OpenGrant → OpenGrant := fun x => if x.no = g.no then { x with acted := true } else x
  if (plane s p).opened.any fun x => x.no == g.no && !x.acted then
    modPlane p (fun x => { x with opened := x.opened.map one }) (countSpout p 8 n s)
  else s

/-- A terminal has a burst for a grant already. -/
def hasBurst (s : State) (p no f : Nat) : Bool :=
  ((plane s p).sched ++ (plane s p).mapSched).any fun b => b.f == f && b.grantNo == no

/-- A terminal that has nothing more to act on before it sees a grant, and that has not seen it yet, answers it by the state
and the bindings that it has now, where nothing foretold them as the grant was accepted (R205). The page is that of the
grant's map (R243), and a structure of the map may chain to such an answer as to any other (R225). -/
def lateAnswer (p : Nat) (g : OpenGrant) (s : State) (u : Unseen) : State :=
  match findTerm s u.f with
  | none => s
  | some t0 =>
    let t := { t0 with dist := u.dist, resp := u.resp }
    let allocs := lateAllocs s p t u.f g
    if u.after ≠ 0 ∨ g.cycle + u.dist ≤ s.time.cycles ∨ allocs.isEmpty ∨ hasBurst s p g.no u.f then s
    else
      let d := if g.broadcast then drawDrbg s else (0, s)
      let s1 := countLate p g allocs.length d.2
      let b := burstFor p u.f (d.1 % ((plane s p).snMax + 1)) allocs t g s1
      if g.placed then placeOrDrop p g.page s1 b
      else modPlane p (fun x => { x with
        mapSched := x.mapSched ++ [b]
        prevGrant := if !g.broadcast && g.last == x.grantNo && x.prevGrant.isNone && allocs.length == g.allocs.length then
            some (u.f, g.no) else x.prevGrant }) s1

/-- Every grant that a terminal of the plane comes to answer, the oldest first (R205; the order is a DESIGN CHOICE, log 84). -/
def lateAnswers (p : Nat) (s : State) : State :=
  (plane s p).opened.reverse.foldl (fun x g => g.unseen.foldl (lateAnswer p g) x) s

/-- A structure comes next: the grants before it that a terminal has come to answer are answered first (R205). -/
def nextStructure (p : Nat) (s : State) : State :=
  modPlane p (fun x => { x with grantNo := x.grantNo + 1 }) (lateAnswers p s)

/-- BWMAP_STRUCTURE (R175, R224, R225): a structure of the present frame's map. The 2,048 structures of a map are all that
pass their HEC, those of real terminals too (DESIGN CHOICE, log 84). -/
def execBwmapStructure (plane : Nat) (alloc : AllocStruct) (s : State) : Host.Outcome State Fault Refusal :=
  let p := plane
  let x := Machine.plane s p
  if 1 < p ∨ x.state ≠ 2 ∨ !x.fsOk ∨ !lineRuns p s then .next s
  else
    let o := hecInjected p 3 s
    let sn := nextStructure p o.2
    let s1 := if !alloc.hec || o.1 then noChain p (countPlane p 104 1 sn)
      else
        let s2 := expectTap p alloc (modPlane p (fun y => { y with structs := y.structs + 1 }) (countPlane p 96 1 sn))
        if x.mode ≠ 0 then s2
        else if 2048 ≤ x.structs then ignoreGrant p 32 s2
        else resolveGrant p alloc s2
    .next (if alloc.last then placeMap p s1 else s1)

/-! ### Sending (R143 to R146, R255) -/

/-- Bytes of the SDU of a pattern frame from its source (R241). -/
def sduBytes (u : UpFrame) (stored : Bytes) : Bytes :=
  let raw := match u.gen with
    | 1 => stored
    | 2 => ((prbsBytes u.poly (u.off + u.len) u.src).1).drop u.off
    | _ => List.replicate u.len (BitVec.ofNat 8 u.src)
  match u.stamp with
  | none => raw
  | some v => raw.mapIdx fun i b =>
      let k := u.off + i
      if u.stampAt ≤ k ∧ k < u.stampAt + 4 then (le 4 v).getD (k - u.stampAt) 0 else b

/-- The payload of a list frame as it is fetched at send time, none when the store cannot give it; free bytes where host
software has written its entry, the length included, under a descriptor in use (R239, R255, R390, log 7). -/
def fetchList (u : UpFrame) (s : State) : Option Bytes × State :=
  if poolCause s (u.src + u.off) u.len ≠ 0 then (none, s)
  else
    let r := storeRead 1 (u.src + u.off) u.len s
    if taintedRange s (u.src - 8) 8 || taintedRange s (u.src + u.off) u.len then
      let f := drawFree r.2
      (r.1.map fun _ => fit u.len (Config.freeBytes f.1 u.len), f.2)
    else r

/-- A frame's payload is encrypted under the line key slot of its key index (R215, R234, log 7). -/
def encryptFrame (f : Nat) (u : UpFrame) (s : State) : UpFrame × State :=
  if u.encKey = 0 then (u, s)
  else
    let n := 2 * f + u.encKey - 1
    let fr := drawFree s
    ({ u with data := fit u.data.length (Config.ctrCrypt (slot s n).key fr.1 u.data) }, useSlot n 1 fr.2)

/-- A frame as it is sent: a list frame that cannot be read is replaced by an idle frame of its size (R390). -/
def sendFrame (p f : Nat) (u : UpFrame) (s : State) : UpFrame × State :=
  if u.kind ≠ 2 then (u, s)
  else if u.gen = 1 then
    let r := fetchList u s
    match r.1 with
    | some bs => encryptFrame f { u with data := sduBytes u bs } r.2
    | none =>
      let idle : UpFrame := { kind := 0, portId := 0xFFFF, len := u.space - 8, space := u.space, hecMask := u.hecMask }
      (idle, countSpout p 104 1 r.2)
  else encryptFrame f { u with data := sduBytes u [] } s

/-- The counters of a frame sent from queue `a` (R222, R249, R250). -/
def countFrame (p f a : Nat) (u : UpFrame) (s : State) : State :=
  match u.kind with
  | 0 | 3 => countSpout p 96 u.space s
  | 1 => countQueue a 20 1 (countQueue a 32 u.len (countTerm f 72 (countSpout p 72 1 (countSpout p 88 1 s))))
  | _ =>
    if u.more then countQueue a 24 1 (countQueue a 32 u.len (countSpout p 80 1 s))
    else countQueue a 20 1 (countQueue a 32 u.len (countSpout p 72 1 s))

/-- The frames of an allocation of queue `a` go out. -/
def sendFrames (p f a : Nat) : List UpFrame → State → List UpFrame × State
  | [], s => ([], s)
  | u :: rest, s =>
    let r := sendFrame p f u s
    let q := sendFrames p f a rest (countFrame p f a r.1 r.2)
    (r.1 :: q.1, q.2)

/-- The allocations of a burst go out; the DBRu of each but that of a serial-number response is its queue's last (R250). -/
def sendAllocs (p f : Nat) (sn : Bool) : List UpAlloc → State → List UpAlloc × State
  | [], s => ([], s)
  | a :: rest, s =>
    let n := 4 * f + a.queue
    let s1 := if sn ∨ a.dbru.isNone then s else modQueue n (fun z => { z with dbruLast := a.dbru }) s
    let r := sendFrames p f n a.frames s1
    let q := sendAllocs p f sn rest r.2
    ({ a with frames := r.1 } :: q.1, q.2)

/-! ### The bits of a burst (R230, R231, R234) -/

/-- A number as big-endian bytes of a whole number of words. -/
def word (v : Nat) : Bytes := be 4 (v % 2 ^ 32)

/-- A 13-bit HEC over the fields before it, under the mask of a misbehaviour item (R231). -/
def maskedHec (fields mask : Nat) : Nat := fields * 2 ^ 13 + (Config.hec13 fields % 2 ^ 13 ^^^ mask % 2 ^ 13)

/-- The FS header of a burst: ONU-ID, the PLOAM-waiting indication, HEC (R230, log 70). -/
def fsHeaderWord (b : Burst) : Bytes :=
  word (maskedHec (b.onuId % 1024 * 2 ^ 9 + (if b.ploamWaiting then 2 ^ 8 else 0)) b.hecMask)

/-- The header of an XGEM frame: PLI, key index, Port-ID, no options, LF, HEC (R234, log 70). -/
def xgemHeader (u : UpFrame) : Bytes :=
  let fields := ((((u.len % 2 ^ 14) * 4 + u.keyIdx % 4) * 2 ^ 16 + u.portId % 2 ^ 16) * 2 ^ 18) * 2 + b2n u.lf
  be 8 (maskedHec fields u.hecMask)

/-- A frame in an allocation: its header, its payload and the padding, all of it zeros for an idle frame (R233, R234). -/
def frameBytes (u : UpFrame) : Bytes :=
  if u.kind = 3 then zeros u.space else xgemHeader u ++ fit (u.space - 8) u.data

/-- An allocation: its DBRu, then its frames (R230, R232). -/
def allocBytes (a : UpAlloc) : Bytes :=
  (match a.dbru with
    | none => []
    | some v => fit 4 (Config.dbruField v)) ++ a.frames.flatMap frameBytes

/-- The 48 bytes of an upstream PLOAM message (R210, R211, log 70): the MIC of a Key_Report, an Acknowledge and a host message
is that of the integrity key of the MSK installed when it was built (R216). -/
def ploamBytes (onu : Nat) (m : UpBody) : Bytes :=
  match m with
  | .serialNumber serial => fit 48 (Config.upPloam 0 onu serial none)
  | .registration regId => fit 48 (Config.upPloam 1 onu regId none)
  | .keyReport index key msk => fit 48 (Config.upPloam 2 onu (le 1 index ++ key) msk)
  | .acknowledge code msk => fit 48 (Config.upPloam 3 onu (le 1 code) msk)
  | .host msg mic => match mic with
    | none => fit 48 msg
    | some msk => fit 48 (Config.upPloam 4 onu msg msk)

/-- The bit-interleaved parity of whole words: their exclusive or (R231, log 70). -/
def bipOf : Nat → Bytes → Nat
  | 0, _ => 0
  | n + 1, bs => leNat (bs.take 4).reverse ^^^ bipOf n (bs.drop 4)

/-- The FS burst before FEC: header, message, allocations, and the trailer with the BIP over all of it under the mask of
BIP_CORRUPT (R230, R231). -/
def fsBurst (b : Burst) : Bytes :=
  let body := fsHeaderWord b ++
    (if b.wantPloam then (match b.ploam with
      | none => zeros 48
      | some m => ploamBytes b.onuId m) else []) ++ b.allocs.flatMap allocBytes
  body ++ word (bipOf (body.length / 4) body ^^^ b.bipMask)

/-- An FS burst with the parity of the plane's code after every 232 data bytes, or as the LDPC code of plane B places it
(R230). -/
def fecBurst (p : Nat) (fec : Bool) (bs : Bytes) : Bytes :=
  if !fec then bs
  else if p = 0 then
    (List.range ((bs.length + 231) / 232)).flatMap fun i =>
      let d := slice bs (232 * i) (min 232 (bs.length - 232 * i))
      d ++ fit 16 (Config.rsParity d)
  else fit (bs.length + Config.parityB bs.length) (Config.ldpcBurst bs)

/-- A pattern repeated to a number of bits (R230). -/
def patternOf (pat : Bytes) (bits : Nat) : List Bool :=
  let l := bitList pat
  if l.isEmpty then List.replicate bits false else (List.range bits).map fun i => l.getD (i % l.length) false

/-- A burst as the transmit lane sends it at its plane's highest rate, each bit the number of times that its own rate asks
for (R137, R230); `inv` inverts them all (R141). -/
def burstLine (p : Nat) (inv : Bool) (b : Burst) : List Bool :=
  let f := b.prof
  (patternOf f.preamble f.preBits ++ patternOf f.delimiter f.delBits ++ bitList (fecBurst p f.fec (fsBurst b))).flatMap
    fun x => List.replicate (sampleRatio p b.rate) (x != inv)

/-- The 1010 of a gap in which the lane stays out of electrical idle (R145): its transmit setting changes at the training
lead of the burst that ends it (R140, R141). -/
def fillGap (port : Nat) (old new : Bool) (stop start lead : Int) (s : State) : State :=
  if old = new then emit (.laneFill port true new stop start) s
  else emit (.laneFill port true new (max stop lead) start) (emit (.laneFill port true old stop (max stop lead)) s)

/-- A burst goes out on a line port at its training lead (R143 to R146). The gap before it decides whether TX_EN stays
high and whether the lane has been idle; its training lead brings a waiting transmit setting into force (R140): a gap of the
middle row of R145 holds one, a bridged gap none (DESIGN CHOICE, log 83). An inverted polarity inverts all that the lane
sends (R141). -/
def keyBurst (p port : Nat) (b : Burst) (s : State) : State :=
  let x := linePort s port
  let n := nextTimes x
  let l := lane s (port + 0x40)
  let e := x.lastEnd.getD 0
  let k := if x.lastEnd.isNone ∨ (x.air.isEmpty ∧ l.elecIdle) then 2 else gapKind x e b.start
  let s1 := if k ≠ 0 ∧ !x.air.isEmpty then fallTx p port s else s
  let s2 := if k = 2 ∧ !l.elecIdle then idleLane port s1 else s1
  let lead : Int := (b.start : Int) - n.trainLead * stepTicks
  let tx := if k = 0 then l.tx else l.pendTx.getD l.tx
  let s3 := match k with
    | 0 => emit (.laneFill port false tx.invert e b.start) (if x.txEn then
        modLane (port + 0x40) (fun y => { y with merged := satAdd 32 y.merged 1 }) s2 else s2)
    | 1 => fillGap port l.tx.invert tx.invert e b.start lead s2
    | _ => emit (.laneFill port true tx.invert lead b.start) (emit (.laneIdle port false lead) s2)
  let s4 := modLane (port + 0x40) (fun y => { y with
    elecIdle := false
    tx
    pendTx := if k = 0 then y.pendTx else none }) s3
  let rise : Int := (b.start : Int) - n.tonLead * stepTicks
  let s5 := if burstEnables s4 port then setTxEn port true (some rise) s4 else s4
  emit (.burst port b (burstLine p tx.invert b)) (modLinePort port (fun y => { y with
    lastEnd := some b.stop
    inForce := n
    latched := none
    lead := if k = 0 then y.lead else rise
    air := (if k = 0 then [] else x.air.filter fun t => decide (lineNow s p < t)) ++ [b.stop + n.toffLag * stepTicks] }) s5)

/-- The upstream message of a burst that is sent is counted (R222). -/
def countMessage (f : Nat) (m : Option UpBody) (s : State) : State :=
  match m with
  | none => s
  | some (.serialNumber _) => countTerm f 48 (countTerm f 36 s)
  | some _ => countTerm f 36 s

/-- A frame under the terminal's upstream key index `k`: its header carries the index of its encryption, or the one that
WRONG_KEY_INDEX sets (R215, R221, R234). -/
def keyFrame (k : Nat) (u : UpFrame) : UpFrame :=
  let key := if u.enc then k else 0
  { u with encKey := key, keyIdx := u.wrong.getD key }

/-- A burst goes out under the key index `k` (R215). -/
def keyed (k : Nat) (b : Burst) : Burst :=
  { b with keyIdx := k, allocs := b.allocs.map fun a => { a with frames := a.frames.map (keyFrame k) } }

/-- The key index under which a burst is sent: the one that the terminal's view has given it for its next burst (R215); a
serial-number response has no key. -/
def sendKey (s : State) (b : Burst) : Nat :=
  if b.sn then 0 else ((findTerm s b.f).map fun t => upKey s b.f t).getD 0

/-- BURST_START (R143, R202, R215, R222, R227, R255): the earliest pending burst of a plane is sent. -/
def execBurstStart (plane : Nat) (s : State) : Host.Outcome State Fault Refusal :=
  let p := plane
  let x := Machine.plane s p
  match nextBurst s p with
  | none => .next s
  | some b0 =>
    if 1 < p ∨ x.state ≠ 2 ∨ !lineRuns p s then .next s
    else if !mayBurst s b0 then
      .next (touch p planeRecord (modPlane p (fun y => { y with sched := y.sched.erase b0 }) s))
    else
      let b := keyed (sendKey s b0) b0
      let s1 := touch p planeRecord (modPlane p (fun y => { y with sched := y.sched.erase b0 }) s)
      let s2 := match findTerm s b.f with
        | none => s1
        | some t => if b.keyIdx ≠ t.keyUp ∧ !b.sn then switchKey b.f b.keyIdx none s1 else s1
      let r := sendAllocs p b.f b.sn b.allocs (countMessage b.f b.ploam s2)
      .next (keyBurst p (activePort s p) { b with allocs := r.1 } (countSpout p 48 1 r.2))

/-! ### Superframe boundary (R240, R243 to R246) -/

/-- A scheduled action of a plane is due at the boundary with this SFC; where the plane has left SYNC or its count has
jumped since the command, at the first boundary at or after its instant too (R206). -/
def dueNow (p : Nat) (x : Sched) (sfc : Nat) (s : State) : Bool :=
  x.when == 0 || x.sfc == sfc || (x.breaks != (plane s p).breaks && decide (x.due.toNat ≤ s.time.ns.toNat))

/-- The pages of a plane are exchanged, and firmware begins the copy (R244). -/
def swapPages (p sfc : Nat) (x : Sched) (s : State) : State :=
  modPlane p (fun y => { y with
    active := y.standby
    standby := y.active
    swap := none
    copying := some { x with sfc }
    swapSfc := sfc }) s

/-- A descriptor is named by a valid context entry of a page (R240). -/
def pageNames (g : AmapPage) (d : Nat) : Bool := g.ctxs.any fun e => bit e.2 31 && e.2 % 0x4000 == d

/-- Descriptor writes that waited for a boundary of this plane take force (R240). -/
def applyDescs (p : Nat) (s : State) : State :=
  let mine := s.up.pendDescs.filter fun e =>
    pageNames (plane s p).active e.1 || !pageNames (plane s (1 - p)).active e.1
  mine.foldl (fun x e => { x with up := { x.up with
    descs := tset x.up.descs e.1 e.2
    pendDescs := tdel x.up.pendDescs e.1 } }) s

/-- What a superframe boundary does to a plane's traffic state: descriptor writes, the page swap, and the refill of its
shapers (R240, R244, R245). -/
def boundaryTraffic (p sfc : Nat) (s : State) : State :=
  let s1 := applyDescs p s
  let s2 := match (plane s p).swap with
    | none => s1
    | some x => if dueNow p x sfc s then swapPages p sfc x s1 else s1
  let change := s.up.queues.any fun e => refills p e.1 e.2 && refill e.2 != e.2
  let s3 := { s2 with up := { s2.up with
    queues := tmap s2.up.queues fun q x => if refills p q x then refill x else x } }
  let s4 := modPlane p (fun x => { x with atBoundary := x.active }) s3
  let moved := (s.up.pendDescs.filter fun e => (tfind s1.up.pendDescs e.1).isNone).map Prod.fst
  let s5 := touchDescs [1 - p] moved s4
  if change ∨ (plane s p).swap ≠ (plane s4 p).swap ∨ !moved.isEmpty then touch p planeRecord s5 else s5

end Sys2Proof.Machine
end

