-- ==== Sys2Proof/Machine/Framing.lean ====
section
/-!
DEFINITION. The hunters and the frames they accept (R166 to R175), superframe boundaries (R169, R199, R206, R221), and
the plane commands (R161 to R164, R187 to R189).
-/
namespace Sys2Proof.Machine

/-! ### Hunters (R166 to R168) -/

/-- A key of the table of hunters: a port monitor or a line engine. -/
def isHunter (k : Nat) : Bool := isEngine (k % 0x100) && decide (k < 0x200)

/-- The plane of a hunter. -/
def hunterPlane (k : Nat) : Nat := k % 0x100 / 16

/-- The port that a hunter receives (R163, R252). -/
def hunterPort (s : State) (k : Nat) : Nat := if k < 0x100 then k else activePort s (hunterPlane k)

/-- The hunter of the active engine of its plane. -/
def isActive (s : State) (k : Nat) : Bool := k == engineKey (activeCode s (hunterPlane k))

/-- A plane counter counts for the active engine's hunter alone (R189). -/
def countHunter (k off n : Nat) (s : State) : State := if isActive s k then countPlane (hunterPlane k) off n s else s

/-- A position is the expected position of the lock or of an open candidate (R166). -/
def expects (h : Hunter) (at_ : Nat) : Bool :=
  if h.sync then at_ == h.lastPos + frameTicks else h.cands.any fun c => at_ == c.pos + frameTicks

/-- The SFC that follows another (R166). -/
def nextSfc (v : Nat) : Nat := (v + 1) % 2 ^ 51

/-- What the injections do to the frame at a position of a port (R509). -/
def lineInj (s : State) (port at_ : Nat) : LineInj :=
  let x := tget ({} : LineInj) s.fr.lineInj port
  if x.at_ = at_ then x else { at_ }

def setLineInj (port : Nat) (x : LineInj) (s : State) : State :=
  { s with fr := { s.fr with lineInj := tset s.fr.lineInj port x } }

/-- The expected PSync of a position is taken as missed, for every hunter of the port alike (R509 0x04). -/
def psyncInjected (port at_ : Nat) (s : State) : Bool × State :=
  let x := lineInj s port at_
  if x.seen then (x.miss, s)
  else
    let o := occurrence 0x04 port s
    (o.1.isSome, setLineInj port { x with seen := true, miss := o.1.isSome } o.2)

/-- The codewords of a frame, one occurrence each, from number `i` on (R509 0x02): what an injection declares
uncorrectable, and the bits it reports corrected. -/
def drawCodewords (port : Nat) : Nat → Nat → List Nat × Nat → State → (List Nat × Nat) × State
  | 0, _, r, s => (r, s)
  | n + 1, i, r, s =>
    if (injIndex 0x02 port s).isNone then (r, s)
    else
      let o := occurrence 0x02 port s
      let r1 := match o.1 with
        | none => r
        | some v => if v = 0 then (r.1 ++ [i], r.2) else (r.1, r.2 + v.toNat)
      drawCodewords port n (i + 1) r1 o.2

/-- The injections on the codewords of the frame at a position, the same in every engine and monitor (R509 0x02). -/
def fecInjected (port at_ n : Nat) (s : State) : LineInj × State :=
  let x := lineInj s port at_
  if x.drawn then (x, s)
  else
    let r := drawCodewords port n 0 ([], 0) s
    let y := { x with drawn := true, hits := r.1.1, corr := r.1.2 }
    (y, setLineInj port y r.2)

/-- The codewords of a frame of a plane (R160, log 40). -/
def frameCodewords (p : Nat) : Nat := if p = 0 then 627 else Config.frameCodewordsB

/-- The SFC structure passes its HEC; a failure is counted for the active engine (R166, R170, R509 0x03). -/
def sfcPasses (k : Nat) (o : PsyncObs) (s : State) : Bool × State :=
  let r := if isActive s k then hecInjected (hunterPlane k) 2 s else (false, s)
  let good := o.sfcHec && !r.1
  (good, if good then r.2 else countHunter k 48 1 r.2)

/-- PSYNC_MATCH_HUNT (R166, R168): a PSync match away from every expected position, and from the bit at which a candidate
has just been tested. -/
def execPsyncMatchHunt (hunter : Nat) (psync : PsyncObs) (s : State) : Host.Outcome State Fault Refusal :=
  let k := hunter
  let h := Machine.hunter s k
  if !isHunter k || !h.running || h.sync || !lineRuns (hunterPlane k) s || expects h psync.at_ || h.tested == some psync.at_ then
    .next s
  else if (plane s (hunterPlane k)).psyncErr < psync.errs then .next s
  else
    let r := sfcPasses k psync s
    if !r.1 then .next r.2
    else if 4 ≤ h.cands.length then .next (countHunter k 40 1 r.2)
    else .next (modHunter k (fun x => { x with cands := x.cands ++ [{ pos := psync.at_, sfc := psync.sfc }] }) r.2)

/-! ### Superframe boundary: the terminals (R199, R206, R221, R247) -/

/-- Misbehaviour settings that waited take force in order; item 0 clears every item (R221). -/
def applyMisb (t : Tab Misb) : List (Nat × Misb) → Tab Misb
  | [] => t
  | (item, m) :: rest => applyMisb (if item = 0 then [] else if m.mode = 0 then tdel t item else tset t item m) rest

/-- Context changes that waited take force (R199). -/
def applyCtxs (t : Tab PortCtx) (w : Tab PortCtx) : Tab PortCtx := w.foldl (fun x e => tset x e.1 e.2) t

/-- A terminal holds a change for the next boundary, its distance aside. -/
def termWaits (t : Term) : Bool := !t.pendCtxs.isEmpty || !t.pendMisb.isEmpty || t.pendFrag.isSome

/-- What a boundary does to one terminal. -/
def boundaryTerm (sfc : Nat) (s : State) (e : Nat × Term) : State :=
  let f := e.1
  let t := e.2
  let s1 := if termWaits t then modTerm f (fun x => { x with
      ctxs := applyCtxs x.ctxs x.pendCtxs
      pendCtxs := []
      misb := applyMisb x.misb x.pendMisb
      pendMisb := []
      frag := x.pendFrag.getD x.frag
      pendFrag := none }) s
    else s
  match t.pendDist with
  | none => s1
  | some d => if dueNow (planeOf f) d.sched sfc s then applyDistance f sfc none s1 else s1

def boundaryTerms (p sfc : Nat) (s : State) : State := (planeTerms s p).foldl (boundaryTerm sfc) s

/-! ### An accepted frame (R169 to R174) -/

/-- The PON-ID becomes valid, or changes, after three accepted frames in a row that carry it (R171). -/
def ponIdRead (p : Nat) (o : FrameObs) (s : State) : State :=
  let r := hecInjected p 4 s
  if !o.ponHec || r.1 then countPlane p 56 1 r.2
  else
    let x := plane s p
    let run := if x.ponRun ≠ 0 ∧ x.ponCand = o.ponId then min (x.ponRun + 1) 3 else 1
    let s1 := modPlane p (fun y => { y with ponCand := o.ponId, ponRun := run }) r.2
    if 3 ≤ run ∧ !(x.ponValid && x.ponId == o.ponId) then
      let s2 := touch p planeRecord (modPlane p (fun y => { y with ponValid := true, ponId := o.ponId }) s1)
      raise 0x0403 p (le 8 (if x.ponValid then x.ponId else 0) ++ le 8 o.ponId) none s2
    else s1

/-- A bandwidth map or PLOAM partition goes to the Basin, stamped at the boundary (R319, R326). -/
def partitionItem (p content : Nat) (bs : Bytes) (s : State) : State :=
  if bs.isEmpty then s
  else
    let n := freshName s
    let x := plane s p
    basinItem p { id := n.1, content, data := bs, ns := x.psyncNs, frac := x.psyncFrac } n.2

/-- The FS header of the frame locates its parts, or the whole frame after its PSBd is discarded (R174). -/
def fsHeader (p : Nat) (o : FrameObs) (s : State) : State :=
  let r := hecInjected p 1 s
  if !o.fsHec || r.1 then countPlane p 64 1 r.2
  else partitionItem p 1 o.ploam (partitionItem p 2 o.bwmap (modPlane p (fun x => { x with fsOk := true }) r.2))

/-- A line engine reads and writes its state with every frame; a line that a mask corrupted there, or as a record was
written since, cannot be repaired (R399, R403, log 56). -/
def engineWrites (code : Nat) (s : State) : State :=
  let l := writeLine (0x1000 + code) s
  match (if l.1.isSome then l.1 else badState l.2 code) with
  | none => l.2
  | some inj =>
    let f := drawFree (clearState code l.2)
    engineFault inj code 2 (sramError inj (0x1000 + code) 3 (Config.freeNat f.1) 0 f.2)

/-- The active engine accepts a frame (R169 to R174): the superframe boundary, its scheduled actions, and the frame's
overhead. A map whose end was not seen is placed first. Reassembly contexts age by accepted frames only (DESIGN CHOICE,
log 80). -/
def acceptFrame (p : Nat) (o : PsyncObs) (sfc : Nat) (fr : FrameObs) (s : State) : State :=
  let s0 := placeMap p s
  let n := frameCodewords p
  let inj := fecInjected (activePort s p) o.at_ n s0
  let now := nowStamp s
  let s1 := modPlane p (fun x => { x with
    breaks := if sfc = nextSfc x.sfc then x.breaks else x.breaks + 1
    psyncAt := o.at_
    psyncNs := BitVec.ofNat 64 now.ns
    psyncFrac := now.frac
    psyncCycles := s.time.cycles
    sfc
    fsOk := false
    badXgem := false
    fecHits := inj.1.hits
    structs := 0
    prevGrant := none
    reasm := tmap x.reasm fun _ c => { c with age := c.age + 1 }
    prot := { x.prot with lineBusy := false } }) inj.2
  let unc := min (fr.uncorrectable + inj.1.hits.length) n
  let s2 := countPlane p 88 unc (countPlane p 80 (fr.corrected + inj.1.corr)
    (countPlane p 72 n (countPlane p 8 1 s1)))
  let s3 := boundaryTerms p sfc (boundaryTraffic p sfc s2)
  let s4 := fsHeader p fr (ponIdRead p fr s3)
  let w := occurrence 0x15 (activeCode s4 p) s4
  switchNow p (if w.1.isSome then engineFault true (activeCode s4 p) 1 w.2 else engineWrites (activeCode w.2 p) w.2)

/-- A port monitor accepts a frame: it decodes and counts it, and discards the data (R173, R183). -/
def monitorFrame (port : Nat) (o : PsyncObs) (fr : FrameObs) (s : State) : State :=
  let n := frameCodewords (port / 16)
  let inj := fecInjected port o.at_ n s
  let unc := min (fr.uncorrectable + inj.1.hits.length) n
  let bits := fr.corrected + inj.1.corr
  modDef port (fun d => { d with
    winCw := d.winCw + n
    winUnc := d.winUnc + unc
    sdCw := d.sdCw + n
    sdBits := d.sdBits + bits }) inj.2

/-- A standby engine accepts a frame: it works on it silently (R15), under the checks of R258. -/
def standbyFrame (code : Nat) (o : PsyncObs) (s : State) : State :=
  let inj := fecInjected (activePort s (code / 16)) o.at_ (frameCodewords (code / 16)) s
  let w := occurrence 0x15 code inj.2
  if w.1.isSome then engineFault true code 1 w.2
  else
    let m := occurrence 0x16 code w.2
    if m.1.isSome then engineFault true code 3 m.2 else engineWrites code m.2

/-- A hunter accepts the frame at a position under a count (R166, R169), and counts its time in SYNC from the first
(R188). The other candidates that a lock drops do not count in cand_dropped (DESIGN CHOICE, log 83). -/
def acceptAt (k : Nat) (o : PsyncObs) (sfc : Nat) (fr : FrameObs) (s : State) : State :=
  let p := hunterPlane k
  let s1 := modHunter k (fun h => { h with
    sync := true
    cands := []
    lastPos := o.at_
    sfc
    syncCycles := if h.sync then h.syncCycles else s.time.cycles
    jump := false }) s
  if k < 0x100 then monitorFrame k o fr s1
  else if isActive s k then
    acceptFrame p o sfc fr (if (plane s1 p).state = 2 then s1 else gainSync p sfc s1)
  else standbyFrame (k - 0x100) o s1

/-- An accepted PSync with bit errors is counted (R170, R189). -/
def countErrored (k : Nat) (o : PsyncObs) (s : State) : State := if o.errs = 0 then s else countHunter k 16 1 s

/-- CANDIDATE_POSITION_REACHED (R166): the candidate is confirmed, dropped, or locked on. In HUNT a PSync with bit errors
counts only where it locks (DESIGN CHOICE, log 80), and a failed SFC HEC counts as such too, where the PSync matches
(DESIGN CHOICE, log 85). The test comes before a match at the same bit, which then opens no other candidate (R168). -/
def execCandidatePositionReached (hunter cand : Nat) (psync : PsyncObs) (frame : FrameObs) (s : State) :
    Host.Outcome State Fault Refusal :=
  let k := hunter
  let h := Machine.hunter s k
  match h.cands[cand]? with
  | none => .next s
  | some c =>
    if !isHunter k || !h.running || h.sync || !lineRuns (hunterPlane k) s || psync.at_ != c.pos + frameTicks then .next s
    else
      let m := psyncInjected (hunterPort s k) psync.at_ s
      let hit := decide (psync.errs ≤ (plane s (hunterPlane k)).psyncErr) && !m.1
      let r := if hit then sfcPasses k psync m.2 else (false, m.2)
      if !r.1 || psync.sfc != nextSfc c.sfc then
        .next (countHunter k 32 1 (modHunter k (fun x => { x with
          cands := x.cands.eraseIdx cand
          tested := some psync.at_ }) r.2))
      else if c.conf = 0 then
        let c1 : Cand := { pos := psync.at_, sfc := psync.sfc, conf := 1 }
        .next (modHunter k (fun x => { x with cands := x.cands.set cand c1, tested := some psync.at_ }) r.2)
      else
        let s1 := modHunter k (fun x => { x with misses := 0, tested := some psync.at_ }) (countErrored k psync r.2)
        .next (acceptAt k psync psync.sfc frame s1)

/-- The check at the expected position in SYNC fails (R166, R170): each part that failed is counted, and the frame is
allowed, or it is discarded and SYNC ends. -/
def missedFrame (k : Nat) (hit hec : Bool) (o : PsyncObs) (fr : FrameObs) (s : State) : State :=
  let h := hunter s k
  let p := hunterPlane k
  let s1 := if hit then s else countHunter k 176 1 s
  let s2 := if hec && o.sfc != nextSfc h.sfc && !h.jump then countHunter k 184 1 s1 else s1
  if h.misses + 1 < (plane s p).syncLoss then
    let s3 := modHunter k (fun x => { x with misses := x.misses + 1 }) (if hit then countErrored k o s2 else s2)
    acceptAt k o (nextSfc h.sfc) fr s3
  else
    let lost := modHunter k (fun x => { x with sync := false, cands := [], misses := 0, jump := false }) s2
    if isActive s k then switchNow p (loseSync p lost) else lost

/-- SYNC_POSITION_REACHED (R166, R167, R170): a frame in SYNC is accepted, allowed as a miss, or ends SYNC. -/
def execSyncPositionReached (hunter : Nat) (psync : PsyncObs) (frame : FrameObs) (s : State) :
    Host.Outcome State Fault Refusal :=
  let k := hunter
  let h := Machine.hunter s k
  if !isHunter k || !h.running || !h.sync || !lineRuns (hunterPlane k) s || psync.at_ != h.lastPos + frameTicks then .next s
  else
    let m := psyncInjected (hunterPort s k) psync.at_ s
    let hit := decide (psync.errs ≤ (plane s (hunterPlane k)).psyncErr) && !m.1
    let r := sfcPasses k psync m.2
    if hit && r.1 && (psync.sfc == nextSfc h.sfc || h.jump) then
      let s1 := modHunter k (fun x => { x with misses := 0 }) (countErrored k psync r.2)
      .next (acceptAt k psync psync.sfc frame s1)
    else .next (missedFrame k hit r.1 psync frame r.2)

/-! ### Plane commands (R161 to R164) -/

def planeConfigForm (p : Bytes) : Bool :=
  len 8 p && decide (u8 p 0 ≤ 1) && decide (u8 p 1 ≤ 1) && decide (u8 p 2 ≤ 4) && decide (1 ≤ u8 p 3 ∧ u8 p 3 ≤ 8) &&
    decide (1 ≤ u8 p 4 ∧ u8 p 4 ≤ 64) && zeroAt p 5 3

def planeConfigSpec : CmdSpec :=
  { op := 0x0401, smb := false, priv := false, legal := legalStd, form := planeConfigForm }

/-- PLANE_CONFIG (R162): the values apply from the next PLANE_START. -/
def planeConfigAct (r : Req) (s : State) : Served :=
  let p := u8 r.payload 0
  if (plane s p).state ≠ 0 then conflict 0x04 (plane s p).state p s
  else ok (modPlane p (fun x => { x with
    cfgMode := u8 r.payload 1
    cfgErr := u8 r.payload 2
    cfgLoss := u8 r.payload 3
    cfgReasm := u8 r.payload 4 }) s)

def execPlaneConfig (s : State) : Host.Outcome State Fault Refusal := .next (serve planeConfigSpec planeConfigAct s)

/-- A plane byte and three reserved bytes (R164). -/
def planeForm (p : Bytes) : Bool := len 4 p && decide (u8 p 0 ≤ 1) && zeroAt p 1 3

def legalRun : DevState → Bool
  | .run | .hush => true
  | _ => false

def planeStartSpec : CmdSpec := { op := 0x0402, smb := false, priv := false, legal := legalRun, form := planeForm }

/-- The detectors of a port start from cleared, with the thresholds of their first windows (R183, R187). An injection of LOS
or SD that is under way goes on (R509). -/
def startDetectors (c : DefectCfg) (port : Nat) (s : State) : State :=
  modDef port (fun d => {
    wLofecSet := c.lofecSet
    wLofecClear := c.lofecClear
    wSdSet := c.sdSet
    wSdClear := c.sdClear
    sdInj := d.sdInj
    sdUntil := d.sdUntil }) s

/-- Both engines of a plane are bound (R253): x.E0 is active unless it is FAILED, and a standby that is not FAILED takes a
full copy, or is STALE while the Rill is DOWN. -/
def bindEngines (p : Nat) (s : State) : State :=
  let e := if engineStatus s (engineCode p 0) = 4 then 1 else 0
  let other := engineCode p (1 - e)
  let s1 := setEngine (engineCode p e) 0 s
  let s2 := if engineStatus s1 other = 4 then s1 else setEngine other (if (prot s p).rillUp then 2 else 3) s1
  modProt p (fun x => { x with
    activeEng := e
    activePort := x.working
    rillQ := []
    keepFails := 0
    applied := []
    mirTerms := []
    swapBase := s.time.cycles
    swapHeld := some s.time.cycles }) s2

/-- The hunters of a plane start: the port monitors and every engine that is not FAILED (R163, R166). -/
def startHunters (p : Nat) (s : State) : State :=
  let fresh : Hunter := { running := true }
  [engineCode p 0, engineCode p 1].foldl (fun x c =>
    modHunter c (fun _ => fresh) (modHunter (engineKey c) (fun _ => { running := engineStatus x c != 4 }) x)) s

/-- PLANE_START (R163): the plane state, then the engines, then the lanes are checked. A line switch that follows at once
carries its tag (R46). -/
def planeStartAct (r : Req) (s : State) : Served :=
  let p := u8 r.payload 0
  let x := plane s p
  if x.state ≠ 0 then conflict 0x04 x.state p s
  else if engineStatus s (engineCode p 0) = 4 ∧ engineStatus s (engineCode p 1) = 4 then fail stFenced s
  else match inTest (planeLanes p) s with
    | some l => conflict 0x03 2 l s
    | none =>
      let s1 := startDetectors x.defCfg (16 * p + 1) (startDetectors x.defCfg (16 * p) (toService (planeLanes p) s))
      let s2 := modPlane p (fun y => { y with
        mode := y.cfgMode
        psyncErr := y.cfgErr
        syncLoss := y.cfgLoss
        reasmFrames := y.cfgReasm
        ponValid := false
        reasm := []
        tapLf := [] }) s1
      ok (judge p (causeOf r) (enterHunt p (startHunters p (bindEngines p s2))))

def execPlaneStart (s : State) : Host.Outcome State Fault Refusal := .next (serve planeStartSpec planeStartAct s)

def planeStopSpec : CmdSpec := { op := 0x0403, smb := false, priv := false, legal := legalRun, form := planeForm }

/-- PLANE_STOP (R164). -/
def planeStopAct (r : Req) (s : State) : Served :=
  let p := u8 r.payload 0
  if (plane s p).state = 0 then conflict 0x04 0 p s else ok (stopPlane p (causeOf r) s)

def execPlaneStop (s : State) : Host.Outcome State Fault Refusal := .next (serve planeStopSpec planeStopAct s)

/-! ### Status, counters and thresholds (R187 to R189) -/

def planeStatusSpec : CmdSpec :=
  { op := 0x0404, smb := true, priv := false, legal := readyToFault, form := planeForm }

/-- The 32 bytes of PLANE_STATUS (R188). -/
def planeStatusBytes (p : Nat) (s : State) : Bytes :=
  let x := plane s p
  let h := hunter s (engineKey (activeCode s p))
  let ms := if x.state = 2 then msSince s h.syncCycles else 0
  le 1 x.state ++ le 1 x.mode ++ le 1 (activePort s p) ++ le 1 (if x.state = 1 then h.cands.length else 0) ++
    le 1 (defPort s (16 * p)).declared ++ le 1 (defPort s (16 * p + 1)).declared ++
    le 1 (b2n (hunter s (16 * p)).sync + 2 * b2n (hunter s (16 * p + 1)).sync) ++ le 1 (b2n x.ponValid) ++
    le 8 x.sfc ++ le 8 (if x.ponValid then x.ponId else 0) ++ le 4 ms ++ zeros 4

def planeStatusAct (r : Req) (s : State) : Served := okWith (planeStatusBytes (u8 r.payload 0) s) s

def execPlaneStatus (s : State) : Host.Outcome State Fault Refusal := .next (serve planeStatusSpec planeStatusAct s)

def planeCountersForm (p : Bytes) : Bool := len 4 p && decide (u8 p 0 ≤ 1) && decide (u8 p 1 ≤ 1) && zeroAt p 2 2

def planeCountersSpec : CmdSpec :=
  { op := 0x0405, smb := false, priv := false, legal := readyToFault, form := planeCountersForm }

/-- PLANE_COUNTERS (R189). -/
def planeCountersAct (r : Req) (s : State) : Served :=
  let p := u8 r.payload 0
  let bytes := le 1 p ++ zeros 7 ++ (List.range 24).flatMap fun i => le 8 (tget 0 (plane s p).cnt (8 + 8 * i))
  okWith bytes (if u8 r.payload 1 = 1 then modPlane p (fun x => { x with cnt := [] }) s else s)

def execPlaneCounters (s : State) : Host.Outcome State Fault Refusal :=
  .next (serve planeCountersSpec planeCountersAct s)

def defectConfigForm (p : Bytes) : Bool :=
  len 24 p && decide (u8 p 0 ≤ 1) && zeroAt p 1 1 && decide (1 ≤ u16 p 2 ∧ u16 p 2 ≤ 1000) &&
    decide (1 ≤ u16 p 4 ∧ u16 p 4 ≤ 10000) && decide (1 ≤ u16 p 6 ∧ u16 p 6 ≤ 1000) &&
    decide (1 ≤ u16 p 8 ∧ u16 p 8 ≤ 10000) && decide (1 ≤ u8 p 10) && decide (1 ≤ u8 p 11) &&
    decide (1 ≤ u32 p 12 ∧ u32 p 12 ≤ 1000000) && decide (u32 p 16 ≤ u32 p 12) && decide (3 ≤ u8 p 20 ∧ u8 p 20 ≤ 9) &&
    decide (u8 p 20 < u8 p 21 ∧ u8 p 21 ≤ 10) && zeroAt p 22 2

def defectConfigSpec : CmdSpec :=
  { op := 0x0406, smb := false, priv := false, legal := legalStd, form := defectConfigForm }

/-- DEFECT_CONFIG (R187): LOFEC and SD are judged by the new thresholds from their next windows. -/
def defectConfigAct (r : Req) (s : State) : Served :=
  let p := r.payload
  let c : DefectCfg := {
    losSet := u16 p 2
    losClear := u16 p 4
    lolSet := u16 p 6
    lolClear := u16 p 8
    lofSet := u8 p 10
    lofClear := u8 p 11
    lofecSet := u32 p 12
    lofecClear := u32 p 16
    sdSet := u8 p 20
    sdClear := u8 p 21 }
  ok (modPlane (u8 p 0) (fun x => { x with defCfg := c }) s)

def execDefectConfig (s : State) : Host.Outcome State Fault Refusal :=
  .next (serve defectConfigSpec defectConfigAct s)

/-! ### Port defects (R183 to R186) -/

/-- The detectors of a receive port run: its plane is started (R163, R183). -/
def detectorsRun (s : State) (port : Nat) : Bool := isEngine port && (plane s (port / 16)).state != 0 && lineRuns (port / 16) s

/-- A defect of LOS, LOL or LOF on the active port ends the plane's qualification as a frequency source (R113). -/
def defectQual (port b : Nat) (s : State) : State :=
  if b < 3 ∧ activePort s (port / 16) = port then loseQual (port / 16) none s else s

/-- A defect of the active port asks for a protection switch: while its plane is the selected source, the DPLL bridges
from then on (R117, log 65). -/
def bridgeSwitch (port : Nat) (s : State) : State :=
  let p := port / 16
  if activePort s p = port ∧ (wantedPort s p).2.2 ≠ 0 ∧ (wantedPort s p).1 ≠ (prot s p).activePort then bridge p s else s

/-- A defect is declared (R183 to R186): it suppresses the lower ones, whose detectors are held at cleared. -/
def declareDefect (port b : Nat) (s : State) : State :=
  let d := defPort s port
  if !detectorsRun s port || d.declared % 2 ^ (b + 1) != 0 then s
  else
    let s1 := modDef port (fun x => { x with
      declared := 2 ^ b
      lofecRun := if b ≤ 3 then 0 else x.lofecRun
      lofecClear := if b ≤ 3 then 0 else x.lofecClear
      sdRun := 0
      sdClear := 0 }) s
    judge (port / 16) none (defectQual port b (bridgeSwitch port (defectEvent port b true d.declared none s1)))

/-- A defect is cleared; the windows of LOFEC and SD in progress do not count for the lower ones (R184). -/
def clearDefect (port b : Nat) (s : State) : State :=
  let d := defPort s port
  if !detectorsRun s port || !bit d.declared b then s
  else
    let s1 := modDef port (fun x => { x with
      declared := 0
      skipLofec := x.skipLofec || b < 3
      skipSd := x.skipSd || b < 4
      lofecRun := if b ≤ 3 then 0 else x.lofecRun
      lofecClear := if b ≤ 3 then 0 else x.lofecClear
      sdRun := 0
      sdClear := 0 }) s
    judge (port / 16) none (defectEvent port b false 0 none s1)

/-- SD is seen inactive by an injection (R509 0x05). -/
def sdForced (s : State) (port : Nat) : Bool := decide (s.time.cycles < (defPort s port).sdUntil)

/-- SD of a line port as the detectors see it: active after its polarity (R183), and not held inactive by an
injection. -/
def sdSeen (s : State) (port : Nat) : Bool := sdActive s port && !sdForced s port

/-- LOS_DECLARE (R183): SD is inactive. -/
def execLosDeclare (port : Nat) (s : State) : Host.Outcome State Fault Refusal :=
  if sdSeen s port then .next s else .next (declareDefect port 0 s)

/-- LOS_CLEAR (R183): SD is active. -/
def execLosClear (port : Nat) (s : State) : Host.Outcome State Fault Refusal :=
  if sdSeen s port then .next (clearDefect port 0 s) else .next s

/-- LOL_DECLARE (R183, R186): SD is active and the CDR is not locked. `higher` says, here and below, that a higher defect
of the port changes in the same CK_LINE cycle, which alone is reported. -/
def execLolDeclare (moment : DefectMoment) (s : State) : Host.Outcome State Fault Refusal :=
  if moment.higher || !sdSeen s moment.port || (lane s moment.port).cdrLock then .next s else .next (declareDefect moment.port 1 s)

/-- LOL_CLEAR (R183, R186): the CDR is locked. -/
def execLolClear (moment : DefectMoment) (s : State) : Host.Outcome State Fault Refusal :=
  if !moment.higher && (lane s moment.port).cdrLock then .next (clearDefect moment.port 1 s) else .next s

/-- LOF_DECLARE (R183, R186): the port monitor is not in SYNC. -/
def execLofDeclare (moment : DefectMoment) (s : State) : Host.Outcome State Fault Refusal :=
  if moment.higher || (hunter s moment.port).sync then .next s else .next (declareDefect moment.port 2 s)

/-- LOF_CLEAR (R183, R186): the port monitor is in SYNC. -/
def execLofClear (moment : DefectMoment) (s : State) : Host.Outcome State Fault Refusal :=
  if !moment.higher && (hunter s moment.port).sync then .next (clearDefect moment.port 2 s) else .next s

/-- The payload bits of a codeword of a plane's downstream (R173, R183). -/
def codewordBits (p : Nat) : Nat := if p = 0 then 1728 else Config.codewordBitsB

/-- The next LOFEC window begins, with the thresholds now set (R187). -/
def nextLofec (port : Nat) (s : State) : State :=
  let c := (plane s (port / 16)).defCfg
  modDef port (fun x => { x with
    winCw := 0
    winUnc := 0
    skipLofec := false
    wLofecSet := c.lofecSet
    wLofecClear := c.lofecClear }) s

/-- A LOFEC window that counts (R183). -/
def judgeLofec (port : Nat) (d : DefPort) (s : State) : State :=
  let some_ := d.winCw != 0
  if bit d.declared 3 then
    let good := some_ && decide (d.winUnc * 1000000 ≤ d.wLofecClear * d.winCw)
    let run := if good then d.lofecClear + 1 else 0
    let s1 := modDef port (fun x => { x with lofecClear := run }) s
    if run = 10 then clearDefect port 3 s1 else s1
  else
    let hit := some_ && decide (d.wLofecSet * d.winCw ≤ d.winUnc * 1000000)
    let run := if hit then d.lofecRun + 1 else 0
    let s1 := modDef port (fun x => { x with lofecRun := run }) s
    if run = 3 then declareDefect port 3 s1 else s1

/-- LOFEC_WINDOW_END (R183, R184, R186). -/
def execLofecWindowEnd (moment : DefectMoment) (s : State) : Host.Outcome State Fault Refusal :=
  let d := defPort s moment.port
  if !detectorsRun s moment.port then .next s
  else if d.declared % 8 ≠ 0 ∨ d.skipLofec ∨ moment.higher then .next (nextLofec moment.port s)
  else .next (judgeLofec moment.port d (nextLofec moment.port s))

/-- The next SD window begins (R187). -/
def nextSd (port : Nat) (s : State) : State :=
  let c := (plane s (port / 16)).defCfg
  modDef port (fun x => { x with
    sdCw := 0
    sdBits := 0
    skipSd := false
    wSdSet := c.sdSet
    wSdClear := c.sdClear }) s

/-- An SD window that counts (R183); `forced` takes its error ratio at the set threshold (R509 0x06). -/
def judgeSd (port : Nat) (d : DefPort) (forced : Bool) (s : State) : State :=
  let bits := d.sdCw * codewordBits (port / 16)
  let some_ := d.sdCw != 0
  if bit d.declared 4 then
    let good := !forced && some_ && decide (d.sdBits * 10 ^ d.wSdClear < bits)
    let run := if good then d.sdClear + 1 else 0
    let s1 := modDef port (fun x => { x with sdClear := run }) s
    if run = 10 then clearDefect port 4 s1 else s1
  else if forced || (some_ && decide (bits ≤ d.sdBits * 10 ^ d.wSdSet)) then declareDefect port 4 s
  else s

/-- SD_WINDOW_END (R183, R184, R186, R509 0x06). -/
def execSdWindowEnd (moment : DefectMoment) (s : State) : Host.Outcome State Fault Refusal :=
  let d := defPort s moment.port
  if !detectorsRun s moment.port then .next s
  else if d.declared % 16 ≠ 0 ∨ d.skipSd ∨ moment.higher then .next (nextSd moment.port s)
  else
    let o := if d.sdInj = 0 then occurrence 0x06 moment.port s else (none, s)
    let left := (o.1.map BitVec.toNat).getD d.sdInj
    .next (judgeSd moment.port d (left != 0) (nextSd moment.port (modDef moment.port (fun x => { x with sdInj := left - 1 }) o.2)))

end Sys2Proof.Machine
end

