-- ==== Sys2Proof/Machine/Delineation.lean ====
section
/-!
DEFINITION. What a frame carries: PLOAM messages (R176, R177, R195, R207), XGEM frames and their reassembly (R178 to
R182), OMCI for the host (R218), and the bursts of a tap (R175, R279, R328).
-/
namespace Sys2Proof.Machine

/-! ### PLOAM messages (R176, R177, R195, R207) -/

/-- A message fails its MIC: it passes under the key that checks it (R207). -/
def bcastMicOk (m : DsMsg) : Bool := m.mic == some none

/-- A profile for a rate of the plane is kept, any other is rejected and discards what the index held (R177). -/
def takeProfile (p index : Nat) (b : BurstProfile) (s : State) : State :=
  if rateAllowed p b.rate then
    if tfind (plane s p).profiles index = some b then s
    else
      let first := (plane s p).profiles.isEmpty
      let s1 := touch p planeRecord (modPlane p (fun x => { x with profiles := tset x.profiles index b }) s)
      let s2 := raise 0x0404 p (le 1 p ++ le 1 index ++ [0]) none s1
      if first then profileKnown p s2 else s2
  else
    let held := (tfind (plane s p).profiles index).isSome
    let s1 := if held then touch p planeRecord (modPlane p (fun x => { x with profiles := tdel x.profiles index }) s)
      else s
    raise 0x0404 p (le 1 p ++ le 1 index ++ [1]) none s1

/-- Assign_ONU-ID goes to one terminal, chosen at acceptance (R195). -/
def assignee (s : State) (p : Nat) (serial : Bytes) : Option Nat :=
  ((planeTerms s p).find? fun e => e.2.state == 0x12 && e.2.serial == serial).map Prod.fst

/-- The terminals in whose view a message arrives: for Assign_ONU-ID the one chosen, else every terminal of the plane, a
disabled one included, each of which matches it in its own view by the state it then has (R195, R200, R205, log 69). -/
def viewers (s : State) (p : Nat) (m : DsMsg) : List Nat :=
  match m.body with
  | .assignOnu serial _ => (assignee s p serial).toList
  | _ => (planeTerms s p).map Prod.fst

/-- A message is on its way to the terminals (R205). -/
def toViews (p : Nat) (m : DsMsg) (s : State) : State :=
  (viewers s p m).foldl (fun x f =>
    modTermLocal f (fun t => { t with view := t.view ++ [{ msg := m, time := s.time.ns }] }) x) s

/-- An entry of a plane's broadcast queue, at the time of the frame that carried the message (R212). -/
def bcastEntry (p : Nat) (micOk acted : Bool) (m : DsMsg) (s : State) : PloamEntry :=
  { tid := 0x8000 * p, micOk, acted, bcast := true, time := (plane s p).psyncNs, msg := m.bytes }

/-- A broadcast message (R176, R177, R207, R212). -/
def broadcastMessage (p : Nat) (m : DsMsg) (s : State) : State :=
  if !bcastMicOk m then bcastPloam p (bcastEntry p false false m s) (countPlane p 192 1 s)
  else match m.body with
    | .burstProfile index rate preBits delBits preamble delimiter fec =>
      takeProfile p index { rate, preBits, delBits, preamble, delimiter, fec } s
    | b => if handledType b then toViews p m s else bcastPloam p (bcastEntry p true false m s) s

/-- An ONU-ID is that of an emulated terminal of the plane, or will be once the terminal has seen an Assign_ONU-ID that is
on its way to its view (R176, R205, log 69). -/
def ownOnu (s : State) (p onu : Nat) : Bool :=
  (byOnu s p onu).isSome || (planeTerms s p).any fun e => e.2.view.any fun v => match v.msg.body with
    | .assignOnu _ n => n == onu
    | _ => false

/-- PLOAM_MESSAGE_RX (R176): a PLOAM message of the present frame; one for another ONU goes no further. -/
def execPloamMessageRx (plane : Nat) (msg : DsMsg) (s : State) : Host.Outcome State Fault Refusal :=
  let p := plane
  let x := Machine.plane s p
  if 1 < p ∨ x.state ≠ 2 ∨ !x.fsOk ∨ !lineRuns p s then .next s
  else
    let s1 := countPlane p 112 1 s
    match msg.onu with
    | none => .next (broadcastMessage p msg (countPlane p 120 1 s1))
    | some n => .next (if ownOnu s p n then toViews p msg (countPlane p 120 1 s1) else s1)

/-! ### XGEM frames (R178 to R182) -/

/-- The terminal whose OMCI port a Port-ID is (R199). -/
def omciOwner (s : State) (p port : Nat) : Option Nat := if port ≤ 1022 then byOnu s p port else none

/-- The terminal and the valid context of a plane that hold a Port-ID (R199). -/
def ctxOwner (s : State) (p port : Nat) : Option (Nat × PortCtx) :=
  (planeTerms s p).findSome? fun e =>
    (e.2.ctxs.find? fun c => c.2.valid && c.2.portId == port).map fun c => (e.1, c.2)

/-- The terminal that owns a Port-ID, as OMCI port or by a context (R287). -/
def portOwner (s : State) (p port : Nat) : Option Nat :=
  match omciOwner s p port with
  | some f => some f
  | none => (ctxOwner s p port).map Prod.fst

/-- A payload label (R182); `up` takes OWN from the upstream flag, as for a tap frame (R279). -/
def labelOf (s : State) (p port keyIdx : Nat) (lf reasm unc up : Bool) : Nat :=
  let own := match ctxOwner s p port with
    | none => false
    | some (_, c) => if up then c.up else c.down
  b2n (omciOwner s p port).isSome + 4 * b2n lf + 8 * b2n reasm + 16 * b2n (keyIdx != 0) + 32 * b2n unc + 64 * b2n own

/-- The codewords that hold bytes of a downstream XGEM frame: the first and the last (R160, R172). On plane A each line
codeword of 248 bytes holds 216 bytes of the FS frame, after the 24 bytes of the PSBd. -/
def codewordsOf (p off n : Nat) : Nat × Nat :=
  if p = 0 then
    let line := off / 125000 - 24
    let a := line / 248 * 216 + min (line % 248) 215
    (a / 216, (a + n - 1) / 216)
  else Config.codewordsB off n

/-- A byte of the frame lies in an uncorrectable codeword, or in one that an injection declared so (R172, R509). -/
def frameUnc (p : Nat) (hits : List Nat) (x : XgemObs) : Bool :=
  let r := codewordsOf p x.off (8 + x.payload.length + x.pad.length)
  x.fecUnc || hits.any fun k => decide (r.1 ≤ k ∧ k ≤ r.2)

/-- An SDU that reaches the classifier, and where its fragments stand (R180). -/
structure Sdu where
  /-- Payload bytes. -/
  data : Bytes
  reasm : Bool
  unc : Bool
  stamp : Stamp
  keys : List Nat
  lens : List Nat
deriving DecidableEq, Repr

def dropContext (p port : Nat) (s : State) : State := modPlane p (fun x => { x with reasm := tdel x.reasm port }) s

def setContext (p port : Nat) (c : Reasm) (s : State) : State :=
  modPlane p (fun x => { x with reasm := tset x.reasm port c }) s

/-- A fragment that follows another on its port (R181). -/
def nextFragment (p : Nat) (x : XgemObs) (unc : Bool) (c : Reasm) (s : State) : Option Sdu × State :=
  let all := c.data ++ x.payload
  let long := decide (16384 < all.length)
  let gone := if long && !c.overLong then countPlane p 160 1 s else s
  if x.lf then
    let s1 := dropContext p x.portId gone
    if c.overLong || long then (none, s1)
    else
      (some {
        data := all
        reasm := true
        unc := c.fecUnc || unc
        stamp := { ns := c.ns.toNat, frac := c.frac }
        keys := c.keys ++ [x.keyIdx]
        lens := c.lens ++ [x.payload.length] }, s1)
  else
    let kept : Reasm := { c with
      data := all
      frags := c.frags + 1
      fecUnc := c.fecUnc || unc
      age := 0
      keys := c.keys ++ [x.keyIdx]
      lens := c.lens ++ [x.payload.length] }
    let spent : Reasm := { c with data := [], overLong := true, age := 0, keys := [], lens := [] }
    (none, setContext p x.portId (if c.overLong || long then spent else kept) gone)

/-- Reassembly (R180, R181): the whole SDU that a fragment completes, if it does. A last fragment without a context is
taken as a whole SDU (DESIGN CHOICE, log 80). -/
def reassemble (p : Nat) (x : XgemObs) (unc : Bool) (t : Stamp) (s : State) : Option Sdu × State :=
  match tfind (plane s p).reasm x.portId with
  | some c => nextFragment p x unc c s
  | none =>
    if x.lf then
      (some {
        data := x.payload
        reasm := false
        unc
        stamp := t
        keys := [x.keyIdx]
        lens := [x.payload.length] }, s)
    else if 4096 ≤ (plane s p).reasm.length then (none, countPlane p 160 1 s)
    else
      (none, setContext p x.portId {
        data := x.payload
        frags := 1
        fecUnc := unc
        ns := BitVec.ofNat 64 t.ns
        frac := t.frac
        keys := [x.keyIdx]
        lens := [x.payload.length] } s)

/-- A downstream OMCI SDU for the host (R218): it joins the queue of its terminal in the plane's 256 KiB buffer. -/
def omciReceived (p f : Nat) (d : Sdu) (s : State) : State :=
  let q := (plane s p).omciRx
  if 262144 < (q.map fun o => o.data.length).sum + d.data.length then countTerm f 76 s
  else
    let l := writeLine 0 s
    let o : OmciSdu := { owner := f, data := d.data, fecUnc := d.unc, time := BitVec.ofNat 64 d.stamp.ns, bad := l.1 }
    let s1 := countTerm f 68 (modPlane p (fun x => { x with omciRx := x.omciRx ++ [o] }) l.2)
    if q.any fun k => k.owner == f then s1 else raise 0x0505 (termId f) (le 2 1) none s1

/-- The SDU enters the classifier; OMCI of an emulated terminal is delivered to the CP first (R180, R218, R280). -/
def sduEnters (p item : Nat) (x : XgemObs) (d : Sdu) (s : State) : State :=
  let s1 := match omciOwner s p x.portId with
    | none => s
    | some f => omciReceived p f d s
  let n := freshName s1
  clsEnter {
    id := if item = 0 then n.1 else item
    source := p
    basinItem := if (staged s p item).isSome then item else 0
    portId := x.portId
    frame := x.header ++ d.data
    label := labelOf s p x.portId x.keyIdx x.lf d.reasm d.unc false
    keyIdx := x.keyIdx
    keys := d.keys
    lens := d.lens
    term := portOwner s p x.portId
    ns := BitVec.ofNat 64 d.stamp.ns
    frac := d.stamp.frac } (if item = 0 then n.2 else s1)

/-- A frame with a key index on a terminal's context: one that names no valid slot is counted, and the index is on its way
to the terminal's view (R205, R213, R215). A clear frame neither breaks nor extends the run of R217 (DESIGN CHOICE, log
84). -/
def keySeen (p : Nat) (x : XgemObs) (s : State) : State :=
  match ctxOwner s p x.portId with
  | none => s
  | some (f, _) =>
    if x.keyIdx = 0 then s
    else
      let s1 := if lineKeyValid s f x.keyIdx then s else countTerm f 64 s
      modTermLocal f (fun t => { t with keyView := t.keyView ++ [x.keyIdx] }) s1

/-- A non-idle downstream XGEM frame (R180): the fragment to the Basin with its own label, a whole SDU to the
classifier. -/
def downFrame (p : Nat) (x : XgemObs) (s : State) : State :=
  let unc := frameUnc p (plane s p).fecHits x
  let t := stampAfter s p x.off
  let r := reassemble p x unc t s
  let n := freshName r.2
  let label := labelOf s p x.portId x.keyIdx x.lf false unc false
  let s1 := basinItem p {
    id := n.1
    waits := r.1.isSome
    data := x.header ++ x.payload ++ x.pad
    label
    ns := BitVec.ofNat 64 t.ns
    frac := t.frac } n.2
  match r.1 with
  | none => s1
  | some d => sduEnters p n.1 x d s1

/-- XGEM_FRAME_DELINEATED (R178, R179): the next frame of the present frame's FS payload. -/
def execXgemFrameDelineated (plane : Nat) (frame : XgemObs) (s : State) : Host.Outcome State Fault Refusal :=
  let p := plane
  let x := Machine.plane s p
  if 1 < p ∨ x.state ≠ 2 ∨ !x.fsOk ∨ x.badXgem ∨ !lineRuns p s then .next s
  else
    let r := hecInjected p 0 s
    if frame.kind = 2 ∨ r.1 then .next (modPlane p (fun y => { y with badXgem := true }) (countPlane p 144 1 r.2))
    else
      let s1 := if frame.fixed then countPlane p 136 1 r.2 else r.2
      if frame.kind = 1 then .next (countPlane p 152 1 s1) else .next (downFrame p frame (keySeen p frame (countPlane p 128 1 s1)))

/-- REASM_TIMEOUT (R181): the next fragment has not come within reasm_frames frames. -/
def execReasmTimeout (plane : Nat) (portId : Nat) (s : State) : Host.Outcome State Fault Refusal :=
  let p := plane
  match tfind (Machine.plane s p).reasm portId with
  | none => .next s
  | some c =>
    if c.age < (Machine.plane s p).reasmFrames ∨ !lineRuns p s then .next s
    else .next (dropContext p portId (if c.overLong then s else countPlane p 160 1 s))

/-! ### Tap bursts (R175, R279, R328) -/

/-- A tap frame: to the Basin, where it waits, and to the classifier (R278, R279). `at_` is the burst's delimiter. -/
def tapFrame (p at_ : Nat) (x : XgemObs) (r : List Nat × State) : List Nat × State :=
  let s := r.2
  let cont := tfind (plane s p).tapLf x.portId == some false
  let t := stampAt s p (at_ + x.off)
  let label := labelOf s p x.portId x.keyIdx x.lf false x.fecUnc true
  let n := freshName (modPlane p (fun y => { y with tapLf := tset y.tapLf x.portId x.lf }) s)
  let s1 := basinItem (2 + p) {
    id := n.1
    waits := true
    data := x.header ++ x.payload ++ x.pad
    label
    ns := BitVec.ofNat 64 t.ns
    frac := t.frac } n.2
  let held := (staged s1 (2 + p) n.1).isSome
  let s2 := clsEnter {
    id := n.1
    source := 2 + p
    basinItem := if held then n.1 else 0
    portId := x.portId
    frame := x.header ++ x.payload
    label
    keyIdx := x.keyIdx
    keys := [x.keyIdx]
    lens := [x.payload.length]
    term := portOwner s p x.portId
    cont
    ns := BitVec.ofNat 64 t.ns
    frac := t.frac } s1
  (if held then r.1 ++ [n.1] else r.1, s2)

/-- The frames of a burst that the delineator can reach: up to the first header that cannot be corrected, idle frames
apart (R178, R179). -/
def tapFrames : List XgemObs → List XgemObs
  | [] => []
  | x :: xs => if x.kind = 2 then [] else if x.kind = 1 then tapFrames xs else x :: tapFrames xs

/-- What the grant says of a burst: rate, profile, FEC, Alloc-ID and the arrival field; for a burst that no grant
announced the first three are free values (R328, log 7). -/
def grantFields (p : Nat) (g : Option GrantExp) (at_ : Nat) (s : State) : (Nat × Nat × Bool × Nat × Nat) × State :=
  match g with
  | some g =>
    let want : Int := g.expect + (basin s (2 + p)).cfg.tapOffset * 155520
    ((g.rate, g.profile, g.fec, g.alloc, unsigned 32 (((at_ : Int) - want) * 256 / 155520)), s)
  | none =>
    let a := drawFree s
    let b := drawFree a.2
    let c := drawFree b.2
    ((Config.freeNat a.1 % 5, Config.freeNat b.1 % 256, Config.freeNat c.1 % 2 == 1, 0xFFFF, 0x80000000), c.2)

/-- Offsets 16 to 47 of a BURST record (R328). -/
def burstFields (x : TapObs) (g : Nat × Nat × Bool × Nat × Nat) (known badBip : Bool) (frames stored : Nat) : Bytes :=
  let flags := b2n x.fsHec + 2 * b2n badBip + 4 * b2n (!known) + 8 * b2n g.2.2.1
  le 2 g.2.2.2.1 ++ le 2 (if x.fsHec then x.onuId else 0xFFFF) ++ le 4 g.2.2.2.2 ++ le 1 g.1 ++ le 1 g.2.1 ++ le 1 flags ++
    [0] ++ le 4 x.words ++ le 4 x.bipRx ++ le 4 x.bipCalc ++ le 2 (min x.fecCorrected 65535) ++
    le 2 (min x.fecUncorrectable 65535) ++ le 2 (min frames 65535) ++ le 2 stored

/-- The BURST record waits in staging for the records of the burst's frames; its lines of staging may be corrupted (R328, R401,
R403). A burst that finds staging full is lost under cause 2 (R320, R337). -/
def burstWaits (b : Nat) (w : BurstWait) (s : State) : State :=
  if !recording (basin s b) then s
  else if 262144 < stagedBytes (basin s b) + w.data.length then
    let lost : BurstWait := { w with lost := true, data := [] }
    settleAll (putRec b) b (modBasin b (fun x => { x with bursts := x.bursts ++ [lost] }) (loseItem b (burstLoss w) 2 s))
  else
    let k := sramWrite (0x3000 + b) s
    let w := if k.1.1 = 0 then w else { w with data := xorLine k.1.1 w.data, sramBad := true, sramInj := k.1.2 }
    settleAll (putRec b) b (modBasin b (fun x => { x with bursts := x.bursts ++ [w] }) k.2)

/-- The bytes of a tap burst as its samples decide them (R137, R147). -/
def decimated (k : Nat) (x : TapObs) : TapObs :=
  { x with
    overhead := decimate k x.overhead
    head := decimate k x.head
    frames := x.frames.map fun f => { f with
      header := decimate k f.header
      payload := decimate k f.payload
      pad := decimate k f.pad } }

/-- The samples of a tap burst under the polarity of the tap lane (R142): inverted before they are decided. -/
def upright (inv : Bool) (x : TapObs) : TapObs :=
  let turn (l : Bytes) : Bytes := if inv then l.map fun b => ~~~b else l
  { x with
    overhead := turn x.overhead
    head := turn x.head
    frames := x.frames.map fun f => { f with
      header := turn f.header
      payload := turn f.payload
      pad := turn f.pad } }

/-- TAP_BURST (R19, R137, R142, R147, R175, R279, R328): a burst at the tap, matched with a grant the delineator expects or with
none. Its samples, in the polarity of the tap lane, are decided at the grant's rate, and a lane that has no bit lock delivers none. -/
def execTapBurst (plane : Nat) (burst : TapObs) (s : State) : Host.Outcome State Fault Refusal :=
  let p := plane
  let x := Machine.plane s p
  let g := burst.grant.bind fun i => x.expects[i]?
  if 1 < p ∨ x.state ≠ 2 ∨ !lineRuns p s ∨ (burst.grant.isSome ∧ g.isNone) ∨ !(lane s (16 * p + 2)).cdrLock then .next s
  else
    let o := occurrence 0x01 (16 * p + 2) s
    let s1 := match burst.grant with
      | none => o.2
      | some i => modPlane p (fun y => { y with expects := y.expects.eraseIdx i }) o.2
    let f := grantFields p g burst.at_ s1
    let burst := decimated (sampleRatio p f.1.1) (upright (lane s (16 * p + 2)).invertRx burst)
    let frames := if burst.fsHec then tapFrames burst.frames else []
    let r := frames.foldl (fun a b => tapFrame p burst.at_ b a) (([], f.2) : List Nat × State)
    let data := if burst.fsHec then burst.overhead.take 16368 else burst.head.take 256
    let t := stampAt s p burst.at_
    let w : BurstWait := {
      ids := r.1
      ns := BitVec.ofNat 64 t.ns
      frac := t.frac
      fields := burstFields burst f.1 g.isSome (o.1.isSome || burst.bipRx != burst.bipCalc) frames.length data.length
      data }
    .next (burstWaits (2 + p) w r.2)

end Sys2Proof.Machine
end

