-- ==== Sys2Proof/Machine/Terminals.lean ====
section
/-!
DEFINITION. The terminal commands (R193 to R222).
-/
namespace Sys2Proof.Machine

/-! ### What the commands share (R193) -/

/-- A terminal ID without reserved bits (R21, R193). -/
def isTid (v : Nat) : Bool := v / 1024 % 32 == 0

/-- The flat index of a terminal ID (R21). -/
def flatOf (v : Nat) : Nat := v / 0x8000 * 1024 + v % 1024

/-- The terminal a request names (offset 0 of every terminal command but TERM_PLANE_CONFIG). -/
def termOf (r : Req) : Nat := flatOf (u16 r.payload 0)

/-- ST_STATE_CONFLICT naming a terminal (R192). -/
def termConflict (f : Nat) (s : State) : Served := conflict 0x05 (termState s f) (termId f) s

/-- The terminal of a request exists and is the client's to change (R55, R193). -/
def onTerm (r : Req) (s : State) (go : Term → Served) : Served :=
  match findTerm s (termOf r) with
  | none => termConflict (termOf r) s
  | some t => if mayChange r t.client then go t else fail stDenied s

/-- The terminal of a request exists; any client may read it (R55). -/
def readTerm (r : Req) (s : State) (go : Term → Served) : Served :=
  match findTerm s (termOf r) with
  | none => termConflict (termOf r) s
  | some t => go t

/-- A response time, 0 selecting another (R194, R206). -/
def respForm (v : Nat) : Bool := v == 0 || decide (21250 ≤ v ∧ v ≤ 22500)

/-! ### TERM_CREATE, TERM_ENABLE, TERM_DELETE (R194 to R197) -/

def termCreateForm (p : Bytes) : Bool :=
  len 56 p && isTid (u16 p 0) && decide (u8 p 2 ≤ 15) && zeroAt p 3 1 && decide (u32 p 48 ≤ 187500) &&
    respForm (u16 p 52) && zeroAt p 54 2

def termCreateSpec : CmdSpec := { op := 0x0501, smb := false, priv := false, legal := legalStd, form := termCreateForm }

/-- Another terminal of the plane has the serial number (R195). -/
def serialTaken (s : State) (f : Nat) (serial : Bytes) : Bool :=
  (planeTerms s (planeOf f)).any fun e => e.1 != f && e.2.serial == serial

/-- The terminal that a payload describes, not yet entered into a state (R194). -/
def newTerm (r : Req) : Term :=
  let p := r.payload
  let flags := u8 p 2
  { client := r.client
    serial := slice p 4 8
    regId := slice p 12 36
    dist := u32 p 48
    resp := if u16 p 52 = 0 then 21875 else u16 p 52
    manual := bit flags 1
    fixedKey := bit flags 2 }

/-- TERM_CREATE (R194, R195, R204). -/
def termCreateAct (r : Req) (s : State) : Served :=
  let f := termOf r
  let flags := u8 r.payload 2
  if (findTerm s f).isSome then termConflict f s
  else if !bit flags 3 ∧ serialTaken s f (slice r.payload 4 8) then fail stBadParam s
  else
    let s1 := touch (planeOf f) (f % 1024) { s with tm := { s.tm with terms := tset s.tm.terms f (newTerm r) } }
    ok (enterState f (if bit flags 0 then 0x11 else 0x01) 1 true none (causeOf r) s1)

def execTermCreate (s : State) : Host.Outcome State Fault Refusal := .next (serve termCreateSpec termCreateAct s)

/-- What disabling empties: the PLOAM and OMCI queues of the terminal (R197). -/
def emptyQueues (f : Nat) (s : State) : State :=
  let s1 := modPlane (planeOf f) (fun x => { x with omciRx := x.omciRx.filter fun o => o.owner != f }) s
  modTerm f (fun t => { t with
    ploamUp := []
    ploamDelayed := []
    hostQ := []
    omciQ := []
    omciPart := []
    omciTotal := 0 }) s1

def termEnableForm (p : Bytes) : Bool := len 4 p && isTid (u16 p 0) && decide (u8 p 2 ≤ 1) && zeroAt p 3 1

def termEnableSpec : CmdSpec := { op := 0x0503, smb := false, priv := false, legal := legalStd, form := termEnableForm }

/-- TERM_ENABLE (R197). A terminal that it brings into O2-3 answers the serial-number grants that it has yet to see (R205). -/
def termEnableAct (r : Req) (s : State) : Served :=
  let f := termOf r
  onTerm r s fun t =>
    if u8 r.payload 2 = 1 then
      if t.state ≠ 0x01 then termConflict f s
      else ok (lateAnswers (planeOf f) (enterState f 0x11 1 true none (causeOf r) s))
    else if !enabledState t.state then termConflict f s
    else ok (enterState f 0x01 1 true none (causeOf r) (emptyQueues f (judgeAhead f s)))

def execTermEnable (s : State) : Host.Outcome State Fault Refusal := .next (serve termEnableSpec termEnableAct s)

/-- A terminal ID and two reserved bytes (R197). -/
def termForm (p : Bytes) : Bool := len 4 p && isTid (u16 p 0) && zeroAt p 2 2

def termDeleteSpec : CmdSpec := { op := 0x0502, smb := false, priv := false, legal := legalStd, form := termForm }

/-- TERM_DELETE (R197, R204): as for disabling, then nothing of the terminal remains; one that TERM_CREATE makes in its place
sees what the active engine accepts from then on (DESIGN CHOICE, log 84). -/
def termDeleteAct (r : Req) (s : State) : Served :=
  let f := termOf r
  onTerm r s fun _ =>
    let s1 := enterState f 0x00 1 true none (causeOf r) (emptyQueues f (judgeAhead f s))
    let gone := modPlane (planeOf f) (fun x => { x with
      bulks := x.bulks.map fun b => { b with waiting := tdel b.waiting f }
      opened := x.opened.map fun g => { g with unseen := g.unseen.filter fun u => u.f != f } }) s1
    ok (touch (planeOf f) (f % 1024) { gone with tm := { gone.tm with terms := tdel gone.tm.terms f } })

def execTermDelete (s : State) : Host.Outcome State Fault Refusal := .next (serve termDeleteSpec termDeleteAct s)

/-! ### TERM_DISTANCE (R206) -/

def termDistanceForm (p : Bytes) : Bool :=
  len 24 p && isTid (u16 p 0) && decide (u8 p 2 ≤ 1) && zeroAt p 3 1 && decide (u32 p 4 ≤ 187500) &&
    respForm (u16 p 8) && zeroAt p 10 6 && decide (u64 p 16 < 2 ^ 51) && (u8 p 2 == 1 || u64 p 16 == 0)

def termDistanceSpec : CmdSpec :=
  { op := 0x0504, smb := false, priv := false, legal := legalStd, form := termDistanceForm }

/-- How far an SFC is ahead of the plane's count (R206). -/
def sfcAhead (s : State) (p sfc : Nat) : Nat := (sfc + 2 ^ 51 - (plane s p).sfc) % 2 ^ 51

/-- A boundary that a command selects: the next one, or one by its SFC with the device time at which it is due (R206,
R244). -/
def schedOf (r : Req) (p when_ sfc : Nat) (s : State) : Sched :=
  { when := when_
    sfc
    breaks := (plane s p).breaks
    due := (plane s p).psyncNs + BitVec.ofNat 64 (sfcAhead s p sfc * 125000)
    cause := causeOf r }

/-- An apply_sfc is not ahead of the plane's count, or too far ahead (R206). -/
def sfcRefused (s : State) (p when_ sfc : Nat) : Bool :=
  when_ == 1 && !decide (1 ≤ sfcAhead s p sfc ∧ sfcAhead s p sfc ≤ 80000)

/-- TERM_DISTANCE (R206). -/
def termDistanceAct (r : Req) (s : State) : Served :=
  let f := termOf r
  let q := r.payload
  onTerm r s fun t =>
    if t.pendDist.isSome then fail stBusy s
    else if sfcRefused s (planeOf f) (u8 q 2) (u64 q 16) then fail stBadParam s
    else
      let d : PendDist := {
        dist := u32 q 4
        resp := if u16 q 8 = 0 then t.resp else u16 q 8
        sched := schedOf r (planeOf f) (u8 q 2) (u64 q 16) s }
      let s1 := modTerm f (fun x => { x with pendDist := some d }) s
      ok (if t.state = 0x01 ∨ t.state = 0x11 ∨ t.state = 0x17 then applyDistance f noSfc none s1 else s1)

def execTermDistance (s : State) : Host.Outcome State Fault Refusal := .next (serve termDistanceSpec termDistanceAct s)

/-! ### TERM_CONFIG, TERM_MSK, TERM_PORT_SET (R198, R199, R216) -/

def termConfigForm (p : Bytes) : Bool :=
  len 8 p && isTid (u16 p 0) && decide (u8 p 2 ≤ 1) && decide (u8 p 3 ≤ 1) && decide (u8 p 4 ≤ 1) && zeroAt p 5 3

def termConfigSpec : CmdSpec := { op := 0x0505, smb := false, priv := false, legal := legalStd, form := termConfigForm }

/-- TERM_CONFIG (R198). -/
def termConfigAct (r : Req) (s : State) : Served :=
  let f := termOf r
  let q := r.payload
  onTerm r s fun t =>
    let modes := u8 q 2 ≠ b2n t.manual ∨ u8 q 4 ≠ b2n t.fixedKey
    if modes ∧ t.state ≠ 0x01 ∧ t.state ≠ 0x11 then termConflict f s
    else ok (modTerm f (fun x => { x with
      manual := u8 q 2 == 1
      copy := u8 q 3 == 1
      fixedKey := u8 q 4 == 1 }) s)

def execTermConfig (s : State) : Host.Outcome State Fault Refusal := .next (serve termConfigSpec termConfigAct s)

def termMskForm (p : Bytes) : Bool :=
  len 28 p && isTid (u16 p 0) && decide (u8 p 2 ≤ 1) && zeroAt p 3 1 && (u8 p 2 == 1 || zeroAt p 4 24)

def termMskSpec : CmdSpec := { op := 0x0506, smb := false, priv := false, legal := legalStd, form := termMskForm }

/-- TERM_MSK (R216, R411). -/
def termMskAct (r : Req) (s : State) : Served :=
  let f := termOf r
  onTerm r s fun _ =>
    if u8 r.payload 2 = 0 then ok (modTerm f (fun x => { x with msk := none }) s)
    else match s.cip.kek with
      | none => conflict 0x0C 0 0xFFFF s
      | some kek =>
        match Config.aesUnwrap (kekBytes kek) (slice r.payload 4 24) with
        | none => fail stBadParam s
        | some raw => ok (modTerm f (fun x => { x with msk := some (BitVec.ofNat 128 (beNat (fit 16 raw))) }) s)

def execTermMsk (s : State) : Host.Outcome State Fault Refusal := .next (serve termMskSpec termMskAct s)

def termPortForm (p : Bytes) : Bool :=
  len 8 p && isTid (u16 p 0) && decide (u8 p 2 ≤ 15) && decide (u8 p 3 ≤ 15) && zeroAt p 6 2 &&
    if bit (u8 p 3) 0 then decide (1024 ≤ u16 p 4 ∧ u16 p 4 ≤ 65534) else u8 p 3 == 0 && u16 p 4 == 0

def termPortSpec : CmdSpec := { op := 0x0507, smb := false, priv := false, legal := legalStd, form := termPortForm }

/-- A context of a table, other than `skip`, holds a Port-ID. -/
def holdsPort (t : Tab PortCtx) (skip : Option Nat) (port : Nat) : Bool :=
  t.any fun c => c.2.valid && c.2.portId == port && some c.1 != skip

/-- Another context of the plane holds a Port-ID, in force or waiting for its boundary (R199). -/
def portTaken (s : State) (f m port : Nat) : Bool :=
  (planeTerms s (planeOf f)).any fun e =>
    let skip := if e.1 = f then some m else none
    holdsPort e.2.ctxs skip port || holdsPort e.2.pendCtxs skip port

/-- TERM_PORT_SET (R199). -/
def termPortAct (r : Req) (s : State) : Served :=
  let f := termOf r
  let q := r.payload
  let m := u8 q 2
  let flags := u8 q 3
  let c : PortCtx := {
    valid := bit flags 0
    down := bit flags 1
    up := bit flags 2
    enc := bit flags 3
    portId := u16 q 4 }
  onTerm r s fun t =>
    if bit flags 0 ∧ portTaken s f m (u16 q 4) then fail stBadParam s
    else if t.state = 0x15 then ok (modTerm f (fun x => { x with pendCtxs := tset x.pendCtxs m c }) s)
    else ok (modTerm f (fun x => { x with ctxs := tset x.ctxs m c, pendCtxs := tdel x.pendCtxs m }) s)

def execTermPortSet (s : State) : Host.Outcome State Fault Refusal := .next (serve termPortSpec termPortAct s)

/-! ### TERM_MISBEHAVE (R221) -/

/-- A type mask (R221). -/
def typeMask (v : Nat) : Bool := decide (1 ≤ v ∧ v ≤ 31)

/-- The ranges of the parameters of an item in modes 1 and 2 (R221). -/
def itemForm (item p0 p1 : Nat) : Bool :=
  match item with
  | 1 => (decide (p0 ≤ 32767 ∨ 2 ^ 32 - 32768 ≤ p0)) && p1 == 0
  | 2 => p0 != 0 && p1 == 0
  | 3 => decide (1 ≤ p0 ∧ p0 ≤ 0x1FFF) && decide (p1 ≤ 1)
  | 4 => typeMask p0 && p1 == 0
  | 5 => decide (1 ≤ p0 ∧ p0 ≤ 10000000) && typeMask p1
  | 6 => decide (p0 ≤ 3) && p1 == 0
  | 7 | 8 => p0 == 0 && p1 == 0
  | 9 => decide (p1 ≤ 3)
  | _ => false

/-- The modes an item accepts, with its parameters and count (R221). -/
def misbehaveForm (p : Bytes) : Bool :=
  let item := u8 p 2
  len 16 p && isTid (u16 p 0) && decide (item ≤ 9) &&
    match u8 p 3 with
    | 0 => zeroAt p 4 12
    | 1 => itemForm item (u32 p 4) (u32 p 8) && u32 p 12 == 0
    | 2 => itemForm item (u32 p 4) (u32 p 8) && u32 p 12 != 0 && item != 7 && item != 8
    | _ => false

def misbehaveSpec : CmdSpec := { op := 0x0508, smb := false, priv := false, legal := legalStd, form := misbehaveForm }

/-- TERM_MISBEHAVE (R221): the item takes effect at the next superframe boundary. -/
def misbehaveAct (r : Req) (s : State) : Served :=
  let q := r.payload
  let m : Misb := {
    mode := u8 q 3
    p0 := u32 q 4
    p1 := u32 q 8
    count := u32 q 12 }
  onTerm r s fun _ => ok (modTerm (termOf r) (fun x => { x with pendMisb := x.pendMisb ++ [(u8 q 2, m)] }) s)

def execTermMisbehave (s : State) : Host.Outcome State Fault Refusal := .next (serve misbehaveSpec misbehaveAct s)

/-! ### TERM_STATUS (R222) -/

def termStatusForm (p : Bytes) : Bool := len 4 p && isTid (u16 p 0) && decide (u8 p 2 ≤ 1) && zeroAt p 3 1

def termStatusSpec : CmdSpec :=
  { op := 0x0509, smb := true, priv := false, legal := readyToFault, form := termStatusForm }

/-- Milliseconds of device time that a running timer has left (R205, R222). -/
def timerLeft (s : State) (t : Term) : Nat :=
  if t.timer = 0 then 0 else (t.timerEnd - s.time.ns.toNat) / 1000000

/-- The 84 bytes of TERM_STATUS (R222). -/
def termStatusBytes (s : State) (f : Nat) (t : Term) : Bytes :=
  let flags := b2n t.manual + 2 * b2n t.copy + 4 * b2n t.fixedKey + 8 * b2n t.msk.isSome + 16 * b2n (!t.misb.isEmpty) +
    32 * b2n t.pendDist.isSome
  let valid := b2n (lineKeyValid s f 1) + 2 * b2n (lineKeyValid s f 2)
  le 2 (termId f) ++ le 1 t.state ++ le 1 (b2n t.lods + 2 * b2n t.loploam + 4 * b2n t.lok) ++ le 2 (onuField t.onuId) ++
    le 1 t.lastCause ++ le 1 flags ++ le 4 (t.eqd.getD 0) ++ le 4 t.dist ++ le 2 t.resp ++ le 1 t.keyUp ++ le 1 valid ++
    ([0, 1, 2, 3].flatMap fun q => le 2 ((t.allocs.getD q none).getD 0xFFFF)) ++ le 4 (timerLeft s t) ++
    (List.range 13).flatMap fun i => le 4 (tget 0 t.cnt (32 + 4 * i))

/-- TERM_STATUS (R222): the counters are zeroed as they are copied when clear is 1. -/
def termStatusAct (r : Req) (s : State) : Served :=
  let f := termOf r
  readTerm r s fun t =>
    okWith (termStatusBytes s f t) (if u8 r.payload 2 = 1 then modTermLocal f (fun x => { x with cnt := [] }) s else s)

def execTermStatus (s : State) : Host.Outcome State Fault Refusal := .next (serve termStatusSpec termStatusAct s)

/-! ### PLOAM messages of the host (R211, R212) -/

def ploamSendForm (p : Bytes) : Bool := len 52 p && isTid (u16 p 0) && decide (u8 p 2 ≤ 1) && zeroAt p 3 1

def ploamSendSpec : CmdSpec := { op := 0x050A, smb := false, priv := false, legal := legalStd, form := ploamSendForm }

/-- TERM_PLOAM_SEND (R193, R210, R211). -/
def ploamSendAct (r : Req) (s : State) : Served :=
  let f := termOf r
  onTerm r s fun t =>
    if t.state ≠ 0x12 ∧ t.state ≠ 0x14 ∧ t.state ≠ 0x15 then termConflict f s
    else if 8 ≤ t.ploamUp.length then fail stNoResource s
    else ok (queueUp f (.host (slice r.payload 4 48) (if u8 r.payload 2 = 1 then some t.msk else none)) s)

def execTermPloamSend (s : State) : Host.Outcome State Fault Refusal := .next (serve ploamSendSpec ploamSendAct s)

def ploamRecvForm (p : Bytes) : Bool :=
  len 4 p && isTid (u16 p 0) && decide (u8 p 2 ≤ 1) && decide (1 ≤ u8 p 3 ∧ u8 p 3 ≤ 3) &&
    (u8 p 2 == 0 || u16 p 0 % 1024 == 0)

def ploamRecvSpec : CmdSpec := { op := 0x050B, smb := false, priv := false, legal := legalStd, form := ploamRecvForm }

/-- An entry of TERM_PLOAM_RECV (R212). -/
def ploamEntry (e : PloamEntry) : Bytes :=
  le 2 e.tid ++ le 1 (b2n e.micOk + 2 * b2n e.acted + 4 * b2n e.bcast) ++ zeros 5 ++ le 8 e.time.toNat ++ fit 48 e.msg

/-- The response of TERM_PLOAM_RECV (R212). -/
def ploamRecvBytes (q : List PloamEntry) (n : Nat) : Bytes :=
  let out := q.take n
  le 1 out.length ++ le 1 (b2n (decide (n < q.length))) ++ zeros 2 ++ out.flatMap ploamEntry

/-- TERM_PLOAM_RECV (R212). -/
def ploamRecvAct (r : Req) (s : State) : Served :=
  let n := u8 r.payload 3
  if u8 r.payload 2 = 1 then
    let p := u16 r.payload 0 / 0x8000
    okWith (ploamRecvBytes (plane s p).bcast n) (modPlane p (fun x => { x with bcast := x.bcast.drop n }) s)
  else readTerm r s fun t =>
    okWith (ploamRecvBytes t.hostQ n) (modTermLocal (termOf r) (fun x => { x with hostQ := x.hostQ.drop n }) s)

def execTermPloamRecv (s : State) : Host.Outcome State Fault Refusal := .next (serve ploamRecvSpec ploamRecvAct s)

/-! ### OMCI (R219, R220) -/

def omciSendForm (p : Bytes) : Bool :=
  decide (8 ≤ p.length) && isTid (u16 p 0) && decide (1 ≤ u16 p 2 ∧ u16 p 2 ≤ 1980) &&
    decide (1 ≤ u8 p 6 ∧ u8 p 6 ≤ 224) && decide (u16 p 4 + u8 p 6 ≤ u16 p 2) && zeroAt p 7 1 && len (8 + u8 p 6) p

def omciSendSpec : CmdSpec := { op := 0x050C, smb := false, priv := false, legal := legalStd, form := omciSendForm }

/-- A frame grows by a fragment, and is queued when it is complete (R220). -/
def omciGrow (f total : Nat) (part : Bytes) (s : State) : State :=
  if part.length = total then
    modTerm f (fun t => { t with omciQ := t.omciQ ++ [part], omciPart := [], omciTotal := 0 }) s
  else modTerm f (fun t => { t with omciPart := part, omciTotal := total }) s

/-- OMCI_SEND (R193, R220). -/
def omciSendAct (r : Req) (s : State) : Served :=
  let f := termOf r
  let q := r.payload
  onTerm r s fun t =>
    if t.state ≠ 0x15 then termConflict f s
    else if u16 q 4 = 0 then
      if 16 ≤ t.omciQ.length then fail stNoResource s else ok (omciGrow f (u16 q 2) (q.drop 8) s)
    else if t.omciTotal ≠ u16 q 2 ∨ t.omciPart.length ≠ u16 q 4 then fail stBadParam s
    else ok (omciGrow f (u16 q 2) (t.omciPart ++ q.drop 8) s)

def execOmciSend (s : State) : Host.Outcome State Fault Refusal := .next (serve omciSendSpec omciSendAct s)

def omciRecvForm (p : Bytes) : Bool := len 6 p && (isTid (u16 p 0) || u16 p 0 == 0xFFFF) && zeroAt p 4 2

def omciRecvSpec : CmdSpec := { op := 0x050D, smb := false, priv := false, legal := legalStd, form := omciRecvForm }

/-- The SDUs that wait for a terminal, oldest first. -/
def omciOf (s : State) (f : Nat) : List OmciSdu := (plane s (planeOf f)).omciRx.filter fun o => o.owner == f

/-- The terminal with a waiting SDU and the lowest flat index (R219). -/
def omciFirst (s : State) : Option Nat := (s.tm.terms.map Prod.fst).find? fun f => !(omciOf s f).isEmpty

/-- The response of OMCI_RECV when no SDU waits (R219). -/
def omciNone (tid off : Nat) : Bytes := le 2 tid ++ zeros 2 ++ le 2 off ++ zeros 10

/-- OMCI SDUs at the head of a terminal's queue whose lines fail their CRC are discarded as they are read (R400). `fuel`
bounds them. -/
def goodOmci (f : Nat) : Nat → State → State
  | 0, s => s
  | fuel + 1, s =>
    match (omciOf s f).head? with
    | none => s
    | some o => match o.bad with
      | none => s
      | some inj =>
        goodOmci f fuel (countTerm f 76 (modPlane (planeOf f) (fun x => { x with omciRx := x.omciRx.erase o })
          (sramError inj 0 3 (0x200 + planeOf f) 0 s)))

/-- Reads from the oldest SDU of a terminal (R219). -/
def omciRead (f off : Nat) (s0 : State) : Served :=
  let s := goodOmci f (omciOf s0 f).length s0
  match omciOf s f with
  | [] => okWith (omciNone (termId f) off) s
  | o :: rest =>
    if o.data.length ≤ off then fail stBadParam s
    else
      let n := min 208 (o.data.length - off)
      let last := off + n == o.data.length
      let flags := b2n (!rest.isEmpty) + 2 * b2n o.fecUnc + 4 * b2n last
      okWith (le 2 (termId f) ++ le 2 o.data.length ++ le 2 off ++ le 1 n ++ le 1 flags ++ le 8 o.time.toNat ++
          slice o.data off n)
        (if last then modPlane (planeOf f) (fun x => { x with omciRx := x.omciRx.erase o }) s else s)

/-- OMCI_RECV (R219). The terminal_id of a wildcard that finds no SDU waiting reads 0xFFFF (DESIGN CHOICE, log 84). -/
def omciRecvAct (r : Req) (s : State) : Served :=
  let off := u16 r.payload 2
  if u16 r.payload 0 = 0xFFFF then
    match omciFirst s with
    | none => okWith (omciNone 0xFFFF off) s
    | some f => omciRead f off s
  else readTerm r s fun _ => omciRead (termOf r) off s

def execOmciRecv (s : State) : Host.Outcome State Fault Refusal := .next (serve omciRecvSpec omciRecvAct s)

/-! ### TERM_PLANE_CONFIG (R203) -/

def termPlaneForm (p : Bytes) : Bool :=
  len 12 p && decide (u8 p 0 ≤ 1) && decide (1 ≤ u8 p 1) && decide (100 ≤ u16 p 2 ∧ u16 p 2 ≤ 60000) &&
    decide (10 ≤ u16 p 4 ∧ u16 p 4 ≤ 10000) && decide (u16 p 6 ≤ 30000) && zeroAt p 8 4

def termPlaneSpec : CmdSpec := { op := 0x050E, smb := false, priv := true, legal := legalStd, form := termPlaneForm }

/-- TERM_PLANE_CONFIG (R203). -/
def termPlaneAct (r : Req) (s : State) : Served :=
  let q := r.payload
  ok (modPlane (u8 q 0) (fun x => { x with
    lokN := u8 q 1
    to1 := u16 q 2
    to2 := u16 q 4
    snMax := u16 q 6 }) s)

def execTermPlaneConfig (s : State) : Host.Outcome State Fault Refusal := .next (serve termPlaneSpec termPlaneAct s)

end Sys2Proof.Machine
end

