-- ==== Sys2Proof/Machine/Traffic.lean ====
section
/-!
DEFINITION. The commands of the allocation block: the pattern pool, pattern descriptors, the allocation map, shapers and
the status of Spouts and queues (R237 to R251).
-/
namespace Sys2Proof.Machine

/-! ### POOL_RESERVE (R237) -/

def poolReserveForm (p : Bytes) : Bool := len 8 p && u64 p 0 % segBytes == 0 && decide (u64 p 0 ≤ 0x200000000)

def poolReserveSpec : CmdSpec := { op := 0x0601, smb := false, priv := false, legal := legalStd, form := poolReserveForm }

/-- A descriptor is valid, or its waiting write makes it valid (R237, R240). -/
def descLive (s : State) (d : Nat) : Bool := (desc s d).kind != 0 || (tget {} s.up.pendDescs d).kind != 0

/-- The number of valid descriptors (R237). -/
def descsLive (s : State) : Nat :=
  ((tkeys s.up.descs ++ (tkeys s.up.pendDescs).filter fun d => !(tkeys s.up.descs).contains d).filter (descLive s)).length

/-- A segment cannot become part of the pool: it does not exist, it is fenced, or outside the pool it is marked, held or
pinned (R237, R321, R349, R391, R392). -/
def poolDenied (s : State) (g : Nat) : Bool :=
  decide (segCount s ≤ g) || fenced s g || (decide (s.up.poolSegs ≤ g) && !segFree s g)

/-- A sealed-bundle load runs (R425). -/
def loadRuns (s : State) : Bool := s.cip.xfers.any fun x => x.2.state == 1 && x.2.kind == 1

/-- The pool takes a number of segments, whose contents are undefined and READY (R237, R238, log 7); segments that leave
it are released. -/
def reservePool (client n : Nat) (s : State) : State :=
  let f := drawFree s
  let size := n * segBytes
  let old := s.up.poolSegs
  let s1 : State := { f.2 with
    up := { f.2.up with
      poolSegs := n
      poolClient := client
      poolState := []
      tainted := [] }
    cap := { f.2.cap with
      store := Memory.clear f.2.cap.store 0 size
      unitKey := f.2.cap.unitKey.filter fun u => decide (size / 4096 ≤ u.1)
      undef := if n = 0 then f.2.cap.undef else (0, size, f.1 + 1) :: cutRanges 0 size f.2.cap.undef } }
  releaseSegments ((List.range (old - n)).map fun i => n + i) s1

/-- POOL_RESERVE (R237). -/
def poolReserveAct (r : Req) (s : State) : Served :=
  let n := u64 r.payload 0 / segBytes
  let live := descsLive s
  if s.up.poolSegs ≠ 0 ∧ !mayChange r s.up.poolClient then fail stDenied s
  else if loadRuns s then fail stBusy s
  else if (List.range n).any (poolDenied s) then fail stNoResource s
  else if live ≠ 0 then conflict 0x06 live 0 s
  else ok (reservePool r.client n s)

def execPoolReserve (s : State) : Host.Outcome State Fault Refusal := .next (serve poolReserveSpec poolReserveAct s)

/-! ### PATTERN_DESC_SET (R240, R241) -/

/-- The ranges of the fields of a descriptor, by its kind (R240). -/
def descKindForm (p : Bytes) : Bool :=
  let noList := zeroAt p 4 12
  let noGen := zeroAt p 16 6
  let gen := decide (1 ≤ u16 p 16 ∧ u16 p 16 ≤ u16 p 18 ∧ u16 p 18 ≤ 16383 ∧ u16 p 20 ≤ 16383)
  match u8 p 2 with
  | 0 => noList && noGen && zeroAt p 22 2
  | 1 => u64 p 4 % 8 == 0 && decide (16 ≤ u32 p 12 ∧ u32 p 12 ≤ 4294967288) && u32 p 12 % 8 == 0 && noGen && zeroAt p 22 2
  | 2 => noList && gen && decide (1 ≤ u8 p 22 ∧ u8 p 22 ≤ 5) && zeroAt p 23 1
  | 3 => noList && gen && zeroAt p 22 1
  | _ => false

def descSetForm (p : Bytes) : Bool :=
  len 32 p && decide (u16 p 0 ≤ 16383) && decide (u8 p 3 ≤ 1) && decide (u16 p 24 ≤ 16379) &&
    (u8 p 3 == 1 || u16 p 24 == 0) && zeroAt p 26 6 && descKindForm p

def descSetSpec : CmdSpec := { op := 0x0602, smb := false, priv := false, legal := legalStd, form := descSetForm }

/-- The descriptor that a payload describes, at the start of its data (R240). -/
def newDesc (client : Nat) (p : Bytes) : Desc :=
  { kind := u8 p 2
    stamp := bit (u8 p 3) 0
    base := u64 p 4
    region := u32 p 12
    lenMin := u16 p 16
    lenMax := u16 p 18
    lenStep := u16 p 20
    prbs := u8 p 22
    fill := u8 p 23
    stampOff := u16 p 24
    client }

/-- The descriptor as the last write leaves it, in force or waiting. -/
def descLast (s : State) (d : Nat) : Desc := (tfind s.up.pendDescs d).getD (desc s d)

/-- A context in an active page names the descriptor (R240). -/
def descNamed (s : State) (d : Nat) : Bool := pageNames (plane s 0).active d || pageNames (plane s 1).active d

/-- PATTERN_DESC_SET (R240, R241): a descriptor that is valid already keeps its client; whether it is valid is judged by the
write that waits, where one does (DESIGN CHOICE, log 85). A write that applies at once resets
its position, which is a change of the plane record (R254). -/
def descSetAct (r : Req) (s : State) : Served :=
  let d := u16 r.payload 0
  let last := descLast s d
  let x := newDesc (if last.kind = 0 then r.client else last.client) r.payload
  if last.kind ≠ 0 ∧ !mayChange r last.client then fail stDenied s
  else if x.kind = 1 ∧ s.up.poolSegs * segBytes < x.base + x.region then fail stBadParam s
  else if descNamed s d then ok { s with up := { s.up with pendDescs := tset s.up.pendDescs d x } }
  else ok (touchDescs [0, 1] [d] { s with up := { s.up with
    descs := tset s.up.descs d x
    pendDescs := tdel s.up.pendDescs d } })

def execPatternDescSet (s : State) : Host.Outcome State Fault Refusal := .next (serve descSetSpec descSetAct s)

/-! ### AMAP_WRITE, AMAP_SWAP (R242 to R244) -/

/-- The indices of a page entry of a kind lie on a plane (R22, R243). -/
def amapOn (p kind first count : Nat) : Bool :=
  let per := if kind = 0 then 4096 else 16384
  decide (p * per ≤ first ∧ first + count ≤ (p + 1) * per)

/-- An entry has no reserved bit set (R243). -/
def amapEntryForm (kind v : Nat) : Bool := if kind = 0 then v / 0x10000 == 0 else v / 0x4000 % 0x20000 == 0

def amapWriteForm (p : Bytes) : Bool :=
  let n := u8 p 2
  len (8 + 4 * n) p && decide (u8 p 0 ≤ 1) && decide (u8 p 1 ≤ 1) && decide (1 ≤ n ∧ n ≤ 58) && zeroAt p 3 1 &&
    zeroAt p 6 2 && amapOn (u8 p 0) (u8 p 1) (u16 p 4) n &&
    (List.range n).all fun i => amapEntryForm (u8 p 1) (u32 p (8 + 4 * i))

def amapWriteSpec : CmdSpec := { op := 0x0603, smb := false, priv := false, legal := legalStd, form := amapWriteForm }

/-- The request's client may change the queues, shapers and map entries of a terminal (R247). -/
def mayTraffic (r : Req) (s : State) (f : Nat) : Bool :=
  match findTerm s f with
  | none => true
  | some t => mayChange r t.client

/-- A page with the entries of an AMAP_WRITE (R243). -/
def amapWritten (p : Bytes) (g : AmapPage) : AmapPage :=
  let put := fun (t : Tab Nat) (i : Nat) =>
    let v := u32 p (8 + 4 * i)
    if v = 0 then tdel t (u16 p 4 + i) else tset t (u16 p 4 + i) v
  let t := (List.range (u8 p 2)).foldl put (if u8 p 1 = 0 then g.masks else g.ctxs)
  if u8 p 1 = 0 then { g with masks := t } else { g with ctxs := t }

/-- Two queues of a terminal serve a common context (R243). -/
def amapOverlap (g : AmapPage) (f : Nat) : Bool :=
  let m := fun q => tget 0 g.masks (4 * f + q)
  (m 0 &&& m 1) ||| (m 0 &&& m 2) ||| (m 0 &&& m 3) ||| (m 1 &&& m 2) ||| (m 1 &&& m 3) ||| (m 2 &&& m 3) != 0

/-- A page swap of a plane is pending or firmware still copies (R244). -/
def amapBusy (s : State) (p : Nat) : Bool := (plane s p).swap.isSome || (plane s p).copying.isSome

/-- AMAP_WRITE (R243). -/
def amapWriteAct (r : Req) (s : State) : Served :=
  let q := r.payload
  let p := u8 q 0
  let owner := fun i => (u16 q 4 + i) / (if u8 q 1 = 0 then 4 else 16)
  let fs := (List.range (u8 q 2)).map owner
  let g := amapWritten q (plane s p).standby
  if !fs.all (mayTraffic r s) then fail stDenied s
  else if amapBusy s p then fail stBusy s
  else if u8 q 1 = 0 ∧ fs.any (amapOverlap g) then fail stBadParam s
  else ok (touch p planeRecord (modPlane p (fun x => { x with standby := g }) s))

def execAmapWrite (s : State) : Host.Outcome State Fault Refusal := .next (serve amapWriteSpec amapWriteAct s)

def amapSwapForm (p : Bytes) : Bool :=
  len 16 p && decide (u8 p 0 ≤ 1) && decide (u8 p 1 ≤ 1) && zeroAt p 2 6 && decide (u64 p 8 < 2 ^ 51) &&
    (u8 p 1 == 1 || u64 p 8 == 0)

def amapSwapSpec : CmdSpec := { op := 0x0604, smb := false, priv := false, legal := legalStd, form := amapSwapForm }

/-- The terminals whose map entries a swap of a plane's pages changes (R244, R247). -/
def swapChanges (x : Plane) : List Nat :=
  let keys := fun (a b : Tab Nat) (n : Nat) =>
    ((tkeys a ++ tkeys b).filter fun k => tget 0 a k != tget 0 b k).map fun k => k / n
  keys x.active.masks x.standby.masks 4 ++ keys x.active.ctxs x.standby.ctxs 16

/-- AMAP_SWAP (R55, R244, R247): it changes the map entries in which the pages differ, so the client must own their
terminals (log 71). -/
def amapSwapAct (r : Req) (s : State) : Served :=
  let q := r.payload
  let p := u8 q 0
  let x := schedOf r p (u8 q 1) (u64 q 8) s
  let state := (plane s p).state
  if !(swapChanges (plane s p)).all (mayTraffic r s) then fail stDenied s
  else if amapBusy s p then fail stBusy s
  else if state ≠ 2 then
    if u8 q 1 = 1 then conflict 0x06 state p s else ok (touch p planeRecord (swapPages p 0 x s))
  else if sfcRefused s p (u8 q 1) (u64 q 8) then fail stBadParam s
  else ok (modPlane p (fun y => { y with swap := some x }) s)

def execAmapSwap (s : State) : Host.Outcome State Fault Refusal := .next (serve amapSwapSpec amapSwapAct s)

/-- AMAP_COPY_DONE (R244, R251): firmware has copied the new active page into the standby page. -/
def execAmapCopyDone (plane : Nat) (s : State) : Host.Outcome State Fault Refusal :=
  let p := plane
  match (Machine.plane s p).copying with
  | none => .next s
  | some x =>
    if 1 < p ∨ !cpRuns s then .next s
    else .next (raise 0x0601 p (le 8 x.sfc) x.cause (touch p planeRecord (modPlane p (fun y => { y with
      standby := y.active
      copying := none }) s)))

/-! ### SHAPER_SET, BURST_CONFIG (R246, R248) -/

def shaperForm (p : Bytes) : Bool :=
  len 24 p && decide (u16 p 0 ≤ 8191) && decide (u8 p 2 ≤ 2) && zeroAt p 3 1 && decide (u32 p 4 ≤ 50000000) &&
    decide (64 ≤ u32 p 8 ∧ u32 p 8 ≤ 1048576) && decide (u8 p 12 ≤ 64) && zeroAt p 13 3 &&
    decide (u32 p 16 ≤ 67108860) && zeroAt p 20 4

def shaperSpec : CmdSpec := { op := 0x0605, smb := false, priv := false, legal := legalStd, form := shaperForm }

/-- SHAPER_SET (R246): with apply 2 the change is held until the shaper's next refill. -/
def shaperAct (r : Req) (s : State) : Served :=
  let p := r.payload
  let q := u16 p 0
  let sh : Shaper := {
    rate := u32 p 4
    burst := u32 p 8
    overhead := u8 p 12
    cap := u32 p 16 }
  let apply := fun (x : AQueue) =>
    if u8 p 2 = 2 then { x with held := some sh }
    else { x with
      shaper := sh
      held := none
      tokens := if u8 p 2 = 0 then sh.burst * 64 else 0 }
  if !mayTraffic r s (q / 4) then fail stDenied s
  else ok (touch (q / 4096) planeRecord (modQueue q apply s))

def execShaperSet (s : State) : Host.Outcome State Fault Refusal := .next (serve shaperSpec shaperAct s)

def burstConfigForm (p : Bytes) : Bool := len 4 p && isTid (u16 p 0) && decide (u8 p 2 ≤ 1) && zeroAt p 3 1

def burstConfigSpec : CmdSpec :=
  { op := 0x0606, smb := false, priv := false, legal := legalStd, form := burstConfigForm }

/-- BURST_CONFIG (R247, R248): in force from the next superframe boundary. -/
def burstConfigAct (r : Req) (s : State) : Served :=
  onTerm r s fun _ => ok (modTerm (termOf r) (fun t => { t with pendFrag := some (u8 r.payload 2 == 1) }) s)

def execBurstConfig (s : State) : Host.Outcome State Fault Refusal := .next (serve burstConfigSpec burstConfigAct s)

/-! ### SPOUT_STATUS, QUEUE_STATUS (R249, R250) -/

def spoutStatusForm (p : Bytes) : Bool := len 4 p && decide (u8 p 0 ≤ 1) && decide (u8 p 1 ≤ 1) && zeroAt p 2 2

def spoutStatusSpec : CmdSpec :=
  { op := 0x0607, smb := true, priv := false, legal := readyToFault, form := spoutStatusForm }

/-- SPOUT_STATUS (R189, R249): the counters are zeroed as they are copied when clear is 1. -/
def spoutStatusAct (r : Req) (s : State) : Served :=
  let p := u8 r.payload 0
  let out := le 1 p ++ zeros 7 ++ (List.range 13).flatMap fun i => le 8 (tget 0 (plane s p).spout (8 + 8 * i))
  okWith out (if u8 r.payload 1 = 1 then modPlane p (fun x => { x with spout := [] }) s else s)

def execSpoutStatus (s : State) : Host.Outcome State Fault Refusal := .next (serve spoutStatusSpec spoutStatusAct s)

def queueStatusForm (p : Bytes) : Bool := len 4 p && decide (u16 p 0 ≤ 8191) && decide (u8 p 2 ≤ 1) && zeroAt p 3 1

def queueStatusSpec : CmdSpec :=
  { op := 0x0608, smb := false, priv := false, legal := readyToFault, form := queueStatusForm }

/-- The 48 bytes of QUEUE_STATUS (R250). -/
def queueStatusBytes (s : State) (q : Nat) : Bytes :=
  let x := aqueue s q
  let t := findTerm s (q / 4)
  let alloc := (t.bind fun y => y.allocs.getD (q % 4) none).getD 0xFFFF
  let omci := x.omciWait && (t.map fun y => !y.omciQ.isEmpty).getD false
  let flags := b2n (decide (x.shaper.rate = 0)) + 2 * b2n x.held.isSome + 4 * b2n x.cut.isSome + 8 * b2n omci
  le 2 q ++ le 2 alloc ++ le 1 flags ++ zeros 3 ++ le 4 (x.tokens / 64) ++ le 4 (x.dbruLast.getD 0xFFFFFFFF) ++
    ([16, 20, 24, 28].flatMap fun o => le 4 (tget 0 x.cnt o)) ++ le 8 (tget 0 x.cnt 32) ++ le 4 (tget 0 x.cnt 40) ++
    zeros 4

/-- QUEUE_STATUS (R222, R250). -/
def queueStatusAct (r : Req) (s : State) : Served :=
  let q := u16 r.payload 0
  okWith (queueStatusBytes s q) (if u8 r.payload 2 = 1 then modQueue q (fun x => { x with cnt := [] }) s else s)

def execQueueStatus (s : State) : Host.Outcome State Fault Refusal := .next (serve queueStatusSpec queueStatusAct s)

end Sys2Proof.Machine
end

