-- ==== Sys2Proof/Machine/Access.lean ====
section
/-!
DEFINITION. Host accesses as the islands see them: which island a BAR address belongs to, accesses to a stopped island
(R477), and what every direct register reads as (R36, R39, R40, R44, R63, R64, R125, R501, R505).
-/
namespace Sys2Proof.Machine

/-! ### Regions and islands (R39, R477) -/

/-- A BAR0 region that belongs to an island which STILL stops: mailboxes, MSI-X, rings, time, log and injection
windows. -/
def stoppedRegion (off : Nat) : Bool :=
  decide (0x10000 ≤ off ∧ off < 0x20000) || decide (0x30000 ≤ off ∧ off < 0x30400) ||
    decide (0x30800 ≤ off ∧ off < 0x30808) || decide (0x100000 ≤ off ∧ off < 0x100800) ||
    decide (0x200000 ≤ off ∧ off < 0x201000) || decide (0x300000 ≤ off ∧ off < 0x310000) ||
    decide (0x400000 ≤ off ∧ off < 0x410000)

/-- An address of the time region, which belongs to the Time island (R39, R477). -/
def timeRegion (off : Nat) : Bool := decide (0x200000 ≤ off ∧ off < 0x201000)

/-- An address of a stopped island: in STILL, and on the way there once the Time island or, for BAR2, the Memory island has
stopped (R470, R477). -/
def offDomain (bar off : Nat) (s : State) : Bool :=
  (s.ctl.devState == .still && (bar == 2 || (bar == 0 && stoppedRegion off))) ||
    (bar == 0 && timeRegion off && !islandUp 7 s) || (bar == 2 && !islandUp 8 s)

/-- An access of `n` bytes to a stopped island: latched and counted; a read returns 0x0BAD_0FF0 in every word, and a write
is discarded (R477). -/
def offAccess (write : Bool) (bar off n : Nat) (s : State) : State :=
  let s1 : State := { s with pwr := { s.pwr with
    offAddr := some (s.pwr.offAddr.getD (b2n write, bar, off))
    offCount := s.pwr.offCount + 1 } }
  if write then s1 else answerWords (List.replicate ((n + 3) / 4) 0x0BAD0FF0) s1

/-- An access to a BAR address whose effect on a running island is `f`: nothing without power or in POR_N. -/
def barAccess (write : Bool) (bar off n : Nat) (f : State → State) (s : State) : State :=
  if !aonRuns s then s else if offDomain bar off s then offAccess write bar off n s else f s

/-! ### What the registers read as -/

/-- The identity and device control registers (R40). -/
def identReg (s : State) (off : Nat) : Nat :=
  match off with
  | 0x00 => 0x4810 + 0x10000 * (s.ident.variant % 256) + 0x1000000 * s.ident.stepping.toNat
  | 0x04 => stackTotal s + 256 * (16 * stackTotal s)
  | 0x08 => s.ident.serial.toNat % 2 ^ 32
  | 0x0C => s.ident.serial.toNat / 2 ^ 32
  | 0x10 => stateCode s.ctl.devState + 0x100 * b2n s.ctl.cpAlive + 0x200 * b2n s.ctl.faultHw
  | 0x14 => s.ctl.fwVersion.toNat
  | 0x1C => s.ctl.heartbeat.toNat
  | _ => 0

/-- The code of a slot's state (R44). -/
def slotCode (x : SlotState) : Nat :=
  match x with
  | .free => 0
  | .submitted => 1
  | .executing => 2
  | .done => 3

/-- MB_SLOT_STATE of a channel (R44). -/
def slotStates (c : Chan) : Nat := (c.slots.zipIdx.map fun x => slotCode x.1 * 4 ^ x.2).sum

/-- A word of a channel page (R44): its slots and its control block. -/
def mailboxReg (s : State) (ch off : Nat) : Nat :=
  let c := chan s ch
  if off < 0x400 then leNat (Memory.readBytes 0 s.mbx.req (ch * 0x1000 + off) 4)
  else if off < 0x800 then u32 (tget (zeros 256) s.mbx.resp (4 * ch + (off - 0x400) / 0x100)) (off % 0x100)
  else match off with
    | 0x800 => slotStates c
    | 0x808 => c.bindClient + 0x100 * b2n c.bound
    | 0x80C => b2n c.dbIgnored + 2 * b2n c.writeDiscarded + 4 * b2n c.checksum
    | _ => 0

/-- A word of a vector of the MSI-X table, or of the pending bits (R39, R64). -/
def msixReg (s : State) (off : Nat) : Nat :=
  if off < 0x400 then
    let v := tget {} s.rings.vectors (off / 16)
    match off % 16 with
    | 0 => v.addrLo.toNat
    | 4 => v.addrHi.toNat
    | 8 => v.data.toNat
    | _ => b2n v.masked
  else if off = 0x800 then s.rings.pba.toNat % 2 ^ 32
  else if off = 0x804 then s.rings.pba.toNat / 2 ^ 32
  else 0

/-- A register of a ring (R63). -/
def ringReg (s : State) (n off : Nat) : Nat :=
  let r := ring s n
  match off with
  | 0x00 => r.baseLo.toNat
  | 0x04 => r.baseHi.toNat
  | 0x08 => if n = 0 then 10 else r.log2
  | 0x0C => b2n r.en + 2 * b2n r.dir
  | 0x10 => r.head
  | 0x14 => r.tail
  | 0x18 => r.drop.toNat
  | 0x1C => r.lost.toNat
  | _ => 0

/-- TIME_STATUS (R125). -/
def timeStatus (s : State) : Nat :=
  b2n s.time.unsynced + 2 * b2n s.time.stepRefused + 4 * b2n s.time.incrRejected + 8 * (s.src.source % 4) +
    32 * (s.src.state % 4)

/-- A register of the time region (R125). -/
def timeReg (s : State) (off : Nat) : Nat :=
  match off with
  | 0x00 => s.time.ns.toNat % 2 ^ 32
  | 0x04 => s.time.latHi.toNat
  | 0x08 => s.time.latFrac.toNat
  | 0x0C => s.time.incr.toNat
  | 0x10 => timeStatus s
  | 0x14 => s.time.ppsTs.toNat % 2 ^ 32
  | 0x18 => s.time.ppsTsHi.toNat
  | 0x1C => s.time.ppsCount.toNat
  | 0x20 => s.clk.forced.toNat
  | _ => 0

/-- A word of LOG_VIEW: a free value while a fill runs and before the first one (R501, R502, log 7). -/
def viewWord (s : State) (i : Nat) : Nat :=
  if s.log.viewBusy || s.log.view.isEmpty then Config.freeNat (s.ctl.free + i) % 2 ^ 32
  else u32 (s.log.view.getD (i / 16) []) (4 * (i % 16))

/-- A register of the event-log window (R501). -/
def logReg (s : State) (off : Nat) : Nat :=
  let l := s.log
  if 0x8000 ≤ off then viewWord s ((off - 0x8000) / 4)
  else match off with
    | 0x00 => logFirst l
    | 0x04 => l.lastSeq.toNat
    | 0x08 => l.nextSlot
    | 0x0C => logStatus l
    | 0x10 => l.refused.toNat
    | 0x14 => hoursNow s
    | 0x18 => l.cycles
    | 0x1C => l.viewSlot
    | _ => 0

/-- INJECT_STATUS (R505). -/
def injStatus (j : Inject) : Nat := b2n j.refused + 2 * (j.cause % 8) + 256 * j.entries.length

/-- A register of the injection window (R505). -/
def injReg (s : State) (off : Nat) : Nat :=
  let j := s.inj
  if 0x100 ≤ off ∧ off < 0x200 then
    match tfind j.entries ((off - 0x100) / 16) with
    | none => 0
    | some e => match off % 16 with
      | 0 => e.det % 65536 + 0x10000 + 0x20000 * b2n e.rep
      | 4 => e.target.toNat
      | 8 => e.remaining.toNat
      | _ => e.fired.toNat
  else match off with
    | 0x04 => j.target.toNat
    | 0x08 => j.param.toNat
    | 0x0C => b2n j.rep
    | 0x10 => j.count.toNat
    | 0x14 => j.spacing.toNat
    | 0x18 => b2n j.enable
    | 0x1C => injStatus j
    | 0x20 => j.fired.toNat
    | _ => 0

/-- The value of the direct register at a BAR0 offset, as an aligned 32-bit read returns it outside STILL; a reserved
address reads 0 (R36, R39). -/
def regRead (s : State) (off : Nat) : Word :=
  BitVec.ofNat 32 (
    if off < 0x1000 then identReg s off
    else if 0x10000 ≤ off ∧ off < 0x20000 then mailboxReg s ((off - 0x10000) / 0x1000) (off % 0x1000)
    else if 0x30000 ≤ off ∧ off < 0x30808 then msixReg s (off - 0x30000)
    else if 0x100000 ≤ off ∧ off < 0x100800 then ringReg s ((off - 0x100000) / 0x40) (off % 0x40)
    else if 0x200000 ≤ off ∧ off < 0x201000 then timeReg s (off - 0x200000)
    else if 0x300000 ≤ off ∧ off < 0x310000 then logReg s (off - 0x300000)
    else if 0x400000 ≤ off ∧ off < 0x410000 then injReg s (off - 0x400000)
    else 0)

/-- What a BAR0 read of `n` bytes returns outside STILL (R36): a naturally aligned 32-bit word anywhere, a naturally
aligned 64-bit word of a mailbox slot, and 0 for every other width or alignment. -/
def busRead (s : State) (off n : Nat) : List Word :=
  if n = 4 ∧ off % 4 = 0 then [regRead s off]
  else if n = 8 ∧ off % 8 = 0 ∧ 0x10000 ≤ off ∧ off < 0x20000 ∧ off % 0x1000 < 0x800 then
    [regRead s off, regRead s (off + 4)]
  else List.replicate ((n + 3) / 4) 0

/-- A read of the register at a BAR0 offset, with what the read itself changes (R10). -/
def readAccess (off : Nat) (f : State → State) (s : State) : State :=
  barAccess false 0 off 4 (fun x => answerWords [regRead x off] (f x)) s

end Sys2Proof.Machine
end

