-- ==== Sys2Proof/Machine/AsterCore.lean ====
section
/-!
DEFINITION. The Aster core: registers, addressing, multiply-accumulate, block floating point, hardware loops and the
issue of one bundle (R357 to R370, R382). The core is a value of its own here; Machine/Jobs.lean puts it to work.
-/
namespace Sys2Proof

/-! ### Operands of a bundle -/

/-- The pointer of an address form. -/
def AddrForm.ptr : AddrForm → Nat
  | .plain p => p
  | .offset p _ => p
  | .post p _ => p
  | .circ p _ => p

/-- A circular form. -/
def AddrForm.isCirc : AddrForm → Bool
  | .circ _ _ => true
  | _ => false

/-- Number and size of the elements of an access, and its address form. -/
def LsOp.shape : LsOp → Option (Nat × Nat × AddrForm)
  | .none => Option.none
  | .load size _ _ f => some (1, size, f)
  | .store size _ f => some (1, size, f)
  | .vld _ f => some (8, 2, f)
  | .vst _ f => some (8, 2, f)

/-- A load. -/
def LsOp.loads : LsOp → Bool
  | .load _ _ _ _ => true
  | .vld _ _ => true
  | .none => false
  | .store _ _ _ => false
  | .vst _ _ => false

/-- A store. -/
def LsOp.stores : LsOp → Bool
  | .store _ _ _ => true
  | .vst _ _ => true
  | .none => false
  | .load _ _ _ _ => false
  | .vld _ _ => false

/-- The number of a kind of ALU operation, for the free functions of Config. -/
def AluKind.code : AluKind → Nat
  | .add => 0
  | .sub => 1
  | .and => 2
  | .or => 3
  | .xor => 4
  | .shl => 5
  | .shr => 6
  | .sar => 7
  | .cmpEq => 8
  | .cmpNe => 9
  | .cmpLt => 10
  | .cmpLtu => 11
  | .cmpGe => 12
  | .cmpGeu => 13

def GSrc.legal : GSrc → Bool
  | .reg n => decide (n < 32)
  | .imm _ => true

/-- An address increment: a register, or an immediate from -2,048 to 2,047 (R365). -/
def GSrc.incLegal : GSrc → Bool
  | .reg n => decide (n < 32)
  | .imm v => decide (-2048 ≤ v ∧ v ≤ 2047)

def AddrForm.legal : AddrForm → Bool
  | .plain p => decide (p < 8)
  | .offset p i => decide (p < 8) && i.incLegal
  | .post p i => decide (p < 8) && i.incLegal
  | .circ p i => decide (p < 4) && i.incLegal

def LsOp.legal : LsOp → Bool
  | .none => true
  | .load size _ g f => (size == 1 || size == 2 || size == 4) && decide (g < 32) && f.legal
  | .store size g f => (size == 1 || size == 2 || size == 4) && decide (g < 32) && f.legal
  | .vld q f => decide (q < 8) && f.legal
  | .vst q f => decide (q < 8) && f.legal

def MacOp.legal : MacOp → Bool
  | .none => true
  | .dot _ k qa qb _ _ _ => decide (k < 8) && decide (qa < 8) && decide (qb < 8)
  | .lane _ qa qb _ _ _ => decide (qa < 8) && decide (qb < 8)

def MovReg.legal : MovReg → Bool
  | .g n => decide (n < 32)
  | .p n => decide (n < 8)
  | .cb n => decide (n < 4)
  | .cl n => decide (n < 4)
  | .status => true

def AOp.legal : AOp → Bool
  | .none => true
  | .alu _ gd a b => decide (gd < 32) && a.legal && b.legal
  | .mov dst src => dst.legal && src.legal
  | .movImm gd _ => decide (gd < 32)
  | .accx gd k shift _ _ _ => decide (gd < 32) && decide (k < 8) && decide (shift ≤ 47)
  | .norm gd gs => decide (gd < 32) && decide (gs < 32)
  | .norma gd k => decide (gd < 32) && decide (k < 8)
  | .expb gd qs ga => decide (gd < 32) && decide (qs < 8) && decide (ga < 32)
  | .scale qd qs gk => decide (qd < 8) && decide (qs < 8) && decide (gk < 32)
  | .lbin gd gs k => decide (gd < 32) && decide (gs < 32) && decide (k ≤ 4)
  | .branch t => decide (t < 4096)
  | .branchReg g => decide (g < 32)
  | .branchIf _ g t => decide (g < 32) && decide (t < 4096)
  | .loop n count stop => decide (n < 2) && decide (stop < 4096) && (match count with
      | .reg r => decide (r < 32)
      | .imm v => decide (0 ≤ v ∧ v ≤ 65535))
  | .svc _ => true
  | .reserved => false

/-- A bundle without a reserved encoding (R364). -/
def Bundle.legal (b : Bundle) : Bool := b.ls0.legal && b.ls1.legal && b.m.legal && b.a.legal

/-- The A slot holds a branch, an SVC or a LOOP. -/
def AOp.isCtl : AOp → Bool
  | .branch _ => true
  | .branchReg _ => true
  | .branchIf _ _ _ => true
  | .loop _ _ _ => true
  | .svc _ => true
  | _ => false

end Sys2Proof

namespace Sys2Proof.Machine

/-! ### Registers -/

def Core.readG (c : Core) (n : Nat) : BitVec 32 := tget 0 c.g n
def Core.readP (c : Core) (n : Nat) : BitVec 32 := tget 0 c.p n

/-- Lane `j` of quad `q`, signed 16 bits (R359). -/
def Core.readLane (c : Core) (q j : Nat) : Int :=
  signed 16 ((c.readG (4 * q + j / 2)).toNat >>> (16 * (j % 2)))

/-- The eight lanes of a quad. -/
def Core.readQuad (c : Core) (q : Nat) : List Int := (List.range 8).map (c.readLane q)

/-- A source operand. -/
def Core.readSrc (c : Core) : GSrc → BitVec 32
  | .reg n => c.readG n
  | .imm v => BitVec.ofInt 32 v

/-- The value that MOV reads (R359). -/
def Core.readMov (c : Core) : MovReg → BitVec 32
  | .g n => c.readG n
  | .p n => c.readP n
  | .cb n => tget 0 c.cb n
  | .cl n => tget 0 c.cl n
  | .status => BitVec.ofNat 32 (b2n c.sat)

/-- One register write lands. -/
def Core.land (c : Core) (w : PendWrite) : Core :=
  match w.reg with
  | .g n => { c with g := tset c.g n (w.val.truncate 32) }
  | .p n => { c with p := tset c.p n (w.val.truncate 32) }
  | .cb n => { c with cb := tset c.cb n (w.val.truncate 32) }
  | .cl n => { c with cl := tset c.cl n (w.val.truncate 32) }
  | .acc n => { c with acc := tset c.acc n w.val }
  | .lc n => { c with lc := tset c.lc n (w.val.toNat % 65536) }
  | .status => { c with sat := w.val.getLsbD 0 }
  | .sat => { c with sat := true }

/-- The results that a bundle issued now can read have landed; of two that land together the later slot is kept (R361,
R362). -/
def Core.landDue (c : Core) : Core :=
  let due := fun w : PendWrite => decide (w.due ≤ c.issued)
  let c1 := [0, 1, 2, 3].foldl (fun (x : Core) k =>
    (c.pend.filter fun w => due w && w.slot == k).foldl Core.land x) c
  { c1 with pend := c.pend.filter fun w => !due w }

/-- A result with a latency, produced by a slot of the bundle that issues now (R361). -/
def Core.later (c : Core) (latency slot : Nat) (reg : RegName) (val : BitVec 48) : Core :=
  { c with pend := c.pend ++ [{ due := c.issued + latency, slot, reg, val }] }

/-- A 32-bit result. -/
def wide (v : BitVec 32) : BitVec 48 := v.zeroExtend 48

/-! ### Addresses (R357, R365, R366) -/

/-- The base of a core's Bed slice (R357). -/
def sliceBase (core : Nat) : Nat := 0x100000 + core % 8 * 0x40000

/-- An address of the core's Bed slice (R357). -/
def inSlice (core a : Nat) : Bool := decide (sliceBase core ≤ a ∧ a < sliceBase core + 0x40000)

/-- A data address of the core's local data or its Bed slice (R357). -/
def inData (core a : Nat) : Bool := decide (a < 0x40000) || inSlice core a

/-- The circle of a pointer: base and length. -/
def Core.circle (c : Core) (p : Nat) : Nat × Nat := ((tget 0 c.cb p).toNat, (tget 0 c.cl p).toNat)

/-- A legal pair whose circle holds the pointer (R359, R364). -/
def Core.circleOk (c : Core) (p : Nat) : Bool :=
  let k := c.circle p
  let a := (c.readP p).toNat
  k.1 % 16 == 0 && decide (16 ≤ k.2 ∧ k.2 ≤ 262144) && k.2 % 16 == 0 && decide (k.1 ≤ a ∧ a < k.1 + k.2)

/-- The address that an access uses (R365). -/
def Core.address (c : Core) : AddrForm → Nat
  | .plain p => (c.readP p).toNat
  | .offset p i => (c.readP p + c.readSrc i).toNat
  | .post p _ => (c.readP p).toNat
  | .circ p _ => (c.readP p).toNat

/-- The pointer after the access, none when it keeps its value (R365). -/
def Core.pointerAfter (c : Core) : AddrForm → Option (BitVec 32)
  | .plain _ => none
  | .offset _ _ => none
  | .post p i => some (c.readP p + c.readSrc i)
  | .circ p i =>
    let k := c.circle p
    let off : Int := ((c.readP p).toNat : Int) - k.1 + (c.readSrc i).toInt
    some (BitVec.ofInt 32 (k.1 + off % k.2))

/-- The byte addresses of an access of `n` elements of `size` bytes; in circular form each element wraps (R365). -/
def Core.elements (c : Core) (f : AddrForm) (n size : Nat) : List Nat :=
  let a := c.address f
  (List.range n).map fun j =>
    if f.isCirc then
      let k := c.circle f.ptr
      if k.2 = 0 then a else k.1 + (a - k.1 + size * j) % k.2
    else a + size * j

/-- The trap cause of an access, 0 for none (R364, R366). A vector access is eight elements of 2 bytes. -/
def Core.accessTrap (c : Core) (core : Nat) (f : AddrForm) (n size : Nat) : Nat :=
  let es := c.elements f n size
  let bed := inSlice core (c.address f)
  if f.isCirc ∧ !c.circleOk f.ptr then 3
  else if es.any (fun a => a % size != 0) || (n == 8 && bed && !f.isCirc && c.address f % 16 != 0) then 1
  else if es.any (fun a => !inData core a || !inData core (a + size - 1)) then 2
  else 0

/-- A byte of the data space. -/
def Core.readByte (c : Core) (core a : Nat) : Byte :=
  if a < 0x40000 then Memory.read 0 c.mem a else Memory.read 0 c.slice (a - sliceBase core)

/-- The core with a byte of its data space written. -/
def Core.writeByte (core : Nat) (c : Core) (a : Nat) (b : Byte) : Core :=
  if a < 0x40000 then { c with mem := Memory.write 0 c.mem a b }
  else { c with slice := Memory.write 0 c.slice (a - sliceBase core) b }

/-- Bytes at a list of elements, little-endian each. -/
def Core.readElements (c : Core) (core size : Nat) (es : List Nat) : List Nat :=
  es.map fun a => leNat ((List.range size).map fun k => c.readByte core (a + k))

/-- The core with elements stored. -/
def Core.storeElements (core size : Nat) (es : List Nat) (vs : List Nat) (c : Core) : Core :=
  (es.zip vs).foldl (fun (x : Core) e =>
    ((List.range size).zip (le size e.2)).foldl (fun (y : Core) k => y.writeByte core (e.1 + k.1) k.2) x) c

/-! ### Load and store -/

/-- The trap of a load or store. -/
def Core.lsTrap (c : Core) (core : Nat) (op : LsOp) : Nat :=
  match op.shape with
  | none => 0
  | some (n, size, f) => c.accessTrap core f n size

/-- The 64-byte lines that an access touches. -/
def Core.linesOf (c : Core) (op : LsOp) : List Nat :=
  match op.shape with
  | none => []
  | some (n, size, f) => (c.elements f n size).map fun a => a / 64

/-- The results of a load or store slot: register writes only; all sources are those of `c` (R360, R361). -/
def Core.lsResults (c : Core) (core slot : Nat) (op : LsOp) (out : Core) : Core :=
  let update := fun (f : AddrForm) (x : Core) =>
    match c.pointerAfter f with
    | none => x
    | some v => x.later 1 slot (.p f.ptr) (wide v)
  match op with
  | .none => out
  | .load size sgn g f =>
    let v := (c.readElements core size (c.elements f 1 size)).getD 0 0
    let r := if sgn then BitVec.ofInt 32 (signed (8 * size) v) else BitVec.ofNat 32 v
    (update f out).later 3 slot (.g g) (wide r)
  | .vld q f =>
    let vs := c.readElements core 2 (c.elements f 8 2)
    (List.range 4).foldl (fun (x : Core) k =>
      x.later 3 slot (.g (4 * q + k)) (wide (BitVec.ofNat 32 (vs.getD (2 * k) 0 + 65536 * vs.getD (2 * k + 1) 0))))
      (update f out)
  | .store _ _ f => update f out
  | .vst _ f => update f out

/-- The stores of a slot, with the sources of `c` (R362). -/
def Core.lsStores (c : Core) (core : Nat) (op : LsOp) (out : Core) : Core :=
  match op with
  | .store size g f => out.storeElements core size (c.elements f 1 size) [(c.readG g).toNat]
  | .vst q f => out.storeElements core 2 (c.elements f 8 2) ((c.readQuad q).map fun v => unsigned 16 v)
  | .none => out
  | .load _ _ _ _ => out
  | .vld _ _ => out

/-! ### Multiply-accumulate (R367) -/

/-- A result fitted to 48 bits, and whether it was clamped (R367). -/
def fit48 (v : Int) (s : Bool) : Int × Bool :=
  if s ∧ 2 ^ 47 - 1 < v then (2 ^ 47 - 1, true)
  else if s ∧ v < -(2 ^ 47) then (-(2 ^ 47), true)
  else ((BitVec.ofInt 48 v).toInt, false)

/-- Rounding to a multiple of 2^16, ties to even (R367). -/
def roundUpper (v : Int) : Int :=
  let low := v % 65536
  let base := v - low
  if 32768 < low ∨ (low = 32768 ∧ base / 65536 % 2 = 1) then base + 65536 else base

/-- One accumulator's new value from the sum of products, and whether SAT is set (R367). -/
def macValue (kind : MacKind) (acc sum : Int) (s r : Bool) : Int × Bool :=
  let v := match kind with
    | .mul => sum
    | .mac => acc + sum
    | .msu => acc - sum
  let a := fit48 v s
  if r then
    let b := fit48 (roundUpper a.1) s
    (b.1, a.2 || b.2)
  else a

/-- The products of two quads; doubled in fractional form (R367). -/
def Core.products (c : Core) (qa qb : Nat) (f : Bool) : List Int :=
  List.zipWith (fun a b => if f then a * b * 2 else a * b) (c.readQuad qa) (c.readQuad qb)

/-- An instruction of a slot sets SAT after its latency where it clamped (R359, R361). -/
def Core.setSat (c : Core) (latency slot : Nat) (clamped : Bool) : Core :=
  if clamped then c.later latency slot .sat 1 else c

/-- Writes an accumulator and SAT: a later MAC reads the accumulator at once, every other reader both after four bundles
(R361). -/
def Core.macWrite (c : Core) (k : Nat) (v : Int × Bool) : Core :=
  let w := BitVec.ofInt 48 v.1
  ({ c with mac := tset c.mac k w }.later 4 2 (.acc k) w).setSat 4 2 v.2

/-- The M slot with the sources of `c`. -/
def Core.macResults (c : Core) (op : MacOp) (out : Core) : Core :=
  let old := fun k : Nat => (tget 0 c.mac k).toInt
  match op with
  | .none => out
  | .dot kind k qa qb s f r => out.macWrite k (macValue kind (old k) (c.products qa qb f).sum s r)
  | .lane kind qa qb s f r =>
    ((List.range 8).zip (c.products qa qb f)).foldl (fun (x : Core) e => x.macWrite e.1 (macValue kind (old e.1) e.2 s r))
      out

/-! ### ALU and special instructions (R363, R368, R369, R382) -/

/-- A shift: by 32 or more its result is a free value (log 31). -/
def shiftValue (kind : AluKind) (a b v : BitVec 32) : BitVec 32 :=
  if b.toNat < 32 then v else Config.asterShift kind.code a b

/-- The integer operations, 32 bits wrapping (R363); the value of a compare is a free function of its operands
(log 31). -/
def aluValue (kind : AluKind) (a b : BitVec 32) : BitVec 32 :=
  match kind with
  | .add => a + b
  | .sub => a - b
  | .and => a &&& b
  | .or => a ||| b
  | .xor => a ^^^ b
  | .shl => shiftValue kind a b (a <<< b.toNat)
  | .shr => shiftValue kind a b (a >>> b.toNat)
  | .sar => shiftValue kind a b (a.sshiftRight b.toNat)
  | .cmpEq | .cmpNe | .cmpLt | .cmpLtu | .cmpGe | .cmpGeu => Config.asterCompare kind.code a b

/-- A shifted and rounded accumulator (R368). -/
def accRound (v : Int) (shift : Nat) (mode : RoundMode) : Int :=
  if shift = 0 then v
  else
    let q := v / 2 ^ shift
    let low := v % 2 ^ shift
    match mode with
    | .t => q
    | .hu => (v + 2 ^ (shift - 1)) / 2 ^ shift
    | .he => if 2 ^ (shift - 1) < low ∨ (low = 2 ^ (shift - 1) ∧ q % 2 = 1) then q + 1 else q

/-- A value clamped to `w` signed bits, and whether it was clamped. -/
def clamp (w : Nat) (v : Int) : Int × Bool :=
  if 2 ^ (w - 1) - 1 < v then (2 ^ (w - 1) - 1, true) else if v < -(2 ^ (w - 1)) then (-(2 ^ (w - 1)), true) else (v, false)

/-- ACCX (R368). -/
def accxValue (v : Int) (shift : Nat) (mode : RoundMode) (w : Nat) (sat : Bool) : Int × Bool :=
  let x := accRound v shift mode
  if sat then clamp w x else ((BitVec.ofInt w x).toInt, false)

/-- Redundant sign bits below bit `w - 1` (R369); `fuel` counts the bits still to look at. -/
def nrsbFrom (v : Nat) (sign : Bool) : Nat → Nat
  | 0 => 0
  | k + 1 => if bit v k == sign then nrsbFrom v sign k + 1 else 0

/-- nrsb_w (R369). -/
def nrsb (w v : Nat) : Nat := nrsbFrom v (bit v (w - 1)) (w - 1)

/-- One lane of SCALE by 2^k (R369). -/
def scaleLane (k : Int) (lane : Int) : Int × Bool :=
  if 0 ≤ k then clamp 16 (lane * 2 ^ k.toNat)
  else ((lane + 2 ^ ((-k).toNat - 1)) / 2 ^ (-k).toNat, false)

/-- LBIN (R382). -/
def lbinValue (v k : Nat) : Nat :=
  if v = 0 then 0
  else
    let e := Nat.log2 v
    1 + e * 2 ^ k + (v * 2 ^ k / 2 ^ e - 2 ^ k)

/-- A branch condition (R363). -/
def condHolds (cond : BranchCond) (v : BitVec 32) : Bool :=
  match cond with
  | .zero => v == 0
  | .nonZero => v != 0
  | .negative => v.msb
  | .nonNegative => !v.msb

/-- MOV's write (R361). -/
def Core.movWrite (c : Core) (v : BitVec 32) : MovReg → Core
  | .g n => c.later 1 3 (.g n) (wide v)
  | .p n => c.later 1 3 (.p n) (wide v)
  | .cb n => c.later 1 3 (.cb n) (wide v)
  | .cl n => c.later 1 3 (.cl n) (wide v)
  | .status => c.later 1 3 .status (wide v)

/-- The A slot with the sources of `c`. -/
def Core.aResults (c : Core) (op : AOp) (out : Core) : Core :=
  let g := fun (gd : Nat) (v : BitVec 32) => out.later 1 3 (.g gd) (wide v)
  match op with
  | .none | .reserved => out
  | .alu kind gd a b => g gd (aluValue kind (c.readSrc a) (c.readSrc b))
  | .mov dst src => out.movWrite (c.readMov src) dst
  | .movImm gd v => g gd (BitVec.ofInt 32 v)
  | .accx gd k shift round wd sat =>
    let v := accxValue (tget 0 c.acc k).toInt shift round (if wd then 32 else 16) sat
    (g gd (BitVec.ofInt 32 v.1)).setSat 1 3 v.2
  | .norm gd gs => g gd (BitVec.ofNat 32 (nrsb 32 (c.readG gs).toNat))
  | .norma gd k => g gd (BitVec.ofNat 32 (nrsb 48 (tget 0 c.acc k).toNat))
  | .expb gd qs ga =>
    g gd (BitVec.ofNat 32 ((c.readQuad qs).foldl (fun m v => min m (nrsb 16 (unsigned 16 v))) (c.readG ga).toNat))
  | .scale qd qs gk =>
    let k := signed 5 (c.readG gk).toNat
    let ls := (c.readQuad qs).map (scaleLane k)
    let at_ := fun j : Nat => unsigned 16 (ls.getD j (0, false)).1
    let x := (List.range 4).foldl (fun (y : Core) j =>
      y.later 1 3 (.g (4 * qd + j)) (wide (BitVec.ofNat 32 (at_ (2 * j) + 65536 * at_ (2 * j + 1))))) out
    x.setSat 1 3 (ls.any fun l => l.2)
  | .lbin gd gs k => g gd (BitVec.ofNat 32 (lbinValue (c.readG gs).toNat k))
  | .branch t => { out with ctl := some (.branch t, 3) }
  | .branchReg r => { out with ctl := some (.branch (c.readG r).toNat, 3) }
  | .branchIf cond r t => { out with ctl := some (if condHolds cond (c.readG r) then .branch t else .untaken, 3) }
  | .loop n count stop => { out with ctl := some (.loop n ((c.readSrc count).toNat % 65536) stop, 3) }
  | .svc n => { out with ctl := some (.svc n c.pc, 3) }

/-! ### Issue -/

/-- The current bundle ends a loop (R370): an active one, or the one whose LOOP it is a delay slot of. -/
def Core.endsLoop (c : Core) : Bool :=
  (c.loops.any fun l => l.2.2 == c.pc) || (match c.ctl with
    | some (.loop _ _ stop, _) => stop == c.pc
    | _ => false)

/-- The trap cause of issuing a bundle, 0 for none (R364). -/
def Core.bundleTrap (c : Core) (core : Nat) (b : Bundle) : Nat :=
  if c.badFetch then 6
  else if 3072 ≤ c.pc then 2
  else if !b.legal then 4
  else if c.ctl.isSome ∧ (b.a.isCtl ∨ c.endsLoop) then 5
  else if c.lsTrap core b.ls0 ≠ 0 then c.lsTrap core b.ls0
  else c.lsTrap core b.ls1

/-- The line failing its CRC that a load of the bundle meets (R380, R399). -/
def Core.badMet (c : Core) (b : Bundle) : Option (Nat × Bool) :=
  let read := (if b.ls0.loads then c.linesOf b.ls0 else []) ++ (if b.ls1.loads then c.linesOf b.ls1 else [])
  c.badLines.find? fun l => read.contains l.1

/-- A branch to `t` abandons every loop whose body does not hold it (R370). -/
def Core.abandon (c : Core) (t : Nat) : Core :=
  { c with loops := c.loops.filter fun l => decide (l.2.1 ≤ t ∧ t ≤ l.2.2) }

/-- After the end bundle of a loop the body runs again while the decremented counter is not 0 (R370). -/
def Core.loopEnd (c : Core) (n : Nat) : Option Core × Core :=
  match tfind c.loops n with
  | none => (none, c)
  | some l =>
    if l.2 ≠ c.pc then (none, c)
    else
      let v := tget 0 c.lc n - 1
      let c1 := { c with lc := tset c.lc n v }
      if v ≠ 0 then (some { c1 with pc := l.1 }, c1) else (none, { c1 with loops := tdel c1.loops n })

/-- The bundle that follows this one: the first of a body after its end bundle, lc1 tested first (R370). -/
def Core.advance (c : Core) : Core :=
  let inner := c.loopEnd 1
  match inner.1 with
  | some x => x
  | none =>
    let outer := inner.2.loopEnd 0
    match outer.1 with
    | some x => x
    | none => { outer.2 with pc := c.pc + 1 }

/-- What takes effect after the second delay slot, with the core at the bundle that would follow it (R361, R370,
R372). -/
def Core.takeEffect (c : Core) : CtlOp → Core
  | .branch t => { c.abandon t with pc := t }
  | .untaken => c
  | .svc n pc => { c with svcWait := some n, svcPc := pc }
  | .loop n count stop =>
    let c1 := { c with lc := tset c.lc n count }
    if count = 0 then { c1 with pc := stop + 1 } else { c1 with loops := tset c1.loops n (c.pc, stop) }

/-- One bundle issues without a trap: results, stores, then the next bundle index (R360 to R362, R370). A control
instruction in the end bundle of a loop has its delay slots in the bundles that then follow. -/
def Core.issue (c : Core) (core : Nat) (b : Bundle) : Core :=
  let regs := c.aResults b.a (c.macResults b.m (c.lsResults core 1 b.ls1 (c.lsResults core 0 b.ls0 c)))
  let mem := c.lsStores core b.ls1 (c.lsStores core b.ls0 regs)
  let done := { mem with issued := c.issued + 1 }.advance
  match done.ctl with
  | none => done
  | some (op, left) =>
    if left = 1 then { done with ctl := none }.takeEffect op else { done with ctl := some (op, left - 1) }

end Sys2Proof.Machine
end

