-- ==== Sys2Proof/Machine/Sluice.lean ====
section
/-!
DEFINITION. Sluice and the attempts it starts: cores and jobs (R376 to R381), the export-compression jobs (R347), the
balance and the decision (R482, R483).
-/
namespace Sys2Proof.Machine

/-! ### Cores and jobs -/

def core (s : State) (c : Nat) : Core := tget {} s.ast.cores c

def setCore (c : Nat) (x : Core) (s : State) : State :=
  { s with ast := { s.ast with cores := tset s.ast.cores c x } }

def modCore (c : Nat) (f : Core → Core) (s : State) : State := setCore c (f (core s c)) s

def job (s : State) (n : Nat) : Job := tget {} s.ast.jobs n

def modJob (n : Nat) (f : Job → Job) (s : State) : State :=
  { s with ast := { s.ast with jobs := tmod {} s.ast.jobs n f } }

/-- A kernel slot. -/
def kernel (s : State) (k : Nat) : Kernel := tget {} s.ast.kernels k

/-- The Parterre of a core (R23). -/
def parterreOf (c : Nat) : Nat := c / 32

/-- The Bed of a core (R23). -/
def bedOf (c : Nat) : Nat := c / 8

/-- A job may run in a Parterre: a re-run stays in the Parterre of its first attempt (R375, R381). -/
def allows (j : Job) (p : Nat) : Bool :=
  if j.retries = 1 then parterreOf j.core == p else j.parterre == 0xFF || j.parterre == p

/-- A usable core of a Parterre other than `c`. -/
def otherCore (s : State) (c : Nat) : Bool :=
  (List.range 64).any fun k => k != c && parterreOf k == parterreOf c && !(core s k).fenced

/-- The lowest core that a job can start on, for a re-run another one than before (R376, R381). -/
def coreFor (s : State) (j : Job) : Option Nat :=
  (List.range 64).find? fun k => allows j (parterreOf k) && islandUp (1 + parterreOf k) s && !(core s k).fenced &&
    (core s k).job.isNone && j.avoid != some k

/-! ### Exports as Sluice sees them -/

def export_ (s : State) (e : Nat) : Export := tget {} s.cap.exports e

def modExport (e : Nat) (f : Export → Export) (s : State) : State :=
  { s with cap := { s.cap with exports := tmod {} s.cap.exports e f } }

/-- How far a record number lies ahead of another, modulo 2^32. -/
def seqAhead (a b : BitVec 32) : Nat := (a - b).toNat

/-- The record `q` stands in a retained segment. -/
def segHas (q : BitVec 32) (g : Seg) : Bool := decide (seqAhead q (BitVec.ofNat 32 g.firstSeq) < g.records)

/-- The retained segment that holds the record an export sends next, or the oldest retained one behind it (R346). -/
def exportSeg (s : State) (x : Export) : Option Seg :=
  let b := basin s x.basin
  match b.segs.find? (segHas x.nextSeq) with
  | some g => some g
  | none => b.segs.find? fun g =>
      g.records != 0 && decide (seqAhead (BitVec.ofNat 32 g.firstSeq) x.nextSeq < 2 ^ 31)

/-- An export has a record to send: one of the capture that it reads has been committed, and under follow 0 the last has not been sent (R346). -/
def exportHas (s : State) (x : Export) : Bool :=
  let d := seqAhead (basin s x.basin).nextSeq x.nextSeq
  x.stale.isNone && d != 0 && decide (d < 2 ^ 31) && (x.follow || x.nextSeq != x.endSeq) && (exportSeg s x).isSome

/-- The Weir on which an export-compression job runs. -/
def weirOf (s : State) (e : Nat) : Option Nat :=
  (List.range 8).find? fun w => (tget ({} : Weir) s.cap.weirs w).job == some e

/-- A Weir that nothing uses (R26, R335). -/
def idleWeir (s : State) : Option Nat :=
  (List.range 8).find? fun w =>
    let x := tget ({} : Weir) s.cap.weirs w
    !x.fenced && x.basin.isNone && x.job.isNone

/-! ### The balance (R482, R483) -/

/-- The cap in µJ: one second of budget. -/
def sluiceCap (s : State) : Int := s.pwr.budget * 1000

/-- The allowance of a window in µJ. -/
def allowance (s : State) : Int := s.pwr.budget * 10

/-- The voltage scaling of a point, in thousandths. -/
def pointScale (p : Nat) : Nat := [546, 669, 826, 1000].getD p 1000

/-- The charge of an estimate in mJ at the point now running, in µJ. -/
def chargeOf (s : State) (energy : Nat) : Int := min ((energy * pointScale s.clk.point : Nat) : Int) (sluiceCap s)

/-- The balance plus `v`, never above the cap. -/
def credit (v : Int) (s : State) : State :=
  { s with pwr := { s.pwr with balance := min (s.pwr.balance + v) (sluiceCap s) } }

/-- The settlement of an attempt or a segment: the measured energy is a free value (log 7). -/
def settle (charge : Nat) (s : State) : State :=
  let f := drawFree s
  credit ((charge : Int) - (Config.freeNat f.1 : Int)) f.2

/-! ### The end of an attempt -/

/-- A job is done: its input is unpinned and EV_JOB_DONE raised (R376, R381). -/
def jobDone (n result : Nat) (s : State) : State :=
  let s1 := modJob n (fun j => { j with state := 3, result, pins := [], endNs := s.time.ns, held := false }) s
  let j := job s1 n
  raise 0x0A01 n (le 1 result ++ le 1 j.retries ++ le 1 j.core ++ zeros 1 ++ le 4 j.code.toNat ++ le 8 j.outBytes)
    j.cause s1

/-- The core of a running attempt is free again, and the attempt is settled (R379, R483). -/
def leaveCore (c n : Nat) (s : State) : State :=
  let s1 := modJob n (fun j => { j with bundles := (core s c).issued }) s
  settle (job s n).charge (modCore c (fun x => { x with
    job := none
    svcWait := none
    ctl := none
    pend := [] }) s1)

/-- A running job ends with a result. -/
def endAttempt (c n result : Nat) (s : State) : State := jobDone n result (leaveCore c n s)

/-- EV_CORE_FENCED (R381). -/
def coreFenced (inj : Bool) (c cause n : Nat) (again : Bool) (s : State) : State :=
  raiseWith inj 0x0A02 c (le 1 cause ++ le 4 n ++ le 1 (b2n again)) none s

/-- An attempt fails (R380, R381, R402): its output is discarded, and the job runs once more on another usable core of
the same Parterre or ends with result 5. `fence` is the cause of a core failure; none when a DMA channel halted. -/
def failAttempt (inj : Bool) (fence : Option Nat) (c n : Nat) (s : State) : State :=
  let again := (job s n).retries == 0 && otherCore s c
  let s1 := modJob n (fun j => { j with outBytes := 0 }) (leaveCore c n s)
  let s2 := match fence with
    | none => s1
    | some cause => coreFenced inj c cause n again (modCore c (fun x => { x with fenced := true }) s1)
  if again then modJob n (fun j => { j with
      state := 1
      retries := 1
      front := true
      avoid := some c
      held := false
      waitWin := 0 }) s2
  else jobDone n 5 s2

/-! ### The start of an attempt -/

/-- The job block at entry (R371). -/
def jobBlock (n c : Nat) (j : Job) : Bytes :=
  le 4 n ++ le 1 c ++ le 1 j.retries ++ le 1 j.basin ++ zeros 1 ++ le 4 j.fromOrd ++ le 4 j.toOrd ++
    le 4 (j.outSegs * segBytes) ++ zeros 12 ++ fit 32 j.params

/-- A register file of free values: `count` registers of `w` bits from byte `o` of a free string. -/
def freeRegs (w count o : Nat) (bs : Bytes) : Tab (BitVec w) :=
  (List.range count).map fun i => (i, BitVec.ofNat w (leNat (slice bs (o + 8 * i) 8)))

/-- The lines of the data space that a write from address `a` covers whole no longer fail their CRC (R399). -/
def rewriteLines (a n : Nat) (x : Core) : Core :=
  { x with badLines := x.badLines.filter fun l => !decide (a ≤ l.1 * 64 ∧ l.1 * 64 + 64 ≤ a + n) }

/-- A core at the entry of an attempt (R371): p0, p7, lc0, lc1 and SAT have their values, every other register is a
free value; local data and the scratch area are clear. -/
def enterCore (n c : Nat) (j : Job) (free : Nat) (x : Core) : Core :=
  let bs := Config.freeBytes free 512
  let p := freeRegs 32 8 256 bs
  let acc := freeRegs 48 8 384 bs
  { x with
    job := some n
    pc := 0
    issued := 0
    g := freeRegs 32 32 0 bs
    p := tset (tset p 0 0) 7 0x40000
    cb := freeRegs 32 4 320 bs
    cl := freeRegs 32 4 352 bs
    acc
    mac := acc
    lc := []
    sat := false
    pend := []
    ctl := none
    svcWait := none
    loops := []
    badLines := (rewriteLines 0 64 (rewriteLines 0x1000 0x3F000 (rewriteLines (sliceBase c + 0x30000) 0x10000 x))).badLines
    badFetch := false
    mem := Memory.writeBytes 0 (Memory.clear x.mem 0x1000 0x3F000) 0 (jobBlock n c j)
    slice := Memory.clear x.slice 0x30000 0x10000 }

/-- A line that a flip mask corrupted in the core's data space will fail its CRC (R399, R403). -/
def spoilLine (inst a : Nat) (c : Nat) (s : State) : State :=
  let k := sramWrite inst s
  if k.1.1 = 0 then k.2 else modCore c (fun x => { x with badLines := (a / 64, k.1.2) :: x.badLines }) k.2

/-- The kernel's instructions are written into the core from the kernel slot (R357, R374): a corrupted line is refetched
before the attempt begins (R399). -/
def loadInstructions (n c : Nat) (s0 : State) : State :=
  let s := modCore c (fun x => { x with code := (kernel s0 (job s0 n).kernel).data }) s0
  let k := sramWrite (0x6000 + c) s
  if k.1.1 = 0 then k.2 else
    let f := drawFree k.2
    sramError k.1.2 (0x6000 + c) 1 (Config.freeNat f.1) 0 f.2

/-- An attempt starts (R371, R376, R483). The runtime's self-check fails by an injection or by itself, which is a free
value (R380, R509 0x18, log 7). -/
def startAttempt (n c : Nat) (s : State) : State :=
  let charge := chargeOf s (job s n).energy
  let s1 := credit (-charge) (modJob n (fun j => { j with
    state := 2
    core := c
    startNs := s.time.ns
    bundles := 0
    charge := charge.toNat
    waitWin := 0
    front := false
    outBytes := 0
    skipped := 0
    trapPc := 0
    trapCause := 0
    readOrd := j.fromOrd
    readOff := 64
    buf := 1 }) s)
  let o := occurrence 0x18 c s1
  let f := drawFree o.2
  let s2 := modCore c (enterCore n c (job f.2 n) f.1) (loadInstructions n c f.2)
  if o.1.isSome || !Config.coreSelfCheck f.1 then failAttempt o.1.isSome (some 1) c n s2 else spoilLine (0x7000 + bedOf c) (sliceBase c + 0x30000) c (spoilLine (0x5000 + c) 0 c s2)

/-- A segment of an export-compression job starts on a Weir (R347, R483). -/
def startSegment (e w : Nat) (s : State) : State :=
  let charge := chargeOf s (export_ s e).energy
  let ord := ((exportSeg s (export_ s e)).map Seg.ord).getD 0
  let s1 := credit (-charge) (modExport e (fun x => { x with
    charged := true
    chargedSeg := ord
    charge := charge.toNat
    waitWin := 0 }) s)
  { s1 with cap := { s1.cap with weirs := tmod ({} : Weir) s1.cap.weirs w fun x => { x with job := some e } } }

/-- A segment of an export-compression job ends: it is settled, and its Weir is free (R483). -/
def endSegment (e : Nat) (s : State) : State :=
  if (export_ s e).charged then
    let s1 := settle (export_ s e).charge (modExport e (fun x => { x with charged := false }) s)
    let ws := tmap s1.cap.weirs fun _ w => if w.job == some e then { w with job := none, suspended := false } else w
    { s1 with cap := { s1.cap with weirs := ws } }
  else s

/-! ### The decision (R483) -/

/-- A sensor is at or above the ceiling, or THERM_HOT is in force. -/
def sluiceHot (s : State) : Bool :=
  s.pwr.hot || s.pwr.temps.any fun t => decide ((s.pwr.ceilingC : Int) * 16 ≤ t)

/-- What waits for Sluice: an analysis job or the next segment of an export-compression job. -/
inductive Work where
  | job (n : Nat)
  | segment (e : Nat)
deriving DecidableEq, Repr

/-- Jobs waiting, in the order of the decision: a re-run first, then by priority, then by submission (R376, R483);
export-compression jobs follow in order of their number (log 33). -/
def waitingWork (s : State) : List Work :=
  let jobs := s.ast.jobs.filter fun j => j.2.state == 1
  let front := jobs.filter fun j => j.2.front
  let level := fun p => jobs.filter fun j => !j.2.front && j.2.prio == p
  let segs := s.cap.exports.filter fun x => x.2.compress && !x.2.charged && exportHas s x.2
  ((front ++ [7, 6, 5, 4, 3, 2, 1, 0].flatMap level).map fun j => Work.job j.1) ++ segs.map fun x => Work.segment x.1

/-- The energy estimate of a piece of work. -/
def workEnergy (s : State) : Work → Nat
  | .job n => (job s n).energy
  | .segment e => (export_ s e).energy

/-- Windows that a piece of work has waited for budget. -/
def workWaited (s : State) : Work → Nat
  | .job n => (job s n).waitWin
  | .segment e => (export_ s e).waitWin

/-- The rank of a piece of work: a higher one is served first. -/
def workRank (s : State) : Work → Nat
  | .job n => if (job s n).front then 9 else (job s n).prio + 1
  | .segment _ => 0

/-- Its charge exceeds the balance. -/
def wantsBudget (s : State) (w : Work) : Bool := decide (s.pwr.balance < chargeOf s (workEnergy s w))

/-- Work of a higher rank has waited 100 windows for budget. -/
def heldBack (s : State) (w : Work) : Bool :=
  (waitingWork s).any fun v => decide (workRank s w < workRank s v ∧ 100 ≤ workWaited s v)

/-- Hush is being entered: nothing starts any more (R29, R467). -/
def hushing (s : State) : Bool :=
  match s.pwr.entry with
  | none => false
  | some e => e.target == 1

/-- The start of a piece of work where it may start now: a job in RUN or READY with a usable core free, a segment with
a Weir free and the device not in HUSH (R29, R376). -/
def startWork (s : State) (w : Work) : Option State :=
  if wantsBudget s w || heldBack s w || hushing s then none
  else match w with
    | .job n =>
      if s.ctl.devState == .run || s.ctl.devState == .ready then
        (coreFor s (job s n)).map fun c => startAttempt n c s
      else none
    | .segment e =>
      if s.ctl.devState == .hush || s.ctl.devState == .still then none
      else (idleWeir s).map fun k => startSegment e k s

/-- Starts, one after the other, everything that can start. -/
def startAll : Nat → State → State
  | 0, s => s
  | fuel + 1, s =>
    match (waitingWork s).findSome? (startWork s) with
    | none => s
    | some t => startAll fuel t

/-- A step of the point that Sluice asks for: one point in either direction. It waits behind a step of CORE_POINT and then
counts from the point that step leaves (R110); while a step of its own or of the hardware is in progress Sluice asks for
none (log 77). -/
def sluiceStep (target reason : Nat) (s : State) : State :=
  let st : DvfsStep := { target, origin := .sluice, reason, up := decide (s.clk.point < target) }
  match s.clk.step with
  | none => startStep st s
  | some x => if x.origin = .command ∧ s.clk.waiting.isNone then startStep st s else s

/-- decide() of R483. -/
def decideWork (boundary : Bool) (s : State) : State :=
  if sluiceHot s then s
  else
    let s1 := startAll (2 * (waitingWork s).length) s
    let waits := (waitingWork s1).any (wantsBudget s1)
    let s2 := { s1 with pwr := { s1.pwr with stalled := waits, waited := s1.pwr.waited || waits } }
    if waits && boundary && s2.clk.point != 0 && s2.ctl.devState != .hush && s2.clk.step.isNone then sluiceStep (s2.clk.point - 1) 1 s2
    else s2

/-- A job or a segment has ended: Sluice decides again (R483). -/
def afterEnd (s : State) : State := if cpRuns s then decideWork false s else s

end Sys2Proof.Machine
end

