-- ==== Sys2Proof/Machine/Jobs.lean ====
section
/-!
DEFINITION. Kernels, jobs and what a core does: the job commands (R374 to R379), the issue of a bundle with its traps
(R360 to R370), the runtime services (R372, R373) and the failures of a core (R380, R381).
-/
namespace Sys2Proof.Machine

/-! ### KERNEL_LOAD (R374, R378) -/

def kernelForm (p : Bytes) : Bool :=
  decide (8 ≤ p.length) && decide (u8 p 0 ≤ 15) && len (8 + u16 p 2) p &&
    (match u8 p 1 with
      | 0 => u16 p 2 == 0 && decide (16 ≤ u32 p 4 ∧ u32 p 4 ≤ 49152) && u32 p 4 % 16 == 0
      | 1 => decide (1 ≤ u16 p 2 ∧ u16 p 2 ≤ 224)
      | 2 => u16 p 2 == 0
      | _ => false)

def kernelSpec : CmdSpec := { op := 0x0A01, smb := false, priv := false, legal := legalStd, form := kernelForm }

/-- A queued or running job uses a kernel slot (R374). -/
def kernelBusy (s : State) (k : Nat) : Bool := s.ast.jobs.any fun j => j.2.kernel == k && j.2.state != 3

def setKernel (k : Nat) (x : Kernel) (s : State) : State :=
  { s with ast := { s.ast with kernels := tset s.ast.kernels k x } }

/-- KERNEL_LOAD (R374, R400): a line of the slot that fails its CRC empties it when the image is checked. A slot belongs to the client of its action 0 while it has a length. Data go to the next
unwritten byte; an image is complete when every byte has been written. -/
def kernelAct (r : Req) (s : State) : Served :=
  let p := r.payload
  let k := u8 p 0
  let x := kernel s k
  if x.len ≠ 0 ∧ !mayChange r x.client then fail stDenied s
  else if kernelBusy s k then fail stBusy s
  else match u8 p 1 with
    | 0 => ok (setKernel k { client := r.client, len := u32 p 4 } s)
    | 1 =>
      if x.usable ∨ u32 p 4 ≠ x.data.length ∨ x.len < x.data.length + u16 p 2 then fail stBadParam s
      else
        let l := writeLine 0 s
        let bad := if x.bad.isSome then x.bad else l.1
        ok (setKernel k { x with data := x.data ++ slice p 8 (u16 p 2), bad } l.2)
    | _ => match x.bad with
      | some inj => fail stBadParam (setKernel k {} (sramError inj 0 3 (0x10 + k) 0 s))
      | none =>
      if x.len ≠ 0 ∧ x.data.length = x.len ∧ crc32c x.data = u32 p 4 then ok (setKernel k { x with usable := true } s)
      else fail stBadParam (setKernel k {} s)

def execKernelLoad (s : State) : Host.Outcome State Fault Refusal := .next (serve kernelSpec kernelAct s)

/-! ### JOB_SUBMIT (R375) -/

def submitForm (p : Bytes) : Bool :=
  len 64 p && decide (u8 p 0 ≤ 15) && decide (u8 p 1 ≤ 7) && (decide (u8 p 2 ≤ 1) || u8 p 2 == 0xFF) &&
    zeroAt p 3 1 && decide (1 ≤ u32 p 4 ∧ u32 p 4 ≤ 100000) && decide (1 ≤ u32 p 8 ∧ u32 p 8 ≤ 600000) &&
    decide (u8 p 12 ≤ 3) && zeroAt p 13 1 && decide (u16 p 14 ≤ 256) &&
    decide (u32 p 16 ≤ u32 p 20 ∧ u32 p 20 ≤ u32 p 16 + 16383) && zeroAt p 24 8

def submitSpec : CmdSpec := { op := 0x0A02, smb := false, priv := false, legal := legalStd, form := submitForm }

/-- A Parterre that the parterre field allows has a usable core (R378). -/
def parterreUsable (s : State) (f : Nat) : Bool :=
  (List.range 64).any fun c => (f == 0xFF || parterreOf c == f) && !(core s c).fenced

/-- The retained segments of a range of ordinals. -/
def rangeSegs (b : Basin) (lo hi : Nat) : List Seg := b.segs.filter fun g => decide (lo ≤ g.ord ∧ g.ord ≤ hi)

/-- The lowest run of `n` free segments (R375). -/
def freeRun (s : State) (n : Nat) : Option Nat :=
  let fs := (List.range (segCount s)).filter (segFree s)
  fs.find? fun a => (List.range n).all fun i => fs.contains (a + i)

/-- A job that is submitted (R375). -/
def newJob (r : Req) (slot : Nat) (segs : List Seg) (base : Nat) : Job :=
  let p := r.payload
  { client := r.client
    kernel := u8 p 0
    prio := u8 p 1
    parterre := u8 p 2
    energy := u32 p 4
    limit := u32 p 8
    basin := u8 p 12
    outSegs := u16 p 14
    outBase := if u16 p 14 = 0 then 0xFFFFFFFF else base
    fromOrd := u32 p 16
    toOrd := u32 p 20
    params := slice p 32 32
    pins := segs.map Seg.seg
    input := segs
    inSlot := slot
    cause := causeOf r }

/-- The request's client may use a capture and a kernel slot for a job: a job pins segments of the one and keeps the other
from being loaded (R55, R349, R378, log 34). -/
def maySubmit (r : Req) (s : State) : Bool :=
  let b := basin s (u8 r.payload 12)
  let k := kernel s (u8 r.payload 0)
  (b.state == 0 || mayChange r b.client) && (k.len == 0 || mayChange r k.client)

/-- JOB_SUBMIT (R375, R378): ownership first, then the conditions in the order in which R375, its table and R378 list
them (R529). -/
def submitAct (r : Req) (s : State) : Served :=
  let p := r.payload
  let b := basin s (u8 p 12)
  let lo := u32 p 16
  let segs := rangeSegs b lo (u32 p 20)
  if !maySubmit r s then fail stDenied s
  else if segs.length ≠ u32 p 20 - lo + 1 then fail stBadParam s
  else if segs.any fun g => !g.closed then conflict 0x09 b.state (u8 p 12) s
  else match (if u16 p 14 = 0 then some 0 else freeRun s (u16 p 14)) with
    | none => fail stNoResource s
    | some base =>
      if !(kernel s (u8 p 0)).usable then fail stBadParam s
      else if 512 ≤ s.ast.jobs.length then fail stNoResource s
      else if !parterreUsable s (u8 p 2) then fail stFenced s
      else
      let n := s.ast.nextJob.toNat
      let j := newJob r b.cfg.keySlot segs base
      okWith (le 4 n ++ le 4 j.outBase)
        { s with ast := { s.ast with jobs := tset s.ast.jobs n j, nextJob := s.ast.nextJob + 1 } }

def execJobSubmit (s : State) : Host.Outcome State Fault Refusal := .next (serve submitSpec submitAct s)

/-! ### JOB_STATUS, JOB_CANCEL, JOB_RELEASE -/

def jobStatusSpec : CmdSpec := { op := 0x0A03, smb := true, priv := false, legal := readyToFault, form := len 4 }

/-- The bundles of the latest attempt, the running one included. -/
def jobBundles (s : State) (j : Job) : Nat := if j.state = 2 then (core s j.core).issued else j.bundles

/-- JOB_STATUS (R379). -/
def jobStatusAct (r : Req) (s : State) : Served :=
  let n := u32 r.payload 0
  match tfind s.ast.jobs n with
  | none => fail stBadParam s
  | some j =>
    okWith (le 4 n ++ le 1 j.state ++ le 1 j.result ++ le 1 j.retries ++ le 1 j.core ++ le 4 j.code.toNat ++
      le 4 j.outBase ++ le 8 j.outBytes ++ le 8 j.startNs.toNat ++ le 8 j.endNs.toNat ++ le 8 (jobBundles s j) ++
      le 2 j.trapPc ++ le 1 j.trapCause ++ le 1 j.skipped ++ zeros 4) s

def execJobStatus (s : State) : Host.Outcome State Fault Refusal := .next (serve jobStatusSpec jobStatusAct s)

def jobCancelSpec : CmdSpec := { op := 0x0A04, smb := false, priv := false, legal := legalStd, form := len 4 }

/-- JOB_CANCEL (R376): the core stops at a bundle boundary; what has been flushed is kept. -/
def jobCancelAct (r : Req) (s : State) : Served :=
  let n := u32 r.payload 0
  match tfind s.ast.jobs n with
  | none => fail stBadParam s
  | some j =>
    if !mayChange r j.client then fail stDenied s
    else if j.state = 3 then conflict 0x0A 3 n s
    else if j.state = 2 then ok (afterEnd (endAttempt j.core n 4 s))
    else ok (afterEnd (jobDone n 4 s))

def execJobCancel (s : State) : Host.Outcome State Fault Refusal := .next (serve jobCancelSpec jobCancelAct s)

def jobReleaseSpec : CmdSpec := { op := 0x0A05, smb := false, priv := false, legal := legalStd, form := len 4 }

/-- A job and its result segments are released; a marked segment is fenced now (R376, R391). -/
def dropJob (n : Nat) (s : State) : State :=
  let j := job s n
  releaseSegments ((List.range j.outSegs).map fun i => j.outBase + i)
    { s with ast := { s.ast with jobs := tdel s.ast.jobs n } }

/-- JOB_RELEASE (R376). -/
def jobReleaseAct (r : Req) (s : State) : Served :=
  let n := u32 r.payload 0
  match tfind s.ast.jobs n with
  | none => fail stBadParam s
  | some j =>
    if !mayChange r j.client then fail stDenied s
    else if j.state ≠ 3 then conflict 0x0A j.state n s
    else ok (dropJob n s)

def execJobRelease (s : State) : Host.Outcome State Fault Refusal := .next (serve jobReleaseSpec jobReleaseAct s)

/-! ### The issue of a bundle -/

/-- The job that a core works on now: running, not held in Hush, its Parterre in operation (R376, R377). -/
def activeJob (s : State) (c : Nat) : Option Nat :=
  match (core s c).job with
  | none => none
  | some n =>
    if (job s n).state == 2 && !(job s n).held && !s.pwr.gated && s.ctl.devState != .still then some n else none

/-- A trap ends the job with result 2 (R364); a fetch outside the instruction space reports the low 12 bits of its
index (R379, log 74). -/
def trapJob (c n cause pc : Nat) (s : State) : State :=
  afterEnd (endAttempt c n 2 (modJob n (fun j => { j with trapPc := pc % 4096, trapCause := cause }) s))

/-- A read met an uncorrectable error in local data or the Bed slice: the line, and whether an injection spoiled it
(R380, R399). -/
def memoryFailure (c n : Nat) (l : Nat × Bool) (s : State) : State :=
  let inst := if l.1 * 64 < 0x40000 then 0x5000 + c else 0x7000 + bedOf c
  afterEnd (failAttempt l.2 (some 2) c n (sramError l.2 inst 3 (l.1 * 64) 0 s))

/-- The line that a store slot writes, and the instance it stands in (R403). -/
def storedLine (x : Core) (c : Nat) (op : LsOp) : Option (Nat × Nat) :=
  if op.stores then
    ((op.shape).bind fun k => (x.elements k.2.2 k.1 k.2.1).head?).map fun a =>
      (if a < 0x40000 then 0x5000 + c else 0x7000 + bedOf c, a)
  else none

/-- An armed flip mask acts on the lines that a bundle's stores write (R403, R509 0x0D). -/
def spoilStores (x : Core) (c : Nat) (b : Bundle) (s : State) : State :=
  [b.ls0, b.ls1].foldl (fun y op => match storedLine x c op with
    | some e => spoilLine e.1 e.2 c y
    | none => y) s

/-- A runtime service that exists (R372). -/
def isService (n : Nat) : Bool := decide (1 ≤ n ∧ n ≤ 4)

/-- The core has issued a bundle: an SVC of an unknown service traps at its own bundle (R364 cause 7). -/
def afterIssue (c n : Nat) (s : State) : State :=
  match (core s c).svcWait with
  | none => s
  | some k => if isService k then s else trapJob c n 7 (core s c).svcPc s

/-- BUNDLE_ISSUE (R360 to R370): a core that runs a job and waits for no service issues the bundle at its bundle
index. -/
def execBundleIssue (core : Nat) (bundle : Bundle) (s : State) : Host.Outcome State Fault Refusal :=
  match activeJob s core with
  | none => .next s
  | some n =>
    let x := (Machine.core s core).landDue
    if x.svcWait.isSome then .next s
    else if x.bundleTrap core bundle ≠ 0 then .next (trapJob core n (x.bundleTrap core bundle) x.pc s)
    else match x.badMet bundle with
      | some l => .next (memoryFailure core n l s)
      | none => .next (afterIssue core n (spoilStores x core bundle (setCore core (x.issue core bundle) s)))

/-! ### Services (R372, R373) -/

/-- The service that a core waits for, with its job. -/
def serviceOf (s : State) (c k : Nat) : Option Nat :=
  if (core s c).svcWait = some k then activeJob s c else none

/-- g1 as a service reads it: every result due by then has landed (R361). -/
def argument (s : State) (c : Nat) : BitVec 32 := (core s c).landDue.readG 1

/-- A service returns: g1 to g7 are changed; those it gives no result to are free values (R372, log 7). -/
def serviceReturn (c : Nat) (results : List (Nat × BitVec 32)) (s : State) : State :=
  let f := drawFree s
  let bs := Config.freeBytes f.1 32
  let free := fun (g : Tab (BitVec 32)) => (List.range 7).foldl
    (fun t i => tset t (i + 1) (BitVec.ofNat 32 (leNat (slice bs (4 * i) 4)))) g
  modCore c (fun y =>
    let x := y.landDue
    { x with
      svcWait := none
      g := results.foldl (fun t e => tset t e.1 e.2) (free x.g) }) f.2

/-- The offsets of the whole records of a segment from offset `o` that fit in 64 KiB, and the offset after them
(R373). -/
def blockEnd (g : Seg) (o : Nat) : Nat :=
  let ends := (g.recs.filter fun r => decide (o < r)) ++ [g.used]
  ends.foldl (fun m e => if e ≤ o + 65536 then max m e else m) o

/-- What the DMA complex delivers next of a job's input. -/
structure Block where
  ord : Nat
  data : Bytes
  next : Nat
deriving DecidableEq, Repr

/-- The next block of a job (R373): segments that are fenced or no longer retained, that meet an uncorrectable block
(R390) or whose key is gone (R416) are skipped and counted. `fuel` bounds the segments. -/
def nextBlock : Nat → Nat → State → Option Block × State
  | 0, _, s => (none, s)
  | fuel + 1, n, s =>
    let j := job s n
    let onward := fun (lost : Bool) (x : State) => modJob n (fun y => { y with
      readOrd := j.readOrd + 1
      readOff := 64
      skipped := if lost then min (y.skipped + 1) 255 else y.skipped }) x
    if j.toOrd < j.readOrd then (none, s)
    else match j.input.find? fun g => g.ord == j.readOrd with
      | none => nextBlock fuel n (onward true s)
      | some g =>
        let key := (slot s j.inSlot).key
        let stop := blockEnd g j.readOff
        if fenced s g.seg || (g.enc && (slot s j.inSlot).state == 0) then nextBlock fuel n (onward true s)
        else if stop ≤ j.readOff then nextBlock fuel n (onward false s)
        else
          let r := readPlain 3 g.enc key (g.seg * segBytes + j.readOff) (stop - j.readOff) s
          match r.1 with
          | none => nextBlock fuel n (onward true r.2)
          | some bs =>
            (some { ord := g.ord, data := bs, next := stop }, modJob n (fun y => { y with readOff := stop }) r.2)

/-- A job's transfer through its DMA complex: a corrupted line halts the channel, and the attempt ends without a
fence (R402). -/
def throughDma (c n transfer : Nat) (go : State → State) (s : State) : State :=
  let k := sramWrite (0x8000 + parterreOf c) s
  if k.1.1 = 0 then go k.2
  else afterEnd (failAttempt k.1.2 none c n (haltChannel k.1.2 (parterreOf c) (16 + c) transfer k.2))

/-- A block stands in the input buffer that was not delivered last (R358, R372, R373). -/
def deliver (c n : Nat) (k : Block) (s : State) : State :=
  let buf := 1 - (job s n).buf
  let a := sliceBase c + buf * 0x10000
  let s1 := modCore c (fun x => rewriteLines a k.data.length { x with
      slice := Memory.writeBytes 0 x.slice (buf * 0x10000) k.data })
    (modJob n (fun j => { j with buf }) s)
  serviceReturn c [(1, BitVec.ofNat 32 a), (2, BitVec.ofNat 32 k.data.length), (3, BitVec.ofNat 32 k.ord)]
    (spoilLine (0x7000 + bedOf c) a c s1)

/-- BLOCK_NEXT (R372, R373). -/
def execBlockNext (core : Nat) (s : State) : Host.Outcome State Fault Refusal :=
  match serviceOf s core 1 with
  | none => .next s
  | some n =>
    if channelHalted s (parterreOf core) (16 + core) then .next s else
    let j := job s n
    let r := nextBlock (j.toOrd + 2 - j.readOrd) n s
    match r.1 with
    | none => .next (serviceReturn core [(2, 0)] r.2)
    | some k => .next (throughDma core n 2 (deliver core n k) r.2)

/-- Output staging is appended to the result segments when it fits and none of the segments it touches is fenced
(R372, R392, R398). -/
def flushOutput (c n size : Nat) (s : State) : State :=
  let j := job s n
  let a := j.outBase * segBytes + j.outBytes
  let segs := (blocksOf a size).map fun k => k / 65536
  if j.outSegs * segBytes < j.outBytes + size ∨ segs.any (fenced s) then serviceReturn c [(1, 1)] s
  else
    let s1 := narrowWrite a (Memory.readBytes 0 (core s c).slice 0x20000 size) s
    if segs.any (fenced s1) then serviceReturn c [(1, 1)] s1
    else serviceReturn c [(1, 0)] (modJob n (fun y => { y with outBytes := j.outBytes + size }) s1)

/-- A line of output staging that the DMA complex reads fails its CRC (R402). -/
def stagingBad (x : Core) (c size : Nat) : Option (Nat × Bool) :=
  x.badLines.find? fun l => decide (sliceBase c + 0x20000 ≤ l.1 * 64 ∧ l.1 * 64 < sliceBase c + 0x20000 + size)

/-- OUT_FLUSH (R372): for a size outside 1 to 65,536 the spec states no result, so g1 is a free value and nothing is
appended (log 35). -/
def execOutFlush (core : Nat) (s : State) : Host.Outcome State Fault Refusal :=
  match serviceOf s core 2 with
  | none => .next s
  | some n =>
    let size := (argument s core).toNat
    if size = 0 ∨ 65536 < size then .next (serviceReturn core [] s)
    else if channelHalted s (parterreOf core) (16 + core) then .next s
    else match stagingBad (Machine.core s core) core size with
      | some l => .next (memoryFailure core n l s)
      | none => .next (throughDma core n 3 (flushOutput core n size) s)

/-- DONE (R372, R376). -/
def execDoneService (core : Nat) (s : State) : Host.Outcome State Fault Refusal :=
  match serviceOf s core 3 with
  | none => .next s
  | some n =>
    let code := argument s core
    .next (afterEnd (endAttempt core n 1 (modJob n (fun j => { j with code }) s)))

/-- CYCLES (R372): the cycles since entry are the bundles issued and the stalls of R363, which the spec does not count:
a free value (log 7). -/
def execCycles (core : Nat) (s : State) : Host.Outcome State Fault Refusal :=
  match serviceOf s core 4 with
  | none => .next s
  | some _ =>
    let f := drawFree s
    let cycles := (Machine.core s core).issued + Config.freeNat f.1
    .next (serviceReturn core [(1, BitVec.ofNat 32 cycles), (2, BitVec.ofNat 32 (cycles / 2 ^ 32))] f.2)

/-! ### Limits -/

/-- JOB_TIME_LIMIT (R376, R377): the time limit of the job on a core passes. -/
def execJobTimeLimit (core : Nat) (s : State) : Host.Outcome State Fault Refusal :=
  match activeJob s core with
  | none => .next s
  | some n => .next (afterEnd (endAttempt core n 3 s))

/-- CORE_NO_ISSUE (R380): a core that is not stalled has issued no bundle for 1 ms. -/
def execCoreNoIssue (core : Nat) (s : State) : Host.Outcome State Fault Refusal :=
  match activeJob s core with
  | none => .next s
  | some n =>
    if (Machine.core s core).svcWait.isSome then .next s
    else .next (afterEnd (failAttempt false (some 3) core n s))

end Sys2Proof.Machine
end

