-- ==== Sys2Proof/Machine/Device.lean ====
section
/-!
DEFINITION. The commands of the blocks 0x00xx and 0x01xx: device, firmware update and attestation (R56, R57, R60, R61,
R84, R87 to R96).
-/
namespace Sys2Proof.Machine

/-! ### Device (R60, R61) -/

def nopSpec : CmdSpec := { op := 0x0000, smb := true, priv := false, legal := readyToFault, form := len 0 }

/-- NOP (R60). -/
def nopAct (_ : Req) (s : State) : Served := ok s

def execNop (s : State) : Host.Outcome State Fault Refusal := .next (serve nopSpec nopAct s)

def deviceInfoSpec : CmdSpec := { op := 0x0001, smb := true, priv := false, legal := readyToFault, form := len 0 }

/-- Cores that are not fenced. -/
def coresUsable (s : State) : Nat := ((List.range 64).filter fun c => !(core s c).fenced).length

def weirsUsable (s : State) : Nat := ((List.range 8).filter fun w => !(weir s w).fenced).length

def stacksUsable (s : State) : Nat := ((List.range (stackTotal s)).filter fun n => !(stack s n).fenced).length

/-- Nominal bytes of the store (R61). -/
def storeBytes (s : State) : Nat := segCount s * segBytes

/-- The 96 bytes of DEVICE_INFO (R61). -/
def deviceInfo (s : State) : Bytes :=
  let lost := fencedCount s * segBytes
  le 2 0x4810 ++ le 1 s.ident.variant ++ le 1 s.ident.stepping.toNat ++ le 4 s.ctl.fwVersion.toNat ++
    le 8 s.ident.serial.toNat ++ le 1 (stackTotal s) ++ le 1 (stacksUsable s) ++ le 1 s.boot.image ++
    le 1 (stateCode s.ctl.devState) ++ zeros 4 ++ le 8 (storeBytes s) ++ le 8 (storeBytes s - lost) ++
    le 8 (s.up.poolSegs * segBytes) ++ le 1 (coresUsable s) ++ le 1 (weirsUsable s) ++ le 1 4 ++ le 1 s.clk.point ++
    le 2 2048 ++ le 1 s.ctl.linkGen ++ le 1 s.ctl.linkWidth ++ le 8 (maskOf 64 fun c => (core s c).fenced) ++
    le 1 (maskOf 8 fun w => (weir s w).fenced) ++ le 1 (b2n s.boot.sramInit) ++ zeros 2 ++
    le 4 (coresUsable s * 8 * 1600) ++ le 8 lost ++ zeros 16

/-- DEVICE_INFO (R61). -/
def deviceInfoAct (_ : Req) (s : State) : Served := okWith (deviceInfo s) s

def execDeviceInfo (s : State) : Host.Outcome State Fault Refusal := .next (serve deviceInfoSpec deviceInfoAct s)

/-- Legal in READY alone. -/
def onlyReady (d : DevState) : Bool := d == .ready

/-- Legal in RUN alone. -/
def onlyRun (d : DevState) : Bool := d == .run

def deviceStartSpec : CmdSpec := { op := 0x0002, smb := false, priv := true, legal := onlyReady, form := len 0 }

/-- DEVICE_START (R57, R60). -/
def deviceStartAct (r : Req) (s : State) : Served := ok (changeState .run (causeOf r) s)

def execDeviceStart (s : State) : Host.Outcome State Fault Refusal := .next (serve deviceStartSpec deviceStartAct s)

def deviceStopSpec : CmdSpec := { op := 0x0003, smb := false, priv := true, legal := onlyRun, form := len 0 }

/-- DEVICE_STOP (R57, R60): TX_EN falls, Basins stop, planes stop as by PLANE_STOP, and the device is READY. -/
def deviceStopAct (r : Req) (s : State) : Served :=
  let cause := causeOf r
  let s1 := (List.range 4).foldl (fun x b => stopCapture b 5 cause x) (dropTxEn lineRx s)
  let s2 := (List.range 2).foldl (fun x p => stopPlane p cause x) s1
  ok (changeState .ready cause s2)

def execDeviceStop (s : State) : Host.Outcome State Fault Refusal := .next (serve deviceStopSpec deviceStopAct s)

def deviceResetSpec : CmdSpec := { op := 0x0004, smb := true, priv := true, legal := readyToFault, form := len 0 }

/-- DEVICE_RESET (R60): the reset follows 100 µs after the response. -/
def deviceResetAct (r : Req) (s : State) : Served :=
  ok (s.modCtl fun c => { c with
    resetPending := true
    resetBy := causeOf r })

def execDeviceReset (s : State) : Host.Outcome State Fault Refusal := .next (serve deviceResetSpec deviceResetAct s)

/-! ### Opcodes (R72) -/

/-- The last opcode of each block's commands, which are numbered from 1; the device block from 0 (R72). -/
def lastCommand : List Nat := [4, 6, 7, 9, 6, 14, 8, 6, 8, 10, 5, 5, 8, 12, 3, 2]

/-- An opcode that some command has (R72); ATTEST and ATTEST_CERT stand apart from their block's other commands. -/
def assigned (op : Nat) : Bool :=
  let n := op % 256
  op == 0 || op == 0x0110 || op == 0x0111 ||
    (decide (op < 0x1000) && decide (1 ≤ n) && decide (n ≤ lastCommand.getD (op / 256) 0))

/-- What is checked of a request whose opcode no command has: integrity and binding, then the opcode (R529). -/
def unassignedSpec (op : Nat) : CmdSpec :=
  { op, smb := true, priv := false, legal := fun _ => true, form := fun _ => true }

/-- UNASSIGNED_OPCODE (R72, R529). -/
def unassignedAct (_ : Req) (s : State) : Served := fail stUnsupported s

def execUnassignedOpcode (s : State) : Host.Outcome State Fault Refusal :=
  match nextReq s with
  | none => .next s
  | some r => if assigned r.opcode then .next s else .next (serve (unassignedSpec r.opcode) unassignedAct s)

/-! ### Firmware update (R87 to R92) -/

/-- The image that does not run. -/
def otherImage (s : State) : Nat := 1 - s.boot.image

/-- Bytes of an image region (R78). -/
def imageSpace : Nat := 0xC00000

/-- An image region without a programmed byte. -/
def eraseImage (i : Nat) (s : State) : State :=
  { s with boot := { s.boot with flash := Memory.clear s.boot.flash (imageBase i) imageSpace } }

def modUpdate (f : Update → Update) (s : State) : State := { s with boot := { s.boot with update := f s.boot.update } }

/-- An image size that the region takes (R80, R88). -/
def imageSize (n : Nat) : Bool := decide (4096 ≤ n ∧ n ≤ 12582912)

def fwUpdateBeginForm (p : Bytes) : Bool := len 8 p && imageSize (u32 p 0) && zeroAt p 4 4

def fwUpdateBeginSpec : CmdSpec :=
  { op := 0x0101, smb := false, priv := true, legal := onlyReady, form := fwUpdateBeginForm }

/-- FW_UPDATE_BEGIN (R87, R88, R504): the erasure goes on after the response; the conflict names object 0 (log 63). The
other image's region is blank at once, since the spec does not say what it holds while the erasure goes on (DESIGN CHOICE,
log 80). -/
def fwUpdateBeginAct (r : Req) (s : State) : Served :=
  if s.log.clearing then fail stBusy s
  else if imageState s s.boot.image = 0x7F then conflict 0x01 (imageState s s.boot.image) 0 s
  else
    let u : Update := {
      phase := 1
      imageBytes := u32 r.payload 0
      cause := causeOf r }
    ok (changeState .update (causeOf r) (modUpdate (fun _ => u) (eraseImage (otherImage s) s)))

def execFwUpdateBegin (s : State) : Host.Outcome State Fault Refusal :=
  .next (serve fwUpdateBeginSpec fwUpdateBeginAct s)

/-- FW_ERASE_DONE (R87): in FAULT the recorder has the flash first (R498). -/
def execFwEraseDone (s : State) : Host.Outcome State Fault Refusal :=
  let u := s.boot.update
  if u.phase == 1 && cpRuns s && (s.ctl.devState != .fault || s.log.buf.isEmpty) then
    .next (raise 0x0101 0 [] u.cause (modUpdate (fun x => { x with phase := 2, cause := none }) s))
  else .next s

/-- Legal in UPDATE alone. -/
def onlyUpdate (d : DevState) : Bool := d == .update

def fwUpdateWriteForm (p : Bytes) : Bool :=
  let n := u16 p 4
  decide (1 ≤ n ∧ n ≤ 232) && len (8 + n) p && zeroAt p 6 2

def fwUpdateWriteSpec : CmdSpec :=
  { op := 0x0102, smb := false, priv := true, legal := onlyUpdate, form := fwUpdateWriteForm }

/-- The bytes 12 to 17 of the header that a write at `o` covers are 0xFF (R89). -/
def blankFields (o : Nat) (bs : Bytes) : Bool :=
  bs.zipIdx.all fun b => b.1 == 0xFF || decide (o + b.2 < 12 ∨ 18 ≤ o + b.2)

/-- FW_UPDATE_WRITE (R89): ST_BUSY of the erasure is tested before the bytes 12 to 17 of the header (log 63). -/
def fwUpdateWriteAct (r : Req) (s : State) : Served :=
  let u := s.boot.update
  let o := u32 r.payload 0
  let n := u16 r.payload 4
  let bs := slice r.payload 8 n
  if u.phase = 1 then fail stBusy s
  else if o ≠ u.next ∨ u.imageBytes < o + n ∨ !blankFields o bs then fail stBadParam s
  else ok (modUpdate (fun x => { x with next := o + n }) (program (imageBase (otherImage s) + o) bs s))

def execFwUpdateWrite (s : State) : Host.Outcome State Fault Refusal :=
  .next (serve fwUpdateWriteSpec fwUpdateWriteAct s)

/-- An action byte of 0 or 1 and three reserved bytes (R90, R91; for HWINIT log 29). -/
def updateActionForm (p : Bytes) : Bool := len 4 p && decide (u8 p 0 ≤ 1) && zeroAt p 1 3

def fwUpdateEndSpec : CmdSpec :=
  { op := 0x0103, smb := false, priv := true, legal := onlyUpdate, form := updateActionForm }

/-- The sequence number of a new image (R90). -/
def nextSequence (n : Nat) : Nat :=
  let m := (n + 1) % 2 ^ 32
  if m = 0xFFFFFFFF ∨ m = 0 then 1 else m

/-- FW_UPDATE_END (R90): the device returns to READY whether the update is finished, abandoned or fails its checks. -/
def fwUpdateEndAct (r : Req) (s : State) : Served :=
  let u := s.boot.update
  let i := otherImage s
  if u.phase = 1 then fail stBusy s
  else
    let back := fun (x : State) => changeState .ready (causeOf r) (modUpdate (fun _ => {}) x)
    if u8 r.payload 0 = 0 then ok (back s)
    else if u.next = u.imageBytes ∧ headerGood (imageHeader s i) ∧ stagesGood s i then
      let seq := nextSequence (u32 (imageHeader s s.boot.image) 12)
      ok (back (program (imageBase i + 12) (le 4 seq ++ [0x7F, 0x03]) s))
    else .done (back s) stBadParam []

def execFwUpdateEnd (s : State) : Host.Outcome State Fault Refusal := .next (serve fwUpdateEndSpec fwUpdateEndAct s)

def fwTrialDecideSpec : CmdSpec :=
  { op := 0x0104, smb := false, priv := true, legal := legalStd, form := updateActionForm }

/-- FW_TRIAL_DECIDE (R91): the conflict names object 0 (log 63). -/
def fwTrialDecideAct (r : Req) (s : State) : Served :=
  let i := s.boot.image
  if imageState s i ≠ 0x7F then conflict 0x01 s.boot.imageState 0 s
  else if u8 r.payload 0 = 0 then ok (program (imageBase i + 16) [0x3F] s)
  else ok (program (imageBase i + 17) [0x00] s)

def execFwTrialDecide (s : State) : Host.Outcome State Fault Refusal :=
  .next (serve fwTrialDecideSpec fwTrialDecideAct s)

/-- FW_STATUS takes no payload (log 63). -/
def fwStatusSpec : CmdSpec := { op := 0x0105, smb := true, priv := true, legal := readyToFault, form := len 0 }

/-- The 16-byte entry of an image (R92). -/
def imageEntry (s : State) (i : Nat) : Bytes :=
  let h := imageHeader s i
  slice h 16 2 ++ le 1 (b2n (headerGood h)) ++ zeros 1 ++ slice h 8 4 ++ slice h 12 4 ++ slice h 20 4

/-- FW_STATUS (R92): outside UPDATE there is no update, whatever a fault has cut short. -/
def fwStatusAct (_ : Req) (s : State) : Served :=
  let u := if s.ctl.devState = .update then s.boot.update else {}
  okWith (imageEntry s 0 ++ imageEntry s 1 ++ le 4 u.next ++ le 1 u.phase ++ zeros 3) s

def execFwStatus (s : State) : Host.Outcome State Fault Refusal := .next (serve fwStatusSpec fwStatusAct s)

/-- Legal in READY and UPDATE (R87). -/
def legalHwinit (d : DevState) : Bool := d == .ready || d == .update

def hwinitSpec : CmdSpec := { op := 0x0106, smb := false, priv := true, legal := legalHwinit, form := updateActionForm }

/-- HWINIT (R84, R87): byte 0 of the payload is the flag (log 29). -/
def hwinitAct (r : Req) (s : State) : Served :=
  ok { s with boot := { s.boot with hwinitFlag := u8 r.payload 0 == 1 } }

def execHwinit (s : State) : Host.Outcome State Fault Refusal := .next (serve hwinitSpec hwinitAct s)

/-! ### Attestation (R93 to R96) -/

/-- Bytes 0 to 287 of a report (R95). -/
def reportBody (id : Nat) (nonce : Bytes) (s : State) : Bytes :=
  le 4 1 ++ le 4 s.ctl.fwVersion.toNat ++ le 8 s.ident.serial.toNat ++ le 1 s.boot.image ++ le 1 s.boot.imageState ++
    le 1 (b2n s.boot.sramInit) ++ zeros 1 ++ le 4 id ++ fit 32 nonce ++
    ((List.range 4).flatMap fun k => be 48 (tget 0 s.boot.meas k).toNat) ++ zeros 40

/-- Builds and signs the next report and keeps it for a channel (R93 to R95). -/
def buildReport (ch : Nat) (nonce : Bytes) (s : State) : State :=
  let id := s.boot.reportCount + 1
  let body := reportBody id.toNat nonce s
  let d := drawDrbg s
  let s1 : State := { d.2 with boot := { d.2.boot with reportCount := id } }
  modChan ch (fun c => { c with
    reportId := some id
    report := body ++ fit 96 (Config.sign d.1 body) }) s1

def attestForm (p : Bytes) : Bool :=
  len 40 p && decide (u8 p 0 ≤ 1) && zeroAt p 1 3 && (u8 p 0 == 1 || zeroAt p 4 4) && (u8 p 0 == 0 || zeroAt p 8 32)

def attestSpec : CmdSpec := { op := 0x0110, smb := true, priv := false, legal := readyToFault, form := attestForm }

/-- One half of a channel's report (R94). -/
def reportHalf (ch part : Nat) (s : State) : Bytes :=
  let c := chan s ch
  le 4 (c.reportId.getD 0).toNat ++ le 1 part ++ zeros 3 ++ slice c.report (192 * part) 192

/-- ATTEST (R94). The conflict of a channel without a report names object 0 in state 0, which the spec does not give
(DESIGN CHOICE, log 80). -/
def attestAct (r : Req) (s : State) : Served :=
  if u8 r.payload 0 = 0 then
    let s1 := buildReport r.ch (slice r.payload 8 32) s
    okWith (reportHalf r.ch 0 s1) s1
  else
    let latest := (chan s r.ch).reportId
    if (latest.map BitVec.toNat) = some (u32 r.payload 4) then okWith (reportHalf r.ch 1 s) s
    else conflict 0x01 0 (latest.getD 0).toNat s

def execAttest (s : State) : Host.Outcome State Fault Refusal := .next (serve attestSpec attestAct s)

def attestCertSpec : CmdSpec := { op := 0x0111, smb := true, priv := false, legal := readyToFault, form := len 4 }

/-- ATTEST_CERT (R96). -/
def attestCertAct (r : Req) (s : State) : Served :=
  let chain := s.ident.certChain
  let o := u32 r.payload 0
  if chain.length ≤ o then fail stBadParam s
  else okWith (le 4 chain.length ++ (chain.drop o).take 232) s

def execAttestCert (s : State) : Host.Outcome State Fault Refusal := .next (serve attestCertSpec attestCertAct s)

end Sys2Proof.Machine
end

