-- ==== Sys2Proof/Machine/Exports.lean ====
section
/-!
DEFINITION. Exports of capture records to PCIe rings and host ports (R343 to R348, R351, R353).
-/
namespace Sys2Proof.Machine

/-! ### The end of an export -/

/-- RING_HEAD is set back to the first descriptor of the record in flight. The contents of the buffers that it had
taken are undefined: free values (R344, log 7). -/
def ringBack (e : Nat) (s : State) : State :=
  let x := export_ s e
  if x.bufs = 0 then s
  else
    let n := ringEntries s x.target
    let s1 := modRing x.target (fun r => { r with head := (r.head + n - x.bufs % n) % n }) s
    let spoil := fun (y : State) i =>
      let f := drawFree y
      let d := descBuf y x.target i
      hostWrite d.1 (fit d.2 (Config.freeBytes f.1 d.2)) f.2
    (List.range x.bufs).foldl spoil (modExport e (fun y => { y with bufs := 0 }) s1)

/-- An export ends: EV_EXPORT_DONE; a compression segment in progress is settled (R346, R348, R356, R483). A ring
delivers no part of a record that was in flight (R344). -/
def exportDone (inj : Bool) (e cause : Nat) (s : State) : State :=
  let x := export_ s e
  let s1 := ringBack e (endSegment e s)
  let s2 := raiseWith inj 0x0906 e (le 1 cause ++ le 8 x.sent) x.cause
    { s1 with cap := { s1.cap with exports := tdel s1.cap.exports e } }
  if x.compress then afterEnd s2 else s2

/-- Under follow 0 an export ends after the last record committed when the command executed (R346). -/
def exportAtEnd (x : Export) : Bool :=
  !x.follow && decide (2 ^ 31 ≤ seqAhead x.endSeq x.nextSeq ∨ x.nextSeq = x.endSeq)

/-- A record of the export is in flight: part of it has gone to a host port, or a ring's buffers ran out within it. -/
def inFlight (x : Export) : Bool := x.record != []

/-- What follows when an export has moved on: it ends under CAP_EXPORT_STOP or at its last record (R346, R351). -/
def exportMoved (e : Nat) (s : State) : State :=
  match tfind s.cap.exports e with
  | none => s
  | some x =>
    if x.stopping && !inFlight x then exportDone false e 1 s
    else if exportAtEnd x then exportDone false e 0 s
    else s

/-! ### CAP_EXPORT, CAP_EXPORT_STOP -/

/-- The fields that depend on the route (R353). -/
def exportRoute (p : Bytes) : Bool :=
  if u8 p 1 = 0 then
    decide (1 ≤ u8 p 2 ∧ u8 p 2 ≤ 31) && u8 p 3 == 0 && u16 p 16 == 0 && decide (1 ≤ u16 p 18 ∧ u16 p 18 ≤ 10000)
  else decide (u8 p 2 ≤ 3) && decide (u8 p 3 ≤ 7) && decide (1024 ≤ u16 p 16 ∧ u16 p 16 ≤ 9600) && u16 p 18 == 0

def capExportForm (p : Bytes) : Bool :=
  len 24 p && decide (u8 p 0 ≤ 3) && decide (u8 p 1 ≤ 1) && exportRoute p && decide (u8 p 4 ≤ 2) &&
    decide (u8 p 5 ≤ 1) && decide (u8 p 6 ≤ 1) && zeroAt p 7 1 && (u8 p 4 == 2 || u32 p 8 == 0) &&
    (if u8 p 6 = 1 then decide (1 ≤ u32 p 12 ∧ u32 p 12 ≤ 10000) else u32 p 12 == 0) && zeroAt p 20 4

def capExportSpec : CmdSpec :=
  { op := 0x0908, smb := false, priv := false, legal := legalStd, form := capExportForm }

/-- The seq with which an export begins (R353). -/
def exportStart (x : Basin) (p : Bytes) : BitVec 32 :=
  match u8 p 4 with
  | 0 => match x.segs with
    | [] => x.nextSeq
    | g :: _ => BitVec.ofNat 32 g.firstSeq
  | 1 => x.nextSeq
  | _ => BitVec.ofNat 32 (u32 p 8)

/-- The export a payload asks for. -/
def exportOf (r : Req) (x : Basin) : Export :=
  let p := r.payload
  { basin := u8 p 0
    client := r.client
    port := u8 p 1 == 1
    target := u8 p 2
    tclass := u8 p 3
    follow := u8 p 5 == 1
    compress := u8 p 6 == 1
    energy := u32 p 12
    mtu := u16 p 16
    hold := u16 p 18
    nextSeq := exportStart x p
    endSeq := x.nextSeq
    cause := causeOf r }

/-- CAP_EXPORT (R351, R353): a ring that cannot be taken is a conflict that names the Basin (R351). The export gets the
lowest free export_id (DESIGN CHOICE, log 80). -/
def capExportAct (r : Req) (s : State) : Served :=
  let p := r.payload
  let b := u8 p 0
  let x := basin s b
  if !mayCapture r x then fail stDenied s
  else if x.state = 0 then conflict 0x09 0 b s
  else if u8 p 1 = 0 ∧ (ringRefusal s (u8 p 2) false).isSome then conflict 0x09 x.state b s
  else match (List.range 8).find? fun e => (tfind s.cap.exports e).isNone with
    | none => fail stNoResource s
    | some e =>
      let s1 := modExport e (fun _ => exportOf r x) s
      okWith (le 1 e ++ zeros 3) (exportMoved e s1)

def execCapExport (s : State) : Host.Outcome State Fault Refusal := .next (serve capExportSpec capExportAct s)

/-- export_id and three reserved bytes (R351). -/
def exportStopForm (p : Bytes) : Bool := len 4 p && decide (u8 p 0 ≤ 7) && zeroAt p 1 3

def exportStopSpec : CmdSpec :=
  { op := 0x090A, smb := false, priv := false, legal := legalStd, form := exportStopForm }

/-- CAP_EXPORT_STOP (R346, R351). -/
def exportStopAct (r : Req) (s : State) : Served :=
  let e := u8 r.payload 0
  match tfind s.cap.exports e with
  | none => conflict 0x09 0 (0x100 + e) s
  | some x =>
    if !mayChange r x.client then fail stDenied s
    else if inFlight x then ok (modExport e (fun y => { y with stopping := true }) s)
    else ok (exportDone false e 1 s)

def execCapExportStop (s : State) : Host.Outcome State Fault Refusal := .next (serve exportStopSpec exportStopAct s)

/-! ### Reading records -/

/-- Records are skipped: EV_EXPORT_SKIP, and the export goes on at `target` (R346, R390, R416). -/
def exportSkip (e : Nat) (target : BitVec 32) (s : State) : State :=
  let x := export_ s e
  if x.nextSeq = target then s
  else raise 0x0905 e (le 4 x.nextSeq.toNat ++ le 4 (seqAhead target x.nextSeq)) x.cause
    (modExport e (fun y => { y with nextSeq := target }) s)

/-- The seq after the last record of a segment. -/
def segEndSeq (g : Seg) : BitVec 32 := BitVec.ofNat 32 (g.firstSeq + g.records)

/-- Where the record `q` stands in its segment: offset and bytes. -/
def recordPlace (g : Seg) (q : BitVec 32) : Nat × Nat :=
  let k := seqAhead q (BitVec.ofNat 32 g.firstSeq)
  let offs := g.recs.reverse
  let a := offs.getD k 0
  (a, offs.getD (k + 1) g.used - a)

/-- A KEEP-form FRAME record of content 0 in PACK form; every other record unchanged (R327, R347). -/
def packRecord (pick : Nat) (bs : Bytes) : Bytes :=
  if u8 bs 0 = 1 ∧ u8 bs 11 % 8 = 0 ∧ u8 bs 22 = 0 then
    let data := packData pick (slice bs 28 (u16 bs 18))
    let body := pad8 (slice bs 16 2 ++ le 2 data.length ++ slice bs 20 8 ++ data)
    slice bs 0 2 ++ le 2 (16 + body.length) ++ slice bs 4 7 ++ [1] ++ slice bs 12 4 ++ body
  else bs

/-- The next record of an export as it is to be sent (R342, R346, R347, R389, R390, R416): none when it was skipped,
where no retained segment holds it or a later one, to the record that will be committed next. -/
def nextRecord (e : Nat) (s : State) : Option Bytes × State :=
  let x := export_ s e
  let b := basin s x.basin
  match exportSeg s x with
  | none => (none, exportSkip e (if x.follow then b.nextSeq else x.endSeq) s)
  | some g =>
    if !segHas x.nextSeq g then (none, exportSkip e (BitVec.ofNat 32 g.firstSeq) s)
    else
      let k := slot s b.cfg.keySlot
      if g.enc ∧ k.state = 0 then (none, exportSkip e (segEndSeq g) s)
      else
        let place := recordPlace g x.nextSeq
        let r := readPlain (if x.compress then 7 else 2) g.enc k.key (g.seg * segBytes + place.1) place.2 s
        match r.1 with
        | none => (none, exportSkip e (segEndSeq g) r.2)
        | some bs =>
          if x.compress then
            let f := drawFree r.2
            (some (packRecord f.1 bs), f.2)
          else (some bs, r.2)

/-- The ordinal of the segment that an export reads now. -/
def readingOrd (s : State) (x : Export) : Option Nat := (exportSeg s x).map Seg.ord

/-- A Weir that a compression job can use now: neither held by a Basin nor suspended nor gated (R27, R467). -/
def weirReady (e : Nat) (s : State) : Bool :=
  match weirOf s e with
  | none => false
  | some w =>
    let x := tget ({} : Weir) s.cap.weirs w
    !x.suspended && x.basin.isNone && !s.pwr.gated

/-- An export may go on to its next record: it does not end after the record in flight, one waits, and a compression job has its Weir and is still reading the
segment that has been charged (R27, R346, R347, R351). -/
def mayRead (e : Nat) (s : State) : Bool :=
  let x := export_ s e
  !x.stopping && exportHas s x && (!x.compress || (weirReady e s && x.charged && readingOrd s x == some x.chargedSeg))

/-- The export has sent its next record. -/
def recordSent (e : Nat) (s : State) : State :=
  modExport e (fun y => { y with
    nextSeq := y.nextSeq + 1
    sent := y.sent + 1
    record := []
    off := 0
    bufs := 0
    holding := false }) s

/-- Whole records back to back, as many as wait and fit in `room` bytes: their bytes and number (R343, R345). -/
def gather : Nat → Nat → Nat → State → (Bytes × Nat) × State
  | 0, _, _, s => (([], 0), s)
  | fuel + 1, e, room, s =>
    if !mayRead e s then (([], 0), s)
    else
      let r := nextRecord e s
      match r.1 with
      | none => (([], 0), r.2)
      | some bs =>
        if room < bs.length then (([], 0), s)
        else
          let q := gather fuel e (room - bs.length) (recordSent e r.2)
          ((bs ++ q.1.1, q.1.2 + 1), q.2)

/-! ### Sending to a ring (R343, R344) -/

/-- The data of a record goes into the buffers that the ring has, up to `fuel`: the buffers taken and the bytes that
are left. -/
def writeParts (ringNo : Nat) : Nat → Nat → Bytes → State → (Nat × Bytes) × State
  | 0, i, bs, s => ((i, bs), s)
  | fuel + 1, i, bs, s =>
    if bs = [] then ((i, bs), s)
    else
      let d := descBuf s ringNo i
      writeParts ringNo fuel (i + 1) (bs.drop d.2) (hostWrite d.1 (bs.take d.2) s)

/-- The completions of the `k` buffers of a record from RING_HEAD on, first to last. -/
def completeParts (ringNo b e first : Nat) : Nat → Nat → Bytes → State → State
  | 0, _, _, s => s
  | k + 1, i, bs, s =>
    let d := descBuf s ringNo i
    let flags := 1 + 2 * b2n (i == 0) + 4 * b2n (k == 0)
    completeParts ringNo b e first k (i + 1) (bs.drop d.2)
      (complete ringNo i (min d.2 bs.length) flags b e (if i = 0 then first else 0) (b2n (i == 0)) s)

/-- The record in flight takes consecutive descriptors: the data of its buffers first, then their completions. Where
the ring has too few, RING_HEAD moves on over those taken and the export waits within the record for RING_TAIL to
advance (R343, R344). -/
def sendLong (e : Nat) (s : State) : State :=
  let x := export_ s e
  let n := ringEntries s x.target
  let w := writeParts x.target (descCount s x.target) 0 (x.record.drop x.off) s
  let k := w.1.1
  if w.1.2 ≠ [] then
    modExport e (fun y => { y with holding := true, off := x.record.length - w.1.2.length, bufs := x.bufs + k })
      (modRing x.target (fun r => { r with head := (r.head + k) % n }) w.2)
  else
    let back := modRing x.target (fun r => { r with head := (r.head + n - x.bufs % n) % n }) w.2
    let all := completeParts x.target x.basin e x.nextSeq.toNat (x.bufs + k) 0 x.record back
    recordSent e (advanceHead x.target (x.bufs + k) all)

/-- A record begins to go out in parts. -/
def startRecord (e : Nat) (bs : Bytes) (s : State) : State :=
  modExport e (fun y => { y with record := bs, off := 0, bufs := 0 }) s

/-- Sends to the ring: the rest of the record in flight, a buffer of whole records, or one long record. -/
def sendRing (e : Nat) (s : State) : State :=
  let x := export_ s e
  if descCount s x.target = 0 then s
  else if inFlight x then sendLong e s
  else
    let d := descBuf s x.target 0
    let g := gather (d.2 / 16 + 1) e d.2 s
    if g.1.2 ≠ 0 then
      advanceHead x.target 1
        (complete x.target 0 g.1.1.length 7 x.basin e x.nextSeq.toNat g.1.2 (hostWrite d.1 g.1.1 g.2))
    else if !mayRead e g.2 then g.2
    else
      let r := nextRecord e g.2
      match r.1 with
      | none => r.2
      | some bs => if d.2 < bs.length then sendLong e (startRecord e bs r.2) else g.2

/-! ### Sending to a host port (R345, R440, R442) -/

/-- The export header after the EtherType (R345). -/
def exportHeader (b e flags frameSeq captureId records : Nat) : Bytes :=
  [2] ++ le 1 b ++ le 1 e ++ le 1 flags ++ le 4 frameSeq ++ le 4 captureId ++ le 2 records ++ zeros 2

/-- A port takes an export frame of `n` bytes now: it is UP, the class has room and the policer has tokens (R440). -/
def portTakes (s : State) (p c : Nat) (bs : Bytes) : Bool :=
  (hport s p).state == 2 && classRoom s p c bs.length && policed s p c bs

/-- What the next frame of an export holds: record bytes, records that begin in it, and its flags (R345). A record in
flight goes on as it was read and re-encoded when its first frame was sent. -/
def frameContent (e : Nat) (s : State) : (Bytes × Nat × Nat) × State :=
  let x := export_ s e
  let room := x.mtu - 16
  if inFlight x then
    let rest := x.record.drop x.off
    if room < rest.length then ((rest.take room, 0, 3), modExport e (fun y => { y with off := x.off + room }) s)
    else
      let g := gather (room / 16 + 1) e (room - rest.length) (recordSent e s)
      ((rest ++ g.1.1, g.1.2, 2), g.2)
  else
    let g := gather (room / 16 + 1) e room s
    if g.1.2 ≠ 0 then ((g.1.1, g.1.2, 0), g.2)
    else if !mayRead e g.2 then (([], 0, 0), g.2)
    else
      let r := nextRecord e g.2
      match r.1 with
      | none => (([], 0, 0), r.2)
      | some bs =>
        if room < bs.length then
          ((bs.take room, 1, 1), modExport e (fun y => { y with off := room }) (startRecord e bs r.2))
        else (([], 0, 0), g.2)

/-- The capture_id of the capture that an export reads (R345). -/
def exportedId (s : State) (x : Export) : BitVec 32 :=
  match x.stale with
  | none => (basin s x.basin).captureId
  | some q => q.2

/-- Sends one frame to the host port, or waits for the port, its room or its tokens (R345, R440). -/
def sendPort (e : Nat) (s : State) : State :=
  let x := export_ s e
  let c := frameContent e s
  if c.1.1 = [] then c.2
  else
    let bs := ownHeader s x.target x.tclass ++ be 2 0x88B6 ++
      exportHeader x.basin e c.1.2.2 x.frameSeq.toNat (exportedId s x).toNat c.1.2.1 ++ c.1.1
    if portTakes c.2 x.target x.tclass bs then
      queueFrame x.target x.tclass true { data := bs } (modExport e (fun y => { y with frameSeq := y.frameSeq + 1 }) c.2)
    else s

/-! ### EXPORT_RECORD_SEND, RING_HOLD_EXPIRY -/

/-- The Weir of an export-compression job: one that was lost is replaced by an idle one (R336). -/
def jobWeir (e : Nat) (s : State) : Option Nat × State :=
  match weirOf s e with
  | some w => (some w, s)
  | none => match idleWeir s with
    | none => (none, s)
    | some w => (some w, modWeir w (fun x => { x with job := some e }) s)

/-- A compression segment that has been read to its end is settled (R347, R483). -/
def segmentRead (e : Nat) (s : State) : State :=
  let x := export_ s e
  if (tfind s.cap.exports e).isSome && x.compress && x.charged && exportHas s x && readingOrd s x != some x.chargedSeg then
    afterEnd (endSegment e s)
  else s

/-- A send of a compression job (R27, R467): what is in flight has left the Weir already and is sent without it; the
next record goes through the job's Weir. A line of the Weir that a mask corrupts fails its self-check (R399). -/
def throughJobWeir (e : Nat) (go : State → State) (s : State) : State :=
  if inFlight (export_ s e) then go s
  else
    let j := jobWeir e s
    if !weirReady e j.2 then j.2
    else match j.1 with
      | none => j.2
      | some w =>
        let k := sramWrite (0x4000 + w) j.2
        if k.1.1 ≠ 0 then fenceWeirOf k.1.2 w 1 (weirLineBad k.1.2 w k.2) else go k.2

/-- One send of an export through its DMA complex: a corrupted line there halts the channel (R348, R402). -/
def sendOnce (e : Nat) (s : State) : State :=
  let x := export_ s e
  let k := sramWrite (0x8000 + e % 2) s
  if k.1.1 ≠ 0 then exportDone k.1.2 e 2 (haltChannel k.1.2 (e % 2) e 1 k.2)
  else
    let s1 := if x.port then sendPort e k.2 else sendRing e k.2
    segmentRead e (exportMoved e s1)

/-- Records that the export has not sent stand in no retained segment any more (R346, R392). -/
def exportLost (s : State) (x : Export) : Bool :=
  let d := seqAhead (basin s x.basin).nextSeq x.nextSeq
  d != 0 && decide (d < 2 ^ 31) && (x.follow || x.nextSeq != x.endSeq) && (exportSeg s x).isNone

/-- A CAP_START has discarded the records that an export had still to send: they are skipped. Under follow 1 the export
goes on with the records of the new capture, under follow 0 it ends (R346, log 73). -/
def exportRenew (e : Nat) (q : BitVec 32) (s : State) : State :=
  let x := export_ s e
  if x.follow then
    let s1 := modExport e (fun y => { y with stale := none, nextSeq := 0 }) (exportSkip e q s)
    if x.compress then afterEnd (endSegment e s1) else s1
  else exportDone false e 0 (exportSkip e x.endSeq s)

/-- EXPORT_RECORD_SEND (R343 to R347): an export with a record to send, its DMA channel not halted, sends what fits in
the next buffer or frame. -/
def execExportRecordSend (exp : Nat) (s : State) : Host.Outcome State Fault Refusal :=
  let x := export_ s exp
  if (tfind s.cap.exports exp).isNone || !basinsRun s || channelHalted s (exp % 2) exp then .next s
  else if inFlight x then .next (sendOnce exp s)
  else if x.stale.isSome then .next (exportRenew exp ((x.stale.map Prod.fst).getD 0) s)
  else if exportLost s x then .next (segmentRead exp (exportMoved exp (nextRecord exp s).2))
  else if x.compress && x.charged && readingOrd s x == some x.chargedSeg && exportHas s x then
    .next (throughJobWeir exp (sendOnce exp) s)
  else if !x.compress && mayRead exp s then .next (sendOnce exp s)
  else .next (segmentRead exp s)

/-- RING_HOLD_EXPIRY (R344): the record in flight is dropped, no completion is written for it, RING_HEAD goes back to its
first descriptor, and RING_DROP rises. -/
def execRingHoldExpiry (exp : Nat) (s : State) : Host.Outcome State Fault Refusal :=
  let x := export_ s exp
  if (tfind s.cap.exports exp).isSome && x.holding && basinsRun s then
    let s1 := modRing x.target (fun r => { r with drop := r.drop + 1 }) (ringBack exp s)
    .next (segmentRead exp (exportMoved exp (modExport exp (fun y => { y with
      nextSeq := y.nextSeq + 1
      record := []
      off := 0
      holding := false }) s1)))
  else .next s

end Sys2Proof.Machine
end

