-- ==== Sys2Proof/Machine/HostNet.lean ====
section
/-!
DEFINITION. The host Ethernet ports (chapter 15): their commands, their link states, the frames they receive and send,
PAUSE and PFC, low-power idle and 1588 stamps.
-/
namespace Sys2Proof.Machine

/-- The host Ethernet island runs (R28, R466, R470). -/
def hostRuns (s : State) : Bool :=
  s.ctl.powered && !s.ctl.porLow && s.ctl.devState != .still && islandUp 4 s

/-! ### Payload forms -/

/-- A host port number and three reserved bytes (R450). -/
def portForm (p : Bytes) : Bool := len 4 p && decide (u8 p 0 ≤ 3) && zeroAt p 1 3

/-- HOST_PORT_CONFIG (R439, R451). -/
def hostConfigForm (p : Bytes) : Bool :=
  len 32 p && decide (u8 p 0 ≤ 3) && decide (u8 p 1 ≤ 1) && decide (u8 p 2 ≤ 1) && decide (u8 p 3 ≤ 1) &&
    decide (u8 p 4 ≤ 2) && decide (u8 p 5 ≤ 1) && decide (u16 p 6 ≤ 4094) &&
    decide (1 ≤ u32 p 20 ∧ u32 p 20 ≤ 10000) && decide (1 ≤ u32 p 24 ∧ u32 p 24 ≤ 10000) &&
    decide (1 ≤ u16 p 28 ∧ u16 p 28 ≤ 10000) && zeroAt p 30 2 && !(u8 p 2 == 1 && u8 p 3 == 0)

/-- HOST_CLASS_SET (R452). -/
def hostClassForm (p : Bytes) : Bool :=
  len 12 p && decide (u8 p 0 ≤ 3) && decide (u8 p 1 ≤ 7) && zeroAt p 2 2 && decide (u32 p 4 ≤ 100000) &&
    decide (1536 ≤ u32 p 8 ∧ u32 p 8 ≤ 1048576)

/-- HOST_PORT_SEND (R453). -/
def hostSendForm (p : Bytes) : Bool :=
  decide (u8 p 0 ≤ 3) && decide (u8 p 1 ≤ 7) && decide (u8 p 2 ≤ 1) && zeroAt p 3 1 &&
    decide (60 ≤ u16 p 6 ∧ u16 p 6 ≤ 232) && len (8 + u16 p 6) p

/-- ST_STATE_CONFLICT naming a host port (R438). -/
def hostConflict (p : Nat) (s : State) : Served := conflict 0x0D (hport s p).state p s

/-! ### Commands -/

def hostConfigSpec : CmdSpec := { op := 0x0D01, smb := false, priv := false, legal := legalStd, form := hostConfigForm }

/-- HOST_PORT_CONFIG (R450, R451): only while the port is DISABLED. -/
def hostConfigAct (r : Req) (s : State) : Served :=
  let p := r.payload
  let n := u8 p 0
  if (hport s n).state ≠ 0 then hostConflict n s
  else ok (modHPort n (fun x => { x with
    medium := u8 p 1
    an := u8 p 2 == 1
    lt := u8 p 3 == 1
    pauseMode := u8 p 4
    eee := u8 p 5 == 1
    vlan := u16 p 6
    src := slice p 8 6
    dst := slice p 14 6
    wdLimit := u32 p 20
    wdHold := u32 p 24
    lpiIdle := u16 p 28 }) s)

def execHostPortConfig (s : State) : Host.Outcome State Fault Refusal := .next (serve hostConfigSpec hostConfigAct s)

def hostStartSpec : CmdSpec := { op := 0x0D02, smb := false, priv := false, legal := legalStd, form := portForm }

/-- Auto-negotiation of a port begins, when it is enabled: what the port advertises in Clause 73 goes out (R436, R437). -/
def advertise (n : Nat) (s : State) : State :=
  let x := hport s n
  if x.an then emit (.anAdvertise n { medium := x.medium, rsFec := true, eee := x.eee, honoursPause := true, sendsPause := false }) s
  else s

/-- HOST_PORT_START (R438, R450): the lanes go to SERVICE and the port to TRAINING; a lane in TEST is named (R150). -/
def hostStartAct (r : Req) (s : State) : Served :=
  let n := u8 r.payload 0
  if (hport s n).state ≠ 0 then hostConflict n s
  else match inTest (hostLanes n) s with
    | some l => conflict 0x03 2 l s
    | none => ok (advertise n (modHPort n (fun x => { x with state := 1, anDone := false, trained := false })
        (toService (hostLanes n) s)))

def execHostPortStart (s : State) : Host.Outcome State Fault Refusal := .next (serve hostStartSpec hostStartAct s)

def hostStopSpec : CmdSpec := { op := 0x0D03, smb := false, priv := false, legal := legalStd, form := portForm }

/-- A host port goes to DISABLED: its queues are discarded and its lanes go to IDLE (R438). -/
def hostStop (n : Nat) (s : State) : State :=
  modHPort n (fun x => { x with
    state := 0
    anDone := false
    trained := false
    eeeNeg := false }) (toIdle (hostLanes n) (discardQueues n s))

/-- HOST_PORT_STOP (R438, R450). -/
def hostStopAct (r : Req) (s : State) : Served :=
  let n := u8 r.payload 0
  if (hport s n).state = 0 then hostConflict n s else ok (hostStop n s)

def execHostPortStop (s : State) : Host.Outcome State Fault Refusal := .next (serve hostStopSpec hostStopAct s)

def hostStatusSpec : CmdSpec := { op := 0x0D04, smb := true, priv := false, legal := readyToFault, form := portForm }

/-- Bits 3:0 of the flags of HOST_PORT_STATUS (R456): in TRAINING how far negotiation and training have come and which faults
show is a free value, since no event of the table tells (R438, log 83). -/
def linkFlags (x : HPort) (v : Nat) : Nat :=
  if x.state = 1 then
    let an := x.an && bit v 0
    let done := x.lt && bit v 1 && (an || !x.an)
    b2n an + 2 * b2n done + 4 * b2n (bit v 2) + 8 * b2n (bit v 3)
  else b2n x.anDone + 2 * b2n x.trained

/-- The 16 bytes of HOST_PORT_STATUS (R456); `v` is the free value of a port in TRAINING. -/
def hostStatusBytes (s : State) (n v : Nat) : Bytes :=
  let x := hport s n
  let l := lane s (0x80 + 4 * n)
  let flags := linkFlags x v + 16 * b2n l.lpiTx + 32 * b2n l.lpiRx + 64 * b2n x.eeeNeg
  let upS := if x.state = 2 then (s.time.cycles - x.upCycles) / 625000000 else 0
  le 1 n ++ le 1 x.state ++ le 1 flags ++ le 1 (maskOf 8 fun c => (hclass s n c).paused) ++
    le 1 (maskOf 8 fun c => (hclass s n c).hold) ++ zeros 3 ++ le 4 upS ++ le 4 x.linkDowns.toNat

/-- HOST_PORT_STATUS (R456). -/
def hostStatusAct (r : Req) (s : State) : Served :=
  let n := u8 r.payload 0
  let f := drawFree s
  if (hport s n).state = 1 then okWith (hostStatusBytes s n (Config.freeNat f.1)) f.2 else okWith (hostStatusBytes s n 0) s

def execHostPortStatus (s : State) : Host.Outcome State Fault Refusal := .next (serve hostStatusSpec hostStatusAct s)

/-- A port, a clear flag and two reserved bytes (R456). -/
def hostCountersForm (p : Bytes) : Bool := len 4 p && decide (u8 p 0 ≤ 3) && decide (u8 p 1 ≤ 1) && zeroAt p 2 2

def hostCountersSpec : CmdSpec :=
  { op := 0x0D05, smb := false, priv := false, legal := readyToFault, form := hostCountersForm }

/-- HOST_PORT_COUNTERS (R449, R456): returns the counters and clears them when asked (R189). -/
def hostCountersAct (r : Req) (s : State) : Served :=
  let n := u8 r.payload 0
  let body := (List.range 24).flatMap fun i => le 8 (tget 0 (hport s n).cnt i)
  okWith (le 1 n ++ zeros 7 ++ body)
    (if u8 r.payload 1 = 1 then modHPort n (fun x => { x with cnt := [] }) s else s)

def execHostPortCounters (s : State) : Host.Outcome State Fault Refusal :=
  .next (serve hostCountersSpec hostCountersAct s)

def hostClassSpec : CmdSpec := { op := 0x0D06, smb := false, priv := false, legal := legalStd, form := hostClassForm }

/-- HOST_CLASS_SET (R452): at once, with the tokens full. -/
def hostClassAct (r : Req) (s : State) : Served :=
  let p := r.payload
  ok (modHClass (u8 p 0) (u8 p 1) (fun k => { k with
    rate := u32 p 4
    burst := u32 p 8
    tokens := u32 p 8 * 5000
    since := s.time.cycles }) s)

def execHostClassSet (s : State) : Host.Outcome State Fault Refusal := .next (serve hostClassSpec hostClassAct s)

def hostSendSpec : CmdSpec := { op := 0x0D07, smb := false, priv := false, legal := legalStd, form := hostSendForm }

/-- HOST_PORT_SEND (R440, R453): needs the port UP and room in the class. -/
def hostSendAct (r : Req) (s : State) : Served :=
  let p := r.payload
  let n := u8 p 0
  let data := slice p 8 (u16 p 6)
  if (hport s n).state ≠ 2 then hostConflict n s
  else if !classRoom s n (u8 p 1) data.length then fail stNoResource s
  else ok (queueFrame n (u8 p 1) false { data, stamp := if u8 p 2 = 1 then some (u16 p 4) else none, cause := causeOf r } s)

def execHostPortSend (s : State) : Host.Outcome State Fault Refusal := .next (serve hostSendSpec hostSendAct s)

def hostRecvSpec : CmdSpec := { op := 0x0D08, smb := false, priv := false, legal := legalStd, form := portForm }

/-- HOST_PORT_RECV (R454): removes and returns the oldest frame. -/
def hostRecvAct (r : Req) (s : State) : Served :=
  let n := u8 r.payload 0
  match (hport s n).rx with
  | [] => okWith (le 1 n ++ zeros 15) s
  | f :: fs =>
    okWith (le 1 n ++ le 1 (b2n (!fs.isEmpty) + 2 * b2n f.ptp) ++ le 2 f.data.length ++ zeros 4 ++
      le 8 f.time.toNat ++ f.data) (modHPort n (fun x => { x with rx := fs }) s)

def execHostPortRecv (s : State) : Host.Outcome State Fault Refusal := .next (serve hostRecvSpec hostRecvAct s)

/-- A port, a reserved byte and a send_id (R455). -/
def ptpReadForm (p : Bytes) : Bool := len 4 p && decide (u8 p 0 ≤ 3) && zeroAt p 1 1

def ptpReadSpec : CmdSpec := { op := 0x0D09, smb := false, priv := false, legal := readyToFault, form := ptpReadForm }

/-- PTP_TX_TS_READ (R455): the newest entry with that send_id. -/
def ptpReadAct (r : Req) (s : State) : Served :=
  let n := u8 r.payload 0
  let id := u16 r.payload 2
  let a := match (hport s n).stamps.find? fun t => t.id == id with
    | none => le 1 0 ++ le 2 id ++ zeros 4 ++ zeros 8
    | some t => le 1 (if t.sent then 1 else 2) ++ le 2 id ++ zeros 4 ++ le 8 (if t.sent then t.time.toNat else 0)
  okWith (le 1 n ++ a) s

def execPtpTxTsRead (s : State) : Host.Outcome State Fault Refusal := .next (serve ptpReadSpec ptpReadAct s)

/-! ### Link states -/

/-- EV_HOST_LINK (R465). -/
def hostLinkEvent (p old new : Nat) (s : State) : State := raise 0x0D01 p (le 1 old ++ le 1 new) none s

/-- The transmit settings of R138 with pre-cursor and post-cursor, among which training chooses (log 14). -/
def legalTaps : List (Nat × Nat) :=
  ((List.range 17).flatMap fun a => (List.range 25).map fun b => (a, b)).filter fun t => decide (t.1 + t.2 ≤ 32)

/-- Link training has set the transmit coefficients of a host lane: free values among the legal settings (R141,
R158, log 14). -/
def trainLane (l : Nat) (s : State) : State :=
  let f := drawFree s
  let t := legalTaps.getD (Config.freeNat f.1 % legalTaps.length) (0, 0)
  modLane l (fun x => { x with tx := { x.tx with pre := t.1, post := t.2 } }) f.2

/-- HOST_LINK_UP (R438): the link-up condition holds on a port in TRAINING. The LPI modes of HOST_LANE_LPI take effect
(R149). -/
def execHostLinkUp (port : Nat) (eeeNegotiated : Bool) (s : State) : Host.Outcome State Fault Refusal :=
  if hostRuns s ∧ (hport s port).state = 1 then
    let lt := (hport s port).lt
    let s1 := if lt then (hostLanes port).foldl (fun x l => trainLane l x) s else s
    let lpi := tget (0, 0) s1.lane.lpiCfg port
    .next (hostLinkEvent port 1 2 (modHPort port (fun x => { x with
      state := 2
      anDone := x.an
      trained := lt
      eeeNeg := x.eee && eeeNegotiated
      lpiTx := lpi.1
      lpiRx := lpi.2
      upCycles := s1.time.cycles }) s1))
  else .next s

/-- A port that is UP loses its link-up condition (R438, R440, R449); auto-negotiation begins again. -/
def linkDown (port : Nat) (cond : LinkLoss) (s : State) : State :=
  let s1 := discardQueues port s
  let s2 := if cond.blockLock then countHost port 15 1 s1 else s1
  let s3 := (hostLanes port).foldl (fun x l => modLane l (fun y => { y with
    lpiTx := false
    lpiRx := false
    frozen := none
    hdrLeft := 0
    hdrBad := 0
    hdrBlocks := 0
    elecIdle := y.elecIdle && !y.lpiTx }) x) s2
  advertise port (hostLinkEvent port 2 1 (modHPort port (fun x => { x with
    state := 1
    anDone := false
    trained := false
    eeeNeg := false
    linkDowns := x.linkDowns + 1 }) s3))

/-- HOST_LINK_DOWN (R438). -/
def execHostLinkDown (port : Nat) (cond : LinkLoss) (s : State) : Host.Outcome State Fault Refusal :=
  if hostRuns s ∧ (hport s port).state = 2 then .next (linkDown port cond s) else .next s

/-- AN_RESTART (R438): a port in TRAINING begins auto-negotiation again. -/
def execAnRestart (port : Nat) (s : State) : Host.Outcome State Fault Refusal :=
  if hostRuns s ∧ (hport s port).state = 1 then
    .next (advertise port (modHPort port (fun x => { x with anDone := false, trained := false }) s))
  else .next s

/-! ### PAUSE and PFC -/

/-- The classes that a pause of class `c` concerns: all of them in mode 1 (R444, R446). -/
def pauseClasses (s : State) (p c : Nat) : List Nat := if (hport s p).pauseMode = 1 then List.range 8 else [c]

/-- The pause watchdog acts (R446): the pause ends and pause times are ignored during the hold. -/
def pauseWatchdog (inj : Bool) (p c : Nat) (s : State) : State :=
  let s1 := (pauseClasses s p c).foldl
    (fun x k => modHClass p k (fun y => { y with paused := false, hold := true }) x) s
  let s2 := countHost p 12 1 s1
  let code := if (hport s p).pauseMode = 1 then 0xFF else c
  wakeTx p (raiseWith inj 0x0D02 p (le 1 code ++ zeros 3 ++ le 4 (tget 0 (hport s2 p).cnt 12)) none s2)

/-- The class of the pause that the armed entry of detector 0x10 waits for, where that pause is in force (R509). -/
def pauseMet (p : Nat) (s : State) : Option Nat :=
  match injIndex 0x10 p s with
  | none => none
  | some i =>
    let c := (tget {} s.inj.entries i).param.toNat
    let hit := if (hport s p).pauseMode = 1 then c == 0xFF && (List.range 8).any fun k => (hclass s p k).paused
      else decide (c ≤ 7) && (hclass s p c).paused
    if hit then some c else none

/-- An armed pause-watchdog injection acts on the pause in force, or on the next one: a pause that was in force `before` is
not met again when its time is renewed (R509, 0x10). -/
def pauseInjection (before : Bool) (p : Nat) (s : State) : State :=
  match pauseMet p s with
  | none => s
  | some c =>
    if before then s
    else
      let o := occurrence 0x10 p s
      if o.1.isSome then pauseWatchdog true p c o.2 else o.2

/-- A pause time reaches one class (R445); a class in watchdog hold ignores it (R446). -/
def pauseClass (p c time : Nat) (s : State) : State :=
  if (hclass s p c).hold then s else modHClass p c (fun k => { k with paused := time != 0 }) s

/-- A PAUSE or PFC frame as pause_mode has it (R444, R445). -/
def pauseFrame (p : Nat) (bs : Bytes) (s : State) : State :=
  let op := beNat (slice bs 14 2)
  let mode := (hport s p).pauseMode
  let s1 :=
    if op = 1 ∧ mode = 1 then
      (List.range 8).foldl (fun x c => pauseClass p c (beNat (slice bs 16 2)) x) s
    else if op = 0x0101 ∧ mode = 2 then
      ((List.range 8).filter (bit (beNat (slice bs 16 2)))).foldl
        (fun x c => pauseClass p c (beNat (slice bs (18 + 2 * c) 2)) x) s
    else s
  wakeTx p (pauseInjection (pauseMet p s).isSome p s1)

/-- PAUSE_EXPIRY (R445): the pause time of a class is spent. -/
def execPauseExpiry (port cls : Nat) (s : State) : Host.Outcome State Fault Refusal :=
  .next (wakeTx port ((pauseClasses s port cls).foldl (fun x c =>
    if (hclass x port c).paused then modHClass port c (fun k => { k with paused := false }) x else x) s))

/-- PAUSE_WD_EXPIRY (R446): the class, or in mode 1 the port, has been paused longer than pause_wd_limit_ms. -/
def execPauseWdExpiry (port cls : Nat) (s : State) : Host.Outcome State Fault Refusal :=
  if (pauseClasses s port cls).any fun c => (hclass s port c).paused then .next (pauseWatchdog false port cls s)
  else .next s

/-- PAUSE_WD_HOLD_END (R446): pause times are honoured again. -/
def execPauseWdHoldEnd (port cls : Nat) (s : State) : Host.Outcome State Fault Refusal :=
  .next ((pauseClasses s port cls).foldl (fun x c =>
    if (hclass x port c).hold then modHClass port c (fun k => { k with hold := false }) x else x) s)

/-! ### Frames -/

/-- Where the EtherType stands behind at most one VLAN tag (R281, R443). -/
def etherAt (bs : Bytes) : Nat :=
  let t := beNat (slice bs 12 2)
  if t = 0x8100 ∨ t = 0x88A8 ∨ t = 0x9100 then 16 else 12

/-- Where the UDP header stands behind the IPv6 extension headers that begin with `next` at a byte (R281): none behind any
other header, or behind a fragment that is not the first. -/
def udpBehind (bs : Bytes) : Nat → Nat → Nat → Option Nat
  | 0, _, _ => none
  | fuel + 1, next, pos =>
    if next = 17 then some pos
    else if bs.length < pos + 8 then none
    else if next = 44 then
      if beNat (slice bs (pos + 2) 2) / 8 = 0 then udpBehind bs fuel (u8 bs pos) (pos + 8) else none
    else if next = 0 ∨ next = 43 ∨ next = 60 then udpBehind bs fuel (u8 bs pos) (pos + (u8 bs (pos + 1) + 1) * 8)
    else none

/-- A PTP message (R443): EtherType 0x88F7, or UDP to port 319 or 320 over IPv4 or IPv6. -/
def isPtp (bs : Bytes) : Bool :=
  let e := etherAt bs
  let t := beNat (slice bs e 2)
  let udp := fun at_ : Nat => beNat (slice bs (at_ + 2) 2) == 319 || beNat (slice bs (at_ + 2) 2) == 320
  if t = 0x88F7 then true
  else if t = 0x0800 then
    u8 bs (e + 11) == 17 && beNat (slice bs (e + 8) 2) % 0x2000 == 0 && udp (e + 2 + u8 bs (e + 2) % 16 * 4)
  else if t = 0x86DD then
    match udpBehind bs bs.length (u8 bs (e + 8)) (e + 42) with
    | none => false
    | some h => udp h
  else false

/-- A PAUSE or PFC frame for this port (R443). -/
def isPause (s : State) (p : Nat) (bs : Bytes) : Bool :=
  beNat (slice bs 12 2) == 0x8808 && (beNat (slice bs 14 2) == 1 || beNat (slice bs 14 2) == 0x0101) &&
    (slice bs 0 6 == [0x01, 0x80, 0xC2, 0x00, 0x00, 0x01] || slice bs 0 6 == portAddr s p)

/-- A frame for the CP receive queue, 64 KiB (R443); `room` says whether the receive buffer, whose size the spec does not
state, has room for it (log 76). -/
def cpQueue (p i : Nat) (ptp room : Bool) (bs : Bytes) (s : State) : State :=
  let q := (hport s p).rx
  if !room ∨ 216 < bs.length ∨ 65536 < (q.map fun f => f.data.length).sum + bs.length then countHost p 3 1 s
  else
    let s1 := countHost p i 1 (modHPort p (fun x => { x with rx := q ++ [{ data := bs, ptp, time := s.time.ns }] }) s)
    if q.isEmpty then raise 0x0D04 p (le 2 1) none s1 else s1

/-- The first row of R443 that applies to a received frame, given without its FCS. -/
def keepFrame (p : Nat) (bs : Bytes) (fcsOk room : Bool) (s : State) : State :=
  if !fcsOk ∨ 9600 < bs.length + 4 then countHost p 2 1 s
  else if isPause s p bs then pauseFrame p bs (countHost p 5 1 s)
  else if isPtp bs then cpQueue p 6 true room bs s
  else if slice bs 0 6 = portAddr s p then cpQueue p 7 false room bs s
  else countHost p 4 1 s

/-! ### Codewords and blocks (R436, R449, R509) -/

/-- One codeword of a port (R509, 0x09). -/
def hostCodeword (p : Nat) (s : State) : State :=
  let f := occurrence 0x09 p s
  match f.1 with
  | none => f.2
  | some v => countHost p (if v = 0 then 14 else 13) 1 f.2

/-- One block of a host lane (R509, 0x0A): whether block lock is lost, and the state. Clause 82 loses it at 65 invalid
headers among 1,024 blocks; the windows are counted from an invalid header on (log 82). -/
def laneBlock (l : Nat) (s : State) : Bool × State :=
  let z := lane s l
  let o := if z.hdrLeft = 0 then occurrence 0x0A l s else (none, s)
  let left := match o.1 with
    | none => z.hdrLeft
    | some v => v.toNat
  if left = 0 ∧ z.hdrBad = 0 then (false, o.2)
  else
    let bad := z.hdrBad + b2n (left != 0)
    let blocks := z.hdrBlocks + 1
    let over_ := decide (65 ≤ bad) || blocks == 1024
    (decide (65 ≤ bad), modLane l (fun y => { y with
      hdrLeft := left - 1
      hdrBad := if over_ then 0 else bad
      hdrBlocks := if over_ then 0 else blocks }) o.2)

/-- `words` codewords of a port and `blocks` blocks of each of its lanes pass (R436, R509): whether block lock is lost, and
the state. -/
def lineBlocks (p words blocks : Nat) (s : State) : Bool × State :=
  let lane := (hostLanes p).flatMap fun l => List.replicate blocks l
  lane.foldl (fun x l => (x.1 || (laneBlock l x.2).1, (laneBlock l x.2).2))
    (false, (List.range words).foldl (fun x _ => hostCodeword p x) s)

/-- The loss of block lock (R438). -/
def blockLost (p : Nat) (s : State) : State :=
  linkDown p { blockLock := true, localFault := false, remoteFault := false } s

/-- The blocks of a frame, given without its FCS: with its preamble, its FCS and the gap behind it (Clause 82). -/
def frameBlocks (bs : Bytes) : Nat := (bs.length + 31) / 8

/-- A cycle of CK_TS at a port that is UP: a codeword of 80 blocks passes in 32 cycles, and 5 blocks of each lane in 8
(R436, R509, log 82). -/
def hostCycle (p : Nat) (s : State) : State :=
  if hostRuns s ∧ (hport s p).state = 2 then
    let c := s.time.cycles
    let r := lineBlocks p (b2n (c % 32 == 0)) (c * 5 / 8 - (c - 1) * 5 / 8) s
    if r.1 then blockLost p r.2 else r.2
  else s

/-- HOST_FRAME_RX (R443): a frame ends receive low-power idle (R447), and its codewords and blocks pass (R509). `data` is
the frame without its FCS; the counts are of the codewords that carried it. -/
def execHostFrameRx (port : Nat) (data : Bytes) (check : RxCheck) (fecCorrected fecUncorrectable : Nat) (s : State) :
    Host.Outcome State Fault Refusal :=
  if hostRuns s ∧ (hport s port).state = 2 then
    let i := lineBlocks port ((frameBlocks data + 79) / 80) ((frameBlocks data + 3) / 4) (wakeRx port s)
    if i.1 then .next (blockLost port i.2)
    else
      let s1 := countHost port 14 fecUncorrectable (countHost port 13 fecCorrected i.2)
      let o := occurrence 0x08 port (countHost port 1 (data.length + 4) (countHost port 0 1 s1))
      .next (keepFrame port data (check.fcsOk && o.1.isNone) check.room o.2)
  else .next s

/-- HOST_FRAME_TX (R440): the port sends the next whole frame. -/
def execHostFrameTx (port : Nat) (s : State) : Host.Outcome State Fault Refusal :=
  if hostRuns s ∧ (hport s port).state = 2 then
    match readyClass s port with
    | none => .next s
    | some c =>
      match (hclass s port c).queue with
      | [] => .next s
      | f :: fs =>
        let s1 := wakeTx port s
        let s2 := emit (.hostFrame port f.data) (modHClass port c (fun k => { k with queue := fs }) s1)
        let s3 := countHost port 9 (f.data.length + 4) (countHost port 8 1 s2)
        match f.stamp with
        | none => .next s3
        | some id => .next (enterStamp port id true f.cause s3)
  else .next s

/-- A host lane's receiver follows its partner into low-power idle (R149, R447): in deep sleep its CDR and an adapting
equaliser freeze. -/
def lpiReceive (deep : Bool) (l : Nat) (s : State) : State :=
  if (lane s l).lpiRx then s
  else if deep then
    let a := adapted s
    modLane l (fun z => { z with lpiRx := true, frozen := some a.1 }) a.2
  else modLane l (fun z => { z with lpiRx := true }) s

/-- The refresh of a transmit lane in deep sleep: it signals while the refresh lasts and is quiet between two (R149). -/
def refreshTx (on : Bool) (l : Nat) (s : State) : State :=
  if (lane s l).lpiTx then modLane l (fun z => { z with elecIdle := !on }) s else s

/-- The refresh of the partner's deep sleep: the receiver is frozen in the quiet between two of them only (R149). -/
def refreshRx (on : Bool) (l : Nat) (s : State) : State :=
  if !(lane s l).lpiRx then s
  else if on then modLane l (fun z => { z with frozen := none }) s
  else if (lane s l).frozen.isSome then s
  else
    let a := adapted s
    modLane l (fun z => { z with frozen := some a.1 }) a.2

/-- LPI_IDLE_EXPIRY (R149, R447): every class was empty or paused for tx_lpi_idle_us, and the port enters transmit
low-power idle, its lanes quiet in deep sleep; or the partner goes to sleep or wakes, and the receive lanes follow; or a
refresh of deep sleep begins or ends (log 59). -/
def execLpiIdleExpiry (moment : LpiMoment) (s : State) : Host.Outcome State Fault Refusal :=
  let port := moment.port
  let x := hport s port
  if !hostRuns s ∨ x.state ≠ 2 ∨ !x.eeeNeg then .next s
  else match moment.event with
    | .idle =>
      if x.lpiTx ≠ 0 ∧ (readyClass s port).isNone ∧ !(lane s (0x80 + 4 * port)).lpiTx then
        .next (emit (.hostLpi port) ((hostLanes port).foldl (fun y l => modLane l (fun z =>
          { z with lpiTx := true, elecIdle := z.elecIdle || x.lpiTx == 2 }) y) s))
      else .next s
    | .partnerSleeps => .next (if x.lpiRx = 0 then s else (hostLanes port).foldl (fun y l => lpiReceive (x.lpiRx == 2) l y) s)
    | .partnerWakes => .next (wakeRx port s)
    | .refresh on => .next (if x.lpiTx = 2 then (hostLanes port).foldl (fun y l => refreshTx on l y) s else s)
    | .partnerRefresh on => .next (if x.lpiRx = 2 then (hostLanes port).foldl (fun y l => refreshRx on l y) s else s)

end Sys2Proof.Machine
end

