-- ==== Sys2Proof/Machine/Lanes.lean ====
section
/-!
DEFINITION. The serial lanes, their tests, the pins of the line ports and tap inputs, and the optics (chapter 5).
-/
namespace Sys2Proof.Machine

/-! ### Equalisation -/

/-- LANE_TX_EQ (R136, R138). -/
def txEqForm (p : Bytes) : Bool :=
  len 8 p && canSend (u8 p 0) && decide (u8 p 1 ≤ 16) && decide (u8 p 2 ≤ 24) && decide (u8 p 1 + u8 p 2 ≤ 32) &&
    decide (u8 p 3 ≤ 15) && decide (u8 p 4 ≤ 1) && zeroAt p 5 3

def txEqSpec : CmdSpec := { op := 0x0301, smb := false, priv := false, legal := legalStd, form := txEqForm }

/-- LANE_TX_EQ (R140, R141): from the next training lead on a burst lane, at once on a host lane whose port does not
train. -/
def txEqAct (r : Req) (s : State) : Served :=
  let p := r.payload
  let l := u8 p 0
  let e : TxEq := { pre := u8 p 1, post := u8 p 2, amp := u8 p 3, invert := u8 p 4 == 1 }
  if isHostLane l then
    let h := (l - 0x80) / 4
    if (hport s h).lt then conflict 0x0D (hport s h).state h s
    else ok (modLane l (fun x => { x with tx := e }) s)
  else ok (modLane l (fun x => { x with pendTx := some e }) s)

def execLaneTxEq (s : State) : Host.Outcome State Fault Refusal := .next (serve txEqSpec txEqAct s)

/-- The five DFE taps of a payload (R142). -/
def dfeOf (p : Bytes) (o : Nat) : List Int := (List.range 5).map fun i => signed 8 (u8 p (o + i))

/-- The CTLE code and the taps of an adapting receiver: those frozen in deep sleep, or those that adaptation has reached
(R142, R149). -/
def heldEq (l : Nat) (s : State) : (Nat × List Int) × State := match (lane s l).frozen with
  | some v => (v, s)
  | none => adapted s

/-- LANE_RX_EQ (R136, R142). -/
def rxEqForm (p : Bytes) : Bool :=
  len 12 p && canReceive (u8 p 0) && decide (u8 p 1 ≤ 2) && decide (u8 p 2 ≤ 15) &&
    (dfeOf p 3).all (fun h => decide (-32 ≤ h ∧ h ≤ 31)) && decide (u8 p 8 ≤ 1) && zeroAt p 9 3 &&
    (u8 p 1 == 2 || (u8 p 2 == 0 && zeroAt p 3 5)) &&
    (!tapLanes.contains (u8 p 0) || (u8 p 1 == 2 && zeroAt p 3 5))

def rxEqSpec : CmdSpec := { op := 0x0302, smb := false, priv := false, legal := legalStd, form := rxEqForm }

/-- LANE_RX_EQ (R142): mode 1 holds the values that adaptation has reached, which in the quiet of deep sleep are the frozen
ones (R149). In manual mode nothing is adapted, and mode 1 keeps the manual values
(DESIGN CHOICE, log 80). -/
def rxEqAct (r : Req) (s : State) : Served :=
  let p := r.payload
  let l := u8 p 0
  let inv := u8 p 8 == 1
  if u8 p 1 = 2 then
    ok (modLane l (fun x => { x with rxMode := 2, ctle := u8 p 2, dfe := dfeOf p 3, invertRx := inv }) s)
  else if u8 p 1 = 1 ∧ (lane s l).rxMode = 0 then
    let a := heldEq l s
    ok (modLane l (fun x => { x with rxMode := 1, ctle := a.1.1, dfe := a.1.2, invertRx := inv }) a.2)
  else ok (modLane l (fun x => { x with rxMode := u8 p 1, invertRx := inv }) s)

def execLaneRxEq (s : State) : Host.Outcome State Fault Refusal := .next (serve rxEqSpec rxEqAct s)

/-! ### Port signals -/

/-- PORT_SIGNALS (R146). -/
def signalsForm (p : Bytes) : Bool :=
  len 16 p && decide (u8 p 1 ≤ 1) && decide (u8 p 2 ≤ 1) && decide (u8 p 3 ≤ 1) &&
    ((lineRx.contains (u8 p 0) && u8 p 3 == 0 && decide (4 ≤ u16 p 4 ∧ u16 p 4 ≤ 160) && decide (u16 p 6 ≤ 80) &&
        decide (u16 p 8 ≤ 40) && decide (2 ≤ u16 p 10 ∧ u16 p 10 ≤ 40) && zeroAt p 12 4 &&
        decide (u16 p 6 ≤ u16 p 4)) ||
      (tapLanes.contains (u8 p 0) && u8 p 1 == 0 && zeroAt p 4 8 && decide (u16 p 12 ≤ 160) &&
        decide (2 ≤ u16 p 14 ∧ u16 p 14 ≤ 40)))

def signalsSpec : CmdSpec := { op := 0x0303, smb := false, priv := false, legal := legalStd, form := signalsForm }

/-- PORT_SIGNALS (R146): a polarity waits while its output is active, and after the end of a burst the times of the next
one are those that were in force at that end. A change of sd_polarity is no edge of SD_T (DESIGN CHOICE,
log 80), and one that makes SD active in HUSH is no wake source (DESIGN CHOICE, log 84). -/
def signalsAct (r : Req) (s : State) : Served :=
  let p := r.payload
  let n := u8 p 0
  let tx := u8 p 1 == 1
  let bm := u8 p 3 == 1
  if lineRx.contains n then
    let held := match (linePort s n).lastEnd with
      | some e => decide (e ≤ lineNow s (n / 16))
      | none => false
    ok (modLinePort n (fun x => { x with
      latched := if held && x.latched.isNone then some x.times else x.latched
      txPol := if x.txEn then x.txPol else tx
      heldTxPol := if x.txEn then some tx else none
      sdPol := u8 p 2 == 1
      times := { trainLead := u16 p 4, tonLead := u16 p 6, toffLag := u16 p 8, minLow := u16 p 10 } }) s)
  else
    ok (modLinePort n (fun x => { x with
      sdPol := u8 p 2 == 1
      bmPol := if x.bmRst then x.bmPol else bm
      heldBmPol := if x.bmRst then some bm else none
      bmDelay := u16 p 12
      bmWidth := u16 p 14 }) s)

def execPortSignals (s : State) : Host.Outcome State Fault Refusal := .next (serve signalsSpec signalsAct s)

/-! ### Low-power idle -/

/-- HOST_LANE_LPI (R149). -/
def laneLpiForm (p : Bytes) : Bool :=
  len 4 p && decide (u8 p 0 ≤ 3) && decide (u8 p 1 ≤ 2) && decide (u8 p 2 ≤ 2) && zeroAt p 3 1

def laneLpiSpec : CmdSpec := { op := 0x0304, smb := false, priv := false, legal := legalStd, form := laneLpiForm }

/-- HOST_LANE_LPI (R149): the modes of the port's next link-up. -/
def laneLpiAct (r : Req) (s : State) : Served :=
  let p := r.payload
  ok { s with lane := { s.lane with lpiCfg := tset s.lane.lpiCfg (u8 p 0) (u8 p 1, u8 p 2) } }

def execHostLaneLpi (s : State) : Host.Outcome State Fault Refusal := .next (serve laneLpiSpec laneLpiAct s)

/-! ### Tests -/

/-- LANE_TEST (R151, R153, R529): the ranges of the payload and the combinations that its fields and the lane's directions
allow, whatever the action. -/
def laneTestForm (p : Bytes) : Bool :=
  let l := u8 p 0
  let gen := u8 p 2
  let inject := u8 p 5
  len 24 p && isLane l && decide (u8 p 1 ≤ 2) && decide (gen ≤ 7) && decide (u8 p 3 ≤ 7) && u8 p 3 != 6 &&
    decide (u8 p 4 ≤ 2) && decide (inject ≤ 2) && decide (u8 p 6 ≤ 1) && zeroAt p 7 1 && zeroAt p 12 4 &&
    (if inject = 2 then decide (1024 ≤ u32 p 8) else u32 p 8 == 0) &&
    (gen == 0 || canSend l) && (u8 p 3 == 0 || canReceive l) && (u8 p 6 == 0 || lineTx.contains l) &&
    (u8 p 4 != 2 || isHostLane l) && (u8 p 4 != 1 || !tapLanes.contains l) &&
    !(inject != 0 && gen == 0)

/-- READY and RUN (R151). -/
def legalTest : DevState → Bool
  | .ready | .run => true
  | .boot | .hush | .still | .update | .fault => false

def laneTestSpec : CmdSpec := { op := 0x0305, smb := false, priv := false, legal := legalTest, form := laneTestForm }

/-- The line port of a line lane. -/
def portOfLane (l : Nat) : Nat := l % 0x40

/-- The lanes that a test or its end concerns: both lanes of a line port for a near-end loopback (R153). -/
def testLanes (near : Bool) (l : Nat) : List Nat :=
  if near ∧ (lineRx.contains l ∨ lineTx.contains l) then [portOfLane l, portOfLane l + 0x40] else [l]

/-- A lane leaves TEST (R151, R153). One that is not in TEST stays as it is (DESIGN CHOICE, log 85). -/
def endTest (l : Nat) (s : State) : State :=
  if (lane s l).state = 2 then
    modLane l (fun x => { x with
      state := 0
      gen := 0
      chk := 0
      loopback := 0
      inject := 0
      interval := 0
      injLeft := 0
      txForce := false
      chkLock := false
      elecIdle := true }) s
  else s

/-- Brings TX_EN of a lane's line port to what R143 allows. -/
def settleLane (l : Nat) (s : State) : State :=
  if lineRx.contains (portOfLane l) ∧ !isHostLane l then settleTx (portOfLane l) s else s

/-- A lane enters TEST with its PRBS counters reset (R151); its transmitter is quiet in a near-end loopback and without
a pattern (R150, R153). The other lane of a near-end loopback keeps the pattern and the errors that it sends. -/
def beginTest (loop : Nat) (l : Nat) (s : State) : State :=
  modLane l (fun x => { x with
    state := 2
    loopback := loop
    prbsBits := 0
    prbsErrors := 0
    prbsLosses := 0
    chkLock := false
    chkRun := 0
    elecIdle := loop != 2 }) s

/-- Bits before the first inserted error (R151): the next bit, or a whole inject_interval. -/
def firstError (inject interval : Nat) : Nat := match inject with
  | 0 => 0
  | 1 => 1
  | _ => interval

/-- A bit of a lane's generator and the generator's next state (R152): a polynomial, the square wave or the user pattern, by
the number of the bit. -/
def patternBit (gen : Nat) (user : BitVec 64) (n st : Nat) : Bool × Nat :=
  if gen = 6 then (decide (n % 16 < 8), st)
  else if gen = 7 then (user.getLsbD (n % 64), st)
  else
    let r := prbsBit gen st
    (r.1 == 1, r.2)

/-- Bits of a lane's generator from the bit with number `n` on. -/
def patternBits (gen : Nat) (user : BitVec 64) : Nat → Nat → Nat → List Bool
  | 0, _, _ => []
  | k + 1, n, st =>
    let r := patternBit gen user n st
    r.1 :: patternBits gen user k (n + 1) r.2

/-- The errors that a lane inserts into the pattern that leaves the device (R151, R153). -/
def startErrors (l : Nat) (s : State) : State :=
  let x := lane s l
  if x.inject = 0 ∨ x.gen = 0 ∨ x.loopback ≠ 0 then s else emit (.testErrors l x.inject x.interval) s

/-- A lane in TEST sends what its payload asks for (R151, R152, R153): a pattern, of a polynomial from a state that is a
free value (log 68); in a far-end loopback, in place of it, the data it recovers; in a near-end loopback nothing, because
the transmit balls stay in electrical idle. The lane's transmit polarity inverts the pattern (R141). -/
def startPattern (l : Nat) (s : State) : State :=
  let x := lane s l
  let f := drawFree s
  let bits := patternBits x.gen x.user 64 0 (1 + Config.freeNat f.1 % (2 ^ (prbsTaps x.gen).1 - 1))
  if x.loopback = 2 then emit (.farLoop l) s
  else if x.gen = 0 ∨ x.loopback ≠ 0 then s
  else startErrors l (emit (.testPattern l x.gen (bits.map fun b => b != x.tx.invert)) f.2)

/-- LANE_TEST (R151 to R154). A start without loopback on one lane of a running near-end loopback ends the loopback on both,
and the other lane stays in TEST in electrical idle (DESIGN CHOICE, log 80). A start of a near-end loopback on one lane of a
line port resets counters and checker lock of both, and a host lane leaves SERVICE for TEST, and TEST for IDLE, while its
port keeps its state (DESIGN CHOICE, log 83). -/
def laneTestAct (r : Req) (s : State) : Served :=
  let p := r.payload
  let l := u8 p 0
  let x := lane s l
  let running := s.ctl.devState == .run
  let near := x.loopback == 1
  if running ∧ x.state = 1 then conflict 0x03 1 l s
  else match (if u8 p 1 = 1 then testLanes (u8 p 4 == 1) l else []).find? fun k => running && (lane s k).state == 1 with
  | some k => conflict 0x03 1 k s
  | none =>
    if u8 p 1 = 2 ∧ x.state ≠ 2 then conflict 0x03 x.state l s
    else if u8 p 6 = 1 ∧ !(optics s (portOfLane l)).laser then conflict 0x03 0 (0x100 + portOfLane l) s
    else if u8 p 1 = 0 then ok (settleLane l ((testLanes near l).foldl (fun y k => endTest k y) s))
    else if u8 p 1 = 2 then
      ok (startErrors l (modLane l (fun y => { y with
        inject := u8 p 5
        interval := u32 p 8
        injLeft := firstError (u8 p 5) (u32 p 8) }) s))
    else
      let s0 := if near ∧ u8 p 4 ≠ 1 then
          (testLanes true l).foldl (fun y k => modLane k (fun z => { z with loopback := 0 }) y) s
        else s
      let s1 := (testLanes (u8 p 4 == 1) l).foldl (fun y k => beginTest (u8 p 4) k y) s0
      ok (settleLane l (startPattern l (modLane l (fun y => { y with
        gen := u8 p 2
        chk := u8 p 3
        inject := u8 p 5
        interval := u32 p 8
        injLeft := firstError (u8 p 5) (u32 p 8)
        user := BitVec.ofNat 64 (u64 p 16)
        txForce := u8 p 6 == 1
        elecIdle := u8 p 4 == 1 || (u8 p 4 == 0 && u8 p 2 == 0) }) s1)))

def execLaneTest (s : State) : Host.Outcome State Fault Refusal := .next (serve laneTestSpec laneTestAct s)

/-! ### Lane status -/

/-- A lane ID and three reserved bytes (R158). -/
def laneStatusForm (p : Bytes) : Bool := len 4 p && isLane (u8 p 0) && zeroAt p 1 3

def laneStatusSpec : CmdSpec :=
  { op := 0x0306, smb := true, priv := false, legal := readyToFault, form := laneStatusForm }

/-- The SD ball of a lane's port and the signal after polarity (R158). -/
def sdBits (s : State) (l : Nat) : Nat :=
  if lineRx.contains l ∨ tapLanes.contains l then
    2 * b2n (linePort s l).sdBall + 4 * b2n (sdActive s l)
  else 0

/-- The 48 bytes of LANE_STATUS (R158). CTLE and DFE under adaptation, and the eye margin under lock, are free values
(log 14). The SD flags of a line transmit lane, and the fields of a direction that a lane lacks, read 0 (DESIGN CHOICE, log
83). -/
def laneStatusAct (r : Req) (s : State) : Served :=
  let l := u8 r.payload 0
  let x := lane s l
  let a := if canReceive l ∧ x.rxMode = 0 then heldEq l s
    else ((x.ctle, x.dfe), s)
  let m := if canReceive l ∧ x.cdrLock then
      ((Config.freeNat (drawFree a.2).1) % 1001, (drawFree a.2).2)
    else (0, a.2)
  let flags := b2n x.cdrLock + sdBits s l + 8 * b2n x.chkLock + 16 * b2n (canSend l && x.elecIdle) +
    32 * b2n x.lpiTx + 64 * b2n x.lpiRx
  let eq := if canSend l then le 1 x.tx.pre ++ le 1 x.tx.post ++ le 1 x.tx.amp else zeros 3
  let rx := if canReceive l then le 1 x.rxMode ++ le 1 a.1.1 ++ a.1.2.flatMap (fun h => le 1 (unsigned 8 h))
    else zeros 7
  okWith (le 1 l ++ le 1 x.state ++ le 1 flags ++ rx ++ eq ++ le 1 (if canSend l then x.gen else x.chk) ++ zeros 2 ++
    le 8 x.prbsBits ++ le 8 x.prbsErrors ++ le 4 x.cdrLosses ++ le 4 x.merged ++ le 4 x.prbsLosses ++ le 2 m.1 ++
    zeros 2) m.2

def execLaneStatus (s : State) : Host.Outcome State Fault Refusal := .next (serve laneStatusSpec laneStatusAct s)

/-! ### Optics -/

/-- OPTICS_CONFIG (R156). -/
def opticsConfigForm (p : Bytes) : Bool :=
  len 8 p && lineRx.contains (u8 p 0) && decide (u8 p 1 ≤ 1) && decide (u8 p 2 ≤ 1) && decide (u8 p 3 ≤ 2) &&
    decide (100 ≤ u16 p 4 ∧ u16 p 4 ≤ 10000) && zeroAt p 6 2

def opticsConfigSpec : CmdSpec :=
  { op := 0x0307, smb := false, priv := false, legal := legalStd, form := opticsConfigForm }

/-- The layout in force on a port: as configured, or as its last poll found it (R156). -/
def layoutOf (s : State) (n : Nat) : Nat := if (optics s n).layoutCfg = 0 then (optics s n).layout else (optics s n).layoutCfg

/-- The master selects a bank and page before an access to a CMIS module (R156). -/
def selectPage (n bank page : Nat) (s : State) : State :=
  if layoutOf s n = 2 then emit (.opticsSelect n bank page) s else s

/-- The transmit-disable control of a module follows the laser enable (R155): bit 6 of byte 110 at 0x51 in SFF-8472, the bit
of every lane in byte 130 of page 10h in CMIS. A module of no known layout has none. -/
def writeDisable (n : Nat) (s : State) : State :=
  let off := !(optics s n).laser
  if layoutOf s n = 1 then emit (.opticsDisable n 0x51 110 0x40 off) s
  else if layoutOf s n = 2 then emit (.opticsDisable n 0x50 130 0xFF off) (selectPage n 0 0x10 s)
  else s

/-- OPTICS_CONFIG (R155, R156): the module's transmit disable follows the laser enable. TX_EN follows it too: in the midst
of a burst, its lead or its lag, TX_EN is asserted at once (DESIGN CHOICE, log 84); before them, at the lead (R143). -/
def opticsConfigAct (r : Req) (s : State) : Served :=
  let p := r.payload
  let n := u8 p 0
  ok (settleTx n (writeDisable n (modOptics n (fun x => { x with
    laser := u8 p 1 == 1
    speed := u8 p 2
    layoutCfg := u8 p 3
    pollMs := u16 p 4 }) s)))

def execOpticsConfig (s : State) : Host.Outcome State Fault Refusal := .next (serve opticsConfigSpec opticsConfigAct s)

/-- A port code and three reserved bytes (R156). -/
def opticsStatusForm (p : Bytes) : Bool := len 4 p && lineRx.contains (u8 p 0) && zeroAt p 1 3

def opticsStatusSpec : CmdSpec :=
  { op := 0x0308, smb := true, priv := false, legal := readyToFault, form := opticsStatusForm }

/-- OPTICS_STATUS (R156): from the last poll. -/
def opticsStatusAct (r : Req) (s : State) : Served :=
  let x := optics s (u8 r.payload 0)
  okWith (le 1 x.layout ++ le 1 x.alarms ++ le 2 x.temp ++ le 2 x.vcc ++ le 2 x.bias ++ le 2 x.txPower ++
    le 2 x.rxPower ++ le 4 (msSince s x.readAt) ++ le 4 x.failures.toNat) s

def execOpticsStatus (s : State) : Host.Outcome State Fault Refusal := .next (serve opticsStatusSpec opticsStatusAct s)

/-- OPTICS_ACCESS (R157). -/
def opticsAccessForm (p : Bytes) : Bool :=
  lineRx.contains (u8 p 0) && decide (u8 p 1 ≤ 1) && (u8 p 2 == 0x50 || u8 p 2 == 0x51) &&
    decide (1 ≤ u8 p 6 ∧ u8 p 6 ≤ 128) && decide (u8 p 5 + u8 p 6 ≤ 256) && zeroAt p 7 1 &&
    len (8 + (if u8 p 1 = 1 then u8 p 6 else 0)) p

def opticsAccessSpec : CmdSpec :=
  { op := 0x0309, smb := false, priv := false, legal := legalStd, form := opticsAccessForm }

/-- A write reaches the transmit-disable byte of R155: byte 110 at 0x51 in SFF-8472; byte 130 of page 10h in CMIS, at either
device address (DESIGN CHOICE, log 84); both where no layout is known. -/
def hitsDisable (s : State) (p : Bytes) : Bool :=
  let k := layoutOf s (u8 p 0)
  let covers := fun b : Nat => decide (u8 p 5 ≤ b ∧ b < u8 p 5 + u8 p 6)
  let sff := u8 p 2 == 0x51 && covers 110
  let cmis := u8 p 4 == 0x10 && covers 130
  if k = 1 then sff else if k = 2 then cmis else sff || cmis

/-- EV_OPTICS_FAULT, again only after a poll has succeeded (R156). -/
def opticsFault (n : Nat) (cmd : Option Cause) (s : State) : State :=
  if (optics s n).faulted then s
  else raise 0x0302 n [] cmd (modOptics n (fun x => { x with faulted := true }) s)

/-- OPTICS_ACCESS (R156, R157): `answer` is what the module answers, none after three unacknowledged attempts, which raise
EV_OPTICS_FAULT. Bank and page belong to CMIS only, and are selected before the access. -/
def opticsAccessAct (answer : Option Bytes) (r : Req) (s : State) : Served :=
  let p := r.payload
  let n := u8 p 0
  if layoutOf s n ≠ 2 ∧ !zeroAt p 3 2 then fail stBadParam s
  else if u8 p 1 = 1 ∧ hitsDisable s p then fail stDenied s
  else match answer with
    | none => fail stTimeout (opticsFault n (causeOf r) (modOptics n (fun x => { x with nacks := x.nacks + 3 }) s))
    | some bs =>
      let s1 := selectPage n (u8 p 3) (u8 p 4) s
      if u8 p 1 = 1 then ok (emit (.opticsWrite n (u8 p 2) (u8 p 3) (u8 p 4) (u8 p 5) (p.drop 8)) s1)
      else okWith (fit (u8 p 6) bs) s1

def execOpticsAccess (answer : Option Bytes) (s : State) : Host.Outcome State Fault Refusal :=
  .next (serve opticsAccessSpec (opticsAccessAct answer) s)

/-- The layout that the identifier of a module tells: 1 SFF-8472, 2 CMIS, 3 for any other (R156). -/
def layoutOfIdent (n : Nat) : Nat := if n = 1 ∨ n = 2 then n else 3

/-- OPTICS_POLL (R155, R156): the control is rewritten and the diagnostics are read; none when the module left three
attempts unacknowledged. The pages of the CMIS readings are PRESUMED (log 67). -/
def execOpticsPoll (port : Nat) (reading : Option OpticsReading) (s : State) : Host.Outcome State Fault Refusal :=
  if !lineRx.contains port ∨ !cpRuns s then .next s
  else
    match reading with
    | none => .next (opticsFault port none (modOptics port (fun x => { x with
        layout := 0
        failures := x.failures + 1
        nacks := x.nacks + 3 }) s))
    | some v =>
      let s1 := modOptics port (fun x => { x with
        layout := if x.layoutCfg = 0 then layoutOfIdent v.ident else x.layoutCfg
        alarms := v.alarms % 64
        temp := v.temp
        vcc := v.vcc
        bias := v.bias
        txPower := v.txPower
        rxPower := v.rxPower
        readAt := s.time.cycles
        nacks := 0
        faulted := false }) s
      let s2 := selectPage port 0 0x11 (writeDisable port s1)
      if v.alarms % 64 ≠ (optics s port).alarms then
        .next (raise 0x0303 port (le 1 port ++ le 1 (v.alarms % 64)) none s2)
      else .next s2

/-- OPTICS_BUS_STUCK (R156): the bus was held low for more than 25 ms, and nine clocks free it. It is no failed poll for
poll_failures, and the layout stays that of the last poll (DESIGN CHOICE, log 83). -/
def execOpticsBusStuck (port : Nat) (s : State) : Host.Outcome State Fault Refusal :=
  if !lineRx.contains port ∨ !cpRuns s then .next s else .next (opticsFault port none (emit (.opticsClocks port) s))

/-! ### Signals from outside -/

/-- CDR_LOCK_CHANGE (R149, R158, R159): every loss is counted, and a tap lane's lock, which follows each burst, raises no
event. A CDR frozen in deep sleep keeps what it had. -/
def execCdrLockChange (lane : Nat) (locked : Bool) (s : State) : Host.Outcome State Fault Refusal :=
  let x := Machine.lane s lane
  if !canReceive lane ∨ x.cdrLock = locked ∨ s.ctl.devState = .still ∨ x.frozen.isSome then .next s
  else
    let s1 := modLane lane (fun y => { y with
      cdrLock := locked
      cdrLosses := if locked then y.cdrLosses else satAdd 32 y.cdrLosses 1 }) s
    .next (if isContinuous lane then raise 0x0301 lane (le 1 lane ++ le 1 (b2n locked)) none s1 else s1)

/-! ### PRBS checkers (R152) -/

/-- Checked bits while locked, one occurrence of detector 0x07 each (R509); no armed entry is left untouched. -/
def checkBits (l : Nat) : Nat → State → State
  | 0, s => s
  | n + 1, s =>
    match injIndex 0x07 l s with
    | none => s
    | some _ =>
      let o := occurrence 0x07 l s
      checkBits l n (match o.1 with
        | none => o.2
        | some v => modLane l (fun x => { x with prbsErrors := satAdd 48 x.prbsErrors v.toNat }) o.2)

/-- Bits without an error reach a checker (R152): while it hunts, it locks after 64 of them in a row, and counts those that
follow; while it is locked, it counts them, 1,024 to a group. -/
def goodBits (l n : Nat) (s : State) : State :=
  let x := lane s l
  if x.chkLock then
    checkBits l n (modLane l (fun y => { y with
      prbsBits := satAdd 48 y.prbsBits n
      chkErr := if y.chkWin + n < 1024 then y.chkErr else 0
      chkWin := (y.chkWin + n) % 1024 }) s)
  else if x.chkRun + n < 64 then modLane l (fun y => { y with chkRun := y.chkRun + n }) s
  else
    let more := x.chkRun + n - 64
    checkBits l more (modLane l (fun y => { y with
      chkLock := true
      chkRun := 0
      chkErr := 0
      chkWin := more % 1024
      prbsBits := satAdd 48 y.prbsBits more }) s)

/-- A bit in error reaches a checker (R152): while it hunts, the run ends; while it is locked, it is counted, and more than
256 in a group of 1,024 (log 68) end the lock, which is counted. -/
def badBit (l : Nat) (s : State) : State :=
  let x := lane s l
  if !x.chkLock then modLane l (fun y => { y with chkRun := 0 }) s
  else
    let s1 := checkBits l 1 (modLane l (fun y => { y with
      prbsBits := satAdd 48 y.prbsBits 1
      prbsErrors := satAdd 48 y.prbsErrors 1
      chkErr := if y.chkWin = 1023 then 0 else y.chkErr + 1
      chkWin := (y.chkWin + 1) % 1024 }) s)
    if 256 < x.chkErr + 1 then
      modLane l (fun y => { y with chkLock := false, chkRun := 0, prbsLosses := satAdd 32 y.prbsLosses 1 }) s1
    else s1

def badBits (l : Nat) : Nat → State → State
  | 0, s => s
  | n + 1, s => badBits l n (badBit l s)

/-- Runs of bits reach a checker: in each, some without an error and then some in error. -/
def checkRuns (l : Nat) : List (Nat × Nat) → State → State
  | [], s => s
  | r :: rest, s => checkRuns l rest (badBits l r.2 (goodBits l r.1 s))

/-- Bits of one kind reach a checker: without an error, or, where `flip` says that the lanes' polarities differ, all in
error (R141, R142). -/
def loopRun (flip : Bool) (rx n : Nat) (s : State) : State := if flip then badBits rx n s else goodBits rx n s

/-- Bits that a near-end loopback carries from a generator to a checker of the same pattern: those in error are the
inserted ones, and where the polarities of the two lanes differ all but those (R141, R142, R151, R153). -/
def loopBits (flip : Bool) (tx rx : Nat) : Nat → Nat → State → State
  | 0, _, s => s
  | fuel + 1, n, s =>
    let x := lane s tx
    if n = 0 then s
    else if x.injLeft = 0 ∨ n < x.injLeft then
      loopRun flip rx n (modLane tx (fun y => { y with injLeft := y.injLeft - n }) s)
    else
      let next := if x.inject = 2 then x.interval else 0
      loopBits flip tx rx fuel (n - x.injLeft)
        (loopRun (!flip) rx 1 (loopRun flip rx (x.injLeft - 1) (modLane tx (fun y => { y with injLeft := next }) s)))

/-- The transmit lane that a near-end loopback connects to a receive lane (R153). -/
def loopSource (l : Nat) : Nat := if isHostLane l then l else portOfLane l + 0x40

/-- The polarities of a transmitter and of the receiver that a near-end loopback connects to it differ, so that each bit
arrives inverted (R141, R142). -/
def flipped (tx rx : Lane) : Bool := tx.tx.invert != rx.invertRx

/-- A lane's generator sends the pattern that another lane's checker expects: the same code, and for code 7 the same 64
bits as they arrive (R151, R153). -/
def samePattern (tx rx : Lane) : Bool :=
  tx.gen == rx.chk && (rx.chk != 7 || (if flipped tx rx then ~~~tx.user else tx.user) == rx.user)

/-- PRBS_CHECKER_LOCK (R152, R153, R158): `runs` are the bits that have reached a checker since its last such command, those
without an error and those in error by turns; a near-end loopback of a pattern to its own checker decides itself which of
them are in error. -/
def execPrbsCheckerLock (lane good bad : Nat) (more : List (Nat × Nat)) (s : State) :
    Host.Outcome State Fault Refusal :=
  let x := Machine.lane s lane
  let tx := loopSource lane
  if x.state ≠ 2 ∨ x.chk = 0 ∨ !canReceive lane then .next s
  else if x.loopback = 1 ∧ samePattern (Machine.lane s tx) x then
    let n := good + bad + (more.map fun r => r.1 + r.2).sum
    let t := Machine.lane s tx
    .next (loopBits (x.chk != 7 && flipped t x) tx lane (n + 1) n s)
  else .next (checkRuns lane ((good, bad) :: more) s)

/-! ### Signal detect -/

/-- A tap input whose plane is started and whose island runs (R148). -/
def tapRuns (s : State) (port : Nat) : Bool :=
  tapLanes.contains port && (tget {} s.fr.planes (port / 16)).state != 0 && s.ctl.devState != .still

/-- SD_T of a tap input is deasserted: a BM_RST pulse is due after bm_rst_delay (R148). -/
def sdTFalls (port : Nat) (s : State) : State :=
  if tapRuns s port then modLinePort port (fun x => { x with bmCount := x.bmCount + 1 }) s else s

/-- SD_INPUT_CHANGE (R148, R158, R474): the level of an SD or SD_T ball; SD of a line port becoming active is a wake
source, and a deasserting edge of SD_T asks for a BM_RST pulse. -/
def execSdInputChange (port : Nat) (level : Bool) (s : State) : Host.Outcome State Fault Refusal :=
  if !lineRx.contains port ∧ !tapLanes.contains port then .next s
  else
    let before := sdActive s port
    let s1 := modLinePort port (fun y => { y with sdBall := level }) s
    let after := sdActive s1 port
    if lineRx.contains port then .next (if !before && after then wakeSource 4 port s1 else s1)
    else .next (if before && !after then sdTFalls port s1 else s1)

/-- SD_T_DEASSERT (R148): an edge, so SD_T was active. -/
def execSdTDeassert (port : Nat) (s : State) : Host.Outcome State Fault Refusal :=
  if !tapLanes.contains port ∨ !sdActive s port then .next s
  else .next (sdTFalls port (modLinePort port (fun x => { x with sdBall := x.sdPol }) s))

/-- BM_RST_PULSE_START (R148). -/
def execBmRstPulseStart (port : Nat) (s : State) : Host.Outcome State Fault Refusal :=
  if tapRuns s port ∧ (linePort s port).bmCount ≠ 0 then
    .next (modLinePort port (fun x => { x with bmRst := true, bmCount := x.bmCount - 1 }) s)
  else .next s

/-- BM_RST_PULSE_END (R146, R148): a held polarity takes effect. -/
def execBmRstPulseEnd (port : Nat) (s : State) : Host.Outcome State Fault Refusal := .next (endBmRst port s)

end Sys2Proof.Machine
end

