-- ==== Sys2Proof/Machine/Mailbox.lean ====
section
/-!
DEFINITION. The mailboxes as the host sees them: request slots, doorbells, release and errors (R44, R45, R48, R52), and
the SMBus slave with its fallback mailbox (R69, R70).
-/
namespace Sys2Proof.Machine

/-! ### Slots -/

/-- The BAR0 offset of a byte of a channel page (R44). -/
def pageOff (ch off : Nat) : Nat := 0x10000 + 0x1000 * ch + off

/-- A write of a naturally aligned 32-bit or 64-bit word (R36). -/
def slotAccess (off : Nat) (data : Bytes) : Bool :=
  (data.length == 4 && off % 4 == 0) || (data.length == 8 && off % 8 == 0)

/-- A host write to a request slot: stored while the slot is FREE, else discarded with WRITE_DISCARDED (R36, R45). -/
def slotWrite (ch off : Nat) (data : Bytes) (s : State) : State :=
  if 16 ≤ ch ∨ 0x400 ≤ off ∨ !slotAccess off data then s
  else if (chan s ch).slots.getD (off / 0x100) .free = .free then
    { s with mbx := { s.mbx with req := Memory.writeBytes 0 s.mbx.req (ch * 0x1000 + off) data } }
  else modChan ch (fun c => { c with writeDiscarded := true }) s

/-- REQUEST_SLOT_WRITE (R45). -/
def execRequestSlotWrite (ch : Nat) (off : Nat) (data : Bytes) (s : State) : Host.Outcome State Fault Refusal :=
  .next (barAccess true 0 (pageOff ch off) data.length (slotWrite ch off data) s)

/-- A doorbell's bit for one slot: a FREE slot becomes SUBMITTED, any other latches DB_IGNORED (R48). -/
def ringSlot (ch slot : Nat) (s : State) : State :=
  modChan ch (fun c =>
    if c.slots.getD slot .done = .free then { c with
      slots := c.slots.set slot .submitted
      queue := c.queue ++ [slot] }
    else { c with dbIgnored := true }) s

/-- A write to DB_CH: the named slots are submitted in ascending order (R48, R49). -/
def ringBell (ch value : Nat) (s : State) : State := (bitsOf 4 value).foldl (fun x n => ringSlot ch n x) s

/-- DOORBELL_WRITE (R48): in STILL only a wake source; elsewhere it submits, and in HUSH it may wake the device. -/
def execDoorbellWrite (ch : Nat) (value : BitVec 32) (s : State) : Host.Outcome State Fault Refusal :=
  if !aonRuns s || decide (16 ≤ ch) then .next s
  else if s.ctl.devState = .still then .next (wakeSource 1 0 s)
  else .next (wakeSource 1 0 (ringBell ch value.toNat s))

/-- The slots that a write to MB_RELEASE names: DONE ones become FREE (R44, R52). -/
def releaseSlots (value : Nat) (c : Chan) : Chan :=
  { c with slots := c.slots.zipIdx.map fun x => if x.1 = .done ∧ bit value x.2 then .free else x.1 }

/-- MB_RELEASE_WRITE (R52). -/
def execMbReleaseWrite (ch : Nat) (value : BitVec 32) (s : State) : Host.Outcome State Fault Refusal :=
  if 16 ≤ ch then .next s
  else .next (barAccess true 0 (pageOff ch 0x804) 4 (modChan ch (releaseSlots value.toNat)) s)

/-- What a read of MB_ERR clears (R10, R44). -/
def clearErrors (ch : Nat) (s : State) : State :=
  modChan ch (fun c => { c with dbIgnored := false, writeDiscarded := false, checksum := false }) s

/-- MB_ERR_READ (R10, R44): the latches are returned and cleared. -/
def execMbErrRead (ch : Nat) (s : State) : Host.Outcome State Fault Refusal :=
  if 16 ≤ ch then .next s else .next (readAccess (pageOff ch 0x80C) (clearErrors ch) s)

/-! ### SMBus (R69, R70) -/

/-- What an SMBus transaction returned, and whether the slave acknowledged it. -/
def smbAnswer (ack : Bool) (bytes : Bytes) (s : State) : State :=
  s.modCtl fun c => { c with bus := { c.bus with bytes, ack } }

/-- SMBUS_BLOCK_WRITE (R70): one request to the fallback mailbox, or no acknowledgement. -/
def execSmbusBlockWrite (data : Bytes) (pecOk : Bool) (s : State) : Host.Outcome State Fault Refusal :=
  if !aonRuns s then .next s
  else if pecOk && cpRuns s && s.mbx.smbState == .idle && decide (16 ≤ data.length ∧ data.length ≤ 255) then
    .next (smbAnswer true [] { s with mbx := { s.mbx with
      smbState := .executing
      smbReq := data } })
  else .next (smbAnswer false [] s)

/-- What command code 0x11 reads (R69, R70). -/
def smbStatus (s : State) : Nat :=
  if !cpRuns s then 3
  else match s.mbx.smbState with
    | .idle => 0
    | .executing => 1
    | .ready => 2

/-- SMBUS_STATUS_READ (R69). -/
def execSmbusStatusRead (pecOk : Bool) (s : State) : Host.Outcome State Fault Refusal :=
  if !aonRuns s then .next s
  else if pecOk then .next (smbAnswer true (le 1 (smbStatus s)) s)
  else .next (smbAnswer false [] s)

/-- SMBUS_BLOCK_READ (R69, R70): the response, after which the slave is idle. Without a response, or without a CP to serve
it, the slave does not acknowledge (log 27). -/
def execSmbusBlockRead (pecOk : Bool) (s : State) : Host.Outcome State Fault Refusal :=
  if !aonRuns s then .next s
  else if pecOk && cpRuns s && s.mbx.smbState == .ready then
    .next (smbAnswer true s.mbx.smbResp { s with mbx := { s.mbx with
      smbState := .idle
      smbReq := []
      smbResp := [] } })
  else .next (smbAnswer false [] s)

/-- SMBUS_STATE_READ (R69): served by hardware, so always answered. -/
def execSmbusStateRead (pecOk : Bool) (s : State) : Host.Outcome State Fault Refusal :=
  if !aonRuns s then .next s
  else if pecOk then
    .next (smbAnswer true
      (le 1 (stateCode s.ctl.devState + 0x10 * b2n s.ctl.cpAlive + 0x20 * b2n s.ctl.faultHw)) s)
  else .next (smbAnswer false [] s)

end Sys2Proof.Machine
end

