-- ==== Sys2Proof/Machine/MemoryCtl.lean ====
section
/-!
DEFINITION. The memory commands, patrol scrub and the reports of the memory stacks (chapter 13).
-/
namespace Sys2Proof.Machine

/-- MEM_CONFIG (R404). -/
def memConfigForm (p : Bytes) : Bool :=
  len 16 p && decide (1 ≤ u16 p 0 ∧ u16 p 0 ≤ 168) && decide (u8 p 2 ≤ 1) && zeroAt p 3 1 &&
    decide (u32 p 4 ≤ 65535) && decide (100 ≤ u32 p 8 ∧ u32 p 8 ≤ 60000) && zeroAt p 12 4

def memConfigSpec : CmdSpec := { op := 0x0B01, smb := false, priv := true, legal := legalStd, form := memConfigForm }

def memConfigAct (r : Req) (s : State) : Served :=
  let p := r.payload
  ok { s with mem := { s.mem with
    period := u16 p 0
    scrubOn := u8 p 2 == 1
    limit := u32 p 4
    evMs := u32 p 8 } }

def execMemConfig (s : State) : Host.Outcome State Fault Refusal := .next (serve memConfigSpec memConfigAct s)

/-- A stack, a clear flag and two reserved bytes (R405). -/
def memStatusForm (p : Bytes) : Bool := len 4 p && decide (u8 p 0 ≤ 3) && decide (u8 p 1 ≤ 1) && zeroAt p 2 2

def memStatusSpec : CmdSpec :=
  { op := 0x0B02, smb := true, priv := false, legal := readyToFault, form := memStatusForm }

/-- A stack that is fitted and not fenced wholly. -/
def stackUsable (s : State) (n : Nat) : Bool := decide (n < stackTotal s) && !(stack s n).fenced

/-- The first segment index of a stack, from `i`, that is not fenced (R395). -/
def scrubSkip (s : State) (n i : Nat) : Option Nat :=
  ((List.range 4096).drop i).find? fun j => !fenced s (j * stackTotal s + n)

/-- The segment that the scrub of a stack reads next, behind the fenced ones (R395, R405). -/
def scrubSegment (s : State) (n : Nat) : Nat :=
  let i := (stack s n).scrubSeg
  ((scrubSkip s n i).getD ((scrubSkip s n 0).getD i)) * stackTotal s + n

/-- The 64 bytes of MEM_STATUS (R405). -/
def memStatusBytes (s : State) (n : Nat) : Bytes :=
  let k := stack s n
  let st := if stackTotal s ≤ n then 2 else if k.fenced then 1 else 0
  let fencedSegs := (s.mem.fence.filter fun e => e.2 == 2 && stackOf s e.1 == n).length
  le 1 n ++ le 1 st ++ le 1 (b2n k.doubled + 2 * b2n (s.mem.scrubOn && stackUsable s n)) ++ zeros 1 ++
    le 4 (if st = 2 then 0 else fencedSegs) ++ le 4 (if st = 2 then 0 else scrubSegment s n) ++
    le 4 k.passes.toNat ++ [16, 24, 32, 40, 48, 56].flatMap fun o => le 8 (tget 0 k.cnt o)

def memStatusAct (r : Req) (s : State) : Served :=
  let n := u8 r.payload 0
  okWith (memStatusBytes s n) (if u8 r.payload 1 = 1 then modStack n (fun k => { k with cnt := [] }) s else s)

def execMemStatus (s : State) : Host.Outcome State Fault Refusal := .next (serve memStatusSpec memStatusAct s)

/-- A clear flag and three reserved bytes (R406). -/
def sramStatusForm (p : Bytes) : Bool := len 4 p && decide (u8 p 0 ≤ 1) && zeroAt p 1 3

def sramStatusSpec : CmdSpec :=
  { op := 0x0B03, smb := true, priv := false, legal := readyToFault, form := sramStatusForm }

/-- MEM_SRAM_STATUS (R406). -/
def sramStatusAct (r : Req) (s : State) : Served :=
  let body := (List.range 12).flatMap fun i => le 8 (tget 0 s.mem.sram (8 + 8 * i))
  okWith (zeros 8 ++ body) (if u8 r.payload 0 = 1 then { s with mem := { s.mem with sram := [] } } else s)

def execMemSramStatus (s : State) : Host.Outcome State Fault Refusal := .next (serve sramStatusSpec sramStatusAct s)

/-- An SRAM instance of R403. -/
def isInstance (i : Nat) : Bool :=
  let u := i % 0x1000
  match i / 0x1000 with
  | 0 | 2 => u == 0
  | 1 => u == 0 || u == 1 || u == 0x10 || u == 0x11
  | 3 => decide (u ≤ 3)
  | 4 | 7 => decide (u ≤ 7)
  | 5 | 6 => decide (u ≤ 63)
  | 8 => decide (u ≤ 1)
  | _ => false

/-- MEM_FLIP (R403). -/
def memFlipForm (p : Bytes) : Bool :=
  len 24 p && zeroAt p 4 4 &&
    ((u8 p 0 == 0 && u8 p 1 == 0 && isInstance (u16 p 2)) ||
      (u8 p 0 == 1 && decide (u8 p 1 ≤ 3) && zeroAt p 2 2 && zeroAt p 17 7) ||
      (u8 p 0 == 2 && decide (u8 p 1 ≤ 3) && zeroAt p 2 2 && decide (u8 p 8 ≤ 2) && zeroAt p 9 15))

def memFlipSpec : CmdSpec := { op := 0x0B04, smb := false, priv := true, legal := legalStd, form := memFlipForm }

/-- The memory's block is gated: Weirs and Aster cores in HUSH (R467, R478). -/
def instanceOff (s : State) (i : Nat) : Bool :=
  s.pwr.gated && (i / 0x1000 == 4 || i / 0x1000 == 5 || i / 0x1000 == 6)

/-- Arms a flip mask of SRAM; a mask of 0 disarms it (R403). -/
def armSram (i mask : Nat) (s : State) : State :=
  let t := if mask = 0 then tdel s.mem.sramFlip i else tset s.mem.sramFlip i (BitVec.ofNat 128 mask)
  { s with mem := { s.mem with sramFlip := t } }

/-- MEM_FLIP (R403): a stack that is not fitted does not exist. -/
def memFlipAct (r : Req) (s : State) : Served :=
  let p := r.payload
  let mask := leNat (slice p 8 16)
  if u8 p 0 = 0 then
    if instanceOff s (u16 p 2) then fail stDomainOff s else ok (armSram (u16 p 2) mask s)
  else if stackTotal s ≤ u8 p 1 then fail stBadParam s
  else if u8 p 0 = 1 then ok (modStack (u8 p 1) (fun k => { k with outerFlip := BitVec.ofNat 128 mask }) s)
  else ok (modStack (u8 p 1) (fun k => { k with innerFlip := BitVec.ofNat 128 mask }) s)

def execMemFlip (s : State) : Host.Outcome State Fault Refusal := .next (serve memFlipSpec memFlipAct s)

def fenceListSpec : CmdSpec := { op := 0x0B05, smb := false, priv := false, legal := readyToFault, form := len 4 }

/-- MEM_FENCE_LIST (R407). -/
def fenceListAct (r : Req) (s : State) : Served :=
  let f := u32 r.payload 0
  let n := min 1792 (segCount s - f)
  let bits := maskOf 1792 fun j => decide (j < n) && fencedOrMarked s (f + j)
  okWith (le 4 f ++ le 4 n ++ le 224 bits) s

def execMemFenceList (s : State) : Host.Outcome State Fault Refusal := .next (serve fenceListSpec fenceListAct s)

/-! ### The stacks -/

/-- The memory island runs and its stack answers. -/
def memRuns (s : State) (n : Nat) : Bool :=
  s.ctl.devState != .still && s.ctl.devState != .boot && islandUp 8 s && stackUsable s n

/-- The scrub of a stack goes on to the next block (R395). -/
def scrubNext (n : Nat) (s : State) : State :=
  modStack n (fun k =>
    if k.scrubBlk < 65535 then { k with scrubBlk := k.scrubBlk + 1 }
    else if k.scrubSeg < 4095 then { k with scrubBlk := 0, scrubSeg := k.scrubSeg + 1 }
    else { k with scrubBlk := 0, scrubSeg := 0, passes := k.passes + 1 }) s

/-- Patrol scrub reads its next block; a corrected block waits for its write-back (R395, R396). -/
def scrubRead (n : Nat) (s : State) : State :=
  let k := stack s n
  match scrubSkip s n k.scrubSeg with
  | none => modStack n (fun x => { x with scrubSeg := 0, scrubBlk := 0, passes := x.passes + 1 }) s
  | some i =>
    let s1 := if i = k.scrubSeg then s else modStack n (fun x => { x with scrubSeg := i, scrubBlk := 0 }) s
    let blk := (i * stackTotal s + n) * 65536 + (stack s1 n).scrubBlk
    let dirty := match tfind s1.mem.errs blk with
      | none => false
      | some e => e.symbols != 0
    let other := mayMiscorrect s1 blk
    let r := readBlock 5 blk (storedBytes s1 (blk * 64) 64) s1
    let s2 := match r.1 with
      | some bs => if dirty then
          modStack n (fun x => { x with scrubRead := some blk, scrubData := if other then bs else [] }) r.2
        else r.2
      | none => r.2
    scrubNext n s2

/-- The scrub writes a block back as a full-block write with its corrected data: what was stored, or what a miscorrection
made of it (R389, R395). -/
def scrubWrite (blk : Nat) (data : Bytes) (s : State) : State :=
  if data = [] then blockWritten blk s else storeWrite [] (blk * 64) data s

/-- SCRUB_BLOCK (R395, R396): a corrected block that no write has reached since is rewritten; else the next block is
read. -/
def execScrubBlock (stack : Nat) (s : State) : Host.Outcome State Fault Refusal :=
  if !memRuns s stack ∨ !s.mem.scrubOn then .next s
  else match (Machine.stack s stack).scrubRead with
    | some blk =>
      let data := (Machine.stack s stack).scrubData
      let s1 := modStack stack (fun x => { x with scrubRead := none, scrubData := [] }) s
      .next (countStack stack 56 1 (scrubWrite blk data s1))
    | none => .next (scrubRead stack s)

/-- INNER_COUNT_READ (R388, R408): `count` corrections of the dies beside those that follow from flip masks (R403); what has
been corrected since the last EV_MEM_CORRECTED is reported. -/
def execInnerCountRead (stack count : Nat) (s : State) : Host.Outcome State Fault Refusal :=
  if memRuns s stack then
    let k := count + (Machine.stack s stack).dieCorr
    let s1 := countStack stack 16 k (modStack stack (fun x => { x with evInner := x.evInner + k, dieCorr := 0 }) s)
    let y := Machine.stack s1 stack
    .next (if y.evBlocks + y.evInner = 0 then s1 else correctedEvent stack s1)
  else .next s

/-- STACK_TEMP_REPORT (R387). -/
def execStackTempReport (stack : Nat) (above85 : Bool) (s : State) : Host.Outcome State Fault Refusal :=
  if memRuns s stack then .next (modStack stack (fun x => { x with doubled := above85 }) s) else .next s

/-- STACK_LINK_LOST (R394). -/
def execStackLinkLost (stack : Nat) (s : State) : Host.Outcome State Fault Refusal :=
  if memRuns s stack then .next (fenceStack 2 stack s) else .next s

end Sys2Proof.Machine
end

