-- ==== Sys2Proof/Machine/Protection.lean ====
section
/-!
DEFINITION. Engine redundancy and line protection: the Rill, role swaps, engine faults, the protection timers and the
commands of block 0x07xx (R252 to R277).
-/
namespace Sys2Proof.Machine

/-! ### The Rill (R254, R256) -/

/-- The Rill of a started plane carries changes to its standby. -/
def rillCarries (s : State) (p : Nat) : Bool :=
  let st := engineStatus s (standbyCode s p)
  decide (p ≤ 1) && (plane s p).state != 0 && lineRuns p s && (prot s p).rillUp && (st == 1 || st == 2)

/-- The Rill goes DOWN: what was on its way is behind, and a healthy standby becomes STALE (R256, R257). -/
def rillDown (p : Nat) (s : State) : State :=
  let s1 := modProt p (fun x => { x with
    rillUp := false
    rillHeld := false
    keepFails := 0
    rillQ := [] }) s
  let st := engineStatus s (standbyCode s p)
  if st = 1 ∨ st = 2 then setMirror p 3 none s1 else s1

/-- A message fails its CRC: it is counted and resent, and four failures of it take the Rill DOWN (R256). -/
def rillFailed (p : Nat) (s : State) : State :=
  let s1 := modProt p (fun x => { x with
    rillCrc := x.rillCrc + 1
    keepFails := if x.rillQ.isEmpty then x.keepFails + 1 else x.keepFails
    rillQ := x.rillQ.modifyHead fun m => { m with fails := m.fails + 1 } }) s
  let x := prot s1 p
  if 4 ≤ (x.rillQ.head?.map fun m => m.fails).getD x.keepFails then rillDown p s1 else s1

/-- The standby applies a change and returns its generation (R254). -/
def applyMsg (m : RillMsg) (x : Prot) : Prot :=
  { x with
    applied := tset x.applied m.record m.gen
    mirTerms := match m.term with
      | some t => tset x.mirTerms m.record t
      | none => if m.record = planeRecord then x.mirTerms else tdel x.mirTerms m.record
    mirPlane := m.plane.getD x.mirPlane }

/-- RILL_MESSAGE (R254, R256): the oldest change on its way reaches the standby, or fails its CRC; an injection makes one
message fail (R509, 0x13). A change to send ends the run of a keep-alive that has failed. -/
def execRillMessage (plane : Nat) (crcOk : Bool) (s : State) : Host.Outcome State Fault Refusal :=
  let p := plane
  match (prot s p).rillQ with
  | [] => .next s
  | m :: rest =>
    if !rillCarries s p then .next s
    else
      let o := occurrence 0x13 p (modProt p (fun x => { x with keepFails := 0 }) s)
      if !crcOk || o.1.isSome then .next (rillFailed p o.2)
      else .next (modProt p (fun x => applyMsg m { x with rillQ := rest }) (recordWritten (standbyCode s p) m.record o.2))

/-- RILL_KEEPALIVE (R256): a message without a change; it too can fail its CRC or be made to fail (R509, 0x13), and is then
resent. -/
def execRillKeepalive (alive : KeepAlive) (s : State) : Host.Outcome State Fault Refusal :=
  let p := alive.plane
  if !rillCarries s p || !(prot s p).rillQ.isEmpty then .next s
  else
    let o := occurrence 0x13 p s
    if !alive.crcOk || o.1.isSome then .next (rillFailed p o.2)
    else .next (modProt p (fun x => { x with keepFails := 0 }) o.2)

/-- RILL_TIMEOUT (R256): 20 µs without a valid message. -/
def execRillTimeout (plane : Nat) (s : State) : Host.Outcome State Fault Refusal :=
  let p := plane
  if p ≤ 1 ∧ (prot s p).rillUp ∧ (Machine.plane s p).state ≠ 0 ∧ lineRuns p s then .next (rillDown p s) else .next s

/-- RILL_RETRAIN (R256): an attempt at link training every 100 ms while the Rill is DOWN. -/
def execRillRetrain (plane : Nat) (trained : Bool) (s : State) : Host.Outcome State Fault Refusal :=
  let p := plane
  if p ≤ 1 ∧ !(prot s p).rillUp ∧ lineRuns p s then .next (modProt p (fun x => { x with rillHeld := trained }) s)
  else .next s

/-- RILL_UP (R256, R257): the trained link has held for 1 s, and a STALE standby takes a full copy. -/
def execRillUp (plane : Nat) (s : State) : Host.Outcome State Fault Refusal :=
  let p := plane
  if p ≤ 1 ∧ !(prot s p).rillUp ∧ (prot s p).rillHeld ∧ lineRuns p s then
    let s1 := modProt p (fun x => { x with rillUp := true, rillHeld := false, keepFails := 0 }) s
    if engineStatus s (standbyCode s p) = 3 then
      .next (setMirror p 2 none (copyAgain p s1))
    else .next s1
  else .next s

/-- FULL_COPY_DONE (R257): every record has been applied, and the standby is CURRENT. -/
def execFullCopyDone (plane : Nat) (s : State) : Host.Outcome State Fault Refusal :=
  let p := plane
  if rillCarries s p && engineStatus s (standbyCode s p) == 2 then
    .next (setMirror p 1 none (fullCopy p s))
  else .next s

/-! ### Engine faults (R258) -/

/-- ENGINE_WATCHDOG (R258 cause 1): an engine has not finished an accepted frame 125 µs after its PSync. -/
def execEngineWatchdog (engine : Nat) (s : State) : Host.Outcome State Fault Refusal :=
  if isEngine engine && (plane s (engine / 16)).state != 0 && (hunter s (engineKey engine)).sync && lineRuns (engine / 16) s then
    .next (engineFault false engine 1 s)
  else .next s

/-- The standby is out of SYNC, or not at the active engine's SFC, while the active engine is in SYNC (R258). -/
def mirrorOff (s : State) (engine : Nat) : Bool :=
  let h := hunter s (engineKey engine)
  let x := plane s (engine / 16)
  x.state == 2 && !(h.sync && h.sfc == x.sfc)

/-- MIRROR_CHECK_FAIL (R258 cause 3): `cause` 0 is a standby out of SYNC at the active engine's SFC for 16 frames, 1 a
change for a generation that it has not reached. -/
def execMirrorCheckFail (engine cause : Nat) (s : State) : Host.Outcome State Fault Refusal :=
  let p := engine / 16
  let shown := if cause = 0 then mirrorOff s engine else rillCarries s p
  if isEngine engine && engine == standbyCode s p && (plane s p).state != 0 && shown && lineRuns p s then
    .next (engineFault false engine 3 s)
  else .next s

/-! ### Role swaps (R259 to R261) -/

/-- The conditions of a role swap at a boundary (R259): the changes on their way are applied first (R260). -/
def swapReady (s : State) (p : Nat) : Bool :=
  let x := prot s p
  let h := hunter s (engineKey (standbyCode s p))
  x.rillUp && rillCarries s p && engineStatus s (standbyCode s p) == 1 && h.sync && h.sfc == (plane s p).sfc && !x.lineBusy

/-- The engines exchange their roles (R260). -/
def swapRoles (p origin : Nat) (s : State) : State :=
  let old := activeCode s p
  let new := standbyCode s p
  let cmd := swapCause s origin
  let s1 := setEngine new 0 (setEngine old 1 (bridge p (fullCopy p s)))
  let s2 := modProt p (fun x => { x with
    activeEng := new % 16
    swaps := x.swaps + 1
    swap := none
    swapTries := 0 }) s1
  let s3 := roleSwapEvent p old new false origin cmd (restartPeriod p s2)
  afterAction p (if origin = 1 then finishLater stOk [] s3 else s3)

/-- ROLE_SWAP (R259, R260): a pending swap at a superframe boundary of its plane, at first and at up to 8 later ones. -/
def execRoleSwap (plane : Nat) (s : State) : Host.Outcome State Fault Refusal :=
  let p := plane
  match (prot s p).swap with
  | none => .next s
  | some origin =>
    if 1 < p ∨ (Machine.plane s p).state ≠ 2 ∨ 9 ≤ (prot s p).swapTries ∨ !lineRuns p s then .next s
    else if swapReady s p then .next (swapRoles p origin s)
    else .next (modProt p (fun x => { x with swapTries := x.swapTries + 1 }) s)

/-- SWAP_ABANDON (R259): the boundaries have passed, or the plane has none because it is not in SYNC. -/
def execSwapAbandon (plane : Nat) (s : State) : Host.Outcome State Fault Refusal :=
  let p := plane
  if p ≤ 1 ∧ (prot s p).swap.isSome ∧ (9 ≤ (prot s p).swapTries ∨ (Machine.plane s p).state ≠ 2) ∧ lineRuns p s then
    .next (afterAction p (abandonSwap p none s))
  else .next s

/-- The swap period of a plane runs (R261). -/
def periodRuns (s : State) (p : Nat) : Bool :=
  (plane s p).state != 0 && (prot s p).period != 0 && (prot s p).swap.isNone && engineStatus s (standbyCode s p) == 1

/-- SWAP_PERIOD_EXPIRY (R261): a periodic swap is scheduled. -/
def execSwapPeriodExpiry (plane : Nat) (s : State) : Host.Outcome State Fault Refusal :=
  let p := plane
  if decide (p ≤ 1) && periodRuns s p && lineRuns p s then
    .next (modProt p (fun x => { x with swap := some 0, swapTries := 0 }) s)
  else .next s

/-! ### Protection timers (R267) -/

/-- HOLD_OFF_EXPIRY (R267): the trigger that has persisted causes the switch. -/
def execHoldOffExpiry (plane : Nat) (s : State) : Host.Outcome State Fault Refusal :=
  let p := plane
  if p ≤ 1 ∧ (Machine.plane s p).state ≠ 0 ∧ (prot s p).holdRunning ∧ (wantedPort s p).2.2 = 2 ∧ lineRuns p s then
    let s1 := runSwitch p none (modProt p (fun x => { x with holdRunning := false }) s)
    .next (if (prot s1 p).switchDue ≠ 0 then s1 else judge p none s1)
  else .next s

/-- PROT_WTR_EXPIRY (R267): the plane returns to its working port. -/
def execProtWtrExpiry (plane : Nat) (s : State) : Host.Outcome State Fault Refusal :=
  let p := plane
  if p ≤ 1 ∧ (Machine.plane s p).state ≠ 0 ∧ (prot s p).wtrRunning ∧ (wantedPort s p).2.2 = 3 ∧ lineRuns p s then
    let s1 := runSwitch p none (modProt p (fun x => { x with wtrRunning := false }) s)
    .next (if (prot s1 p).switchDue ≠ 0 then s1 else judge p none s1)
  else .next s

/-! ### Commands (R270 to R276) -/

def protConfigForm (p : Bytes) : Bool :=
  len 16 p && decide (u8 p 0 ≤ 1) && decide (u8 p 1 ≤ 1) && decide (u8 p 2 ≤ 0x1F) && decide (u8 p 3 ≤ 1) &&
    decide (u16 p 4 ≤ 10000) && decide (1 ≤ u16 p 6 ∧ u16 p 6 ≤ 3600) && decide (u32 p 8 ≤ 604800) && zeroAt p 12 4

def protConfigSpec : CmdSpec := { op := 0x0701, smb := false, priv := false, legal := legalStd, form := protConfigForm }

/-- PROT_CONFIG (R271). -/
def protConfigAct (r : Req) (s : State) : Served :=
  let q := r.payload
  let p := u8 q 0
  let state := (plane s p).state
  if u8 q 1 ≠ (prot s p).working ∧ state ≠ 0 then conflict 0x07 state p s
  else
    let s1 := modProt p (fun x => { x with
      working := u8 q 1
      mask := u8 q 2
      revertive := u8 q 3 == 1
      holdOff := u16 q 4
      wtr := u16 q 6
      period := u32 q 8 }) s
    ok (judge p (causeOf r) (restartPeriod p s1))

def execProtConfig (s : State) : Host.Outcome State Fault Refusal := .next (serve protConfigSpec protConfigAct s)

def protSwapSpec : CmdSpec := { op := 0x0702, smb := false, priv := false, legal := legalRun, form := planeForm }

/-- PROT_SWAP (R272): the response follows the swap. -/
def protSwapAct (r : Req) (s : State) : Served :=
  let p := u8 r.payload 0
  let x := prot s p
  let st := engineStatus s (standbyCode s p)
  if x.swap.isSome || x.lineBusy || x.switchDue != 0 then fail stBusy s
  else if (plane s p).state ≠ 2 then conflict 0x07 (plane s p).state p s
  else if st = 4 then conflict 0x07 4 p s
  else if st = 2 ∨ st = 3 then fail stStale s
  else .later (modProt p (fun y => { y with swap := some 1, swapTries := 0 }) s)

def execProtSwap (s : State) : Host.Outcome State Fault Refusal := .next (serve protSwapSpec protSwapAct s)

def protLineForm (p : Bytes) : Bool := len 4 p && decide (u8 p 0 ≤ 1) && decide (u8 p 1 ≤ 5) && zeroAt p 2 2

def protLineSpec : CmdSpec := { op := 0x0703, smb := false, priv := false, legal := legalStd, form := protLineForm }

/-- MANUAL is refused at once: the port it asks for is not active and has an enabled defect (R266, R273). -/
def manualRefused (s : State) (p req : Nat) : Bool :=
  (req == 4 || req == 5) && req - 4 != (prot s p).activePort && enabledDefects s p (req - 4) != 0

/-- PROT_LINE (R273). -/
def protLineAct (r : Req) (s : State) : Served :=
  let p := u8 r.payload 0
  let req := u8 r.payload 1
  let state := (plane s p).state
  if state = 0 ∨ manualRefused s p req then conflict 0x07 state p s
  else ok (judge p (causeOf r) (modProt p (fun x => { x with request := req }) s))

def execProtLine (s : State) : Host.Outcome State Fault Refusal := .next (serve protLineSpec protLineAct s)

def protStatusSpec : CmdSpec := { op := 0x0704, smb := true, priv := false, legal := readyToFault, form := planeForm }

/-- Seconds to the next periodic swap, rounded up (R261, R274). -/
def nextSwap (s : State) (p : Nat) : Nat :=
  if periodRuns s p then
    ((prot s p).swapBase + (prot s p).period * 625000000 - s.time.cycles + 624999999) / 625000000
  else 0xFFFFFFFF

/-- The 32 bytes of PROT_STATUS (R274). -/
def protStatusBytes (s : State) (p : Nat) : Bytes :=
  let x := prot s p
  le 1 p ++ le 1 (activeCode s p) ++ le 1 (activePort s p) ++ le 1 (engineStatus s (engineCode p 0)) ++
    le 1 (engineStatus s (engineCode p 1)) ++ le 1 (b2n x.rillUp) ++ le 1 x.request ++
    le 1 (b2n x.holdRunning + 2 * b2n x.wtrRunning + 4 * b2n x.swap.isSome) ++ le 4 x.swaps.toNat ++
    le 4 x.lineSwitches.toNat ++ le 4 x.takeovers.toNat ++ le 4 x.rillCrc.toNat ++ le 4 x.discarded.toNat ++
    le 4 (nextSwap s p)

/-- PROT_STATUS (R274). -/
def protStatusAct (r : Req) (s : State) : Served := okWith (protStatusBytes s (u8 r.payload 0)) s

def execProtStatus (s : State) : Host.Outcome State Fault Refusal := .next (serve protStatusSpec protStatusAct s)

def takeoverListSpec : CmdSpec := { op := 0x0705, smb := false, priv := false, legal := readyToFault, form := planeForm }

/-- PROT_TAKEOVER_LIST (R275). -/
def takeoverListAct (r : Req) (s : State) : Served :=
  let p := u8 r.payload 0
  okWith (le 1 p ++ zeros 3 ++ le 128 (maskOf 1024 fun i => (prot s p).takeList.contains i)) s

def execProtTakeoverList (s : State) : Host.Outcome State Fault Refusal := .next (serve takeoverListSpec takeoverListAct s)

def restoreForm (p : Bytes) : Bool := len 4 p && isEngine (u8 p 0) && zeroAt p 1 3

def restoreSpec : CmdSpec := { op := 0x0706, smb := false, priv := false, legal := legalStd, form := restoreForm }

/-- PROT_ENGINE_RESTORE (R257, R276): `passed` is the outcome of the self-test. With the Rill DOWN the restored standby
is STALE at once (R256). -/
def restoreAct (passed : Bool) (r : Req) (s : State) : Served :=
  let c := u8 r.payload 0
  let p := c / 16
  let st := engineStatus s c
  if st ≠ 4 then conflict 0x07 st c s
  else if !passed then fail stFenced s
  else
    let started := (plane s p).state != 0
    let s1 := modHunter (engineKey c) (fun _ => { running := started }) (setEngine c 2 (clearState c s))
    let s2 := copyAnew p s1
    ok (if started && !(prot s p).rillUp then setMirror p 3 (causeOf r) s2 else s2)

def execProtEngineRestore (passed : Bool) (s : State) : Host.Outcome State Fault Refusal :=
  .next (serve restoreSpec (restoreAct passed) s)

end Sys2Proof.Machine
end

