-- ==== Sys2Proof/Machine/Resets.lean ====
section
/-!
DEFINITION. The resets: what each clears and what survives it (R38, R43, R73, R74, R466, R508, R518).
-/
namespace Sys2Proof.Machine

/-- The line ports and tap inputs after a reset: only the levels that the outside drives remain. -/
def pinsKept (s : State) : Tab Port := tmap s.lane.ports fun _ p => ({ sdBall := p.sdBall } : Port)

/-- The flash and the fuses, which every reset keeps (R74); with `aon` the straps of the always-on island too. -/
def bootKept (aon : Bool) (s : State) : Boot :=
  let b : Boot := {
    flash := s.boot.flash
    hwinitFlag := s.boot.hwinitFlag
    meas := []
    bootOk := false
    pllLocked := false }
  if aon then { b with
    strapBoot := s.boot.strapBoot
    strapHwinit := s.boot.strapHwinit
    strapSmb := s.boot.strapSmb }
  else b

/-- The control part after a reset: the model's own records, and the link where the PCIe island is spared (R74). -/
def ctlKept (pcie : Bool) (s : State) : Ctl :=
  let c : Ctl := { out := s.ctl.out, free := s.ctl.free }
  if pcie then { c with
    linkGen := s.ctl.linkGen
    linkWidth := s.ctl.linkWidth }
  else c

/-- A reset of the first three rows of R73: every island but the always-on island where `aon`, and but the PCIe island
where `pcie`. TX_EN falls first. A request or a response that waits in the SMBus fallback mailbox is lost, since the spec
does not say whether it outlives SOFT_RESET and PERST_N (DESIGN CHOICE, log 80). LOG_VIEW_SLOT, VIEW_BUSY and LOG_VIEW
survive with the recorder that fills them, though R477 puts their window in Control (DESIGN CHOICE, log 83). Of the
always-on island the chassis MAC keeps its whole state, while PPS_OUT, the polarity of the signal-detect inputs and
THERM_TRIP_N go back to their reset values (DESIGN CHOICE, log 85). -/
def resetState (aon pcie : Bool) (s0 : State) : State :=
  let s := dropTxEn lineRx s0
  let base : State := {
    ident := s.ident
    ctl := ctlKept pcie s
    rings := { hostMem := s.rings.hostMem }
    boot := bootKept aon s
    cip := { draws := s.cip.draws }
    lane := { ports := pinsKept s }
    pending := s.pending }
  if aon then { base with
    mbx := { smbAddr := s.mbx.smbAddr }
    src := { trimUsed := s.src.trimUsed }
    time := { cycles := s.time.cycles }
    net := { chassis := { s.net.chassis with peers := s.net.chassis.peers.map fun q => { q with inStill := false } } }
    pwr := {
      wake := s.pwr.wake
      offAddr := s.pwr.offAddr
      offCount := s.pwr.offCount }
    log := s.log }
  else { base with log := recorderAfterPor s.log }

/-- POR_N_DEASSERT (R73, R75, R494 to R496): every island, the straps, one more power cycle. -/
def execPorNDeassert (straps : Straps) (env : BootEnv) (s : State) : Host.Outcome State Fault Refusal :=
  let s1 := resetState false false s
  let s2 : State := { s1 with
    boot := { s1.boot with
      strapBoot := straps.boot % 4
      strapHwinit := straps.hwinit
      strapSmb := straps.smb % 8 }
    mbx := { s1.mbx with smbAddr := 0x58 + straps.smb % 8 } }
  .next (bootRom env (logPowerOn s2))

/-- The device is held in reset: every output is in its reset state and nothing runs (R518); the log keeps what is in the
flash. -/
def heldReset (powered : Bool) (s : State) : State :=
  let s1 := resetState false false s
  { s1 with
    ctl := { s1.ctl with porLow := true, powered }
    log := { slots := s.log.slots, jHours := s.log.jHours, jCycles := s.log.jCycles } }

/-- POR_N_ASSERT (R518). -/
def execPorNAssert (s : State) : Host.Outcome State Fault Refusal := .next (heldReset s.ctl.powered s)

/-- SUPPLY_REMOVAL (R466, R494, R519): the device is in OFF; waiting records and uncounted hours are lost. -/
def execSupplyRemoval (s : State) : Host.Outcome State Fault Refusal := .next (heldReset false s)

/-- The hour counter goes on from a moment at which CK_TS stands: what has passed of the hour is not known from its cycles
(R494, log 81). -/
def gapHours (s : State) : State :=
  if clockStands s then
    { s with log := { s.log with hourGap := true, hourMark := min s.log.hourMark s.time.cycles } }
  else s

/-- A reset that the always-on island survives, and the boot that follows (R73). The transition to BOOT raises its event
before the reset clears the event ring (R57, log 61), and carries the tag of the DEVICE_RESET that caused it (R46). -/
def warmReset (pcie : Bool) (cause : Option Cause) (env : BootEnv) (s : State) : State :=
  let s1 := gapHours s
  bootRom env (resetState true pcie (if s.ctl.devState = .boot then s1 else setDevState .boot cause s1))

/-- PERST_N_DEASSERT (R73). -/
def execPerstNDeassert (env : BootEnv) (s : State) : Host.Outcome State Fault Refusal :=
  if aonRuns s then .next (warmReset false none env s) else .next s

/-- SOFT_RESET_WRITE (R40, R43): values other than 0xB007_5EED are ignored. -/
def execSoftResetWrite (value : BitVec 32) (env : BootEnv) (s : State) : Host.Outcome State Fault Refusal :=
  if aonRuns s && value == 0xB0075EED then .next (warmReset true none env s) else .next s

/-- DEVICE_RESET_DELAY_EXPIRY (R60): the reset that DEVICE_RESET announced, also where the watchdog has expired meanwhile
(log 61). -/
def execDeviceResetDelayExpiry (env : BootEnv) (s : State) : Host.Outcome State Fault Refusal :=
  if aonRuns s && s.ctl.resetPending then .next (warmReset true s.ctl.resetBy env s) else .next s

/-- The response of a request of a mailbox channel will be discarded (R38): one of the SMBus fallback mailbox, which the
reset does not reach, is kept (DESIGN CHOICE, log 84). -/
def discardResponse (e : Exec) : Exec := if e.ch = 16 then e else { e with discard := true }

/-- A channel after a Function Level Reset (R38). -/
def flrChan (c : Chan) : Chan :=
  { c with
    slots := [.free, .free, .free, .free]
    queue := []
    bindClient := 0
    bound := false }

/-- FUNCTION_LEVEL_RESET (R38, R68): a held EV_STATE_CHANGED stays held (log 61). -/
def execFunctionLevelReset (s : State) : Host.Outcome State Fault Refusal :=
  if aonRuns s then
    .next { s with
      ctl := { s.ctl with exec := s.ctl.exec.map discardResponse }
      pwr := { s.pwr with stillExec := s.pwr.stillExec.map discardResponse }
      mbx := { s.mbx with chans := tmap s.mbx.chans fun n c => if n = 16 then c else flrChan c }
      rings := { s.rings with
        rings := tmap s.rings.rings fun _ r => { r with en := false, lost := 0 }
        seq := 0
        unreported := 0
        vectors := []
        pba := 0 } }
  else .next s

/-- TRST_N_ASSERT (R73): the JTAG TAP only, whose state the spec does not give. -/
def execTrstNAssert (s : State) : Host.Outcome State Fault Refusal := .next s

end Sys2Proof.Machine
end

