-- ==== Sys2Proof/Machine/Power.lean ====
section
/-!
DEFINITION. Power states, the gating of islands, wake, Sluice's windows and the thermal limits (chapter 16).
-/
namespace Sys2Proof.Machine

/-! ### The checks before an entry (R29, R469, R485) -/

/-- A capture in WAIT, RUNNING or POST (R340). -/
def capturing (s : State) (b : Nat) : Bool := let st := (basin s b).state; st == 2 || st == 3 || st == 4

/-- R29 forbids Hush: a Basin captures in a mode that needs a Weir. -/
def hushForbidden (s : State) : Bool := (List.range 4).any fun b => capturing s b && (basin s b).cfg.mode != 1

/-- A command's continuation in progress, other than a capture, a running job or a transfer (R50, R469 cause 4):
DEVICE_RESET, an image erasure, a log clear, page swaps, distance changes, rule commits, exports and jobs still QUEUED. -/
def continuing (s : State) : Bool :=
  s.ctl.resetPending || s.boot.update.phase == 1 || s.log.clearing ||
    (s.fr.planes.any fun p => p.2.swap.isSome || p.2.copying.isSome || p.2.prot.swap == some 1) ||
    (s.tm.terms.any fun t => t.2.pendDist.isSome) || decide (1 < s.cls.versions.length) ||
    (s.cls.versions.any fun v => !v.done) || !s.cap.exports.isEmpty ||
    (s.ast.jobs.any fun j => j.2.state == 1)

/-- The first condition of R469 that refuses the entry into Still: island, cause and unit. -/
def stillRefusal (s : State) : Option (Nat × Nat × Nat) :=
  match (List.range 4).find? (capturing s) with
  | some b => some (3, 1, b)
  | none =>
    match s.ast.jobs.find? fun j => j.2.state == 2 with
    | some j => some (1 + parterreOf j.2.core, 2, parterreOf j.2.core)
    | none =>
      match (List.range 4).find? fun x => (xfer s x).state == 1 with
      | some x => some (3, 3, x)
      | none => if continuing s then some (10, 4, 0) else none

/-! ### Entry (R467, R470, R485, R486) -/

def powerStateForm (p : Bytes) : Bool :=
  let mask := u16 p 2
  let ms := u32 p 4
  len 16 p && decide (u8 p 0 ≤ 2) && zeroAt p 1 1 && decide (mask < 256) && (u8 p 0 != 0 || mask == 0) &&
    decide (ms ≤ 86400000) && (bit mask 6 == (ms != 0)) && zeroAt p 8 8

/-- Legal in RUN and HUSH (R485). -/
def legalPower (d : DevState) : Bool := d == .run || d == .hush

def powerStateSpec : CmdSpec :=
  { op := 0x0E01, smb := false, priv := true, legal := legalPower, form := powerStateForm }

/-- The islands in the order in which Still stops them (R470), by their codes in R488. -/
def stillOrder : List Nat := [2, 1, 4, 6, 5, 3, 7, 8, 9, 10]

/-- The islands whose gates Hush asks for: those that hold the Aster cores and the Weirs (R28, R467). -/
def hushOrder : List Nat := [1, 2]

/-- An entry begins, and the last-wake record is cleared (R476). The wake settings take effect with the state that they are
for, so a refused entry leaves those in force (R474). -/
def beginEntry (target : Nat) (r : Req) (s : State) : State :=
  { s with pwr := { s.pwr with
    entry := some {
      target
      fromSt := s.ctl.devState
      cause := causeOf r
      mask := u16 r.payload 2
      timer := u32 r.payload 4 }
    wake := {} } }

/-- What Hush holds before it gates anything: running jobs at a bundle boundary, export-compression jobs at a record
boundary (R467, R377). -/
def holdWork (s : State) : State :=
  { s with
    pwr := { s.pwr with hushPoint := s.clk.point }
    ast := { s.ast with jobs := tmap s.ast.jobs fun _ j => if j.state == 2 then { j with held := true } else j }
    cap := { s.cap with weirs := tmap s.cap.weirs fun _ w => if w.job.isSome then { w with suspended := true } else w } }

/-- POWER_STATE (R467 to R472, R485, R486). -/
def powerStateAct (r : Req) (s : State) : Served :=
  let here := conflict 0x00 (stateCode s.ctl.devState) 0 s
  match u8 r.payload 0, s.ctl.devState with
  | 0, .hush =>
    let t := exitHush 7 0 (causeOf r) s
    if t.pwr.entry.isNone then .done t stOk (wakeBytes t.pwr.wake) else .later t
  | 1, .run => if hushForbidden s then here else .later (holdWork (beginEntry 1 r s))
  | 2, _ =>
    match stillRefusal s with
    | some (island, cause, unit) => .done s stSleepRefused (wakeBytes { island, cause, unit })
    | none => .later (beginEntry 2 r s)
  | _, _ => here

def execPowerState (s : State) : Host.Outcome State Fault Refusal := .next (serve powerStateSpec powerStateAct s)

/-! ### Restarting what was stopped (R165, R200, R471, R475) -/

/-- A started plane after its line island was stopped: HUNT, every enabled terminal in O1 with cause 13, and a full copy
for the standby (R165, R223, R253). It is no loss of synchronisation for sync_losses (DESIGN CHOICE, log 80) and raises no
EV_FRAME_LOCK (DESIGN CHOICE, log 84). The plane
loses its qualification here, plane A before plane B, since R113 does not say when (DESIGN CHOICE, log 83). -/
def restartPlane (p : Nat) (s : State) : State :=
  if (plane s p).state = 0 then s
  else
    let s1 := allToInitial p 13 none (enterHunt p (loseQual p none (startHunters p s)))
    if engineStatus s1 (standbyCode s1 p) = 4 then s1
    else
      let s2 := copyAgain p s1
      setMirror p (if (prot s2 p).rillUp then 2 else 3) none s2

/-- A host port that was not DISABLED is in TRAINING (R471, R475). -/
def restartPort (p : Nat) (s : State) : State :=
  let cond : LinkLoss := { blockLock := false, localFault := false, remoteFault := false }
  if (hport s p).state = 2 then linkDown p cond s
  else if (hport s p).state = 1 then advertise p (modHPort p (fun x => { x with anDone := false, trained := false }) s)
  else s

/-- Restarts one island (R471). -/
def restartIsland (island : Nat) (s : State) : State :=
  match island with
  | 4 => (List.range 4).foldl (fun x p => restartPort p x) s
  | 5 => restartPlane 0 s
  | 6 => restartPlane 1 s
  | _ => s

/-- A refusal during the stop phase: the islands restart in the reverse of their stopping order, the device stays in its
state, and the record names who refused (R471, R473); accesses to islands that had stopped are reported (R477). Its
EV_POWER_STATE carries the tag of the POWER_STATE that it ends (R46); the events of the restarts and EV_GATE_TIMEOUT, which
the refusing island causes, carry none (DESIGN CHOICE, log 84). -/
def rollback (e : Entry) (island cause unit : Nat) (s : State) : State :=
  let s1 : State := { s with pwr := { s.pwr with
    entry := none
    wake := { result := 2, island, cause, unit, time := s.time.ns } } }
  let s2 := e.stopped.foldl (fun x i => restartIsland i x) s1
  let s3 := if e.target = 1 then ungate s2 else s2
  let s4 := powerEvent e.fromSt e.fromSt e.cause (reportOff s3)
  finishLater stSleepRefused (wakeBytes s4.pwr.wake) s4

/-! ### Gating (R470, R473) -/

/-- The island whose acknowledgement an entry waits for. -/
def gateAsked (e : Entry) (island : Nat) : Bool :=
  match e.target with
  | 1 => !e.waitStep && hushOrder.contains island && !e.stopped.contains island
  | 2 => stillOrder[e.stopped.length]? == some island
  | _ => false

/-- What an island does before and as it stops (R470). -/
def stopIsland (island : Nat) (s : State) : State :=
  match island with
  | 4 => (List.range 4).foldl (fun x p => discardQueues p x) s
  | 5 => dropTxEn [0x00, 0x01] s
  | 6 => dropTxEn [0x10, 0x11] s
  | 7 => { s with time := { s.time with ppsOut := false } }
  | _ => s

/-- An island has stopped. -/
def noteStopped (island : Nat) (e : Entry) (s : State) : State :=
  { s with pwr := { s.pwr with entry := some { e with stopped := island :: e.stopped } } }

/-- Hush has gated every core and Weir: CK_CORE steps to point 0 (R467). -/
def hushGated (e : Entry) (s : State) : State :=
  let s1 : State := { s with pwr := { s.pwr with
    gated := true
    entry := some { e with waitStep := true } } }
  if s.clk.point = 0 ∧ s.clk.step.isNone then enterHush true s1 else startStep { target := 0, origin := .power } s1

/-- Control has stopped: the device is in STILL, and the response waits for the wake (R472, R475). The mask and the timer
of a Hush that it leaves act again once the wake has brought it back (R48, R474). DEVICE_STATE.CP_ALIVE stays 1, since
R40 does not say what it reads while the CP is stopped (DESIGN CHOICE, log 80). -/
def enterStill (e : Entry) (s : State) : State :=
  let s1 : State := { s with
    ctl := { s.ctl with exec := none }
    pwr := { s.pwr with
      entry := none
      entryState := e.fromSt
      hushWake := (s.pwr.wakeMask, s.pwr.timerMs)
      wakeMask := e.mask
      timerMs := e.timer
      latched := none
      stillExec := s.ctl.exec } }
  setDevState .still e.cause s1

/-- Classification acknowledges only once the classifier is drained (R470). -/
def drained (island : Nat) (s : State) : Bool := island != 3 || s.cls.items.isEmpty

/-- GATE_ACK (R467, R470, R471, R473): an acknowledgement that no entry asks for is not this event. -/
def execGateAck (island : Nat) (s : State) : Host.Outcome State Fault Refusal :=
  match s.pwr.entry with
  | none => .next s
  | some e =>
    if !gateAsked e island || !drained island s then .next s
    else if e.target = 1 then
      let s1 := noteStopped island e s
      if e.stopped.length = 1 then .next (hushGated { e with stopped := island :: e.stopped } s1) else .next s1
    else match stillRefusal s with
      | some (i, cause, unit) => .next (rollback e i cause unit s)
      | none =>
        let s1 := noteStopped island e (stopIsland island s)
        if island = 10 then .next (enterStill e s1) else .next s1

/-- CK_NOC cycles after which a gate request is abandoned (R473). -/
def gateLimit : Nat := 4096

/-- GATE_TIMEOUT (R471, R473): the entry is refused. -/
def execGateTimeout (island : Nat) (s : State) : Host.Outcome State Fault Refusal :=
  match s.pwr.entry with
  | none => .next s
  | some e =>
    if gateAsked e island then
      let unit := if island = 2 then 1 else 0
      .next (rollback e island 5 unit (raise 0x0E02 island (le 1 unit ++ le 2 gateLimit) none s))
    else .next s

/-! ### Wake (R474, R475) -/

/-- WAKE_TIMER_EXPIRY (R474). -/
def execWakeTimerExpiry (s : State) : Host.Outcome State Fault Refusal :=
  if s.pwr.timerMs ≠ 0 ∧ (s.ctl.devState = .hush ∨ s.ctl.devState = .still) ∧ aonRuns s then
    .next (wakeSource 5 0 { s with pwr := { s.pwr with timerMs := 0 } })
  else .next s

/-- PCIE_D0_CONFIG_WRITE (R474): the write returns the function from D3hot to D0. -/
def execPcieD0ConfigWrite (s : State) : Host.Outcome State Fault Refusal :=
  if aonRuns s then .next (wakeSource 2 0 s) else .next s

/-- The Still duration is added to device time, which is no longer synchronised (R123). -/
def addStill (ns : Nat) (s : State) : State :=
  { s with time := { s.time with
    cycles := s.time.cycles + ns * 5 / 8
    ns := s.time.ns + BitVec.ofNat 64 ns
    ppsDone := ppsSecond s.time.ppsOffset (s.time.ns + BitVec.ofNat 64 ns)
    unsynced := true } }

/-- The POWER_STATE that entered Still is answered on wake (R472). -/
def answerStill (s : State) : State :=
  match s.pwr.stillExec with
  | none => s
  | some e => postResponse e stOk (wakeBytes s.pwr.wake) { s with pwr := { s.pwr with stillExec := none } }

/-- WAKE_COMPLETE (R123, R165, R474 to R477): the wake sequence ends. Its events carry no command's tag, since the wake
source causes them (DESIGN CHOICE, log 84). -/
def execWakeComplete (stillNs : Nat) (s : State) : Host.Outcome State Fault Refusal :=
  match s.pwr.latched with
  | none => .next s
  | some (source, unit) =>
    if s.ctl.devState ≠ .still then .next s
    else
      let t := agePeers (stillNs * 5 / 8) (addStill stillNs s)
      let s1 : State := { t with
        ctl := { t.ctl with devState := s.pwr.entryState }
        pwr := { t.pwr with
          latched := none
          wakeMask := if s.pwr.entryState = .hush then s.pwr.hushWake.1 else t.pwr.wakeMask
          timerMs := if s.pwr.entryState = .hush then s.pwr.hushWake.2 else t.pwr.timerMs
          wake := { source, result := 1, unit, time := t.time.ns } } }
      let s2 := [5, 6, 4].foldl (fun x i => restartIsland i x) (reportOff s1)
      let s3 := raise 0x0002 0 (le 1 (stateCode .still) ++ le 1 (stateCode s.pwr.entryState)) none s2
      .next (powerEvent .still s.pwr.entryState none (answerStill s3))

/-! ### Budget (R482 to R484, R487, R488) -/

def budgetForm (p : Bytes) : Bool :=
  len 8 p && decide (20000 ≤ u32 p 0 ∧ u32 p 0 ≤ 46000) && decide (70 ≤ u8 p 4 ∧ u8 p 4 ≤ 105) && zeroAt p 5 3

def powerBudgetSetSpec : CmdSpec := { op := 0x0E02, smb := false, priv := true, legal := legalStd, form := budgetForm }

/-- POWER_BUDGET_SET (R487): from the next window boundary. -/
def powerBudgetSetAct (r : Req) (s : State) : Served :=
  ok { s with pwr := { s.pwr with pendBudget := some (u32 r.payload 0, u8 r.payload 4) } }

def execPowerBudgetSet (s : State) : Host.Outcome State Fault Refusal :=
  .next (serve powerBudgetSetSpec powerBudgetSetAct s)

/-- A sensor reads at or above the ceiling (R484). -/
def atCeiling (s : State) : Bool := s.pwr.temps.any fun t => decide ((s.pwr.ceilingC : Int) * 16 ≤ t)

/-- Every sensor reads below the ceiling less 5 °C (R484). -/
def belowCeiling (s : State) : Bool := s.pwr.temps.all fun t => decide (t < ((s.pwr.ceilingC : Int) - 5) * 16)

def powerStatusForm (p : Bytes) : Bool := len 4 p && zeroAt p 0 4

def powerStatusSpec : CmdSpec :=
  { op := 0x0E03, smb := true, priv := true, legal := readyToFault, form := powerStatusForm }

/-- The 64 bytes of POWER_STATUS (R488). -/
def powerStatus (s : State) : Bytes :=
  let flags := b2n (atCeiling s) + 2 * b2n s.pwr.hot + 4 * b2n s.pwr.stalled
  le 1 (stateCode s.ctl.devState) ++ le 1 s.clk.point ++ le 1 (b2n s.clk.vddConfirmed) ++ le 1 flags ++
    le 4 s.pwr.budget ++ le 1 s.pwr.ceilingC ++ zeros 3 ++ le 2 s.clk.vddMv ++ le 2 s.clk.idd ++
    le 8 (unsigned 64 s.pwr.balance) ++ le 4 s.pwr.fixedUj ++
    le 2 ((waitingWork s).filter (wantsBudget s)).length ++ zeros 2 ++
    ((List.range 8).flatMap fun i => le 2 (unsigned 16 (s.pwr.temps.getD i 0))) ++ wakeBytes s.pwr.wake

/-- POWER_STATUS (R488). -/
def powerStatusAct (_ : Req) (s : State) : Served := okWith (powerStatus s) s

def execPowerStatus (s : State) : Host.Outcome State Fault Refusal := .next (serve powerStatusSpec powerStatusAct s)

/-- New budget values take effect at a window boundary, and the balance is clipped to the cap (R487). -/
def takeBudget (s : State) : State :=
  match s.pwr.pendBudget with
  | none => s
  | some (mw, c) => credit 0 { s with pwr := { s.pwr with
      pendBudget := none
      budget := mw
      ceilingC := c } }

/-- The window that ends: the allowance is added, the fixed charge taken (R482). -/
def chargeWindow (fixedUj : Nat) (s : State) : State :=
  credit (allowance s - (fixedUj : Int)) { s with pwr := { s.pwr with fixedUj } }

/-- Work that still waits for budget has waited one window more (R483). -/
def countWaits (s : State) : State :=
  ((waitingWork s).filter (wantsBudget s)).foldl (fun x w =>
    match w with
    | .job n => modJob n (fun j => { j with waitWin := j.waitWin + 1 }) x
    | .segment e => modExport e (fun y => { y with waitWin := y.waitWin + 1 }) x) s

/-- Sluice steps the point at a window boundary (R484): never in HUSH. -/
def stepPoint (s : State) : State :=
  if s.ctl.devState = .hush then s
  else if atCeiling s ∧ 0 < s.clk.point then sluiceStep (s.clk.point - 1) 2 s
  else if 10 ≤ s.pwr.quiet ∧ !s.pwr.stalled ∧ belowCeiling s ∧ !s.pwr.hot ∧ s.clk.point < s.clk.ceiling then
    sluiceStep (s.clk.point + 1) 3 s
  else s

/-- SLUICE_WINDOW (R482 to R484, R487): Sluice is firmware, so the CP must run. -/
def execSluiceWindow (fixedUj : Nat) (s : State) : Host.Outcome State Fault Refusal :=
  if !cpRuns s then .next s
  else
    let quiet := if s.pwr.stalled || s.pwr.waited then 0 else s.pwr.quiet + 1
    let s1 := chargeWindow fixedUj (takeBudget { s with pwr := { s.pwr with quiet, waited := false } })
    .next (stepPoint (countWaits (decideWork true s1)))

/-! ### Temperature (R480, R481, R484) -/

/-- One sensor's reading, which an injection replaces, and whether it did (R509, 0x11). -/
def readSensor (i : Nat) (t : Int) (s : State) : (Int × Bool) × State :=
  let o := occurrence 0x11 i s
  match o.1 with
  | none => ((t, false), o.2)
  | some p => ((p.toInt, true), o.2)

/-- The readings of the eight sensors, and the sensors whose reading was injected. -/
def readSensors (temps : List Int) (s : State) : (List Int × List Nat) × State :=
  (List.range 8).foldl (fun (acc : (List Int × List Nat) × State) i =>
    let r := readSensor i (temps.getD i 0) acc.2
    ((acc.1.1 ++ [r.1.1], if r.1.2 then acc.1.2 ++ [i] else acc.1.2), r.2)) (([], []), s)

/-- The sensor with the highest reading, the lowest number among equals. -/
def hottest (temps : List Int) : Nat :=
  (temps.zipIdx.foldl (fun (m : Int × Nat) x => if m.1 < x.1 then x else m) (temps.getD 0 0, 0)).2

/-- EV_THERMAL of a sensor (R489). -/
def thermalEvent (inj : List Nat) (kind sensor : Nat) (s : State) : State :=
  raiseWith (inj.contains sensor) 0x0E04 sensor
    (le 1 kind ++ zeros 1 ++ le 2 (unsigned 16 (s.pwr.temps.getD sensor 0))) none s

/-- The ceiling is reached, or every sensor is 5 °C below it again (R484). -/
def judgeCeiling (inj : List Nat) (s : State) : State :=
  let h := hottest s.pwr.temps
  if !s.pwr.ceilHit && atCeiling s then
    thermalEvent inj 1 h { s with pwr := { s.pwr with ceilHit := true } }
  else if s.pwr.ceilHit && belowCeiling s then
    thermalEvent inj 2 h { s with pwr := { s.pwr with ceilHit := false } }
  else s

/-- THERM_HOT, 110 °C, and its release below 105 °C (R481). -/
def judgeHot (inj : List Nat) (s : State) : State :=
  let h := hottest s.pwr.temps
  let top := s.pwr.temps.getD h 0
  if !s.pwr.hot && decide (1760 ≤ top) then
    let s1 := thermalEvent inj 3 h { s with pwr := { s.pwr with hot := true } }
    if s1.clk.point = 0 ∧ s1.clk.step.isNone then s1 else startStep { target := 0, origin := .thermal, reason := 4 } s1
  else if s.pwr.hot && decide (top < 1680) then
    thermalEvent inj 4 h { s with pwr := { s.pwr with hot := false } }
  else s

/-- THERM_CRIT, 125 °C: THERM_TRIP_N and FAULT (R481). -/
def judgeCrit (inj : List Nat) (s : State) : State :=
  let h := hottest s.pwr.temps
  let top := s.pwr.temps.getD h 0
  if !s.pwr.trip && decide (2000 ≤ top) then
    hardwareFault (inj.contains h) 0x0F04 h (zeros 2 ++ le 2 (unsigned 16 top))
      { s with pwr := { s.pwr with trip := true } }
  else s

/-- THERMAL_READING (R480, R481, R484). In STILL THERM_CRIT alone is judged: CK_CORE and the jobs that THERM_HOT acts on
stand still, and it is judged at the first reading after the wake (log 77). -/
def execThermalReading (temps : List Int) (s : State) : Host.Outcome State Fault Refusal :=
  if !aonRuns s then .next s
  else
    let r := readSensors temps s
    let inj := r.1.2
    let s1 : State := { r.2 with pwr := { r.2.pwr with temps := r.1.1 } }
    let s2 := if cpRuns s1 then judgeCeiling inj s1 else s1
    .next (judgeCrit inj (if s.ctl.devState = .still then s2 else judgeHot inj s2))

end Sys2Proof.Machine
end

