-- ==== Sys2Proof/Machine/Registers.lean ====
section
/-!
DEFINITION. Writes to the direct registers: the plain ones by their access codes (R10), the rings (R63, R67, R68), time
and clocks (R125, R126), the log view (R502) and the injection window (R505, R506).
-/
namespace Sys2Proof.Machine

/-! ### Plain registers (R10) -/

/-- A write to a field of the MSI-X table; unmasking a vector whose message waits sends it (R64, log 9). -/
def msixWrite (off : Nat) (v : Word) (s : State) : State :=
  let n := off / 16
  let put := fun (f : Vector64 → Vector64) (x : State) =>
    ({ x with rings := { x.rings with vectors := tmod {} x.rings.vectors n f } } : State)
  match off % 16 with
  | 0 => put (fun x => { x with addrLo := v }) s
  | 4 => put (fun x => { x with addrHi := v }) s
  | 8 => put (fun x => { x with data := v }) s
  | _ =>
    let s1 := put (fun x => { x with masked := v.getLsbD 0 }) s
    if !v.getLsbD 0 && bit s1.rings.pba.toNat n then
      emit (.msix n) { s1 with rings := { s1.rings with pba := s1.rings.pba &&& ~~~(BitVec.ofNat 64 (2 ^ n)) } }
    else s1

/-- A write to a ring register without a behaviour of its own: discarded while the ring is enabled (R63). -/
def ringWrite (n off : Nat) (v : Word) (s : State) : State :=
  if (ring s n).en then s
  else match off with
    | 0x00 => modRing n (fun r => { r with baseLo := v }) s
    | 0x04 => modRing n (fun r => { r with baseHi := v }) s
    | 0x08 => if n = 0 then s else modRing n (fun r => { r with log2 := v.toNat % 32 }) s
    | 0x0C => if n = 0 ∨ v.getLsbD 0 then s else modRing n (fun r => { r with dir := v.getLsbD 1 }) s
    | _ => s

/-- A write to a register of the injection window without a behaviour of its own (R505). -/
def injWrite (off : Nat) (v : Word) (s : State) : State :=
  let put := fun (f : Inject → Inject) => ({ s with inj := f s.inj } : State)
  match off with
  | 0x04 => put fun j => { j with target := v }
  | 0x08 => put fun j => { j with param := v }
  | 0x0C => put fun j => { j with rep := v.getLsbD 0 }
  | 0x10 => put fun j => { j with count := v }
  | 0x14 => put fun j => { j with spacing := v }
  | 0x18 => put fun j => { j with enable := v.getLsbD 0 }
  | _ => s

/-- A 32-bit write to a direct register that has no behaviour of its own (R10, R39): RW fields are set, and every other
address ignores the write. -/
def regWrite (off : Nat) (v : Word) (s : State) : State :=
  if 0x10000 ≤ off ∧ off < 0x20000 then
    if off % 0x1000 = 0x808 then
      modChan ((off - 0x10000) / 0x1000) (fun c => { c with bindClient := v.toNat % 256, bound := v.getLsbD 8 }) s
    else s
  else if 0x30000 ≤ off ∧ off < 0x30400 then msixWrite (off - 0x30000) v s
  else if 0x100000 ≤ off ∧ off < 0x100800 then ringWrite ((off - 0x100000) / 0x40) (off % 0x40) v s
  else if 0x400000 ≤ off ∧ off < 0x410000 then injWrite (off - 0x400000) v s
  else s

/-- REGISTER_WRITE (R10, R36): only a naturally aligned 32-bit write has an effect. -/
def execRegisterWrite (off : Nat) (data : Bytes) (s : State) : Host.Outcome State Fault Refusal :=
  .next (barAccess true 0 off data.length (fun x =>
    if data.length = 4 ∧ off % 4 = 0 then regWrite off (BitVec.ofNat 32 (u32 data 0)) x else x) s)

/-! ### Rings (R63, R66 to R68) -/

/-- The BAR0 offset of a ring register. -/
def ringOff (n off : Nat) : Nat := 0x100000 + 0x40 * n + off

/-- A ring is enabled: RING_HEAD returns to 0, and the event ring lets out what waits (R63, R66, R68). -/
def enableRing (n : Nat) (dir : Bool) (s : State) : State :=
  if (ring s n).en then s
  else
    let s1 := modRing n (fun r => { r with en := true, dir := n != 0 && dir, head := 0 }) s
    if n = 0 then flushEvents { s1 with rings := { s1.rings with phase := true } } else s1

/-- RING_CTRL_ENABLE (R63, R68). -/
def execRingCtrlEnable (ring : Nat) (dir : Bool) (s : State) : Host.Outcome State Fault Refusal :=
  if 32 ≤ ring then .next s else .next (barAccess true 0 (ringOff ring 0x0C) 4 (enableRing ring dir) s)

/-- RING_CTRL_DISABLE (R63): RING_HEAD stays readable. -/
def execRingCtrlDisable (ring : Nat) (s : State) : Host.Outcome State Fault Refusal :=
  if 32 ≤ ring then .next s
  else .next (barAccess true 0 (ringOff ring 0x0C) 4 (modRing ring fun r => { r with en := false }) s)

/-- RING_TAIL_WRITE (R63, R67): room given back to the event ring lets out what waits. -/
def execRingTailWrite (ring : Nat) (value : BitVec 32) (s : State) : Host.Outcome State Fault Refusal :=
  if 32 ≤ ring then .next s
  else .next (barAccess true 0 (ringOff ring 0x14) 4 (fun x =>
    let y := modRing ring (fun r => { r with tail := value.toNat % 65536 }) x
    if ring = 0 then flushEvents y else y) s)

/-! ### Time and clocks (R125, R126) -/

/-- What a read of TIME_NS_LO latches (R125). -/
def latchTime (s : State) : State :=
  { s with time := { s.time with
    latHi := BitVec.ofNat 32 (s.time.ns.toNat / 2 ^ 32)
    latFrac := BitVec.ofNat 16 (s.time.frac.toNat / 256) } }

/-- TIME_NS_LO_READ (R125). -/
def execTimeNsLoRead (s : State) : Host.Outcome State Fault Refusal := .next (readAccess 0x200000 latchTime s)

/-- What a read of PPS_IN_TS_LO latches (R125). -/
def latchPps (s : State) : State :=
  { s with time := { s.time with ppsTsHi := BitVec.ofNat 32 (s.time.ppsTs.toNat / 2 ^ 32) } }

/-- PPS_IN_TS_LO_READ (R125). -/
def execPpsInTsLoRead (s : State) : Host.Outcome State Fault Refusal := .next (readAccess 0x200014 latchPps s)

/-- What a read of TIME_STATUS clears (R10, R125). -/
def clearTimeLatches (s : State) : State := { s with time := { s.time with stepRefused := false, incrRejected := false } }

/-- TIME_STATUS_READ (R10, R125). -/
def execTimeStatusRead (s : State) : Host.Outcome State Fault Refusal := .next (readAccess 0x200010 clearTimeLatches s)

/-- INCR_WRITE (R126). -/
def execIncrWrite (value : BitVec 32) (s : State) : Host.Outcome State Fault Refusal :=
  .next (barAccess true 0 0x20000C 4 (fun x =>
    if 0x01800000 ≤ value.toNat ∧ value.toNat ≤ 0x01B33333 then setIncr value x
    else { x with time := { x.time with incrRejected := true } }) s)

/-- CLK_FORCED_CLEAR (R10, R125): a 1 clears its bit. -/
def execClkForcedClear (value : BitVec 32) (s : State) : Host.Outcome State Fault Refusal :=
  .next (barAccess true 0 0x200020 4 (fun x =>
    { x with clk := { x.clk with forced := x.clk.forced &&& ~~~(value.setWidth 7) } }) s)

/-- LOG_VIEW_SLOT_WRITE (R501, R502). -/
def execLogViewSlotWrite (value : BitVec 32) (s : State) : Host.Outcome State Fault Refusal :=
  .next (barAccess true 0 0x30001C 4 (modLog fun l => { l with
    viewSlot := value.toNat % 32768
    viewBusy := true }) s)

/-! ### The injection window (R505 to R509) -/

/-- The target is one that the detector has; none for an unknown detector (R509). -/
def injTarget (det t : Nat) (s : State) : Option Bool :=
  match det with
  | 0x01 => some (tapLanes.contains t)
  | 0x02 | 0x04 | 0x05 | 0x06 => some (lineRx.contains t)
  | 0x03 | 0x13 => some (decide (t < 2))
  | 0x07 => some (canReceive t && (lane s t).state == 2)
  | 0x08 | 0x09 | 0x0B | 0x10 => some (decide (t < 4))
  | 0x0A => some (isHostLane t)
  | 0x0C | 0x12 | 0x19 | 0x1A => some (t == 0)
  | 0x0D => some (isInstance t)
  | 0x0E | 0x0F => some (decide (t < stackTotal s))
  | 0x11 | 0x17 => some (decide (t < 8))
  | 0x14 => some (decide (t ≤ 16))
  | 0x15 | 0x16 => some (isEngine t)
  | 0x18 => some (decide (t < 64))
  | _ => none

/-- The parameter and the mode are ones that the detector takes (R509). -/
def injParam (det : Nat) (param : Word) (rep : Bool) : Bool :=
  let p := param.toNat
  match det with
  | 0x02 => decide (p ≤ 16)
  | 0x03 => decide (p ≤ 4)
  | 0x05 => !rep && decide (1 ≤ p ∧ p ≤ 1000000)
  | 0x06 => decide (1 ≤ p ∧ p ≤ 100)
  | 0x07 => decide (1 ≤ p ∧ p ≤ 255)
  | 0x09 => decide (p ≤ 1)
  | 0x0A => decide (1 ≤ p ∧ p ≤ 1024)
  | 0x0D | 0x0E => true
  | 0x0F | 0x19 => decide (1 ≤ p ∧ p ≤ 2)
  | 0x10 => decide (p ≤ 7) || p == 0xFF
  | 0x11 => decide (-640 ≤ param.toInt ∧ param.toInt ≤ 2400)
  | 0x1A => !rep && p == 0
  | _ => p == 0

/-- The island, by its code in R488, that holds a memory of R403. -/
def instanceIsland (i : Nat) : Nat :=
  let u := i % 0x1000
  match i / 0x1000 with
  | 0 => 10
  | 1 => 5 + u / 16
  | 2 | 3 => 3
  | 4 | 7 => 1 + u / 4
  | 5 | 6 => 1 + u / 32
  | _ => 1 + u

/-- The island that holds the target of a detector; none for those of the always-on island. -/
def injIsland (det t : Nat) : Option Nat :=
  match det with
  | 0x01 | 0x02 | 0x04 | 0x05 | 0x06 | 0x15 | 0x16 => some (5 + t / 16)
  | 0x03 | 0x13 => some (5 + t)
  | 0x07 => some (if isHostLane t then 4 else 5 + t / 16)
  | 0x08 | 0x09 | 0x0A | 0x10 => some 4
  | 0x0B | 0x0C | 0x19 => some 3
  | 0x0D => some (instanceIsland t)
  | 0x0E | 0x0F => some 8
  | 0x12 | 0x14 | 0x1A => some 10
  | 0x17 => some (1 + t / 4)
  | 0x18 => some (1 + t / 32)
  | _ => none

/-- The target is gated, as Weirs and the memories and cores of Aster are in Hush, or its island is stopped
(R467, R470, R478). -/
def injGated (det t : Nat) (s : State) : Bool :=
  ((injIsland det t).any fun n => !islandUp n s) ||
    match det with
    | 0x0D => instanceOff s t
    | 0x17 | 0x18 => s.pwr.gated
    | _ => false

/-- The lowest entry that is not armed (R505). -/
def freeEntry (j : Inject) : Option Nat := (List.range 16).find? fun i => (tfind j.entries i).isNone

/-- Refuses an INJECT_ARM write (R506). -/
def injRefuse (cause : Nat) (s : State) : State := { s with inj := { s.inj with refused := true, cause } }

/-- The cause for which arming is refused, in the order enable, detector, target, parameter, island, room (R506,
log 26). -/
def armRefusal (det : Nat) (s : State) : Option Nat :=
  let j := s.inj
  let t := j.target.toNat
  if !j.enable then some 5
  else match injTarget det t s with
    | none => some 1
    | some good =>
      if !good then some 2
      else if !injParam det j.param j.rep ∨ (det = 0x10 ∧ j.param.toNat = 0xFF ∧ (hport s t).pauseMode ≠ 1) then some 3
      else if injGated det t s then some 6
      else if (injIndex det t s).isNone ∧ (freeEntry j).isNone then some 4
      else none

/-- Arms an entry with the values of the window's registers, replacing one of the same detector and target (R506). -/
def putEntry (det : Nat) (s : State) : State :=
  let j := s.inj
  let i := match injIndex det j.target.toNat s with
    | some i => i
    | none => (freeEntry j).getD 0
  let e : InjEntry := {
    det
    target := j.target
    param := j.param
    rep := j.rep
    remaining := if j.rep then j.count else 1
    spacing := if j.rep then j.spacing.toNat else 0 }
  { s with inj := { j with entries := tset j.entries i e } }

/-- An injection of LOS acts when it is armed: SD is seen inactive for its parameter in µs (R509, 0x05). -/
def losInjection (t : Nat) (s : State) : State :=
  let o := occurrence 0x05 t s
  match o.1 with
  | none => o.2
  | some p => modDef t (fun d => { d with sdUntil := o.2.time.cycles + p.toNat * 625 }) o.2

/-- A write to INJECT_ARM (R505, R506). One without ARM and DISARM arms and disarms nothing: its mode is out of range
(log 26). A pause in force is the first occurrence of detector 0x10 (R509). -/
def armWrite (v : Word) (s : State) : State :=
  let det := v.toNat % 65536
  let t := s.inj.target.toNat
  match v.getLsbD 31, v.getLsbD 30 with
  | false, false | true, true => injRefuse 3 s
  | false, true =>
    match injIndex det t s with
    | none => injRefuse 7 s
    | some i => { s with inj := { s.inj with entries := tdel s.inj.entries i } }
  | true, false =>
    match armRefusal det s with
    | some c => injRefuse c s
    | none =>
      if det = 0x05 then losInjection t (putEntry det s)
      else if det = 0x10 then pauseInjection false t (putEntry det s)
      else putEntry det s

/-- INJECT_ARM (R506). -/
def execInjectArm (value : BitVec 32) (s : State) : Host.Outcome State Fault Refusal :=
  .next (barAccess true 0 0x400000 4 (armWrite value) s)

/-- INJECT_DISARM (R506). -/
def execInjectDisarm (value : BitVec 32) (s : State) : Host.Outcome State Fault Refusal :=
  .next (barAccess true 0 0x400000 4 (armWrite value) s)

/-- What a read of INJECT_STATUS clears (R10, R505). -/
def clearRefused (s : State) : State := { s with inj := { s.inj with refused := false } }

/-- INJECT_STATUS_READ (R10, R505). -/
def execInjectStatusRead (s : State) : Host.Outcome State Fault Refusal := .next (readAccess 0x40001C clearRefused s)

end Sys2Proof.Machine
end

