-- ==== Sys2Proof/Machine/Repair.lean ====
section
/-!
DEFINITION. The repair of on-die memories after a CRC error, and the reset of halted DMA channels (R399, R400, R402).
-/
namespace Sys2Proof.Machine

/-- An error that the repair mended: EV_SRAM_ERROR with its outcome (R399, R408). -/
def mended (inj : Bool) (inst outcome addr : Nat) (s : State) : State := sramError inj inst outcome addr 0 s

/-- A kernel slot is emptied, and the queued jobs that name it end with result 2 and trap cause 6 (R400). -/
def emptyKernel (k : Nat) (s : State) : State :=
  let s1 : State := { s with ast := { s.ast with kernels := tset s.ast.kernels k {} } }
  (s.ast.jobs.filter fun j => j.2.state == 1 && j.2.kernel == k).foldl (fun x j =>
    jobDone j.1 2 (modJob j.1 (fun y => { y with trapCause := 6 }) x)) s1

/-- The oldest SDU of a plane's OMCI queue is discarded (R400). -/
def dropOmci (p : Nat) (s : State) : State :=
  match (plane s p).omciRx with
  | [] => s
  | o :: rest => countTerm o.owner 76 (modPlane p (fun x => { x with omciRx := rest }) s)

/-- What an unrepaired line of CP memory costs (R399, R400): kernel slots, COPY_CP queues and OMCI queues lose their
content, a rule entry whose master it is becomes invalid, anything else leads to FAULT. The spec gives these memories no
addresses; the model's own are 0x10 + slot, 0x100 + source, 0x200 + plane and 0x10000 + rule entry (log 39). -/
def cpLineLost (inj : Bool) (addr : Nat) (s : State) : State :=
  if 0x10 ≤ addr ∧ addr < 0x20 then emptyKernel (addr - 0x10) s
  else if 0x100 ≤ addr ∧ addr < 0x104 then dropCopy (addr - 0x100) s
  else if 0x200 ≤ addr ∧ addr < 0x202 then dropOmci (addr - 0x200) s
  else if 0x10000 ≤ addr ∧ addr < 0x20000 then invalidateRule (addr - 0x10000) s
  else if s.ctl.devState = .fault then s
  else firmwareFault inj (le 4 addr) s

/-- The compiled line of a rule is no longer under recomputation (R308). -/
def lineDone (n : Nat) (s : State) : State := modCls (fun c => { c with badLines := c.badLines.filter fun k => k != n }) s

/-- A line that is not repaired holds no error that could be met again. -/
def clearSpoilt (inst addr : Nat) (s : State) : State :=
  { s with mem := { s.mem with spoilt := s.mem.spoilt.filter fun e => !(e.1 == inst && e.2.1 == addr) } }

/-- What follows when the repair of a line fails; `inj` marks the records that an injection causes (R399, R507). -/
def repairFails (inj : Bool) (inst addr : Nat) (s : State) : State :=
  match inst / 0x1000 with
  | 0 => cpLineLost inj addr s
  | 1 => engineFault inj (inst % 0x1000) 2 s
  | 2 => invalidateRule addr (lineDone addr s)
  | 6 => modCore (inst % 0x1000) (fun c => { c with badFetch := true }) s
  | _ => s

/-- The classes of memory that have a repair (R399): CP, line engines, compiled rules, Aster instructions. -/
def repairable (inst : Nat) : Bool :=
  isInstance inst && (inst / 0x1000 == 0 || inst / 0x1000 == 1 || inst / 0x1000 == 2 || inst / 0x1000 == 6)

/-- A line whose class has a repair (R399): not the state lines of a line engine, nor the CP data whose lines the model knows
(log 39). -/
def hasRepair (inst addr : Nat) : Bool :=
  match inst / 0x1000 with
  | 0 => !(decide (0x10 ≤ addr ∧ addr < 0x20) || decide (0x100 ≤ addr ∧ addr < 0x104) ||
      decide (0x200 ≤ addr ∧ addr < 0x202) || decide (0x10000 ≤ addr ∧ addr < 0x20000))
  | 1 => decide (addr < stateLine 0)
  | _ => true

/-- How a repair that is done is reported: compiled rules and the Port-ID and Alloc-ID lookups of a line engine, which
the model puts at line addresses from 0x1000 on, are recomputed, every other memory is refetched (R399, log 39). -/
def repairOutcome (inst addr : Nat) : Nat :=
  if inst / 0x1000 = 2 ∨ (inst / 0x1000 = 1 ∧ 0x1000 ≤ addr) then 2 else 1

/-- SRAM_REPAIR_DONE (R399): a refetch or a recompute completes or fails. A completed one writes the line; where a mask
corrupts it, the reader, which still stalls, or the next lookup meets the error again, and the line is repaired once
more (R308, R403, log 39). A line whose class has no repair is unrepaired. -/
def execSramRepairDone (inst : Nat) (addr : Nat) (ok : Bool) (s : State) : Host.Outcome State Fault Refusal :=
  if !repairable inst || !cpRuns s then .next s
  else
    let inj := lineInjected s inst addr
    if ok && hasRepair inst addr then
      let k := rewriteLine inst addr s
      let s1 := if inst / 0x1000 = 2 ∧ k.1 then lineDone addr k.2 else k.2
      .next (mended inj inst (repairOutcome inst addr) addr s1)
    else .next (repairFails inj inst addr (mended inj inst 3 addr (clearSpoilt inst addr s)))

/-- DMA_CHANNEL_RESET (R402, R408): firmware resets a halted channel and reports it. -/
def execDmaChannelReset (parterre : Nat) (channel : Nat) (s : State) : Host.Outcome State Fault Refusal :=
  match s.mem.halted.find? fun h => h.1 == parterre && h.2.1 == channel with
  | none => .next s
  | some h =>
    if cpRuns s then
      .next (raiseWith h.2.2.2 0x0B06 parterre (le 1 channel ++ le 1 h.2.2.1) none
        { s with mem := { s.mem with halted := s.mem.halted.erase h } })
    else .next s

end Sys2Proof.Machine
end

