-- ==== Sys2Proof/Machine/TermViews.lean ====
section
/-!
DEFINITION. What a terminal does in its own view of the downstream (R200, R205, R207 to R217), its timers, and the
reports of plane-wide causes (R204).
-/
namespace Sys2Proof.Machine

/-! ### Messages and LODS (R200, R204, R205, R217) -/

/-- TERM_VIEW_PLOAM (R205): the oldest message on its way reaches the terminal, and what it makes of it decides the grants
behind it. -/
def execTermViewPloam (term : Nat) (s : State) : Host.Outcome State Fault Refusal :=
  match findTerm s term with
  | none => .next s
  | some t =>
    match t.view with
    | [] => .next s
    | v :: rest =>
      if !lineRuns (planeOf term) s then .next s
      else .next (lateAnswers (planeOf term) (actOn term v.msg t (modTermLocal term (fun x => { x with view := rest }) s)))

/-- TERM_VIEW_LODS (R200, R204, R205, R217): in the terminal's view the downstream is lost, or is back. -/
def execTermViewLods (term : Nat) (lost : Bool) (s : State) : Host.Outcome State Fault Refusal :=
  let f := term
  match findTerm s f with
  | none => .next s
  | some t =>
    if !lineRuns (planeOf f) s then .next s
    else match bulkOf s f (if lost then [7] else [8, 2]) with
      | some (n, b) =>
        if !lost ∧ (bulkOf s f [7]).isSome then .next s else .next (lateAnswers (planeOf f) (bulkStep f n b t.state s))
      | none =>
        if !lost ∧ t.state = 0x11 ∧ planeReady s (planeOf f) then
          .next (lateAnswers (planeOf f) (enterState f 0x12 2 true none none s))
        else .next s

/-! ### Keys (R213, R215, R217) -/

/-- A frame that names no valid slot has been counted, and may declare LOK (R213, R217). -/
def lostKey (f : Nat) (t : Term) (s : State) : State :=
  if t.state ≠ 0x15 then s
  else
    let lim := if t.lokRun = 0 then (plane s (planeOf f)).lokN else t.lokLim
    let s1 := modTermLocal f (fun x => { x with lokRun := x.lokRun + 1, lokLim := lim }) s
    if lim ≤ t.lokRun + 1 ∧ !t.lok then termDefectEvent f 2 true none (modTermLocal f (fun x => { x with lok := true }) s1)
    else s1

/-- TERM_VIEW_KEY_INDEX (R205, R215, R217): the oldest frame on one of the terminal's contexts that its view has not reached
yet, if it carries this key index. -/
def execTermViewKeyIndex (term : Nat) (keyIndex : Nat) (s : State) : Host.Outcome State Fault Refusal :=
  let f := term
  match findTerm s f with
  | none => .next s
  | some t =>
    match t.keyView with
    | [] => .next s
    | k :: rest =>
      if k ≠ keyIndex ∨ !lineRuns (planeOf f) s then .next s
      else
        let s0 := modTermLocal f (fun x => { x with keyView := rest }) s
        if !lineKeyValid s f keyIndex then .next (lostKey f t s0)
        else
          let s1 := modTermLocal f (fun x => { x with lokRun := 0, lok := false }) s0
          let s2 := if t.lok then termDefectEvent f 2 false none s1 else s1
          if keyIndex ≠ t.keyUp ∧ (misbItem t 7).isNone then
            .next (modTerm f (fun x => { x with keyNext := some keyIndex }) s2)
          else .next s2

/-! ### Timers and held messages (R200, R204, R221) -/

/-- TO1_EXPIRY (R200): in O2-3 the terminal answers the serial-number grants that it has yet to see (R205). -/
def execTo1Expiry (term : Nat) (s : State) : Host.Outcome State Fault Refusal :=
  match findTerm s term with
  | none => .next s
  | some t =>
    if t.timer = 1 ∧ t.state = 0x14 ∧ lineRuns (planeOf term) s then
      .next (lateAnswers (planeOf term) (enterState term 0x12 9 true none none (judgeAhead term s)))
    else .next s

/-- TO2_EXPIRY (R200, R204): while the plane stays in HUNT the expiry is plane-wide. -/
def execTo2Expiry (term : Nat) (s : State) : Host.Outcome State Fault Refusal :=
  let f := term
  match findTerm s f with
  | none => .next s
  | some t =>
    if t.timer ≠ 2 ∨ t.state ≠ 0x16 ∨ !lineRuns (planeOf f) s then .next s
    else
      let s1 := judgeAhead f s
      match bulkOf s f [10] with
      | some (n, _) =>
        if (plane s (planeOf f)).state = 1 then
          .next (actedBulk f n (some (0x16, 0x11)) (enterState f 0x11 10 false none none s1))
        else .next (lateAnswers (planeOf f) (enterState f 0x11 10 true none none s1))
      | none => .next (lateAnswers (planeOf f) (enterState f 0x11 10 true none none s1))

/-- PLOAM_DELAY_EXPIRY (R210, R221): the held message that is due first enters the queue. -/
def execPloamDelayExpiry (term : Nat) (s : State) : Host.Outcome State Fault Refusal :=
  match findTerm s term with
  | none => .next s
  | some t =>
    let first := t.ploamDelayed.foldl (fun (o : Option DelayedMsg) m => match o with
      | none => some m
      | some k => if m.due < k.due then some m else some k) none
    match first with
    | none => .next s
    | some m =>
      .next (enterUp term m.body (modTerm term (fun x => { x with ploamDelayed := x.ploamDelayed.erase m }) s))

/-- EV_TERMS_BULK (R204): every plane-wide cause that all its terminals have acted on is reported. -/
def execEvTermsBulk (plane : Nat) (s : State) : Host.Outcome State Fault Refusal :=
  let p := plane
  let ready := (Machine.plane s p).bulks.filter fun b => b.waiting.isEmpty
  let s1 := modPlane p (fun x => { x with bulks := x.bulks.filter fun b => !b.waiting.isEmpty }) s
  if ready.isEmpty then .next s else .next (ready.foldl (fun x b => bulkEvents p b.cause b.pairs b.ev x) s1)

end Sys2Proof.Machine
end

