-- ==== Sys2Proof/Machine/Windows.lean ====
section
/-!
DEFINITION. BAR2: the windows into the capture store, and accesses to stopped islands (R35, R239, R350, R390, R477).
-/
namespace Sys2Proof.Machine

/-- The store address of a byte of BAR2; none where no window is mapped and beyond the last segment (R350). -/
def bar2Addr (s : State) (off : Nat) : Option Nat :=
  match tfind s.cap.windows (off / 2 ^ 26) with
  | none => none
  | some base =>
    let a := base * segBytes + off % 2 ^ 26
    if off < 2 ^ 30 ∧ a < segCount s * segBytes then some a else none

/-- An access cut at the 4 KiB boundaries: offset and bytes of each part. -/
def bar2Parts (off n : Nat) : List (Nat × Nat) :=
  (unitsOf off n).map fun u => (max off (u * 4096), min (off + n) (u * 4096 + 4096) - max off (u * 4096))

/-- What one part of a read returns, none for an uncorrectable block; encrypted units are returned as stored (R342,
R350, R390). -/
def readPart (p : Nat × Nat) (s : State) : Option Bytes × State :=
  match bar2Addr s p.1 with
  | none => (some (zeros p.2), s)
  | some a =>
    readStored 4 a p.2 s

/-- The bytes of every part of a read, or none once one of them is uncorrectable. -/
def readParts : List (Nat × Nat) → State → Option Bytes × State
  | [], s => (some [], s)
  | p :: ps, s =>
    let r := readPart p s
    let q := readParts ps r.2
    (match r.1, q.1 with
      | some a, some b => some (a ++ b)
      | _, _ => none, q.2)

/-- The 32-bit words of a byte string, lowest address first. -/
def wordsOf (bs : Bytes) : List Word :=
  (List.range ((bs.length + 3) / 4)).map fun i => BitVec.ofNat 32 (u32 bs (4 * i))

/-- A read through BAR2: all ones and the EP bit for an uncorrectable block (R350, R390). -/
def bar2Read (off n : Nat) (s : State) : State :=
  let r := readParts (bar2Parts off n) s
  match r.1 with
  | some bs => answerWords (wordsOf bs) r.2
  | none =>
    r.2.modCtl fun c => { c with bus := { c.bus with
      words := wordsOf (List.replicate n 0xFF)
      poisoned := true } }

/-- BAR2_READ (R350). -/
def execBar2Read (off : Nat) (len : Nat) (s : State) : Host.Outcome State Fault Refusal :=
  .next (barAccess false 2 off len (bar2Read off len) s)

/-- Bytes of the pool that a valid descriptor in an active page names (R239). -/
def namedBytes (s : State) (a n : Nat) : Bool :=
  decide (a < s.up.poolSegs * segBytes) && s.up.descs.any fun e =>
    e.2.kind == 1 && descNamed s e.1 && overlaps a (a + n) e.2.base (e.2.base + e.2.region)

/-- A write into the store: discarded in a capture buffer; frames sent from named bytes become undefined (R239,
R350). -/
def writePart (a : Nat) (bs : Bytes) (s : State) : State :=
  if (bufferHolder s (a / segBytes)).isSome then s
  else
    let named := namedBytes s a bs.length
    let s1 := narrowWrite a bs s
    if named then { s1 with up := { s1.up with tainted := (a, a + bs.length) :: s1.up.tainted } } else s1

/-- A write through BAR2 (R35, R350). -/
def bar2Write (off : Nat) (data : Bytes) (s : State) : State :=
  (bar2Parts off data.length).foldl (fun x p =>
    match bar2Addr x p.1 with
    | none => x
    | some a => writePart a (slice data (p.1 - off) p.2) x) s

/-- BAR2_WRITE (R350). -/
def execBar2Write (off : Nat) (data : Bytes) (s : State) : Host.Outcome State Fault Refusal :=
  .next (barAccess true 2 off data.length (bar2Write off data) s)

/-- What a read of a BAR0 register of a running island changes (R10, R125): only an aligned 32-bit read does. -/
def readEffect (off n : Nat) (s : State) : State :=
  if n ≠ 4 then s
  else if 0x10000 ≤ off ∧ off < 0x20000 ∧ off % 0x1000 = 0x80C then clearErrors ((off - 0x10000) / 0x1000) s
  else match off with
    | 0x200000 => latchTime s
    | 0x200010 => clearTimeLatches s
    | 0x200014 => latchPps s
    | 0x40001C => clearRefused s
    | _ => s

/-- A read of a running island: BAR2 by its windows, BAR0 by its registers (R36, R350, log 78). -/
def runningRead (bar off n : Nat) (s : State) : State :=
  if bar = 0 then answerWords (busRead s off n) (readEffect off n s)
  else if bar = 2 then bar2Read off n s
  else s

/-- OFF_DOMAIN_ACCESS (R477). Where the island runs a read is answered; a write is then an event of another row. -/
def execOffDomainAccess (bar : Nat) (off : Nat) (data : Option Bytes) (len : Nat) (s : State) :
    Host.Outcome State Fault Refusal :=
  match data with
  | some bs => .next (barAccess true bar off bs.length id s)
  | none => .next (barAccess false bar off len (runningRead bar off len) s)

end Sys2Proof.Machine
end

