-- ==== Sys2Proof/Machine/Dispatch.lean ====
section
/-!
DEFINITION. One arm for each command: a direct call of its meaning.
-/
namespace Sys2Proof.Machine

def exec (i : Instr) (s : State) : Host.Outcome State Fault Refusal :=
  match i with
  | .porNDeassert straps env => Sys2Proof.Machine.execPorNDeassert straps env s
  | .porNAssert => Sys2Proof.Machine.execPorNAssert s
  | .perstNDeassert env => Sys2Proof.Machine.execPerstNDeassert env s
  | .functionLevelReset => Sys2Proof.Machine.execFunctionLevelReset s
  | .trstNAssert => Sys2Proof.Machine.execTrstNAssert s
  | .pllLockTimeout flashAnswers => Sys2Proof.Machine.execPllLockTimeout flashAnswers s
  | .bootComplete => Sys2Proof.Machine.execBootComplete s
  | .cpWatchdogExpiry => Sys2Proof.Machine.execCpWatchdogExpiry s
  | .cpHeartbeatTick => Sys2Proof.Machine.execCpHeartbeatTick s
  | .firmwareFault description => Sys2Proof.Machine.execFirmwareFault description s
  | .softResetWrite value env => Sys2Proof.Machine.execSoftResetWrite value env s
  | .doorbellWrite ch value => Sys2Proof.Machine.execDoorbellWrite ch value s
  | .requestSlotWrite ch off data => Sys2Proof.Machine.execRequestSlotWrite ch off data s
  | .mbReleaseWrite ch value => Sys2Proof.Machine.execMbReleaseWrite ch value s
  | .mbErrRead ch => Sys2Proof.Machine.execMbErrRead ch s
  | .ringCtrlEnable ring dir => Sys2Proof.Machine.execRingCtrlEnable ring dir s
  | .ringCtrlDisable ring => Sys2Proof.Machine.execRingCtrlDisable ring s
  | .ringTailWrite ring value => Sys2Proof.Machine.execRingTailWrite ring value s
  | .registerWrite off data => Sys2Proof.Machine.execRegisterWrite off data s
  | .timeNsLoRead => Sys2Proof.Machine.execTimeNsLoRead s
  | .ppsInTsLoRead => Sys2Proof.Machine.execPpsInTsLoRead s
  | .timeStatusRead => Sys2Proof.Machine.execTimeStatusRead s
  | .incrWrite value => Sys2Proof.Machine.execIncrWrite value s
  | .clkForcedClear value => Sys2Proof.Machine.execClkForcedClear value s
  | .logViewSlotWrite value => Sys2Proof.Machine.execLogViewSlotWrite value s
  | .logViewFillDone => Sys2Proof.Machine.execLogViewFillDone s
  | .injectArm value => Sys2Proof.Machine.execInjectArm value s
  | .injectDisarm value => Sys2Proof.Machine.execInjectDisarm value s
  | .injectStatusRead => Sys2Proof.Machine.execInjectStatusRead s
  | .bar2Read off len => Sys2Proof.Machine.execBar2Read off len s
  | .bar2Write off data => Sys2Proof.Machine.execBar2Write off data s
  | .offDomainAccess bar off data len => Sys2Proof.Machine.execOffDomainAccess bar off data len s
  | .smbusBlockWrite data pecOk => Sys2Proof.Machine.execSmbusBlockWrite data pecOk s
  | .smbusStatusRead pecOk => Sys2Proof.Machine.execSmbusStatusRead pecOk s
  | .smbusBlockRead pecOk => Sys2Proof.Machine.execSmbusBlockRead pecOk s
  | .smbusStateRead pecOk => Sys2Proof.Machine.execSmbusStateRead pecOk s
  | .nop => Sys2Proof.Machine.execNop s
  | .deviceInfo => Sys2Proof.Machine.execDeviceInfo s
  | .deviceStart => Sys2Proof.Machine.execDeviceStart s
  | .deviceStop => Sys2Proof.Machine.execDeviceStop s
  | .deviceReset => Sys2Proof.Machine.execDeviceReset s
  | .deviceResetDelayExpiry env => Sys2Proof.Machine.execDeviceResetDelayExpiry env s
  | .fwUpdateBegin => Sys2Proof.Machine.execFwUpdateBegin s
  | .fwEraseDone => Sys2Proof.Machine.execFwEraseDone s
  | .fwUpdateWrite => Sys2Proof.Machine.execFwUpdateWrite s
  | .fwUpdateEnd => Sys2Proof.Machine.execFwUpdateEnd s
  | .fwTrialDecide => Sys2Proof.Machine.execFwTrialDecide s
  | .fwStatus => Sys2Proof.Machine.execFwStatus s
  | .hwinit => Sys2Proof.Machine.execHwinit s
  | .attest => Sys2Proof.Machine.execAttest s
  | .attestCert => Sys2Proof.Machine.execAttestCert s
  | .clockSet => Sys2Proof.Machine.execClockSet s
  | .corePoint => Sys2Proof.Machine.execCorePoint s
  | .avsbusStatusPoll answer => Sys2Proof.Machine.execAvsbusStatusPoll answer s
  | .avsbusAck => Sys2Proof.Machine.execAvsbusAck s
  | .avsbusAckTimeout => Sys2Proof.Machine.execAvsbusAckTimeout s
  | .avsbusMonitor good reading => Sys2Proof.Machine.execAvsbusMonitor good reading s
  | .clkForcedSwitch mux => Sys2Proof.Machine.execClkForcedSwitch mux s
  | .freqSourceSet => Sys2Proof.Machine.execFreqSourceSet s
  | .sourceQualified plane => Sys2Proof.Machine.execSourceQualified plane s
  | .sourceWtrExpiry => Sys2Proof.Machine.execSourceWtrExpiry s
  | .dpllBridgeExpiry => Sys2Proof.Machine.execDpllBridgeExpiry s
  | .rcTrim refIn ppb => Sys2Proof.Machine.execRcTrim refIn ppb s
  | .timeAdjust => Sys2Proof.Machine.execTimeAdjust s
  | .timeForce => Sys2Proof.Machine.execTimeForce s
  | .timeConfig => Sys2Proof.Machine.execTimeConfig s
  | .clockStatus => Sys2Proof.Machine.execClockStatus s
  | .ppsOutRise => Sys2Proof.Machine.execPpsOutRise s
  | .ppsOutFall => Sys2Proof.Machine.execPpsOutFall s
  | .ppsInEdge => Sys2Proof.Machine.execPpsInEdge s
  | .laneTxEq => Sys2Proof.Machine.execLaneTxEq s
  | .laneRxEq => Sys2Proof.Machine.execLaneRxEq s
  | .portSignals => Sys2Proof.Machine.execPortSignals s
  | .hostLaneLpi => Sys2Proof.Machine.execHostLaneLpi s
  | .laneTest => Sys2Proof.Machine.execLaneTest s
  | .laneStatus => Sys2Proof.Machine.execLaneStatus s
  | .opticsConfig => Sys2Proof.Machine.execOpticsConfig s
  | .opticsStatus => Sys2Proof.Machine.execOpticsStatus s
  | .opticsAccess answer => Sys2Proof.Machine.execOpticsAccess answer s
  | .opticsPoll port reading => Sys2Proof.Machine.execOpticsPoll port reading s
  | .opticsBusStuck port => Sys2Proof.Machine.execOpticsBusStuck port s
  | .cdrLockChange lane locked => Sys2Proof.Machine.execCdrLockChange lane locked s
  | .sdInputChange port level => Sys2Proof.Machine.execSdInputChange port level s
  | .sdTDeassert port => Sys2Proof.Machine.execSdTDeassert port s
  | .bmRstPulseStart port => Sys2Proof.Machine.execBmRstPulseStart port s
  | .bmRstPulseEnd port => Sys2Proof.Machine.execBmRstPulseEnd port s
  | .planeConfig => Sys2Proof.Machine.execPlaneConfig s
  | .planeStart => Sys2Proof.Machine.execPlaneStart s
  | .planeStop => Sys2Proof.Machine.execPlaneStop s
  | .planeStatus => Sys2Proof.Machine.execPlaneStatus s
  | .planeCounters => Sys2Proof.Machine.execPlaneCounters s
  | .defectConfig => Sys2Proof.Machine.execDefectConfig s
  | .psyncMatchHunt hunter psync => Sys2Proof.Machine.execPsyncMatchHunt hunter psync s
  | .candidatePositionReached hunter cand psync frame => Sys2Proof.Machine.execCandidatePositionReached hunter cand psync frame s
  | .syncPositionReached hunter psync frame => Sys2Proof.Machine.execSyncPositionReached hunter psync frame s
  | .bwmapStructure plane alloc => Sys2Proof.Machine.execBwmapStructure plane alloc s
  | .ploamMessageRx plane msg => Sys2Proof.Machine.execPloamMessageRx plane msg s
  | .xgemFrameDelineated plane frame => Sys2Proof.Machine.execXgemFrameDelineated plane frame s
  | .reasmTimeout plane portId => Sys2Proof.Machine.execReasmTimeout plane portId s
  | .losDeclare port => Sys2Proof.Machine.execLosDeclare port s
  | .losClear port => Sys2Proof.Machine.execLosClear port s
  | .lolDeclare moment => Sys2Proof.Machine.execLolDeclare moment s
  | .lolClear moment => Sys2Proof.Machine.execLolClear moment s
  | .lofDeclare moment => Sys2Proof.Machine.execLofDeclare moment s
  | .lofClear moment => Sys2Proof.Machine.execLofClear moment s
  | .lofecWindowEnd moment => Sys2Proof.Machine.execLofecWindowEnd moment s
  | .sdWindowEnd moment => Sys2Proof.Machine.execSdWindowEnd moment s
  | .tapBurst plane burst => Sys2Proof.Machine.execTapBurst plane burst s
  | .termCreate => Sys2Proof.Machine.execTermCreate s
  | .termDelete => Sys2Proof.Machine.execTermDelete s
  | .termEnable => Sys2Proof.Machine.execTermEnable s
  | .termDistance => Sys2Proof.Machine.execTermDistance s
  | .termConfig => Sys2Proof.Machine.execTermConfig s
  | .termMsk => Sys2Proof.Machine.execTermMsk s
  | .termPortSet => Sys2Proof.Machine.execTermPortSet s
  | .termMisbehave => Sys2Proof.Machine.execTermMisbehave s
  | .termStatus => Sys2Proof.Machine.execTermStatus s
  | .termPloamSend => Sys2Proof.Machine.execTermPloamSend s
  | .termPloamRecv => Sys2Proof.Machine.execTermPloamRecv s
  | .omciSend => Sys2Proof.Machine.execOmciSend s
  | .omciRecv => Sys2Proof.Machine.execOmciRecv s
  | .termPlaneConfig => Sys2Proof.Machine.execTermPlaneConfig s
  | .termViewPloam term => Sys2Proof.Machine.execTermViewPloam term s
  | .termViewLods term lost => Sys2Proof.Machine.execTermViewLods term lost s
  | .termViewKeyIndex term keyIndex => Sys2Proof.Machine.execTermViewKeyIndex term keyIndex s
  | .to1Expiry term => Sys2Proof.Machine.execTo1Expiry term s
  | .to2Expiry term => Sys2Proof.Machine.execTo2Expiry term s
  | .evTermsBulk plane => Sys2Proof.Machine.execEvTermsBulk plane s
  | .ploamDelayExpiry term => Sys2Proof.Machine.execPloamDelayExpiry term s
  | .burstStart plane => Sys2Proof.Machine.execBurstStart plane s
  | .poolReserve => Sys2Proof.Machine.execPoolReserve s
  | .patternDescSet => Sys2Proof.Machine.execPatternDescSet s
  | .amapWrite => Sys2Proof.Machine.execAmapWrite s
  | .amapSwap => Sys2Proof.Machine.execAmapSwap s
  | .amapCopyDone plane => Sys2Proof.Machine.execAmapCopyDone plane s
  | .shaperSet => Sys2Proof.Machine.execShaperSet s
  | .burstConfig => Sys2Proof.Machine.execBurstConfig s
  | .spoutStatus => Sys2Proof.Machine.execSpoutStatus s
  | .queueStatus => Sys2Proof.Machine.execQueueStatus s
  | .rillMessage plane crcOk => Sys2Proof.Machine.execRillMessage plane crcOk s
  | .rillKeepalive alive => Sys2Proof.Machine.execRillKeepalive alive s
  | .rillTimeout plane => Sys2Proof.Machine.execRillTimeout plane s
  | .rillRetrain plane trained => Sys2Proof.Machine.execRillRetrain plane trained s
  | .rillUp plane => Sys2Proof.Machine.execRillUp plane s
  | .fullCopyDone plane => Sys2Proof.Machine.execFullCopyDone plane s
  | .engineWatchdog engine => Sys2Proof.Machine.execEngineWatchdog engine s
  | .mirrorCheckFail engine cause => Sys2Proof.Machine.execMirrorCheckFail engine cause s
  | .swapPeriodExpiry plane => Sys2Proof.Machine.execSwapPeriodExpiry plane s
  | .roleSwap plane => Sys2Proof.Machine.execRoleSwap plane s
  | .swapAbandon plane => Sys2Proof.Machine.execSwapAbandon plane s
  | .holdOffExpiry plane => Sys2Proof.Machine.execHoldOffExpiry plane s
  | .protWtrExpiry plane => Sys2Proof.Machine.execProtWtrExpiry plane s
  | .protConfig => Sys2Proof.Machine.execProtConfig s
  | .protSwap => Sys2Proof.Machine.execProtSwap s
  | .protLine => Sys2Proof.Machine.execProtLine s
  | .protStatus => Sys2Proof.Machine.execProtStatus s
  | .protTakeoverList => Sys2Proof.Machine.execProtTakeoverList s
  | .protEngineRestore passed => Sys2Proof.Machine.execProtEngineRestore passed s
  | .clsPass0 item => Sys2Proof.Machine.execClsPass0 item s
  | .clsPass1 item => Sys2Proof.Machine.execClsPass1 item s
  | .clsExpiry item => Sys2Proof.Machine.execClsExpiry item s
  | .versionRetired => Sys2Proof.Machine.execVersionRetired s
  | .ruleWrite => Sys2Proof.Machine.execRuleWrite s
  | .profileWrite => Sys2Proof.Machine.execProfileWrite s
  | .clsSourceWrite => Sys2Proof.Machine.execClsSourceWrite s
  | .ruleCommit => Sys2Proof.Machine.execRuleCommit s
  | .ruleStatus => Sys2Proof.Machine.execRuleStatus s
  | .ruleRead => Sys2Proof.Machine.execRuleRead s
  | .clsCounters => Sys2Proof.Machine.execClsCounters s
  | .clsCpRecv => Sys2Proof.Machine.execClsCpRecv s
  | .basinDecision basin item returned => Sys2Proof.Machine.execBasinDecision basin item returned s
  | .stagingTimeout basin item returned => Sys2Proof.Machine.execStagingTimeout basin item returned s
  | .foldWindowExpiry basin => Sys2Proof.Machine.execFoldWindowExpiry basin s
  | .epochSecond basin => Sys2Proof.Machine.execEpochSecond basin s
  | .gapWrite basin => Sys2Proof.Machine.execGapWrite basin s
  | .weirNoReturn weir => Sys2Proof.Machine.execWeirNoReturn weir s
  | .capConfig => Sys2Proof.Machine.execCapConfig s
  | .capStart => Sys2Proof.Machine.execCapStart s
  | .capStop => Sys2Proof.Machine.execCapStop s
  | .capTrigger => Sys2Proof.Machine.execCapTrigger s
  | .capRelease => Sys2Proof.Machine.execCapRelease s
  | .capStatus => Sys2Proof.Machine.execCapStatus s
  | .capSegments => Sys2Proof.Machine.execCapSegments s
  | .capExport => Sys2Proof.Machine.execCapExport s
  | .capWindowMap => Sys2Proof.Machine.execCapWindowMap s
  | .capExportStop => Sys2Proof.Machine.execCapExportStop s
  | .exportRecordSend exp => Sys2Proof.Machine.execExportRecordSend exp s
  | .ringHoldExpiry exp => Sys2Proof.Machine.execRingHoldExpiry exp s
  | .kernelLoad => Sys2Proof.Machine.execKernelLoad s
  | .jobSubmit => Sys2Proof.Machine.execJobSubmit s
  | .jobStatus => Sys2Proof.Machine.execJobStatus s
  | .jobCancel => Sys2Proof.Machine.execJobCancel s
  | .jobRelease => Sys2Proof.Machine.execJobRelease s
  | .bundleIssue core bundle => Sys2Proof.Machine.execBundleIssue core bundle s
  | .blockNext core => Sys2Proof.Machine.execBlockNext core s
  | .outFlush core => Sys2Proof.Machine.execOutFlush core s
  | .doneService core => Sys2Proof.Machine.execDoneService core s
  | .cycles core => Sys2Proof.Machine.execCycles core s
  | .jobTimeLimit core => Sys2Proof.Machine.execJobTimeLimit core s
  | .coreNoIssue core => Sys2Proof.Machine.execCoreNoIssue core s
  | .memConfig => Sys2Proof.Machine.execMemConfig s
  | .memStatus => Sys2Proof.Machine.execMemStatus s
  | .memSramStatus => Sys2Proof.Machine.execMemSramStatus s
  | .memFlip => Sys2Proof.Machine.execMemFlip s
  | .memFenceList => Sys2Proof.Machine.execMemFenceList s
  | .scrubBlock stack => Sys2Proof.Machine.execScrubBlock stack s
  | .innerCountRead stack count => Sys2Proof.Machine.execInnerCountRead stack count s
  | .stackTempReport stack above85 => Sys2Proof.Machine.execStackTempReport stack above85 s
  | .stackLinkLost stack => Sys2Proof.Machine.execStackLinkLost stack s
  | .sramRepairDone inst addr ok => Sys2Proof.Machine.execSramRepairDone inst addr ok s
  | .dmaChannelReset parterre channel => Sys2Proof.Machine.execDmaChannelReset parterre channel s
  | .kekEstablish => Sys2Proof.Machine.execKekEstablish s
  | .keyUnwrap => Sys2Proof.Machine.execKeyUnwrap s
  | .keyZeroise => Sys2Proof.Machine.execKeyZeroise s
  | .keyStatus => Sys2Proof.Machine.execKeyStatus s
  | .bundleLoad => Sys2Proof.Machine.execBundleLoad s
  | .segSealOut => Sys2Proof.Machine.execSegSealOut s
  | .xferStatus => Sys2Proof.Machine.execXferStatus s
  | .cipherStatus => Sys2Proof.Machine.execCipherStatus s
  | .xferBuffer xfer => Sys2Proof.Machine.execXferBuffer xfer s
  | .bundleTagCheck xfer => Sys2Proof.Machine.execBundleTagCheck xfer s
  | .zeroFillDone xfer => Sys2Proof.Machine.execZeroFillDone xfer s
  | .xferStall xfer => Sys2Proof.Machine.execXferStall xfer s
  | .drbgReseed failed => Sys2Proof.Machine.execDrbgReseed failed s
  | .hostPortConfig => Sys2Proof.Machine.execHostPortConfig s
  | .hostPortStart => Sys2Proof.Machine.execHostPortStart s
  | .hostPortStop => Sys2Proof.Machine.execHostPortStop s
  | .hostPortStatus => Sys2Proof.Machine.execHostPortStatus s
  | .hostPortCounters => Sys2Proof.Machine.execHostPortCounters s
  | .hostClassSet => Sys2Proof.Machine.execHostClassSet s
  | .hostPortSend => Sys2Proof.Machine.execHostPortSend s
  | .hostPortRecv => Sys2Proof.Machine.execHostPortRecv s
  | .ptpTxTsRead => Sys2Proof.Machine.execPtpTxTsRead s
  | .hostLinkUp port eeeNegotiated => Sys2Proof.Machine.execHostLinkUp port eeeNegotiated s
  | .hostLinkDown port cond => Sys2Proof.Machine.execHostLinkDown port cond s
  | .anRestart port => Sys2Proof.Machine.execAnRestart port s
  | .hostFrameRx port data check fecCorrected fecUncorrectable => Sys2Proof.Machine.execHostFrameRx port data check fecCorrected fecUncorrectable s
  | .hostFrameTx port => Sys2Proof.Machine.execHostFrameTx port s
  | .pauseExpiry port cls => Sys2Proof.Machine.execPauseExpiry port cls s
  | .pauseWdExpiry port cls => Sys2Proof.Machine.execPauseWdExpiry port cls s
  | .pauseWdHoldEnd port cls => Sys2Proof.Machine.execPauseWdHoldEnd port cls s
  | .lpiIdleExpiry moment => Sys2Proof.Machine.execLpiIdleExpiry moment s
  | .chassisConfig => Sys2Proof.Machine.execChassisConfig s
  | .chassisSend => Sys2Proof.Machine.execChassisSend s
  | .chassisStatus => Sys2Proof.Machine.execChassisStatus s
  | .chassisFrameRx data fcsOk => Sys2Proof.Machine.execChassisFrameRx data fcsOk s
  | .chassisTxAttempt collides => Sys2Proof.Machine.execChassisTxAttempt collides s
  | .chassisCollision late => Sys2Proof.Machine.execChassisCollision late s
  | .backoffExpiry => Sys2Proof.Machine.execBackoffExpiry s
  | .chassisTxAged => Sys2Proof.Machine.execChassisTxAged s
  | .peerAgeExpiry identity => Sys2Proof.Machine.execPeerAgeExpiry identity s
  | .markPeriodExpiry => Sys2Proof.Machine.execMarkPeriodExpiry s
  | .powerState => Sys2Proof.Machine.execPowerState s
  | .powerBudgetSet => Sys2Proof.Machine.execPowerBudgetSet s
  | .powerStatus => Sys2Proof.Machine.execPowerStatus s
  | .gateAck island => Sys2Proof.Machine.execGateAck island s
  | .gateTimeout island => Sys2Proof.Machine.execGateTimeout island s
  | .wakeTimerExpiry => Sys2Proof.Machine.execWakeTimerExpiry s
  | .wakeComplete stillNs => Sys2Proof.Machine.execWakeComplete stillNs s
  | .sluiceWindow fixedUj => Sys2Proof.Machine.execSluiceWindow fixedUj s
  | .thermalReading temps => Sys2Proof.Machine.execThermalReading temps s
  | .logRead => Sys2Proof.Machine.execLogRead s
  | .logClear => Sys2Proof.Machine.execLogClear s
  | .logEraseDone => Sys2Proof.Machine.execLogEraseDone s
  | .recordProgrammed => Sys2Proof.Machine.execRecordProgrammed s
  | .hourTick => Sys2Proof.Machine.execHourTick s
  | .pwrFailNAssert => Sys2Proof.Machine.execPwrFailNAssert s
  | .pwrFailNDeassert => Sys2Proof.Machine.execPwrFailNDeassert s
  | .unassignedOpcode => Sys2Proof.Machine.execUnassignedOpcode s
  | .pcieD0ConfigWrite => Sys2Proof.Machine.execPcieD0ConfigWrite s
  | .prbsCheckerLock lane good bad more => Sys2Proof.Machine.execPrbsCheckerLock lane good bad more s
  | .weirSelfCheck weir passed => Sys2Proof.Machine.execWeirSelfCheck weir passed s
  | .supplyRemoval => Sys2Proof.Machine.execSupplyRemoval s

end Sys2Proof.Machine
end

