-- ==== Sys2Proof/Machine/Idle.lean ====
section
/-!
DEFINITION. What one cycle of CK_TS does while no command waits (log 1).
-/
namespace Sys2Proof.Machine

/-- One cycle of CK_TS passes: device time advances, and the line lanes and the host lanes follow (R121, R144, R509). -/
def passTime (s : State) : State :=
  if timeRuns s then (List.range 4).foldl (fun x p => hostCycle p x) (endBursts 1 (endBursts 0 (tick s))) else s

end Sys2Proof.Machine
end

