-- ==== Sys2Proof/WellFormed.lean ====
section
/-!
DEFINITION. Well-formed commands: every operand lies in the range that the spec gives the thing it names. The machine
is total and needs no well-formedness; it says which commands the outside world can send.
-/
namespace Sys2Proof

/-! ### Numbers of units (R20 to R23, R44, R63, R136, R166) -/

def isPlane (n : Nat) : Bool := decide (n < 2)
def isRing (n : Nat) : Bool := decide (n < 32)
def isChannel (n : Nat) : Bool := decide (n < 16)
def isBasin (n : Nat) : Bool := decide (n < 4)
def isWeir (n : Nat) : Bool := decide (n < 8)
def isCoreId (n : Nat) : Bool := decide (n < 64)
def isExport (n : Nat) : Bool := decide (n < 8)
def isTransfer (n : Nat) : Bool := decide (n < 4)
def isStackNo (n : Nat) : Bool := decide (n < 4)
def isTerminal (n : Nat) : Bool := decide (n < 2048)
def isParterre (n : Nat) : Bool := decide (n < 2)
def isIsland (n : Nat) : Bool := decide (1 ≤ n ∧ n ≤ 11)
def isMux (n : Nat) : Bool := decide (n < 7)
def isHostPort (n : Nat) : Bool := decide (n < 4)
def isClass (n : Nat) : Bool := decide (n < 8)
def isKeyIndex (n : Nat) : Bool := decide (1 ≤ n ∧ n ≤ 3)
def isLineEngine (n : Nat) : Bool := [0x00, 0x01, 0x10, 0x11].contains n
def isLinePort (n : Nat) : Bool := [0x00, 0x01, 0x10, 0x11].contains n
def isTapPort (n : Nat) : Bool := [0x02, 0x12].contains n

/-- A lane ID of R136. -/
def isLaneId (n : Nat) : Bool :=
  isLinePort n || isTapPort n || [0x40, 0x41, 0x50, 0x51].contains n || decide (0x80 ≤ n ∧ n ≤ 0x8F)

/-- A port monitor by its port code, or the hunter of an engine at 0x100 + engine code (R166). -/
def isHunterKey (n : Nat) : Bool := isLinePort n || (decide (0x100 ≤ n) && isLineEngine (n - 0x100))

/-! ### Host accesses (R36, R44, R350) -/

/-- A naturally aligned 32-bit or 64-bit write to a request slot. -/
def slotWriteOk (off : Nat) (data : Bytes) : Bool :=
  decide (off < 0x400) && ((data.length == 4 && off % 4 == 0) || (data.length == 8 && off % 8 == 0))

/-- A register whose write has a row of its own in the table: SOFT_RESET, MB_RELEASE, doorbells, RING_CTRL.EN,
RING_TAIL, INCR, CLK_STATUS, LOG_VIEW_SLOT and INJECT_ARM. -/
def ownRow (off : Nat) : Bool :=
  off == 0x18 || decide (0x20000 ≤ off ∧ off < 0x20040) ||
    (decide (0x10000 ≤ off ∧ off < 0x20000) && (off % 0x1000 == 0x804 || decide (off % 0x1000 < 0x400))) ||
    (decide (0x100000 ≤ off ∧ off < 0x100800) && off % 0x40 == 0x14) ||
    off == 0x20000C || off == 0x200020 || off == 0x30001C || off == 0x400000

/-- An access to BAR0 of up to eight bytes, to a register without a row of its own. -/
def registerOk (off : Nat) (data : Bytes) : Bool :=
  decide (off < 0x4000000) && decide (1 ≤ data.length ∧ data.length ≤ 8) && !ownRow off

/-- One PCIe access to BAR2: at most 4,096 bytes that cross no 4 KiB boundary. -/
def bar2Ok (off n : Nat) : Bool :=
  decide (1 ≤ n) && decide (off % 4096 + n ≤ 4096) && decide (off + n ≤ 0x40000000)

/-! ### What the line delivers (R166, R171 to R182, R225, R328) -/

def strapsOk (s : Straps) : Bool := decide (s.boot < 4) && decide (s.smb < 8)

def psyncOk (p : PsyncObs) : Bool := decide (p.errs ≤ 64) && decide (p.sfc < 2 ^ 51)

/-- PLOAM messages are 48 bytes long, allocation structures 8 (R326). -/
def frameOk (f : FrameObs) : Bool :=
  decide (f.ponId < 2 ^ 51) && f.ploam.length % 48 == 0 &&
    f.bwmap.length % 8 == 0

def allocOk (a : AllocStruct) : Bool := decide (a.alloc < 16384) && decide (a.grant < 65536) && decide (a.profile < 4)

def xgemOk (x : XgemObs) : Bool :=
  decide (x.kind ≤ 2) && decide (x.portId < 65536) && decide (x.keyIdx < 4) && x.header.length == 8 &&
    decide (x.payload.length < 16384) && decide (x.pad.length < 4)

/-- A tap frame: 1, 2 or 4 samples of every bit. -/
def tapXgemOk (x : XgemObs) : Bool :=
  decide (x.kind ≤ 2) && decide (x.portId < 65536) && decide (x.keyIdx < 4) && x.header.length % 8 == 0 &&
    decide (x.header.length ≤ 32) && decide (x.payload.length < 65536) && decide (x.pad.length < 16)

def tapOk (b : TapObs) : Bool := decide (b.onuId < 1024) && decide (b.head.length ≤ 1024) && b.frames.all tapXgemOk

def msgOk (m : DsMsg) : Bool := m.bytes.length == 48

def tempsOk (ts : List Int) : Bool := ts.length == 8 && ts.all fun t => decide (-32768 ≤ t ∧ t ≤ 32767)

def readingOk : Option OpticsReading → Bool
  | none => true
  | some r => decide (1 ≤ r.ident ∧ r.ident ≤ 3) && decide (r.alarms < 64) && decide (r.temp < 65536) && decide (r.vcc < 65536) &&
      decide (r.bias < 65536) && decide (r.txPower < 65536) && decide (r.rxPower < 65536)

/-! ### Commands -/

/-- Every operand of the command lies in its range. -/
def WellFormed (i : Instr) : Bool :=
  match i with
  | .porNDeassert straps _ => strapsOk straps
  | .porNAssert => true
  | .perstNDeassert _ => true
  | .functionLevelReset => true
  | .trstNAssert => true
  | .pllLockTimeout _ => true
  | .bootComplete => true
  | .cpWatchdogExpiry => true
  | .cpHeartbeatTick => true
  | .firmwareFault description => decide (description.length ≤ 32)
  | .softResetWrite _ _ => true
  | .doorbellWrite ch _ => isChannel ch
  | .requestSlotWrite ch off data => isChannel ch && slotWriteOk off data
  | .mbReleaseWrite ch _ => isChannel ch
  | .mbErrRead ch => isChannel ch
  | .ringCtrlEnable ring _ => isRing ring
  | .ringCtrlDisable ring => isRing ring
  | .ringTailWrite ring _ => isRing ring
  | .registerWrite off data => registerOk off data
  | .timeNsLoRead => true
  | .ppsInTsLoRead => true
  | .timeStatusRead => true
  | .incrWrite _ => true
  | .clkForcedClear _ => true
  | .logViewSlotWrite _ => true
  | .logViewFillDone => true
  | .injectArm _ => true
  | .injectDisarm _ => true
  | .injectStatusRead => true
  | .bar2Read off len => bar2Ok off len
  | .bar2Write off data => bar2Ok off data.length
  | .offDomainAccess bar _ _ len => (bar == 0 || bar == 2) && decide (len ≤ 4096)
  | .smbusBlockWrite data _ => decide (data.length ≤ 255)
  | .smbusStatusRead _ => true
  | .smbusBlockRead _ => true
  | .smbusStateRead _ => true
  | .nop => true
  | .deviceInfo => true
  | .deviceStart => true
  | .deviceStop => true
  | .deviceReset => true
  | .deviceResetDelayExpiry _ => true
  | .fwUpdateBegin => true
  | .fwEraseDone => true
  | .fwUpdateWrite => true
  | .fwUpdateEnd => true
  | .fwTrialDecide => true
  | .fwStatus => true
  | .hwinit => true
  | .attest => true
  | .attestCert => true
  | .clockSet => true
  | .corePoint => true
  | .avsbusStatusPoll _ => true
  | .avsbusAck => true
  | .avsbusAckTimeout => true
  | .avsbusMonitor _ reading => decide (reading.mv < 65536) && decide (reading.idd < 65536)
  | .clkForcedSwitch mux => isMux mux
  | .freqSourceSet => true
  | .sourceQualified plane => isPlane plane
  | .sourceWtrExpiry => true
  | .dpllBridgeExpiry => true
  | .rcTrim _ _ => true
  | .timeAdjust => true
  | .timeForce => true
  | .timeConfig => true
  | .clockStatus => true
  | .ppsOutRise => true
  | .ppsOutFall => true
  | .ppsInEdge => true
  | .laneTxEq => true
  | .laneRxEq => true
  | .portSignals => true
  | .hostLaneLpi => true
  | .laneTest => true
  | .laneStatus => true
  | .opticsConfig => true
  | .opticsStatus => true
  | .opticsAccess _ => true
  | .opticsPoll port reading => isLinePort port && readingOk reading
  | .opticsBusStuck port => isLinePort port
  | .cdrLockChange lane _ => isLaneId lane
  | .sdInputChange port _ => isLinePort port || isTapPort port
  | .sdTDeassert port => isTapPort port
  | .bmRstPulseStart port => isTapPort port
  | .bmRstPulseEnd port => isTapPort port
  | .planeConfig => true
  | .planeStart => true
  | .planeStop => true
  | .planeStatus => true
  | .planeCounters => true
  | .defectConfig => true
  | .psyncMatchHunt hunter psync => isHunterKey hunter && psyncOk psync
  | .candidatePositionReached hunter cand psync frame => isHunterKey hunter && decide (cand < 4) && psyncOk psync && frameOk frame
  | .syncPositionReached hunter psync frame => isHunterKey hunter && psyncOk psync && frameOk frame
  | .bwmapStructure plane alloc => isPlane plane && allocOk alloc
  | .ploamMessageRx plane msg => isPlane plane && msgOk msg
  | .xgemFrameDelineated plane frame => isPlane plane && xgemOk frame
  | .reasmTimeout plane portId => isPlane plane && decide (portId < 65536)
  | .losDeclare port => isLinePort port
  | .losClear port => isLinePort port
  | .lolDeclare moment => isLinePort moment.port
  | .lolClear moment => isLinePort moment.port
  | .lofDeclare moment => isLinePort moment.port
  | .lofClear moment => isLinePort moment.port
  | .lofecWindowEnd moment => isLinePort moment.port
  | .sdWindowEnd moment => isLinePort moment.port
  | .tapBurst plane burst => isPlane plane && tapOk burst
  | .termCreate => true
  | .termDelete => true
  | .termEnable => true
  | .termDistance => true
  | .termConfig => true
  | .termMsk => true
  | .termPortSet => true
  | .termMisbehave => true
  | .termStatus => true
  | .termPloamSend => true
  | .termPloamRecv => true
  | .omciSend => true
  | .omciRecv => true
  | .termPlaneConfig => true
  | .termViewPloam term => isTerminal term
  | .termViewLods term _ => isTerminal term
  | .termViewKeyIndex term keyIndex => isTerminal term && isKeyIndex keyIndex
  | .to1Expiry term => isTerminal term
  | .to2Expiry term => isTerminal term
  | .evTermsBulk plane => isPlane plane
  | .ploamDelayExpiry term => isTerminal term
  | .burstStart plane => isPlane plane
  | .poolReserve => true
  | .patternDescSet => true
  | .amapWrite => true
  | .amapSwap => true
  | .amapCopyDone plane => isPlane plane
  | .shaperSet => true
  | .burstConfig => true
  | .spoutStatus => true
  | .queueStatus => true
  | .rillMessage plane _ => isPlane plane
  | .rillKeepalive alive => isPlane alive.plane
  | .rillTimeout plane => isPlane plane
  | .rillRetrain plane _ => isPlane plane
  | .rillUp plane => isPlane plane
  | .fullCopyDone plane => isPlane plane
  | .engineWatchdog engine => isLineEngine engine
  | .mirrorCheckFail engine cause => isLineEngine engine && decide (cause ≤ 1)
  | .swapPeriodExpiry plane => isPlane plane
  | .roleSwap plane => isPlane plane
  | .swapAbandon plane => isPlane plane
  | .holdOffExpiry plane => isPlane plane
  | .protWtrExpiry plane => isPlane plane
  | .protConfig => true
  | .protSwap => true
  | .protLine => true
  | .protStatus => true
  | .protTakeoverList => true
  | .protEngineRestore _ => true
  | .clsPass0 _ => true
  | .clsPass1 _ => true
  | .clsExpiry _ => true
  | .versionRetired => true
  | .ruleWrite => true
  | .profileWrite => true
  | .clsSourceWrite => true
  | .ruleCommit => true
  | .ruleStatus => true
  | .ruleRead => true
  | .clsCounters => true
  | .clsCpRecv => true
  | .basinDecision basin _ _ => isBasin basin
  | .stagingTimeout basin _ _ => isBasin basin
  | .foldWindowExpiry basin => isBasin basin
  | .epochSecond basin => isBasin basin
  | .gapWrite basin => isBasin basin
  | .weirNoReturn weir => isWeir weir
  | .capConfig => true
  | .capStart => true
  | .capStop => true
  | .capTrigger => true
  | .capRelease => true
  | .capStatus => true
  | .capSegments => true
  | .capExport => true
  | .capWindowMap => true
  | .capExportStop => true
  | .exportRecordSend exp => isExport exp
  | .ringHoldExpiry exp => isExport exp
  | .kernelLoad => true
  | .jobSubmit => true
  | .jobStatus => true
  | .jobCancel => true
  | .jobRelease => true
  | .bundleIssue core _ => isCoreId core
  | .blockNext core => isCoreId core
  | .outFlush core => isCoreId core
  | .doneService core => isCoreId core
  | .cycles core => isCoreId core
  | .jobTimeLimit core => isCoreId core
  | .coreNoIssue core => isCoreId core
  | .memConfig => true
  | .memStatus => true
  | .memSramStatus => true
  | .memFlip => true
  | .memFenceList => true
  | .scrubBlock stack => isStackNo stack
  | .innerCountRead stack count => isStackNo stack && decide (count < 2 ^ 48)
  | .stackTempReport stack _ => isStackNo stack
  | .stackLinkLost stack => isStackNo stack
  | .sramRepairDone inst _ _ => decide (inst < 0x9000)
  | .dmaChannelReset parterre channel => isParterre parterre && decide (channel < 80)
  | .kekEstablish => true
  | .keyUnwrap => true
  | .keyZeroise => true
  | .keyStatus => true
  | .bundleLoad => true
  | .segSealOut => true
  | .xferStatus => true
  | .cipherStatus => true
  | .xferBuffer xfer => isTransfer xfer
  | .bundleTagCheck xfer => isTransfer xfer
  | .zeroFillDone xfer => isTransfer xfer
  | .xferStall xfer => isTransfer xfer
  | .drbgReseed failed => decide (failed ≤ 2)
  | .hostPortConfig => true
  | .hostPortStart => true
  | .hostPortStop => true
  | .hostPortStatus => true
  | .hostPortCounters => true
  | .hostClassSet => true
  | .hostPortSend => true
  | .hostPortRecv => true
  | .ptpTxTsRead => true
  | .hostLinkUp port _ => isHostPort port
  | .hostLinkDown port _ => isHostPort port
  | .anRestart port => isHostPort port
  | .hostFrameRx port data _ _ _ => isHostPort port && decide (data.length ≤ 16384)
  | .hostFrameTx port => isHostPort port
  | .pauseExpiry port cls => isHostPort port && isClass cls
  | .pauseWdExpiry port cls => isHostPort port && isClass cls
  | .pauseWdHoldEnd port cls => isHostPort port && isClass cls
  | .lpiIdleExpiry moment => isHostPort moment.port
  | .chassisConfig => true
  | .chassisSend => true
  | .chassisStatus => true
  | .chassisFrameRx data _ => decide (data.length ≤ 1514)
  | .chassisTxAttempt _ => true
  | .chassisCollision _ => true
  | .backoffExpiry => true
  | .chassisTxAged => true
  | .peerAgeExpiry _ => true
  | .markPeriodExpiry => true
  | .powerState => true
  | .powerBudgetSet => true
  | .powerStatus => true
  | .gateAck island => isIsland island
  | .gateTimeout island => isIsland island
  | .wakeTimerExpiry => true
  | .wakeComplete _ => true
  | .sluiceWindow fixedUj => decide (fixedUj < 2 ^ 32)
  | .thermalReading temps => tempsOk temps
  | .logRead => true
  | .logClear => true
  | .logEraseDone => true
  | .recordProgrammed => true
  | .hourTick => true
  | .pwrFailNAssert => true
  | .pwrFailNDeassert => true
  | .unassignedOpcode => true
  | .pcieD0ConfigWrite => true
  | .prbsCheckerLock lane _ _ _ => isLaneId lane
  | .weirSelfCheck weir _ => isWeir weir
  | .supplyRemoval => true

end Sys2Proof
end

