-- ==== Sys2Proof/Safety.lean ====
section
/-!
DEFINITION. The terms that claims are stated in: a request that passes the general checks, its answer, the invariant of
the tables and memories, and the resets.
-/
namespace Sys2Proof.Machine

/-! ### Requests -/

/-- The CP takes up request `r` next, it is of command `c`, it passes the checks 1 to 6 of R529, and no injection makes
its check sum fail. -/
abbrev Accepts (c : CmdSpec) (s : State) (r : Req) : Prop :=
  nextReq s = some r ∧ r.opcode = c.op ∧ injIndex 0x14 r.ch s = none ∧ firstFailure c false r (takeUp r s) = none

/-- The state in which the response to a request has been posted (R52). -/
def answered (r : Req) (status : Nat) (payload : Bytes) (s : State) : State :=
  postResponse (reqExec r) status payload s

/-- The state in which a request goes on executing (R50). -/
def executing (r : Req) (s : State) : State := s.modCtl fun c => { c with exec := some (reqExec r) }

/-- What R529 checks of a command before its object checks; none for a row of the table that is no command of the
mailboxes, and for the opcodes that no command has (R72). -/
def specOf : Instr → Option CmdSpec
  | .nop => some nopSpec
  | .deviceInfo => some deviceInfoSpec
  | .deviceStart => some deviceStartSpec
  | .deviceStop => some deviceStopSpec
  | .deviceReset => some deviceResetSpec
  | .fwUpdateBegin => some fwUpdateBeginSpec
  | .fwUpdateWrite => some fwUpdateWriteSpec
  | .fwUpdateEnd => some fwUpdateEndSpec
  | .fwTrialDecide => some fwTrialDecideSpec
  | .fwStatus => some fwStatusSpec
  | .hwinit => some hwinitSpec
  | .attest => some attestSpec
  | .attestCert => some attestCertSpec
  | .clockSet => some clockSetSpec
  | .corePoint => some corePointSpec
  | .freqSourceSet => some freqSourceSpec
  | .timeAdjust => some timeAdjustSpec
  | .timeForce => some timeForceSpec
  | .timeConfig => some timeConfigSpec
  | .clockStatus => some clockStatusSpec
  | .laneTxEq => some txEqSpec
  | .laneRxEq => some rxEqSpec
  | .portSignals => some signalsSpec
  | .hostLaneLpi => some laneLpiSpec
  | .laneTest => some laneTestSpec
  | .laneStatus => some laneStatusSpec
  | .opticsConfig => some opticsConfigSpec
  | .opticsStatus => some opticsStatusSpec
  | .opticsAccess _ => some opticsAccessSpec
  | .planeConfig => some planeConfigSpec
  | .planeStart => some planeStartSpec
  | .planeStop => some planeStopSpec
  | .planeStatus => some planeStatusSpec
  | .planeCounters => some planeCountersSpec
  | .defectConfig => some defectConfigSpec
  | .termCreate => some termCreateSpec
  | .termDelete => some termDeleteSpec
  | .termEnable => some termEnableSpec
  | .termDistance => some termDistanceSpec
  | .termConfig => some termConfigSpec
  | .termMsk => some termMskSpec
  | .termPortSet => some termPortSpec
  | .termMisbehave => some misbehaveSpec
  | .termStatus => some termStatusSpec
  | .termPloamSend => some ploamSendSpec
  | .termPloamRecv => some ploamRecvSpec
  | .omciSend => some omciSendSpec
  | .omciRecv => some omciRecvSpec
  | .termPlaneConfig => some termPlaneSpec
  | .poolReserve => some poolReserveSpec
  | .patternDescSet => some descSetSpec
  | .amapWrite => some amapWriteSpec
  | .amapSwap => some amapSwapSpec
  | .shaperSet => some shaperSpec
  | .burstConfig => some burstConfigSpec
  | .spoutStatus => some spoutStatusSpec
  | .queueStatus => some queueStatusSpec
  | .protConfig => some protConfigSpec
  | .protSwap => some protSwapSpec
  | .protLine => some protLineSpec
  | .protStatus => some protStatusSpec
  | .protTakeoverList => some takeoverListSpec
  | .protEngineRestore _ => some restoreSpec
  | .ruleWrite => some ruleSpec
  | .profileWrite => some profileSpec
  | .clsSourceWrite => some clsSourceSpec
  | .ruleCommit => some commitSpec
  | .ruleStatus => some ruleStatusSpec
  | .ruleRead => some ruleReadSpec
  | .clsCounters => some clsCountersSpec
  | .clsCpRecv => some cpRecvSpec
  | .capConfig => some capConfigSpec
  | .capStart => some capStartSpec
  | .capStop => some capStopSpec
  | .capTrigger => some capTriggerSpec
  | .capRelease => some capReleaseSpec
  | .capStatus => some capStatusSpec
  | .capSegments => some capSegmentsSpec
  | .capExport => some capExportSpec
  | .capWindowMap => some windowSpec
  | .capExportStop => some exportStopSpec
  | .kernelLoad => some kernelSpec
  | .jobSubmit => some submitSpec
  | .jobStatus => some jobStatusSpec
  | .jobCancel => some jobCancelSpec
  | .jobRelease => some jobReleaseSpec
  | .memConfig => some memConfigSpec
  | .memStatus => some memStatusSpec
  | .memSramStatus => some sramStatusSpec
  | .memFlip => some memFlipSpec
  | .memFenceList => some fenceListSpec
  | .kekEstablish => some kekSpec
  | .keyUnwrap => some keyUnwrapSpec
  | .keyZeroise => some keyZeroiseSpec
  | .keyStatus => some keyStatusSpec
  | .bundleLoad => some bundleLoadSpec
  | .segSealOut => some sealSpec
  | .xferStatus => some xferStatusSpec
  | .cipherStatus => some cipherStatusSpec
  | .hostPortConfig => some hostConfigSpec
  | .hostPortStart => some hostStartSpec
  | .hostPortStop => some hostStopSpec
  | .hostPortStatus => some hostStatusSpec
  | .hostPortCounters => some hostCountersSpec
  | .hostClassSet => some hostClassSpec
  | .hostPortSend => some hostSendSpec
  | .hostPortRecv => some hostRecvSpec
  | .ptpTxTsRead => some ptpReadSpec
  | .chassisConfig => some chassisConfigSpec
  | .chassisSend => some chassisSendSpec
  | .chassisStatus => some chassisStatusSpec
  | .powerState => some powerStateSpec
  | .powerBudgetSet => some powerBudgetSetSpec
  | .powerStatus => some powerStatusSpec
  | .logRead => some logReadSpec
  | .logClear => some logClearSpec
  | _ => none

/-! ### Memories -/

/-- The data memory and the Bed slice of a core are in canonical form (R357, R358). -/
def coreMems (c : Core) : Bool := Memory.wf 0 c.mem && Memory.wf 0 c.slice

/-- Every byte-addressed memory is in canonical form: request slots, host memory, flash, capture store, cores. -/
def Mems (s : State) : Prop :=
  Memory.wf 0 s.mbx.req = true ∧ Memory.wf 0 s.rings.hostMem = true ∧ Memory.wf 0xFF s.boot.flash = true ∧
    Memory.wf 0 s.cap.store = true ∧ s.ast.cores.all (fun e => coreMems e.2) = true

/-! ### FAULT -/

/-- In FAULT, BOOT and STILL no power-state entry is under way (R42, R57, R472). -/
def FaultIdle (s : State) : Prop :=
  s.ctl.devState = .fault ∨ s.ctl.devState = .boot ∨ s.ctl.devState = .still → s.pwr.entry = none

/-! ### Resets (R73, R466, R518) -/

/-- The commands that reset the device or hold it in reset. -/
def isReset : Instr → Bool
  | .porNDeassert _ _ => true
  | .porNAssert => true
  | .perstNDeassert _ => true
  | .softResetWrite _ _ => true
  | .deviceResetDelayExpiry _ => true
  | .supplyRemoval => true
  | _ => false

end Sys2Proof.Machine
end

