-- ==== Sys2Proof/Certificates/Slice0/Obligations.lean ====
section
/-!
DEFINITION. The statements for the provers.
-/
section Statements

open Sys2Proof Sys2Proof.Machine

/-- COMPLETION of NOP, DEVICE_INFO, DEVICE_START, DEVICE_STOP and DEVICE_RESET (R60, R61): a request that passes the
general checks is answered ST_OK with the command's own effect. -/
def Obligations.DeviceCommandsComplete : Prop :=
  (∀ s r, Accepts nopSpec s r → exec .nop s = .next (answered r stOk [] (takeUp r s))) ∧
  (∀ s r, Accepts deviceInfoSpec s r →
    exec .deviceInfo s = .next (answered r stOk (deviceInfo (takeUp r s)) (takeUp r s))) ∧
  (∀ s r, Accepts deviceStartSpec s r →
    exec .deviceStart s = .next (answered r stOk [] (changeState .run (causeOf r) (takeUp r s)))) ∧
  (∀ s r, Accepts deviceStopSpec s r →
    exec .deviceStop s = .next (answered r stOk [] (changeState .ready (causeOf r)
      ((List.range 2).foldl (fun x p => stopPlane p (causeOf r) x)
        ((List.range 4).foldl (fun x b => stopCapture b 5 (causeOf r) x) (dropTxEn lineRx (takeUp r s))))))) ∧
  (∀ s r, Accepts deviceResetSpec s r →
    exec .deviceReset s = .next (answered r stOk [] ((takeUp r s).modCtl fun c => { c with
      resetPending := true
      resetBy := causeOf r })))

/-- COMPLETION of the firmware commands and HWINIT (R84, R87 to R92), each with the object conditions of its rule. The
model's choice: the layout of HWINIT's payload (log 29), the layout of FW_STATUS's response where no update runs (log 63),
and that the other image's whole region is blank from FW_UPDATE_BEGIN on (logs 11 and 80). -/
def Obligations.FirmwareCommandsComplete : Prop :=
  (∀ s r, Accepts fwUpdateBeginSpec s r → imageState s s.boot.image ≠ 0x7F → s.log.clearing = false →
    exec .fwUpdateBegin s = .next (answered r stOk [] (changeState .update (causeOf r)
      (modUpdate (fun _ => { phase := 1, imageBytes := u32 r.payload 0, cause := causeOf r })
        (eraseImage (otherImage s) (takeUp r s)))))) ∧
  (∀ s, s.boot.update.phase = 1 → cpRuns s = true → s.ctl.devState ≠ .fault →
    exec .fwEraseDone s = .next (raise 0x0101 0 [] s.boot.update.cause
      (modUpdate (fun x => { x with phase := 2, cause := none }) s))) ∧
  (∀ s r, Accepts fwUpdateWriteSpec s r → s.boot.update.phase = 2 → u32 r.payload 0 = s.boot.update.next →
    u32 r.payload 0 + u16 r.payload 4 ≤ s.boot.update.imageBytes →
    blankFields (u32 r.payload 0) (slice r.payload 8 (u16 r.payload 4)) = true →
    exec .fwUpdateWrite s = .next (answered r stOk []
      (modUpdate (fun x => { x with next := u32 r.payload 0 + u16 r.payload 4 })
        (program (imageBase (otherImage s) + u32 r.payload 0) (slice r.payload 8 (u16 r.payload 4)) (takeUp r s))))) ∧
  (∀ s r, Accepts fwUpdateEndSpec s r → s.boot.update.phase = 2 → u8 r.payload 0 = 0 →
    exec .fwUpdateEnd s = .next (answered r stOk []
      (changeState .ready (causeOf r) (modUpdate (fun _ => {}) (takeUp r s))))) ∧
  (∀ s r, Accepts fwUpdateEndSpec s r → s.boot.update.phase = 2 → u8 r.payload 0 = 1 →
    s.boot.update.next = s.boot.update.imageBytes → headerGood (imageHeader s (otherImage s)) = true →
    stagesGood s (otherImage s) = true →
    exec .fwUpdateEnd s = .next (answered r stOk [] (changeState .ready (causeOf r) (modUpdate (fun _ => {})
      (program (imageBase (otherImage s) + 12)
        (le 4 (nextSequence (u32 (imageHeader s s.boot.image) 12)) ++ [0x7F, 0x03]) (takeUp r s)))))) ∧
  (∀ s r, Accepts fwTrialDecideSpec s r → imageState s s.boot.image = 0x7F →
    exec .fwTrialDecide s = .next (answered r stOk [] (if u8 r.payload 0 = 0
      then program (imageBase s.boot.image + 16) [0x3F] (takeUp r s)
      else program (imageBase s.boot.image + 17) [0x00] (takeUp r s)))) ∧
  (∀ s r, Accepts fwStatusSpec s r →
    exec .fwStatus s = .next (answered r stOk
      (imageEntry s 0 ++ imageEntry s 1 ++
        (if s.ctl.devState = .update then le 4 s.boot.update.next ++ le 1 s.boot.update.phase else zeros 5) ++ zeros 3)
      (takeUp r s))) ∧
  (∀ s r, Accepts hwinitSpec s r →
    exec .hwinit s = .next (answered r stOk [] { takeUp r s with
      boot := { s.boot with hwinitFlag := u8 r.payload 0 == 1 } }))

/-- COMPLETION of ATTEST and ATTEST_CERT (R94 to R96). -/
def Obligations.AttestationCompletes : Prop :=
  (∀ s r, Accepts attestSpec s r → u8 r.payload 0 = 0 →
    exec .attest s = .next (answered r stOk
      (reportHalf r.ch 0 (buildReport r.ch (slice r.payload 8 32) (takeUp r s)))
      (buildReport r.ch (slice r.payload 8 32) (takeUp r s)))) ∧
  (∀ s r id, Accepts attestSpec s r → u8 r.payload 0 = 1 → (chan s r.ch).reportId = some id →
    u32 r.payload 4 = id.toNat →
    exec .attest s = .next (answered r stOk (reportHalf r.ch 1 (takeUp r s)) (takeUp r s))) ∧
  (∀ s r, Accepts attestCertSpec s r → u32 r.payload 0 < s.ident.certChain.length →
    exec .attestCert s = .next (answered r stOk
      (le 4 s.ident.certChain.length ++ (s.ident.certChain.drop (u32 r.payload 0)).take 232) (takeUp r s)))

/-- COMPLETION of UNASSIGNED_OPCODE, whose own effect is the ST_UNSUPPORTED response (R72, R529). -/
def Obligations.UnassignedOpcodeAnswered : Prop :=
  ∀ s r, Accepts (unassignedSpec r.opcode) s r → assigned r.opcode = false →
    exec .unassignedOpcode s = .next (answered r stUnsupported [] (takeUp r s))

/-- COMPLETION of the mailbox accesses (R44, R45, R48, R52, R474): outside STILL, a doorbell in HUSH with and without its
wake bit, and a doorbell in STILL, the first of which is latched while a later one changes nothing. The model's choice
(log 77): while a power-state entry is under way, a doorbell in HUSH whose wake bit is set rings and does not wake the device.
The events of a wake by a doorbell carry no command's tag (log 84, the model's choice). -/
def Obligations.MailboxAccessesComplete : Prop :=
  (∀ s ch off data, aonRuns s = true → s.ctl.devState ≠ .still → ch < 16 → off < 0x400 → slotAccess off data = true →
    (chan s ch).slots.getD (off / 0x100) .free = .free →
    exec (.requestSlotWrite ch off data) s = .next { s with mbx := { s.mbx with
      req := Memory.writeBytes 0 s.mbx.req (ch * 0x1000 + off) data } }) ∧
  (∀ s ch off data, aonRuns s = true → s.ctl.devState ≠ .still → ch < 16 → off < 0x400 → slotAccess off data = true →
    (chan s ch).slots.getD (off / 0x100) .free ≠ .free →
    exec (.requestSlotWrite ch off data) s = .next (modChan ch (fun c => { c with writeDiscarded := true }) s)) ∧
  (∀ s ch v, aonRuns s = true → s.ctl.devState ≠ .still → s.ctl.devState ≠ .hush → ch < 16 →
    exec (.doorbellWrite ch v) s = .next (ringBell ch v.toNat s)) ∧
  (∀ s ch v, aonRuns s = true → s.ctl.devState = .hush → bit s.pwr.wakeMask 0 = true → s.pwr.entry = none → ch < 16 →
    exec (.doorbellWrite ch v) s = .next (exitHush 1 0 none (ringBell ch v.toNat s))) ∧
  (∀ s ch v, aonRuns s = true → s.ctl.devState = .hush → (bit s.pwr.wakeMask 0 = false ∨ s.pwr.entry ≠ none) →
    ch < 16 → exec (.doorbellWrite ch v) s = .next (ringBell ch v.toNat s)) ∧
  (∀ s ch v, aonRuns s = true → s.ctl.devState = .still → s.pwr.latched = none → ch < 16 →
    exec (.doorbellWrite ch v) s = .next { s with pwr := { s.pwr with latched := some (1, 0) } }) ∧
  (∀ s ch v, aonRuns s = true → s.ctl.devState = .still → s.pwr.latched ≠ none → ch < 16 →
    exec (.doorbellWrite ch v) s = .next s) ∧
  (∀ s ch v, aonRuns s = true → s.ctl.devState ≠ .still → ch < 16 →
    exec (.mbReleaseWrite ch v) s = .next (modChan ch (fun c => { c with
      slots := c.slots.zipIdx.map fun x => if x.1 = .done ∧ bit v.toNat x.2 then .free else x.1 }) s)) ∧
  (∀ s ch, aonRuns s = true → s.ctl.devState ≠ .still → ch < 16 →
    exec (.mbErrRead ch) s = .next (answerWords [BitVec.ofNat 32 (b2n (chan s ch).dbIgnored +
        2 * b2n (chan s ch).writeDiscarded + 4 * b2n (chan s ch).checksum)]
      (modChan ch (fun c => { c with
        dbIgnored := false
        writeDiscarded := false
        checksum := false }) s)))

/-- COMPLETION of the SMBus transactions (R69, R70). -/
def Obligations.SmbusTransactionsComplete : Prop :=
  (∀ s data, aonRuns s = true → cpRuns s = true → s.mbx.smbState = .idle → 16 ≤ data.length → data.length ≤ 255 →
    exec (.smbusBlockWrite data true) s = .next { s with
      mbx := { s.mbx with
        smbState := .executing
        smbReq := data }
      ctl := { s.ctl with bus := { s.ctl.bus with
        bytes := []
        ack := true } } }) ∧
  (∀ s data pec, aonRuns s = true → (pec = false ∨ cpRuns s = false ∨ s.mbx.smbState ≠ .idle) →
    exec (.smbusBlockWrite data pec) s = .next { s with ctl := { s.ctl with bus := { s.ctl.bus with
      bytes := []
      ack := false } } }) ∧
  (∀ s, aonRuns s = true → ∃ t, exec (.smbusStatusRead true) s = .next t ∧ t.ctl.bus.ack = true ∧
    t.ctl.bus.bytes = [if cpRuns s then
      (match s.mbx.smbState with
        | .idle => 0
        | .executing => 1
        | .ready => 2) else 3] ∧ t = { s with ctl := { s.ctl with bus := t.ctl.bus } }) ∧
  (∀ s, aonRuns s = true → cpRuns s = true → s.mbx.smbState = .ready →
    exec (.smbusBlockRead true) s = .next { s with
      mbx := { s.mbx with
        smbState := .idle
        smbReq := []
        smbResp := [] }
      ctl := { s.ctl with bus := { s.ctl.bus with
        bytes := s.mbx.smbResp
        ack := true } } }) ∧
  (∀ s, aonRuns s = true → exec (.smbusStateRead true) s = .next { s with
    ctl := { s.ctl with bus := { s.ctl.bus with
      bytes := le 1 (stateCode s.ctl.devState + 0x10 * b2n s.ctl.cpAlive + 0x20 * b2n s.ctl.faultHw)
      ack := true } } })

/-- COMPLETION of the register accesses with a behaviour of their own outside STILL (R63, R68, R125, R126, R502). -/
def Obligations.RegisterAccessesComplete : Prop :=
  (∀ s off data, aonRuns s = true → offDomain 0 off s = false → data.length = 4 → off % 4 = 0 →
    exec (.registerWrite off data) s = .next (regWrite off (BitVec.ofNat 32 (u32 data 0)) s)) ∧
  (∀ s n dir, aonRuns s = true → s.ctl.devState ≠ .still → 0 < n → n < 32 → (ring s n).en = false →
    exec (.ringCtrlEnable n dir) s = .next (modRing n (fun r => { r with en := true, dir, head := 0 }) s)) ∧
  (∀ s dir, aonRuns s = true → s.ctl.devState ≠ .still → (ring s 0).en = false →
    exec (.ringCtrlEnable 0 dir) s = .next (flushEvents { modRing 0 (fun r => { r with
        en := true
        dir := false
        head := 0 }) s with
      rings := { (modRing 0 (fun r => { r with
        en := true
        dir := false
        head := 0 }) s).rings with phase := true } })) ∧
  (∀ s n, aonRuns s = true → s.ctl.devState ≠ .still → n < 32 →
    exec (.ringCtrlDisable n) s = .next (modRing n (fun r => { r with en := false }) s)) ∧
  (∀ s n v, aonRuns s = true → s.ctl.devState ≠ .still → 0 < n → n < 32 →
    exec (.ringTailWrite n v) s = .next (modRing n (fun r => { r with tail := v.toNat % 65536 }) s)) ∧
  (∀ s v, aonRuns s = true → s.ctl.devState ≠ .still →
    exec (.ringTailWrite 0 v) s = .next (flushEvents (modRing 0 (fun r => { r with tail := v.toNat % 65536 }) s))) ∧
  (∀ s, aonRuns s = true → offDomain 0 0x200000 s = false → exec .timeNsLoRead s = .next (answerWords [s.time.ns.setWidth 32]
    { s with time := { s.time with
      latHi := BitVec.ofNat 32 (s.time.ns.toNat / 2 ^ 32)
      latFrac := BitVec.ofNat 16 (s.time.frac.toNat / 256) } })) ∧
  (∀ s, aonRuns s = true → offDomain 0 0x200000 s = false → exec .ppsInTsLoRead s = .next
    (answerWords [s.time.ppsTs.setWidth 32]
      { s with time := { s.time with ppsTsHi := BitVec.ofNat 32 (s.time.ppsTs.toNat / 2 ^ 32) } })) ∧
  (∀ s, aonRuns s = true → offDomain 0 0x200000 s = false → exec .timeStatusRead s = .next
    (answerWords [BitVec.ofNat 32 (timeStatus s)] { s with time := { s.time with
      stepRefused := false
      incrRejected := false } })) ∧
  (∀ s v, aonRuns s = true → offDomain 0 0x200000 s = false →
    exec (.incrWrite v) s = .next (if 0x01800000 ≤ v.toNat ∧ v.toNat ≤ 0x01B33333
      then { s with time := { keepPast s.time with incr := v } }
      else { s with time := { s.time with incrRejected := true } })) ∧
  (∀ s v, aonRuns s = true → offDomain 0 0x200000 s = false →
    exec (.clkForcedClear v) s = .next { s with clk := { s.clk with
      forced := s.clk.forced &&& ~~~(v.setWidth 7) } }) ∧
  (∀ s v, aonRuns s = true → s.ctl.devState ≠ .still →
    exec (.logViewSlotWrite v) s = .next { s with log := { s.log with
      viewSlot := v.toNat % 32768
      viewBusy := true } })

/-- COMPLETION of the accesses to the injection window outside STILL (R505, R506, R509): arming, disarming, a write that does
neither or both, and the read that clears REFUSED. LOS and the pause watchdog act at the arming itself. The model's choice
(log 26): the order in which a refused arming is tested, that a disarm can be refused with cause 7 only and needs no
INJECT_ENABLE.EN, and cause 3 for a write without ARM and DISARM. -/
def Obligations.InjectionWindowCompletes : Prop :=
  (∀ s v, aonRuns s = true → s.ctl.devState ≠ .still → v.getLsbD 31 = true → v.getLsbD 30 = false →
    armRefusal (v.toNat % 65536) s = none → v.toNat % 65536 ≠ 0x05 → v.toNat % 65536 ≠ 0x10 →
    exec (.injectArm v) s = .next (putEntry (v.toNat % 65536) s)) ∧
  (∀ s v, aonRuns s = true → s.ctl.devState ≠ .still → v.getLsbD 31 = true → v.getLsbD 30 = false →
    armRefusal (v.toNat % 65536) s = none → v.toNat % 65536 = 0x05 →
    exec (.injectArm v) s = .next (losInjection s.inj.target.toNat (putEntry 0x05 s))) ∧
  (∀ s v, aonRuns s = true → s.ctl.devState ≠ .still → v.getLsbD 31 = true → v.getLsbD 30 = false →
    armRefusal (v.toNat % 65536) s = none → v.toNat % 65536 = 0x10 →
    exec (.injectArm v) s = .next (pauseInjection false s.inj.target.toNat (putEntry 0x10 s))) ∧
  (∀ s v, aonRuns s = true → s.ctl.devState ≠ .still → v.getLsbD 31 = v.getLsbD 30 →
    exec (.injectArm v) s = .next { s with inj := { s.inj with refused := true, cause := 3 } }) ∧
  (∀ s v c, aonRuns s = true → s.ctl.devState ≠ .still → v.getLsbD 31 = true → v.getLsbD 30 = false →
    armRefusal (v.toNat % 65536) s = some c →
    exec (.injectArm v) s = .next { s with inj := { s.inj with refused := true, cause := c } }) ∧
  (∀ s v i, aonRuns s = true → s.ctl.devState ≠ .still → v.getLsbD 31 = false → v.getLsbD 30 = true →
    injIndex (v.toNat % 65536) s.inj.target.toNat s = some i →
    exec (.injectDisarm v) s = .next { s with inj := { s.inj with entries := tdel s.inj.entries i } }) ∧
  (∀ s v, aonRuns s = true → s.ctl.devState ≠ .still → v.getLsbD 31 = false → v.getLsbD 30 = true →
    injIndex (v.toNat % 65536) s.inj.target.toNat s = none →
    exec (.injectDisarm v) s = .next { s with inj := { s.inj with refused := true, cause := 7 } }) ∧
  (∀ s, aonRuns s = true → s.ctl.devState ≠ .still → exec .injectStatusRead s = .next
    (answerWords [BitVec.ofNat 32 (b2n s.inj.refused + 2 * (s.inj.cause % 8) + 256 * s.inj.entries.length)]
      { s with inj := { s.inj with refused := false } }))

/-- COMPLETION of BAR2 accesses, of accesses to stopped islands, and of reads of any width and alignment in BAR0 of a running
one (R36, R350, R477; the last by the model's choice of log 78). -/
def Obligations.WindowAccessesComplete : Prop :=
  (∀ s off n, aonRuns s = true → offDomain 2 off s = false → exec (.bar2Read off n) s = .next (bar2Read off n s)) ∧
  (∀ s off data, aonRuns s = true → offDomain 2 off s = false →
    exec (.bar2Write off data) s = .next (bar2Write off data s)) ∧
  (∀ s bar off data n, aonRuns s = true → offDomain bar off s = true →
    exec (.offDomainAccess bar off (some data) n) s = .next { s with pwr := { s.pwr with
      offAddr := some (s.pwr.offAddr.getD (1, bar, off))
      offCount := s.pwr.offCount + 1 } }) ∧
  (∀ s bar off n, aonRuns s = true → offDomain bar off s = true →
    exec (.offDomainAccess bar off none n) s = .next (answerWords (List.replicate ((n + 3) / 4) 0x0BAD0FF0)
      { s with pwr := { s.pwr with
        offAddr := some (s.pwr.offAddr.getD (0, bar, off))
        offCount := s.pwr.offCount + 1 } })) ∧
  (∀ s off n, aonRuns s = true → offDomain 0 off s = false →
    exec (.offDomainAccess 0 off none n) s = .next (answerWords (busRead s off n) (readEffect off n s))) ∧
  (∀ s off n, aonRuns s = true → offDomain 0 off s = false → n ≠ 4 → n ≠ 8 →
    exec (.offDomainAccess 0 off none n) s = .next (answerWords (List.replicate ((n + 3) / 4) 0) s))

/-- COMPLETION of the resets, of boot and of the CP's own events (R40, R42, R43, R57, R60, R73, R76, R77, R466, R494). The model's
choice: a reset that leaves the device state posts EV_STATE_CHANGED before it clears the ring, a function-level reset keeps
the entry that is held back, and the watchdog expires in BOOT and STILL too (log 61); what else a reset keeps (log 49); a
function-level reset keeps the response of a request of the SMBus mailbox (log 84); what of the always-on island a reset keeps
beside what R74 names (logs 49 and 85). -/
def Obligations.ResetsAndBootComplete : Prop :=
  (∀ s straps env, exec (.porNDeassert straps env) s = .next (bootRom env (logPowerOn
    { resetState false false s with
      boot := { (resetState false false s).boot with
        strapBoot := straps.boot % 4
        strapHwinit := straps.hwinit
        strapSmb := straps.smb % 8 }
      mbx := { (resetState false false s).mbx with smbAddr := 0x58 + straps.smb % 8 } }))) ∧
  (∀ s, exec .porNAssert s = .next (heldReset s.ctl.powered s)) ∧
  (∀ s, exec .supplyRemoval s = .next (heldReset false s)) ∧
  (∀ s env, aonRuns s = true → exec (.perstNDeassert env) s = .next (bootRom env (resetState true false
      (if s.ctl.devState = .boot then gapHours s else setDevState .boot none (gapHours s))))) ∧
  (∀ s env, aonRuns s = true →
    exec (.softResetWrite 0xB0075EED env) s = .next (bootRom env (resetState true true
      (if s.ctl.devState = .boot then gapHours s else setDevState .boot none (gapHours s))))) ∧
  (∀ s v env, v ≠ 0xB0075EED → exec (.softResetWrite v env) s = .next s) ∧
  (∀ s env, aonRuns s = true → s.ctl.resetPending = true →
    exec (.deviceResetDelayExpiry env) s = .next (bootRom env (resetState true true
      (if s.ctl.devState = .boot then gapHours s else setDevState .boot s.ctl.resetBy (gapHours s))))) ∧
  (∀ s, aonRuns s = true → ∃ t, exec .functionLevelReset s = .next t ∧
    t.rings.rings = tmap s.rings.rings (fun _ r => { r with en := false, lost := 0 }) ∧ t.rings.vectors = [] ∧
    t.rings.seq = 0 ∧ t.rings.held = s.rings.held ∧
    t.mbx.chans = tmap s.mbx.chans (fun n c => if n = 16 then c else { c with
      slots := [.free, .free, .free, .free]
      queue := []
      bindClient := 0
      bound := false }) ∧
    t.ctl.exec = s.ctl.exec.map (fun e => if e.ch = 16 then e else { e with discard := true }) ∧
    t.fr = s.fr ∧ t.tm = s.tm ∧ t.cls = s.cls ∧ t.cap = s.cap ∧ t.ast = s.ast ∧ t.ctl.devState = s.ctl.devState) ∧
  (∀ s, exec .trstNAssert s = .next s) ∧
  (∀ s, s.ctl.devState = .boot → s.boot.pllLocked = false → aonRuns s = true →
    exec (.pllLockTimeout true) s = .next (bootFails true 1 s)) ∧
  (∀ s, s.ctl.devState = .boot → s.boot.pllLocked = true → s.boot.bootOk = true → aonRuns s = true →
    s.boot.trialBoot = false → s.pwr.offAddr = none →
    exec .bootComplete s = .next (setDevState .ready none (s.modCtl fun c => { c with
      fwVersion := BitVec.ofNat 32 (u32 (imageHeader s s.boot.image) 8)
      cpAlive := true }))) ∧
  (∀ s, cpRuns s = true →
    exec .cpHeartbeatTick s = .next (s.modCtl fun c => { c with heartbeat := c.heartbeat + 1 })) ∧
  (∀ s, (s.ctl.cpAlive = true ∨ s.ctl.devState ≠ .fault) → aonRuns s = true → injIndex 0x1A 0 s = none →
    exec .cpWatchdogExpiry s = .next (hardwareFault false 0x0F03 0 (le 4 s.ctl.heartbeat.toNat) s)) ∧
  (∀ s d, cpRuns s = true → s.ctl.devState ≠ .fault → exec (.firmwareFault d) s = .next (firmwareFault false d s))

/-- COMPLETION of the recorder's commands and events (R494 to R504, R520). The model's choice (log 81): a slot programmed while
a power failure suspends the erase of LOG_CLEAR outlives that erase, the hour that ends in STILL, and the seq that LOG_CLEAR
reserves for EV_LOG_CLEARED: that of the first waiting record, which with the records behind it moves up by one. -/
def Obligations.RecorderCommandsComplete : Prop :=
  (∀ s r rest, s.log.buf = r :: rest → aonRuns s = true → s.log.clearing = false →
    exec .recordProgrammed s = .next { s with log := { s.log with
      buf := rest
      slots := tset s.log.slots r.slot (fit 64 r.data) } }) ∧
  (∀ s r rest, s.log.buf = r :: rest → aonRuns s = true → s.log.clearing = true → s.log.powerFail = true →
    exec .recordProgrammed s = .next { s with log := { s.log with
      buf := rest
      slots := tset s.log.slots r.slot (fit 64 r.data)
      since := tset s.log.since r.slot (fit 64 r.data) } }) ∧
  (∀ s, aonRuns s = true → clockStands s = false → exec .hourTick s = .next { s with log := { s.log with
    hours := (s.log.hours + 100) % 2 ^ 32
    hourMark := s.time.cycles
    hourGap := false
    jHours := (s.log.hours + 100) % 2 ^ 32
    jCycles := s.log.cycles } }) ∧
  (∀ s, aonRuns s = true → s.ctl.devState = .still → ∃ t, exec .hourTick s = .next t ∧
    t.log.hours = (s.log.hours + 100) % 2 ^ 32 ∧ t.log.hourMark = s.log.hourMark + 3600 * 625000000 ∧
    t.log.jCycles = s.log.cycles) ∧
  (∀ s, aonRuns s = true → s.log.powerFail = false → s.log.nextSlot < 32768 →
    (s.log.full = false ∨ s.log.clearing = true) →
    ∃ t, exec .pwrFailNAssert s = .next t ∧ t.log.powerFail = true ∧ t.log.nextSlot = s.log.nextSlot + 1 ∧
      t.log.jHours = hoursNow s ∧ t.log.refused = s.log.refused ∧
      tfind t.log.slots s.log.nextSlot = some (powerFailRecord s)) ∧
  (∀ s, aonRuns s = true →
    exec .pwrFailNDeassert s = .next { s with log := { s.log with powerFail := false } }) ∧
  (∀ s r, Accepts logClearSpec s r → s.log.clearing = false →
    exec .logClear s = .next (answered r stOk [] { takeUp r s with log := { s.log with
      clearing := true
      clearCause := causeOf r
      clearSeq := (s.log.buf.head?.map fun x => BitVec.ofNat 32 (u32 x.data 0)).getD s.log.nextSeq
      usedBefore := min s.log.nextSlot 32768
      slots := tdel s.log.slots 0
      since := []
      buf := renumber 1 s.log.buf
      nextSlot := 1 + s.log.buf.length
      lastSeq := s.log.nextSeq
      lastWritten := if s.log.buf.isEmpty then s.log.nextSeq else s.log.lastWritten + 1
      nextSeq := s.log.nextSeq + 1
      lastPf := s.log.lastPf && !s.log.buf.isEmpty
      viewBusy := true } })) ∧
  (∀ s, aonRuns s = true → s.log.clearing = true → s.log.powerFail = false →
    ∃ t, exec .logEraseDone s = .next t ∧ t.log.clearing = false ∧ t.log.full = false ∧ t.log.refused = 0 ∧
      t.log.buf = s.log.buf ∧ t.log.nextSeq = s.log.nextSeq ∧
      tfind t.log.slots 0 = some (recordBytes s.log.clearSeq.toNat (hoursNow s) s.log.cycles (2 * b2n s.time.unsynced)
        (eventOf 0x0F06 0 (le 4 s.log.usedBefore) s.log.clearCause s)) ∧ ∀ n, n ≠ 0 → tfind t.log.slots n = tfind s.log.since n) ∧
  (∀ s r, Accepts logReadSpec s r →
    exec .logRead s = .next (answered r stOk
      (le 4 (logFirst s.log) ++ le 4 s.log.lastSeq.toNat ++ le 2 s.log.nextSlot ++ le 2 s.log.buf.length ++
        le 1 (b2n s.log.full + 2 * b2n s.log.clearing) ++ zeros 3 ++
        (List.range (u8 r.payload 2)).flatMap fun i => logSlot s.log (u16 r.payload 0 + i)) (takeUp r s))) ∧
  (∀ s, aonRuns s = true → s.log.viewBusy = true → exec .logViewFillDone s = .next { s with log := { s.log with
    viewBusy := false
    view := (List.range 512).map fun i => logSlot s.log (s.log.viewSlot + i) } })

/-- COMPLETION of the clock commands and of the AVSBus exchange (R104, R107, R108, R110, R112, R135, R479); CORE_POINT while
THERM_HOT holds CK_CORE at point 0 (R481). The model's choice (log 77): whether the slave acknowledges is an operand, and a
readback that AVSBUS_MONITOR sends again is answered at the next one. -/
def Obligations.ClockCommandsComplete : Prop :=
  (∀ s r, Accepts clockSetSpec s r → exec .clockSet s = .next (answered r stOk [] { takeUp r s with
    clk := { s.clk with noc := u8 r.payload 0, cpRatio := u8 r.payload 1, memc := u8 r.payload 2 } })) ∧
  (∀ s r, Accepts corePointSpec s r → (s.ctl.devState = .hush ∨
      (s.clk.step = none ∧ (u8 r.payload 0 = s.clk.point ∨ (s.pwr.hot = true ∧ s.clk.point = 0)))) →
    exec .corePoint s = .next (answered r stOk (le 1 s.clk.point ++ le 1 (b2n s.clk.vddConfirmed) ++ zeros 2)
      { takeUp r s with clk := { s.clk with ceiling := u8 r.payload 0 } })) ∧
  (∀ s r, Accepts corePointSpec s r → s.ctl.devState ≠ .hush → s.clk.step = none →
    u8 r.payload 0 ≠ s.clk.point → ¬(s.pwr.hot = true ∧ s.clk.point = 0) →
    exec .corePoint s = .next (executing r (startStep { target := u8 r.payload 0, origin := .command }
      { takeUp r s with clk := { s.clk with ceiling := u8 r.payload 0 } }))) ∧
  (∀ s r, Accepts clockStatusSpec s r →
    exec .clockStatus s = .next (answered r stOk
      (le 1 s.src.state ++ le 1 s.src.source ++ le 1 s.src.mode ++ le 1 (b2n s.src.qualA + 2 * b2n s.src.qualB) ++
        le 1 s.clk.point ++ le 1 s.clk.ceiling ++ le 1 (b2n s.clk.vddConfirmed) ++ le 1 s.src.trimUsed ++
        le 4 s.src.refPpb.toNat ++ le 4 s.time.incr.toNat ++ le 1 (s.clk.noc + 2 * s.clk.cpRatio) ++
        le 1 s.clk.memc ++ le 1 s.clk.forced.toNat ++ zeros 5) (takeUp r s))) ∧
  (∀ s, s.clk.step.isSome = true → s.clk.avsPending = true → s.clk.avsWithheld = false →
    exec .avsbusAck s = .next (endStep true s)) ∧
  (∀ s, s.clk.step.isSome = true → s.clk.avsPending = true → s.clk.avsWithheld = false →
    exec (.avsbusStatusPoll { writeGood := true, readGood := true, vDone := true }) s = .next (endStep true (emit .avsStatus s))) ∧
  (∀ s, s.clk.step.isSome = true → s.clk.avsPending = true →
    exec (.avsbusStatusPoll { writeGood := true, readGood := true, vDone := false }) s = .next (emit .avsStatus s)) ∧
  (∀ s d, s.clk.step.isSome = true → s.clk.avsPending = true →
    exec (.avsbusStatusPoll { writeGood := true, readGood := false, vDone := d }) s = .next (emit .avsStatus (emit .avsStatus s))) ∧
  (∀ s g d, s.clk.step.isSome = true → s.clk.avsPending = true →
    exec (.avsbusStatusPoll { writeGood := false, readGood := g, vDone := d }) s = .next (emit (.avsWrite s.clk.avsMv) (emit .avsStatus s))) ∧
  (∀ s, s.clk.step.isSome = true → exec .avsbusAckTimeout s = .next (endStep false s)) ∧
  (∀ s mv idd, aonRuns s = true → s.ctl.devState ≠ .still → exec (.avsbusMonitor true { mv, idd }) s = .next { emit .avsRead s with
    clk := { s.clk with vddMv := mv % 65536, idd := idd % 65536 } }) ∧
  (∀ s mv idd, aonRuns s = true → s.ctl.devState ≠ .still →
    exec (.avsbusMonitor false { mv, idd }) s = .next (emit .avsRead (emit .avsRead s))) ∧
  (∀ s good v, aonRuns s = false → exec (.avsbusMonitor good v) s = .next s) ∧
  (∀ s mux, mux < 7 → timeRuns s = true →
    exec (.clkForcedSwitch mux) s = .next (raise 0x0202 0 (le 1 mux) none
      { s with clk := { s.clk with forced := s.clk.forced ||| BitVec.ofNat 7 (2 ^ mux) } }))

/-- COMPLETION of the frequency source's command and events (R113 to R120). The model's choice (log 84): refclk_sys_ppb keeps its
value from the entry into LOCKED, or a change of plane, to the next RC_TRIM. -/
def Obligations.FrequencySourceCompletes : Prop :=
  (∀ s r, Accepts freqSourceSpec s r → exec .freqSourceSet s = .next (answered r stOk []
    (applyMode (causeOf r) { takeUp r s with src := { s.src with
      mode := u8 r.payload 0
      revertive := u8 r.payload 1 == 1
      wtr := u16 r.payload 2 } }))) ∧
  (∀ s p, p ≤ 1 → (tget ({} : Plane) s.fr.planes p).state = 2 → timeRuns s = true → qualified s p = false →
    (tget ({} : DefPort) s.fr.defects (16 * p + (tget ({} : Plane) s.fr.planes p).prot.activePort)).declared % 8 = 0 →
    exec (.sourceQualified p) s = .next (gainQual p s)) ∧
  (∀ s, s.src.state = 1 → s.src.source = 1 → s.src.mode = 0 → s.src.revertive = true → s.src.qualB = true →
    timeRuns s = true → exec .sourceWtrExpiry s = .next (setSource 1 2 none s)) ∧
  (∀ s, s.src.bridging = true → timeRuns s = true → qualified s (s.src.source - 1) = true →
    exec .dpllBridgeExpiry s = .next { s with src := { s.src with bridging := false } }) ∧
  (∀ s, s.src.bridging = true → timeRuns s = true → qualified s (s.src.source - 1) = false →
    exec .dpllBridgeExpiry s = .next (sourceLost none { s with src := { s.src with bridging := false } })) ∧
  (∀ s refIn ppb, s.src.trimRef = 0 → ∃ t, exec (.rcTrim refIn ppb) s = .next t ∧
    t.src.trimUsed = (if refIn then 1 else 2) ∧ (s.src.state ≠ 1 → t.src.refPpb = 0x80000000) ∧
    (s.src.state = 1 → timeRuns s = true → t.src.refPpb = BitVec.ofInt 32 ppb) ∧ t = { s with src := t.src })

/-- COMPLETION of the device-time commands and of PPS (R127, R128, R131 to R133). The model's choice (log 64): TIME_CONFIG makes
no edge of a second that its offset has already passed, and PPS_OUT_RISE has no effect before its second. -/
def Obligations.DeviceTimeCompletes : Prop :=
  (∀ s r, Accepts timeAdjustSpec s r → (signed 64 (u64 r.payload 0)).natAbs ≤ s.time.stepMax →
    exec .timeAdjust s = .next (answered r stOk []
      (stepTime (s.time.ns + BitVec.ofNat 64 (u64 r.payload 0)) s.time.frac (takeUp r s)))) ∧
  (∀ s r, Accepts timeForceSpec s r → u8 r.payload 0 = 0 → ∃ t, exec .timeForce s = .next (answered r stOk []
      (raise 0x0204 0 (le 8 s.time.ns.toNat ++ le 8 (u64 r.payload 8)) (causeOf r) t)) ∧
    t.time.ns = BitVec.ofNat 64 (u64 r.payload 8) ∧ t.time.frac = 0 ∧ t.time.unsynced = false) ∧
  (∀ s r, Accepts timeForceSpec s r → u8 r.payload 0 = 1 → ∃ t, exec .timeForce s = .next (answered r stOk []
      (raise 0x0204 0 (le 8 s.time.ns.toNat ++ le 8 t.time.ns.toNat) (causeOf r) t)) ∧
    t.time.ns = s.time.ns + BitVec.ofNat 64 (u64 r.payload 8) ∧ t.time.frac = s.time.frac ∧
    t.time.unsynced = false) ∧
  (∀ s r, Accepts timeConfigSpec s r → exec .timeConfig s = .next (answered r stOk [] { takeUp r s with
    time := { s.time with
      stepMax := u32 r.payload 0
      ppsWidth := u32 r.payload 4
      ppsOffset := signed 32 (u32 r.payload 8)
      ppsDone := ppsSecond (signed 32 (u32 r.payload 8)) s.time.ns
      ppsEvent := u8 r.payload 12 == 1 }
    src := { s.src with trimRef := u8 r.payload 13 } })) ∧
  (∀ s, timeRuns s = true → s.time.ppsDone < ppsSecond s.time.ppsOffset s.time.ns →
    exec .ppsOutRise s = .next { s with time := { s.time with
      ppsOut := true
      ppsDone := ppsSecond s.time.ppsOffset s.time.ns } }) ∧
  (∀ s, ppsSecond s.time.ppsOffset s.time.ns ≤ s.time.ppsDone → exec .ppsOutRise s = .next s) ∧
  (∀ s, exec .ppsOutFall s = .next { s with time := { s.time with ppsOut := false } }) ∧
  (∀ s, timeRuns s = true → s.time.ppsEvent = false → s.ctl.devState ≠ .hush →
    exec .ppsInEdge s = .next { s with
      time := { s.time with ppsTs := s.time.ns, ppsCount := s.time.ppsCount + 1 } }) ∧
  (∀ s, timeRuns s = true → s.time.ppsEvent = true →
    exec .ppsInEdge s = .next (wakeSource 6 0 (raise 0x0205 0 (le 8 s.time.ns.toNat) none { s with
      time := { s.time with ppsTs := s.time.ns, ppsCount := s.time.ppsCount + 1 } })))

/-- COMPLETION of the lane commands (R140 to R154, R158), with the whole of LANE_STATUS. The model's choice: LANE_RX_EQ of mode 1
in manual mode keeps the manual values, and a start without loopback on one lane of a near-end loopback ends it on both (log
80); a start of a near-end loopback resets both lanes, a host lane leaves SERVICE for TEST while its port keeps its state, and
the SD flags of a transmit lane and the fields of a direction that a lane lacks read 0 (log 83); what an adapting equaliser
reads and the eye margin are free values (log 14); action 0 leaves a lane as it is that is not in TEST (log 85). -/
def Obligations.LaneCommandsComplete : Prop :=
  (∀ s r, Accepts txEqSpec s r → isHostLane (u8 r.payload 0) = false →
    exec .laneTxEq s = .next (answered r stOk [] (modLane (u8 r.payload 0) (fun x => { x with pendTx := some {
      pre := u8 r.payload 1
      post := u8 r.payload 2
      amp := u8 r.payload 3
      invert := u8 r.payload 4 == 1 } }) (takeUp r s)))) ∧
  (∀ s r, Accepts txEqSpec s r → isHostLane (u8 r.payload 0) = true →
    (hport s ((u8 r.payload 0 - 0x80) / 4)).lt = false →
    exec .laneTxEq s = .next (answered r stOk [] (modLane (u8 r.payload 0) (fun x => { x with tx := {
      pre := u8 r.payload 1
      post := u8 r.payload 2
      amp := u8 r.payload 3
      invert := u8 r.payload 4 == 1 } }) (takeUp r s)))) ∧
  (∀ s r, Accepts rxEqSpec s r → u8 r.payload 1 = 2 →
    exec .laneRxEq s = .next (answered r stOk [] (modLane (u8 r.payload 0) (fun x => { x with
      rxMode := 2
      ctle := u8 r.payload 2
      dfe := dfeOf r.payload 3
      invertRx := u8 r.payload 8 == 1 }) (takeUp r s)))) ∧
  (∀ s r, Accepts rxEqSpec s r → u8 r.payload 1 = 0 →
    exec .laneRxEq s = .next (answered r stOk [] (modLane (u8 r.payload 0) (fun x => { x with
      rxMode := 0
      invertRx := u8 r.payload 8 == 1 }) (takeUp r s)))) ∧
  (∀ s r, Accepts rxEqSpec s r → u8 r.payload 1 = 1 → (lane s (u8 r.payload 0)).rxMode ≠ 0 →
    exec .laneRxEq s = .next (answered r stOk [] (modLane (u8 r.payload 0) (fun x => { x with
      rxMode := 1
      invertRx := u8 r.payload 8 == 1 }) (takeUp r s)))) ∧
  (∀ s r v, Accepts rxEqSpec s r → u8 r.payload 1 = 1 → (lane s (u8 r.payload 0)).rxMode = 0 →
    (lane s (u8 r.payload 0)).frozen = some v →
    exec .laneRxEq s = .next (answered r stOk [] (modLane (u8 r.payload 0) (fun x => { x with
      rxMode := 1
      ctle := v.1
      dfe := v.2
      invertRx := u8 r.payload 8 == 1 }) (takeUp r s)))) ∧
  (∀ s r, Accepts rxEqSpec s r → u8 r.payload 1 = 1 → (lane s (u8 r.payload 0)).rxMode = 0 →
    (lane s (u8 r.payload 0)).frozen = none →
    exec .laneRxEq s = .next (answered r stOk [] (modLane (u8 r.payload 0) (fun x => { x with
      rxMode := 1
      ctle := (adapted (takeUp r s)).1.1
      dfe := (adapted (takeUp r s)).1.2
      invertRx := u8 r.payload 8 == 1 }) (adapted (takeUp r s)).2))) ∧
  (∀ s r, Accepts signalsSpec s r → lineRx.contains (u8 r.payload 0) = true →
    exec .portSignals s = .next (answered r stOk [] (modLinePort (u8 r.payload 0) (fun x => { x with
      latched := if (x.lastEnd.any fun e => decide (e ≤ lineNow s (u8 r.payload 0 / 16))) && x.latched.isNone
        then some x.times else x.latched
      txPol := if x.txEn then x.txPol else u8 r.payload 1 == 1
      heldTxPol := if x.txEn then some (u8 r.payload 1 == 1) else none
      sdPol := u8 r.payload 2 == 1
      times := {
        trainLead := u16 r.payload 4
        tonLead := u16 r.payload 6
        toffLag := u16 r.payload 8
        minLow := u16 r.payload 10 } }) (takeUp r s)))) ∧
  (∀ s r, Accepts signalsSpec s r → lineRx.contains (u8 r.payload 0) = false →
    exec .portSignals s = .next (answered r stOk [] (modLinePort (u8 r.payload 0) (fun x => { x with
      sdPol := u8 r.payload 2 == 1
      bmPol := if x.bmRst then x.bmPol else u8 r.payload 3 == 1
      heldBmPol := if x.bmRst then some (u8 r.payload 3 == 1) else none
      bmDelay := u16 r.payload 12
      bmWidth := u16 r.payload 14 }) (takeUp r s)))) ∧
  (∀ s r, Accepts laneLpiSpec s r →
    exec .hostLaneLpi s = .next (answered r stOk [] { takeUp r s with lane := { s.lane with
      lpiCfg := tset s.lane.lpiCfg (u8 r.payload 0) (u8 r.payload 1, u8 r.payload 2) } })) ∧
  (∀ s r, Accepts laneTestSpec s r → u8 r.payload 1 = 0 →
    ¬(s.ctl.devState = .run ∧ (lane s (u8 r.payload 0)).state = 1) →
    (u8 r.payload 6 = 0 ∨ (optics s (portOfLane (u8 r.payload 0))).laser = true) →
    exec .laneTest s = .next (answered r stOk [] (settleLane (u8 r.payload 0)
      ((testLanes ((lane s (u8 r.payload 0)).loopback == 1) (u8 r.payload 0)).foldl (fun y k => endTest k y)
        (takeUp r s))))) ∧
  (∀ s r, Accepts laneTestSpec s r → u8 r.payload 1 = 2 → (lane s (u8 r.payload 0)).state = 2 →
    (u8 r.payload 6 = 0 ∨ (optics s (portOfLane (u8 r.payload 0))).laser = true) →
    exec .laneTest s = .next (answered r stOk [] (startErrors (u8 r.payload 0)
      (modLane (u8 r.payload 0) (fun y => { y with
        inject := u8 r.payload 5
        interval := u32 r.payload 8
        injLeft := if u8 r.payload 5 = 2 then u32 r.payload 8 else u8 r.payload 5 }) (takeUp r s))))) ∧
  (∀ s r, Accepts laneTestSpec s r → u8 r.payload 1 = 1 →
    (s.ctl.devState = .run → ∀ k ∈ u8 r.payload 0 :: testLanes (u8 r.payload 4 == 1) (u8 r.payload 0),
      (lane s k).state ≠ 1) →
    (u8 r.payload 6 = 0 ∨ (optics s (portOfLane (u8 r.payload 0))).laser = true) →
    exec .laneTest s = .next (answered r stOk [] (settleLane (u8 r.payload 0) (startPattern (u8 r.payload 0)
      (modLane (u8 r.payload 0) (fun y => { y with
        gen := u8 r.payload 2
        chk := u8 r.payload 3
        inject := u8 r.payload 5
        interval := u32 r.payload 8
        injLeft := if u8 r.payload 5 = 2 then u32 r.payload 8 else u8 r.payload 5
        user := BitVec.ofNat 64 (u64 r.payload 16)
        txForce := u8 r.payload 6 == 1
        elecIdle := u8 r.payload 4 == 1 || (u8 r.payload 4 == 0 && u8 r.payload 2 == 0) })
      ((testLanes (u8 r.payload 4 == 1) (u8 r.payload 0)).foldl (fun y k => beginTest (u8 r.payload 4) k y)
        (if (lane s (u8 r.payload 0)).loopback = 1 ∧ u8 r.payload 4 ≠ 1 then
          (testLanes true (u8 r.payload 0)).foldl (fun y k => modLane k (fun z => { z with loopback := 0 }) y) (takeUp r s)
        else takeUp r s))))))) ∧
  (∀ s r, Accepts laneStatusSpec s r → ∃ ctle dfe margin t, exec .laneStatus s = .next (answered r stOk
      (le 1 (u8 r.payload 0) ++ le 1 (lane s (u8 r.payload 0)).state ++
        le 1 (b2n (lane s (u8 r.payload 0)).cdrLock + sdBits s (u8 r.payload 0) +
          8 * b2n (lane s (u8 r.payload 0)).chkLock +
          16 * b2n (canSend (u8 r.payload 0) && (lane s (u8 r.payload 0)).elecIdle) +
          32 * b2n (lane s (u8 r.payload 0)).lpiTx + 64 * b2n (lane s (u8 r.payload 0)).lpiRx) ++
        (if canReceive (u8 r.payload 0) then
          le 1 (lane s (u8 r.payload 0)).rxMode ++ le 1 ctle ++ dfe.flatMap (fun h => le 1 (unsigned 8 h)) else zeros 7) ++
        (if canSend (u8 r.payload 0) then le 1 (lane s (u8 r.payload 0)).tx.pre ++
          le 1 (lane s (u8 r.payload 0)).tx.post ++ le 1 (lane s (u8 r.payload 0)).tx.amp else zeros 3) ++
        le 1 (if canSend (u8 r.payload 0) then (lane s (u8 r.payload 0)).gen else (lane s (u8 r.payload 0)).chk) ++
        zeros 2 ++ le 8 (lane s (u8 r.payload 0)).prbsBits ++ le 8 (lane s (u8 r.payload 0)).prbsErrors ++
        le 4 (lane s (u8 r.payload 0)).cdrLosses ++ le 4 (lane s (u8 r.payload 0)).merged ++
        le 4 (lane s (u8 r.payload 0)).prbsLosses ++ le 2 margin ++ zeros 2) t) ∧
    t.lane = s.lane ∧
    (canReceive (u8 r.payload 0) = true → ((lane s (u8 r.payload 0)).rxMode ≠ 0 →
        ctle = (lane s (u8 r.payload 0)).ctle ∧ dfe = (lane s (u8 r.payload 0)).dfe) ∧
      ∀ v, (lane s (u8 r.payload 0)).rxMode = 0 → (lane s (u8 r.payload 0)).frozen = some v → ctle = v.1 ∧ dfe = v.2) ∧
    (canReceive (u8 r.payload 0) = false ∨ (lane s (u8 r.payload 0)).cdrLock = false → margin = 0))

/-- COMPLETION of the optics commands and events (R155 to R157). The model's choice: pages 10h and 11h, bank 0 and the disable
of all eight lanes come from outside the spec (log 67), an OPTICS_POLL or OPTICS_ACCESS without an answer stands for three
NACKs (log 14), a stuck bus leaves poll_failures and the layout alone (log 83), a laser enable in the midst of a burst asserts
TX_EN at once, and the CMIS disable byte is looked for at either device address (log 84). -/
def Obligations.OpticsCommandsComplete : Prop :=
  (∀ s r, Accepts opticsConfigSpec s r → exec .opticsConfig s = .next (answered r stOk []
    (settleTx (u8 r.payload 0) (writeDisable (u8 r.payload 0)
      (modOptics (u8 r.payload 0) (fun x => { x with
        laser := u8 r.payload 1 == 1
        speed := u8 r.payload 2
        layoutCfg := u8 r.payload 3
        pollMs := u16 r.payload 4 }) (takeUp r s)))))) ∧
  (∀ s n, layoutOf s n = 1 → writeDisable n s = emit (.opticsDisable n 0x51 110 0x40 !(optics s n).laser) s) ∧
  (∀ s n, layoutOf s n = 2 → writeDisable n s = emit (.opticsDisable n 0x50 130 0xFF !(optics s n).laser)
    (emit (.opticsSelect n 0 0x10) s)) ∧
  (∀ s r, Accepts opticsStatusSpec s r → ∃ p, exec .opticsStatus s = .next (answered r stOk p (takeUp r s)) ∧
    p.length = 20 ∧ u8 p 0 = (optics s (u8 r.payload 0)).layout % 256 ∧
    u8 p 1 = (optics s (u8 r.payload 0)).alarms % 256 ∧
    u32 p 12 = (s.time.cycles - (optics s (u8 r.payload 0)).readAt) / 625000 % 2 ^ 32 ∧
    u32 p 16 = (optics s (u8 r.payload 0)).failures.toNat) ∧
  (∀ s r bs, Accepts opticsAccessSpec s r → u8 r.payload 1 = 0 →
    (layoutOf s (u8 r.payload 0) = 2 ∨ zeroAt r.payload 3 2 = true) →
    exec (.opticsAccess (some bs)) s = .next (answered r stOk (fit (u8 r.payload 6) bs)
      (selectPage (u8 r.payload 0) (u8 r.payload 3) (u8 r.payload 4) (takeUp r s)))) ∧
  (∀ s r bs, Accepts opticsAccessSpec s r → u8 r.payload 1 = 1 → hitsDisable s r.payload = false →
    (layoutOf s (u8 r.payload 0) = 2 ∨ zeroAt r.payload 3 2 = true) →
    exec (.opticsAccess (some bs)) s = .next (answered r stOk [] (emit
      (.opticsWrite (u8 r.payload 0) (u8 r.payload 2) (u8 r.payload 3) (u8 r.payload 4) (u8 r.payload 5)
        (r.payload.drop 8)) (selectPage (u8 r.payload 0) (u8 r.payload 3) (u8 r.payload 4) (takeUp r s))))) ∧
  (∀ s r, Accepts opticsAccessSpec s r → u8 r.payload 1 = 0 →
    (layoutOf s (u8 r.payload 0) = 2 ∨ zeroAt r.payload 3 2 = true) →
    exec (.opticsAccess none) s = .next (answered r stTimeout [] (opticsFault (u8 r.payload 0) (causeOf r)
      (modOptics (u8 r.payload 0) (fun x => { x with nacks := x.nacks + 3 }) (takeUp r s))))) ∧
  (∀ s port v, lineRx.contains port = true → cpRuns s = true → v.alarms % 64 = (optics s port).alarms →
    exec (.opticsPoll port (some v)) s = .next (selectPage port 0 0x11 (writeDisable port (modOptics port (fun x => { x with
      layout := if x.layoutCfg = 0 then layoutOfIdent v.ident else x.layoutCfg
      alarms := v.alarms % 64
      temp := v.temp
      vcc := v.vcc
      bias := v.bias
      txPower := v.txPower
      rxPower := v.rxPower
      readAt := s.time.cycles
      nacks := 0
      faulted := false }) s)))) ∧
  (∀ s port, lineRx.contains port = true → cpRuns s = true →
    exec (.opticsPoll port none) s = .next (opticsFault port none (modOptics port (fun x => { x with
      layout := 0
      failures := x.failures + 1
      nacks := x.nacks + 3 }) s))) ∧
  (∀ s port, lineRx.contains port = true → cpRuns s = true →
    exec (.opticsBusStuck port) s = .next (opticsFault port none (emit (.opticsClocks port) s)))

/-- COMPLETION of the signals from outside the device and of the tap inputs' pulses (R141, R142, R146, R148, R152, R158, R159). The
model's choice (log 68): the errors that a near-end loopback of one pattern inserts are its only ones, and a checker counts in groups
of 1,024 bits from its lock on; where the polarities of its two lanes differ, all bits of a polynomial but those are in error. -/
def Obligations.LaneSignalsComplete : Prop :=
  (∀ s l v, isContinuous l = true → (lane s l).cdrLock ≠ v → s.ctl.devState ≠ .still →
    (lane s l).frozen = none → exec (.cdrLockChange l v) s = .next (raise 0x0301 l (le 1 l ++ le 1 (b2n v)) none (modLane l (fun x => { x with
      cdrLock := v
      cdrLosses := if v then x.cdrLosses else satAdd 32 x.cdrLosses 1 }) s))) ∧
  (∀ s l v, tapLanes.contains l = true → (lane s l).cdrLock ≠ v → s.ctl.devState ≠ .still →
    (lane s l).frozen = none → exec (.cdrLockChange l v) s = .next (modLane l (fun x => { x with
      cdrLock := v
      cdrLosses := if v then x.cdrLosses else satAdd 32 x.cdrLosses 1 }) s)) ∧
  (∀ s l good bad more, (lane s l).state = 2 → (lane s l).chk ≠ 0 → canReceive l = true →
    ((lane s l).loopback = 1 → samePattern (lane s (loopSource l)) (lane s l) = false) →
    exec (.prbsCheckerLock l good bad more) s = .next (checkRuns l ((good, bad) :: more) s)) ∧
  (∀ s l good bad more, (lane s l).state = 2 → (lane s l).chk ≠ 0 → canReceive l = true → (lane s l).loopback = 1 →
    (lane s (loopSource l)).gen = (lane s l).chk →
    ((lane s l).chk = 7 → (lane s l).user =
      if (lane s (loopSource l)).tx.invert = (lane s l).invertRx then (lane s (loopSource l)).user
      else ~~~(lane s (loopSource l)).user) → ∃ n, exec (.prbsCheckerLock l good bad more) s =
      .next (loopBits (decide ((lane s l).chk ≠ 7 ∧ (lane s (loopSource l)).tx.invert ≠ (lane s l).invertRx))
        (loopSource l) l (n + 1) n s) ∧ n = good + bad + (more.map fun r => r.1 + r.2).sum) ∧
  (∀ s l, (lane s l).chkLock = false → (lane (goodBits l (64 - (lane s l).chkRun) s) l).chkLock = true) ∧
  (∀ s l n, (lane s l).chkLock = false → (lane s l).chkRun + n < 64 → (lane (goodBits l n s) l).chkLock = false) ∧
  (∀ s l, (lane s l).chkLock = false → (lane (badBit l s) l).chkRun = 0 ∧ (lane (badBit l s) l).chkLock = false) ∧
  (∀ s l, (lane s l).chkLock = true → 256 ≤ (lane s l).chkErr → injIndex 0x07 l s = none →
    (lane (badBit l s) l).chkLock = false ∧
    (lane (badBit l s) l).prbsLosses = satAdd 32 (lane s l).prbsLosses 1 ∧
    (lane (badBit l s) l).prbsErrors = satAdd 48 (lane s l).prbsErrors 1 ∧
    (lane (badBit l s) l).prbsBits = satAdd 48 (lane s l).prbsBits 1) ∧
  (∀ s port, tapLanes.contains port = true → lineRx.contains port = false → sdActive s port = true →
    exec (.sdInputChange port !(linePort s port).sdBall) s =
      .next (sdTFalls port (modLinePort port (fun y => { y with sdBall := !(linePort s port).sdBall }) s))) ∧
  (∀ s port level, tapLanes.contains port = true → lineRx.contains port = false → sdActive s port = false →
    exec (.sdInputChange port level) s = .next (modLinePort port (fun y => { y with sdBall := level }) s)) ∧
  (∀ s port level, lineRx.contains port = true → s.ctl.devState ≠ .hush → s.ctl.devState ≠ .still →
    exec (.sdInputChange port level) s = .next (modLinePort port (fun y => { y with sdBall := level }) s)) ∧
  (∀ s port, tapRuns s port = true → sdActive s port = true → ∃ t, exec (.sdTDeassert port) s = .next t ∧
    (linePort t port).bmCount = (linePort s port).bmCount + 1 ∧
    (linePort t port).sdBall = (linePort s port).sdPol ∧ t = { s with lane := t.lane }) ∧
  (∀ s port, tapRuns s port = true → (linePort s port).bmCount ≠ 0 →
    exec (.bmRstPulseStart port) s = .next (modLinePort port (fun x => { x with
      bmRst := true
      bmCount := x.bmCount - 1 }) s)) ∧
  (∀ s port, (linePort s port).bmRst = true →
    exec (.bmRstPulseEnd port) s = .next (modLinePort port (fun x => { x with
      bmRst := false
      bmPol := x.heldBmPol.getD x.bmPol
      heldBmPol := none }) s))

/-- COMPLETION of the plane commands (R162 to R164, R187 to R189). The events that they
bring about carry the command's tag (R46). -/
def Obligations.PlaneCommandsComplete : Prop :=
  (∀ s r, Accepts planeConfigSpec s r → (plane s (u8 r.payload 0)).state = 0 →
    exec .planeConfig s = .next (answered r stOk [] (modPlane (u8 r.payload 0) (fun x => { x with
      cfgMode := u8 r.payload 1
      cfgErr := u8 r.payload 2
      cfgLoss := u8 r.payload 3
      cfgReasm := u8 r.payload 4 }) (takeUp r s)))) ∧
  (∀ s r, Accepts planeStartSpec s r → (plane s (u8 r.payload 0)).state = 0 →
    ¬(engineStatus s (engineCode (u8 r.payload 0) 0) = 4 ∧ engineStatus s (engineCode (u8 r.payload 0) 1) = 4) →
    inTest (planeLanes (u8 r.payload 0)) s = none →
    exec .planeStart s = .next (answered r stOk [] (judge (u8 r.payload 0) (causeOf r) (enterHunt (u8 r.payload 0)
      (startHunters (u8 r.payload 0) (bindEngines (u8 r.payload 0) (modPlane (u8 r.payload 0) (fun y => { y with
          mode := y.cfgMode
          psyncErr := y.cfgErr
          syncLoss := y.cfgLoss
          reasmFrames := y.cfgReasm
          ponValid := false
          reasm := []
          tapLf := [] })
        (startDetectors (plane s (u8 r.payload 0)).defCfg (16 * u8 r.payload 0 + 1)
          (startDetectors (plane s (u8 r.payload 0)).defCfg (16 * u8 r.payload 0)
            (toService (planeLanes (u8 r.payload 0)) (takeUp r s))))))))))) ∧
  (∀ s r, Accepts planeStopSpec s r → (plane s (u8 r.payload 0)).state ≠ 0 →
    exec .planeStop s = .next (answered r stOk [] (stopPlane (u8 r.payload 0) (causeOf r) (takeUp r s)))) ∧
  (∀ s r, Accepts planeStatusSpec s r → ∃ p, exec .planeStatus s = .next (answered r stOk p (takeUp r s)) ∧
    p.length = 32 ∧ u8 p 0 = (plane s (u8 r.payload 0)).state % 256 ∧
    u8 p 1 = (plane s (u8 r.payload 0)).mode % 256 ∧
    u64 p 8 = (plane s (u8 r.payload 0)).sfc % 2 ^ 64) ∧
  (∀ s r, Accepts planeCountersSpec s r → u8 r.payload 1 = 0 →
    exec .planeCounters s = .next (answered r stOk (le 1 (u8 r.payload 0) ++ zeros 7 ++
      (List.range 24).flatMap fun i => le 8 (tget 0 (plane s (u8 r.payload 0)).cnt (8 + 8 * i))) (takeUp r s))) ∧
  (∀ s r, Accepts planeCountersSpec s r → u8 r.payload 1 = 1 →
    exec .planeCounters s = .next (answered r stOk (le 1 (u8 r.payload 0) ++ zeros 7 ++
      (List.range 24).flatMap fun i => le 8 (tget 0 (plane s (u8 r.payload 0)).cnt (8 + 8 * i)))
      (modPlane (u8 r.payload 0) (fun x => { x with cnt := [] }) (takeUp r s)))) ∧
  (∀ s r, Accepts defectConfigSpec s r →
    exec .defectConfig s = .next (answered r stOk [] (modPlane (u8 r.payload 0) (fun x => { x with defCfg := {
      losSet := u16 r.payload 2
      losClear := u16 r.payload 4
      lolSet := u16 r.payload 6
      lolClear := u16 r.payload 8
      lofSet := u8 r.payload 10
      lofClear := u8 r.payload 11
      lofecSet := u32 r.payload 12
      lofecClear := u32 r.payload 16
      sdSet := u8 r.payload 20
      sdClear := u8 r.payload 21 } }) (takeUp r s))))

/-- COMPLETION of the hunters' events (R166 to R170), without an injection armed: a candidate opens, but not at a bit that
another one expects or has just been tested at (R168), is confirmed, is dropped, or becomes the lock; a frame in SYNC is accepted, allowed as a miss, or ends SYNC. The active engine's lock raises
EV_FRAME_LOCK and hands the frame on under its SFC, an allowed frame under the last SFC + 1; a standby engine works on its
frames silently (R15); a line switch that waited for the PSync of an earlier one starts when the active engine loses SYNC (R269). -/
def Obligations.HuntersComplete : Prop :=
  (∀ s k o, s.inj.entries = [] → isHunter k = true → (hunter s k).running = true → (hunter s k).sync = false →
    lineRuns (hunterPlane k) s = true → expects (hunter s k) o.at_ = false → (hunter s k).tested ≠ some o.at_ → o.errs ≤ (plane s (hunterPlane k)).psyncErr →
    o.sfcHec = true → (hunter s k).cands.length < 4 →
    exec (.psyncMatchHunt k o) s = .next (modHunter k (fun x => { x with
      cands := x.cands ++ [{ pos := o.at_, sfc := o.sfc }] }) s)) ∧
  (∀ s k o, s.inj.entries = [] → isHunter k = true → (hunter s k).running = true → (hunter s k).sync = false →
    lineRuns (hunterPlane k) s = true → expects (hunter s k) o.at_ = false → (hunter s k).tested ≠ some o.at_ → o.errs ≤ (plane s (hunterPlane k)).psyncErr →
    o.sfcHec = true → 4 ≤ (hunter s k).cands.length →
    exec (.psyncMatchHunt k o) s = .next (countHunter k 40 1 s)) ∧
  (∀ s k o, (hunter s k).tested = some o.at_ ∨ expects (hunter s k) o.at_ = true → exec (.psyncMatchHunt k o) s = .next s) ∧
  (∀ s k i o f c, s.inj.entries = [] → (lineInj s (hunterPort s k) o.at_).seen = false → isHunter k = true →
    (hunter s k).running = true → (hunter s k).sync = false → lineRuns (hunterPlane k) s = true →
    (hunter s k).cands[i]? = some c → o.at_ = c.pos + 19440000000 →
    o.errs ≤ (plane s (hunterPlane k)).psyncErr → o.sfcHec = true → o.sfc = (c.sfc + 1) % 2 ^ 51 → c.conf = 0 →
    ∃ t, exec (.candidatePositionReached k i o f) s = .next t ∧
      (hunter t k).cands = (hunter s k).cands.set i { pos := o.at_, sfc := o.sfc, conf := 1 } ∧
      (hunter t k).tested = some o.at_ ∧ (hunter t k).sync = false ∧ t.fr.planes = s.fr.planes) ∧
  (∀ s k i o f c, s.inj.entries = [] → (lineInj s (hunterPort s k) o.at_).seen = false → isHunter k = true →
    (hunter s k).running = true → (hunter s k).sync = false → lineRuns (hunterPlane k) s = true →
    (hunter s k).cands[i]? = some c → o.at_ = c.pos + 19440000000 →
    o.errs ≤ (plane s (hunterPlane k)).psyncErr → o.sfcHec = true → o.sfc = (c.sfc + 1) % 2 ^ 51 → c.conf ≠ 0 →
    k < 0x100 →
    ∃ t, exec (.candidatePositionReached k i o f) s = .next t ∧ (hunter t k).sync = true ∧
      (hunter t k).lastPos = o.at_ ∧ (hunter t k).sfc = o.sfc ∧ (hunter t k).misses = 0) ∧
  (∀ s k o f, s.inj.entries = [] → (lineInj s (hunterPort s k) o.at_).seen = false → isHunter k = true →
    (hunter s k).running = true → (hunter s k).sync = true → lineRuns (hunterPlane k) s = true →
    o.at_ = (hunter s k).lastPos + 19440000000 → o.errs ≤ (plane s (hunterPlane k)).psyncErr → o.sfcHec = true →
    o.sfc = ((hunter s k).sfc + 1) % 2 ^ 51 → k < 0x100 →
    ∃ t, exec (.syncPositionReached k o f) s = .next t ∧ (hunter t k).sync = true ∧
      (hunter t k).lastPos = o.at_ ∧ (hunter t k).sfc = o.sfc ∧ (hunter t k).misses = 0) ∧
  (∀ s k o f, s.inj.entries = [] → (lineInj s (hunterPort s k) o.at_).seen = false → isHunter k = true →
    (hunter s k).running = true → (hunter s k).sync = true → lineRuns (hunterPlane k) s = true →
    o.at_ = (hunter s k).lastPos + 19440000000 → (plane s (hunterPlane k)).psyncErr < o.errs → k < 0x100 →
    (plane s (hunterPlane k)).syncLoss ≤ (hunter s k).misses + 1 →
    ∃ t, exec (.syncPositionReached k o f) s = .next t ∧ (hunter t k).sync = false ∧ (hunter t k).cands = []) ∧
  (∀ s k i o f c, s.inj.entries = [] → (lineInj s (hunterPort s k) o.at_).seen = false → isHunter k = true →
    (hunter s k).running = true → (hunter s k).sync = false → lineRuns (hunterPlane k) s = true →
    (hunter s k).cands[i]? = some c → o.at_ = c.pos + 19440000000 → (plane s (hunterPlane k)).psyncErr < o.errs →
    ∃ t, exec (.candidatePositionReached k i o f) s = .next (countHunter k 32 1 (modHunter k (fun x => { x with
      cands := x.cands.eraseIdx i
      tested := some o.at_ }) t)) ∧ t.fr.hunters = s.fr.hunters ∧ t = { s with fr := t.fr } ∧ t.fr.planes = s.fr.planes) ∧
  (∀ s k i o f c, s.inj.entries = [] → (lineInj s (hunterPort s k) o.at_).seen = false → isHunter k = true →
    (hunter s k).running = true → (hunter s k).sync = false → lineRuns (hunterPlane k) s = true →
    (hunter s k).cands[i]? = some c → o.at_ = c.pos + 19440000000 → o.errs ≤ (plane s (hunterPlane k)).psyncErr →
    o.sfcHec = false → ∃ t, exec (.candidatePositionReached k i o f) s = .next (countHunter k 32 1 (modHunter k (fun x => { x with
      cands := x.cands.eraseIdx i
      tested := some o.at_ }) t)) ∧ t.fr.hunters = s.fr.hunters ∧ t = { s with fr := t.fr }) ∧
  (∀ s k i o f c, s.inj.entries = [] → (lineInj s (hunterPort s k) o.at_).seen = false → isHunter k = true →
    (hunter s k).running = true → (hunter s k).sync = false → lineRuns (hunterPlane k) s = true →
    (hunter s k).cands[i]? = some c → o.at_ = c.pos + 19440000000 → o.errs ≤ (plane s (hunterPlane k)).psyncErr →
    o.sfcHec = true → o.sfc ≠ (c.sfc + 1) % 2 ^ 51 →
    ∃ t, exec (.candidatePositionReached k i o f) s = .next (countHunter k 32 1 (modHunter k (fun x => { x with
      cands := x.cands.eraseIdx i
      tested := some o.at_ }) t)) ∧ t.fr.hunters = s.fr.hunters ∧ t = { s with fr := t.fr } ∧ t.fr.planes = s.fr.planes) ∧
  (∀ s k i o f c, s.inj.entries = [] → (lineInj s (hunterPort s k) o.at_).seen = false → isHunter k = true →
    (hunter s k).running = true → (hunter s k).sync = false → lineRuns (hunterPlane k) s = true →
    (hunter s k).cands[i]? = some c → o.at_ = c.pos + 19440000000 → o.errs ≤ (plane s (hunterPlane k)).psyncErr →
    o.sfcHec = true → o.sfc = (c.sfc + 1) % 2 ^ 51 → c.conf ≠ 0 →
    isActive s k = true → (plane s (hunterPlane k)).state ≠ 2 →
    ∃ t, exec (.candidatePositionReached k i o f) s = .next (acceptFrame (hunterPlane k) o o.sfc f (profileKnown (hunterPlane k)
        (reachTerms (hunterPlane k) 8 (fun st => st == 0x16) (raise 0x0401 (hunterPlane k) (le 1 (hunterPlane k) ++
          le 1 (k - 0x100) ++ le 1 1 ++ le 8 o.sfc) none (modPlane (hunterPlane k) (fun x => { x with
            state := 2
            sfc := o.sfc }) t))))) ∧
      (hunter t k).sync = true ∧ (hunter t k).cands = [] ∧
      (hunter t k).lastPos = o.at_ ∧ (hunter t k).sfc = o.sfc ∧ (hunter t k).misses = 0 ∧
      (hunter t k).syncCycles = s.time.cycles ∧ t = { s with fr := t.fr }) ∧
  (∀ s k i o f c, s.inj.entries = [] → (lineInj s (hunterPort s k) o.at_).seen = false → isHunter k = true →
    (hunter s k).running = true → (hunter s k).sync = false → lineRuns (hunterPlane k) s = true →
    (hunter s k).cands[i]? = some c → o.at_ = c.pos + 19440000000 → o.errs ≤ (plane s (hunterPlane k)).psyncErr →
    o.sfcHec = true → o.sfc = (c.sfc + 1) % 2 ^ 51 → c.conf ≠ 0 →
    isActive s k = false → 0x100 ≤ k →
    ∃ t, exec (.candidatePositionReached k i o f) s = .next (standbyFrame (k - 0x100) o t) ∧
      (hunter t k).sync = true ∧ (hunter t k).cands = [] ∧
      (hunter t k).lastPos = o.at_ ∧ (hunter t k).sfc = o.sfc ∧ (hunter t k).misses = 0 ∧
      t.fr.planes = s.fr.planes ∧ t = { s with fr := t.fr }) ∧
  (∀ s k o f, s.inj.entries = [] → (lineInj s (hunterPort s k) o.at_).seen = false → isHunter k = true →
    (hunter s k).running = true → (hunter s k).sync = true → lineRuns (hunterPlane k) s = true →
    o.at_ = (hunter s k).lastPos + 19440000000 → o.errs ≤ (plane s (hunterPlane k)).psyncErr → o.sfcHec = true →
    o.sfc = ((hunter s k).sfc + 1) % 2 ^ 51 → isActive s k = true → (plane s (hunterPlane k)).state = 2 →
    ∃ t, exec (.syncPositionReached k o f) s = .next (acceptFrame (hunterPlane k) o o.sfc f t) ∧
      (hunter t k).sync = true ∧ (hunter t k).cands = [] ∧
      (hunter t k).lastPos = o.at_ ∧ (hunter t k).sfc = o.sfc ∧ (hunter t k).misses = 0 ∧ t = { s with fr := t.fr }) ∧
  (∀ s k o f, s.inj.entries = [] → (lineInj s (hunterPort s k) o.at_).seen = false → isHunter k = true →
    (hunter s k).running = true → (hunter s k).sync = true → lineRuns (hunterPlane k) s = true →
    o.at_ = (hunter s k).lastPos + 19440000000 → o.errs ≤ (plane s (hunterPlane k)).psyncErr → o.sfcHec = true →
    o.sfc = ((hunter s k).sfc + 1) % 2 ^ 51 → isActive s k = false → 0x100 ≤ k →
    ∃ t, exec (.syncPositionReached k o f) s = .next (standbyFrame (k - 0x100) o t) ∧
      (hunter t k).sync = true ∧ (hunter t k).cands = [] ∧
      (hunter t k).lastPos = o.at_ ∧ (hunter t k).sfc = o.sfc ∧ (hunter t k).misses = 0 ∧
      t.fr.planes = s.fr.planes ∧ t = { s with fr := t.fr }) ∧
  (∀ s k o f, s.inj.entries = [] → (lineInj s (hunterPort s k) o.at_).seen = false → isHunter k = true →
    (hunter s k).running = true → (hunter s k).sync = true → lineRuns (hunterPlane k) s = true →
    o.at_ = (hunter s k).lastPos + 19440000000 → (plane s (hunterPlane k)).psyncErr < o.errs → o.sfcHec = true →
    o.sfc = ((hunter s k).sfc + 1) % 2 ^ 51 → isActive s k = true → (plane s (hunterPlane k)).state = 2 →
    (hunter s k).misses + 1 < (plane s (hunterPlane k)).syncLoss →
    ∃ t, exec (.syncPositionReached k o f) s = .next (acceptFrame (hunterPlane k) o (((hunter s k).sfc + 1) % 2 ^ 51) f t) ∧
      (hunter t k).sync = true ∧ (hunter t k).cands = [] ∧
      (hunter t k).lastPos = o.at_ ∧ (hunter t k).sfc = ((hunter s k).sfc + 1) % 2 ^ 51 ∧
      (hunter t k).misses = (hunter s k).misses + 1 ∧
      t.fr.planes = (countPlane (hunterPlane k) 176 1 s).fr.planes ∧ t = { s with fr := t.fr }) ∧
  (∀ s k o f, s.inj.entries = [] → (lineInj s (hunterPort s k) o.at_).seen = false → isHunter k = true →
    (hunter s k).running = true → (hunter s k).sync = true → lineRuns (hunterPlane k) s = true →
    o.at_ = (hunter s k).lastPos + 19440000000 → o.errs = 0 → o.sfcHec = false → isActive s k = true →
    (plane s (hunterPlane k)).state = 2 → (hunter s k).misses + 1 < (plane s (hunterPlane k)).syncLoss →
    ∃ t, exec (.syncPositionReached k o f) s = .next (acceptFrame (hunterPlane k) o (((hunter s k).sfc + 1) % 2 ^ 51) f t) ∧
      (hunter t k).sync = true ∧ (hunter t k).cands = [] ∧
      (hunter t k).lastPos = o.at_ ∧ (hunter t k).sfc = ((hunter s k).sfc + 1) % 2 ^ 51 ∧
      (hunter t k).misses = (hunter s k).misses + 1 ∧
      t.fr.planes = (countPlane (hunterPlane k) 48 1 s).fr.planes ∧ t = { s with fr := t.fr }) ∧
  (∀ s k o f, s.inj.entries = [] → (lineInj s (hunterPort s k) o.at_).seen = false → isHunter k = true →
    (hunter s k).running = true → (hunter s k).sync = true → lineRuns (hunterPlane k) s = true →
    o.at_ = (hunter s k).lastPos + 19440000000 → o.errs = 0 → o.sfcHec = true →
    o.sfc ≠ ((hunter s k).sfc + 1) % 2 ^ 51 → (hunter s k).jump = false → isActive s k = true →
    (plane s (hunterPlane k)).state = 2 → (hunter s k).misses + 1 < (plane s (hunterPlane k)).syncLoss →
    ∃ t, exec (.syncPositionReached k o f) s = .next (acceptFrame (hunterPlane k) o (((hunter s k).sfc + 1) % 2 ^ 51) f t) ∧
      (hunter t k).sync = true ∧ (hunter t k).cands = [] ∧
      (hunter t k).lastPos = o.at_ ∧ (hunter t k).sfc = ((hunter s k).sfc + 1) % 2 ^ 51 ∧
      (hunter t k).misses = (hunter s k).misses + 1 ∧
      t.fr.planes = (countPlane (hunterPlane k) 184 1 s).fr.planes ∧ t = { s with fr := t.fr }) ∧
  (∀ s k o f, s.inj.entries = [] → (lineInj s (hunterPort s k) o.at_).seen = false → isHunter k = true →
    (hunter s k).running = true → (hunter s k).sync = true → lineRuns (hunterPlane k) s = true →
    o.at_ = (hunter s k).lastPos + 19440000000 → (plane s (hunterPlane k)).psyncErr < o.errs → k < 0x100 →
    (hunter s k).misses + 1 < (plane s (hunterPlane k)).syncLoss →
    ∃ t, exec (.syncPositionReached k o f) s = .next t ∧ (hunter t k).sync = true ∧ (hunter t k).cands = [] ∧
      (hunter t k).lastPos = o.at_ ∧ (hunter t k).sfc = ((hunter s k).sfc + 1) % 2 ^ 51 ∧
      (hunter t k).misses = (hunter s k).misses + 1) ∧
  (∀ s k o f, s.inj.entries = [] → (lineInj s (hunterPort s k) o.at_).seen = false → isHunter k = true →
    (hunter s k).running = true → (hunter s k).sync = true → lineRuns (hunterPlane k) s = true →
    o.at_ = (hunter s k).lastPos + 19440000000 → (plane s (hunterPlane k)).psyncErr < o.errs → o.sfcHec = true →
    o.sfc = ((hunter s k).sfc + 1) % 2 ^ 51 → isActive s k = true →
    (plane s (hunterPlane k)).syncLoss ≤ (hunter s k).misses + 1 →
    ∃ t, exec (.syncPositionReached k o f) s =
        .next (switchNow (hunterPlane k) (loseSync (hunterPlane k) t)) ∧ (hunter t k).sync = false ∧
      (hunter t k).cands = [] ∧ t.fr.planes = (countPlane (hunterPlane k) 176 1 s).fr.planes ∧ t = { s with fr := t.fr })

/-- COMPLETION of the events inside an accepted frame (R176, R178 to R182), and of a tap burst (R137, R142, R147, R279), without
an injection armed. The model's choice: what a burst's record holds of it, and how many samples a bit has (log 66), which
ONU-IDs of a plane are its own (log 69), and that a clear frame leaves the run of lost keys as it is (log 84). -/
def Obligations.FrameContentsComplete : Prop :=
  (∀ s p m, p ≤ 1 → (plane s p).state = 2 → (plane s p).fsOk = true → lineRuns p s = true → m.onu = none →
    exec (.ploamMessageRx p m) s = .next (broadcastMessage p m (countPlane p 120 1 (countPlane p 112 1 s)))) ∧
  (∀ s p m n, p ≤ 1 → (plane s p).state = 2 → (plane s p).fsOk = true → lineRuns p s = true → m.onu = some n →
    ownOnu s p n = true →
    exec (.ploamMessageRx p m) s = .next (toViews p m (countPlane p 120 1 (countPlane p 112 1 s)))) ∧
  (∀ s p m n, p ≤ 1 → (plane s p).state = 2 → (plane s p).fsOk = true → lineRuns p s = true → m.onu = some n →
    ownOnu s p n = false →
    exec (.ploamMessageRx p m) s = .next (countPlane p 112 1 s)) ∧
  (∀ s p x, s.inj.entries = [] → p ≤ 1 → (plane s p).state = 2 → (plane s p).fsOk = true →
    (plane s p).badXgem = false → lineRuns p s = true → x.kind = 2 →
    exec (.xgemFrameDelineated p x) s = .next (modPlane p (fun y => { y with badXgem := true })
      (countPlane p 144 1 s))) ∧
  (∀ s p x, s.inj.entries = [] → p ≤ 1 → (plane s p).state = 2 → (plane s p).fsOk = true →
    (plane s p).badXgem = false → lineRuns p s = true → x.kind = 1 → x.fixed = false →
    exec (.xgemFrameDelineated p x) s = .next (countPlane p 152 1 s)) ∧
  (∀ s p x, s.inj.entries = [] → p ≤ 1 → (plane s p).state = 2 → (plane s p).fsOk = true →
    (plane s p).badXgem = false → lineRuns p s = true → x.kind ≠ 1 → x.kind ≠ 2 → x.fixed = false →
    exec (.xgemFrameDelineated p x) s = .next (downFrame p x (keySeen p x (countPlane p 128 1 s)))) ∧
  (∀ s p port c, tfind (plane s p).reasm port = some c → (plane s p).reasmFrames ≤ c.age → c.overLong = false →
    lineRuns p s = true →
    exec (.reasmTimeout p port) s = .next (dropContext p port (countPlane p 160 1 s))) ∧
  (∀ s p b, p ≤ 1 → (plane s p).state = 2 → lineRuns p s = true → (lane s (16 * p + 2)).cdrLock = true →
    (∀ i, b.grant = some i → i < (plane s p).expects.length) →
    ∃ t w k, exec (.tapBurst p b) s = .next (burstWaits (2 + p) w t) ∧
      (b.fsHec = false → w.ids = [] ∧ w.data = (decimate k
        (if (lane s (16 * p + 2)).invertRx then b.head.map fun x => ~~~x else b.head)).take 256) ∧
      (b.fsHec = true → w.data = (decimate k
        (if (lane s (16 * p + 2)).invertRx then b.overhead.map fun x => ~~~x else b.overhead)).take 16368) ∧
      (∀ i g, b.grant = some i → (plane s p).expects[i]? = some g → k = sampleRatio p g.rate)) ∧
  (∀ s p b, (lane s (16 * p + 2)).cdrLock = false → exec (.tapBurst p b) s = .next s)

/-- COMPLETION of the defect events of a receive port (R183 to R187); while a higher defect changes in the same cycle a lower
one is suppressed. The model's choice (log 65): the bridge of R117 begins at the declaration itself, and the source is judged
(R113) after it. -/
def Obligations.DefectEventsComplete : Prop :=
  (∀ s port, detectorsRun s port = true → (defPort s port).declared % 2 = 0 → sdSeen s port = false → ∃ t,
    exec (.losDeclare port) s = .next (judge (port / 16) none (defectQual port 0 (bridgeSwitch port
      (defectEvent port 0 true (defPort s port).declared none t)))) ∧ (defPort t port).declared = 1) ∧
  (∀ s port, detectorsRun s port = true → bit (defPort s port).declared 0 = true → sdSeen s port = true → ∃ t,
    exec (.losClear port) s = .next (judge (port / 16) none (defectEvent port 0 false 0 none t)) ∧
    (defPort t port).declared = 0) ∧
  (∀ s port, detectorsRun s port = true → (defPort s port).declared % 4 = 0 → sdSeen s port = true →
    (lane s port).cdrLock = false → ∃ t,
    exec (.lolDeclare { port, higher := false }) s = .next (judge (port / 16) none (defectQual port 1 (bridgeSwitch port
      (defectEvent port 1 true (defPort s port).declared none t)))) ∧ (defPort t port).declared = 2) ∧
  (∀ s port, detectorsRun s port = true → bit (defPort s port).declared 1 = true → (lane s port).cdrLock = true → ∃ t,
    exec (.lolClear { port, higher := false }) s = .next (judge (port / 16) none (defectEvent port 1 false 0 none t)) ∧
    (defPort t port).declared = 0) ∧
  (∀ s port, detectorsRun s port = true → (defPort s port).declared % 8 = 0 → (hunter s port).sync = false → ∃ t,
    exec (.lofDeclare { port, higher := false }) s = .next (judge (port / 16) none (defectQual port 2 (bridgeSwitch port
      (defectEvent port 2 true (defPort s port).declared none t)))) ∧ (defPort t port).declared = 4) ∧
  (∀ s port, detectorsRun s port = true → bit (defPort s port).declared 2 = true → (hunter s port).sync = true → ∃ t,
    exec (.lofClear { port, higher := false }) s = .next (judge (port / 16) none (defectEvent port 2 false 0 none t)) ∧
    (defPort t port).declared = 0) ∧
  (∀ s port, detectorsRun s port = true → (defPort s port).declared % 8 = 0 → (defPort s port).skipLofec = false →
    (defPort s port).declared / 8 % 2 = 0 → (defPort s port).winCw ≠ 0 →
    (defPort s port).wLofecSet * (defPort s port).winCw ≤ (defPort s port).winUnc * 1000000 →
    (defPort s port).lofecRun = 2 →
    ∃ t, exec (.lofecWindowEnd { port, higher := false }) s = .next (declareDefect port 3 t) ∧ (defPort t port).lofecRun = 3 ∧
      (defPort t port).winCw = 0 ∧ (defPort t port).winUnc = 0) ∧
  (∀ s port, s.inj.entries = [] → detectorsRun s port = true → (defPort s port).declared = 0 →
    (defPort s port).skipSd = false → (defPort s port).sdInj = 0 → (defPort s port).sdCw ≠ 0 →
    (defPort s port).sdCw * codewordBits (port / 16) ≤ (defPort s port).sdBits * 10 ^ (defPort s port).wSdSet →
    ∃ t, exec (.sdWindowEnd { port, higher := false }) s = .next (declareDefect port 4 t) ∧ (defPort t port).sdCw = 0 ∧
      (defPort t port).sdBits = 0) ∧
  (∀ s port, exec (.lolDeclare { port, higher := true }) s = .next s ∧ exec (.lolClear { port, higher := true }) s = .next s ∧
    exec (.lofDeclare { port, higher := true }) s = .next s ∧ exec (.lofClear { port, higher := true }) s = .next s) ∧
  (∀ s port, detectorsRun s port = true → exec (.lofecWindowEnd { port, higher := true }) s = .next (nextLofec port s) ∧
    exec (.sdWindowEnd { port, higher := true }) s = .next (nextSd port s))

/-- COMPLETION of the commands that make, change and remove a terminal (R194 to R199, R203, R206, R216, R221). The model's choice:
disabling and deleting empty the four allocation queues (log 46) and judge the grants that the terminal has yet to see again
(logs 43 and 69); a terminal that is enabled answers those that it then sees in O2-3, in an order and with a page that the
spec does not give (log 84). -/
def Obligations.TerminalCommandsComplete : Prop :=
  (∀ s r, Accepts termCreateSpec s r → findTerm s (termOf r) = none →
    (bit (u8 r.payload 2) 3 = true ∨ serialTaken s (termOf r) (slice r.payload 4 8) = false) →
    exec .termCreate s = .next (answered r stOk []
      (enterState (termOf r) (if bit (u8 r.payload 2) 0 then 0x11 else 0x01) 1 true none (causeOf r)
        (touch (planeOf (termOf r)) (termOf r % 1024) { takeUp r s with
          tm := { s.tm with terms := tset s.tm.terms (termOf r) (newTerm r) } })))) ∧
  (∀ s r t, Accepts termDeleteSpec s r → findTerm s (termOf r) = some t → mayChange r t.client = true →
    ∃ u v, exec .termDelete s = .next (answered r stOk [] u) ∧ findTerm u (termOf r) = none ∧
      u = touch (planeOf (termOf r)) (termOf r % 1024) { v with tm := { v.tm with terms := tdel v.tm.terms (termOf r) } } ∧
      v = modPlane (planeOf (termOf r)) (fun x => { x with
          bulks := x.bulks.map fun b => { b with waiting := tdel b.waiting (termOf r) }
          opened := x.opened.map fun g => { g with unseen := g.unseen.filter fun u => u.f != termOf r } })
        (enterState (termOf r) 0x00 1 true none (causeOf r)
          (emptyQueues (termOf r) (judgeAhead (termOf r) (takeUp r s))))) ∧
  (∀ s r t, Accepts termEnableSpec s r → findTerm s (termOf r) = some t → mayChange r t.client = true →
    u8 r.payload 2 = 1 → t.state = 0x01 →
    exec .termEnable s = .next (answered r stOk []
      (lateAnswers (planeOf (termOf r)) (enterState (termOf r) 0x11 1 true none (causeOf r) (takeUp r s))))) ∧
  (∀ s r t, Accepts termEnableSpec s r → findTerm s (termOf r) = some t → mayChange r t.client = true →
    u8 r.payload 2 = 0 → enabledState t.state = true →
    exec .termEnable s = .next (answered r stOk []
      (enterState (termOf r) 0x01 1 true none (causeOf r)
        (emptyQueues (termOf r) (judgeAhead (termOf r) (takeUp r s)))))) ∧
  (∀ s r t, Accepts termDistanceSpec s r → findTerm s (termOf r) = some t → mayChange r t.client = true →
    t.pendDist = none → sfcRefused s (planeOf (termOf r)) (u8 r.payload 2) (u64 r.payload 16) = false →
    t.state ≠ 0x01 → t.state ≠ 0x11 → t.state ≠ 0x17 →
    exec .termDistance s = .next (answered r stOk [] (modTerm (termOf r) (fun x => { x with pendDist := some {
      dist := u32 r.payload 4
      resp := if u16 r.payload 8 = 0 then t.resp else u16 r.payload 8
      sched := schedOf r (planeOf (termOf r)) (u8 r.payload 2) (u64 r.payload 16) s } }) (takeUp r s)))) ∧
  (∀ s r t, Accepts termDistanceSpec s r → findTerm s (termOf r) = some t → mayChange r t.client = true →
    t.pendDist = none → sfcRefused s (planeOf (termOf r)) (u8 r.payload 2) (u64 r.payload 16) = false →
    (t.state = 0x01 ∨ t.state = 0x11 ∨ t.state = 0x17) →
    exec .termDistance s = .next (answered r stOk [] (raise 0x0508 (termId (termOf r))
      (le 4 t.dist ++ le 4 (u32 r.payload 4) ++ le 8 (2 ^ 64 - 1)) (causeOf r)
      (modTerm (termOf r) (fun x => { x with
          dist := u32 r.payload 4
          resp := if u16 r.payload 8 = 0 then t.resp else u16 r.payload 8
          pendDist := none })
        (modUnseen (termOf r) (fun u => { u with
            dist := u32 r.payload 4
            resp := if u16 r.payload 8 = 0 then t.resp else u16 r.payload 8 })
          (modTerm (termOf r) (fun x => { x with pendDist := some {
            dist := u32 r.payload 4
            resp := if u16 r.payload 8 = 0 then t.resp else u16 r.payload 8
            sched := schedOf r (planeOf (termOf r)) (u8 r.payload 2) (u64 r.payload 16) s } }) (takeUp r s))))))) ∧
  (∀ s r t, Accepts termDistanceSpec s r → findTerm s (termOf r) = some t → mayChange r t.client = true →
    t.pendDist.isSome = true → exec .termDistance s = .next (answered r stBusy [] (takeUp r s))) ∧
  (∀ s r t, Accepts termDistanceSpec s r → findTerm s (termOf r) = some t → mayChange r t.client = true →
    t.pendDist = none → u8 r.payload 2 = 1 →
    (u64 r.payload 16 = (plane s (planeOf (termOf r))).sfc ∨
      80000 < (u64 r.payload 16 + 2 ^ 51 - (plane s (planeOf (termOf r))).sfc) % 2 ^ 51) →
    exec .termDistance s = .next (answered r stBadParam [] (takeUp r s))) ∧
  (∀ s r t, Accepts termConfigSpec s r → findTerm s (termOf r) = some t → mayChange r t.client = true →
    (t.state = 0x01 ∨ t.state = 0x11) →
    exec .termConfig s = .next (answered r stOk [] (modTerm (termOf r) (fun x => { x with
      manual := u8 r.payload 2 == 1
      copy := u8 r.payload 3 == 1
      fixedKey := u8 r.payload 4 == 1 }) (takeUp r s)))) ∧
  (∀ s r t, Accepts termConfigSpec s r → findTerm s (termOf r) = some t → mayChange r t.client = true →
    u8 r.payload 2 = b2n t.manual → u8 r.payload 4 = b2n t.fixedKey →
    exec .termConfig s = .next (answered r stOk [] (modTerm (termOf r) (fun x => { x with
      manual := u8 r.payload 2 == 1
      copy := u8 r.payload 3 == 1
      fixedKey := u8 r.payload 4 == 1 }) (takeUp r s)))) ∧
  (∀ s r t, Accepts termMskSpec s r → findTerm s (termOf r) = some t → mayChange r t.client = true →
    u8 r.payload 2 = 0 →
    exec .termMsk s = .next (answered r stOk [] (modTerm (termOf r) (fun x => { x with msk := none }) (takeUp r s)))) ∧
  (∀ s r t kek, Accepts termMskSpec s r → findTerm s (termOf r) = some t → mayChange r t.client = true →
    u8 r.payload 2 = 1 → s.cip.kek = some kek →
    exec .termMsk s = .next (match Config.aesUnwrap (kekBytes kek) (slice r.payload 4 24) with
      | none => answered r stBadParam [] (takeUp r s)
      | some raw => answered r stOk [] (modTerm (termOf r) (fun x => { x with
          msk := some (BitVec.ofNat 128 (beNat (fit 16 raw))) }) (takeUp r s)))) ∧
  (∀ s r t, Accepts termPortSpec s r → findTerm s (termOf r) = some t → mayChange r t.client = true →
    (bit (u8 r.payload 3) 0 = false ∨ portTaken s (termOf r) (u8 r.payload 2) (u16 r.payload 4) = false) →
    t.state ≠ 0x15 →
    exec .termPortSet s = .next (answered r stOk [] (modTerm (termOf r) (fun x => { x with
      ctxs := tset x.ctxs (u8 r.payload 2) {
        valid := bit (u8 r.payload 3) 0
        down := bit (u8 r.payload 3) 1
        up := bit (u8 r.payload 3) 2
        enc := bit (u8 r.payload 3) 3
        portId := u16 r.payload 4 }
      pendCtxs := tdel x.pendCtxs (u8 r.payload 2) }) (takeUp r s)))) ∧
  (∀ s r t, Accepts termPortSpec s r → findTerm s (termOf r) = some t → mayChange r t.client = true →
    (bit (u8 r.payload 3) 0 = false ∨ portTaken s (termOf r) (u8 r.payload 2) (u16 r.payload 4) = false) →
    t.state = 0x15 →
    exec .termPortSet s = .next (answered r stOk [] (modTerm (termOf r) (fun x => { x with
      pendCtxs := tset x.pendCtxs (u8 r.payload 2) {
        valid := bit (u8 r.payload 3) 0
        down := bit (u8 r.payload 3) 1
        up := bit (u8 r.payload 3) 2
        enc := bit (u8 r.payload 3) 3
        portId := u16 r.payload 4 } }) (takeUp r s)))) ∧
  (∀ s r t, Accepts misbehaveSpec s r → findTerm s (termOf r) = some t → mayChange r t.client = true →
    exec .termMisbehave s = .next (answered r stOk [] (modTerm (termOf r) (fun x => { x with
      pendMisb := x.pendMisb ++ [(u8 r.payload 2, {
        mode := u8 r.payload 3
        p0 := u32 r.payload 4
        p1 := u32 r.payload 8
        count := u32 r.payload 12 })] }) (takeUp r s)))) ∧
  (∀ s r, Accepts termPlaneSpec s r →
    exec .termPlaneConfig s = .next (answered r stOk [] (modPlane (u8 r.payload 0) (fun x => { x with
      lokN := u8 r.payload 1
      to1 := u16 r.payload 2
      to2 := u16 r.payload 4
      snMax := u16 r.payload 6 }) (takeUp r s))))

/-- COMPLETION of the commands that read a terminal and that send for it (R210 to R212, R218 to R220, R222). The model's choice (log
84): a wildcard OMCI_RECV that finds no SDU reads terminal_id 0xFFFF. -/
def Obligations.TerminalTrafficCompletes : Prop :=
  (∀ s r t, Accepts termStatusSpec s r → findTerm s (termOf r) = some t → u8 r.payload 2 = 0 →
    exec .termStatus s = .next (answered r stOk (termStatusBytes s (termOf r) t) (takeUp r s))) ∧
  (∀ s r t, Accepts termStatusSpec s r → findTerm s (termOf r) = some t → u8 r.payload 2 = 1 →
    exec .termStatus s = .next (answered r stOk (termStatusBytes s (termOf r) t)
      (modTermLocal (termOf r) (fun x => { x with cnt := [] }) (takeUp r s)))) ∧
  (∀ s r t, Accepts ploamSendSpec s r → findTerm s (termOf r) = some t → mayChange r t.client = true →
    (t.state = 0x12 ∨ t.state = 0x14 ∨ t.state = 0x15) → t.ploamUp.length < 8 →
    exec .termPloamSend s = .next (answered r stOk [] (queueUp (termOf r)
      (.host (slice r.payload 4 48) (if u8 r.payload 2 = 1 then some t.msk else none)) (takeUp r s)))) ∧
  (∀ s r t, Accepts ploamRecvSpec s r → u8 r.payload 2 = 0 → findTerm s (termOf r) = some t →
    exec .termPloamRecv s = .next (answered r stOk (ploamRecvBytes t.hostQ (u8 r.payload 3))
      (modTermLocal (termOf r) (fun x => { x with hostQ := x.hostQ.drop (u8 r.payload 3) }) (takeUp r s)))) ∧
  (∀ s r, Accepts ploamRecvSpec s r → u8 r.payload 2 = 1 →
    exec .termPloamRecv s = .next (answered r stOk
      (ploamRecvBytes (plane s (u16 r.payload 0 / 0x8000)).bcast (u8 r.payload 3))
      (modPlane (u16 r.payload 0 / 0x8000) (fun x => { x with bcast := x.bcast.drop (u8 r.payload 3) })
        (takeUp r s)))) ∧
  (∀ s r t, Accepts omciSendSpec s r → findTerm s (termOf r) = some t → mayChange r t.client = true →
    t.state = 0x15 → u16 r.payload 4 = 0 → t.omciQ.length < 16 →
    exec .omciSend s = .next (answered r stOk []
      (omciGrow (termOf r) (u16 r.payload 2) (r.payload.drop 8) (takeUp r s)))) ∧
  (∀ s r t, Accepts omciSendSpec s r → findTerm s (termOf r) = some t → mayChange r t.client = true →
    t.state = 0x15 → u16 r.payload 4 ≠ 0 → t.omciTotal = u16 r.payload 2 → t.omciPart.length = u16 r.payload 4 →
    exec .omciSend s = .next (answered r stOk []
      (omciGrow (termOf r) (u16 r.payload 2) (t.omciPart ++ r.payload.drop 8) (takeUp r s)))) ∧
  (∀ s r t o rest, Accepts omciRecvSpec s r → u16 r.payload 0 ≠ 0xFFFF → findTerm s (termOf r) = some t →
    omciOf s (termOf r) = o :: rest → o.bad = none → u16 r.payload 2 < o.data.length →
    exec .omciRecv s = .next (answered r stOk
      (le 2 (termId (termOf r)) ++ le 2 o.data.length ++ le 2 (u16 r.payload 2) ++
        le 1 (min 208 (o.data.length - u16 r.payload 2)) ++
        le 1 (b2n (!rest.isEmpty) + 2 * b2n o.fecUnc + 4 * b2n (decide (o.data.length ≤ u16 r.payload 2 + 208))) ++
        le 8 o.time.toNat ++ slice o.data (u16 r.payload 2) (min 208 (o.data.length - u16 r.payload 2)))
      (if o.data.length ≤ u16 r.payload 2 + 208
        then modPlane (planeOf (termOf r)) (fun x => { x with omciRx := x.omciRx.erase o }) (takeUp r s)
        else takeUp r s))) ∧
  (∀ s r, Accepts omciRecvSpec s r → u16 r.payload 0 = 0xFFFF → omciFirst s = none →
    exec .omciRecv s = .next (answered r stOk (le 2 0xFFFF ++ zeros 2 ++ le 2 (u16 r.payload 2) ++ zeros 10)
      (takeUp r s)))

/-- COMPLETION of the terminals' own events (R200, R203 to R205, R210, R213, R215, R217). The model's choice: the grants that a
terminal has yet to see are judged again as it acts, a burst that it may then not send is withdrawn, and a key index in view
is the oldest (logs 43 and 69); a grant that it comes to answer unforeseen is answered then (logs 43 and 84). -/
def Obligations.TerminalEventsComplete : Prop :=
  (∀ s f t v rest, findTerm s f = some t → t.view = v :: rest → lineRuns (planeOf f) s = true →
    exec (.termViewPloam f) s = .next (lateAnswers (planeOf f) (passAhead f
      (viewMessage f v.msg t (modTermLocal f (fun x => { x with view := rest }) s))))) ∧
  (∀ s f t n b, findTerm s f = some t → lineRuns (planeOf f) s = true → bulkOf s f [7] = some (n, b) →
    exec (.termViewLods f true) s = .next (lateAnswers (planeOf f) (bulkStep f n b t.state s))) ∧
  (∀ s f t n b, findTerm s f = some t → lineRuns (planeOf f) s = true → bulkOf s f [8, 2] = some (n, b) →
    bulkOf s f [7] = none → exec (.termViewLods f false) s = .next (lateAnswers (planeOf f) (bulkStep f n b t.state s))) ∧
  (∀ s f t k rest, findTerm s f = some t → t.keyView = k :: rest → lineRuns (planeOf f) s = true →
    lineKeyValid s f k = false →
    exec (.termViewKeyIndex f k) s = .next (lostKey f t (modTermLocal f (fun x => { x with keyView := rest }) s))) ∧
  (∀ s f t k rest, findTerm s f = some t → t.keyView = k :: rest → lineRuns (planeOf f) s = true →
    lineKeyValid s f k = true → t.lok = false → k ≠ t.keyUp → misbItem t 7 = none →
    exec (.termViewKeyIndex f k) s = .next (modTerm f (fun x => { x with keyNext := some k })
      (modTermLocal f (fun x => { x with lokRun := 0, lok := false })
        (modTermLocal f (fun x => { x with keyView := rest }) s)))) ∧
  (∀ s f t, findTerm s f = some t → t.timer = 1 → t.state = 0x14 → lineRuns (planeOf f) s = true →
    exec (.to1Expiry f) s =
      .next (lateAnswers (planeOf f) (enterState f 0x12 9 true none none (judgeAhead f s)))) ∧
  (∀ s f t, findTerm s f = some t → t.timer = 2 → t.state = 0x16 → lineRuns (planeOf f) s = true → bulkOf s f [10] = none →
    exec (.to2Expiry f) s =
      .next (lateAnswers (planeOf f) (enterState f 0x11 10 true none none (judgeAhead f s)))) ∧
  (∀ s f t n b, findTerm s f = some t → t.timer = 2 → t.state = 0x16 → lineRuns (planeOf f) s = true →
    bulkOf s f [10] = some (n, b) → (plane s (planeOf f)).state = 1 →
    exec (.to2Expiry f) s = .next (actedBulk f n (some (0x16, 0x11))
      (enterState f 0x11 10 false none none (judgeAhead f s)))) ∧
  (∀ s f t m, findTerm s f = some t → t.ploamDelayed = [m] →
    exec (.ploamDelayExpiry f) s = .next (enterUp f m.body
      (modTerm f (fun x => { x with ploamDelayed := x.ploamDelayed.erase m }) s))) ∧
  (∀ s p b, (plane s p).bulks = [b] → b.waiting = [] →
    exec (.evTermsBulk p) s = .next (bulkEvents p b.cause b.pairs b.ev
      (modPlane p (fun x => { x with bulks := x.bulks.filter fun y => !y.waiting.isEmpty }) s)))

/-- COMPLETION of the commands of the allocation block (R237, R240 to R250). The model's choice (log 71): AMAP_SWAP is refused
with ST_DENIED where a page entry that it changes belongs to another client's terminal, before ST_BUSY is looked at; whose a
descriptor is is judged by the write that waits (log 85). -/
def Obligations.AllocationCommandsComplete : Prop :=
  (∀ s r, Accepts poolReserveSpec s r → (s.up.poolSegs = 0 ∨ mayChange r s.up.poolClient = true) →
    loadRuns s = false → (List.range (u64 r.payload 0 / segBytes)).any (poolDenied s) = false → descsLive s = 0 →
    exec .poolReserve s = .next (answered r stOk []
      (reservePool r.client (u64 r.payload 0 / segBytes) (takeUp r s)))) ∧
  (∀ s r, Accepts descSetSpec s r → (descLast s (u16 r.payload 0)).kind = 0 →
    (u8 r.payload 2 ≠ 1 ∨ u64 r.payload 4 + u32 r.payload 12 ≤ s.up.poolSegs * segBytes) →
    descNamed s (u16 r.payload 0) = false →
    exec .patternDescSet s = .next (answered r stOk [] (touchDescs [0, 1] [u16 r.payload 0] { takeUp r s with up := { s.up with
      descs := tset s.up.descs (u16 r.payload 0) (newDesc r.client r.payload)
      pendDescs := tdel s.up.pendDescs (u16 r.payload 0) } }))) ∧
  (∀ s r, Accepts descSetSpec s r → (descLast s (u16 r.payload 0)).kind = 0 →
    (u8 r.payload 2 ≠ 1 ∨ u64 r.payload 4 + u32 r.payload 12 ≤ s.up.poolSegs * segBytes) →
    descNamed s (u16 r.payload 0) = true →
    exec .patternDescSet s = .next (answered r stOk [] { takeUp r s with up := { s.up with
      pendDescs := tset s.up.pendDescs (u16 r.payload 0) (newDesc r.client r.payload) } })) ∧
  (∀ s r, Accepts amapWriteSpec s r → r.client = 0 → amapBusy s (u8 r.payload 0) = false → u8 r.payload 1 = 1 →
    exec .amapWrite s = .next (answered r stOk [] (touch (u8 r.payload 0) planeRecord
      (modPlane (u8 r.payload 0) (fun x => { x with
        standby := amapWritten r.payload (plane s (u8 r.payload 0)).standby }) (takeUp r s))))) ∧
  (∀ s r, Accepts amapSwapSpec s r → (swapChanges (plane s (u8 r.payload 0))).all (mayTraffic r s) = true →
    amapBusy s (u8 r.payload 0) = false → (plane s (u8 r.payload 0)).state = 2 →
    u8 r.payload 1 = 0 →
    exec .amapSwap s = .next (answered r stOk [] (modPlane (u8 r.payload 0) (fun y => { y with
      swap := some (schedOf r (u8 r.payload 0) 0 (u64 r.payload 8) s) }) (takeUp r s)))) ∧
  (∀ s r, Accepts amapSwapSpec s r → (swapChanges (plane s (u8 r.payload 0))).all (mayTraffic r s) = true →
    amapBusy s (u8 r.payload 0) = false → (plane s (u8 r.payload 0)).state ≠ 2 →
    u8 r.payload 1 = 0 →
    exec .amapSwap s = .next (answered r stOk [] (touch (u8 r.payload 0) planeRecord (swapPages (u8 r.payload 0) 0
      (schedOf r (u8 r.payload 0) 0 (u64 r.payload 8) s) (takeUp r s))))) ∧
  (∀ s r, Accepts amapSwapSpec s r → (swapChanges (plane s (u8 r.payload 0))).all (mayTraffic r s) = false →
    exec .amapSwap s = .next (answered r stDenied [] (takeUp r s))) ∧
  (∀ s p x, p ≤ 1 → cpRuns s = true → (plane s p).copying = some x →
    exec (.amapCopyDone p) s = .next (raise 0x0601 p (le 8 x.sfc) x.cause (touch p planeRecord
      (modPlane p (fun y => { y with standby := y.active, copying := none }) s)))) ∧
  (∀ s r, Accepts shaperSpec s r → mayTraffic r s (u16 r.payload 0 / 4) = true →
    exec .shaperSet s = .next (answered r stOk [] (touch (u16 r.payload 0 / 4096) planeRecord
      (modQueue (u16 r.payload 0) (fun x => if u8 r.payload 2 = 2
        then { x with held := some {
          rate := u32 r.payload 4
          burst := u32 r.payload 8
          overhead := u8 r.payload 12
          cap := u32 r.payload 16 } }
        else { x with
          shaper := {
            rate := u32 r.payload 4
            burst := u32 r.payload 8
            overhead := u8 r.payload 12
            cap := u32 r.payload 16 }
          held := none
          tokens := if u8 r.payload 2 = 0 then u32 r.payload 8 * 64 else 0 }) (takeUp r s))))) ∧
  (∀ s r t, Accepts burstConfigSpec s r → findTerm s (termOf r) = some t → mayChange r t.client = true →
    exec .burstConfig s = .next (answered r stOk [] (modTerm (termOf r) (fun x => { x with
      pendFrag := some (u8 r.payload 2 == 1) }) (takeUp r s)))) ∧
  (∀ s r, Accepts spoutStatusSpec s r → exec .spoutStatus s = .next (answered r stOk
    (le 1 (u8 r.payload 0) ++ zeros 7 ++
      (List.range 13).flatMap fun i => le 8 (tget 0 (plane s (u8 r.payload 0)).spout (8 + 8 * i)))
    (if u8 r.payload 1 = 1 then modPlane (u8 r.payload 0) (fun x => { x with spout := [] }) (takeUp r s)
      else takeUp r s))) ∧
  (∀ s r, Accepts queueStatusSpec s r → exec .queueStatus s = .next (answered r stOk
    (queueStatusBytes s (u16 r.payload 0))
    (if u8 r.payload 2 = 1 then modQueue (u16 r.payload 0) (fun x => { x with cnt := [] }) (takeUp r s)
      else takeUp r s)))

/-- COMPLETION of the bandwidth map and of a burst (R143, R175, R224, R225, R255), without an injection armed. The model's choice:
a structure marked last ends the map, whose bursts are placed then (log 42), and a grant is resolved when its structure is
accepted, by what the terminal will have acted on by then (logs 43 and 69); the 2,048 structures of a map are all that pass
their HEC, and what terminals come to answer unforeseen is placed before the next structure (log 84). -/
def Obligations.GrantsAndBurstsComplete : Prop :=
  (∀ s p a, s.inj.entries = [] → p ≤ 1 → (plane s p).state = 2 → (plane s p).fsOk = true → lineRuns p s = true →
    a.hec = false → a.last = false →
    exec (.bwmapStructure p a) s = .next (noChain p (countPlane p 104 1 (nextStructure p s)))) ∧
  (∀ s p a, s.inj.entries = [] → p ≤ 1 → (plane s p).state = 2 → (plane s p).fsOk = true → lineRuns p s = true →
    (plane s p).mode = 0 → (plane s p).structs < 2048 → a.hec = true → a.last = false →
    exec (.bwmapStructure p a) s = .next (resolveGrant p a (expectTap p a
      (modPlane p (fun y => { y with structs := y.structs + 1 }) (countPlane p 96 1 (nextStructure p s)))))) ∧
  (∀ s p a, s.inj.entries = [] → p ≤ 1 → (plane s p).state = 2 → (plane s p).fsOk = true → lineRuns p s = true →
    (plane s p).mode = 0 → (plane s p).structs < 2048 → a.hec = true → a.last = true →
    exec (.bwmapStructure p a) s = .next (placeMap p (resolveGrant p a (expectTap p a
      (modPlane p (fun y => { y with structs := y.structs + 1 }) (countPlane p 96 1 (nextStructure p s))))))) ∧
  (∀ s p b, p ≤ 1 → (plane s p).state = 2 → lineRuns p s = true → nextBurst s p = some b →
    mayBurst s b = true →
    ∃ t c, exec (.burstStart p) s = .next (keyBurst p (activePort s p) c (countSpout p 48 1 t)) ∧
      c.f = b.f ∧ c.start = b.start ∧ c.stop = b.stop ∧ c.onuId = b.onuId) ∧
  (∀ s p b, p ≤ 1 → (plane s p).state = 2 → lineRuns p s = true → nextBurst s p = some b → mayBurst s b = false →
    exec (.burstStart p) s =
      .next (touch p planeRecord (modPlane p (fun y => { y with sched := y.sched.erase b }) s)))

/-- COMPLETION of the Rill, engine and protection events (R254, R256 to R261, R267), without an injection armed. The model's
choice: the end of a full copy empties the queue of update messages, and so does the start of one (log 48), and a return after
the wait to restore has reason 8 (log 85). -/
def Obligations.ProtectionEventsComplete : Prop :=
  (∀ s p m rest, s.inj.entries = [] → (prot s p).rillQ = m :: rest → rillCarries s p = true →
    exec (.rillMessage p true) s = .next (modProt p (fun x => applyMsg m { x with rillQ := rest })
      (recordWritten (standbyCode s p) m.record (modProt p (fun x => { x with keepFails := 0 }) s)))) ∧
  (∀ s p m rest, s.inj.entries = [] → (prot s p).rillQ = m :: rest → rillCarries s p = true →
    exec (.rillMessage p false) s = .next (rillFailed p (modProt p (fun x => { x with keepFails := 0 }) s))) ∧
  (∀ s p m rest, (prot s p).rillQ = m :: rest → m.fails < 3 →
    rillFailed p s = modProt p (fun x => { x with
      rillCrc := x.rillCrc + 1
      rillQ := { m with fails := m.fails + 1 } :: rest }) s) ∧
  (∀ s p, s.inj.entries = [] → (prot s p).rillQ = [] → rillCarries s p = true →
    exec (.rillKeepalive { plane := p, crcOk := true }) s = .next (modProt p (fun x => { x with keepFails := 0 }) s)) ∧
  (∀ s p, s.inj.entries = [] → (prot s p).rillQ = [] → rillCarries s p = true →
    exec (.rillKeepalive { plane := p, crcOk := false }) s = .next (rillFailed p s)) ∧
  (∀ s p, (prot s p).rillQ = [] → (prot s p).keepFails < 3 →
    rillFailed p s = modProt p (fun x => { x with rillCrc := x.rillCrc + 1, keepFails := x.keepFails + 1 }) s) ∧
  (∀ s p, (prot s p).rillQ = [] → 3 ≤ (prot s p).keepFails →
    rillFailed p s = rillDown p (modProt p (fun x => { x with rillCrc := x.rillCrc + 1, keepFails := x.keepFails + 1 }) s)) ∧
  (∀ s p, p ≤ 1 → (prot s p).rillUp = true → (plane s p).state ≠ 0 → lineRuns p s = true →
    exec (.rillTimeout p) s = .next (rillDown p s)) ∧
  (∀ s p v, p ≤ 1 → (prot s p).rillUp = false → lineRuns p s = true →
    exec (.rillRetrain p v) s = .next (modProt p (fun x => { x with rillHeld := v }) s)) ∧
  (∀ s p, p ≤ 1 → (prot s p).rillUp = false → (prot s p).rillHeld = true → lineRuns p s = true →
    engineStatus s (standbyCode s p) ≠ 3 →
    exec (.rillUp p) s = .next (modProt p (fun x => { x with rillUp := true, rillHeld := false, keepFails := 0 }) s)) ∧
  (∀ s p, p ≤ 1 → (prot s p).rillUp = false → (prot s p).rillHeld = true → lineRuns p s = true →
    engineStatus s (standbyCode s p) = 3 →
    exec (.rillUp p) s = .next (setMirror p 2 none (modProt p (fun x => { x with keepFails := 0, rillQ := [] })
      (modProt p (fun x => { x with rillUp := true, rillHeld := false, keepFails := 0 }) s)))) ∧
  (∀ s p, rillCarries s p = true → engineStatus s (standbyCode s p) = 2 →
    exec (.fullCopyDone p) s = .next (setMirror p 1 none (modProt p (fun x => { x with
      keepFails := 0
      applied := (s.tm.terms.filter fun e => e.1 / 1024 == p).foldl
        (fun t e => tset t (e.1 % 1024) (tget 0 x.gens (e.1 % 1024)))
        (tset x.gens planeRecord (tget 0 x.gens planeRecord))
      rillQ := []
      mirTerms := (s.tm.terms.filter fun e => e.1 / 1024 == p).map fun e => (e.1 % 1024, termRec s e.1 e.2)
      mirPlane := planeRec s p }) (recordWritten (standbyCode s p) planeRecord s)))) ∧
  (∀ s e, isEngine e = true → (plane s (e / 16)).state ≠ 0 → (hunter s (engineKey e)).sync = true →
    lineRuns (e / 16) s = true → exec (.engineWatchdog e) s = .next (engineFault false e 1 s)) ∧
  (∀ s e, isEngine e = true → e = standbyCode s (e / 16) → (plane s (e / 16)).state = 2 → lineRuns (e / 16) s = true →
    (hunter s (engineKey e)).sync = false →
    exec (.mirrorCheckFail e 0) s = .next (engineFault false e 3 s)) ∧
  (∀ s p, p ≤ 1 → periodRuns s p = true → lineRuns p s = true →
    exec (.swapPeriodExpiry p) s = .next (modProt p (fun x => { x with swap := some 0, swapTries := 0 }) s)) ∧
  (∀ s p origin, (prot s p).swap = some origin → p ≤ 1 → (plane s p).state = 2 → (prot s p).swapTries < 9 →
    lineRuns p s = true → swapReady s p = true →
    exec (.roleSwap p) s = .next (swapRoles p origin s)) ∧
  (∀ s p origin, (prot s p).swap = some origin → p ≤ 1 → 9 ≤ (prot s p).swapTries → lineRuns p s = true →
    exec (.swapAbandon p) s = .next (afterAction p (abandonSwap p none s))) ∧
  (∀ s p, p ≤ 1 → (plane s p).state ≠ 0 → (prot s p).holdRunning = true → (wantedPort s p).2.2 = 2 →
    lineRuns p s = true → ∃ t, t = runSwitch p none (modProt p (fun x => { x with holdRunning := false }) s) ∧
    exec (.holdOffExpiry p) s = .next (if (prot t p).switchDue ≠ 0 then t else judge p none t)) ∧
  (∀ s p, p ≤ 1 → (plane s p).state ≠ 0 → (prot s p).wtrRunning = true → (wantedPort s p).2.2 = 3 →
    lineRuns p s = true → ∃ t, t = runSwitch p none (modProt p (fun x => { x with wtrRunning := false }) s) ∧
    exec (.protWtrExpiry p) s = .next (if (prot t p).switchDue ≠ 0 then t else judge p none t))

/-- COMPLETION of the commands of the protection block (R270 to R276, R252, R253). The model's choice (log 48): PROT_CONFIG of a
stopped plane leaves its active port as it stands, and PROT_ENGINE_RESTORE empties the queue of update messages. -/
def Obligations.ProtectionCommandsComplete : Prop :=
  (∀ s r, Accepts protConfigSpec s r →
    (u8 r.payload 1 = (prot s (u8 r.payload 0)).working ∨ (plane s (u8 r.payload 0)).state = 0) →
    exec .protConfig s = .next (answered r stOk [] (judge (u8 r.payload 0) (causeOf r)
      (restartPeriod (u8 r.payload 0) (modProt (u8 r.payload 0) (fun x => { x with
        working := u8 r.payload 1
        mask := u8 r.payload 2
        revertive := u8 r.payload 3 == 1
        holdOff := u16 r.payload 4
        wtr := u16 r.payload 6
        period := u32 r.payload 8 }) (takeUp r s)))))) ∧
  (∀ s r, Accepts protSwapSpec s r → (prot s (u8 r.payload 0)).swap = none →
    (prot s (u8 r.payload 0)).lineBusy = false → (prot s (u8 r.payload 0)).switchDue = 0 →
    (plane s (u8 r.payload 0)).state = 2 → engineStatus s (standbyCode s (u8 r.payload 0)) = 1 →
    exec .protSwap s = .next (executing r (modProt (u8 r.payload 0) (fun y => { y with
      swap := some 1
      swapTries := 0 }) (takeUp r s)))) ∧
  (∀ s r, Accepts protLineSpec s r → (plane s (u8 r.payload 0)).state ≠ 0 →
    manualRefused s (u8 r.payload 0) (u8 r.payload 1) = false →
    exec .protLine s = .next (answered r stOk [] (judge (u8 r.payload 0) (causeOf r)
      (modProt (u8 r.payload 0) (fun x => { x with request := u8 r.payload 1 }) (takeUp r s))))) ∧
  (∀ s r, Accepts protStatusSpec s r →
    exec .protStatus s = .next (answered r stOk (protStatusBytes s (u8 r.payload 0)) (takeUp r s))) ∧
  (∀ s r, Accepts takeoverListSpec s r →
    exec .protTakeoverList s = .next (answered r stOk (le 1 (u8 r.payload 0) ++ zeros 3 ++
      le 128 (maskOf 1024 fun i => (prot s (u8 r.payload 0)).takeList.contains i)) (takeUp r s))) ∧
  (∀ s r, Accepts restoreSpec s r → engineStatus s (u8 r.payload 0) = 4 →
    ((plane s (u8 r.payload 0 / 16)).state = 0 ∨ (prot s (u8 r.payload 0 / 16)).rillUp = true) →
    exec (.protEngineRestore true) s = .next (answered r stOk [] (copyAnew (u8 r.payload 0 / 16)
      (modHunter (engineKey (u8 r.payload 0)) (fun _ => {
          running := (plane s (u8 r.payload 0 / 16)).state != 0 })
        (setEngine (u8 r.payload 0) 2 (clearState (u8 r.payload 0) (takeUp r s))))))) ∧
  (∀ s r, Accepts restoreSpec s r → engineStatus s (u8 r.payload 0) = 4 →
    (plane s (u8 r.payload 0 / 16)).state ≠ 0 → (prot s (u8 r.payload 0 / 16)).rillUp = false →
    exec (.protEngineRestore true) s = .next (answered r stOk [] (setMirror (u8 r.payload 0 / 16) 3 (causeOf r)
      (copyAnew (u8 r.payload 0 / 16)
        (modHunter (engineKey (u8 r.payload 0)) (fun _ => { running := true })
          (setEngine (u8 r.payload 0) 2 (clearState (u8 r.payload 0) (takeUp r s)))))))) ∧
  (∀ s p, copyAnew p s = modProt p (fun x => { x with applied := [], mirTerms := [] })
    (modProt p (fun x => { x with keepFails := 0, rillQ := [] }) s))

/-- COMPLETION of the classifier's events (R289, R298, R301, R307), without an injection armed. The model's choice: an item waits
for its second pass from PASS 0 to PASS 1, so expired_waits counts what expires between the two (log 72), and a bad FIFO line
met by a plaintext of the second pass takes the parse-failure action (log 75). -/
def Obligations.ClassifierEventsComplete : Prop :=
  (∀ s n i, s.inj.entries = [] → itemIn s n 0 = some i → basinsRun s = true → i.lineBad = none →
    exec (.clsPass0 n) s = .next (passZero i false s)) ∧
  (∀ s n i, itemIn s n 1 = some i → basinsRun s = true → exec (.clsPass1 n) s = .next
    (match (writeLine 0x2000 s).1 with
      | some inj => badFifo i inj (writeLine 0x2000 s).2
      | none => decryptedPass i (writeLine 0x2000 s).2)) ∧
  (∀ s n i, (s.cls.items.find? fun x => x.id == n) = some i → basinsRun s = true →
    i.pass ≠ 1 →
    exec (.clsExpiry n) s = .next (drainAll i.source i.portId (countCls i.source 112 1 (dropItem n s)))) ∧
  (∀ s n i, (s.cls.items.find? fun x => x.id == n) = some i → basinsRun s = true → i.pass = 1 →
    ∃ t, exec (.clsExpiry n) s = .next (drainAll i.source i.portId t) ∧
      t.cip.expired = (s.cip.expired + 1) % 2 ^ 48 ∧
      tget 0 t.cls.cnt (i.source * 256 + 112) = (tget 0 s.cls.cnt (i.source * 256 + 112) + 1) % 2 ^ 48 ∧
      t.cls.items = s.cls.items.filter (fun y => y.id != n)) ∧
  (∀ s vs v old, s.cls.versions = vs ++ [v, old] → inVersion s old.num = 0 → ∃ t,
    exec .versionRetired s = .next (raise 0x0801 v.num (le 4 old.num ++ le 4 v.rules ++ le 8 v.time.toNat) v.cause t) ∧
    t.cls.versions = (vs ++ [v]).map (fun x => if x.num = v.num then { x with done := true } else x) ∧
    t = { s with cls := { s.cls with versions := t.cls.versions } })

/-- COMPLETION of the classifier's commands (R299 to R303, R310 to R317). The model's choice: the entries changed of RULE_COMMIT are
rule entries alone (log 72), and an error at the write of an entry's master is kept as a bad master of the draft, which a
discard forgets (logs 39 and 56). -/
def Obligations.ClassifierCommandsComplete : Prop :=
  (∀ s r, Accepts ruleSpec s r → mayDraft r s = true →
    (∀ x, tfind s.cls.draft.rules (u16 r.payload 0) = some x → mayChange r x.client = true) →
    (dirtyRules s).length < 8192 →
    ∃ l, l = writeLine 0 (takeUp r s) ∧
    exec .ruleWrite s = .next (answered r stOk [] (draftChange r (u16 r.payload 0)
      (fun t => { t with rules := tset t.rules (u16 r.payload 0) (ruleOf r) }) (modCls (fun c => { c with
        badMasters := (c.badMasters.filter fun e => e.1 != u16 r.payload 0) ++
          (l.1.map fun inj => (u16 r.payload 0, inj)).toList }) l.2)))) ∧
  (∀ s r, Accepts profileSpec s r → mayDraft r s = true →
    exec .profileWrite s = .next (answered r stOk [] (draftChange r (0x10000 + u8 r.payload 0)
      (fun t => { t with profiles := tset t.profiles (u8 r.payload 0) (extractorsOf r.payload) }) (takeUp r s)))) ∧
  (∀ s r, Accepts clsSourceSpec s r → mayDraft r s = true →
    exec .clsSourceWrite s = .next (answered r stOk [] (draftChange r (0x10100 + u8 r.payload 0)
      (fun t => { t with sources := tset t.sources (u8 r.payload 0) {
        profile := u8 r.payload 1
        fcs := u8 r.payload 2 == 1
        noMatch := actionOf r.payload 8
        parseFail := actionOf r.payload 24 } }) (takeUp r s)))) ∧
  (∀ s r, Accepts commitSpec s r → mayDraft r s = true → u8 r.payload 0 = 1 → s.cls.dirty ≠ [] →
    s.cls.versions.length < 4 → (dirtyRules s).length ≤ shadowFree s →
    exec .ruleCommit s = .next (answered r stOk (commitBytes (dirtyRules s).length (commitPoint r (takeUp r s)))
      (commitPoint r (takeUp r s)))) ∧
  (∀ s r, Accepts commitSpec s r → mayDraft r s = true → u8 r.payload 0 = 0 →
    exec .ruleCommit s = .next (answered r stOk (commitBytes 0 s) { takeUp r s with
      cls := { s.cls with draft := (newest s).tables, owner := none, dirty := [], badMasters := [] } })) ∧
  (∀ s r, Accepts ruleStatusSpec s r → neverCommitted s (u32 r.payload 0) = false →
    exec .ruleStatus s = .next (answered r
      (if (liveVersion s (u32 r.payload 0)).isSome && olderLive s (u32 r.payload 0) then stVersionPending else stOk)
      (le 4 (u32 r.payload 0) ++ le 1 (versionState s (u32 r.payload 0)) ++ le 1 s.cls.versions.length ++ zeros 2 ++
        le 4 (newest s).num ++ le 4 (inVersion s (u32 r.payload 0)) ++ le 4 (shadowFree s)) (takeUp r s))) ∧
  (∀ s r, Accepts ruleReadSpec s r → u8 r.payload 2 = 0 →
    exec .ruleRead s = .next (answered r stOk (ruleBytes (u16 r.payload 0) 0xFFFFFFFF s.cls.draft s) (takeUp r s))) ∧
  (∀ s r, Accepts ruleReadSpec s r → u8 r.payload 2 = 1 →
    exec .ruleRead s = .next (answered r stOk (ruleBytes (u16 r.payload 0) (newest s).num (newest s).tables s)
      (takeUp r s))) ∧
  (∀ s r v, Accepts ruleReadSpec s r → u8 r.payload 2 = 2 → neverCommitted s (u32 r.payload 4) = false →
    liveVersion s (u32 r.payload 4) = some v →
    exec .ruleRead s = .next (answered r stOk (ruleBytes (u16 r.payload 0) v.num v.tables s) (takeUp r s))) ∧
  (∀ s r, Accepts clsCountersSpec s r → exec .clsCounters s = .next (answered r stOk
    (le 1 (u8 r.payload 0) ++ zeros 7 ++
      (List.range 18).flatMap fun i => le 8 (tget 0 s.cls.cnt (u8 r.payload 0 * 256 + 8 + 8 * i)))
    (if u8 r.payload 1 = 1
      then modCls (fun c => { c with cnt := c.cnt.filter fun e => e.1 / 256 != u8 r.payload 0 }) (takeUp r s)
      else takeUp r s))) ∧
  (∀ s r, Accepts cpRecvSpec s r → tget [] s.cls.copies (u8 r.payload 0) = [] →
    exec .clsCpRecv s = .next (answered r stOk
      (le 1 (u8 r.payload 0) ++ zeros 3 ++ le 2 (u16 r.payload 2) ++ zeros 18) (takeUp r s))) ∧
  (∀ s r c rest, Accepts cpRecvSpec s r → tget [] s.cls.copies (u8 r.payload 0) = c :: rest →
    c.bad = none → u16 r.payload 2 < c.data.length → c.data.length ≤ u16 r.payload 2 + 208 →
    exec .clsCpRecv s = .next (answered r stOk
      (le 1 (u8 r.payload 0) ++ le 1 (b2n (rest != []) + 2) ++ le 2 c.data.length ++ le 2 (u16 r.payload 2) ++
        le 1 (c.data.length - u16 r.payload 2) ++ zeros 1 ++ le 8 c.time.toNat ++ le 2 c.rule ++ zeros 6 ++
        c.data.drop (u16 r.payload 2))
      (modCls (fun x => { x with copies := tset x.copies (u8 r.payload 0) rest }) (takeUp r s))))

/-- COMPLETION of the capture commands (R340, R350 to R355). The model's choice: a capture whose buffer holds no segment enters
RUNNING and then DONE with cause 7 (log 36). The model's choice (log 73): CAP_START makes the exports of an earlier capture of
the Basin stale, and leaves the 1 s limit of EV_CAP_GAP running. -/
def Obligations.CaptureCommandsComplete : Prop :=
  (∀ s r g, Accepts capConfigSpec s r → mayCapture r (basin s (u8 r.payload 0)) = true →
    ((basin s (u8 r.payload 0)).state = 0 ∨ (basin s (u8 r.payload 0)).state = 1 ∨
      (basin s (u8 r.payload 0)).state = 5) →
    lowestFree (modBasin (u8 r.payload 0) (fun y => { y with buffer := [], segs := [] }) s) (u32 r.payload 4) = some g →
    ∃ t, exec .capConfig s = .next (answered r stOk [] (setCapState (u8 r.payload 0) 1 0 (causeOf r)
        (releaseSegments (basin s (u8 r.payload 0)).buffer t))) ∧
      (basin t (u8 r.payload 0)).buffer = g ∧ (basin t (u8 r.payload 0)).cfg = capCfgOf r.payload ∧
      (basin t (u8 r.payload 0)).client = r.client) ∧
  (∀ s r, Accepts capStartSpec s r → mayCapture r (basin s (u8 r.payload 0)) = true →
    ((basin s (u8 r.payload 0)).state = 1 ∨ (basin s (u8 r.payload 0)).state = 5) →
    (s.ctl.devState = .hush → (basin s (u8 r.payload 0)).cfg.mode = 1) →
    ((basin s (u8 r.payload 0)).cfg.encrypt = true →
      (slot s (basin s (u8 r.payload 0)).cfg.keySlot).state ≠ 0 ∧
      (slot s (basin s (u8 r.payload 0)).cfg.keySlot).state ≠ 2) →
    ((basin s (u8 r.payload 0)).cfg.trigMode = 0 ∨
      ((basin s (u8 r.payload 0)).cfg.trigMode = 2 ∧ (basin s (u8 r.payload 0)).cfg.startMask = 0)) → ∃ t, t = outdate (u8 r.payload 0) (basin s (u8 r.payload 0))
      (modBasin (u8 r.payload 0) freshBasin (takeUp r s)) ∧
    exec .capStart s = .next (answered r stOk [] (beginCapture (u8 r.payload 0) (nowStamp t) (causeOf r) t))) ∧
  (∀ s b t c, (basin s b).buffer ≠ [] → ∃ u, u = setCapState b 3 0 c s ∧
    beginCapture b t c s = putNote b (markDraft t 3 0xFF 0xFFFF 0 0) (putNote b (epochDraft 3 u) u)) ∧
  (∀ s b t c, (basin s b).buffer = [] → beginCapture b t c s = setCapState b 5 7 c (setCapState b 3 0 c s)) ∧
  (∀ s r, Accepts capStartSpec s r → mayCapture r (basin s (u8 r.payload 0)) = true →
    ((basin s (u8 r.payload 0)).state = 1 ∨ (basin s (u8 r.payload 0)).state = 5) →
    (s.ctl.devState = .hush → (basin s (u8 r.payload 0)).cfg.mode = 1) →
    ((basin s (u8 r.payload 0)).cfg.encrypt = true →
      (slot s (basin s (u8 r.payload 0)).cfg.keySlot).state ≠ 0 ∧
      (slot s (basin s (u8 r.payload 0)).cfg.keySlot).state ≠ 2) →
    ((basin s (u8 r.payload 0)).cfg.trigMode = 1 ∨
      ((basin s (u8 r.payload 0)).cfg.trigMode = 2 ∧ (basin s (u8 r.payload 0)).cfg.startMask ≠ 0)) → ∃ t, t = outdate (u8 r.payload 0) (basin s (u8 r.payload 0))
      (modBasin (u8 r.payload 0) freshBasin (takeUp r s)) ∧
    exec .capStart s = .next (answered r stOk [] (setCapState (u8 r.payload 0) 2 0 (causeOf r) t))) ∧
  (∀ s r, Accepts capStartSpec s r → mayCapture r (basin s (u8 r.payload 0)) = true →
    ((basin s (u8 r.payload 0)).state = 1 ∨ (basin s (u8 r.payload 0)).state = 5) →
    (s.ctl.devState = .hush → (basin s (u8 r.payload 0)).cfg.mode = 1) →
    (basin s (u8 r.payload 0)).cfg.encrypt = true → (slot s (basin s (u8 r.payload 0)).cfg.keySlot).state = 2 →
    exec .capStart s = .next (answered r stKeyExhausted [] (takeUp r s))) ∧
  (∀ s r, Accepts capStopSpec s r → mayCapture r (basin s (u8 r.payload 0)) = true →
    ((basin s (u8 r.payload 0)).state = 2 ∨ (basin s (u8 r.payload 0)).state = 3 ∨
      (basin s (u8 r.payload 0)).state = 4) →
    exec .capStop s = .next (answered r stOk [] (stopCapture (u8 r.payload 0) 1 (causeOf r) (takeUp r s)))) ∧
  (∀ s r, Accepts capTriggerSpec s r →
    exec .capTrigger s = .next (answered r stOk [] (shareTrigger (u8 r.payload 0) (u32 r.payload 4) (nowStamp s)
      (causeOf r) (fireTrigger (u8 r.payload 0) 1 0xFFFF (u32 r.payload 4) 0 none (nowStamp s) (causeOf r)
        (takeUp r s))))) ∧
  (∀ s r, Accepts capReleaseSpec s r → mayCapture r (basin s (u8 r.payload 0)) = true →
    capInUse s (u8 r.payload 0) = false →
    ((basin s (u8 r.payload 0)).state = 1 ∨ (basin s (u8 r.payload 0)).state = 5) →
    exec .capRelease s = .next (answered r stOk [] (releaseSegments (basin s (u8 r.payload 0)).buffer
      (setCapState (u8 r.payload 0) 0 0 (causeOf r)
        (modBasin (u8 r.payload 0) (fun y => { y with buffer := [], segs := [] }) (takeUp r s)))))) ∧
  (∀ s r, Accepts capStatusSpec s r → exec .capStatus s = .next (answered r stOk
    (capStatusBytes (u8 r.payload 0) (basin s (u8 r.payload 0))) (takeUp r s))) ∧
  (∀ s r, Accepts capSegmentsSpec s r → ∃ gs, gs = ((basin s (u8 r.payload 0)).segs.filter
      fun g => decide (u32 r.payload 4 ≤ g.ord)).take 28 ∧
    exec .capSegments s = .next (answered r stOk (le 1 (u8 r.payload 0) ++ zeros 3 ++ le 4 gs.length ++
      gs.flatMap fun g => le 4 g.ord ++ le 4 g.seg) (takeUp r s))) ∧
  (∀ s r, Accepts windowSpec s r → u32 r.payload 4 = 0xFFFFFFFF →
    exec .capWindowMap s = .next (answered r stOk [] { takeUp r s with
      cap := { s.cap with windows := tdel s.cap.windows (u8 r.payload 0) } })) ∧
  (∀ s r, Accepts windowSpec s r → u32 r.payload 4 < segCount s → u32 r.payload 4 ≠ 0xFFFFFFFF →
    exec .capWindowMap s = .next (answered r stOk [] { takeUp r s with
      cap := { s.cap with windows := tset s.cap.windows (u8 r.payload 0) (u32 r.payload 4) } }))

/-- COMPLETION of the Basins' and the Weirs' events (R320, R330, R331, R336, R337), without an injection armed. The model's choice
(log 73): under on_full stop a GAP record that leaves no room for the records of the stop ends the capture. A frame of a later
tap burst than the first whose record is to come waits, due (R328; in line order by log 84). -/
def Obligations.CaptureEventsComplete : Prop :=
  (∀ s b n i d ret, staged s b n = some i → i.decided = some d → recording (basin s b) = true → basinsRun s = true →
    waitsBurst s b n = false →
    exec (.basinDecision b n ret) s = .next (settleAll (putRec b) b
      (storeItem (putRec b) b d.rule d.cmode d.headN false d.trig ret i (unstage b n s)))) ∧
  (∀ s t b n i ret, basinsRun s = true → t = passDeadline b n s → staged t b n = some i → i.decided = none →
    recording (basin t b) = true → waitsBurst t b n = false →
    exec (.stagingTimeout b n ret) s = .next (settleAll (putRec b) b
      (storeItem (putRec b) b 0xFFFE 0 0 true false ret i (unstage b n t)))) ∧
  (∀ s b n i ret, staged s b n = some i → i.decided.isSome = true → recording (basin s b) = true → basinsRun s = true →
    waitsBurst s b n = true →
    exec (.basinDecision b n ret) s = .next (modBasin b (fun x => { x with staging := x.staging.map fun k =>
      if k.id = n then { k with due := some (k.due.getD ret) } else k }) s)) ∧
  (∀ s t b n i ret, basinsRun s = true → t = passDeadline b n s → staged t b n = some i → i.decided = none →
    recording (basin t b) = true → waitsBurst t b n = true →
    exec (.stagingTimeout b n ret) s = .next (modBasin b (fun x => { x with staging := x.staging.map fun k =>
      if k.id = n then { k with due := some (k.due.getD ret) } else k }) t)) ∧
  (∀ s b, recording (basin s b) = true → basinsRun s = true →
    exec (.foldWindowExpiry b) s = .next (closeRun (putRec b) b s)) ∧
  (∀ s b, recording (basin s b) = true → basinsRun s = true →
    exec (.epochSecond b) s = .next (putNote b (epochDraft 0 s) s)) ∧
  (∀ s b, recording (basin s b) = true → basinsRun s = true → lastRoom s b 0 = false → exec (.gapWrite b) s =
    .next (settleBasin b (writeGap b s))) ∧
  (∀ s b, recording (basin s b) = true → basinsRun s = true → lastRoom s b 0 = true → (basin s b).state = 3 →
    exec (.gapWrite b) s = .next (stopFull b none s)) ∧
  (∀ s w, weirBusy (weir s w) = true → basinsRun s = true →
    exec (.weirNoReturn w) s = .next (fenceWeirOf false w 2 s)) ∧
  (∀ s w, s.inj.entries = [] → basinsRun s = true → s.pwr.gated = false → (weir s w).fenced = false →
    exec (.weirSelfCheck w false) s = .next (fenceWeirOf false w 1 s)) ∧
  (∀ s w, s.inj.entries = [] → basinsRun s = true → s.pwr.gated = false → (weir s w).fenced = false →
    exec (.weirSelfCheck w true) s = .next s)

/-- COMPLETION of the exports (R343 to R348, R351, R353). The model's choice: an export takes the lowest free export_id (log 80),
export e uses DMA channel e of complex e mod 2 (log 32), an export whose unsent records are all lost skips to its end, one that a new
capture of its Basin leaves behind skips to that capture's first record, or ends under follow 0, and RING_HEAD goes back over
the descriptors of a record that is given up (log 73). -/
def Obligations.ExportsComplete : Prop :=
  (∀ s r e, Accepts capExportSpec s r → mayCapture r (basin s (u8 r.payload 0)) = true →
    (basin s (u8 r.payload 0)).state ≠ 0 → (u8 r.payload 1 ≠ 0 ∨ ringRefusal s (u8 r.payload 2) false = none) →
    ((List.range 8).find? fun x => (tfind s.cap.exports x).isNone) = some e →
    exec .capExport s = .next (answered r stOk (le 1 e ++ zeros 3)
      (exportMoved e (modExport e (fun _ => exportOf r (basin s (u8 r.payload 0))) (takeUp r s))))) ∧
  (∀ s r x, Accepts exportStopSpec s r → tfind s.cap.exports (u8 r.payload 0) = some x → mayChange r x.client = true →
    inFlight x = false →
    exec .capExportStop s = .next (answered r stOk [] (exportDone false (u8 r.payload 0) 1 (takeUp r s)))) ∧
  (∀ s r x, Accepts exportStopSpec s r → tfind s.cap.exports (u8 r.payload 0) = some x → mayChange r x.client = true →
    inFlight x = true →
    exec .capExportStop s = .next (answered r stOk []
      (modExport (u8 r.payload 0) (fun y => { y with stopping := true }) (takeUp r s)))) ∧
  (∀ s e, (tfind s.cap.exports e).isSome = true → basinsRun s = true → channelHalted s (e % 2) e = false →
    inFlight (export_ s e) = true →
    exec (.exportRecordSend e) s = .next (sendOnce e s)) ∧
  (∀ s e, (tfind s.cap.exports e).isSome = true → basinsRun s = true → channelHalted s (e % 2) e = false →
    inFlight (export_ s e) = false → exportLost s (export_ s e) = false → (export_ s e).compress = false →
    mayRead e s = true →
    exec (.exportRecordSend e) s = .next (sendOnce e s)) ∧
  (∀ s e, (tfind s.cap.exports e).isSome = true → basinsRun s = true → channelHalted s (e % 2) e = false →
    inFlight (export_ s e) = false → exportLost s (export_ s e) = false → (export_ s e).compress = true →
    (export_ s e).charged = true → readingOrd s (export_ s e) = some (export_ s e).chargedSeg →
    exportHas s (export_ s e) = true →
    exec (.exportRecordSend e) s = .next (throughJobWeir e (sendOnce e) s)) ∧
  (∀ s e, (tfind s.cap.exports e).isSome = true → basinsRun s = true → channelHalted s (e % 2) e = false →
    inFlight (export_ s e) = false → (export_ s e).stale = none → exportLost s (export_ s e) = true →
    exec (.exportRecordSend e) s = .next (segmentRead e (exportMoved e (nextRecord e s).2))) ∧
  (∀ s e q i, (tfind s.cap.exports e).isSome = true → basinsRun s = true → channelHalted s (e % 2) e = false →
    inFlight (export_ s e) = false → (export_ s e).stale = some (q, i) → (export_ s e).follow = true →
    (export_ s e).compress = false →
    exec (.exportRecordSend e) s = .next (modExport e (fun y => { y with stale := none, nextSeq := 0 })
      (exportSkip e q s))) ∧
  (∀ s e q i, (tfind s.cap.exports e).isSome = true → basinsRun s = true → channelHalted s (e % 2) e = false →
    inFlight (export_ s e) = false → (export_ s e).stale = some (q, i) → (export_ s e).follow = false →
    exec (.exportRecordSend e) s = .next (exportDone false e 0 (exportSkip e (export_ s e).endSeq s))) ∧
  (∀ s e, (tfind s.cap.exports e).isSome = true → (export_ s e).holding = true → basinsRun s = true →
    exec (.ringHoldExpiry e) s = .next (segmentRead e (exportMoved e (modExport e (fun y => { y with
      nextSeq := y.nextSeq + 1
      record := []
      off := 0
      holding := false }) (modRing (export_ s e).target (fun r => { r with drop := r.drop + 1 }) (ringBack e s))))))

/-- COMPLETION of the Aster commands (R374 to R379). The model's choices: JOB_SUBMIT is refused with
ST_DENIED to a client unless it may change both the capture that the job pins and its kernel slot (log 34), and the bytes of a
KERNEL_LOAD are one write that takes an armed flip mask and may leave a bad line in the slot, where the load then cannot end
well (logs 39, 56). -/
def Obligations.JobCommandsComplete : Prop :=
  (∀ s r, Accepts kernelSpec s r → ((kernel s (u8 r.payload 0)).len = 0 ∨
      mayChange r (kernel s (u8 r.payload 0)).client = true) → kernelBusy s (u8 r.payload 0) = false →
    u8 r.payload 1 = 0 →
    exec .kernelLoad s = .next (answered r stOk []
      (setKernel (u8 r.payload 0) { client := r.client, len := u32 r.payload 4 } (takeUp r s)))) ∧
  (∀ s r, Accepts kernelSpec s r → mayChange r (kernel s (u8 r.payload 0)).client = true →
    kernelBusy s (u8 r.payload 0) = false → u8 r.payload 1 = 1 → (kernel s (u8 r.payload 0)).usable = false →
    u32 r.payload 4 = (kernel s (u8 r.payload 0)).data.length →
    (kernel s (u8 r.payload 0)).data.length + u16 r.payload 2 ≤ (kernel s (u8 r.payload 0)).len →
    ∃ l, l = writeLine 0 (takeUp r s) ∧
    exec .kernelLoad s = .next (answered r stOk [] (setKernel (u8 r.payload 0) { kernel s (u8 r.payload 0) with
      data := (kernel s (u8 r.payload 0)).data ++ slice r.payload 8 (u16 r.payload 2)
      bad := if (kernel s (u8 r.payload 0)).bad.isSome then (kernel s (u8 r.payload 0)).bad else l.1 } l.2))) ∧
  (∀ s r, Accepts kernelSpec s r → mayChange r (kernel s (u8 r.payload 0)).client = true →
    kernelBusy s (u8 r.payload 0) = false → u8 r.payload 1 = 2 → (kernel s (u8 r.payload 0)).bad = none →
    (kernel s (u8 r.payload 0)).len ≠ 0 →
    (kernel s (u8 r.payload 0)).data.length = (kernel s (u8 r.payload 0)).len →
    crc32c (kernel s (u8 r.payload 0)).data = u32 r.payload 4 →
    exec .kernelLoad s = .next (answered r stOk [] (setKernel (u8 r.payload 0)
      { kernel s (u8 r.payload 0) with usable := true } (takeUp r s)))) ∧
  (∀ s r base, Accepts submitSpec s r → (kernel s (u8 r.payload 0)).usable = true →
    ((basin s (u8 r.payload 12)).state = 0 ∨ mayChange r (basin s (u8 r.payload 12)).client = true) →
    ((kernel s (u8 r.payload 0)).len = 0 ∨ mayChange r (kernel s (u8 r.payload 0)).client = true) →
    parterreUsable s (u8 r.payload 2) = true →
    (rangeSegs (basin s (u8 r.payload 12)) (u32 r.payload 16) (u32 r.payload 20)).length
      = u32 r.payload 20 - u32 r.payload 16 + 1 →
    (∀ g ∈ rangeSegs (basin s (u8 r.payload 12)) (u32 r.payload 16) (u32 r.payload 20), g.closed = true) →
    s.ast.jobs.length < 512 → (u16 r.payload 14 = 0 ∨ freeRun s (u16 r.payload 14) = some base) →
    exec .jobSubmit s = .next (answered r stOk (le 4 s.ast.nextJob.toNat ++
        le 4 (if u16 r.payload 14 = 0 then 0xFFFFFFFF else base)) { takeUp r s with
      ast := { s.ast with
        jobs := tset s.ast.jobs s.ast.nextJob.toNat (newJob r (basin s (u8 r.payload 12)).cfg.keySlot
          (rangeSegs (basin s (u8 r.payload 12)) (u32 r.payload 16) (u32 r.payload 20))
          (if u16 r.payload 14 = 0 then 0 else base))
        nextJob := s.ast.nextJob + 1 } })) ∧
  (∀ s r, Accepts submitSpec s r →
    (((basin s (u8 r.payload 12)).state ≠ 0 ∧ mayChange r (basin s (u8 r.payload 12)).client = false) ∨
      ((kernel s (u8 r.payload 0)).len ≠ 0 ∧ mayChange r (kernel s (u8 r.payload 0)).client = false)) →
    exec .jobSubmit s = .next (answered r stDenied [] (takeUp r s))) ∧
  (∀ s r j, Accepts jobStatusSpec s r → tfind s.ast.jobs (u32 r.payload 0) = some j →
    exec .jobStatus s = .next (answered r stOk (le 4 (u32 r.payload 0) ++ le 1 j.state ++ le 1 j.result ++
      le 1 j.retries ++ le 1 j.core ++ le 4 j.code.toNat ++ le 4 j.outBase ++ le 8 j.outBytes ++
      le 8 j.startNs.toNat ++ le 8 j.endNs.toNat ++ le 8 (jobBundles s j) ++ le 2 j.trapPc ++ le 1 j.trapCause ++
      le 1 j.skipped ++ zeros 4) (takeUp r s))) ∧
  (∀ s r j, Accepts jobCancelSpec s r → tfind s.ast.jobs (u32 r.payload 0) = some j → mayChange r j.client = true →
    j.state = 2 →
    exec .jobCancel s = .next (answered r stOk [] (afterEnd (endAttempt j.core (u32 r.payload 0) 4 (takeUp r s))))) ∧
  (∀ s r j, Accepts jobCancelSpec s r → tfind s.ast.jobs (u32 r.payload 0) = some j → mayChange r j.client = true →
    j.state = 1 →
    exec .jobCancel s = .next (answered r stOk [] (afterEnd (jobDone (u32 r.payload 0) 4 (takeUp r s))))) ∧
  (∀ s r j, Accepts jobReleaseSpec s r → tfind s.ast.jobs (u32 r.payload 0) = some j → mayChange r j.client = true →
    j.state = 3 →
    exec .jobRelease s = .next (answered r stOk [] (dropJob (u32 r.payload 0) (takeUp r s))))

/-- COMPLETION of what a core does (R360 to R373, R376, R377, R380): a bundle that does not trap issues, the services
return, and the limits end the job. -/
def Obligations.CoreEventsComplete : Prop :=
  (∀ s c b n x, activeJob s c = some n → x = (core s c).landDue → x.svcWait = none → x.bundleTrap c b = 0 →
    x.badMet b = none →
    exec (.bundleIssue c b) s = .next (afterIssue c n (spoilStores x c b (setCore c (x.issue c b) s)))) ∧
  (∀ s c n, serviceOf s c 1 = some n → channelHalted s (parterreOf c) (16 + c) = false →
    (job s n).toOrd < (job s n).readOrd →
    exec (.blockNext c) s = .next (serviceReturn c [(2, 0)] s)) ∧
  (∀ s c n k t, serviceOf s c 1 = some n → channelHalted s (parterreOf c) (16 + c) = false →
    nextBlock ((job s n).toOrd + 2 - (job s n).readOrd) n s = (some k, t) →
    exec (.blockNext c) s = .next (throughDma c n 2 (deliver c n k) t)) ∧
  (∀ s c n, serviceOf s c 2 = some n → channelHalted s (parterreOf c) (16 + c) = false →
    0 < (argument s c).toNat → (argument s c).toNat ≤ 65536 →
    stagingBad (core s c) c (argument s c).toNat = none →
    exec (.outFlush c) s = .next (throughDma c n 3 (flushOutput c n (argument s c).toNat) s)) ∧
  (∀ s c n, serviceOf s c 3 = some n → exec (.doneService c) s = .next (afterEnd (endAttempt c n 1
    (modJob n (fun j => { j with code := argument s c }) s)))) ∧
  (∀ s c n, serviceOf s c 4 = some n → ∃ cycles, exec (.cycles c) s = .next (serviceReturn c
      [(1, BitVec.ofNat 32 cycles), (2, BitVec.ofNat 32 (cycles / 2 ^ 32))]
      (s.modCtl fun x => { x with free := x.free + 1 })) ∧ (core s c).issued ≤ cycles) ∧
  (∀ s c n, activeJob s c = some n → exec (.jobTimeLimit c) s = .next (afterEnd (endAttempt c n 3 s))) ∧
  (∀ s c n, activeJob s c = some n → (core s c).svcWait = none →
    exec (.coreNoIssue c) s = .next (afterEnd (failAttempt false (some 3) c n s)))

/-- COMPLETION of the memory commands (R403 to R407). -/
def Obligations.MemoryCommandsComplete : Prop :=
  (∀ s r, Accepts memConfigSpec s r → exec .memConfig s = .next (answered r stOk [] { takeUp r s with
    mem := { s.mem with
      period := u16 r.payload 0
      scrubOn := u8 r.payload 2 == 1
      limit := u32 r.payload 4
      evMs := u32 r.payload 8 } })) ∧
  (∀ s r, Accepts memStatusSpec s r → u8 r.payload 1 = 0 →
    exec .memStatus s = .next (answered r stOk (memStatusBytes s (u8 r.payload 0)) (takeUp r s))) ∧
  (∀ s r, Accepts memStatusSpec s r → u8 r.payload 1 = 1 →
    exec .memStatus s = .next (answered r stOk (memStatusBytes s (u8 r.payload 0))
      (modStack (u8 r.payload 0) (fun k => { k with cnt := [] }) (takeUp r s)))) ∧
  (∀ s r, Accepts sramStatusSpec s r → exec .memSramStatus s = .next (answered r stOk
    (zeros 8 ++ (List.range 12).flatMap fun i => le 8 (tget 0 s.mem.sram (8 + 8 * i)))
    (if u8 r.payload 0 = 1 then { takeUp r s with mem := { s.mem with sram := [] } } else takeUp r s))) ∧
  (∀ s r, Accepts memFlipSpec s r → u8 r.payload 0 = 0 → instanceOff s (u16 r.payload 2) = false →
    exec .memFlip s = .next (answered r stOk []
      (armSram (u16 r.payload 2) (leNat (slice r.payload 8 16)) (takeUp r s)))) ∧
  (∀ s r, Accepts memFlipSpec s r → u8 r.payload 0 = 1 → u8 r.payload 1 < stackTotal s →
    exec .memFlip s = .next (answered r stOk [] (modStack (u8 r.payload 1) (fun k => { k with
      outerFlip := BitVec.ofNat 128 (leNat (slice r.payload 8 16)) }) (takeUp r s)))) ∧
  (∀ s r, Accepts memFlipSpec s r → u8 r.payload 0 = 2 → u8 r.payload 1 < stackTotal s →
    exec .memFlip s = .next (answered r stOk [] (modStack (u8 r.payload 1) (fun k => { k with
      innerFlip := BitVec.ofNat 128 (leNat (slice r.payload 8 16)) }) (takeUp r s)))) ∧
  (∀ s r, Accepts fenceListSpec s r → exec .memFenceList s = .next (answered r stOk
    (le 4 (u32 r.payload 0) ++ le 4 (min 1792 (segCount s - u32 r.payload 0)) ++
      le 224 (maskOf 1792 fun j => decide (j < min 1792 (segCount s - u32 r.payload 0)) &&
        fencedOrMarked s (u32 r.payload 0 + j))) (takeUp r s)))

/-- COMPLETION of the memory's own events (R387, R388, R394 to R396, R399, R402, R408), without an injection armed. The model's choice: a
repaired line of group 1 was recomputed from 0x1000 on and refetched below, and which lines of groups 0 and 1 have no repair
(log 39), the rewrite of a line takes a flip
mask as any write does and leaves the line bad (log 56), and INNER_COUNT_READ adds the corrections that the dies made
(log 75). -/
def Obligations.MemoryEventsComplete : Prop :=
  (∀ s n, memRuns s n = true → s.mem.scrubOn = true → (stack s n).scrubRead = none →
    exec (.scrubBlock n) s = .next (scrubRead n s)) ∧
  (∀ s n blk, memRuns s n = true → s.mem.scrubOn = true → (stack s n).scrubRead = some blk →
    exec (.scrubBlock n) s = .next (countStack n 56 1 (scrubWrite blk (stack s n).scrubData
      (modStack n (fun x => { x with scrubRead := none, scrubData := [] }) s)))) ∧
  (∀ s n k m, memRuns s n = true → m = k + (stack s n).dieCorr → ∃ t,
    t = countStack n 16 m (modStack n (fun x => { x with evInner := x.evInner + m, dieCorr := 0 }) s) ∧
    exec (.innerCountRead n k) s =
      .next (if (stack s n).evBlocks = 0 ∧ (stack s n).evInner + m = 0 then t else correctedEvent n t)) ∧
  (∀ s n v, memRuns s n = true →
    exec (.stackTempReport n v) s = .next (modStack n (fun x => { x with doubled := v }) s)) ∧
  (∀ s n, memRuns s n = true → exec (.stackLinkLost n) s = .next (fenceStack 2 n s)) ∧
  (∀ s i a, s.inj.entries = [] → s.mem.sramFlip = [] → repairable i = true → cpRuns s = true → hasRepair i a = true →
    i / 0x1000 ≠ 2 →
    exec (.sramRepairDone i a true) s =
      .next (sramError (lineInjected s i a) i (if i / 0x1000 = 1 ∧ 0x1000 ≤ a then 2 else 1) a 0 { s with mem := { s.mem with
        spoilt := s.mem.spoilt.filter fun e => !(e.1 == i && e.2.1 == a) } })) ∧
  (∀ s i a, s.inj.entries = [] → s.mem.sramFlip = [] → repairable i = true → cpRuns s = true → i / 0x1000 = 2 →
    exec (.sramRepairDone i a true) s = .next (sramError (lineInjected s i a) i 2 a 0 (lineDone a { s with mem := { s.mem with
        spoilt := s.mem.spoilt.filter fun e => !(e.1 == i && e.2.1 == a) } }))) ∧
  (∀ s i a, s.inj.entries = [] → (tget 0 s.mem.sramFlip i).toNat ≠ 0 → repairable i = true → cpRuns s = true →
    hasRepair i a = true →
    exec (.sramRepairDone i a true) s = .next (sramError (lineInjected s i a) i
      (if i / 0x1000 = 2 ∨ (i / 0x1000 = 1 ∧ 0x1000 ≤ a) then 2 else 1) a 0 { s with mem := { s.mem with
        sramFlip := tdel s.mem.sramFlip i
        spoilt := (i, a, false) :: s.mem.spoilt.filter fun e => !(e.1 == i && e.2.1 == a) } })) ∧
  (∀ s i a ok, repairable i = true → cpRuns s = true → (ok = false ∨ hasRepair i a = false) →
    exec (.sramRepairDone i a ok) s = .next (repairFails (lineInjected s i a) i a
      (sramError (lineInjected s i a) i 3 a 0 { s with mem := { s.mem with
        spoilt := s.mem.spoilt.filter fun e => !(e.1 == i && e.2.1 == a) } }))) ∧
  (∀ s p c h, (s.mem.halted.find? fun x => x.1 == p && x.2.1 == c) = some h → cpRuns s = true →
    exec (.dmaChannelReset p c) s =
      .next (raiseWith h.2.2.2 0x0B06 p (le 1 c ++ le 1 h.2.2.1) none
      { s with mem := { s.mem with halted := s.mem.halted.erase h } }))

/-- COMPLETION of the key commands (R412, R414 to R416, R433, R434). -/
def Obligations.KeyCommandsComplete : Prop :=
  (∀ s r secret host, Accepts kekSpec s r → secret = Config.drbg s.cip.draws → host = slice r.payload 0 97 →
    exec .kekEstablish s = .next (if Config.p384Valid host = true then
      answered r stOk (fit 97 (Config.p384Public secret) ++ zeros 3) { takeUp r s with
        cip := { s.cip with
          draws := s.cip.draws + 1
          kek := some ((sha384 (be 4 1 ++ Config.p384Shared secret host ++
            (le 8 s.ident.serial.toNat ++ host ++ fit 97 (Config.p384Public secret)))).extractLsb' 128 256) } }
    else answered r stBadParam [] (takeUp r s))) ∧
  (∀ s r kek, Accepts keyUnwrapSpec s r → maySlot r s (u16 r.payload 0) = true → s.cip.kek = some kek →
    (u16 r.payload 0 < 4096 → lineFixed s (u16 r.payload 0) = true) →
    (4096 ≤ u16 r.payload 0 → slotInCapture s (u16 r.payload 0) = false ∧ slotInXfer s (u16 r.payload 0) = false) →
    exec .keyUnwrap s = .next (match Config.aesUnwrap (kekBytes kek) (r.payload.drop 16) with
      | none => answered r stBadParam [] (takeUp r s)
      | some raw =>
        if 3 ≤ (keyKind (u16 r.payload 0) (u8 r.payload 2)).getD 0 ∧
            halvesEqual (fit (u8 r.payload 2 - 8) raw) = true then answered r stBadParam [] (takeUp r s)
        else answered r stOk [] (touchLine (u16 r.payload 0) (modSlot (u16 r.payload 0) (fun x => { x with
          state := 1
          kind := (keyKind (u16 r.payload 0) (u8 r.payload 2)).getD 0
          owner := if x.state = 0 then r.client else x.owner
          usage := 0
          limit := if u64 r.payload 8 = 0 then defaultLimit (u16 r.payload 0) else u64 r.payload 8
          key := fit (u8 r.payload 2 - 8) raw
          told := false }) (takeUp r s))))) ∧
  (∀ s r, Accepts keyZeroiseSpec s r → maySlot r s (u16 r.payload 0) = true →
    slotInCapture s (u16 r.payload 0) = false → slotInXfer s (u16 r.payload 0) = false →
    exec .keyZeroise s = .next (answered r stOk [] (touchLine (u16 r.payload 0)
      (modSlot (u16 r.payload 0) (fun x => { x with state := 0, kind := 0, key := [] }) (takeUp r s))))) ∧
  (∀ s r, Accepts keyStatusSpec s r →
    exec .keyStatus s = .next (answered r stOk (keyStatusBytes s (u16 r.payload 0)) (takeUp r s))) ∧
  (∀ s r, Accepts cipherStatusSpec s r → exec .cipherStatus s = .next (answered r stOk
    (le 1 (b2n s.cip.kek.isSome) ++ le 1 (b2n s.cip.entropyBad) ++
      le 1 ((List.range 4).filter fun n => (xfer s n).state == 1).length ++ zeros 5 ++ le 8 s.cip.health ++
      le 8 s.cip.reseeds ++ le 8 s.cip.expired) (takeUp r s))) ∧
  (∀ s, s.inj.entries = [] → s.ctl.devState ≠ .still → exec (.drbgReseed 0) s = .next { s with
    cip := { s.cip with entropyBad := false, reseeds := (s.cip.reseeds + 1) % 2 ^ 48 } }) ∧
  (∀ s n, s.inj.entries = [] → s.ctl.devState ≠ .still → n ≠ 0 →
    exec (.drbgReseed n) s = .next (raise 0x0C04 0 (le 1 n) none { s with
      cip := { s.cip with entropyBad := true, health := (s.cip.health + 1) % 2 ^ 48 } }))

/-- COMPLETION of the transfers (R423 to R429), without an injection or a flip mask armed. The model's choice (log 84): transfer x
uses the DMA complex of Parterre x modulo 2. -/
def Obligations.TransfersComplete : Prop :=
  (∀ s r id x, Accepts bundleLoadSpec s r → maySlot r s (u16 r.payload 0) = true →
    (slot s (u16 r.payload 0)).state = 1 → freeXfer s = some id → ringRefusal s (u8 r.payload 2) true = none →
    u64 r.payload 8 + u64 r.payload 16 ≤ s.up.poolSegs * segBytes →
    x = {
      state := 1
      kind := 1
      slot := u16 r.payload 0
      ring := u8 r.payload 2
      offset := u64 r.payload 8
      length := u64 r.payload 16
      iv := slice r.payload 24 12
      tag := slice r.payload 40 16
      key := (slot s (u16 r.payload 0)).key
      first := u64 r.payload 8 / segBytes
      cmd := causeOf r } →
    (∀ g ∈ touched x, tget 0 s.up.poolState g ≠ 1 ∧ fenced s g = false) →
    exec .bundleLoad s = .next (answered r stOk (le 1 id ++ zeros 3) (useSlot (u16 r.payload 0) 1
      (setPool (touched x) 1 (modXfer id (fun _ => x) (takeUp r s)))))) ∧
  (∀ s r id g, Accepts sealSpec s r → maySlot r s (u16 r.payload 0) = true →
    (slot s (u16 r.payload 0)).state = 1 → freeXfer s = some id → ringRefusal s (u8 r.payload 2) false = none →
    u8 r.payload 3 = 0 →
    ((basin s (u8 r.payload 4)).segs.find? fun y => y.ord == u32 r.payload 8 && y.closed) = some g →
    g.enc = false → ∃ t, exec .segSealOut s = .next (answered r stOk
        (le 1 id ++ zeros 3 ++ sealIv s (slot s (u16 r.payload 0)).usage) (useSlot (u16 r.payload 0) 1 t)) ∧
      (xfer t id).state = 1 ∧ (xfer t id).kind = 2 ∧ (xfer t id).pin = some g.seg ∧ (xfer t id).first = g.seg ∧
      (xfer t id).length = segBytes) ∧
  (∀ s r, Accepts xferStatusSpec s r → exec .xferStatus s = .next (answered r
    (if (xfer s (u8 r.payload 0)).state = 2 then (xfer s (u8 r.payload 0)).status else stOk)
    (le 1 (u8 r.payload 0) ++ le 1 (xfer s (u8 r.payload 0)).state ++ le 1 (xfer s (u8 r.payload 0)).kind ++
      le 1 (xfer s (u8 r.payload 0)).cause ++ le 2 (xfer s (u8 r.payload 0)).slot ++ zeros 2 ++
      le 8 (xfer s (u8 r.payload 0)).bytes ++ le 4 (xfer s (u8 r.payload 0)).first ++ zeros 4) (takeUp r s))) ∧
  (∀ s n, s.inj.entries = [] → s.mem.sramFlip = [] → xferRuns s n = true → descCount s (xfer s n).ring ≠ 0 →
    channelHalted s (n % 2) (8 + n) = false →
    ((xfer s n).kind ≠ 1 ∨ ((xfer s n).eop = false ∧ loadUsable s (xfer s n) = true)) →
    exec (.xferBuffer n) s = .next (moveBuffer n s)) ∧
  (∀ s n stop t, s.inj.entries = [] → xferRuns s n = true → (xfer s n).kind = 1 → (xfer s n).eop = true →
    stop = (xfer s n).offset + (xfer s n).length →
    t = storeZero [] (stop + (64 - stop % 64) % 64) ((segBytes - stop % segBytes) % segBytes - (64 - stop % 64) % 64)
      (narrowWrite stop (zeros ((64 - stop % 64) % 64)) s) →
    exec (.bundleTagCheck n) s = .next (if fit 16 (Config.gcmTag (xfer s n).key (xfer s n).iv
        (bundleAad s (xfer s n).offset (xfer s n).length) (xfer s n).cipher) = (xfer s n).tag
      then (if (xfer t n).filling = true then t else xferDone n (setPool (touched (xfer s n)) 0 t))
      else xferFail n 1 stTagFail s)) ∧
  (∀ s n, (xfer s n).state = 1 → (xfer s n).filling = true → s.ctl.devState ≠ .still →
    exec (.zeroFillDone n) s = .next (xferDone n
      (((touched (xfer s n)).filter fun g => !fenced s g).foldl (fun y g => storeZero [] (g * segBytes) segBytes y) s))) ∧
  (∀ s n, xferRuns s n = true → (xfer s n).eop = false → bufferWaits s n = false →
    exec (.xferStall n) s = .next (xferFail n 2 stTimeout s))

/-- COMPLETION of the host port commands (R436 to R441, R449 to R456). The model's choice (log 76): an advertisement (R436, R437)
leaves the device at HOST_PORT_START, and it stands by its abilities, as the spec does not give their bits. The flags of
HOST_PORT_STATUS are a free value in TRAINING and the fault bits 0 in the other states (log 83), and a lane in TEST whose port
stops keeps its patterns (log 85). -/
def Obligations.HostPortCommandsComplete : Prop :=
  (∀ s r, Accepts hostConfigSpec s r → (hport s (u8 r.payload 0)).state = 0 →
    exec .hostPortConfig s = .next (answered r stOk [] (modHPort (u8 r.payload 0) (fun x => { x with
      medium := u8 r.payload 1
      an := u8 r.payload 2 == 1
      lt := u8 r.payload 3 == 1
      pauseMode := u8 r.payload 4
      eee := u8 r.payload 5 == 1
      vlan := u16 r.payload 6
      src := slice r.payload 8 6
      dst := slice r.payload 14 6
      wdLimit := u32 r.payload 20
      wdHold := u32 r.payload 24
      lpiIdle := u16 r.payload 28 }) (takeUp r s)))) ∧
  (∀ s r, Accepts hostStartSpec s r → (hport s (u8 r.payload 0)).state = 0 →
    inTest (hostLanes (u8 r.payload 0)) s = none →
    exec .hostPortStart s = .next (answered r stOk [] (advertise (u8 r.payload 0) (modHPort (u8 r.payload 0)
      (fun x => { x with
        state := 1
        anDone := false
        trained := false }) (toService (hostLanes (u8 r.payload 0)) (takeUp r s)))))) ∧
  (∀ s n, (hport s n).an = true → advertise n s = emit (.anAdvertise n {
    medium := (hport s n).medium
    rsFec := true
    eee := (hport s n).eee
    honoursPause := true
    sendsPause := false }) s) ∧
  (∀ s r, Accepts hostStopSpec s r → (hport s (u8 r.payload 0)).state ≠ 0 →
    exec .hostPortStop s = .next (answered r stOk [] (hostStop (u8 r.payload 0) (takeUp r s)))) ∧
  (∀ s r, Accepts hostStatusSpec s r → (hport s (u8 r.payload 0)).state ≠ 1 → exec .hostPortStatus s =
    .next (answered r stOk (hostStatusBytes s (u8 r.payload 0) 0) (takeUp r s))) ∧
  (∀ s r, Accepts hostStatusSpec s r → (hport s (u8 r.payload 0)).state = 1 → exec .hostPortStatus s =
    .next (answered r stOk (hostStatusBytes s (u8 r.payload 0) (Config.freeNat (drawFree (takeUp r s)).1))
      (drawFree (takeUp r s)).2)) ∧
  (∀ s r, Accepts hostCountersSpec s r → exec .hostPortCounters s = .next (answered r stOk
    (le 1 (u8 r.payload 0) ++ zeros 7 ++ (List.range 24).flatMap fun i =>
      le 8 (tget 0 (hport s (u8 r.payload 0)).cnt i))
    (if u8 r.payload 1 = 1 then modHPort (u8 r.payload 0) (fun x => { x with cnt := [] }) (takeUp r s)
      else takeUp r s))) ∧
  (∀ s r, Accepts hostClassSpec s r → exec .hostClassSet s = .next (answered r stOk []
    (modHClass (u8 r.payload 0) (u8 r.payload 1) (fun k => { k with
      rate := u32 r.payload 4
      burst := u32 r.payload 8
      tokens := u32 r.payload 8 * 5000
      since := s.time.cycles }) (takeUp r s)))) ∧
  (∀ s r, Accepts hostSendSpec s r → (hport s (u8 r.payload 0)).state = 2 →
    classRoom s (u8 r.payload 0) (u8 r.payload 1) (slice r.payload 8 (u16 r.payload 6)).length = true →
    exec .hostPortSend s = .next (answered r stOk [] (wakeTx (u8 r.payload 0)
      (modHClass (u8 r.payload 0) (u8 r.payload 1) (fun k => { k with queue := k.queue ++ [{
        data := slice r.payload 8 (u16 r.payload 6)
        stamp := if u8 r.payload 2 = 1 then some (u16 r.payload 4) else none
        cause := causeOf r }] }) (takeUp r s))))) ∧
  (∀ s r, Accepts hostRecvSpec s r → (hport s (u8 r.payload 0)).rx = [] →
    exec .hostPortRecv s = .next (answered r stOk (le 1 (u8 r.payload 0) ++ zeros 15) (takeUp r s))) ∧
  (∀ s r f fs, Accepts hostRecvSpec s r → (hport s (u8 r.payload 0)).rx = f :: fs →
    exec .hostPortRecv s = .next (answered r stOk
      (le 1 (u8 r.payload 0) ++ le 1 (b2n (!fs.isEmpty) + 2 * b2n f.ptp) ++ le 2 f.data.length ++ zeros 4 ++
        le 8 f.time.toNat ++ f.data)
      (modHPort (u8 r.payload 0) (fun x => { x with rx := fs }) (takeUp r s)))) ∧
  (∀ s r, Accepts ptpReadSpec s r →
    (hport s (u8 r.payload 0)).stamps.find? (fun t => t.id == u16 r.payload 2) = none →
    exec .ptpTxTsRead s = .next (answered r stOk
      (le 1 (u8 r.payload 0) ++ (le 1 0 ++ le 2 (u16 r.payload 2) ++ zeros 4 ++ zeros 8)) (takeUp r s))) ∧
  (∀ s r t, Accepts ptpReadSpec s r →
    (hport s (u8 r.payload 0)).stamps.find? (fun t => t.id == u16 r.payload 2) = some t → t.sent = true →
    exec .ptpTxTsRead s = .next (answered r stOk
      (le 1 (u8 r.payload 0) ++ (le 1 1 ++ le 2 (u16 r.payload 2) ++ zeros 4 ++ le 8 t.time.toNat)) (takeUp r s)))

/-- COMPLETION of the host ports' events (R438, R440, R443 to R447, R149), without an injection armed. The model's choice: an
advertisement leaves the device at AN_RESTART too, whether a received frame finds room is an operand of HOST_FRAME_RX
(log 76), which moment of low-power idle LPI_IDLE_EXPIRY reports is one of that event (log 59), and the blocks and codewords
of a frame are counted with it (log 82). -/
def Obligations.HostPortEventsComplete : Prop :=
  (∀ s t p eee, hostRuns s = true → (hport s p).state = 1 →
    t = (if (hport s p).lt = true then (hostLanes p).foldl (fun x l => trainLane l x) s else s) →
    exec (.hostLinkUp p eee) s = .next (hostLinkEvent p 1 2 (modHPort p (fun x => { x with
      state := 2
      anDone := x.an
      trained := (hport s p).lt
      eeeNeg := x.eee && eee
      lpiTx := (tget (0, 0) t.lane.lpiCfg p).1
      lpiRx := (tget (0, 0) t.lane.lpiCfg p).2
      upCycles := t.time.cycles }) t))) ∧
  (∀ s p c, hostRuns s = true → (hport s p).state = 2 → exec (.hostLinkDown p c) s = .next (linkDown p c s)) ∧
  (∀ s p, hostRuns s = true → (hport s p).state = 1 →
    exec (.anRestart p) s = .next (advertise p (modHPort p (fun x => { x with anDone := false, trained := false }) s))) ∧
  (∀ s p bs room x, s.inj.entries = [] → hostRuns s = true → (hport s p).state = 2 → 9600 < bs.length + 4 →
    (∀ l ∈ hostLanes p, (lane s l).hdrLeft = 0 ∧ (lane s l).hdrBad = 0) →
    x = countHost p 14 0 (countHost p 13 0 (wakeRx p s)) →
    exec (.hostFrameRx p bs { fcsOk := true, room } 0 0) s =
      .next (countHost p 2 1 (countHost p 1 (bs.length + 4) (countHost p 0 1 x)))) ∧
  (∀ s p bs c j k, s.inj.entries = [] → hostRuns s = true → (hport s p).state = 2 →
    (∀ l ∈ hostLanes p, (lane s l).hdrLeft = 0 ∧ (lane s l).hdrBad = 0) →
    ∃ t, t.inj.entries = [] ∧ (hport t p).rx = (hport s p).rx ∧
      exec (.hostFrameRx p bs c j k) s = .next (keepFrame p bs c.fcsOk c.room t)) ∧
  (∀ s p bs c j k i, hostRuns s = true → (hport s p).state = 2 →
    i = lineBlocks p (((bs.length + 31) / 8 + 79) / 80) (((bs.length + 31) / 8 + 3) / 4) (wakeRx p s) → i.1 = true →
    exec (.hostFrameRx p bs c j k) s = .next (linkDown p { blockLock := true, localFault := false, remoteFault := false } i.2)) ∧
  (∀ s p i ptp bs, cpQueue p i ptp false bs s = countHost p 3 1 s) ∧
  (∀ s p c f fs, hostRuns s = true → (hport s p).state = 2 → readyClass s p = some c →
    (hclass s p c).queue = f :: fs → f.stamp = none → ∃ t,
      exec (.hostFrameTx p) s = .next t ∧ t.ctl.out.contains (.hostFrame p f.data) = true ∧
      (hclass t p c).queue = fs) ∧
  (∀ s p c f fs id, hostRuns s = true → (hport s p).state = 2 → readyClass s p = some c →
    (hclass s p c).queue = f :: fs → f.stamp = some id → ∃ t,
      exec (.hostFrameTx p) s = .next (enterStamp p id true f.cause t) ∧
      t.ctl.out.contains (.hostFrame p f.data) = true ∧ (hclass t p c).queue = fs) ∧
  (∀ s p c, (hport s p).pauseMode ≠ 1 → (hclass s p c).paused = true → exec (.pauseExpiry p c) s =
    .next (wakeTx p (modHClass p c (fun k => { k with paused := false }) s))) ∧
  (∀ s p c, ((pauseClasses s p c).any fun k => (hclass s p k).paused) = true →
    exec (.pauseWdExpiry p c) s = .next (pauseWatchdog false p c s)) ∧
  (∀ s p c, (hport s p).pauseMode ≠ 1 → (hclass s p c).hold = true → exec (.pauseWdHoldEnd p c) s =
    .next (modHClass p c (fun k => { k with hold := false }) s)) ∧
  (∀ s p, hostRuns s = true → (hport s p).state = 2 → (hport s p).eeeNeg = true → (hport s p).lpiTx ≠ 0 →
    readyClass s p = none → (lane s (0x80 + 4 * p)).lpiTx = false →
    exec (.lpiIdleExpiry { port := p, event := .idle }) s = .next (emit (.hostLpi p)
      ((hostLanes p).foldl (fun y l => modLane l (fun z => { z with
        lpiTx := true
        elecIdle := z.elecIdle || (hport s p).lpiTx == 2 }) y) s))) ∧
  (∀ s p, hostRuns s = true → (hport s p).state = 2 → (hport s p).eeeNeg = true → (hport s p).lpiRx ≠ 0 →
    exec (.lpiIdleExpiry { port := p, event := .partnerSleeps }) s =
      .next ((hostLanes p).foldl (fun y l => lpiReceive ((hport s p).lpiRx == 2) l y) s)) ∧
  (∀ s p, hostRuns s = true → (hport s p).state = 2 → (hport s p).eeeNeg = true →
    exec (.lpiIdleExpiry { port := p, event := .partnerWakes }) s = .next ((hostLanes p).foldl (fun y l => modLane l (fun z => { z with
      lpiRx := false
      frozen := none }) y) s)) ∧
  (∀ s p on, hostRuns s = true → (hport s p).state = 2 → (hport s p).eeeNeg = true → (hport s p).lpiTx = 2 →
    exec (.lpiIdleExpiry { port := p, event := .refresh on }) s =
      .next ((hostLanes p).foldl (fun y l => refreshTx on l y) s)) ∧
  (∀ s l on, (lane s l).lpiTx = true → refreshTx on l s = modLane l (fun z => { z with elecIdle := !on }) s) ∧
  (∀ s p on, hostRuns s = true → (hport s p).state = 2 → (hport s p).eeeNeg = true → (hport s p).lpiRx = 2 →
    exec (.lpiIdleExpiry { port := p, event := .partnerRefresh on }) s =
      .next ((hostLanes p).foldl (fun y l => refreshRx on l y) s)) ∧
  (∀ s l, (lane s l).lpiRx = true → refreshRx true l s = modLane l (fun z => { z with frozen := none }) s)

/-- COMPLETION of the chassis bus commands and events (R457 to R464). The model's choice (log 53): a frame takes its sequence
number when it is sent, a collision counts as an attempt, and in STILL a received frame is counted, enters the peer table, wakes
the device and has no other effect. Peers age and marks are queued in STILL too (R461). -/
def Obligations.ChassisBusCompletes : Prop :=
  (∀ s r, Accepts chassisConfigSpec s r → exec .chassisConfig s = .next (answered r stOk []
    (modChassis (fun c => { c with
      enable := u8 r.payload 0 == 1
      rxEvent := u8 r.payload 1 == 1
      txMask := u16 r.payload 2
      rxMask := u16 r.payload 4
      markMs := u16 r.payload 6
      dst := slice r.payload 8 6
      peerAge := u16 r.payload 14
      maxAge := u16 r.payload 16 }) (takeUp r s)))) ∧
  (∀ s r, Accepts chassisSendSpec s r → s.net.chassis.enable = true → s.net.chassis.queue.length < 16 →
    exec .chassisSend s = .next (answered r stOk [] (modChassis (fun c => { c with queue := c.queue ++ [{
      kind := u8 r.payload 0
      trigger := u8 r.payload 1
      arg := BitVec.ofNat 32 (if u8 r.payload 0 = 1 then u32 r.payload 4 else 0)
      origin := s.time.ns
      cause := causeOf r }] }) (takeUp r s)))) ∧
  (∀ s r, Accepts chassisStatusSpec s r → exec .chassisStatus s = .next (answered r stOk
    (le 1 (b2n s.net.chassis.enable) ++ le 1 s.net.chassis.peers.length ++
      le 1 ((s.net.chassis.peers.drop (u8 r.payload 0)).take 8).length ++ zeros 1 ++
      le 4 s.net.chassis.txFrames.toNat ++ le 4 s.net.chassis.rxFrames.toNat ++
      le 4 s.net.chassis.collisions.toNat ++ le 4 s.net.chassis.txFailed.toNat ++
      le 4 s.net.chassis.untracked.toNat ++ le 4 s.net.chassis.rxInStill.toNat ++ zeros 4 ++
      ((s.net.chassis.peers.drop (u8 r.payload 0)).take 8).flatMap (peerBytes s.time.cycles)) (takeUp r s))) ∧
  (∀ s bs f, s.net.chassis.enable = true → parseChassis s bs = some f → s.ctl.devState ≠ .still →
    exec (.chassisFrameRx bs true) s = .next (wakeSource 3 0 (chassisAct f
      (modChassis (fun c => { c with rxFrames := c.rxFrames + 1 }) s)))) ∧
  (∀ s bs f, s.net.chassis.enable = true → parseChassis s bs = some f → s.ctl.devState = .still →
    exec (.chassisFrameRx bs true) s = .next (wakeSource 3 0 (trackPeer f (modChassis (fun c => { c with
      rxFrames := c.rxFrames + 1
      rxInStill := c.rxInStill + 1 }) s)))) ∧
  (∀ s f fs, s.net.chassis.queue = f :: fs → s.net.chassis.enable = true → s.net.chassis.sending = false →
    s.net.chassis.backoff = none → exec (.chassisTxAttempt false) s = .next (emit (.chassisFrame (chassisBytes s f))
      (modChassis (fun x => { x with
        queue := fs
        seq := x.seq + 1
        txFrames := x.txFrames + 1 }) s))) ∧
  (∀ s f fs, s.net.chassis.queue = f :: fs → s.net.chassis.enable = true → s.net.chassis.sending = false →
    s.net.chassis.backoff = none → exec (.chassisTxAttempt true) s =
      .next (modChassis (fun x => { x with sending := true }) s)) ∧
  (∀ s f fs, s.net.chassis.queue = f :: fs → s.net.chassis.sending = true → f.attempts + 1 < 16 →
    exec (.chassisCollision false) s = .next (modChassis (fun x => { x with
        sending := false
        collisions := x.collisions + 1
        queue := { f with attempts := f.attempts + 1 } :: fs
        backoff := some (Config.drbg s.cip.draws % 2 ^ min (f.attempts + 1) 10) })
      (emit .chassisJam { s with cip := { s.cip with draws := s.cip.draws + 1 } }))) ∧
  (∀ s d, s.net.chassis.backoff = some d →
    exec .backoffExpiry s = .next (modChassis (fun c => { c with backoff := none }) s)) ∧
  (∀ s f fs, s.net.chassis.queue = f :: fs → s.net.chassis.sending = false →
    exec .chassisTxAged s = .next (chassisFail f.kind f.trigger 3 f.cause (modChassis (fun c => { c with
      queue := fs
      sending := false
      backoff := none }) s))) ∧
  (∀ s id, (s.net.chassis.peers.any fun p => p.identity == id) = true →
    exec (.peerAgeExpiry id) s = .next (peerEvent 2 id.toNat (modChassis (fun c => { c with
      peers := c.peers.filter fun p => p.identity != id }) s))) ∧
  (∀ s, s.net.chassis.enable = true → s.net.chassis.markMs ≠ 0 →
    s.net.chassis.queue.length < 16 → exec .markPeriodExpiry s =
      .next (modChassis (fun c => { c with queue := c.queue ++ [{ kind := 2 }] }) s))

/-- COMPLETION of the power commands (R467, R469, R470, R485 to R488). -/
def Obligations.PowerCommandsComplete : Prop :=
  (∀ s r, Accepts powerStateSpec s r → u8 r.payload 0 = 1 → s.ctl.devState = .run → hushForbidden s = false →
    exec .powerState s = .next (executing r (holdWork (beginEntry 1 r (takeUp r s))))) ∧
  (∀ s r, Accepts powerStateSpec s r → u8 r.payload 0 = 2 → stillRefusal s = none →
    exec .powerState s = .next (executing r (beginEntry 2 r (takeUp r s)))) ∧
  (∀ s r e, Accepts powerStateSpec s r → u8 r.payload 0 = 0 → s.ctl.devState = .hush →
    (exitHush 7 0 (causeOf r) (takeUp r s)).pwr.entry = some e →
    exec .powerState s = .next (executing r (exitHush 7 0 (causeOf r) (takeUp r s)))) ∧
  (∀ s r, Accepts powerBudgetSetSpec s r → exec .powerBudgetSet s = .next (answered r stOk [] { takeUp r s with
    pwr := { s.pwr with pendBudget := some (u32 r.payload 0, u8 r.payload 4) } })) ∧
  (∀ s r, Accepts powerStatusSpec s r →
    exec .powerStatus s = .next (answered r stOk (powerStatus s) (takeUp r s)))

/-- COMPLETION of the power events (R470 to R475, R481 to R484). The model's choice: the order of the wake's events (log 51), no
command's tag in them and in EV_GATE_TIMEOUT, no EV_FRAME_LOCK at a wake (log 84), that
the wake timer is spent when it expires (log 52), when in STILL a peer of the chassis bus was last heard (a free value, log 53), and that a window is quiet in which no work waited for budget (logs 52
and 77). -/
def Obligations.PowerEventsComplete : Prop :=
  (∀ s i e, s.pwr.entry = some e → e.target = 2 → stillOrder[e.stopped.length]? = some i → i ≠ 10 →
    (i = 3 → s.cls.items = []) → stillRefusal s = none →
    exec (.gateAck i) s = .next (noteStopped i e (stopIsland i s))) ∧
  (∀ s e, s.pwr.entry = some e → e.target = 2 → e.stopped.length = 9 → stillRefusal s = none →
    exec (.gateAck 10) s = .next (enterStill e (noteStopped 10 e s))) ∧
  (∀ s i e, s.pwr.entry = some e → gateAsked e i = true → i ≠ 2 → exec (.gateTimeout i) s =
    .next (rollback e i 5 0 (raise 0x0E02 i (le 1 0 ++ le 2 gateLimit) none s))) ∧
  (∀ s, s.pwr.timerMs ≠ 0 → s.ctl.devState = .still → aonRuns s = true → s.pwr.latched = none →
    bit s.pwr.wakeMask 6 = true → exec .wakeTimerExpiry s = .next { s with
      pwr := { s.pwr with
        timerMs := 0
        latched := some (5, 0) } }) ∧
  (∀ s, s.ctl.devState = .still → aonRuns s = true → s.pwr.latched = none →
    exec .pcieD0ConfigWrite s = .next { s with pwr := { s.pwr with latched := some (2, 0) } }) ∧
  (∀ s ns l, s.ctl.devState = .still → s.pwr.latched = some l → ∃ t, t.ctl.devState = s.pwr.entryState ∧
    t.pwr.wake.source = l.1 ∧ t.pwr.wake.unit = l.2 ∧ t.time.ns = s.time.ns + BitVec.ofNat 64 ns ∧
    t.time.unsynced = true ∧ exec (.wakeComplete ns) s = .next (powerEvent .still s.pwr.entryState none (answerStill
      (raise 0x0002 0 (le 1 (stateCode .still) ++ le 1 (stateCode s.pwr.entryState)) none t)))) ∧
  (∀ s uj, cpRuns s = true → s.pwr.stalled = false → s.pwr.waited = false → s.pwr.pendBudget = none →
    exec (.sluiceWindow uj) s = .next (stepPoint (countWaits (decideWork true
      (credit (allowance s - (uj : Int)) { s with pwr := { s.pwr with
        quiet := s.pwr.quiet + 1
        waited := false
        fixedUj := uj } }))))) ∧
  (∀ s uj, cpRuns s = true → (s.pwr.stalled = true ∨ s.pwr.waited = true) →
    exec (.sluiceWindow uj) s = .next (stepPoint (countWaits (decideWork true (chargeWindow uj (takeBudget { s with
      pwr := { s.pwr with
        quiet := 0
        waited := false } })))))) ∧
  (∀ s ts, s.inj.entries = [] → aonRuns s = true → ts.length = 8 →
    s.pwr.ceilHit = false → s.pwr.hot = false → s.pwr.trip = false → s.pwr.ceilingC ≤ 110 →
    (∀ t ∈ ts, t < (s.pwr.ceilingC : Int) * 16) →
    exec (.thermalReading ts) s = .next { s with pwr := { s.pwr with temps := ts } })

/-- THE STEP takes the command at the front of the queue and runs it with the queue's rest; on an empty queue it is one
cycle of CK_TS (the model's own choice, log 1). -/
def Obligations.StepTakesTheFrontCommand : Prop :=
  (∀ s c rest, s.pending = c :: rest → step s = exec c { s with pending := rest }) ∧
  (∀ s, s.pending = [] → step s = .next (passTime s)) ∧
  (∀ s, timeRuns s = true → passTime s = hostCycle 3 (hostCycle 2 (hostCycle 1 (hostCycle 0
    (endBursts 1 (endBursts 0 (tick s))))))) ∧
  (∀ s, timeRuns s = false → passTime s = s)

/-- WHOLE MACHINE: no command changes the queue of waiting commands, the identity of the device or the certificate chain of
its device data region, which no command erases (R79), so the identity registers of R40 read the same after every command. The model's choice: the queue is the model's own, and neither a command
(log 1) nor a reset (log 49) touches it. -/
def Obligations.QueueAndIdentityKept : Prop :=
  ∀ i s t, exec i s = .next t → t.pending = s.pending ∧ t.ident = s.ident ∧ t.ident.certChain = s.ident.certChain ∧
    regRead t 0x0 = regRead s 0x0 ∧ regRead t 0x4 = regRead s 0x4 ∧ regRead t 0x8 = regRead s 0x8 ∧
    regRead t 0xC = regRead s 0xC

/-- INVARIANT: every step keeps the canonical form of the request slots, the host memory, the flash, the capture store
and the memories of the Aster cores. -/
def Obligations.MemoriesStayCanonical : Prop := ∀ s t, Mems s → step s = .next t → Mems t

/-- The invariants hold at reset. -/
def Obligations.InvariantsHoldAtReset : Prop := Mems State.reset ∧ FaultIdle State.reset

/-- WHOLE MACHINE (R86): once the boot ROM has measured the four stages, only a reset changes the measurement registers. The
model's choice (log 63): a stage of length 0 is an absent stage, whose register reads 0. -/
def Obligations.MeasurementsLockedUntilReset : Prop :=
  (∀ i s t, isReset i = false → exec i s = .next t → t.boot.meas = s.boot.meas) ∧
  (∀ i trial s k, k < 4 → tget 0 (runImage i trial s).boot.meas k =
    if u32 (imageHeader s i) (28 + 16 * k) = 0 then 0
    else sha384 (flashBytes s (imageBase i + u32 (imageHeader s i) (24 + 16 * k))
      (u32 (imageHeader s i) (28 + 16 * k))))

/-- WHOLE MACHINE (R57): FAULT is left only by a reset, from every state in which FAULT, BOOT and STILL have no
power-state entry under way; and every command but the resets keeps that. -/
def Obligations.FaultLeftOnlyByReset : Prop :=
  ∀ i s t, FaultIdle s → isReset i = false → exec i s = .next t →
    FaultIdle t ∧ (s.ctl.devState = .fault → t.ctl.devState = .fault)

/-- Checks 1 to 6 of R529 for every command of the mailboxes: the first that fails decides the status, and the command
has no effect of its own. -/
def Obligations.FirstFailedCheckDecides : Prop :=
  (∀ i c s r st, specOf i = some c → nextReq s = some r → r.opcode = c.op → injIndex 0x14 r.ch s = none →
    firstFailure c false r (noteChecksum false r (takeUp r s)) = some st →
    exec i s = .next (answered r st (failureBytes st (noteChecksum false r (takeUp r s)))
      (noteChecksum false r (takeUp r s)))) ∧
  (∀ c r s, headerOk false r = false → firstFailure c false r s = some stBadParam) ∧
  (∀ c r s, headerOk false r = true → bindOk s r = false → firstFailure c false r s = some stDenied) ∧
  (∀ c r s, headerOk false r = true → bindOk s r = true → r.ch = 16 → c.smb = false →
    firstFailure c false r s = some stUnsupported) ∧
  (∀ c r s, headerOk false r = true → bindOk s r = true → (r.ch ≠ 16 ∨ c.smb = true) → c.priv = true →
    r.client ≠ 0 → firstFailure c false r s = some stDenied) ∧
  (∀ c r s, headerOk false r = true → bindOk s r = true → (r.ch ≠ 16 ∨ c.smb = true) →
    (c.priv = false ∨ r.client = 0) → c.legal s.ctl.devState = false →
    firstFailure c false r s = some stStateConflict) ∧
  (∀ c r s, headerOk false r = true → bindOk s r = true → (r.ch ≠ 16 ∨ c.smb = true) →
    (c.priv = false ∨ r.client = 0) → c.legal s.ctl.devState = true → c.form r.payload = false →
    firstFailure c false r s = some stBadParam)

/-- R53 for every command and for an unassigned opcode: a request that fails its check sum, is too long or has a reserved
header bit set completes with ST_BAD_PARAM and no side effect but MB_ERR.CHECKSUM; an injected failure does the same. -/
def Obligations.MalformedRequestsRefused : Prop :=
  (∀ i c s r, specOf i = some c → nextReq s = some r → r.opcode = c.op → injIndex 0x14 r.ch s = none →
    (r.sum ≠ crc32c (r.head ++ zeros 4 ++ r.payload) ∨ 240 < r.len ∨ r.resv ≠ 0 ∨ r.flags / 2 ≠ 0) →
    exec i s = .next (answered r stBadParam [] (noteChecksum false r (takeUp r s)))) ∧
  (∀ s r, nextReq s = some r → assigned r.opcode = false → injIndex 0x14 r.ch s = none →
    (r.sum ≠ crc32c (r.head ++ zeros 4 ++ r.payload) ∨ 240 < r.len ∨ r.resv ≠ 0 ∨ r.flags / 2 ≠ 0) →
    exec .unassignedOpcode s = .next (answered r stBadParam [] (noteChecksum false r (takeUp r s)))) ∧
  (∀ i c s r p x, specOf i = some c → nextReq s = some r → r.opcode = c.op → occurrence 0x14 r.ch s = (some p, x) →
    exec i s = .next (answered r stBadParam [] (noteChecksum true r (takeUp r x)))) ∧
  (∀ bad s r, r.ch ≠ 16 → (bad = true ∨ r.sum ≠ crc32c (r.head ++ zeros 4 ++ r.payload)) →
    noteChecksum bad r s = modChan r.ch (fun c => { c with checksum := true }) s) ∧
  (∀ s r, r.sum = crc32c (r.head ++ zeros 4 ++ r.payload) → noteChecksum false r s = s)

/-- R54 for every command: a bound channel answers another client ST_DENIED and does nothing; an unbound one accepts any
client. -/
def Obligations.BindingRestrainsClients : Prop :=
  (∀ i c s r, specOf i = some c → nextReq s = some r → r.opcode = c.op → injIndex 0x14 r.ch s = none →
    headerOk false r = true → r.ch ≠ 16 → (chan s r.ch).bound = true → r.client ≠ (chan s r.ch).bindClient →
    exec i s = .next (answered r stDenied [] (takeUp r s))) ∧
  (∀ s r, nextReq s = some r → assigned r.opcode = false → injIndex 0x14 r.ch s = none →
    headerOk false r = true → r.ch ≠ 16 → (chan s r.ch).bound = true → r.client ≠ (chan s r.ch).bindClient →
    exec .unassignedOpcode s = .next (answered r stDenied [] (takeUp r s))) ∧
  (∀ c s r, headerOk false r = true → (chan s r.ch).bound = false → (r.ch ≠ 16 ∨ c.smb = true) →
    (c.priv = false ∨ r.client = 0) → c.legal s.ctl.devState = true → c.form r.payload = true →
    firstFailure c false r s = none)

/-- R58 for every command of the mailboxes: BOOT and STILL accept none, and the requests stay where they are. -/
def Obligations.BootAndStillServeNothing : Prop :=
  (∀ i c s, specOf i = some c → s.ctl.devState = .boot ∨ s.ctl.devState = .still → exec i s = .next s) ∧
  (∀ s, s.ctl.devState = .boot ∨ s.ctl.devState = .still → exec .unassignedOpcode s = .next s)

/-- R45 through what the slots hold: a write changes the bytes it names of a FREE slot and no other byte of any slot, and
in a slot in any other state none; the latter is latched. -/
def Obligations.RequestSlotWritableOnlyWhileFree : Prop :=
  (∀ s t ch off data, aonRuns s = true → s.ctl.devState ≠ .still → ch < 16 → off < 0x400 → slotAccess off data = true →
    exec (.requestSlotWrite ch off data) s = .next t →
    (∀ a, a < ch * 0x1000 + off ∨ ch * 0x1000 + off + data.length ≤ a →
      Memory.read 0 t.mbx.req a = Memory.read 0 s.mbx.req a) ∧
    ((chan s ch).slots.getD (off / 0x100) .free = .free →
      Memory.readBytes 0 t.mbx.req (ch * 0x1000 + off) data.length = data) ∧
    ((chan s ch).slots.getD (off / 0x100) .free ≠ .free →
      t.mbx.req = s.mbx.req ∧ (chan t ch).writeDiscarded = true)) ∧
  (∀ s t ch off data ch' slot, exec (.requestSlotWrite ch off data) s = .next t → ch' < 16 → slot < 4 →
    (chan s ch').slots.getD slot .free ≠ .free → readReq t ch' slot = readReq s ch' slot)

/-- A doorbell (R48, R49): in a state that serves it and needs no wake, the FREE slots it names become SUBMITTED in
ascending order and the others are latched as ignored. -/
def Obligations.DoorbellSubmitsFreeSlots : Prop :=
  ∀ s t ch v, aonRuns s = true → s.ctl.devState ≠ .still → s.ctl.devState ≠ .hush → ch < 16 →
    (chan s ch).slots.length = 4 → exec (.doorbellWrite ch v) s = .next t →
    (chan t ch).queue = (chan s ch).queue ++
      ([0, 1, 2, 3].filter fun n => bit v.toNat n && (chan s ch).slots.getD n .done == .free) ∧
    (∀ n, n < 4 → (chan t ch).slots.getD n .done =
      if bit v.toNat n = true ∧ (chan s ch).slots.getD n .done = .free then .submitted
      else (chan s ch).slots.getD n .done) ∧
    (chan t ch).dbIgnored = ((chan s ch).dbIgnored ||
      [0, 1, 2, 3].any fun n => bit v.toNat n && (chan s ch).slots.getD n .done != .free) ∧
    (∀ n, n ≠ ch → chan t n = chan s n) ∧ t.ctl = s.ctl ∧ t.time = s.time ∧ t.rings = s.rings ∧
    t.boot = s.boot ∧ t.clk = s.clk ∧ t.lane = s.lane ∧ t.fr = s.fr ∧ t.tm = s.tm ∧ t.up = s.up ∧ t.cls = s.cls ∧ t.cap = s.cap ∧ t.ast = s.ast ∧ t.mem = s.mem ∧
    t.cip = s.cip ∧ t.net = s.net ∧ t.pwr = s.pwr ∧ t.log = s.log ∧ t.inj = s.inj

/-- FRAME of serving: taking up a request and posting its response change only the control part, the mailboxes and what
signalling a vector changes; the memories of host and device are unchanged, and so is every other channel. -/
def Obligations.ServingChangesOnlyMailboxes : Prop :=
  (∀ r s, takeUp r s = { s with ctl := (takeUp r s).ctl, mbx := (takeUp r s).mbx }) ∧
  (∀ r st p s, answered r st p s = { s with
    ctl := (answered r st p s).ctl
    mbx := (answered r st p s).mbx
    rings := (answered r st p s).rings }) ∧
  (∀ r st p s, (answered r st p s).rings.hostMem = s.rings.hostMem ∧
    (answered r st p s).rings.rings = s.rings.rings ∧ (answered r st p s).rings.seq = s.rings.seq ∧
    (answered r st p s).ctl.devState = s.ctl.devState ∧ (answered r st p s).mbx.req = s.mbx.req) ∧
  (∀ r st p s n, n ≠ r.ch → chan (answered r st p s) n = chan s n ∧ chan (takeUp r s) n = chan s n) ∧
  (∀ r st p s, r.ch ≠ 16 → r.slot < (chan s r.ch).slots.length →
    (chan (answered r st p s) r.ch).slots.getD r.slot .free = .done ∧
    slice (tget (zeros 256) (answered r st p s).mbx.resp (4 * r.ch + r.slot)) 0
      (responseBytes r.tag st s.ctl.devState p).length = responseBytes r.tag st s.ctl.devState p) ∧
  (∀ r st p s, r.ch = 16 → (answered r st p s).mbx.smbState = .ready ∧
    (answered r st p s).mbx.smbResp = responseBytes r.tag st s.ctl.devState p)

/-- The event ring (R65 to R68): a disabled or a full ring takes no entry and counts the event; a ring with room takes it
at RING_HEAD; after a loss EV_EVENTS_LOST comes first. -/
def Obligations.EventRingWritesOrCounts : Prop :=
  (∀ e s, e.code ≠ 0x0002 → (ring s 0).en = false → postEvent e s = loseEvent s) ∧
  (∀ e s, e.code ≠ 0x0002 → (ring s 0).en = true → ((ring s 0).head + 1) % 1024 = (ring s 0).tail →
    postEvent e s = loseEvent s) ∧
  (∀ s, (loseEvent s).rings.seq = s.rings.seq + 1 ∧ (ring (loseEvent s) 0).lost = (ring s 0).lost + 1 ∧
    (loseEvent s).rings.unreported = s.rings.unreported + 1 ∧ (loseEvent s).rings.hostMem = s.rings.hostMem ∧
    (loseEvent s).ctl = s.ctl) ∧
  (∀ e s, (ring s 0).en = true → ((ring s 0).head + 1) % 1024 ≠ (ring s 0).tail → s.rings.unreported = 0 →
    s.rings.held = none → postEvent e s = writeEntry e s) ∧
  (∀ e s, (ring s 0).en = true → ((ring s 0).head + 1) % 1024 ≠ (ring s 0).tail →
    (((ring s 0).head + 1) % 1024 + 1) % 1024 ≠ (ring s 0).tail → s.rings.unreported ≠ 0 → s.rings.held = none →
    postEvent e s = writeEntry e (writeEntry (lostEvent s) s)) ∧
  (∀ e s, Memory.readBytes 0 (writeEntry e s).rings.hostMem (ringAddr s 0 (ring s 0).head 64) 64 =
      entryBytes s.rings.seq.toNat s.rings.phase e ∧
    (ring (writeEntry e s) 0).head = ((ring s 0).head + 1) % 1024 ∧
    (writeEntry e s).rings.seq = s.rings.seq + 1 ∧ (writeEntry e s).rings.unreported = 0 ∧
    (writeEntry e s).rings.phase = (if ((ring s 0).head + 1) % 1024 = 0 then !s.rings.phase else s.rings.phase) ∧
    ((tget {} s.rings.vectors 0).masked = false → (writeEntry e s).ctl.out = .msix 0 :: s.ctl.out))

/-- FRAME of an event: it changes the recorder, the ring registers and what has left the device; of host memory only the
64 KiB of the event ring. -/
def Obligations.EventsWriteOnlyTheirRing : Prop :=
  (∀ code obj args cause s, raise code obj args cause s = { s with
    ctl := { s.ctl with out := (raise code obj args cause s).ctl.out }
    rings := (raise code obj args cause s).rings
    log := (raise code obj args cause s).log }) ∧
  (∀ code obj args cause s a, (ring s 0).head < 1024 →
    (a < ringAddr s 0 0 64 ∨ ringAddr s 0 1024 64 ≤ a) →
    Memory.read 0 (raise code obj args cause s).rings.hostMem a = Memory.read 0 s.rings.hostMem a) ∧
  (∀ code obj args cause s n, n ≠ 0 → ring (raise code obj args cause s) n = ring s n)

/-- The capture store (R342, R398) reads back what was written, and every byte outside the written ones reads as
before. -/
def Obligations.StoreReadsBackWhatWasWritten : Prop :=
  ∀ key a bs s, s.cap.undef = [] → (key ≠ [] ∨ s.cap.unitKey = []) →
    storePeek (storeWrite key a bs s) a bs.length = bs ∧
    (∀ b, b < a ∨ a + bs.length ≤ b → storeByte (storeWrite key a bs s) b = storeByte s b)

end Statements
end

