-- ==== Sys2Proof/Laws/Access.lean ====
section
/-!
SUPPORT. Accesses of a host while the addressed island runs, the doorbells and the wake sources, each said once.
-/
namespace Sys2Proof.Machine

/-- Outside STILL an address is off only where the island of the time region or of BAR2 has stopped already. -/
theorem offDomain_awake {bar off : Nat} {s : State} (hs : s.ctl.devState ≠ .still) (ht : bar = 0 → timeRegion off = false)
    (hb : bar ≠ 2) : offDomain bar off s = false := by
  unfold offDomain
  by_cases h : bar = 0 <;> simp_all

/-- Outside STILL, and while no entry into it is under way, no address is off. -/
theorem offDomain_up {bar off : Nat} {s : State} (hs : s.ctl.devState ≠ .still) (he : s.pwr.entry = none) :
    offDomain bar off s = false := by
  unfold offDomain
  simp [hs, islandUp, he]

/-- An access with power to a running island has its own effect. -/
theorem barAccess_up {write : Bool} {bar off n : Nat} {f : State → State} {s : State} (ha : aonRuns s = true)
    (ho : offDomain bar off s = false) : barAccess write bar off n f s = f s := by
  unfold barAccess
  rw [ho, ha]
  rfl

/-- A read with power of a running island answers what the register reads as before the read has its effect. -/
theorem readAccess_up {off : Nat} {f : State → State} {s : State} (ha : aonRuns s = true)
    (ho : offDomain 0 off s = false) : readAccess off f s = answerWords [regRead s off] (f s) :=
  barAccess_up ha ho

/-- Without power or in POR_N no access has an effect. -/
theorem barAccess_down {write : Bool} {bar off n : Nat} {f : State → State} {s : State} (ha : aonRuns s = false) :
    barAccess write bar off n f s = s := by
  unfold barAccess
  rw [ha]
  rfl

/-- An access to an island that STILL has stopped. -/
theorem barAccess_off {write : Bool} {bar off n : Nat} {f : State → State} {s : State} (ha : aonRuns s = true)
    (ho : offDomain bar off s = true) : barAccess write bar off n f s = offAccess write bar off n s := by
  unfold barAccess
  rw [ho, ha]
  rfl

/-- A doorbell changes its own channel, nothing else. -/
theorem ringBell_form (ch v : Nat) (s : State) :
    ∃ c, ringBell ch v s = { s with mbx := { s.mbx with chans := c } } := by
  unfold ringBell
  generalize bitsOf 4 v = l
  induction l generalizing s with
  | nil => exact ⟨s.mbx.chans, rfl⟩
  | cons a l ih =>
    obtain ⟨c, h⟩ := ih (ringSlot ch a s)
    exact ⟨c, h⟩

/-- A wake source that the present state does not act on changes nothing. -/
theorem wakeSource_idle {source unit : Nat} {s : State} (h : wakeEnabled source unit s = false) :
    wakeSource source unit s = s := by
  unfold wakeSource
  rw [h]
  rfl

/-- Outside HUSH and STILL nothing wakes. -/
theorem wakeEnabled_awake {source unit : Nat} {s : State} (h : s.ctl.devState ≠ .hush) (k : s.ctl.devState ≠ .still) :
    wakeEnabled source unit s = false := by
  unfold wakeEnabled
  split
  · contradiction
  · contradiction
  · rfl

end Sys2Proof.Machine
end

