-- ==== Sys2Proof/Laws/Data.lean ====
section
/-!
SUPPORT. Tables and memories: reading after writing, and the canonical form that every operation keeps.
-/
namespace Sys2Proof.Machine

variable {α : Type}

@[simp] theorem tget_tset_self (d : α) (t : Tab α) (k : Nat) (v : α) : tget d (tset t k v) k = v := by
  induction t with
  | nil => simp [tset, tget]
  | cons e t ih =>
    obtain ⟨j, w⟩ := e
    unfold tset
    split
    · simp [tget]
    · split
      · simp [tget]
      · rename_i h1 h2; simp [tget, h2, ih]

theorem tget_tset_of_ne (d : α) (t : Tab α) {k n : Nat} (v : α) (h : n ≠ k) :
    tget d (tset t k v) n = tget d t n := by
  induction t with
  | nil => simp [tset, tget, h]
  | cons e t ih =>
    obtain ⟨j, w⟩ := e
    unfold tset
    split
    · simp [tget, h]
    · split
      · rename_i hj; subst hj; simp [tget, h]
      · simp only [tget]; split <;> simp [ih]

theorem tget_tset (d : α) (t : Tab α) (k n : Nat) (v : α) :
    tget d (tset t k v) n = if n = k then v else tget d t n := by
  by_cases h : n = k
  · subst h; simp
  · simp [h, tget_tset_of_ne]

@[simp] theorem tget_tdel_self (d : α) (t : Tab α) (k : Nat) : tget d (tdel t k) k = d := by
  induction t with
  | nil => rfl
  | cons e t ih =>
    obtain ⟨j, w⟩ := e
    unfold tdel
    split
    · exact ih
    · rename_i h; simp [tget, h, ih]

theorem tget_tdel_of_ne (d : α) (t : Tab α) {k n : Nat} (h : n ≠ k) : tget d (tdel t k) n = tget d t n := by
  induction t with
  | nil => rfl
  | cons e t ih =>
    obtain ⟨j, w⟩ := e
    unfold tdel
    split
    · rename_i hj; subst hj; simp [tget, h, ih]
    · simp only [tget]; split <;> simp [ih]

/-- Every key of a table lies above a bound. -/
def above (n : Nat) (t : Tab α) : Bool := t.all fun e => decide (n < e.1)

theorem tsorted_cons (e : Nat × α) (t : Tab α) : tsorted (e :: t) = (above e.1 t && tsorted t) := by
  induction t generalizing e with
  | nil => rfl
  | cons x t ih =>
    obtain ⟨j, v⟩ := e
    obtain ⟨k, w⟩ := x
    simp only [tsorted]
    rw [ih]
    simp only [above, List.all_cons]
    by_cases h : j < k
    · simp only [h, decide_true, Bool.true_and]
      by_cases h2 : above k t = true
      · have : (t.all fun e => decide (j < e.1)) = true := by
          simp only [above, List.all_eq_true, decide_eq_true_eq] at h2 ⊢
          intro x hx; exact Nat.lt_trans h (h2 x hx)
        simp only [above] at h2
        simp [this, h2]
      · simp only [above] at h2
        simp only [Bool.not_eq_true] at h2
        simp [h2]
    · simp [h]

theorem above_tset {n k : Nat} (t : Tab α) (v : α) (h : n < k) (ht : above n t = true) : above n (tset t k v) = true := by
  induction t with
  | nil => simp [tset, above, h]
  | cons e t ih =>
    obtain ⟨j, w⟩ := e
    simp only [above, List.all_cons, Bool.and_eq_true, decide_eq_true_eq] at ht ih ⊢
    unfold tset
    split
    · simp [h, ht.1, ht.2]
    · split
      · simp [h, ht.2]
      · simp only [List.all_cons, Bool.and_eq_true, decide_eq_true_eq]; exact ⟨ht.1, ih ht.2⟩

theorem tsorted_tset (t : Tab α) (k : Nat) (v : α) (ht : tsorted t = true) : tsorted (tset t k v) = true := by
  induction t with
  | nil => rfl
  | cons e t ih =>
    obtain ⟨j, w⟩ := e
    have ht' := ht
    rw [tsorted_cons, Bool.and_eq_true] at ht
    unfold tset
    split
    · rename_i h
      rw [tsorted_cons, Bool.and_eq_true]
      refine ⟨?_, ht'⟩
      simp only [above, List.all_cons, Bool.and_eq_true, decide_eq_true_eq, List.all_eq_true]
      refine ⟨h, fun x hx => ?_⟩
      have := ht.1
      simp only [above, List.all_eq_true, decide_eq_true_eq] at this
      exact Nat.lt_trans h (this x hx)
    · split
      · rename_i h
        subst h
        rw [tsorted_cons, Bool.and_eq_true]; exact ht
      · rename_i h1 h2
        rw [tsorted_cons, Bool.and_eq_true]
        exact ⟨above_tset t v (by omega) ht.1, ih ht.2⟩

theorem above_tdel {n k : Nat} (t : Tab α) (ht : above n t = true) : above n (tdel t k) = true := by
  induction t with
  | nil => rfl
  | cons e t ih =>
    obtain ⟨j, w⟩ := e
    simp only [above, List.all_cons, Bool.and_eq_true, decide_eq_true_eq] at ht ih
    unfold tdel
    split
    · exact ih ht.2
    · simp only [above, List.all_cons, Bool.and_eq_true, decide_eq_true_eq]; exact ⟨ht.1, ih ht.2⟩

theorem tsorted_tdel (t : Tab α) (k : Nat) (ht : tsorted t = true) : tsorted (tdel t k) = true := by
  induction t with
  | nil => rfl
  | cons e t ih =>
    obtain ⟨j, w⟩ := e
    rw [tsorted_cons, Bool.and_eq_true] at ht
    unfold tdel
    split
    · exact ih ht.2
    · rw [tsorted_cons, Bool.and_eq_true]; exact ⟨above_tdel t ht.1, ih ht.2⟩

/-! ### Memories -/

theorem Memory.read_write (d : Byte) (m : Mem) (a b : Nat) (v : Byte) :
    Memory.read d (Memory.write d m a v) b = if b = a then v else Memory.read d m b := by
  unfold Memory.read Memory.write
  split
  · rename_i h
    by_cases hb : b = a
    · subst hb; simp [h]
    · simp [hb, tget_tdel_of_ne]
  · rw [tget_tset]

theorem all_tset {α : Type} (p : Nat × α → Bool) (m : Tab α) (a : Nat) (v : α) (hm : m.all p = true) (hv : p (a, v) = true) :
    (tset m a v).all p = true := by
  induction m with
  | nil => simp [tset, hv]
  | cons e m ih =>
    obtain ⟨j, w⟩ := e
    simp only [List.all_cons, Bool.and_eq_true] at hm
    unfold tset
    split
    · simp [hm.1, hm.2, hv]
    · split
      · simp [hm.2, hv]
      · simp [hm.1, ih hm.2]

theorem all_tdel (p : Nat × Byte → Bool) (m : Mem) (a : Nat) (hm : m.all p = true) : (tdel m a).all p = true := by
  induction m with
  | nil => rfl
  | cons e m ih =>
    obtain ⟨j, w⟩ := e
    simp only [List.all_cons, Bool.and_eq_true] at hm
    unfold tdel
    split
    · exact ih hm.2
    · simp [hm.1, ih hm.2]

/-- Writing a byte keeps the canonical form. -/
theorem Memory.wf_write (d : Byte) (m : Mem) (a : Nat) (v : Byte) (hm : Memory.wf d m = true) :
    Memory.wf d (Memory.write d m a v) = true := by
  unfold Memory.wf at hm ⊢
  rw [Bool.and_eq_true] at hm ⊢
  unfold Memory.write
  split
  · exact ⟨tsorted_tdel m a hm.1, all_tdel _ m a hm.2⟩
  · rename_i h
    exact ⟨tsorted_tset m a v hm.1, all_tset _ m a v hm.2 (by simp [h])⟩

/-- Writing bytes keeps the canonical form. -/
theorem Memory.wf_writeBytes (d : Byte) (m : Mem) (a : Nat) (bs : Bytes) (hm : Memory.wf d m = true) :
    Memory.wf d (Memory.writeBytes d m a bs) = true := by
  induction bs generalizing m a with
  | nil => exact hm
  | cons b bs ih => exact ih _ _ (Memory.wf_write d m a b hm)

theorem above_filter (n : Nat) (p : Nat × α → Bool) (t : Tab α) (ht : above n t = true) :
    above n (t.filter p) = true := by
  simp only [above, List.all_eq_true, decide_eq_true_eq] at ht ⊢
  intro x hx
  exact ht x (List.mem_filter.mp hx).1

theorem tsorted_filter (p : Nat × α → Bool) (t : Tab α) (ht : tsorted t = true) : tsorted (t.filter p) = true := by
  induction t with
  | nil => rfl
  | cons e t ih =>
    rw [tsorted_cons, Bool.and_eq_true] at ht
    rw [List.filter_cons]
    split
    · rw [tsorted_cons, Bool.and_eq_true]; exact ⟨above_filter _ p t ht.1, ih ht.2⟩
    · exact ih ht.2

/-- Clearing a range keeps the canonical form. -/
theorem Memory.wf_clear (d : Byte) (m : Mem) (a n : Nat) (hm : Memory.wf d m = true) :
    Memory.wf d (Memory.clear m a n) = true := by
  unfold Memory.wf Memory.clear at *
  rw [Bool.and_eq_true] at hm ⊢
  refine ⟨tsorted_filter _ m hm.1, ?_⟩
  simp only [List.all_eq_true] at hm ⊢
  intro x hx
  exact hm.2 x (List.mem_filter.mp hx).1

/-- Reading after writing a byte string elsewhere. -/
theorem Memory.read_writeBytes_outside (d : Byte) (m : Mem) (a b : Nat) (bs : Bytes)
    (h : b < a ∨ a + bs.length ≤ b) : Memory.read d (Memory.writeBytes d m a bs) b = Memory.read d m b := by
  induction bs generalizing m a with
  | nil => rfl
  | cons x bs ih =>
    simp only [List.length_cons] at h
    unfold Memory.writeBytes
    rw [ih _ _ (by omega), Memory.read_write, if_neg (by omega)]

/-- Bytes that agree at every address they name are the same string. -/
theorem Memory.readBytes_congr (d : Byte) (m n : Mem) (a k : Nat)
    (h : ∀ b, a ≤ b → b < a + k → Memory.read d m b = Memory.read d n b) :
    Memory.readBytes d m a k = Memory.readBytes d n a k := by
  induction k generalizing a with
  | zero => rfl
  | succ k ih =>
    unfold Memory.readBytes
    rw [h a (by omega) (by omega), ih (a + 1) fun b h1 h2 => h b (by omega) (by omega)]

/-- Reading a byte string back where it was written. -/
theorem Memory.readBytes_writeBytes (d : Byte) (m : Mem) (a : Nat) (bs : Bytes) :
    Memory.readBytes d (Memory.writeBytes d m a bs) a bs.length = bs := by
  induction bs generalizing m a with
  | nil => rfl
  | cons x bs ih =>
    rw [List.length_cons, Memory.writeBytes, Memory.readBytes,
      Memory.read_writeBytes_outside _ _ _ _ _ (by omega), Memory.read_write, if_pos rfl, ih]

end Sys2Proof.Machine
end

