-- ==== Sys2Proof/Laws/Firm.lean ====
section
/-!
SUPPORT. `Firm s t`: what every command but a reset keeps between a state and a later one. One lemma for each
operation of the machine stands in the files Laws/Firm*.lean.
-/
namespace Sys2Proof.Machine

/-- The waiting commands and the identity are the same, and the byte-addressed memories keep their canonical form. -/
structure Steady (s t : State) : Prop where
  pending : t.pending = s.pending
  ident : t.ident = s.ident
  mems : Mems s → Mems t

/-- Beside that, the measurement registers are the same, and FAULT is not left. -/
structure Firm (s t : State) : Prop extends Steady s t where
  meas : t.boot.meas = s.boot.meas
  idle : FaultIdle s → FaultIdle t
  fault : FaultIdle s → s.ctl.devState = .fault → t.ctl.devState = .fault

theorem Steady.refl (s : State) : Steady s s := ⟨rfl, rfl, id⟩

theorem Steady.trans {s t u : State} (h : Steady s t) (k : Steady t u) : Steady s u :=
  ⟨k.pending.trans h.pending, k.ident.trans h.ident, k.mems ∘ h.mems⟩

theorem Firm.refl (s : State) : Firm s s := ⟨Steady.refl s, rfl, id, fun _ => id⟩

theorem Firm.trans {s t u : State} (h : Firm s t) (k : Firm t u) : Firm s u :=
  ⟨h.toSteady.trans k.toSteady, k.meas.trans h.meas, k.idle ∘ h.idle, fun i f => k.fault (h.idle i) (h.fault i f)⟩

/-- An update that leaves alone all that `Firm` speaks of. -/
theorem Firm.mk' {s0 s : State} {ident ctl mbx rings boot clk src time lane fr tm up cls cap ast mem cip net pwr log inj
    pending} (hp : pending = s.pending) (hi : ident = s.ident) (hq : mbx.req = s.mbx.req)
    (hh : rings.hostMem = s.rings.hostMem) (hf : boot.flash = s.boot.flash) (hc : cap.store = s.cap.store)
    (ha : ast.cores = s.ast.cores) (hm : boot.meas = s.boot.meas) (hd : ctl.devState = s.ctl.devState)
    (he : pwr.entry = s.pwr.entry) (h : Firm s0 s) :
    Firm s0 (State.mk ident ctl mbx rings boot clk src time lane fr tm up cls cap ast mem cip net pwr log inj pending) := by
  refine h.trans ⟨⟨hp, hi, ?_⟩, hm, ?_, ?_⟩
  · rintro ⟨h1, h2, h3, h4, h5⟩
    exact ⟨hq ▸ h1, hh ▸ h2, hf ▸ h3, hc ▸ h4, ha ▸ h5⟩
  · intro i
    unfold FaultIdle at *
    simp only [hd, he]
    exact i
  · intro _ f
    simp only [hd]
    exact f

/-- The same where memories are written. -/
theorem Firm.mkMems {s0 s : State} {ident ctl mbx rings boot clk src time lane fr tm up cls cap ast mem cip net pwr log inj
    pending} (hp : pending = s.pending) (hi : ident = s.ident)
    (hq : Memory.wf 0 s.mbx.req = true → Memory.wf 0 mbx.req = true)
    (hh : Memory.wf 0 s.rings.hostMem = true → Memory.wf 0 rings.hostMem = true)
    (hf : Memory.wf 0xFF s.boot.flash = true → Memory.wf 0xFF boot.flash = true)
    (hc : Memory.wf 0 s.cap.store = true → Memory.wf 0 cap.store = true)
    (ha : s.ast.cores.all (fun e => coreMems e.2) = true → ast.cores.all (fun e => coreMems e.2) = true)
    (hm : boot.meas = s.boot.meas) (hd : ctl.devState = s.ctl.devState) (he : pwr.entry = s.pwr.entry)
    (h : Firm s0 s) :
    Firm s0 (State.mk ident ctl mbx rings boot clk src time lane fr tm up cls cap ast mem cip net pwr log inj pending) := by
  refine h.trans ⟨⟨hp, hi, ?_⟩, hm, ?_, ?_⟩
  · rintro ⟨h1, h2, h3, h4, h5⟩
    exact ⟨hq h1, hh h2, hf h3, hc h4, ha h5⟩
  · intro i
    unfold FaultIdle at *
    simp only [hd, he]
    exact i
  · intro _ f
    simp only [hd]
    exact f

/-- An update to a device state in which a power-state entry may be under way. -/
theorem Firm.mkGoing {s0 s : State} {ident ctl mbx rings boot clk src time lane fr tm up cls cap ast mem cip net pwr log
    inj pending} (hp : pending = s.pending) (hi : ident = s.ident) (hq : mbx.req = s.mbx.req)
    (hh : rings.hostMem = s.rings.hostMem) (hf : boot.flash = s.boot.flash) (hc : cap.store = s.cap.store)
    (ha : ast.cores = s.ast.cores) (hm : boot.meas = s.boot.meas)
    (hd : FaultIdle s0 → ¬(ctl.devState = .fault ∨ ctl.devState = .boot ∨ ctl.devState = .still))
    (hn : FaultIdle s0 → s0.ctl.devState ≠ .fault) (h : Firm s0 s) :
    Firm s0 (State.mk ident ctl mbx rings boot clk src time lane fr tm up cls cap ast mem cip net pwr log inj pending) := by
  refine ⟨⟨hp.trans h.pending, hi.trans h.ident, fun m => ?_⟩, hm.trans h.meas, fun i q => absurd q (hd i),
    fun i f => absurd f (hn i)⟩
  obtain ⟨h1, h2, h3, h4, h5⟩ := h.mems m
  exact ⟨hq ▸ h1, hh ▸ h2, hf ▸ h3, hc ▸ h4, ha ▸ h5⟩

/-- An update after which no power-state entry is under way, and that is in FAULT where the first state was. -/
theorem Firm.mkNone {s0 s : State} {ident ctl mbx rings boot clk src time lane fr tm up cls cap ast mem cip net pwr log
    inj pending} (hp : pending = s.pending) (hi : ident = s.ident) (hq : mbx.req = s.mbx.req)
    (hh : rings.hostMem = s.rings.hostMem) (hf : boot.flash = s.boot.flash) (hc : cap.store = s.cap.store)
    (ha : ast.cores = s.ast.cores) (hm : boot.meas = s.boot.meas) (he : FaultIdle s0 → pwr.entry = none)
    (hn : FaultIdle s0 → s0.ctl.devState = .fault → ctl.devState = .fault) (h : Firm s0 s) :
    Firm s0 (State.mk ident ctl mbx rings boot clk src time lane fr tm up cls cap ast mem cip net pwr log inj pending) := by
  refine ⟨⟨hp.trans h.pending, hi.trans h.ident, fun m => ?_⟩, hm.trans h.meas, fun i _ => he i,
    hn⟩
  obtain ⟨h1, h2, h3, h4, h5⟩ := h.mems m
  exact ⟨hq ▸ h1, hh ▸ h2, hf ▸ h3, hc ▸ h4, ha ▸ h5⟩

/-- While a power-state entry is under way the device is in no state that has none. -/
theorem Firm.going {s0 s : State} (h : Firm s0 s) (he : s.pwr.entry ≠ none) (i : FaultIdle s0) :
    ¬(s.ctl.devState = .fault ∨ s.ctl.devState = .boot ∨ s.ctl.devState = .still) := fun q => he (h.idle i q)

theorem Firm.notFault {s0 s : State} (h : Firm s0 s) (he : s.pwr.entry ≠ none) (i : FaultIdle s0) :
    s0.ctl.devState ≠ .fault := fun q => he (h.idle i (.inl (h.fault i q)))

theorem Firm.notFaultOf {s0 s : State} (h : Firm s0 s) (hd : s.ctl.devState ≠ .fault) (i : FaultIdle s0) :
    s0.ctl.devState ≠ .fault := fun f => hd (h.fault i f)

theorem Firm.ite {s0 a b : State} {c : Prop} [Decidable c] (ha : Firm s0 a) (hb : Firm s0 b) :
    Firm s0 (if c then a else b) := by
  split <;> assumption

/-- A fold of steps each of which is firm. -/
theorem Firm.foldl {α : Type} {s0 s : State} {f : State → α → State} {l : List α} (h : Firm s0 s)
    (hf : ∀ x a, Firm s0 x → Firm s0 (f x a)) : Firm s0 (l.foldl f s) := by
  induction l generalizing s with
  | nil => exact h
  | cons a l ih => exact ih (hf _ _ h)

/-- A fold that carries something beside the state. -/
theorem Firm.foldl_snd {α β : Type} {s0 : State} {b : β × State} {f : β × State → α → β × State} {l : List α}
    (h : Firm s0 b.2) (hf : ∀ x a, Firm s0 x.2 → Firm s0 (f x a).2) : Firm s0 (l.foldl f b).2 := by
  induction l generalizing b with
  | nil => exact h
  | cons a l ih => exact ih (hf _ _ h)

theorem Firm.ite_snd {β : Type} {s0 : State} {a b : β × State} {c : Prop} [Decidable c] (ha : Firm s0 a.2)
    (hb : Firm s0 b.2) : Firm s0 (if c then a else b).2 := by
  split <;> assumption

theorem Firm.opt {s0 : State} {o : Option State} {s : State} (h : Firm s0 s) (ho : ∀ t, o = some t → Firm s0 t) :
    Firm s0 (o.getD s) := by
  cases o with
  | none => exact h
  | some t => exact ho t rfl

/-- What a served command leaves of the state, before its response. -/
def servedState : Served → State
  | .done s _ _ => s
  | .later s => s

/-- A firm outcome: the next state, if there is one, is firm. -/
def FirmOut (s0 : State) : Host.Outcome State Fault Refusal → Prop
  | .next t => Firm s0 t
  | .fault _ => True
  | .refused _ => True

theorem FirmOut.next {s0 t : State} (h : Firm s0 t) : FirmOut s0 (.next t) := h

theorem FirmOut.ite {s0 : State} {a b : Host.Outcome State Fault Refusal} {c : Prop} [Decidable c] (ha : FirmOut s0 a)
    (hb : FirmOut s0 b) : FirmOut s0 (if c then a else b) := by
  split <;> assumption

theorem Firm.ok {s0 s : State} (h : Firm s0 s) : Firm s0 (servedState (ok s)) := h
theorem Firm.okWith {s0 s : State} {p : Bytes} (h : Firm s0 s) : Firm s0 (servedState (okWith p s)) := h
theorem Firm.fail {s0 s : State} {st : Nat} (h : Firm s0 s) : Firm s0 (servedState (fail st s)) := h
theorem Firm.conflict {s0 s : State} {a b c : Nat} (h : Firm s0 s) : Firm s0 (servedState (conflict a b c s)) := h
theorem Firm.done {s0 s : State} {st : Nat} {p : Bytes} (h : Firm s0 s) : Firm s0 (servedState (.done s st p)) := h
theorem Firm.later {s0 s : State} (h : Firm s0 s) : Firm s0 (servedState (.later s)) := h
theorem Firm.served_ite {s0 : State} {a b : Served} {c : Prop} [Decidable c] (ha : Firm s0 (servedState a))
    (hb : Firm s0 (servedState b)) : Firm s0 (servedState (if c then a else b)) := by
  split <;> assumption

end Sys2Proof.Machine
end

