-- ==== Sys2Proof/Laws/FirmOps.lean ====
section
/-!
SUPPORT. What the operations of Machine/Ops.lean keep (`Firm`).
-/
set_option Elab.async false
set_option linter.unusedTactic false
set_option linter.unreachableTactic false
set_option linter.unusedVariables false
namespace Sys2Proof.Machine

theorem State.modCtl_firm {s0 s : State} {f : Ctl → Ctl} (h : Firm s0 s) (hf : ∀ c, (f c).devState = c.devState) :
    Firm s0 (s.modCtl f) :=
  Firm.mk' rfl rfl rfl rfl rfl rfl rfl rfl (hf _) rfl h

theorem emit_firm {s0 s : State} {o : Out} (h : Firm s0 s) : Firm s0 (emit o s) := by
  unfold emit
  try dsimp only
  repeat' first
    | with_reducible assumption
    | with_reducible apply Firm.ite
    | with_reducible apply Firm.foldl
    | with_reducible apply Firm.ite_snd
    | with_reducible apply Firm.foldl_snd
    | with_reducible apply State.modCtl_firm
    | (refine Firm.mk' rfl rfl rfl rfl rfl rfl rfl rfl rfl rfl ?_
       first
         | with_reducible assumption
         | with_reducible apply Firm.ite
         | with_reducible apply Firm.foldl
         | with_reducible apply Firm.ite_snd
         | with_reducible apply Firm.foldl_snd
         | with_reducible apply State.modCtl_firm
         | split)
    | (intro x a hx)
    | (intro c; rfl)
    | (intro x hx; exact hx)
    | (intro x hx)
    | (intro x)
    | split
    | dsimp only

theorem answerWords_firm {s0 s : State} {ws : List Word} (h : Firm s0 s) : Firm s0 (answerWords ws s) := by
  unfold answerWords
  try dsimp only
  repeat' first
    | with_reducible assumption
    | with_reducible apply Firm.ite
    | with_reducible apply Firm.foldl
    | with_reducible apply Firm.ite_snd
    | with_reducible apply Firm.foldl_snd
    | with_reducible apply State.modCtl_firm
    | (refine Firm.mk' rfl rfl rfl rfl rfl rfl rfl rfl rfl rfl ?_
       first
         | with_reducible assumption
         | with_reducible apply Firm.ite
         | with_reducible apply Firm.foldl
         | with_reducible apply Firm.ite_snd
         | with_reducible apply Firm.foldl_snd
         | with_reducible apply State.modCtl_firm
         | split)
    | (intro x a hx)
    | (intro c; rfl)
    | (intro x hx; exact hx)
    | (intro x hx)
    | (intro x)
    | split
    | dsimp only

theorem drawFree_firm {s0 s : State} (h : Firm s0 s) : Firm s0 (drawFree s).2 := by
  unfold drawFree
  try dsimp only
  repeat' first
    | with_reducible assumption
    | with_reducible apply Firm.ite
    | with_reducible apply Firm.foldl
    | with_reducible apply Firm.ite_snd
    | with_reducible apply Firm.foldl_snd
    | with_reducible apply State.modCtl_firm
    | (refine Firm.mk' rfl rfl rfl rfl rfl rfl rfl rfl rfl rfl ?_
       first
         | with_reducible assumption
         | with_reducible apply Firm.ite
         | with_reducible apply Firm.foldl
         | with_reducible apply Firm.ite_snd
         | with_reducible apply Firm.foldl_snd
         | with_reducible apply State.modCtl_firm
         | split)
    | (intro x a hx)
    | (intro c; rfl)
    | (intro x hx; exact hx)
    | (intro x hx)
    | (intro x)
    | split
    | dsimp only

theorem drawDrbg_firm {s0 s : State} (h : Firm s0 s) : Firm s0 (drawDrbg s).2 := by
  unfold drawDrbg
  try dsimp only
  repeat' first
    | with_reducible assumption
    | with_reducible apply Firm.ite
    | with_reducible apply Firm.foldl
    | with_reducible apply Firm.ite_snd
    | with_reducible apply Firm.foldl_snd
    | (refine Firm.mk' rfl rfl rfl rfl rfl rfl rfl rfl rfl rfl ?_
       first
         | with_reducible assumption
         | with_reducible apply Firm.ite
         | with_reducible apply Firm.foldl
         | with_reducible apply Firm.ite_snd
         | with_reducible apply Firm.foldl_snd
         | split)
    | (intro x a hx)
    | (intro c; rfl)
    | (intro x hx; exact hx)
    | (intro x hx)
    | (intro x)
    | split
    | dsimp only

theorem modChan_firm {s0 s : State} {n : Nat} {f : Chan → Chan} (h : Firm s0 s) : Firm s0 (modChan n f s) := by
  unfold modChan
  try dsimp only
  repeat' first
    | with_reducible assumption
    | with_reducible apply Firm.ite
    | with_reducible apply Firm.foldl
    | with_reducible apply Firm.ite_snd
    | with_reducible apply Firm.foldl_snd
    | (refine Firm.mk' rfl rfl rfl rfl rfl rfl rfl rfl rfl rfl ?_
       first
         | with_reducible assumption
         | with_reducible apply Firm.ite
         | with_reducible apply Firm.foldl
         | with_reducible apply Firm.ite_snd
         | with_reducible apply Firm.foldl_snd
         | split)
    | (intro x a hx)
    | (intro c; rfl)
    | (intro x hx; exact hx)
    | (intro x hx)
    | (intro x)
    | split
    | dsimp only

theorem modRing_firm {s0 s : State} {n : Nat} {f : Ring → Ring} (h : Firm s0 s) : Firm s0 (modRing n f s) := by
  unfold modRing
  try dsimp only
  repeat' first
    | with_reducible assumption
    | with_reducible apply Firm.ite
    | with_reducible apply Firm.foldl
    | with_reducible apply Firm.ite_snd
    | with_reducible apply Firm.foldl_snd
    | (refine Firm.mk' rfl rfl rfl rfl rfl rfl rfl rfl rfl rfl ?_
       first
         | with_reducible assumption
         | with_reducible apply Firm.ite
         | with_reducible apply Firm.foldl
         | with_reducible apply Firm.ite_snd
         | with_reducible apply Firm.foldl_snd
         | split)
    | (intro x a hx)
    | (intro c; rfl)
    | (intro x hx; exact hx)
    | (intro x hx)
    | (intro x)
    | split
    | dsimp only

theorem hostWrite_firm {s0 s : State} {a : Nat} {bs : Bytes} (h : Firm s0 s) : Firm s0 (hostWrite a bs s) := by
  refine h.trans ⟨⟨rfl, rfl, ?_⟩, rfl, id, fun _ => id⟩
  rintro ⟨h1, h2, h3, h4, h5⟩
  exact ⟨h1, Memory.wf_writeBytes 0 _ a bs h2, h3, h4, h5⟩

theorem signal_firm {s0 s : State} {v : Nat} (h : Firm s0 s) : Firm s0 (signal v s) := by
  unfold signal
  try dsimp only
  repeat' first
    | with_reducible assumption
    | with_reducible apply Firm.ite
    | with_reducible apply Firm.foldl
    | with_reducible apply Firm.ite_snd
    | with_reducible apply Firm.foldl_snd
    | with_reducible apply emit_firm
    | (refine Firm.mk' rfl rfl rfl rfl rfl rfl rfl rfl rfl rfl ?_
       first
         | with_reducible assumption
         | with_reducible apply Firm.ite
         | with_reducible apply Firm.foldl
         | with_reducible apply Firm.ite_snd
         | with_reducible apply Firm.foldl_snd
         | with_reducible apply emit_firm
         | split)
    | (intro x a hx)
    | (intro c; rfl)
    | (intro x hx; exact hx)
    | (intro x hx)
    | (intro x)
    | split
    | dsimp only

theorem loseEvent_firm {s0 s : State} (h : Firm s0 s) : Firm s0 (loseEvent s) := by
  unfold loseEvent
  try dsimp only
  repeat' first
    | with_reducible assumption
    | with_reducible apply Firm.ite
    | with_reducible apply Firm.foldl
    | with_reducible apply Firm.ite_snd
    | with_reducible apply Firm.foldl_snd
    | with_reducible apply modRing_firm
    | (refine Firm.mk' rfl rfl rfl rfl rfl rfl rfl rfl rfl rfl ?_
       first
         | with_reducible assumption
         | with_reducible apply Firm.ite
         | with_reducible apply Firm.foldl
         | with_reducible apply Firm.ite_snd
         | with_reducible apply Firm.foldl_snd
         | with_reducible apply modRing_firm
         | split)
    | (intro x a hx)
    | (intro c; rfl)
    | (intro x hx; exact hx)
    | (intro x hx)
    | (intro x)
    | split
    | dsimp only

theorem writeEntry_firm {s0 s : State} {e : Event} (h : Firm s0 s) : Firm s0 (writeEntry e s) := by
  unfold writeEntry
  try dsimp only
  repeat' first
    | with_reducible assumption
    | with_reducible apply Firm.ite
    | with_reducible apply Firm.foldl
    | with_reducible apply Firm.ite_snd
    | with_reducible apply Firm.foldl_snd
    | with_reducible apply hostWrite_firm
    | with_reducible apply modRing_firm
    | with_reducible apply signal_firm
    | (refine Firm.mk' rfl rfl rfl rfl rfl rfl rfl rfl rfl rfl ?_
       first
         | with_reducible assumption
         | with_reducible apply Firm.ite
         | with_reducible apply Firm.foldl
         | with_reducible apply Firm.ite_snd
         | with_reducible apply Firm.foldl_snd
         | with_reducible apply hostWrite_firm
         | with_reducible apply modRing_firm
         | with_reducible apply signal_firm
         | split)
    | (intro x a hx)
    | (intro c; rfl)
    | (intro x hx; exact hx)
    | (intro x hx)
    | (intro x)
    | split
    | dsimp only

theorem flushEvents_firm {s0 s : State} (h : Firm s0 s) : Firm s0 (flushEvents s) := by
  unfold flushEvents
  try dsimp only
  repeat' first
    | with_reducible assumption
    | with_reducible apply Firm.ite
    | with_reducible apply Firm.foldl
    | with_reducible apply Firm.ite_snd
    | with_reducible apply Firm.foldl_snd
    | with_reducible apply writeEntry_firm
    | (refine Firm.mk' rfl rfl rfl rfl rfl rfl rfl rfl rfl rfl ?_
       first
         | with_reducible assumption
         | with_reducible apply Firm.ite
         | with_reducible apply Firm.foldl
         | with_reducible apply Firm.ite_snd
         | with_reducible apply Firm.foldl_snd
         | with_reducible apply writeEntry_firm
         | split)
    | (intro x a hx)
    | (intro c; rfl)
    | (intro x hx; exact hx)
    | (intro x hx)
    | (intro x)
    | split
    | dsimp only

theorem holdEvent_firm {s0 s : State} {e : Event} (h : Firm s0 s) : Firm s0 (holdEvent e s) := by
  unfold holdEvent
  try dsimp only
  repeat' first
    | with_reducible assumption
    | with_reducible apply Firm.ite
    | with_reducible apply Firm.foldl
    | with_reducible apply Firm.ite_snd
    | with_reducible apply Firm.foldl_snd
    | with_reducible apply loseEvent_firm
    | (refine Firm.mk' rfl rfl rfl rfl rfl rfl rfl rfl rfl rfl ?_
       first
         | with_reducible assumption
         | with_reducible apply Firm.ite
         | with_reducible apply Firm.foldl
         | with_reducible apply Firm.ite_snd
         | with_reducible apply Firm.foldl_snd
         | with_reducible apply loseEvent_firm
         | split)
    | (intro x a hx)
    | (intro c; rfl)
    | (intro x hx; exact hx)
    | (intro x hx)
    | (intro x)
    | split
    | dsimp only

theorem postEvent_firm {s0 s : State} {e : Event} (h : Firm s0 s) : Firm s0 (postEvent e s) := by
  unfold postEvent
  try dsimp only
  repeat' first
    | with_reducible assumption
    | with_reducible apply Firm.ite
    | with_reducible apply Firm.foldl
    | with_reducible apply Firm.ite_snd
    | with_reducible apply Firm.foldl_snd
    | with_reducible apply flushEvents_firm
    | with_reducible apply holdEvent_firm
    | with_reducible apply loseEvent_firm
    | with_reducible apply writeEntry_firm
    | (refine Firm.mk' rfl rfl rfl rfl rfl rfl rfl rfl rfl rfl ?_
       first
         | with_reducible assumption
         | with_reducible apply Firm.ite
         | with_reducible apply Firm.foldl
         | with_reducible apply Firm.ite_snd
         | with_reducible apply Firm.foldl_snd
         | with_reducible apply flushEvents_firm
         | with_reducible apply holdEvent_firm
         | with_reducible apply loseEvent_firm
         | with_reducible apply writeEntry_firm
         | split)
    | (intro x a hx)
    | (intro c; rfl)
    | (intro x hx; exact hx)
    | (intro x hx)
    | (intro x)
    | split
    | dsimp only

theorem recordEvent_firm {s0 s : State} {inj : Bool} {only : Bool} {e : Event} (h : Firm s0 s) : Firm s0 (recordEvent inj only e s) := by
  unfold recordEvent
  try dsimp only
  repeat' first
    | with_reducible assumption
    | with_reducible apply Firm.ite
    | with_reducible apply Firm.foldl
    | with_reducible apply Firm.ite_snd
    | with_reducible apply Firm.foldl_snd
    | with_reducible apply postEvent_firm
    | (refine Firm.mk' rfl rfl rfl rfl rfl rfl rfl rfl rfl rfl ?_
       first
         | with_reducible assumption
         | with_reducible apply Firm.ite
         | with_reducible apply Firm.foldl
         | with_reducible apply Firm.ite_snd
         | with_reducible apply Firm.foldl_snd
         | with_reducible apply postEvent_firm
         | split)
    | (intro x a hx)
    | (intro c; rfl)
    | (intro x hx; exact hx)
    | (intro x hx)
    | (intro x)
    | split
    | dsimp only

theorem raiseWith_firm {s0 s : State} {inj : Bool} {code : Nat} {obj : Nat} {args : Bytes} {cause : Option Cause} (h : Firm s0 s) : Firm s0 (raiseWith inj code obj args cause s) := by
  unfold raiseWith
  try dsimp only
  repeat' first
    | with_reducible assumption
    | with_reducible apply Firm.ite
    | with_reducible apply Firm.foldl
    | with_reducible apply Firm.ite_snd
    | with_reducible apply Firm.foldl_snd
    | with_reducible apply postEvent_firm
    | with_reducible apply recordEvent_firm
    | (refine Firm.mk' rfl rfl rfl rfl rfl rfl rfl rfl rfl rfl ?_
       first
         | with_reducible assumption
         | with_reducible apply Firm.ite
         | with_reducible apply Firm.foldl
         | with_reducible apply Firm.ite_snd
         | with_reducible apply Firm.foldl_snd
         | with_reducible apply postEvent_firm
         | with_reducible apply recordEvent_firm
         | split)
    | (intro x a hx)
    | (intro c; rfl)
    | (intro x hx; exact hx)
    | (intro x hx)
    | (intro x)
    | split
    | dsimp only

theorem raise_firm {s0 s : State} {code : Nat} {obj : Nat} {args : Bytes} {cause : Option Cause} (h : Firm s0 s) : Firm s0 (raise code obj args cause s) := by
  unfold raise
  try dsimp only
  repeat' first
    | with_reducible assumption
    | with_reducible apply Firm.ite
    | with_reducible apply Firm.foldl
    | with_reducible apply Firm.ite_snd
    | with_reducible apply Firm.foldl_snd
    | with_reducible apply raiseWith_firm
    | (refine Firm.mk' rfl rfl rfl rfl rfl rfl rfl rfl rfl rfl ?_
       first
         | with_reducible assumption
         | with_reducible apply Firm.ite
         | with_reducible apply Firm.foldl
         | with_reducible apply Firm.ite_snd
         | with_reducible apply Firm.foldl_snd
         | with_reducible apply raiseWith_firm
         | split)
    | (intro x a hx)
    | (intro c; rfl)
    | (intro x hx; exact hx)
    | (intro x hx)
    | (intro x)
    | split
    | dsimp only

theorem logOnly_firm {s0 s : State} {inj : Bool} {code : Nat} {obj : Nat} {args : Bytes} (h : Firm s0 s) : Firm s0 (logOnly inj code obj args s) := by
  unfold logOnly
  try dsimp only
  repeat' first
    | with_reducible assumption
    | with_reducible apply Firm.ite
    | with_reducible apply Firm.foldl
    | with_reducible apply Firm.ite_snd
    | with_reducible apply Firm.foldl_snd
    | with_reducible apply recordEvent_firm
    | (refine Firm.mk' rfl rfl rfl rfl rfl rfl rfl rfl rfl rfl ?_
       first
         | with_reducible assumption
         | with_reducible apply Firm.ite
         | with_reducible apply Firm.foldl
         | with_reducible apply Firm.ite_snd
         | with_reducible apply Firm.foldl_snd
         | with_reducible apply recordEvent_firm
         | split)
    | (intro x a hx)
    | (intro c; rfl)
    | (intro x hx; exact hx)
    | (intro x hx)
    | (intro x)
    | split
    | dsimp only

/-- A transition between device states, neither of which is FAULT, to one in which an entry may be under way. -/
theorem setDevState_firm {s0 s : State} {d : DevState} {c : Option Cause} (h : Firm s0 s)
    (hs : FaultIdle s0 → s0.ctl.devState ≠ .fault) (hd : ¬(d = .fault ∨ d = .boot ∨ d = .still)) :
    Firm s0 (setDevState d c s) := by
  unfold setDevState
  dsimp only
  apply raise_firm
  exact Firm.mkGoing rfl rfl rfl rfl rfl rfl rfl rfl (fun _ => hd) hs h

/-- A transition while no power-state entry is under way. -/
theorem setDevState_none_firm {s0 s : State} {d : DevState} {c : Option Cause} (h : Firm s0 s)
    (he : FaultIdle s0 → s.pwr.entry = none) (hn : FaultIdle s0 → s0.ctl.devState = .fault → d = .fault) :
    Firm s0 (setDevState d c s) := by
  unfold setDevState
  dsimp only
  apply raise_firm
  exact Firm.mkNone rfl rfl rfl rfl rfl rfl rfl rfl he hn h

theorem injEvent_firm {s0 s : State} {i : Nat} (h : Firm s0 s) : Firm s0 (injEvent i s) := by
  unfold injEvent
  try dsimp only
  repeat' first
    | with_reducible assumption
    | with_reducible apply Firm.ite
    | with_reducible apply Firm.foldl
    | with_reducible apply Firm.ite_snd
    | with_reducible apply Firm.foldl_snd
    | with_reducible apply raiseWith_firm
    | (refine Firm.mk' rfl rfl rfl rfl rfl rfl rfl rfl rfl rfl ?_
       first
         | with_reducible assumption
         | with_reducible apply Firm.ite
         | with_reducible apply Firm.foldl
         | with_reducible apply Firm.ite_snd
         | with_reducible apply Firm.foldl_snd
         | with_reducible apply raiseWith_firm
         | split)
    | (intro x a hx)
    | (intro c; rfl)
    | (intro x hx; exact hx)
    | (intro x hx)
    | (intro x)
    | split
    | dsimp only

theorem occurrence_firm {s0 s : State} {det : Nat} {target : Nat} (h : Firm s0 s) : Firm s0 (occurrence det target s).2 := by
  unfold occurrence
  try dsimp only
  repeat' first
    | with_reducible assumption
    | with_reducible apply Firm.ite
    | with_reducible apply Firm.foldl
    | with_reducible apply Firm.ite_snd
    | with_reducible apply Firm.foldl_snd
    | with_reducible apply injEvent_firm
    | (refine Firm.mk' rfl rfl rfl rfl rfl rfl rfl rfl rfl rfl ?_
       first
         | with_reducible assumption
         | with_reducible apply Firm.ite
         | with_reducible apply Firm.foldl
         | with_reducible apply Firm.ite_snd
         | with_reducible apply Firm.foldl_snd
         | with_reducible apply injEvent_firm
         | split)
    | (intro x a hx)
    | (intro c; rfl)
    | (intro x hx; exact hx)
    | (intro x hx)
    | (intro x)
    | split
    | dsimp only

end Sys2Proof.Machine
end

