-- ==== Sys2Proof/Laws/FirmOperands.lean ====
section
/-!
SUPPORT. What the operations of Machine/Operands.lean keep (`Firm`).
-/
set_option Elab.async false
set_option linter.unusedTactic false
set_option linter.unreachableTactic false
set_option linter.unusedVariables false
namespace Sys2Proof.Machine

theorem takeUp_firm {s0 s : State} {r : Req} (h : Firm s0 s) : Firm s0 (takeUp r s) := by
  unfold takeUp
  try dsimp only
  repeat' first
    | with_reducible assumption
    | with_reducible apply Firm.ite
    | with_reducible apply Firm.foldl
    | with_reducible apply Firm.ite_snd
    | with_reducible apply Firm.foldl_snd
    | with_reducible apply modChan_firm
    | with_reducible apply State.modCtl_firm
    | (refine Firm.mk' rfl rfl rfl rfl rfl rfl rfl rfl rfl rfl ?_
       first
         | with_reducible assumption
         | with_reducible apply Firm.ite
         | with_reducible apply Firm.foldl
         | with_reducible apply Firm.ite_snd
         | with_reducible apply Firm.foldl_snd
         | with_reducible apply modChan_firm
         | with_reducible apply State.modCtl_firm
         | split)
    | (intro x a hx)
    | (intro c; rfl)
    | (intro x hx; exact hx)
    | (intro x hx)
    | (intro x)
    | split
    | dsimp only

theorem postResponse_firm {s0 s : State} {e : Exec} {status : Nat} {payload : Bytes} (h : Firm s0 s) : Firm s0 (postResponse e status payload s) := by
  unfold postResponse
  try dsimp only
  repeat' first
    | with_reducible assumption
    | with_reducible apply Firm.ite
    | with_reducible apply Firm.foldl
    | with_reducible apply Firm.ite_snd
    | with_reducible apply Firm.foldl_snd
    | with_reducible apply modChan_firm
    | with_reducible apply signal_firm
    | (refine Firm.mk' rfl rfl rfl rfl rfl rfl rfl rfl rfl rfl ?_
       first
         | with_reducible assumption
         | with_reducible apply Firm.ite
         | with_reducible apply Firm.foldl
         | with_reducible apply Firm.ite_snd
         | with_reducible apply Firm.foldl_snd
         | with_reducible apply modChan_firm
         | with_reducible apply signal_firm
         | split)
    | (intro x a hx)
    | (intro c; rfl)
    | (intro x hx; exact hx)
    | (intro x hx)
    | (intro x)
    | split
    | dsimp only

theorem finishLater_firm {s0 s : State} {status : Nat} {payload : Bytes} (h : Firm s0 s) : Firm s0 (finishLater status payload s) := by
  unfold finishLater
  try dsimp only
  repeat' first
    | with_reducible assumption
    | with_reducible apply Firm.ite
    | with_reducible apply Firm.foldl
    | with_reducible apply Firm.ite_snd
    | with_reducible apply Firm.foldl_snd
    | with_reducible apply postResponse_firm
    | with_reducible apply State.modCtl_firm
    | (refine Firm.mk' rfl rfl rfl rfl rfl rfl rfl rfl rfl rfl ?_
       first
         | with_reducible assumption
         | with_reducible apply Firm.ite
         | with_reducible apply Firm.foldl
         | with_reducible apply Firm.ite_snd
         | with_reducible apply Firm.foldl_snd
         | with_reducible apply postResponse_firm
         | with_reducible apply State.modCtl_firm
         | split)
    | (intro x a hx)
    | (intro c; rfl)
    | (intro x hx; exact hx)
    | (intro x hx)
    | (intro x)
    | split
    | dsimp only

theorem noteChecksum_firm {s0 s : State} {bad : Bool} {r : Req} (h : Firm s0 s) : Firm s0 (noteChecksum bad r s) := by
  unfold noteChecksum
  try dsimp only
  repeat' first
    | with_reducible assumption
    | with_reducible apply Firm.ite
    | with_reducible apply Firm.foldl
    | with_reducible apply Firm.ite_snd
    | with_reducible apply Firm.foldl_snd
    | with_reducible apply modChan_firm
    | (refine Firm.mk' rfl rfl rfl rfl rfl rfl rfl rfl rfl rfl ?_
       first
         | with_reducible assumption
         | with_reducible apply Firm.ite
         | with_reducible apply Firm.foldl
         | with_reducible apply Firm.ite_snd
         | with_reducible apply Firm.foldl_snd
         | with_reducible apply modChan_firm
         | split)
    | (intro x a hx)
    | (intro c; rfl)
    | (intro x hx; exact hx)
    | (intro x hx)
    | (intro x)
    | split
    | dsimp only

theorem conclude_firm {s0 : State} {r : Req} {v : Served} (h : Firm s0 (servedState v)) : Firm s0 (conclude r v) := by
  cases v with
  | done t st p => exact (postResponse_firm (s := t) h : Firm s0 (postResponse (reqExec r) st p t))
  | later t =>
    exact (State.modCtl_firm (s := t) h (fun _ => rfl) : Firm s0 (t.modCtl fun c => { c with exec := some (reqExec r) }))

/-- A served command is firm when its own effect is, in a device state in which the command is legal. -/
theorem serve_firm {s0 s : State} {c : CmdSpec} {act : Req → State → Served} (h : Firm s0 s)
    (ha : ∀ r x, Firm s0 x → c.legal x.ctl.devState = true → Firm s0 (servedState (act r x))) :
    Firm s0 (serve c act s) := by
  unfold serve
  split
  · exact h
  · dsimp only
    split
    · exact h
    · split
      · exact postResponse_firm (noteChecksum_firm (takeUp_firm (occurrence_firm h)))
      · rename_i hf
        refine conclude_firm (ha _ _ (noteChecksum_firm (takeUp_firm (occurrence_firm h))) ?_)
        unfold firstFailure at hf
        by_contra hl
        simp only [Bool.not_eq_true] at hl
        simp only [hl, Bool.not_false, if_true] at hf
        repeat' split at hf
        all_goals simp at hf

end Sys2Proof.Machine
end

