-- ==== Sys2Proof/Laws/FirmRecorder.lean ====
section
/-!
SUPPORT. What the operations of Machine/Recorder.lean keep (`Firm`).
-/
set_option Elab.async false
set_option linter.unusedTactic false
set_option linter.unreachableTactic false
set_option linter.unusedVariables false
namespace Sys2Proof.Machine

theorem modLog_firm {s0 s : State} {f : Recorder → Recorder} (h : Firm s0 s) : Firm s0 (modLog f s) := by
  unfold modLog
  try dsimp only
  repeat' first
    | with_reducible assumption
    | with_reducible apply Firm.ite
    | with_reducible apply Firm.foldl
    | with_reducible apply Firm.ite_snd
    | with_reducible apply Firm.foldl_snd
    | (refine Firm.mk' rfl rfl rfl rfl rfl rfl rfl rfl rfl rfl ?_
       first
         | with_reducible assumption
         | with_reducible apply Firm.ite
         | with_reducible apply Firm.foldl
         | with_reducible apply Firm.ite_snd
         | with_reducible apply Firm.foldl_snd
         | split)
    | (intro x a hx)
    | (intro c; rfl)
    | (intro x hx; exact hx)
    | (intro x hx)
    | (intro x)
    | split
    | dsimp only

theorem execRecordProgrammed_firm {s : State}  : FirmOut s (execRecordProgrammed s) := by
  have h := Firm.refl s
  unfold execRecordProgrammed
  try dsimp only
  repeat' first
    | with_reducible assumption
    | with_reducible apply FirmOut.ite
    | with_reducible apply FirmOut.next
    | with_reducible apply Firm.ite
    | with_reducible apply Firm.foldl
    | with_reducible apply Firm.ite_snd
    | with_reducible apply Firm.foldl_snd
    | with_reducible apply modLog_firm
    | (refine Firm.mk' rfl rfl rfl rfl rfl rfl rfl rfl rfl rfl ?_
       first
         | with_reducible assumption
         | with_reducible apply FirmOut.ite
         | with_reducible apply FirmOut.next
         | with_reducible apply Firm.ite
         | with_reducible apply Firm.foldl
         | with_reducible apply Firm.ite_snd
         | with_reducible apply Firm.foldl_snd
         | with_reducible apply modLog_firm
         | split)
    | (intro x a hx)
    | (intro c; rfl)
    | (intro x hx; exact hx)
    | (intro x hx)
    | (intro x)
    | split
    | dsimp only

theorem execHourTick_firm {s : State}  : FirmOut s (execHourTick s) := by
  have h := Firm.refl s
  unfold execHourTick
  try dsimp only
  repeat' first
    | with_reducible assumption
    | with_reducible apply FirmOut.ite
    | with_reducible apply FirmOut.next
    | with_reducible apply Firm.ite
    | with_reducible apply Firm.foldl
    | with_reducible apply Firm.ite_snd
    | with_reducible apply Firm.foldl_snd
    | with_reducible apply modLog_firm
    | (refine Firm.mk' rfl rfl rfl rfl rfl rfl rfl rfl rfl rfl ?_
       first
         | with_reducible assumption
         | with_reducible apply FirmOut.ite
         | with_reducible apply FirmOut.next
         | with_reducible apply Firm.ite
         | with_reducible apply Firm.foldl
         | with_reducible apply Firm.ite_snd
         | with_reducible apply Firm.foldl_snd
         | with_reducible apply modLog_firm
         | split)
    | (intro x a hx)
    | (intro c; rfl)
    | (intro x hx; exact hx)
    | (intro x hx)
    | (intro x)
    | split
    | dsimp only

theorem execPwrFailNAssert_firm {s : State}  : FirmOut s (execPwrFailNAssert s) := by
  have h := Firm.refl s
  unfold execPwrFailNAssert
  try dsimp only
  repeat' first
    | with_reducible assumption
    | with_reducible apply FirmOut.ite
    | with_reducible apply FirmOut.next
    | with_reducible apply Firm.ite
    | with_reducible apply Firm.foldl
    | with_reducible apply Firm.ite_snd
    | with_reducible apply Firm.foldl_snd
    | (refine Firm.mk' rfl rfl rfl rfl rfl rfl rfl rfl rfl rfl ?_
       first
         | with_reducible assumption
         | with_reducible apply FirmOut.ite
         | with_reducible apply FirmOut.next
         | with_reducible apply Firm.ite
         | with_reducible apply Firm.foldl
         | with_reducible apply Firm.ite_snd
         | with_reducible apply Firm.foldl_snd
         | split)
    | (intro x a hx)
    | (intro c; rfl)
    | (intro x hx; exact hx)
    | (intro x hx)
    | (intro x)
    | split
    | dsimp only

theorem execPwrFailNDeassert_firm {s : State}  : FirmOut s (execPwrFailNDeassert s) := by
  have h := Firm.refl s
  unfold execPwrFailNDeassert
  try dsimp only
  repeat' first
    | with_reducible assumption
    | with_reducible apply FirmOut.ite
    | with_reducible apply FirmOut.next
    | with_reducible apply Firm.ite
    | with_reducible apply Firm.foldl
    | with_reducible apply Firm.ite_snd
    | with_reducible apply Firm.foldl_snd
    | with_reducible apply modLog_firm
    | (refine Firm.mk' rfl rfl rfl rfl rfl rfl rfl rfl rfl rfl ?_
       first
         | with_reducible assumption
         | with_reducible apply FirmOut.ite
         | with_reducible apply FirmOut.next
         | with_reducible apply Firm.ite
         | with_reducible apply Firm.foldl
         | with_reducible apply Firm.ite_snd
         | with_reducible apply Firm.foldl_snd
         | with_reducible apply modLog_firm
         | split)
    | (intro x a hx)
    | (intro c; rfl)
    | (intro x hx; exact hx)
    | (intro x hx)
    | (intro x)
    | split
    | dsimp only

theorem logClearAct_firm {s0 s : State} {r : Req} (h : Firm s0 s) : Firm s0 (servedState (logClearAct r s)) := by
  unfold logClearAct
  try dsimp only
  repeat' first
    | with_reducible assumption
    | with_reducible apply Firm.served_ite
    | with_reducible apply Firm.ok
    | with_reducible apply Firm.okWith
    | with_reducible apply Firm.fail
    | with_reducible apply Firm.conflict
    | with_reducible apply Firm.done
    | with_reducible apply Firm.later
    | with_reducible apply Firm.ite
    | with_reducible apply Firm.foldl
    | with_reducible apply Firm.ite_snd
    | with_reducible apply Firm.foldl_snd
    | with_reducible apply fail_firm
    | with_reducible apply modLog_firm
    | with_reducible apply ok_firm
    | (with_reducible show Firm _ (servedState _); split)
    | (refine Firm.mk' rfl rfl rfl rfl rfl rfl rfl rfl rfl rfl ?_
       first
         | with_reducible assumption
         | with_reducible apply Firm.served_ite
         | with_reducible apply Firm.ok
         | with_reducible apply Firm.okWith
         | with_reducible apply Firm.fail
         | with_reducible apply Firm.conflict
         | with_reducible apply Firm.done
         | with_reducible apply Firm.later
         | with_reducible apply Firm.ite
         | with_reducible apply Firm.foldl
         | with_reducible apply Firm.ite_snd
         | with_reducible apply Firm.foldl_snd
         | with_reducible apply fail_firm
         | with_reducible apply modLog_firm
         | with_reducible apply ok_firm
         | split)
    | (intro x a hx)
    | (intro c; rfl)
    | (intro x hx; exact hx)
    | (intro x hx)
    | (intro x)
    | split
    | dsimp only

theorem execLogClear_firm {s : State}  : FirmOut s (execLogClear s) := by
  have h := Firm.refl s
  unfold execLogClear
  try dsimp only
  repeat' first
    | with_reducible assumption
    | with_reducible apply FirmOut.ite
    | with_reducible apply FirmOut.next
    | with_reducible apply Firm.ite
    | with_reducible apply Firm.foldl
    | with_reducible apply Firm.ite_snd
    | with_reducible apply Firm.foldl_snd
    | with_reducible apply logClearAct_firm
    | exact serve_firm h (fun r x hx hl => logClearAct_firm hx)
    | exact serve_firm h (fun r x hx hl => logClearAct_firm hx hl)
    | (refine Firm.mk' rfl rfl rfl rfl rfl rfl rfl rfl rfl rfl ?_
       first
         | with_reducible assumption
         | with_reducible apply FirmOut.ite
         | with_reducible apply FirmOut.next
         | with_reducible apply Firm.ite
         | with_reducible apply Firm.foldl
         | with_reducible apply Firm.ite_snd
         | with_reducible apply Firm.foldl_snd
         | with_reducible apply logClearAct_firm
         | exact serve_firm h (fun r x hx hl => logClearAct_firm hx)
         | exact serve_firm h (fun r x hx hl => logClearAct_firm hx hl)
         | split)
    | (intro x a hx)
    | (intro c; rfl)
    | (intro x hx; exact hx)
    | (intro x hx)
    | (intro x)
    | split
    | dsimp only

theorem execLogEraseDone_firm {s : State}  : FirmOut s (execLogEraseDone s) := by
  have h := Firm.refl s
  unfold execLogEraseDone
  try dsimp only
  repeat' first
    | with_reducible assumption
    | with_reducible apply FirmOut.ite
    | with_reducible apply FirmOut.next
    | with_reducible apply Firm.ite
    | with_reducible apply Firm.foldl
    | with_reducible apply Firm.ite_snd
    | with_reducible apply Firm.foldl_snd
    | with_reducible apply postEvent_firm
    | (refine Firm.mk' rfl rfl rfl rfl rfl rfl rfl rfl rfl rfl ?_
       first
         | with_reducible assumption
         | with_reducible apply FirmOut.ite
         | with_reducible apply FirmOut.next
         | with_reducible apply Firm.ite
         | with_reducible apply Firm.foldl
         | with_reducible apply Firm.ite_snd
         | with_reducible apply Firm.foldl_snd
         | with_reducible apply postEvent_firm
         | split)
    | (intro x a hx)
    | (intro c; rfl)
    | (intro x hx; exact hx)
    | (intro x hx)
    | (intro x)
    | split
    | dsimp only

theorem logReadAct_firm {s0 s : State} {r : Req} (h : Firm s0 s) : Firm s0 (servedState (logReadAct r s)) := by
  unfold logReadAct
  try dsimp only
  repeat' first
    | with_reducible assumption
    | with_reducible apply Firm.served_ite
    | with_reducible apply Firm.ok
    | with_reducible apply Firm.okWith
    | with_reducible apply Firm.fail
    | with_reducible apply Firm.conflict
    | with_reducible apply Firm.done
    | with_reducible apply Firm.later
    | with_reducible apply Firm.ite
    | with_reducible apply Firm.foldl
    | with_reducible apply Firm.ite_snd
    | with_reducible apply Firm.foldl_snd
    | with_reducible apply okWith_firm
    | (with_reducible show Firm _ (servedState _); split)
    | (refine Firm.mk' rfl rfl rfl rfl rfl rfl rfl rfl rfl rfl ?_
       first
         | with_reducible assumption
         | with_reducible apply Firm.served_ite
         | with_reducible apply Firm.ok
         | with_reducible apply Firm.okWith
         | with_reducible apply Firm.fail
         | with_reducible apply Firm.conflict
         | with_reducible apply Firm.done
         | with_reducible apply Firm.later
         | with_reducible apply Firm.ite
         | with_reducible apply Firm.foldl
         | with_reducible apply Firm.ite_snd
         | with_reducible apply Firm.foldl_snd
         | with_reducible apply okWith_firm
         | split)
    | (intro x a hx)
    | (intro c; rfl)
    | (intro x hx; exact hx)
    | (intro x hx)
    | (intro x)
    | split
    | dsimp only

theorem execLogRead_firm {s : State}  : FirmOut s (execLogRead s) := by
  have h := Firm.refl s
  unfold execLogRead
  try dsimp only
  repeat' first
    | with_reducible assumption
    | with_reducible apply FirmOut.ite
    | with_reducible apply FirmOut.next
    | with_reducible apply Firm.ite
    | with_reducible apply Firm.foldl
    | with_reducible apply Firm.ite_snd
    | with_reducible apply Firm.foldl_snd
    | with_reducible apply logReadAct_firm
    | exact serve_firm h (fun r x hx hl => logReadAct_firm hx)
    | exact serve_firm h (fun r x hx hl => logReadAct_firm hx hl)
    | (refine Firm.mk' rfl rfl rfl rfl rfl rfl rfl rfl rfl rfl ?_
       first
         | with_reducible assumption
         | with_reducible apply FirmOut.ite
         | with_reducible apply FirmOut.next
         | with_reducible apply Firm.ite
         | with_reducible apply Firm.foldl
         | with_reducible apply Firm.ite_snd
         | with_reducible apply Firm.foldl_snd
         | with_reducible apply logReadAct_firm
         | exact serve_firm h (fun r x hx hl => logReadAct_firm hx)
         | exact serve_firm h (fun r x hx hl => logReadAct_firm hx hl)
         | split)
    | (intro x a hx)
    | (intro c; rfl)
    | (intro x hx; exact hx)
    | (intro x hx)
    | (intro x)
    | split
    | dsimp only

theorem execLogViewFillDone_firm {s : State}  : FirmOut s (execLogViewFillDone s) := by
  have h := Firm.refl s
  unfold execLogViewFillDone
  try dsimp only
  repeat' first
    | with_reducible assumption
    | with_reducible apply FirmOut.ite
    | with_reducible apply FirmOut.next
    | with_reducible apply Firm.ite
    | with_reducible apply Firm.foldl
    | with_reducible apply Firm.ite_snd
    | with_reducible apply Firm.foldl_snd
    | with_reducible apply modLog_firm
    | (refine Firm.mk' rfl rfl rfl rfl rfl rfl rfl rfl rfl rfl ?_
       first
         | with_reducible assumption
         | with_reducible apply FirmOut.ite
         | with_reducible apply FirmOut.next
         | with_reducible apply Firm.ite
         | with_reducible apply Firm.foldl
         | with_reducible apply Firm.ite_snd
         | with_reducible apply Firm.foldl_snd
         | with_reducible apply modLog_firm
         | split)
    | (intro x a hx)
    | (intro c; rfl)
    | (intro x hx; exact hx)
    | (intro x hx)
    | (intro x)
    | split
    | dsimp only

theorem logPowerOn_firm {s0 s : State} (h : Firm s0 s) : Firm s0 (logPowerOn s) := by
  unfold logPowerOn
  try dsimp only
  repeat' first
    | with_reducible assumption
    | with_reducible apply Firm.ite
    | with_reducible apply Firm.foldl
    | with_reducible apply Firm.ite_snd
    | with_reducible apply Firm.foldl_snd
    | with_reducible apply logOnly_firm
    | (refine Firm.mk' rfl rfl rfl rfl rfl rfl rfl rfl rfl rfl ?_
       first
         | with_reducible assumption
         | with_reducible apply Firm.ite
         | with_reducible apply Firm.foldl
         | with_reducible apply Firm.ite_snd
         | with_reducible apply Firm.foldl_snd
         | with_reducible apply logOnly_firm
         | split)
    | (intro x a hx)
    | (intro c; rfl)
    | (intro x hx; exact hx)
    | (intro x hx)
    | (intro x)
    | split
    | dsimp only

end Sys2Proof.Machine
end

