-- ==== Sys2Proof/Laws/FirmSram.lean ====
section
/-!
SUPPORT. What the operations of Machine/Sram.lean keep (`Firm`).
-/
set_option Elab.async false
set_option linter.unusedTactic false
set_option linter.unreachableTactic false
set_option linter.unusedVariables false
namespace Sys2Proof.Machine

theorem sramWrite_firm {s0 s : State} {inst : Nat} (h : Firm s0 s) : Firm s0 (sramWrite inst s).2 := by
  unfold sramWrite
  try dsimp only
  repeat' first
    | with_reducible assumption
    | with_reducible apply Firm.ite
    | with_reducible apply Firm.foldl
    | with_reducible apply Firm.ite_snd
    | with_reducible apply Firm.foldl_snd
    | with_reducible apply occurrence_firm
    | (refine Firm.mk' rfl rfl rfl rfl rfl rfl rfl rfl rfl rfl ?_
       first
         | with_reducible assumption
         | with_reducible apply Firm.ite
         | with_reducible apply Firm.foldl
         | with_reducible apply Firm.ite_snd
         | with_reducible apply Firm.foldl_snd
         | with_reducible apply occurrence_firm
         | split)
    | (intro x a hx)
    | (intro c; rfl)
    | (intro x hx; exact hx)
    | (intro x hx)
    | (intro x)
    | split
    | dsimp only

theorem writeLine_firm {s0 s : State} {inst : Nat} (h : Firm s0 s) : Firm s0 (writeLine inst s).2 := by
  unfold writeLine
  try dsimp only
  repeat' first
    | with_reducible assumption
    | with_reducible apply Firm.ite
    | with_reducible apply Firm.foldl
    | with_reducible apply Firm.ite_snd
    | with_reducible apply Firm.foldl_snd
    | with_reducible apply sramWrite_firm
    | (refine Firm.mk' rfl rfl rfl rfl rfl rfl rfl rfl rfl rfl ?_
       first
         | with_reducible assumption
         | with_reducible apply Firm.ite
         | with_reducible apply Firm.foldl
         | with_reducible apply Firm.ite_snd
         | with_reducible apply Firm.foldl_snd
         | with_reducible apply sramWrite_firm
         | split)
    | (intro x a hx)
    | (intro c; rfl)
    | (intro x hx; exact hx)
    | (intro x hx)
    | (intro x)
    | split
    | dsimp only

theorem countSram_firm {s0 s : State} {off : Nat} (h : Firm s0 s) : Firm s0 (countSram off s) := by
  unfold countSram
  try dsimp only
  repeat' first
    | with_reducible assumption
    | with_reducible apply Firm.ite
    | with_reducible apply Firm.foldl
    | with_reducible apply Firm.ite_snd
    | with_reducible apply Firm.foldl_snd
    | (refine Firm.mk' rfl rfl rfl rfl rfl rfl rfl rfl rfl rfl ?_
       first
         | with_reducible assumption
         | with_reducible apply Firm.ite
         | with_reducible apply Firm.foldl
         | with_reducible apply Firm.ite_snd
         | with_reducible apply Firm.foldl_snd
         | split)
    | (intro x a hx)
    | (intro c; rfl)
    | (intro x hx; exact hx)
    | (intro x hx)
    | (intro x)
    | split
    | dsimp only

theorem sramError_firm {s0 s : State} {inj : Bool} {inst : Nat} {outcome : Nat} {addr : Nat} {seq : Nat} (h : Firm s0 s) : Firm s0 (sramError inj inst outcome addr seq s) := by
  unfold sramError
  try dsimp only
  repeat' first
    | with_reducible assumption
    | with_reducible apply Firm.ite
    | with_reducible apply Firm.foldl
    | with_reducible apply Firm.ite_snd
    | with_reducible apply Firm.foldl_snd
    | with_reducible apply countSram_firm
    | with_reducible apply raiseWith_firm
    | (refine Firm.mk' rfl rfl rfl rfl rfl rfl rfl rfl rfl rfl ?_
       first
         | with_reducible assumption
         | with_reducible apply Firm.ite
         | with_reducible apply Firm.foldl
         | with_reducible apply Firm.ite_snd
         | with_reducible apply Firm.foldl_snd
         | with_reducible apply countSram_firm
         | with_reducible apply raiseWith_firm
         | split)
    | (intro x a hx)
    | (intro c; rfl)
    | (intro x hx; exact hx)
    | (intro x hx)
    | (intro x)
    | split
    | dsimp only

theorem rewriteLine_firm {s0 s : State} {inst : Nat} {addr : Nat} (h : Firm s0 s) : Firm s0 (rewriteLine inst addr s).2 := by
  unfold rewriteLine
  try dsimp only
  repeat' first
    | with_reducible assumption
    | with_reducible apply Firm.ite
    | with_reducible apply Firm.foldl
    | with_reducible apply Firm.ite_snd
    | with_reducible apply Firm.foldl_snd
    | with_reducible apply sramWrite_firm
    | (refine Firm.mk' rfl rfl rfl rfl rfl rfl rfl rfl rfl rfl ?_
       first
         | with_reducible assumption
         | with_reducible apply Firm.ite
         | with_reducible apply Firm.foldl
         | with_reducible apply Firm.ite_snd
         | with_reducible apply Firm.foldl_snd
         | with_reducible apply sramWrite_firm
         | split)
    | (intro x a hx)
    | (intro c; rfl)
    | (intro x hx; exact hx)
    | (intro x hx)
    | (intro x)
    | split
    | dsimp only

end Sys2Proof.Machine
end

