-- ==== Sys2Proof/Laws/FirmStore.lean ====
section
/-!
SUPPORT. What the operations of Machine/Store.lean keep (`Firm`).
-/
set_option Elab.async false
set_option linter.unusedTactic false
set_option linter.unreachableTactic false
set_option linter.unusedVariables false
namespace Sys2Proof.Machine

theorem modStack_firm {s0 s : State} {n : Nat} {f : Stack → Stack} (h : Firm s0 s) : Firm s0 (modStack n f s) := by
  unfold modStack
  try dsimp only
  repeat' first
    | with_reducible assumption
    | with_reducible apply Firm.ite
    | with_reducible apply Firm.foldl
    | with_reducible apply Firm.ite_snd
    | with_reducible apply Firm.foldl_snd
    | (refine Firm.mk' rfl rfl rfl rfl rfl rfl rfl rfl rfl rfl ?_
       first
         | with_reducible assumption
         | with_reducible apply Firm.ite
         | with_reducible apply Firm.foldl
         | with_reducible apply Firm.ite_snd
         | with_reducible apply Firm.foldl_snd
         | split)
    | (intro x a hx)
    | (intro c; rfl)
    | (intro x hx; exact hx)
    | (intro x hx)
    | (intro x)
    | split
    | dsimp only

theorem countStack_firm {s0 s : State} {n : Nat} {off : Nat} {k : Nat} (h : Firm s0 s) : Firm s0 (countStack n off k s) := by
  unfold countStack
  try dsimp only
  repeat' first
    | with_reducible assumption
    | with_reducible apply Firm.ite
    | with_reducible apply Firm.foldl
    | with_reducible apply Firm.ite_snd
    | with_reducible apply Firm.foldl_snd
    | with_reducible apply modStack_firm
    | (refine Firm.mk' rfl rfl rfl rfl rfl rfl rfl rfl rfl rfl ?_
       first
         | with_reducible assumption
         | with_reducible apply Firm.ite
         | with_reducible apply Firm.foldl
         | with_reducible apply Firm.ite_snd
         | with_reducible apply Firm.foldl_snd
         | with_reducible apply modStack_firm
         | split)
    | (intro x a hx)
    | (intro c; rfl)
    | (intro x hx; exact hx)
    | (intro x hx)
    | (intro x)
    | split
    | dsimp only

theorem symbolsHit_firm {s0 s : State} {outer : Nat} {inner : Nat} (h : Firm s0 s) : Firm s0 (symbolsHit outer inner s).2 := by
  unfold symbolsHit
  try dsimp only
  repeat' first
    | with_reducible assumption
    | with_reducible apply Firm.ite
    | with_reducible apply Firm.foldl
    | with_reducible apply Firm.ite_snd
    | with_reducible apply Firm.foldl_snd
    | with_reducible apply drawFree_firm
    | (refine Firm.mk' rfl rfl rfl rfl rfl rfl rfl rfl rfl rfl ?_
       first
         | with_reducible assumption
         | with_reducible apply Firm.ite
         | with_reducible apply Firm.foldl
         | with_reducible apply Firm.ite_snd
         | with_reducible apply Firm.foldl_snd
         | with_reducible apply drawFree_firm
         | split)
    | (intro x a hx)
    | (intro c; rfl)
    | (intro x hx; exact hx)
    | (intro x hx)
    | (intro x)
    | split
    | dsimp only

theorem blockWritten_firm {s0 s : State} {blk : Nat} (h : Firm s0 s) : Firm s0 (blockWritten blk s) := by
  unfold blockWritten
  try dsimp only
  repeat' first
    | with_reducible assumption
    | with_reducible apply Firm.ite
    | with_reducible apply Firm.foldl
    | with_reducible apply Firm.ite_snd
    | with_reducible apply Firm.foldl_snd
    | with_reducible apply modStack_firm
    | with_reducible apply occurrence_firm
    | with_reducible apply scrubRead_firm
    | with_reducible apply symbolsHit_firm
    | (refine Firm.mk' rfl rfl rfl rfl rfl rfl rfl rfl rfl rfl ?_
       first
         | with_reducible assumption
         | with_reducible apply Firm.ite
         | with_reducible apply Firm.foldl
         | with_reducible apply Firm.ite_snd
         | with_reducible apply Firm.foldl_snd
         | with_reducible apply modStack_firm
         | with_reducible apply occurrence_firm
         | with_reducible apply scrubRead_firm
         | with_reducible apply symbolsHit_firm
         | split)
    | (intro x a hx)
    | (intro c; rfl)
    | (intro x hx; exact hx)
    | (intro x hx)
    | (intro x)
    | split
    | dsimp only

theorem define_firm {s0 s : State} {a : Nat} {n : Nat} (h : Firm s0 s) : Firm s0 (define a n s) := by
  unfold define
  try dsimp only
  repeat' first
    | with_reducible assumption
    | with_reducible apply Firm.ite
    | with_reducible apply Firm.foldl
    | with_reducible apply Firm.ite_snd
    | with_reducible apply Firm.foldl_snd
    | (refine Firm.mk' rfl rfl rfl rfl rfl rfl rfl rfl rfl rfl ?_
       first
         | with_reducible assumption
         | with_reducible apply Firm.ite
         | with_reducible apply Firm.foldl
         | with_reducible apply Firm.ite_snd
         | with_reducible apply Firm.foldl_snd
         | split)
    | (intro x a hx)
    | (intro c; rfl)
    | (intro x hx; exact hx)
    | (intro x hx)
    | (intro x)
    | split
    | dsimp only

theorem bareUnit_firm {s0 s : State} {u : Nat} (h : Firm s0 s) : Firm s0 (bareUnit s u) := by
  unfold bareUnit
  try dsimp only
  repeat' first
    | with_reducible assumption
    | with_reducible apply Firm.ite
    | with_reducible apply Firm.foldl
    | with_reducible apply Firm.ite_snd
    | with_reducible apply Firm.foldl_snd
    | (refine Firm.mk' rfl rfl rfl rfl rfl rfl rfl rfl rfl rfl ?_
       first
         | with_reducible assumption
         | with_reducible apply Firm.ite
         | with_reducible apply Firm.foldl
         | with_reducible apply Firm.ite_snd
         | with_reducible apply Firm.foldl_snd
         | split)
    | (intro x a hx)
    | (intro c; rfl)
    | (intro x hx; exact hx)
    | (intro x hx)
    | (intro x)
    | (refine Firm.mkMems rfl rfl ?_ ?_ ?_ ?_ ?_ rfl rfl rfl ?_ <;>
        try first
          | exact id
          | exact Memory.wf_writeBytes _ _ _ _
          | exact Memory.wf_write _ _ _ _
          | exact Memory.wf_clear _ _ _ _)
    | split
    | dsimp only

theorem storeWrite_firm {s0 s : State} {key : Bytes} {a : Nat} {bs : Bytes} (h : Firm s0 s) : Firm s0 (storeWrite key a bs s) := by
  unfold storeWrite
  try dsimp only
  repeat' first
    | with_reducible assumption
    | with_reducible apply Firm.ite
    | with_reducible apply Firm.foldl
    | with_reducible apply Firm.ite_snd
    | with_reducible apply Firm.foldl_snd
    | with_reducible apply bareUnit_firm
    | with_reducible apply blockWritten_firm
    | with_reducible apply define_firm
    | (refine Firm.mk' rfl rfl rfl rfl rfl rfl rfl rfl rfl rfl ?_
       first
         | with_reducible assumption
         | with_reducible apply Firm.ite
         | with_reducible apply Firm.foldl
         | with_reducible apply Firm.ite_snd
         | with_reducible apply Firm.foldl_snd
         | with_reducible apply bareUnit_firm
         | with_reducible apply blockWritten_firm
         | with_reducible apply define_firm
         | split)
    | (intro x a hx)
    | (intro c; rfl)
    | (intro x hx; exact hx)
    | (intro x hx)
    | (intro x)
    | (refine Firm.mkMems rfl rfl ?_ ?_ ?_ ?_ ?_ rfl rfl rfl ?_ <;>
        try first
          | exact id
          | exact Memory.wf_writeBytes _ _ _ _
          | exact Memory.wf_write _ _ _ _
          | exact Memory.wf_clear _ _ _ _)
    | split
    | dsimp only

theorem storeZero_firm {s0 s : State} {key : Bytes} {a : Nat} {n : Nat} (h : Firm s0 s) : Firm s0 (storeZero key a n s) := by
  unfold storeZero
  try dsimp only
  repeat' first
    | with_reducible assumption
    | with_reducible apply Firm.ite
    | with_reducible apply Firm.foldl
    | with_reducible apply Firm.ite_snd
    | with_reducible apply Firm.foldl_snd
    | with_reducible apply bareUnit_firm
    | with_reducible apply blockWritten_firm
    | with_reducible apply define_firm
    | (refine Firm.mk' rfl rfl rfl rfl rfl rfl rfl rfl rfl rfl ?_
       first
         | with_reducible assumption
         | with_reducible apply Firm.ite
         | with_reducible apply Firm.foldl
         | with_reducible apply Firm.ite_snd
         | with_reducible apply Firm.foldl_snd
         | with_reducible apply bareUnit_firm
         | with_reducible apply blockWritten_firm
         | with_reducible apply define_firm
         | split)
    | (intro x a hx)
    | (intro c; rfl)
    | (intro x hx; exact hx)
    | (intro x hx)
    | (intro x)
    | (refine Firm.mkMems rfl rfl ?_ ?_ ?_ ?_ ?_ rfl rfl rfl ?_ <;>
        try first
          | exact id
          | exact Memory.wf_writeBytes _ _ _ _
          | exact Memory.wf_write _ _ _ _
          | exact Memory.wf_clear _ _ _ _)
    | split
    | dsimp only

theorem modBasin_firm {s0 s : State} {b : Nat} {f : Basin → Basin} (h : Firm s0 s) : Firm s0 (modBasin b f s) := by
  unfold modBasin
  try dsimp only
  repeat' first
    | with_reducible assumption
    | with_reducible apply Firm.ite
    | with_reducible apply Firm.foldl
    | with_reducible apply Firm.ite_snd
    | with_reducible apply Firm.foldl_snd
    | (refine Firm.mk' rfl rfl rfl rfl rfl rfl rfl rfl rfl rfl ?_
       first
         | with_reducible assumption
         | with_reducible apply Firm.ite
         | with_reducible apply Firm.foldl
         | with_reducible apply Firm.ite_snd
         | with_reducible apply Firm.foldl_snd
         | split)
    | (intro x a hx)
    | (intro c; rfl)
    | (intro x hx; exact hx)
    | (intro x hx)
    | (intro x)
    | split
    | dsimp only

end Sys2Proof.Machine
end

