-- ==== Sys2Proof/Laws/FirmKeySlots.lean ====
section
/-!
SUPPORT. What the operations of Machine/KeySlots.lean keep (`Firm`).
-/
set_option Elab.async false
set_option linter.unusedTactic false
set_option linter.unreachableTactic false
set_option linter.unusedVariables false
namespace Sys2Proof.Machine

theorem modSlot_firm {s0 s : State} {n : Nat} {f : Slot → Slot} (h : Firm s0 s) : Firm s0 (modSlot n f s) := by
  unfold modSlot
  try dsimp only
  repeat' first
    | with_reducible assumption
    | with_reducible apply Firm.ite
    | with_reducible apply Firm.foldl
    | with_reducible apply Firm.ite_snd
    | with_reducible apply Firm.foldl_snd
    | (refine Firm.mk' rfl rfl rfl rfl rfl rfl rfl rfl rfl rfl ?_
       first
         | with_reducible assumption
         | with_reducible apply Firm.ite
         | with_reducible apply Firm.foldl
         | with_reducible apply Firm.ite_snd
         | with_reducible apply Firm.foldl_snd
         | split)
    | (intro x a hx)
    | (intro c; rfl)
    | (intro x hx; exact hx)
    | (intro x hx)
    | (intro x)
    | split
    | dsimp only

theorem useOnce_firm {s0 s : State} {n : Nat} (h : Firm s0 s) : Firm s0 (useOnce n s) := by
  unfold useOnce
  try dsimp only
  repeat' first
    | with_reducible assumption
    | with_reducible apply Firm.ite
    | with_reducible apply Firm.foldl
    | with_reducible apply Firm.ite_snd
    | with_reducible apply Firm.foldl_snd
    | with_reducible apply modSlot_firm
    | with_reducible apply raise_firm
    | (refine Firm.mk' rfl rfl rfl rfl rfl rfl rfl rfl rfl rfl ?_
       first
         | with_reducible assumption
         | with_reducible apply Firm.ite
         | with_reducible apply Firm.foldl
         | with_reducible apply Firm.ite_snd
         | with_reducible apply Firm.foldl_snd
         | with_reducible apply modSlot_firm
         | with_reducible apply raise_firm
         | split)
    | (intro x a hx)
    | (intro c; rfl)
    | (intro x hx; exact hx)
    | (intro x hx)
    | (intro x)
    | split
    | dsimp only

theorem useSlot_firm {s0 s : State} {n k : Nat} (h : Firm s0 s) : Firm s0 (useSlot n k s) := by
  induction k generalizing s with
  | zero =>
    unfold useSlot
    try dsimp only
    repeat' first
      | with_reducible assumption
      | with_reducible apply ih
      | with_reducible apply Firm.ite
      | with_reducible apply Firm.foldl
      | with_reducible apply Firm.ite_snd
      | with_reducible apply useOnce_firm
      | (refine Firm.mk' rfl rfl rfl rfl rfl rfl rfl rfl rfl rfl ?_
         first
           | with_reducible assumption
           | with_reducible apply ih
           | with_reducible apply Firm.ite
           | with_reducible apply Firm.foldl
           | with_reducible apply Firm.ite_snd
           | with_reducible apply useOnce_firm
           | split)
      | (intro x a hx)
      | (intro c; rfl)
      | split
      | dsimp only
  | succ n ih =>
    unfold useSlot
    try dsimp only
    repeat' first
      | with_reducible assumption
      | with_reducible apply ih
      | with_reducible apply Firm.ite
      | with_reducible apply Firm.foldl
      | with_reducible apply Firm.ite_snd
      | with_reducible apply useOnce_firm
      | (refine Firm.mk' rfl rfl rfl rfl rfl rfl rfl rfl rfl rfl ?_
         first
           | with_reducible assumption
           | with_reducible apply ih
           | with_reducible apply Firm.ite
           | with_reducible apply Firm.foldl
           | with_reducible apply Firm.ite_snd
           | with_reducible apply useOnce_firm
           | split)
      | (intro x a hx)
      | (intro c; rfl)
      | split
      | dsimp only

end Sys2Proof.Machine
end

