-- ==== Sys2Proof/Laws/FirmRecords.lean ====
section
/-!
SUPPORT. What the operations of Machine/Records.lean keep (`Firm`).
-/
set_option Elab.async false
set_option linter.unusedTactic false
set_option linter.unreachableTactic false
set_option linter.unusedVariables false
namespace Sys2Proof.Machine

theorem segWrite_firm {s0 s : State} {b : Nat} {g : Seg} {off : Nat} {bs : Bytes} (h : Firm s0 s) : Firm s0 (segWrite b g off bs s) := by
  unfold segWrite
  try dsimp only
  repeat' first
    | with_reducible assumption
    | with_reducible apply Firm.ite
    | with_reducible apply Firm.foldl
    | with_reducible apply Firm.ite_snd
    | with_reducible apply Firm.foldl_snd
    | with_reducible apply storeWrite_firm
    | with_reducible apply useSlot_firm
    | (refine Firm.mk' rfl rfl rfl rfl rfl rfl rfl rfl rfl rfl ?_
       first
         | with_reducible assumption
         | with_reducible apply Firm.ite
         | with_reducible apply Firm.foldl
         | with_reducible apply Firm.ite_snd
         | with_reducible apply Firm.foldl_snd
         | with_reducible apply storeWrite_firm
         | with_reducible apply useSlot_firm
         | split)
    | (intro x a hx)
    | (intro c; rfl)
    | (intro x hx; exact hx)
    | (intro x hx)
    | (intro x)
    | split
    | dsimp only

theorem zeroTail_firm {s0 s : State} {b : Nat} {g : Seg} (h : Firm s0 s) : Firm s0 (zeroTail b g s) := by
  unfold zeroTail
  try dsimp only
  repeat' first
    | with_reducible assumption
    | with_reducible apply Firm.ite
    | with_reducible apply Firm.foldl
    | with_reducible apply Firm.ite_snd
    | with_reducible apply Firm.foldl_snd
    | with_reducible apply storeZero_firm
    | (refine Firm.mk' rfl rfl rfl rfl rfl rfl rfl rfl rfl rfl ?_
       first
         | with_reducible assumption
         | with_reducible apply Firm.ite
         | with_reducible apply Firm.foldl
         | with_reducible apply Firm.ite_snd
         | with_reducible apply Firm.foldl_snd
         | with_reducible apply storeZero_firm
         | split)
    | (intro x a hx)
    | (intro c; rfl)
    | (intro x hx; exact hx)
    | (intro x hx)
    | (intro x)
    | split
    | dsimp only

theorem setOpen_firm {s0 s : State} {b : Nat} {g : Seg} (h : Firm s0 s) : Firm s0 (setOpen b g s) := by
  unfold setOpen
  try dsimp only
  repeat' first
    | with_reducible assumption
    | with_reducible apply Firm.ite
    | with_reducible apply Firm.foldl
    | with_reducible apply Firm.ite_snd
    | with_reducible apply Firm.foldl_snd
    | with_reducible apply modBasin_firm
    | (refine Firm.mk' rfl rfl rfl rfl rfl rfl rfl rfl rfl rfl ?_
       first
         | with_reducible assumption
         | with_reducible apply Firm.ite
         | with_reducible apply Firm.foldl
         | with_reducible apply Firm.ite_snd
         | with_reducible apply Firm.foldl_snd
         | with_reducible apply modBasin_firm
         | split)
    | (intro x a hx)
    | (intro c; rfl)
    | (intro x hx; exact hx)
    | (intro x hx)
    | (intro x)
    | split
    | dsimp only

theorem countBasin_firm {s0 s : State} {b : Nat} {off : Nat} {k : Nat} (h : Firm s0 s) : Firm s0 (countBasin b off k s) := by
  unfold countBasin
  try dsimp only
  repeat' first
    | with_reducible assumption
    | with_reducible apply Firm.ite
    | with_reducible apply Firm.foldl
    | with_reducible apply Firm.ite_snd
    | with_reducible apply Firm.foldl_snd
    | with_reducible apply modBasin_firm
    | (refine Firm.mk' rfl rfl rfl rfl rfl rfl rfl rfl rfl rfl ?_
       first
         | with_reducible assumption
         | with_reducible apply Firm.ite
         | with_reducible apply Firm.foldl
         | with_reducible apply Firm.ite_snd
         | with_reducible apply Firm.foldl_snd
         | with_reducible apply modBasin_firm
         | split)
    | (intro x a hx)
    | (intro c; rfl)
    | (intro x hx; exact hx)
    | (intro x hx)
    | (intro x)
    | split
    | dsimp only

theorem closeSeg_firm {s0 s : State} {b : Nat} (h : Firm s0 s) : Firm s0 (closeSeg b s) := by
  unfold closeSeg
  try dsimp only
  repeat' first
    | with_reducible assumption
    | with_reducible apply Firm.ite
    | with_reducible apply Firm.foldl
    | with_reducible apply Firm.ite_snd
    | with_reducible apply Firm.foldl_snd
    | with_reducible apply segWrite_firm
    | with_reducible apply setOpen_firm
    | with_reducible apply zeroTail_firm
    | (refine Firm.mk' rfl rfl rfl rfl rfl rfl rfl rfl rfl rfl ?_
       first
         | with_reducible assumption
         | with_reducible apply Firm.ite
         | with_reducible apply Firm.foldl
         | with_reducible apply Firm.ite_snd
         | with_reducible apply Firm.foldl_snd
         | with_reducible apply segWrite_firm
         | with_reducible apply setOpen_firm
         | with_reducible apply zeroTail_firm
         | split)
    | (intro x a hx)
    | (intro c; rfl)
    | (intro x hx; exact hx)
    | (intro x hx)
    | (intro x)
    | split
    | dsimp only

theorem reportStaging_firm {s0 s : State} {b : Nat} {seq : Nat} {d : Draft} (h : Firm s0 s) : Firm s0 (reportStaging b seq d s) := by
  unfold reportStaging
  try dsimp only
  repeat' first
    | with_reducible assumption
    | with_reducible apply Firm.ite
    | with_reducible apply Firm.foldl
    | with_reducible apply Firm.ite_snd
    | with_reducible apply Firm.foldl_snd
    | with_reducible apply drawFree_firm
    | with_reducible apply sramError_firm
    | (refine Firm.mk' rfl rfl rfl rfl rfl rfl rfl rfl rfl rfl ?_
       first
         | with_reducible assumption
         | with_reducible apply Firm.ite
         | with_reducible apply Firm.foldl
         | with_reducible apply Firm.ite_snd
         | with_reducible apply Firm.foldl_snd
         | with_reducible apply drawFree_firm
         | with_reducible apply sramError_firm
         | split)
    | (intro x a hx)
    | (intro c; rfl)
    | (intro x hx; exact hx)
    | (intro x hx)
    | (intro x)
    | split
    | dsimp only

theorem append_firm {s0 s : State} {b : Nat} {d : Draft} (h : Firm s0 s) : Firm s0 (append b d s) := by
  unfold append
  try dsimp only
  repeat' first
    | with_reducible assumption
    | with_reducible apply Firm.ite
    | with_reducible apply Firm.foldl
    | with_reducible apply Firm.ite_snd
    | with_reducible apply Firm.foldl_snd
    | with_reducible apply countBasin_firm
    | with_reducible apply modBasin_firm
    | with_reducible apply reportStaging_firm
    | with_reducible apply segWrite_firm
    | with_reducible apply setOpen_firm
    | (refine Firm.mk' rfl rfl rfl rfl rfl rfl rfl rfl rfl rfl ?_
       first
         | with_reducible assumption
         | with_reducible apply Firm.ite
         | with_reducible apply Firm.foldl
         | with_reducible apply Firm.ite_snd
         | with_reducible apply Firm.foldl_snd
         | with_reducible apply countBasin_firm
         | with_reducible apply modBasin_firm
         | with_reducible apply reportStaging_firm
         | with_reducible apply segWrite_firm
         | with_reducible apply setOpen_firm
         | split)
    | (intro x a hx)
    | (intro c; rfl)
    | (intro x hx; exact hx)
    | (intro x hx)
    | (intro x)
    | split
    | dsimp only

theorem addSeg_firm {s0 s : State} {b : Nat} {seg : Seg} (h : Firm s0 s) : Firm s0 (addSeg b seg s) := by
  unfold addSeg
  try dsimp only
  repeat' first
    | with_reducible assumption
    | with_reducible apply Firm.ite
    | with_reducible apply Firm.foldl
    | with_reducible apply Firm.ite_snd
    | with_reducible apply Firm.foldl_snd
    | with_reducible apply modBasin_firm
    | (refine Firm.mk' rfl rfl rfl rfl rfl rfl rfl rfl rfl rfl ?_
       first
         | with_reducible assumption
         | with_reducible apply Firm.ite
         | with_reducible apply Firm.foldl
         | with_reducible apply Firm.ite_snd
         | with_reducible apply Firm.foldl_snd
         | with_reducible apply modBasin_firm
         | split)
    | (intro x a hx)
    | (intro c; rfl)
    | (intro x hx; exact hx)
    | (intro x hx)
    | (intro x)
    | split
    | dsimp only

theorem openHeader_firm {s0 s : State} {b : Nat} {seg : Seg} (h : Firm s0 s) : Firm s0 (openHeader b seg s) := by
  unfold openHeader
  try dsimp only
  repeat' first
    | with_reducible assumption
    | with_reducible apply Firm.ite
    | with_reducible apply Firm.foldl
    | with_reducible apply Firm.ite_snd
    | with_reducible apply Firm.foldl_snd
    | with_reducible apply segWrite_firm
    | (refine Firm.mk' rfl rfl rfl rfl rfl rfl rfl rfl rfl rfl ?_
       first
         | with_reducible assumption
         | with_reducible apply Firm.ite
         | with_reducible apply Firm.foldl
         | with_reducible apply Firm.ite_snd
         | with_reducible apply Firm.foldl_snd
         | with_reducible apply segWrite_firm
         | split)
    | (intro x a hx)
    | (intro c; rfl)
    | (intro x hx; exact hx)
    | (intro x hx)
    | (intro x)
    | split
    | dsimp only

theorem openSegAt_firm {s0 s : State} {b : Nat} {g : Nat} {enc : Bool} (h : Firm s0 s) : Firm s0 (openSegAt b g enc s) := by
  unfold openSegAt
  try dsimp only
  repeat' first
    | with_reducible assumption
    | with_reducible apply Firm.ite
    | with_reducible apply Firm.foldl
    | with_reducible apply Firm.ite_snd
    | with_reducible apply Firm.foldl_snd
    | with_reducible apply addSeg_firm
    | with_reducible apply append_firm
    | with_reducible apply openHeader_firm
    | (refine Firm.mk' rfl rfl rfl rfl rfl rfl rfl rfl rfl rfl ?_
       first
         | with_reducible assumption
         | with_reducible apply Firm.ite
         | with_reducible apply Firm.foldl
         | with_reducible apply Firm.ite_snd
         | with_reducible apply Firm.foldl_snd
         | with_reducible apply addSeg_firm
         | with_reducible apply append_firm
         | with_reducible apply openHeader_firm
         | split)
    | (intro x a hx)
    | (intro c; rfl)
    | (intro x hx; exact hx)
    | (intro x hx)
    | (intro x)
    | (refine Firm.mkMems rfl rfl ?_ ?_ ?_ ?_ ?_ rfl rfl rfl ?_ <;>
        try first
          | exact id
          | exact Memory.wf_writeBytes _ _ _ _
          | exact Memory.wf_write _ _ _ _
          | exact Memory.wf_clear _ _ _ _)
    | split
    | dsimp only

theorem ensureRoom_firm {s0 s : State} {b : Nat} {n : Nat} (h : Firm s0 s) : Firm s0 (ensureRoom b n s).2 := by
  unfold ensureRoom
  try dsimp only
  repeat' first
    | with_reducible assumption
    | with_reducible apply Firm.ite
    | with_reducible apply Firm.foldl
    | with_reducible apply Firm.ite_snd
    | with_reducible apply Firm.foldl_snd
    | with_reducible apply closeSeg_firm
    | with_reducible apply openSegAt_firm
    | (refine Firm.mk' rfl rfl rfl rfl rfl rfl rfl rfl rfl rfl ?_
       first
         | with_reducible assumption
         | with_reducible apply Firm.ite
         | with_reducible apply Firm.foldl
         | with_reducible apply Firm.ite_snd
         | with_reducible apply Firm.foldl_snd
         | with_reducible apply closeSeg_firm
         | with_reducible apply openSegAt_firm
         | split)
    | (intro x a hx)
    | (intro c; rfl)
    | (intro x hx; exact hx)
    | (intro x hx)
    | (intro x)
    | split
    | dsimp only

theorem writeSome_firm {s0 s : State} {b : Nat} {g : Seg} {d : Draft} (h : Firm s0 s) : Firm s0 (writeSome b g d s) := by
  unfold writeSome
  try dsimp only
  repeat' first
    | with_reducible assumption
    | with_reducible apply Firm.ite
    | with_reducible apply Firm.foldl
    | with_reducible apply Firm.ite_snd
    | with_reducible apply Firm.foldl_snd
    | with_reducible apply segWrite_firm
    | (refine Firm.mk' rfl rfl rfl rfl rfl rfl rfl rfl rfl rfl ?_
       first
         | with_reducible assumption
         | with_reducible apply Firm.ite
         | with_reducible apply Firm.foldl
         | with_reducible apply Firm.ite_snd
         | with_reducible apply Firm.foldl_snd
         | with_reducible apply segWrite_firm
         | split)
    | (intro x a hx)
    | (intro c; rfl)
    | (intro x hx; exact hx)
    | (intro x hx)
    | (intro x)
    | split
    | dsimp only

theorem tryPut_firm {s0 s : State} {b : Nat} {d : Draft} (h : Firm s0 s) : Firm s0 (tryPut b d s).2 := by
  unfold tryPut
  try dsimp only
  repeat' first
    | with_reducible assumption
    | with_reducible apply Firm.ite
    | with_reducible apply Firm.foldl
    | with_reducible apply Firm.ite_snd
    | with_reducible apply Firm.foldl_snd
    | with_reducible apply append_firm
    | with_reducible apply ensureRoom_firm
    | with_reducible apply writeSome_firm
    | (refine Firm.mk' rfl rfl rfl rfl rfl rfl rfl rfl rfl rfl ?_
       first
         | with_reducible assumption
         | with_reducible apply Firm.ite
         | with_reducible apply Firm.foldl
         | with_reducible apply Firm.ite_snd
         | with_reducible apply Firm.foldl_snd
         | with_reducible apply append_firm
         | with_reducible apply ensureRoom_firm
         | with_reducible apply writeSome_firm
         | split)
    | (intro x a hx)
    | (intro c; rfl)
    | (intro x hx; exact hx)
    | (intro x hx)
    | (intro x)
    | split
    | dsimp only

theorem spareSeg_firm {s0 s : State} {b : Nat} (h : Firm s0 s) : Firm s0 (spareSeg b s) := by
  unfold spareSeg
  try dsimp only
  repeat' first
    | with_reducible assumption
    | with_reducible apply Firm.ite
    | with_reducible apply Firm.foldl
    | with_reducible apply Firm.ite_snd
    | with_reducible apply Firm.foldl_snd
    | with_reducible apply addSeg_firm
    | with_reducible apply openHeader_firm
    | (refine Firm.mk' rfl rfl rfl rfl rfl rfl rfl rfl rfl rfl ?_
       first
         | with_reducible assumption
         | with_reducible apply Firm.ite
         | with_reducible apply Firm.foldl
         | with_reducible apply Firm.ite_snd
         | with_reducible apply Firm.foldl_snd
         | with_reducible apply addSeg_firm
         | with_reducible apply openHeader_firm
         | split)
    | (intro x a hx)
    | (intro c; rfl)
    | (intro x hx; exact hx)
    | (intro x hx)
    | (intro x)
    | split
    | dsimp only

theorem spendKey_firm {s0 s : State} {b : Nat} (h : Firm s0 s) : Firm s0 (spendKey b s) := by
  unfold spendKey
  try dsimp only
  repeat' first
    | with_reducible assumption
    | with_reducible apply Firm.ite
    | with_reducible apply Firm.foldl
    | with_reducible apply Firm.ite_snd
    | with_reducible apply Firm.foldl_snd
    | with_reducible apply modBasin_firm
    | with_reducible apply segWrite_firm
    | with_reducible apply setOpen_firm
    | with_reducible apply spareSeg_firm
    | with_reducible apply zeroTail_firm
    | (refine Firm.mk' rfl rfl rfl rfl rfl rfl rfl rfl rfl rfl ?_
       first
         | with_reducible assumption
         | with_reducible apply Firm.ite
         | with_reducible apply Firm.foldl
         | with_reducible apply Firm.ite_snd
         | with_reducible apply Firm.foldl_snd
         | with_reducible apply modBasin_firm
         | with_reducible apply segWrite_firm
         | with_reducible apply setOpen_firm
         | with_reducible apply spareSeg_firm
         | with_reducible apply zeroTail_firm
         | split)
    | (intro x a hx)
    | (intro c; rfl)
    | (intro x hx; exact hx)
    | (intro x hx)
    | (intro x)
    | split
    | dsimp only

theorem putFit_firm {s0 s : State} {b : Nat} {d : Draft} (h : Firm s0 s) : Firm s0 (putFit b d s).2 := by
  unfold putFit
  try dsimp only
  repeat' first
    | with_reducible assumption
    | with_reducible apply Firm.ite
    | with_reducible apply Firm.foldl
    | with_reducible apply Firm.ite_snd
    | with_reducible apply Firm.foldl_snd
    | with_reducible apply spendKey_firm
    | with_reducible apply tryPut_firm
    | (refine Firm.mk' rfl rfl rfl rfl rfl rfl rfl rfl rfl rfl ?_
       first
         | with_reducible assumption
         | with_reducible apply Firm.ite
         | with_reducible apply Firm.foldl
         | with_reducible apply Firm.ite_snd
         | with_reducible apply Firm.foldl_snd
         | with_reducible apply spendKey_firm
         | with_reducible apply tryPut_firm
         | split)
    | (intro x a hx)
    | (intro c; rfl)
    | (intro x hx; exact hx)
    | (intro x hx)
    | (intro x)
    | split
    | dsimp only

theorem loseItem_firm {s0 s : State} {b : Nat} {l : Loss} {cause : Nat} (h : Firm s0 s) : Firm s0 (loseItem b l cause s) := by
  unfold loseItem
  try dsimp only
  repeat' first
    | with_reducible assumption
    | with_reducible apply Firm.ite
    | with_reducible apply Firm.foldl
    | with_reducible apply Firm.ite_snd
    | with_reducible apply Firm.foldl_snd
    | with_reducible apply modBasin_firm
    | (refine Firm.mk' rfl rfl rfl rfl rfl rfl rfl rfl rfl rfl ?_
       first
         | with_reducible assumption
         | with_reducible apply Firm.ite
         | with_reducible apply Firm.foldl
         | with_reducible apply Firm.ite_snd
         | with_reducible apply Firm.foldl_snd
         | with_reducible apply modBasin_firm
         | split)
    | (intro x a hx)
    | (intro c; rfl)
    | (intro x hx; exact hx)
    | (intro x hx)
    | (intro x)
    | split
    | dsimp only

theorem gapEvent_firm {s0 s : State} {b : Nat} (h : Firm s0 s) : Firm s0 (gapEvent b s) := by
  unfold gapEvent
  try dsimp only
  repeat' first
    | with_reducible assumption
    | with_reducible apply Firm.ite
    | with_reducible apply Firm.foldl
    | with_reducible apply Firm.ite_snd
    | with_reducible apply Firm.foldl_snd
    | with_reducible apply modBasin_firm
    | with_reducible apply raise_firm
    | (refine Firm.mk' rfl rfl rfl rfl rfl rfl rfl rfl rfl rfl ?_
       first
         | with_reducible assumption
         | with_reducible apply Firm.ite
         | with_reducible apply Firm.foldl
         | with_reducible apply Firm.ite_snd
         | with_reducible apply Firm.foldl_snd
         | with_reducible apply modBasin_firm
         | with_reducible apply raise_firm
         | split)
    | (intro x a hx)
    | (intro c; rfl)
    | (intro x hx; exact hx)
    | (intro x hx)
    | (intro x)
    | split
    | dsimp only

theorem writeGap_firm {s0 s : State} {b : Nat} (h : Firm s0 s) : Firm s0 (writeGap b s) := by
  unfold writeGap
  try dsimp only
  repeat' first
    | with_reducible assumption
    | with_reducible apply Firm.ite
    | with_reducible apply Firm.foldl
    | with_reducible apply Firm.ite_snd
    | with_reducible apply Firm.foldl_snd
    | with_reducible apply countBasin_firm
    | with_reducible apply gapEvent_firm
    | with_reducible apply modBasin_firm
    | with_reducible apply putFit_firm
    | (refine Firm.mk' rfl rfl rfl rfl rfl rfl rfl rfl rfl rfl ?_
       first
         | with_reducible assumption
         | with_reducible apply Firm.ite
         | with_reducible apply Firm.foldl
         | with_reducible apply Firm.ite_snd
         | with_reducible apply Firm.foldl_snd
         | with_reducible apply countBasin_firm
         | with_reducible apply gapEvent_firm
         | with_reducible apply modBasin_firm
         | with_reducible apply putFit_firm
         | split)
    | (intro x a hx)
    | (intro c; rfl)
    | (intro x hx; exact hx)
    | (intro x hx)
    | (intro x)
    | split
    | dsimp only

theorem setCapState_firm {s0 s : State} {b : Nat} {new : Nat} {stopCause : Nat} {cmd : Option Cause} (h : Firm s0 s) : Firm s0 (setCapState b new stopCause cmd s) := by
  unfold setCapState
  try dsimp only
  repeat' first
    | with_reducible assumption
    | with_reducible apply Firm.ite
    | with_reducible apply Firm.foldl
    | with_reducible apply Firm.ite_snd
    | with_reducible apply Firm.foldl_snd
    | with_reducible apply modBasin_firm
    | with_reducible apply raise_firm
    | (refine Firm.mk' rfl rfl rfl rfl rfl rfl rfl rfl rfl rfl ?_
       first
         | with_reducible assumption
         | with_reducible apply Firm.ite
         | with_reducible apply Firm.foldl
         | with_reducible apply Firm.ite_snd
         | with_reducible apply Firm.foldl_snd
         | with_reducible apply modBasin_firm
         | with_reducible apply raise_firm
         | split)
    | (intro x a hx)
    | (intro c; rfl)
    | (intro x hx; exact hx)
    | (intro x hx)
    | (intro x)
    | split
    | dsimp only

theorem modWeir_firm {s0 s : State} {w : Nat} {f : Weir → Weir} (h : Firm s0 s) : Firm s0 (modWeir w f s) := by
  unfold modWeir
  try dsimp only
  repeat' first
    | with_reducible assumption
    | with_reducible apply Firm.ite
    | with_reducible apply Firm.foldl
    | with_reducible apply Firm.ite_snd
    | with_reducible apply Firm.foldl_snd
    | (refine Firm.mk' rfl rfl rfl rfl rfl rfl rfl rfl rfl rfl ?_
       first
         | with_reducible assumption
         | with_reducible apply Firm.ite
         | with_reducible apply Firm.foldl
         | with_reducible apply Firm.ite_snd
         | with_reducible apply Firm.foldl_snd
         | split)
    | (intro x a hx)
    | (intro c; rfl)
    | (intro x hx; exact hx)
    | (intro x hx)
    | (intro x)
    | split
    | dsimp only

theorem putOrLose_firm {s0 s : State} {b : Nat} {d : Draft} (h : Firm s0 s) : Firm s0 (putOrLose b d s) := by
  unfold putOrLose
  try dsimp only
  repeat' first
    | with_reducible assumption
    | with_reducible apply Firm.ite
    | with_reducible apply Firm.foldl
    | with_reducible apply Firm.ite_snd
    | with_reducible apply Firm.foldl_snd
    | with_reducible apply loseItem_firm
    | with_reducible apply putFit_firm
    | with_reducible apply writeGap_firm
    | (refine Firm.mk' rfl rfl rfl rfl rfl rfl rfl rfl rfl rfl ?_
       first
         | with_reducible assumption
         | with_reducible apply Firm.ite
         | with_reducible apply Firm.foldl
         | with_reducible apply Firm.ite_snd
         | with_reducible apply Firm.foldl_snd
         | with_reducible apply loseItem_firm
         | with_reducible apply putFit_firm
         | with_reducible apply writeGap_firm
         | split)
    | (intro x a hx)
    | (intro c; rfl)
    | (intro x hx; exact hx)
    | (intro x hx)
    | (intro x)
    | split
    | dsimp only

theorem closeRun_firm {s0 s : State} {put : Draft → State → State} {b : Nat} (h : Firm s0 s) (hput : ∀ d x, Firm s0 x → Firm s0 (put d x)) : Firm s0 (closeRun put b s) := by
  unfold closeRun
  try dsimp only
  repeat' first
    | with_reducible assumption
    | with_reducible apply Firm.ite
    | with_reducible apply Firm.foldl
    | with_reducible apply Firm.ite_snd
    | with_reducible apply Firm.foldl_snd
    | with_reducible apply hput
    | with_reducible apply modBasin_firm
    | (refine Firm.mk' rfl rfl rfl rfl rfl rfl rfl rfl rfl rfl ?_
       first
         | with_reducible assumption
         | with_reducible apply Firm.ite
         | with_reducible apply Firm.foldl
         | with_reducible apply Firm.ite_snd
         | with_reducible apply Firm.foldl_snd
         | with_reducible apply hput
         | with_reducible apply modBasin_firm
         | split)
    | (intro x a hx)
    | (intro c; rfl)
    | (intro x hx; exact hx)
    | (intro x hx)
    | (intro x)
    | split
    | dsimp only

theorem restage_firm {s0 s : State} {b : Nat} {rule : Nat} {flags : Nat} {i : StageItem} (h : Firm s0 s) : Firm s0 (restage b rule flags i s) := by
  unfold restage
  try dsimp only
  repeat' first
    | with_reducible assumption
    | with_reducible apply Firm.ite
    | with_reducible apply Firm.foldl
    | with_reducible apply Firm.ite_snd
    | with_reducible apply Firm.foldl_snd
    | with_reducible apply decided_firm
    | with_reducible apply modBasin_firm
    | (refine Firm.mk' rfl rfl rfl rfl rfl rfl rfl rfl rfl rfl ?_
       first
         | with_reducible assumption
         | with_reducible apply Firm.ite
         | with_reducible apply Firm.foldl
         | with_reducible apply Firm.ite_snd
         | with_reducible apply Firm.foldl_snd
         | with_reducible apply decided_firm
         | with_reducible apply modBasin_firm
         | split)
    | (intro x a hx)
    | (intro c; rfl)
    | (intro x hx; exact hx)
    | (intro x hx)
    | (intro x)
    | split
    | dsimp only

theorem dropStaged_firm {s0 s : State} {b : Nat} {id : Nat} (h : Firm s0 s) : Firm s0 (dropStaged b id s) := by
  unfold dropStaged
  try dsimp only
  repeat' first
    | with_reducible assumption
    | with_reducible apply Firm.ite
    | with_reducible apply Firm.foldl
    | with_reducible apply Firm.ite_snd
    | with_reducible apply Firm.foldl_snd
    | with_reducible apply modBasin_firm
    | (refine Firm.mk' rfl rfl rfl rfl rfl rfl rfl rfl rfl rfl ?_
       first
         | with_reducible assumption
         | with_reducible apply Firm.ite
         | with_reducible apply Firm.foldl
         | with_reducible apply Firm.ite_snd
         | with_reducible apply Firm.foldl_snd
         | with_reducible apply modBasin_firm
         | split)
    | (intro x a hx)
    | (intro c; rfl)
    | (intro x hx; exact hx)
    | (intro x hx)
    | (intro x)
    | split
    | dsimp only

theorem foldFrame_firm {s0 s : State} {put : Draft → State → State} {b : Nat} {rule : Nat} {flags : Nat} {i : StageItem} (h : Firm s0 s) (hput : ∀ d x, Firm s0 x → Firm s0 (put d x)) : Firm s0 (foldFrame put b rule flags i s) := by
  unfold foldFrame
  try dsimp only
  repeat' first
    | with_reducible assumption
    | with_reducible apply Firm.ite
    | with_reducible apply Firm.foldl
    | with_reducible apply Firm.ite_snd
    | with_reducible apply Firm.foldl_snd
    | with_reducible apply hput
    | with_reducible apply closeRun_firm
    | with_reducible apply dropStaged_firm
    | with_reducible apply modBasin_firm
    | with_reducible apply restage_firm
    | (refine Firm.mk' rfl rfl rfl rfl rfl rfl rfl rfl rfl rfl ?_
       first
         | with_reducible assumption
         | with_reducible apply Firm.ite
         | with_reducible apply Firm.foldl
         | with_reducible apply Firm.ite_snd
         | with_reducible apply Firm.foldl_snd
         | with_reducible apply hput
         | with_reducible apply closeRun_firm
         | with_reducible apply dropStaged_firm
         | with_reducible apply modBasin_firm
         | with_reducible apply restage_firm
         | split)
    | (intro x a hx)
    | (intro c; rfl)
    | (intro x hx; exact hx)
    | (intro x hx)
    | (intro x)
    | split
    | dsimp only

theorem storeForm_firm {s0 s : State} {put : Draft → State → State} {b : Nat} {rule : Nat} {mode : Nat} {headN : Nat} {flags : Nat} {i : StageItem} (h : Firm s0 s) (hput : ∀ d x, Firm s0 x → Firm s0 (put d x)) : Firm s0 (storeForm put b rule mode headN flags i s) := by
  unfold storeForm
  try dsimp only
  repeat' first
    | with_reducible assumption
    | with_reducible apply Firm.ite
    | with_reducible apply Firm.foldl
    | with_reducible apply Firm.ite_snd
    | with_reducible apply Firm.foldl_snd
    | with_reducible apply hput
    | with_reducible apply drawFree_firm
    | with_reducible apply foldFrame_firm
    | (refine Firm.mk' rfl rfl rfl rfl rfl rfl rfl rfl rfl rfl ?_
       first
         | with_reducible assumption
         | with_reducible apply Firm.ite
         | with_reducible apply Firm.foldl
         | with_reducible apply Firm.ite_snd
         | with_reducible apply Firm.foldl_snd
         | with_reducible apply hput
         | with_reducible apply drawFree_firm
         | with_reducible apply foldFrame_firm
         | split)
    | (intro x a hx)
    | (intro c; rfl)
    | (intro x hx; exact hx)
    | (intro x hx)
    | (intro x)
    | split
    | dsimp only

theorem fenceWeir_firm {s0 s : State} {put : Draft → State → State} {inj : Bool} {w : Nat} {cause : Nat} (h : Firm s0 s) (hput : ∀ d x, Firm s0 x → Firm s0 (put d x)) : Firm s0 (fenceWeir put inj w cause s) := by
  unfold fenceWeir
  try dsimp only
  repeat' first
    | with_reducible assumption
    | with_reducible apply Firm.ite
    | with_reducible apply Firm.foldl
    | with_reducible apply Firm.ite_snd
    | with_reducible apply Firm.foldl_snd
    | with_reducible apply hput
    | with_reducible apply modBasin_firm
    | with_reducible apply modWeir_firm
    | with_reducible apply raiseWith_firm
    | with_reducible apply storeForm_firm
    | (refine Firm.mk' rfl rfl rfl rfl rfl rfl rfl rfl rfl rfl ?_
       first
         | with_reducible assumption
         | with_reducible apply Firm.ite
         | with_reducible apply Firm.foldl
         | with_reducible apply Firm.ite_snd
         | with_reducible apply Firm.foldl_snd
         | with_reducible apply hput
         | with_reducible apply modBasin_firm
         | with_reducible apply modWeir_firm
         | with_reducible apply raiseWith_firm
         | with_reducible apply storeForm_firm
         | split)
    | (intro x a hx)
    | (intro c; rfl)
    | (intro x hx; exact hx)
    | (intro x hx)
    | (intro x)
    | split
    | dsimp only

theorem weirLineBad_firm {s0 s : State} {inj : Bool} {w : Nat} (h : Firm s0 s) : Firm s0 (weirLineBad inj w s) := by
  unfold weirLineBad
  try dsimp only
  repeat' first
    | with_reducible assumption
    | with_reducible apply Firm.ite
    | with_reducible apply Firm.foldl
    | with_reducible apply Firm.ite_snd
    | with_reducible apply Firm.foldl_snd
    | with_reducible apply drawFree_firm
    | with_reducible apply sramError_firm
    | (refine Firm.mk' rfl rfl rfl rfl rfl rfl rfl rfl rfl rfl ?_
       first
         | with_reducible assumption
         | with_reducible apply Firm.ite
         | with_reducible apply Firm.foldl
         | with_reducible apply Firm.ite_snd
         | with_reducible apply Firm.foldl_snd
         | with_reducible apply drawFree_firm
         | with_reducible apply sramError_firm
         | split)
    | (intro x a hx)
    | (intro c; rfl)
    | (intro x hx; exact hx)
    | (intro x hx)
    | (intro x)
    | split
    | dsimp only

theorem throughWeir_firm {s0 s : State} {put : Draft → State → State} {b : Nat} {rule : Nat} {m : Nat × Nat} {flags : Nat} {w : Nat} {returned : Bool} {i : StageItem} (h : Firm s0 s) (hput : ∀ d x, Firm s0 x → Firm s0 (put d x)) : Firm s0 (throughWeir put b rule m flags w returned i s) := by
  unfold throughWeir
  try dsimp only
  repeat' first
    | with_reducible assumption
    | with_reducible apply Firm.ite
    | with_reducible apply Firm.foldl
    | with_reducible apply Firm.ite_snd
    | with_reducible apply Firm.foldl_snd
    | with_reducible apply hput
    | with_reducible apply fenceWeir_firm
    | with_reducible apply modBasin_firm
    | with_reducible apply modWeir_firm
    | with_reducible apply sramWrite_firm
    | with_reducible apply storeForm_firm
    | with_reducible apply weirLineBad_firm
    | (refine Firm.mk' rfl rfl rfl rfl rfl rfl rfl rfl rfl rfl ?_
       first
         | with_reducible assumption
         | with_reducible apply Firm.ite
         | with_reducible apply Firm.foldl
         | with_reducible apply Firm.ite_snd
         | with_reducible apply Firm.foldl_snd
         | with_reducible apply hput
         | with_reducible apply fenceWeir_firm
         | with_reducible apply modBasin_firm
         | with_reducible apply modWeir_firm
         | with_reducible apply sramWrite_firm
         | with_reducible apply storeForm_firm
         | with_reducible apply weirLineBad_firm
         | split)
    | (intro x a hx)
    | (intro c; rfl)
    | (intro x hx; exact hx)
    | (intro x hx)
    | (intro x)
    | split
    | dsimp only

theorem storeItem_firm {s0 s : State} {put : Draft → State → State} {b : Nat} {rule : Nat} {cmode : Nat} {headN : Nat} {default : Bool} {trig : Bool} {returned : Bool} {i : StageItem} (h : Firm s0 s) (hput : ∀ d x, Firm s0 x → Firm s0 (put d x)) : Firm s0 (storeItem put b rule cmode headN default trig returned i s) := by
  unfold storeItem
  try dsimp only
  repeat' first
    | with_reducible assumption
    | with_reducible apply Firm.ite
    | with_reducible apply Firm.foldl
    | with_reducible apply Firm.ite_snd
    | with_reducible apply Firm.foldl_snd
    | with_reducible apply hput
    | with_reducible apply modBasin_firm
    | with_reducible apply storeForm_firm
    | with_reducible apply throughWeir_firm
    | (refine Firm.mk' rfl rfl rfl rfl rfl rfl rfl rfl rfl rfl ?_
       first
         | with_reducible assumption
         | with_reducible apply Firm.ite
         | with_reducible apply Firm.foldl
         | with_reducible apply Firm.ite_snd
         | with_reducible apply Firm.foldl_snd
         | with_reducible apply hput
         | with_reducible apply modBasin_firm
         | with_reducible apply storeForm_firm
         | with_reducible apply throughWeir_firm
         | split)
    | (intro x a hx)
    | (intro c; rfl)
    | (intro x hx; exact hx)
    | (intro x hx)
    | (intro x)
    | split
    | dsimp only

theorem storeDecided_firm {s0 s : State} {put : Draft → State → State} {b : Nat} {returned : Bool} {i : StageItem} (h : Firm s0 s) (hput : ∀ d x, Firm s0 x → Firm s0 (put d x)) : Firm s0 (storeDecided put b returned i s) := by
  unfold storeDecided
  try dsimp only
  repeat' first
    | with_reducible assumption
    | with_reducible apply Firm.ite
    | with_reducible apply Firm.foldl
    | with_reducible apply Firm.ite_snd
    | with_reducible apply Firm.foldl_snd
    | with_reducible apply hput
    | with_reducible apply storeItem_firm
    | (refine Firm.mk' rfl rfl rfl rfl rfl rfl rfl rfl rfl rfl ?_
       first
         | with_reducible assumption
         | with_reducible apply Firm.ite
         | with_reducible apply Firm.foldl
         | with_reducible apply Firm.ite_snd
         | with_reducible apply Firm.foldl_snd
         | with_reducible apply hput
         | with_reducible apply storeItem_firm
         | split)
    | (intro x a hx)
    | (intro c; rfl)
    | (intro x hx; exact hx)
    | (intro x hx)
    | (intro x)
    | split
    | dsimp only

theorem unstage_firm {s0 s : State} {b : Nat} {id : Nat} (h : Firm s0 s) : Firm s0 (unstage b id s) := by
  unfold unstage
  try dsimp only
  repeat' first
    | with_reducible assumption
    | with_reducible apply Firm.ite
    | with_reducible apply Firm.foldl
    | with_reducible apply Firm.ite_snd
    | with_reducible apply Firm.foldl_snd
    | with_reducible apply modBasin_firm
    | (refine Firm.mk' rfl rfl rfl rfl rfl rfl rfl rfl rfl rfl ?_
       first
         | with_reducible assumption
         | with_reducible apply Firm.ite
         | with_reducible apply Firm.foldl
         | with_reducible apply Firm.ite_snd
         | with_reducible apply Firm.foldl_snd
         | with_reducible apply modBasin_firm
         | split)
    | (intro x a hx)
    | (intro c; rfl)
    | (intro x hx; exact hx)
    | (intro x hx)
    | (intro x)
    | split
    | dsimp only

theorem settleBursts_firm {s0 s : State} {put : Draft → State → State} {b n : Nat} (hput : ∀ d x, Firm s0 x → Firm s0 (put d x)) (h : Firm s0 s) : Firm s0 (settleBursts put b n s) := by
  induction n generalizing s with
  | zero =>
    unfold settleBursts
    try dsimp only
    repeat' first
      | with_reducible assumption
      | with_reducible apply ih
      | with_reducible apply Firm.ite
      | with_reducible apply Firm.foldl
      | with_reducible apply Firm.ite_snd
      | with_reducible apply hput
      | with_reducible apply closeRun_firm
      | with_reducible apply modBasin_firm
      | with_reducible apply storeDecided_firm
      | with_reducible apply unstage_firm
      | with_reducible apply writeGap_firm
      | (refine Firm.mk' rfl rfl rfl rfl rfl rfl rfl rfl rfl rfl ?_
         first
           | with_reducible assumption
           | with_reducible apply ih
           | with_reducible apply Firm.ite
           | with_reducible apply Firm.foldl
           | with_reducible apply Firm.ite_snd
           | with_reducible apply hput
           | with_reducible apply closeRun_firm
           | with_reducible apply modBasin_firm
           | with_reducible apply storeDecided_firm
           | with_reducible apply unstage_firm
           | with_reducible apply writeGap_firm
           | split)
      | (intro x a hx)
      | (intro c; rfl)
      | split
      | dsimp only
  | succ n ih =>
    unfold settleBursts
    try dsimp only
    repeat' first
      | with_reducible assumption
      | with_reducible apply ih
      | with_reducible apply Firm.ite
      | with_reducible apply Firm.foldl
      | with_reducible apply Firm.ite_snd
      | with_reducible apply hput
      | with_reducible apply closeRun_firm
      | with_reducible apply modBasin_firm
      | with_reducible apply storeDecided_firm
      | with_reducible apply unstage_firm
      | with_reducible apply writeGap_firm
      | (refine Firm.mk' rfl rfl rfl rfl rfl rfl rfl rfl rfl rfl ?_
         first
           | with_reducible assumption
           | with_reducible apply ih
           | with_reducible apply Firm.ite
           | with_reducible apply Firm.foldl
           | with_reducible apply Firm.ite_snd
           | with_reducible apply hput
           | with_reducible apply closeRun_firm
           | with_reducible apply modBasin_firm
           | with_reducible apply storeDecided_firm
           | with_reducible apply unstage_firm
           | with_reducible apply writeGap_firm
           | split)
      | (intro x a hx)
      | (intro c; rfl)
      | split
      | dsimp only

theorem settleAll_firm {s0 s : State} {put : Draft → State → State} {b : Nat} (h : Firm s0 s) (hput : ∀ d x, Firm s0 x → Firm s0 (put d x)) : Firm s0 (settleAll put b s) := by
  unfold settleAll
  try dsimp only
  repeat' first
    | with_reducible assumption
    | with_reducible apply Firm.ite
    | with_reducible apply Firm.foldl
    | with_reducible apply Firm.ite_snd
    | with_reducible apply Firm.foldl_snd
    | with_reducible apply hput
    | with_reducible apply settleBursts_firm
    | (refine Firm.mk' rfl rfl rfl rfl rfl rfl rfl rfl rfl rfl ?_
       first
         | with_reducible assumption
         | with_reducible apply Firm.ite
         | with_reducible apply Firm.foldl
         | with_reducible apply Firm.ite_snd
         | with_reducible apply Firm.foldl_snd
         | with_reducible apply hput
         | with_reducible apply settleBursts_firm
         | split)
    | (intro x a hx)
    | (intro c; rfl)
    | (intro x hx; exact hx)
    | (intro x hx)
    | (intro x)
    | split
    | dsimp only

theorem flushWeirs_firm {s0 s : State} {put : Draft → State → State} {b : Nat} (h : Firm s0 s) (hput : ∀ d x, Firm s0 x → Firm s0 (put d x)) : Firm s0 (flushWeirs put b s) := by
  unfold flushWeirs
  try dsimp only
  repeat' first
    | with_reducible assumption
    | with_reducible apply Firm.ite
    | with_reducible apply Firm.foldl
    | with_reducible apply Firm.ite_snd
    | with_reducible apply Firm.foldl_snd
    | with_reducible apply hput
    | with_reducible apply modWeir_firm
    | with_reducible apply storeForm_firm
    | (refine Firm.mk' rfl rfl rfl rfl rfl rfl rfl rfl rfl rfl ?_
       first
         | with_reducible assumption
         | with_reducible apply Firm.ite
         | with_reducible apply Firm.foldl
         | with_reducible apply Firm.ite_snd
         | with_reducible apply Firm.foldl_snd
         | with_reducible apply hput
         | with_reducible apply modWeir_firm
         | with_reducible apply storeForm_firm
         | split)
    | (intro x a hx)
    | (intro c; rfl)
    | (intro x hx; exact hx)
    | (intro x hx)
    | (intro x)
    | split
    | dsimp only

theorem putStop_firm {s0 s : State} {b : Nat} {d : Draft} (h : Firm s0 s) : Firm s0 (putStop b d s) := by
  unfold putStop
  try dsimp only
  repeat' first
    | with_reducible assumption
    | with_reducible apply Firm.ite
    | with_reducible apply Firm.foldl
    | with_reducible apply Firm.ite_snd
    | with_reducible apply Firm.foldl_snd
    | with_reducible apply loseItem_firm
    | with_reducible apply putOrLose_firm
    | (refine Firm.mk' rfl rfl rfl rfl rfl rfl rfl rfl rfl rfl ?_
       first
         | with_reducible assumption
         | with_reducible apply Firm.ite
         | with_reducible apply Firm.foldl
         | with_reducible apply Firm.ite_snd
         | with_reducible apply Firm.foldl_snd
         | with_reducible apply loseItem_firm
         | with_reducible apply putOrLose_firm
         | split)
    | (intro x a hx)
    | (intro c; rfl)
    | (intro x hx; exact hx)
    | (intro x hx)
    | (intro x)
    | split
    | dsimp only

theorem flushStaging_firm {s0 s : State} {b : Nat} (h : Firm s0 s) : Firm s0 (flushStaging b s) := by
  unfold flushStaging
  try dsimp only
  repeat' first
    | with_reducible assumption
    | with_reducible apply Firm.ite
    | with_reducible apply Firm.foldl
    | with_reducible apply Firm.ite_snd
    | with_reducible apply Firm.foldl_snd
    | with_reducible apply flushWeirs_firm
    | with_reducible apply putStop_firm
    | with_reducible apply settleAll_firm
    | with_reducible apply storeDecided_firm
    | with_reducible apply unstage_firm
    | (refine Firm.mk' rfl rfl rfl rfl rfl rfl rfl rfl rfl rfl ?_
       first
         | with_reducible assumption
         | with_reducible apply Firm.ite
         | with_reducible apply Firm.foldl
         | with_reducible apply Firm.ite_snd
         | with_reducible apply Firm.foldl_snd
         | with_reducible apply flushWeirs_firm
         | with_reducible apply putStop_firm
         | with_reducible apply settleAll_firm
         | with_reducible apply storeDecided_firm
         | with_reducible apply unstage_firm
         | split)
    | (intro x a hx)
    | (intro c; rfl)
    | (intro x hx; exact hx)
    | (intro x hx)
    | (intro x)
    | split
    | dsimp only

theorem loseWeirs_firm {s0 s : State} {b : Nat} {cause : Nat} (h : Firm s0 s) : Firm s0 (loseWeirs b cause s) := by
  unfold loseWeirs
  try dsimp only
  repeat' first
    | with_reducible assumption
    | with_reducible apply Firm.ite
    | with_reducible apply Firm.foldl
    | with_reducible apply Firm.ite_snd
    | with_reducible apply Firm.foldl_snd
    | with_reducible apply loseItem_firm
    | with_reducible apply modWeir_firm
    | (refine Firm.mk' rfl rfl rfl rfl rfl rfl rfl rfl rfl rfl ?_
       first
         | with_reducible assumption
         | with_reducible apply Firm.ite
         | with_reducible apply Firm.foldl
         | with_reducible apply Firm.ite_snd
         | with_reducible apply Firm.foldl_snd
         | with_reducible apply loseItem_firm
         | with_reducible apply modWeir_firm
         | split)
    | (intro x a hx)
    | (intro c; rfl)
    | (intro x hx; exact hx)
    | (intro x hx)
    | (intro x)
    | split
    | dsimp only

theorem loseHeld_firm {s0 s : State} {b : Nat} {cause : Nat} (h : Firm s0 s) : Firm s0 (loseHeld b cause s) := by
  unfold loseHeld
  try dsimp only
  repeat' first
    | with_reducible assumption
    | with_reducible apply Firm.ite
    | with_reducible apply Firm.foldl
    | with_reducible apply Firm.ite_snd
    | with_reducible apply Firm.foldl_snd
    | with_reducible apply loseItem_firm
    | with_reducible apply loseWeirs_firm
    | with_reducible apply modBasin_firm
    | (refine Firm.mk' rfl rfl rfl rfl rfl rfl rfl rfl rfl rfl ?_
       first
         | with_reducible assumption
         | with_reducible apply Firm.ite
         | with_reducible apply Firm.foldl
         | with_reducible apply Firm.ite_snd
         | with_reducible apply Firm.foldl_snd
         | with_reducible apply loseItem_firm
         | with_reducible apply loseWeirs_firm
         | with_reducible apply modBasin_firm
         | split)
    | (intro x a hx)
    | (intro c; rfl)
    | (intro x hx; exact hx)
    | (intro x hx)
    | (intro x)
    | split
    | dsimp only

theorem keepOrLose_firm {s0 s : State} {b : Nat} {tail : Nat} {d : Draft} (h : Firm s0 s) : Firm s0 (keepOrLose b tail d s) := by
  unfold keepOrLose
  try dsimp only
  repeat' first
    | with_reducible assumption
    | with_reducible apply Firm.ite
    | with_reducible apply Firm.foldl
    | with_reducible apply Firm.ite_snd
    | with_reducible apply Firm.foldl_snd
    | with_reducible apply loseItem_firm
    | with_reducible apply putOrLose_firm
    | (refine Firm.mk' rfl rfl rfl rfl rfl rfl rfl rfl rfl rfl ?_
       first
         | with_reducible assumption
         | with_reducible apply Firm.ite
         | with_reducible apply Firm.foldl
         | with_reducible apply Firm.ite_snd
         | with_reducible apply Firm.foldl_snd
         | with_reducible apply loseItem_firm
         | with_reducible apply putOrLose_firm
         | split)
    | (intro x a hx)
    | (intro c; rfl)
    | (intro x hx; exact hx)
    | (intro x hx)
    | (intro x)
    | split
    | dsimp only

theorem putEnd_firm {s0 s : State} {b : Nat} {d : Draft} (h : Firm s0 s) : Firm s0 (putEnd b d s) := by
  unfold putEnd
  try dsimp only
  repeat' first
    | with_reducible assumption
    | with_reducible apply Firm.ite
    | with_reducible apply Firm.foldl
    | with_reducible apply Firm.ite_snd
    | with_reducible apply Firm.foldl_snd
    | with_reducible apply keepOrLose_firm
    | with_reducible apply putOrLose_firm
    | (refine Firm.mk' rfl rfl rfl rfl rfl rfl rfl rfl rfl rfl ?_
       first
         | with_reducible assumption
         | with_reducible apply Firm.ite
         | with_reducible apply Firm.foldl
         | with_reducible apply Firm.ite_snd
         | with_reducible apply Firm.foldl_snd
         | with_reducible apply keepOrLose_firm
         | with_reducible apply putOrLose_firm
         | split)
    | (intro x a hx)
    | (intro c; rfl)
    | (intro x hx; exact hx)
    | (intro x hx)
    | (intro x)
    | split
    | dsimp only

theorem endCapture_firm {s0 s : State} {b : Nat} {cause : Nat} {cmd : Option Cause} (h : Firm s0 s) : Firm s0 (endCapture b cause cmd s) := by
  unfold endCapture
  try dsimp only
  repeat' first
    | with_reducible assumption
    | with_reducible apply Firm.ite
    | with_reducible apply Firm.foldl
    | with_reducible apply Firm.ite_snd
    | with_reducible apply Firm.foldl_snd
    | with_reducible apply closeSeg_firm
    | with_reducible apply putFit_firm
    | with_reducible apply setCapState_firm
    | with_reducible apply writeGap_firm
    | (refine Firm.mk' rfl rfl rfl rfl rfl rfl rfl rfl rfl rfl ?_
       first
         | with_reducible assumption
         | with_reducible apply Firm.ite
         | with_reducible apply Firm.foldl
         | with_reducible apply Firm.ite_snd
         | with_reducible apply Firm.foldl_snd
         | with_reducible apply closeSeg_firm
         | with_reducible apply putFit_firm
         | with_reducible apply setCapState_firm
         | with_reducible apply writeGap_firm
         | split)
    | (intro x a hx)
    | (intro c; rfl)
    | (intro x hx; exact hx)
    | (intro x hx)
    | (intro x)
    | split
    | dsimp only

theorem stopKey_firm {s0 s : State} {b : Nat} (h : Firm s0 s) : Firm s0 (stopKey b s) := by
  unfold stopKey
  try dsimp only
  repeat' first
    | with_reducible assumption
    | with_reducible apply Firm.ite
    | with_reducible apply Firm.foldl
    | with_reducible apply Firm.ite_snd
    | with_reducible apply Firm.foldl_snd
    | with_reducible apply closeRun_firm
    | with_reducible apply endCapture_firm
    | with_reducible apply loseHeld_firm
    | with_reducible apply loseItem_firm
    | with_reducible apply spendKey_firm
    | (refine Firm.mk' rfl rfl rfl rfl rfl rfl rfl rfl rfl rfl ?_
       first
         | with_reducible assumption
         | with_reducible apply Firm.ite
         | with_reducible apply Firm.foldl
         | with_reducible apply Firm.ite_snd
         | with_reducible apply Firm.foldl_snd
         | with_reducible apply closeRun_firm
         | with_reducible apply endCapture_firm
         | with_reducible apply loseHeld_firm
         | with_reducible apply loseItem_firm
         | with_reducible apply spendKey_firm
         | split)
    | (intro x a hx)
    | (intro c; rfl)
    | (intro x hx; exact hx)
    | (intro x hx)
    | (intro x)
    | split
    | dsimp only

theorem settleKeys_firm {s0 s : State} {b : Nat} (h : Firm s0 s) : Firm s0 (settleKeys b s) := by
  unfold settleKeys
  try dsimp only
  repeat' first
    | with_reducible assumption
    | with_reducible apply Firm.ite
    | with_reducible apply Firm.foldl
    | with_reducible apply Firm.ite_snd
    | with_reducible apply Firm.foldl_snd
    | with_reducible apply stopKey_firm
    | (refine Firm.mk' rfl rfl rfl rfl rfl rfl rfl rfl rfl rfl ?_
       first
         | with_reducible assumption
         | with_reducible apply Firm.ite
         | with_reducible apply Firm.foldl
         | with_reducible apply Firm.ite_snd
         | with_reducible apply Firm.foldl_snd
         | with_reducible apply stopKey_firm
         | split)
    | (intro x a hx)
    | (intro c; rfl)
    | (intro x hx; exact hx)
    | (intro x hx)
    | (intro x)
    | split
    | dsimp only

theorem stopFull_firm {s0 s : State} {b : Nat} {d : Option Draft} (h : Firm s0 s) : Firm s0 (stopFull b d s) := by
  unfold stopFull
  try dsimp only
  repeat' first
    | with_reducible assumption
    | with_reducible apply Firm.ite
    | with_reducible apply Firm.foldl
    | with_reducible apply Firm.ite_snd
    | with_reducible apply Firm.foldl_snd
    | with_reducible apply closeRun_firm
    | with_reducible apply endCapture_firm
    | with_reducible apply keepOrLose_firm
    | with_reducible apply loseHeld_firm
    | with_reducible apply settleKeys_firm
    | with_reducible apply writeGap_firm
    | (refine Firm.mk' rfl rfl rfl rfl rfl rfl rfl rfl rfl rfl ?_
       first
         | with_reducible assumption
         | with_reducible apply Firm.ite
         | with_reducible apply Firm.foldl
         | with_reducible apply Firm.ite_snd
         | with_reducible apply Firm.foldl_snd
         | with_reducible apply closeRun_firm
         | with_reducible apply endCapture_firm
         | with_reducible apply keepOrLose_firm
         | with_reducible apply loseHeld_firm
         | with_reducible apply settleKeys_firm
         | with_reducible apply writeGap_firm
         | split)
    | (intro x a hx)
    | (intro c; rfl)
    | (intro x hx; exact hx)
    | (intro x hx)
    | (intro x)
    | split
    | dsimp only

theorem stopCapture_firm {s0 s : State} {b : Nat} {cause : Nat} {cmd : Option Cause} (h : Firm s0 s) : Firm s0 (stopCapture b cause cmd s) := by
  unfold stopCapture
  try dsimp only
  repeat' first
    | with_reducible assumption
    | with_reducible apply Firm.ite
    | with_reducible apply Firm.foldl
    | with_reducible apply Firm.ite_snd
    | with_reducible apply Firm.foldl_snd
    | with_reducible apply closeRun_firm
    | with_reducible apply endCapture_firm
    | with_reducible apply flushStaging_firm
    | with_reducible apply modBasin_firm
    | with_reducible apply putEnd_firm
    | with_reducible apply setCapState_firm
    | with_reducible apply settleKeys_firm
    | (refine Firm.mk' rfl rfl rfl rfl rfl rfl rfl rfl rfl rfl ?_
       first
         | with_reducible assumption
         | with_reducible apply Firm.ite
         | with_reducible apply Firm.foldl
         | with_reducible apply Firm.ite_snd
         | with_reducible apply Firm.foldl_snd
         | with_reducible apply closeRun_firm
         | with_reducible apply endCapture_firm
         | with_reducible apply flushStaging_firm
         | with_reducible apply modBasin_firm
         | with_reducible apply putEnd_firm
         | with_reducible apply setCapState_firm
         | with_reducible apply settleKeys_firm
         | split)
    | (intro x a hx)
    | (intro c; rfl)
    | (intro x hx; exact hx)
    | (intro x hx)
    | (intro x)
    | split
    | dsimp only

theorem settleBasin_firm {s0 s : State} {b : Nat} (h : Firm s0 s) : Firm s0 (settleBasin b s) := by
  unfold settleBasin
  try dsimp only
  repeat' first
    | with_reducible assumption
    | with_reducible apply Firm.ite
    | with_reducible apply Firm.foldl
    | with_reducible apply Firm.ite_snd
    | with_reducible apply Firm.foldl_snd
    | with_reducible apply settleKeys_firm
    | with_reducible apply stopCapture_firm
    | (refine Firm.mk' rfl rfl rfl rfl rfl rfl rfl rfl rfl rfl ?_
       first
         | with_reducible assumption
         | with_reducible apply Firm.ite
         | with_reducible apply Firm.foldl
         | with_reducible apply Firm.ite_snd
         | with_reducible apply Firm.foldl_snd
         | with_reducible apply settleKeys_firm
         | with_reducible apply stopCapture_firm
         | split)
    | (intro x a hx)
    | (intro c; rfl)
    | (intro x hx; exact hx)
    | (intro x hx)
    | (intro x)
    | split
    | dsimp only

theorem putRec_firm {s0 s : State} {b : Nat} {d : Draft} (h : Firm s0 s) : Firm s0 (putRec b d s) := by
  unfold putRec
  try dsimp only
  repeat' first
    | with_reducible assumption
    | with_reducible apply Firm.ite
    | with_reducible apply Firm.foldl
    | with_reducible apply Firm.ite_snd
    | with_reducible apply Firm.foldl_snd
    | with_reducible apply putStop_firm
    | with_reducible apply settleBasin_firm
    | with_reducible apply stopFull_firm
    | (refine Firm.mk' rfl rfl rfl rfl rfl rfl rfl rfl rfl rfl ?_
       first
         | with_reducible assumption
         | with_reducible apply Firm.ite
         | with_reducible apply Firm.foldl
         | with_reducible apply Firm.ite_snd
         | with_reducible apply Firm.foldl_snd
         | with_reducible apply putStop_firm
         | with_reducible apply settleBasin_firm
         | with_reducible apply stopFull_firm
         | split)
    | (intro x a hx)
    | (intro c; rfl)
    | (intro x hx; exact hx)
    | (intro x hx)
    | (intro x)
    | split
    | dsimp only

theorem openNext_firm {s0 s : State} {b : Nat} (h : Firm s0 s) : Firm s0 (openNext b s) := by
  unfold openNext
  try dsimp only
  repeat' first
    | with_reducible assumption
    | with_reducible apply Firm.ite
    | with_reducible apply Firm.foldl
    | with_reducible apply Firm.ite_snd
    | with_reducible apply Firm.foldl_snd
    | with_reducible apply ensureRoom_firm
    | with_reducible apply settleBasin_firm
    | with_reducible apply stopKey_firm
    | (refine Firm.mk' rfl rfl rfl rfl rfl rfl rfl rfl rfl rfl ?_
       first
         | with_reducible assumption
         | with_reducible apply Firm.ite
         | with_reducible apply Firm.foldl
         | with_reducible apply Firm.ite_snd
         | with_reducible apply Firm.foldl_snd
         | with_reducible apply ensureRoom_firm
         | with_reducible apply settleBasin_firm
         | with_reducible apply stopKey_firm
         | split)
    | (intro x a hx)
    | (intro c; rfl)
    | (intro x hx; exact hx)
    | (intro x hx)
    | (intro x)
    | split
    | dsimp only

theorem putNote_firm {s0 s : State} {b : Nat} {d : Draft} (h : Firm s0 s) : Firm s0 (putNote b d s) := by
  unfold putNote
  try dsimp only
  repeat' first
    | with_reducible assumption
    | with_reducible apply Firm.ite
    | with_reducible apply Firm.foldl
    | with_reducible apply Firm.ite_snd
    | with_reducible apply Firm.foldl_snd
    | with_reducible apply putRec_firm
    | (refine Firm.mk' rfl rfl rfl rfl rfl rfl rfl rfl rfl rfl ?_
       first
         | with_reducible assumption
         | with_reducible apply Firm.ite
         | with_reducible apply Firm.foldl
         | with_reducible apply Firm.ite_snd
         | with_reducible apply Firm.foldl_snd
         | with_reducible apply putRec_firm
         | split)
    | (intro x a hx)
    | (intro c; rfl)
    | (intro x hx; exact hx)
    | (intro x hx)
    | (intro x)
    | split
    | dsimp only

theorem basinItem_firm {s0 s : State} {b : Nat} {i : StageItem} (h : Firm s0 s) : Firm s0 (basinItem b i s) := by
  unfold basinItem
  try dsimp only
  repeat' first
    | with_reducible assumption
    | with_reducible apply Firm.ite
    | with_reducible apply Firm.foldl
    | with_reducible apply Firm.ite_snd
    | with_reducible apply Firm.foldl_snd
    | with_reducible apply loseItem_firm
    | with_reducible apply modBasin_firm
    | with_reducible apply putRec_firm
    | with_reducible apply sramWrite_firm
    | with_reducible apply storeItem_firm
    | (refine Firm.mk' rfl rfl rfl rfl rfl rfl rfl rfl rfl rfl ?_
       first
         | with_reducible assumption
         | with_reducible apply Firm.ite
         | with_reducible apply Firm.foldl
         | with_reducible apply Firm.ite_snd
         | with_reducible apply Firm.foldl_snd
         | with_reducible apply loseItem_firm
         | with_reducible apply modBasin_firm
         | with_reducible apply putRec_firm
         | with_reducible apply sramWrite_firm
         | with_reducible apply storeItem_firm
         | split)
    | (intro x a hx)
    | (intro c; rfl)
    | (intro x hx; exact hx)
    | (intro x hx)
    | (intro x)
    | split
    | dsimp only

theorem beginCapture_firm {s0 s : State} {b : Nat} {t : Stamp} {cmd : Option Cause} (h : Firm s0 s) : Firm s0 (beginCapture b t cmd s) := by
  unfold beginCapture
  try dsimp only
  repeat' first
    | with_reducible assumption
    | with_reducible apply Firm.ite
    | with_reducible apply Firm.foldl
    | with_reducible apply Firm.ite_snd
    | with_reducible apply Firm.foldl_snd
    | with_reducible apply putNote_firm
    | with_reducible apply setCapState_firm
    | (refine Firm.mk' rfl rfl rfl rfl rfl rfl rfl rfl rfl rfl ?_
       first
         | with_reducible assumption
         | with_reducible apply Firm.ite
         | with_reducible apply Firm.foldl
         | with_reducible apply Firm.ite_snd
         | with_reducible apply Firm.foldl_snd
         | with_reducible apply putNote_firm
         | with_reducible apply setCapState_firm
         | split)
    | (intro x a hx)
    | (intro c; rfl)
    | (intro x hx; exact hx)
    | (intro x hx)
    | (intro x)
    | split
    | dsimp only

theorem fireAt_firm {s0 s : State} {n : Nat} {kind : Nat} {rule : Nat} {arg : Nat} {peer : Nat} {own : Option Nat} {t : Stamp} {cmd : Option Cause} {b : Nat} (h : Firm s0 s) : Firm s0 (fireAt n kind rule arg peer own t cmd s b) := by
  unfold fireAt
  try dsimp only
  repeat' first
    | with_reducible assumption
    | with_reducible apply Firm.ite
    | with_reducible apply Firm.foldl
    | with_reducible apply Firm.ite_snd
    | with_reducible apply Firm.foldl_snd
    | with_reducible apply beginCapture_firm
    | with_reducible apply modBasin_firm
    | with_reducible apply putNote_firm
    | with_reducible apply setCapState_firm
    | with_reducible apply stopCapture_firm
    | (refine Firm.mk' rfl rfl rfl rfl rfl rfl rfl rfl rfl rfl ?_
       first
         | with_reducible assumption
         | with_reducible apply Firm.ite
         | with_reducible apply Firm.foldl
         | with_reducible apply Firm.ite_snd
         | with_reducible apply Firm.foldl_snd
         | with_reducible apply beginCapture_firm
         | with_reducible apply modBasin_firm
         | with_reducible apply putNote_firm
         | with_reducible apply setCapState_firm
         | with_reducible apply stopCapture_firm
         | split)
    | (intro x a hx)
    | (intro c; rfl)
    | (intro x hx; exact hx)
    | (intro x hx)
    | (intro x)
    | split
    | dsimp only

theorem fireTrigger_firm {s0 s : State} {n : Nat} {kind : Nat} {rule : Nat} {arg : Nat} {peer : Nat} {own : Option Nat} {t : Stamp} {cmd : Option Cause} (h : Firm s0 s) : Firm s0 (fireTrigger n kind rule arg peer own t cmd s) := by
  unfold fireTrigger
  try dsimp only
  repeat' first
    | with_reducible assumption
    | with_reducible apply Firm.ite
    | with_reducible apply Firm.foldl
    | with_reducible apply Firm.ite_snd
    | with_reducible apply Firm.foldl_snd
    | with_reducible apply fireAt_firm
    | with_reducible apply raise_firm
    | (refine Firm.mk' rfl rfl rfl rfl rfl rfl rfl rfl rfl rfl ?_
       first
         | with_reducible assumption
         | with_reducible apply Firm.ite
         | with_reducible apply Firm.foldl
         | with_reducible apply Firm.ite_snd
         | with_reducible apply Firm.foldl_snd
         | with_reducible apply fireAt_firm
         | with_reducible apply raise_firm
         | split)
    | (intro x a hx)
    | (intro c; rfl)
    | (intro x hx; exact hx)
    | (intro x hx)
    | (intro x)
    | split
    | dsimp only

theorem stopAllCaptures_firm {s0 s : State} {cause : Nat} (h : Firm s0 s) : Firm s0 (stopAllCaptures cause s) := by
  unfold stopAllCaptures
  try dsimp only
  repeat' first
    | with_reducible assumption
    | with_reducible apply Firm.ite
    | with_reducible apply Firm.foldl
    | with_reducible apply Firm.ite_snd
    | with_reducible apply Firm.foldl_snd
    | with_reducible apply stopCapture_firm
    | (refine Firm.mk' rfl rfl rfl rfl rfl rfl rfl rfl rfl rfl ?_
       first
         | with_reducible assumption
         | with_reducible apply Firm.ite
         | with_reducible apply Firm.foldl
         | with_reducible apply Firm.ite_snd
         | with_reducible apply Firm.foldl_snd
         | with_reducible apply stopCapture_firm
         | split)
    | (intro x a hx)
    | (intro c; rfl)
    | (intro x hx; exact hx)
    | (intro x hx)
    | (intro x)
    | split
    | dsimp only

theorem epochAll_firm {s0 s : State} (h : Firm s0 s) : Firm s0 (epochAll s) := by
  unfold epochAll
  try dsimp only
  repeat' first
    | with_reducible assumption
    | with_reducible apply Firm.ite
    | with_reducible apply Firm.foldl
    | with_reducible apply Firm.ite_snd
    | with_reducible apply Firm.foldl_snd
    | with_reducible apply closeRun_firm
    | with_reducible apply putNote_firm
    | with_reducible apply putRec_firm
    | (refine Firm.mk' rfl rfl rfl rfl rfl rfl rfl rfl rfl rfl ?_
       first
         | with_reducible assumption
         | with_reducible apply Firm.ite
         | with_reducible apply Firm.foldl
         | with_reducible apply Firm.ite_snd
         | with_reducible apply Firm.foldl_snd
         | with_reducible apply closeRun_firm
         | with_reducible apply putNote_firm
         | with_reducible apply putRec_firm
         | split)
    | (intro x a hx)
    | (intro c; rfl)
    | (intro x hx; exact hx)
    | (intro x hx)
    | (intro x)
    | split
    | dsimp only

end Sys2Proof.Machine
end

