-- ==== Sys2Proof/Laws/FirmFence.lean ====
section
/-!
SUPPORT. What the operations of Machine/Fence.lean keep (`Firm`).
-/
set_option Elab.async false
set_option linter.unusedTactic false
set_option linter.unreachableTactic false
set_option linter.unusedVariables false
namespace Sys2Proof.Machine

theorem modXfer_firm {s0 s : State} {n : Nat} {f : Xfer → Xfer} (h : Firm s0 s) : Firm s0 (modXfer n f s) := by
  unfold modXfer
  try dsimp only
  repeat' first
    | with_reducible assumption
    | with_reducible apply Firm.ite
    | with_reducible apply Firm.foldl
    | with_reducible apply Firm.ite_snd
    | with_reducible apply Firm.foldl_snd
    | (refine Firm.mk' rfl rfl rfl rfl rfl rfl rfl rfl rfl rfl ?_
       first
         | with_reducible assumption
         | with_reducible apply Firm.ite
         | with_reducible apply Firm.foldl
         | with_reducible apply Firm.ite_snd
         | with_reducible apply Firm.foldl_snd
         | split)
    | (intro x a hx)
    | (intro c; rfl)
    | (intro x hx; exact hx)
    | (intro x hx)
    | (intro x)
    | split
    | dsimp only

theorem setPool_firm {s0 s : State} {segs : List Nat} {v : Nat} (h : Firm s0 s) : Firm s0 (setPool segs v s) := by
  unfold setPool
  try dsimp only
  repeat' first
    | with_reducible assumption
    | with_reducible apply Firm.ite
    | with_reducible apply Firm.foldl
    | with_reducible apply Firm.ite_snd
    | with_reducible apply Firm.foldl_snd
    | (refine Firm.mk' rfl rfl rfl rfl rfl rfl rfl rfl rfl rfl ?_
       first
         | with_reducible assumption
         | with_reducible apply Firm.ite
         | with_reducible apply Firm.foldl
         | with_reducible apply Firm.ite_snd
         | with_reducible apply Firm.foldl_snd
         | split)
    | (intro x a hx)
    | (intro c; rfl)
    | (intro x hx; exact hx)
    | (intro x hx)
    | (intro x)
    | split
    | dsimp only

theorem xferDone_firm {s0 s : State} {n : Nat} (h : Firm s0 s) : Firm s0 (xferDone n s) := by
  unfold xferDone
  try dsimp only
  repeat' first
    | with_reducible assumption
    | with_reducible apply Firm.ite
    | with_reducible apply Firm.foldl
    | with_reducible apply Firm.ite_snd
    | with_reducible apply Firm.foldl_snd
    | with_reducible apply modXfer_firm
    | with_reducible apply raise_firm
    | (refine Firm.mk' rfl rfl rfl rfl rfl rfl rfl rfl rfl rfl ?_
       first
         | with_reducible assumption
         | with_reducible apply Firm.ite
         | with_reducible apply Firm.foldl
         | with_reducible apply Firm.ite_snd
         | with_reducible apply Firm.foldl_snd
         | with_reducible apply modXfer_firm
         | with_reducible apply raise_firm
         | split)
    | (intro x a hx)
    | (intro c; rfl)
    | (intro x hx; exact hx)
    | (intro x hx)
    | (intro x)
    | split
    | dsimp only

theorem xferFail_firm {s0 s : State} {n : Nat} {cause : Nat} {status : Nat} (h : Firm s0 s) : Firm s0 (xferFail n cause status s) := by
  unfold xferFail
  try dsimp only
  repeat' first
    | with_reducible assumption
    | with_reducible apply Firm.ite
    | with_reducible apply Firm.foldl
    | with_reducible apply Firm.ite_snd
    | with_reducible apply Firm.foldl_snd
    | with_reducible apply modXfer_firm
    | with_reducible apply setPool_firm
    | with_reducible apply xferDone_firm
    | (refine Firm.mk' rfl rfl rfl rfl rfl rfl rfl rfl rfl rfl ?_
       first
         | with_reducible assumption
         | with_reducible apply Firm.ite
         | with_reducible apply Firm.foldl
         | with_reducible apply Firm.ite_snd
         | with_reducible apply Firm.foldl_snd
         | with_reducible apply modXfer_firm
         | with_reducible apply setPool_firm
         | with_reducible apply xferDone_firm
         | split)
    | (intro x a hx)
    | (intro c; rfl)
    | (intro x hx; exact hx)
    | (intro x hx)
    | (intro x)
    | split
    | dsimp only

theorem abortLoads_firm {s0 s : State} {seg : Nat} (h : Firm s0 s) : Firm s0 (abortLoads seg s) := by
  unfold abortLoads
  try dsimp only
  repeat' first
    | with_reducible assumption
    | with_reducible apply Firm.ite
    | with_reducible apply Firm.foldl
    | with_reducible apply Firm.ite_snd
    | with_reducible apply Firm.foldl_snd
    | with_reducible apply xferFail_firm
    | (refine Firm.mk' rfl rfl rfl rfl rfl rfl rfl rfl rfl rfl ?_
       first
         | with_reducible assumption
         | with_reducible apply Firm.ite
         | with_reducible apply Firm.foldl
         | with_reducible apply Firm.ite_snd
         | with_reducible apply Firm.foldl_snd
         | with_reducible apply xferFail_firm
         | split)
    | (intro x a hx)
    | (intro c; rfl)
    | (intro x hx; exact hx)
    | (intro x hx)
    | (intro x)
    | split
    | dsimp only

theorem fenceBuffer_firm {s0 s : State} {b : Nat} {seg : Nat} (h : Firm s0 s) : Firm s0 (fenceBuffer b seg s) := by
  unfold fenceBuffer
  try dsimp only
  repeat' first
    | with_reducible assumption
    | with_reducible apply Firm.ite
    | with_reducible apply Firm.foldl
    | with_reducible apply Firm.ite_snd
    | with_reducible apply Firm.foldl_snd
    | with_reducible apply closeRun_firm
    | with_reducible apply loseHeld_firm
    | with_reducible apply loseItem_firm
    | with_reducible apply loseWeirs_firm
    | with_reducible apply modBasin_firm
    | with_reducible apply setCapState_firm
    | (refine Firm.mk' rfl rfl rfl rfl rfl rfl rfl rfl rfl rfl ?_
       first
         | with_reducible assumption
         | with_reducible apply Firm.ite
         | with_reducible apply Firm.foldl
         | with_reducible apply Firm.ite_snd
         | with_reducible apply Firm.foldl_snd
         | with_reducible apply closeRun_firm
         | with_reducible apply loseHeld_firm
         | with_reducible apply loseItem_firm
         | with_reducible apply loseWeirs_firm
         | with_reducible apply modBasin_firm
         | with_reducible apply setCapState_firm
         | split)
    | (intro x a hx)
    | (intro c; rfl)
    | (intro x hx; exact hx)
    | (intro x hx)
    | (intro x)
    | split
    | dsimp only

theorem openNextAll_firm {s0 s : State} (h : Firm s0 s) : Firm s0 (openNextAll s) := by
  unfold openNextAll
  try dsimp only
  repeat' first
    | with_reducible assumption
    | with_reducible apply Firm.ite
    | with_reducible apply Firm.foldl
    | with_reducible apply Firm.ite_snd
    | with_reducible apply Firm.foldl_snd
    | with_reducible apply openNext_firm
    | with_reducible apply putRec_firm
    | with_reducible apply settleAll_firm
    | (refine Firm.mk' rfl rfl rfl rfl rfl rfl rfl rfl rfl rfl ?_
       first
         | with_reducible assumption
         | with_reducible apply Firm.ite
         | with_reducible apply Firm.foldl
         | with_reducible apply Firm.ite_snd
         | with_reducible apply Firm.foldl_snd
         | with_reducible apply openNext_firm
         | with_reducible apply putRec_firm
         | with_reducible apply settleAll_firm
         | split)
    | (intro x a hx)
    | (intro c; rfl)
    | (intro x hx; exact hx)
    | (intro x hx)
    | (intro x)
    | split
    | dsimp only

theorem fenceSegment_firm {s0 s : State} {inj : Bool} {cause : Nat} {seg : Nat} (h : Firm s0 s) : Firm s0 (fenceSegment inj cause seg s) := by
  unfold fenceSegment
  try dsimp only
  repeat' first
    | with_reducible assumption
    | with_reducible apply Firm.ite
    | with_reducible apply Firm.foldl
    | with_reducible apply Firm.ite_snd
    | with_reducible apply Firm.foldl_snd
    | with_reducible apply abortLoads_firm
    | with_reducible apply fenceBuffer_firm
    | with_reducible apply raiseWith_firm
    | (refine Firm.mk' rfl rfl rfl rfl rfl rfl rfl rfl rfl rfl ?_
       first
         | with_reducible assumption
         | with_reducible apply Firm.ite
         | with_reducible apply Firm.foldl
         | with_reducible apply Firm.ite_snd
         | with_reducible apply Firm.foldl_snd
         | with_reducible apply abortLoads_firm
         | with_reducible apply fenceBuffer_firm
         | with_reducible apply raiseWith_firm
         | split)
    | (intro x a hx)
    | (intro c; rfl)
    | (intro x hx; exact hx)
    | (intro x hx)
    | (intro x)
    | split
    | dsimp only

theorem markSegment_firm {s0 s : State} {inj : Bool} {seg : Nat} (h : Firm s0 s) : Firm s0 (markSegment inj seg s) := by
  unfold markSegment
  try dsimp only
  repeat' first
    | with_reducible assumption
    | with_reducible apply Firm.ite
    | with_reducible apply Firm.foldl
    | with_reducible apply Firm.ite_snd
    | with_reducible apply Firm.foldl_snd
    | with_reducible apply fenceSegment_firm
    | (refine Firm.mk' rfl rfl rfl rfl rfl rfl rfl rfl rfl rfl ?_
       first
         | with_reducible assumption
         | with_reducible apply Firm.ite
         | with_reducible apply Firm.foldl
         | with_reducible apply Firm.ite_snd
         | with_reducible apply Firm.foldl_snd
         | with_reducible apply fenceSegment_firm
         | split)
    | (intro x a hx)
    | (intro c; rfl)
    | (intro x hx; exact hx)
    | (intro x hx)
    | (intro x)
    | split
    | dsimp only

theorem releaseSegment_firm {s0 s : State} {seg : Nat} (h : Firm s0 s) : Firm s0 (releaseSegment seg s) := by
  unfold releaseSegment
  try dsimp only
  repeat' first
    | with_reducible assumption
    | with_reducible apply Firm.ite
    | with_reducible apply Firm.foldl
    | with_reducible apply Firm.ite_snd
    | with_reducible apply Firm.foldl_snd
    | with_reducible apply fenceSegment_firm
    | (refine Firm.mk' rfl rfl rfl rfl rfl rfl rfl rfl rfl rfl ?_
       first
         | with_reducible assumption
         | with_reducible apply Firm.ite
         | with_reducible apply Firm.foldl
         | with_reducible apply Firm.ite_snd
         | with_reducible apply Firm.foldl_snd
         | with_reducible apply fenceSegment_firm
         | split)
    | (intro x a hx)
    | (intro c; rfl)
    | (intro x hx; exact hx)
    | (intro x hx)
    | (intro x)
    | split
    | dsimp only

theorem releaseSegments_firm {s0 s : State} {segs : List Nat} (h : Firm s0 s) : Firm s0 (releaseSegments segs s) := by
  unfold releaseSegments
  try dsimp only
  repeat' first
    | with_reducible assumption
    | with_reducible apply Firm.ite
    | with_reducible apply Firm.foldl
    | with_reducible apply Firm.ite_snd
    | with_reducible apply Firm.foldl_snd
    | with_reducible apply releaseSegment_firm
    | (refine Firm.mk' rfl rfl rfl rfl rfl rfl rfl rfl rfl rfl ?_
       first
         | with_reducible assumption
         | with_reducible apply Firm.ite
         | with_reducible apply Firm.foldl
         | with_reducible apply Firm.ite_snd
         | with_reducible apply Firm.foldl_snd
         | with_reducible apply releaseSegment_firm
         | split)
    | (intro x a hx)
    | (intro c; rfl)
    | (intro x hx; exact hx)
    | (intro x hx)
    | (intro x)
    | split
    | dsimp only

theorem fenceStack_firm {s0 s : State} {cause : Nat} {n : Nat} (h : Firm s0 s) : Firm s0 (fenceStack cause n s) := by
  unfold fenceStack
  try dsimp only
  repeat' first
    | with_reducible assumption
    | with_reducible apply Firm.ite
    | with_reducible apply Firm.foldl
    | with_reducible apply Firm.ite_snd
    | with_reducible apply Firm.foldl_snd
    | with_reducible apply fenceSegment_firm
    | with_reducible apply modStack_firm
    | with_reducible apply openNextAll_firm
    | with_reducible apply raise_firm
    | (refine Firm.mk' rfl rfl rfl rfl rfl rfl rfl rfl rfl rfl ?_
       first
         | with_reducible assumption
         | with_reducible apply Firm.ite
         | with_reducible apply Firm.foldl
         | with_reducible apply Firm.ite_snd
         | with_reducible apply Firm.foldl_snd
         | with_reducible apply fenceSegment_firm
         | with_reducible apply modStack_firm
         | with_reducible apply openNextAll_firm
         | with_reducible apply raise_firm
         | split)
    | (intro x a hx)
    | (intro c; rfl)
    | (intro x hx; exact hx)
    | (intro x hx)
    | (intro x)
    | split
    | dsimp only

theorem correctedEvent_firm {s0 s : State} {n : Nat} (h : Firm s0 s) : Firm s0 (correctedEvent n s) := by
  unfold correctedEvent
  try dsimp only
  repeat' first
    | with_reducible assumption
    | with_reducible apply Firm.ite
    | with_reducible apply Firm.foldl
    | with_reducible apply Firm.ite_snd
    | with_reducible apply Firm.foldl_snd
    | with_reducible apply modStack_firm
    | with_reducible apply raise_firm
    | (refine Firm.mk' rfl rfl rfl rfl rfl rfl rfl rfl rfl rfl ?_
       first
         | with_reducible assumption
         | with_reducible apply Firm.ite
         | with_reducible apply Firm.foldl
         | with_reducible apply Firm.ite_snd
         | with_reducible apply Firm.foldl_snd
         | with_reducible apply modStack_firm
         | with_reducible apply raise_firm
         | split)
    | (intro x a hx)
    | (intro c; rfl)
    | (intro x hx; exact hx)
    | (intro x hx)
    | (intro x)
    | split
    | dsimp only

theorem corrected_firm {s0 s : State} {inj : Bool} {blk : Nat} {symbols : Nat} (h : Firm s0 s) : Firm s0 (corrected inj blk symbols s) := by
  unfold corrected
  try dsimp only
  repeat' first
    | with_reducible assumption
    | with_reducible apply Firm.ite
    | with_reducible apply Firm.foldl
    | with_reducible apply Firm.ite_snd
    | with_reducible apply Firm.foldl_snd
    | with_reducible apply correctedEvent_firm
    | with_reducible apply countStack_firm
    | with_reducible apply markSegment_firm
    | with_reducible apply modStack_firm
    | (refine Firm.mk' rfl rfl rfl rfl rfl rfl rfl rfl rfl rfl ?_
       first
         | with_reducible assumption
         | with_reducible apply Firm.ite
         | with_reducible apply Firm.foldl
         | with_reducible apply Firm.ite_snd
         | with_reducible apply Firm.foldl_snd
         | with_reducible apply correctedEvent_firm
         | with_reducible apply countStack_firm
         | with_reducible apply markSegment_firm
         | with_reducible apply modStack_firm
         | split)
    | (intro x a hx)
    | (intro c; rfl)
    | (intro x hx; exact hx)
    | (intro x hx)
    | (intro x)
    | split
    | dsimp only

theorem uncorrectable_firm {s0 s : State} {inj : Bool} {reader : Nat} {blk : Nat} (h : Firm s0 s) : Firm s0 (uncorrectable inj reader blk s) := by
  unfold uncorrectable
  try dsimp only
  repeat' first
    | with_reducible assumption
    | with_reducible apply Firm.ite
    | with_reducible apply Firm.foldl
    | with_reducible apply Firm.ite_snd
    | with_reducible apply Firm.foldl_snd
    | with_reducible apply countStack_firm
    | with_reducible apply fenceSegment_firm
    | with_reducible apply openNextAll_firm
    | with_reducible apply raiseWith_firm
    | (refine Firm.mk' rfl rfl rfl rfl rfl rfl rfl rfl rfl rfl ?_
       first
         | with_reducible assumption
         | with_reducible apply Firm.ite
         | with_reducible apply Firm.foldl
         | with_reducible apply Firm.ite_snd
         | with_reducible apply Firm.foldl_snd
         | with_reducible apply countStack_firm
         | with_reducible apply fenceSegment_firm
         | with_reducible apply openNextAll_firm
         | with_reducible apply raiseWith_firm
         | split)
    | (intro x a hx)
    | (intro c; rfl)
    | (intro x hx; exact hx)
    | (intro x hx)
    | (intro x)
    | split
    | dsimp only

theorem readBlock_firm {s0 s : State} {reader : Nat} {blk : Nat} {clean : Bytes} (h : Firm s0 s) : Firm s0 (readBlock reader blk clean s).2 := by
  unfold readBlock
  try dsimp only
  repeat' first
    | with_reducible assumption
    | with_reducible apply Firm.ite
    | with_reducible apply Firm.foldl
    | with_reducible apply Firm.ite_snd
    | with_reducible apply Firm.foldl_snd
    | with_reducible apply corrected_firm
    | with_reducible apply drawFree_firm
    | with_reducible apply modStack_firm
    | with_reducible apply uncorrectable_firm
    | (refine Firm.mk' rfl rfl rfl rfl rfl rfl rfl rfl rfl rfl ?_
       first
         | with_reducible assumption
         | with_reducible apply Firm.ite
         | with_reducible apply Firm.foldl
         | with_reducible apply Firm.ite_snd
         | with_reducible apply Firm.foldl_snd
         | with_reducible apply corrected_firm
         | with_reducible apply drawFree_firm
         | with_reducible apply modStack_firm
         | with_reducible apply uncorrectable_firm
         | split)
    | (intro x a hx)
    | (intro c; rfl)
    | (intro x hx; exact hx)
    | (intro x hx)
    | (intro x)
    | split
    | dsimp only

theorem readBlocks_firm {s0 s : State} {reader : Nat} {view : Nat → Bytes} {l : List Nat} (h : Firm s0 s) : Firm s0 (readBlocks reader view l s).2 := by
  induction l generalizing s with
  | nil =>
    unfold readBlocks
    try dsimp only
    repeat' first
      | with_reducible assumption
      | with_reducible apply ih
      | with_reducible apply Firm.ite
      | with_reducible apply Firm.foldl
      | with_reducible apply Firm.ite_snd
      | with_reducible apply readBlock_firm
      | (refine Firm.mk' rfl rfl rfl rfl rfl rfl rfl rfl rfl rfl ?_
         first
           | with_reducible assumption
           | with_reducible apply ih
           | with_reducible apply Firm.ite
           | with_reducible apply Firm.foldl
           | with_reducible apply Firm.ite_snd
           | with_reducible apply readBlock_firm
           | split)
      | (intro x a hx)
      | (intro c; rfl)
      | split
      | dsimp only
  | cons a l ih =>
    unfold readBlocks
    try dsimp only
    repeat' first
      | with_reducible assumption
      | with_reducible apply ih
      | with_reducible apply Firm.ite
      | with_reducible apply Firm.foldl
      | with_reducible apply Firm.ite_snd
      | with_reducible apply readBlock_firm
      | (refine Firm.mk' rfl rfl rfl rfl rfl rfl rfl rfl rfl rfl ?_
         first
           | with_reducible assumption
           | with_reducible apply ih
           | with_reducible apply Firm.ite
           | with_reducible apply Firm.foldl
           | with_reducible apply Firm.ite_snd
           | with_reducible apply readBlock_firm
           | split)
      | (intro x a hx)
      | (intro c; rfl)
      | split
      | dsimp only

theorem readView_firm {s0 s : State} {reader : Nat} {view : Nat → Bytes} {a : Nat} {n : Nat} (h : Firm s0 s) : Firm s0 (readView reader view a n s).2 := by
  unfold readView
  try dsimp only
  repeat' first
    | with_reducible assumption
    | with_reducible apply Firm.ite
    | with_reducible apply Firm.foldl
    | with_reducible apply Firm.ite_snd
    | with_reducible apply Firm.foldl_snd
    | with_reducible apply readBlocks_firm
    | (refine Firm.mk' rfl rfl rfl rfl rfl rfl rfl rfl rfl rfl ?_
       first
         | with_reducible assumption
         | with_reducible apply Firm.ite
         | with_reducible apply Firm.foldl
         | with_reducible apply Firm.ite_snd
         | with_reducible apply Firm.foldl_snd
         | with_reducible apply readBlocks_firm
         | split)
    | (intro x a hx)
    | (intro c; rfl)
    | (intro x hx; exact hx)
    | (intro x hx)
    | (intro x)
    | split
    | dsimp only

theorem storeRead_firm {s0 s : State} {reader : Nat} {a : Nat} {n : Nat} (h : Firm s0 s) : Firm s0 (storeRead reader a n s).2 := by
  unfold storeRead
  try dsimp only
  repeat' first
    | with_reducible assumption
    | with_reducible apply Firm.ite
    | with_reducible apply Firm.foldl
    | with_reducible apply Firm.ite_snd
    | with_reducible apply Firm.foldl_snd
    | with_reducible apply readView_firm
    | (refine Firm.mk' rfl rfl rfl rfl rfl rfl rfl rfl rfl rfl ?_
       first
         | with_reducible assumption
         | with_reducible apply Firm.ite
         | with_reducible apply Firm.foldl
         | with_reducible apply Firm.ite_snd
         | with_reducible apply Firm.foldl_snd
         | with_reducible apply readView_firm
         | split)
    | (intro x a hx)
    | (intro c; rfl)
    | (intro x hx; exact hx)
    | (intro x hx)
    | (intro x)
    | split
    | dsimp only

theorem readStored_firm {s0 s : State} {reader : Nat} {a : Nat} {n : Nat} (h : Firm s0 s) : Firm s0 (readStored reader a n s).2 := by
  unfold readStored
  try dsimp only
  repeat' first
    | with_reducible assumption
    | with_reducible apply Firm.ite
    | with_reducible apply Firm.foldl
    | with_reducible apply Firm.ite_snd
    | with_reducible apply Firm.foldl_snd
    | with_reducible apply readView_firm
    | with_reducible apply storeRead_firm
    | (refine Firm.mk' rfl rfl rfl rfl rfl rfl rfl rfl rfl rfl ?_
       first
         | with_reducible assumption
         | with_reducible apply Firm.ite
         | with_reducible apply Firm.foldl
         | with_reducible apply Firm.ite_snd
         | with_reducible apply Firm.foldl_snd
         | with_reducible apply readView_firm
         | with_reducible apply storeRead_firm
         | split)
    | (intro x a hx)
    | (intro c; rfl)
    | (intro x hx; exact hx)
    | (intro x hx)
    | (intro x)
    | split
    | dsimp only

theorem blockWrite_firm {s0 s : State} {a : Nat} {bs : Bytes} (h : Firm s0 s) : Firm s0 (blockWrite a bs s) := by
  unfold blockWrite
  try dsimp only
  repeat' first
    | with_reducible assumption
    | with_reducible apply Firm.ite
    | with_reducible apply Firm.foldl
    | with_reducible apply Firm.ite_snd
    | with_reducible apply Firm.foldl_snd
    | with_reducible apply countStack_firm
    | with_reducible apply readBlock_firm
    | with_reducible apply storeWrite_firm
    | (refine Firm.mk' rfl rfl rfl rfl rfl rfl rfl rfl rfl rfl ?_
       first
         | with_reducible assumption
         | with_reducible apply Firm.ite
         | with_reducible apply Firm.foldl
         | with_reducible apply Firm.ite_snd
         | with_reducible apply Firm.foldl_snd
         | with_reducible apply countStack_firm
         | with_reducible apply readBlock_firm
         | with_reducible apply storeWrite_firm
         | split)
    | (intro x a hx)
    | (intro c; rfl)
    | (intro x hx; exact hx)
    | (intro x hx)
    | (intro x)
    | split
    | dsimp only

theorem narrowWrite_firm {s0 s : State} {a : Nat} {bs : Bytes} (h : Firm s0 s) : Firm s0 (narrowWrite a bs s) := by
  unfold narrowWrite
  try dsimp only
  repeat' first
    | with_reducible assumption
    | with_reducible apply Firm.ite
    | with_reducible apply Firm.foldl
    | with_reducible apply Firm.ite_snd
    | with_reducible apply Firm.foldl_snd
    | with_reducible apply blockWrite_firm
    | (refine Firm.mk' rfl rfl rfl rfl rfl rfl rfl rfl rfl rfl ?_
       first
         | with_reducible assumption
         | with_reducible apply Firm.ite
         | with_reducible apply Firm.foldl
         | with_reducible apply Firm.ite_snd
         | with_reducible apply Firm.foldl_snd
         | with_reducible apply blockWrite_firm
         | split)
    | (intro x a hx)
    | (intro c; rfl)
    | (intro x hx; exact hx)
    | (intro x hx)
    | (intro x)
    | split
    | dsimp only

theorem readPlain_firm {s0 s : State} {reader : Nat} {enc : Bool} {key : Bytes} {a : Nat} {n : Nat} (h : Firm s0 s) : Firm s0 (readPlain reader enc key a n s).2 := by
  unfold readPlain
  try dsimp only
  repeat' first
    | with_reducible assumption
    | with_reducible apply Firm.ite
    | with_reducible apply Firm.foldl
    | with_reducible apply Firm.ite_snd
    | with_reducible apply Firm.foldl_snd
    | with_reducible apply readView_firm
    | (refine Firm.mk' rfl rfl rfl rfl rfl rfl rfl rfl rfl rfl ?_
       first
         | with_reducible assumption
         | with_reducible apply Firm.ite
         | with_reducible apply Firm.foldl
         | with_reducible apply Firm.ite_snd
         | with_reducible apply Firm.foldl_snd
         | with_reducible apply readView_firm
         | split)
    | (intro x a hx)
    | (intro c; rfl)
    | (intro x hx; exact hx)
    | (intro x hx)
    | (intro x)
    | split
    | dsimp only

theorem readAll_firm {s0 s : State} {reader : Nat} {view : Nat → Bytes} {l : List Nat} (h : Firm s0 s) : Firm s0 (readAll reader view l s).2 := by
  induction l generalizing s with
  | nil =>
    unfold readAll
    try dsimp only
    repeat' first
      | with_reducible assumption
      | with_reducible apply ih
      | with_reducible apply Firm.ite
      | with_reducible apply Firm.foldl
      | with_reducible apply Firm.ite_snd
      | with_reducible apply drawFree_firm
      | with_reducible apply readBlock_firm
      | (refine Firm.mk' rfl rfl rfl rfl rfl rfl rfl rfl rfl rfl ?_
         first
           | with_reducible assumption
           | with_reducible apply ih
           | with_reducible apply Firm.ite
           | with_reducible apply Firm.foldl
           | with_reducible apply Firm.ite_snd
           | with_reducible apply drawFree_firm
           | with_reducible apply readBlock_firm
           | split)
      | (intro x a hx)
      | (intro c; rfl)
      | split
      | dsimp only
  | cons a l ih =>
    unfold readAll
    try dsimp only
    repeat' first
      | with_reducible assumption
      | with_reducible apply ih
      | with_reducible apply Firm.ite
      | with_reducible apply Firm.foldl
      | with_reducible apply Firm.ite_snd
      | with_reducible apply drawFree_firm
      | with_reducible apply readBlock_firm
      | (refine Firm.mk' rfl rfl rfl rfl rfl rfl rfl rfl rfl rfl ?_
         first
           | with_reducible assumption
           | with_reducible apply ih
           | with_reducible apply Firm.ite
           | with_reducible apply Firm.foldl
           | with_reducible apply Firm.ite_snd
           | with_reducible apply drawFree_firm
           | with_reducible apply readBlock_firm
           | split)
      | (intro x a hx)
      | (intro c; rfl)
      | split
      | dsimp only

theorem haltChannel_firm {s0 s : State} {inj : Bool} {p : Nat} {channel : Nat} {transfer : Nat} (h : Firm s0 s) : Firm s0 (haltChannel inj p channel transfer s) := by
  unfold haltChannel
  try dsimp only
  repeat' first
    | with_reducible assumption
    | with_reducible apply Firm.ite
    | with_reducible apply Firm.foldl
    | with_reducible apply Firm.ite_snd
    | with_reducible apply Firm.foldl_snd
    | with_reducible apply drawFree_firm
    | with_reducible apply sramError_firm
    | (refine Firm.mk' rfl rfl rfl rfl rfl rfl rfl rfl rfl rfl ?_
       first
         | with_reducible assumption
         | with_reducible apply Firm.ite
         | with_reducible apply Firm.foldl
         | with_reducible apply Firm.ite_snd
         | with_reducible apply Firm.foldl_snd
         | with_reducible apply drawFree_firm
         | with_reducible apply sramError_firm
         | split)
    | (intro x a hx)
    | (intro c; rfl)
    | (intro x hx; exact hx)
    | (intro x hx)
    | (intro x)
    | split
    | dsimp only

theorem advanceHead_firm {s0 s : State} {n : Nat} {k : Nat} (h : Firm s0 s) : Firm s0 (advanceHead n k s) := by
  unfold advanceHead
  try dsimp only
  repeat' first
    | with_reducible assumption
    | with_reducible apply Firm.ite
    | with_reducible apply Firm.foldl
    | with_reducible apply Firm.ite_snd
    | with_reducible apply Firm.foldl_snd
    | with_reducible apply modRing_firm
    | with_reducible apply signal_firm
    | (refine Firm.mk' rfl rfl rfl rfl rfl rfl rfl rfl rfl rfl ?_
       first
         | with_reducible assumption
         | with_reducible apply Firm.ite
         | with_reducible apply Firm.foldl
         | with_reducible apply Firm.ite_snd
         | with_reducible apply Firm.foldl_snd
         | with_reducible apply modRing_firm
         | with_reducible apply signal_firm
         | split)
    | (intro x a hx)
    | (intro c; rfl)
    | (intro x hx; exact hx)
    | (intro x hx)
    | (intro x)
    | split
    | dsimp only

theorem complete_firm {s0 s : State} {n : Nat} {i : Nat} {used : Nat} {flags : Nat} {basin : Nat} {exportId : Nat} {firstSeq : Nat} {records : Nat} (h : Firm s0 s) : Firm s0 (complete n i used flags basin exportId firstSeq records s) := by
  unfold complete
  try dsimp only
  repeat' first
    | with_reducible assumption
    | with_reducible apply Firm.ite
    | with_reducible apply Firm.foldl
    | with_reducible apply Firm.ite_snd
    | with_reducible apply Firm.foldl_snd
    | with_reducible apply hostWrite_firm
    | (refine Firm.mk' rfl rfl rfl rfl rfl rfl rfl rfl rfl rfl ?_
       first
         | with_reducible assumption
         | with_reducible apply Firm.ite
         | with_reducible apply Firm.foldl
         | with_reducible apply Firm.ite_snd
         | with_reducible apply Firm.foldl_snd
         | with_reducible apply hostWrite_firm
         | split)
    | (intro x a hx)
    | (intro c; rfl)
    | (intro x hx; exact hx)
    | (intro x hx)
    | (intro x)
    | split
    | dsimp only

end Sys2Proof.Machine
end

