-- ==== Sys2Proof/Laws/FirmCipherEngine.lean ====
section
/-!
SUPPORT. What the operations of Machine/CipherEngine.lean keep (`Firm`).
-/
set_option Elab.async false
set_option linter.unusedTactic false
set_option linter.unreachableTactic false
set_option linter.unusedVariables false
namespace Sys2Proof.Machine

theorem kekAct_firm {s0 s : State} {r : Req} (h : Firm s0 s) : Firm s0 (servedState (kekAct r s)) := by
  unfold kekAct
  try dsimp only
  repeat' first
    | with_reducible assumption
    | with_reducible apply Firm.served_ite
    | with_reducible apply Firm.ok
    | with_reducible apply Firm.okWith
    | with_reducible apply Firm.fail
    | with_reducible apply Firm.conflict
    | with_reducible apply Firm.done
    | with_reducible apply Firm.later
    | with_reducible apply Firm.ite
    | with_reducible apply Firm.foldl
    | with_reducible apply Firm.ite_snd
    | with_reducible apply Firm.foldl_snd
    | with_reducible apply drawDrbg_firm
    | with_reducible apply fail_firm
    | with_reducible apply okWith_firm
    | (with_reducible show Firm _ (servedState _); split)
    | (refine Firm.mk' rfl rfl rfl rfl rfl rfl rfl rfl rfl rfl ?_
       first
         | with_reducible assumption
         | with_reducible apply Firm.served_ite
         | with_reducible apply Firm.ok
         | with_reducible apply Firm.okWith
         | with_reducible apply Firm.fail
         | with_reducible apply Firm.conflict
         | with_reducible apply Firm.done
         | with_reducible apply Firm.later
         | with_reducible apply Firm.ite
         | with_reducible apply Firm.foldl
         | with_reducible apply Firm.ite_snd
         | with_reducible apply Firm.foldl_snd
         | with_reducible apply drawDrbg_firm
         | with_reducible apply fail_firm
         | with_reducible apply okWith_firm
         | split)
    | (intro x a hx)
    | (intro c; rfl)
    | (intro x hx; exact hx)
    | (intro x hx)
    | (intro x)
    | split
    | dsimp only

theorem execKekEstablish_firm {s : State}  : FirmOut s (execKekEstablish s) := by
  have h := Firm.refl s
  unfold execKekEstablish
  try dsimp only
  repeat' first
    | with_reducible assumption
    | with_reducible apply FirmOut.ite
    | with_reducible apply FirmOut.next
    | with_reducible apply Firm.ite
    | with_reducible apply Firm.foldl
    | with_reducible apply Firm.ite_snd
    | with_reducible apply Firm.foldl_snd
    | with_reducible apply kekAct_firm
    | exact serve_firm h (fun r x hx hl => kekAct_firm hx)
    | exact serve_firm h (fun r x hx hl => kekAct_firm hx hl)
    | (refine Firm.mk' rfl rfl rfl rfl rfl rfl rfl rfl rfl rfl ?_
       first
         | with_reducible assumption
         | with_reducible apply FirmOut.ite
         | with_reducible apply FirmOut.next
         | with_reducible apply Firm.ite
         | with_reducible apply Firm.foldl
         | with_reducible apply Firm.ite_snd
         | with_reducible apply Firm.foldl_snd
         | with_reducible apply kekAct_firm
         | exact serve_firm h (fun r x hx hl => kekAct_firm hx)
         | exact serve_firm h (fun r x hx hl => kekAct_firm hx hl)
         | split)
    | (intro x a hx)
    | (intro c; rfl)
    | (intro x hx; exact hx)
    | (intro x hx)
    | (intro x)
    | split
    | dsimp only

theorem slotConflict_firm {s0 s : State} {n : Nat} (h : Firm s0 s) : Firm s0 (servedState (slotConflict n s)) := by
  unfold slotConflict
  try dsimp only
  repeat' first
    | with_reducible assumption
    | with_reducible apply Firm.served_ite
    | with_reducible apply Firm.ok
    | with_reducible apply Firm.okWith
    | with_reducible apply Firm.fail
    | with_reducible apply Firm.conflict
    | with_reducible apply Firm.done
    | with_reducible apply Firm.later
    | with_reducible apply Firm.ite
    | with_reducible apply Firm.foldl
    | with_reducible apply Firm.ite_snd
    | with_reducible apply Firm.foldl_snd
    | with_reducible apply conflict_firm
    | (with_reducible show Firm _ (servedState _); split)
    | (refine Firm.mk' rfl rfl rfl rfl rfl rfl rfl rfl rfl rfl ?_
       first
         | with_reducible assumption
         | with_reducible apply Firm.served_ite
         | with_reducible apply Firm.ok
         | with_reducible apply Firm.okWith
         | with_reducible apply Firm.fail
         | with_reducible apply Firm.conflict
         | with_reducible apply Firm.done
         | with_reducible apply Firm.later
         | with_reducible apply Firm.ite
         | with_reducible apply Firm.foldl
         | with_reducible apply Firm.ite_snd
         | with_reducible apply Firm.foldl_snd
         | with_reducible apply conflict_firm
         | split)
    | (intro x a hx)
    | (intro c; rfl)
    | (intro x hx; exact hx)
    | (intro x hx)
    | (intro x)
    | split
    | dsimp only

theorem touchLine_firm {s0 s : State} {n : Nat} (h : Firm s0 s) : Firm s0 (touchLine n s) := by
  unfold touchLine
  try dsimp only
  repeat' first
    | with_reducible assumption
    | with_reducible apply Firm.ite
    | with_reducible apply Firm.foldl
    | with_reducible apply Firm.ite_snd
    | with_reducible apply Firm.foldl_snd
    | with_reducible apply touch_firm
    | (refine Firm.mk' rfl rfl rfl rfl rfl rfl rfl rfl rfl rfl ?_
       first
         | with_reducible assumption
         | with_reducible apply Firm.ite
         | with_reducible apply Firm.foldl
         | with_reducible apply Firm.ite_snd
         | with_reducible apply Firm.foldl_snd
         | with_reducible apply touch_firm
         | split)
    | (intro x a hx)
    | (intro c; rfl)
    | (intro x hx; exact hx)
    | (intro x hx)
    | (intro x)
    | split
    | dsimp only

theorem keyUnwrapAct_firm {s0 s : State} {r : Req} (h : Firm s0 s) : Firm s0 (servedState (keyUnwrapAct r s)) := by
  unfold keyUnwrapAct
  try dsimp only
  repeat' first
    | with_reducible assumption
    | with_reducible apply Firm.served_ite
    | with_reducible apply Firm.ok
    | with_reducible apply Firm.okWith
    | with_reducible apply Firm.fail
    | with_reducible apply Firm.conflict
    | with_reducible apply Firm.done
    | with_reducible apply Firm.later
    | with_reducible apply Firm.ite
    | with_reducible apply Firm.foldl
    | with_reducible apply Firm.ite_snd
    | with_reducible apply Firm.foldl_snd
    | with_reducible apply conflict_firm
    | with_reducible apply fail_firm
    | with_reducible apply modSlot_firm
    | with_reducible apply ok_firm
    | with_reducible apply slotConflict_firm
    | with_reducible apply touchLine_firm
    | (with_reducible show Firm _ (servedState _); split)
    | (refine Firm.mk' rfl rfl rfl rfl rfl rfl rfl rfl rfl rfl ?_
       first
         | with_reducible assumption
         | with_reducible apply Firm.served_ite
         | with_reducible apply Firm.ok
         | with_reducible apply Firm.okWith
         | with_reducible apply Firm.fail
         | with_reducible apply Firm.conflict
         | with_reducible apply Firm.done
         | with_reducible apply Firm.later
         | with_reducible apply Firm.ite
         | with_reducible apply Firm.foldl
         | with_reducible apply Firm.ite_snd
         | with_reducible apply Firm.foldl_snd
         | with_reducible apply conflict_firm
         | with_reducible apply fail_firm
         | with_reducible apply modSlot_firm
         | with_reducible apply ok_firm
         | with_reducible apply slotConflict_firm
         | with_reducible apply touchLine_firm
         | split)
    | (intro x a hx)
    | (intro c; rfl)
    | (intro x hx; exact hx)
    | (intro x hx)
    | (intro x)
    | split
    | dsimp only

theorem execKeyUnwrap_firm {s : State}  : FirmOut s (execKeyUnwrap s) := by
  have h := Firm.refl s
  unfold execKeyUnwrap
  try dsimp only
  repeat' first
    | with_reducible assumption
    | with_reducible apply FirmOut.ite
    | with_reducible apply FirmOut.next
    | with_reducible apply Firm.ite
    | with_reducible apply Firm.foldl
    | with_reducible apply Firm.ite_snd
    | with_reducible apply Firm.foldl_snd
    | with_reducible apply keyUnwrapAct_firm
    | exact serve_firm h (fun r x hx hl => keyUnwrapAct_firm hx)
    | exact serve_firm h (fun r x hx hl => keyUnwrapAct_firm hx hl)
    | (refine Firm.mk' rfl rfl rfl rfl rfl rfl rfl rfl rfl rfl ?_
       first
         | with_reducible assumption
         | with_reducible apply FirmOut.ite
         | with_reducible apply FirmOut.next
         | with_reducible apply Firm.ite
         | with_reducible apply Firm.foldl
         | with_reducible apply Firm.ite_snd
         | with_reducible apply Firm.foldl_snd
         | with_reducible apply keyUnwrapAct_firm
         | exact serve_firm h (fun r x hx hl => keyUnwrapAct_firm hx)
         | exact serve_firm h (fun r x hx hl => keyUnwrapAct_firm hx hl)
         | split)
    | (intro x a hx)
    | (intro c; rfl)
    | (intro x hx; exact hx)
    | (intro x hx)
    | (intro x)
    | split
    | dsimp only

theorem keyZeroiseAct_firm {s0 s : State} {r : Req} (h : Firm s0 s) : Firm s0 (servedState (keyZeroiseAct r s)) := by
  unfold keyZeroiseAct
  try dsimp only
  repeat' first
    | with_reducible assumption
    | with_reducible apply Firm.served_ite
    | with_reducible apply Firm.ok
    | with_reducible apply Firm.okWith
    | with_reducible apply Firm.fail
    | with_reducible apply Firm.conflict
    | with_reducible apply Firm.done
    | with_reducible apply Firm.later
    | with_reducible apply Firm.ite
    | with_reducible apply Firm.foldl
    | with_reducible apply Firm.ite_snd
    | with_reducible apply Firm.foldl_snd
    | with_reducible apply fail_firm
    | with_reducible apply modSlot_firm
    | with_reducible apply ok_firm
    | with_reducible apply slotConflict_firm
    | with_reducible apply touchLine_firm
    | (with_reducible show Firm _ (servedState _); split)
    | (refine Firm.mk' rfl rfl rfl rfl rfl rfl rfl rfl rfl rfl ?_
       first
         | with_reducible assumption
         | with_reducible apply Firm.served_ite
         | with_reducible apply Firm.ok
         | with_reducible apply Firm.okWith
         | with_reducible apply Firm.fail
         | with_reducible apply Firm.conflict
         | with_reducible apply Firm.done
         | with_reducible apply Firm.later
         | with_reducible apply Firm.ite
         | with_reducible apply Firm.foldl
         | with_reducible apply Firm.ite_snd
         | with_reducible apply Firm.foldl_snd
         | with_reducible apply fail_firm
         | with_reducible apply modSlot_firm
         | with_reducible apply ok_firm
         | with_reducible apply slotConflict_firm
         | with_reducible apply touchLine_firm
         | split)
    | (intro x a hx)
    | (intro c; rfl)
    | (intro x hx; exact hx)
    | (intro x hx)
    | (intro x)
    | split
    | dsimp only

theorem execKeyZeroise_firm {s : State}  : FirmOut s (execKeyZeroise s) := by
  have h := Firm.refl s
  unfold execKeyZeroise
  try dsimp only
  repeat' first
    | with_reducible assumption
    | with_reducible apply FirmOut.ite
    | with_reducible apply FirmOut.next
    | with_reducible apply Firm.ite
    | with_reducible apply Firm.foldl
    | with_reducible apply Firm.ite_snd
    | with_reducible apply Firm.foldl_snd
    | with_reducible apply keyZeroiseAct_firm
    | exact serve_firm h (fun r x hx hl => keyZeroiseAct_firm hx)
    | exact serve_firm h (fun r x hx hl => keyZeroiseAct_firm hx hl)
    | (refine Firm.mk' rfl rfl rfl rfl rfl rfl rfl rfl rfl rfl ?_
       first
         | with_reducible assumption
         | with_reducible apply FirmOut.ite
         | with_reducible apply FirmOut.next
         | with_reducible apply Firm.ite
         | with_reducible apply Firm.foldl
         | with_reducible apply Firm.ite_snd
         | with_reducible apply Firm.foldl_snd
         | with_reducible apply keyZeroiseAct_firm
         | exact serve_firm h (fun r x hx hl => keyZeroiseAct_firm hx)
         | exact serve_firm h (fun r x hx hl => keyZeroiseAct_firm hx hl)
         | split)
    | (intro x a hx)
    | (intro c; rfl)
    | (intro x hx; exact hx)
    | (intro x hx)
    | (intro x)
    | split
    | dsimp only

theorem keyStatusAct_firm {s0 s : State} {r : Req} (h : Firm s0 s) : Firm s0 (servedState (keyStatusAct r s)) := by
  unfold keyStatusAct
  try dsimp only
  repeat' first
    | with_reducible assumption
    | with_reducible apply Firm.served_ite
    | with_reducible apply Firm.ok
    | with_reducible apply Firm.okWith
    | with_reducible apply Firm.fail
    | with_reducible apply Firm.conflict
    | with_reducible apply Firm.done
    | with_reducible apply Firm.later
    | with_reducible apply Firm.ite
    | with_reducible apply Firm.foldl
    | with_reducible apply Firm.ite_snd
    | with_reducible apply Firm.foldl_snd
    | with_reducible apply okWith_firm
    | (with_reducible show Firm _ (servedState _); split)
    | (refine Firm.mk' rfl rfl rfl rfl rfl rfl rfl rfl rfl rfl ?_
       first
         | with_reducible assumption
         | with_reducible apply Firm.served_ite
         | with_reducible apply Firm.ok
         | with_reducible apply Firm.okWith
         | with_reducible apply Firm.fail
         | with_reducible apply Firm.conflict
         | with_reducible apply Firm.done
         | with_reducible apply Firm.later
         | with_reducible apply Firm.ite
         | with_reducible apply Firm.foldl
         | with_reducible apply Firm.ite_snd
         | with_reducible apply Firm.foldl_snd
         | with_reducible apply okWith_firm
         | split)
    | (intro x a hx)
    | (intro c; rfl)
    | (intro x hx; exact hx)
    | (intro x hx)
    | (intro x)
    | split
    | dsimp only

theorem execKeyStatus_firm {s : State}  : FirmOut s (execKeyStatus s) := by
  have h := Firm.refl s
  unfold execKeyStatus
  try dsimp only
  repeat' first
    | with_reducible assumption
    | with_reducible apply FirmOut.ite
    | with_reducible apply FirmOut.next
    | with_reducible apply Firm.ite
    | with_reducible apply Firm.foldl
    | with_reducible apply Firm.ite_snd
    | with_reducible apply Firm.foldl_snd
    | with_reducible apply keyStatusAct_firm
    | exact serve_firm h (fun r x hx hl => keyStatusAct_firm hx)
    | exact serve_firm h (fun r x hx hl => keyStatusAct_firm hx hl)
    | (refine Firm.mk' rfl rfl rfl rfl rfl rfl rfl rfl rfl rfl ?_
       first
         | with_reducible assumption
         | with_reducible apply FirmOut.ite
         | with_reducible apply FirmOut.next
         | with_reducible apply Firm.ite
         | with_reducible apply Firm.foldl
         | with_reducible apply Firm.ite_snd
         | with_reducible apply Firm.foldl_snd
         | with_reducible apply keyStatusAct_firm
         | exact serve_firm h (fun r x hx hl => keyStatusAct_firm hx)
         | exact serve_firm h (fun r x hx hl => keyStatusAct_firm hx hl)
         | split)
    | (intro x a hx)
    | (intro c; rfl)
    | (intro x hx; exact hx)
    | (intro x hx)
    | (intro x)
    | split
    | dsimp only

theorem useRefusal_firm {s0 s : State} {n : Nat} {v : Served} (h : Firm s0 s) (hv : useRefusal n s = some v) :
    Firm s0 (servedState v) := by
  unfold useRefusal at hv
  split at hv
  · cases hv; exact h
  · split at hv
    · cases hv; exact h
    · cases hv

theorem xferChecks_firm {s0 s : State} {r : Req} {n ringNo : Nat} {dir : Bool} {go : Nat → Served} (h : Firm s0 s)
    (hgo : ∀ x, Firm s0 (servedState (go x))) : Firm s0 (servedState (xferChecks r n ringNo dir s go)) := by
  unfold xferChecks
  split
  · exact h
  · split
    · rename_i hv; exact useRefusal_firm h hv
    · split
      · exact h
      · split
        · exact h
        · exact hgo _

theorem bundleLoadAct_firm {s0 s : State} {r : Req} (h : Firm s0 s) : Firm s0 (servedState (bundleLoadAct r s)) := by
  unfold bundleLoadAct
  try dsimp only
  repeat' first
    | with_reducible assumption
    | with_reducible apply Firm.served_ite
    | with_reducible apply Firm.ok
    | with_reducible apply Firm.okWith
    | with_reducible apply Firm.fail
    | with_reducible apply Firm.conflict
    | with_reducible apply Firm.done
    | with_reducible apply Firm.later
    | with_reducible apply Firm.ite
    | with_reducible apply Firm.foldl
    | with_reducible apply Firm.ite_snd
    | with_reducible apply Firm.foldl_snd
    | with_reducible apply conflict_firm
    | with_reducible apply fail_firm
    | with_reducible apply modXfer_firm
    | with_reducible apply okWith_firm
    | with_reducible apply setPool_firm
    | with_reducible apply useSlot_firm
    | with_reducible apply xferChecks_firm
    | (with_reducible show Firm _ (servedState _); split)
    | (refine Firm.mk' rfl rfl rfl rfl rfl rfl rfl rfl rfl rfl ?_
       first
         | with_reducible assumption
         | with_reducible apply Firm.served_ite
         | with_reducible apply Firm.ok
         | with_reducible apply Firm.okWith
         | with_reducible apply Firm.fail
         | with_reducible apply Firm.conflict
         | with_reducible apply Firm.done
         | with_reducible apply Firm.later
         | with_reducible apply Firm.ite
         | with_reducible apply Firm.foldl
         | with_reducible apply Firm.ite_snd
         | with_reducible apply Firm.foldl_snd
         | with_reducible apply conflict_firm
         | with_reducible apply fail_firm
         | with_reducible apply modXfer_firm
         | with_reducible apply okWith_firm
         | with_reducible apply setPool_firm
         | with_reducible apply useSlot_firm
         | with_reducible apply xferChecks_firm
         | split)
    | (intro x a hx)
    | (intro c; rfl)
    | (intro x hx; exact hx)
    | (intro x hx)
    | (intro x)
    | split
    | dsimp only

theorem execBundleLoad_firm {s : State}  : FirmOut s (execBundleLoad s) := by
  have h := Firm.refl s
  unfold execBundleLoad
  try dsimp only
  repeat' first
    | with_reducible assumption
    | with_reducible apply FirmOut.ite
    | with_reducible apply FirmOut.next
    | with_reducible apply Firm.ite
    | with_reducible apply Firm.foldl
    | with_reducible apply Firm.ite_snd
    | with_reducible apply Firm.foldl_snd
    | with_reducible apply bundleLoadAct_firm
    | exact serve_firm h (fun r x hx hl => bundleLoadAct_firm hx)
    | exact serve_firm h (fun r x hx hl => bundleLoadAct_firm hx hl)
    | (refine Firm.mk' rfl rfl rfl rfl rfl rfl rfl rfl rfl rfl ?_
       first
         | with_reducible assumption
         | with_reducible apply FirmOut.ite
         | with_reducible apply FirmOut.next
         | with_reducible apply Firm.ite
         | with_reducible apply Firm.foldl
         | with_reducible apply Firm.ite_snd
         | with_reducible apply Firm.foldl_snd
         | with_reducible apply bundleLoadAct_firm
         | exact serve_firm h (fun r x hx hl => bundleLoadAct_firm hx)
         | exact serve_firm h (fun r x hx hl => bundleLoadAct_firm hx hl)
         | split)
    | (intro x a hx)
    | (intro c; rfl)
    | (intro x hx; exact hx)
    | (intro x hx)
    | (intro x)
    | split
    | dsimp only

theorem startSeal_firm {s0 s : State} {r : Req} {id : Nat} {seg : Nat} {ordinal : Nat} {owner : Nat} (h : Firm s0 s) : Firm s0 (servedState (startSeal r id seg ordinal owner s)) := by
  unfold startSeal
  try dsimp only
  repeat' first
    | with_reducible assumption
    | with_reducible apply Firm.served_ite
    | with_reducible apply Firm.ok
    | with_reducible apply Firm.okWith
    | with_reducible apply Firm.fail
    | with_reducible apply Firm.conflict
    | with_reducible apply Firm.done
    | with_reducible apply Firm.later
    | with_reducible apply Firm.ite
    | with_reducible apply Firm.foldl
    | with_reducible apply Firm.ite_snd
    | with_reducible apply Firm.foldl_snd
    | with_reducible apply modXfer_firm
    | with_reducible apply okWith_firm
    | with_reducible apply useSlot_firm
    | (with_reducible show Firm _ (servedState _); split)
    | (refine Firm.mk' rfl rfl rfl rfl rfl rfl rfl rfl rfl rfl ?_
       first
         | with_reducible assumption
         | with_reducible apply Firm.served_ite
         | with_reducible apply Firm.ok
         | with_reducible apply Firm.okWith
         | with_reducible apply Firm.fail
         | with_reducible apply Firm.conflict
         | with_reducible apply Firm.done
         | with_reducible apply Firm.later
         | with_reducible apply Firm.ite
         | with_reducible apply Firm.foldl
         | with_reducible apply Firm.ite_snd
         | with_reducible apply Firm.foldl_snd
         | with_reducible apply modXfer_firm
         | with_reducible apply okWith_firm
         | with_reducible apply useSlot_firm
         | split)
    | (intro x a hx)
    | (intro c; rfl)
    | (intro x hx; exact hx)
    | (intro x hx)
    | (intro x)
    | split
    | dsimp only

theorem sealAct_firm {s0 s : State} {r : Req} (h : Firm s0 s) : Firm s0 (servedState (sealAct r s)) := by
  unfold sealAct
  try dsimp only
  repeat' first
    | with_reducible assumption
    | with_reducible apply Firm.served_ite
    | with_reducible apply Firm.ok
    | with_reducible apply Firm.okWith
    | with_reducible apply Firm.fail
    | with_reducible apply Firm.conflict
    | with_reducible apply Firm.done
    | with_reducible apply Firm.later
    | with_reducible apply Firm.ite
    | with_reducible apply Firm.foldl
    | with_reducible apply Firm.ite_snd
    | with_reducible apply Firm.foldl_snd
    | with_reducible apply fail_firm
    | with_reducible apply slotConflict_firm
    | with_reducible apply startSeal_firm
    | with_reducible apply xferChecks_firm
    | (with_reducible show Firm _ (servedState _); split)
    | (refine Firm.mk' rfl rfl rfl rfl rfl rfl rfl rfl rfl rfl ?_
       first
         | with_reducible assumption
         | with_reducible apply Firm.served_ite
         | with_reducible apply Firm.ok
         | with_reducible apply Firm.okWith
         | with_reducible apply Firm.fail
         | with_reducible apply Firm.conflict
         | with_reducible apply Firm.done
         | with_reducible apply Firm.later
         | with_reducible apply Firm.ite
         | with_reducible apply Firm.foldl
         | with_reducible apply Firm.ite_snd
         | with_reducible apply Firm.foldl_snd
         | with_reducible apply fail_firm
         | with_reducible apply slotConflict_firm
         | with_reducible apply startSeal_firm
         | with_reducible apply xferChecks_firm
         | split)
    | (intro x a hx)
    | (intro c; rfl)
    | (intro x hx; exact hx)
    | (intro x hx)
    | (intro x)
    | split
    | dsimp only

theorem execSegSealOut_firm {s : State}  : FirmOut s (execSegSealOut s) := by
  have h := Firm.refl s
  unfold execSegSealOut
  try dsimp only
  repeat' first
    | with_reducible assumption
    | with_reducible apply FirmOut.ite
    | with_reducible apply FirmOut.next
    | with_reducible apply Firm.ite
    | with_reducible apply Firm.foldl
    | with_reducible apply Firm.ite_snd
    | with_reducible apply Firm.foldl_snd
    | with_reducible apply sealAct_firm
    | exact serve_firm h (fun r x hx hl => sealAct_firm hx)
    | exact serve_firm h (fun r x hx hl => sealAct_firm hx hl)
    | (refine Firm.mk' rfl rfl rfl rfl rfl rfl rfl rfl rfl rfl ?_
       first
         | with_reducible assumption
         | with_reducible apply FirmOut.ite
         | with_reducible apply FirmOut.next
         | with_reducible apply Firm.ite
         | with_reducible apply Firm.foldl
         | with_reducible apply Firm.ite_snd
         | with_reducible apply Firm.foldl_snd
         | with_reducible apply sealAct_firm
         | exact serve_firm h (fun r x hx hl => sealAct_firm hx)
         | exact serve_firm h (fun r x hx hl => sealAct_firm hx hl)
         | split)
    | (intro x a hx)
    | (intro c; rfl)
    | (intro x hx; exact hx)
    | (intro x hx)
    | (intro x)
    | split
    | dsimp only

theorem xferStatusAct_firm {s0 s : State} {r : Req} (h : Firm s0 s) : Firm s0 (servedState (xferStatusAct r s)) := by
  unfold xferStatusAct
  try dsimp only
  repeat' first
    | with_reducible assumption
    | with_reducible apply Firm.served_ite
    | with_reducible apply Firm.ok
    | with_reducible apply Firm.okWith
    | with_reducible apply Firm.fail
    | with_reducible apply Firm.conflict
    | with_reducible apply Firm.done
    | with_reducible apply Firm.later
    | with_reducible apply Firm.ite
    | with_reducible apply Firm.foldl
    | with_reducible apply Firm.ite_snd
    | with_reducible apply Firm.foldl_snd
    | (with_reducible show Firm _ (servedState _); split)
    | (refine Firm.mk' rfl rfl rfl rfl rfl rfl rfl rfl rfl rfl ?_
       first
         | with_reducible assumption
         | with_reducible apply Firm.served_ite
         | with_reducible apply Firm.ok
         | with_reducible apply Firm.okWith
         | with_reducible apply Firm.fail
         | with_reducible apply Firm.conflict
         | with_reducible apply Firm.done
         | with_reducible apply Firm.later
         | with_reducible apply Firm.ite
         | with_reducible apply Firm.foldl
         | with_reducible apply Firm.ite_snd
         | with_reducible apply Firm.foldl_snd
         | split)
    | (intro x a hx)
    | (intro c; rfl)
    | (intro x hx; exact hx)
    | (intro x hx)
    | (intro x)
    | split
    | dsimp only

theorem execXferStatus_firm {s : State}  : FirmOut s (execXferStatus s) := by
  have h := Firm.refl s
  unfold execXferStatus
  try dsimp only
  repeat' first
    | with_reducible assumption
    | with_reducible apply FirmOut.ite
    | with_reducible apply FirmOut.next
    | with_reducible apply Firm.ite
    | with_reducible apply Firm.foldl
    | with_reducible apply Firm.ite_snd
    | with_reducible apply Firm.foldl_snd
    | with_reducible apply xferStatusAct_firm
    | exact serve_firm h (fun r x hx hl => xferStatusAct_firm hx)
    | exact serve_firm h (fun r x hx hl => xferStatusAct_firm hx hl)
    | (refine Firm.mk' rfl rfl rfl rfl rfl rfl rfl rfl rfl rfl ?_
       first
         | with_reducible assumption
         | with_reducible apply FirmOut.ite
         | with_reducible apply FirmOut.next
         | with_reducible apply Firm.ite
         | with_reducible apply Firm.foldl
         | with_reducible apply Firm.ite_snd
         | with_reducible apply Firm.foldl_snd
         | with_reducible apply xferStatusAct_firm
         | exact serve_firm h (fun r x hx hl => xferStatusAct_firm hx)
         | exact serve_firm h (fun r x hx hl => xferStatusAct_firm hx hl)
         | split)
    | (intro x a hx)
    | (intro c; rfl)
    | (intro x hx; exact hx)
    | (intro x hx)
    | (intro x)
    | split
    | dsimp only

theorem cipherStatusAct_firm {s0 s : State} {r : Req} (h : Firm s0 s) : Firm s0 (servedState (cipherStatusAct r s)) := by
  unfold cipherStatusAct
  try dsimp only
  repeat' first
    | with_reducible assumption
    | with_reducible apply Firm.served_ite
    | with_reducible apply Firm.ok
    | with_reducible apply Firm.okWith
    | with_reducible apply Firm.fail
    | with_reducible apply Firm.conflict
    | with_reducible apply Firm.done
    | with_reducible apply Firm.later
    | with_reducible apply Firm.ite
    | with_reducible apply Firm.foldl
    | with_reducible apply Firm.ite_snd
    | with_reducible apply Firm.foldl_snd
    | with_reducible apply okWith_firm
    | (with_reducible show Firm _ (servedState _); split)
    | (refine Firm.mk' rfl rfl rfl rfl rfl rfl rfl rfl rfl rfl ?_
       first
         | with_reducible assumption
         | with_reducible apply Firm.served_ite
         | with_reducible apply Firm.ok
         | with_reducible apply Firm.okWith
         | with_reducible apply Firm.fail
         | with_reducible apply Firm.conflict
         | with_reducible apply Firm.done
         | with_reducible apply Firm.later
         | with_reducible apply Firm.ite
         | with_reducible apply Firm.foldl
         | with_reducible apply Firm.ite_snd
         | with_reducible apply Firm.foldl_snd
         | with_reducible apply okWith_firm
         | split)
    | (intro x a hx)
    | (intro c; rfl)
    | (intro x hx; exact hx)
    | (intro x hx)
    | (intro x)
    | split
    | dsimp only

theorem execCipherStatus_firm {s : State}  : FirmOut s (execCipherStatus s) := by
  have h := Firm.refl s
  unfold execCipherStatus
  try dsimp only
  repeat' first
    | with_reducible assumption
    | with_reducible apply FirmOut.ite
    | with_reducible apply FirmOut.next
    | with_reducible apply Firm.ite
    | with_reducible apply Firm.foldl
    | with_reducible apply Firm.ite_snd
    | with_reducible apply Firm.foldl_snd
    | with_reducible apply cipherStatusAct_firm
    | exact serve_firm h (fun r x hx hl => cipherStatusAct_firm hx)
    | exact serve_firm h (fun r x hx hl => cipherStatusAct_firm hx hl)
    | (refine Firm.mk' rfl rfl rfl rfl rfl rfl rfl rfl rfl rfl ?_
       first
         | with_reducible assumption
         | with_reducible apply FirmOut.ite
         | with_reducible apply FirmOut.next
         | with_reducible apply Firm.ite
         | with_reducible apply Firm.foldl
         | with_reducible apply Firm.ite_snd
         | with_reducible apply Firm.foldl_snd
         | with_reducible apply cipherStatusAct_firm
         | exact serve_firm h (fun r x hx hl => cipherStatusAct_firm hx)
         | exact serve_firm h (fun r x hx hl => cipherStatusAct_firm hx hl)
         | split)
    | (intro x a hx)
    | (intro c; rfl)
    | (intro x hx; exact hx)
    | (intro x hx)
    | (intro x)
    | split
    | dsimp only

theorem buildSeal_firm {s0 s : State} {n : Nat} (h : Firm s0 s) : Firm s0 (buildSeal n s) :=
  modXfer_firm (readAll_firm h)

theorem sealBuffer_firm {s0 s : State} {n : Nat} (h : Firm s0 s) : Firm s0 (sealBuffer n s) := by
  unfold sealBuffer
  try dsimp only
  repeat' first
    | with_reducible assumption
    | with_reducible apply Firm.ite
    | with_reducible apply Firm.foldl
    | with_reducible apply Firm.ite_snd
    | with_reducible apply Firm.foldl_snd
    | with_reducible apply advanceHead_firm
    | with_reducible apply complete_firm
    | with_reducible apply hostWrite_firm
    | with_reducible apply modXfer_firm
    | with_reducible apply xferDone_firm
    | (refine Firm.mk' rfl rfl rfl rfl rfl rfl rfl rfl rfl rfl ?_
       first
         | with_reducible assumption
         | with_reducible apply Firm.ite
         | with_reducible apply Firm.foldl
         | with_reducible apply Firm.ite_snd
         | with_reducible apply Firm.foldl_snd
         | with_reducible apply advanceHead_firm
         | with_reducible apply complete_firm
         | with_reducible apply hostWrite_firm
         | with_reducible apply modXfer_firm
         | with_reducible apply xferDone_firm
         | split)
    | (intro x a hx)
    | (intro c; rfl)
    | (intro x hx; exact hx)
    | (intro x hx)
    | (intro x)
    | split
    | dsimp only

theorem loadBuffer_firm {s0 s : State} {n : Nat} (h : Firm s0 s) : Firm s0 (loadBuffer n s) := by
  unfold loadBuffer
  try dsimp only
  repeat' first
    | with_reducible assumption
    | with_reducible apply Firm.ite
    | with_reducible apply Firm.foldl
    | with_reducible apply Firm.ite_snd
    | with_reducible apply Firm.foldl_snd
    | with_reducible apply advanceHead_firm
    | with_reducible apply hostWrite_firm
    | with_reducible apply modXfer_firm
    | with_reducible apply narrowWrite_firm
    | with_reducible apply xferFail_firm
    | (refine Firm.mk' rfl rfl rfl rfl rfl rfl rfl rfl rfl rfl ?_
       first
         | with_reducible assumption
         | with_reducible apply Firm.ite
         | with_reducible apply Firm.foldl
         | with_reducible apply Firm.ite_snd
         | with_reducible apply Firm.foldl_snd
         | with_reducible apply advanceHead_firm
         | with_reducible apply hostWrite_firm
         | with_reducible apply modXfer_firm
         | with_reducible apply narrowWrite_firm
         | with_reducible apply xferFail_firm
         | split)
    | (intro x a hx)
    | (intro c; rfl)
    | (intro x hx; exact hx)
    | (intro x hx)
    | (intro x)
    | split
    | dsimp only

theorem moveBuffer_firm {s0 s : State} {n : Nat} (h : Firm s0 s) : Firm s0 (moveBuffer n s) := by
  unfold moveBuffer
  try dsimp only
  repeat' first
    | with_reducible assumption
    | with_reducible apply Firm.ite
    | with_reducible apply Firm.foldl
    | with_reducible apply Firm.ite_snd
    | with_reducible apply Firm.foldl_snd
    | with_reducible apply buildSeal_firm
    | with_reducible apply loadBuffer_firm
    | with_reducible apply sealBuffer_firm
    | (refine Firm.mk' rfl rfl rfl rfl rfl rfl rfl rfl rfl rfl ?_
       first
         | with_reducible assumption
         | with_reducible apply Firm.ite
         | with_reducible apply Firm.foldl
         | with_reducible apply Firm.ite_snd
         | with_reducible apply Firm.foldl_snd
         | with_reducible apply buildSeal_firm
         | with_reducible apply loadBuffer_firm
         | with_reducible apply sealBuffer_firm
         | split)
    | (intro x a hx)
    | (intro c; rfl)
    | (intro x hx; exact hx)
    | (intro x hx)
    | (intro x)
    | split
    | dsimp only

theorem execXferBuffer_firm {s : State} {xfer : Nat} : FirmOut s (execXferBuffer xfer s) := by
  have h := Firm.refl s
  unfold execXferBuffer
  try dsimp only
  repeat' first
    | with_reducible assumption
    | with_reducible apply FirmOut.ite
    | with_reducible apply FirmOut.next
    | with_reducible apply Firm.ite
    | with_reducible apply Firm.foldl
    | with_reducible apply Firm.ite_snd
    | with_reducible apply Firm.foldl_snd
    | with_reducible apply haltChannel_firm
    | with_reducible apply moveBuffer_firm
    | with_reducible apply sramWrite_firm
    | with_reducible apply xferFail_firm
    | (refine Firm.mk' rfl rfl rfl rfl rfl rfl rfl rfl rfl rfl ?_
       first
         | with_reducible assumption
         | with_reducible apply FirmOut.ite
         | with_reducible apply FirmOut.next
         | with_reducible apply Firm.ite
         | with_reducible apply Firm.foldl
         | with_reducible apply Firm.ite_snd
         | with_reducible apply Firm.foldl_snd
         | with_reducible apply haltChannel_firm
         | with_reducible apply moveBuffer_firm
         | with_reducible apply sramWrite_firm
         | with_reducible apply xferFail_firm
         | split)
    | (intro x a hx)
    | (intro c; rfl)
    | (intro x hx; exact hx)
    | (intro x hx)
    | (intro x)
    | split
    | dsimp only

theorem execBundleTagCheck_firm {s : State} {xfer : Nat} : FirmOut s (execBundleTagCheck xfer s) := by
  have h := Firm.refl s
  unfold execBundleTagCheck
  try dsimp only
  repeat' first
    | with_reducible assumption
    | with_reducible apply FirmOut.ite
    | with_reducible apply FirmOut.next
    | with_reducible apply Firm.ite
    | with_reducible apply Firm.foldl
    | with_reducible apply Firm.ite_snd
    | with_reducible apply Firm.foldl_snd
    | with_reducible apply narrowWrite_firm
    | with_reducible apply occurrence_firm
    | with_reducible apply setPool_firm
    | with_reducible apply storeZero_firm
    | with_reducible apply xferDone_firm
    | with_reducible apply xferFail_firm
    | (refine Firm.mk' rfl rfl rfl rfl rfl rfl rfl rfl rfl rfl ?_
       first
         | with_reducible assumption
         | with_reducible apply FirmOut.ite
         | with_reducible apply FirmOut.next
         | with_reducible apply Firm.ite
         | with_reducible apply Firm.foldl
         | with_reducible apply Firm.ite_snd
         | with_reducible apply Firm.foldl_snd
         | with_reducible apply narrowWrite_firm
         | with_reducible apply occurrence_firm
         | with_reducible apply setPool_firm
         | with_reducible apply storeZero_firm
         | with_reducible apply xferDone_firm
         | with_reducible apply xferFail_firm
         | split)
    | (intro x a hx)
    | (intro c; rfl)
    | (intro x hx; exact hx)
    | (intro x hx)
    | (intro x)
    | split
    | dsimp only

theorem execZeroFillDone_firm {s : State} {xfer : Nat} : FirmOut s (execZeroFillDone xfer s) := by
  have h := Firm.refl s
  unfold execZeroFillDone
  try dsimp only
  repeat' first
    | with_reducible assumption
    | with_reducible apply FirmOut.ite
    | with_reducible apply FirmOut.next
    | with_reducible apply Firm.ite
    | with_reducible apply Firm.foldl
    | with_reducible apply Firm.ite_snd
    | with_reducible apply Firm.foldl_snd
    | with_reducible apply storeZero_firm
    | with_reducible apply xferDone_firm
    | (refine Firm.mk' rfl rfl rfl rfl rfl rfl rfl rfl rfl rfl ?_
       first
         | with_reducible assumption
         | with_reducible apply FirmOut.ite
         | with_reducible apply FirmOut.next
         | with_reducible apply Firm.ite
         | with_reducible apply Firm.foldl
         | with_reducible apply Firm.ite_snd
         | with_reducible apply Firm.foldl_snd
         | with_reducible apply storeZero_firm
         | with_reducible apply xferDone_firm
         | split)
    | (intro x a hx)
    | (intro c; rfl)
    | (intro x hx; exact hx)
    | (intro x hx)
    | (intro x)
    | split
    | dsimp only

theorem execXferStall_firm {s : State} {xfer : Nat} : FirmOut s (execXferStall xfer s) := by
  have h := Firm.refl s
  unfold execXferStall
  try dsimp only
  repeat' first
    | with_reducible assumption
    | with_reducible apply FirmOut.ite
    | with_reducible apply FirmOut.next
    | with_reducible apply Firm.ite
    | with_reducible apply Firm.foldl
    | with_reducible apply Firm.ite_snd
    | with_reducible apply Firm.foldl_snd
    | with_reducible apply xferFail_firm
    | (refine Firm.mk' rfl rfl rfl rfl rfl rfl rfl rfl rfl rfl ?_
       first
         | with_reducible assumption
         | with_reducible apply FirmOut.ite
         | with_reducible apply FirmOut.next
         | with_reducible apply Firm.ite
         | with_reducible apply Firm.foldl
         | with_reducible apply Firm.ite_snd
         | with_reducible apply Firm.foldl_snd
         | with_reducible apply xferFail_firm
         | split)
    | (intro x a hx)
    | (intro c; rfl)
    | (intro x hx; exact hx)
    | (intro x hx)
    | (intro x)
    | split
    | dsimp only

theorem execDrbgReseed_firm {s : State} {failed : Nat} : FirmOut s (execDrbgReseed failed s) := by
  have h := Firm.refl s
  unfold execDrbgReseed
  try dsimp only
  repeat' first
    | with_reducible assumption
    | with_reducible apply FirmOut.ite
    | with_reducible apply FirmOut.next
    | with_reducible apply Firm.ite
    | with_reducible apply Firm.foldl
    | with_reducible apply Firm.ite_snd
    | with_reducible apply Firm.foldl_snd
    | with_reducible apply occurrence_firm
    | with_reducible apply raiseWith_firm
    | (refine Firm.mk' rfl rfl rfl rfl rfl rfl rfl rfl rfl rfl ?_
       first
         | with_reducible assumption
         | with_reducible apply FirmOut.ite
         | with_reducible apply FirmOut.next
         | with_reducible apply Firm.ite
         | with_reducible apply Firm.foldl
         | with_reducible apply Firm.ite_snd
         | with_reducible apply Firm.foldl_snd
         | with_reducible apply occurrence_firm
         | with_reducible apply raiseWith_firm
         | split)
    | (intro x a hx)
    | (intro c; rfl)
    | (intro x hx; exact hx)
    | (intro x hx)
    | (intro x)
    | split
    | dsimp only

end Sys2Proof.Machine
end

