-- ==== Sys2Proof/Laws/FirmCaptures.lean ====
section
/-!
SUPPORT. What the operations of Machine/Captures.lean keep (`Firm`).
-/
set_option Elab.async false
set_option linter.unusedTactic false
set_option linter.unreachableTactic false
set_option linter.unusedVariables false
namespace Sys2Proof.Machine

theorem capConfigAct_firm {s0 s : State} {r : Req} (h : Firm s0 s) : Firm s0 (servedState (capConfigAct r s)) := by
  unfold capConfigAct
  try dsimp only
  repeat' first
    | with_reducible assumption
    | with_reducible apply Firm.served_ite
    | with_reducible apply Firm.ok
    | with_reducible apply Firm.okWith
    | with_reducible apply Firm.fail
    | with_reducible apply Firm.conflict
    | with_reducible apply Firm.done
    | with_reducible apply Firm.later
    | with_reducible apply Firm.ite
    | with_reducible apply Firm.foldl
    | with_reducible apply Firm.ite_snd
    | with_reducible apply Firm.foldl_snd
    | with_reducible apply conflict_firm
    | with_reducible apply fail_firm
    | with_reducible apply modBasin_firm
    | with_reducible apply ok_firm
    | with_reducible apply releaseSegments_firm
    | with_reducible apply setCapState_firm
    | (with_reducible show Firm _ (servedState _); split)
    | (refine Firm.mk' rfl rfl rfl rfl rfl rfl rfl rfl rfl rfl ?_
       first
         | with_reducible assumption
         | with_reducible apply Firm.served_ite
         | with_reducible apply Firm.ok
         | with_reducible apply Firm.okWith
         | with_reducible apply Firm.fail
         | with_reducible apply Firm.conflict
         | with_reducible apply Firm.done
         | with_reducible apply Firm.later
         | with_reducible apply Firm.ite
         | with_reducible apply Firm.foldl
         | with_reducible apply Firm.ite_snd
         | with_reducible apply Firm.foldl_snd
         | with_reducible apply conflict_firm
         | with_reducible apply fail_firm
         | with_reducible apply modBasin_firm
         | with_reducible apply ok_firm
         | with_reducible apply releaseSegments_firm
         | with_reducible apply setCapState_firm
         | split)
    | (intro x a hx)
    | (intro c; rfl)
    | (intro x hx; exact hx)
    | (intro x hx)
    | (intro x)
    | split
    | dsimp only

theorem execCapConfig_firm {s : State}  : FirmOut s (execCapConfig s) := by
  have h := Firm.refl s
  unfold execCapConfig
  try dsimp only
  repeat' first
    | with_reducible assumption
    | with_reducible apply FirmOut.ite
    | with_reducible apply FirmOut.next
    | with_reducible apply Firm.ite
    | with_reducible apply Firm.foldl
    | with_reducible apply Firm.ite_snd
    | with_reducible apply Firm.foldl_snd
    | with_reducible apply capConfigAct_firm
    | exact serve_firm h (fun r x hx hl => capConfigAct_firm hx)
    | exact serve_firm h (fun r x hx hl => capConfigAct_firm hx hl)
    | (refine Firm.mk' rfl rfl rfl rfl rfl rfl rfl rfl rfl rfl ?_
       first
         | with_reducible assumption
         | with_reducible apply FirmOut.ite
         | with_reducible apply FirmOut.next
         | with_reducible apply Firm.ite
         | with_reducible apply Firm.foldl
         | with_reducible apply Firm.ite_snd
         | with_reducible apply Firm.foldl_snd
         | with_reducible apply capConfigAct_firm
         | exact serve_firm h (fun r x hx hl => capConfigAct_firm hx)
         | exact serve_firm h (fun r x hx hl => capConfigAct_firm hx hl)
         | split)
    | (intro x a hx)
    | (intro c; rfl)
    | (intro x hx; exact hx)
    | (intro x hx)
    | (intro x)
    | split
    | dsimp only

theorem outdate_firm {s0 s : State} {b : Nat} {old : Basin} (h : Firm s0 s) : Firm s0 (outdate b old s) := by
  unfold outdate
  try dsimp only
  repeat' first
    | with_reducible assumption
    | with_reducible apply Firm.ite
    | with_reducible apply Firm.foldl
    | with_reducible apply Firm.ite_snd
    | with_reducible apply Firm.foldl_snd
    | (refine Firm.mk' rfl rfl rfl rfl rfl rfl rfl rfl rfl rfl ?_
       first
         | with_reducible assumption
         | with_reducible apply Firm.ite
         | with_reducible apply Firm.foldl
         | with_reducible apply Firm.ite_snd
         | with_reducible apply Firm.foldl_snd
         | split)
    | (intro x a hx)
    | (intro c; rfl)
    | (intro x hx; exact hx)
    | (intro x hx)
    | (intro x)
    | split
    | dsimp only

theorem capStartAct_firm {s0 s : State} {r : Req} (h : Firm s0 s) : Firm s0 (servedState (capStartAct r s)) := by
  unfold capStartAct
  try dsimp only
  repeat' first
    | with_reducible assumption
    | with_reducible apply Firm.served_ite
    | with_reducible apply Firm.ok
    | with_reducible apply Firm.okWith
    | with_reducible apply Firm.fail
    | with_reducible apply Firm.conflict
    | with_reducible apply Firm.done
    | with_reducible apply Firm.later
    | with_reducible apply Firm.ite
    | with_reducible apply Firm.foldl
    | with_reducible apply Firm.ite_snd
    | with_reducible apply Firm.foldl_snd
    | with_reducible apply beginCapture_firm
    | with_reducible apply conflict_firm
    | with_reducible apply fail_firm
    | with_reducible apply modBasin_firm
    | with_reducible apply ok_firm
    | with_reducible apply outdate_firm
    | with_reducible apply setCapState_firm
    | with_reducible apply slotConflict_firm
    | (with_reducible show Firm _ (servedState _); split)
    | (refine Firm.mk' rfl rfl rfl rfl rfl rfl rfl rfl rfl rfl ?_
       first
         | with_reducible assumption
         | with_reducible apply Firm.served_ite
         | with_reducible apply Firm.ok
         | with_reducible apply Firm.okWith
         | with_reducible apply Firm.fail
         | with_reducible apply Firm.conflict
         | with_reducible apply Firm.done
         | with_reducible apply Firm.later
         | with_reducible apply Firm.ite
         | with_reducible apply Firm.foldl
         | with_reducible apply Firm.ite_snd
         | with_reducible apply Firm.foldl_snd
         | with_reducible apply beginCapture_firm
         | with_reducible apply conflict_firm
         | with_reducible apply fail_firm
         | with_reducible apply modBasin_firm
         | with_reducible apply ok_firm
         | with_reducible apply outdate_firm
         | with_reducible apply setCapState_firm
         | with_reducible apply slotConflict_firm
         | split)
    | (intro x a hx)
    | (intro c; rfl)
    | (intro x hx; exact hx)
    | (intro x hx)
    | (intro x)
    | split
    | dsimp only

theorem execCapStart_firm {s : State}  : FirmOut s (execCapStart s) := by
  have h := Firm.refl s
  unfold execCapStart
  try dsimp only
  repeat' first
    | with_reducible assumption
    | with_reducible apply FirmOut.ite
    | with_reducible apply FirmOut.next
    | with_reducible apply Firm.ite
    | with_reducible apply Firm.foldl
    | with_reducible apply Firm.ite_snd
    | with_reducible apply Firm.foldl_snd
    | with_reducible apply capStartAct_firm
    | exact serve_firm h (fun r x hx hl => capStartAct_firm hx)
    | exact serve_firm h (fun r x hx hl => capStartAct_firm hx hl)
    | (refine Firm.mk' rfl rfl rfl rfl rfl rfl rfl rfl rfl rfl ?_
       first
         | with_reducible assumption
         | with_reducible apply FirmOut.ite
         | with_reducible apply FirmOut.next
         | with_reducible apply Firm.ite
         | with_reducible apply Firm.foldl
         | with_reducible apply Firm.ite_snd
         | with_reducible apply Firm.foldl_snd
         | with_reducible apply capStartAct_firm
         | exact serve_firm h (fun r x hx hl => capStartAct_firm hx)
         | exact serve_firm h (fun r x hx hl => capStartAct_firm hx hl)
         | split)
    | (intro x a hx)
    | (intro c; rfl)
    | (intro x hx; exact hx)
    | (intro x hx)
    | (intro x)
    | split
    | dsimp only

theorem capStopAct_firm {s0 s : State} {r : Req} (h : Firm s0 s) : Firm s0 (servedState (capStopAct r s)) := by
  unfold capStopAct
  try dsimp only
  repeat' first
    | with_reducible assumption
    | with_reducible apply Firm.served_ite
    | with_reducible apply Firm.ok
    | with_reducible apply Firm.okWith
    | with_reducible apply Firm.fail
    | with_reducible apply Firm.conflict
    | with_reducible apply Firm.done
    | with_reducible apply Firm.later
    | with_reducible apply Firm.ite
    | with_reducible apply Firm.foldl
    | with_reducible apply Firm.ite_snd
    | with_reducible apply Firm.foldl_snd
    | with_reducible apply conflict_firm
    | with_reducible apply fail_firm
    | with_reducible apply ok_firm
    | with_reducible apply stopCapture_firm
    | (with_reducible show Firm _ (servedState _); split)
    | (refine Firm.mk' rfl rfl rfl rfl rfl rfl rfl rfl rfl rfl ?_
       first
         | with_reducible assumption
         | with_reducible apply Firm.served_ite
         | with_reducible apply Firm.ok
         | with_reducible apply Firm.okWith
         | with_reducible apply Firm.fail
         | with_reducible apply Firm.conflict
         | with_reducible apply Firm.done
         | with_reducible apply Firm.later
         | with_reducible apply Firm.ite
         | with_reducible apply Firm.foldl
         | with_reducible apply Firm.ite_snd
         | with_reducible apply Firm.foldl_snd
         | with_reducible apply conflict_firm
         | with_reducible apply fail_firm
         | with_reducible apply ok_firm
         | with_reducible apply stopCapture_firm
         | split)
    | (intro x a hx)
    | (intro c; rfl)
    | (intro x hx; exact hx)
    | (intro x hx)
    | (intro x)
    | split
    | dsimp only

theorem execCapStop_firm {s : State}  : FirmOut s (execCapStop s) := by
  have h := Firm.refl s
  unfold execCapStop
  try dsimp only
  repeat' first
    | with_reducible assumption
    | with_reducible apply FirmOut.ite
    | with_reducible apply FirmOut.next
    | with_reducible apply Firm.ite
    | with_reducible apply Firm.foldl
    | with_reducible apply Firm.ite_snd
    | with_reducible apply Firm.foldl_snd
    | with_reducible apply capStopAct_firm
    | exact serve_firm h (fun r x hx hl => capStopAct_firm hx)
    | exact serve_firm h (fun r x hx hl => capStopAct_firm hx hl)
    | (refine Firm.mk' rfl rfl rfl rfl rfl rfl rfl rfl rfl rfl ?_
       first
         | with_reducible assumption
         | with_reducible apply FirmOut.ite
         | with_reducible apply FirmOut.next
         | with_reducible apply Firm.ite
         | with_reducible apply Firm.foldl
         | with_reducible apply Firm.ite_snd
         | with_reducible apply Firm.foldl_snd
         | with_reducible apply capStopAct_firm
         | exact serve_firm h (fun r x hx hl => capStopAct_firm hx)
         | exact serve_firm h (fun r x hx hl => capStopAct_firm hx hl)
         | split)
    | (intro x a hx)
    | (intro c; rfl)
    | (intro x hx; exact hx)
    | (intro x hx)
    | (intro x)
    | split
    | dsimp only

theorem capTriggerAct_firm {s0 s : State} {r : Req} (h : Firm s0 s) : Firm s0 (servedState (capTriggerAct r s)) := by
  unfold capTriggerAct
  try dsimp only
  repeat' first
    | with_reducible assumption
    | with_reducible apply Firm.served_ite
    | with_reducible apply Firm.ok
    | with_reducible apply Firm.okWith
    | with_reducible apply Firm.fail
    | with_reducible apply Firm.conflict
    | with_reducible apply Firm.done
    | with_reducible apply Firm.later
    | with_reducible apply Firm.ite
    | with_reducible apply Firm.foldl
    | with_reducible apply Firm.ite_snd
    | with_reducible apply Firm.foldl_snd
    | with_reducible apply fireTrigger_firm
    | with_reducible apply ok_firm
    | with_reducible apply shareTrigger_firm
    | (with_reducible show Firm _ (servedState _); split)
    | (refine Firm.mk' rfl rfl rfl rfl rfl rfl rfl rfl rfl rfl ?_
       first
         | with_reducible assumption
         | with_reducible apply Firm.served_ite
         | with_reducible apply Firm.ok
         | with_reducible apply Firm.okWith
         | with_reducible apply Firm.fail
         | with_reducible apply Firm.conflict
         | with_reducible apply Firm.done
         | with_reducible apply Firm.later
         | with_reducible apply Firm.ite
         | with_reducible apply Firm.foldl
         | with_reducible apply Firm.ite_snd
         | with_reducible apply Firm.foldl_snd
         | with_reducible apply fireTrigger_firm
         | with_reducible apply ok_firm
         | with_reducible apply shareTrigger_firm
         | split)
    | (intro x a hx)
    | (intro c; rfl)
    | (intro x hx; exact hx)
    | (intro x hx)
    | (intro x)
    | split
    | dsimp only

theorem execCapTrigger_firm {s : State}  : FirmOut s (execCapTrigger s) := by
  have h := Firm.refl s
  unfold execCapTrigger
  try dsimp only
  repeat' first
    | with_reducible assumption
    | with_reducible apply FirmOut.ite
    | with_reducible apply FirmOut.next
    | with_reducible apply Firm.ite
    | with_reducible apply Firm.foldl
    | with_reducible apply Firm.ite_snd
    | with_reducible apply Firm.foldl_snd
    | with_reducible apply capTriggerAct_firm
    | exact serve_firm h (fun r x hx hl => capTriggerAct_firm hx)
    | exact serve_firm h (fun r x hx hl => capTriggerAct_firm hx hl)
    | (refine Firm.mk' rfl rfl rfl rfl rfl rfl rfl rfl rfl rfl ?_
       first
         | with_reducible assumption
         | with_reducible apply FirmOut.ite
         | with_reducible apply FirmOut.next
         | with_reducible apply Firm.ite
         | with_reducible apply Firm.foldl
         | with_reducible apply Firm.ite_snd
         | with_reducible apply Firm.foldl_snd
         | with_reducible apply capTriggerAct_firm
         | exact serve_firm h (fun r x hx hl => capTriggerAct_firm hx)
         | exact serve_firm h (fun r x hx hl => capTriggerAct_firm hx hl)
         | split)
    | (intro x a hx)
    | (intro c; rfl)
    | (intro x hx; exact hx)
    | (intro x hx)
    | (intro x)
    | split
    | dsimp only

theorem capReleaseAct_firm {s0 s : State} {r : Req} (h : Firm s0 s) : Firm s0 (servedState (capReleaseAct r s)) := by
  unfold capReleaseAct
  try dsimp only
  repeat' first
    | with_reducible assumption
    | with_reducible apply Firm.served_ite
    | with_reducible apply Firm.ok
    | with_reducible apply Firm.okWith
    | with_reducible apply Firm.fail
    | with_reducible apply Firm.conflict
    | with_reducible apply Firm.done
    | with_reducible apply Firm.later
    | with_reducible apply Firm.ite
    | with_reducible apply Firm.foldl
    | with_reducible apply Firm.ite_snd
    | with_reducible apply Firm.foldl_snd
    | with_reducible apply conflict_firm
    | with_reducible apply fail_firm
    | with_reducible apply modBasin_firm
    | with_reducible apply ok_firm
    | with_reducible apply releaseSegments_firm
    | with_reducible apply setCapState_firm
    | (with_reducible show Firm _ (servedState _); split)
    | (refine Firm.mk' rfl rfl rfl rfl rfl rfl rfl rfl rfl rfl ?_
       first
         | with_reducible assumption
         | with_reducible apply Firm.served_ite
         | with_reducible apply Firm.ok
         | with_reducible apply Firm.okWith
         | with_reducible apply Firm.fail
         | with_reducible apply Firm.conflict
         | with_reducible apply Firm.done
         | with_reducible apply Firm.later
         | with_reducible apply Firm.ite
         | with_reducible apply Firm.foldl
         | with_reducible apply Firm.ite_snd
         | with_reducible apply Firm.foldl_snd
         | with_reducible apply conflict_firm
         | with_reducible apply fail_firm
         | with_reducible apply modBasin_firm
         | with_reducible apply ok_firm
         | with_reducible apply releaseSegments_firm
         | with_reducible apply setCapState_firm
         | split)
    | (intro x a hx)
    | (intro c; rfl)
    | (intro x hx; exact hx)
    | (intro x hx)
    | (intro x)
    | split
    | dsimp only

theorem execCapRelease_firm {s : State}  : FirmOut s (execCapRelease s) := by
  have h := Firm.refl s
  unfold execCapRelease
  try dsimp only
  repeat' first
    | with_reducible assumption
    | with_reducible apply FirmOut.ite
    | with_reducible apply FirmOut.next
    | with_reducible apply Firm.ite
    | with_reducible apply Firm.foldl
    | with_reducible apply Firm.ite_snd
    | with_reducible apply Firm.foldl_snd
    | with_reducible apply capReleaseAct_firm
    | exact serve_firm h (fun r x hx hl => capReleaseAct_firm hx)
    | exact serve_firm h (fun r x hx hl => capReleaseAct_firm hx hl)
    | (refine Firm.mk' rfl rfl rfl rfl rfl rfl rfl rfl rfl rfl ?_
       first
         | with_reducible assumption
         | with_reducible apply FirmOut.ite
         | with_reducible apply FirmOut.next
         | with_reducible apply Firm.ite
         | with_reducible apply Firm.foldl
         | with_reducible apply Firm.ite_snd
         | with_reducible apply Firm.foldl_snd
         | with_reducible apply capReleaseAct_firm
         | exact serve_firm h (fun r x hx hl => capReleaseAct_firm hx)
         | exact serve_firm h (fun r x hx hl => capReleaseAct_firm hx hl)
         | split)
    | (intro x a hx)
    | (intro c; rfl)
    | (intro x hx; exact hx)
    | (intro x hx)
    | (intro x)
    | split
    | dsimp only

theorem capStatusAct_firm {s0 s : State} {r : Req} (h : Firm s0 s) : Firm s0 (servedState (capStatusAct r s)) := by
  unfold capStatusAct
  try dsimp only
  repeat' first
    | with_reducible assumption
    | with_reducible apply Firm.served_ite
    | with_reducible apply Firm.ok
    | with_reducible apply Firm.okWith
    | with_reducible apply Firm.fail
    | with_reducible apply Firm.conflict
    | with_reducible apply Firm.done
    | with_reducible apply Firm.later
    | with_reducible apply Firm.ite
    | with_reducible apply Firm.foldl
    | with_reducible apply Firm.ite_snd
    | with_reducible apply Firm.foldl_snd
    | with_reducible apply okWith_firm
    | (with_reducible show Firm _ (servedState _); split)
    | (refine Firm.mk' rfl rfl rfl rfl rfl rfl rfl rfl rfl rfl ?_
       first
         | with_reducible assumption
         | with_reducible apply Firm.served_ite
         | with_reducible apply Firm.ok
         | with_reducible apply Firm.okWith
         | with_reducible apply Firm.fail
         | with_reducible apply Firm.conflict
         | with_reducible apply Firm.done
         | with_reducible apply Firm.later
         | with_reducible apply Firm.ite
         | with_reducible apply Firm.foldl
         | with_reducible apply Firm.ite_snd
         | with_reducible apply Firm.foldl_snd
         | with_reducible apply okWith_firm
         | split)
    | (intro x a hx)
    | (intro c; rfl)
    | (intro x hx; exact hx)
    | (intro x hx)
    | (intro x)
    | split
    | dsimp only

theorem execCapStatus_firm {s : State}  : FirmOut s (execCapStatus s) := by
  have h := Firm.refl s
  unfold execCapStatus
  try dsimp only
  repeat' first
    | with_reducible assumption
    | with_reducible apply FirmOut.ite
    | with_reducible apply FirmOut.next
    | with_reducible apply Firm.ite
    | with_reducible apply Firm.foldl
    | with_reducible apply Firm.ite_snd
    | with_reducible apply Firm.foldl_snd
    | with_reducible apply capStatusAct_firm
    | exact serve_firm h (fun r x hx hl => capStatusAct_firm hx)
    | exact serve_firm h (fun r x hx hl => capStatusAct_firm hx hl)
    | (refine Firm.mk' rfl rfl rfl rfl rfl rfl rfl rfl rfl rfl ?_
       first
         | with_reducible assumption
         | with_reducible apply FirmOut.ite
         | with_reducible apply FirmOut.next
         | with_reducible apply Firm.ite
         | with_reducible apply Firm.foldl
         | with_reducible apply Firm.ite_snd
         | with_reducible apply Firm.foldl_snd
         | with_reducible apply capStatusAct_firm
         | exact serve_firm h (fun r x hx hl => capStatusAct_firm hx)
         | exact serve_firm h (fun r x hx hl => capStatusAct_firm hx hl)
         | split)
    | (intro x a hx)
    | (intro c; rfl)
    | (intro x hx; exact hx)
    | (intro x hx)
    | (intro x)
    | split
    | dsimp only

theorem capSegmentsAct_firm {s0 s : State} {r : Req} (h : Firm s0 s) : Firm s0 (servedState (capSegmentsAct r s)) := by
  unfold capSegmentsAct
  try dsimp only
  repeat' first
    | with_reducible assumption
    | with_reducible apply Firm.served_ite
    | with_reducible apply Firm.ok
    | with_reducible apply Firm.okWith
    | with_reducible apply Firm.fail
    | with_reducible apply Firm.conflict
    | with_reducible apply Firm.done
    | with_reducible apply Firm.later
    | with_reducible apply Firm.ite
    | with_reducible apply Firm.foldl
    | with_reducible apply Firm.ite_snd
    | with_reducible apply Firm.foldl_snd
    | with_reducible apply okWith_firm
    | (with_reducible show Firm _ (servedState _); split)
    | (refine Firm.mk' rfl rfl rfl rfl rfl rfl rfl rfl rfl rfl ?_
       first
         | with_reducible assumption
         | with_reducible apply Firm.served_ite
         | with_reducible apply Firm.ok
         | with_reducible apply Firm.okWith
         | with_reducible apply Firm.fail
         | with_reducible apply Firm.conflict
         | with_reducible apply Firm.done
         | with_reducible apply Firm.later
         | with_reducible apply Firm.ite
         | with_reducible apply Firm.foldl
         | with_reducible apply Firm.ite_snd
         | with_reducible apply Firm.foldl_snd
         | with_reducible apply okWith_firm
         | split)
    | (intro x a hx)
    | (intro c; rfl)
    | (intro x hx; exact hx)
    | (intro x hx)
    | (intro x)
    | split
    | dsimp only

theorem execCapSegments_firm {s : State}  : FirmOut s (execCapSegments s) := by
  have h := Firm.refl s
  unfold execCapSegments
  try dsimp only
  repeat' first
    | with_reducible assumption
    | with_reducible apply FirmOut.ite
    | with_reducible apply FirmOut.next
    | with_reducible apply Firm.ite
    | with_reducible apply Firm.foldl
    | with_reducible apply Firm.ite_snd
    | with_reducible apply Firm.foldl_snd
    | with_reducible apply capSegmentsAct_firm
    | exact serve_firm h (fun r x hx hl => capSegmentsAct_firm hx)
    | exact serve_firm h (fun r x hx hl => capSegmentsAct_firm hx hl)
    | (refine Firm.mk' rfl rfl rfl rfl rfl rfl rfl rfl rfl rfl ?_
       first
         | with_reducible assumption
         | with_reducible apply FirmOut.ite
         | with_reducible apply FirmOut.next
         | with_reducible apply Firm.ite
         | with_reducible apply Firm.foldl
         | with_reducible apply Firm.ite_snd
         | with_reducible apply Firm.foldl_snd
         | with_reducible apply capSegmentsAct_firm
         | exact serve_firm h (fun r x hx hl => capSegmentsAct_firm hx)
         | exact serve_firm h (fun r x hx hl => capSegmentsAct_firm hx hl)
         | split)
    | (intro x a hx)
    | (intro c; rfl)
    | (intro x hx; exact hx)
    | (intro x hx)
    | (intro x)
    | split
    | dsimp only

theorem windowAct_firm {s0 s : State} {r : Req} (h : Firm s0 s) : Firm s0 (servedState (windowAct r s)) := by
  unfold windowAct
  try dsimp only
  repeat' first
    | with_reducible assumption
    | with_reducible apply Firm.served_ite
    | with_reducible apply Firm.ok
    | with_reducible apply Firm.okWith
    | with_reducible apply Firm.fail
    | with_reducible apply Firm.conflict
    | with_reducible apply Firm.done
    | with_reducible apply Firm.later
    | with_reducible apply Firm.ite
    | with_reducible apply Firm.foldl
    | with_reducible apply Firm.ite_snd
    | with_reducible apply Firm.foldl_snd
    | with_reducible apply fail_firm
    | with_reducible apply ok_firm
    | (with_reducible show Firm _ (servedState _); split)
    | (refine Firm.mk' rfl rfl rfl rfl rfl rfl rfl rfl rfl rfl ?_
       first
         | with_reducible assumption
         | with_reducible apply Firm.served_ite
         | with_reducible apply Firm.ok
         | with_reducible apply Firm.okWith
         | with_reducible apply Firm.fail
         | with_reducible apply Firm.conflict
         | with_reducible apply Firm.done
         | with_reducible apply Firm.later
         | with_reducible apply Firm.ite
         | with_reducible apply Firm.foldl
         | with_reducible apply Firm.ite_snd
         | with_reducible apply Firm.foldl_snd
         | with_reducible apply fail_firm
         | with_reducible apply ok_firm
         | split)
    | (intro x a hx)
    | (intro c; rfl)
    | (intro x hx; exact hx)
    | (intro x hx)
    | (intro x)
    | split
    | dsimp only

theorem execCapWindowMap_firm {s : State}  : FirmOut s (execCapWindowMap s) := by
  have h := Firm.refl s
  unfold execCapWindowMap
  try dsimp only
  repeat' first
    | with_reducible assumption
    | with_reducible apply FirmOut.ite
    | with_reducible apply FirmOut.next
    | with_reducible apply Firm.ite
    | with_reducible apply Firm.foldl
    | with_reducible apply Firm.ite_snd
    | with_reducible apply Firm.foldl_snd
    | with_reducible apply windowAct_firm
    | exact serve_firm h (fun r x hx hl => windowAct_firm hx)
    | exact serve_firm h (fun r x hx hl => windowAct_firm hx hl)
    | (refine Firm.mk' rfl rfl rfl rfl rfl rfl rfl rfl rfl rfl ?_
       first
         | with_reducible assumption
         | with_reducible apply FirmOut.ite
         | with_reducible apply FirmOut.next
         | with_reducible apply Firm.ite
         | with_reducible apply Firm.foldl
         | with_reducible apply Firm.ite_snd
         | with_reducible apply Firm.foldl_snd
         | with_reducible apply windowAct_firm
         | exact serve_firm h (fun r x hx hl => windowAct_firm hx)
         | exact serve_firm h (fun r x hx hl => windowAct_firm hx hl)
         | split)
    | (intro x a hx)
    | (intro c; rfl)
    | (intro x hx; exact hx)
    | (intro x hx)
    | (intro x)
    | split
    | dsimp only

theorem commitStaged_firm {s0 s : State} {b : Nat} {returned : Bool} {i : StageItem} (h : Firm s0 s) : Firm s0 (commitStaged b returned i s) := by
  unfold commitStaged
  try dsimp only
  repeat' first
    | with_reducible assumption
    | with_reducible apply Firm.ite
    | with_reducible apply Firm.foldl
    | with_reducible apply Firm.ite_snd
    | with_reducible apply Firm.foldl_snd
    | with_reducible apply modBasin_firm
    | with_reducible apply putRec_firm
    | with_reducible apply settleAll_firm
    | with_reducible apply storeDecided_firm
    | with_reducible apply unstage_firm
    | (refine Firm.mk' rfl rfl rfl rfl rfl rfl rfl rfl rfl rfl ?_
       first
         | with_reducible assumption
         | with_reducible apply Firm.ite
         | with_reducible apply Firm.foldl
         | with_reducible apply Firm.ite_snd
         | with_reducible apply Firm.foldl_snd
         | with_reducible apply modBasin_firm
         | with_reducible apply putRec_firm
         | with_reducible apply settleAll_firm
         | with_reducible apply storeDecided_firm
         | with_reducible apply unstage_firm
         | split)
    | (intro x a hx)
    | (intro c; rfl)
    | (intro x hx; exact hx)
    | (intro x hx)
    | (intro x)
    | split
    | dsimp only

theorem execBasinDecision_firm {s : State} {basin : Nat} {item : Nat} {returned : Bool} : FirmOut s (execBasinDecision basin item returned s) := by
  have h := Firm.refl s
  unfold execBasinDecision
  try dsimp only
  repeat' first
    | with_reducible assumption
    | with_reducible apply FirmOut.ite
    | with_reducible apply FirmOut.next
    | with_reducible apply Firm.ite
    | with_reducible apply Firm.foldl
    | with_reducible apply Firm.ite_snd
    | with_reducible apply Firm.foldl_snd
    | with_reducible apply commitStaged_firm
    | (refine Firm.mk' rfl rfl rfl rfl rfl rfl rfl rfl rfl rfl ?_
       first
         | with_reducible assumption
         | with_reducible apply FirmOut.ite
         | with_reducible apply FirmOut.next
         | with_reducible apply Firm.ite
         | with_reducible apply Firm.foldl
         | with_reducible apply Firm.ite_snd
         | with_reducible apply Firm.foldl_snd
         | with_reducible apply commitStaged_firm
         | split)
    | (intro x a hx)
    | (intro c; rfl)
    | (intro x hx; exact hx)
    | (intro x hx)
    | (intro x)
    | split
    | dsimp only

theorem passDeadline_firm {s0 s : State} {src : Nat} {item : Nat} (h : Firm s0 s) : Firm s0 (passDeadline src item s) := by
  unfold passDeadline
  try dsimp only
  repeat' first
    | with_reducible assumption
    | with_reducible apply Firm.ite
    | with_reducible apply Firm.foldl
    | with_reducible apply Firm.ite_snd
    | with_reducible apply Firm.foldl_snd
    | (refine Firm.mk' rfl rfl rfl rfl rfl rfl rfl rfl rfl rfl ?_
       first
         | with_reducible assumption
         | with_reducible apply Firm.ite
         | with_reducible apply Firm.foldl
         | with_reducible apply Firm.ite_snd
         | with_reducible apply Firm.foldl_snd
         | split)
    | (intro x a hx)
    | (intro c; rfl)
    | (intro x hx; exact hx)
    | (intro x hx)
    | (intro x)
    | split
    | dsimp only

theorem execStagingTimeout_firm {s : State} {basin : Nat} {item : Nat} {returned : Bool} : FirmOut s (execStagingTimeout basin item returned s) := by
  have h := Firm.refl s
  unfold execStagingTimeout
  try dsimp only
  repeat' first
    | with_reducible assumption
    | with_reducible apply FirmOut.ite
    | with_reducible apply FirmOut.next
    | with_reducible apply Firm.ite
    | with_reducible apply Firm.foldl
    | with_reducible apply Firm.ite_snd
    | with_reducible apply Firm.foldl_snd
    | with_reducible apply commitStaged_firm
    | with_reducible apply passDeadline_firm
    | (refine Firm.mk' rfl rfl rfl rfl rfl rfl rfl rfl rfl rfl ?_
       first
         | with_reducible assumption
         | with_reducible apply FirmOut.ite
         | with_reducible apply FirmOut.next
         | with_reducible apply Firm.ite
         | with_reducible apply Firm.foldl
         | with_reducible apply Firm.ite_snd
         | with_reducible apply Firm.foldl_snd
         | with_reducible apply commitStaged_firm
         | with_reducible apply passDeadline_firm
         | split)
    | (intro x a hx)
    | (intro c; rfl)
    | (intro x hx; exact hx)
    | (intro x hx)
    | (intro x)
    | split
    | dsimp only

theorem execFoldWindowExpiry_firm {s : State} {basin : Nat} : FirmOut s (execFoldWindowExpiry basin s) := by
  have h := Firm.refl s
  unfold execFoldWindowExpiry
  try dsimp only
  repeat' first
    | with_reducible assumption
    | with_reducible apply FirmOut.ite
    | with_reducible apply FirmOut.next
    | with_reducible apply Firm.ite
    | with_reducible apply Firm.foldl
    | with_reducible apply Firm.ite_snd
    | with_reducible apply Firm.foldl_snd
    | with_reducible apply closeRun_firm
    | with_reducible apply putRec_firm
    | (refine Firm.mk' rfl rfl rfl rfl rfl rfl rfl rfl rfl rfl ?_
       first
         | with_reducible assumption
         | with_reducible apply FirmOut.ite
         | with_reducible apply FirmOut.next
         | with_reducible apply Firm.ite
         | with_reducible apply Firm.foldl
         | with_reducible apply Firm.ite_snd
         | with_reducible apply Firm.foldl_snd
         | with_reducible apply closeRun_firm
         | with_reducible apply putRec_firm
         | split)
    | (intro x a hx)
    | (intro c; rfl)
    | (intro x hx; exact hx)
    | (intro x hx)
    | (intro x)
    | split
    | dsimp only

theorem execEpochSecond_firm {s : State} {basin : Nat} : FirmOut s (execEpochSecond basin s) := by
  have h := Firm.refl s
  unfold execEpochSecond
  try dsimp only
  repeat' first
    | with_reducible assumption
    | with_reducible apply FirmOut.ite
    | with_reducible apply FirmOut.next
    | with_reducible apply Firm.ite
    | with_reducible apply Firm.foldl
    | with_reducible apply Firm.ite_snd
    | with_reducible apply Firm.foldl_snd
    | with_reducible apply putNote_firm
    | (refine Firm.mk' rfl rfl rfl rfl rfl rfl rfl rfl rfl rfl ?_
       first
         | with_reducible assumption
         | with_reducible apply FirmOut.ite
         | with_reducible apply FirmOut.next
         | with_reducible apply Firm.ite
         | with_reducible apply Firm.foldl
         | with_reducible apply Firm.ite_snd
         | with_reducible apply Firm.foldl_snd
         | with_reducible apply putNote_firm
         | split)
    | (intro x a hx)
    | (intro c; rfl)
    | (intro x hx; exact hx)
    | (intro x hx)
    | (intro x)
    | split
    | dsimp only

theorem execGapWrite_firm {s : State} {basin : Nat} : FirmOut s (execGapWrite basin s) := by
  have h := Firm.refl s
  unfold execGapWrite
  try dsimp only
  repeat' first
    | with_reducible assumption
    | with_reducible apply FirmOut.ite
    | with_reducible apply FirmOut.next
    | with_reducible apply Firm.ite
    | with_reducible apply Firm.foldl
    | with_reducible apply Firm.ite_snd
    | with_reducible apply Firm.foldl_snd
    | with_reducible apply settleBasin_firm
    | with_reducible apply stopFull_firm
    | with_reducible apply writeGap_firm
    | (refine Firm.mk' rfl rfl rfl rfl rfl rfl rfl rfl rfl rfl ?_
       first
         | with_reducible assumption
         | with_reducible apply FirmOut.ite
         | with_reducible apply FirmOut.next
         | with_reducible apply Firm.ite
         | with_reducible apply Firm.foldl
         | with_reducible apply Firm.ite_snd
         | with_reducible apply Firm.foldl_snd
         | with_reducible apply settleBasin_firm
         | with_reducible apply stopFull_firm
         | with_reducible apply writeGap_firm
         | split)
    | (intro x a hx)
    | (intro c; rfl)
    | (intro x hx; exact hx)
    | (intro x hx)
    | (intro x)
    | split
    | dsimp only

theorem fenceWeirOf_firm {s0 s : State} {inj : Bool} {w : Nat} {cause : Nat} (h : Firm s0 s) : Firm s0 (fenceWeirOf inj w cause s) := by
  unfold fenceWeirOf
  try dsimp only
  repeat' first
    | with_reducible assumption
    | with_reducible apply Firm.ite
    | with_reducible apply Firm.foldl
    | with_reducible apply Firm.ite_snd
    | with_reducible apply Firm.foldl_snd
    | with_reducible apply fenceWeir_firm
    | with_reducible apply putRec_firm
    | with_reducible apply settleAll_firm
    | (refine Firm.mk' rfl rfl rfl rfl rfl rfl rfl rfl rfl rfl ?_
       first
         | with_reducible assumption
         | with_reducible apply Firm.ite
         | with_reducible apply Firm.foldl
         | with_reducible apply Firm.ite_snd
         | with_reducible apply Firm.foldl_snd
         | with_reducible apply fenceWeir_firm
         | with_reducible apply putRec_firm
         | with_reducible apply settleAll_firm
         | split)
    | (intro x a hx)
    | (intro c; rfl)
    | (intro x hx; exact hx)
    | (intro x hx)
    | (intro x)
    | split
    | dsimp only

theorem execWeirNoReturn_firm {s : State} {weir : Nat} : FirmOut s (execWeirNoReturn weir s) := by
  have h := Firm.refl s
  unfold execWeirNoReturn
  try dsimp only
  repeat' first
    | with_reducible assumption
    | with_reducible apply FirmOut.ite
    | with_reducible apply FirmOut.next
    | with_reducible apply Firm.ite
    | with_reducible apply Firm.foldl
    | with_reducible apply Firm.ite_snd
    | with_reducible apply Firm.foldl_snd
    | with_reducible apply fenceWeirOf_firm
    | (refine Firm.mk' rfl rfl rfl rfl rfl rfl rfl rfl rfl rfl ?_
       first
         | with_reducible assumption
         | with_reducible apply FirmOut.ite
         | with_reducible apply FirmOut.next
         | with_reducible apply Firm.ite
         | with_reducible apply Firm.foldl
         | with_reducible apply Firm.ite_snd
         | with_reducible apply Firm.foldl_snd
         | with_reducible apply fenceWeirOf_firm
         | split)
    | (intro x a hx)
    | (intro c; rfl)
    | (intro x hx; exact hx)
    | (intro x hx)
    | (intro x)
    | split
    | dsimp only

theorem execWeirSelfCheck_firm {s : State} {weir : Nat} {passed : Bool} : FirmOut s (execWeirSelfCheck weir passed s) := by
  have h := Firm.refl s
  unfold execWeirSelfCheck
  try dsimp only
  repeat' first
    | with_reducible assumption
    | with_reducible apply FirmOut.ite
    | with_reducible apply FirmOut.next
    | with_reducible apply Firm.ite
    | with_reducible apply Firm.foldl
    | with_reducible apply Firm.ite_snd
    | with_reducible apply Firm.foldl_snd
    | with_reducible apply fenceWeirOf_firm
    | with_reducible apply occurrence_firm
    | (refine Firm.mk' rfl rfl rfl rfl rfl rfl rfl rfl rfl rfl ?_
       first
         | with_reducible assumption
         | with_reducible apply FirmOut.ite
         | with_reducible apply FirmOut.next
         | with_reducible apply Firm.ite
         | with_reducible apply Firm.foldl
         | with_reducible apply Firm.ite_snd
         | with_reducible apply Firm.foldl_snd
         | with_reducible apply fenceWeirOf_firm
         | with_reducible apply occurrence_firm
         | split)
    | (intro x a hx)
    | (intro c; rfl)
    | (intro x hx; exact hx)
    | (intro x hx)
    | (intro x)
    | split
    | dsimp only

end Sys2Proof.Machine
end

