-- ==== Sys2Proof/Laws/FirmParser.lean ====
section
/-!
SUPPORT. What the operations of Machine/Parser.lean keep (`Firm`).
-/
set_option Elab.async false
set_option linter.unusedTactic false
set_option linter.unreachableTactic false
set_option linter.unusedVariables false
namespace Sys2Proof.Machine


end Sys2Proof.Machine
end

