-- ==== Sys2Proof/Laws/FirmClassifier.lean ====
section
/-!
SUPPORT. What the operations of Machine/Classifier.lean keep (`Firm`).
-/
set_option Elab.async false
set_option linter.unusedTactic false
set_option linter.unreachableTactic false
set_option linter.unusedVariables false
namespace Sys2Proof.Machine

theorem modCls_firm {s0 s : State} {f : Classifier → Classifier} (h : Firm s0 s) : Firm s0 (modCls f s) := by
  unfold modCls
  try dsimp only
  repeat' first
    | with_reducible assumption
    | with_reducible apply Firm.ite
    | with_reducible apply Firm.foldl
    | with_reducible apply Firm.ite_snd
    | with_reducible apply Firm.foldl_snd
    | (refine Firm.mk' rfl rfl rfl rfl rfl rfl rfl rfl rfl rfl ?_
       first
         | with_reducible assumption
         | with_reducible apply Firm.ite
         | with_reducible apply Firm.foldl
         | with_reducible apply Firm.ite_snd
         | with_reducible apply Firm.foldl_snd
         | split)
    | (intro x a hx)
    | (intro c; rfl)
    | (intro x hx; exact hx)
    | (intro x hx)
    | (intro x)
    | split
    | dsimp only

theorem countCls_firm {s0 s : State} {src : Nat} {off : Nat} {k : Nat} (h : Firm s0 s) : Firm s0 (countCls src off k s) := by
  unfold countCls
  try dsimp only
  repeat' first
    | with_reducible assumption
    | with_reducible apply Firm.ite
    | with_reducible apply Firm.foldl
    | with_reducible apply Firm.ite_snd
    | with_reducible apply Firm.foldl_snd
    | with_reducible apply modCls_firm
    | (refine Firm.mk' rfl rfl rfl rfl rfl rfl rfl rfl rfl rfl ?_
       first
         | with_reducible assumption
         | with_reducible apply Firm.ite
         | with_reducible apply Firm.foldl
         | with_reducible apply Firm.ite_snd
         | with_reducible apply Firm.foldl_snd
         | with_reducible apply modCls_firm
         | split)
    | (intro x a hx)
    | (intro c; rfl)
    | (intro x hx; exact hx)
    | (intro x hx)
    | (intro x)
    | split
    | dsimp only

theorem execVersionRetired_firm {s : State}  : FirmOut s (execVersionRetired s) := by
  have h := Firm.refl s
  unfold execVersionRetired
  try dsimp only
  repeat' first
    | with_reducible assumption
    | with_reducible apply FirmOut.ite
    | with_reducible apply FirmOut.next
    | with_reducible apply Firm.ite
    | with_reducible apply Firm.foldl
    | with_reducible apply Firm.ite_snd
    | with_reducible apply Firm.foldl_snd
    | with_reducible apply modCls_firm
    | with_reducible apply raise_firm
    | (refine Firm.mk' rfl rfl rfl rfl rfl rfl rfl rfl rfl rfl ?_
       first
         | with_reducible assumption
         | with_reducible apply FirmOut.ite
         | with_reducible apply FirmOut.next
         | with_reducible apply Firm.ite
         | with_reducible apply Firm.foldl
         | with_reducible apply Firm.ite_snd
         | with_reducible apply Firm.foldl_snd
         | with_reducible apply modCls_firm
         | with_reducible apply raise_firm
         | split)
    | (intro x a hx)
    | (intro c; rfl)
    | (intro x hx; exact hx)
    | (intro x hx)
    | (intro x)
    | split
    | dsimp only

theorem modItem_firm {s0 s : State} {id : Nat} {f : ClsItem → ClsItem} (h : Firm s0 s) : Firm s0 (modItem id f s) := by
  unfold modItem
  try dsimp only
  repeat' first
    | with_reducible assumption
    | with_reducible apply Firm.ite
    | with_reducible apply Firm.foldl
    | with_reducible apply Firm.ite_snd
    | with_reducible apply Firm.foldl_snd
    | with_reducible apply modCls_firm
    | (refine Firm.mk' rfl rfl rfl rfl rfl rfl rfl rfl rfl rfl ?_
       first
         | with_reducible assumption
         | with_reducible apply Firm.ite
         | with_reducible apply Firm.foldl
         | with_reducible apply Firm.ite_snd
         | with_reducible apply Firm.foldl_snd
         | with_reducible apply modCls_firm
         | split)
    | (intro x a hx)
    | (intro c; rfl)
    | (intro x hx; exact hx)
    | (intro x hx)
    | (intro x)
    | split
    | dsimp only

theorem dropItem_firm {s0 s : State} {id : Nat} (h : Firm s0 s) : Firm s0 (dropItem id s) := by
  unfold dropItem
  try dsimp only
  repeat' first
    | with_reducible assumption
    | with_reducible apply Firm.ite
    | with_reducible apply Firm.foldl
    | with_reducible apply Firm.ite_snd
    | with_reducible apply Firm.foldl_snd
    | with_reducible apply modCls_firm
    | (refine Firm.mk' rfl rfl rfl rfl rfl rfl rfl rfl rfl rfl ?_
       first
         | with_reducible assumption
         | with_reducible apply Firm.ite
         | with_reducible apply Firm.foldl
         | with_reducible apply Firm.ite_snd
         | with_reducible apply Firm.foldl_snd
         | with_reducible apply modCls_firm
         | split)
    | (intro x a hx)
    | (intro c; rfl)
    | (intro x hx; exact hx)
    | (intro x hx)
    | (intro x)
    | split
    | dsimp only

theorem informBasin_firm {s0 s : State} {i : ClsItem} (h : Firm s0 s) : Firm s0 (informBasin i s) := by
  unfold informBasin
  try dsimp only
  repeat' first
    | with_reducible assumption
    | with_reducible apply Firm.ite
    | with_reducible apply Firm.foldl
    | with_reducible apply Firm.ite_snd
    | with_reducible apply Firm.foldl_snd
    | with_reducible apply countCls_firm
    | with_reducible apply decided_firm
    | with_reducible apply modBasin_firm
    | (refine Firm.mk' rfl rfl rfl rfl rfl rfl rfl rfl rfl rfl ?_
       first
         | with_reducible assumption
         | with_reducible apply Firm.ite
         | with_reducible apply Firm.foldl
         | with_reducible apply Firm.ite_snd
         | with_reducible apply Firm.foldl_snd
         | with_reducible apply countCls_firm
         | with_reducible apply decided_firm
         | with_reducible apply modBasin_firm
         | split)
    | (intro x a hx)
    | (intro c; rfl)
    | (intro x hx; exact hx)
    | (intro x hx)
    | (intro x)
    | split
    | dsimp only

theorem fireRule_firm {s0 s : State} {i : ClsItem} (h : Firm s0 s) : Firm s0 (fireRule i s) := by
  unfold fireRule
  try dsimp only
  repeat' first
    | with_reducible assumption
    | with_reducible apply Firm.ite
    | with_reducible apply Firm.foldl
    | with_reducible apply Firm.ite_snd
    | with_reducible apply Firm.foldl_snd
    | with_reducible apply fireTrigger_firm
    | with_reducible apply shareTrigger_firm
    | (refine Firm.mk' rfl rfl rfl rfl rfl rfl rfl rfl rfl rfl ?_
       first
         | with_reducible assumption
         | with_reducible apply Firm.ite
         | with_reducible apply Firm.foldl
         | with_reducible apply Firm.ite_snd
         | with_reducible apply Firm.foldl_snd
         | with_reducible apply fireTrigger_firm
         | with_reducible apply shareTrigger_firm
         | split)
    | (intro x a hx)
    | (intro c; rfl)
    | (intro x hx; exact hx)
    | (intro x hx)
    | (intro x)
    | split
    | dsimp only

theorem doForward_firm {s0 s : State} {i : ClsItem} (h : Firm s0 s) : Firm s0 (doForward i s) := by
  unfold doForward
  try dsimp only
  repeat' first
    | with_reducible assumption
    | with_reducible apply Firm.ite
    | with_reducible apply Firm.foldl
    | with_reducible apply Firm.ite_snd
    | with_reducible apply Firm.foldl_snd
    | with_reducible apply countCls_firm
    | with_reducible apply forwardFrame_firm
    | (refine Firm.mk' rfl rfl rfl rfl rfl rfl rfl rfl rfl rfl ?_
       first
         | with_reducible assumption
         | with_reducible apply Firm.ite
         | with_reducible apply Firm.foldl
         | with_reducible apply Firm.ite_snd
         | with_reducible apply Firm.foldl_snd
         | with_reducible apply countCls_firm
         | with_reducible apply forwardFrame_firm
         | split)
    | (intro x a hx)
    | (intro c; rfl)
    | (intro x hx; exact hx)
    | (intro x hx)
    | (intro x)
    | split
    | dsimp only

theorem doMirror_firm {s0 s : State} {i : ClsItem} (h : Firm s0 s) : Firm s0 (doMirror i s) := by
  unfold doMirror
  try dsimp only
  repeat' first
    | with_reducible assumption
    | with_reducible apply Firm.ite
    | with_reducible apply Firm.foldl
    | with_reducible apply Firm.ite_snd
    | with_reducible apply Firm.foldl_snd
    | with_reducible apply forwardFrame_firm
    | (refine Firm.mk' rfl rfl rfl rfl rfl rfl rfl rfl rfl rfl ?_
       first
         | with_reducible assumption
         | with_reducible apply Firm.ite
         | with_reducible apply Firm.foldl
         | with_reducible apply Firm.ite_snd
         | with_reducible apply Firm.foldl_snd
         | with_reducible apply forwardFrame_firm
         | split)
    | (intro x a hx)
    | (intro c; rfl)
    | (intro x hx; exact hx)
    | (intro x hx)
    | (intro x)
    | split
    | dsimp only

theorem doCopy_firm {s0 s : State} {i : ClsItem} (h : Firm s0 s) : Firm s0 (doCopy i s) := by
  unfold doCopy
  try dsimp only
  repeat' first
    | with_reducible assumption
    | with_reducible apply Firm.ite
    | with_reducible apply Firm.foldl
    | with_reducible apply Firm.ite_snd
    | with_reducible apply Firm.foldl_snd
    | with_reducible apply countCls_firm
    | with_reducible apply modCls_firm
    | with_reducible apply raise_firm
    | with_reducible apply writeLine_firm
    | (refine Firm.mk' rfl rfl rfl rfl rfl rfl rfl rfl rfl rfl ?_
       first
         | with_reducible assumption
         | with_reducible apply Firm.ite
         | with_reducible apply Firm.foldl
         | with_reducible apply Firm.ite_snd
         | with_reducible apply Firm.foldl_snd
         | with_reducible apply countCls_firm
         | with_reducible apply modCls_firm
         | with_reducible apply raise_firm
         | with_reducible apply writeLine_firm
         | split)
    | (intro x a hx)
    | (intro c; rfl)
    | (intro x hx; exact hx)
    | (intro x hx)
    | (intro x)
    | split
    | dsimp only

theorem issue_firm {s0 s : State} {i : ClsItem} (h : Firm s0 s) : Firm s0 (issue i s) := by
  unfold issue
  try dsimp only
  repeat' first
    | with_reducible assumption
    | with_reducible apply Firm.ite
    | with_reducible apply Firm.foldl
    | with_reducible apply Firm.ite_snd
    | with_reducible apply Firm.foldl_snd
    | with_reducible apply countCls_firm
    | with_reducible apply doCopy_firm
    | with_reducible apply doForward_firm
    | with_reducible apply doMirror_firm
    | with_reducible apply dropItem_firm
    | with_reducible apply fireRule_firm
    | with_reducible apply informBasin_firm
    | (refine Firm.mk' rfl rfl rfl rfl rfl rfl rfl rfl rfl rfl ?_
       first
         | with_reducible assumption
         | with_reducible apply Firm.ite
         | with_reducible apply Firm.foldl
         | with_reducible apply Firm.ite_snd
         | with_reducible apply Firm.foldl_snd
         | with_reducible apply countCls_firm
         | with_reducible apply doCopy_firm
         | with_reducible apply doForward_firm
         | with_reducible apply doMirror_firm
         | with_reducible apply dropItem_firm
         | with_reducible apply fireRule_firm
         | with_reducible apply informBasin_firm
         | split)
    | (intro x a hx)
    | (intro c; rfl)
    | (intro x hx; exact hx)
    | (intro x hx)
    | (intro x)
    | split
    | dsimp only

theorem drain_firm {s0 s : State} {a b n : Nat} (h : Firm s0 s) : Firm s0 (drain n a b s) := by
  induction n generalizing s with
  | zero =>
    unfold drain
    try dsimp only
    repeat' first
      | with_reducible assumption
      | with_reducible apply ih
      | with_reducible apply Firm.ite
      | with_reducible apply Firm.foldl
      | with_reducible apply Firm.ite_snd
      | with_reducible apply issue_firm
      | (refine Firm.mk' rfl rfl rfl rfl rfl rfl rfl rfl rfl rfl ?_
         first
           | with_reducible assumption
           | with_reducible apply ih
           | with_reducible apply Firm.ite
           | with_reducible apply Firm.foldl
           | with_reducible apply Firm.ite_snd
           | with_reducible apply issue_firm
           | split)
      | (intro x a hx)
      | (intro c; rfl)
      | split
      | dsimp only
  | succ n ih =>
    unfold drain
    try dsimp only
    repeat' first
      | with_reducible assumption
      | with_reducible apply ih
      | with_reducible apply Firm.ite
      | with_reducible apply Firm.foldl
      | with_reducible apply Firm.ite_snd
      | with_reducible apply issue_firm
      | (refine Firm.mk' rfl rfl rfl rfl rfl rfl rfl rfl rfl rfl ?_
         first
           | with_reducible assumption
           | with_reducible apply ih
           | with_reducible apply Firm.ite
           | with_reducible apply Firm.foldl
           | with_reducible apply Firm.ite_snd
           | with_reducible apply issue_firm
           | split)
      | (intro x a hx)
      | (intro c; rfl)
      | split
      | dsimp only

theorem drainAll_firm {s0 s : State} {src : Nat} {port : Nat} (h : Firm s0 s) : Firm s0 (drainAll src port s) := by
  unfold drainAll
  try dsimp only
  repeat' first
    | with_reducible assumption
    | with_reducible apply Firm.ite
    | with_reducible apply Firm.foldl
    | with_reducible apply Firm.ite_snd
    | with_reducible apply Firm.foldl_snd
    | with_reducible apply drain_firm
    | (refine Firm.mk' rfl rfl rfl rfl rfl rfl rfl rfl rfl rfl ?_
       first
         | with_reducible assumption
         | with_reducible apply Firm.ite
         | with_reducible apply Firm.foldl
         | with_reducible apply Firm.ite_snd
         | with_reducible apply Firm.foldl_snd
         | with_reducible apply drain_firm
         | split)
    | (intro x a hx)
    | (intro c; rfl)
    | (intro x hx; exact hx)
    | (intro x hx)
    | (intro x)
    | split
    | dsimp only

theorem countHit_firm {s0 s : State} {rule : Option Nat} (h : Firm s0 s) : Firm s0 (countHit rule s) := by
  unfold countHit
  try dsimp only
  repeat' first
    | with_reducible assumption
    | with_reducible apply Firm.ite
    | with_reducible apply Firm.foldl
    | with_reducible apply Firm.ite_snd
    | with_reducible apply Firm.foldl_snd
    | with_reducible apply modCls_firm
    | (refine Firm.mk' rfl rfl rfl rfl rfl rfl rfl rfl rfl rfl ?_
       first
         | with_reducible assumption
         | with_reducible apply Firm.ite
         | with_reducible apply Firm.foldl
         | with_reducible apply Firm.ite_snd
         | with_reducible apply Firm.foldl_snd
         | with_reducible apply modCls_firm
         | split)
    | (intro x a hx)
    | (intro c; rfl)
    | (intro x hx; exact hx)
    | (intro x hx)
    | (intro x)
    | split
    | dsimp only

theorem decided_firm {s0 s : State} {i : ClsItem} {act : ActionRec} {rule : Option Nat} {m : Bytes} {form : Bytes} {fwd : Option (Nat × Nat)} (h : Firm s0 s) : Firm s0 (decided i act rule m form fwd s) := by
  unfold decided
  try dsimp only
  repeat' first
    | with_reducible assumption
    | with_reducible apply Firm.ite
    | with_reducible apply Firm.foldl
    | with_reducible apply Firm.ite_snd
    | with_reducible apply Firm.foldl_snd
    | with_reducible apply countHit_firm
    | with_reducible apply drainAll_firm
    | with_reducible apply modItem_firm
    | (refine Firm.mk' rfl rfl rfl rfl rfl rfl rfl rfl rfl rfl ?_
       first
         | with_reducible assumption
         | with_reducible apply Firm.ite
         | with_reducible apply Firm.foldl
         | with_reducible apply Firm.ite_snd
         | with_reducible apply Firm.foldl_snd
         | with_reducible apply countHit_firm
         | with_reducible apply drainAll_firm
         | with_reducible apply modItem_firm
         | split)
    | (intro x a hx)
    | (intro c; rfl)
    | (intro x hx; exact hx)
    | (intro x hx)
    | (intro x)
    | split
    | dsimp only

theorem lookupPass_firm {s0 s : State} {i : ClsItem} {d : Bytes} {p : Parsed} {m : Bytes} {onward : Option (Nat × Rule) → State → State} (h : Firm s0 s) (honward : ∀ o x, Firm s0 x → Firm s0 (onward o x)) : Firm s0 (lookupPass i d p m onward s) := by
  unfold lookupPass
  try dsimp only
  repeat' first
    | with_reducible assumption
    | with_reducible apply Firm.ite
    | with_reducible apply Firm.foldl
    | with_reducible apply Firm.ite_snd
    | with_reducible apply Firm.foldl_snd
    | with_reducible apply honward
    | with_reducible apply countCls_firm
    | with_reducible apply decided_firm
    | (refine Firm.mk' rfl rfl rfl rfl rfl rfl rfl rfl rfl rfl ?_
       first
         | with_reducible assumption
         | with_reducible apply Firm.ite
         | with_reducible apply Firm.foldl
         | with_reducible apply Firm.ite_snd
         | with_reducible apply Firm.foldl_snd
         | with_reducible apply honward
         | with_reducible apply countCls_firm
         | with_reducible apply decided_firm
         | split)
    | (intro x a hx)
    | (intro c; rfl)
    | (intro x hx; exact hx)
    | (intro x hx)
    | (intro x)
    | split
    | dsimp only

theorem finishLookup_firm {s0 s : State} {i : ClsItem} {d : Bytes} {p : Parsed} {m : Bytes} {hit : Option (Nat × Rule)} (h : Firm s0 s) : Firm s0 (finishLookup i d p m hit s) := by
  unfold finishLookup
  try dsimp only
  repeat' first
    | with_reducible assumption
    | with_reducible apply Firm.ite
    | with_reducible apply Firm.foldl
    | with_reducible apply Firm.ite_snd
    | with_reducible apply Firm.foldl_snd
    | with_reducible apply countCls_firm
    | with_reducible apply decided_firm
    | (refine Firm.mk' rfl rfl rfl rfl rfl rfl rfl rfl rfl rfl ?_
       first
         | with_reducible assumption
         | with_reducible apply Firm.ite
         | with_reducible apply Firm.foldl
         | with_reducible apply Firm.ite_snd
         | with_reducible apply Firm.foldl_snd
         | with_reducible apply countCls_firm
         | with_reducible apply decided_firm
         | split)
    | (intro x a hx)
    | (intro c; rfl)
    | (intro x hx; exact hx)
    | (intro x hx)
    | (intro x)
    | split
    | dsimp only

theorem conflictPass_firm {s0 s : State} {i : ClsItem} {d : Bytes} {p : Parsed} {m : Bytes} (h : Firm s0 s) : Firm s0 (conflictPass i d p m s) := by
  unfold conflictPass
  try dsimp only
  repeat' first
    | with_reducible assumption
    | with_reducible apply Firm.ite
    | with_reducible apply Firm.foldl
    | with_reducible apply Firm.ite_snd
    | with_reducible apply Firm.foldl_snd
    | with_reducible apply countCls_firm
    | with_reducible apply decided_firm
    | (refine Firm.mk' rfl rfl rfl rfl rfl rfl rfl rfl rfl rfl ?_
       first
         | with_reducible assumption
         | with_reducible apply Firm.ite
         | with_reducible apply Firm.foldl
         | with_reducible apply Firm.ite_snd
         | with_reducible apply Firm.foldl_snd
         | with_reducible apply countCls_firm
         | with_reducible apply decided_firm
         | split)
    | (intro x a hx)
    | (intro c; rfl)
    | (intro x hx; exact hx)
    | (intro x hx)
    | (intro x)
    | split
    | dsimp only

theorem passZero_firm {s0 s : State} {i : ClsItem} {forced : Bool} (h : Firm s0 s) : Firm s0 (passZero i forced s) := by
  unfold passZero
  try dsimp only
  repeat' first
    | with_reducible assumption
    | with_reducible apply Firm.ite
    | with_reducible apply Firm.foldl
    | with_reducible apply Firm.ite_snd
    | with_reducible apply Firm.foldl_snd
    | with_reducible apply conflict_firm
    | with_reducible apply conflictPass_firm
    | with_reducible apply countCls_firm
    | with_reducible apply finishLookup_firm
    | with_reducible apply lookupPass_firm
    | with_reducible apply modItem_firm
    | (refine Firm.mk' rfl rfl rfl rfl rfl rfl rfl rfl rfl rfl ?_
       first
         | with_reducible assumption
         | with_reducible apply Firm.ite
         | with_reducible apply Firm.foldl
         | with_reducible apply Firm.ite_snd
         | with_reducible apply Firm.foldl_snd
         | with_reducible apply conflict_firm
         | with_reducible apply conflictPass_firm
         | with_reducible apply countCls_firm
         | with_reducible apply finishLookup_firm
         | with_reducible apply lookupPass_firm
         | with_reducible apply modItem_firm
         | split)
    | (intro x a hx)
    | (intro c; rfl)
    | (intro x hx; exact hx)
    | (intro x hx)
    | (intro x)
    | split
    | dsimp only

theorem decryptParts_firm {s0 s : State} {f : Nat} {l : List (Nat × Nat)} {b : Bytes} (h : Firm s0 s) :
    Firm s0 (decryptParts f l b s).2 := by
  induction l generalizing b s with
  | nil => exact h
  | cons a l ih =>
    unfold decryptParts
    dsimp only
    split
    · exact ih (useSlot_firm (drawFree_firm h))
    · exact ih h

theorem badFifo_firm {s0 s : State} {i : ClsItem} {inj : Bool} (h : Firm s0 s) : Firm s0 (badFifo i inj s) := by
  unfold badFifo
  try dsimp only
  repeat' first
    | with_reducible assumption
    | with_reducible apply Firm.ite
    | with_reducible apply Firm.foldl
    | with_reducible apply Firm.ite_snd
    | with_reducible apply Firm.foldl_snd
    | with_reducible apply countCls_firm
    | with_reducible apply decided_firm
    | with_reducible apply drawFree_firm
    | with_reducible apply sramError_firm
    | (refine Firm.mk' rfl rfl rfl rfl rfl rfl rfl rfl rfl rfl ?_
       first
         | with_reducible assumption
         | with_reducible apply Firm.ite
         | with_reducible apply Firm.foldl
         | with_reducible apply Firm.ite_snd
         | with_reducible apply Firm.foldl_snd
         | with_reducible apply countCls_firm
         | with_reducible apply decided_firm
         | with_reducible apply drawFree_firm
         | with_reducible apply sramError_firm
         | split)
    | (intro x a hx)
    | (intro c; rfl)
    | (intro x hx; exact hx)
    | (intro x hx)
    | (intro x)
    | split
    | dsimp only

theorem decryptedPass_firm {s0 s : State} {i : ClsItem} (h : Firm s0 s) : Firm s0 (decryptedPass i s) := by
  unfold decryptedPass
  try dsimp only
  repeat' first
    | with_reducible assumption
    | with_reducible apply Firm.ite
    | with_reducible apply Firm.foldl
    | with_reducible apply Firm.ite_snd
    | with_reducible apply Firm.foldl_snd
    | with_reducible apply conflictPass_firm
    | with_reducible apply decryptParts_firm
    | with_reducible apply finishLookup_firm
    | with_reducible apply lookupPass_firm
    | (refine Firm.mk' rfl rfl rfl rfl rfl rfl rfl rfl rfl rfl ?_
       first
         | with_reducible assumption
         | with_reducible apply Firm.ite
         | with_reducible apply Firm.foldl
         | with_reducible apply Firm.ite_snd
         | with_reducible apply Firm.foldl_snd
         | with_reducible apply conflictPass_firm
         | with_reducible apply decryptParts_firm
         | with_reducible apply finishLookup_firm
         | with_reducible apply lookupPass_firm
         | split)
    | (intro x a hx)
    | (intro c; rfl)
    | (intro x hx; exact hx)
    | (intro x hx)
    | (intro x)
    | split
    | dsimp only

theorem passOne_firm {s0 s : State} {i : ClsItem} (h : Firm s0 s) : Firm s0 (passOne i s) := by
  unfold passOne
  try dsimp only
  repeat' first
    | with_reducible assumption
    | with_reducible apply Firm.ite
    | with_reducible apply Firm.foldl
    | with_reducible apply Firm.ite_snd
    | with_reducible apply Firm.foldl_snd
    | with_reducible apply badFifo_firm
    | with_reducible apply decryptedPass_firm
    | with_reducible apply writeLine_firm
    | (refine Firm.mk' rfl rfl rfl rfl rfl rfl rfl rfl rfl rfl ?_
       first
         | with_reducible assumption
         | with_reducible apply Firm.ite
         | with_reducible apply Firm.foldl
         | with_reducible apply Firm.ite_snd
         | with_reducible apply Firm.foldl_snd
         | with_reducible apply badFifo_firm
         | with_reducible apply decryptedPass_firm
         | with_reducible apply writeLine_firm
         | split)
    | (intro x a hx)
    | (intro c; rfl)
    | (intro x hx; exact hx)
    | (intro x hx)
    | (intro x)
    | split
    | dsimp only

theorem execClsPass0_firm {s : State} {item : Nat} : FirmOut s (execClsPass0 item s) := by
  have h := Firm.refl s
  unfold execClsPass0
  try dsimp only
  repeat' first
    | with_reducible assumption
    | with_reducible apply FirmOut.ite
    | with_reducible apply FirmOut.next
    | with_reducible apply Firm.ite
    | with_reducible apply Firm.foldl
    | with_reducible apply Firm.ite_snd
    | with_reducible apply Firm.foldl_snd
    | with_reducible apply badFifo_firm
    | with_reducible apply occurrence_firm
    | with_reducible apply passZero_firm
    | (refine Firm.mk' rfl rfl rfl rfl rfl rfl rfl rfl rfl rfl ?_
       first
         | with_reducible assumption
         | with_reducible apply FirmOut.ite
         | with_reducible apply FirmOut.next
         | with_reducible apply Firm.ite
         | with_reducible apply Firm.foldl
         | with_reducible apply Firm.ite_snd
         | with_reducible apply Firm.foldl_snd
         | with_reducible apply badFifo_firm
         | with_reducible apply occurrence_firm
         | with_reducible apply passZero_firm
         | split)
    | (intro x a hx)
    | (intro c; rfl)
    | (intro x hx; exact hx)
    | (intro x hx)
    | (intro x)
    | split
    | dsimp only

theorem execClsPass1_firm {s : State} {item : Nat} : FirmOut s (execClsPass1 item s) := by
  have h := Firm.refl s
  unfold execClsPass1
  try dsimp only
  repeat' first
    | with_reducible assumption
    | with_reducible apply FirmOut.ite
    | with_reducible apply FirmOut.next
    | with_reducible apply Firm.ite
    | with_reducible apply Firm.foldl
    | with_reducible apply Firm.ite_snd
    | with_reducible apply Firm.foldl_snd
    | with_reducible apply passOne_firm
    | (refine Firm.mk' rfl rfl rfl rfl rfl rfl rfl rfl rfl rfl ?_
       first
         | with_reducible assumption
         | with_reducible apply FirmOut.ite
         | with_reducible apply FirmOut.next
         | with_reducible apply Firm.ite
         | with_reducible apply Firm.foldl
         | with_reducible apply Firm.ite_snd
         | with_reducible apply Firm.foldl_snd
         | with_reducible apply passOne_firm
         | split)
    | (intro x a hx)
    | (intro c; rfl)
    | (intro x hx; exact hx)
    | (intro x hx)
    | (intro x)
    | split
    | dsimp only

theorem execClsExpiry_firm {s : State} {item : Nat} : FirmOut s (execClsExpiry item s) := by
  have h := Firm.refl s
  unfold execClsExpiry
  try dsimp only
  repeat' first
    | with_reducible assumption
    | with_reducible apply FirmOut.ite
    | with_reducible apply FirmOut.next
    | with_reducible apply Firm.ite
    | with_reducible apply Firm.foldl
    | with_reducible apply Firm.ite_snd
    | with_reducible apply Firm.foldl_snd
    | with_reducible apply countCls_firm
    | with_reducible apply drainAll_firm
    | with_reducible apply dropItem_firm
    | (refine Firm.mk' rfl rfl rfl rfl rfl rfl rfl rfl rfl rfl ?_
       first
         | with_reducible assumption
         | with_reducible apply FirmOut.ite
         | with_reducible apply FirmOut.next
         | with_reducible apply Firm.ite
         | with_reducible apply Firm.foldl
         | with_reducible apply Firm.ite_snd
         | with_reducible apply Firm.foldl_snd
         | with_reducible apply countCls_firm
         | with_reducible apply drainAll_firm
         | with_reducible apply dropItem_firm
         | split)
    | (intro x a hx)
    | (intro c; rfl)
    | (intro x hx; exact hx)
    | (intro x hx)
    | (intro x)
    | split
    | dsimp only

theorem overflowEvent_firm {s0 s : State} {src : Nat} (h : Firm s0 s) : Firm s0 (overflowEvent src s) := by
  unfold overflowEvent
  try dsimp only
  repeat' first
    | with_reducible assumption
    | with_reducible apply Firm.ite
    | with_reducible apply Firm.foldl
    | with_reducible apply Firm.ite_snd
    | with_reducible apply Firm.foldl_snd
    | with_reducible apply modCls_firm
    | with_reducible apply raise_firm
    | (refine Firm.mk' rfl rfl rfl rfl rfl rfl rfl rfl rfl rfl ?_
       first
         | with_reducible assumption
         | with_reducible apply Firm.ite
         | with_reducible apply Firm.foldl
         | with_reducible apply Firm.ite_snd
         | with_reducible apply Firm.foldl_snd
         | with_reducible apply modCls_firm
         | with_reducible apply raise_firm
         | split)
    | (intro x a hx)
    | (intro c; rfl)
    | (intro x hx; exact hx)
    | (intro x hx)
    | (intro x)
    | split
    | dsimp only

theorem clsEnter_firm {s0 s : State} {i : ClsItem} (h : Firm s0 s) : Firm s0 (clsEnter i s) := by
  unfold clsEnter
  try dsimp only
  repeat' first
    | with_reducible assumption
    | with_reducible apply Firm.ite
    | with_reducible apply Firm.foldl
    | with_reducible apply Firm.ite_snd
    | with_reducible apply Firm.foldl_snd
    | with_reducible apply countCls_firm
    | with_reducible apply modCls_firm
    | with_reducible apply overflowEvent_firm
    | with_reducible apply sramWrite_firm
    | (refine Firm.mk' rfl rfl rfl rfl rfl rfl rfl rfl rfl rfl ?_
       first
         | with_reducible assumption
         | with_reducible apply Firm.ite
         | with_reducible apply Firm.foldl
         | with_reducible apply Firm.ite_snd
         | with_reducible apply Firm.foldl_snd
         | with_reducible apply countCls_firm
         | with_reducible apply modCls_firm
         | with_reducible apply overflowEvent_firm
         | with_reducible apply sramWrite_firm
         | split)
    | (intro x a hx)
    | (intro c; rfl)
    | (intro x hx; exact hx)
    | (intro x hx)
    | (intro x)
    | split
    | dsimp only

theorem freshName_firm {s0 s : State} (h : Firm s0 s) : Firm s0 (freshName s).2 := by
  unfold freshName
  try dsimp only
  repeat' first
    | with_reducible assumption
    | with_reducible apply Firm.ite
    | with_reducible apply Firm.foldl
    | with_reducible apply Firm.ite_snd
    | with_reducible apply Firm.foldl_snd
    | with_reducible apply modCls_firm
    | (refine Firm.mk' rfl rfl rfl rfl rfl rfl rfl rfl rfl rfl ?_
       first
         | with_reducible assumption
         | with_reducible apply Firm.ite
         | with_reducible apply Firm.foldl
         | with_reducible apply Firm.ite_snd
         | with_reducible apply Firm.foldl_snd
         | with_reducible apply modCls_firm
         | split)
    | (intro x a hx)
    | (intro c; rfl)
    | (intro x hx; exact hx)
    | (intro x hx)
    | (intro x)
    | split
    | dsimp only

theorem draftChange_firm {s0 s : State} {r : Req} {entry : Nat} {f : RuleSet → RuleSet} (h : Firm s0 s) : Firm s0 (draftChange r entry f s) := by
  unfold draftChange
  try dsimp only
  repeat' first
    | with_reducible assumption
    | with_reducible apply Firm.ite
    | with_reducible apply Firm.foldl
    | with_reducible apply Firm.ite_snd
    | with_reducible apply Firm.foldl_snd
    | with_reducible apply modCls_firm
    | (refine Firm.mk' rfl rfl rfl rfl rfl rfl rfl rfl rfl rfl ?_
       first
         | with_reducible assumption
         | with_reducible apply Firm.ite
         | with_reducible apply Firm.foldl
         | with_reducible apply Firm.ite_snd
         | with_reducible apply Firm.foldl_snd
         | with_reducible apply modCls_firm
         | split)
    | (intro x a hx)
    | (intro c; rfl)
    | (intro x hx; exact hx)
    | (intro x hx)
    | (intro x)
    | split
    | dsimp only

theorem ruleAct_firm {s0 s : State} {r : Req} (h : Firm s0 s) : Firm s0 (servedState (ruleAct r s)) := by
  unfold ruleAct
  try dsimp only
  repeat' first
    | with_reducible assumption
    | with_reducible apply Firm.served_ite
    | with_reducible apply Firm.ok
    | with_reducible apply Firm.okWith
    | with_reducible apply Firm.fail
    | with_reducible apply Firm.conflict
    | with_reducible apply Firm.done
    | with_reducible apply Firm.later
    | with_reducible apply Firm.ite
    | with_reducible apply Firm.foldl
    | with_reducible apply Firm.ite_snd
    | with_reducible apply Firm.foldl_snd
    | with_reducible apply draftChange_firm
    | with_reducible apply fail_firm
    | with_reducible apply modCls_firm
    | with_reducible apply ok_firm
    | with_reducible apply writeLine_firm
    | (with_reducible show Firm _ (servedState _); split)
    | (refine Firm.mk' rfl rfl rfl rfl rfl rfl rfl rfl rfl rfl ?_
       first
         | with_reducible assumption
         | with_reducible apply Firm.served_ite
         | with_reducible apply Firm.ok
         | with_reducible apply Firm.okWith
         | with_reducible apply Firm.fail
         | with_reducible apply Firm.conflict
         | with_reducible apply Firm.done
         | with_reducible apply Firm.later
         | with_reducible apply Firm.ite
         | with_reducible apply Firm.foldl
         | with_reducible apply Firm.ite_snd
         | with_reducible apply Firm.foldl_snd
         | with_reducible apply draftChange_firm
         | with_reducible apply fail_firm
         | with_reducible apply modCls_firm
         | with_reducible apply ok_firm
         | with_reducible apply writeLine_firm
         | split)
    | (intro x a hx)
    | (intro c; rfl)
    | (intro x hx; exact hx)
    | (intro x hx)
    | (intro x)
    | split
    | dsimp only

theorem execRuleWrite_firm {s : State}  : FirmOut s (execRuleWrite s) := by
  have h := Firm.refl s
  unfold execRuleWrite
  try dsimp only
  repeat' first
    | with_reducible assumption
    | with_reducible apply FirmOut.ite
    | with_reducible apply FirmOut.next
    | with_reducible apply Firm.ite
    | with_reducible apply Firm.foldl
    | with_reducible apply Firm.ite_snd
    | with_reducible apply Firm.foldl_snd
    | with_reducible apply ruleAct_firm
    | exact serve_firm h (fun r x hx hl => ruleAct_firm hx)
    | exact serve_firm h (fun r x hx hl => ruleAct_firm hx hl)
    | (refine Firm.mk' rfl rfl rfl rfl rfl rfl rfl rfl rfl rfl ?_
       first
         | with_reducible assumption
         | with_reducible apply FirmOut.ite
         | with_reducible apply FirmOut.next
         | with_reducible apply Firm.ite
         | with_reducible apply Firm.foldl
         | with_reducible apply Firm.ite_snd
         | with_reducible apply Firm.foldl_snd
         | with_reducible apply ruleAct_firm
         | exact serve_firm h (fun r x hx hl => ruleAct_firm hx)
         | exact serve_firm h (fun r x hx hl => ruleAct_firm hx hl)
         | split)
    | (intro x a hx)
    | (intro c; rfl)
    | (intro x hx; exact hx)
    | (intro x hx)
    | (intro x)
    | split
    | dsimp only

theorem profileAct_firm {s0 s : State} {r : Req} (h : Firm s0 s) : Firm s0 (servedState (profileAct r s)) := by
  unfold profileAct
  try dsimp only
  repeat' first
    | with_reducible assumption
    | with_reducible apply Firm.served_ite
    | with_reducible apply Firm.ok
    | with_reducible apply Firm.okWith
    | with_reducible apply Firm.fail
    | with_reducible apply Firm.conflict
    | with_reducible apply Firm.done
    | with_reducible apply Firm.later
    | with_reducible apply Firm.ite
    | with_reducible apply Firm.foldl
    | with_reducible apply Firm.ite_snd
    | with_reducible apply Firm.foldl_snd
    | with_reducible apply draftChange_firm
    | with_reducible apply fail_firm
    | with_reducible apply ok_firm
    | (with_reducible show Firm _ (servedState _); split)
    | (refine Firm.mk' rfl rfl rfl rfl rfl rfl rfl rfl rfl rfl ?_
       first
         | with_reducible assumption
         | with_reducible apply Firm.served_ite
         | with_reducible apply Firm.ok
         | with_reducible apply Firm.okWith
         | with_reducible apply Firm.fail
         | with_reducible apply Firm.conflict
         | with_reducible apply Firm.done
         | with_reducible apply Firm.later
         | with_reducible apply Firm.ite
         | with_reducible apply Firm.foldl
         | with_reducible apply Firm.ite_snd
         | with_reducible apply Firm.foldl_snd
         | with_reducible apply draftChange_firm
         | with_reducible apply fail_firm
         | with_reducible apply ok_firm
         | split)
    | (intro x a hx)
    | (intro c; rfl)
    | (intro x hx; exact hx)
    | (intro x hx)
    | (intro x)
    | split
    | dsimp only

theorem execProfileWrite_firm {s : State}  : FirmOut s (execProfileWrite s) := by
  have h := Firm.refl s
  unfold execProfileWrite
  try dsimp only
  repeat' first
    | with_reducible assumption
    | with_reducible apply FirmOut.ite
    | with_reducible apply FirmOut.next
    | with_reducible apply Firm.ite
    | with_reducible apply Firm.foldl
    | with_reducible apply Firm.ite_snd
    | with_reducible apply Firm.foldl_snd
    | with_reducible apply profileAct_firm
    | exact serve_firm h (fun r x hx hl => profileAct_firm hx)
    | exact serve_firm h (fun r x hx hl => profileAct_firm hx hl)
    | (refine Firm.mk' rfl rfl rfl rfl rfl rfl rfl rfl rfl rfl ?_
       first
         | with_reducible assumption
         | with_reducible apply FirmOut.ite
         | with_reducible apply FirmOut.next
         | with_reducible apply Firm.ite
         | with_reducible apply Firm.foldl
         | with_reducible apply Firm.ite_snd
         | with_reducible apply Firm.foldl_snd
         | with_reducible apply profileAct_firm
         | exact serve_firm h (fun r x hx hl => profileAct_firm hx)
         | exact serve_firm h (fun r x hx hl => profileAct_firm hx hl)
         | split)
    | (intro x a hx)
    | (intro c; rfl)
    | (intro x hx; exact hx)
    | (intro x hx)
    | (intro x)
    | split
    | dsimp only

theorem clsSourceAct_firm {s0 s : State} {r : Req} (h : Firm s0 s) : Firm s0 (servedState (clsSourceAct r s)) := by
  unfold clsSourceAct
  try dsimp only
  repeat' first
    | with_reducible assumption
    | with_reducible apply Firm.served_ite
    | with_reducible apply Firm.ok
    | with_reducible apply Firm.okWith
    | with_reducible apply Firm.fail
    | with_reducible apply Firm.conflict
    | with_reducible apply Firm.done
    | with_reducible apply Firm.later
    | with_reducible apply Firm.ite
    | with_reducible apply Firm.foldl
    | with_reducible apply Firm.ite_snd
    | with_reducible apply Firm.foldl_snd
    | with_reducible apply draftChange_firm
    | with_reducible apply fail_firm
    | with_reducible apply ok_firm
    | (with_reducible show Firm _ (servedState _); split)
    | (refine Firm.mk' rfl rfl rfl rfl rfl rfl rfl rfl rfl rfl ?_
       first
         | with_reducible assumption
         | with_reducible apply Firm.served_ite
         | with_reducible apply Firm.ok
         | with_reducible apply Firm.okWith
         | with_reducible apply Firm.fail
         | with_reducible apply Firm.conflict
         | with_reducible apply Firm.done
         | with_reducible apply Firm.later
         | with_reducible apply Firm.ite
         | with_reducible apply Firm.foldl
         | with_reducible apply Firm.ite_snd
         | with_reducible apply Firm.foldl_snd
         | with_reducible apply draftChange_firm
         | with_reducible apply fail_firm
         | with_reducible apply ok_firm
         | split)
    | (intro x a hx)
    | (intro c; rfl)
    | (intro x hx; exact hx)
    | (intro x hx)
    | (intro x)
    | split
    | dsimp only

theorem execClsSourceWrite_firm {s : State}  : FirmOut s (execClsSourceWrite s) := by
  have h := Firm.refl s
  unfold execClsSourceWrite
  try dsimp only
  repeat' first
    | with_reducible assumption
    | with_reducible apply FirmOut.ite
    | with_reducible apply FirmOut.next
    | with_reducible apply Firm.ite
    | with_reducible apply Firm.foldl
    | with_reducible apply Firm.ite_snd
    | with_reducible apply Firm.foldl_snd
    | with_reducible apply clsSourceAct_firm
    | exact serve_firm h (fun r x hx hl => clsSourceAct_firm hx)
    | exact serve_firm h (fun r x hx hl => clsSourceAct_firm hx hl)
    | (refine Firm.mk' rfl rfl rfl rfl rfl rfl rfl rfl rfl rfl ?_
       first
         | with_reducible assumption
         | with_reducible apply FirmOut.ite
         | with_reducible apply FirmOut.next
         | with_reducible apply Firm.ite
         | with_reducible apply Firm.foldl
         | with_reducible apply Firm.ite_snd
         | with_reducible apply Firm.foldl_snd
         | with_reducible apply clsSourceAct_firm
         | exact serve_firm h (fun r x hx hl => clsSourceAct_firm hx)
         | exact serve_firm h (fun r x hx hl => clsSourceAct_firm hx hl)
         | split)
    | (intro x a hx)
    | (intro c; rfl)
    | (intro x hx; exact hx)
    | (intro x hx)
    | (intro x)
    | split
    | dsimp only

theorem freshDraft_firm {s0 s : State} (h : Firm s0 s) : Firm s0 (freshDraft s) := by
  unfold freshDraft
  try dsimp only
  repeat' first
    | with_reducible assumption
    | with_reducible apply Firm.ite
    | with_reducible apply Firm.foldl
    | with_reducible apply Firm.ite_snd
    | with_reducible apply Firm.foldl_snd
    | with_reducible apply modCls_firm
    | (refine Firm.mk' rfl rfl rfl rfl rfl rfl rfl rfl rfl rfl ?_
       first
         | with_reducible assumption
         | with_reducible apply Firm.ite
         | with_reducible apply Firm.foldl
         | with_reducible apply Firm.ite_snd
         | with_reducible apply Firm.foldl_snd
         | with_reducible apply modCls_firm
         | split)
    | (intro x a hx)
    | (intro c; rfl)
    | (intro x hx; exact hx)
    | (intro x hx)
    | (intro x)
    | split
    | dsimp only

theorem invalidateRule_firm {s0 s : State} {n : Nat} (h : Firm s0 s) : Firm s0 (invalidateRule n s) := by
  unfold invalidateRule
  try dsimp only
  repeat' first
    | with_reducible assumption
    | with_reducible apply Firm.ite
    | with_reducible apply Firm.foldl
    | with_reducible apply Firm.ite_snd
    | with_reducible apply Firm.foldl_snd
    | with_reducible apply modCls_firm
    | (refine Firm.mk' rfl rfl rfl rfl rfl rfl rfl rfl rfl rfl ?_
       first
         | with_reducible assumption
         | with_reducible apply Firm.ite
         | with_reducible apply Firm.foldl
         | with_reducible apply Firm.ite_snd
         | with_reducible apply Firm.foldl_snd
         | with_reducible apply modCls_firm
         | split)
    | (intro x a hx)
    | (intro c; rfl)
    | (intro x hx; exact hx)
    | (intro x hx)
    | (intro x)
    | split
    | dsimp only

theorem readMasters_firm {s0 s : State} {ns : List Nat} (h : Firm s0 s) : Firm s0 (readMasters ns s) := by
  unfold readMasters
  try dsimp only
  repeat' first
    | with_reducible assumption
    | with_reducible apply Firm.ite
    | with_reducible apply Firm.foldl
    | with_reducible apply Firm.ite_snd
    | with_reducible apply Firm.foldl_snd
    | with_reducible apply invalidateRule_firm
    | with_reducible apply sramError_firm
    | (refine Firm.mk' rfl rfl rfl rfl rfl rfl rfl rfl rfl rfl ?_
       first
         | with_reducible assumption
         | with_reducible apply Firm.ite
         | with_reducible apply Firm.foldl
         | with_reducible apply Firm.ite_snd
         | with_reducible apply Firm.foldl_snd
         | with_reducible apply invalidateRule_firm
         | with_reducible apply sramError_firm
         | split)
    | (intro x a hx)
    | (intro c; rfl)
    | (intro x hx; exact hx)
    | (intro x hx)
    | (intro x)
    | split
    | dsimp only

theorem commitPoint_firm {s0 s : State} {r : Req} (h : Firm s0 s) : Firm s0 (commitPoint r s) := by
  unfold commitPoint
  try dsimp only
  repeat' first
    | with_reducible assumption
    | with_reducible apply Firm.ite
    | with_reducible apply Firm.foldl
    | with_reducible apply Firm.ite_snd
    | with_reducible apply Firm.foldl_snd
    | with_reducible apply freshDraft_firm
    | with_reducible apply modCls_firm
    | with_reducible apply readMasters_firm
    | with_reducible apply rewriteLine_firm
    | (refine Firm.mk' rfl rfl rfl rfl rfl rfl rfl rfl rfl rfl ?_
       first
         | with_reducible assumption
         | with_reducible apply Firm.ite
         | with_reducible apply Firm.foldl
         | with_reducible apply Firm.ite_snd
         | with_reducible apply Firm.foldl_snd
         | with_reducible apply freshDraft_firm
         | with_reducible apply modCls_firm
         | with_reducible apply readMasters_firm
         | with_reducible apply rewriteLine_firm
         | split)
    | (intro x a hx)
    | (intro c; rfl)
    | (intro x hx; exact hx)
    | (intro x hx)
    | (intro x)
    | split
    | dsimp only

theorem commitAct_firm {s0 s : State} {r : Req} (h : Firm s0 s) : Firm s0 (servedState (commitAct r s)) := by
  unfold commitAct
  try dsimp only
  repeat' first
    | with_reducible assumption
    | with_reducible apply Firm.served_ite
    | with_reducible apply Firm.ok
    | with_reducible apply Firm.okWith
    | with_reducible apply Firm.fail
    | with_reducible apply Firm.conflict
    | with_reducible apply Firm.done
    | with_reducible apply Firm.later
    | with_reducible apply Firm.ite
    | with_reducible apply Firm.foldl
    | with_reducible apply Firm.ite_snd
    | with_reducible apply Firm.foldl_snd
    | with_reducible apply commitPoint_firm
    | with_reducible apply fail_firm
    | with_reducible apply freshDraft_firm
    | with_reducible apply okWith_firm
    | (with_reducible show Firm _ (servedState _); split)
    | (refine Firm.mk' rfl rfl rfl rfl rfl rfl rfl rfl rfl rfl ?_
       first
         | with_reducible assumption
         | with_reducible apply Firm.served_ite
         | with_reducible apply Firm.ok
         | with_reducible apply Firm.okWith
         | with_reducible apply Firm.fail
         | with_reducible apply Firm.conflict
         | with_reducible apply Firm.done
         | with_reducible apply Firm.later
         | with_reducible apply Firm.ite
         | with_reducible apply Firm.foldl
         | with_reducible apply Firm.ite_snd
         | with_reducible apply Firm.foldl_snd
         | with_reducible apply commitPoint_firm
         | with_reducible apply fail_firm
         | with_reducible apply freshDraft_firm
         | with_reducible apply okWith_firm
         | split)
    | (intro x a hx)
    | (intro c; rfl)
    | (intro x hx; exact hx)
    | (intro x hx)
    | (intro x)
    | split
    | dsimp only

theorem execRuleCommit_firm {s : State}  : FirmOut s (execRuleCommit s) := by
  have h := Firm.refl s
  unfold execRuleCommit
  try dsimp only
  repeat' first
    | with_reducible assumption
    | with_reducible apply FirmOut.ite
    | with_reducible apply FirmOut.next
    | with_reducible apply Firm.ite
    | with_reducible apply Firm.foldl
    | with_reducible apply Firm.ite_snd
    | with_reducible apply Firm.foldl_snd
    | with_reducible apply commitAct_firm
    | exact serve_firm h (fun r x hx hl => commitAct_firm hx)
    | exact serve_firm h (fun r x hx hl => commitAct_firm hx hl)
    | (refine Firm.mk' rfl rfl rfl rfl rfl rfl rfl rfl rfl rfl ?_
       first
         | with_reducible assumption
         | with_reducible apply FirmOut.ite
         | with_reducible apply FirmOut.next
         | with_reducible apply Firm.ite
         | with_reducible apply Firm.foldl
         | with_reducible apply Firm.ite_snd
         | with_reducible apply Firm.foldl_snd
         | with_reducible apply commitAct_firm
         | exact serve_firm h (fun r x hx hl => commitAct_firm hx)
         | exact serve_firm h (fun r x hx hl => commitAct_firm hx hl)
         | split)
    | (intro x a hx)
    | (intro c; rfl)
    | (intro x hx; exact hx)
    | (intro x hx)
    | (intro x)
    | split
    | dsimp only

theorem ruleStatusAct_firm {s0 s : State} {r : Req} (h : Firm s0 s) : Firm s0 (servedState (ruleStatusAct r s)) := by
  unfold ruleStatusAct
  try dsimp only
  repeat' first
    | with_reducible assumption
    | with_reducible apply Firm.served_ite
    | with_reducible apply Firm.ok
    | with_reducible apply Firm.okWith
    | with_reducible apply Firm.fail
    | with_reducible apply Firm.conflict
    | with_reducible apply Firm.done
    | with_reducible apply Firm.later
    | with_reducible apply Firm.ite
    | with_reducible apply Firm.foldl
    | with_reducible apply Firm.ite_snd
    | with_reducible apply Firm.foldl_snd
    | with_reducible apply fail_firm
    | (with_reducible show Firm _ (servedState _); split)
    | (refine Firm.mk' rfl rfl rfl rfl rfl rfl rfl rfl rfl rfl ?_
       first
         | with_reducible assumption
         | with_reducible apply Firm.served_ite
         | with_reducible apply Firm.ok
         | with_reducible apply Firm.okWith
         | with_reducible apply Firm.fail
         | with_reducible apply Firm.conflict
         | with_reducible apply Firm.done
         | with_reducible apply Firm.later
         | with_reducible apply Firm.ite
         | with_reducible apply Firm.foldl
         | with_reducible apply Firm.ite_snd
         | with_reducible apply Firm.foldl_snd
         | with_reducible apply fail_firm
         | split)
    | (intro x a hx)
    | (intro c; rfl)
    | (intro x hx; exact hx)
    | (intro x hx)
    | (intro x)
    | split
    | dsimp only

theorem execRuleStatus_firm {s : State}  : FirmOut s (execRuleStatus s) := by
  have h := Firm.refl s
  unfold execRuleStatus
  try dsimp only
  repeat' first
    | with_reducible assumption
    | with_reducible apply FirmOut.ite
    | with_reducible apply FirmOut.next
    | with_reducible apply Firm.ite
    | with_reducible apply Firm.foldl
    | with_reducible apply Firm.ite_snd
    | with_reducible apply Firm.foldl_snd
    | with_reducible apply ruleStatusAct_firm
    | exact serve_firm h (fun r x hx hl => ruleStatusAct_firm hx)
    | exact serve_firm h (fun r x hx hl => ruleStatusAct_firm hx hl)
    | (refine Firm.mk' rfl rfl rfl rfl rfl rfl rfl rfl rfl rfl ?_
       first
         | with_reducible assumption
         | with_reducible apply FirmOut.ite
         | with_reducible apply FirmOut.next
         | with_reducible apply Firm.ite
         | with_reducible apply Firm.foldl
         | with_reducible apply Firm.ite_snd
         | with_reducible apply Firm.foldl_snd
         | with_reducible apply ruleStatusAct_firm
         | exact serve_firm h (fun r x hx hl => ruleStatusAct_firm hx)
         | exact serve_firm h (fun r x hx hl => ruleStatusAct_firm hx hl)
         | split)
    | (intro x a hx)
    | (intro c; rfl)
    | (intro x hx; exact hx)
    | (intro x hx)
    | (intro x)
    | split
    | dsimp only

theorem ruleReadAct_firm {s0 s : State} {r : Req} (h : Firm s0 s) : Firm s0 (servedState (ruleReadAct r s)) := by
  unfold ruleReadAct
  try dsimp only
  repeat' first
    | with_reducible assumption
    | with_reducible apply Firm.served_ite
    | with_reducible apply Firm.ok
    | with_reducible apply Firm.okWith
    | with_reducible apply Firm.fail
    | with_reducible apply Firm.conflict
    | with_reducible apply Firm.done
    | with_reducible apply Firm.later
    | with_reducible apply Firm.ite
    | with_reducible apply Firm.foldl
    | with_reducible apply Firm.ite_snd
    | with_reducible apply Firm.foldl_snd
    | with_reducible apply conflict_firm
    | with_reducible apply fail_firm
    | with_reducible apply okWith_firm
    | (with_reducible show Firm _ (servedState _); split)
    | (refine Firm.mk' rfl rfl rfl rfl rfl rfl rfl rfl rfl rfl ?_
       first
         | with_reducible assumption
         | with_reducible apply Firm.served_ite
         | with_reducible apply Firm.ok
         | with_reducible apply Firm.okWith
         | with_reducible apply Firm.fail
         | with_reducible apply Firm.conflict
         | with_reducible apply Firm.done
         | with_reducible apply Firm.later
         | with_reducible apply Firm.ite
         | with_reducible apply Firm.foldl
         | with_reducible apply Firm.ite_snd
         | with_reducible apply Firm.foldl_snd
         | with_reducible apply conflict_firm
         | with_reducible apply fail_firm
         | with_reducible apply okWith_firm
         | split)
    | (intro x a hx)
    | (intro c; rfl)
    | (intro x hx; exact hx)
    | (intro x hx)
    | (intro x)
    | split
    | dsimp only

theorem execRuleRead_firm {s : State}  : FirmOut s (execRuleRead s) := by
  have h := Firm.refl s
  unfold execRuleRead
  try dsimp only
  repeat' first
    | with_reducible assumption
    | with_reducible apply FirmOut.ite
    | with_reducible apply FirmOut.next
    | with_reducible apply Firm.ite
    | with_reducible apply Firm.foldl
    | with_reducible apply Firm.ite_snd
    | with_reducible apply Firm.foldl_snd
    | with_reducible apply ruleReadAct_firm
    | exact serve_firm h (fun r x hx hl => ruleReadAct_firm hx)
    | exact serve_firm h (fun r x hx hl => ruleReadAct_firm hx hl)
    | (refine Firm.mk' rfl rfl rfl rfl rfl rfl rfl rfl rfl rfl ?_
       first
         | with_reducible assumption
         | with_reducible apply FirmOut.ite
         | with_reducible apply FirmOut.next
         | with_reducible apply Firm.ite
         | with_reducible apply Firm.foldl
         | with_reducible apply Firm.ite_snd
         | with_reducible apply Firm.foldl_snd
         | with_reducible apply ruleReadAct_firm
         | exact serve_firm h (fun r x hx hl => ruleReadAct_firm hx)
         | exact serve_firm h (fun r x hx hl => ruleReadAct_firm hx hl)
         | split)
    | (intro x a hx)
    | (intro c; rfl)
    | (intro x hx; exact hx)
    | (intro x hx)
    | (intro x)
    | split
    | dsimp only

theorem clsCountersAct_firm {s0 s : State} {r : Req} (h : Firm s0 s) : Firm s0 (servedState (clsCountersAct r s)) := by
  unfold clsCountersAct
  try dsimp only
  repeat' first
    | with_reducible assumption
    | with_reducible apply Firm.served_ite
    | with_reducible apply Firm.ok
    | with_reducible apply Firm.okWith
    | with_reducible apply Firm.fail
    | with_reducible apply Firm.conflict
    | with_reducible apply Firm.done
    | with_reducible apply Firm.later
    | with_reducible apply Firm.ite
    | with_reducible apply Firm.foldl
    | with_reducible apply Firm.ite_snd
    | with_reducible apply Firm.foldl_snd
    | with_reducible apply modCls_firm
    | with_reducible apply okWith_firm
    | (with_reducible show Firm _ (servedState _); split)
    | (refine Firm.mk' rfl rfl rfl rfl rfl rfl rfl rfl rfl rfl ?_
       first
         | with_reducible assumption
         | with_reducible apply Firm.served_ite
         | with_reducible apply Firm.ok
         | with_reducible apply Firm.okWith
         | with_reducible apply Firm.fail
         | with_reducible apply Firm.conflict
         | with_reducible apply Firm.done
         | with_reducible apply Firm.later
         | with_reducible apply Firm.ite
         | with_reducible apply Firm.foldl
         | with_reducible apply Firm.ite_snd
         | with_reducible apply Firm.foldl_snd
         | with_reducible apply modCls_firm
         | with_reducible apply okWith_firm
         | split)
    | (intro x a hx)
    | (intro c; rfl)
    | (intro x hx; exact hx)
    | (intro x hx)
    | (intro x)
    | split
    | dsimp only

theorem execClsCounters_firm {s : State}  : FirmOut s (execClsCounters s) := by
  have h := Firm.refl s
  unfold execClsCounters
  try dsimp only
  repeat' first
    | with_reducible assumption
    | with_reducible apply FirmOut.ite
    | with_reducible apply FirmOut.next
    | with_reducible apply Firm.ite
    | with_reducible apply Firm.foldl
    | with_reducible apply Firm.ite_snd
    | with_reducible apply Firm.foldl_snd
    | with_reducible apply clsCountersAct_firm
    | exact serve_firm h (fun r x hx hl => clsCountersAct_firm hx)
    | exact serve_firm h (fun r x hx hl => clsCountersAct_firm hx hl)
    | (refine Firm.mk' rfl rfl rfl rfl rfl rfl rfl rfl rfl rfl ?_
       first
         | with_reducible assumption
         | with_reducible apply FirmOut.ite
         | with_reducible apply FirmOut.next
         | with_reducible apply Firm.ite
         | with_reducible apply Firm.foldl
         | with_reducible apply Firm.ite_snd
         | with_reducible apply Firm.foldl_snd
         | with_reducible apply clsCountersAct_firm
         | exact serve_firm h (fun r x hx hl => clsCountersAct_firm hx)
         | exact serve_firm h (fun r x hx hl => clsCountersAct_firm hx hl)
         | split)
    | (intro x a hx)
    | (intro c; rfl)
    | (intro x hx; exact hx)
    | (intro x hx)
    | (intro x)
    | split
    | dsimp only

theorem dropCopy_firm {s0 s : State} {source : Nat} (h : Firm s0 s) : Firm s0 (dropCopy source s) := by
  unfold dropCopy
  try dsimp only
  repeat' first
    | with_reducible assumption
    | with_reducible apply Firm.ite
    | with_reducible apply Firm.foldl
    | with_reducible apply Firm.ite_snd
    | with_reducible apply Firm.foldl_snd
    | with_reducible apply countCls_firm
    | with_reducible apply modCls_firm
    | (refine Firm.mk' rfl rfl rfl rfl rfl rfl rfl rfl rfl rfl ?_
       first
         | with_reducible assumption
         | with_reducible apply Firm.ite
         | with_reducible apply Firm.foldl
         | with_reducible apply Firm.ite_snd
         | with_reducible apply Firm.foldl_snd
         | with_reducible apply countCls_firm
         | with_reducible apply modCls_firm
         | split)
    | (intro x a hx)
    | (intro c; rfl)
    | (intro x hx; exact hx)
    | (intro x hx)
    | (intro x)
    | split
    | dsimp only

theorem goodCopies_firm {s0 s : State} {source n : Nat} (h : Firm s0 s) : Firm s0 (goodCopies source n s) := by
  induction n generalizing s with
  | zero =>
    unfold goodCopies
    try dsimp only
    repeat' first
      | with_reducible assumption
      | with_reducible apply ih
      | with_reducible apply Firm.ite
      | with_reducible apply Firm.foldl
      | with_reducible apply Firm.ite_snd
      | with_reducible apply dropCopy_firm
      | with_reducible apply sramError_firm
      | (refine Firm.mk' rfl rfl rfl rfl rfl rfl rfl rfl rfl rfl ?_
         first
           | with_reducible assumption
           | with_reducible apply ih
           | with_reducible apply Firm.ite
           | with_reducible apply Firm.foldl
           | with_reducible apply Firm.ite_snd
           | with_reducible apply dropCopy_firm
           | with_reducible apply sramError_firm
           | split)
      | (intro x a hx)
      | (intro c; rfl)
      | split
      | dsimp only
  | succ n ih =>
    unfold goodCopies
    try dsimp only
    repeat' first
      | with_reducible assumption
      | with_reducible apply ih
      | with_reducible apply Firm.ite
      | with_reducible apply Firm.foldl
      | with_reducible apply Firm.ite_snd
      | with_reducible apply dropCopy_firm
      | with_reducible apply sramError_firm
      | (refine Firm.mk' rfl rfl rfl rfl rfl rfl rfl rfl rfl rfl ?_
         first
           | with_reducible assumption
           | with_reducible apply ih
           | with_reducible apply Firm.ite
           | with_reducible apply Firm.foldl
           | with_reducible apply Firm.ite_snd
           | with_reducible apply dropCopy_firm
           | with_reducible apply sramError_firm
           | split)
      | (intro x a hx)
      | (intro c; rfl)
      | split
      | dsimp only

theorem cpRecvAct_firm {s0 s : State} {r : Req} (h : Firm s0 s) : Firm s0 (servedState (cpRecvAct r s)) := by
  unfold cpRecvAct
  try dsimp only
  repeat' first
    | with_reducible assumption
    | with_reducible apply Firm.served_ite
    | with_reducible apply Firm.ok
    | with_reducible apply Firm.okWith
    | with_reducible apply Firm.fail
    | with_reducible apply Firm.conflict
    | with_reducible apply Firm.done
    | with_reducible apply Firm.later
    | with_reducible apply Firm.ite
    | with_reducible apply Firm.foldl
    | with_reducible apply Firm.ite_snd
    | with_reducible apply Firm.foldl_snd
    | with_reducible apply fail_firm
    | with_reducible apply goodCopies_firm
    | with_reducible apply modCls_firm
    | with_reducible apply okWith_firm
    | (with_reducible show Firm _ (servedState _); split)
    | (refine Firm.mk' rfl rfl rfl rfl rfl rfl rfl rfl rfl rfl ?_
       first
         | with_reducible assumption
         | with_reducible apply Firm.served_ite
         | with_reducible apply Firm.ok
         | with_reducible apply Firm.okWith
         | with_reducible apply Firm.fail
         | with_reducible apply Firm.conflict
         | with_reducible apply Firm.done
         | with_reducible apply Firm.later
         | with_reducible apply Firm.ite
         | with_reducible apply Firm.foldl
         | with_reducible apply Firm.ite_snd
         | with_reducible apply Firm.foldl_snd
         | with_reducible apply fail_firm
         | with_reducible apply goodCopies_firm
         | with_reducible apply modCls_firm
         | with_reducible apply okWith_firm
         | split)
    | (intro x a hx)
    | (intro c; rfl)
    | (intro x hx; exact hx)
    | (intro x hx)
    | (intro x)
    | split
    | dsimp only

theorem execClsCpRecv_firm {s : State}  : FirmOut s (execClsCpRecv s) := by
  have h := Firm.refl s
  unfold execClsCpRecv
  try dsimp only
  repeat' first
    | with_reducible assumption
    | with_reducible apply FirmOut.ite
    | with_reducible apply FirmOut.next
    | with_reducible apply Firm.ite
    | with_reducible apply Firm.foldl
    | with_reducible apply Firm.ite_snd
    | with_reducible apply Firm.foldl_snd
    | with_reducible apply cpRecvAct_firm
    | exact serve_firm h (fun r x hx hl => cpRecvAct_firm hx)
    | exact serve_firm h (fun r x hx hl => cpRecvAct_firm hx hl)
    | (refine Firm.mk' rfl rfl rfl rfl rfl rfl rfl rfl rfl rfl ?_
       first
         | with_reducible assumption
         | with_reducible apply FirmOut.ite
         | with_reducible apply FirmOut.next
         | with_reducible apply Firm.ite
         | with_reducible apply Firm.foldl
         | with_reducible apply Firm.ite_snd
         | with_reducible apply Firm.foldl_snd
         | with_reducible apply cpRecvAct_firm
         | exact serve_firm h (fun r x hx hl => cpRecvAct_firm hx)
         | exact serve_firm h (fun r x hx hl => cpRecvAct_firm hx hl)
         | split)
    | (intro x a hx)
    | (intro c; rfl)
    | (intro x hx; exact hx)
    | (intro x hx)
    | (intro x)
    | split
    | dsimp only

end Sys2Proof.Machine
end

