-- ==== Sys2Proof/Laws/FirmSequencer.lean ====
section
/-!
SUPPORT. What the operations of Machine/Sequencer.lean keep (`Firm`).
-/
set_option Elab.async false
set_option linter.unusedTactic false
set_option linter.unreachableTactic false
set_option linter.unusedVariables false
namespace Sys2Proof.Machine

theorem powerEvent_firm {s0 s : State} {old : DevState} {new : DevState} {cause : Option Cause} (h : Firm s0 s) : Firm s0 (powerEvent old new cause s) := by
  unfold powerEvent
  try dsimp only
  repeat' first
    | with_reducible assumption
    | with_reducible apply Firm.ite
    | with_reducible apply Firm.foldl
    | with_reducible apply Firm.ite_snd
    | with_reducible apply Firm.foldl_snd
    | with_reducible apply raise_firm
    | with_reducible apply stateCode_firm
    | (refine Firm.mk' rfl rfl rfl rfl rfl rfl rfl rfl rfl rfl ?_
       first
         | with_reducible assumption
         | with_reducible apply Firm.ite
         | with_reducible apply Firm.foldl
         | with_reducible apply Firm.ite_snd
         | with_reducible apply Firm.foldl_snd
         | with_reducible apply raise_firm
         | with_reducible apply stateCode_firm
         | split)
    | (intro x a hx)
    | (intro c; rfl)
    | (intro x hx; exact hx)
    | (intro x hx)
    | (intro x)
    | split
    | dsimp only

theorem startStep_firm {s0 s : State} {st : DvfsStep} (h : Firm s0 s) : Firm s0 (startStep st s) := by
  unfold startStep
  try dsimp only
  repeat' first
    | with_reducible assumption
    | with_reducible apply Firm.ite
    | with_reducible apply Firm.foldl
    | with_reducible apply Firm.ite_snd
    | with_reducible apply Firm.foldl_snd
    | with_reducible apply emit_firm
    | with_reducible apply occurrence_firm
    | (refine Firm.mk' rfl rfl rfl rfl rfl rfl rfl rfl rfl rfl ?_
       first
         | with_reducible assumption
         | with_reducible apply Firm.ite
         | with_reducible apply Firm.foldl
         | with_reducible apply Firm.ite_snd
         | with_reducible apply Firm.foldl_snd
         | with_reducible apply emit_firm
         | with_reducible apply occurrence_firm
         | split)
    | (intro x a hx)
    | (intro c; rfl)
    | (intro x hx; exact hx)
    | (intro x hx)
    | (intro x)
    | split
    | dsimp only

theorem ungate_firm {s0 s : State} (h : Firm s0 s) : Firm s0 (ungate s) := by
  unfold ungate
  try dsimp only
  repeat' first
    | with_reducible assumption
    | with_reducible apply Firm.ite
    | with_reducible apply Firm.foldl
    | with_reducible apply Firm.ite_snd
    | with_reducible apply Firm.foldl_snd
    | (refine Firm.mk' rfl rfl rfl rfl rfl rfl rfl rfl rfl rfl ?_
       first
         | with_reducible assumption
         | with_reducible apply Firm.ite
         | with_reducible apply Firm.foldl
         | with_reducible apply Firm.ite_snd
         | with_reducible apply Firm.foldl_snd
         | split)
    | (intro x a hx)
    | (intro c; rfl)
    | (intro x hx; exact hx)
    | (intro x hx)
    | (intro x)
    | split
    | dsimp only

theorem leaveHush_firm {s0 s : State} {acked : Bool} (h : Firm s0 s) (hs : FaultIdle s0 → s0.ctl.devState ≠ .fault) :
    Firm s0 (leaveHush acked s) := by
  have k : ∀ c, Firm s0 (powerEvent .hush .run c (changeState .run c (ungate { s with pwr := { s.pwr with
      entry := none
      wake := { s.pwr.wake with result := 1, time := s.time.ns } } }))) := fun c =>
    powerEvent_firm (changeState_firm (ungate_firm (Firm.mkNone rfl rfl rfl rfl rfl rfl rfl rfl (fun _ => rfl)
      h.fault h)) hs (by decide))
  unfold leaveHush
  dsimp only
  exact Firm.ite (finishLater_firm (k _)) (k _)

theorem exitHush_firm {s0 s : State} {source unit : Nat} {cause : Option Cause} (h : Firm s0 s)
    (hg : FaultIdle s0 → ¬(s.ctl.devState = .fault ∨ s.ctl.devState = .boot ∨ s.ctl.devState = .still)) :
    Firm s0 (exitHush source unit cause s) := by
  have n : FaultIdle s0 → s0.ctl.devState ≠ .fault := fun i => h.notFaultOf (fun f => hg i (.inl f)) i
  have k : ∀ e w, Firm s0 { s with pwr := { s.pwr with entry := e, wake := w } } := fun e w =>
    Firm.mkGoing rfl rfl rfl rfl rfl rfl rfl rfl hg n h
  unfold exitHush
  exact Firm.ite (startStep_firm (k _ _)) (leaveHush_firm (k _ _) n)

theorem enterHush_firm {s0 s : State} {acked : Bool} (h : Firm s0 s) (hs : FaultIdle s0 → s0.ctl.devState ≠ .fault) :
    Firm s0 (enterHush acked s) := by
  unfold enterHush
  exact finishLater_firm (changeState_firm (Firm.mkNone rfl rfl rfl rfl rfl rfl rfl rfl (fun _ => rfl) h.fault h)
    hs (by decide))

theorem powerStepDone_firm {s0 s : State} {acked : Bool} (h : Firm s0 s) : Firm s0 (powerStepDone acked s) := by
  unfold powerStepDone
  split
  · exact h
  · rename_i e he
    have n := h.notFault (he ▸ nofun)
    split
    · exact enterHush_firm h n
    · exact leaveHush_firm h n

theorem endStep_firm {s0 s : State} {acked : Bool} (h : Firm s0 s) : Firm s0 (endStep acked s) := by
  unfold endStep
  try dsimp only
  repeat' first
    | with_reducible assumption
    | with_reducible apply Firm.ite
    | with_reducible apply Firm.foldl
    | with_reducible apply Firm.ite_snd
    | with_reducible apply Firm.foldl_snd
    | with_reducible apply finishLater_firm
    | with_reducible apply powerStepDone_firm
    | with_reducible apply raiseWith_firm
    | with_reducible apply startStep_firm
    | (refine Firm.mk' rfl rfl rfl rfl rfl rfl rfl rfl rfl rfl ?_
       first
         | with_reducible assumption
         | with_reducible apply Firm.ite
         | with_reducible apply Firm.foldl
         | with_reducible apply Firm.ite_snd
         | with_reducible apply Firm.foldl_snd
         | with_reducible apply finishLater_firm
         | with_reducible apply powerStepDone_firm
         | with_reducible apply raiseWith_firm
         | with_reducible apply startStep_firm
         | split)
    | (intro x a hx)
    | (intro c; rfl)
    | (intro x hx; exact hx)
    | (intro x hx)
    | (intro x)
    | split
    | dsimp only

theorem wakeSource_firm {s0 s : State} {source unit : Nat} (h : Firm s0 s) : Firm s0 (wakeSource source unit s) := by
  unfold wakeSource
  split
  · rename_i w
    split
    · split
      · exact h
      · exact Firm.mk' rfl rfl rfl rfl rfl rfl rfl rfl rfl rfl h
    · split
      · exact h
      · refine exitHush_firm h fun _ q => ?_
        unfold wakeEnabled at w
        rcases q with q | q | q <;> rw [q] at w <;> contradiction
  · exact h

end Sys2Proof.Machine
end

