-- ==== Sys2Proof/Laws/FirmEngineFaults.lean ====
section
/-!
SUPPORT. What the operations of Machine/EngineFaults.lean keep (`Firm`).
-/
set_option Elab.async false
set_option linter.unusedTactic false
set_option linter.unreachableTactic false
set_option linter.unusedVariables false
namespace Sys2Proof.Machine

theorem frameLock_firm {s0 s : State} {p : Nat} {gained : Bool} {sfc : Nat} (h : Firm s0 s) : Firm s0 (frameLock p gained sfc s) := by
  unfold frameLock
  try dsimp only
  repeat' first
    | with_reducible assumption
    | with_reducible apply Firm.ite
    | with_reducible apply Firm.foldl
    | with_reducible apply Firm.ite_snd
    | with_reducible apply Firm.foldl_snd
    | with_reducible apply raise_firm
    | (refine Firm.mk' rfl rfl rfl rfl rfl rfl rfl rfl rfl rfl ?_
       first
         | with_reducible assumption
         | with_reducible apply Firm.ite
         | with_reducible apply Firm.foldl
         | with_reducible apply Firm.ite_snd
         | with_reducible apply Firm.foldl_snd
         | with_reducible apply raise_firm
         | split)
    | (intro x a hx)
    | (intro c; rfl)
    | (intro x hx; exact hx)
    | (intro x hx)
    | (intro x)
    | split
    | dsimp only

theorem reachTerms_firm {s0 s : State} {p : Nat} {cause : Nat} {reach : Nat → Bool} (h : Firm s0 s) : Firm s0 (reachTerms p cause reach s) := by
  unfold reachTerms
  try dsimp only
  repeat' first
    | with_reducible assumption
    | with_reducible apply Firm.ite
    | with_reducible apply Firm.foldl
    | with_reducible apply Firm.ite_snd
    | with_reducible apply Firm.foldl_snd
    | with_reducible apply startBulk_firm
    | (refine Firm.mk' rfl rfl rfl rfl rfl rfl rfl rfl rfl rfl ?_
       first
         | with_reducible assumption
         | with_reducible apply Firm.ite
         | with_reducible apply Firm.foldl
         | with_reducible apply Firm.ite_snd
         | with_reducible apply Firm.foldl_snd
         | with_reducible apply startBulk_firm
         | split)
    | (intro x a hx)
    | (intro c; rfl)
    | (intro x hx; exact hx)
    | (intro x hx)
    | (intro x)
    | split
    | dsimp only

theorem downstreamLost_firm {s0 s : State} {p : Nat} (h : Firm s0 s) : Firm s0 (downstreamLost p s) := by
  unfold downstreamLost
  try dsimp only
  repeat' first
    | with_reducible assumption
    | with_reducible apply Firm.ite
    | with_reducible apply Firm.foldl
    | with_reducible apply Firm.ite_snd
    | with_reducible apply Firm.foldl_snd
    | with_reducible apply reachTerms_firm
    | (refine Firm.mk' rfl rfl rfl rfl rfl rfl rfl rfl rfl rfl ?_
       first
         | with_reducible assumption
         | with_reducible apply Firm.ite
         | with_reducible apply Firm.foldl
         | with_reducible apply Firm.ite_snd
         | with_reducible apply Firm.foldl_snd
         | with_reducible apply reachTerms_firm
         | split)
    | (intro x a hx)
    | (intro c; rfl)
    | (intro x hx; exact hx)
    | (intro x hx)
    | (intro x)
    | split
    | dsimp only

theorem profileKnown_firm {s0 s : State} {p : Nat} (h : Firm s0 s) : Firm s0 (profileKnown p s) := by
  unfold profileKnown
  try dsimp only
  repeat' first
    | with_reducible assumption
    | with_reducible apply Firm.ite
    | with_reducible apply Firm.foldl
    | with_reducible apply Firm.ite_snd
    | with_reducible apply Firm.foldl_snd
    | with_reducible apply reachTerms_firm
    | (refine Firm.mk' rfl rfl rfl rfl rfl rfl rfl rfl rfl rfl ?_
       first
         | with_reducible assumption
         | with_reducible apply Firm.ite
         | with_reducible apply Firm.foldl
         | with_reducible apply Firm.ite_snd
         | with_reducible apply Firm.foldl_snd
         | with_reducible apply reachTerms_firm
         | split)
    | (intro x a hx)
    | (intro c; rfl)
    | (intro x hx; exact hx)
    | (intro x hx)
    | (intro x)
    | split
    | dsimp only

theorem enterHunt_firm {s0 s : State} {p : Nat} (h : Firm s0 s) : Firm s0 (enterHunt p s) := by
  unfold enterHunt
  try dsimp only
  repeat' first
    | with_reducible assumption
    | with_reducible apply Firm.ite
    | with_reducible apply Firm.foldl
    | with_reducible apply Firm.ite_snd
    | with_reducible apply Firm.foldl_snd
    | with_reducible apply modPlane_firm
    | with_reducible apply touch_firm
    | with_reducible apply withdraw_firm
    | (refine Firm.mk' rfl rfl rfl rfl rfl rfl rfl rfl rfl rfl ?_
       first
         | with_reducible assumption
         | with_reducible apply Firm.ite
         | with_reducible apply Firm.foldl
         | with_reducible apply Firm.ite_snd
         | with_reducible apply Firm.foldl_snd
         | with_reducible apply modPlane_firm
         | with_reducible apply touch_firm
         | with_reducible apply withdraw_firm
         | split)
    | (intro x a hx)
    | (intro c; rfl)
    | (intro x hx; exact hx)
    | (intro x hx)
    | (intro x)
    | split
    | dsimp only

theorem loseSync_firm {s0 s : State} {p : Nat} (h : Firm s0 s) : Firm s0 (loseSync p s) := by
  unfold loseSync
  try dsimp only
  repeat' first
    | with_reducible assumption
    | with_reducible apply Firm.ite
    | with_reducible apply Firm.foldl
    | with_reducible apply Firm.ite_snd
    | with_reducible apply Firm.foldl_snd
    | with_reducible apply countPlane_firm
    | with_reducible apply downstreamLost_firm
    | with_reducible apply enterHunt_firm
    | with_reducible apply frameLock_firm
    | (refine Firm.mk' rfl rfl rfl rfl rfl rfl rfl rfl rfl rfl ?_
       first
         | with_reducible assumption
         | with_reducible apply Firm.ite
         | with_reducible apply Firm.foldl
         | with_reducible apply Firm.ite_snd
         | with_reducible apply Firm.foldl_snd
         | with_reducible apply countPlane_firm
         | with_reducible apply downstreamLost_firm
         | with_reducible apply enterHunt_firm
         | with_reducible apply frameLock_firm
         | split)
    | (intro x a hx)
    | (intro c; rfl)
    | (intro x hx; exact hx)
    | (intro x hx)
    | (intro x)
    | split
    | dsimp only

theorem gainSync_firm {s0 s : State} {p : Nat} {sfc : Nat} (h : Firm s0 s) : Firm s0 (gainSync p sfc s) := by
  unfold gainSync
  try dsimp only
  repeat' first
    | with_reducible assumption
    | with_reducible apply Firm.ite
    | with_reducible apply Firm.foldl
    | with_reducible apply Firm.ite_snd
    | with_reducible apply Firm.foldl_snd
    | with_reducible apply frameLock_firm
    | with_reducible apply modPlane_firm
    | with_reducible apply profileKnown_firm
    | with_reducible apply reachTerms_firm
    | (refine Firm.mk' rfl rfl rfl rfl rfl rfl rfl rfl rfl rfl ?_
       first
         | with_reducible assumption
         | with_reducible apply Firm.ite
         | with_reducible apply Firm.foldl
         | with_reducible apply Firm.ite_snd
         | with_reducible apply Firm.foldl_snd
         | with_reducible apply frameLock_firm
         | with_reducible apply modPlane_firm
         | with_reducible apply profileKnown_firm
         | with_reducible apply reachTerms_firm
         | split)
    | (intro x a hx)
    | (intro c; rfl)
    | (intro x hx; exact hx)
    | (intro x hx)
    | (intro x)
    | split
    | dsimp only

theorem defectEvent_firm {s0 s : State} {port : Nat} {bitNo : Nat} {on : Bool} {suppressed : Nat} {cmd : Option Cause} (h : Firm s0 s) : Firm s0 (defectEvent port bitNo on suppressed cmd s) := by
  unfold defectEvent
  try dsimp only
  repeat' first
    | with_reducible assumption
    | with_reducible apply Firm.ite
    | with_reducible apply Firm.foldl
    | with_reducible apply Firm.ite_snd
    | with_reducible apply Firm.foldl_snd
    | with_reducible apply raise_firm
    | (refine Firm.mk' rfl rfl rfl rfl rfl rfl rfl rfl rfl rfl ?_
       first
         | with_reducible assumption
         | with_reducible apply Firm.ite
         | with_reducible apply Firm.foldl
         | with_reducible apply Firm.ite_snd
         | with_reducible apply Firm.foldl_snd
         | with_reducible apply raise_firm
         | split)
    | (intro x a hx)
    | (intro c; rfl)
    | (intro x hx; exact hx)
    | (intro x hx)
    | (intro x)
    | split
    | dsimp only

theorem stopMonitor_firm {s0 s : State} {port : Nat} {cmd : Option Cause} (h : Firm s0 s) : Firm s0 (stopMonitor port cmd s) := by
  unfold stopMonitor
  try dsimp only
  repeat' first
    | with_reducible assumption
    | with_reducible apply Firm.ite
    | with_reducible apply Firm.foldl
    | with_reducible apply Firm.ite_snd
    | with_reducible apply Firm.foldl_snd
    | with_reducible apply defectEvent_firm
    | with_reducible apply modDef_firm
    | with_reducible apply modHunter_firm
    | (refine Firm.mk' rfl rfl rfl rfl rfl rfl rfl rfl rfl rfl ?_
       first
         | with_reducible assumption
         | with_reducible apply Firm.ite
         | with_reducible apply Firm.foldl
         | with_reducible apply Firm.ite_snd
         | with_reducible apply Firm.foldl_snd
         | with_reducible apply defectEvent_firm
         | with_reducible apply modDef_firm
         | with_reducible apply modHunter_firm
         | split)
    | (intro x a hx)
    | (intro c; rfl)
    | (intro x hx; exact hx)
    | (intro x hx)
    | (intro x)
    | split
    | dsimp only

theorem roleSwapEvent_firm {s0 s : State} {p : Nat} {old : Nat} {new : Nat} {abandoned : Bool} {origin : Nat} {cmd : Option Cause} (h : Firm s0 s) : Firm s0 (roleSwapEvent p old new abandoned origin cmd s) := by
  unfold roleSwapEvent
  try dsimp only
  repeat' first
    | with_reducible assumption
    | with_reducible apply Firm.ite
    | with_reducible apply Firm.foldl
    | with_reducible apply Firm.ite_snd
    | with_reducible apply Firm.foldl_snd
    | with_reducible apply raise_firm
    | (refine Firm.mk' rfl rfl rfl rfl rfl rfl rfl rfl rfl rfl ?_
       first
         | with_reducible assumption
         | with_reducible apply Firm.ite
         | with_reducible apply Firm.foldl
         | with_reducible apply Firm.ite_snd
         | with_reducible apply Firm.foldl_snd
         | with_reducible apply raise_firm
         | split)
    | (intro x a hx)
    | (intro c; rfl)
    | (intro x hx; exact hx)
    | (intro x hx)
    | (intro x)
    | split
    | dsimp only

theorem abandonSwap_firm {s0 s : State} {p : Nat} {cmd : Option Cause} (h : Firm s0 s) : Firm s0 (abandonSwap p cmd s) := by
  unfold abandonSwap
  try dsimp only
  repeat' first
    | with_reducible assumption
    | with_reducible apply Firm.ite
    | with_reducible apply Firm.foldl
    | with_reducible apply Firm.ite_snd
    | with_reducible apply Firm.foldl_snd
    | with_reducible apply finishLater_firm
    | with_reducible apply modProt_firm
    | with_reducible apply restartPeriod_firm
    | with_reducible apply roleSwapEvent_firm
    | (refine Firm.mk' rfl rfl rfl rfl rfl rfl rfl rfl rfl rfl ?_
       first
         | with_reducible assumption
         | with_reducible apply Firm.ite
         | with_reducible apply Firm.foldl
         | with_reducible apply Firm.ite_snd
         | with_reducible apply Firm.foldl_snd
         | with_reducible apply finishLater_firm
         | with_reducible apply modProt_firm
         | with_reducible apply restartPeriod_firm
         | with_reducible apply roleSwapEvent_firm
         | split)
    | (intro x a hx)
    | (intro c; rfl)
    | (intro x hx; exact hx)
    | (intro x hx)
    | (intro x)
    | split
    | dsimp only

theorem stopPlane_firm {s0 s : State} {p : Nat} {cmd : Option Cause} (h : Firm s0 s) : Firm s0 (stopPlane p cmd s) := by
  unfold stopPlane
  try dsimp only
  repeat' first
    | with_reducible assumption
    | with_reducible apply Firm.ite
    | with_reducible apply Firm.foldl
    | with_reducible apply Firm.ite_snd
    | with_reducible apply Firm.foldl_snd
    | with_reducible apply abandonSwap_firm
    | with_reducible apply allToInitial_firm
    | with_reducible apply dropTxEn_firm
    | with_reducible apply endBmRst_firm
    | with_reducible apply loseQual_firm
    | with_reducible apply modHunter_firm
    | with_reducible apply modLinePort_firm
    | with_reducible apply modPlane_firm
    | with_reducible apply stopMonitor_firm
    | with_reducible apply toIdle_firm
    | (refine Firm.mk' rfl rfl rfl rfl rfl rfl rfl rfl rfl rfl ?_
       first
         | with_reducible assumption
         | with_reducible apply Firm.ite
         | with_reducible apply Firm.foldl
         | with_reducible apply Firm.ite_snd
         | with_reducible apply Firm.foldl_snd
         | with_reducible apply abandonSwap_firm
         | with_reducible apply allToInitial_firm
         | with_reducible apply dropTxEn_firm
         | with_reducible apply endBmRst_firm
         | with_reducible apply loseQual_firm
         | with_reducible apply modHunter_firm
         | with_reducible apply modLinePort_firm
         | with_reducible apply modPlane_firm
         | with_reducible apply stopMonitor_firm
         | with_reducible apply toIdle_firm
         | split)
    | (intro x a hx)
    | (intro c; rfl)
    | (intro x hx; exact hx)
    | (intro x hx)
    | (intro x)
    | split
    | dsimp only

theorem alignHunter_firm {s0 s : State} {code : Nat} {mon : Nat} (h : Firm s0 s) : Firm s0 (alignHunter code mon s) := by
  unfold alignHunter
  try dsimp only
  repeat' first
    | with_reducible assumption
    | with_reducible apply Firm.ite
    | with_reducible apply Firm.foldl
    | with_reducible apply Firm.ite_snd
    | with_reducible apply Firm.foldl_snd
    | with_reducible apply modHunter_firm
    | (refine Firm.mk' rfl rfl rfl rfl rfl rfl rfl rfl rfl rfl ?_
       first
         | with_reducible assumption
         | with_reducible apply Firm.ite
         | with_reducible apply Firm.foldl
         | with_reducible apply Firm.ite_snd
         | with_reducible apply Firm.foldl_snd
         | with_reducible apply modHunter_firm
         | split)
    | (intro x a hx)
    | (intro c; rfl)
    | (intro x hx; exact hx)
    | (intro x hx)
    | (intro x)
    | split
    | dsimp only

theorem lineSwitch_firm {s0 s : State} {p : Nat} {target : Nat} {reason : Nat} {cmd : Option Cause} (h : Firm s0 s) : Firm s0 (lineSwitch p target reason cmd s) := by
  unfold lineSwitch
  try dsimp only
  repeat' first
    | with_reducible assumption
    | with_reducible apply Firm.ite
    | with_reducible apply Firm.foldl
    | with_reducible apply Firm.ite_snd
    | with_reducible apply Firm.foldl_snd
    | with_reducible apply alignHunter_firm
    | with_reducible apply bridge_firm
    | with_reducible apply countDiscarded_firm
    | with_reducible apply cutLane_firm
    | with_reducible apply enterHunt_firm
    | with_reducible apply loseQual_firm
    | with_reducible apply loseSync_firm
    | with_reducible apply modPlane_firm
    | with_reducible apply modProt_firm
    | with_reducible apply raise_firm
    | with_reducible apply touch_firm
    | (refine Firm.mk' rfl rfl rfl rfl rfl rfl rfl rfl rfl rfl ?_
       first
         | with_reducible assumption
         | with_reducible apply Firm.ite
         | with_reducible apply Firm.foldl
         | with_reducible apply Firm.ite_snd
         | with_reducible apply Firm.foldl_snd
         | with_reducible apply alignHunter_firm
         | with_reducible apply bridge_firm
         | with_reducible apply countDiscarded_firm
         | with_reducible apply cutLane_firm
         | with_reducible apply enterHunt_firm
         | with_reducible apply loseQual_firm
         | with_reducible apply loseSync_firm
         | with_reducible apply modPlane_firm
         | with_reducible apply modProt_firm
         | with_reducible apply raise_firm
         | with_reducible apply touch_firm
         | split)
    | (intro x a hx)
    | (intro c; rfl)
    | (intro x hx; exact hx)
    | (intro x hx)
    | (intro x)
    | split
    | dsimp only

theorem runSwitch_firm {s0 s : State} {p : Nat} {cmd : Option Cause} (h : Firm s0 s) : Firm s0 (runSwitch p cmd s) := by
  unfold runSwitch
  try dsimp only
  repeat' first
    | with_reducible assumption
    | with_reducible apply Firm.ite
    | with_reducible apply Firm.foldl
    | with_reducible apply Firm.ite_snd
    | with_reducible apply Firm.foldl_snd
    | with_reducible apply lineSwitch_firm
    | with_reducible apply modProt_firm
    | (refine Firm.mk' rfl rfl rfl rfl rfl rfl rfl rfl rfl rfl ?_
       first
         | with_reducible assumption
         | with_reducible apply Firm.ite
         | with_reducible apply Firm.foldl
         | with_reducible apply Firm.ite_snd
         | with_reducible apply Firm.foldl_snd
         | with_reducible apply lineSwitch_firm
         | with_reducible apply modProt_firm
         | split)
    | (intro x a hx)
    | (intro c; rfl)
    | (intro x hx; exact hx)
    | (intro x hx)
    | (intro x)
    | split
    | dsimp only

theorem judge_firm {s0 s : State} {p : Nat} {cmd : Option Cause} (h : Firm s0 s) : Firm s0 (judge p cmd s) := by
  unfold judge
  try dsimp only
  repeat' first
    | with_reducible assumption
    | with_reducible apply Firm.ite
    | with_reducible apply Firm.foldl
    | with_reducible apply Firm.ite_snd
    | with_reducible apply Firm.foldl_snd
    | with_reducible apply modProt_firm
    | with_reducible apply runSwitch_firm
    | (refine Firm.mk' rfl rfl rfl rfl rfl rfl rfl rfl rfl rfl ?_
       first
         | with_reducible assumption
         | with_reducible apply Firm.ite
         | with_reducible apply Firm.foldl
         | with_reducible apply Firm.ite_snd
         | with_reducible apply Firm.foldl_snd
         | with_reducible apply modProt_firm
         | with_reducible apply runSwitch_firm
         | split)
    | (intro x a hx)
    | (intro c; rfl)
    | (intro x hx; exact hx)
    | (intro x hx)
    | (intro x)
    | split
    | dsimp only

theorem afterAction_firm {s0 s : State} {p : Nat} (h : Firm s0 s) : Firm s0 (afterAction p s) := by
  unfold afterAction
  try dsimp only
  repeat' first
    | with_reducible assumption
    | with_reducible apply Firm.ite
    | with_reducible apply Firm.foldl
    | with_reducible apply Firm.ite_snd
    | with_reducible apply Firm.foldl_snd
    | with_reducible apply judge_firm
    | with_reducible apply runSwitch_firm
    | (refine Firm.mk' rfl rfl rfl rfl rfl rfl rfl rfl rfl rfl ?_
       first
         | with_reducible assumption
         | with_reducible apply Firm.ite
         | with_reducible apply Firm.foldl
         | with_reducible apply Firm.ite_snd
         | with_reducible apply Firm.foldl_snd
         | with_reducible apply judge_firm
         | with_reducible apply runSwitch_firm
         | split)
    | (intro x a hx)
    | (intro c; rfl)
    | (intro x hx; exact hx)
    | (intro x hx)
    | (intro x)
    | split
    | dsimp only

theorem switchNow_firm {s0 s : State} {p : Nat} (h : Firm s0 s) : Firm s0 (switchNow p s) := by
  unfold switchNow
  try dsimp only
  repeat' first
    | with_reducible assumption
    | with_reducible apply Firm.ite
    | with_reducible apply Firm.foldl
    | with_reducible apply Firm.ite_snd
    | with_reducible apply Firm.foldl_snd
    | with_reducible apply afterAction_firm
    | (refine Firm.mk' rfl rfl rfl rfl rfl rfl rfl rfl rfl rfl ?_
       first
         | with_reducible assumption
         | with_reducible apply Firm.ite
         | with_reducible apply Firm.foldl
         | with_reducible apply Firm.ite_snd
         | with_reducible apply Firm.foldl_snd
         | with_reducible apply afterAction_firm
         | split)
    | (intro x a hx)
    | (intro c; rfl)
    | (intro x hx; exact hx)
    | (intro x hx)
    | (intro x)
    | split
    | dsimp only

theorem restoreKeys_firm {s0 s : State} {f : Nat} {ks : List LineKey} (h : Firm s0 s) : Firm s0 (restoreKeys f ks s) := by
  unfold restoreKeys
  try dsimp only
  repeat' first
    | with_reducible assumption
    | with_reducible apply Firm.ite
    | with_reducible apply Firm.foldl
    | with_reducible apply Firm.ite_snd
    | with_reducible apply Firm.foldl_snd
    | with_reducible apply modSlot_firm
    | (refine Firm.mk' rfl rfl rfl rfl rfl rfl rfl rfl rfl rfl ?_
       first
         | with_reducible assumption
         | with_reducible apply Firm.ite
         | with_reducible apply Firm.foldl
         | with_reducible apply Firm.ite_snd
         | with_reducible apply Firm.foldl_snd
         | with_reducible apply modSlot_firm
         | split)
    | (intro x a hx)
    | (intro c; rfl)
    | (intro x hx; exact hx)
    | (intro x hx)
    | (intro x)
    | split
    | dsimp only

theorem restoreTerms_firm {s0 s : State} {p : Nat} (h : Firm s0 s) : Firm s0 (restoreTerms p s) := by
  unfold restoreTerms
  try dsimp only
  repeat' first
    | with_reducible assumption
    | with_reducible apply Firm.ite
    | with_reducible apply Firm.foldl
    | with_reducible apply Firm.ite_snd
    | with_reducible apply Firm.foldl_snd
    | with_reducible apply restoreKeys_firm
    | (refine Firm.mk' rfl rfl rfl rfl rfl rfl rfl rfl rfl rfl ?_
       first
         | with_reducible assumption
         | with_reducible apply Firm.ite
         | with_reducible apply Firm.foldl
         | with_reducible apply Firm.ite_snd
         | with_reducible apply Firm.foldl_snd
         | with_reducible apply restoreKeys_firm
         | split)
    | (intro x a hx)
    | (intro c; rfl)
    | (intro x hx; exact hx)
    | (intro x hx)
    | (intro x)
    | split
    | dsimp only

theorem restorePlane_firm {s0 s : State} {p : Nat} (h : Firm s0 s) : Firm s0 (restorePlane p s) := by
  unfold restorePlane
  try dsimp only
  repeat' first
    | with_reducible assumption
    | with_reducible apply Firm.ite
    | with_reducible apply Firm.foldl
    | with_reducible apply Firm.ite_snd
    | with_reducible apply Firm.foldl_snd
    | with_reducible apply modPlane_firm
    | with_reducible apply touchDescs_firm
    | (refine Firm.mk' rfl rfl rfl rfl rfl rfl rfl rfl rfl rfl ?_
       first
         | with_reducible assumption
         | with_reducible apply Firm.ite
         | with_reducible apply Firm.foldl
         | with_reducible apply Firm.ite_snd
         | with_reducible apply Firm.foldl_snd
         | with_reducible apply modPlane_firm
         | with_reducible apply touchDescs_firm
         | split)
    | (intro x a hx)
    | (intro c; rfl)
    | (intro x hx; exact hx)
    | (intro x hx)
    | (intro x)
    | split
    | dsimp only

theorem refillAll_firm {s0 s : State} {p : Nat} (h : Firm s0 s) : Firm s0 (refillAll p s) := by
  unfold refillAll
  try dsimp only
  repeat' first
    | with_reducible assumption
    | with_reducible apply Firm.ite
    | with_reducible apply Firm.foldl
    | with_reducible apply Firm.ite_snd
    | with_reducible apply Firm.foldl_snd
    | (refine Firm.mk' rfl rfl rfl rfl rfl rfl rfl rfl rfl rfl ?_
       first
         | with_reducible assumption
         | with_reducible apply Firm.ite
         | with_reducible apply Firm.foldl
         | with_reducible apply Firm.ite_snd
         | with_reducible apply Firm.foldl_snd
         | split)
    | (intro x a hx)
    | (intro c; rfl)
    | (intro x hx; exact hx)
    | (intro x hx)
    | (intro x)
    | split
    | dsimp only

theorem restartTraffic_firm {s0 s : State} {p : Nat} (h : Firm s0 s) : Firm s0 (restartTraffic p s) := by
  unfold restartTraffic
  try dsimp only
  repeat' first
    | with_reducible assumption
    | with_reducible apply Firm.ite
    | with_reducible apply Firm.foldl
    | with_reducible apply Firm.ite_snd
    | with_reducible apply Firm.foldl_snd
    | with_reducible apply countDiscarded_firm
    | with_reducible apply modPlane_firm
    | with_reducible apply refillAll_firm
    | with_reducible apply restorePlane_firm
    | (refine Firm.mk' rfl rfl rfl rfl rfl rfl rfl rfl rfl rfl ?_
       first
         | with_reducible assumption
         | with_reducible apply Firm.ite
         | with_reducible apply Firm.foldl
         | with_reducible apply Firm.ite_snd
         | with_reducible apply Firm.foldl_snd
         | with_reducible apply countDiscarded_firm
         | with_reducible apply modPlane_firm
         | with_reducible apply refillAll_firm
         | with_reducible apply restorePlane_firm
         | split)
    | (intro x a hx)
    | (intro c; rfl)
    | (intro x hx; exact hx)
    | (intro x hx)
    | (intro x)
    | split
    | dsimp only

theorem takeoverEvent_firm {s0 s : State} {inj : Bool} {p : Nat} {failed : Nat} {new : Nat} {cause : Nat} {flags : Nat} {lost : List Nat} (h : Firm s0 s) : Firm s0 (takeoverEvent inj p failed new cause flags lost s) := by
  unfold takeoverEvent
  try dsimp only
  repeat' first
    | with_reducible assumption
    | with_reducible apply Firm.ite
    | with_reducible apply Firm.foldl
    | with_reducible apply Firm.ite_snd
    | with_reducible apply Firm.foldl_snd
    | with_reducible apply raiseWith_firm
    | (refine Firm.mk' rfl rfl rfl rfl rfl rfl rfl rfl rfl rfl ?_
       first
         | with_reducible assumption
         | with_reducible apply Firm.ite
         | with_reducible apply Firm.foldl
         | with_reducible apply Firm.ite_snd
         | with_reducible apply Firm.foldl_snd
         | with_reducible apply raiseWith_firm
         | split)
    | (intro x a hx)
    | (intro c; rfl)
    | (intro x hx; exact hx)
    | (intro x hx)
    | (intro x)
    | split
    | dsimp only

theorem cutBursts_firm {s0 s : State} {p : Nat} (h : Firm s0 s) : Firm s0 (cutBursts p s) := by
  unfold cutBursts
  try dsimp only
  repeat' first
    | with_reducible assumption
    | with_reducible apply Firm.ite
    | with_reducible apply Firm.foldl
    | with_reducible apply Firm.ite_snd
    | with_reducible apply Firm.foldl_snd
    | with_reducible apply countDiscarded_firm
    | with_reducible apply cutLane_firm
    | with_reducible apply modLinePort_firm
    | with_reducible apply modPlane_firm
    | (refine Firm.mk' rfl rfl rfl rfl rfl rfl rfl rfl rfl rfl ?_
       first
         | with_reducible assumption
         | with_reducible apply Firm.ite
         | with_reducible apply Firm.foldl
         | with_reducible apply Firm.ite_snd
         | with_reducible apply Firm.foldl_snd
         | with_reducible apply countDiscarded_firm
         | with_reducible apply cutLane_firm
         | with_reducible apply modLinePort_firm
         | with_reducible apply modPlane_firm
         | split)
    | (intro x a hx)
    | (intro c; rfl)
    | (intro x hx; exact hx)
    | (intro x hx)
    | (intro x)
    | split
    | dsimp only

theorem takeover_firm {s0 s : State} {inj : Bool} {p : Nat} {cause : Nat} (h : Firm s0 s) : Firm s0 (takeover inj p cause s) := by
  unfold takeover
  try dsimp only
  repeat' first
    | with_reducible assumption
    | with_reducible apply Firm.ite
    | with_reducible apply Firm.foldl
    | with_reducible apply Firm.ite_snd
    | with_reducible apply Firm.foldl_snd
    | with_reducible apply bridge_firm
    | with_reducible apply countPlane_firm
    | with_reducible apply cutBursts_firm
    | with_reducible apply downstreamLost_firm
    | with_reducible apply enterHunt_firm
    | with_reducible apply enterState_firm
    | with_reducible apply frameLock_firm
    | with_reducible apply judgeAhead_firm
    | with_reducible apply modPlane_firm
    | with_reducible apply modProt_firm
    | with_reducible apply restartTraffic_firm
    | with_reducible apply restoreTerms_firm
    | with_reducible apply setEngine_firm
    | with_reducible apply takeoverEvent_firm
    | (refine Firm.mk' rfl rfl rfl rfl rfl rfl rfl rfl rfl rfl ?_
       first
         | with_reducible assumption
         | with_reducible apply Firm.ite
         | with_reducible apply Firm.foldl
         | with_reducible apply Firm.ite_snd
         | with_reducible apply Firm.foldl_snd
         | with_reducible apply bridge_firm
         | with_reducible apply countPlane_firm
         | with_reducible apply cutBursts_firm
         | with_reducible apply downstreamLost_firm
         | with_reducible apply enterHunt_firm
         | with_reducible apply enterState_firm
         | with_reducible apply frameLock_firm
         | with_reducible apply judgeAhead_firm
         | with_reducible apply modPlane_firm
         | with_reducible apply modProt_firm
         | with_reducible apply restartTraffic_firm
         | with_reducible apply restoreTerms_firm
         | with_reducible apply setEngine_firm
         | with_reducible apply takeoverEvent_firm
         | split)
    | (intro x a hx)
    | (intro c; rfl)
    | (intro x hx; exact hx)
    | (intro x hx)
    | (intro x)
    | split
    | dsimp only

theorem engineFaultEvent_firm {s0 s : State} {inj : Bool} {code : Nat} {cause : Nat} {stopped : Bool} (h : Firm s0 s) : Firm s0 (engineFaultEvent inj code cause stopped s) := by
  unfold engineFaultEvent
  try dsimp only
  repeat' first
    | with_reducible assumption
    | with_reducible apply Firm.ite
    | with_reducible apply Firm.foldl
    | with_reducible apply Firm.ite_snd
    | with_reducible apply Firm.foldl_snd
    | with_reducible apply raiseWith_firm
    | (refine Firm.mk' rfl rfl rfl rfl rfl rfl rfl rfl rfl rfl ?_
       first
         | with_reducible assumption
         | with_reducible apply Firm.ite
         | with_reducible apply Firm.foldl
         | with_reducible apply Firm.ite_snd
         | with_reducible apply Firm.foldl_snd
         | with_reducible apply raiseWith_firm
         | split)
    | (intro x a hx)
    | (intro c; rfl)
    | (intro x hx; exact hx)
    | (intro x hx)
    | (intro x)
    | split
    | dsimp only

theorem engineFault_firm {s0 s : State} {inj : Bool} {code : Nat} {cause : Nat} (h : Firm s0 s) : Firm s0 (engineFault inj code cause s) := by
  unfold engineFault
  try dsimp only
  repeat' first
    | with_reducible assumption
    | with_reducible apply Firm.ite
    | with_reducible apply Firm.foldl
    | with_reducible apply Firm.ite_snd
    | with_reducible apply Firm.foldl_snd
    | with_reducible apply abandonSwap_firm
    | with_reducible apply afterAction_firm
    | with_reducible apply engineFaultEvent_firm
    | with_reducible apply modHunter_firm
    | with_reducible apply setEngine_firm
    | with_reducible apply stopPlane_firm
    | with_reducible apply takeover_firm
    | (refine Firm.mk' rfl rfl rfl rfl rfl rfl rfl rfl rfl rfl ?_
       first
         | with_reducible assumption
         | with_reducible apply Firm.ite
         | with_reducible apply Firm.foldl
         | with_reducible apply Firm.ite_snd
         | with_reducible apply Firm.foldl_snd
         | with_reducible apply abandonSwap_firm
         | with_reducible apply afterAction_firm
         | with_reducible apply engineFaultEvent_firm
         | with_reducible apply modHunter_firm
         | with_reducible apply setEngine_firm
         | with_reducible apply stopPlane_firm
         | with_reducible apply takeover_firm
         | split)
    | (intro x a hx)
    | (intro c; rfl)
    | (intro x hx; exact hx)
    | (intro x hx)
    | (intro x)
    | split
    | dsimp only

end Sys2Proof.Machine
end

