-- ==== Sys2Proof/Laws/FirmViews.lean ====
section
/-!
SUPPORT. What the operations of Machine/Views.lean keep (`Firm`).
-/
set_option Elab.async false
set_option linter.unusedTactic false
set_option linter.unreachableTactic false
set_option linter.unusedVariables false
namespace Sys2Proof.Machine

theorem micChecked_firm {s0 s : State} {f : Nat} {good : Bool} (h : Firm s0 s) : Firm s0 (micChecked f good s) := by
  unfold micChecked
  try dsimp only
  repeat' first
    | with_reducible assumption
    | with_reducible apply Firm.ite
    | with_reducible apply Firm.foldl
    | with_reducible apply Firm.ite_snd
    | with_reducible apply Firm.foldl_snd
    | with_reducible apply countTerm_firm
    | with_reducible apply modTermLocal_firm
    | with_reducible apply termDefectEvent_firm
    | (refine Firm.mk' rfl rfl rfl rfl rfl rfl rfl rfl rfl rfl ?_
       first
         | with_reducible assumption
         | with_reducible apply Firm.ite
         | with_reducible apply Firm.foldl
         | with_reducible apply Firm.ite_snd
         | with_reducible apply Firm.foldl_snd
         | with_reducible apply countTerm_firm
         | with_reducible apply modTermLocal_firm
         | with_reducible apply termDefectEvent_firm
         | split)
    | (intro x a hx)
    | (intro c; rfl)
    | (intro x hx; exact hx)
    | (intro x hx)
    | (intro x)
    | split
    | dsimp only

theorem answer_firm {s0 s : State} {f : Nat} {m : UpBody} (h : Firm s0 s) : Firm s0 (answer f m s) := by
  unfold answer
  try dsimp only
  repeat' first
    | with_reducible assumption
    | with_reducible apply Firm.ite
    | with_reducible apply Firm.foldl
    | with_reducible apply Firm.ite_snd
    | with_reducible apply Firm.foldl_snd
    | with_reducible apply queueUp_firm
    | (refine Firm.mk' rfl rfl rfl rfl rfl rfl rfl rfl rfl rfl ?_
       first
         | with_reducible assumption
         | with_reducible apply Firm.ite
         | with_reducible apply Firm.foldl
         | with_reducible apply Firm.ite_snd
         | with_reducible apply Firm.foldl_snd
         | with_reducible apply queueUp_firm
         | split)
    | (intro x a hx)
    | (intro c; rfl)
    | (intro x hx; exact hx)
    | (intro x hx)
    | (intro x)
    | split
    | dsimp only

theorem acknowledge_firm {s0 s : State} {f : Nat} {code : Nat} (h : Firm s0 s) : Firm s0 (acknowledge f code s) := by
  unfold acknowledge
  try dsimp only
  repeat' first
    | with_reducible assumption
    | with_reducible apply Firm.ite
    | with_reducible apply Firm.foldl
    | with_reducible apply Firm.ite_snd
    | with_reducible apply Firm.foldl_snd
    | with_reducible apply answer_firm
    | (refine Firm.mk' rfl rfl rfl rfl rfl rfl rfl rfl rfl rfl ?_
       first
         | with_reducible assumption
         | with_reducible apply Firm.ite
         | with_reducible apply Firm.foldl
         | with_reducible apply Firm.ite_snd
         | with_reducible apply Firm.foldl_snd
         | with_reducible apply answer_firm
         | split)
    | (intro x a hx)
    | (intro c; rfl)
    | (intro x hx; exact hx)
    | (intro x hx)
    | (intro x)
    | split
    | dsimp only

theorem assignOnu_firm {s0 s : State} {f : Nat} {onu : Nat} (h : Firm s0 s) : Firm s0 (assignOnu f onu s) := by
  unfold assignOnu
  try dsimp only
  repeat' first
    | with_reducible assumption
    | with_reducible apply Firm.ite
    | with_reducible apply Firm.foldl
    | with_reducible apply Firm.ite_snd
    | with_reducible apply Firm.foldl_snd
    | with_reducible apply allocEvent_firm
    | with_reducible apply enterState_firm
    | with_reducible apply judgeAhead_firm
    | with_reducible apply modTermLocal_firm
    | with_reducible apply setAlloc_firm
    | (refine Firm.mk' rfl rfl rfl rfl rfl rfl rfl rfl rfl rfl ?_
       first
         | with_reducible assumption
         | with_reducible apply Firm.ite
         | with_reducible apply Firm.foldl
         | with_reducible apply Firm.ite_snd
         | with_reducible apply Firm.foldl_snd
         | with_reducible apply allocEvent_firm
         | with_reducible apply enterState_firm
         | with_reducible apply judgeAhead_firm
         | with_reducible apply modTermLocal_firm
         | with_reducible apply setAlloc_firm
         | split)
    | (intro x a hx)
    | (intro c; rfl)
    | (intro x hx; exact hx)
    | (intro x hx)
    | (intro x)
    | split
    | dsimp only

theorem rangingTime_firm {s0 s : State} {f : Nat} {eqd : Nat} {ack : Bool} {st : Nat} (h : Firm s0 s) : Firm s0 (rangingTime f eqd ack st s) := by
  unfold rangingTime
  try dsimp only
  repeat' first
    | with_reducible assumption
    | with_reducible apply Firm.ite
    | with_reducible apply Firm.foldl
    | with_reducible apply Firm.ite_snd
    | with_reducible apply Firm.foldl_snd
    | with_reducible apply acknowledge_firm
    | with_reducible apply enterState_firm
    | with_reducible apply modTerm_firm
    | (refine Firm.mk' rfl rfl rfl rfl rfl rfl rfl rfl rfl rfl ?_
       first
         | with_reducible assumption
         | with_reducible apply Firm.ite
         | with_reducible apply Firm.foldl
         | with_reducible apply Firm.ite_snd
         | with_reducible apply Firm.foldl_snd
         | with_reducible apply acknowledge_firm
         | with_reducible apply enterState_firm
         | with_reducible apply modTerm_firm
         | split)
    | (intro x a hx)
    | (intro c; rfl)
    | (intro x hx; exact hx)
    | (intro x hx)
    | (intro x)
    | split
    | dsimp only

theorem assignAlloc_firm {s0 s : State} {f : Nat} {alloc : Nat} {release : Bool} {ack : Bool} {t : Term} (h : Firm s0 s) : Firm s0 (assignAlloc f alloc release ack t s) := by
  unfold assignAlloc
  try dsimp only
  repeat' first
    | with_reducible assumption
    | with_reducible apply Firm.ite
    | with_reducible apply Firm.foldl
    | with_reducible apply Firm.ite_snd
    | with_reducible apply Firm.foldl_snd
    | with_reducible apply acknowledge_firm
    | with_reducible apply allocEvent_firm
    | with_reducible apply setAlloc_firm
    | (refine Firm.mk' rfl rfl rfl rfl rfl rfl rfl rfl rfl rfl ?_
       first
         | with_reducible assumption
         | with_reducible apply Firm.ite
         | with_reducible apply Firm.foldl
         | with_reducible apply Firm.ite_snd
         | with_reducible apply Firm.foldl_snd
         | with_reducible apply acknowledge_firm
         | with_reducible apply allocEvent_firm
         | with_reducible apply setAlloc_firm
         | split)
    | (intro x a hx)
    | (intro c; rfl)
    | (intro x hx; exact hx)
    | (intro x hx)
    | (intro x)
    | split
    | dsimp only

theorem reportKey_firm {s0 s : State} {f : Nat} {i : Nat} {t : Term} (h : Firm s0 s) : Firm s0 (reportKey f i t s) := by
  unfold reportKey
  try dsimp only
  repeat' first
    | with_reducible assumption
    | with_reducible apply Firm.ite
    | with_reducible apply Firm.foldl
    | with_reducible apply Firm.ite_snd
    | with_reducible apply Firm.foldl_snd
    | with_reducible apply answer_firm
    | with_reducible apply countTerm_firm
    | (refine Firm.mk' rfl rfl rfl rfl rfl rfl rfl rfl rfl rfl ?_
       first
         | with_reducible assumption
         | with_reducible apply Firm.ite
         | with_reducible apply Firm.foldl
         | with_reducible apply Firm.ite_snd
         | with_reducible apply Firm.foldl_snd
         | with_reducible apply answer_firm
         | with_reducible apply countTerm_firm
         | split)
    | (intro x a hx)
    | (intro c; rfl)
    | (intro x hx; exact hx)
    | (intro x hx)
    | (intro x)
    | split
    | dsimp only

theorem keyControl_firm {s0 s : State} {f : Nat} {i : Nat} {fresh : Bool} {t : Term} (h : Firm s0 s) : Firm s0 (keyControl f i fresh t s).2 := by
  unfold keyControl
  try dsimp only
  repeat' first
    | with_reducible assumption
    | with_reducible apply Firm.ite
    | with_reducible apply Firm.foldl
    | with_reducible apply Firm.ite_snd
    | with_reducible apply Firm.foldl_snd
    | with_reducible apply countTerm_firm
    | with_reducible apply drawDrbg_firm
    | with_reducible apply modSlot_firm
    | with_reducible apply reportKey_firm
    | with_reducible apply touchLine_firm
    | (refine Firm.mk' rfl rfl rfl rfl rfl rfl rfl rfl rfl rfl ?_
       first
         | with_reducible assumption
         | with_reducible apply Firm.ite
         | with_reducible apply Firm.foldl
         | with_reducible apply Firm.ite_snd
         | with_reducible apply Firm.foldl_snd
         | with_reducible apply countTerm_firm
         | with_reducible apply drawDrbg_firm
         | with_reducible apply modSlot_firm
         | with_reducible apply reportKey_firm
         | with_reducible apply touchLine_firm
         | split)
    | (intro x a hx)
    | (intro c; rfl)
    | (intro x hx; exact hx)
    | (intro x hx)
    | (intro x)
    | split
    | dsimp only

theorem takeBody_firm {s0 s : State} {f : Nat} {m : DsMsg} {t : Term} (h : Firm s0 s) : Firm s0 (takeBody f m t s).2 := by
  unfold takeBody
  try dsimp only
  repeat' first
    | with_reducible assumption
    | with_reducible apply Firm.ite
    | with_reducible apply Firm.foldl
    | with_reducible apply Firm.ite_snd
    | with_reducible apply Firm.foldl_snd
    | with_reducible apply answer_firm
    | with_reducible apply assignAlloc_firm
    | with_reducible apply assignOnu_firm
    | with_reducible apply enterState_firm
    | with_reducible apply keyControl_firm
    | with_reducible apply rangingTime_firm
    | (refine Firm.mk' rfl rfl rfl rfl rfl rfl rfl rfl rfl rfl ?_
       first
         | with_reducible assumption
         | with_reducible apply Firm.ite
         | with_reducible apply Firm.foldl
         | with_reducible apply Firm.ite_snd
         | with_reducible apply Firm.foldl_snd
         | with_reducible apply answer_firm
         | with_reducible apply assignAlloc_firm
         | with_reducible apply assignOnu_firm
         | with_reducible apply enterState_firm
         | with_reducible apply keyControl_firm
         | with_reducible apply rangingTime_firm
         | split)
    | (intro x a hx)
    | (intro c; rfl)
    | (intro x hx; exact hx)
    | (intro x hx)
    | (intro x)
    | split
    | dsimp only

theorem viewMessage_firm {s0 s : State} {f : Nat} {m : DsMsg} {t : Term} (h : Firm s0 s) : Firm s0 (viewMessage f m t s) := by
  unfold viewMessage
  try dsimp only
  repeat' first
    | with_reducible assumption
    | with_reducible apply Firm.ite
    | with_reducible apply Firm.foldl
    | with_reducible apply Firm.ite_snd
    | with_reducible apply Firm.foldl_snd
    | with_reducible apply countTerm_firm
    | with_reducible apply hostPloam_firm
    | with_reducible apply micChecked_firm
    | with_reducible apply takeBody_firm
    | (refine Firm.mk' rfl rfl rfl rfl rfl rfl rfl rfl rfl rfl ?_
       first
         | with_reducible assumption
         | with_reducible apply Firm.ite
         | with_reducible apply Firm.foldl
         | with_reducible apply Firm.ite_snd
         | with_reducible apply Firm.foldl_snd
         | with_reducible apply countTerm_firm
         | with_reducible apply hostPloam_firm
         | with_reducible apply micChecked_firm
         | with_reducible apply takeBody_firm
         | split)
    | (intro x a hx)
    | (intro c; rfl)
    | (intro x hx; exact hx)
    | (intro x hx)
    | (intro x)
    | split
    | dsimp only

theorem actOn_firm {s0 s : State} {f : Nat} {m : DsMsg} {t : Term} (h : Firm s0 s) : Firm s0 (actOn f m t s) := by
  unfold actOn
  try dsimp only
  repeat' first
    | with_reducible assumption
    | with_reducible apply Firm.ite
    | with_reducible apply Firm.foldl
    | with_reducible apply Firm.ite_snd
    | with_reducible apply Firm.foldl_snd
    | with_reducible apply passAhead_firm
    | with_reducible apply viewMessage_firm
    | (refine Firm.mk' rfl rfl rfl rfl rfl rfl rfl rfl rfl rfl ?_
       first
         | with_reducible assumption
         | with_reducible apply Firm.ite
         | with_reducible apply Firm.foldl
         | with_reducible apply Firm.ite_snd
         | with_reducible apply Firm.foldl_snd
         | with_reducible apply passAhead_firm
         | with_reducible apply viewMessage_firm
         | split)
    | (intro x a hx)
    | (intro c; rfl)
    | (intro x hx; exact hx)
    | (intro x hx)
    | (intro x)
    | split
    | dsimp only

theorem joinTo2_firm {s0 s : State} {f : Nat} (h : Firm s0 s) : Firm s0 (joinTo2 f s) := by
  unfold joinTo2
  try dsimp only
  repeat' first
    | with_reducible assumption
    | with_reducible apply Firm.ite
    | with_reducible apply Firm.foldl
    | with_reducible apply Firm.ite_snd
    | with_reducible apply Firm.foldl_snd
    | with_reducible apply modPlane_firm
    | with_reducible apply startBulk_firm
    | (refine Firm.mk' rfl rfl rfl rfl rfl rfl rfl rfl rfl rfl ?_
       first
         | with_reducible assumption
         | with_reducible apply Firm.ite
         | with_reducible apply Firm.foldl
         | with_reducible apply Firm.ite_snd
         | with_reducible apply Firm.foldl_snd
         | with_reducible apply modPlane_firm
         | with_reducible apply startBulk_firm
         | split)
    | (intro x a hx)
    | (intro c; rfl)
    | (intro x hx; exact hx)
    | (intro x hx)
    | (intro x)
    | split
    | dsimp only

theorem startTo2_firm {s0 s : State} {f : Nat} (h : Firm s0 s) : Firm s0 (startTo2 f s) := by
  unfold startTo2
  try dsimp only
  repeat' first
    | with_reducible assumption
    | with_reducible apply Firm.ite
    | with_reducible apply Firm.foldl
    | with_reducible apply Firm.ite_snd
    | with_reducible apply Firm.foldl_snd
    | with_reducible apply joinTo2_firm
    | with_reducible apply modTermLocal_firm
    | (refine Firm.mk' rfl rfl rfl rfl rfl rfl rfl rfl rfl rfl ?_
       first
         | with_reducible assumption
         | with_reducible apply Firm.ite
         | with_reducible apply Firm.foldl
         | with_reducible apply Firm.ite_snd
         | with_reducible apply Firm.foldl_snd
         | with_reducible apply joinTo2_firm
         | with_reducible apply modTermLocal_firm
         | split)
    | (intro x a hx)
    | (intro c; rfl)
    | (intro x hx; exact hx)
    | (intro x hx)
    | (intro x)
    | split
    | dsimp only

theorem bulkStep_firm {s0 s : State} {f : Nat} {n : Nat} {b : Bulk} {st : Nat} (h : Firm s0 s) : Firm s0 (bulkStep f n b st s) := by
  unfold bulkStep
  try dsimp only
  repeat' first
    | with_reducible assumption
    | with_reducible apply Firm.ite
    | with_reducible apply Firm.foldl
    | with_reducible apply Firm.ite_snd
    | with_reducible apply Firm.foldl_snd
    | with_reducible apply actedBulk_firm
    | with_reducible apply enterState_firm
    | with_reducible apply modTermLocal_firm
    | with_reducible apply passAhead_firm
    | with_reducible apply startTo2_firm
    | (refine Firm.mk' rfl rfl rfl rfl rfl rfl rfl rfl rfl rfl ?_
       first
         | with_reducible assumption
         | with_reducible apply Firm.ite
         | with_reducible apply Firm.foldl
         | with_reducible apply Firm.ite_snd
         | with_reducible apply Firm.foldl_snd
         | with_reducible apply actedBulk_firm
         | with_reducible apply enterState_firm
         | with_reducible apply modTermLocal_firm
         | with_reducible apply passAhead_firm
         | with_reducible apply startTo2_firm
         | split)
    | (intro x a hx)
    | (intro c; rfl)
    | (intro x hx; exact hx)
    | (intro x hx)
    | (intro x)
    | split
    | dsimp only

theorem ahead_firm {s0 s : State} {f : Nat} (h : Firm s0 s) : Firm s0 (ahead f s) := by
  unfold ahead
  try dsimp only
  repeat' first
    | with_reducible assumption
    | with_reducible apply Firm.ite
    | with_reducible apply Firm.foldl
    | with_reducible apply Firm.ite_snd
    | with_reducible apply Firm.foldl_snd
    | with_reducible apply actOn_firm
    | with_reducible apply bulkStep_firm
    | (refine Firm.mk' rfl rfl rfl rfl rfl rfl rfl rfl rfl rfl ?_
       first
         | with_reducible assumption
         | with_reducible apply Firm.ite
         | with_reducible apply Firm.foldl
         | with_reducible apply Firm.ite_snd
         | with_reducible apply Firm.foldl_snd
         | with_reducible apply actOn_firm
         | with_reducible apply bulkStep_firm
         | split)
    | (intro x a hx)
    | (intro c; rfl)
    | (intro x hx; exact hx)
    | (intro x hx)
    | (intro x)
    | split
    | dsimp only

theorem viewed_firm {s0 s : State} {p : Nat} (h : Firm s0 s) : Firm s0 (viewed s p) := by
  unfold viewed
  try dsimp only
  repeat' first
    | with_reducible assumption
    | with_reducible apply Firm.ite
    | with_reducible apply Firm.foldl
    | with_reducible apply Firm.ite_snd
    | with_reducible apply Firm.foldl_snd
    | with_reducible apply ahead_firm
    | (refine Firm.mk' rfl rfl rfl rfl rfl rfl rfl rfl rfl rfl ?_
       first
         | with_reducible assumption
         | with_reducible apply Firm.ite
         | with_reducible apply Firm.foldl
         | with_reducible apply Firm.ite_snd
         | with_reducible apply Firm.foldl_snd
         | with_reducible apply ahead_firm
         | split)
    | (intro x a hx)
    | (intro c; rfl)
    | (intro x hx; exact hx)
    | (intro x hx)
    | (intro x)
    | split
    | dsimp only

end Sys2Proof.Machine
end

