-- ==== Sys2Proof/Laws/FirmFilling.lean ====
section
/-!
SUPPORT. What the operations of Machine/Filling.lean keep (`Firm`).
-/
set_option Elab.async false
set_option linter.unusedTactic false
set_option linter.unreachableTactic false
set_option linter.unusedVariables false
namespace Sys2Proof.Machine

theorem modQueue_firm {s0 s : State} {q : Nat} {f : AQueue → AQueue} (h : Firm s0 s) : Firm s0 (modQueue q f s) := by
  unfold modQueue
  try dsimp only
  repeat' first
    | with_reducible assumption
    | with_reducible apply Firm.ite
    | with_reducible apply Firm.foldl
    | with_reducible apply Firm.ite_snd
    | with_reducible apply Firm.foldl_snd
    | (refine Firm.mk' rfl rfl rfl rfl rfl rfl rfl rfl rfl rfl ?_
       first
         | with_reducible assumption
         | with_reducible apply Firm.ite
         | with_reducible apply Firm.foldl
         | with_reducible apply Firm.ite_snd
         | with_reducible apply Firm.foldl_snd
         | split)
    | (intro x a hx)
    | (intro c; rfl)
    | (intro x hx; exact hx)
    | (intro x hx)
    | (intro x)
    | split
    | dsimp only

theorem countQueue_firm {s0 s : State} {q : Nat} {off : Nat} {k : Nat} (h : Firm s0 s) : Firm s0 (countQueue q off k s) := by
  unfold countQueue
  try dsimp only
  repeat' first
    | with_reducible assumption
    | with_reducible apply Firm.ite
    | with_reducible apply Firm.foldl
    | with_reducible apply Firm.ite_snd
    | with_reducible apply Firm.foldl_snd
    | with_reducible apply modQueue_firm
    | (refine Firm.mk' rfl rfl rfl rfl rfl rfl rfl rfl rfl rfl ?_
       first
         | with_reducible assumption
         | with_reducible apply Firm.ite
         | with_reducible apply Firm.foldl
         | with_reducible apply Firm.ite_snd
         | with_reducible apply Firm.foldl_snd
         | with_reducible apply modQueue_firm
         | split)
    | (intro x a hx)
    | (intro c; rfl)
    | (intro x hx; exact hx)
    | (intro x hx)
    | (intro x)
    | split
    | dsimp only

theorem modDesc_firm {s0 s : State} {d : Nat} {f : Desc → Desc} (h : Firm s0 s) : Firm s0 (modDesc d f s) := by
  unfold modDesc
  try dsimp only
  repeat' first
    | with_reducible assumption
    | with_reducible apply Firm.ite
    | with_reducible apply Firm.foldl
    | with_reducible apply Firm.ite_snd
    | with_reducible apply Firm.foldl_snd
    | (refine Firm.mk' rfl rfl rfl rfl rfl rfl rfl rfl rfl rfl ?_
       first
         | with_reducible assumption
         | with_reducible apply Firm.ite
         | with_reducible apply Firm.foldl
         | with_reducible apply Firm.ite_snd
         | with_reducible apply Firm.foldl_snd
         | split)
    | (intro x a hx)
    | (intro c; rfl)
    | (intro x hx; exact hx)
    | (intro x hx)
    | (intro x)
    | split
    | dsimp only

theorem entryLen_firm {s0 s : State} {a : Nat} (h : Firm s0 s) : Firm s0 (entryLen a s).2 := by
  unfold entryLen
  try dsimp only
  repeat' first
    | with_reducible assumption
    | with_reducible apply Firm.ite
    | with_reducible apply Firm.foldl
    | with_reducible apply Firm.ite_snd
    | with_reducible apply Firm.foldl_snd
    | with_reducible apply drawFree_firm
    | with_reducible apply storeRead_firm
    | (refine Firm.mk' rfl rfl rfl rfl rfl rfl rfl rfl rfl rfl ?_
       first
         | with_reducible assumption
         | with_reducible apply Firm.ite
         | with_reducible apply Firm.foldl
         | with_reducible apply Firm.ite_snd
         | with_reducible apply Firm.foldl_snd
         | with_reducible apply drawFree_firm
         | with_reducible apply storeRead_firm
         | split)
    | (intro x a hx)
    | (intro c; rfl)
    | (intro x hx; exact hx)
    | (intro x hx)
    | (intro x)
    | split
    | dsimp only

theorem peekList_firm {s0 s : State} {k : Nat} (h : Firm s0 s) : Firm s0 (peekList k s).2 := by
  unfold peekList
  try dsimp only
  repeat' first
    | with_reducible assumption
    | with_reducible apply Firm.ite
    | with_reducible apply Firm.foldl
    | with_reducible apply Firm.ite_snd
    | with_reducible apply Firm.foldl_snd
    | with_reducible apply entryLen_firm
    | with_reducible apply modDesc_firm
    | (refine Firm.mk' rfl rfl rfl rfl rfl rfl rfl rfl rfl rfl ?_
       first
         | with_reducible assumption
         | with_reducible apply Firm.ite
         | with_reducible apply Firm.foldl
         | with_reducible apply Firm.ite_snd
         | with_reducible apply Firm.foldl_snd
         | with_reducible apply entryLen_firm
         | with_reducible apply modDesc_firm
         | split)
    | (intro x a hx)
    | (intro c; rfl)
    | (intro x hx; exact hx)
    | (intro x hx)
    | (intro x)
    | split
    | dsimp only

theorem peek_firm {s0 s : State} {k : Nat} (h : Firm s0 s) : Firm s0 (peek k s).2 := by
  unfold peek
  try dsimp only
  repeat' first
    | with_reducible assumption
    | with_reducible apply Firm.ite
    | with_reducible apply Firm.foldl
    | with_reducible apply Firm.ite_snd
    | with_reducible apply Firm.foldl_snd
    | with_reducible apply peekList_firm
    | (refine Firm.mk' rfl rfl rfl rfl rfl rfl rfl rfl rfl rfl ?_
       first
         | with_reducible assumption
         | with_reducible apply Firm.ite
         | with_reducible apply Firm.foldl
         | with_reducible apply Firm.ite_snd
         | with_reducible apply Firm.foldl_snd
         | with_reducible apply peekList_firm
         | split)
    | (intro x a hx)
    | (intro c; rfl)
    | (intro x hx; exact hx)
    | (intro x hx)
    | (intro x)
    | split
    | dsimp only

theorem advance_firm {s0 s : State} {k : Nat} {n : Nat} {src : Nat} (h : Firm s0 s) : Firm s0 (advance k n src s) := by
  unfold advance
  try dsimp only
  repeat' first
    | with_reducible assumption
    | with_reducible apply Firm.ite
    | with_reducible apply Firm.foldl
    | with_reducible apply Firm.ite_snd
    | with_reducible apply Firm.foldl_snd
    | with_reducible apply modDesc_firm
    | (refine Firm.mk' rfl rfl rfl rfl rfl rfl rfl rfl rfl rfl ?_
       first
         | with_reducible assumption
         | with_reducible apply Firm.ite
         | with_reducible apply Firm.foldl
         | with_reducible apply Firm.ite_snd
         | with_reducible apply Firm.foldl_snd
         | with_reducible apply modDesc_firm
         | split)
    | (intro x a hx)
    | (intro c; rfl)
    | (intro x hx; exact hx)
    | (intro x hx)
    | (intro x)
    | split
    | dsimp only

theorem refuse_firm {s0 s : State} {p : Nat} {k : Nat} {ctx : Nat} {cause : Nat} (h : Firm s0 s) : Firm s0 (refuse p k ctx cause s) := by
  unfold refuse
  try dsimp only
  repeat' first
    | with_reducible assumption
    | with_reducible apply Firm.ite
    | with_reducible apply Firm.foldl
    | with_reducible apply Firm.ite_snd
    | with_reducible apply Firm.foldl_snd
    | with_reducible apply countSpout_firm
    | with_reducible apply modDesc_firm
    | with_reducible apply raise_firm
    | (refine Firm.mk' rfl rfl rfl rfl rfl rfl rfl rfl rfl rfl ?_
       first
         | with_reducible assumption
         | with_reducible apply Firm.ite
         | with_reducible apply Firm.foldl
         | with_reducible apply Firm.ite_snd
         | with_reducible apply Firm.foldl_snd
         | with_reducible apply countSpout_firm
         | with_reducible apply modDesc_firm
         | with_reducible apply raise_firm
         | split)
    | (intro x a hx)
    | (intro c; rfl)
    | (intro x hx; exact hx)
    | (intro x hx)
    | (intro x)
    | split
    | dsimp only

theorem headerKey_firm {s0 s : State} {f : Nat} (h : Firm s0 s) : Firm s0 (headerKey f s).2 := by
  unfold headerKey
  try dsimp only
  repeat' first
    | with_reducible assumption
    | with_reducible apply Firm.ite
    | with_reducible apply Firm.foldl
    | with_reducible apply Firm.ite_snd
    | with_reducible apply Firm.foldl_snd
    | with_reducible apply useItem_firm
    | (refine Firm.mk' rfl rfl rfl rfl rfl rfl rfl rfl rfl rfl ?_
       first
         | with_reducible assumption
         | with_reducible apply Firm.ite
         | with_reducible apply Firm.foldl
         | with_reducible apply Firm.ite_snd
         | with_reducible apply Firm.foldl_snd
         | with_reducible apply useItem_firm
         | split)
    | (intro x a hx)
    | (intro c; rfl)
    | (intro x hx; exact hx)
    | (intro x hx)
    | (intro x)
    | split
    | dsimp only

theorem headerMask_firm {s0 s : State} {f : Nat} (h : Firm s0 s) : Firm s0 (headerMask f s).2 := by
  unfold headerMask
  try dsimp only
  repeat' first
    | with_reducible assumption
    | with_reducible apply Firm.ite
    | with_reducible apply Firm.foldl
    | with_reducible apply Firm.ite_snd
    | with_reducible apply Firm.foldl_snd
    | with_reducible apply useItem_firm
    | (refine Firm.mk' rfl rfl rfl rfl rfl rfl rfl rfl rfl rfl ?_
       first
         | with_reducible assumption
         | with_reducible apply Firm.ite
         | with_reducible apply Firm.foldl
         | with_reducible apply Firm.ite_snd
         | with_reducible apply Firm.foldl_snd
         | with_reducible apply useItem_firm
         | split)
    | (intro x a hx)
    | (intro c; rfl)
    | (intro x hx; exact hx)
    | (intro x hx)
    | (intro x)
    | split
    | dsimp only

theorem addFrame_firm {s0 : State} {f : Nat} {u : UpFrame} {x : Fill} (h : Firm s0 x.s) : Firm s0 (addFrame f u x).s := by
  unfold addFrame
  exact headerMask_firm (headerKey_firm h)

theorem fillCut_firm {s0 : State} {f q : Nat} {x : Fill} (h : Firm s0 x.s) : Firm s0 (fillCut f q x).s := by
  unfold fillCut
  dsimp only
  split
  · exact h
  · split
    · exact modQueue_firm (addFrame_firm h)
    · split
      · exact h
      · exact modQueue_firm (addFrame_firm h)

theorem fillOmci_firm {s0 : State} {f n : Nat} {x : Fill} (h : Firm s0 x.s) : Firm s0 (fillOmci f n x).s := by
  induction n generalizing x with
  | zero => exact h
  | succ n ih =>
    unfold fillOmci
    split
    · exact h
    · split
      · exact h
      · dsimp only
        split
        · exact modQueue_firm h
        · exact ih (modTerm_firm (addFrame_firm h))

theorem takeFrame_firm {s0 : State} {f q m k n src take : Nat} {c : PortCtx} {x : Fill} (h : Firm s0 x.s) : Firm s0 (takeFrame f q m k n src take c x).s := by
  unfold takeFrame
  dsimp only
  split
  · exact advance_firm (modQueue_firm (addFrame_firm h))
  · exact advance_firm (modQueue_firm (addFrame_firm h))

theorem fill_ite {s0 : State} {a b : Fill} {c : Prop} [Decidable c] (ha : Firm s0 a.s) (hb : Firm s0 b.s) :
    Firm s0 (if c then a else b).s := by
  split <;> assumption

theorem offerContext_firm {s0 : State} {f q m : Nat} {page : AmapPage} {x : Fill} (h : Firm s0 x.s) :
    Firm s0 (offerContext f q page x m).s := by
  unfold offerContext
  split
  · exact h
  · dsimp only
    refine fill_ite h ?_
    split
    · exact h
    · split
      · exact refuse_firm (peek_firm h)
      · refine fill_ite (countQueue_firm (advance_firm (modDesc_firm (peek_firm h)))) ?_
        refine fill_ite (modDesc_firm (peek_firm h)) ?_
        exact fill_ite (modDesc_firm (peek_firm h)) (takeFrame_firm (modDesc_firm (peek_firm h)))

theorem offerAll_firm {s0 : State} {f q : Nat} {page : AmapPage} {l : List Nat} {x : Fill} (h : Firm s0 x.s) :
    Firm s0 (l.foldl (offerContext f q page) x).s := by
  induction l generalizing x with
  | nil => exact h
  | cons a l ih => exact ih (offerContext_firm h)

theorem fillTurns_firm {s0 : State} {f q n : Nat} {page : AmapPage} {x : Fill} (h : Firm s0 x.s) :
    Firm s0 (fillTurns f q page n x).s := by
  induction n generalizing x with
  | zero => exact h
  | succ n ih =>
    unfold fillTurns
    dsimp only
    split
    · exact ih (offerAll_firm h)
    · exact offerAll_firm h

theorem fillIdle_firm {s0 : State} {f : Nat} {x : Fill} (h : Firm s0 x.s) : Firm s0 (fillIdle f x).s := by
  unfold fillIdle
  dsimp only
  split
  · exact headerMask_firm h
  · split <;> exact h

theorem fillAlloc_firm {s0 s : State} {f q room st : Nat} {page : AmapPage} {sn : Bool} (h : Firm s0 s) :
    Firm s0 (fillAlloc f q room st page sn s).2 := by
  have k : Firm s0 (if sn then s else countQueue (4 * f + q) 16 1 s) := Firm.ite h (countQueue_firm h)
  unfold fillAlloc
  dsimp only
  generalize (if sn then s else countQueue (4 * f + q) 16 1 s) = s1 at k ⊢
  apply Firm.ite
  · apply countQueue_firm
    apply fillIdle_firm
    split
    · apply fillTurns_firm
      split
      · exact fillOmci_firm (modQueue_firm (fillCut_firm k))
      · exact fillCut_firm k
    · exact k
  · apply fillIdle_firm
    split
    · apply fillTurns_firm
      split
      · exact fillOmci_firm (modQueue_firm (fillCut_firm k))
      · exact fillCut_firm k
    · exact k

theorem dbruOf_firm {s0 s : State} {f : Nat} {q : Nat} {st : Nat} {sn : Bool} (h : Firm s0 s) : Firm s0 (dbruOf f q st sn s).2 := by
  unfold dbruOf
  try dsimp only
  repeat' first
    | with_reducible assumption
    | with_reducible apply Firm.ite
    | with_reducible apply Firm.foldl
    | with_reducible apply Firm.ite_snd
    | with_reducible apply Firm.foldl_snd
    | with_reducible apply useItem_firm
    | (refine Firm.mk' rfl rfl rfl rfl rfl rfl rfl rfl rfl rfl ?_
       first
         | with_reducible assumption
         | with_reducible apply Firm.ite
         | with_reducible apply Firm.foldl
         | with_reducible apply Firm.ite_snd
         | with_reducible apply Firm.foldl_snd
         | with_reducible apply useItem_firm
         | split)
    | (intro x a hx)
    | (intro c; rfl)
    | (intro x hx; exact hx)
    | (intro x hx)
    | (intro x)
    | split
    | dsimp only

end Sys2Proof.Machine
end

