-- ==== Sys2Proof/Laws/FirmSpout.lean ====
section
/-!
SUPPORT. What the operations of Machine/Spout.lean keep (`Firm`).
-/
set_option Elab.async false
set_option linter.unusedTactic false
set_option linter.unreachableTactic false
set_option linter.unusedVariables false
namespace Sys2Proof.Machine

theorem noChain_firm {s0 s : State} {p : Nat} (h : Firm s0 s) : Firm s0 (noChain p s) := by
  unfold noChain
  try dsimp only
  repeat' first
    | with_reducible assumption
    | with_reducible apply Firm.ite
    | with_reducible apply Firm.foldl
    | with_reducible apply Firm.ite_snd
    | with_reducible apply Firm.foldl_snd
    | with_reducible apply modPlane_firm
    | (refine Firm.mk' rfl rfl rfl rfl rfl rfl rfl rfl rfl rfl ?_
       first
         | with_reducible assumption
         | with_reducible apply Firm.ite
         | with_reducible apply Firm.foldl
         | with_reducible apply Firm.ite_snd
         | with_reducible apply Firm.foldl_snd
         | with_reducible apply modPlane_firm
         | split)
    | (intro x a hx)
    | (intro c; rfl)
    | (intro x hx; exact hx)
    | (intro x hx)
    | (intro x)
    | split
    | dsimp only

theorem ignoreGrant_firm {s0 s : State} {p : Nat} {off : Nat} (h : Firm s0 s) : Firm s0 (ignoreGrant p off s) := by
  unfold ignoreGrant
  try dsimp only
  repeat' first
    | with_reducible assumption
    | with_reducible apply Firm.ite
    | with_reducible apply Firm.foldl
    | with_reducible apply Firm.ite_snd
    | with_reducible apply Firm.foldl_snd
    | with_reducible apply countSpout_firm
    | with_reducible apply noChain_firm
    | (refine Firm.mk' rfl rfl rfl rfl rfl rfl rfl rfl rfl rfl ?_
       first
         | with_reducible assumption
         | with_reducible apply Firm.ite
         | with_reducible apply Firm.foldl
         | with_reducible apply Firm.ite_snd
         | with_reducible apply Firm.foldl_snd
         | with_reducible apply countSpout_firm
         | with_reducible apply noChain_firm
         | split)
    | (intro x a hx)
    | (intro c; rfl)
    | (intro x hx; exact hx)
    | (intro x hx)
    | (intro x)
    | split
    | dsimp only

theorem newBurst_firm {s0 s : State} {p : Nat} {f : Nat} {j : Nat} {queue : Nat} {g : OpenGrant} {t : Term} (h : Firm s0 s) : Firm s0 (newBurst p f j queue g t s) := by
  unfold newBurst
  try dsimp only
  repeat' first
    | with_reducible assumption
    | with_reducible apply Firm.ite
    | with_reducible apply Firm.foldl
    | with_reducible apply Firm.ite_snd
    | with_reducible apply Firm.foldl_snd
    | with_reducible apply modPlane_firm
    | (refine Firm.mk' rfl rfl rfl rfl rfl rfl rfl rfl rfl rfl ?_
       first
         | with_reducible assumption
         | with_reducible apply Firm.ite
         | with_reducible apply Firm.foldl
         | with_reducible apply Firm.ite_snd
         | with_reducible apply Firm.foldl_snd
         | with_reducible apply modPlane_firm
         | split)
    | (intro x a hx)
    | (intro c; rfl)
    | (intro x hx; exact hx)
    | (intro x hx)
    | (intro x)
    | split
    | dsimp only

theorem startGrant_firm {s0 s : State} {p : Nat} {who : List Nat} {queue : Nat} {a : AllocStruct} {v : State} (h : Firm s0 s) : Firm s0 (startGrant p who queue a v s) := by
  unfold startGrant
  try dsimp only
  repeat' first
    | with_reducible assumption
    | with_reducible apply Firm.ite
    | with_reducible apply Firm.foldl
    | with_reducible apply Firm.ite_snd
    | with_reducible apply Firm.foldl_snd
    | with_reducible apply drawDrbg_firm
    | with_reducible apply ignoreGrant_firm
    | with_reducible apply newBurst_firm
    | (refine Firm.mk' rfl rfl rfl rfl rfl rfl rfl rfl rfl rfl ?_
       first
         | with_reducible assumption
         | with_reducible apply Firm.ite
         | with_reducible apply Firm.foldl
         | with_reducible apply Firm.ite_snd
         | with_reducible apply Firm.foldl_snd
         | with_reducible apply drawDrbg_firm
         | with_reducible apply ignoreGrant_firm
         | with_reducible apply newBurst_firm
         | split)
    | (intro x a hx)
    | (intro c; rfl)
    | (intro x hx; exact hx)
    | (intro x hx)
    | (intro x)
    | split
    | dsimp only

theorem chainGrant_firm {s0 s : State} {p : Nat} {f : Nat} {queue : Nat} {a : AllocStruct} (h : Firm s0 s) : Firm s0 (chainGrant p f queue a s) := by
  unfold chainGrant
  try dsimp only
  repeat' first
    | with_reducible assumption
    | with_reducible apply Firm.ite
    | with_reducible apply Firm.foldl
    | with_reducible apply Firm.ite_snd
    | with_reducible apply Firm.foldl_snd
    | with_reducible apply ignoreGrant_firm
    | with_reducible apply modPlane_firm
    | (refine Firm.mk' rfl rfl rfl rfl rfl rfl rfl rfl rfl rfl ?_
       first
         | with_reducible assumption
         | with_reducible apply Firm.ite
         | with_reducible apply Firm.foldl
         | with_reducible apply Firm.ite_snd
         | with_reducible apply Firm.foldl_snd
         | with_reducible apply ignoreGrant_firm
         | with_reducible apply modPlane_firm
         | split)
    | (intro x a hx)
    | (intro c; rfl)
    | (intro x hx; exact hx)
    | (intro x hx)
    | (intro x)
    | split
    | dsimp only

theorem openGrant_firm {s0 s : State} {p : Nat} {a : AllocStruct} {acted : Bool} (h : Firm s0 s) : Firm s0 (openGrant p a acted s) := by
  unfold openGrant
  try dsimp only
  repeat' first
    | with_reducible assumption
    | with_reducible apply Firm.ite
    | with_reducible apply Firm.foldl
    | with_reducible apply Firm.ite_snd
    | with_reducible apply Firm.foldl_snd
    | with_reducible apply modPlane_firm
    | (refine Firm.mk' rfl rfl rfl rfl rfl rfl rfl rfl rfl rfl ?_
       first
         | with_reducible assumption
         | with_reducible apply Firm.ite
         | with_reducible apply Firm.foldl
         | with_reducible apply Firm.ite_snd
         | with_reducible apply Firm.foldl_snd
         | with_reducible apply modPlane_firm
         | split)
    | (intro x a hx)
    | (intro c; rfl)
    | (intro x hx; exact hx)
    | (intro x hx)
    | (intro x)
    | split
    | dsimp only

theorem resolveGrant_firm {s0 s : State} {p : Nat} {a : AllocStruct} (h : Firm s0 s) : Firm s0 (resolveGrant p a s) := by
  unfold resolveGrant
  try dsimp only
  repeat' first
    | with_reducible assumption
    | with_reducible apply Firm.ite
    | with_reducible apply Firm.foldl
    | with_reducible apply Firm.ite_snd
    | with_reducible apply Firm.foldl_snd
    | with_reducible apply chainGrant_firm
    | with_reducible apply countSpout_firm
    | with_reducible apply ignoreGrant_firm
    | with_reducible apply noChain_firm
    | with_reducible apply openGrant_firm
    | with_reducible apply startGrant_firm
    | with_reducible apply viewed_firm
    | (refine Firm.mk' rfl rfl rfl rfl rfl rfl rfl rfl rfl rfl ?_
       first
         | with_reducible assumption
         | with_reducible apply Firm.ite
         | with_reducible apply Firm.foldl
         | with_reducible apply Firm.ite_snd
         | with_reducible apply Firm.foldl_snd
         | with_reducible apply chainGrant_firm
         | with_reducible apply countSpout_firm
         | with_reducible apply ignoreGrant_firm
         | with_reducible apply noChain_firm
         | with_reducible apply openGrant_firm
         | with_reducible apply startGrant_firm
         | with_reducible apply viewed_firm
         | split)
    | (intro x a hx)
    | (intro c; rfl)
    | (intro x hx; exact hx)
    | (intro x hx)
    | (intro x)
    | split
    | dsimp only

theorem expectTap_firm {s0 s : State} {p : Nat} {a : AllocStruct} (h : Firm s0 s) : Firm s0 (expectTap p a s) := by
  unfold expectTap
  try dsimp only
  repeat' first
    | with_reducible assumption
    | with_reducible apply Firm.ite
    | with_reducible apply Firm.foldl
    | with_reducible apply Firm.ite_snd
    | with_reducible apply Firm.foldl_snd
    | with_reducible apply modPlane_firm
    | (refine Firm.mk' rfl rfl rfl rfl rfl rfl rfl rfl rfl rfl ?_
       first
         | with_reducible assumption
         | with_reducible apply Firm.ite
         | with_reducible apply Firm.foldl
         | with_reducible apply Firm.ite_snd
         | with_reducible apply Firm.foldl_snd
         | with_reducible apply modPlane_firm
         | split)
    | (intro x a hx)
    | (intro c; rfl)
    | (intro x hx; exact hx)
    | (intro x hx)
    | (intro x)
    | split
    | dsimp only

theorem takeMessage_firm {s0 s : State} {f : Nat} {owed : Bool} {t : Term} {m : UpBody} (h : Firm s0 s) : Firm s0 (takeMessage f owed t m s).2 := by
  unfold takeMessage
  try dsimp only
  repeat' first
    | with_reducible assumption
    | with_reducible apply Firm.ite
    | with_reducible apply Firm.foldl
    | with_reducible apply Firm.ite_snd
    | with_reducible apply Firm.foldl_snd
    | with_reducible apply modTerm_firm
    | with_reducible apply queueUp_firm
    | with_reducible apply useItem_firm
    | (refine Firm.mk' rfl rfl rfl rfl rfl rfl rfl rfl rfl rfl ?_
       first
         | with_reducible assumption
         | with_reducible apply Firm.ite
         | with_reducible apply Firm.foldl
         | with_reducible apply Firm.ite_snd
         | with_reducible apply Firm.foldl_snd
         | with_reducible apply modTerm_firm
         | with_reducible apply queueUp_firm
         | with_reducible apply useItem_firm
         | split)
    | (intro x a hx)
    | (intro c; rfl)
    | (intro x hx; exact hx)
    | (intro x hx)
    | (intro x)
    | split
    | dsimp only

theorem fillAllocs_firm {s0 s : State} {f st : Nat} {page : AmapPage} {sn : Bool} {l : List UpAlloc} (h : Firm s0 s) :
    Firm s0 (fillAllocs f st page sn l s).2 := by
  induction l generalizing s with
  | nil => exact h
  | cons a l ih =>
    unfold fillAllocs
    dsimp only
    apply ih
    split
    · exact dbruOf_firm (fillAlloc_firm h)
    · exact fillAlloc_firm h

theorem burstMask_firm {s0 s : State} {f : Nat} {item : Nat} {p1 : Nat} (h : Firm s0 s) : Firm s0 (burstMask f item p1 s).2 := by
  unfold burstMask
  try dsimp only
  repeat' first
    | with_reducible assumption
    | with_reducible apply Firm.ite
    | with_reducible apply Firm.foldl
    | with_reducible apply Firm.ite_snd
    | with_reducible apply Firm.foldl_snd
    | with_reducible apply useItem_firm
    | (refine Firm.mk' rfl rfl rfl rfl rfl rfl rfl rfl rfl rfl ?_
       first
         | with_reducible assumption
         | with_reducible apply Firm.ite
         | with_reducible apply Firm.foldl
         | with_reducible apply Firm.ite_snd
         | with_reducible apply Firm.foldl_snd
         | with_reducible apply useItem_firm
         | split)
    | (intro x a hx)
    | (intro c; rfl)
    | (intro x hx; exact hx)
    | (intro x hx)
    | (intro x)
    | split
    | dsimp only

theorem placeBurst_firm {s0 s : State} {p : Nat} {page : AmapPage} {b : Burst} (h : Firm s0 s) : Firm s0 (placeBurst p page b s) := by
  unfold placeBurst
  try dsimp only
  repeat' first
    | with_reducible assumption
    | with_reducible apply Firm.ite
    | with_reducible apply Firm.foldl
    | with_reducible apply Firm.ite_snd
    | with_reducible apply Firm.foldl_snd
    | with_reducible apply burstMask_firm
    | with_reducible apply fillAllocs_firm
    | with_reducible apply modPlane_firm
    | with_reducible apply takeMessage_firm
    | with_reducible apply touch_firm
    | with_reducible apply touchDescs_firm
    | with_reducible apply useItem_firm
    | (refine Firm.mk' rfl rfl rfl rfl rfl rfl rfl rfl rfl rfl ?_
       first
         | with_reducible assumption
         | with_reducible apply Firm.ite
         | with_reducible apply Firm.foldl
         | with_reducible apply Firm.ite_snd
         | with_reducible apply Firm.foldl_snd
         | with_reducible apply burstMask_firm
         | with_reducible apply fillAllocs_firm
         | with_reducible apply modPlane_firm
         | with_reducible apply takeMessage_firm
         | with_reducible apply touch_firm
         | with_reducible apply touchDescs_firm
         | with_reducible apply useItem_firm
         | split)
    | (intro x a hx)
    | (intro c; rfl)
    | (intro x hx; exact hx)
    | (intro x hx)
    | (intro x)
    | split
    | dsimp only

theorem closeGrant_firm {s0 s : State} {p : Nat} {no : Nat} {f : Nat} (h : Firm s0 s) : Firm s0 (closeGrant p no f s) := by
  unfold closeGrant
  try dsimp only
  repeat' first
    | with_reducible assumption
    | with_reducible apply Firm.ite
    | with_reducible apply Firm.foldl
    | with_reducible apply Firm.ite_snd
    | with_reducible apply Firm.foldl_snd
    | with_reducible apply modPlane_firm
    | (refine Firm.mk' rfl rfl rfl rfl rfl rfl rfl rfl rfl rfl ?_
       first
         | with_reducible assumption
         | with_reducible apply Firm.ite
         | with_reducible apply Firm.foldl
         | with_reducible apply Firm.ite_snd
         | with_reducible apply Firm.foldl_snd
         | with_reducible apply modPlane_firm
         | split)
    | (intro x a hx)
    | (intro c; rfl)
    | (intro x hx; exact hx)
    | (intro x hx)
    | (intro x)
    | split
    | dsimp only

theorem placeOrDrop_firm {s0 s : State} {p : Nat} {page : AmapPage} {b0 : Burst} (h : Firm s0 s) : Firm s0 (placeOrDrop p page s b0) := by
  unfold placeOrDrop
  try dsimp only
  repeat' first
    | with_reducible assumption
    | with_reducible apply Firm.ite
    | with_reducible apply Firm.foldl
    | with_reducible apply Firm.ite_snd
    | with_reducible apply Firm.foldl_snd
    | with_reducible apply closeGrant_firm
    | with_reducible apply countSpout_firm
    | with_reducible apply countTerm_firm
    | with_reducible apply placeBurst_firm
    | with_reducible apply takeMessage_firm
    | with_reducible apply useItem_firm
    | (refine Firm.mk' rfl rfl rfl rfl rfl rfl rfl rfl rfl rfl ?_
       first
         | with_reducible assumption
         | with_reducible apply Firm.ite
         | with_reducible apply Firm.foldl
         | with_reducible apply Firm.ite_snd
         | with_reducible apply Firm.foldl_snd
         | with_reducible apply closeGrant_firm
         | with_reducible apply countSpout_firm
         | with_reducible apply countTerm_firm
         | with_reducible apply placeBurst_firm
         | with_reducible apply takeMessage_firm
         | with_reducible apply useItem_firm
         | split)
    | (intro x a hx)
    | (intro c; rfl)
    | (intro x hx; exact hx)
    | (intro x hx)
    | (intro x)
    | split
    | dsimp only

theorem placeMap_firm {s0 s : State} {p : Nat} (h : Firm s0 s) : Firm s0 (placeMap p s) := by
  unfold placeMap
  try dsimp only
  repeat' first
    | with_reducible assumption
    | with_reducible apply Firm.ite
    | with_reducible apply Firm.foldl
    | with_reducible apply Firm.ite_snd
    | with_reducible apply Firm.foldl_snd
    | with_reducible apply modPlane_firm
    | with_reducible apply placeOrDrop_firm
    | (refine Firm.mk' rfl rfl rfl rfl rfl rfl rfl rfl rfl rfl ?_
       first
         | with_reducible assumption
         | with_reducible apply Firm.ite
         | with_reducible apply Firm.foldl
         | with_reducible apply Firm.ite_snd
         | with_reducible apply Firm.foldl_snd
         | with_reducible apply modPlane_firm
         | with_reducible apply placeOrDrop_firm
         | split)
    | (intro x a hx)
    | (intro c; rfl)
    | (intro x hx; exact hx)
    | (intro x hx)
    | (intro x)
    | split
    | dsimp only

theorem countLate_firm {s0 s : State} {p : Nat} {g : OpenGrant} {n : Nat} (h : Firm s0 s) : Firm s0 (countLate p g n s) := by
  unfold countLate
  try dsimp only
  repeat' first
    | with_reducible assumption
    | with_reducible apply Firm.ite
    | with_reducible apply Firm.foldl
    | with_reducible apply Firm.ite_snd
    | with_reducible apply Firm.foldl_snd
    | with_reducible apply countSpout_firm
    | with_reducible apply modPlane_firm
    | (refine Firm.mk' rfl rfl rfl rfl rfl rfl rfl rfl rfl rfl ?_
       first
         | with_reducible assumption
         | with_reducible apply Firm.ite
         | with_reducible apply Firm.foldl
         | with_reducible apply Firm.ite_snd
         | with_reducible apply Firm.foldl_snd
         | with_reducible apply countSpout_firm
         | with_reducible apply modPlane_firm
         | split)
    | (intro x a hx)
    | (intro c; rfl)
    | (intro x hx; exact hx)
    | (intro x hx)
    | (intro x)
    | split
    | dsimp only

theorem lateAnswer_firm {s0 s : State} {p : Nat} {g : OpenGrant} {u : Unseen} (h : Firm s0 s) : Firm s0 (lateAnswer p g s u) := by
  unfold lateAnswer
  try dsimp only
  repeat' first
    | with_reducible assumption
    | with_reducible apply Firm.ite
    | with_reducible apply Firm.foldl
    | with_reducible apply Firm.ite_snd
    | with_reducible apply Firm.foldl_snd
    | with_reducible apply countLate_firm
    | with_reducible apply drawDrbg_firm
    | with_reducible apply modPlane_firm
    | with_reducible apply placeOrDrop_firm
    | (refine Firm.mk' rfl rfl rfl rfl rfl rfl rfl rfl rfl rfl ?_
       first
         | with_reducible assumption
         | with_reducible apply Firm.ite
         | with_reducible apply Firm.foldl
         | with_reducible apply Firm.ite_snd
         | with_reducible apply Firm.foldl_snd
         | with_reducible apply countLate_firm
         | with_reducible apply drawDrbg_firm
         | with_reducible apply modPlane_firm
         | with_reducible apply placeOrDrop_firm
         | split)
    | (intro x a hx)
    | (intro c; rfl)
    | (intro x hx; exact hx)
    | (intro x hx)
    | (intro x)
    | split
    | dsimp only

theorem lateAnswers_firm {s0 s : State} {p : Nat} (h : Firm s0 s) : Firm s0 (lateAnswers p s) := by
  unfold lateAnswers
  try dsimp only
  repeat' first
    | with_reducible assumption
    | with_reducible apply Firm.ite
    | with_reducible apply Firm.foldl
    | with_reducible apply Firm.ite_snd
    | with_reducible apply Firm.foldl_snd
    | with_reducible apply lateAnswer_firm
    | (refine Firm.mk' rfl rfl rfl rfl rfl rfl rfl rfl rfl rfl ?_
       first
         | with_reducible assumption
         | with_reducible apply Firm.ite
         | with_reducible apply Firm.foldl
         | with_reducible apply Firm.ite_snd
         | with_reducible apply Firm.foldl_snd
         | with_reducible apply lateAnswer_firm
         | split)
    | (intro x a hx)
    | (intro c; rfl)
    | (intro x hx; exact hx)
    | (intro x hx)
    | (intro x)
    | split
    | dsimp only

theorem nextStructure_firm {s0 s : State} {p : Nat} (h : Firm s0 s) : Firm s0 (nextStructure p s) := by
  unfold nextStructure
  try dsimp only
  repeat' first
    | with_reducible assumption
    | with_reducible apply Firm.ite
    | with_reducible apply Firm.foldl
    | with_reducible apply Firm.ite_snd
    | with_reducible apply Firm.foldl_snd
    | with_reducible apply lateAnswers_firm
    | with_reducible apply modPlane_firm
    | (refine Firm.mk' rfl rfl rfl rfl rfl rfl rfl rfl rfl rfl ?_
       first
         | with_reducible assumption
         | with_reducible apply Firm.ite
         | with_reducible apply Firm.foldl
         | with_reducible apply Firm.ite_snd
         | with_reducible apply Firm.foldl_snd
         | with_reducible apply lateAnswers_firm
         | with_reducible apply modPlane_firm
         | split)
    | (intro x a hx)
    | (intro c; rfl)
    | (intro x hx; exact hx)
    | (intro x hx)
    | (intro x)
    | split
    | dsimp only

theorem execBwmapStructure_firm {s : State} {plane : Nat} {alloc : AllocStruct} : FirmOut s (execBwmapStructure plane alloc s) := by
  have h := Firm.refl s
  unfold execBwmapStructure
  try dsimp only
  repeat' first
    | with_reducible assumption
    | with_reducible apply FirmOut.ite
    | with_reducible apply FirmOut.next
    | with_reducible apply Firm.ite
    | with_reducible apply Firm.foldl
    | with_reducible apply Firm.ite_snd
    | with_reducible apply Firm.foldl_snd
    | with_reducible apply countPlane_firm
    | with_reducible apply expectTap_firm
    | with_reducible apply hecInjected_firm
    | with_reducible apply ignoreGrant_firm
    | with_reducible apply modPlane_firm
    | with_reducible apply nextStructure_firm
    | with_reducible apply noChain_firm
    | with_reducible apply placeMap_firm
    | with_reducible apply resolveGrant_firm
    | (refine Firm.mk' rfl rfl rfl rfl rfl rfl rfl rfl rfl rfl ?_
       first
         | with_reducible assumption
         | with_reducible apply FirmOut.ite
         | with_reducible apply FirmOut.next
         | with_reducible apply Firm.ite
         | with_reducible apply Firm.foldl
         | with_reducible apply Firm.ite_snd
         | with_reducible apply Firm.foldl_snd
         | with_reducible apply countPlane_firm
         | with_reducible apply expectTap_firm
         | with_reducible apply hecInjected_firm
         | with_reducible apply ignoreGrant_firm
         | with_reducible apply modPlane_firm
         | with_reducible apply nextStructure_firm
         | with_reducible apply noChain_firm
         | with_reducible apply placeMap_firm
         | with_reducible apply resolveGrant_firm
         | split)
    | (intro x a hx)
    | (intro c; rfl)
    | (intro x hx; exact hx)
    | (intro x hx)
    | (intro x)
    | split
    | dsimp only

theorem fetchList_firm {s0 s : State} {u : UpFrame} (h : Firm s0 s) : Firm s0 (fetchList u s).2 := by
  unfold fetchList
  try dsimp only
  repeat' first
    | with_reducible assumption
    | with_reducible apply Firm.ite
    | with_reducible apply Firm.foldl
    | with_reducible apply Firm.ite_snd
    | with_reducible apply Firm.foldl_snd
    | with_reducible apply drawFree_firm
    | with_reducible apply storeRead_firm
    | (refine Firm.mk' rfl rfl rfl rfl rfl rfl rfl rfl rfl rfl ?_
       first
         | with_reducible assumption
         | with_reducible apply Firm.ite
         | with_reducible apply Firm.foldl
         | with_reducible apply Firm.ite_snd
         | with_reducible apply Firm.foldl_snd
         | with_reducible apply drawFree_firm
         | with_reducible apply storeRead_firm
         | split)
    | (intro x a hx)
    | (intro c; rfl)
    | (intro x hx; exact hx)
    | (intro x hx)
    | (intro x)
    | split
    | dsimp only

theorem encryptFrame_firm {s0 s : State} {f : Nat} {u : UpFrame} (h : Firm s0 s) : Firm s0 (encryptFrame f u s).2 := by
  unfold encryptFrame
  try dsimp only
  repeat' first
    | with_reducible assumption
    | with_reducible apply Firm.ite
    | with_reducible apply Firm.foldl
    | with_reducible apply Firm.ite_snd
    | with_reducible apply Firm.foldl_snd
    | with_reducible apply drawFree_firm
    | with_reducible apply useSlot_firm
    | (refine Firm.mk' rfl rfl rfl rfl rfl rfl rfl rfl rfl rfl ?_
       first
         | with_reducible assumption
         | with_reducible apply Firm.ite
         | with_reducible apply Firm.foldl
         | with_reducible apply Firm.ite_snd
         | with_reducible apply Firm.foldl_snd
         | with_reducible apply drawFree_firm
         | with_reducible apply useSlot_firm
         | split)
    | (intro x a hx)
    | (intro c; rfl)
    | (intro x hx; exact hx)
    | (intro x hx)
    | (intro x)
    | split
    | dsimp only

theorem sendFrame_firm {s0 s : State} {p : Nat} {f : Nat} {u : UpFrame} (h : Firm s0 s) : Firm s0 (sendFrame p f u s).2 := by
  unfold sendFrame
  try dsimp only
  repeat' first
    | with_reducible assumption
    | with_reducible apply Firm.ite
    | with_reducible apply Firm.foldl
    | with_reducible apply Firm.ite_snd
    | with_reducible apply Firm.foldl_snd
    | with_reducible apply countSpout_firm
    | with_reducible apply encryptFrame_firm
    | with_reducible apply fetchList_firm
    | (refine Firm.mk' rfl rfl rfl rfl rfl rfl rfl rfl rfl rfl ?_
       first
         | with_reducible assumption
         | with_reducible apply Firm.ite
         | with_reducible apply Firm.foldl
         | with_reducible apply Firm.ite_snd
         | with_reducible apply Firm.foldl_snd
         | with_reducible apply countSpout_firm
         | with_reducible apply encryptFrame_firm
         | with_reducible apply fetchList_firm
         | split)
    | (intro x a hx)
    | (intro c; rfl)
    | (intro x hx; exact hx)
    | (intro x hx)
    | (intro x)
    | split
    | dsimp only

theorem countFrame_firm {s0 s : State} {p : Nat} {f : Nat} {a : Nat} {u : UpFrame} (h : Firm s0 s) : Firm s0 (countFrame p f a u s) := by
  unfold countFrame
  try dsimp only
  repeat' first
    | with_reducible assumption
    | with_reducible apply Firm.ite
    | with_reducible apply Firm.foldl
    | with_reducible apply Firm.ite_snd
    | with_reducible apply Firm.foldl_snd
    | with_reducible apply countQueue_firm
    | with_reducible apply countSpout_firm
    | with_reducible apply countTerm_firm
    | (refine Firm.mk' rfl rfl rfl rfl rfl rfl rfl rfl rfl rfl ?_
       first
         | with_reducible assumption
         | with_reducible apply Firm.ite
         | with_reducible apply Firm.foldl
         | with_reducible apply Firm.ite_snd
         | with_reducible apply Firm.foldl_snd
         | with_reducible apply countQueue_firm
         | with_reducible apply countSpout_firm
         | with_reducible apply countTerm_firm
         | split)
    | (intro x a hx)
    | (intro c; rfl)
    | (intro x hx; exact hx)
    | (intro x hx)
    | (intro x)
    | split
    | dsimp only

theorem sendFrames_firm {s0 s : State} {p f a : Nat} {l : List UpFrame} (h : Firm s0 s) :
    Firm s0 (sendFrames p f a l s).2 := by
  induction l generalizing s with
  | nil => exact h
  | cons a l ih =>
    unfold sendFrames
    exact ih (countFrame_firm (sendFrame_firm h))

theorem sendAllocs_firm {s0 s : State} {p f : Nat} {sn : Bool} {l : List UpAlloc} (h : Firm s0 s) :
    Firm s0 (sendAllocs p f sn l s).2 := by
  induction l generalizing s with
  | nil => exact h
  | cons a l ih =>
    unfold sendAllocs
    exact ih (sendFrames_firm (Firm.ite h (modQueue_firm h)))

theorem fillGap_firm {s0 s : State} {port : Nat} {old : Bool} {new : Bool} {stop : Int} {start : Int} {lead : Int} (h : Firm s0 s) : Firm s0 (fillGap port old new stop start lead s) := by
  unfold fillGap
  try dsimp only
  repeat' first
    | with_reducible assumption
    | with_reducible apply Firm.ite
    | with_reducible apply Firm.foldl
    | with_reducible apply Firm.ite_snd
    | with_reducible apply Firm.foldl_snd
    | with_reducible apply emit_firm
    | (refine Firm.mk' rfl rfl rfl rfl rfl rfl rfl rfl rfl rfl ?_
       first
         | with_reducible assumption
         | with_reducible apply Firm.ite
         | with_reducible apply Firm.foldl
         | with_reducible apply Firm.ite_snd
         | with_reducible apply Firm.foldl_snd
         | with_reducible apply emit_firm
         | split)
    | (intro x a hx)
    | (intro c; rfl)
    | (intro x hx; exact hx)
    | (intro x hx)
    | (intro x)
    | split
    | dsimp only

theorem keyBurst_firm {s0 s : State} {p : Nat} {port : Nat} {b : Burst} (h : Firm s0 s) : Firm s0 (keyBurst p port b s) := by
  unfold keyBurst
  try dsimp only
  repeat' first
    | with_reducible assumption
    | with_reducible apply Firm.ite
    | with_reducible apply Firm.foldl
    | with_reducible apply Firm.ite_snd
    | with_reducible apply Firm.foldl_snd
    | with_reducible apply emit_firm
    | with_reducible apply fallTx_firm
    | with_reducible apply fillGap_firm
    | with_reducible apply idleLane_firm
    | with_reducible apply modLane_firm
    | with_reducible apply modLinePort_firm
    | with_reducible apply setTxEn_firm
    | (refine Firm.mk' rfl rfl rfl rfl rfl rfl rfl rfl rfl rfl ?_
       first
         | with_reducible assumption
         | with_reducible apply Firm.ite
         | with_reducible apply Firm.foldl
         | with_reducible apply Firm.ite_snd
         | with_reducible apply Firm.foldl_snd
         | with_reducible apply emit_firm
         | with_reducible apply fallTx_firm
         | with_reducible apply fillGap_firm
         | with_reducible apply idleLane_firm
         | with_reducible apply modLane_firm
         | with_reducible apply modLinePort_firm
         | with_reducible apply setTxEn_firm
         | split)
    | (intro x a hx)
    | (intro c; rfl)
    | (intro x hx; exact hx)
    | (intro x hx)
    | (intro x)
    | split
    | dsimp only

theorem countMessage_firm {s0 s : State} {f : Nat} {m : Option UpBody} (h : Firm s0 s) : Firm s0 (countMessage f m s) := by
  unfold countMessage
  try dsimp only
  repeat' first
    | with_reducible assumption
    | with_reducible apply Firm.ite
    | with_reducible apply Firm.foldl
    | with_reducible apply Firm.ite_snd
    | with_reducible apply Firm.foldl_snd
    | with_reducible apply countTerm_firm
    | (refine Firm.mk' rfl rfl rfl rfl rfl rfl rfl rfl rfl rfl ?_
       first
         | with_reducible assumption
         | with_reducible apply Firm.ite
         | with_reducible apply Firm.foldl
         | with_reducible apply Firm.ite_snd
         | with_reducible apply Firm.foldl_snd
         | with_reducible apply countTerm_firm
         | split)
    | (intro x a hx)
    | (intro c; rfl)
    | (intro x hx; exact hx)
    | (intro x hx)
    | (intro x)
    | split
    | dsimp only

theorem execBurstStart_firm {s : State} {plane : Nat} : FirmOut s (execBurstStart plane s) := by
  have h := Firm.refl s
  unfold execBurstStart
  try dsimp only
  repeat' first
    | with_reducible assumption
    | with_reducible apply FirmOut.ite
    | with_reducible apply FirmOut.next
    | with_reducible apply Firm.ite
    | with_reducible apply Firm.foldl
    | with_reducible apply Firm.ite_snd
    | with_reducible apply Firm.foldl_snd
    | with_reducible apply countMessage_firm
    | with_reducible apply countSpout_firm
    | with_reducible apply keyBurst_firm
    | with_reducible apply modPlane_firm
    | with_reducible apply sendAllocs_firm
    | with_reducible apply switchKey_firm
    | with_reducible apply touch_firm
    | (refine Firm.mk' rfl rfl rfl rfl rfl rfl rfl rfl rfl rfl ?_
       first
         | with_reducible assumption
         | with_reducible apply FirmOut.ite
         | with_reducible apply FirmOut.next
         | with_reducible apply Firm.ite
         | with_reducible apply Firm.foldl
         | with_reducible apply Firm.ite_snd
         | with_reducible apply Firm.foldl_snd
         | with_reducible apply countMessage_firm
         | with_reducible apply countSpout_firm
         | with_reducible apply keyBurst_firm
         | with_reducible apply modPlane_firm
         | with_reducible apply sendAllocs_firm
         | with_reducible apply switchKey_firm
         | with_reducible apply touch_firm
         | split)
    | (intro x a hx)
    | (intro c; rfl)
    | (intro x hx; exact hx)
    | (intro x hx)
    | (intro x)
    | split
    | dsimp only

theorem swapPages_firm {s0 s : State} {p : Nat} {sfc : Nat} {x : Sched} (h : Firm s0 s) : Firm s0 (swapPages p sfc x s) := by
  unfold swapPages
  try dsimp only
  repeat' first
    | with_reducible assumption
    | with_reducible apply Firm.ite
    | with_reducible apply Firm.foldl
    | with_reducible apply Firm.ite_snd
    | with_reducible apply Firm.foldl_snd
    | with_reducible apply modPlane_firm
    | (refine Firm.mk' rfl rfl rfl rfl rfl rfl rfl rfl rfl rfl ?_
       first
         | with_reducible assumption
         | with_reducible apply Firm.ite
         | with_reducible apply Firm.foldl
         | with_reducible apply Firm.ite_snd
         | with_reducible apply Firm.foldl_snd
         | with_reducible apply modPlane_firm
         | split)
    | (intro x a hx)
    | (intro c; rfl)
    | (intro x hx; exact hx)
    | (intro x hx)
    | (intro x)
    | split
    | dsimp only

theorem applyDescs_firm {s0 s : State} {p : Nat} (h : Firm s0 s) : Firm s0 (applyDescs p s) := by
  unfold applyDescs
  try dsimp only
  repeat' first
    | with_reducible assumption
    | with_reducible apply Firm.ite
    | with_reducible apply Firm.foldl
    | with_reducible apply Firm.ite_snd
    | with_reducible apply Firm.foldl_snd
    | (refine Firm.mk' rfl rfl rfl rfl rfl rfl rfl rfl rfl rfl ?_
       first
         | with_reducible assumption
         | with_reducible apply Firm.ite
         | with_reducible apply Firm.foldl
         | with_reducible apply Firm.ite_snd
         | with_reducible apply Firm.foldl_snd
         | split)
    | (intro x a hx)
    | (intro c; rfl)
    | (intro x hx; exact hx)
    | (intro x hx)
    | (intro x)
    | split
    | dsimp only

theorem boundaryTraffic_firm {s0 s : State} {p : Nat} {sfc : Nat} (h : Firm s0 s) : Firm s0 (boundaryTraffic p sfc s) := by
  unfold boundaryTraffic
  try dsimp only
  repeat' first
    | with_reducible assumption
    | with_reducible apply Firm.ite
    | with_reducible apply Firm.foldl
    | with_reducible apply Firm.ite_snd
    | with_reducible apply Firm.foldl_snd
    | with_reducible apply applyDescs_firm
    | with_reducible apply modPlane_firm
    | with_reducible apply swapPages_firm
    | with_reducible apply touch_firm
    | with_reducible apply touchDescs_firm
    | (refine Firm.mk' rfl rfl rfl rfl rfl rfl rfl rfl rfl rfl ?_
       first
         | with_reducible assumption
         | with_reducible apply Firm.ite
         | with_reducible apply Firm.foldl
         | with_reducible apply Firm.ite_snd
         | with_reducible apply Firm.foldl_snd
         | with_reducible apply applyDescs_firm
         | with_reducible apply modPlane_firm
         | with_reducible apply swapPages_firm
         | with_reducible apply touch_firm
         | with_reducible apply touchDescs_firm
         | split)
    | (intro x a hx)
    | (intro c; rfl)
    | (intro x hx; exact hx)
    | (intro x hx)
    | (intro x)
    | split
    | dsimp only

end Sys2Proof.Machine
end

