-- ==== Sys2Proof/Laws/FirmFraming.lean ====
section
/-!
SUPPORT. What the operations of Machine/Framing.lean keep (`Firm`).
-/
set_option Elab.async false
set_option linter.unusedTactic false
set_option linter.unreachableTactic false
set_option linter.unusedVariables false
namespace Sys2Proof.Machine

theorem countHunter_firm {s0 s : State} {k : Nat} {off : Nat} {n : Nat} (h : Firm s0 s) : Firm s0 (countHunter k off n s) := by
  unfold countHunter
  try dsimp only
  repeat' first
    | with_reducible assumption
    | with_reducible apply Firm.ite
    | with_reducible apply Firm.foldl
    | with_reducible apply Firm.ite_snd
    | with_reducible apply Firm.foldl_snd
    | with_reducible apply countPlane_firm
    | (refine Firm.mk' rfl rfl rfl rfl rfl rfl rfl rfl rfl rfl ?_
       first
         | with_reducible assumption
         | with_reducible apply Firm.ite
         | with_reducible apply Firm.foldl
         | with_reducible apply Firm.ite_snd
         | with_reducible apply Firm.foldl_snd
         | with_reducible apply countPlane_firm
         | split)
    | (intro x a hx)
    | (intro c; rfl)
    | (intro x hx; exact hx)
    | (intro x hx)
    | (intro x)
    | split
    | dsimp only

theorem setLineInj_firm {s0 s : State} {port : Nat} {x : LineInj} (h : Firm s0 s) : Firm s0 (setLineInj port x s) := by
  unfold setLineInj
  try dsimp only
  repeat' first
    | with_reducible assumption
    | with_reducible apply Firm.ite
    | with_reducible apply Firm.foldl
    | with_reducible apply Firm.ite_snd
    | with_reducible apply Firm.foldl_snd
    | (refine Firm.mk' rfl rfl rfl rfl rfl rfl rfl rfl rfl rfl ?_
       first
         | with_reducible assumption
         | with_reducible apply Firm.ite
         | with_reducible apply Firm.foldl
         | with_reducible apply Firm.ite_snd
         | with_reducible apply Firm.foldl_snd
         | split)
    | (intro x a hx)
    | (intro c; rfl)
    | (intro x hx; exact hx)
    | (intro x hx)
    | (intro x)
    | split
    | dsimp only

theorem psyncInjected_firm {s0 s : State} {port : Nat} {at_ : Nat} (h : Firm s0 s) : Firm s0 (psyncInjected port at_ s).2 := by
  unfold psyncInjected
  try dsimp only
  repeat' first
    | with_reducible assumption
    | with_reducible apply Firm.ite
    | with_reducible apply Firm.foldl
    | with_reducible apply Firm.ite_snd
    | with_reducible apply Firm.foldl_snd
    | with_reducible apply occurrence_firm
    | with_reducible apply setLineInj_firm
    | (refine Firm.mk' rfl rfl rfl rfl rfl rfl rfl rfl rfl rfl ?_
       first
         | with_reducible assumption
         | with_reducible apply Firm.ite
         | with_reducible apply Firm.foldl
         | with_reducible apply Firm.ite_snd
         | with_reducible apply Firm.foldl_snd
         | with_reducible apply occurrence_firm
         | with_reducible apply setLineInj_firm
         | split)
    | (intro x a hx)
    | (intro c; rfl)
    | (intro x hx; exact hx)
    | (intro x hx)
    | (intro x)
    | split
    | dsimp only

theorem drawCodewords_firm {s0 s : State} {port n i : Nat} {r : List Nat × Nat} (h : Firm s0 s) :
    Firm s0 (drawCodewords port n i r s).2 := by
  induction n generalizing i r s with
  | zero => exact h
  | succ n ih =>
    unfold drawCodewords
    dsimp only
    split
    · exact h
    · exact ih (occurrence_firm h)

theorem fecInjected_firm {s0 s : State} {port : Nat} {at_ : Nat} {n : Nat} (h : Firm s0 s) : Firm s0 (fecInjected port at_ n s).2 := by
  unfold fecInjected
  try dsimp only
  repeat' first
    | with_reducible assumption
    | with_reducible apply Firm.ite
    | with_reducible apply Firm.foldl
    | with_reducible apply Firm.ite_snd
    | with_reducible apply Firm.foldl_snd
    | with_reducible apply drawCodewords_firm
    | with_reducible apply setLineInj_firm
    | (refine Firm.mk' rfl rfl rfl rfl rfl rfl rfl rfl rfl rfl ?_
       first
         | with_reducible assumption
         | with_reducible apply Firm.ite
         | with_reducible apply Firm.foldl
         | with_reducible apply Firm.ite_snd
         | with_reducible apply Firm.foldl_snd
         | with_reducible apply drawCodewords_firm
         | with_reducible apply setLineInj_firm
         | split)
    | (intro x a hx)
    | (intro c; rfl)
    | (intro x hx; exact hx)
    | (intro x hx)
    | (intro x)
    | split
    | dsimp only

theorem sfcPasses_firm {s0 s : State} {k : Nat} {o : PsyncObs} (h : Firm s0 s) : Firm s0 (sfcPasses k o s).2 := by
  unfold sfcPasses
  try dsimp only
  repeat' first
    | with_reducible assumption
    | with_reducible apply Firm.ite
    | with_reducible apply Firm.foldl
    | with_reducible apply Firm.ite_snd
    | with_reducible apply Firm.foldl_snd
    | with_reducible apply countHunter_firm
    | with_reducible apply hecInjected_firm
    | (refine Firm.mk' rfl rfl rfl rfl rfl rfl rfl rfl rfl rfl ?_
       first
         | with_reducible assumption
         | with_reducible apply Firm.ite
         | with_reducible apply Firm.foldl
         | with_reducible apply Firm.ite_snd
         | with_reducible apply Firm.foldl_snd
         | with_reducible apply countHunter_firm
         | with_reducible apply hecInjected_firm
         | split)
    | (intro x a hx)
    | (intro c; rfl)
    | (intro x hx; exact hx)
    | (intro x hx)
    | (intro x)
    | split
    | dsimp only

theorem execPsyncMatchHunt_firm {s : State} {hunter : Nat} {psync : PsyncObs} : FirmOut s (execPsyncMatchHunt hunter psync s) := by
  have h := Firm.refl s
  unfold execPsyncMatchHunt
  try dsimp only
  repeat' first
    | with_reducible assumption
    | with_reducible apply FirmOut.ite
    | with_reducible apply FirmOut.next
    | with_reducible apply Firm.ite
    | with_reducible apply Firm.foldl
    | with_reducible apply Firm.ite_snd
    | with_reducible apply Firm.foldl_snd
    | with_reducible apply countHunter_firm
    | with_reducible apply modHunter_firm
    | with_reducible apply sfcPasses_firm
    | (refine Firm.mk' rfl rfl rfl rfl rfl rfl rfl rfl rfl rfl ?_
       first
         | with_reducible assumption
         | with_reducible apply FirmOut.ite
         | with_reducible apply FirmOut.next
         | with_reducible apply Firm.ite
         | with_reducible apply Firm.foldl
         | with_reducible apply Firm.ite_snd
         | with_reducible apply Firm.foldl_snd
         | with_reducible apply countHunter_firm
         | with_reducible apply modHunter_firm
         | with_reducible apply sfcPasses_firm
         | split)
    | (intro x a hx)
    | (intro c; rfl)
    | (intro x hx; exact hx)
    | (intro x hx)
    | (intro x)
    | split
    | dsimp only

theorem boundaryTerm_firm {s0 s : State} {sfc : Nat} {e : Nat × Term} (h : Firm s0 s) : Firm s0 (boundaryTerm sfc s e) := by
  unfold boundaryTerm
  try dsimp only
  repeat' first
    | with_reducible assumption
    | with_reducible apply Firm.ite
    | with_reducible apply Firm.foldl
    | with_reducible apply Firm.ite_snd
    | with_reducible apply Firm.foldl_snd
    | with_reducible apply applyDistance_firm
    | with_reducible apply modTerm_firm
    | (refine Firm.mk' rfl rfl rfl rfl rfl rfl rfl rfl rfl rfl ?_
       first
         | with_reducible assumption
         | with_reducible apply Firm.ite
         | with_reducible apply Firm.foldl
         | with_reducible apply Firm.ite_snd
         | with_reducible apply Firm.foldl_snd
         | with_reducible apply applyDistance_firm
         | with_reducible apply modTerm_firm
         | split)
    | (intro x a hx)
    | (intro c; rfl)
    | (intro x hx; exact hx)
    | (intro x hx)
    | (intro x)
    | split
    | dsimp only

theorem boundaryTerms_firm {s0 s : State} {p : Nat} {sfc : Nat} (h : Firm s0 s) : Firm s0 (boundaryTerms p sfc s) := by
  unfold boundaryTerms
  try dsimp only
  repeat' first
    | with_reducible assumption
    | with_reducible apply Firm.ite
    | with_reducible apply Firm.foldl
    | with_reducible apply Firm.ite_snd
    | with_reducible apply Firm.foldl_snd
    | with_reducible apply boundaryTerm_firm
    | (refine Firm.mk' rfl rfl rfl rfl rfl rfl rfl rfl rfl rfl ?_
       first
         | with_reducible assumption
         | with_reducible apply Firm.ite
         | with_reducible apply Firm.foldl
         | with_reducible apply Firm.ite_snd
         | with_reducible apply Firm.foldl_snd
         | with_reducible apply boundaryTerm_firm
         | split)
    | (intro x a hx)
    | (intro c; rfl)
    | (intro x hx; exact hx)
    | (intro x hx)
    | (intro x)
    | split
    | dsimp only

theorem ponIdRead_firm {s0 s : State} {p : Nat} {o : FrameObs} (h : Firm s0 s) : Firm s0 (ponIdRead p o s) := by
  unfold ponIdRead
  try dsimp only
  repeat' first
    | with_reducible assumption
    | with_reducible apply Firm.ite
    | with_reducible apply Firm.foldl
    | with_reducible apply Firm.ite_snd
    | with_reducible apply Firm.foldl_snd
    | with_reducible apply countPlane_firm
    | with_reducible apply hecInjected_firm
    | with_reducible apply modPlane_firm
    | with_reducible apply raise_firm
    | with_reducible apply touch_firm
    | (refine Firm.mk' rfl rfl rfl rfl rfl rfl rfl rfl rfl rfl ?_
       first
         | with_reducible assumption
         | with_reducible apply Firm.ite
         | with_reducible apply Firm.foldl
         | with_reducible apply Firm.ite_snd
         | with_reducible apply Firm.foldl_snd
         | with_reducible apply countPlane_firm
         | with_reducible apply hecInjected_firm
         | with_reducible apply modPlane_firm
         | with_reducible apply raise_firm
         | with_reducible apply touch_firm
         | split)
    | (intro x a hx)
    | (intro c; rfl)
    | (intro x hx; exact hx)
    | (intro x hx)
    | (intro x)
    | split
    | dsimp only

theorem partitionItem_firm {s0 s : State} {p : Nat} {content : Nat} {bs : Bytes} (h : Firm s0 s) : Firm s0 (partitionItem p content bs s) := by
  unfold partitionItem
  try dsimp only
  repeat' first
    | with_reducible assumption
    | with_reducible apply Firm.ite
    | with_reducible apply Firm.foldl
    | with_reducible apply Firm.ite_snd
    | with_reducible apply Firm.foldl_snd
    | with_reducible apply basinItem_firm
    | with_reducible apply freshName_firm
    | (refine Firm.mk' rfl rfl rfl rfl rfl rfl rfl rfl rfl rfl ?_
       first
         | with_reducible assumption
         | with_reducible apply Firm.ite
         | with_reducible apply Firm.foldl
         | with_reducible apply Firm.ite_snd
         | with_reducible apply Firm.foldl_snd
         | with_reducible apply basinItem_firm
         | with_reducible apply freshName_firm
         | split)
    | (intro x a hx)
    | (intro c; rfl)
    | (intro x hx; exact hx)
    | (intro x hx)
    | (intro x)
    | split
    | dsimp only

theorem fsHeader_firm {s0 s : State} {p : Nat} {o : FrameObs} (h : Firm s0 s) : Firm s0 (fsHeader p o s) := by
  unfold fsHeader
  try dsimp only
  repeat' first
    | with_reducible assumption
    | with_reducible apply Firm.ite
    | with_reducible apply Firm.foldl
    | with_reducible apply Firm.ite_snd
    | with_reducible apply Firm.foldl_snd
    | with_reducible apply countPlane_firm
    | with_reducible apply hecInjected_firm
    | with_reducible apply modPlane_firm
    | with_reducible apply partitionItem_firm
    | (refine Firm.mk' rfl rfl rfl rfl rfl rfl rfl rfl rfl rfl ?_
       first
         | with_reducible assumption
         | with_reducible apply Firm.ite
         | with_reducible apply Firm.foldl
         | with_reducible apply Firm.ite_snd
         | with_reducible apply Firm.foldl_snd
         | with_reducible apply countPlane_firm
         | with_reducible apply hecInjected_firm
         | with_reducible apply modPlane_firm
         | with_reducible apply partitionItem_firm
         | split)
    | (intro x a hx)
    | (intro c; rfl)
    | (intro x hx; exact hx)
    | (intro x hx)
    | (intro x)
    | split
    | dsimp only

theorem engineWrites_firm {s0 s : State} {code : Nat} (h : Firm s0 s) : Firm s0 (engineWrites code s) := by
  unfold engineWrites
  try dsimp only
  repeat' first
    | with_reducible assumption
    | with_reducible apply Firm.ite
    | with_reducible apply Firm.foldl
    | with_reducible apply Firm.ite_snd
    | with_reducible apply Firm.foldl_snd
    | with_reducible apply clearState_firm
    | with_reducible apply drawFree_firm
    | with_reducible apply engineFault_firm
    | with_reducible apply sramError_firm
    | with_reducible apply writeLine_firm
    | (refine Firm.mk' rfl rfl rfl rfl rfl rfl rfl rfl rfl rfl ?_
       first
         | with_reducible assumption
         | with_reducible apply Firm.ite
         | with_reducible apply Firm.foldl
         | with_reducible apply Firm.ite_snd
         | with_reducible apply Firm.foldl_snd
         | with_reducible apply clearState_firm
         | with_reducible apply drawFree_firm
         | with_reducible apply engineFault_firm
         | with_reducible apply sramError_firm
         | with_reducible apply writeLine_firm
         | split)
    | (intro x a hx)
    | (intro c; rfl)
    | (intro x hx; exact hx)
    | (intro x hx)
    | (intro x)
    | split
    | dsimp only

theorem acceptFrame_firm {s0 s : State} {p : Nat} {o : PsyncObs} {sfc : Nat} {fr : FrameObs} (h : Firm s0 s) : Firm s0 (acceptFrame p o sfc fr s) := by
  unfold acceptFrame
  try dsimp only
  repeat' first
    | with_reducible assumption
    | with_reducible apply Firm.ite
    | with_reducible apply Firm.foldl
    | with_reducible apply Firm.ite_snd
    | with_reducible apply Firm.foldl_snd
    | with_reducible apply boundaryTerms_firm
    | with_reducible apply boundaryTraffic_firm
    | with_reducible apply countPlane_firm
    | with_reducible apply engineFault_firm
    | with_reducible apply engineWrites_firm
    | with_reducible apply fecInjected_firm
    | with_reducible apply fsHeader_firm
    | with_reducible apply modPlane_firm
    | with_reducible apply occurrence_firm
    | with_reducible apply placeMap_firm
    | with_reducible apply ponIdRead_firm
    | with_reducible apply switchNow_firm
    | (refine Firm.mk' rfl rfl rfl rfl rfl rfl rfl rfl rfl rfl ?_
       first
         | with_reducible assumption
         | with_reducible apply Firm.ite
         | with_reducible apply Firm.foldl
         | with_reducible apply Firm.ite_snd
         | with_reducible apply Firm.foldl_snd
         | with_reducible apply boundaryTerms_firm
         | with_reducible apply boundaryTraffic_firm
         | with_reducible apply countPlane_firm
         | with_reducible apply engineFault_firm
         | with_reducible apply engineWrites_firm
         | with_reducible apply fecInjected_firm
         | with_reducible apply fsHeader_firm
         | with_reducible apply modPlane_firm
         | with_reducible apply occurrence_firm
         | with_reducible apply placeMap_firm
         | with_reducible apply ponIdRead_firm
         | with_reducible apply switchNow_firm
         | split)
    | (intro x a hx)
    | (intro c; rfl)
    | (intro x hx; exact hx)
    | (intro x hx)
    | (intro x)
    | split
    | dsimp only

theorem monitorFrame_firm {s0 s : State} {port : Nat} {o : PsyncObs} {fr : FrameObs} (h : Firm s0 s) : Firm s0 (monitorFrame port o fr s) := by
  unfold monitorFrame
  try dsimp only
  repeat' first
    | with_reducible assumption
    | with_reducible apply Firm.ite
    | with_reducible apply Firm.foldl
    | with_reducible apply Firm.ite_snd
    | with_reducible apply Firm.foldl_snd
    | with_reducible apply fecInjected_firm
    | with_reducible apply modDef_firm
    | (refine Firm.mk' rfl rfl rfl rfl rfl rfl rfl rfl rfl rfl ?_
       first
         | with_reducible assumption
         | with_reducible apply Firm.ite
         | with_reducible apply Firm.foldl
         | with_reducible apply Firm.ite_snd
         | with_reducible apply Firm.foldl_snd
         | with_reducible apply fecInjected_firm
         | with_reducible apply modDef_firm
         | split)
    | (intro x a hx)
    | (intro c; rfl)
    | (intro x hx; exact hx)
    | (intro x hx)
    | (intro x)
    | split
    | dsimp only

theorem standbyFrame_firm {s0 s : State} {code : Nat} {o : PsyncObs} (h : Firm s0 s) : Firm s0 (standbyFrame code o s) := by
  unfold standbyFrame
  try dsimp only
  repeat' first
    | with_reducible assumption
    | with_reducible apply Firm.ite
    | with_reducible apply Firm.foldl
    | with_reducible apply Firm.ite_snd
    | with_reducible apply Firm.foldl_snd
    | with_reducible apply engineFault_firm
    | with_reducible apply engineWrites_firm
    | with_reducible apply fecInjected_firm
    | with_reducible apply occurrence_firm
    | (refine Firm.mk' rfl rfl rfl rfl rfl rfl rfl rfl rfl rfl ?_
       first
         | with_reducible assumption
         | with_reducible apply Firm.ite
         | with_reducible apply Firm.foldl
         | with_reducible apply Firm.ite_snd
         | with_reducible apply Firm.foldl_snd
         | with_reducible apply engineFault_firm
         | with_reducible apply engineWrites_firm
         | with_reducible apply fecInjected_firm
         | with_reducible apply occurrence_firm
         | split)
    | (intro x a hx)
    | (intro c; rfl)
    | (intro x hx; exact hx)
    | (intro x hx)
    | (intro x)
    | split
    | dsimp only

theorem acceptAt_firm {s0 s : State} {k : Nat} {o : PsyncObs} {sfc : Nat} {fr : FrameObs} (h : Firm s0 s) : Firm s0 (acceptAt k o sfc fr s) := by
  unfold acceptAt
  try dsimp only
  repeat' first
    | with_reducible assumption
    | with_reducible apply Firm.ite
    | with_reducible apply Firm.foldl
    | with_reducible apply Firm.ite_snd
    | with_reducible apply Firm.foldl_snd
    | with_reducible apply acceptFrame_firm
    | with_reducible apply gainSync_firm
    | with_reducible apply modHunter_firm
    | with_reducible apply monitorFrame_firm
    | with_reducible apply standbyFrame_firm
    | (refine Firm.mk' rfl rfl rfl rfl rfl rfl rfl rfl rfl rfl ?_
       first
         | with_reducible assumption
         | with_reducible apply Firm.ite
         | with_reducible apply Firm.foldl
         | with_reducible apply Firm.ite_snd
         | with_reducible apply Firm.foldl_snd
         | with_reducible apply acceptFrame_firm
         | with_reducible apply gainSync_firm
         | with_reducible apply modHunter_firm
         | with_reducible apply monitorFrame_firm
         | with_reducible apply standbyFrame_firm
         | split)
    | (intro x a hx)
    | (intro c; rfl)
    | (intro x hx; exact hx)
    | (intro x hx)
    | (intro x)
    | split
    | dsimp only

theorem countErrored_firm {s0 s : State} {k : Nat} {o : PsyncObs} (h : Firm s0 s) : Firm s0 (countErrored k o s) := by
  unfold countErrored
  try dsimp only
  repeat' first
    | with_reducible assumption
    | with_reducible apply Firm.ite
    | with_reducible apply Firm.foldl
    | with_reducible apply Firm.ite_snd
    | with_reducible apply Firm.foldl_snd
    | with_reducible apply countHunter_firm
    | (refine Firm.mk' rfl rfl rfl rfl rfl rfl rfl rfl rfl rfl ?_
       first
         | with_reducible assumption
         | with_reducible apply Firm.ite
         | with_reducible apply Firm.foldl
         | with_reducible apply Firm.ite_snd
         | with_reducible apply Firm.foldl_snd
         | with_reducible apply countHunter_firm
         | split)
    | (intro x a hx)
    | (intro c; rfl)
    | (intro x hx; exact hx)
    | (intro x hx)
    | (intro x)
    | split
    | dsimp only

theorem execCandidatePositionReached_firm {s : State} {hunter : Nat} {cand : Nat} {psync : PsyncObs} {frame : FrameObs} : FirmOut s (execCandidatePositionReached hunter cand psync frame s) := by
  have h := Firm.refl s
  unfold execCandidatePositionReached
  try dsimp only
  repeat' first
    | with_reducible assumption
    | with_reducible apply FirmOut.ite
    | with_reducible apply FirmOut.next
    | with_reducible apply Firm.ite
    | with_reducible apply Firm.foldl
    | with_reducible apply Firm.ite_snd
    | with_reducible apply Firm.foldl_snd
    | with_reducible apply acceptAt_firm
    | with_reducible apply countErrored_firm
    | with_reducible apply countHunter_firm
    | with_reducible apply modHunter_firm
    | with_reducible apply psyncInjected_firm
    | with_reducible apply sfcPasses_firm
    | (refine Firm.mk' rfl rfl rfl rfl rfl rfl rfl rfl rfl rfl ?_
       first
         | with_reducible assumption
         | with_reducible apply FirmOut.ite
         | with_reducible apply FirmOut.next
         | with_reducible apply Firm.ite
         | with_reducible apply Firm.foldl
         | with_reducible apply Firm.ite_snd
         | with_reducible apply Firm.foldl_snd
         | with_reducible apply acceptAt_firm
         | with_reducible apply countErrored_firm
         | with_reducible apply countHunter_firm
         | with_reducible apply modHunter_firm
         | with_reducible apply psyncInjected_firm
         | with_reducible apply sfcPasses_firm
         | split)
    | (intro x a hx)
    | (intro c; rfl)
    | (intro x hx; exact hx)
    | (intro x hx)
    | (intro x)
    | split
    | dsimp only

theorem missedFrame_firm {s0 s : State} {k : Nat} {hit : Bool} {hec : Bool} {o : PsyncObs} {fr : FrameObs} (h : Firm s0 s) : Firm s0 (missedFrame k hit hec o fr s) := by
  unfold missedFrame
  try dsimp only
  repeat' first
    | with_reducible assumption
    | with_reducible apply Firm.ite
    | with_reducible apply Firm.foldl
    | with_reducible apply Firm.ite_snd
    | with_reducible apply Firm.foldl_snd
    | with_reducible apply acceptAt_firm
    | with_reducible apply countErrored_firm
    | with_reducible apply countHunter_firm
    | with_reducible apply loseSync_firm
    | with_reducible apply modHunter_firm
    | with_reducible apply switchNow_firm
    | (refine Firm.mk' rfl rfl rfl rfl rfl rfl rfl rfl rfl rfl ?_
       first
         | with_reducible assumption
         | with_reducible apply Firm.ite
         | with_reducible apply Firm.foldl
         | with_reducible apply Firm.ite_snd
         | with_reducible apply Firm.foldl_snd
         | with_reducible apply acceptAt_firm
         | with_reducible apply countErrored_firm
         | with_reducible apply countHunter_firm
         | with_reducible apply loseSync_firm
         | with_reducible apply modHunter_firm
         | with_reducible apply switchNow_firm
         | split)
    | (intro x a hx)
    | (intro c; rfl)
    | (intro x hx; exact hx)
    | (intro x hx)
    | (intro x)
    | split
    | dsimp only

theorem execSyncPositionReached_firm {s : State} {hunter : Nat} {psync : PsyncObs} {frame : FrameObs} : FirmOut s (execSyncPositionReached hunter psync frame s) := by
  have h := Firm.refl s
  unfold execSyncPositionReached
  try dsimp only
  repeat' first
    | with_reducible assumption
    | with_reducible apply FirmOut.ite
    | with_reducible apply FirmOut.next
    | with_reducible apply Firm.ite
    | with_reducible apply Firm.foldl
    | with_reducible apply Firm.ite_snd
    | with_reducible apply Firm.foldl_snd
    | with_reducible apply acceptAt_firm
    | with_reducible apply countErrored_firm
    | with_reducible apply missedFrame_firm
    | with_reducible apply modHunter_firm
    | with_reducible apply psyncInjected_firm
    | with_reducible apply sfcPasses_firm
    | (refine Firm.mk' rfl rfl rfl rfl rfl rfl rfl rfl rfl rfl ?_
       first
         | with_reducible assumption
         | with_reducible apply FirmOut.ite
         | with_reducible apply FirmOut.next
         | with_reducible apply Firm.ite
         | with_reducible apply Firm.foldl
         | with_reducible apply Firm.ite_snd
         | with_reducible apply Firm.foldl_snd
         | with_reducible apply acceptAt_firm
         | with_reducible apply countErrored_firm
         | with_reducible apply missedFrame_firm
         | with_reducible apply modHunter_firm
         | with_reducible apply psyncInjected_firm
         | with_reducible apply sfcPasses_firm
         | split)
    | (intro x a hx)
    | (intro c; rfl)
    | (intro x hx; exact hx)
    | (intro x hx)
    | (intro x)
    | split
    | dsimp only

theorem planeConfigAct_firm {s0 s : State} {r : Req} (h : Firm s0 s) : Firm s0 (servedState (planeConfigAct r s)) := by
  unfold planeConfigAct
  try dsimp only
  repeat' first
    | with_reducible assumption
    | with_reducible apply Firm.served_ite
    | with_reducible apply Firm.ok
    | with_reducible apply Firm.okWith
    | with_reducible apply Firm.fail
    | with_reducible apply Firm.conflict
    | with_reducible apply Firm.done
    | with_reducible apply Firm.later
    | with_reducible apply Firm.ite
    | with_reducible apply Firm.foldl
    | with_reducible apply Firm.ite_snd
    | with_reducible apply Firm.foldl_snd
    | with_reducible apply conflict_firm
    | with_reducible apply modPlane_firm
    | with_reducible apply ok_firm
    | (with_reducible show Firm _ (servedState _); split)
    | (refine Firm.mk' rfl rfl rfl rfl rfl rfl rfl rfl rfl rfl ?_
       first
         | with_reducible assumption
         | with_reducible apply Firm.served_ite
         | with_reducible apply Firm.ok
         | with_reducible apply Firm.okWith
         | with_reducible apply Firm.fail
         | with_reducible apply Firm.conflict
         | with_reducible apply Firm.done
         | with_reducible apply Firm.later
         | with_reducible apply Firm.ite
         | with_reducible apply Firm.foldl
         | with_reducible apply Firm.ite_snd
         | with_reducible apply Firm.foldl_snd
         | with_reducible apply conflict_firm
         | with_reducible apply modPlane_firm
         | with_reducible apply ok_firm
         | split)
    | (intro x a hx)
    | (intro c; rfl)
    | (intro x hx; exact hx)
    | (intro x hx)
    | (intro x)
    | split
    | dsimp only

theorem execPlaneConfig_firm {s : State}  : FirmOut s (execPlaneConfig s) := by
  have h := Firm.refl s
  unfold execPlaneConfig
  try dsimp only
  repeat' first
    | with_reducible assumption
    | with_reducible apply FirmOut.ite
    | with_reducible apply FirmOut.next
    | with_reducible apply Firm.ite
    | with_reducible apply Firm.foldl
    | with_reducible apply Firm.ite_snd
    | with_reducible apply Firm.foldl_snd
    | with_reducible apply planeConfigAct_firm
    | exact serve_firm h (fun r x hx hl => planeConfigAct_firm hx)
    | exact serve_firm h (fun r x hx hl => planeConfigAct_firm hx hl)
    | (refine Firm.mk' rfl rfl rfl rfl rfl rfl rfl rfl rfl rfl ?_
       first
         | with_reducible assumption
         | with_reducible apply FirmOut.ite
         | with_reducible apply FirmOut.next
         | with_reducible apply Firm.ite
         | with_reducible apply Firm.foldl
         | with_reducible apply Firm.ite_snd
         | with_reducible apply Firm.foldl_snd
         | with_reducible apply planeConfigAct_firm
         | exact serve_firm h (fun r x hx hl => planeConfigAct_firm hx)
         | exact serve_firm h (fun r x hx hl => planeConfigAct_firm hx hl)
         | split)
    | (intro x a hx)
    | (intro c; rfl)
    | (intro x hx; exact hx)
    | (intro x hx)
    | (intro x)
    | split
    | dsimp only

theorem startDetectors_firm {s0 s : State} {c : DefectCfg} {port : Nat} (h : Firm s0 s) : Firm s0 (startDetectors c port s) := by
  unfold startDetectors
  try dsimp only
  repeat' first
    | with_reducible assumption
    | with_reducible apply Firm.ite
    | with_reducible apply Firm.foldl
    | with_reducible apply Firm.ite_snd
    | with_reducible apply Firm.foldl_snd
    | with_reducible apply modDef_firm
    | (refine Firm.mk' rfl rfl rfl rfl rfl rfl rfl rfl rfl rfl ?_
       first
         | with_reducible assumption
         | with_reducible apply Firm.ite
         | with_reducible apply Firm.foldl
         | with_reducible apply Firm.ite_snd
         | with_reducible apply Firm.foldl_snd
         | with_reducible apply modDef_firm
         | split)
    | (intro x a hx)
    | (intro c; rfl)
    | (intro x hx; exact hx)
    | (intro x hx)
    | (intro x)
    | split
    | dsimp only

theorem bindEngines_firm {s0 s : State} {p : Nat} (h : Firm s0 s) : Firm s0 (bindEngines p s) := by
  unfold bindEngines
  try dsimp only
  repeat' first
    | with_reducible assumption
    | with_reducible apply Firm.ite
    | with_reducible apply Firm.foldl
    | with_reducible apply Firm.ite_snd
    | with_reducible apply Firm.foldl_snd
    | with_reducible apply modProt_firm
    | with_reducible apply setEngine_firm
    | (refine Firm.mk' rfl rfl rfl rfl rfl rfl rfl rfl rfl rfl ?_
       first
         | with_reducible assumption
         | with_reducible apply Firm.ite
         | with_reducible apply Firm.foldl
         | with_reducible apply Firm.ite_snd
         | with_reducible apply Firm.foldl_snd
         | with_reducible apply modProt_firm
         | with_reducible apply setEngine_firm
         | split)
    | (intro x a hx)
    | (intro c; rfl)
    | (intro x hx; exact hx)
    | (intro x hx)
    | (intro x)
    | split
    | dsimp only

theorem startHunters_firm {s0 s : State} {p : Nat} (h : Firm s0 s) : Firm s0 (startHunters p s) := by
  unfold startHunters
  try dsimp only
  repeat' first
    | with_reducible assumption
    | with_reducible apply Firm.ite
    | with_reducible apply Firm.foldl
    | with_reducible apply Firm.ite_snd
    | with_reducible apply Firm.foldl_snd
    | with_reducible apply modHunter_firm
    | (refine Firm.mk' rfl rfl rfl rfl rfl rfl rfl rfl rfl rfl ?_
       first
         | with_reducible assumption
         | with_reducible apply Firm.ite
         | with_reducible apply Firm.foldl
         | with_reducible apply Firm.ite_snd
         | with_reducible apply Firm.foldl_snd
         | with_reducible apply modHunter_firm
         | split)
    | (intro x a hx)
    | (intro c; rfl)
    | (intro x hx; exact hx)
    | (intro x hx)
    | (intro x)
    | split
    | dsimp only

theorem planeStartAct_firm {s0 s : State} {r : Req} (h : Firm s0 s) : Firm s0 (servedState (planeStartAct r s)) := by
  unfold planeStartAct
  try dsimp only
  repeat' first
    | with_reducible assumption
    | with_reducible apply Firm.served_ite
    | with_reducible apply Firm.ok
    | with_reducible apply Firm.okWith
    | with_reducible apply Firm.fail
    | with_reducible apply Firm.conflict
    | with_reducible apply Firm.done
    | with_reducible apply Firm.later
    | with_reducible apply Firm.ite
    | with_reducible apply Firm.foldl
    | with_reducible apply Firm.ite_snd
    | with_reducible apply Firm.foldl_snd
    | with_reducible apply bindEngines_firm
    | with_reducible apply conflict_firm
    | with_reducible apply enterHunt_firm
    | with_reducible apply fail_firm
    | with_reducible apply judge_firm
    | with_reducible apply modPlane_firm
    | with_reducible apply ok_firm
    | with_reducible apply startDetectors_firm
    | with_reducible apply startHunters_firm
    | with_reducible apply toService_firm
    | (with_reducible show Firm _ (servedState _); split)
    | (refine Firm.mk' rfl rfl rfl rfl rfl rfl rfl rfl rfl rfl ?_
       first
         | with_reducible assumption
         | with_reducible apply Firm.served_ite
         | with_reducible apply Firm.ok
         | with_reducible apply Firm.okWith
         | with_reducible apply Firm.fail
         | with_reducible apply Firm.conflict
         | with_reducible apply Firm.done
         | with_reducible apply Firm.later
         | with_reducible apply Firm.ite
         | with_reducible apply Firm.foldl
         | with_reducible apply Firm.ite_snd
         | with_reducible apply Firm.foldl_snd
         | with_reducible apply bindEngines_firm
         | with_reducible apply conflict_firm
         | with_reducible apply enterHunt_firm
         | with_reducible apply fail_firm
         | with_reducible apply judge_firm
         | with_reducible apply modPlane_firm
         | with_reducible apply ok_firm
         | with_reducible apply startDetectors_firm
         | with_reducible apply startHunters_firm
         | with_reducible apply toService_firm
         | split)
    | (intro x a hx)
    | (intro c; rfl)
    | (intro x hx; exact hx)
    | (intro x hx)
    | (intro x)
    | split
    | dsimp only

theorem execPlaneStart_firm {s : State}  : FirmOut s (execPlaneStart s) := by
  have h := Firm.refl s
  unfold execPlaneStart
  try dsimp only
  repeat' first
    | with_reducible assumption
    | with_reducible apply FirmOut.ite
    | with_reducible apply FirmOut.next
    | with_reducible apply Firm.ite
    | with_reducible apply Firm.foldl
    | with_reducible apply Firm.ite_snd
    | with_reducible apply Firm.foldl_snd
    | with_reducible apply planeStartAct_firm
    | exact serve_firm h (fun r x hx hl => planeStartAct_firm hx)
    | exact serve_firm h (fun r x hx hl => planeStartAct_firm hx hl)
    | (refine Firm.mk' rfl rfl rfl rfl rfl rfl rfl rfl rfl rfl ?_
       first
         | with_reducible assumption
         | with_reducible apply FirmOut.ite
         | with_reducible apply FirmOut.next
         | with_reducible apply Firm.ite
         | with_reducible apply Firm.foldl
         | with_reducible apply Firm.ite_snd
         | with_reducible apply Firm.foldl_snd
         | with_reducible apply planeStartAct_firm
         | exact serve_firm h (fun r x hx hl => planeStartAct_firm hx)
         | exact serve_firm h (fun r x hx hl => planeStartAct_firm hx hl)
         | split)
    | (intro x a hx)
    | (intro c; rfl)
    | (intro x hx; exact hx)
    | (intro x hx)
    | (intro x)
    | split
    | dsimp only

theorem planeStopAct_firm {s0 s : State} {r : Req} (h : Firm s0 s) : Firm s0 (servedState (planeStopAct r s)) := by
  unfold planeStopAct
  try dsimp only
  repeat' first
    | with_reducible assumption
    | with_reducible apply Firm.served_ite
    | with_reducible apply Firm.ok
    | with_reducible apply Firm.okWith
    | with_reducible apply Firm.fail
    | with_reducible apply Firm.conflict
    | with_reducible apply Firm.done
    | with_reducible apply Firm.later
    | with_reducible apply Firm.ite
    | with_reducible apply Firm.foldl
    | with_reducible apply Firm.ite_snd
    | with_reducible apply Firm.foldl_snd
    | with_reducible apply conflict_firm
    | with_reducible apply ok_firm
    | with_reducible apply stopPlane_firm
    | (with_reducible show Firm _ (servedState _); split)
    | (refine Firm.mk' rfl rfl rfl rfl rfl rfl rfl rfl rfl rfl ?_
       first
         | with_reducible assumption
         | with_reducible apply Firm.served_ite
         | with_reducible apply Firm.ok
         | with_reducible apply Firm.okWith
         | with_reducible apply Firm.fail
         | with_reducible apply Firm.conflict
         | with_reducible apply Firm.done
         | with_reducible apply Firm.later
         | with_reducible apply Firm.ite
         | with_reducible apply Firm.foldl
         | with_reducible apply Firm.ite_snd
         | with_reducible apply Firm.foldl_snd
         | with_reducible apply conflict_firm
         | with_reducible apply ok_firm
         | with_reducible apply stopPlane_firm
         | split)
    | (intro x a hx)
    | (intro c; rfl)
    | (intro x hx; exact hx)
    | (intro x hx)
    | (intro x)
    | split
    | dsimp only

theorem execPlaneStop_firm {s : State}  : FirmOut s (execPlaneStop s) := by
  have h := Firm.refl s
  unfold execPlaneStop
  try dsimp only
  repeat' first
    | with_reducible assumption
    | with_reducible apply FirmOut.ite
    | with_reducible apply FirmOut.next
    | with_reducible apply Firm.ite
    | with_reducible apply Firm.foldl
    | with_reducible apply Firm.ite_snd
    | with_reducible apply Firm.foldl_snd
    | with_reducible apply planeStopAct_firm
    | exact serve_firm h (fun r x hx hl => planeStopAct_firm hx)
    | exact serve_firm h (fun r x hx hl => planeStopAct_firm hx hl)
    | (refine Firm.mk' rfl rfl rfl rfl rfl rfl rfl rfl rfl rfl ?_
       first
         | with_reducible assumption
         | with_reducible apply FirmOut.ite
         | with_reducible apply FirmOut.next
         | with_reducible apply Firm.ite
         | with_reducible apply Firm.foldl
         | with_reducible apply Firm.ite_snd
         | with_reducible apply Firm.foldl_snd
         | with_reducible apply planeStopAct_firm
         | exact serve_firm h (fun r x hx hl => planeStopAct_firm hx)
         | exact serve_firm h (fun r x hx hl => planeStopAct_firm hx hl)
         | split)
    | (intro x a hx)
    | (intro c; rfl)
    | (intro x hx; exact hx)
    | (intro x hx)
    | (intro x)
    | split
    | dsimp only

theorem planeStatusAct_firm {s0 s : State} {r : Req} (h : Firm s0 s) : Firm s0 (servedState (planeStatusAct r s)) := by
  unfold planeStatusAct
  try dsimp only
  repeat' first
    | with_reducible assumption
    | with_reducible apply Firm.served_ite
    | with_reducible apply Firm.ok
    | with_reducible apply Firm.okWith
    | with_reducible apply Firm.fail
    | with_reducible apply Firm.conflict
    | with_reducible apply Firm.done
    | with_reducible apply Firm.later
    | with_reducible apply Firm.ite
    | with_reducible apply Firm.foldl
    | with_reducible apply Firm.ite_snd
    | with_reducible apply Firm.foldl_snd
    | with_reducible apply okWith_firm
    | (with_reducible show Firm _ (servedState _); split)
    | (refine Firm.mk' rfl rfl rfl rfl rfl rfl rfl rfl rfl rfl ?_
       first
         | with_reducible assumption
         | with_reducible apply Firm.served_ite
         | with_reducible apply Firm.ok
         | with_reducible apply Firm.okWith
         | with_reducible apply Firm.fail
         | with_reducible apply Firm.conflict
         | with_reducible apply Firm.done
         | with_reducible apply Firm.later
         | with_reducible apply Firm.ite
         | with_reducible apply Firm.foldl
         | with_reducible apply Firm.ite_snd
         | with_reducible apply Firm.foldl_snd
         | with_reducible apply okWith_firm
         | split)
    | (intro x a hx)
    | (intro c; rfl)
    | (intro x hx; exact hx)
    | (intro x hx)
    | (intro x)
    | split
    | dsimp only

theorem execPlaneStatus_firm {s : State}  : FirmOut s (execPlaneStatus s) := by
  have h := Firm.refl s
  unfold execPlaneStatus
  try dsimp only
  repeat' first
    | with_reducible assumption
    | with_reducible apply FirmOut.ite
    | with_reducible apply FirmOut.next
    | with_reducible apply Firm.ite
    | with_reducible apply Firm.foldl
    | with_reducible apply Firm.ite_snd
    | with_reducible apply Firm.foldl_snd
    | with_reducible apply planeStatusAct_firm
    | exact serve_firm h (fun r x hx hl => planeStatusAct_firm hx)
    | exact serve_firm h (fun r x hx hl => planeStatusAct_firm hx hl)
    | (refine Firm.mk' rfl rfl rfl rfl rfl rfl rfl rfl rfl rfl ?_
       first
         | with_reducible assumption
         | with_reducible apply FirmOut.ite
         | with_reducible apply FirmOut.next
         | with_reducible apply Firm.ite
         | with_reducible apply Firm.foldl
         | with_reducible apply Firm.ite_snd
         | with_reducible apply Firm.foldl_snd
         | with_reducible apply planeStatusAct_firm
         | exact serve_firm h (fun r x hx hl => planeStatusAct_firm hx)
         | exact serve_firm h (fun r x hx hl => planeStatusAct_firm hx hl)
         | split)
    | (intro x a hx)
    | (intro c; rfl)
    | (intro x hx; exact hx)
    | (intro x hx)
    | (intro x)
    | split
    | dsimp only

theorem planeCountersAct_firm {s0 s : State} {r : Req} (h : Firm s0 s) : Firm s0 (servedState (planeCountersAct r s)) := by
  unfold planeCountersAct
  try dsimp only
  repeat' first
    | with_reducible assumption
    | with_reducible apply Firm.served_ite
    | with_reducible apply Firm.ok
    | with_reducible apply Firm.okWith
    | with_reducible apply Firm.fail
    | with_reducible apply Firm.conflict
    | with_reducible apply Firm.done
    | with_reducible apply Firm.later
    | with_reducible apply Firm.ite
    | with_reducible apply Firm.foldl
    | with_reducible apply Firm.ite_snd
    | with_reducible apply Firm.foldl_snd
    | with_reducible apply modPlane_firm
    | with_reducible apply okWith_firm
    | (with_reducible show Firm _ (servedState _); split)
    | (refine Firm.mk' rfl rfl rfl rfl rfl rfl rfl rfl rfl rfl ?_
       first
         | with_reducible assumption
         | with_reducible apply Firm.served_ite
         | with_reducible apply Firm.ok
         | with_reducible apply Firm.okWith
         | with_reducible apply Firm.fail
         | with_reducible apply Firm.conflict
         | with_reducible apply Firm.done
         | with_reducible apply Firm.later
         | with_reducible apply Firm.ite
         | with_reducible apply Firm.foldl
         | with_reducible apply Firm.ite_snd
         | with_reducible apply Firm.foldl_snd
         | with_reducible apply modPlane_firm
         | with_reducible apply okWith_firm
         | split)
    | (intro x a hx)
    | (intro c; rfl)
    | (intro x hx; exact hx)
    | (intro x hx)
    | (intro x)
    | split
    | dsimp only

theorem execPlaneCounters_firm {s : State}  : FirmOut s (execPlaneCounters s) := by
  have h := Firm.refl s
  unfold execPlaneCounters
  try dsimp only
  repeat' first
    | with_reducible assumption
    | with_reducible apply FirmOut.ite
    | with_reducible apply FirmOut.next
    | with_reducible apply Firm.ite
    | with_reducible apply Firm.foldl
    | with_reducible apply Firm.ite_snd
    | with_reducible apply Firm.foldl_snd
    | with_reducible apply planeCountersAct_firm
    | exact serve_firm h (fun r x hx hl => planeCountersAct_firm hx)
    | exact serve_firm h (fun r x hx hl => planeCountersAct_firm hx hl)
    | (refine Firm.mk' rfl rfl rfl rfl rfl rfl rfl rfl rfl rfl ?_
       first
         | with_reducible assumption
         | with_reducible apply FirmOut.ite
         | with_reducible apply FirmOut.next
         | with_reducible apply Firm.ite
         | with_reducible apply Firm.foldl
         | with_reducible apply Firm.ite_snd
         | with_reducible apply Firm.foldl_snd
         | with_reducible apply planeCountersAct_firm
         | exact serve_firm h (fun r x hx hl => planeCountersAct_firm hx)
         | exact serve_firm h (fun r x hx hl => planeCountersAct_firm hx hl)
         | split)
    | (intro x a hx)
    | (intro c; rfl)
    | (intro x hx; exact hx)
    | (intro x hx)
    | (intro x)
    | split
    | dsimp only

theorem defectConfigAct_firm {s0 s : State} {r : Req} (h : Firm s0 s) : Firm s0 (servedState (defectConfigAct r s)) := by
  unfold defectConfigAct
  try dsimp only
  repeat' first
    | with_reducible assumption
    | with_reducible apply Firm.served_ite
    | with_reducible apply Firm.ok
    | with_reducible apply Firm.okWith
    | with_reducible apply Firm.fail
    | with_reducible apply Firm.conflict
    | with_reducible apply Firm.done
    | with_reducible apply Firm.later
    | with_reducible apply Firm.ite
    | with_reducible apply Firm.foldl
    | with_reducible apply Firm.ite_snd
    | with_reducible apply Firm.foldl_snd
    | with_reducible apply modPlane_firm
    | with_reducible apply ok_firm
    | (with_reducible show Firm _ (servedState _); split)
    | (refine Firm.mk' rfl rfl rfl rfl rfl rfl rfl rfl rfl rfl ?_
       first
         | with_reducible assumption
         | with_reducible apply Firm.served_ite
         | with_reducible apply Firm.ok
         | with_reducible apply Firm.okWith
         | with_reducible apply Firm.fail
         | with_reducible apply Firm.conflict
         | with_reducible apply Firm.done
         | with_reducible apply Firm.later
         | with_reducible apply Firm.ite
         | with_reducible apply Firm.foldl
         | with_reducible apply Firm.ite_snd
         | with_reducible apply Firm.foldl_snd
         | with_reducible apply modPlane_firm
         | with_reducible apply ok_firm
         | split)
    | (intro x a hx)
    | (intro c; rfl)
    | (intro x hx; exact hx)
    | (intro x hx)
    | (intro x)
    | split
    | dsimp only

theorem execDefectConfig_firm {s : State}  : FirmOut s (execDefectConfig s) := by
  have h := Firm.refl s
  unfold execDefectConfig
  try dsimp only
  repeat' first
    | with_reducible assumption
    | with_reducible apply FirmOut.ite
    | with_reducible apply FirmOut.next
    | with_reducible apply Firm.ite
    | with_reducible apply Firm.foldl
    | with_reducible apply Firm.ite_snd
    | with_reducible apply Firm.foldl_snd
    | with_reducible apply defectConfigAct_firm
    | exact serve_firm h (fun r x hx hl => defectConfigAct_firm hx)
    | exact serve_firm h (fun r x hx hl => defectConfigAct_firm hx hl)
    | (refine Firm.mk' rfl rfl rfl rfl rfl rfl rfl rfl rfl rfl ?_
       first
         | with_reducible assumption
         | with_reducible apply FirmOut.ite
         | with_reducible apply FirmOut.next
         | with_reducible apply Firm.ite
         | with_reducible apply Firm.foldl
         | with_reducible apply Firm.ite_snd
         | with_reducible apply Firm.foldl_snd
         | with_reducible apply defectConfigAct_firm
         | exact serve_firm h (fun r x hx hl => defectConfigAct_firm hx)
         | exact serve_firm h (fun r x hx hl => defectConfigAct_firm hx hl)
         | split)
    | (intro x a hx)
    | (intro c; rfl)
    | (intro x hx; exact hx)
    | (intro x hx)
    | (intro x)
    | split
    | dsimp only

theorem defectQual_firm {s0 s : State} {port : Nat} {b : Nat} (h : Firm s0 s) : Firm s0 (defectQual port b s) := by
  unfold defectQual
  try dsimp only
  repeat' first
    | with_reducible assumption
    | with_reducible apply Firm.ite
    | with_reducible apply Firm.foldl
    | with_reducible apply Firm.ite_snd
    | with_reducible apply Firm.foldl_snd
    | with_reducible apply loseQual_firm
    | (refine Firm.mk' rfl rfl rfl rfl rfl rfl rfl rfl rfl rfl ?_
       first
         | with_reducible assumption
         | with_reducible apply Firm.ite
         | with_reducible apply Firm.foldl
         | with_reducible apply Firm.ite_snd
         | with_reducible apply Firm.foldl_snd
         | with_reducible apply loseQual_firm
         | split)
    | (intro x a hx)
    | (intro c; rfl)
    | (intro x hx; exact hx)
    | (intro x hx)
    | (intro x)
    | split
    | dsimp only

theorem bridgeSwitch_firm {s0 s : State} {port : Nat} (h : Firm s0 s) : Firm s0 (bridgeSwitch port s) := by
  unfold bridgeSwitch
  try dsimp only
  repeat' first
    | with_reducible assumption
    | with_reducible apply Firm.ite
    | with_reducible apply Firm.foldl
    | with_reducible apply Firm.ite_snd
    | with_reducible apply Firm.foldl_snd
    | with_reducible apply bridge_firm
    | (refine Firm.mk' rfl rfl rfl rfl rfl rfl rfl rfl rfl rfl ?_
       first
         | with_reducible assumption
         | with_reducible apply Firm.ite
         | with_reducible apply Firm.foldl
         | with_reducible apply Firm.ite_snd
         | with_reducible apply Firm.foldl_snd
         | with_reducible apply bridge_firm
         | split)
    | (intro x a hx)
    | (intro c; rfl)
    | (intro x hx; exact hx)
    | (intro x hx)
    | (intro x)
    | split
    | dsimp only

theorem declareDefect_firm {s0 s : State} {port : Nat} {b : Nat} (h : Firm s0 s) : Firm s0 (declareDefect port b s) := by
  unfold declareDefect
  try dsimp only
  repeat' first
    | with_reducible assumption
    | with_reducible apply Firm.ite
    | with_reducible apply Firm.foldl
    | with_reducible apply Firm.ite_snd
    | with_reducible apply Firm.foldl_snd
    | with_reducible apply bridgeSwitch_firm
    | with_reducible apply defectEvent_firm
    | with_reducible apply defectQual_firm
    | with_reducible apply judge_firm
    | with_reducible apply modDef_firm
    | (refine Firm.mk' rfl rfl rfl rfl rfl rfl rfl rfl rfl rfl ?_
       first
         | with_reducible assumption
         | with_reducible apply Firm.ite
         | with_reducible apply Firm.foldl
         | with_reducible apply Firm.ite_snd
         | with_reducible apply Firm.foldl_snd
         | with_reducible apply bridgeSwitch_firm
         | with_reducible apply defectEvent_firm
         | with_reducible apply defectQual_firm
         | with_reducible apply judge_firm
         | with_reducible apply modDef_firm
         | split)
    | (intro x a hx)
    | (intro c; rfl)
    | (intro x hx; exact hx)
    | (intro x hx)
    | (intro x)
    | split
    | dsimp only

theorem clearDefect_firm {s0 s : State} {port : Nat} {b : Nat} (h : Firm s0 s) : Firm s0 (clearDefect port b s) := by
  unfold clearDefect
  try dsimp only
  repeat' first
    | with_reducible assumption
    | with_reducible apply Firm.ite
    | with_reducible apply Firm.foldl
    | with_reducible apply Firm.ite_snd
    | with_reducible apply Firm.foldl_snd
    | with_reducible apply defectEvent_firm
    | with_reducible apply judge_firm
    | with_reducible apply modDef_firm
    | (refine Firm.mk' rfl rfl rfl rfl rfl rfl rfl rfl rfl rfl ?_
       first
         | with_reducible assumption
         | with_reducible apply Firm.ite
         | with_reducible apply Firm.foldl
         | with_reducible apply Firm.ite_snd
         | with_reducible apply Firm.foldl_snd
         | with_reducible apply defectEvent_firm
         | with_reducible apply judge_firm
         | with_reducible apply modDef_firm
         | split)
    | (intro x a hx)
    | (intro c; rfl)
    | (intro x hx; exact hx)
    | (intro x hx)
    | (intro x)
    | split
    | dsimp only

theorem execLosDeclare_firm {s : State} {port : Nat} : FirmOut s (execLosDeclare port s) := by
  have h := Firm.refl s
  unfold execLosDeclare
  try dsimp only
  repeat' first
    | with_reducible assumption
    | with_reducible apply FirmOut.ite
    | with_reducible apply FirmOut.next
    | with_reducible apply Firm.ite
    | with_reducible apply Firm.foldl
    | with_reducible apply Firm.ite_snd
    | with_reducible apply Firm.foldl_snd
    | with_reducible apply declareDefect_firm
    | (refine Firm.mk' rfl rfl rfl rfl rfl rfl rfl rfl rfl rfl ?_
       first
         | with_reducible assumption
         | with_reducible apply FirmOut.ite
         | with_reducible apply FirmOut.next
         | with_reducible apply Firm.ite
         | with_reducible apply Firm.foldl
         | with_reducible apply Firm.ite_snd
         | with_reducible apply Firm.foldl_snd
         | with_reducible apply declareDefect_firm
         | split)
    | (intro x a hx)
    | (intro c; rfl)
    | (intro x hx; exact hx)
    | (intro x hx)
    | (intro x)
    | split
    | dsimp only

theorem execLosClear_firm {s : State} {port : Nat} : FirmOut s (execLosClear port s) := by
  have h := Firm.refl s
  unfold execLosClear
  try dsimp only
  repeat' first
    | with_reducible assumption
    | with_reducible apply FirmOut.ite
    | with_reducible apply FirmOut.next
    | with_reducible apply Firm.ite
    | with_reducible apply Firm.foldl
    | with_reducible apply Firm.ite_snd
    | with_reducible apply Firm.foldl_snd
    | with_reducible apply clearDefect_firm
    | (refine Firm.mk' rfl rfl rfl rfl rfl rfl rfl rfl rfl rfl ?_
       first
         | with_reducible assumption
         | with_reducible apply FirmOut.ite
         | with_reducible apply FirmOut.next
         | with_reducible apply Firm.ite
         | with_reducible apply Firm.foldl
         | with_reducible apply Firm.ite_snd
         | with_reducible apply Firm.foldl_snd
         | with_reducible apply clearDefect_firm
         | split)
    | (intro x a hx)
    | (intro c; rfl)
    | (intro x hx; exact hx)
    | (intro x hx)
    | (intro x)
    | split
    | dsimp only

theorem execLolDeclare_firm {s : State} {moment : DefectMoment} : FirmOut s (execLolDeclare moment s) := by
  have h := Firm.refl s
  unfold execLolDeclare
  try dsimp only
  repeat' first
    | with_reducible assumption
    | with_reducible apply FirmOut.ite
    | with_reducible apply FirmOut.next
    | with_reducible apply Firm.ite
    | with_reducible apply Firm.foldl
    | with_reducible apply Firm.ite_snd
    | with_reducible apply Firm.foldl_snd
    | with_reducible apply declareDefect_firm
    | (refine Firm.mk' rfl rfl rfl rfl rfl rfl rfl rfl rfl rfl ?_
       first
         | with_reducible assumption
         | with_reducible apply FirmOut.ite
         | with_reducible apply FirmOut.next
         | with_reducible apply Firm.ite
         | with_reducible apply Firm.foldl
         | with_reducible apply Firm.ite_snd
         | with_reducible apply Firm.foldl_snd
         | with_reducible apply declareDefect_firm
         | split)
    | (intro x a hx)
    | (intro c; rfl)
    | (intro x hx; exact hx)
    | (intro x hx)
    | (intro x)
    | split
    | dsimp only

theorem execLolClear_firm {s : State} {moment : DefectMoment} : FirmOut s (execLolClear moment s) := by
  have h := Firm.refl s
  unfold execLolClear
  try dsimp only
  repeat' first
    | with_reducible assumption
    | with_reducible apply FirmOut.ite
    | with_reducible apply FirmOut.next
    | with_reducible apply Firm.ite
    | with_reducible apply Firm.foldl
    | with_reducible apply Firm.ite_snd
    | with_reducible apply Firm.foldl_snd
    | with_reducible apply clearDefect_firm
    | (refine Firm.mk' rfl rfl rfl rfl rfl rfl rfl rfl rfl rfl ?_
       first
         | with_reducible assumption
         | with_reducible apply FirmOut.ite
         | with_reducible apply FirmOut.next
         | with_reducible apply Firm.ite
         | with_reducible apply Firm.foldl
         | with_reducible apply Firm.ite_snd
         | with_reducible apply Firm.foldl_snd
         | with_reducible apply clearDefect_firm
         | split)
    | (intro x a hx)
    | (intro c; rfl)
    | (intro x hx; exact hx)
    | (intro x hx)
    | (intro x)
    | split
    | dsimp only

theorem execLofDeclare_firm {s : State} {moment : DefectMoment} : FirmOut s (execLofDeclare moment s) := by
  have h := Firm.refl s
  unfold execLofDeclare
  try dsimp only
  repeat' first
    | with_reducible assumption
    | with_reducible apply FirmOut.ite
    | with_reducible apply FirmOut.next
    | with_reducible apply Firm.ite
    | with_reducible apply Firm.foldl
    | with_reducible apply Firm.ite_snd
    | with_reducible apply Firm.foldl_snd
    | with_reducible apply declareDefect_firm
    | (refine Firm.mk' rfl rfl rfl rfl rfl rfl rfl rfl rfl rfl ?_
       first
         | with_reducible assumption
         | with_reducible apply FirmOut.ite
         | with_reducible apply FirmOut.next
         | with_reducible apply Firm.ite
         | with_reducible apply Firm.foldl
         | with_reducible apply Firm.ite_snd
         | with_reducible apply Firm.foldl_snd
         | with_reducible apply declareDefect_firm
         | split)
    | (intro x a hx)
    | (intro c; rfl)
    | (intro x hx; exact hx)
    | (intro x hx)
    | (intro x)
    | split
    | dsimp only

theorem execLofClear_firm {s : State} {moment : DefectMoment} : FirmOut s (execLofClear moment s) := by
  have h := Firm.refl s
  unfold execLofClear
  try dsimp only
  repeat' first
    | with_reducible assumption
    | with_reducible apply FirmOut.ite
    | with_reducible apply FirmOut.next
    | with_reducible apply Firm.ite
    | with_reducible apply Firm.foldl
    | with_reducible apply Firm.ite_snd
    | with_reducible apply Firm.foldl_snd
    | with_reducible apply clearDefect_firm
    | (refine Firm.mk' rfl rfl rfl rfl rfl rfl rfl rfl rfl rfl ?_
       first
         | with_reducible assumption
         | with_reducible apply FirmOut.ite
         | with_reducible apply FirmOut.next
         | with_reducible apply Firm.ite
         | with_reducible apply Firm.foldl
         | with_reducible apply Firm.ite_snd
         | with_reducible apply Firm.foldl_snd
         | with_reducible apply clearDefect_firm
         | split)
    | (intro x a hx)
    | (intro c; rfl)
    | (intro x hx; exact hx)
    | (intro x hx)
    | (intro x)
    | split
    | dsimp only

theorem nextLofec_firm {s0 s : State} {port : Nat} (h : Firm s0 s) : Firm s0 (nextLofec port s) := by
  unfold nextLofec
  try dsimp only
  repeat' first
    | with_reducible assumption
    | with_reducible apply Firm.ite
    | with_reducible apply Firm.foldl
    | with_reducible apply Firm.ite_snd
    | with_reducible apply Firm.foldl_snd
    | with_reducible apply modDef_firm
    | (refine Firm.mk' rfl rfl rfl rfl rfl rfl rfl rfl rfl rfl ?_
       first
         | with_reducible assumption
         | with_reducible apply Firm.ite
         | with_reducible apply Firm.foldl
         | with_reducible apply Firm.ite_snd
         | with_reducible apply Firm.foldl_snd
         | with_reducible apply modDef_firm
         | split)
    | (intro x a hx)
    | (intro c; rfl)
    | (intro x hx; exact hx)
    | (intro x hx)
    | (intro x)
    | split
    | dsimp only

theorem judgeLofec_firm {s0 s : State} {port : Nat} {d : DefPort} (h : Firm s0 s) : Firm s0 (judgeLofec port d s) := by
  unfold judgeLofec
  try dsimp only
  repeat' first
    | with_reducible assumption
    | with_reducible apply Firm.ite
    | with_reducible apply Firm.foldl
    | with_reducible apply Firm.ite_snd
    | with_reducible apply Firm.foldl_snd
    | with_reducible apply clearDefect_firm
    | with_reducible apply declareDefect_firm
    | with_reducible apply modDef_firm
    | (refine Firm.mk' rfl rfl rfl rfl rfl rfl rfl rfl rfl rfl ?_
       first
         | with_reducible assumption
         | with_reducible apply Firm.ite
         | with_reducible apply Firm.foldl
         | with_reducible apply Firm.ite_snd
         | with_reducible apply Firm.foldl_snd
         | with_reducible apply clearDefect_firm
         | with_reducible apply declareDefect_firm
         | with_reducible apply modDef_firm
         | split)
    | (intro x a hx)
    | (intro c; rfl)
    | (intro x hx; exact hx)
    | (intro x hx)
    | (intro x)
    | split
    | dsimp only

theorem execLofecWindowEnd_firm {s : State} {moment : DefectMoment} : FirmOut s (execLofecWindowEnd moment s) := by
  have h := Firm.refl s
  unfold execLofecWindowEnd
  try dsimp only
  repeat' first
    | with_reducible assumption
    | with_reducible apply FirmOut.ite
    | with_reducible apply FirmOut.next
    | with_reducible apply Firm.ite
    | with_reducible apply Firm.foldl
    | with_reducible apply Firm.ite_snd
    | with_reducible apply Firm.foldl_snd
    | with_reducible apply judgeLofec_firm
    | with_reducible apply nextLofec_firm
    | (refine Firm.mk' rfl rfl rfl rfl rfl rfl rfl rfl rfl rfl ?_
       first
         | with_reducible assumption
         | with_reducible apply FirmOut.ite
         | with_reducible apply FirmOut.next
         | with_reducible apply Firm.ite
         | with_reducible apply Firm.foldl
         | with_reducible apply Firm.ite_snd
         | with_reducible apply Firm.foldl_snd
         | with_reducible apply judgeLofec_firm
         | with_reducible apply nextLofec_firm
         | split)
    | (intro x a hx)
    | (intro c; rfl)
    | (intro x hx; exact hx)
    | (intro x hx)
    | (intro x)
    | split
    | dsimp only

theorem nextSd_firm {s0 s : State} {port : Nat} (h : Firm s0 s) : Firm s0 (nextSd port s) := by
  unfold nextSd
  try dsimp only
  repeat' first
    | with_reducible assumption
    | with_reducible apply Firm.ite
    | with_reducible apply Firm.foldl
    | with_reducible apply Firm.ite_snd
    | with_reducible apply Firm.foldl_snd
    | with_reducible apply modDef_firm
    | (refine Firm.mk' rfl rfl rfl rfl rfl rfl rfl rfl rfl rfl ?_
       first
         | with_reducible assumption
         | with_reducible apply Firm.ite
         | with_reducible apply Firm.foldl
         | with_reducible apply Firm.ite_snd
         | with_reducible apply Firm.foldl_snd
         | with_reducible apply modDef_firm
         | split)
    | (intro x a hx)
    | (intro c; rfl)
    | (intro x hx; exact hx)
    | (intro x hx)
    | (intro x)
    | split
    | dsimp only

theorem judgeSd_firm {s0 s : State} {port : Nat} {d : DefPort} {forced : Bool} (h : Firm s0 s) : Firm s0 (judgeSd port d forced s) := by
  unfold judgeSd
  try dsimp only
  repeat' first
    | with_reducible assumption
    | with_reducible apply Firm.ite
    | with_reducible apply Firm.foldl
    | with_reducible apply Firm.ite_snd
    | with_reducible apply Firm.foldl_snd
    | with_reducible apply clearDefect_firm
    | with_reducible apply declareDefect_firm
    | with_reducible apply modDef_firm
    | (refine Firm.mk' rfl rfl rfl rfl rfl rfl rfl rfl rfl rfl ?_
       first
         | with_reducible assumption
         | with_reducible apply Firm.ite
         | with_reducible apply Firm.foldl
         | with_reducible apply Firm.ite_snd
         | with_reducible apply Firm.foldl_snd
         | with_reducible apply clearDefect_firm
         | with_reducible apply declareDefect_firm
         | with_reducible apply modDef_firm
         | split)
    | (intro x a hx)
    | (intro c; rfl)
    | (intro x hx; exact hx)
    | (intro x hx)
    | (intro x)
    | split
    | dsimp only

theorem execSdWindowEnd_firm {s : State} {moment : DefectMoment} : FirmOut s (execSdWindowEnd moment s) := by
  have h := Firm.refl s
  unfold execSdWindowEnd
  try dsimp only
  repeat' first
    | with_reducible assumption
    | with_reducible apply FirmOut.ite
    | with_reducible apply FirmOut.next
    | with_reducible apply Firm.ite
    | with_reducible apply Firm.foldl
    | with_reducible apply Firm.ite_snd
    | with_reducible apply Firm.foldl_snd
    | with_reducible apply judgeSd_firm
    | with_reducible apply modDef_firm
    | with_reducible apply nextSd_firm
    | with_reducible apply occurrence_firm
    | (refine Firm.mk' rfl rfl rfl rfl rfl rfl rfl rfl rfl rfl ?_
       first
         | with_reducible assumption
         | with_reducible apply FirmOut.ite
         | with_reducible apply FirmOut.next
         | with_reducible apply Firm.ite
         | with_reducible apply Firm.foldl
         | with_reducible apply Firm.ite_snd
         | with_reducible apply Firm.foldl_snd
         | with_reducible apply judgeSd_firm
         | with_reducible apply modDef_firm
         | with_reducible apply nextSd_firm
         | with_reducible apply occurrence_firm
         | split)
    | (intro x a hx)
    | (intro c; rfl)
    | (intro x hx; exact hx)
    | (intro x hx)
    | (intro x)
    | split
    | dsimp only

end Sys2Proof.Machine
end

