-- ==== Sys2Proof/Laws/FirmDelineation.lean ====
section
/-!
SUPPORT. What the operations of Machine/Delineation.lean keep (`Firm`).
-/
set_option Elab.async false
set_option linter.unusedTactic false
set_option linter.unreachableTactic false
set_option linter.unusedVariables false
namespace Sys2Proof.Machine

theorem takeProfile_firm {s0 s : State} {p : Nat} {index : Nat} {b : BurstProfile} (h : Firm s0 s) : Firm s0 (takeProfile p index b s) := by
  unfold takeProfile
  try dsimp only
  repeat' first
    | with_reducible assumption
    | with_reducible apply Firm.ite
    | with_reducible apply Firm.foldl
    | with_reducible apply Firm.ite_snd
    | with_reducible apply Firm.foldl_snd
    | with_reducible apply modPlane_firm
    | with_reducible apply profileKnown_firm
    | with_reducible apply raise_firm
    | with_reducible apply touch_firm
    | (refine Firm.mk' rfl rfl rfl rfl rfl rfl rfl rfl rfl rfl ?_
       first
         | with_reducible assumption
         | with_reducible apply Firm.ite
         | with_reducible apply Firm.foldl
         | with_reducible apply Firm.ite_snd
         | with_reducible apply Firm.foldl_snd
         | with_reducible apply modPlane_firm
         | with_reducible apply profileKnown_firm
         | with_reducible apply raise_firm
         | with_reducible apply touch_firm
         | split)
    | (intro x a hx)
    | (intro c; rfl)
    | (intro x hx; exact hx)
    | (intro x hx)
    | (intro x)
    | split
    | dsimp only

theorem toViews_firm {s0 s : State} {p : Nat} {m : DsMsg} (h : Firm s0 s) : Firm s0 (toViews p m s) := by
  unfold toViews
  try dsimp only
  repeat' first
    | with_reducible assumption
    | with_reducible apply Firm.ite
    | with_reducible apply Firm.foldl
    | with_reducible apply Firm.ite_snd
    | with_reducible apply Firm.foldl_snd
    | with_reducible apply modTermLocal_firm
    | (refine Firm.mk' rfl rfl rfl rfl rfl rfl rfl rfl rfl rfl ?_
       first
         | with_reducible assumption
         | with_reducible apply Firm.ite
         | with_reducible apply Firm.foldl
         | with_reducible apply Firm.ite_snd
         | with_reducible apply Firm.foldl_snd
         | with_reducible apply modTermLocal_firm
         | split)
    | (intro x a hx)
    | (intro c; rfl)
    | (intro x hx; exact hx)
    | (intro x hx)
    | (intro x)
    | split
    | dsimp only

theorem broadcastMessage_firm {s0 s : State} {p : Nat} {m : DsMsg} (h : Firm s0 s) : Firm s0 (broadcastMessage p m s) := by
  unfold broadcastMessage
  try dsimp only
  repeat' first
    | with_reducible assumption
    | with_reducible apply Firm.ite
    | with_reducible apply Firm.foldl
    | with_reducible apply Firm.ite_snd
    | with_reducible apply Firm.foldl_snd
    | with_reducible apply bcastPloam_firm
    | with_reducible apply countPlane_firm
    | with_reducible apply takeProfile_firm
    | with_reducible apply toViews_firm
    | (refine Firm.mk' rfl rfl rfl rfl rfl rfl rfl rfl rfl rfl ?_
       first
         | with_reducible assumption
         | with_reducible apply Firm.ite
         | with_reducible apply Firm.foldl
         | with_reducible apply Firm.ite_snd
         | with_reducible apply Firm.foldl_snd
         | with_reducible apply bcastPloam_firm
         | with_reducible apply countPlane_firm
         | with_reducible apply takeProfile_firm
         | with_reducible apply toViews_firm
         | split)
    | (intro x a hx)
    | (intro c; rfl)
    | (intro x hx; exact hx)
    | (intro x hx)
    | (intro x)
    | split
    | dsimp only

theorem execPloamMessageRx_firm {s : State} {plane : Nat} {msg : DsMsg} : FirmOut s (execPloamMessageRx plane msg s) := by
  have h := Firm.refl s
  unfold execPloamMessageRx
  try dsimp only
  repeat' first
    | with_reducible assumption
    | with_reducible apply FirmOut.ite
    | with_reducible apply FirmOut.next
    | with_reducible apply Firm.ite
    | with_reducible apply Firm.foldl
    | with_reducible apply Firm.ite_snd
    | with_reducible apply Firm.foldl_snd
    | with_reducible apply broadcastMessage_firm
    | with_reducible apply countPlane_firm
    | with_reducible apply toViews_firm
    | (refine Firm.mk' rfl rfl rfl rfl rfl rfl rfl rfl rfl rfl ?_
       first
         | with_reducible assumption
         | with_reducible apply FirmOut.ite
         | with_reducible apply FirmOut.next
         | with_reducible apply Firm.ite
         | with_reducible apply Firm.foldl
         | with_reducible apply Firm.ite_snd
         | with_reducible apply Firm.foldl_snd
         | with_reducible apply broadcastMessage_firm
         | with_reducible apply countPlane_firm
         | with_reducible apply toViews_firm
         | split)
    | (intro x a hx)
    | (intro c; rfl)
    | (intro x hx; exact hx)
    | (intro x hx)
    | (intro x)
    | split
    | dsimp only

theorem dropContext_firm {s0 s : State} {p : Nat} {port : Nat} (h : Firm s0 s) : Firm s0 (dropContext p port s) := by
  unfold dropContext
  try dsimp only
  repeat' first
    | with_reducible assumption
    | with_reducible apply Firm.ite
    | with_reducible apply Firm.foldl
    | with_reducible apply Firm.ite_snd
    | with_reducible apply Firm.foldl_snd
    | with_reducible apply modPlane_firm
    | (refine Firm.mk' rfl rfl rfl rfl rfl rfl rfl rfl rfl rfl ?_
       first
         | with_reducible assumption
         | with_reducible apply Firm.ite
         | with_reducible apply Firm.foldl
         | with_reducible apply Firm.ite_snd
         | with_reducible apply Firm.foldl_snd
         | with_reducible apply modPlane_firm
         | split)
    | (intro x a hx)
    | (intro c; rfl)
    | (intro x hx; exact hx)
    | (intro x hx)
    | (intro x)
    | split
    | dsimp only

theorem setContext_firm {s0 s : State} {p : Nat} {port : Nat} {c : Reasm} (h : Firm s0 s) : Firm s0 (setContext p port c s) := by
  unfold setContext
  try dsimp only
  repeat' first
    | with_reducible assumption
    | with_reducible apply Firm.ite
    | with_reducible apply Firm.foldl
    | with_reducible apply Firm.ite_snd
    | with_reducible apply Firm.foldl_snd
    | with_reducible apply modPlane_firm
    | (refine Firm.mk' rfl rfl rfl rfl rfl rfl rfl rfl rfl rfl ?_
       first
         | with_reducible assumption
         | with_reducible apply Firm.ite
         | with_reducible apply Firm.foldl
         | with_reducible apply Firm.ite_snd
         | with_reducible apply Firm.foldl_snd
         | with_reducible apply modPlane_firm
         | split)
    | (intro x a hx)
    | (intro c; rfl)
    | (intro x hx; exact hx)
    | (intro x hx)
    | (intro x)
    | split
    | dsimp only

theorem nextFragment_firm {s0 s : State} {p : Nat} {x : XgemObs} {unc : Bool} {c : Reasm} (h : Firm s0 s) : Firm s0 (nextFragment p x unc c s).2 := by
  unfold nextFragment
  try dsimp only
  repeat' first
    | with_reducible assumption
    | with_reducible apply Firm.ite
    | with_reducible apply Firm.foldl
    | with_reducible apply Firm.ite_snd
    | with_reducible apply Firm.foldl_snd
    | with_reducible apply countPlane_firm
    | with_reducible apply dropContext_firm
    | with_reducible apply setContext_firm
    | (refine Firm.mk' rfl rfl rfl rfl rfl rfl rfl rfl rfl rfl ?_
       first
         | with_reducible assumption
         | with_reducible apply Firm.ite
         | with_reducible apply Firm.foldl
         | with_reducible apply Firm.ite_snd
         | with_reducible apply Firm.foldl_snd
         | with_reducible apply countPlane_firm
         | with_reducible apply dropContext_firm
         | with_reducible apply setContext_firm
         | split)
    | (intro x a hx)
    | (intro c; rfl)
    | (intro x hx; exact hx)
    | (intro x hx)
    | (intro x)
    | split
    | dsimp only

theorem reassemble_firm {s0 s : State} {p : Nat} {x : XgemObs} {unc : Bool} {t : Stamp} (h : Firm s0 s) : Firm s0 (reassemble p x unc t s).2 := by
  unfold reassemble
  try dsimp only
  repeat' first
    | with_reducible assumption
    | with_reducible apply Firm.ite
    | with_reducible apply Firm.foldl
    | with_reducible apply Firm.ite_snd
    | with_reducible apply Firm.foldl_snd
    | with_reducible apply countPlane_firm
    | with_reducible apply nextFragment_firm
    | with_reducible apply setContext_firm
    | (refine Firm.mk' rfl rfl rfl rfl rfl rfl rfl rfl rfl rfl ?_
       first
         | with_reducible assumption
         | with_reducible apply Firm.ite
         | with_reducible apply Firm.foldl
         | with_reducible apply Firm.ite_snd
         | with_reducible apply Firm.foldl_snd
         | with_reducible apply countPlane_firm
         | with_reducible apply nextFragment_firm
         | with_reducible apply setContext_firm
         | split)
    | (intro x a hx)
    | (intro c; rfl)
    | (intro x hx; exact hx)
    | (intro x hx)
    | (intro x)
    | split
    | dsimp only

theorem omciReceived_firm {s0 s : State} {p : Nat} {f : Nat} {d : Sdu} (h : Firm s0 s) : Firm s0 (omciReceived p f d s) := by
  unfold omciReceived
  try dsimp only
  repeat' first
    | with_reducible assumption
    | with_reducible apply Firm.ite
    | with_reducible apply Firm.foldl
    | with_reducible apply Firm.ite_snd
    | with_reducible apply Firm.foldl_snd
    | with_reducible apply countTerm_firm
    | with_reducible apply modPlane_firm
    | with_reducible apply raise_firm
    | with_reducible apply writeLine_firm
    | (refine Firm.mk' rfl rfl rfl rfl rfl rfl rfl rfl rfl rfl ?_
       first
         | with_reducible assumption
         | with_reducible apply Firm.ite
         | with_reducible apply Firm.foldl
         | with_reducible apply Firm.ite_snd
         | with_reducible apply Firm.foldl_snd
         | with_reducible apply countTerm_firm
         | with_reducible apply modPlane_firm
         | with_reducible apply raise_firm
         | with_reducible apply writeLine_firm
         | split)
    | (intro x a hx)
    | (intro c; rfl)
    | (intro x hx; exact hx)
    | (intro x hx)
    | (intro x)
    | split
    | dsimp only

theorem sduEnters_firm {s0 s : State} {p : Nat} {item : Nat} {x : XgemObs} {d : Sdu} (h : Firm s0 s) : Firm s0 (sduEnters p item x d s) := by
  unfold sduEnters
  try dsimp only
  repeat' first
    | with_reducible assumption
    | with_reducible apply Firm.ite
    | with_reducible apply Firm.foldl
    | with_reducible apply Firm.ite_snd
    | with_reducible apply Firm.foldl_snd
    | with_reducible apply basinItem_firm
    | with_reducible apply clsEnter_firm
    | with_reducible apply freshName_firm
    | with_reducible apply omciReceived_firm
    | (refine Firm.mk' rfl rfl rfl rfl rfl rfl rfl rfl rfl rfl ?_
       first
         | with_reducible assumption
         | with_reducible apply Firm.ite
         | with_reducible apply Firm.foldl
         | with_reducible apply Firm.ite_snd
         | with_reducible apply Firm.foldl_snd
         | with_reducible apply basinItem_firm
         | with_reducible apply clsEnter_firm
         | with_reducible apply freshName_firm
         | with_reducible apply omciReceived_firm
         | split)
    | (intro x a hx)
    | (intro c; rfl)
    | (intro x hx; exact hx)
    | (intro x hx)
    | (intro x)
    | split
    | dsimp only

theorem keySeen_firm {s0 s : State} {p : Nat} {x : XgemObs} (h : Firm s0 s) : Firm s0 (keySeen p x s) := by
  unfold keySeen
  try dsimp only
  repeat' first
    | with_reducible assumption
    | with_reducible apply Firm.ite
    | with_reducible apply Firm.foldl
    | with_reducible apply Firm.ite_snd
    | with_reducible apply Firm.foldl_snd
    | with_reducible apply countTerm_firm
    | with_reducible apply modTermLocal_firm
    | (refine Firm.mk' rfl rfl rfl rfl rfl rfl rfl rfl rfl rfl ?_
       first
         | with_reducible assumption
         | with_reducible apply Firm.ite
         | with_reducible apply Firm.foldl
         | with_reducible apply Firm.ite_snd
         | with_reducible apply Firm.foldl_snd
         | with_reducible apply countTerm_firm
         | with_reducible apply modTermLocal_firm
         | split)
    | (intro x a hx)
    | (intro c; rfl)
    | (intro x hx; exact hx)
    | (intro x hx)
    | (intro x)
    | split
    | dsimp only

theorem downFrame_firm {s0 s : State} {p : Nat} {x : XgemObs} (h : Firm s0 s) : Firm s0 (downFrame p x s) := by
  unfold downFrame
  try dsimp only
  repeat' first
    | with_reducible assumption
    | with_reducible apply Firm.ite
    | with_reducible apply Firm.foldl
    | with_reducible apply Firm.ite_snd
    | with_reducible apply Firm.foldl_snd
    | with_reducible apply basinItem_firm
    | with_reducible apply freshName_firm
    | with_reducible apply reassemble_firm
    | with_reducible apply sduEnters_firm
    | (refine Firm.mk' rfl rfl rfl rfl rfl rfl rfl rfl rfl rfl ?_
       first
         | with_reducible assumption
         | with_reducible apply Firm.ite
         | with_reducible apply Firm.foldl
         | with_reducible apply Firm.ite_snd
         | with_reducible apply Firm.foldl_snd
         | with_reducible apply basinItem_firm
         | with_reducible apply freshName_firm
         | with_reducible apply reassemble_firm
         | with_reducible apply sduEnters_firm
         | split)
    | (intro x a hx)
    | (intro c; rfl)
    | (intro x hx; exact hx)
    | (intro x hx)
    | (intro x)
    | split
    | dsimp only

theorem execXgemFrameDelineated_firm {s : State} {plane : Nat} {frame : XgemObs} : FirmOut s (execXgemFrameDelineated plane frame s) := by
  have h := Firm.refl s
  unfold execXgemFrameDelineated
  try dsimp only
  repeat' first
    | with_reducible assumption
    | with_reducible apply FirmOut.ite
    | with_reducible apply FirmOut.next
    | with_reducible apply Firm.ite
    | with_reducible apply Firm.foldl
    | with_reducible apply Firm.ite_snd
    | with_reducible apply Firm.foldl_snd
    | with_reducible apply countPlane_firm
    | with_reducible apply downFrame_firm
    | with_reducible apply hecInjected_firm
    | with_reducible apply keySeen_firm
    | with_reducible apply modPlane_firm
    | (refine Firm.mk' rfl rfl rfl rfl rfl rfl rfl rfl rfl rfl ?_
       first
         | with_reducible assumption
         | with_reducible apply FirmOut.ite
         | with_reducible apply FirmOut.next
         | with_reducible apply Firm.ite
         | with_reducible apply Firm.foldl
         | with_reducible apply Firm.ite_snd
         | with_reducible apply Firm.foldl_snd
         | with_reducible apply countPlane_firm
         | with_reducible apply downFrame_firm
         | with_reducible apply hecInjected_firm
         | with_reducible apply keySeen_firm
         | with_reducible apply modPlane_firm
         | split)
    | (intro x a hx)
    | (intro c; rfl)
    | (intro x hx; exact hx)
    | (intro x hx)
    | (intro x)
    | split
    | dsimp only

theorem execReasmTimeout_firm {s : State} {plane : Nat} {portId : Nat} : FirmOut s (execReasmTimeout plane portId s) := by
  have h := Firm.refl s
  unfold execReasmTimeout
  try dsimp only
  repeat' first
    | with_reducible assumption
    | with_reducible apply FirmOut.ite
    | with_reducible apply FirmOut.next
    | with_reducible apply Firm.ite
    | with_reducible apply Firm.foldl
    | with_reducible apply Firm.ite_snd
    | with_reducible apply Firm.foldl_snd
    | with_reducible apply countPlane_firm
    | with_reducible apply dropContext_firm
    | (refine Firm.mk' rfl rfl rfl rfl rfl rfl rfl rfl rfl rfl ?_
       first
         | with_reducible assumption
         | with_reducible apply FirmOut.ite
         | with_reducible apply FirmOut.next
         | with_reducible apply Firm.ite
         | with_reducible apply Firm.foldl
         | with_reducible apply Firm.ite_snd
         | with_reducible apply Firm.foldl_snd
         | with_reducible apply countPlane_firm
         | with_reducible apply dropContext_firm
         | split)
    | (intro x a hx)
    | (intro c; rfl)
    | (intro x hx; exact hx)
    | (intro x hx)
    | (intro x)
    | split
    | dsimp only

theorem tapFrame_firm {s0 : State} {p : Nat} {at_ : Nat} {x : XgemObs} {r : List Nat × State} (hr : Firm s0 r.2) : Firm s0 (tapFrame p at_ x r).2 := by
  unfold tapFrame
  try dsimp only
  repeat' first
    | with_reducible assumption
    | with_reducible apply Firm.ite
    | with_reducible apply Firm.foldl
    | with_reducible apply Firm.ite_snd
    | with_reducible apply Firm.foldl_snd
    | with_reducible apply hr
    | with_reducible apply basinItem_firm
    | with_reducible apply clsEnter_firm
    | with_reducible apply freshName_firm
    | with_reducible apply modPlane_firm
    | (refine Firm.mk' rfl rfl rfl rfl rfl rfl rfl rfl rfl rfl ?_
       first
         | with_reducible assumption
         | with_reducible apply Firm.ite
         | with_reducible apply Firm.foldl
         | with_reducible apply Firm.ite_snd
         | with_reducible apply Firm.foldl_snd
         | with_reducible apply hr
         | with_reducible apply basinItem_firm
         | with_reducible apply clsEnter_firm
         | with_reducible apply freshName_firm
         | with_reducible apply modPlane_firm
         | split)
    | (intro x a hx)
    | (intro c; rfl)
    | (intro x hx; exact hx)
    | (intro x hx)
    | (intro x)
    | split
    | dsimp only

theorem grantFields_firm {s0 s : State} {p : Nat} {g : Option GrantExp} {at_ : Nat} (h : Firm s0 s) : Firm s0 (grantFields p g at_ s).2 := by
  unfold grantFields
  try dsimp only
  repeat' first
    | with_reducible assumption
    | with_reducible apply Firm.ite
    | with_reducible apply Firm.foldl
    | with_reducible apply Firm.ite_snd
    | with_reducible apply Firm.foldl_snd
    | with_reducible apply drawFree_firm
    | (refine Firm.mk' rfl rfl rfl rfl rfl rfl rfl rfl rfl rfl ?_
       first
         | with_reducible assumption
         | with_reducible apply Firm.ite
         | with_reducible apply Firm.foldl
         | with_reducible apply Firm.ite_snd
         | with_reducible apply Firm.foldl_snd
         | with_reducible apply drawFree_firm
         | split)
    | (intro x a hx)
    | (intro c; rfl)
    | (intro x hx; exact hx)
    | (intro x hx)
    | (intro x)
    | split
    | dsimp only

theorem burstWaits_firm {s0 s : State} {b : Nat} {w : BurstWait} (h : Firm s0 s) : Firm s0 (burstWaits b w s) := by
  unfold burstWaits
  try dsimp only
  repeat' first
    | with_reducible assumption
    | with_reducible apply Firm.ite
    | with_reducible apply Firm.foldl
    | with_reducible apply Firm.ite_snd
    | with_reducible apply Firm.foldl_snd
    | with_reducible apply loseItem_firm
    | with_reducible apply modBasin_firm
    | with_reducible apply putRec_firm
    | with_reducible apply settleAll_firm
    | with_reducible apply sramWrite_firm
    | (refine Firm.mk' rfl rfl rfl rfl rfl rfl rfl rfl rfl rfl ?_
       first
         | with_reducible assumption
         | with_reducible apply Firm.ite
         | with_reducible apply Firm.foldl
         | with_reducible apply Firm.ite_snd
         | with_reducible apply Firm.foldl_snd
         | with_reducible apply loseItem_firm
         | with_reducible apply modBasin_firm
         | with_reducible apply putRec_firm
         | with_reducible apply settleAll_firm
         | with_reducible apply sramWrite_firm
         | split)
    | (intro x a hx)
    | (intro c; rfl)
    | (intro x hx; exact hx)
    | (intro x hx)
    | (intro x)
    | split
    | dsimp only

theorem execTapBurst_firm {s : State} {plane : Nat} {burst : TapObs} : FirmOut s (execTapBurst plane burst s) := by
  have h := Firm.refl s
  unfold execTapBurst
  try dsimp only
  repeat' first
    | with_reducible assumption
    | with_reducible apply FirmOut.ite
    | with_reducible apply FirmOut.next
    | with_reducible apply Firm.ite
    | with_reducible apply Firm.foldl
    | with_reducible apply Firm.ite_snd
    | with_reducible apply Firm.foldl_snd
    | with_reducible apply burstWaits_firm
    | with_reducible apply grantFields_firm
    | with_reducible apply modPlane_firm
    | with_reducible apply occurrence_firm
    | with_reducible apply tapFrame_firm
    | (refine Firm.mk' rfl rfl rfl rfl rfl rfl rfl rfl rfl rfl ?_
       first
         | with_reducible assumption
         | with_reducible apply FirmOut.ite
         | with_reducible apply FirmOut.next
         | with_reducible apply Firm.ite
         | with_reducible apply Firm.foldl
         | with_reducible apply Firm.ite_snd
         | with_reducible apply Firm.foldl_snd
         | with_reducible apply burstWaits_firm
         | with_reducible apply grantFields_firm
         | with_reducible apply modPlane_firm
         | with_reducible apply occurrence_firm
         | with_reducible apply tapFrame_firm
         | split)
    | (intro x a hx)
    | (intro c; rfl)
    | (intro x hx; exact hx)
    | (intro x hx)
    | (intro x)
    | split
    | dsimp only

end Sys2Proof.Machine
end

