-- ==== Sys2Proof/Laws/FirmAsterCore.lean ====
section
/-!
SUPPORT. What a core's operations keep of its two memories.
-/
set_option Elab.async false
namespace Sys2Proof.Machine

theorem Core.keeps {c d : Core} (hm : d.mem = c.mem) (hs : d.slice = c.slice) (h : coreMems c = true) :
    coreMems d = true := by
  unfold coreMems at *
  rw [hm, hs]
  exact h

theorem Core.foldl_mems {α : Type} {f : Core → α → Core} {l : List α} {c : Core} (h : coreMems c = true)
    (hf : ∀ x a, coreMems x = true → coreMems (f x a) = true) : coreMems (l.foldl f c) = true := by
  induction l generalizing c with
  | nil => exact h
  | cons a l ih => exact ih (hf _ _ h)

theorem Core.land_mems {c : Core} {w : PendWrite} (h : coreMems c = true) : coreMems (c.land w) = true := by
  unfold Core.land
  split <;> exact h

theorem Core.later_mems {c : Core} {a b : Nat} {r : RegName} {v : BitVec 48} (h : coreMems c = true) :
    coreMems (c.later a b r v) = true := h

theorem Core.setSat_mems {c : Core} {a b : Nat} {v : Bool} (h : coreMems c = true) : coreMems (c.setSat a b v) = true := by
  unfold Core.setSat
  split <;> exact h

theorem Core.landDue_mems {c : Core} (h : coreMems c = true) : coreMems c.landDue = true := by
  unfold Core.landDue
  dsimp only
  exact Core.foldl_mems (c := c) h fun x a hx => Core.foldl_mems hx fun y b hy => Core.land_mems hy

theorem Core.writeByte_mems {core a : Nat} {b : Byte} {c : Core} (h : coreMems c = true) :
    coreMems (c.writeByte core a b) = true := by
  unfold coreMems at h
  simp only [Bool.and_eq_true] at h
  unfold Core.writeByte
  split
  · simp only [coreMems, Bool.and_eq_true]
    exact ⟨Memory.wf_write _ _ _ _ h.1, h.2⟩
  · simp only [coreMems, Bool.and_eq_true]
    exact ⟨h.1, Memory.wf_write _ _ _ _ h.2⟩

theorem Core.storeElements_mems {core size : Nat} {es vs : List Nat} {c : Core} (h : coreMems c = true) :
    coreMems (c.storeElements core size es vs) = true :=
  Core.foldl_mems h fun _ _ hx => Core.foldl_mems hx fun _ _ hy => Core.writeByte_mems hy

theorem Core.lsStores_mems {c : Core} {core : Nat} {op : LsOp} {out : Core} (h : coreMems out = true) :
    coreMems (c.lsStores core op out) = true := by
  unfold Core.lsStores
  split
  · exact Core.storeElements_mems h
  · exact Core.storeElements_mems h
  all_goals exact h

theorem Core.lsResults_mems {c : Core} {core slot : Nat} {op : LsOp} {out : Core} (h : coreMems out = true) :
    coreMems (c.lsResults core slot op out) = true := by
  have u : ∀ f : AddrForm, coreMems (match c.pointerAfter f with
      | none => out
      | some v => out.later 1 slot (.p f.ptr) (wide v)) = true := by
    intro f
    split <;> exact h
  unfold Core.lsResults
  dsimp only
  split
  · exact h
  · exact u _
  · exact Core.foldl_mems (u _) fun x a hx => hx
  · exact u _
  · exact u _

theorem Core.macWrite_mems {c : Core} {k : Nat} {v : Int × Bool} (h : coreMems c = true) :
    coreMems (c.macWrite k v) = true := Core.setSat_mems h

theorem Core.macResults_mems {c : Core} {op : MacOp} {out : Core} (h : coreMems out = true) :
    coreMems (c.macResults op out) = true := by
  unfold Core.macResults
  dsimp only
  split
  · exact h
  · exact Core.macWrite_mems h
  · exact Core.foldl_mems h fun x a hx => Core.macWrite_mems hx

theorem Core.aResults_mems {c : Core} {op : AOp} {out : Core} (h : coreMems out = true) :
    coreMems (c.aResults op out) = true := by
  unfold Core.aResults
  dsimp only
  split
  case h_10 => exact Core.setSat_mems (Core.foldl_mems h fun x a hx => Core.later_mems hx)
  case h_4 d s => cases d <;> exact h
  case h_6 => exact Core.setSat_mems h
  all_goals exact h

theorem Core.loopEnd_mems {c : Core} {n : Nat} (h : coreMems c = true) :
    (∀ x, (c.loopEnd n).1 = some x → coreMems x = true) ∧ coreMems (c.loopEnd n).2 = true := by
  unfold Core.loopEnd
  split
  · exact ⟨fun x e => (nomatch e), h⟩
  · split
    · exact ⟨fun x e => (nomatch e), h⟩
    · dsimp only
      split
      · refine ⟨fun x e => ?_, h⟩
        cases e
        exact h
      · exact ⟨fun x e => (nomatch e), h⟩

theorem Core.advance_mems {c : Core} (h : coreMems c = true) : coreMems c.advance = true := by
  have i := Core.loopEnd_mems (n := 1) h
  have o := Core.loopEnd_mems (n := 0) i.2
  unfold Core.advance
  dsimp only
  split
  · rename_i x e; exact i.1 x e
  · split
    · rename_i x e; exact o.1 x e
    · exact o.2

theorem Core.takeEffect_mems {c : Core} {op : CtlOp} (h : coreMems c = true) : coreMems (c.takeEffect op) = true := by
  unfold Core.takeEffect
  split
  · exact h
  · exact h
  · exact h
  · dsimp only
    split <;> exact h

/-- A bundle issued leaves both memories of its core in canonical form. -/
theorem Core.issue_mems {c : Core} {core : Nat} {b : Bundle} (h : coreMems c = true) : coreMems (c.issue core b) = true := by
  have m : coreMems (c.lsStores core b.ls1 (c.lsStores core b.ls0
      (c.aResults b.a (c.macResults b.m (c.lsResults core 1 b.ls1 (c.lsResults core 0 b.ls0 c)))))) = true :=
    Core.lsStores_mems (Core.lsStores_mems (Core.aResults_mems (Core.macResults_mems (Core.lsResults_mems
      (Core.lsResults_mems h)))))
  have a := Core.advance_mems (c := { c.lsStores core b.ls1 (c.lsStores core b.ls0
      (c.aResults b.a (c.macResults b.m (c.lsResults core 1 b.ls1 (c.lsResults core 0 b.ls0 c))))) with
    issued := c.issued + 1 }) m
  unfold Core.issue
  dsimp only
  split
  · exact a
  · split
    · exact Core.takeEffect_mems (Core.keeps rfl rfl a)
    · exact Core.keeps rfl rfl a

end Sys2Proof.Machine
end

