-- ==== Sys2Proof/Laws/FirmFaultEntry.lean ====
section
/-!
SUPPORT. What the operations of Machine/FaultEntry.lean keep (`Firm`).
-/
set_option Elab.async false
set_option linter.unusedTactic false
set_option linter.unreachableTactic false
set_option linter.unusedVariables false
namespace Sys2Proof.Machine

theorem haltLine_firm {s0 s : State} (h : Firm s0 s) : Firm s0 (haltLine s) := by
  unfold haltLine
  try dsimp only
  repeat' first
    | with_reducible assumption
    | with_reducible apply Firm.ite
    | with_reducible apply Firm.foldl
    | with_reducible apply Firm.ite_snd
    | with_reducible apply Firm.foldl_snd
    | with_reducible apply dropTxEn_firm
    | with_reducible apply stopAllCaptures_firm
    | (refine Firm.mk' rfl rfl rfl rfl rfl rfl rfl rfl rfl rfl ?_
       first
         | with_reducible assumption
         | with_reducible apply Firm.ite
         | with_reducible apply Firm.foldl
         | with_reducible apply Firm.ite_snd
         | with_reducible apply Firm.foldl_snd
         | with_reducible apply dropTxEn_firm
         | with_reducible apply stopAllCaptures_firm
         | split)
    | (intro x a hx)
    | (intro c; rfl)
    | (intro x hx; exact hx)
    | (intro x hx)
    | (intro x)
    | split
    | dsimp only

theorem hardwareFault_firm {s0 s : State} {inj : Bool} {code obj : Nat} {args : Bytes} (h : Firm s0 s) :
    Firm s0 (hardwareFault inj code obj args s) := by
  unfold hardwareFault
  dsimp only
  refine signal_firm (haltLine_firm (Firm.mkNone rfl rfl rfl rfl rfl rfl rfl rfl (fun _ => rfl) (fun _ _ => rfl) ?_))
  split
  · exact logOnly_firm h
  · exact recordEvent_firm (logOnly_firm h)

theorem faultState_firm {s0 s : State} {inj : Bool} (h : Firm s0 s)
    (he : FaultIdle s0 → s.pwr.entry = none) : Firm s0 (faultState inj s) := by
  unfold faultState
  apply raiseWith_firm
  exact Firm.mkNone rfl rfl rfl rfl rfl rfl rfl rfl he (fun _ _ => rfl) h

theorem firmwareFault_firm {s0 s : State} {inj : Bool} {d : Bytes} (h : Firm s0 s) :
    Firm s0 (firmwareFault inj d s) := by
  have k : Firm s0 (faultState inj { logOnly inj 0x0F05 0 (fit 32 d) s with
      pwr := { (logOnly inj 0x0F05 0 (fit 32 d) s).pwr with entry := none }
      log := journal (logOnly inj 0x0F05 0 (fit 32 d) s) }) :=
    faultState_firm (Firm.mkNone rfl rfl rfl rfl rfl rfl rfl rfl (fun _ => rfl) (logOnly_firm h).fault
      (logOnly_firm h)) (fun _ => rfl)
  have l := haltLine_firm (Firm.ite (c := (ring (faultState inj { logOnly inj 0x0F05 0 (fit 32 d) s with
      pwr := { (logOnly inj 0x0F05 0 (fit 32 d) s).pwr with entry := none }
      log := journal (logOnly inj 0x0F05 0 (fit 32 d) s) }) 0).head =
    (ring (logOnly inj 0x0F05 0 (fit 32 d) s) 0).head) (signal_firm (v := 0) k) k)
  unfold firmwareFault
  dsimp only
  exact Firm.ite (finishLater_firm l) l

theorem execCpWatchdogExpiry_firm {s : State}  : FirmOut s (execCpWatchdogExpiry s) := by
  have h := Firm.refl s
  unfold execCpWatchdogExpiry
  try dsimp only
  repeat' first
    | with_reducible assumption
    | with_reducible apply FirmOut.ite
    | with_reducible apply FirmOut.next
    | with_reducible apply Firm.ite
    | with_reducible apply Firm.foldl
    | with_reducible apply Firm.ite_snd
    | with_reducible apply Firm.foldl_snd
    | with_reducible apply hardwareFault_firm
    | with_reducible apply occurrence_firm
    | (refine Firm.mk' rfl rfl rfl rfl rfl rfl rfl rfl rfl rfl ?_
       first
         | with_reducible assumption
         | with_reducible apply FirmOut.ite
         | with_reducible apply FirmOut.next
         | with_reducible apply Firm.ite
         | with_reducible apply Firm.foldl
         | with_reducible apply Firm.ite_snd
         | with_reducible apply Firm.foldl_snd
         | with_reducible apply hardwareFault_firm
         | with_reducible apply occurrence_firm
         | split)
    | (intro x a hx)
    | (intro c; rfl)
    | (intro x hx; exact hx)
    | (intro x hx)
    | (intro x)
    | split
    | dsimp only

theorem execFirmwareFault_firm {s : State} {description : Bytes} : FirmOut s (execFirmwareFault description s) := by
  have h := Firm.refl s
  unfold execFirmwareFault
  try dsimp only
  repeat' first
    | with_reducible assumption
    | with_reducible apply FirmOut.ite
    | with_reducible apply FirmOut.next
    | with_reducible apply Firm.ite
    | with_reducible apply Firm.foldl
    | with_reducible apply Firm.ite_snd
    | with_reducible apply Firm.foldl_snd
    | with_reducible apply firmwareFault_firm
    | (refine Firm.mk' rfl rfl rfl rfl rfl rfl rfl rfl rfl rfl ?_
       first
         | with_reducible assumption
         | with_reducible apply FirmOut.ite
         | with_reducible apply FirmOut.next
         | with_reducible apply Firm.ite
         | with_reducible apply Firm.foldl
         | with_reducible apply Firm.ite_snd
         | with_reducible apply Firm.foldl_snd
         | with_reducible apply firmwareFault_firm
         | split)
    | (intro x a hx)
    | (intro c; rfl)
    | (intro x hx; exact hx)
    | (intro x hx)
    | (intro x)
    | split
    | dsimp only

end Sys2Proof.Machine
end

