-- ==== Sys2Proof/Laws/Ops.lean ====
section
/-!
SUPPORT. What the shared operations can do, once: the parts of the state that they change, and their values where the
spec gives them. Every other part of the state is the one before, by the form of the equation.
-/
namespace Sys2Proof.Machine

/-- A signalled vector leaves the device or is left pending. -/
theorem signal_form (v : Nat) (s : State) :
    ∃ o r, signal v s = { s with ctl := { s.ctl with out := o }, rings := r } := by
  unfold signal
  split
  · exact ⟨s.ctl.out, _, rfl⟩
  · exact ⟨_, s.rings, rfl⟩

theorem writeEntry_form (e : Event) (s : State) :
    ∃ o r, writeEntry e s = { s with ctl := { s.ctl with out := o }, rings := r } := by
  unfold writeEntry
  obtain ⟨o, r, h⟩ := signal_form 0 (modRing 0 (fun r => { r with head := ((ring s 0).head + 1) % 1024 })
    { hostWrite (ringAddr s 0 (ring s 0).head 64) (entryBytes s.rings.seq.toNat s.rings.phase e) s with
      rings := { (hostWrite (ringAddr s 0 (ring s 0).head 64) (entryBytes s.rings.seq.toNat s.rings.phase e) s).rings with
        seq := (hostWrite (ringAddr s 0 (ring s 0).head 64) (entryBytes s.rings.seq.toNat s.rings.phase e) s).rings.seq + 1
        unreported := 0
        phase := if ((ring s 0).head + 1) % 1024 = 0 then !(hostWrite (ringAddr s 0 (ring s 0).head 64)
            (entryBytes s.rings.seq.toNat s.rings.phase e) s).rings.phase
          else (hostWrite (ringAddr s 0 (ring s 0).head 64) (entryBytes s.rings.seq.toNat s.rings.phase e) s).rings.phase } })
  exact ⟨o, r, h⟩

theorem flushEvents_form (s : State) :
    ∃ o r, flushEvents s = { s with ctl := { s.ctl with out := o }, rings := r } := by
  have k : ∃ o r, (if eventRoom s && s.rings.unreported != 0 then writeEntry (lostEvent s) s else s) =
      { s with ctl := { s.ctl with out := o }, rings := r } := by
    split
    · exact writeEntry_form _ s
    · exact ⟨s.ctl.out, s.rings, rfl⟩
  obtain ⟨o, r, h⟩ := k
  unfold flushEvents
  rw [h]
  dsimp only
  split
  · exact ⟨o, r, rfl⟩
  · split
    · obtain ⟨o2, r2, h2⟩ := writeEntry_form _ { s with
        ctl := { s.ctl with out := o }
        rings := { r with held := none } }
      exact ⟨o2, r2, h2⟩
    · exact ⟨o, r, rfl⟩

theorem holdEvent_form (e : Event) (s : State) : ∃ r, holdEvent e s = { s with rings := r } := by
  unfold holdEvent
  dsimp only
  split
  · exact ⟨_, rfl⟩
  · exact ⟨_, rfl⟩

/-- Posting an event changes the rings and what has left the device, nothing else. -/
theorem postEvent_form (e : Event) (s : State) :
    ∃ o r, postEvent e s = { s with ctl := { s.ctl with out := o }, rings := r } := by
  obtain ⟨o, r, h⟩ := flushEvents_form s
  unfold postEvent
  rw [h]
  dsimp only
  split
  · split
    · obtain ⟨r2, h2⟩ := holdEvent_form e { s with ctl := { s.ctl with out := o }, rings := r }
      exact ⟨o, r2, h2⟩
    · split
      · obtain ⟨o2, r2, h2⟩ := writeEntry_form e { s with ctl := { s.ctl with out := o }, rings := r }
        exact ⟨o2, r2, h2⟩
      · exact ⟨o, _, rfl⟩
  · split
    · obtain ⟨r2, h2⟩ := holdEvent_form e s
      exact ⟨s.ctl.out, r2, h2⟩
    · exact ⟨s.ctl.out, _, rfl⟩

/-- Recording an event changes the recorder, the rings and what has left the device, nothing else. -/
theorem recordEvent_form (inj only : Bool) (e : Event) (s : State) :
    ∃ o r l, recordEvent inj only e s = { s with ctl := { s.ctl with out := o }, rings := r, log := l } := by
  unfold recordEvent
  dsimp only
  split
  · exact ⟨s.ctl.out, s.rings, s.log, rfl⟩
  · split
    · exact ⟨s.ctl.out, s.rings, _, rfl⟩
    · split
      · split
        · exact ⟨s.ctl.out, s.rings, _, rfl⟩
        · obtain ⟨o, r, h⟩ := postEvent_form { code := 0x0F07, args := le 4 s.log.lastWritten.toNat, time := s.time.ns }
            { s with log := { s.log with nextSeq := s.log.nextSeq + 1, lastSeq := s.log.nextSeq, full := true } }
          exact ⟨o, r, _, h⟩
      · exact ⟨s.ctl.out, s.rings, _, rfl⟩

/-- Raising an event changes the recorder, the rings and what has left the device, nothing else. -/
theorem raiseWith_form (inj : Bool) (code obj : Nat) (args : Bytes) (cause : Option Cause) (s : State) :
    ∃ o r l, raiseWith inj code obj args cause s = { s with ctl := { s.ctl with out := o }, rings := r, log := l } := by
  unfold raiseWith
  dsimp only
  split
  · obtain ⟨o, r, l, h⟩ := recordEvent_form inj false (eventOf code obj args cause s) s
    rw [h]
    obtain ⟨o2, r2, h2⟩ := postEvent_form (eventOf code obj args cause s)
      { s with ctl := { s.ctl with out := o }, rings := r, log := l }
    exact ⟨o2, r2, l, h2⟩
  · obtain ⟨o, r, h⟩ := postEvent_form (eventOf code obj args cause s) s
    exact ⟨o, r, s.log, h⟩

theorem raise_form (code obj : Nat) (args : Bytes) (cause : Option Cause) (s : State) :
    ∃ o r l, raise code obj args cause s = { s with ctl := { s.ctl with out := o }, rings := r, log := l } :=
  raiseWith_form false code obj args cause s

theorem logOnly_form (inj : Bool) (code obj : Nat) (args : Bytes) (s : State) :
    ∃ o r l, logOnly inj code obj args s = { s with ctl := { s.ctl with out := o }, rings := r, log := l } :=
  recordEvent_form _ _ _ s

/-- A transition of the device state changes the device state and raises EV_STATE_CHANGED, nothing else. -/
theorem setDevState_form (d : DevState) (c : Option Cause) (s : State) :
    ∃ o r l, setDevState d c s = { s with ctl := { s.ctl with devState := d, out := o }, rings := r, log := l } := by
  unfold setDevState
  dsimp only
  obtain ⟨o, r, l, h⟩ := raise_form 0x0002 0 (le 1 (stateCode s.ctl.devState) ++ le 1 (stateCode d)) c
    (s.modCtl fun x => { x with devState := d })
  exact ⟨o, r, l, h⟩

theorem setDevState_devState (d : DevState) (c : Option Cause) (s : State) :
    (setDevState d c s).ctl.devState = d := by
  obtain ⟨o, r, l, h⟩ := setDevState_form d c s
  rw [h]

/-! ### Injections -/

theorem injEvent_form (i : Nat) (s : State) :
    ∃ o r l j, injEvent i s = { s with ctl := { s.ctl with out := o }, rings := r, log := l, inj := j } := by
  have k : ∀ c p a, ∃ o r l, (let s1 := raiseWith true c p a none s
      { s1 with inj := { s1.inj with entries := tmod ({} : InjEntry) s1.inj.entries i fun x =>
        { x with since := 0, evAt := some s.time.cycles } } }) = { s with
          ctl := { s.ctl with out := o }
          rings := r
          log := l
          inj := { s.inj with entries := tmod ({} : InjEntry) s.inj.entries i fun x =>
            { x with since := 0, evAt := some s.time.cycles } } } := by
    intro c p a
    obtain ⟨o, r, l, h⟩ := raiseWith_form true c p a none s
    rw [h]
    exact ⟨o, r, l, rfl⟩
  unfold injEvent
  extract_lets e due
  split
  · obtain ⟨o, r, l, h⟩ := k 0x0F08 e.det (le 4 e.target.toNat ++ le 4 e.param.toNat ++ le 4 e.since)
    exact ⟨o, r, l, _, h⟩
  · exact ⟨s.ctl.out, s.rings, s.log, s.inj, rfl⟩

/-- An occurrence changes the injection window, and beside it what EV_INJECTED changes, nothing else. -/
theorem occurrence_form (det target : Nat) (s : State) :
    ∃ o r l j, (occurrence det target s).2 = { s with ctl := { s.ctl with out := o }, rings := r, log := l, inj := j } := by
  have k : ∀ (i : Nat) (x : State) (b : Bool), (∃ j, x = { s with inj := j }) → ∃ o r l j,
      (if b then { injEvent i x with inj := { (injEvent i x).inj with entries := tdel (injEvent i x).inj.entries i } }
        else injEvent i x) = { s with ctl := { s.ctl with out := o }, rings := r, log := l, inj := j } := by
    rintro i x b ⟨j, rfl⟩
    obtain ⟨o, r, l, j2, h⟩ := injEvent_form i { s with inj := j }
    rw [h]
    split
    · exact ⟨o, r, l, _, rfl⟩
    · exact ⟨o, r, l, _, rfl⟩
  unfold occurrence
  split
  · exact ⟨s.ctl.out, s.rings, s.log, s.inj, rfl⟩
  · rename_i i _
    dsimp only
    split
    · exact ⟨s.ctl.out, s.rings, s.log, _, rfl⟩
    · exact k i _ _ ⟨_, rfl⟩

/-- Where no entry is armed for a detector's target, an occurrence is none and changes nothing. -/
theorem occurrence_none {det target : Nat} {s : State} (h : injIndex det target s = none) :
    occurrence det target s = (none, s) := by
  unfold occurrence
  rw [h]

/-! ### Responses -/

/-- Posting a response changes the mailboxes, the rings and what has left the device, nothing else. -/
theorem postResponse_form (e : Exec) (st : Nat) (p : Bytes) (s : State) :
    ∃ o r m, postResponse e st p s = { s with ctl := { s.ctl with out := o }, rings := r, mbx := m } := by
  unfold postResponse
  dsimp only
  split
  · exact ⟨s.ctl.out, s.rings, s.mbx, rfl⟩
  · split
    · exact ⟨s.ctl.out, s.rings, _, rfl⟩
    · split
      · refine ⟨_, _, _, (signal_form _ _).choose_spec.choose_spec⟩
      · exact ⟨s.ctl.out, s.rings, _, rfl⟩

/-- Posting the response of the request in execution changes beside these only that none is in execution. -/
theorem finishLater_form (st : Nat) (p : Bytes) (s : State) :
    ∃ x o r m, finishLater st p s = { s with ctl := { s.ctl with exec := x, out := o }, rings := r, mbx := m } := by
  unfold finishLater
  split
  · exact ⟨s.ctl.exec, s.ctl.out, s.rings, s.mbx, rfl⟩
  · rename_i e _
    obtain ⟨o, r, m, h⟩ := postResponse_form e st p (s.modCtl fun c => { c with exec := none })
    exact ⟨none, o, r, m, h⟩

end Sys2Proof.Machine
end

