-- ==== Sys2Proof/Laws/FirmBoot.lean ====
section
/-!
SUPPORT. What the operations of Machine/Boot.lean keep (`Firm`).
-/
set_option Elab.async false
set_option linter.unusedTactic false
set_option linter.unreachableTactic false
set_option linter.unusedVariables false
namespace Sys2Proof.Machine

theorem program_firm {s0 s : State} {a : Nat} {bs : Bytes} (h : Firm s0 s) : Firm s0 (program a bs s) := by
  unfold program
  try dsimp only
  repeat' first
    | with_reducible assumption
    | with_reducible apply Firm.ite
    | with_reducible apply Firm.foldl
    | with_reducible apply Firm.ite_snd
    | with_reducible apply Firm.foldl_snd
    | (refine Firm.mk' rfl rfl rfl rfl rfl rfl rfl rfl rfl rfl ?_
       first
         | with_reducible assumption
         | with_reducible apply Firm.ite
         | with_reducible apply Firm.foldl
         | with_reducible apply Firm.ite_snd
         | with_reducible apply Firm.foldl_snd
         | split)
    | (intro x a hx)
    | (intro c; rfl)
    | (intro x hx; exact hx)
    | (intro x hx)
    | (intro x)
    | (refine Firm.mkMems rfl rfl ?_ ?_ ?_ ?_ ?_ rfl rfl rfl ?_ <;>
        try first
          | exact id
          | exact Memory.wf_writeBytes _ _ _ _
          | exact Memory.wf_write _ _ _ _
          | exact Memory.wf_clear _ _ _ _)
    | split
    | dsimp only

theorem bootFails_firm {s0 s : State} {a : Bool} {c : Nat} (h : Firm s0 s) (hb : FaultIdle s0 → s.pwr.entry = none) :
    Firm s0 (bootFails a c s) := by
  obtain ⟨o, r, l, e⟩ := raise_form 0x0103 0 (le 1 c) none { s with ctl := { s.ctl with faultHw := true } }
  have k : Firm s0 (raise 0x0103 0 (le 1 c) none { s with ctl := { s.ctl with faultHw := true } }) :=
    raise_firm (Firm.mk' rfl rfl rfl rfl rfl rfl rfl rfl rfl rfl h)
  have n : Firm s0 (setDevState .fault none (raise 0x0103 0 (le 1 c) none { s with
      ctl := { s.ctl with faultHw := true } })) :=
    setDevState_none_firm k (fun i => by rw [e]; exact hb i) (fun _ _ => rfl)
  unfold bootFails
  dsimp only
  split
  · exact Firm.mk' rfl rfl rfl rfl rfl rfl rfl rfl rfl rfl n
  · apply postEvent_firm
    exact Firm.mkNone (s := s) rfl rfl rfl rfl rfl rfl rfl rfl hb (fun _ _ => rfl) h

theorem execPllLockTimeout_firm {s : State} {a : Bool} : FirmOut s (execPllLockTimeout a s) := by
  unfold execPllLockTimeout
  split
  · rename_i h
    simp only [Bool.and_eq_true, beq_iff_eq] at h
    exact bootFails_firm (Firm.refl s) fun i => i (.inr (.inl h.1.1.1))
  · exact Firm.refl s

theorem reportOff_firm {s0 s : State} (h : Firm s0 s) : Firm s0 (reportOff s) := by
  unfold reportOff
  try dsimp only
  repeat' first
    | with_reducible assumption
    | with_reducible apply Firm.ite
    | with_reducible apply Firm.foldl
    | with_reducible apply Firm.ite_snd
    | with_reducible apply Firm.foldl_snd
    | with_reducible apply raise_firm
    | (refine Firm.mk' rfl rfl rfl rfl rfl rfl rfl rfl rfl rfl ?_
       first
         | with_reducible assumption
         | with_reducible apply Firm.ite
         | with_reducible apply Firm.foldl
         | with_reducible apply Firm.ite_snd
         | with_reducible apply Firm.foldl_snd
         | with_reducible apply raise_firm
         | split)
    | (intro x a hx)
    | (intro c; rfl)
    | (intro x hx; exact hx)
    | (intro x hx)
    | (intro x)
    | split
    | dsimp only

theorem execBootComplete_firm {s : State} : FirmOut s (execBootComplete s) := by
  unfold execBootComplete
  split
  · rename_i h
    simp only [Bool.and_eq_true, beq_iff_eq] at h
    have b : s.ctl.devState ≠ .fault := by rw [h.1.1.1.1]; decide
    have k : Firm s (setDevState .ready none (s.modCtl fun c => { c with
        fwVersion := BitVec.ofNat 32 (u32 (imageHeader s s.boot.image) 8)
        cpAlive := true })) :=
      setDevState_firm (State.modCtl_firm (Firm.refl s) fun _ => rfl) (fun _ => b) (by decide)
    refine FirmOut.next (reportOff_firm (Firm.ite (raise_firm ?_) k))
    exact Firm.mk' rfl rfl rfl rfl rfl rfl rfl rfl rfl rfl k
  · exact Firm.refl s

theorem execCpHeartbeatTick_firm {s : State}  : FirmOut s (execCpHeartbeatTick s) := by
  have h := Firm.refl s
  unfold execCpHeartbeatTick
  try dsimp only
  repeat' first
    | with_reducible assumption
    | with_reducible apply FirmOut.ite
    | with_reducible apply FirmOut.next
    | with_reducible apply Firm.ite
    | with_reducible apply Firm.foldl
    | with_reducible apply Firm.ite_snd
    | with_reducible apply Firm.foldl_snd
    | with_reducible apply State.modCtl_firm
    | (refine Firm.mk' rfl rfl rfl rfl rfl rfl rfl rfl rfl rfl ?_
       first
         | with_reducible assumption
         | with_reducible apply FirmOut.ite
         | with_reducible apply FirmOut.next
         | with_reducible apply Firm.ite
         | with_reducible apply Firm.foldl
         | with_reducible apply Firm.ite_snd
         | with_reducible apply Firm.foldl_snd
         | with_reducible apply State.modCtl_firm
         | split)
    | (intro x a hx)
    | (intro c; rfl)
    | (intro x hx; exact hx)
    | (intro x hx)
    | (intro x)
    | split
    | dsimp only

end Sys2Proof.Machine
end

