-- ==== Sys2Proof/Laws/FirmSluice.lean ====
section
/-!
SUPPORT. What the operations of Machine/Sluice.lean keep (`Firm`).
-/
set_option Elab.async false
set_option linter.unusedTactic false
set_option linter.unreachableTactic false
set_option linter.unusedVariables false
namespace Sys2Proof.Machine

theorem tget_all {α : Type} {p : α → Bool} {d : α} {t : Tab α} {k : Nat} (ht : t.all (fun e => p e.2) = true)
    (hd : p d = true) : p (tget d t k) = true := by
  induction t with
  | nil => exact hd
  | cons e t ih =>
    simp only [List.all_cons, Bool.and_eq_true] at ht
    unfold tget
    split
    · exact ht.1
    · exact ih ht.2

/-- A core of a state whose memories are canonical has canonical memories. -/
theorem core_mems {s : State} {c : Nat} (h : s.ast.cores.all (fun e => coreMems e.2) = true) :
    coreMems (core s c) = true := tget_all (p := coreMems) h rfl

theorem setCore_firm {s0 s : State} {c : Nat} {x : Core} (h : Firm s0 s)
    (hx : s.ast.cores.all (fun e => coreMems e.2) = true → coreMems x = true) : Firm s0 (setCore c x s) :=
  Firm.mkMems rfl rfl id id id id (fun k => all_tset (fun e => coreMems e.2) _ _ _ k (hx k)) rfl rfl rfl h

theorem modCore_firm {s0 s : State} {c : Nat} {f : Core → Core} (h : Firm s0 s)
    (hf : ∀ y, coreMems y = true → coreMems (f y) = true) : Firm s0 (modCore c f s) :=
  setCore_firm h fun k => hf _ (core_mems k)

theorem modJob_firm {s0 s : State} {n : Nat} {f : Job → Job} (h : Firm s0 s) : Firm s0 (modJob n f s) := by
  unfold modJob
  try dsimp only
  repeat' first
    | with_reducible assumption
    | with_reducible apply Firm.ite
    | with_reducible apply Firm.foldl
    | with_reducible apply Firm.ite_snd
    | with_reducible apply Firm.foldl_snd
    | (refine Firm.mk' rfl rfl rfl rfl rfl rfl rfl rfl rfl rfl ?_
       first
         | with_reducible assumption
         | with_reducible apply Firm.ite
         | with_reducible apply Firm.foldl
         | with_reducible apply Firm.ite_snd
         | with_reducible apply Firm.foldl_snd
         | split)
    | (intro x a hx)
    | (intro c; rfl)
    | (intro x hx; exact hx)
    | (intro x hx)
    | (intro x)
    | split
    | dsimp only

theorem modExport_firm {s0 s : State} {e : Nat} {f : Export → Export} (h : Firm s0 s) : Firm s0 (modExport e f s) := by
  unfold modExport
  try dsimp only
  repeat' first
    | with_reducible assumption
    | with_reducible apply Firm.ite
    | with_reducible apply Firm.foldl
    | with_reducible apply Firm.ite_snd
    | with_reducible apply Firm.foldl_snd
    | (refine Firm.mk' rfl rfl rfl rfl rfl rfl rfl rfl rfl rfl ?_
       first
         | with_reducible assumption
         | with_reducible apply Firm.ite
         | with_reducible apply Firm.foldl
         | with_reducible apply Firm.ite_snd
         | with_reducible apply Firm.foldl_snd
         | split)
    | (intro x a hx)
    | (intro c; rfl)
    | (intro x hx; exact hx)
    | (intro x hx)
    | (intro x)
    | split
    | dsimp only

theorem credit_firm {s0 s : State} {v : Int} (h : Firm s0 s) : Firm s0 (credit v s) := by
  unfold credit
  try dsimp only
  repeat' first
    | with_reducible assumption
    | with_reducible apply Firm.ite
    | with_reducible apply Firm.foldl
    | with_reducible apply Firm.ite_snd
    | with_reducible apply Firm.foldl_snd
    | (refine Firm.mk' rfl rfl rfl rfl rfl rfl rfl rfl rfl rfl ?_
       first
         | with_reducible assumption
         | with_reducible apply Firm.ite
         | with_reducible apply Firm.foldl
         | with_reducible apply Firm.ite_snd
         | with_reducible apply Firm.foldl_snd
         | split)
    | (intro x a hx)
    | (intro c; rfl)
    | (intro x hx; exact hx)
    | (intro x hx)
    | (intro x)
    | split
    | dsimp only

theorem settle_firm {s0 s : State} {charge : Nat} (h : Firm s0 s) : Firm s0 (settle charge s) := by
  unfold settle
  try dsimp only
  repeat' first
    | with_reducible assumption
    | with_reducible apply Firm.ite
    | with_reducible apply Firm.foldl
    | with_reducible apply Firm.ite_snd
    | with_reducible apply Firm.foldl_snd
    | with_reducible apply credit_firm
    | with_reducible apply drawFree_firm
    | (refine Firm.mk' rfl rfl rfl rfl rfl rfl rfl rfl rfl rfl ?_
       first
         | with_reducible assumption
         | with_reducible apply Firm.ite
         | with_reducible apply Firm.foldl
         | with_reducible apply Firm.ite_snd
         | with_reducible apply Firm.foldl_snd
         | with_reducible apply credit_firm
         | with_reducible apply drawFree_firm
         | split)
    | (intro x a hx)
    | (intro c; rfl)
    | (intro x hx; exact hx)
    | (intro x hx)
    | (intro x)
    | split
    | dsimp only

theorem jobDone_firm {s0 s : State} {n : Nat} {result : Nat} (h : Firm s0 s) : Firm s0 (jobDone n result s) := by
  unfold jobDone
  try dsimp only
  repeat' first
    | with_reducible assumption
    | with_reducible apply Firm.ite
    | with_reducible apply Firm.foldl
    | with_reducible apply Firm.ite_snd
    | with_reducible apply Firm.foldl_snd
    | with_reducible apply modJob_firm
    | with_reducible apply raise_firm
    | (refine Firm.mk' rfl rfl rfl rfl rfl rfl rfl rfl rfl rfl ?_
       first
         | with_reducible assumption
         | with_reducible apply Firm.ite
         | with_reducible apply Firm.foldl
         | with_reducible apply Firm.ite_snd
         | with_reducible apply Firm.foldl_snd
         | with_reducible apply modJob_firm
         | with_reducible apply raise_firm
         | split)
    | (intro x a hx)
    | (intro c; rfl)
    | (intro x hx; exact hx)
    | (intro x hx)
    | (intro x)
    | split
    | dsimp only

theorem leaveCore_firm {s0 s : State} {c : Nat} {n : Nat} (h : Firm s0 s) : Firm s0 (leaveCore c n s) := by
  unfold leaveCore
  try dsimp only
  repeat' first
    | with_reducible assumption
    | with_reducible apply Firm.ite
    | with_reducible apply Firm.foldl
    | with_reducible apply Firm.ite_snd
    | with_reducible apply Firm.foldl_snd
    | with_reducible apply modCore_firm
    | with_reducible apply modJob_firm
    | with_reducible apply settle_firm
    | (refine Firm.mk' rfl rfl rfl rfl rfl rfl rfl rfl rfl rfl ?_
       first
         | with_reducible assumption
         | with_reducible apply Firm.ite
         | with_reducible apply Firm.foldl
         | with_reducible apply Firm.ite_snd
         | with_reducible apply Firm.foldl_snd
         | with_reducible apply modCore_firm
         | with_reducible apply modJob_firm
         | with_reducible apply settle_firm
         | split)
    | (intro x a hx)
    | (intro c; rfl)
    | (intro x hx; exact hx)
    | (intro x hx)
    | (intro x)
    | split
    | dsimp only

theorem endAttempt_firm {s0 s : State} {c : Nat} {n : Nat} {result : Nat} (h : Firm s0 s) : Firm s0 (endAttempt c n result s) := by
  unfold endAttempt
  try dsimp only
  repeat' first
    | with_reducible assumption
    | with_reducible apply Firm.ite
    | with_reducible apply Firm.foldl
    | with_reducible apply Firm.ite_snd
    | with_reducible apply Firm.foldl_snd
    | with_reducible apply jobDone_firm
    | with_reducible apply leaveCore_firm
    | (refine Firm.mk' rfl rfl rfl rfl rfl rfl rfl rfl rfl rfl ?_
       first
         | with_reducible assumption
         | with_reducible apply Firm.ite
         | with_reducible apply Firm.foldl
         | with_reducible apply Firm.ite_snd
         | with_reducible apply Firm.foldl_snd
         | with_reducible apply jobDone_firm
         | with_reducible apply leaveCore_firm
         | split)
    | (intro x a hx)
    | (intro c; rfl)
    | (intro x hx; exact hx)
    | (intro x hx)
    | (intro x)
    | split
    | dsimp only

theorem coreFenced_firm {s0 s : State} {inj : Bool} {c : Nat} {cause : Nat} {n : Nat} {again : Bool} (h : Firm s0 s) : Firm s0 (coreFenced inj c cause n again s) := by
  unfold coreFenced
  try dsimp only
  repeat' first
    | with_reducible assumption
    | with_reducible apply Firm.ite
    | with_reducible apply Firm.foldl
    | with_reducible apply Firm.ite_snd
    | with_reducible apply Firm.foldl_snd
    | with_reducible apply raiseWith_firm
    | (refine Firm.mk' rfl rfl rfl rfl rfl rfl rfl rfl rfl rfl ?_
       first
         | with_reducible assumption
         | with_reducible apply Firm.ite
         | with_reducible apply Firm.foldl
         | with_reducible apply Firm.ite_snd
         | with_reducible apply Firm.foldl_snd
         | with_reducible apply raiseWith_firm
         | split)
    | (intro x a hx)
    | (intro c; rfl)
    | (intro x hx; exact hx)
    | (intro x hx)
    | (intro x)
    | split
    | dsimp only

theorem failAttempt_firm {s0 s : State} {inj : Bool} {fence : Option Nat} {c : Nat} {n : Nat} (h : Firm s0 s) : Firm s0 (failAttempt inj fence c n s) := by
  unfold failAttempt
  try dsimp only
  repeat' first
    | with_reducible assumption
    | with_reducible apply Firm.ite
    | with_reducible apply Firm.foldl
    | with_reducible apply Firm.ite_snd
    | with_reducible apply Firm.foldl_snd
    | with_reducible apply coreFenced_firm
    | with_reducible apply jobDone_firm
    | with_reducible apply leaveCore_firm
    | with_reducible apply modCore_firm
    | with_reducible apply modJob_firm
    | (refine Firm.mk' rfl rfl rfl rfl rfl rfl rfl rfl rfl rfl ?_
       first
         | with_reducible assumption
         | with_reducible apply Firm.ite
         | with_reducible apply Firm.foldl
         | with_reducible apply Firm.ite_snd
         | with_reducible apply Firm.foldl_snd
         | with_reducible apply coreFenced_firm
         | with_reducible apply jobDone_firm
         | with_reducible apply leaveCore_firm
         | with_reducible apply modCore_firm
         | with_reducible apply modJob_firm
         | split)
    | (intro x a hx)
    | (intro c; rfl)
    | (intro x hx; exact hx)
    | (intro x hx)
    | (intro x)
    | split
    | dsimp only

theorem spoilLine_firm {s0 s : State} {inst : Nat} {a : Nat} {c : Nat} (h : Firm s0 s) : Firm s0 (spoilLine inst a c s) := by
  unfold spoilLine
  try dsimp only
  repeat' first
    | with_reducible assumption
    | with_reducible apply Firm.ite
    | with_reducible apply Firm.foldl
    | with_reducible apply Firm.ite_snd
    | with_reducible apply Firm.foldl_snd
    | with_reducible apply modCore_firm
    | with_reducible apply sramWrite_firm
    | (refine Firm.mk' rfl rfl rfl rfl rfl rfl rfl rfl rfl rfl ?_
       first
         | with_reducible assumption
         | with_reducible apply Firm.ite
         | with_reducible apply Firm.foldl
         | with_reducible apply Firm.ite_snd
         | with_reducible apply Firm.foldl_snd
         | with_reducible apply modCore_firm
         | with_reducible apply sramWrite_firm
         | split)
    | (intro x a hx)
    | (intro c; rfl)
    | (intro x hx; exact hx)
    | (intro x hx)
    | (intro x)
    | split
    | dsimp only

theorem loadInstructions_firm {s0 s : State} {n : Nat} {c : Nat} (h : Firm s0 s) : Firm s0 (loadInstructions n c s) := by
  unfold loadInstructions
  try dsimp only
  repeat' first
    | with_reducible assumption
    | with_reducible apply Firm.ite
    | with_reducible apply Firm.foldl
    | with_reducible apply Firm.ite_snd
    | with_reducible apply Firm.foldl_snd
    | with_reducible apply drawFree_firm
    | with_reducible apply modCore_firm
    | with_reducible apply sramError_firm
    | with_reducible apply sramWrite_firm
    | (refine Firm.mk' rfl rfl rfl rfl rfl rfl rfl rfl rfl rfl ?_
       first
         | with_reducible assumption
         | with_reducible apply Firm.ite
         | with_reducible apply Firm.foldl
         | with_reducible apply Firm.ite_snd
         | with_reducible apply Firm.foldl_snd
         | with_reducible apply drawFree_firm
         | with_reducible apply modCore_firm
         | with_reducible apply sramError_firm
         | with_reducible apply sramWrite_firm
         | split)
    | (intro x a hx)
    | (intro c; rfl)
    | (intro x hx; exact hx)
    | (intro x hx)
    | (intro x)
    | split
    | dsimp only

theorem enterCore_mems {n c free : Nat} {j : Job} {x : Core} (h : coreMems x = true) :
    coreMems (enterCore n c j free x) = true := by
  have e1 : (enterCore n c j free x).mem =
    Memory.writeBytes 0 (Memory.clear x.mem 0x1000 0x3F000) 0 (jobBlock n c j) := by
    unfold enterCore
    dsimp only
  have e2 : (enterCore n c j free x).slice = Memory.clear x.slice 0x30000 0x10000 := by
    unfold enterCore
    dsimp only
  unfold coreMems at *
  rw [e1, e2]
  simp only [Bool.and_eq_true] at *
  exact ⟨Memory.wf_writeBytes _ _ _ _ (Memory.wf_clear _ _ _ _ h.1), Memory.wf_clear _ _ _ _ h.2⟩

theorem startAttempt_firm {s0 s : State} {n c : Nat} (h : Firm s0 s) : Firm s0 (startAttempt n c s) := by
  unfold startAttempt
  dsimp only
  have k : ∀ j f t, Firm s0 t → Firm s0 (modCore c (enterCore n c j f) (loadInstructions n c t)) := fun j f t ht =>
    modCore_firm (loadInstructions_firm ht) fun _ hy => enterCore_mems hy
  split
  · exact failAttempt_firm (k _ _ _ (drawFree_firm (occurrence_firm (credit_firm (modJob_firm h)))))
  · exact spoilLine_firm (spoilLine_firm (k _ _ _ (drawFree_firm (occurrence_firm (credit_firm (modJob_firm h))))))

theorem startSegment_firm {s0 s : State} {e : Nat} {w : Nat} (h : Firm s0 s) : Firm s0 (startSegment e w s) := by
  unfold startSegment
  try dsimp only
  repeat' first
    | with_reducible assumption
    | with_reducible apply Firm.ite
    | with_reducible apply Firm.foldl
    | with_reducible apply Firm.ite_snd
    | with_reducible apply Firm.foldl_snd
    | with_reducible apply credit_firm
    | with_reducible apply modExport_firm
    | (refine Firm.mk' rfl rfl rfl rfl rfl rfl rfl rfl rfl rfl ?_
       first
         | with_reducible assumption
         | with_reducible apply Firm.ite
         | with_reducible apply Firm.foldl
         | with_reducible apply Firm.ite_snd
         | with_reducible apply Firm.foldl_snd
         | with_reducible apply credit_firm
         | with_reducible apply modExport_firm
         | split)
    | (intro x a hx)
    | (intro c; rfl)
    | (intro x hx; exact hx)
    | (intro x hx)
    | (intro x)
    | split
    | dsimp only

theorem endSegment_firm {s0 s : State} {e : Nat} (h : Firm s0 s) : Firm s0 (endSegment e s) := by
  unfold endSegment
  try dsimp only
  repeat' first
    | with_reducible assumption
    | with_reducible apply Firm.ite
    | with_reducible apply Firm.foldl
    | with_reducible apply Firm.ite_snd
    | with_reducible apply Firm.foldl_snd
    | with_reducible apply modExport_firm
    | with_reducible apply settle_firm
    | (refine Firm.mk' rfl rfl rfl rfl rfl rfl rfl rfl rfl rfl ?_
       first
         | with_reducible assumption
         | with_reducible apply Firm.ite
         | with_reducible apply Firm.foldl
         | with_reducible apply Firm.ite_snd
         | with_reducible apply Firm.foldl_snd
         | with_reducible apply modExport_firm
         | with_reducible apply settle_firm
         | split)
    | (intro x a hx)
    | (intro c; rfl)
    | (intro x hx; exact hx)
    | (intro x hx)
    | (intro x)
    | split
    | dsimp only

theorem startWork_firm {s0 s t : State} {w : Work} (h : Firm s0 s) (ht : startWork s w = some t) : Firm s0 t := by
  unfold startWork at ht
  split at ht
  · cases ht
  · split at ht
    · split at ht
      · simp only [Option.map_eq_some_iff] at ht
        obtain ⟨c, _, rfl⟩ := ht
        exact startAttempt_firm h
      · cases ht
    · split at ht
      · cases ht
      · simp only [Option.map_eq_some_iff] at ht
        obtain ⟨k, _, rfl⟩ := ht
        exact startSegment_firm h

theorem startAll_firm {s0 s : State} {n : Nat} (h : Firm s0 s) : Firm s0 (startAll n s) := by
  induction n generalizing s with
  | zero => exact h
  | succ n ih =>
    unfold startAll
    split
    · exact h
    · rename_i t ht
      obtain ⟨w, _, hw⟩ := List.exists_of_findSome?_eq_some ht
      exact ih (startWork_firm h hw)

theorem sluiceStep_firm {s0 s : State} {target : Nat} {reason : Nat} (h : Firm s0 s) : Firm s0 (sluiceStep target reason s) := by
  unfold sluiceStep
  try dsimp only
  repeat' first
    | with_reducible assumption
    | with_reducible apply Firm.ite
    | with_reducible apply Firm.foldl
    | with_reducible apply Firm.ite_snd
    | with_reducible apply Firm.foldl_snd
    | with_reducible apply startStep_firm
    | (refine Firm.mk' rfl rfl rfl rfl rfl rfl rfl rfl rfl rfl ?_
       first
         | with_reducible assumption
         | with_reducible apply Firm.ite
         | with_reducible apply Firm.foldl
         | with_reducible apply Firm.ite_snd
         | with_reducible apply Firm.foldl_snd
         | with_reducible apply startStep_firm
         | split)
    | (intro x a hx)
    | (intro c; rfl)
    | (intro x hx; exact hx)
    | (intro x hx)
    | (intro x)
    | split
    | dsimp only

theorem decideWork_firm {s0 s : State} {boundary : Bool} (h : Firm s0 s) : Firm s0 (decideWork boundary s) := by
  unfold decideWork
  try dsimp only
  repeat' first
    | with_reducible assumption
    | with_reducible apply Firm.ite
    | with_reducible apply Firm.foldl
    | with_reducible apply Firm.ite_snd
    | with_reducible apply Firm.foldl_snd
    | with_reducible apply sluiceStep_firm
    | with_reducible apply startAll_firm
    | (refine Firm.mk' rfl rfl rfl rfl rfl rfl rfl rfl rfl rfl ?_
       first
         | with_reducible assumption
         | with_reducible apply Firm.ite
         | with_reducible apply Firm.foldl
         | with_reducible apply Firm.ite_snd
         | with_reducible apply Firm.foldl_snd
         | with_reducible apply sluiceStep_firm
         | with_reducible apply startAll_firm
         | split)
    | (intro x a hx)
    | (intro c; rfl)
    | (intro x hx; exact hx)
    | (intro x hx)
    | (intro x)
    | split
    | dsimp only

theorem afterEnd_firm {s0 s : State} (h : Firm s0 s) : Firm s0 (afterEnd s) := by
  unfold afterEnd
  try dsimp only
  repeat' first
    | with_reducible assumption
    | with_reducible apply Firm.ite
    | with_reducible apply Firm.foldl
    | with_reducible apply Firm.ite_snd
    | with_reducible apply Firm.foldl_snd
    | with_reducible apply decideWork_firm
    | (refine Firm.mk' rfl rfl rfl rfl rfl rfl rfl rfl rfl rfl ?_
       first
         | with_reducible assumption
         | with_reducible apply Firm.ite
         | with_reducible apply Firm.foldl
         | with_reducible apply Firm.ite_snd
         | with_reducible apply Firm.foldl_snd
         | with_reducible apply decideWork_firm
         | split)
    | (intro x a hx)
    | (intro c; rfl)
    | (intro x hx; exact hx)
    | (intro x hx)
    | (intro x)
    | split
    | dsimp only

end Sys2Proof.Machine
end

