-- ==== Sys2Proof/Laws/FirmExports.lean ====
section
/-!
SUPPORT. What the operations of Machine/Exports.lean keep (`Firm`).
-/
set_option Elab.async false
set_option linter.unusedTactic false
set_option linter.unreachableTactic false
set_option linter.unusedVariables false
namespace Sys2Proof.Machine

theorem ringBack_firm {s0 s : State} {e : Nat} (h : Firm s0 s) : Firm s0 (ringBack e s) := by
  unfold ringBack
  try dsimp only
  repeat' first
    | with_reducible assumption
    | with_reducible apply Firm.ite
    | with_reducible apply Firm.foldl
    | with_reducible apply Firm.ite_snd
    | with_reducible apply Firm.foldl_snd
    | with_reducible apply drawFree_firm
    | with_reducible apply hostWrite_firm
    | with_reducible apply modExport_firm
    | with_reducible apply modRing_firm
    | (refine Firm.mk' rfl rfl rfl rfl rfl rfl rfl rfl rfl rfl ?_
       first
         | with_reducible assumption
         | with_reducible apply Firm.ite
         | with_reducible apply Firm.foldl
         | with_reducible apply Firm.ite_snd
         | with_reducible apply Firm.foldl_snd
         | with_reducible apply drawFree_firm
         | with_reducible apply hostWrite_firm
         | with_reducible apply modExport_firm
         | with_reducible apply modRing_firm
         | split)
    | (intro x a hx)
    | (intro c; rfl)
    | (intro x hx; exact hx)
    | (intro x hx)
    | (intro x)
    | split
    | dsimp only

theorem exportDone_firm {s0 s : State} {inj : Bool} {e : Nat} {cause : Nat} (h : Firm s0 s) : Firm s0 (exportDone inj e cause s) := by
  unfold exportDone
  try dsimp only
  repeat' first
    | with_reducible assumption
    | with_reducible apply Firm.ite
    | with_reducible apply Firm.foldl
    | with_reducible apply Firm.ite_snd
    | with_reducible apply Firm.foldl_snd
    | with_reducible apply afterEnd_firm
    | with_reducible apply endSegment_firm
    | with_reducible apply raiseWith_firm
    | with_reducible apply ringBack_firm
    | (refine Firm.mk' rfl rfl rfl rfl rfl rfl rfl rfl rfl rfl ?_
       first
         | with_reducible assumption
         | with_reducible apply Firm.ite
         | with_reducible apply Firm.foldl
         | with_reducible apply Firm.ite_snd
         | with_reducible apply Firm.foldl_snd
         | with_reducible apply afterEnd_firm
         | with_reducible apply endSegment_firm
         | with_reducible apply raiseWith_firm
         | with_reducible apply ringBack_firm
         | split)
    | (intro x a hx)
    | (intro c; rfl)
    | (intro x hx; exact hx)
    | (intro x hx)
    | (intro x)
    | split
    | dsimp only

theorem exportMoved_firm {s0 s : State} {e : Nat} (h : Firm s0 s) : Firm s0 (exportMoved e s) := by
  unfold exportMoved
  try dsimp only
  repeat' first
    | with_reducible assumption
    | with_reducible apply Firm.ite
    | with_reducible apply Firm.foldl
    | with_reducible apply Firm.ite_snd
    | with_reducible apply Firm.foldl_snd
    | with_reducible apply exportDone_firm
    | (refine Firm.mk' rfl rfl rfl rfl rfl rfl rfl rfl rfl rfl ?_
       first
         | with_reducible assumption
         | with_reducible apply Firm.ite
         | with_reducible apply Firm.foldl
         | with_reducible apply Firm.ite_snd
         | with_reducible apply Firm.foldl_snd
         | with_reducible apply exportDone_firm
         | split)
    | (intro x a hx)
    | (intro c; rfl)
    | (intro x hx; exact hx)
    | (intro x hx)
    | (intro x)
    | split
    | dsimp only

theorem capExportAct_firm {s0 s : State} {r : Req} (h : Firm s0 s) : Firm s0 (servedState (capExportAct r s)) := by
  unfold capExportAct
  try dsimp only
  repeat' first
    | with_reducible assumption
    | with_reducible apply Firm.served_ite
    | with_reducible apply Firm.ok
    | with_reducible apply Firm.okWith
    | with_reducible apply Firm.fail
    | with_reducible apply Firm.conflict
    | with_reducible apply Firm.done
    | with_reducible apply Firm.later
    | with_reducible apply Firm.ite
    | with_reducible apply Firm.foldl
    | with_reducible apply Firm.ite_snd
    | with_reducible apply Firm.foldl_snd
    | with_reducible apply conflict_firm
    | with_reducible apply exportMoved_firm
    | with_reducible apply fail_firm
    | with_reducible apply modExport_firm
    | with_reducible apply okWith_firm
    | (with_reducible show Firm _ (servedState _); split)
    | (refine Firm.mk' rfl rfl rfl rfl rfl rfl rfl rfl rfl rfl ?_
       first
         | with_reducible assumption
         | with_reducible apply Firm.served_ite
         | with_reducible apply Firm.ok
         | with_reducible apply Firm.okWith
         | with_reducible apply Firm.fail
         | with_reducible apply Firm.conflict
         | with_reducible apply Firm.done
         | with_reducible apply Firm.later
         | with_reducible apply Firm.ite
         | with_reducible apply Firm.foldl
         | with_reducible apply Firm.ite_snd
         | with_reducible apply Firm.foldl_snd
         | with_reducible apply conflict_firm
         | with_reducible apply exportMoved_firm
         | with_reducible apply fail_firm
         | with_reducible apply modExport_firm
         | with_reducible apply okWith_firm
         | split)
    | (intro x a hx)
    | (intro c; rfl)
    | (intro x hx; exact hx)
    | (intro x hx)
    | (intro x)
    | split
    | dsimp only

theorem execCapExport_firm {s : State}  : FirmOut s (execCapExport s) := by
  have h := Firm.refl s
  unfold execCapExport
  try dsimp only
  repeat' first
    | with_reducible assumption
    | with_reducible apply FirmOut.ite
    | with_reducible apply FirmOut.next
    | with_reducible apply Firm.ite
    | with_reducible apply Firm.foldl
    | with_reducible apply Firm.ite_snd
    | with_reducible apply Firm.foldl_snd
    | with_reducible apply capExportAct_firm
    | exact serve_firm h (fun r x hx hl => capExportAct_firm hx)
    | exact serve_firm h (fun r x hx hl => capExportAct_firm hx hl)
    | (refine Firm.mk' rfl rfl rfl rfl rfl rfl rfl rfl rfl rfl ?_
       first
         | with_reducible assumption
         | with_reducible apply FirmOut.ite
         | with_reducible apply FirmOut.next
         | with_reducible apply Firm.ite
         | with_reducible apply Firm.foldl
         | with_reducible apply Firm.ite_snd
         | with_reducible apply Firm.foldl_snd
         | with_reducible apply capExportAct_firm
         | exact serve_firm h (fun r x hx hl => capExportAct_firm hx)
         | exact serve_firm h (fun r x hx hl => capExportAct_firm hx hl)
         | split)
    | (intro x a hx)
    | (intro c; rfl)
    | (intro x hx; exact hx)
    | (intro x hx)
    | (intro x)
    | split
    | dsimp only

theorem exportStopAct_firm {s0 s : State} {r : Req} (h : Firm s0 s) : Firm s0 (servedState (exportStopAct r s)) := by
  unfold exportStopAct
  try dsimp only
  repeat' first
    | with_reducible assumption
    | with_reducible apply Firm.served_ite
    | with_reducible apply Firm.ok
    | with_reducible apply Firm.okWith
    | with_reducible apply Firm.fail
    | with_reducible apply Firm.conflict
    | with_reducible apply Firm.done
    | with_reducible apply Firm.later
    | with_reducible apply Firm.ite
    | with_reducible apply Firm.foldl
    | with_reducible apply Firm.ite_snd
    | with_reducible apply Firm.foldl_snd
    | with_reducible apply conflict_firm
    | with_reducible apply exportDone_firm
    | with_reducible apply fail_firm
    | with_reducible apply modExport_firm
    | with_reducible apply ok_firm
    | (with_reducible show Firm _ (servedState _); split)
    | (refine Firm.mk' rfl rfl rfl rfl rfl rfl rfl rfl rfl rfl ?_
       first
         | with_reducible assumption
         | with_reducible apply Firm.served_ite
         | with_reducible apply Firm.ok
         | with_reducible apply Firm.okWith
         | with_reducible apply Firm.fail
         | with_reducible apply Firm.conflict
         | with_reducible apply Firm.done
         | with_reducible apply Firm.later
         | with_reducible apply Firm.ite
         | with_reducible apply Firm.foldl
         | with_reducible apply Firm.ite_snd
         | with_reducible apply Firm.foldl_snd
         | with_reducible apply conflict_firm
         | with_reducible apply exportDone_firm
         | with_reducible apply fail_firm
         | with_reducible apply modExport_firm
         | with_reducible apply ok_firm
         | split)
    | (intro x a hx)
    | (intro c; rfl)
    | (intro x hx; exact hx)
    | (intro x hx)
    | (intro x)
    | split
    | dsimp only

theorem execCapExportStop_firm {s : State}  : FirmOut s (execCapExportStop s) := by
  have h := Firm.refl s
  unfold execCapExportStop
  try dsimp only
  repeat' first
    | with_reducible assumption
    | with_reducible apply FirmOut.ite
    | with_reducible apply FirmOut.next
    | with_reducible apply Firm.ite
    | with_reducible apply Firm.foldl
    | with_reducible apply Firm.ite_snd
    | with_reducible apply Firm.foldl_snd
    | with_reducible apply exportStopAct_firm
    | exact serve_firm h (fun r x hx hl => exportStopAct_firm hx)
    | exact serve_firm h (fun r x hx hl => exportStopAct_firm hx hl)
    | (refine Firm.mk' rfl rfl rfl rfl rfl rfl rfl rfl rfl rfl ?_
       first
         | with_reducible assumption
         | with_reducible apply FirmOut.ite
         | with_reducible apply FirmOut.next
         | with_reducible apply Firm.ite
         | with_reducible apply Firm.foldl
         | with_reducible apply Firm.ite_snd
         | with_reducible apply Firm.foldl_snd
         | with_reducible apply exportStopAct_firm
         | exact serve_firm h (fun r x hx hl => exportStopAct_firm hx)
         | exact serve_firm h (fun r x hx hl => exportStopAct_firm hx hl)
         | split)
    | (intro x a hx)
    | (intro c; rfl)
    | (intro x hx; exact hx)
    | (intro x hx)
    | (intro x)
    | split
    | dsimp only

theorem exportSkip_firm {s0 s : State} {e : Nat} {target : BitVec 32} (h : Firm s0 s) : Firm s0 (exportSkip e target s) := by
  unfold exportSkip
  try dsimp only
  repeat' first
    | with_reducible assumption
    | with_reducible apply Firm.ite
    | with_reducible apply Firm.foldl
    | with_reducible apply Firm.ite_snd
    | with_reducible apply Firm.foldl_snd
    | with_reducible apply modExport_firm
    | with_reducible apply raise_firm
    | (refine Firm.mk' rfl rfl rfl rfl rfl rfl rfl rfl rfl rfl ?_
       first
         | with_reducible assumption
         | with_reducible apply Firm.ite
         | with_reducible apply Firm.foldl
         | with_reducible apply Firm.ite_snd
         | with_reducible apply Firm.foldl_snd
         | with_reducible apply modExport_firm
         | with_reducible apply raise_firm
         | split)
    | (intro x a hx)
    | (intro c; rfl)
    | (intro x hx; exact hx)
    | (intro x hx)
    | (intro x)
    | split
    | dsimp only

theorem nextRecord_firm {s0 s : State} {e : Nat} (h : Firm s0 s) : Firm s0 (nextRecord e s).2 := by
  unfold nextRecord
  try dsimp only
  repeat' first
    | with_reducible assumption
    | with_reducible apply Firm.ite
    | with_reducible apply Firm.foldl
    | with_reducible apply Firm.ite_snd
    | with_reducible apply Firm.foldl_snd
    | with_reducible apply drawFree_firm
    | with_reducible apply exportSkip_firm
    | with_reducible apply readPlain_firm
    | (refine Firm.mk' rfl rfl rfl rfl rfl rfl rfl rfl rfl rfl ?_
       first
         | with_reducible assumption
         | with_reducible apply Firm.ite
         | with_reducible apply Firm.foldl
         | with_reducible apply Firm.ite_snd
         | with_reducible apply Firm.foldl_snd
         | with_reducible apply drawFree_firm
         | with_reducible apply exportSkip_firm
         | with_reducible apply readPlain_firm
         | split)
    | (intro x a hx)
    | (intro c; rfl)
    | (intro x hx; exact hx)
    | (intro x hx)
    | (intro x)
    | split
    | dsimp only

theorem recordSent_firm {s0 s : State} {e : Nat} (h : Firm s0 s) : Firm s0 (recordSent e s) := by
  unfold recordSent
  try dsimp only
  repeat' first
    | with_reducible assumption
    | with_reducible apply Firm.ite
    | with_reducible apply Firm.foldl
    | with_reducible apply Firm.ite_snd
    | with_reducible apply Firm.foldl_snd
    | with_reducible apply modExport_firm
    | (refine Firm.mk' rfl rfl rfl rfl rfl rfl rfl rfl rfl rfl ?_
       first
         | with_reducible assumption
         | with_reducible apply Firm.ite
         | with_reducible apply Firm.foldl
         | with_reducible apply Firm.ite_snd
         | with_reducible apply Firm.foldl_snd
         | with_reducible apply modExport_firm
         | split)
    | (intro x a hx)
    | (intro c; rfl)
    | (intro x hx; exact hx)
    | (intro x hx)
    | (intro x)
    | split
    | dsimp only

theorem gather_firm {s0 s : State} {e room n : Nat} (h : Firm s0 s) : Firm s0 (gather n e room s).2 := by
  induction n generalizing room s with
  | zero => exact h
  | succ n ih =>
    unfold gather
    dsimp only
    split
    · exact h
    · split
      · exact nextRecord_firm h
      · split
        · exact h
        · exact ih (recordSent_firm (nextRecord_firm h))

theorem writeParts_firm {s0 s : State} {r n i : Nat} {b : Bytes} (h : Firm s0 s) :
    Firm s0 (writeParts r n i b s).2 := by
  induction n generalizing i b s with
  | zero => exact h
  | succ n ih =>
    unfold writeParts
    split
    · exact h
    · exact ih (hostWrite_firm h)

theorem completeParts_firm {s0 s : State} {r b e first n i : Nat} {bs : Bytes} (h : Firm s0 s) :
    Firm s0 (completeParts r b e first n i bs s) := by
  induction n generalizing i bs s with
  | zero => exact h
  | succ n ih => exact ih (complete_firm h)

theorem sendLong_firm {s0 s : State} {e : Nat} (h : Firm s0 s) : Firm s0 (sendLong e s) := by
  unfold sendLong
  try dsimp only
  repeat' first
    | with_reducible assumption
    | with_reducible apply Firm.ite
    | with_reducible apply Firm.foldl
    | with_reducible apply Firm.ite_snd
    | with_reducible apply Firm.foldl_snd
    | with_reducible apply advanceHead_firm
    | with_reducible apply completeParts_firm
    | with_reducible apply modExport_firm
    | with_reducible apply modRing_firm
    | with_reducible apply recordSent_firm
    | with_reducible apply writeParts_firm
    | (refine Firm.mk' rfl rfl rfl rfl rfl rfl rfl rfl rfl rfl ?_
       first
         | with_reducible assumption
         | with_reducible apply Firm.ite
         | with_reducible apply Firm.foldl
         | with_reducible apply Firm.ite_snd
         | with_reducible apply Firm.foldl_snd
         | with_reducible apply advanceHead_firm
         | with_reducible apply completeParts_firm
         | with_reducible apply modExport_firm
         | with_reducible apply modRing_firm
         | with_reducible apply recordSent_firm
         | with_reducible apply writeParts_firm
         | split)
    | (intro x a hx)
    | (intro c; rfl)
    | (intro x hx; exact hx)
    | (intro x hx)
    | (intro x)
    | split
    | dsimp only

theorem startRecord_firm {s0 s : State} {e : Nat} {bs : Bytes} (h : Firm s0 s) : Firm s0 (startRecord e bs s) := by
  unfold startRecord
  try dsimp only
  repeat' first
    | with_reducible assumption
    | with_reducible apply Firm.ite
    | with_reducible apply Firm.foldl
    | with_reducible apply Firm.ite_snd
    | with_reducible apply Firm.foldl_snd
    | with_reducible apply modExport_firm
    | (refine Firm.mk' rfl rfl rfl rfl rfl rfl rfl rfl rfl rfl ?_
       first
         | with_reducible assumption
         | with_reducible apply Firm.ite
         | with_reducible apply Firm.foldl
         | with_reducible apply Firm.ite_snd
         | with_reducible apply Firm.foldl_snd
         | with_reducible apply modExport_firm
         | split)
    | (intro x a hx)
    | (intro c; rfl)
    | (intro x hx; exact hx)
    | (intro x hx)
    | (intro x)
    | split
    | dsimp only

theorem sendRing_firm {s0 s : State} {e : Nat} (h : Firm s0 s) : Firm s0 (sendRing e s) := by
  unfold sendRing
  try dsimp only
  repeat' first
    | with_reducible assumption
    | with_reducible apply Firm.ite
    | with_reducible apply Firm.foldl
    | with_reducible apply Firm.ite_snd
    | with_reducible apply Firm.foldl_snd
    | with_reducible apply advanceHead_firm
    | with_reducible apply complete_firm
    | with_reducible apply gather_firm
    | with_reducible apply hostWrite_firm
    | with_reducible apply nextRecord_firm
    | with_reducible apply sendLong_firm
    | with_reducible apply startRecord_firm
    | (refine Firm.mk' rfl rfl rfl rfl rfl rfl rfl rfl rfl rfl ?_
       first
         | with_reducible assumption
         | with_reducible apply Firm.ite
         | with_reducible apply Firm.foldl
         | with_reducible apply Firm.ite_snd
         | with_reducible apply Firm.foldl_snd
         | with_reducible apply advanceHead_firm
         | with_reducible apply complete_firm
         | with_reducible apply gather_firm
         | with_reducible apply hostWrite_firm
         | with_reducible apply nextRecord_firm
         | with_reducible apply sendLong_firm
         | with_reducible apply startRecord_firm
         | split)
    | (intro x a hx)
    | (intro c; rfl)
    | (intro x hx; exact hx)
    | (intro x hx)
    | (intro x)
    | split
    | dsimp only

theorem frameContent_firm {s0 s : State} {e : Nat} (h : Firm s0 s) : Firm s0 (frameContent e s).2 := by
  unfold frameContent
  try dsimp only
  repeat' first
    | with_reducible assumption
    | with_reducible apply Firm.ite
    | with_reducible apply Firm.foldl
    | with_reducible apply Firm.ite_snd
    | with_reducible apply Firm.foldl_snd
    | with_reducible apply gather_firm
    | with_reducible apply modExport_firm
    | with_reducible apply nextRecord_firm
    | with_reducible apply recordSent_firm
    | with_reducible apply startRecord_firm
    | (refine Firm.mk' rfl rfl rfl rfl rfl rfl rfl rfl rfl rfl ?_
       first
         | with_reducible assumption
         | with_reducible apply Firm.ite
         | with_reducible apply Firm.foldl
         | with_reducible apply Firm.ite_snd
         | with_reducible apply Firm.foldl_snd
         | with_reducible apply gather_firm
         | with_reducible apply modExport_firm
         | with_reducible apply nextRecord_firm
         | with_reducible apply recordSent_firm
         | with_reducible apply startRecord_firm
         | split)
    | (intro x a hx)
    | (intro c; rfl)
    | (intro x hx; exact hx)
    | (intro x hx)
    | (intro x)
    | split
    | dsimp only

theorem sendPort_firm {s0 s : State} {e : Nat} (h : Firm s0 s) : Firm s0 (sendPort e s) := by
  unfold sendPort
  try dsimp only
  repeat' first
    | with_reducible assumption
    | with_reducible apply Firm.ite
    | with_reducible apply Firm.foldl
    | with_reducible apply Firm.ite_snd
    | with_reducible apply Firm.foldl_snd
    | with_reducible apply frameContent_firm
    | with_reducible apply modExport_firm
    | with_reducible apply queueFrame_firm
    | (refine Firm.mk' rfl rfl rfl rfl rfl rfl rfl rfl rfl rfl ?_
       first
         | with_reducible assumption
         | with_reducible apply Firm.ite
         | with_reducible apply Firm.foldl
         | with_reducible apply Firm.ite_snd
         | with_reducible apply Firm.foldl_snd
         | with_reducible apply frameContent_firm
         | with_reducible apply modExport_firm
         | with_reducible apply queueFrame_firm
         | split)
    | (intro x a hx)
    | (intro c; rfl)
    | (intro x hx; exact hx)
    | (intro x hx)
    | (intro x)
    | split
    | dsimp only

theorem jobWeir_firm {s0 s : State} {e : Nat} (h : Firm s0 s) : Firm s0 (jobWeir e s).2 := by
  unfold jobWeir
  try dsimp only
  repeat' first
    | with_reducible assumption
    | with_reducible apply Firm.ite
    | with_reducible apply Firm.foldl
    | with_reducible apply Firm.ite_snd
    | with_reducible apply Firm.foldl_snd
    | with_reducible apply modWeir_firm
    | (refine Firm.mk' rfl rfl rfl rfl rfl rfl rfl rfl rfl rfl ?_
       first
         | with_reducible assumption
         | with_reducible apply Firm.ite
         | with_reducible apply Firm.foldl
         | with_reducible apply Firm.ite_snd
         | with_reducible apply Firm.foldl_snd
         | with_reducible apply modWeir_firm
         | split)
    | (intro x a hx)
    | (intro c; rfl)
    | (intro x hx; exact hx)
    | (intro x hx)
    | (intro x)
    | split
    | dsimp only

theorem segmentRead_firm {s0 s : State} {e : Nat} (h : Firm s0 s) : Firm s0 (segmentRead e s) := by
  unfold segmentRead
  try dsimp only
  repeat' first
    | with_reducible assumption
    | with_reducible apply Firm.ite
    | with_reducible apply Firm.foldl
    | with_reducible apply Firm.ite_snd
    | with_reducible apply Firm.foldl_snd
    | with_reducible apply afterEnd_firm
    | with_reducible apply endSegment_firm
    | (refine Firm.mk' rfl rfl rfl rfl rfl rfl rfl rfl rfl rfl ?_
       first
         | with_reducible assumption
         | with_reducible apply Firm.ite
         | with_reducible apply Firm.foldl
         | with_reducible apply Firm.ite_snd
         | with_reducible apply Firm.foldl_snd
         | with_reducible apply afterEnd_firm
         | with_reducible apply endSegment_firm
         | split)
    | (intro x a hx)
    | (intro c; rfl)
    | (intro x hx; exact hx)
    | (intro x hx)
    | (intro x)
    | split
    | dsimp only

theorem throughJobWeir_firm {s0 s : State} {e : Nat} {go : State → State} (h : Firm s0 s) (hgo : ∀ x, Firm s0 x → Firm s0 (go x)) : Firm s0 (throughJobWeir e go s) := by
  unfold throughJobWeir
  try dsimp only
  repeat' first
    | with_reducible assumption
    | with_reducible apply Firm.ite
    | with_reducible apply Firm.foldl
    | with_reducible apply Firm.ite_snd
    | with_reducible apply Firm.foldl_snd
    | with_reducible apply hgo
    | with_reducible apply fenceWeirOf_firm
    | with_reducible apply jobWeir_firm
    | with_reducible apply sramWrite_firm
    | with_reducible apply weirLineBad_firm
    | (refine Firm.mk' rfl rfl rfl rfl rfl rfl rfl rfl rfl rfl ?_
       first
         | with_reducible assumption
         | with_reducible apply Firm.ite
         | with_reducible apply Firm.foldl
         | with_reducible apply Firm.ite_snd
         | with_reducible apply Firm.foldl_snd
         | with_reducible apply hgo
         | with_reducible apply fenceWeirOf_firm
         | with_reducible apply jobWeir_firm
         | with_reducible apply sramWrite_firm
         | with_reducible apply weirLineBad_firm
         | split)
    | (intro x a hx)
    | (intro c; rfl)
    | (intro x hx; exact hx)
    | (intro x hx)
    | (intro x)
    | split
    | dsimp only

theorem sendOnce_firm {s0 s : State} {e : Nat} (h : Firm s0 s) : Firm s0 (sendOnce e s) := by
  unfold sendOnce
  try dsimp only
  repeat' first
    | with_reducible assumption
    | with_reducible apply Firm.ite
    | with_reducible apply Firm.foldl
    | with_reducible apply Firm.ite_snd
    | with_reducible apply Firm.foldl_snd
    | with_reducible apply exportDone_firm
    | with_reducible apply exportMoved_firm
    | with_reducible apply haltChannel_firm
    | with_reducible apply segmentRead_firm
    | with_reducible apply sendPort_firm
    | with_reducible apply sendRing_firm
    | with_reducible apply sramWrite_firm
    | (refine Firm.mk' rfl rfl rfl rfl rfl rfl rfl rfl rfl rfl ?_
       first
         | with_reducible assumption
         | with_reducible apply Firm.ite
         | with_reducible apply Firm.foldl
         | with_reducible apply Firm.ite_snd
         | with_reducible apply Firm.foldl_snd
         | with_reducible apply exportDone_firm
         | with_reducible apply exportMoved_firm
         | with_reducible apply haltChannel_firm
         | with_reducible apply segmentRead_firm
         | with_reducible apply sendPort_firm
         | with_reducible apply sendRing_firm
         | with_reducible apply sramWrite_firm
         | split)
    | (intro x a hx)
    | (intro c; rfl)
    | (intro x hx; exact hx)
    | (intro x hx)
    | (intro x)
    | split
    | dsimp only

theorem exportRenew_firm {s0 s : State} {e : Nat} {q : BitVec 32} (h : Firm s0 s) : Firm s0 (exportRenew e q s) := by
  unfold exportRenew
  try dsimp only
  repeat' first
    | with_reducible assumption
    | with_reducible apply Firm.ite
    | with_reducible apply Firm.foldl
    | with_reducible apply Firm.ite_snd
    | with_reducible apply Firm.foldl_snd
    | with_reducible apply afterEnd_firm
    | with_reducible apply endSegment_firm
    | with_reducible apply exportDone_firm
    | with_reducible apply exportSkip_firm
    | with_reducible apply modExport_firm
    | (refine Firm.mk' rfl rfl rfl rfl rfl rfl rfl rfl rfl rfl ?_
       first
         | with_reducible assumption
         | with_reducible apply Firm.ite
         | with_reducible apply Firm.foldl
         | with_reducible apply Firm.ite_snd
         | with_reducible apply Firm.foldl_snd
         | with_reducible apply afterEnd_firm
         | with_reducible apply endSegment_firm
         | with_reducible apply exportDone_firm
         | with_reducible apply exportSkip_firm
         | with_reducible apply modExport_firm
         | split)
    | (intro x a hx)
    | (intro c; rfl)
    | (intro x hx; exact hx)
    | (intro x hx)
    | (intro x)
    | split
    | dsimp only

theorem execExportRecordSend_firm {s : State} {exp : Nat} : FirmOut s (execExportRecordSend exp s) := by
  have h := Firm.refl s
  unfold execExportRecordSend
  try dsimp only
  repeat' first
    | with_reducible assumption
    | with_reducible apply FirmOut.ite
    | with_reducible apply FirmOut.next
    | with_reducible apply Firm.ite
    | with_reducible apply Firm.foldl
    | with_reducible apply Firm.ite_snd
    | with_reducible apply Firm.foldl_snd
    | with_reducible apply exportMoved_firm
    | with_reducible apply exportRenew_firm
    | with_reducible apply nextRecord_firm
    | with_reducible apply segmentRead_firm
    | with_reducible apply sendOnce_firm
    | with_reducible apply throughJobWeir_firm
    | (refine Firm.mk' rfl rfl rfl rfl rfl rfl rfl rfl rfl rfl ?_
       first
         | with_reducible assumption
         | with_reducible apply FirmOut.ite
         | with_reducible apply FirmOut.next
         | with_reducible apply Firm.ite
         | with_reducible apply Firm.foldl
         | with_reducible apply Firm.ite_snd
         | with_reducible apply Firm.foldl_snd
         | with_reducible apply exportMoved_firm
         | with_reducible apply exportRenew_firm
         | with_reducible apply nextRecord_firm
         | with_reducible apply segmentRead_firm
         | with_reducible apply sendOnce_firm
         | with_reducible apply throughJobWeir_firm
         | split)
    | (intro x a hx)
    | (intro c; rfl)
    | (intro x hx; exact hx)
    | (intro x hx)
    | (intro x)
    | split
    | dsimp only

theorem execRingHoldExpiry_firm {s : State} {exp : Nat} : FirmOut s (execRingHoldExpiry exp s) := by
  have h := Firm.refl s
  unfold execRingHoldExpiry
  try dsimp only
  repeat' first
    | with_reducible assumption
    | with_reducible apply FirmOut.ite
    | with_reducible apply FirmOut.next
    | with_reducible apply Firm.ite
    | with_reducible apply Firm.foldl
    | with_reducible apply Firm.ite_snd
    | with_reducible apply Firm.foldl_snd
    | with_reducible apply exportMoved_firm
    | with_reducible apply modExport_firm
    | with_reducible apply modRing_firm
    | with_reducible apply ringBack_firm
    | with_reducible apply segmentRead_firm
    | (refine Firm.mk' rfl rfl rfl rfl rfl rfl rfl rfl rfl rfl ?_
       first
         | with_reducible assumption
         | with_reducible apply FirmOut.ite
         | with_reducible apply FirmOut.next
         | with_reducible apply Firm.ite
         | with_reducible apply Firm.foldl
         | with_reducible apply Firm.ite_snd
         | with_reducible apply Firm.foldl_snd
         | with_reducible apply exportMoved_firm
         | with_reducible apply modExport_firm
         | with_reducible apply modRing_firm
         | with_reducible apply ringBack_firm
         | with_reducible apply segmentRead_firm
         | split)
    | (intro x a hx)
    | (intro c; rfl)
    | (intro x hx; exact hx)
    | (intro x hx)
    | (intro x)
    | split
    | dsimp only

end Sys2Proof.Machine
end

