-- ==== Sys2Proof/Laws/FirmPower.lean ====
section
/-!
SUPPORT. What the operations of Machine/Power.lean keep (`Firm`).
-/
set_option Elab.async false
set_option linter.unusedTactic false
set_option linter.unreachableTactic false
set_option linter.unusedVariables false
namespace Sys2Proof.Machine

theorem beginEntry_firm {s0 s : State} {target : Nat} {r : Req} (h : Firm s0 s)
    (hg : FaultIdle s0 → ¬(s.ctl.devState = .fault ∨ s.ctl.devState = .boot ∨ s.ctl.devState = .still)) :
    Firm s0 (beginEntry target r s) :=
  Firm.mkGoing rfl rfl rfl rfl rfl rfl rfl rfl hg (fun i => h.notFaultOf (fun f => hg i (.inl f)) i) h

theorem holdWork_firm {s0 s : State} (h : Firm s0 s) : Firm s0 (holdWork s) := by
  unfold holdWork
  try dsimp only
  repeat' first
    | with_reducible assumption
    | with_reducible apply Firm.ite
    | with_reducible apply Firm.foldl
    | with_reducible apply Firm.ite_snd
    | with_reducible apply Firm.foldl_snd
    | (refine Firm.mk' rfl rfl rfl rfl rfl rfl rfl rfl rfl rfl ?_
       first
         | with_reducible assumption
         | with_reducible apply Firm.ite
         | with_reducible apply Firm.foldl
         | with_reducible apply Firm.ite_snd
         | with_reducible apply Firm.foldl_snd
         | split)
    | (intro x a hx)
    | (intro c; rfl)
    | (intro x hx; exact hx)
    | (intro x hx)
    | (intro x)
    | split
    | dsimp only

theorem powerStateAct_firm {s0 s : State} {r : Req} (h : Firm s0 s) (hl : powerStateSpec.legal s.ctl.devState = true) :
    Firm s0 (servedState (powerStateAct r s)) := by
  have g : FaultIdle s0 → ¬(s.ctl.devState = .fault ∨ s.ctl.devState = .boot ∨ s.ctl.devState = .still) := by
    intro _ q
    rcases q with q | q | q <;> rw [q] at hl <;> contradiction
  unfold powerStateAct
  extract_lets here
  split
  · exact Firm.served_ite (exitHush_firm h g) (exitHush_firm h g)
  · exact Firm.served_ite h (holdWork_firm (beginEntry_firm h g))
  · split
    · exact h
    · exact beginEntry_firm h g
  · exact h

theorem execPowerState_firm {s : State}  : FirmOut s (execPowerState s) := by
  have h := Firm.refl s
  unfold execPowerState
  try dsimp only
  repeat' first
    | with_reducible assumption
    | with_reducible apply FirmOut.ite
    | with_reducible apply FirmOut.next
    | with_reducible apply Firm.ite
    | with_reducible apply Firm.foldl
    | with_reducible apply Firm.ite_snd
    | with_reducible apply Firm.foldl_snd
    | with_reducible apply powerStateAct_firm
    | exact serve_firm h (fun r x hx hl => powerStateAct_firm hx)
    | exact serve_firm h (fun r x hx hl => powerStateAct_firm hx hl)
    | (refine Firm.mk' rfl rfl rfl rfl rfl rfl rfl rfl rfl rfl ?_
       first
         | with_reducible assumption
         | with_reducible apply FirmOut.ite
         | with_reducible apply FirmOut.next
         | with_reducible apply Firm.ite
         | with_reducible apply Firm.foldl
         | with_reducible apply Firm.ite_snd
         | with_reducible apply Firm.foldl_snd
         | with_reducible apply powerStateAct_firm
         | exact serve_firm h (fun r x hx hl => powerStateAct_firm hx)
         | exact serve_firm h (fun r x hx hl => powerStateAct_firm hx hl)
         | split)
    | (intro x a hx)
    | (intro c; rfl)
    | (intro x hx; exact hx)
    | (intro x hx)
    | (intro x)
    | split
    | dsimp only

theorem restartPlane_firm {s0 s : State} {p : Nat} (h : Firm s0 s) : Firm s0 (restartPlane p s) := by
  unfold restartPlane
  try dsimp only
  repeat' first
    | with_reducible assumption
    | with_reducible apply Firm.ite
    | with_reducible apply Firm.foldl
    | with_reducible apply Firm.ite_snd
    | with_reducible apply Firm.foldl_snd
    | with_reducible apply allToInitial_firm
    | with_reducible apply copyAgain_firm
    | with_reducible apply enterHunt_firm
    | with_reducible apply loseQual_firm
    | with_reducible apply setMirror_firm
    | with_reducible apply startHunters_firm
    | (refine Firm.mk' rfl rfl rfl rfl rfl rfl rfl rfl rfl rfl ?_
       first
         | with_reducible assumption
         | with_reducible apply Firm.ite
         | with_reducible apply Firm.foldl
         | with_reducible apply Firm.ite_snd
         | with_reducible apply Firm.foldl_snd
         | with_reducible apply allToInitial_firm
         | with_reducible apply copyAgain_firm
         | with_reducible apply enterHunt_firm
         | with_reducible apply loseQual_firm
         | with_reducible apply setMirror_firm
         | with_reducible apply startHunters_firm
         | split)
    | (intro x a hx)
    | (intro c; rfl)
    | (intro x hx; exact hx)
    | (intro x hx)
    | (intro x)
    | split
    | dsimp only

theorem restartPort_firm {s0 s : State} {p : Nat} (h : Firm s0 s) : Firm s0 (restartPort p s) := by
  unfold restartPort
  try dsimp only
  repeat' first
    | with_reducible assumption
    | with_reducible apply Firm.ite
    | with_reducible apply Firm.foldl
    | with_reducible apply Firm.ite_snd
    | with_reducible apply Firm.foldl_snd
    | with_reducible apply advertise_firm
    | with_reducible apply linkDown_firm
    | with_reducible apply modHPort_firm
    | (refine Firm.mk' rfl rfl rfl rfl rfl rfl rfl rfl rfl rfl ?_
       first
         | with_reducible assumption
         | with_reducible apply Firm.ite
         | with_reducible apply Firm.foldl
         | with_reducible apply Firm.ite_snd
         | with_reducible apply Firm.foldl_snd
         | with_reducible apply advertise_firm
         | with_reducible apply linkDown_firm
         | with_reducible apply modHPort_firm
         | split)
    | (intro x a hx)
    | (intro c; rfl)
    | (intro x hx; exact hx)
    | (intro x hx)
    | (intro x)
    | split
    | dsimp only

theorem restartIsland_firm {s0 s : State} {island : Nat} (h : Firm s0 s) : Firm s0 (restartIsland island s) := by
  unfold restartIsland
  try dsimp only
  repeat' first
    | with_reducible assumption
    | with_reducible apply Firm.ite
    | with_reducible apply Firm.foldl
    | with_reducible apply Firm.ite_snd
    | with_reducible apply Firm.foldl_snd
    | with_reducible apply restartPlane_firm
    | with_reducible apply restartPort_firm
    | (refine Firm.mk' rfl rfl rfl rfl rfl rfl rfl rfl rfl rfl ?_
       first
         | with_reducible assumption
         | with_reducible apply Firm.ite
         | with_reducible apply Firm.foldl
         | with_reducible apply Firm.ite_snd
         | with_reducible apply Firm.foldl_snd
         | with_reducible apply restartPlane_firm
         | with_reducible apply restartPort_firm
         | split)
    | (intro x a hx)
    | (intro c; rfl)
    | (intro x hx; exact hx)
    | (intro x hx)
    | (intro x)
    | split
    | dsimp only

theorem rollback_firm {s0 s : State} {e : Entry} {island cause unit : Nat} (h : Firm s0 s) :
    Firm s0 (rollback e island cause unit s) := by
  unfold rollback
  have k := Firm.foldl (f := fun x i => restartIsland i x) (l := e.stopped) (s := { s with pwr := { s.pwr with
      entry := none
      wake := { result := 2, island, cause, unit, time := s.time.ns } } })
    (Firm.mkNone (s := s) rfl rfl rfl rfl rfl rfl rfl rfl (fun _ => rfl) h.fault h) fun _ _ hx => restartIsland_firm hx
  exact finishLater_firm (powerEvent_firm (reportOff_firm (Firm.ite (ungate_firm k) k)))

theorem sameState_foldl {α : Type} {f : State → α → State} (hf : ∀ x a, (f x a).ctl.devState = x.ctl.devState)
    (l : List α) (s : State) : (l.foldl f s).ctl.devState = s.ctl.devState := by
  induction l generalizing s with
  | nil => rfl
  | cons a l ih => exact (ih _).trans (hf _ _)

theorem dropTxEn_devState (ports : List Nat) (s : State) : (dropTxEn ports s).ctl.devState = s.ctl.devState := by
  refine sameState_foldl (fun x p => ?_) ports s
  unfold setTxEn
  split <;> rfl

theorem discardQueues_devState (p : Nat) (s : State) : (discardQueues p s).ctl.devState = s.ctl.devState := by
  have k : ((List.range 8).foldl (fun x c => modHClass p c (fun k => { k with queue := [] }) x) s).ctl.devState =
    s.ctl.devState := by
    refine sameState_foldl ?_ _ s
    intro x c
    rfl
  unfold discardQueues
  dsimp only
  refine (sameState_foldl (fun x f => ?_) _ _).trans ?_
  · split
    · unfold enterStamp
      dsimp only
      obtain ⟨o, r, l, e⟩ := raise_form _ _ _ _ _
      rw [e]
      rfl
    · rfl
  · split
    · exact k
    · unfold countHost
      dsimp only
      split
      · obtain ⟨o, r, l, e⟩ := raise_form _ _ _ _ _
        rw [e]
        exact k
      · exact k

theorem stopIsland_devState (island : Nat) (s : State) : (stopIsland island s).ctl.devState = s.ctl.devState := by
  unfold stopIsland
  split
  · exact sameState_foldl (fun x p => discardQueues_devState p x) _ s
  · exact dropTxEn_devState _ s
  · exact dropTxEn_devState _ s
  · rfl
  · rfl

theorem stopIsland_firm {s0 s : State} {island : Nat} (h : Firm s0 s) : Firm s0 (stopIsland island s) := by
  unfold stopIsland
  split
  · exact Firm.foldl h fun _ _ hx => discardQueues_firm hx
  · exact dropTxEn_firm h
  · exact dropTxEn_firm h
  · exact Firm.mk' rfl rfl rfl rfl rfl rfl rfl rfl rfl rfl h
  · exact h

theorem noteStopped_firm {s0 s : State} {island : Nat} {e : Entry} (h : Firm s0 s)
    (hg : FaultIdle s0 → ¬(s.ctl.devState = .fault ∨ s.ctl.devState = .boot ∨ s.ctl.devState = .still)) :
    Firm s0 (noteStopped island e s) :=
  Firm.mkGoing rfl rfl rfl rfl rfl rfl rfl rfl hg (fun i => h.notFaultOf (fun f => hg i (.inl f)) i) h

theorem hushGated_firm {s0 s : State} {e : Entry} (h : Firm s0 s)
    (hg : FaultIdle s0 → ¬(s.ctl.devState = .fault ∨ s.ctl.devState = .boot ∨ s.ctl.devState = .still)) :
    Firm s0 (hushGated e s) := by
  have n : FaultIdle s0 → s0.ctl.devState ≠ .fault := fun i => h.notFaultOf (fun f => hg i (.inl f)) i
  have k : Firm s0 { s with pwr := { s.pwr with gated := true, entry := some { e with waitStep := true } } } :=
    Firm.mkGoing rfl rfl rfl rfl rfl rfl rfl rfl hg n h
  unfold hushGated
  exact Firm.ite (enterHush_firm k n) (startStep_firm k)

theorem enterStill_firm {s0 s : State} {e : Entry} (h : Firm s0 s) (hs : FaultIdle s0 → s0.ctl.devState ≠ .fault) :
    Firm s0 (enterStill e s) := by
  unfold enterStill
  exact setDevState_none_firm (Firm.mkNone rfl rfl rfl rfl rfl rfl rfl rfl (fun _ => rfl) h.fault h) (fun _ => rfl)
    fun i f => absurd f (hs i)

theorem execGateAck_firm {s : State} {island : Nat} : FirmOut s (execGateAck island s) := by
  have h := Firm.refl s
  unfold execGateAck
  split
  · exact h
  · rename_i e he
    have g := h.going (he ▸ nofun)
    have g2 : FaultIdle s → ¬((stopIsland island s).ctl.devState = .fault ∨ (stopIsland island s).ctl.devState = .boot ∨
        (stopIsland island s).ctl.devState = .still) := by
      rw [stopIsland_devState]
      exact g
    refine FirmOut.ite h (FirmOut.ite (FirmOut.ite (hushGated_firm (noteStopped_firm h g) g) (noteStopped_firm h g)) ?_)
    split
    · exact rollback_firm h
    · exact FirmOut.ite (enterStill_firm (noteStopped_firm (stopIsland_firm h) g2) (h.notFault (he ▸ nofun)))
        (noteStopped_firm (stopIsland_firm h) g2)

theorem execGateTimeout_firm {s : State} {island : Nat} : FirmOut s (execGateTimeout island s) := by
  have h := Firm.refl s
  unfold execGateTimeout
  try dsimp only
  repeat' first
    | with_reducible assumption
    | with_reducible apply FirmOut.ite
    | with_reducible apply FirmOut.next
    | with_reducible apply Firm.ite
    | with_reducible apply Firm.foldl
    | with_reducible apply Firm.ite_snd
    | with_reducible apply Firm.foldl_snd
    | with_reducible apply raise_firm
    | with_reducible apply rollback_firm
    | (refine Firm.mk' rfl rfl rfl rfl rfl rfl rfl rfl rfl rfl ?_
       first
         | with_reducible assumption
         | with_reducible apply FirmOut.ite
         | with_reducible apply FirmOut.next
         | with_reducible apply Firm.ite
         | with_reducible apply Firm.foldl
         | with_reducible apply Firm.ite_snd
         | with_reducible apply Firm.foldl_snd
         | with_reducible apply raise_firm
         | with_reducible apply rollback_firm
         | split)
    | (intro x a hx)
    | (intro c; rfl)
    | (intro x hx; exact hx)
    | (intro x hx)
    | (intro x)
    | split
    | dsimp only

theorem execWakeTimerExpiry_firm {s : State}  : FirmOut s (execWakeTimerExpiry s) := by
  have h := Firm.refl s
  unfold execWakeTimerExpiry
  try dsimp only
  repeat' first
    | with_reducible assumption
    | with_reducible apply FirmOut.ite
    | with_reducible apply FirmOut.next
    | with_reducible apply Firm.ite
    | with_reducible apply Firm.foldl
    | with_reducible apply Firm.ite_snd
    | with_reducible apply Firm.foldl_snd
    | with_reducible apply wakeSource_firm
    | (refine Firm.mk' rfl rfl rfl rfl rfl rfl rfl rfl rfl rfl ?_
       first
         | with_reducible assumption
         | with_reducible apply FirmOut.ite
         | with_reducible apply FirmOut.next
         | with_reducible apply Firm.ite
         | with_reducible apply Firm.foldl
         | with_reducible apply Firm.ite_snd
         | with_reducible apply Firm.foldl_snd
         | with_reducible apply wakeSource_firm
         | split)
    | (intro x a hx)
    | (intro c; rfl)
    | (intro x hx; exact hx)
    | (intro x hx)
    | (intro x)
    | split
    | dsimp only

theorem execPcieD0ConfigWrite_firm {s : State}  : FirmOut s (execPcieD0ConfigWrite s) := by
  have h := Firm.refl s
  unfold execPcieD0ConfigWrite
  try dsimp only
  repeat' first
    | with_reducible assumption
    | with_reducible apply FirmOut.ite
    | with_reducible apply FirmOut.next
    | with_reducible apply Firm.ite
    | with_reducible apply Firm.foldl
    | with_reducible apply Firm.ite_snd
    | with_reducible apply Firm.foldl_snd
    | with_reducible apply wakeSource_firm
    | (refine Firm.mk' rfl rfl rfl rfl rfl rfl rfl rfl rfl rfl ?_
       first
         | with_reducible assumption
         | with_reducible apply FirmOut.ite
         | with_reducible apply FirmOut.next
         | with_reducible apply Firm.ite
         | with_reducible apply Firm.foldl
         | with_reducible apply Firm.ite_snd
         | with_reducible apply Firm.foldl_snd
         | with_reducible apply wakeSource_firm
         | split)
    | (intro x a hx)
    | (intro c; rfl)
    | (intro x hx; exact hx)
    | (intro x hx)
    | (intro x)
    | split
    | dsimp only

theorem addStill_firm {s0 s : State} {ns : Nat} (h : Firm s0 s) : Firm s0 (addStill ns s) := by
  unfold addStill
  try dsimp only
  repeat' first
    | with_reducible assumption
    | with_reducible apply Firm.ite
    | with_reducible apply Firm.foldl
    | with_reducible apply Firm.ite_snd
    | with_reducible apply Firm.foldl_snd
    | (refine Firm.mk' rfl rfl rfl rfl rfl rfl rfl rfl rfl rfl ?_
       first
         | with_reducible assumption
         | with_reducible apply Firm.ite
         | with_reducible apply Firm.foldl
         | with_reducible apply Firm.ite_snd
         | with_reducible apply Firm.foldl_snd
         | split)
    | (intro x a hx)
    | (intro c; rfl)
    | (intro x hx; exact hx)
    | (intro x hx)
    | (intro x)
    | split
    | dsimp only

theorem answerStill_firm {s0 s : State} (h : Firm s0 s) : Firm s0 (answerStill s) := by
  unfold answerStill
  try dsimp only
  repeat' first
    | with_reducible assumption
    | with_reducible apply Firm.ite
    | with_reducible apply Firm.foldl
    | with_reducible apply Firm.ite_snd
    | with_reducible apply Firm.foldl_snd
    | with_reducible apply postResponse_firm
    | (refine Firm.mk' rfl rfl rfl rfl rfl rfl rfl rfl rfl rfl ?_
       first
         | with_reducible assumption
         | with_reducible apply Firm.ite
         | with_reducible apply Firm.foldl
         | with_reducible apply Firm.ite_snd
         | with_reducible apply Firm.foldl_snd
         | with_reducible apply postResponse_firm
         | split)
    | (intro x a hx)
    | (intro c; rfl)
    | (intro x hx; exact hx)
    | (intro x hx)
    | (intro x)
    | split
    | dsimp only

/-- Ageing the peers at the wake touches the counter of free values and the peer table alone. -/
theorem agePeers_form (span : Nat) (s : State) : ∃ n c,
    agePeers span s = { s with ctl := { s.ctl with free := n }, net := { s.net with chassis := c } } := by
  unfold agePeers
  generalize s.net.chassis.peers.filter Peer.inStill = l
  suffices h : ∀ x : State, (∃ n c, x = { s with ctl := { s.ctl with free := n }, net := { s.net with chassis := c } }) →
      ∃ n c, l.foldl _ x = { s with ctl := { s.ctl with free := n }, net := { s.net with chassis := c } } from
    h s ⟨s.ctl.free, s.net.chassis, rfl⟩
  induction l with
  | nil => exact fun x h => h
  | cons p l ih =>
    rintro x ⟨n, c, rfl⟩
    exact ih _ ⟨_, _, rfl⟩

theorem execWakeComplete_firm {s : State} {stillNs : Nat} : FirmOut s (execWakeComplete stillNs s) := by
  have h := Firm.refl s
  unfold execWakeComplete
  split
  · exact h
  · rename_i source unit hw
    split
    · exact h
    · rename_i hd
      have hd : s.ctl.devState = .still := not_not.mp hd
      refine FirmOut.next (powerEvent_firm (answerStill_firm (raise_firm (Firm.foldl (reportOff_firm ?_) fun _ _ hx =>
        restartIsland_firm hx))))
      refine Firm.mkNone rfl rfl rfl rfl rfl rfl rfl rfl (fun i => ?_) (fun _ f => ?_) (agePeers_firm (addStill_firm h))
      · obtain ⟨n, c, e⟩ := agePeers_form (stillNs * 5 / 8) (addStill stillNs s)
        show (agePeers (stillNs * 5 / 8) (addStill stillNs s)).pwr.entry = none
        rw [e]
        exact i (.inr (.inr hd))
      rw [hd] at f
      contradiction

theorem powerBudgetSetAct_firm {s0 s : State} {r : Req} (h : Firm s0 s) : Firm s0 (servedState (powerBudgetSetAct r s)) := by
  unfold powerBudgetSetAct
  try dsimp only
  repeat' first
    | with_reducible assumption
    | with_reducible apply Firm.served_ite
    | with_reducible apply Firm.ok
    | with_reducible apply Firm.okWith
    | with_reducible apply Firm.fail
    | with_reducible apply Firm.conflict
    | with_reducible apply Firm.done
    | with_reducible apply Firm.later
    | with_reducible apply Firm.ite
    | with_reducible apply Firm.foldl
    | with_reducible apply Firm.ite_snd
    | with_reducible apply Firm.foldl_snd
    | with_reducible apply ok_firm
    | (with_reducible show Firm _ (servedState _); split)
    | (refine Firm.mk' rfl rfl rfl rfl rfl rfl rfl rfl rfl rfl ?_
       first
         | with_reducible assumption
         | with_reducible apply Firm.served_ite
         | with_reducible apply Firm.ok
         | with_reducible apply Firm.okWith
         | with_reducible apply Firm.fail
         | with_reducible apply Firm.conflict
         | with_reducible apply Firm.done
         | with_reducible apply Firm.later
         | with_reducible apply Firm.ite
         | with_reducible apply Firm.foldl
         | with_reducible apply Firm.ite_snd
         | with_reducible apply Firm.foldl_snd
         | with_reducible apply ok_firm
         | split)
    | (intro x a hx)
    | (intro c; rfl)
    | (intro x hx; exact hx)
    | (intro x hx)
    | (intro x)
    | split
    | dsimp only

theorem execPowerBudgetSet_firm {s : State}  : FirmOut s (execPowerBudgetSet s) := by
  have h := Firm.refl s
  unfold execPowerBudgetSet
  try dsimp only
  repeat' first
    | with_reducible assumption
    | with_reducible apply FirmOut.ite
    | with_reducible apply FirmOut.next
    | with_reducible apply Firm.ite
    | with_reducible apply Firm.foldl
    | with_reducible apply Firm.ite_snd
    | with_reducible apply Firm.foldl_snd
    | with_reducible apply powerBudgetSetAct_firm
    | exact serve_firm h (fun r x hx hl => powerBudgetSetAct_firm hx)
    | exact serve_firm h (fun r x hx hl => powerBudgetSetAct_firm hx hl)
    | (refine Firm.mk' rfl rfl rfl rfl rfl rfl rfl rfl rfl rfl ?_
       first
         | with_reducible assumption
         | with_reducible apply FirmOut.ite
         | with_reducible apply FirmOut.next
         | with_reducible apply Firm.ite
         | with_reducible apply Firm.foldl
         | with_reducible apply Firm.ite_snd
         | with_reducible apply Firm.foldl_snd
         | with_reducible apply powerBudgetSetAct_firm
         | exact serve_firm h (fun r x hx hl => powerBudgetSetAct_firm hx)
         | exact serve_firm h (fun r x hx hl => powerBudgetSetAct_firm hx hl)
         | split)
    | (intro x a hx)
    | (intro c; rfl)
    | (intro x hx; exact hx)
    | (intro x hx)
    | (intro x)
    | split
    | dsimp only

theorem powerStatusAct_firm {s0 s : State} {r : Req} (h : Firm s0 s) : Firm s0 (servedState (powerStatusAct r s)) := by
  unfold powerStatusAct
  try dsimp only
  repeat' first
    | with_reducible assumption
    | with_reducible apply Firm.served_ite
    | with_reducible apply Firm.ok
    | with_reducible apply Firm.okWith
    | with_reducible apply Firm.fail
    | with_reducible apply Firm.conflict
    | with_reducible apply Firm.done
    | with_reducible apply Firm.later
    | with_reducible apply Firm.ite
    | with_reducible apply Firm.foldl
    | with_reducible apply Firm.ite_snd
    | with_reducible apply Firm.foldl_snd
    | with_reducible apply okWith_firm
    | (with_reducible show Firm _ (servedState _); split)
    | (refine Firm.mk' rfl rfl rfl rfl rfl rfl rfl rfl rfl rfl ?_
       first
         | with_reducible assumption
         | with_reducible apply Firm.served_ite
         | with_reducible apply Firm.ok
         | with_reducible apply Firm.okWith
         | with_reducible apply Firm.fail
         | with_reducible apply Firm.conflict
         | with_reducible apply Firm.done
         | with_reducible apply Firm.later
         | with_reducible apply Firm.ite
         | with_reducible apply Firm.foldl
         | with_reducible apply Firm.ite_snd
         | with_reducible apply Firm.foldl_snd
         | with_reducible apply okWith_firm
         | split)
    | (intro x a hx)
    | (intro c; rfl)
    | (intro x hx; exact hx)
    | (intro x hx)
    | (intro x)
    | split
    | dsimp only

theorem execPowerStatus_firm {s : State}  : FirmOut s (execPowerStatus s) := by
  have h := Firm.refl s
  unfold execPowerStatus
  try dsimp only
  repeat' first
    | with_reducible assumption
    | with_reducible apply FirmOut.ite
    | with_reducible apply FirmOut.next
    | with_reducible apply Firm.ite
    | with_reducible apply Firm.foldl
    | with_reducible apply Firm.ite_snd
    | with_reducible apply Firm.foldl_snd
    | with_reducible apply powerStatusAct_firm
    | exact serve_firm h (fun r x hx hl => powerStatusAct_firm hx)
    | exact serve_firm h (fun r x hx hl => powerStatusAct_firm hx hl)
    | (refine Firm.mk' rfl rfl rfl rfl rfl rfl rfl rfl rfl rfl ?_
       first
         | with_reducible assumption
         | with_reducible apply FirmOut.ite
         | with_reducible apply FirmOut.next
         | with_reducible apply Firm.ite
         | with_reducible apply Firm.foldl
         | with_reducible apply Firm.ite_snd
         | with_reducible apply Firm.foldl_snd
         | with_reducible apply powerStatusAct_firm
         | exact serve_firm h (fun r x hx hl => powerStatusAct_firm hx)
         | exact serve_firm h (fun r x hx hl => powerStatusAct_firm hx hl)
         | split)
    | (intro x a hx)
    | (intro c; rfl)
    | (intro x hx; exact hx)
    | (intro x hx)
    | (intro x)
    | split
    | dsimp only

theorem takeBudget_firm {s0 s : State} (h : Firm s0 s) : Firm s0 (takeBudget s) := by
  unfold takeBudget
  try dsimp only
  repeat' first
    | with_reducible assumption
    | with_reducible apply Firm.ite
    | with_reducible apply Firm.foldl
    | with_reducible apply Firm.ite_snd
    | with_reducible apply Firm.foldl_snd
    | with_reducible apply credit_firm
    | (refine Firm.mk' rfl rfl rfl rfl rfl rfl rfl rfl rfl rfl ?_
       first
         | with_reducible assumption
         | with_reducible apply Firm.ite
         | with_reducible apply Firm.foldl
         | with_reducible apply Firm.ite_snd
         | with_reducible apply Firm.foldl_snd
         | with_reducible apply credit_firm
         | split)
    | (intro x a hx)
    | (intro c; rfl)
    | (intro x hx; exact hx)
    | (intro x hx)
    | (intro x)
    | split
    | dsimp only

theorem chargeWindow_firm {s0 s : State} {fixedUj : Nat} (h : Firm s0 s) : Firm s0 (chargeWindow fixedUj s) := by
  unfold chargeWindow
  try dsimp only
  repeat' first
    | with_reducible assumption
    | with_reducible apply Firm.ite
    | with_reducible apply Firm.foldl
    | with_reducible apply Firm.ite_snd
    | with_reducible apply Firm.foldl_snd
    | with_reducible apply credit_firm
    | (refine Firm.mk' rfl rfl rfl rfl rfl rfl rfl rfl rfl rfl ?_
       first
         | with_reducible assumption
         | with_reducible apply Firm.ite
         | with_reducible apply Firm.foldl
         | with_reducible apply Firm.ite_snd
         | with_reducible apply Firm.foldl_snd
         | with_reducible apply credit_firm
         | split)
    | (intro x a hx)
    | (intro c; rfl)
    | (intro x hx; exact hx)
    | (intro x hx)
    | (intro x)
    | split
    | dsimp only

theorem countWaits_firm {s0 s : State} (h : Firm s0 s) : Firm s0 (countWaits s) := by
  unfold countWaits
  try dsimp only
  repeat' first
    | with_reducible assumption
    | with_reducible apply Firm.ite
    | with_reducible apply Firm.foldl
    | with_reducible apply Firm.ite_snd
    | with_reducible apply Firm.foldl_snd
    | with_reducible apply modExport_firm
    | with_reducible apply modJob_firm
    | (refine Firm.mk' rfl rfl rfl rfl rfl rfl rfl rfl rfl rfl ?_
       first
         | with_reducible assumption
         | with_reducible apply Firm.ite
         | with_reducible apply Firm.foldl
         | with_reducible apply Firm.ite_snd
         | with_reducible apply Firm.foldl_snd
         | with_reducible apply modExport_firm
         | with_reducible apply modJob_firm
         | split)
    | (intro x a hx)
    | (intro c; rfl)
    | (intro x hx; exact hx)
    | (intro x hx)
    | (intro x)
    | split
    | dsimp only

theorem stepPoint_firm {s0 s : State} (h : Firm s0 s) : Firm s0 (stepPoint s) := by
  unfold stepPoint
  try dsimp only
  repeat' first
    | with_reducible assumption
    | with_reducible apply Firm.ite
    | with_reducible apply Firm.foldl
    | with_reducible apply Firm.ite_snd
    | with_reducible apply Firm.foldl_snd
    | with_reducible apply sluiceStep_firm
    | (refine Firm.mk' rfl rfl rfl rfl rfl rfl rfl rfl rfl rfl ?_
       first
         | with_reducible assumption
         | with_reducible apply Firm.ite
         | with_reducible apply Firm.foldl
         | with_reducible apply Firm.ite_snd
         | with_reducible apply Firm.foldl_snd
         | with_reducible apply sluiceStep_firm
         | split)
    | (intro x a hx)
    | (intro c; rfl)
    | (intro x hx; exact hx)
    | (intro x hx)
    | (intro x)
    | split
    | dsimp only

theorem execSluiceWindow_firm {s : State} {fixedUj : Nat} : FirmOut s (execSluiceWindow fixedUj s) := by
  have h := Firm.refl s
  unfold execSluiceWindow
  try dsimp only
  repeat' first
    | with_reducible assumption
    | with_reducible apply FirmOut.ite
    | with_reducible apply FirmOut.next
    | with_reducible apply Firm.ite
    | with_reducible apply Firm.foldl
    | with_reducible apply Firm.ite_snd
    | with_reducible apply Firm.foldl_snd
    | with_reducible apply chargeWindow_firm
    | with_reducible apply countWaits_firm
    | with_reducible apply decideWork_firm
    | with_reducible apply stepPoint_firm
    | with_reducible apply takeBudget_firm
    | (refine Firm.mk' rfl rfl rfl rfl rfl rfl rfl rfl rfl rfl ?_
       first
         | with_reducible assumption
         | with_reducible apply FirmOut.ite
         | with_reducible apply FirmOut.next
         | with_reducible apply Firm.ite
         | with_reducible apply Firm.foldl
         | with_reducible apply Firm.ite_snd
         | with_reducible apply Firm.foldl_snd
         | with_reducible apply chargeWindow_firm
         | with_reducible apply countWaits_firm
         | with_reducible apply decideWork_firm
         | with_reducible apply stepPoint_firm
         | with_reducible apply takeBudget_firm
         | split)
    | (intro x a hx)
    | (intro c; rfl)
    | (intro x hx; exact hx)
    | (intro x hx)
    | (intro x)
    | split
    | dsimp only

theorem readSensor_firm {s0 s : State} {i : Nat} {t : Int} (h : Firm s0 s) : Firm s0 (readSensor i t s).2 := by
  unfold readSensor
  try dsimp only
  repeat' first
    | with_reducible assumption
    | with_reducible apply Firm.ite
    | with_reducible apply Firm.foldl
    | with_reducible apply Firm.ite_snd
    | with_reducible apply Firm.foldl_snd
    | with_reducible apply occurrence_firm
    | (refine Firm.mk' rfl rfl rfl rfl rfl rfl rfl rfl rfl rfl ?_
       first
         | with_reducible assumption
         | with_reducible apply Firm.ite
         | with_reducible apply Firm.foldl
         | with_reducible apply Firm.ite_snd
         | with_reducible apply Firm.foldl_snd
         | with_reducible apply occurrence_firm
         | split)
    | (intro x a hx)
    | (intro c; rfl)
    | (intro x hx; exact hx)
    | (intro x hx)
    | (intro x)
    | split
    | dsimp only

theorem readSensors_firm {s0 s : State} {temps : List Int} (h : Firm s0 s) : Firm s0 (readSensors temps s).2 := by
  unfold readSensors
  try dsimp only
  repeat' first
    | with_reducible assumption
    | with_reducible apply Firm.ite
    | with_reducible apply Firm.foldl
    | with_reducible apply Firm.ite_snd
    | with_reducible apply Firm.foldl_snd
    | with_reducible apply readSensor_firm
    | (refine Firm.mk' rfl rfl rfl rfl rfl rfl rfl rfl rfl rfl ?_
       first
         | with_reducible assumption
         | with_reducible apply Firm.ite
         | with_reducible apply Firm.foldl
         | with_reducible apply Firm.ite_snd
         | with_reducible apply Firm.foldl_snd
         | with_reducible apply readSensor_firm
         | split)
    | (intro x a hx)
    | (intro c; rfl)
    | (intro x hx; exact hx)
    | (intro x hx)
    | (intro x)
    | split
    | dsimp only

theorem thermalEvent_firm {s0 s : State} {inj : List Nat} {kind : Nat} {sensor : Nat} (h : Firm s0 s) : Firm s0 (thermalEvent inj kind sensor s) := by
  unfold thermalEvent
  try dsimp only
  repeat' first
    | with_reducible assumption
    | with_reducible apply Firm.ite
    | with_reducible apply Firm.foldl
    | with_reducible apply Firm.ite_snd
    | with_reducible apply Firm.foldl_snd
    | with_reducible apply raiseWith_firm
    | (refine Firm.mk' rfl rfl rfl rfl rfl rfl rfl rfl rfl rfl ?_
       first
         | with_reducible assumption
         | with_reducible apply Firm.ite
         | with_reducible apply Firm.foldl
         | with_reducible apply Firm.ite_snd
         | with_reducible apply Firm.foldl_snd
         | with_reducible apply raiseWith_firm
         | split)
    | (intro x a hx)
    | (intro c; rfl)
    | (intro x hx; exact hx)
    | (intro x hx)
    | (intro x)
    | split
    | dsimp only

theorem judgeCeiling_firm {s0 s : State} {inj : List Nat} (h : Firm s0 s) : Firm s0 (judgeCeiling inj s) := by
  unfold judgeCeiling
  try dsimp only
  repeat' first
    | with_reducible assumption
    | with_reducible apply Firm.ite
    | with_reducible apply Firm.foldl
    | with_reducible apply Firm.ite_snd
    | with_reducible apply Firm.foldl_snd
    | with_reducible apply thermalEvent_firm
    | (refine Firm.mk' rfl rfl rfl rfl rfl rfl rfl rfl rfl rfl ?_
       first
         | with_reducible assumption
         | with_reducible apply Firm.ite
         | with_reducible apply Firm.foldl
         | with_reducible apply Firm.ite_snd
         | with_reducible apply Firm.foldl_snd
         | with_reducible apply thermalEvent_firm
         | split)
    | (intro x a hx)
    | (intro c; rfl)
    | (intro x hx; exact hx)
    | (intro x hx)
    | (intro x)
    | split
    | dsimp only

theorem judgeHot_firm {s0 s : State} {inj : List Nat} (h : Firm s0 s) : Firm s0 (judgeHot inj s) := by
  unfold judgeHot
  try dsimp only
  repeat' first
    | with_reducible assumption
    | with_reducible apply Firm.ite
    | with_reducible apply Firm.foldl
    | with_reducible apply Firm.ite_snd
    | with_reducible apply Firm.foldl_snd
    | with_reducible apply startStep_firm
    | with_reducible apply thermalEvent_firm
    | (refine Firm.mk' rfl rfl rfl rfl rfl rfl rfl rfl rfl rfl ?_
       first
         | with_reducible assumption
         | with_reducible apply Firm.ite
         | with_reducible apply Firm.foldl
         | with_reducible apply Firm.ite_snd
         | with_reducible apply Firm.foldl_snd
         | with_reducible apply startStep_firm
         | with_reducible apply thermalEvent_firm
         | split)
    | (intro x a hx)
    | (intro c; rfl)
    | (intro x hx; exact hx)
    | (intro x hx)
    | (intro x)
    | split
    | dsimp only

theorem judgeCrit_firm {s0 s : State} {inj : List Nat} (h : Firm s0 s) : Firm s0 (judgeCrit inj s) := by
  unfold judgeCrit
  try dsimp only
  repeat' first
    | with_reducible assumption
    | with_reducible apply Firm.ite
    | with_reducible apply Firm.foldl
    | with_reducible apply Firm.ite_snd
    | with_reducible apply Firm.foldl_snd
    | with_reducible apply hardwareFault_firm
    | (refine Firm.mk' rfl rfl rfl rfl rfl rfl rfl rfl rfl rfl ?_
       first
         | with_reducible assumption
         | with_reducible apply Firm.ite
         | with_reducible apply Firm.foldl
         | with_reducible apply Firm.ite_snd
         | with_reducible apply Firm.foldl_snd
         | with_reducible apply hardwareFault_firm
         | split)
    | (intro x a hx)
    | (intro c; rfl)
    | (intro x hx; exact hx)
    | (intro x hx)
    | (intro x)
    | split
    | dsimp only

theorem execThermalReading_firm {s : State} {temps : List Int} : FirmOut s (execThermalReading temps s) := by
  unfold execThermalReading
  generalize hq : readSensors temps s = q
  have h : Firm s q.2 := hq ▸ readSensors_firm (Firm.refl s)
  dsimp only
  split
  · exact Firm.refl s
  · apply FirmOut.next
    apply judgeCrit_firm
    have k : Firm s { q.2 with pwr := { q.2.pwr with temps := q.1.1 } } :=
      Firm.mk' rfl rfl rfl rfl rfl rfl rfl rfl rfl rfl h
    have c := Firm.ite (c := cpRuns { q.2 with pwr := { q.2.pwr with temps := q.1.1 } } = true)
      (judgeCeiling_firm (inj := q.1.2) k) k
    exact Firm.ite c (judgeHot_firm c)

end Sys2Proof.Machine
end

