-- ==== Sys2Proof/Laws/Serve.lean ====
section
/-!
SUPPORT. What serving a request does, said once: `serve_accepts` for a request that passes the general checks,
`serve_fails` for one that does not, and the parts of the state that taking up and answering leave alone.
-/
namespace Sys2Proof.Machine

/-! ### Taking up a request -/

theorem takeUp_eq (r : Req) (s : State) :
    takeUp r s = { s with ctl := (takeUp r s).ctl, mbx := (takeUp r s).mbx } := by
  unfold takeUp; simp only; split <;> rfl

@[simp] theorem takeUp_ident (r : Req) (s : State) : (takeUp r s).ident = s.ident := by rw [takeUp_eq]
@[simp] theorem takeUp_rings (r : Req) (s : State) : (takeUp r s).rings = s.rings := by rw [takeUp_eq]
@[simp] theorem takeUp_boot (r : Req) (s : State) : (takeUp r s).boot = s.boot := by rw [takeUp_eq]
@[simp] theorem takeUp_clk (r : Req) (s : State) : (takeUp r s).clk = s.clk := by rw [takeUp_eq]
@[simp] theorem takeUp_src (r : Req) (s : State) : (takeUp r s).src = s.src := by rw [takeUp_eq]
@[simp] theorem takeUp_time (r : Req) (s : State) : (takeUp r s).time = s.time := by rw [takeUp_eq]
@[simp] theorem takeUp_lane (r : Req) (s : State) : (takeUp r s).lane = s.lane := by rw [takeUp_eq]
@[simp] theorem takeUp_fr (r : Req) (s : State) : (takeUp r s).fr = s.fr := by rw [takeUp_eq]
@[simp] theorem takeUp_tm (r : Req) (s : State) : (takeUp r s).tm = s.tm := by rw [takeUp_eq]
@[simp] theorem takeUp_up (r : Req) (s : State) : (takeUp r s).up = s.up := by rw [takeUp_eq]
@[simp] theorem takeUp_cls (r : Req) (s : State) : (takeUp r s).cls = s.cls := by rw [takeUp_eq]
@[simp] theorem takeUp_cap (r : Req) (s : State) : (takeUp r s).cap = s.cap := by rw [takeUp_eq]
@[simp] theorem takeUp_ast (r : Req) (s : State) : (takeUp r s).ast = s.ast := by rw [takeUp_eq]
@[simp] theorem takeUp_mem (r : Req) (s : State) : (takeUp r s).mem = s.mem := by rw [takeUp_eq]
@[simp] theorem takeUp_cip (r : Req) (s : State) : (takeUp r s).cip = s.cip := by rw [takeUp_eq]
@[simp] theorem takeUp_net (r : Req) (s : State) : (takeUp r s).net = s.net := by rw [takeUp_eq]
@[simp] theorem takeUp_pwr (r : Req) (s : State) : (takeUp r s).pwr = s.pwr := by rw [takeUp_eq]
@[simp] theorem takeUp_log (r : Req) (s : State) : (takeUp r s).log = s.log := by rw [takeUp_eq]
@[simp] theorem takeUp_inj (r : Req) (s : State) : (takeUp r s).inj = s.inj := by rw [takeUp_eq]
@[simp] theorem takeUp_pending (r : Req) (s : State) : (takeUp r s).pending = s.pending := by rw [takeUp_eq]

theorem takeUp_ctl (r : Req) (s : State) : (takeUp r s).ctl = { s.ctl with turn := (r.ch + 1) % 17 } := by
  unfold takeUp; simp only; split <;> rfl

@[simp] theorem takeUp_devState (r : Req) (s : State) : (takeUp r s).ctl.devState = s.ctl.devState := by
  rw [takeUp_ctl]
@[simp] theorem takeUp_exec (r : Req) (s : State) : (takeUp r s).ctl.exec = s.ctl.exec := by rw [takeUp_ctl]
@[simp] theorem takeUp_fwVersion (r : Req) (s : State) : (takeUp r s).ctl.fwVersion = s.ctl.fwVersion := by
  rw [takeUp_ctl]

/-- Taking up a request changes its own channel only in its slots and its queue. -/
theorem takeUp_reportId (r : Req) (s : State) (n : Nat) : (chan (takeUp r s) n).reportId = (chan s n).reportId := by
  unfold takeUp chan modChan State.modCtl tmod
  simp only
  split
  · rfl
  · simp only
    by_cases h : n = r.ch
    · subst h; rw [tget_tset_self]
    · rw [tget_tset_of_ne _ _ _ h]

/-! ### Serving a request -/

theorem sumOk_of_firstFailure (c : CmdSpec) (bad : Bool) (r : Req) (s : State) (h : firstFailure c bad r s = none) :
    sumOk bad r = true := by
  unfold firstFailure headerOk at h
  cases hs : sumOk bad r
  · simp [hs] at h
  · rfl

/-- A request that passes the general checks is served by its command's own effect, on the state that took it up. -/
theorem serve_accepts {c : CmdSpec} {s : State} {r : Req} (h : Accepts c s r) (act : Req → State → Served) :
    serve c act s = conclude r (act r (takeUp r s)) := by
  obtain ⟨hn, ho, hi, hf⟩ := h
  have hs := sumOk_of_firstFailure c false r _ hf
  simp [serve, hn, ho, occurrence, hi, noteChecksum, hs, hf]

/-- A request that fails a general check is answered with that check's status, and its command has no effect. -/
theorem serve_fails {c : CmdSpec} {s : State} {r : Req} {st : Nat} (hn : nextReq s = some r) (ho : r.opcode = c.op)
    (hi : injIndex 0x14 r.ch s = none) (hf : firstFailure c false r (noteChecksum false r (takeUp r s)) = some st)
    (act : Req → State → Served) :
    serve c act s = answered r st (failureBytes st (noteChecksum false r (takeUp r s)))
      (noteChecksum false r (takeUp r s)) := by
  simp [serve, hn, ho, occurrence, hi, hf, answered]

/-- Without a request waiting for the CP, or with one of another command next, nothing is served. -/
theorem serve_idle {c : CmdSpec} {s : State} (h : ∀ r, nextReq s = some r → r.opcode ≠ c.op)
    (act : Req → State → Served) : serve c act s = s := by
  unfold serve
  split
  · rfl
  · next r hr => simp [h r hr]

@[simp] theorem conclude_ok (r : Req) (s : State) : conclude r (ok s) = answered r stOk [] s := rfl
@[simp] theorem conclude_okWith (r : Req) (p : Bytes) (s : State) : conclude r (okWith p s) = answered r stOk p s := rfl
@[simp] theorem conclude_fail (r : Req) (st : Nat) (s : State) : conclude r (fail st s) = answered r st [] s := rfl
@[simp] theorem conclude_conflict (r : Req) (k st id : Nat) (s : State) :
    conclude r (conflict k st id s) = answered r stStateConflict (conflictBytes k st id) s := rfl
@[simp] theorem conclude_done (r : Req) (s : State) (st : Nat) (p : Bytes) :
    conclude r (.done s st p) = answered r st p s := rfl
@[simp] theorem conclude_later (r : Req) (s : State) : conclude r (.later s) = executing r s := rfl

end Sys2Proof.Machine
end

