-- ==== Sys2Proof/Laws/State.lean ====
section
/-!
SUPPORT. One lemma for each part of State and each update of one part: what the update leaves unchanged, and what it
reads as. They save a later proof from unfolding a record update.
-/
namespace Sys2Proof.Machine

theorem tget_tmod {α : Type} (d : α) (t : Tab α) (k n : Nat) (f : α → α) :
    tget d (tmod d t k f) n = if n = k then f (tget d t k) else tget d t n := by
  unfold tmod
  rw [tget_tset]

/-! ### `State.modCtl` -/

@[simp] theorem modCtl_ident (f : Ctl → Ctl) (s : State) : (s.modCtl f).ident = s.ident := rfl
@[simp] theorem modCtl_mbx (f : Ctl → Ctl) (s : State) : (s.modCtl f).mbx = s.mbx := rfl
@[simp] theorem modCtl_rings (f : Ctl → Ctl) (s : State) : (s.modCtl f).rings = s.rings := rfl
@[simp] theorem modCtl_boot (f : Ctl → Ctl) (s : State) : (s.modCtl f).boot = s.boot := rfl
@[simp] theorem modCtl_clk (f : Ctl → Ctl) (s : State) : (s.modCtl f).clk = s.clk := rfl
@[simp] theorem modCtl_src (f : Ctl → Ctl) (s : State) : (s.modCtl f).src = s.src := rfl
@[simp] theorem modCtl_time (f : Ctl → Ctl) (s : State) : (s.modCtl f).time = s.time := rfl
@[simp] theorem modCtl_lane (f : Ctl → Ctl) (s : State) : (s.modCtl f).lane = s.lane := rfl
@[simp] theorem modCtl_fr (f : Ctl → Ctl) (s : State) : (s.modCtl f).fr = s.fr := rfl
@[simp] theorem modCtl_tm (f : Ctl → Ctl) (s : State) : (s.modCtl f).tm = s.tm := rfl
@[simp] theorem modCtl_up (f : Ctl → Ctl) (s : State) : (s.modCtl f).up = s.up := rfl
@[simp] theorem modCtl_cls (f : Ctl → Ctl) (s : State) : (s.modCtl f).cls = s.cls := rfl
@[simp] theorem modCtl_cap (f : Ctl → Ctl) (s : State) : (s.modCtl f).cap = s.cap := rfl
@[simp] theorem modCtl_ast (f : Ctl → Ctl) (s : State) : (s.modCtl f).ast = s.ast := rfl
@[simp] theorem modCtl_mem (f : Ctl → Ctl) (s : State) : (s.modCtl f).mem = s.mem := rfl
@[simp] theorem modCtl_cip (f : Ctl → Ctl) (s : State) : (s.modCtl f).cip = s.cip := rfl
@[simp] theorem modCtl_net (f : Ctl → Ctl) (s : State) : (s.modCtl f).net = s.net := rfl
@[simp] theorem modCtl_pwr (f : Ctl → Ctl) (s : State) : (s.modCtl f).pwr = s.pwr := rfl
@[simp] theorem modCtl_log (f : Ctl → Ctl) (s : State) : (s.modCtl f).log = s.log := rfl
@[simp] theorem modCtl_inj (f : Ctl → Ctl) (s : State) : (s.modCtl f).inj = s.inj := rfl
@[simp] theorem modCtl_pending (f : Ctl → Ctl) (s : State) : (s.modCtl f).pending = s.pending := rfl

/-! ### `modChan` -/

@[simp] theorem modChan_ident (k : Nat) (f : Chan → Chan) (s : State) : (modChan k f s).ident = s.ident := rfl
@[simp] theorem modChan_ctl (k : Nat) (f : Chan → Chan) (s : State) : (modChan k f s).ctl = s.ctl := rfl
@[simp] theorem modChan_rings (k : Nat) (f : Chan → Chan) (s : State) : (modChan k f s).rings = s.rings := rfl
@[simp] theorem modChan_boot (k : Nat) (f : Chan → Chan) (s : State) : (modChan k f s).boot = s.boot := rfl
@[simp] theorem modChan_clk (k : Nat) (f : Chan → Chan) (s : State) : (modChan k f s).clk = s.clk := rfl
@[simp] theorem modChan_src (k : Nat) (f : Chan → Chan) (s : State) : (modChan k f s).src = s.src := rfl
@[simp] theorem modChan_time (k : Nat) (f : Chan → Chan) (s : State) : (modChan k f s).time = s.time := rfl
@[simp] theorem modChan_lane (k : Nat) (f : Chan → Chan) (s : State) : (modChan k f s).lane = s.lane := rfl
@[simp] theorem modChan_fr (k : Nat) (f : Chan → Chan) (s : State) : (modChan k f s).fr = s.fr := rfl
@[simp] theorem modChan_tm (k : Nat) (f : Chan → Chan) (s : State) : (modChan k f s).tm = s.tm := rfl
@[simp] theorem modChan_up (k : Nat) (f : Chan → Chan) (s : State) : (modChan k f s).up = s.up := rfl
@[simp] theorem modChan_cls (k : Nat) (f : Chan → Chan) (s : State) : (modChan k f s).cls = s.cls := rfl
@[simp] theorem modChan_cap (k : Nat) (f : Chan → Chan) (s : State) : (modChan k f s).cap = s.cap := rfl
@[simp] theorem modChan_ast (k : Nat) (f : Chan → Chan) (s : State) : (modChan k f s).ast = s.ast := rfl
@[simp] theorem modChan_mem (k : Nat) (f : Chan → Chan) (s : State) : (modChan k f s).mem = s.mem := rfl
@[simp] theorem modChan_cip (k : Nat) (f : Chan → Chan) (s : State) : (modChan k f s).cip = s.cip := rfl
@[simp] theorem modChan_net (k : Nat) (f : Chan → Chan) (s : State) : (modChan k f s).net = s.net := rfl
@[simp] theorem modChan_pwr (k : Nat) (f : Chan → Chan) (s : State) : (modChan k f s).pwr = s.pwr := rfl
@[simp] theorem modChan_log (k : Nat) (f : Chan → Chan) (s : State) : (modChan k f s).log = s.log := rfl
@[simp] theorem modChan_inj (k : Nat) (f : Chan → Chan) (s : State) : (modChan k f s).inj = s.inj := rfl
@[simp] theorem modChan_pending (k : Nat) (f : Chan → Chan) (s : State) : (modChan k f s).pending = s.pending := rfl

theorem chan_modChan (k n : Nat) (f : Chan → Chan) (s : State) :
    chan (modChan k f s) n = if n = k then f (chan s k) else chan s n := tget_tmod ..

/-! ### `modRing` -/

@[simp] theorem modRing_ident (k : Nat) (f : Ring → Ring) (s : State) : (modRing k f s).ident = s.ident := rfl
@[simp] theorem modRing_ctl (k : Nat) (f : Ring → Ring) (s : State) : (modRing k f s).ctl = s.ctl := rfl
@[simp] theorem modRing_mbx (k : Nat) (f : Ring → Ring) (s : State) : (modRing k f s).mbx = s.mbx := rfl
@[simp] theorem modRing_boot (k : Nat) (f : Ring → Ring) (s : State) : (modRing k f s).boot = s.boot := rfl
@[simp] theorem modRing_clk (k : Nat) (f : Ring → Ring) (s : State) : (modRing k f s).clk = s.clk := rfl
@[simp] theorem modRing_src (k : Nat) (f : Ring → Ring) (s : State) : (modRing k f s).src = s.src := rfl
@[simp] theorem modRing_time (k : Nat) (f : Ring → Ring) (s : State) : (modRing k f s).time = s.time := rfl
@[simp] theorem modRing_lane (k : Nat) (f : Ring → Ring) (s : State) : (modRing k f s).lane = s.lane := rfl
@[simp] theorem modRing_fr (k : Nat) (f : Ring → Ring) (s : State) : (modRing k f s).fr = s.fr := rfl
@[simp] theorem modRing_tm (k : Nat) (f : Ring → Ring) (s : State) : (modRing k f s).tm = s.tm := rfl
@[simp] theorem modRing_up (k : Nat) (f : Ring → Ring) (s : State) : (modRing k f s).up = s.up := rfl
@[simp] theorem modRing_cls (k : Nat) (f : Ring → Ring) (s : State) : (modRing k f s).cls = s.cls := rfl
@[simp] theorem modRing_cap (k : Nat) (f : Ring → Ring) (s : State) : (modRing k f s).cap = s.cap := rfl
@[simp] theorem modRing_ast (k : Nat) (f : Ring → Ring) (s : State) : (modRing k f s).ast = s.ast := rfl
@[simp] theorem modRing_mem (k : Nat) (f : Ring → Ring) (s : State) : (modRing k f s).mem = s.mem := rfl
@[simp] theorem modRing_cip (k : Nat) (f : Ring → Ring) (s : State) : (modRing k f s).cip = s.cip := rfl
@[simp] theorem modRing_net (k : Nat) (f : Ring → Ring) (s : State) : (modRing k f s).net = s.net := rfl
@[simp] theorem modRing_pwr (k : Nat) (f : Ring → Ring) (s : State) : (modRing k f s).pwr = s.pwr := rfl
@[simp] theorem modRing_log (k : Nat) (f : Ring → Ring) (s : State) : (modRing k f s).log = s.log := rfl
@[simp] theorem modRing_inj (k : Nat) (f : Ring → Ring) (s : State) : (modRing k f s).inj = s.inj := rfl
@[simp] theorem modRing_pending (k : Nat) (f : Ring → Ring) (s : State) : (modRing k f s).pending = s.pending := rfl

/-! ### `modLog` -/

@[simp] theorem modLog_ident (f : Recorder → Recorder) (s : State) : (modLog f s).ident = s.ident := rfl
@[simp] theorem modLog_ctl (f : Recorder → Recorder) (s : State) : (modLog f s).ctl = s.ctl := rfl
@[simp] theorem modLog_mbx (f : Recorder → Recorder) (s : State) : (modLog f s).mbx = s.mbx := rfl
@[simp] theorem modLog_rings (f : Recorder → Recorder) (s : State) : (modLog f s).rings = s.rings := rfl
@[simp] theorem modLog_boot (f : Recorder → Recorder) (s : State) : (modLog f s).boot = s.boot := rfl
@[simp] theorem modLog_clk (f : Recorder → Recorder) (s : State) : (modLog f s).clk = s.clk := rfl
@[simp] theorem modLog_src (f : Recorder → Recorder) (s : State) : (modLog f s).src = s.src := rfl
@[simp] theorem modLog_time (f : Recorder → Recorder) (s : State) : (modLog f s).time = s.time := rfl
@[simp] theorem modLog_lane (f : Recorder → Recorder) (s : State) : (modLog f s).lane = s.lane := rfl
@[simp] theorem modLog_fr (f : Recorder → Recorder) (s : State) : (modLog f s).fr = s.fr := rfl
@[simp] theorem modLog_tm (f : Recorder → Recorder) (s : State) : (modLog f s).tm = s.tm := rfl
@[simp] theorem modLog_up (f : Recorder → Recorder) (s : State) : (modLog f s).up = s.up := rfl
@[simp] theorem modLog_cls (f : Recorder → Recorder) (s : State) : (modLog f s).cls = s.cls := rfl
@[simp] theorem modLog_cap (f : Recorder → Recorder) (s : State) : (modLog f s).cap = s.cap := rfl
@[simp] theorem modLog_ast (f : Recorder → Recorder) (s : State) : (modLog f s).ast = s.ast := rfl
@[simp] theorem modLog_mem (f : Recorder → Recorder) (s : State) : (modLog f s).mem = s.mem := rfl
@[simp] theorem modLog_cip (f : Recorder → Recorder) (s : State) : (modLog f s).cip = s.cip := rfl
@[simp] theorem modLog_net (f : Recorder → Recorder) (s : State) : (modLog f s).net = s.net := rfl
@[simp] theorem modLog_pwr (f : Recorder → Recorder) (s : State) : (modLog f s).pwr = s.pwr := rfl
@[simp] theorem modLog_inj (f : Recorder → Recorder) (s : State) : (modLog f s).inj = s.inj := rfl
@[simp] theorem modLog_pending (f : Recorder → Recorder) (s : State) : (modLog f s).pending = s.pending := rfl

/-! ### `modUpdate` -/

@[simp] theorem modUpdate_ident (f : Update → Update) (s : State) : (modUpdate f s).ident = s.ident := rfl
@[simp] theorem modUpdate_ctl (f : Update → Update) (s : State) : (modUpdate f s).ctl = s.ctl := rfl
@[simp] theorem modUpdate_mbx (f : Update → Update) (s : State) : (modUpdate f s).mbx = s.mbx := rfl
@[simp] theorem modUpdate_rings (f : Update → Update) (s : State) : (modUpdate f s).rings = s.rings := rfl
@[simp] theorem modUpdate_clk (f : Update → Update) (s : State) : (modUpdate f s).clk = s.clk := rfl
@[simp] theorem modUpdate_src (f : Update → Update) (s : State) : (modUpdate f s).src = s.src := rfl
@[simp] theorem modUpdate_time (f : Update → Update) (s : State) : (modUpdate f s).time = s.time := rfl
@[simp] theorem modUpdate_lane (f : Update → Update) (s : State) : (modUpdate f s).lane = s.lane := rfl
@[simp] theorem modUpdate_fr (f : Update → Update) (s : State) : (modUpdate f s).fr = s.fr := rfl
@[simp] theorem modUpdate_tm (f : Update → Update) (s : State) : (modUpdate f s).tm = s.tm := rfl
@[simp] theorem modUpdate_up (f : Update → Update) (s : State) : (modUpdate f s).up = s.up := rfl
@[simp] theorem modUpdate_cls (f : Update → Update) (s : State) : (modUpdate f s).cls = s.cls := rfl
@[simp] theorem modUpdate_cap (f : Update → Update) (s : State) : (modUpdate f s).cap = s.cap := rfl
@[simp] theorem modUpdate_ast (f : Update → Update) (s : State) : (modUpdate f s).ast = s.ast := rfl
@[simp] theorem modUpdate_mem (f : Update → Update) (s : State) : (modUpdate f s).mem = s.mem := rfl
@[simp] theorem modUpdate_cip (f : Update → Update) (s : State) : (modUpdate f s).cip = s.cip := rfl
@[simp] theorem modUpdate_net (f : Update → Update) (s : State) : (modUpdate f s).net = s.net := rfl
@[simp] theorem modUpdate_pwr (f : Update → Update) (s : State) : (modUpdate f s).pwr = s.pwr := rfl
@[simp] theorem modUpdate_log (f : Update → Update) (s : State) : (modUpdate f s).log = s.log := rfl
@[simp] theorem modUpdate_inj (f : Update → Update) (s : State) : (modUpdate f s).inj = s.inj := rfl
@[simp] theorem modUpdate_pending (f : Update → Update) (s : State) : (modUpdate f s).pending = s.pending := rfl

/-! ### `modLane` -/

@[simp] theorem modLane_ident (k : Nat) (f : Lane → Lane) (s : State) : (modLane k f s).ident = s.ident := rfl
@[simp] theorem modLane_ctl (k : Nat) (f : Lane → Lane) (s : State) : (modLane k f s).ctl = s.ctl := rfl
@[simp] theorem modLane_mbx (k : Nat) (f : Lane → Lane) (s : State) : (modLane k f s).mbx = s.mbx := rfl
@[simp] theorem modLane_rings (k : Nat) (f : Lane → Lane) (s : State) : (modLane k f s).rings = s.rings := rfl
@[simp] theorem modLane_boot (k : Nat) (f : Lane → Lane) (s : State) : (modLane k f s).boot = s.boot := rfl
@[simp] theorem modLane_clk (k : Nat) (f : Lane → Lane) (s : State) : (modLane k f s).clk = s.clk := rfl
@[simp] theorem modLane_src (k : Nat) (f : Lane → Lane) (s : State) : (modLane k f s).src = s.src := rfl
@[simp] theorem modLane_time (k : Nat) (f : Lane → Lane) (s : State) : (modLane k f s).time = s.time := rfl
@[simp] theorem modLane_fr (k : Nat) (f : Lane → Lane) (s : State) : (modLane k f s).fr = s.fr := rfl
@[simp] theorem modLane_tm (k : Nat) (f : Lane → Lane) (s : State) : (modLane k f s).tm = s.tm := rfl
@[simp] theorem modLane_up (k : Nat) (f : Lane → Lane) (s : State) : (modLane k f s).up = s.up := rfl
@[simp] theorem modLane_cls (k : Nat) (f : Lane → Lane) (s : State) : (modLane k f s).cls = s.cls := rfl
@[simp] theorem modLane_cap (k : Nat) (f : Lane → Lane) (s : State) : (modLane k f s).cap = s.cap := rfl
@[simp] theorem modLane_ast (k : Nat) (f : Lane → Lane) (s : State) : (modLane k f s).ast = s.ast := rfl
@[simp] theorem modLane_mem (k : Nat) (f : Lane → Lane) (s : State) : (modLane k f s).mem = s.mem := rfl
@[simp] theorem modLane_cip (k : Nat) (f : Lane → Lane) (s : State) : (modLane k f s).cip = s.cip := rfl
@[simp] theorem modLane_net (k : Nat) (f : Lane → Lane) (s : State) : (modLane k f s).net = s.net := rfl
@[simp] theorem modLane_pwr (k : Nat) (f : Lane → Lane) (s : State) : (modLane k f s).pwr = s.pwr := rfl
@[simp] theorem modLane_log (k : Nat) (f : Lane → Lane) (s : State) : (modLane k f s).log = s.log := rfl
@[simp] theorem modLane_inj (k : Nat) (f : Lane → Lane) (s : State) : (modLane k f s).inj = s.inj := rfl
@[simp] theorem modLane_pending (k : Nat) (f : Lane → Lane) (s : State) : (modLane k f s).pending = s.pending := rfl

/-! ### `modLinePort` -/

@[simp] theorem modLinePort_ident (k : Nat) (f : Port → Port) (s : State) : (modLinePort k f s).ident = s.ident := rfl
@[simp] theorem modLinePort_ctl (k : Nat) (f : Port → Port) (s : State) : (modLinePort k f s).ctl = s.ctl := rfl
@[simp] theorem modLinePort_mbx (k : Nat) (f : Port → Port) (s : State) : (modLinePort k f s).mbx = s.mbx := rfl
@[simp] theorem modLinePort_rings (k : Nat) (f : Port → Port) (s : State) : (modLinePort k f s).rings = s.rings := rfl
@[simp] theorem modLinePort_boot (k : Nat) (f : Port → Port) (s : State) : (modLinePort k f s).boot = s.boot := rfl
@[simp] theorem modLinePort_clk (k : Nat) (f : Port → Port) (s : State) : (modLinePort k f s).clk = s.clk := rfl
@[simp] theorem modLinePort_src (k : Nat) (f : Port → Port) (s : State) : (modLinePort k f s).src = s.src := rfl
@[simp] theorem modLinePort_time (k : Nat) (f : Port → Port) (s : State) : (modLinePort k f s).time = s.time := rfl
@[simp] theorem modLinePort_fr (k : Nat) (f : Port → Port) (s : State) : (modLinePort k f s).fr = s.fr := rfl
@[simp] theorem modLinePort_tm (k : Nat) (f : Port → Port) (s : State) : (modLinePort k f s).tm = s.tm := rfl
@[simp] theorem modLinePort_up (k : Nat) (f : Port → Port) (s : State) : (modLinePort k f s).up = s.up := rfl
@[simp] theorem modLinePort_cls (k : Nat) (f : Port → Port) (s : State) : (modLinePort k f s).cls = s.cls := rfl
@[simp] theorem modLinePort_cap (k : Nat) (f : Port → Port) (s : State) : (modLinePort k f s).cap = s.cap := rfl
@[simp] theorem modLinePort_ast (k : Nat) (f : Port → Port) (s : State) : (modLinePort k f s).ast = s.ast := rfl
@[simp] theorem modLinePort_mem (k : Nat) (f : Port → Port) (s : State) : (modLinePort k f s).mem = s.mem := rfl
@[simp] theorem modLinePort_cip (k : Nat) (f : Port → Port) (s : State) : (modLinePort k f s).cip = s.cip := rfl
@[simp] theorem modLinePort_net (k : Nat) (f : Port → Port) (s : State) : (modLinePort k f s).net = s.net := rfl
@[simp] theorem modLinePort_pwr (k : Nat) (f : Port → Port) (s : State) : (modLinePort k f s).pwr = s.pwr := rfl
@[simp] theorem modLinePort_log (k : Nat) (f : Port → Port) (s : State) : (modLinePort k f s).log = s.log := rfl
@[simp] theorem modLinePort_inj (k : Nat) (f : Port → Port) (s : State) : (modLinePort k f s).inj = s.inj := rfl
@[simp] theorem modLinePort_pending (k : Nat) (f : Port → Port) (s : State) : (modLinePort k f s).pending = s.pending := rfl

theorem linePort_modLinePort (k n : Nat) (f : Port → Port) (s : State) :
    linePort (modLinePort k f s) n = if n = k then f (linePort s k) else linePort s n := tget_tmod ..

/-! ### `modOptics` -/

@[simp] theorem modOptics_ident (k : Nat) (f : Optics → Optics) (s : State) : (modOptics k f s).ident = s.ident := rfl
@[simp] theorem modOptics_ctl (k : Nat) (f : Optics → Optics) (s : State) : (modOptics k f s).ctl = s.ctl := rfl
@[simp] theorem modOptics_mbx (k : Nat) (f : Optics → Optics) (s : State) : (modOptics k f s).mbx = s.mbx := rfl
@[simp] theorem modOptics_rings (k : Nat) (f : Optics → Optics) (s : State) : (modOptics k f s).rings = s.rings := rfl
@[simp] theorem modOptics_boot (k : Nat) (f : Optics → Optics) (s : State) : (modOptics k f s).boot = s.boot := rfl
@[simp] theorem modOptics_clk (k : Nat) (f : Optics → Optics) (s : State) : (modOptics k f s).clk = s.clk := rfl
@[simp] theorem modOptics_src (k : Nat) (f : Optics → Optics) (s : State) : (modOptics k f s).src = s.src := rfl
@[simp] theorem modOptics_time (k : Nat) (f : Optics → Optics) (s : State) : (modOptics k f s).time = s.time := rfl
@[simp] theorem modOptics_fr (k : Nat) (f : Optics → Optics) (s : State) : (modOptics k f s).fr = s.fr := rfl
@[simp] theorem modOptics_tm (k : Nat) (f : Optics → Optics) (s : State) : (modOptics k f s).tm = s.tm := rfl
@[simp] theorem modOptics_up (k : Nat) (f : Optics → Optics) (s : State) : (modOptics k f s).up = s.up := rfl
@[simp] theorem modOptics_cls (k : Nat) (f : Optics → Optics) (s : State) : (modOptics k f s).cls = s.cls := rfl
@[simp] theorem modOptics_cap (k : Nat) (f : Optics → Optics) (s : State) : (modOptics k f s).cap = s.cap := rfl
@[simp] theorem modOptics_ast (k : Nat) (f : Optics → Optics) (s : State) : (modOptics k f s).ast = s.ast := rfl
@[simp] theorem modOptics_mem (k : Nat) (f : Optics → Optics) (s : State) : (modOptics k f s).mem = s.mem := rfl
@[simp] theorem modOptics_cip (k : Nat) (f : Optics → Optics) (s : State) : (modOptics k f s).cip = s.cip := rfl
@[simp] theorem modOptics_net (k : Nat) (f : Optics → Optics) (s : State) : (modOptics k f s).net = s.net := rfl
@[simp] theorem modOptics_pwr (k : Nat) (f : Optics → Optics) (s : State) : (modOptics k f s).pwr = s.pwr := rfl
@[simp] theorem modOptics_log (k : Nat) (f : Optics → Optics) (s : State) : (modOptics k f s).log = s.log := rfl
@[simp] theorem modOptics_inj (k : Nat) (f : Optics → Optics) (s : State) : (modOptics k f s).inj = s.inj := rfl
@[simp] theorem modOptics_pending (k : Nat) (f : Optics → Optics) (s : State) : (modOptics k f s).pending = s.pending := rfl

theorem optics_modOptics (k n : Nat) (f : Optics → Optics) (s : State) :
    optics (modOptics k f s) n = if n = k then f (optics s k) else optics s n := tget_tmod ..

/-! ### `modHPort` -/

@[simp] theorem modHPort_ident (k : Nat) (f : HPort → HPort) (s : State) : (modHPort k f s).ident = s.ident := rfl
@[simp] theorem modHPort_ctl (k : Nat) (f : HPort → HPort) (s : State) : (modHPort k f s).ctl = s.ctl := rfl
@[simp] theorem modHPort_mbx (k : Nat) (f : HPort → HPort) (s : State) : (modHPort k f s).mbx = s.mbx := rfl
@[simp] theorem modHPort_rings (k : Nat) (f : HPort → HPort) (s : State) : (modHPort k f s).rings = s.rings := rfl
@[simp] theorem modHPort_boot (k : Nat) (f : HPort → HPort) (s : State) : (modHPort k f s).boot = s.boot := rfl
@[simp] theorem modHPort_clk (k : Nat) (f : HPort → HPort) (s : State) : (modHPort k f s).clk = s.clk := rfl
@[simp] theorem modHPort_src (k : Nat) (f : HPort → HPort) (s : State) : (modHPort k f s).src = s.src := rfl
@[simp] theorem modHPort_time (k : Nat) (f : HPort → HPort) (s : State) : (modHPort k f s).time = s.time := rfl
@[simp] theorem modHPort_lane (k : Nat) (f : HPort → HPort) (s : State) : (modHPort k f s).lane = s.lane := rfl
@[simp] theorem modHPort_fr (k : Nat) (f : HPort → HPort) (s : State) : (modHPort k f s).fr = s.fr := rfl
@[simp] theorem modHPort_tm (k : Nat) (f : HPort → HPort) (s : State) : (modHPort k f s).tm = s.tm := rfl
@[simp] theorem modHPort_up (k : Nat) (f : HPort → HPort) (s : State) : (modHPort k f s).up = s.up := rfl
@[simp] theorem modHPort_cls (k : Nat) (f : HPort → HPort) (s : State) : (modHPort k f s).cls = s.cls := rfl
@[simp] theorem modHPort_cap (k : Nat) (f : HPort → HPort) (s : State) : (modHPort k f s).cap = s.cap := rfl
@[simp] theorem modHPort_ast (k : Nat) (f : HPort → HPort) (s : State) : (modHPort k f s).ast = s.ast := rfl
@[simp] theorem modHPort_mem (k : Nat) (f : HPort → HPort) (s : State) : (modHPort k f s).mem = s.mem := rfl
@[simp] theorem modHPort_cip (k : Nat) (f : HPort → HPort) (s : State) : (modHPort k f s).cip = s.cip := rfl
@[simp] theorem modHPort_pwr (k : Nat) (f : HPort → HPort) (s : State) : (modHPort k f s).pwr = s.pwr := rfl
@[simp] theorem modHPort_log (k : Nat) (f : HPort → HPort) (s : State) : (modHPort k f s).log = s.log := rfl
@[simp] theorem modHPort_inj (k : Nat) (f : HPort → HPort) (s : State) : (modHPort k f s).inj = s.inj := rfl
@[simp] theorem modHPort_pending (k : Nat) (f : HPort → HPort) (s : State) : (modHPort k f s).pending = s.pending := rfl

theorem hport_modHPort (k n : Nat) (f : HPort → HPort) (s : State) :
    hport (modHPort k f s) n = if n = k then f (hport s k) else hport s n := tget_tmod ..

/-! ### `modChassis` -/

@[simp] theorem modChassis_ident (f : Chassis → Chassis) (s : State) : (modChassis f s).ident = s.ident := rfl
@[simp] theorem modChassis_ctl (f : Chassis → Chassis) (s : State) : (modChassis f s).ctl = s.ctl := rfl
@[simp] theorem modChassis_mbx (f : Chassis → Chassis) (s : State) : (modChassis f s).mbx = s.mbx := rfl
@[simp] theorem modChassis_rings (f : Chassis → Chassis) (s : State) : (modChassis f s).rings = s.rings := rfl
@[simp] theorem modChassis_boot (f : Chassis → Chassis) (s : State) : (modChassis f s).boot = s.boot := rfl
@[simp] theorem modChassis_clk (f : Chassis → Chassis) (s : State) : (modChassis f s).clk = s.clk := rfl
@[simp] theorem modChassis_src (f : Chassis → Chassis) (s : State) : (modChassis f s).src = s.src := rfl
@[simp] theorem modChassis_time (f : Chassis → Chassis) (s : State) : (modChassis f s).time = s.time := rfl
@[simp] theorem modChassis_lane (f : Chassis → Chassis) (s : State) : (modChassis f s).lane = s.lane := rfl
@[simp] theorem modChassis_fr (f : Chassis → Chassis) (s : State) : (modChassis f s).fr = s.fr := rfl
@[simp] theorem modChassis_tm (f : Chassis → Chassis) (s : State) : (modChassis f s).tm = s.tm := rfl
@[simp] theorem modChassis_up (f : Chassis → Chassis) (s : State) : (modChassis f s).up = s.up := rfl
@[simp] theorem modChassis_cls (f : Chassis → Chassis) (s : State) : (modChassis f s).cls = s.cls := rfl
@[simp] theorem modChassis_cap (f : Chassis → Chassis) (s : State) : (modChassis f s).cap = s.cap := rfl
@[simp] theorem modChassis_ast (f : Chassis → Chassis) (s : State) : (modChassis f s).ast = s.ast := rfl
@[simp] theorem modChassis_mem (f : Chassis → Chassis) (s : State) : (modChassis f s).mem = s.mem := rfl
@[simp] theorem modChassis_cip (f : Chassis → Chassis) (s : State) : (modChassis f s).cip = s.cip := rfl
@[simp] theorem modChassis_pwr (f : Chassis → Chassis) (s : State) : (modChassis f s).pwr = s.pwr := rfl
@[simp] theorem modChassis_log (f : Chassis → Chassis) (s : State) : (modChassis f s).log = s.log := rfl
@[simp] theorem modChassis_inj (f : Chassis → Chassis) (s : State) : (modChassis f s).inj = s.inj := rfl
@[simp] theorem modChassis_pending (f : Chassis → Chassis) (s : State) : (modChassis f s).pending = s.pending := rfl

/-! ### `modPlane` -/

@[simp] theorem modPlane_ident (k : Nat) (f : Plane → Plane) (s : State) : (modPlane k f s).ident = s.ident := rfl
@[simp] theorem modPlane_ctl (k : Nat) (f : Plane → Plane) (s : State) : (modPlane k f s).ctl = s.ctl := rfl
@[simp] theorem modPlane_mbx (k : Nat) (f : Plane → Plane) (s : State) : (modPlane k f s).mbx = s.mbx := rfl
@[simp] theorem modPlane_rings (k : Nat) (f : Plane → Plane) (s : State) : (modPlane k f s).rings = s.rings := rfl
@[simp] theorem modPlane_boot (k : Nat) (f : Plane → Plane) (s : State) : (modPlane k f s).boot = s.boot := rfl
@[simp] theorem modPlane_clk (k : Nat) (f : Plane → Plane) (s : State) : (modPlane k f s).clk = s.clk := rfl
@[simp] theorem modPlane_src (k : Nat) (f : Plane → Plane) (s : State) : (modPlane k f s).src = s.src := rfl
@[simp] theorem modPlane_time (k : Nat) (f : Plane → Plane) (s : State) : (modPlane k f s).time = s.time := rfl
@[simp] theorem modPlane_lane (k : Nat) (f : Plane → Plane) (s : State) : (modPlane k f s).lane = s.lane := rfl
@[simp] theorem modPlane_tm (k : Nat) (f : Plane → Plane) (s : State) : (modPlane k f s).tm = s.tm := rfl
@[simp] theorem modPlane_up (k : Nat) (f : Plane → Plane) (s : State) : (modPlane k f s).up = s.up := rfl
@[simp] theorem modPlane_cls (k : Nat) (f : Plane → Plane) (s : State) : (modPlane k f s).cls = s.cls := rfl
@[simp] theorem modPlane_cap (k : Nat) (f : Plane → Plane) (s : State) : (modPlane k f s).cap = s.cap := rfl
@[simp] theorem modPlane_ast (k : Nat) (f : Plane → Plane) (s : State) : (modPlane k f s).ast = s.ast := rfl
@[simp] theorem modPlane_mem (k : Nat) (f : Plane → Plane) (s : State) : (modPlane k f s).mem = s.mem := rfl
@[simp] theorem modPlane_cip (k : Nat) (f : Plane → Plane) (s : State) : (modPlane k f s).cip = s.cip := rfl
@[simp] theorem modPlane_net (k : Nat) (f : Plane → Plane) (s : State) : (modPlane k f s).net = s.net := rfl
@[simp] theorem modPlane_pwr (k : Nat) (f : Plane → Plane) (s : State) : (modPlane k f s).pwr = s.pwr := rfl
@[simp] theorem modPlane_log (k : Nat) (f : Plane → Plane) (s : State) : (modPlane k f s).log = s.log := rfl
@[simp] theorem modPlane_inj (k : Nat) (f : Plane → Plane) (s : State) : (modPlane k f s).inj = s.inj := rfl
@[simp] theorem modPlane_pending (k : Nat) (f : Plane → Plane) (s : State) : (modPlane k f s).pending = s.pending := rfl

theorem plane_modPlane (k n : Nat) (f : Plane → Plane) (s : State) :
    plane (modPlane k f s) n = if n = k then f (plane s k) else plane s n := tget_tmod ..

/-! ### `modHunter` -/

@[simp] theorem modHunter_ident (k : Nat) (f : Hunter → Hunter) (s : State) : (modHunter k f s).ident = s.ident := rfl
@[simp] theorem modHunter_ctl (k : Nat) (f : Hunter → Hunter) (s : State) : (modHunter k f s).ctl = s.ctl := rfl
@[simp] theorem modHunter_mbx (k : Nat) (f : Hunter → Hunter) (s : State) : (modHunter k f s).mbx = s.mbx := rfl
@[simp] theorem modHunter_rings (k : Nat) (f : Hunter → Hunter) (s : State) : (modHunter k f s).rings = s.rings := rfl
@[simp] theorem modHunter_boot (k : Nat) (f : Hunter → Hunter) (s : State) : (modHunter k f s).boot = s.boot := rfl
@[simp] theorem modHunter_clk (k : Nat) (f : Hunter → Hunter) (s : State) : (modHunter k f s).clk = s.clk := rfl
@[simp] theorem modHunter_src (k : Nat) (f : Hunter → Hunter) (s : State) : (modHunter k f s).src = s.src := rfl
@[simp] theorem modHunter_time (k : Nat) (f : Hunter → Hunter) (s : State) : (modHunter k f s).time = s.time := rfl
@[simp] theorem modHunter_lane (k : Nat) (f : Hunter → Hunter) (s : State) : (modHunter k f s).lane = s.lane := rfl
@[simp] theorem modHunter_tm (k : Nat) (f : Hunter → Hunter) (s : State) : (modHunter k f s).tm = s.tm := rfl
@[simp] theorem modHunter_up (k : Nat) (f : Hunter → Hunter) (s : State) : (modHunter k f s).up = s.up := rfl
@[simp] theorem modHunter_cls (k : Nat) (f : Hunter → Hunter) (s : State) : (modHunter k f s).cls = s.cls := rfl
@[simp] theorem modHunter_cap (k : Nat) (f : Hunter → Hunter) (s : State) : (modHunter k f s).cap = s.cap := rfl
@[simp] theorem modHunter_ast (k : Nat) (f : Hunter → Hunter) (s : State) : (modHunter k f s).ast = s.ast := rfl
@[simp] theorem modHunter_mem (k : Nat) (f : Hunter → Hunter) (s : State) : (modHunter k f s).mem = s.mem := rfl
@[simp] theorem modHunter_cip (k : Nat) (f : Hunter → Hunter) (s : State) : (modHunter k f s).cip = s.cip := rfl
@[simp] theorem modHunter_net (k : Nat) (f : Hunter → Hunter) (s : State) : (modHunter k f s).net = s.net := rfl
@[simp] theorem modHunter_pwr (k : Nat) (f : Hunter → Hunter) (s : State) : (modHunter k f s).pwr = s.pwr := rfl
@[simp] theorem modHunter_log (k : Nat) (f : Hunter → Hunter) (s : State) : (modHunter k f s).log = s.log := rfl
@[simp] theorem modHunter_inj (k : Nat) (f : Hunter → Hunter) (s : State) : (modHunter k f s).inj = s.inj := rfl
@[simp] theorem modHunter_pending (k : Nat) (f : Hunter → Hunter) (s : State) : (modHunter k f s).pending = s.pending := rfl

theorem hunter_modHunter (k n : Nat) (f : Hunter → Hunter) (s : State) :
    hunter (modHunter k f s) n = if n = k then f (hunter s k) else hunter s n := tget_tmod ..

/-! ### `modDef` -/

@[simp] theorem modDef_ident (k : Nat) (f : DefPort → DefPort) (s : State) : (modDef k f s).ident = s.ident := rfl
@[simp] theorem modDef_ctl (k : Nat) (f : DefPort → DefPort) (s : State) : (modDef k f s).ctl = s.ctl := rfl
@[simp] theorem modDef_mbx (k : Nat) (f : DefPort → DefPort) (s : State) : (modDef k f s).mbx = s.mbx := rfl
@[simp] theorem modDef_rings (k : Nat) (f : DefPort → DefPort) (s : State) : (modDef k f s).rings = s.rings := rfl
@[simp] theorem modDef_boot (k : Nat) (f : DefPort → DefPort) (s : State) : (modDef k f s).boot = s.boot := rfl
@[simp] theorem modDef_clk (k : Nat) (f : DefPort → DefPort) (s : State) : (modDef k f s).clk = s.clk := rfl
@[simp] theorem modDef_src (k : Nat) (f : DefPort → DefPort) (s : State) : (modDef k f s).src = s.src := rfl
@[simp] theorem modDef_time (k : Nat) (f : DefPort → DefPort) (s : State) : (modDef k f s).time = s.time := rfl
@[simp] theorem modDef_lane (k : Nat) (f : DefPort → DefPort) (s : State) : (modDef k f s).lane = s.lane := rfl
@[simp] theorem modDef_tm (k : Nat) (f : DefPort → DefPort) (s : State) : (modDef k f s).tm = s.tm := rfl
@[simp] theorem modDef_up (k : Nat) (f : DefPort → DefPort) (s : State) : (modDef k f s).up = s.up := rfl
@[simp] theorem modDef_cls (k : Nat) (f : DefPort → DefPort) (s : State) : (modDef k f s).cls = s.cls := rfl
@[simp] theorem modDef_cap (k : Nat) (f : DefPort → DefPort) (s : State) : (modDef k f s).cap = s.cap := rfl
@[simp] theorem modDef_ast (k : Nat) (f : DefPort → DefPort) (s : State) : (modDef k f s).ast = s.ast := rfl
@[simp] theorem modDef_mem (k : Nat) (f : DefPort → DefPort) (s : State) : (modDef k f s).mem = s.mem := rfl
@[simp] theorem modDef_cip (k : Nat) (f : DefPort → DefPort) (s : State) : (modDef k f s).cip = s.cip := rfl
@[simp] theorem modDef_net (k : Nat) (f : DefPort → DefPort) (s : State) : (modDef k f s).net = s.net := rfl
@[simp] theorem modDef_pwr (k : Nat) (f : DefPort → DefPort) (s : State) : (modDef k f s).pwr = s.pwr := rfl
@[simp] theorem modDef_log (k : Nat) (f : DefPort → DefPort) (s : State) : (modDef k f s).log = s.log := rfl
@[simp] theorem modDef_inj (k : Nat) (f : DefPort → DefPort) (s : State) : (modDef k f s).inj = s.inj := rfl
@[simp] theorem modDef_pending (k : Nat) (f : DefPort → DefPort) (s : State) : (modDef k f s).pending = s.pending := rfl

theorem defPort_modDef (k n : Nat) (f : DefPort → DefPort) (s : State) :
    defPort (modDef k f s) n = if n = k then f (defPort s k) else defPort s n := tget_tmod ..

/-! ### `modQueue` -/

@[simp] theorem modQueue_ident (k : Nat) (f : AQueue → AQueue) (s : State) : (modQueue k f s).ident = s.ident := rfl
@[simp] theorem modQueue_ctl (k : Nat) (f : AQueue → AQueue) (s : State) : (modQueue k f s).ctl = s.ctl := rfl
@[simp] theorem modQueue_mbx (k : Nat) (f : AQueue → AQueue) (s : State) : (modQueue k f s).mbx = s.mbx := rfl
@[simp] theorem modQueue_rings (k : Nat) (f : AQueue → AQueue) (s : State) : (modQueue k f s).rings = s.rings := rfl
@[simp] theorem modQueue_boot (k : Nat) (f : AQueue → AQueue) (s : State) : (modQueue k f s).boot = s.boot := rfl
@[simp] theorem modQueue_clk (k : Nat) (f : AQueue → AQueue) (s : State) : (modQueue k f s).clk = s.clk := rfl
@[simp] theorem modQueue_src (k : Nat) (f : AQueue → AQueue) (s : State) : (modQueue k f s).src = s.src := rfl
@[simp] theorem modQueue_time (k : Nat) (f : AQueue → AQueue) (s : State) : (modQueue k f s).time = s.time := rfl
@[simp] theorem modQueue_lane (k : Nat) (f : AQueue → AQueue) (s : State) : (modQueue k f s).lane = s.lane := rfl
@[simp] theorem modQueue_fr (k : Nat) (f : AQueue → AQueue) (s : State) : (modQueue k f s).fr = s.fr := rfl
@[simp] theorem modQueue_tm (k : Nat) (f : AQueue → AQueue) (s : State) : (modQueue k f s).tm = s.tm := rfl
@[simp] theorem modQueue_cls (k : Nat) (f : AQueue → AQueue) (s : State) : (modQueue k f s).cls = s.cls := rfl
@[simp] theorem modQueue_cap (k : Nat) (f : AQueue → AQueue) (s : State) : (modQueue k f s).cap = s.cap := rfl
@[simp] theorem modQueue_ast (k : Nat) (f : AQueue → AQueue) (s : State) : (modQueue k f s).ast = s.ast := rfl
@[simp] theorem modQueue_mem (k : Nat) (f : AQueue → AQueue) (s : State) : (modQueue k f s).mem = s.mem := rfl
@[simp] theorem modQueue_cip (k : Nat) (f : AQueue → AQueue) (s : State) : (modQueue k f s).cip = s.cip := rfl
@[simp] theorem modQueue_net (k : Nat) (f : AQueue → AQueue) (s : State) : (modQueue k f s).net = s.net := rfl
@[simp] theorem modQueue_pwr (k : Nat) (f : AQueue → AQueue) (s : State) : (modQueue k f s).pwr = s.pwr := rfl
@[simp] theorem modQueue_log (k : Nat) (f : AQueue → AQueue) (s : State) : (modQueue k f s).log = s.log := rfl
@[simp] theorem modQueue_inj (k : Nat) (f : AQueue → AQueue) (s : State) : (modQueue k f s).inj = s.inj := rfl
@[simp] theorem modQueue_pending (k : Nat) (f : AQueue → AQueue) (s : State) : (modQueue k f s).pending = s.pending := rfl

/-! ### `modDesc` -/

@[simp] theorem modDesc_ident (k : Nat) (f : Desc → Desc) (s : State) : (modDesc k f s).ident = s.ident := rfl
@[simp] theorem modDesc_ctl (k : Nat) (f : Desc → Desc) (s : State) : (modDesc k f s).ctl = s.ctl := rfl
@[simp] theorem modDesc_mbx (k : Nat) (f : Desc → Desc) (s : State) : (modDesc k f s).mbx = s.mbx := rfl
@[simp] theorem modDesc_rings (k : Nat) (f : Desc → Desc) (s : State) : (modDesc k f s).rings = s.rings := rfl
@[simp] theorem modDesc_boot (k : Nat) (f : Desc → Desc) (s : State) : (modDesc k f s).boot = s.boot := rfl
@[simp] theorem modDesc_clk (k : Nat) (f : Desc → Desc) (s : State) : (modDesc k f s).clk = s.clk := rfl
@[simp] theorem modDesc_src (k : Nat) (f : Desc → Desc) (s : State) : (modDesc k f s).src = s.src := rfl
@[simp] theorem modDesc_time (k : Nat) (f : Desc → Desc) (s : State) : (modDesc k f s).time = s.time := rfl
@[simp] theorem modDesc_lane (k : Nat) (f : Desc → Desc) (s : State) : (modDesc k f s).lane = s.lane := rfl
@[simp] theorem modDesc_fr (k : Nat) (f : Desc → Desc) (s : State) : (modDesc k f s).fr = s.fr := rfl
@[simp] theorem modDesc_tm (k : Nat) (f : Desc → Desc) (s : State) : (modDesc k f s).tm = s.tm := rfl
@[simp] theorem modDesc_cls (k : Nat) (f : Desc → Desc) (s : State) : (modDesc k f s).cls = s.cls := rfl
@[simp] theorem modDesc_cap (k : Nat) (f : Desc → Desc) (s : State) : (modDesc k f s).cap = s.cap := rfl
@[simp] theorem modDesc_ast (k : Nat) (f : Desc → Desc) (s : State) : (modDesc k f s).ast = s.ast := rfl
@[simp] theorem modDesc_mem (k : Nat) (f : Desc → Desc) (s : State) : (modDesc k f s).mem = s.mem := rfl
@[simp] theorem modDesc_cip (k : Nat) (f : Desc → Desc) (s : State) : (modDesc k f s).cip = s.cip := rfl
@[simp] theorem modDesc_net (k : Nat) (f : Desc → Desc) (s : State) : (modDesc k f s).net = s.net := rfl
@[simp] theorem modDesc_pwr (k : Nat) (f : Desc → Desc) (s : State) : (modDesc k f s).pwr = s.pwr := rfl
@[simp] theorem modDesc_log (k : Nat) (f : Desc → Desc) (s : State) : (modDesc k f s).log = s.log := rfl
@[simp] theorem modDesc_inj (k : Nat) (f : Desc → Desc) (s : State) : (modDesc k f s).inj = s.inj := rfl
@[simp] theorem modDesc_pending (k : Nat) (f : Desc → Desc) (s : State) : (modDesc k f s).pending = s.pending := rfl

theorem desc_modDesc (k n : Nat) (f : Desc → Desc) (s : State) :
    desc (modDesc k f s) n = if n = k then f (desc s k) else desc s n := tget_tmod ..

/-! ### `modCls` -/

@[simp] theorem modCls_ident (f : Classifier → Classifier) (s : State) : (modCls f s).ident = s.ident := rfl
@[simp] theorem modCls_ctl (f : Classifier → Classifier) (s : State) : (modCls f s).ctl = s.ctl := rfl
@[simp] theorem modCls_mbx (f : Classifier → Classifier) (s : State) : (modCls f s).mbx = s.mbx := rfl
@[simp] theorem modCls_rings (f : Classifier → Classifier) (s : State) : (modCls f s).rings = s.rings := rfl
@[simp] theorem modCls_boot (f : Classifier → Classifier) (s : State) : (modCls f s).boot = s.boot := rfl
@[simp] theorem modCls_clk (f : Classifier → Classifier) (s : State) : (modCls f s).clk = s.clk := rfl
@[simp] theorem modCls_src (f : Classifier → Classifier) (s : State) : (modCls f s).src = s.src := rfl
@[simp] theorem modCls_time (f : Classifier → Classifier) (s : State) : (modCls f s).time = s.time := rfl
@[simp] theorem modCls_lane (f : Classifier → Classifier) (s : State) : (modCls f s).lane = s.lane := rfl
@[simp] theorem modCls_fr (f : Classifier → Classifier) (s : State) : (modCls f s).fr = s.fr := rfl
@[simp] theorem modCls_tm (f : Classifier → Classifier) (s : State) : (modCls f s).tm = s.tm := rfl
@[simp] theorem modCls_up (f : Classifier → Classifier) (s : State) : (modCls f s).up = s.up := rfl
@[simp] theorem modCls_cap (f : Classifier → Classifier) (s : State) : (modCls f s).cap = s.cap := rfl
@[simp] theorem modCls_ast (f : Classifier → Classifier) (s : State) : (modCls f s).ast = s.ast := rfl
@[simp] theorem modCls_mem (f : Classifier → Classifier) (s : State) : (modCls f s).mem = s.mem := rfl
@[simp] theorem modCls_cip (f : Classifier → Classifier) (s : State) : (modCls f s).cip = s.cip := rfl
@[simp] theorem modCls_net (f : Classifier → Classifier) (s : State) : (modCls f s).net = s.net := rfl
@[simp] theorem modCls_pwr (f : Classifier → Classifier) (s : State) : (modCls f s).pwr = s.pwr := rfl
@[simp] theorem modCls_log (f : Classifier → Classifier) (s : State) : (modCls f s).log = s.log := rfl
@[simp] theorem modCls_inj (f : Classifier → Classifier) (s : State) : (modCls f s).inj = s.inj := rfl
@[simp] theorem modCls_pending (f : Classifier → Classifier) (s : State) : (modCls f s).pending = s.pending := rfl

/-! ### `modWeir` -/

@[simp] theorem modWeir_ident (k : Nat) (f : Weir → Weir) (s : State) : (modWeir k f s).ident = s.ident := rfl
@[simp] theorem modWeir_ctl (k : Nat) (f : Weir → Weir) (s : State) : (modWeir k f s).ctl = s.ctl := rfl
@[simp] theorem modWeir_mbx (k : Nat) (f : Weir → Weir) (s : State) : (modWeir k f s).mbx = s.mbx := rfl
@[simp] theorem modWeir_rings (k : Nat) (f : Weir → Weir) (s : State) : (modWeir k f s).rings = s.rings := rfl
@[simp] theorem modWeir_boot (k : Nat) (f : Weir → Weir) (s : State) : (modWeir k f s).boot = s.boot := rfl
@[simp] theorem modWeir_clk (k : Nat) (f : Weir → Weir) (s : State) : (modWeir k f s).clk = s.clk := rfl
@[simp] theorem modWeir_src (k : Nat) (f : Weir → Weir) (s : State) : (modWeir k f s).src = s.src := rfl
@[simp] theorem modWeir_time (k : Nat) (f : Weir → Weir) (s : State) : (modWeir k f s).time = s.time := rfl
@[simp] theorem modWeir_lane (k : Nat) (f : Weir → Weir) (s : State) : (modWeir k f s).lane = s.lane := rfl
@[simp] theorem modWeir_fr (k : Nat) (f : Weir → Weir) (s : State) : (modWeir k f s).fr = s.fr := rfl
@[simp] theorem modWeir_tm (k : Nat) (f : Weir → Weir) (s : State) : (modWeir k f s).tm = s.tm := rfl
@[simp] theorem modWeir_up (k : Nat) (f : Weir → Weir) (s : State) : (modWeir k f s).up = s.up := rfl
@[simp] theorem modWeir_cls (k : Nat) (f : Weir → Weir) (s : State) : (modWeir k f s).cls = s.cls := rfl
@[simp] theorem modWeir_ast (k : Nat) (f : Weir → Weir) (s : State) : (modWeir k f s).ast = s.ast := rfl
@[simp] theorem modWeir_mem (k : Nat) (f : Weir → Weir) (s : State) : (modWeir k f s).mem = s.mem := rfl
@[simp] theorem modWeir_cip (k : Nat) (f : Weir → Weir) (s : State) : (modWeir k f s).cip = s.cip := rfl
@[simp] theorem modWeir_net (k : Nat) (f : Weir → Weir) (s : State) : (modWeir k f s).net = s.net := rfl
@[simp] theorem modWeir_pwr (k : Nat) (f : Weir → Weir) (s : State) : (modWeir k f s).pwr = s.pwr := rfl
@[simp] theorem modWeir_log (k : Nat) (f : Weir → Weir) (s : State) : (modWeir k f s).log = s.log := rfl
@[simp] theorem modWeir_inj (k : Nat) (f : Weir → Weir) (s : State) : (modWeir k f s).inj = s.inj := rfl
@[simp] theorem modWeir_pending (k : Nat) (f : Weir → Weir) (s : State) : (modWeir k f s).pending = s.pending := rfl

theorem weir_modWeir (k n : Nat) (f : Weir → Weir) (s : State) :
    weir (modWeir k f s) n = if n = k then f (weir s k) else weir s n := tget_tmod ..

/-! ### `modBasin` -/

@[simp] theorem modBasin_ident (k : Nat) (f : Basin → Basin) (s : State) : (modBasin k f s).ident = s.ident := rfl
@[simp] theorem modBasin_ctl (k : Nat) (f : Basin → Basin) (s : State) : (modBasin k f s).ctl = s.ctl := rfl
@[simp] theorem modBasin_mbx (k : Nat) (f : Basin → Basin) (s : State) : (modBasin k f s).mbx = s.mbx := rfl
@[simp] theorem modBasin_rings (k : Nat) (f : Basin → Basin) (s : State) : (modBasin k f s).rings = s.rings := rfl
@[simp] theorem modBasin_boot (k : Nat) (f : Basin → Basin) (s : State) : (modBasin k f s).boot = s.boot := rfl
@[simp] theorem modBasin_clk (k : Nat) (f : Basin → Basin) (s : State) : (modBasin k f s).clk = s.clk := rfl
@[simp] theorem modBasin_src (k : Nat) (f : Basin → Basin) (s : State) : (modBasin k f s).src = s.src := rfl
@[simp] theorem modBasin_time (k : Nat) (f : Basin → Basin) (s : State) : (modBasin k f s).time = s.time := rfl
@[simp] theorem modBasin_lane (k : Nat) (f : Basin → Basin) (s : State) : (modBasin k f s).lane = s.lane := rfl
@[simp] theorem modBasin_fr (k : Nat) (f : Basin → Basin) (s : State) : (modBasin k f s).fr = s.fr := rfl
@[simp] theorem modBasin_tm (k : Nat) (f : Basin → Basin) (s : State) : (modBasin k f s).tm = s.tm := rfl
@[simp] theorem modBasin_up (k : Nat) (f : Basin → Basin) (s : State) : (modBasin k f s).up = s.up := rfl
@[simp] theorem modBasin_cls (k : Nat) (f : Basin → Basin) (s : State) : (modBasin k f s).cls = s.cls := rfl
@[simp] theorem modBasin_ast (k : Nat) (f : Basin → Basin) (s : State) : (modBasin k f s).ast = s.ast := rfl
@[simp] theorem modBasin_mem (k : Nat) (f : Basin → Basin) (s : State) : (modBasin k f s).mem = s.mem := rfl
@[simp] theorem modBasin_cip (k : Nat) (f : Basin → Basin) (s : State) : (modBasin k f s).cip = s.cip := rfl
@[simp] theorem modBasin_net (k : Nat) (f : Basin → Basin) (s : State) : (modBasin k f s).net = s.net := rfl
@[simp] theorem modBasin_pwr (k : Nat) (f : Basin → Basin) (s : State) : (modBasin k f s).pwr = s.pwr := rfl
@[simp] theorem modBasin_log (k : Nat) (f : Basin → Basin) (s : State) : (modBasin k f s).log = s.log := rfl
@[simp] theorem modBasin_inj (k : Nat) (f : Basin → Basin) (s : State) : (modBasin k f s).inj = s.inj := rfl
@[simp] theorem modBasin_pending (k : Nat) (f : Basin → Basin) (s : State) : (modBasin k f s).pending = s.pending := rfl

theorem basin_modBasin (k n : Nat) (f : Basin → Basin) (s : State) :
    basin (modBasin k f s) n = if n = k then f (basin s k) else basin s n := tget_tmod ..

/-! ### `modExport` -/

@[simp] theorem modExport_ident (k : Nat) (f : Export → Export) (s : State) : (modExport k f s).ident = s.ident := rfl
@[simp] theorem modExport_ctl (k : Nat) (f : Export → Export) (s : State) : (modExport k f s).ctl = s.ctl := rfl
@[simp] theorem modExport_mbx (k : Nat) (f : Export → Export) (s : State) : (modExport k f s).mbx = s.mbx := rfl
@[simp] theorem modExport_rings (k : Nat) (f : Export → Export) (s : State) : (modExport k f s).rings = s.rings := rfl
@[simp] theorem modExport_boot (k : Nat) (f : Export → Export) (s : State) : (modExport k f s).boot = s.boot := rfl
@[simp] theorem modExport_clk (k : Nat) (f : Export → Export) (s : State) : (modExport k f s).clk = s.clk := rfl
@[simp] theorem modExport_src (k : Nat) (f : Export → Export) (s : State) : (modExport k f s).src = s.src := rfl
@[simp] theorem modExport_time (k : Nat) (f : Export → Export) (s : State) : (modExport k f s).time = s.time := rfl
@[simp] theorem modExport_lane (k : Nat) (f : Export → Export) (s : State) : (modExport k f s).lane = s.lane := rfl
@[simp] theorem modExport_fr (k : Nat) (f : Export → Export) (s : State) : (modExport k f s).fr = s.fr := rfl
@[simp] theorem modExport_tm (k : Nat) (f : Export → Export) (s : State) : (modExport k f s).tm = s.tm := rfl
@[simp] theorem modExport_up (k : Nat) (f : Export → Export) (s : State) : (modExport k f s).up = s.up := rfl
@[simp] theorem modExport_cls (k : Nat) (f : Export → Export) (s : State) : (modExport k f s).cls = s.cls := rfl
@[simp] theorem modExport_ast (k : Nat) (f : Export → Export) (s : State) : (modExport k f s).ast = s.ast := rfl
@[simp] theorem modExport_mem (k : Nat) (f : Export → Export) (s : State) : (modExport k f s).mem = s.mem := rfl
@[simp] theorem modExport_cip (k : Nat) (f : Export → Export) (s : State) : (modExport k f s).cip = s.cip := rfl
@[simp] theorem modExport_net (k : Nat) (f : Export → Export) (s : State) : (modExport k f s).net = s.net := rfl
@[simp] theorem modExport_pwr (k : Nat) (f : Export → Export) (s : State) : (modExport k f s).pwr = s.pwr := rfl
@[simp] theorem modExport_log (k : Nat) (f : Export → Export) (s : State) : (modExport k f s).log = s.log := rfl
@[simp] theorem modExport_inj (k : Nat) (f : Export → Export) (s : State) : (modExport k f s).inj = s.inj := rfl
@[simp] theorem modExport_pending (k : Nat) (f : Export → Export) (s : State) : (modExport k f s).pending = s.pending := rfl

/-! ### `modJob` -/

@[simp] theorem modJob_ident (k : Nat) (f : Job → Job) (s : State) : (modJob k f s).ident = s.ident := rfl
@[simp] theorem modJob_ctl (k : Nat) (f : Job → Job) (s : State) : (modJob k f s).ctl = s.ctl := rfl
@[simp] theorem modJob_mbx (k : Nat) (f : Job → Job) (s : State) : (modJob k f s).mbx = s.mbx := rfl
@[simp] theorem modJob_rings (k : Nat) (f : Job → Job) (s : State) : (modJob k f s).rings = s.rings := rfl
@[simp] theorem modJob_boot (k : Nat) (f : Job → Job) (s : State) : (modJob k f s).boot = s.boot := rfl
@[simp] theorem modJob_clk (k : Nat) (f : Job → Job) (s : State) : (modJob k f s).clk = s.clk := rfl
@[simp] theorem modJob_src (k : Nat) (f : Job → Job) (s : State) : (modJob k f s).src = s.src := rfl
@[simp] theorem modJob_time (k : Nat) (f : Job → Job) (s : State) : (modJob k f s).time = s.time := rfl
@[simp] theorem modJob_lane (k : Nat) (f : Job → Job) (s : State) : (modJob k f s).lane = s.lane := rfl
@[simp] theorem modJob_fr (k : Nat) (f : Job → Job) (s : State) : (modJob k f s).fr = s.fr := rfl
@[simp] theorem modJob_tm (k : Nat) (f : Job → Job) (s : State) : (modJob k f s).tm = s.tm := rfl
@[simp] theorem modJob_up (k : Nat) (f : Job → Job) (s : State) : (modJob k f s).up = s.up := rfl
@[simp] theorem modJob_cls (k : Nat) (f : Job → Job) (s : State) : (modJob k f s).cls = s.cls := rfl
@[simp] theorem modJob_cap (k : Nat) (f : Job → Job) (s : State) : (modJob k f s).cap = s.cap := rfl
@[simp] theorem modJob_mem (k : Nat) (f : Job → Job) (s : State) : (modJob k f s).mem = s.mem := rfl
@[simp] theorem modJob_cip (k : Nat) (f : Job → Job) (s : State) : (modJob k f s).cip = s.cip := rfl
@[simp] theorem modJob_net (k : Nat) (f : Job → Job) (s : State) : (modJob k f s).net = s.net := rfl
@[simp] theorem modJob_pwr (k : Nat) (f : Job → Job) (s : State) : (modJob k f s).pwr = s.pwr := rfl
@[simp] theorem modJob_log (k : Nat) (f : Job → Job) (s : State) : (modJob k f s).log = s.log := rfl
@[simp] theorem modJob_inj (k : Nat) (f : Job → Job) (s : State) : (modJob k f s).inj = s.inj := rfl
@[simp] theorem modJob_pending (k : Nat) (f : Job → Job) (s : State) : (modJob k f s).pending = s.pending := rfl

theorem job_modJob (k n : Nat) (f : Job → Job) (s : State) :
    job (modJob k f s) n = if n = k then f (job s k) else job s n := tget_tmod ..

/-! ### `modCore` -/

@[simp] theorem modCore_ident (k : Nat) (f : Core → Core) (s : State) : (modCore k f s).ident = s.ident := rfl
@[simp] theorem modCore_ctl (k : Nat) (f : Core → Core) (s : State) : (modCore k f s).ctl = s.ctl := rfl
@[simp] theorem modCore_mbx (k : Nat) (f : Core → Core) (s : State) : (modCore k f s).mbx = s.mbx := rfl
@[simp] theorem modCore_rings (k : Nat) (f : Core → Core) (s : State) : (modCore k f s).rings = s.rings := rfl
@[simp] theorem modCore_boot (k : Nat) (f : Core → Core) (s : State) : (modCore k f s).boot = s.boot := rfl
@[simp] theorem modCore_clk (k : Nat) (f : Core → Core) (s : State) : (modCore k f s).clk = s.clk := rfl
@[simp] theorem modCore_src (k : Nat) (f : Core → Core) (s : State) : (modCore k f s).src = s.src := rfl
@[simp] theorem modCore_time (k : Nat) (f : Core → Core) (s : State) : (modCore k f s).time = s.time := rfl
@[simp] theorem modCore_lane (k : Nat) (f : Core → Core) (s : State) : (modCore k f s).lane = s.lane := rfl
@[simp] theorem modCore_fr (k : Nat) (f : Core → Core) (s : State) : (modCore k f s).fr = s.fr := rfl
@[simp] theorem modCore_tm (k : Nat) (f : Core → Core) (s : State) : (modCore k f s).tm = s.tm := rfl
@[simp] theorem modCore_up (k : Nat) (f : Core → Core) (s : State) : (modCore k f s).up = s.up := rfl
@[simp] theorem modCore_cls (k : Nat) (f : Core → Core) (s : State) : (modCore k f s).cls = s.cls := rfl
@[simp] theorem modCore_cap (k : Nat) (f : Core → Core) (s : State) : (modCore k f s).cap = s.cap := rfl
@[simp] theorem modCore_mem (k : Nat) (f : Core → Core) (s : State) : (modCore k f s).mem = s.mem := rfl
@[simp] theorem modCore_cip (k : Nat) (f : Core → Core) (s : State) : (modCore k f s).cip = s.cip := rfl
@[simp] theorem modCore_net (k : Nat) (f : Core → Core) (s : State) : (modCore k f s).net = s.net := rfl
@[simp] theorem modCore_pwr (k : Nat) (f : Core → Core) (s : State) : (modCore k f s).pwr = s.pwr := rfl
@[simp] theorem modCore_log (k : Nat) (f : Core → Core) (s : State) : (modCore k f s).log = s.log := rfl
@[simp] theorem modCore_inj (k : Nat) (f : Core → Core) (s : State) : (modCore k f s).inj = s.inj := rfl
@[simp] theorem modCore_pending (k : Nat) (f : Core → Core) (s : State) : (modCore k f s).pending = s.pending := rfl

theorem core_modCore (k n : Nat) (f : Core → Core) (s : State) :
    core (modCore k f s) n = if n = k then f (core s k) else core s n := tget_tmod ..

/-! ### `modStack` -/

@[simp] theorem modStack_ident (k : Nat) (f : Stack → Stack) (s : State) : (modStack k f s).ident = s.ident := rfl
@[simp] theorem modStack_ctl (k : Nat) (f : Stack → Stack) (s : State) : (modStack k f s).ctl = s.ctl := rfl
@[simp] theorem modStack_mbx (k : Nat) (f : Stack → Stack) (s : State) : (modStack k f s).mbx = s.mbx := rfl
@[simp] theorem modStack_rings (k : Nat) (f : Stack → Stack) (s : State) : (modStack k f s).rings = s.rings := rfl
@[simp] theorem modStack_boot (k : Nat) (f : Stack → Stack) (s : State) : (modStack k f s).boot = s.boot := rfl
@[simp] theorem modStack_clk (k : Nat) (f : Stack → Stack) (s : State) : (modStack k f s).clk = s.clk := rfl
@[simp] theorem modStack_src (k : Nat) (f : Stack → Stack) (s : State) : (modStack k f s).src = s.src := rfl
@[simp] theorem modStack_time (k : Nat) (f : Stack → Stack) (s : State) : (modStack k f s).time = s.time := rfl
@[simp] theorem modStack_lane (k : Nat) (f : Stack → Stack) (s : State) : (modStack k f s).lane = s.lane := rfl
@[simp] theorem modStack_fr (k : Nat) (f : Stack → Stack) (s : State) : (modStack k f s).fr = s.fr := rfl
@[simp] theorem modStack_tm (k : Nat) (f : Stack → Stack) (s : State) : (modStack k f s).tm = s.tm := rfl
@[simp] theorem modStack_up (k : Nat) (f : Stack → Stack) (s : State) : (modStack k f s).up = s.up := rfl
@[simp] theorem modStack_cls (k : Nat) (f : Stack → Stack) (s : State) : (modStack k f s).cls = s.cls := rfl
@[simp] theorem modStack_cap (k : Nat) (f : Stack → Stack) (s : State) : (modStack k f s).cap = s.cap := rfl
@[simp] theorem modStack_ast (k : Nat) (f : Stack → Stack) (s : State) : (modStack k f s).ast = s.ast := rfl
@[simp] theorem modStack_cip (k : Nat) (f : Stack → Stack) (s : State) : (modStack k f s).cip = s.cip := rfl
@[simp] theorem modStack_net (k : Nat) (f : Stack → Stack) (s : State) : (modStack k f s).net = s.net := rfl
@[simp] theorem modStack_pwr (k : Nat) (f : Stack → Stack) (s : State) : (modStack k f s).pwr = s.pwr := rfl
@[simp] theorem modStack_log (k : Nat) (f : Stack → Stack) (s : State) : (modStack k f s).log = s.log := rfl
@[simp] theorem modStack_inj (k : Nat) (f : Stack → Stack) (s : State) : (modStack k f s).inj = s.inj := rfl
@[simp] theorem modStack_pending (k : Nat) (f : Stack → Stack) (s : State) : (modStack k f s).pending = s.pending := rfl

theorem stack_modStack (k n : Nat) (f : Stack → Stack) (s : State) :
    stack (modStack k f s) n = if n = k then f (stack s k) else stack s n := tget_tmod ..

/-! ### `modSlot` -/

@[simp] theorem modSlot_ident (k : Nat) (f : Slot → Slot) (s : State) : (modSlot k f s).ident = s.ident := rfl
@[simp] theorem modSlot_ctl (k : Nat) (f : Slot → Slot) (s : State) : (modSlot k f s).ctl = s.ctl := rfl
@[simp] theorem modSlot_mbx (k : Nat) (f : Slot → Slot) (s : State) : (modSlot k f s).mbx = s.mbx := rfl
@[simp] theorem modSlot_rings (k : Nat) (f : Slot → Slot) (s : State) : (modSlot k f s).rings = s.rings := rfl
@[simp] theorem modSlot_boot (k : Nat) (f : Slot → Slot) (s : State) : (modSlot k f s).boot = s.boot := rfl
@[simp] theorem modSlot_clk (k : Nat) (f : Slot → Slot) (s : State) : (modSlot k f s).clk = s.clk := rfl
@[simp] theorem modSlot_src (k : Nat) (f : Slot → Slot) (s : State) : (modSlot k f s).src = s.src := rfl
@[simp] theorem modSlot_time (k : Nat) (f : Slot → Slot) (s : State) : (modSlot k f s).time = s.time := rfl
@[simp] theorem modSlot_lane (k : Nat) (f : Slot → Slot) (s : State) : (modSlot k f s).lane = s.lane := rfl
@[simp] theorem modSlot_fr (k : Nat) (f : Slot → Slot) (s : State) : (modSlot k f s).fr = s.fr := rfl
@[simp] theorem modSlot_tm (k : Nat) (f : Slot → Slot) (s : State) : (modSlot k f s).tm = s.tm := rfl
@[simp] theorem modSlot_up (k : Nat) (f : Slot → Slot) (s : State) : (modSlot k f s).up = s.up := rfl
@[simp] theorem modSlot_cls (k : Nat) (f : Slot → Slot) (s : State) : (modSlot k f s).cls = s.cls := rfl
@[simp] theorem modSlot_cap (k : Nat) (f : Slot → Slot) (s : State) : (modSlot k f s).cap = s.cap := rfl
@[simp] theorem modSlot_ast (k : Nat) (f : Slot → Slot) (s : State) : (modSlot k f s).ast = s.ast := rfl
@[simp] theorem modSlot_mem (k : Nat) (f : Slot → Slot) (s : State) : (modSlot k f s).mem = s.mem := rfl
@[simp] theorem modSlot_net (k : Nat) (f : Slot → Slot) (s : State) : (modSlot k f s).net = s.net := rfl
@[simp] theorem modSlot_pwr (k : Nat) (f : Slot → Slot) (s : State) : (modSlot k f s).pwr = s.pwr := rfl
@[simp] theorem modSlot_log (k : Nat) (f : Slot → Slot) (s : State) : (modSlot k f s).log = s.log := rfl
@[simp] theorem modSlot_inj (k : Nat) (f : Slot → Slot) (s : State) : (modSlot k f s).inj = s.inj := rfl
@[simp] theorem modSlot_pending (k : Nat) (f : Slot → Slot) (s : State) : (modSlot k f s).pending = s.pending := rfl

theorem slot_modSlot (k n : Nat) (f : Slot → Slot) (s : State) :
    slot (modSlot k f s) n = if n = k then f (slot s k) else slot s n := tget_tmod ..

/-! ### `modXfer` -/

@[simp] theorem modXfer_ident (k : Nat) (f : Xfer → Xfer) (s : State) : (modXfer k f s).ident = s.ident := rfl
@[simp] theorem modXfer_ctl (k : Nat) (f : Xfer → Xfer) (s : State) : (modXfer k f s).ctl = s.ctl := rfl
@[simp] theorem modXfer_mbx (k : Nat) (f : Xfer → Xfer) (s : State) : (modXfer k f s).mbx = s.mbx := rfl
@[simp] theorem modXfer_rings (k : Nat) (f : Xfer → Xfer) (s : State) : (modXfer k f s).rings = s.rings := rfl
@[simp] theorem modXfer_boot (k : Nat) (f : Xfer → Xfer) (s : State) : (modXfer k f s).boot = s.boot := rfl
@[simp] theorem modXfer_clk (k : Nat) (f : Xfer → Xfer) (s : State) : (modXfer k f s).clk = s.clk := rfl
@[simp] theorem modXfer_src (k : Nat) (f : Xfer → Xfer) (s : State) : (modXfer k f s).src = s.src := rfl
@[simp] theorem modXfer_time (k : Nat) (f : Xfer → Xfer) (s : State) : (modXfer k f s).time = s.time := rfl
@[simp] theorem modXfer_lane (k : Nat) (f : Xfer → Xfer) (s : State) : (modXfer k f s).lane = s.lane := rfl
@[simp] theorem modXfer_fr (k : Nat) (f : Xfer → Xfer) (s : State) : (modXfer k f s).fr = s.fr := rfl
@[simp] theorem modXfer_tm (k : Nat) (f : Xfer → Xfer) (s : State) : (modXfer k f s).tm = s.tm := rfl
@[simp] theorem modXfer_up (k : Nat) (f : Xfer → Xfer) (s : State) : (modXfer k f s).up = s.up := rfl
@[simp] theorem modXfer_cls (k : Nat) (f : Xfer → Xfer) (s : State) : (modXfer k f s).cls = s.cls := rfl
@[simp] theorem modXfer_cap (k : Nat) (f : Xfer → Xfer) (s : State) : (modXfer k f s).cap = s.cap := rfl
@[simp] theorem modXfer_ast (k : Nat) (f : Xfer → Xfer) (s : State) : (modXfer k f s).ast = s.ast := rfl
@[simp] theorem modXfer_mem (k : Nat) (f : Xfer → Xfer) (s : State) : (modXfer k f s).mem = s.mem := rfl
@[simp] theorem modXfer_net (k : Nat) (f : Xfer → Xfer) (s : State) : (modXfer k f s).net = s.net := rfl
@[simp] theorem modXfer_pwr (k : Nat) (f : Xfer → Xfer) (s : State) : (modXfer k f s).pwr = s.pwr := rfl
@[simp] theorem modXfer_log (k : Nat) (f : Xfer → Xfer) (s : State) : (modXfer k f s).log = s.log := rfl
@[simp] theorem modXfer_inj (k : Nat) (f : Xfer → Xfer) (s : State) : (modXfer k f s).inj = s.inj := rfl
@[simp] theorem modXfer_pending (k : Nat) (f : Xfer → Xfer) (s : State) : (modXfer k f s).pending = s.pending := rfl

theorem xfer_modXfer (k n : Nat) (f : Xfer → Xfer) (s : State) :
    xfer (modXfer k f s) n = if n = k then f (xfer s k) else xfer s n := tget_tmod ..

end Sys2Proof.Machine
end

