-- ==== Sys2Proof/Laws/Steady.lean ====
section
/-!
SUPPORT. What the resets and the boot keep: the waiting commands, the identity, and the canonical form of the
memories (`Steady`).
-/
set_option Elab.async false
namespace Sys2Proof.Machine

/-- A steady outcome: the next state, if there is one, is steady. -/
def SteadyOut (s0 : State) : Host.Outcome State Fault Refusal → Prop
  | .next t => Steady s0 t
  | .fault _ => True
  | .refused _ => True

/-- An update that leaves alone all that `Steady` speaks of. -/
theorem Steady.keep {s t : State} (hp : t.pending = s.pending) (hi : t.ident = s.ident) (hq : t.mbx.req = s.mbx.req)
    (hh : t.rings.hostMem = s.rings.hostMem) (hf : t.boot.flash = s.boot.flash) (hc : t.cap.store = s.cap.store)
    (ha : t.ast.cores = s.ast.cores) : Steady s t := by
  refine ⟨hp, hi, ?_⟩
  rintro ⟨h1, h2, h3, h4, h5⟩
  exact ⟨hq ▸ h1, hh ▸ h2, hf ▸ h3, hc ▸ h4, ha ▸ h5⟩

theorem dropTxEn_steady (ports : List Nat) (s : State) : Steady s (dropTxEn ports s) :=
  (dropTxEn_firm (Firm.refl s)).toSteady

theorem resetState_steady (aon pcie : Bool) (s : State) : Steady s (resetState aon pcie s) := by
  refine (dropTxEn_steady lineRx s).trans ?_
  unfold resetState
  generalize dropTxEn lineRx s = x
  refine ⟨?_, ?_, ?_⟩
  · dsimp only
    split <;> rfl
  · dsimp only
    split <;> rfl
  · rintro ⟨_, h2, h3, _, _⟩
    have hf : (bootKept aon x).flash = x.boot.flash := by
      unfold bootKept
      dsimp only
      split <;> rfl
    have h3 : Memory.wf 0xFF (bootKept aon x).flash = true := by
      rw [hf]
      exact h3
    dsimp only
    split
    · exact ⟨rfl, h2, h3, rfl, rfl⟩
    · exact ⟨rfl, h2, h3, rfl, rfl⟩

theorem setDevState_steady (d : DevState) (c : Option Cause) (s : State) : Steady s (setDevState d c s) := by
  have h : Steady s (s.modCtl fun x => { x with devState := d }) := Steady.keep rfl rfl rfl rfl rfl rfl rfl
  exact h.trans (raise_firm (Firm.refl _)).toSteady

theorem bootFails_steady (a : Bool) (c : Nat) (s : State) : Steady s (bootFails a c s) := by
  have h : Steady s { s with ctl := { s.ctl with faultHw := true } } := Steady.keep rfl rfl rfl rfl rfl rfl rfl
  unfold bootFails
  dsimp only
  split
  · refine (h.trans ((raise_firm (code := 0x0103) (obj := 0) (args := le 1 c) (cause := none)
      (Firm.refl _)).toSteady.trans (setDevState_steady .fault none _))).trans ?_
    exact Steady.keep rfl rfl rfl rfl rfl rfl rfl
  · refine Steady.trans ?_ (postEvent_firm (Firm.refl _)).toSteady
    exact Steady.keep rfl rfl rfl rfl rfl rfl rfl

theorem runImage_steady (i : Nat) (trial : Bool) (s : State) : Steady s (runImage i trial s) := by
  have h : ∀ b : Boot, b.flash = s.boot.flash → Steady s { s with boot := b } := fun b e =>
    Steady.keep rfl rfl rfl rfl e rfl rfl
  unfold runImage
  dsimp only
  split
  · refine Steady.trans ?_ (program_firm (Firm.refl _)).toSteady
    exact h _ rfl
  · exact h _ rfl

theorem bootRom_steady (env : BootEnv) (s : State) : Steady s (bootRom env s) := by
  have h : Steady s { s with boot := { s.boot with
      pllLocked := env.pllLocks
      bootOk := false
      sramInit := s.boot.strapHwinit || s.boot.hwinitFlag } } := Steady.keep rfl rfl rfl rfl rfl rfl rfl
  unfold bootRom
  dsimp only
  generalize hx : ({ s with boot := { s.boot with
      pllLocked := env.pllLocks
      bootOk := false
      sramInit := s.boot.strapHwinit || s.boot.hwinitFlag } } : State) = x at h
  have k : Steady s (env.failedStacks.foldl (fun y n => fenceStack 1 n y) x) := by
    refine h.trans (Firm.foldl (Firm.refl x) fun _ _ hy => ?_).toSteady
    exact fenceStack_firm hy
  generalize env.failedStacks.foldl (fun y n => fenceStack 1 n y) x = y at k
  split
  · exact h
  · split
    · exact h.trans (bootFails_steady _ _ _)
    · split
      · exact k.trans (runImage_steady _ _ _)
      · exact k.trans (bootFails_steady _ _ _)

theorem warmReset_steady (pcie : Bool) (cause : Option Cause) (env : BootEnv) (s : State) : Steady s (warmReset pcie cause env s) := by
  unfold warmReset
  dsimp only
  refine Steady.trans ?_ ((resetState_steady true pcie _).trans (bootRom_steady env _))
  have h := (gapHours_firm (Firm.refl s)).toSteady
  split
  · exact h
  · exact h.trans (setDevState_steady _ _ _)

theorem heldReset_steady (powered : Bool) (s : State) : Steady s (heldReset powered s) := by
  have h := resetState_steady false false s
  unfold heldReset
  dsimp only
  generalize resetState false false s = x at h ⊢
  exact h.trans (Steady.keep rfl rfl rfl rfl rfl rfl rfl)

theorem execPorNDeassert_steady (straps : Straps) (env : BootEnv) (s : State) :
    SteadyOut s (execPorNDeassert straps env s) := by
  have h := resetState_steady false false s
  unfold execPorNDeassert
  dsimp only
  generalize resetState false false s = x at h ⊢
  refine Steady.trans ?_ (bootRom_steady env _)
  refine Steady.trans ?_ (logPowerOn_firm (Firm.refl _)).toSteady
  exact h.trans (Steady.keep rfl rfl rfl rfl rfl rfl rfl)

theorem execPorNAssert_steady (s : State) : SteadyOut s (execPorNAssert s) := heldReset_steady _ s

theorem execSupplyRemoval_steady (s : State) : SteadyOut s (execSupplyRemoval s) := heldReset_steady _ s

theorem execPerstNDeassert_steady (env : BootEnv) (s : State) : SteadyOut s (execPerstNDeassert env s) := by
  unfold execPerstNDeassert
  split
  · exact warmReset_steady _ _ _ s
  · exact Steady.refl s

theorem execSoftResetWrite_steady (value : BitVec 32) (env : BootEnv) (s : State) :
    SteadyOut s (execSoftResetWrite value env s) := by
  unfold execSoftResetWrite
  split
  · exact warmReset_steady _ _ _ s
  · exact Steady.refl s

theorem execDeviceResetDelayExpiry_steady (env : BootEnv) (s : State) :
    SteadyOut s (execDeviceResetDelayExpiry env s) := by
  unfold execDeviceResetDelayExpiry
  split
  · exact warmReset_steady _ _ _ s
  · exact Steady.refl s

end Sys2Proof.Machine
end

