-- ==== Sys2Proof/Laws/TakeUp.lean ====
section
/-!
SUPPORT. What the commands read of the state is the same after their request has been taken up.
-/
namespace Sys2Proof.Machine

/-- Taking up a request changes the turn of the rotation and the mailboxes, nothing else. -/
theorem takeUp_form (r : Req) (s : State) :
    ∃ m, takeUp r s = { s with ctl := { s.ctl with turn := (r.ch + 1) % 17 }, mbx := m } :=
  ⟨_, by rw [← takeUp_ctl]; exact takeUp_eq r s⟩

@[simp] theorem imageHeader_takeUp (r : Req) (s : State) (n : Nat) :
    Machine.imageHeader (takeUp r s) n = Machine.imageHeader s n := by
  obtain ⟨m, h⟩ := takeUp_form r s; rw [h]; rfl
@[simp] theorem stagesGood_takeUp (r : Req) (s : State) (n : Nat) :
    Machine.stagesGood (takeUp r s) n = Machine.stagesGood s n := by
  obtain ⟨m, h⟩ := takeUp_form r s; rw [h]; rfl
@[simp] theorem imageState_takeUp (r : Req) (s : State) (n : Nat) :
    Machine.imageState (takeUp r s) n = Machine.imageState s n := by
  obtain ⟨m, h⟩ := takeUp_form r s; rw [h]; rfl
@[simp] theorem usable_takeUp (r : Req) (s : State) (n : Nat) :
    Machine.usable (takeUp r s) n = Machine.usable s n := by
  obtain ⟨m, h⟩ := takeUp_form r s; rw [h]; rfl
@[simp] theorem capInUse_takeUp (r : Req) (s : State) (n : Nat) :
    Machine.capInUse (takeUp r s) n = Machine.capInUse s n := by
  obtain ⟨m, h⟩ := takeUp_form r s; rw [h]; rfl
@[simp] theorem findTerm_takeUp (r : Req) (s : State) (n : Nat) :
    Machine.findTerm (takeUp r s) n = Machine.findTerm s n := by
  obtain ⟨m, h⟩ := takeUp_form r s; rw [h]; rfl
@[simp] theorem maySlot_takeUp (r : Req) (s : State) (q : Req) (n : Nat) :
    Machine.maySlot q (takeUp r s) n = Machine.maySlot q s n := by
  obtain ⟨m, h⟩ := takeUp_form r s; rw [h]; rfl
@[simp] theorem slotInCapture_takeUp (r : Req) (s : State) (n : Nat) :
    Machine.slotInCapture (takeUp r s) n = Machine.slotInCapture s n := by
  obtain ⟨m, h⟩ := takeUp_form r s; rw [h]; rfl
@[simp] theorem slotInXfer_takeUp (r : Req) (s : State) (n : Nat) :
    Machine.slotInXfer (takeUp r s) n = Machine.slotInXfer s n := by
  obtain ⟨m, h⟩ := takeUp_form r s; rw [h]; rfl
@[simp] theorem lineFixed_takeUp (r : Req) (s : State) (n : Nat) :
    Machine.lineFixed (takeUp r s) n = Machine.lineFixed s n := by
  obtain ⟨m, h⟩ := takeUp_form r s; rw [h]; rfl
@[simp] theorem termState_takeUp (r : Req) (s : State) (n : Nat) :
    Machine.termState (takeUp r s) n = Machine.termState s n := by
  obtain ⟨m, h⟩ := takeUp_form r s; rw [h]; rfl
@[simp] theorem keyStatusBytes_takeUp (r : Req) (s : State) (n : Nat) :
    Machine.keyStatusBytes (takeUp r s) n = Machine.keyStatusBytes s n := by
  obtain ⟨m, h⟩ := takeUp_form r s; rw [h]; rfl
@[simp] theorem freeXfer_takeUp (r : Req) (s : State) : Machine.freeXfer (takeUp r s) = Machine.freeXfer s := by
  obtain ⟨m, h⟩ := takeUp_form r s; rw [h]; rfl
@[simp] theorem sealIv_takeUp (r : Req) (s : State) (n : Nat) :
    Machine.sealIv (takeUp r s) n = Machine.sealIv s n := by
  obtain ⟨m, h⟩ := takeUp_form r s; rw [h]; rfl
@[simp] theorem sealHeader_takeUp (r : Req) (s : State) (n : Nat) (n1 : Nat) (n2 : Nat) (n3 : Nat) (n4 : Nat) (bs : Bytes) (n5 : Nat) :
    Machine.sealHeader (takeUp r s) n n1 n2 n3 n4 bs n5 = Machine.sealHeader s n n1 n2 n3 n4 bs n5 := by
  obtain ⟨m, h⟩ := takeUp_form r s; rw [h]; rfl
@[simp] theorem newest_takeUp (r : Req) (s : State) : Machine.newest (takeUp r s) = Machine.newest s := by
  obtain ⟨m, h⟩ := takeUp_form r s; rw [h]; rfl
@[simp] theorem liveVersion_takeUp (r : Req) (s : State) (n : Nat) :
    Machine.liveVersion (takeUp r s) n = Machine.liveVersion s n := by
  obtain ⟨m, h⟩ := takeUp_form r s; rw [h]; rfl
@[simp] theorem shadowFree_takeUp (r : Req) (s : State) : Machine.shadowFree (takeUp r s) = Machine.shadowFree s := by
  obtain ⟨m, h⟩ := takeUp_form r s; rw [h]; rfl
@[simp] theorem inVersion_takeUp (r : Req) (s : State) (n : Nat) :
    Machine.inVersion (takeUp r s) n = Machine.inVersion s n := by
  obtain ⟨m, h⟩ := takeUp_form r s; rw [h]; rfl
@[simp] theorem mayDraft_takeUp (r : Req) (s : State) (q : Req) :
    Machine.mayDraft q (takeUp r s) = Machine.mayDraft q s := by
  obtain ⟨m, h⟩ := takeUp_form r s; rw [h]; rfl
@[simp] theorem dirtyRules_takeUp (r : Req) (s : State) : Machine.dirtyRules (takeUp r s) = Machine.dirtyRules s := by
  obtain ⟨m, h⟩ := takeUp_form r s; rw [h]; rfl
@[simp] theorem commitBytes_takeUp (r : Req) (s : State) (n : Nat) :
    Machine.commitBytes n (takeUp r s) = Machine.commitBytes n s := by
  obtain ⟨m, h⟩ := takeUp_form r s; rw [h]; rfl
@[simp] theorem neverCommitted_takeUp (r : Req) (s : State) (n : Nat) :
    Machine.neverCommitted (takeUp r s) n = Machine.neverCommitted s n := by
  obtain ⟨m, h⟩ := takeUp_form r s; rw [h]; rfl
@[simp] theorem olderLive_takeUp (r : Req) (s : State) (n : Nat) :
    Machine.olderLive (takeUp r s) n = Machine.olderLive s n := by
  obtain ⟨m, h⟩ := takeUp_form r s; rw [h]; rfl
@[simp] theorem versionState_takeUp (r : Req) (s : State) (n : Nat) :
    Machine.versionState (takeUp r s) n = Machine.versionState s n := by
  obtain ⟨m, h⟩ := takeUp_form r s; rw [h]; rfl
@[simp] theorem ruleBytes_takeUp (r : Req) (s : State) (n : Nat) (n1 : Nat) (x : RuleSet) :
    Machine.ruleBytes n n1 x (takeUp r s) = Machine.ruleBytes n n1 x s := by
  obtain ⟨m, h⟩ := takeUp_form r s; rw [h]; rfl
@[simp] theorem pointBytes_takeUp (r : Req) (s : State) : Machine.pointBytes (takeUp r s) = Machine.pointBytes s := by
  obtain ⟨m, h⟩ := takeUp_form r s; rw [h]; rfl
@[simp] theorem clockStatusBytes_takeUp (r : Req) (s : State) :
    Machine.clockStatusBytes (takeUp r s) = Machine.clockStatusBytes s := by
  obtain ⟨m, h⟩ := takeUp_form r s; rw [h]; rfl
@[simp] theorem deviceInfo_takeUp (r : Req) (s : State) : Machine.deviceInfo (takeUp r s) = Machine.deviceInfo s := by
  obtain ⟨m, h⟩ := takeUp_form r s; rw [h]; rfl
@[simp] theorem otherImage_takeUp (r : Req) (s : State) : Machine.otherImage (takeUp r s) = Machine.otherImage s := by
  obtain ⟨m, h⟩ := takeUp_form r s; rw [h]; rfl
@[simp] theorem imageEntry_takeUp (r : Req) (s : State) (n : Nat) :
    Machine.imageEntry (takeUp r s) n = Machine.imageEntry s n := by
  obtain ⟨m, h⟩ := takeUp_form r s; rw [h]; rfl
@[simp] theorem xfer_takeUp (r : Req) (s : State) (n : Nat) : Machine.xfer (takeUp r s) n = Machine.xfer s n := by
  obtain ⟨m, h⟩ := takeUp_form r s; rw [h]; rfl
@[simp] theorem ringRefusal_takeUp (r : Req) (s : State) (n : Nat) (b : Bool) :
    Machine.ringRefusal (takeUp r s) n b = Machine.ringRefusal s n b := by
  obtain ⟨m, h⟩ := takeUp_form r s; rw [h]; rfl
@[simp] theorem planeStatusBytes_takeUp (r : Req) (s : State) (n : Nat) :
    Machine.planeStatusBytes n (takeUp r s) = Machine.planeStatusBytes n s := by
  obtain ⟨m, h⟩ := takeUp_form r s; rw [h]; rfl
@[simp] theorem hostStatusBytes_takeUp (r : Req) (s : State) (n : Nat) :
    Machine.hostStatusBytes (takeUp r s) n = Machine.hostStatusBytes s n := by
  obtain ⟨m, h⟩ := takeUp_form r s; rw [h]; rfl
@[simp] theorem kernelBusy_takeUp (r : Req) (s : State) (n : Nat) :
    Machine.kernelBusy (takeUp r s) n = Machine.kernelBusy s n := by
  obtain ⟨m, h⟩ := takeUp_form r s; rw [h]; rfl
@[simp] theorem parterreUsable_takeUp (r : Req) (s : State) (n : Nat) :
    Machine.parterreUsable (takeUp r s) n = Machine.parterreUsable s n := by
  obtain ⟨m, h⟩ := takeUp_form r s; rw [h]; rfl
@[simp] theorem freeRun_takeUp (r : Req) (s : State) (n : Nat) :
    Machine.freeRun (takeUp r s) n = Machine.freeRun s n := by
  obtain ⟨m, h⟩ := takeUp_form r s; rw [h]; rfl
@[simp] theorem jobBundles_takeUp (r : Req) (s : State) (x : Job) :
    Machine.jobBundles (takeUp r s) x = Machine.jobBundles s x := by
  obtain ⟨m, h⟩ := takeUp_form r s; rw [h]; rfl
@[simp] theorem slot_takeUp (r : Req) (s : State) (n : Nat) : Machine.slot (takeUp r s) n = Machine.slot s n := by
  obtain ⟨m, h⟩ := takeUp_form r s; rw [h]; rfl
@[simp] theorem sdBits_takeUp (r : Req) (s : State) (n : Nat) :
    Machine.sdBits (takeUp r s) n = Machine.sdBits s n := by
  obtain ⟨m, h⟩ := takeUp_form r s; rw [h]; rfl
@[simp] theorem layoutOf_takeUp (r : Req) (s : State) (n : Nat) :
    Machine.layoutOf (takeUp r s) n = Machine.layoutOf s n := by
  obtain ⟨m, h⟩ := takeUp_form r s; rw [h]; rfl
@[simp] theorem hitsDisable_takeUp (r : Req) (s : State) (bs : Bytes) :
    Machine.hitsDisable (takeUp r s) bs = Machine.hitsDisable s bs := by
  obtain ⟨m, h⟩ := takeUp_form r s; rw [h]; rfl
@[simp] theorem memStatusBytes_takeUp (r : Req) (s : State) (n : Nat) :
    Machine.memStatusBytes (takeUp r s) n = Machine.memStatusBytes s n := by
  obtain ⟨m, h⟩ := takeUp_form r s; rw [h]; rfl
@[simp] theorem instanceOff_takeUp (r : Req) (s : State) (n : Nat) :
    Machine.instanceOff (takeUp r s) n = Machine.instanceOff s n := by
  obtain ⟨m, h⟩ := takeUp_form r s; rw [h]; rfl
@[simp] theorem plane_takeUp (r : Req) (s : State) (n : Nat) : Machine.plane (takeUp r s) n = Machine.plane s n := by
  obtain ⟨m, h⟩ := takeUp_form r s; rw [h]; rfl
@[simp] theorem prot_takeUp (r : Req) (s : State) (n : Nat) : Machine.prot (takeUp r s) n = Machine.prot s n := by
  obtain ⟨m, h⟩ := takeUp_form r s; rw [h]; rfl
@[simp] theorem engineStatus_takeUp (r : Req) (s : State) (n : Nat) :
    Machine.engineStatus (takeUp r s) n = Machine.engineStatus s n := by
  obtain ⟨m, h⟩ := takeUp_form r s; rw [h]; rfl
@[simp] theorem standbyCode_takeUp (r : Req) (s : State) (n : Nat) :
    Machine.standbyCode (takeUp r s) n = Machine.standbyCode s n := by
  obtain ⟨m, h⟩ := takeUp_form r s; rw [h]; rfl
@[simp] theorem ring_takeUp (r : Req) (s : State) (n : Nat) : Machine.ring (takeUp r s) n = Machine.ring s n := by
  obtain ⟨m, h⟩ := takeUp_form r s; rw [h]; rfl
@[simp] theorem hushForbidden_takeUp (r : Req) (s : State) :
    Machine.hushForbidden (takeUp r s) = Machine.hushForbidden s := by
  obtain ⟨m, h⟩ := takeUp_form r s; rw [h]; rfl
@[simp] theorem stillRefusal_takeUp (r : Req) (s : State) :
    Machine.stillRefusal (takeUp r s) = Machine.stillRefusal s := by
  obtain ⟨m, h⟩ := takeUp_form r s; rw [h]; rfl
@[simp] theorem powerStatus_takeUp (r : Req) (s : State) :
    Machine.powerStatus (takeUp r s) = Machine.powerStatus s := by
  obtain ⟨m, h⟩ := takeUp_form r s; rw [h]; rfl
@[simp] theorem manualRefused_takeUp (r : Req) (s : State) (n : Nat) (n1 : Nat) :
    Machine.manualRefused (takeUp r s) n n1 = Machine.manualRefused s n n1 := by
  obtain ⟨m, h⟩ := takeUp_form r s; rw [h]; rfl
@[simp] theorem protStatusBytes_takeUp (r : Req) (s : State) (n : Nat) :
    Machine.protStatusBytes (takeUp r s) n = Machine.protStatusBytes s n := by
  obtain ⟨m, h⟩ := takeUp_form r s; rw [h]; rfl
@[simp] theorem nowStamp_takeUp (r : Req) (s : State) : Machine.nowStamp (takeUp r s) = Machine.nowStamp s := by
  obtain ⟨m, h⟩ := takeUp_form r s; rw [h]; rfl
@[simp] theorem core_takeUp (r : Req) (s : State) (n : Nat) : Machine.core (takeUp r s) n = Machine.core s n := by
  obtain ⟨m, h⟩ := takeUp_form r s; rw [h]; rfl
@[simp] theorem job_takeUp (r : Req) (s : State) (n : Nat) : Machine.job (takeUp r s) n = Machine.job s n := by
  obtain ⟨m, h⟩ := takeUp_form r s; rw [h]; rfl
@[simp] theorem kernel_takeUp (r : Req) (s : State) (n : Nat) :
    Machine.kernel (takeUp r s) n = Machine.kernel s n := by
  obtain ⟨m, h⟩ := takeUp_form r s; rw [h]; rfl
@[simp] theorem stackTotal_takeUp (r : Req) (s : State) : Machine.stackTotal (takeUp r s) = Machine.stackTotal s := by
  obtain ⟨m, h⟩ := takeUp_form r s; rw [h]; rfl
@[simp] theorem segCount_takeUp (r : Req) (s : State) : Machine.segCount (takeUp r s) = Machine.segCount s := by
  obtain ⟨m, h⟩ := takeUp_form r s; rw [h]; rfl
@[simp] theorem fenced_takeUp (r : Req) (s : State) (n : Nat) :
    Machine.fenced (takeUp r s) n = Machine.fenced s n := by
  obtain ⟨m, h⟩ := takeUp_form r s; rw [h]; rfl
@[simp] theorem fencedOrMarked_takeUp (r : Req) (s : State) (n : Nat) :
    Machine.fencedOrMarked (takeUp r s) n = Machine.fencedOrMarked s n := by
  obtain ⟨m, h⟩ := takeUp_form r s; rw [h]; rfl
@[simp] theorem basin_takeUp (r : Req) (s : State) (n : Nat) : Machine.basin (takeUp r s) n = Machine.basin s n := by
  obtain ⟨m, h⟩ := takeUp_form r s; rw [h]; rfl
@[simp] theorem jobHolder_takeUp (r : Req) (s : State) (n : Nat) :
    Machine.jobHolder (takeUp r s) n = Machine.jobHolder s n := by
  obtain ⟨m, h⟩ := takeUp_form r s; rw [h]; rfl
@[simp] theorem lowestFree_takeUp (r : Req) (s : State) (n : Nat) :
    Machine.lowestFree (takeUp r s) n = Machine.lowestFree s n := by
  obtain ⟨m, h⟩ := takeUp_form r s; rw [h]; rfl
@[simp] theorem serialTaken_takeUp (r : Req) (s : State) (n : Nat) (bs : Bytes) :
    Machine.serialTaken (takeUp r s) n bs = Machine.serialTaken s n bs := by
  obtain ⟨m, h⟩ := takeUp_form r s; rw [h]; rfl
@[simp] theorem schedOf_takeUp (r : Req) (s : State) (q : Req) (n : Nat) (n1 : Nat) (n2 : Nat) :
    Machine.schedOf q n n1 n2 (takeUp r s) = Machine.schedOf q n n1 n2 s := by
  obtain ⟨m, h⟩ := takeUp_form r s; rw [h]; rfl
@[simp] theorem sfcRefused_takeUp (r : Req) (s : State) (n : Nat) (n1 : Nat) (n2 : Nat) :
    Machine.sfcRefused (takeUp r s) n n1 n2 = Machine.sfcRefused s n n1 n2 := by
  obtain ⟨m, h⟩ := takeUp_form r s; rw [h]; rfl
@[simp] theorem portTaken_takeUp (r : Req) (s : State) (n : Nat) (n1 : Nat) (n2 : Nat) :
    Machine.portTaken (takeUp r s) n n1 n2 = Machine.portTaken s n n1 n2 := by
  obtain ⟨m, h⟩ := takeUp_form r s; rw [h]; rfl
@[simp] theorem termStatusBytes_takeUp (r : Req) (s : State) (n : Nat) (t : Term) :
    Machine.termStatusBytes (takeUp r s) n t = Machine.termStatusBytes s n t := by
  obtain ⟨m, h⟩ := takeUp_form r s; rw [h]; rfl
@[simp] theorem omciOf_takeUp (r : Req) (s : State) (n : Nat) :
    Machine.omciOf (takeUp r s) n = Machine.omciOf s n := by
  obtain ⟨m, h⟩ := takeUp_form r s; rw [h]; rfl
@[simp] theorem omciFirst_takeUp (r : Req) (s : State) : Machine.omciFirst (takeUp r s) = Machine.omciFirst s := by
  obtain ⟨m, h⟩ := takeUp_form r s; rw [h]; rfl
@[simp] theorem descsLive_takeUp (r : Req) (s : State) : Machine.descsLive (takeUp r s) = Machine.descsLive s := by
  obtain ⟨m, h⟩ := takeUp_form r s; rw [h]; rfl
@[simp] theorem poolDenied_takeUp (r : Req) (s : State) (n : Nat) :
    Machine.poolDenied (takeUp r s) n = Machine.poolDenied s n := by
  obtain ⟨m, h⟩ := takeUp_form r s; rw [h]; rfl
@[simp] theorem loadRuns_takeUp (r : Req) (s : State) : Machine.loadRuns (takeUp r s) = Machine.loadRuns s := by
  obtain ⟨m, h⟩ := takeUp_form r s; rw [h]; rfl
@[simp] theorem descLast_takeUp (r : Req) (s : State) (n : Nat) :
    Machine.descLast (takeUp r s) n = Machine.descLast s n := by
  obtain ⟨m, h⟩ := takeUp_form r s; rw [h]; rfl
@[simp] theorem descNamed_takeUp (r : Req) (s : State) (n : Nat) :
    Machine.descNamed (takeUp r s) n = Machine.descNamed s n := by
  obtain ⟨m, h⟩ := takeUp_form r s; rw [h]; rfl
@[simp] theorem mayTraffic_takeUp (r : Req) (s : State) (q : Req) (n : Nat) :
    Machine.mayTraffic q (takeUp r s) n = Machine.mayTraffic q s n := by
  obtain ⟨m, h⟩ := takeUp_form r s; rw [h]; rfl
@[simp] theorem amapBusy_takeUp (r : Req) (s : State) (n : Nat) :
    Machine.amapBusy (takeUp r s) n = Machine.amapBusy s n := by
  obtain ⟨m, h⟩ := takeUp_form r s; rw [h]; rfl
@[simp] theorem queueStatusBytes_takeUp (r : Req) (s : State) (n : Nat) :
    Machine.queueStatusBytes (takeUp r s) n = Machine.queueStatusBytes s n := by
  obtain ⟨m, h⟩ := takeUp_form r s; rw [h]; rfl
@[simp] theorem lane_takeUp (r : Req) (s : State) (n : Nat) : Machine.lane (takeUp r s) n = Machine.lane s n := by
  obtain ⟨m, h⟩ := takeUp_form r s; rw [h]; rfl
@[simp] theorem optics_takeUp (r : Req) (s : State) (n : Nat) :
    Machine.optics (takeUp r s) n = Machine.optics s n := by
  obtain ⟨m, h⟩ := takeUp_form r s; rw [h]; rfl
@[simp] theorem inTest_takeUp (r : Req) (s : State) (l : List Nat) :
    Machine.inTest l (takeUp r s) = Machine.inTest l s := by
  obtain ⟨m, h⟩ := takeUp_form r s; rw [h]; rfl
@[simp] theorem hport_takeUp (r : Req) (s : State) (n : Nat) : Machine.hport (takeUp r s) n = Machine.hport s n := by
  obtain ⟨m, h⟩ := takeUp_form r s; rw [h]; rfl
@[simp] theorem classRoom_takeUp (r : Req) (s : State) (n : Nat) (n1 : Nat) (n2 : Nat) :
    Machine.classRoom (takeUp r s) n n1 n2 = Machine.classRoom s n n1 n2 := by
  obtain ⟨m, h⟩ := takeUp_form r s; rw [h]; rfl

end Sys2Proof.Machine
end

