-- ==== Sys2Proof/Tests/Slice0.lean ====
section
/-!
SUPPORT. The model's own tests: an ill-formed command for each check of WellFormed, small checks whose results stand in
the spec, and for each statement with hypotheses a witness that meets them, clause by clause.
-/

namespace Sys2Proof.Tests
open Sys2Proof Sys2Proof.Machine

set_option maxRecDepth 100000
set_option Elab.async false
set_option linter.unusedVariables false

/-- The device with its firmware running, in a state of R41. -/
def inState (d : DevState) : State :=
  { State.reset with ctl := { State.reset.ctl with devState := d, cpAlive := true } }

/-- The device in RUN. -/
def up : State := inState .run

/-- The bytes of a request of a client with tag 7, laid out as R46 says. -/
def rawOf (client op : Nat) (p : Bytes) : Bytes :=
  let h := le 2 op ++ le 2 7 ++ le 2 p.length ++ zeros 2 ++ le 1 client ++ zeros 3
  h ++ le 4 (crc32c (h ++ zeros 4 ++ p)) ++ p

/-- The same of client 0. -/
def raw (op : Nat) (p : Bytes) : Bytes := rawOf 0 op p

/-- The same as the CP reads it from slot 0 of channel 0. -/
def req (op : Nat) (p : Bytes) : Req := parseReq 0 0 0 (raw op p)

/-- A state with one channel whose slot 0 has been submitted with these bytes. -/
def asked (bs : Bytes) (s : State) : State :=
  { s with mbx := { s.mbx with
    req := Memory.writeBytes 0 [] 0 bs
    chans := [(0, { slots := [.submitted, .free, .free, .free], queue := [0] })] } }

def ask (op : Nat) (p : Bytes) (s : State) : State := asked (raw op p) s

/-- A request whose check sum is wrong. -/
def rawBad (op : Nat) : Bytes := le 2 op ++ zeros 14

def reqBad (op : Nat) : Req := parseReq 0 0 0 (rawBad op)

def askBad (op : Nat) (s : State) : State := asked (rawBad op) s

/-- CLOCK_SET on the fallback mailbox, which does not serve it. -/
def smbReq : Req := parseReq 16 0 16 (raw 0x0207 [])

/-- Channel 0 bound to another client. -/
def bound : State := modChan 0 (fun c => { c with bound := true, bindClient := 9 }) up

/-- NOP with a check sum failure injected. -/
def injected : State :=
  { ask 0x0000 [] up with inj := { up.inj with entries := [(0, { det := 0x14 })] } }

/-! ### Well-formedness: an ill-formed command for each check -/

def noEnv : BootEnv := { pllLocks := true, flashAnswers := true, failedStacks := [] }
def sync0 : PsyncObs := { at_ := 0, errs := 0, sfcHec := true, sfc := 0 }
def frame0 : FrameObs :=
  { ponHec := true, ponId := 0, corrected := 0, uncorrectable := 0, fsHec := true, ploam := [], bwmap := [] }
def alloc0 : AllocStruct :=
  { hec := true, alloc := 0, broadcast := false, dbru := false, ploam := false, start := none, grant := 0, profile := 0
    last := true }
def xgem0 : XgemObs :=
  { kind := 0, fixed := false, portId := 0, keyIdx := 0, lf := true, fecUnc := false, off := 0, header := zeros 8
    payload := [], pad := [] }
def tap0 : TapObs :=
  { grant := none, at_ := 0, fsHec := true, onuId := 0, words := 0, bipRx := 0, bipCalc := 0, fecCorrected := 0
    fecUncorrectable := 0, overhead := [], head := [], frames := [] }
def msg0 : DsMsg := { onu := none, mic := none, ack := false, body := .other, bytes := zeros 48 }
def reading0 : OpticsReading := { ident := 0, alarms := 0, temp := 0, vcc := 0, bias := 0, txPower := 0, rxPower := 0 }

theorem test_ill_formed_host : ([
    .porNDeassert { boot := 4, hwinit := false, smb := 0 } noEnv,
    .porNDeassert { boot := 0, hwinit := false, smb := 8 } noEnv,
    .firmwareFault (zeros 33), .doorbellWrite 16 0, .requestSlotWrite 16 0 (zeros 4), .requestSlotWrite 0 0x400 (zeros 4),
    .requestSlotWrite 0 2 (zeros 4), .requestSlotWrite 0 4 (zeros 8), .requestSlotWrite 0 0 (zeros 3), .mbReleaseWrite 16 0,
    .mbErrRead 16, .ringCtrlEnable 32 false, .ringCtrlDisable 32, .ringTailWrite 32 0, .registerWrite 0x18 (zeros 4),
    .registerWrite 0x4000000 (zeros 4), .registerWrite 0x10 [], .registerWrite 0x10 (zeros 9), .bar2Read 0 0,
    .bar2Read 4095 2, .bar2Write 0x40000000 (zeros 4), .offDomainAccess 1 0 none 4, .offDomainAccess 0 0 none 4097,
    .smbusBlockWrite (zeros 256) true] : List Instr).all (fun i => !WellFormed i) = true := by
  decide +kernel

theorem test_ill_formed_line : ([
    .clkForcedSwitch 7, .sourceQualified 2, .avsbusMonitor true ⟨65536, 0⟩, .avsbusMonitor true ⟨0, 65536⟩, .opticsPoll 0x12 none,
    .opticsPoll 0 (some { reading0 with ident := 256 }), .opticsPoll 0 (some { reading0 with alarms := 64 }),
    .opticsPoll 0 (some { reading0 with temp := 65536 }), .opticsPoll 0 (some { reading0 with vcc := 65536 }),
    .opticsPoll 0 (some { reading0 with bias := 65536 }), .opticsPoll 0 (some { reading0 with txPower := 65536 }),
    .opticsPoll 0 (some { reading0 with rxPower := 65536 }), .opticsBusStuck 2, .cdrLockChange 0x90 true,
    .sdInputChange 0x40 true, .sdTDeassert 0, .bmRstPulseStart 1, .bmRstPulseEnd 0x11, .psyncMatchHunt 0x102 sync0,
    .psyncMatchHunt 0 { sync0 with errs := 65 }, .psyncMatchHunt 0 { sync0 with sfc := 2 ^ 51 },
    .candidatePositionReached 0 4 sync0 frame0, .syncPositionReached 2 sync0 frame0,
    .syncPositionReached 0 sync0 { frame0 with ponId := 2 ^ 51 },
    .syncPositionReached 0 sync0 { frame0 with ploam := zeros 47 }, .syncPositionReached 0 sync0 { frame0 with bwmap := zeros 7 },
    .bwmapStructure 2 alloc0, .bwmapStructure 0 { alloc0 with alloc := 16384 }, .bwmapStructure 0 { alloc0 with grant := 65536 },
    .bwmapStructure 0 { alloc0 with profile := 4 }, .ploamMessageRx 2 msg0, .ploamMessageRx 0 { msg0 with bytes := zeros 47 },
    .xgemFrameDelineated 2 xgem0, .xgemFrameDelineated 0 { xgem0 with kind := 3 }, .xgemFrameDelineated 0 { xgem0 with keyIdx := 4 },
    .xgemFrameDelineated 0 { xgem0 with portId := 65536 }, .xgemFrameDelineated 0 { xgem0 with header := zeros 7 },
    .xgemFrameDelineated 0 { xgem0 with pad := zeros 4 }, .reasmTimeout 2 0, .reasmTimeout 0 65536] : List Instr).all
    (fun i => !WellFormed i) = true := by
  decide +kernel

theorem test_ill_formed_ports : ([
    .losDeclare 2, .losClear 2, .lolDeclare ⟨2, false⟩, .lolClear ⟨2, false⟩, .lofDeclare ⟨2, false⟩, .lofClear ⟨2, false⟩, .lofecWindowEnd ⟨2, false⟩, .sdWindowEnd ⟨2, false⟩,
    .tapBurst 2 tap0, .tapBurst 0 { tap0 with onuId := 1024 }, .tapBurst 0 { tap0 with head := zeros 1025 },
    .tapBurst 0 { tap0 with frames := [{ xgem0 with kind := 3 }] }, .termViewPloam 2048, .termViewLods 2048 true,
    .termViewKeyIndex 2048 1, .termViewKeyIndex 0 0, .to1Expiry 2048, .to2Expiry 2048, .evTermsBulk 2, .ploamDelayExpiry 2048,
    .burstStart 2, .amapCopyDone 2, .rillMessage 2 true, .rillKeepalive { plane := 2, crcOk := true }, .rillTimeout 2, .rillRetrain 2 true, .rillUp 2,
    .fullCopyDone 2, .engineWatchdog 2, .mirrorCheckFail 0 5, .mirrorCheckFail 2 3, .swapPeriodExpiry 2, .roleSwap 2,
    .swapAbandon 2, .holdOffExpiry 2, .protWtrExpiry 2] : List Instr).all (fun i => !WellFormed i) = true := by
  decide +kernel

theorem test_ill_formed_store : ([
    .foldWindowExpiry 4, .epochSecond 4, .gapWrite 4, .weirNoReturn 8, .exportRecordSend 8, .ringHoldExpiry 8,
    .bundleIssue 64 { ls0 := .none, ls1 := .none, m := .none, a := .none }, .blockNext 64, .outFlush 64, .doneService 64,
    .cycles 64, .jobTimeLimit 64, .coreNoIssue 64, .scrubBlock 4, .innerCountRead 4 0, .innerCountRead 0 (2 ^ 48),
    .stackLinkLost 4, .dmaChannelReset 2 0, .dmaChannelReset 0 80, .xferBuffer 4, .bundleTagCheck 4, .zeroFillDone 4,
    .xferStall 4, .drbgReseed 3] : List Instr).all (fun i => !WellFormed i) = true := by
  decide +kernel

theorem test_ill_formed_net : ([
    .hostLinkDown 4 { blockLock := true, localFault := false, remoteFault := false }, .anRestart 4, .hostFrameTx 4,
    .pauseExpiry 4 0, .pauseExpiry 0 8, .pauseWdExpiry 0 8, .pauseWdHoldEnd 0 8, .lpiIdleExpiry ⟨4, .idle⟩,
    .chassisFrameRx (zeros 1515) true, .gateAck 0, .gateTimeout 12, .sluiceWindow (2 ^ 32), .thermalReading [],
    .thermalReading [0, 0, 0, 0, 0, 0, 0, 32768], .prbsCheckerLock 0x90 0 0 []] :
    List Instr).all (fun i => !WellFormed i) = true := by
  decide +kernel

theorem test_well_formed : ([.nop, .doorbellWrite 15 0xF, .requestSlotWrite 15 0x3F8 (zeros 8), .gateAck 11,
    .cdrLockChange 0x8F true, .bar2Read 4092 4] : List Instr).all WellFormed = true := by
  decide +kernel

/-! ### Small checks whose results the spec gives -/

/-- No row of the table has bits. -/
theorem test_no_word_spells_a_command : decodeTableWord 32 0xFFFFFFFF = none := rfl

/-- R21, R22: terminal B:0713 has terminal ID 0x82C9, flat index 1,737, queues from 6,948, contexts from 27,792 and
line key slots from 3,474. -/
theorem test_terminal_numbers : flatOf 0x82C9 = 1737 ∧ termId 1737 = 0x82C9 ∧ 4 * flatOf 0x82C9 = 6948 ∧
    16 * flatOf 0x82C9 = 27792 ∧ 2 * flatOf 0x82C9 = 3474 := by
  decide

/-- R40: the part number, and the state BOOT with FW_VERSION 0, at reset. -/
theorem test_reset_registers : (regRead State.reset 0x0).toNat % 65536 = 0x4810 ∧ regRead State.reset 0x10 = 0 ∧
    regRead State.reset 0x14 = 0 ∧ regRead State.reset 0x1C = 0 := by
  decide +kernel

/-- R40: other values than 0xB007_5EED are ignored. -/
theorem test_soft_reset_ignored :
    exec (.softResetWrite 0xB0075EEC noEnv) up = .next up := by
  rfl

/-- The three bursts of the map of chapter 8: 520, 312 and 1,032 bytes carry 12, 8 and 20 words of parity on plane A. -/
theorem test_parity_words : parityBytes 0 true 520 = 48 ∧ parityBytes 0 true 312 = 32 ∧ parityBytes 0 true 1032 = 80 := by
  decide +kernel

/-- R47: a NOP is answered with ST_OK, and its slot becomes DONE. -/
theorem test_nop_answered : exec .nop (ask 0x0000 [] up) =
    .next (answered (req 0x0000 []) stOk [] (takeUp (req 0x0000 []) (ask 0x0000 [] up))) ∧
    (chan (answered (req 0x0000 []) stOk [] (takeUp (req 0x0000 []) (ask 0x0000 [] up))) 0).slots.head? = some .done := by
  exact ⟨rfl, by decide +kernel⟩

/-- R137: a majority of four samples, sample 2 where they are split, sample 1 of a pair that differs. -/
theorem test_burst_samples :
    decide4 [true, true, false, false, false, true, true, true, false, true, true, false] = [false, true, true] ∧
    decide2 [true, false, true, true] = [false, true] := by
  decide

/-- R86: the digest is SHA-384. The message abc is the example of FIPS 180-4. -/
theorem test_sha384 : sha384 [0x61, 0x62, 0x63] =
    0xCB00753F45A35E8BB5A03D699AC65007272C32AB0EDED1631A8B605A43FF5BED8086072BA1E7CC2358BAECA134C825A7 := by
  decide +kernel

/-- R132: after device time wraps at 2^64 ns, PPS_OUT rises again at time 0. -/
theorem test_pps_after_wrap :
    (tick { up with time := { up.time with
      ns := 0xFFFFFFFFFFFFFFFF
      frac := 0xFFFFFF
      ppsDone := 18446744073 } }).time.ppsDone < 0 := by
  decide +kernel

/-- R86: the measurements at reset are the digests of the factory image's four stages, one byte 0xFF each. -/
theorem test_factory_digests : (List.range 4).map (fun k => tget 0 State.reset.boot.meas k) = List.replicate 4 (sha384 [0xFF]) := by
  decide +kernel

/-! ### Witnesses of the statements' hypotheses, one conjunct for each clause that has any -/

theorem witness_DeviceCommandsComplete_1 :
    (∃ (s : State) (r : Req), Accepts nopSpec s r) ∧
    (∃ (s : State) (r : Req), Accepts deviceInfoSpec s r) ∧
    (∃ (s : State) (r : Req), Accepts deviceStartSpec s r) ∧
    (∃ (s : State) (r : Req), Accepts deviceStopSpec s r) :=
  ⟨⟨ask 0x0000 [] up, req 0x0000 [], by decide +kernel⟩,
    ⟨ask 0x0001 [] up, req 0x0001 [], by decide +kernel⟩,
    ⟨ask 0x0002 [] (inState .ready), req 0x0002 [], by decide +kernel⟩,
    ⟨ask 0x0003 [] up, req 0x0003 [], by decide +kernel⟩⟩

theorem witness_DeviceCommandsComplete_2 :
    ∃ (s : State) (r : Req), Accepts deviceResetSpec s r :=
    ⟨ask 0x0004 [] up, req 0x0004 [], by decide +kernel⟩

theorem witness_FirmwareCommandsComplete_1 :
    (∃ (s : State) (r : Req), Accepts fwUpdateBeginSpec s r ∧ imageState s s.boot.image ≠ 0x7F ∧ s.log.clearing =
      false) ∧
    (∃ (s : State), s.boot.update.phase = 1 ∧ cpRuns s = true ∧ s.ctl.devState ≠ .fault) ∧
    (∃ (s : State) (r : Req), Accepts fwUpdateWriteSpec s r ∧ s.boot.update.phase = 2 ∧ u32 r.payload 0 =
      s.boot.update.next ∧ u32 r.payload 0 + u16 r.payload 4 ≤ s.boot.update.imageBytes ∧ blankFields (u32 r.payload
      0) (slice r.payload 8 (u16 r.payload 4)) = true) ∧
    (∃ (s : State) (r : Req), Accepts fwUpdateEndSpec s r ∧ s.boot.update.phase = 2 ∧ u8 r.payload 0 = 0) :=
  ⟨⟨ask 0x0101 (le 4 4096 ++ zeros 4) (inState .ready), req 0x0101 (le 4 4096 ++ zeros 4), by decide +kernel⟩,
    ⟨{ inState .update with boot := { (inState .update).boot with update := { phase := 1 } } }, by decide +kernel⟩,
    ⟨ask 0x0102 (le 4 0 ++ le 2 12 ++ zeros 2 ++ zeros 12)
      ({ inState .update with boot := { (inState .update).boot with update := { phase := 2, imageBytes := 4096 } } }),
      req 0x0102 (le 4 0 ++ le 2 12 ++ zeros 2 ++ zeros 12), by decide +kernel⟩,
    ⟨ask 0x0103 (zeros 4)
      ({ inState .update with boot := { (inState .update).boot with update := { phase := 2, imageBytes := 4096 } } }),
      req 0x0103 (zeros 4), by decide +kernel⟩⟩

theorem witness_FirmwareCommandsComplete_2 :
    (∃ (s : State) (r : Req), Accepts fwUpdateEndSpec s r ∧ s.boot.update.phase = 2 ∧ u8 r.payload 0 = 1 ∧
      s.boot.update.next = s.boot.update.imageBytes ∧ headerGood (imageHeader s (otherImage s)) = true ∧ stagesGood
      s (otherImage s) = true) ∧
    (∃ (s : State) (r : Req), Accepts fwTrialDecideSpec s r ∧ imageState s s.boot.image = 0x7F) ∧
    (∃ (s : State) (r : Req), Accepts fwStatusSpec s r) ∧
    (∃ (s : State) (r : Req), Accepts hwinitSpec s r) :=
  ⟨⟨ask 0x0103 [1, 0, 0, 0]
      ({ inState .update with boot := { (inState .update).boot with image := 1, update := { phase := 2, imageBytes := 4096, next := 4096 } } }),
      req 0x0103 [1, 0, 0, 0], by decide +kernel⟩,
    ⟨ask 0x0104 (zeros 4)
      ({ up with boot := { up.boot with flash := Memory.write 0xFF up.boot.flash 0x100010 0x7F } }), req 0x0104
      (zeros 4), by decide +kernel⟩,
    ⟨ask 0x0105 [] up, req 0x0105 [], by decide +kernel⟩,
    ⟨ask 0x0106 [1, 0, 0, 0] (inState .ready), req 0x0106 [1, 0, 0, 0], by decide +kernel⟩⟩

theorem witness_AttestationCompletes :
    (∃ (s : State) (r : Req), Accepts attestSpec s r ∧ u8 r.payload 0 = 0) ∧
    (∃ (s : State) (r : Req) (id : BitVec 32), Accepts attestSpec s r ∧ u8 r.payload 0 = 1 ∧ (chan s r.ch).reportId
      = some id ∧ u32 r.payload 4 = id.toNat) ∧
    (∃ (s : State) (r : Req), Accepts attestCertSpec s r ∧ u32 r.payload 0 < s.ident.certChain.length) :=
  ⟨⟨ask 0x0110 (zeros 40) up, req 0x0110 (zeros 40), by decide +kernel⟩,
    ⟨modChan 0 (fun c => { c with reportId := some 5 }) (ask 0x0110 ([1, 0, 0, 0] ++ le 4 5 ++ zeros 32) up), req
      0x0110 ([1, 0, 0, 0] ++ le 4 5 ++ zeros 32), 5, by decide +kernel⟩,
    ⟨ask 0x0111 (zeros 4) up, req 0x0111 (zeros 4), by decide +kernel⟩⟩

theorem witness_UnassignedOpcodeAnswered :
    ∃ (s : State) (r : Req), Accepts (unassignedSpec r.opcode) s r ∧ assigned r.opcode = false :=
    ⟨ask 0x0FFF [] up, req 0x0FFF [], by decide +kernel⟩

theorem witness_MailboxAccessesComplete_1 :
    (∃ (s : State) (ch : ℕ) (off : ℕ) (data : Bytes), aonRuns s = true ∧ s.ctl.devState ≠ .still ∧ ch < 16 ∧ off <
      0x400 ∧ slotAccess off data = true ∧ (chan s ch).slots.getD (off / 0x100) .free = .free) ∧
    (∃ (s : State) (ch : ℕ) (off : ℕ) (data : Bytes), aonRuns s = true ∧ s.ctl.devState ≠ .still ∧ ch < 16 ∧ off <
      0x400 ∧ slotAccess off data = true ∧ (chan s ch).slots.getD (off / 0x100) .free ≠ .free) ∧
    (∃ (s : State) (ch : ℕ) (v : BitVec 32), aonRuns s = true ∧ s.ctl.devState ≠ .still ∧ s.ctl.devState ≠ .hush ∧
      ch < 16) ∧
    (∃ (s : State) (ch : ℕ) (v : BitVec 32), aonRuns s = true ∧ s.ctl.devState = .hush ∧ bit s.pwr.wakeMask 0 = true
      ∧ s.pwr.entry = none ∧ ch < 16) :=
  ⟨⟨up, 15, 0x3F8, zeros 8, by decide +kernel⟩,
    ⟨modChan 3 (fun c => { c with slots := [.free, .done, .free, .free] }) up, 3, 0x1FC, zeros 4, by decide +kernel⟩,
    ⟨up, 0, 0xF, by decide +kernel⟩,
    ⟨{ inState .hush with pwr := { (inState .hush).pwr with wakeMask := 1 } }, 15, 1, by decide +kernel⟩⟩

theorem witness_MailboxAccessesComplete_2 :
    (∃ (s : State) (ch : ℕ) (v : BitVec 32), aonRuns s = true ∧ s.ctl.devState = .hush ∧ (bit s.pwr.wakeMask 0 =
      false ∨ s.pwr.entry ≠ none) ∧ ch < 16) ∧
    (∃ (s : State) (ch : ℕ) (v : BitVec 32), aonRuns s = true ∧ s.ctl.devState = .still ∧ s.pwr.latched = none ∧ ch
      < 16) ∧
    (∃ (s : State) (ch : ℕ) (v : BitVec 32), aonRuns s = true ∧ s.ctl.devState = .still ∧ s.pwr.latched ≠ none ∧ ch
      < 16) ∧
    (∃ (s : State) (ch : ℕ) (v : BitVec 32), aonRuns s = true ∧ s.ctl.devState ≠ .still ∧ ch < 16) :=
  ⟨⟨inState .hush, 15, 1, by decide +kernel⟩,
    ⟨inState .still, 0, 1, by decide +kernel⟩,
    ⟨{ inState .still with pwr := { (inState .still).pwr with latched := some (1, 0) } }, 15, 1, by decide +kernel⟩,
    ⟨up, 15, 1, by decide +kernel⟩⟩

theorem witness_MailboxAccessesComplete_3 :
    ∃ (s : State) (ch : ℕ), aonRuns s = true ∧ s.ctl.devState ≠ .still ∧ ch < 16 :=
    ⟨up, 0, by decide +kernel⟩

theorem witness_SmbusTransactionsComplete_1 :
    (∃ (s : State) (data : Bytes), aonRuns s = true ∧ cpRuns s = true ∧ s.mbx.smbState = .idle ∧ 16 ≤ data.length ∧
      data.length ≤ 255) ∧
    (∃ (s : State) (data : Bytes) (pec : Bool), aonRuns s = true ∧ (pec = false ∨ cpRuns s = false ∨ s.mbx.smbState
      ≠ .idle)) ∧
    (∃ (s : State), aonRuns s = true) ∧
    (∃ (s : State), aonRuns s = true ∧ cpRuns s = true ∧ s.mbx.smbState = .ready) :=
  ⟨⟨up, zeros 255, by decide +kernel⟩,
    ⟨up, zeros 16, false, by decide +kernel⟩,
    ⟨up, by decide +kernel⟩,
    ⟨{ up with mbx := { up.mbx with smbState := .ready } }, by decide +kernel⟩⟩

theorem witness_SmbusTransactionsComplete_2 :
    ∃ (s : State), aonRuns s = true :=
    ⟨up, by decide +kernel⟩

theorem witness_RegisterAccessesComplete_1 :
    (∃ (s : State) (off : ℕ) (data : Bytes), aonRuns s = true ∧ offDomain 0 off s = false ∧ data.length = 4 ∧ off %
      4 = 0) ∧
    (∃ (s : State) (n : ℕ) (dir : Bool), aonRuns s = true ∧ s.ctl.devState ≠ .still ∧ 0 < n ∧ n < 32 ∧ (ring s n).en
      = false) ∧
    (∃ (s : State) (dir : Bool), aonRuns s = true ∧ s.ctl.devState ≠ .still ∧ (ring s 0).en = false) ∧
    (∃ (s : State) (n : ℕ), aonRuns s = true ∧ s.ctl.devState ≠ .still ∧ n < 32) :=
  ⟨⟨up, 0x18, zeros 4, by decide +kernel⟩,
    ⟨up, 31, true, by decide +kernel⟩,
    ⟨up, false, by decide +kernel⟩,
    ⟨up, 31, by decide +kernel⟩⟩

theorem witness_RegisterAccessesComplete_2 :
    (∃ (s : State) (n : ℕ) (v : BitVec 32), aonRuns s = true ∧ s.ctl.devState ≠ .still ∧ 0 < n ∧ n < 32) ∧
    (∃ (s : State) (v : BitVec 32), aonRuns s = true ∧ s.ctl.devState ≠ .still) ∧
    (∃ (s : State), aonRuns s = true ∧ offDomain 0 0x200000 s = false) ∧
    (∃ (s : State), aonRuns s = true ∧ offDomain 0 0x200000 s = false) :=
  ⟨⟨up, 31, 65535, by decide +kernel⟩,
    ⟨up, 1, by decide +kernel⟩,
    ⟨up, by decide +kernel⟩,
    ⟨up, by decide +kernel⟩⟩

theorem witness_RegisterAccessesComplete_3 :
    (∃ (s : State), aonRuns s = true ∧ offDomain 0 0x200000 s = false) ∧
    (∃ (s : State) (v : BitVec 32), aonRuns s = true ∧ offDomain 0 0x200000 s = false) ∧
    (∃ (s : State) (v : BitVec 32), aonRuns s = true ∧ offDomain 0 0x200000 s = false) ∧
    (∃ (s : State) (v : BitVec 32), aonRuns s = true ∧ s.ctl.devState ≠ .still) :=
  ⟨⟨up, by decide +kernel⟩,
    ⟨up, 0x01999999, by decide +kernel⟩,
    ⟨up, 127, by decide +kernel⟩,
    ⟨up, 32767, by decide +kernel⟩⟩

theorem witness_InjectionWindowCompletes_1 :
    (∃ (s : State) (v : BitVec 32), aonRuns s = true ∧ s.ctl.devState ≠ .still ∧ v.getLsbD 31 = true ∧ v.getLsbD 30
      = false ∧ armRefusal (v.toNat % 65536) s = none ∧ v.toNat % 65536 ≠ 0x05 ∧ v.toNat % 65536 ≠ 0x10) ∧
    (∃ (s : State) (v : BitVec 32), aonRuns s = true ∧ s.ctl.devState ≠ .still ∧ v.getLsbD 31 = true ∧ v.getLsbD 30
      = false ∧ armRefusal (v.toNat % 65536) s = none ∧ v.toNat % 65536 = 0x05) ∧
    (∃ (s : State) (v : BitVec 32), aonRuns s = true ∧ s.ctl.devState ≠ .still ∧ v.getLsbD 31 = true ∧ v.getLsbD 30
      = false ∧ armRefusal (v.toNat % 65536) s = none ∧ v.toNat % 65536 = 0x10) ∧
    (∃ (s : State) (v : BitVec 32), aonRuns s = true ∧ s.ctl.devState ≠ .still ∧ v.getLsbD 31 = v.getLsbD 30) :=
  ⟨⟨{ up with inj := { up.inj with enable := true, target := 0 } }, 0x80000008, by decide +kernel⟩,
    ⟨{ up with inj := { up.inj with enable := true, target := 0, param := 1000000 } }, 0x80000005,
      by decide +kernel⟩,
    ⟨{ modHPort 3 (fun y => { y with pauseMode := 1 }) up with inj := { up.inj with enable := true, target := 3, param := 0xFF } },
      0x80000010, by decide +kernel⟩,
    ⟨up, 0xC0000008, by decide +kernel⟩⟩

theorem witness_InjectionWindowCompletes_2 :
    (∃ (s : State) (v : BitVec 32) (c : ℕ), aonRuns s = true ∧ s.ctl.devState ≠ .still ∧ v.getLsbD 31 = true ∧
      v.getLsbD 30 = false ∧ armRefusal (v.toNat % 65536) s = some c) ∧
    (∃ (s : State) (v : BitVec 32) (i : ℕ), aonRuns s = true ∧ s.ctl.devState ≠ .still ∧ v.getLsbD 31 = false ∧
      v.getLsbD 30 = true ∧ injIndex (v.toNat % 65536) s.inj.target.toNat s = some i) ∧
    (∃ (s : State) (v : BitVec 32), aonRuns s = true ∧ s.ctl.devState ≠ .still ∧ v.getLsbD 31 = false ∧ v.getLsbD 30
      = true ∧ injIndex (v.toNat % 65536) s.inj.target.toNat s = none) ∧
    (∃ (s : State), aonRuns s = true ∧ s.ctl.devState ≠ .still) :=
  ⟨⟨up, 0x80000008, 5, by decide +kernel⟩,
    ⟨{ up with inj := { up.inj with entries := [(0, { det := 0x08 })] } }, 0x40000008, 0, by decide +kernel⟩,
    ⟨up, 0x40000008, by decide +kernel⟩,
    ⟨up, by decide +kernel⟩⟩

theorem witness_WindowAccessesComplete_1 :
    (∃ (s : State) (off : ℕ) (n : ℕ), aonRuns s = true ∧ offDomain 2 off s = false) ∧
    (∃ (s : State) (off : ℕ) (data : Bytes), aonRuns s = true ∧ offDomain 2 off s = false) ∧
    (∃ (s : State) (bar : ℕ) (off : ℕ) (data : Bytes) (n : ℕ), aonRuns s = true ∧ offDomain bar off s = true) ∧
    (∃ (s : State) (bar : ℕ) (off : ℕ) (n : ℕ), aonRuns s = true ∧ offDomain bar off s = true) :=
  ⟨⟨up, 0, 4, by decide +kernel⟩,
    ⟨up, 0, zeros 8, by decide +kernel⟩,
    ⟨inState .still, 2, 0, zeros 4, 4, by decide +kernel⟩,
    ⟨inState .still, 0, 0x10000, 4, by decide +kernel⟩⟩

theorem witness_WindowAccessesComplete_2 :
    (∃ (s : State) (off : ℕ) (n : ℕ), aonRuns s = true ∧ offDomain 0 off s = false) ∧
    (∃ (s : State) (off : ℕ) (n : ℕ), aonRuns s = true ∧ offDomain 0 off s = false ∧ n ≠ 4 ∧ n ≠ 8) :=
  ⟨⟨up, 0x200008, 4, by decide +kernel⟩,
    ⟨inState .still, 0x20000, 2, by decide +kernel⟩⟩

theorem witness_ResetsAndBootComplete_1 :
    (∃ (s : State) (env : BootEnv), aonRuns s = true) ∧
    (∃ (s : State) (env : BootEnv), aonRuns s = true) ∧
    (∃ (s : State) (v : BitVec 32) (env : BootEnv), v ≠ 0xB0075EED) ∧
    (∃ (s : State) (env : BootEnv), aonRuns s = true ∧ s.ctl.resetPending = true) :=
  ⟨⟨up, { pllLocks := true, flashAnswers := true, failedStacks := [] }, by decide +kernel⟩,
    ⟨up, { pllLocks := true, flashAnswers := true, failedStacks := [] }, by decide +kernel⟩,
    ⟨up, 0, { pllLocks := true, flashAnswers := true, failedStacks := [] }, by decide +kernel⟩,
    ⟨{ up with ctl := { up.ctl with resetPending := true } },
      { pllLocks := true, flashAnswers := true, failedStacks := [] }, by decide +kernel⟩⟩

theorem witness_ResetsAndBootComplete_2 :
    (∃ (s : State), aonRuns s = true) ∧
    (∃ (s : State), s.ctl.devState = .boot ∧ s.boot.pllLocked = false ∧ aonRuns s = true) ∧
    (∃ (s : State), s.ctl.devState = .boot ∧ s.boot.pllLocked = true ∧ s.boot.bootOk = true ∧ aonRuns s = true ∧
      s.boot.trialBoot = false ∧ s.pwr.offAddr = none) ∧
    (∃ (s : State), cpRuns s = true) :=
  ⟨⟨up, by decide +kernel⟩,
    ⟨{ State.reset with boot := { State.reset.boot with pllLocked := false } }, by decide +kernel⟩,
    ⟨State.reset, by decide +kernel⟩,
    ⟨up, by decide +kernel⟩⟩

theorem witness_ResetsAndBootComplete_3 :
    (∃ (s : State), (s.ctl.cpAlive = true ∨ s.ctl.devState ≠ .fault) ∧ aonRuns s = true ∧ injIndex 0x1A 0 s = none) ∧
    (∃ (s : State) (d : Bytes), cpRuns s = true ∧ s.ctl.devState ≠ .fault) :=
  ⟨⟨up, by decide +kernel⟩,
    ⟨up, [], by decide +kernel⟩⟩

theorem witness_RecorderCommandsComplete_1 :
    (∃ (s : State) (r : LogRec) (rest : List LogRec), s.log.buf = r :: rest ∧ aonRuns s = true ∧ s.log.clearing =
      false) ∧
    (∃ (s : State) (r : LogRec) (rest : List LogRec), s.log.buf = r :: rest ∧ aonRuns s = true ∧ s.log.clearing =
      true ∧ s.log.powerFail = true) ∧
    (∃ (s : State), aonRuns s = true ∧ clockStands s = false) ∧
    (∃ (s : State), aonRuns s = true ∧ s.ctl.devState = .still) :=
  ⟨⟨{ up with log := { up.log with buf := [{}] } }, {}, [], by decide +kernel⟩,
    ⟨{ up with log := { up.log with clearing := true, powerFail := true, buf := [{}] } }, {}, [], by decide +kernel⟩,
    ⟨up, by decide +kernel⟩,
    ⟨inState .still, by decide +kernel⟩⟩

theorem witness_RecorderCommandsComplete_2 :
    (∃ (s : State), aonRuns s = true ∧ s.log.powerFail = false ∧ s.log.nextSlot < 32768 ∧ (s.log.full = false ∨
      s.log.clearing = true)) ∧
    (∃ (s : State), aonRuns s = true) ∧
    (∃ (s : State) (r : Req), Accepts logClearSpec s r ∧ s.log.clearing = false) ∧
    (∃ (s : State), aonRuns s = true ∧ s.log.clearing = true ∧ s.log.powerFail = false) :=
  ⟨⟨up, by decide +kernel⟩,
    ⟨up, by decide +kernel⟩,
    ⟨ask 0x0F02 [] up, req 0x0F02 [], by decide +kernel⟩,
    ⟨{ up with log := { up.log with clearing := true } }, by decide +kernel⟩⟩

theorem witness_RecorderCommandsComplete_3 :
    (∃ (s : State) (r : Req), Accepts logReadSpec s r) ∧
    (∃ (s : State), aonRuns s = true ∧ s.log.viewBusy = true) :=
  ⟨⟨ask 0x0F01 [0xFF, 0x7F, 3, 0] up, req 0x0F01 [0xFF, 0x7F, 3, 0], by decide +kernel⟩,
    ⟨{ up with log := { up.log with viewBusy := true } }, by decide +kernel⟩⟩

theorem witness_ClockCommandsComplete_1 :
    (∃ (s : State) (r : Req), Accepts clockSetSpec s r) ∧
    (∃ (s : State) (r : Req), Accepts corePointSpec s r ∧ (s.ctl.devState = .hush ∨ (s.clk.step = none ∧ (u8
      r.payload 0 = s.clk.point ∨ (s.pwr.hot = true ∧ s.clk.point = 0))))) ∧
    (∃ (s : State) (r : Req), Accepts corePointSpec s r ∧ s.ctl.devState ≠ .hush ∧ s.clk.step = none ∧ u8 r.payload
      0 ≠ s.clk.point ∧ ¬(s.pwr.hot = true ∧ s.clk.point = 0)) ∧
    (∃ (s : State) (r : Req), Accepts clockStatusSpec s r) :=
  ⟨⟨ask 0x0207 [0, 1, 0, 0] (inState .ready), req 0x0207 [0, 1, 0, 0], by decide +kernel⟩,
    ⟨ask 0x0206 [2, 0, 0, 0] up, req 0x0206 [2, 0, 0, 0], by decide +kernel⟩,
    ⟨ask 0x0206 [3, 0, 0, 0] up, req 0x0206 [3, 0, 0, 0], by decide +kernel⟩,
    ⟨ask 0x0201 [] up, req 0x0201 [], by decide +kernel⟩⟩

theorem witness_ClockCommandsComplete_2 :
    (∃ (s : State), s.clk.step.isSome = true ∧ s.clk.avsPending = true ∧ s.clk.avsWithheld = false) ∧
    (∃ (s : State), s.clk.step.isSome = true ∧ s.clk.avsPending = true ∧ s.clk.avsWithheld = false) ∧
    (∃ (s : State), s.clk.step.isSome = true ∧ s.clk.avsPending = true) ∧
    (∃ (s : State) (d : Bool), s.clk.step.isSome = true ∧ s.clk.avsPending = true) :=
  ⟨⟨{ up with clk := { up.clk with step := some { target := 3, old := 2, up := true }, avsPending := true } },
      by decide +kernel⟩,
    ⟨{ up with clk := { up.clk with step := some { target := 3, old := 2, up := true }, avsPending := true } },
      by decide +kernel⟩,
    ⟨{ up with clk := { up.clk with step := some { target := 3, old := 2, up := true }, avsPending := true } },
      by decide +kernel⟩,
    ⟨{ up with clk := { up.clk with step := some { target := 3, old := 2, up := true }, avsPending := true } },
      true, by decide +kernel⟩⟩

theorem witness_ClockCommandsComplete_3 :
    (∃ (s : State) (g : Bool) (d : Bool), s.clk.step.isSome = true ∧ s.clk.avsPending = true) ∧
    (∃ (s : State), s.clk.step.isSome = true) ∧
    (∃ (s : State) (mv : ℕ) (idd : ℕ), aonRuns s = true ∧ s.ctl.devState ≠ .still) ∧
    (∃ (s : State) (mv : ℕ) (idd : ℕ), aonRuns s = true ∧ s.ctl.devState ≠ .still) :=
  ⟨⟨{ up with clk := { up.clk with step := some { target := 3, old := 2, up := true }, avsPending := true } },
      true, false, by decide +kernel⟩,
    ⟨{ up with clk := { up.clk with step := some { target := 3, old := 2, up := true }, avsPending := true } },
      by decide +kernel⟩,
    ⟨up, 850, 7, by decide +kernel⟩,
    ⟨up, 850, 7, by decide +kernel⟩⟩

theorem witness_ClockCommandsComplete_4 :
    (∃ (s : State) (good : Bool) (v : AvsReading), aonRuns s = false) ∧
    (∃ (s : State) (mux : ℕ), mux < 7 ∧ timeRuns s = true) :=
  ⟨⟨heldReset true up, true, { mv := 850, idd := 7 }, by decide +kernel⟩,
    ⟨up, 6, by decide +kernel⟩⟩

theorem witness_FrequencySourceCompletes_1 :
    (∃ (s : State) (r : Req), Accepts freqSourceSpec s r) ∧
    (∃ (s : State) (p : ℕ), p ≤ 1 ∧ (tget ({} : Plane) s.fr.planes p).state = 2 ∧ timeRuns s = true ∧ qualified s p
      = false ∧ (tget ({} : DefPort) s.fr.defects (16 * p + (tget ({} : Plane) s.fr.planes
      p).prot.activePort)).declared % 8 = 0) ∧
    (∃ (s : State), s.src.state = 1 ∧ s.src.source = 1 ∧ s.src.mode = 0 ∧ s.src.revertive = true ∧ s.src.qualB =
      true ∧ timeRuns s = true) ∧
    (∃ (s : State), s.src.bridging = true ∧ timeRuns s = true ∧ qualified s (s.src.source - 1) = true) :=
  ⟨⟨ask 0x0202 [3, 1, 0, 0] up, req 0x0202 [3, 1, 0, 0], by decide +kernel⟩,
    ⟨modPlane 1 (fun x => { x with state := 2 }) up, 1, by decide +kernel⟩,
    ⟨{ up with src := { up.src with state := 1, source := 1, qualB := true } }, by decide +kernel⟩,
    ⟨{ up with src := { up.src with state := 1, source := 1, bridging := true, qualA := true } }, by decide +kernel⟩⟩

theorem witness_FrequencySourceCompletes_2 :
    (∃ (s : State), s.src.bridging = true ∧ timeRuns s = true ∧ qualified s (s.src.source - 1) = false) ∧
    (∃ (s : State) (refIn : Bool) (ppb : ℤ), s.src.trimRef = 0) :=
  ⟨⟨{ up with src := { up.src with state := 1, source := 1, bridging := true } }, by decide +kernel⟩,
    ⟨up, true, 5, by decide +kernel⟩⟩

theorem witness_DeviceTimeCompletes_1 :
    (∃ (s : State) (r : Req), Accepts timeAdjustSpec s r ∧ (signed 64 (u64 r.payload 0)).natAbs ≤ s.time.stepMax) ∧
    (∃ (s : State) (r : Req), Accepts timeForceSpec s r ∧ u8 r.payload 0 = 0) ∧
    (∃ (s : State) (r : Req), Accepts timeForceSpec s r ∧ u8 r.payload 0 = 1) ∧
    (∃ (s : State) (r : Req), Accepts timeConfigSpec s r) :=
  ⟨⟨ask 0x0203 (le 8 1000) up, req 0x0203 (le 8 1000), by decide +kernel⟩,
    ⟨ask 0x0204 (zeros 16) up, req 0x0204 (zeros 16), by decide +kernel⟩,
    ⟨ask 0x0204 ([1] ++ zeros 7 ++ le 8 5) up, req 0x0204 ([1] ++ zeros 7 ++ le 8 5), by decide +kernel⟩,
    ⟨ask 0x0205 (le 4 1 ++ le 4 500000 ++ zeros 8) up, req 0x0205 (le 4 1 ++ le 4 500000 ++ zeros 8),
      by decide +kernel⟩⟩

theorem witness_DeviceTimeCompletes_2 :
    (∃ (s : State), timeRuns s = true ∧ s.time.ppsDone < ppsSecond s.time.ppsOffset s.time.ns) ∧
    (∃ (s : State), ppsSecond s.time.ppsOffset s.time.ns ≤ s.time.ppsDone) ∧
    (∃ (s : State), timeRuns s = true ∧ s.time.ppsEvent = false ∧ s.ctl.devState ≠ .hush) ∧
    (∃ (s : State), timeRuns s = true ∧ s.time.ppsEvent = true) :=
  ⟨⟨{ up with time := { up.time with ns := 1000000000, ppsDone := 0 } }, by decide +kernel⟩,
    ⟨up, by decide +kernel⟩,
    ⟨up, by decide +kernel⟩,
    ⟨{ up with time := { up.time with ppsEvent := true } }, by decide +kernel⟩⟩

theorem witness_LaneCommandsComplete_1 :
    (∃ (s : State) (r : Req), Accepts txEqSpec s r ∧ isHostLane (u8 r.payload 0) = false) ∧
    (∃ (s : State) (r : Req), Accepts txEqSpec s r ∧ isHostLane (u8 r.payload 0) = true ∧ (hport s ((u8 r.payload 0
      - 0x80) / 4)).lt = false) ∧
    (∃ (s : State) (r : Req), Accepts rxEqSpec s r ∧ u8 r.payload 1 = 2) ∧
    (∃ (s : State) (r : Req), Accepts rxEqSpec s r ∧ u8 r.payload 1 = 0) :=
  ⟨⟨ask 0x0301 [0x40, 16, 16, 15, 1, 0, 0, 0] up, req 0x0301 [0x40, 16, 16, 15, 1, 0, 0, 0], by decide +kernel⟩,
    ⟨modHPort 0 (fun x => { x with lt := false }) (ask 0x0301 [0x80, 16, 16, 15, 1, 0, 0, 0] up), req 0x0301 [0x80,
      16, 16, 15, 1, 0, 0, 0], by decide +kernel⟩,
    ⟨ask 0x0302 [0x02, 2, 15, 0, 0, 0, 0, 0, 1, 0, 0, 0] up, req 0x0302 [0x02, 2, 15, 0, 0, 0, 0, 0, 1, 0, 0, 0],
      by decide +kernel⟩,
    ⟨ask 0x0302 [0x00, 0, 0, 0, 0, 0, 0, 0, 1, 0, 0, 0] up, req 0x0302 [0x00, 0, 0, 0, 0, 0, 0, 0, 1, 0, 0, 0],
      by decide +kernel⟩⟩

theorem witness_LaneCommandsComplete_2 :
    (∃ (s : State) (r : Req), Accepts rxEqSpec s r ∧ u8 r.payload 1 = 1 ∧ (lane s (u8 r.payload 0)).rxMode ≠ 0) ∧
    (∃ (s : State) (r : Req) (v : ℕ × List ℤ), Accepts rxEqSpec s r ∧ u8 r.payload 1 = 1 ∧ (lane s (u8 r.payload
      0)).rxMode = 0 ∧ (lane s (u8 r.payload 0)).frozen = some v) ∧
    (∃ (s : State) (r : Req), Accepts rxEqSpec s r ∧ u8 r.payload 1 = 1 ∧ (lane s (u8 r.payload 0)).rxMode = 0 ∧
      (lane s (u8 r.payload 0)).frozen = none) ∧
    (∃ (s : State) (r : Req), Accepts signalsSpec s r ∧ lineRx.contains (u8 r.payload 0) = true) :=
  ⟨⟨ask 0x0302 [0x00, 1, 0, 0, 0, 0, 0, 0, 1, 0, 0, 0] (modLane 0 (fun x => { x with rxMode := 2 }) up), req 0x0302
      [0x00, 1, 0, 0, 0, 0, 0, 0, 1, 0, 0, 0], by decide +kernel⟩,
    ⟨ask 0x0302 [0x8F, 1, 0, 0, 0, 0, 0, 0, 1, 0, 0, 0] (modLane 0x8F (fun x => { x with frozen := some (0, []) })
      up), req 0x0302 [0x8F, 1, 0, 0, 0, 0, 0, 0, 1, 0, 0, 0], (0, []), by decide +kernel⟩,
    ⟨ask 0x0302 [0x00, 1, 0, 0, 0, 0, 0, 0, 1, 0, 0, 0] up, req 0x0302 [0x00, 1, 0, 0, 0, 0, 0, 0, 1, 0, 0, 0],
      by decide +kernel⟩,
    ⟨ask 0x0303 [0x00, 1, 1, 0, 160, 0, 80, 0, 40, 0, 40, 0, 0, 0, 0, 0] up, req 0x0303 [0x00, 1, 1, 0, 160, 0, 80,
      0, 40, 0, 40, 0, 0, 0, 0, 0], by decide +kernel⟩⟩

theorem witness_LaneCommandsComplete_3 :
    (∃ (s : State) (r : Req), Accepts signalsSpec s r ∧ lineRx.contains (u8 r.payload 0) = false) ∧
    (∃ (s : State) (r : Req), Accepts laneLpiSpec s r) ∧
    (∃ (s : State) (r : Req), Accepts laneTestSpec s r ∧ u8 r.payload 1 = 0 ∧ ¬(s.ctl.devState = .run ∧ (lane s (u8
      r.payload 0)).state = 1) ∧ (u8 r.payload 6 = 0 ∨ (optics s (portOfLane (u8 r.payload 0))).laser = true)) ∧
    (∃ (s : State) (r : Req), Accepts laneTestSpec s r ∧ u8 r.payload 1 = 2 ∧ (lane s (u8 r.payload 0)).state = 2 ∧
      (u8 r.payload 6 = 0 ∨ (optics s (portOfLane (u8 r.payload 0))).laser = true)) :=
  ⟨⟨ask 0x0303 [0x12, 0, 1, 1, 0, 0, 0, 0, 0, 0, 0, 0, 160, 0, 40, 0] up, req 0x0303 [0x12, 0, 1, 1, 0, 0, 0, 0, 0,
      0, 0, 0, 160, 0, 40, 0], by decide +kernel⟩,
    ⟨ask 0x0304 [3, 2, 2, 0] up, req 0x0304 [3, 2, 2, 0], by decide +kernel⟩,
    ⟨ask 0x0305 ([0x00] ++ zeros 23) up, req 0x0305 ([0x00] ++ zeros 23), by decide +kernel⟩,
    ⟨ask 0x0305 ([0x40, 2] ++ zeros 22) (modLane 0x40 (fun x => { x with state := 2, gen := 1 }) up), req 0x0305
      ([0x40, 2] ++ zeros 22), by decide +kernel⟩⟩

theorem witness_LaneCommandsComplete_4 :
    (∃ (s : State) (r : Req), Accepts laneTestSpec s r ∧ u8 r.payload 1 = 1 ∧ (s.ctl.devState = .run → ∀ k ∈ u8
      r.payload 0 :: testLanes (u8 r.payload 4 == 1) (u8 r.payload 0), (lane s k).state ≠ 1) ∧ (u8 r.payload 6 = 0 ∨
      (optics s (portOfLane (u8 r.payload 0))).laser = true)) ∧
    (∃ (s : State) (r : Req), Accepts laneStatusSpec s r) :=
  ⟨⟨ask 0x0305 ([0x8F, 1, 7, 7, 2, 2, 0, 0] ++ le 4 1024 ++ zeros 12) up, req 0x0305 ([0x8F, 1, 7, 7, 2, 2, 0, 0]
      ++ le 4 1024 ++ zeros 12), by decide +kernel⟩,
    ⟨ask 0x0306 [0x8F, 0, 0, 0] up, req 0x0306 [0x8F, 0, 0, 0], by decide +kernel⟩⟩

theorem witness_OpticsCommandsComplete_1 :
    (∃ (s : State) (r : Req), Accepts opticsConfigSpec s r) ∧
    (∃ (s : State) (n : ℕ), layoutOf s n = 1) ∧
    (∃ (s : State) (n : ℕ), layoutOf s n = 2) ∧
    (∃ (s : State) (r : Req), Accepts opticsStatusSpec s r) :=
  ⟨⟨ask 0x0307 [0x11, 1, 1, 2, 0x10, 0x27, 0, 0] up, req 0x0307 [0x11, 1, 1, 2, 0x10, 0x27, 0, 0],
      by decide +kernel⟩,
    ⟨{ up with lane := { up.lane with optics := [(0x11, { layout := 1 })] } }, 0x11, by decide +kernel⟩,
    ⟨{ up with lane := { up.lane with optics := [(0x11, { layout := 2 })] } }, 0x11, by decide +kernel⟩,
    ⟨ask 0x0308 [0x11, 0, 0, 0] up, req 0x0308 [0x11, 0, 0, 0], by decide +kernel⟩⟩

theorem witness_OpticsCommandsComplete_2 :
    (∃ (s : State) (r : Req) (bs : Bytes), Accepts opticsAccessSpec s r ∧ u8 r.payload 1 = 0 ∧ (layoutOf s (u8
      r.payload 0) = 2 ∨ zeroAt r.payload 3 2 = true)) ∧
    (∃ (s : State) (r : Req) (bs : Bytes), Accepts opticsAccessSpec s r ∧ u8 r.payload 1 = 1 ∧ hitsDisable s
      r.payload = false ∧ (layoutOf s (u8 r.payload 0) = 2 ∨ zeroAt r.payload 3 2 = true)) ∧
    (∃ (s : State) (r : Req), Accepts opticsAccessSpec s r ∧ u8 r.payload 1 = 0 ∧ (layoutOf s (u8 r.payload 0) = 2 ∨
      zeroAt r.payload 3 2 = true)) ∧
    (∃ (s : State) (port : ℕ) (v : OpticsReading), lineRx.contains port = true ∧ cpRuns s = true ∧ v.alarms % 64 =
      (optics s port).alarms) :=
  ⟨⟨ask 0x0309 [0x11, 0, 0x50, 0, 0, 128, 128, 0] up, req 0x0309 [0x11, 0, 0x50, 0, 0, 128, 128, 0], zeros 128,
      by decide +kernel⟩,
    ⟨ask 0x0309 [0x11, 1, 0x50, 0, 0, 255, 1, 0, 9] up, req 0x0309 [0x11, 1, 0x50, 0, 0, 255, 1, 0, 9], [],
      by decide +kernel⟩,
    ⟨ask 0x0309 [0x11, 0, 0x50, 1, 2, 128, 128, 0]
      ({ up with lane := { up.lane with optics := [(0x11, { layout := 2 })] } }), req 0x0309 [0x11, 0, 0x50, 1, 2,
      128, 128, 0], by decide +kernel⟩,
    ⟨up, 0x11, { ident := 1, alarms := 0, temp := 0, vcc := 0, bias := 0, txPower := 0, rxPower := 0 },
      by decide +kernel⟩⟩

theorem witness_OpticsCommandsComplete_3 :
    (∃ (s : State) (port : ℕ), lineRx.contains port = true ∧ cpRuns s = true) ∧
    (∃ (s : State) (port : ℕ), lineRx.contains port = true ∧ cpRuns s = true) :=
  ⟨⟨up, 0x11, by decide +kernel⟩,
    ⟨up, 0x11, by decide +kernel⟩⟩

theorem witness_LaneSignalsComplete_1 :
    (∃ (s : State) (l : ℕ) (v : Bool), isContinuous l = true ∧ (lane s l).cdrLock ≠ v ∧ s.ctl.devState ≠ .still ∧
      (lane s l).frozen = none) ∧
    (∃ (s : State) (l : ℕ) (v : Bool), tapLanes.contains l = true ∧ (lane s l).cdrLock ≠ v ∧ s.ctl.devState ≠ .still
      ∧ (lane s l).frozen = none) ∧
    (∃ (s : State) (l : ℕ) (good : ℕ) (bad : ℕ) (more : List (ℕ × ℕ)), (lane s l).state = 2 ∧ (lane s l).chk ≠ 0 ∧
      canReceive l = true ∧ ((lane s l).loopback = 1 → samePattern (lane s (loopSource l)) (lane s l) = false)) ∧
    (∃ (s : State) (l : ℕ) (good : ℕ) (bad : ℕ) (more : List (ℕ × ℕ)), (lane s l).state = 2 ∧ (lane s l).chk ≠ 0 ∧
      canReceive l = true ∧ (lane s l).loopback = 1 ∧ (lane s (loopSource l)).gen = (lane s l).chk ∧ ((lane s l).chk
      = 7 → (lane s l).user = if (lane s (loopSource l)).tx.invert = (lane s l).invertRx then (lane s (loopSource
      l)).user else ~~~(lane s (loopSource l)).user)) :=
  ⟨⟨up, 0x8F, true, by decide +kernel⟩,
    ⟨up, 0x12, true, by decide +kernel⟩,
    ⟨modLane 0 (fun x => { x with state := 2, chk := 1 }) up, 0, 5, 1, [(2, 0)], by decide +kernel⟩,
    ⟨modLane 0x40 (fun x => { x with state := 2, gen := 7 }) (modLane 0 (fun x =>
      { x with state := 2, chk := 7, loopback := 1 }) up), 0, 5, 1, [(2, 0)], by decide +kernel⟩⟩

theorem witness_LaneSignalsComplete_2 :
    (∃ (s : State) (l : ℕ), (lane s l).chkLock = false) ∧
    (∃ (s : State) (l : ℕ) (n : ℕ), (lane s l).chkLock = false ∧ (lane s l).chkRun + n < 64) ∧
    (∃ (s : State) (l : ℕ), (lane s l).chkLock = false) ∧
    (∃ (s : State) (l : ℕ), (lane s l).chkLock = true ∧ 256 ≤ (lane s l).chkErr ∧ injIndex 0x07 l s = none) :=
  ⟨⟨up, 0x8F, by decide +kernel⟩,
    ⟨up, 0, 63, by decide +kernel⟩,
    ⟨up, 0, by decide +kernel⟩,
    ⟨modLane 0 (fun x => { x with chkLock := true, chkErr := 256 }) up, 0, by decide +kernel⟩⟩

theorem witness_LaneSignalsComplete_3 :
    (∃ (s : State) (port : ℕ), tapLanes.contains port = true ∧ lineRx.contains port = false ∧ sdActive s port =
      true) ∧
    (∃ (s : State) (port : ℕ) (level : Bool), tapLanes.contains port = true ∧ lineRx.contains port = false ∧
      sdActive s port = false) ∧
    (∃ (s : State) (port : ℕ) (level : Bool), lineRx.contains port = true ∧ s.ctl.devState ≠ .hush ∧ s.ctl.devState
      ≠ .still) ∧
    (∃ (s : State) (port : ℕ), tapRuns s port = true ∧ sdActive s port = true) :=
  ⟨⟨modLinePort 0x12 (fun x => { x with sdBall := !x.sdPol }) (up), 0x12, by decide +kernel⟩,
    ⟨modLinePort 0x12 (fun x => { x with sdBall := x.sdPol }) (up), 0x12, true, by decide +kernel⟩,
    ⟨up, 0x11, true, by decide +kernel⟩,
    ⟨modLinePort 0x12 (fun x => { x with sdBall := !x.sdPol }) (modPlane 1 (fun x => { x with state := 2 }) up),
      0x12, by decide +kernel⟩⟩

theorem witness_LaneSignalsComplete_4 :
    (∃ (s : State) (port : ℕ), tapRuns s port = true ∧ (linePort s port).bmCount ≠ 0) ∧
    (∃ (s : State) (port : ℕ), (linePort s port).bmRst = true) :=
  ⟨⟨modLinePort 0x12 (fun x => { x with bmCount := 1 }) (modPlane 1 (fun x => { x with state := 2 }) up), 0x12,
      by decide +kernel⟩,
    ⟨modLinePort 0x12 (fun x => { x with bmRst := true }) up, 0x12, by decide +kernel⟩⟩

theorem witness_PlaneCommandsComplete_1 :
    (∃ (s : State) (r : Req), Accepts planeConfigSpec s r ∧ (plane s (u8 r.payload 0)).state = 0) ∧
    (∃ (s : State) (r : Req), Accepts planeStartSpec s r ∧ (plane s (u8 r.payload 0)).state = 0 ∧ ¬(engineStatus s
      (engineCode (u8 r.payload 0) 0) = 4 ∧ engineStatus s (engineCode (u8 r.payload 0) 1) = 4) ∧ inTest (planeLanes
      (u8 r.payload 0)) s = none) ∧
    (∃ (s : State) (r : Req), Accepts planeStopSpec s r ∧ (plane s (u8 r.payload 0)).state ≠ 0) ∧
    (∃ (s : State) (r : Req), Accepts planeStatusSpec s r) :=
  ⟨⟨ask 0x0401 [1, 1, 4, 8, 64, 0, 0, 0] up, req 0x0401 [1, 1, 4, 8, 64, 0, 0, 0], by decide +kernel⟩,
    ⟨ask 0x0402 [1, 0, 0, 0] up, req 0x0402 [1, 0, 0, 0], by decide +kernel⟩,
    ⟨ask 0x0403 (zeros 4) (modPlane 0 (fun x => { x with state := 1 }) up), req 0x0403 (zeros 4), by decide +kernel⟩,
    ⟨ask 0x0404 (zeros 4) up, req 0x0404 (zeros 4), by decide +kernel⟩⟩

theorem witness_PlaneCommandsComplete_2 :
    (∃ (s : State) (r : Req), Accepts planeCountersSpec s r ∧ u8 r.payload 1 = 0) ∧
    (∃ (s : State) (r : Req), Accepts planeCountersSpec s r ∧ u8 r.payload 1 = 1) ∧
    (∃ (s : State) (r : Req), Accepts defectConfigSpec s r) :=
  ⟨⟨ask 0x0405 (zeros 4) up, req 0x0405 (zeros 4), by decide +kernel⟩,
    ⟨ask 0x0405 [1, 1, 0, 0] up, req 0x0405 [1, 1, 0, 0], by decide +kernel⟩,
    ⟨ask 0x0406 ([0, 0] ++ le 2 1000 ++ le 2 10000 ++ le 2 1000 ++ le 2 1 ++ [255, 1] ++ le 4 1000000 ++ le 4
      1000000 ++ [9, 10, 0, 0]) up, req 0x0406 ([0, 0] ++ le 2 1000 ++ le 2 10000 ++ le 2 1000 ++ le 2 1 ++ [255, 1]
      ++ le 4 1000000 ++ le 4 1000000 ++ [9, 10, 0, 0]), by decide +kernel⟩⟩

theorem witness_HuntersComplete_1 :
    (∃ (s : State) (k : ℕ) (o : PsyncObs), s.inj.entries = [] ∧ isHunter k = true ∧ (hunter s k).running = true ∧
      (hunter s k).sync = false ∧ lineRuns (hunterPlane k) s = true ∧ expects (hunter s k) o.at_ = false ∧ (hunter s
      k).tested ≠ some o.at_ ∧ o.errs ≤ (plane s (hunterPlane k)).psyncErr ∧ o.sfcHec = true ∧ (hunter s
      k).cands.length < 4) ∧
    (∃ (s : State) (k : ℕ) (o : PsyncObs), s.inj.entries = [] ∧ isHunter k = true ∧ (hunter s k).running = true ∧
      (hunter s k).sync = false ∧ lineRuns (hunterPlane k) s = true ∧ expects (hunter s k) o.at_ = false ∧ (hunter s
      k).tested ≠ some o.at_ ∧ o.errs ≤ (plane s (hunterPlane k)).psyncErr ∧ o.sfcHec = true ∧ 4 ≤ (hunter s
      k).cands.length) ∧
    (∃ (s : State) (k : ℕ) (o : PsyncObs), (hunter s k).tested = some o.at_ ∨ expects (hunter s k) o.at_ = true) ∧
    (∃ (s : State) (k : ℕ) (i : ℕ) (o : PsyncObs) (f : FrameObs) (c : Cand), s.inj.entries = [] ∧ (lineInj s
      (hunterPort s k) o.at_).seen = false ∧ isHunter k = true ∧ (hunter s k).running = true ∧ (hunter s k).sync =
      false ∧ lineRuns (hunterPlane k) s = true ∧ (hunter s k).cands[i]? = some c ∧ o.at_ = c.pos + 19440000000 ∧
      o.errs ≤ (plane s (hunterPlane k)).psyncErr ∧ o.sfcHec = true ∧ o.sfc = (c.sfc + 1) % 2 ^ 51 ∧ c.conf = 0) :=
  ⟨⟨{ up with fr := { up.fr with hunters := [(0x111, { running := true, cands := [{}, {}, {}] })] } }, 0x111,
      { at_ := 5, errs := 2, sfcHec := true, sfc := 0 }, by decide +kernel⟩,
    ⟨{ up with fr := { up.fr with hunters := [(0x111, { running := true, cands := [{}, {}, {}, {}] })] } }, 0x111,
      { at_ := 5, errs := 2, sfcHec := true, sfc := 0 }, by decide +kernel⟩,
    ⟨{ up with fr := { up.fr with hunters := [(0x11, { running := true, tested := some 7 })] } }, 0x11,
      { at_ := 7, errs := 0, sfcHec := true, sfc := 3 }, by decide +kernel⟩,
    ⟨{ up with fr := { up.fr with hunters := [(0x111, { running := true, cands := [{ pos := 5, sfc := 2 ^ 51 - 1, conf := 0 }] })] } },
      0x111, 0, { at_ := 5 + 19440000000, errs := 2, sfcHec := true, sfc := 0 },
      { ponHec := true, ponId := 0, corrected := 0, uncorrectable := 0, fsHec := true, ploam := [], bwmap := [] },
      { pos := 5, sfc := 2 ^ 51 - 1, conf := 0 }, by decide +kernel⟩⟩

theorem witness_HuntersComplete_2 :
    (∃ (s : State) (k : ℕ) (i : ℕ) (o : PsyncObs) (f : FrameObs) (c : Cand), s.inj.entries = [] ∧ (lineInj s
      (hunterPort s k) o.at_).seen = false ∧ isHunter k = true ∧ (hunter s k).running = true ∧ (hunter s k).sync =
      false ∧ lineRuns (hunterPlane k) s = true ∧ (hunter s k).cands[i]? = some c ∧ o.at_ = c.pos + 19440000000 ∧
      o.errs ≤ (plane s (hunterPlane k)).psyncErr ∧ o.sfcHec = true ∧ o.sfc = (c.sfc + 1) % 2 ^ 51 ∧ c.conf ≠ 0 ∧ k
      < 0x100) ∧
    (∃ (s : State) (k : ℕ) (o : PsyncObs) (f : FrameObs), s.inj.entries = [] ∧ (lineInj s (hunterPort s k)
      o.at_).seen = false ∧ isHunter k = true ∧ (hunter s k).running = true ∧ (hunter s k).sync = true ∧ lineRuns
      (hunterPlane k) s = true ∧ o.at_ = (hunter s k).lastPos + 19440000000 ∧ o.errs ≤ (plane s (hunterPlane
      k)).psyncErr ∧ o.sfcHec = true ∧ o.sfc = ((hunter s k).sfc + 1) % 2 ^ 51 ∧ k < 0x100) ∧
    (∃ (s : State) (k : ℕ) (o : PsyncObs) (f : FrameObs), s.inj.entries = [] ∧ (lineInj s (hunterPort s k)
      o.at_).seen = false ∧ isHunter k = true ∧ (hunter s k).running = true ∧ (hunter s k).sync = true ∧ lineRuns
      (hunterPlane k) s = true ∧ o.at_ = (hunter s k).lastPos + 19440000000 ∧ (plane s (hunterPlane k)).psyncErr <
      o.errs ∧ k < 0x100 ∧ (plane s (hunterPlane k)).syncLoss ≤ (hunter s k).misses + 1) ∧
    (∃ (s : State) (k : ℕ) (i : ℕ) (o : PsyncObs) (f : FrameObs) (c : Cand), s.inj.entries = [] ∧ (lineInj s
      (hunterPort s k) o.at_).seen = false ∧ isHunter k = true ∧ (hunter s k).running = true ∧ (hunter s k).sync =
      false ∧ lineRuns (hunterPlane k) s = true ∧ (hunter s k).cands[i]? = some c ∧ o.at_ = c.pos + 19440000000 ∧
      (plane s (hunterPlane k)).psyncErr < o.errs) :=
  ⟨⟨{ up with fr := { up.fr with hunters := [(0x11, { running := true, cands := [{ pos := 5, sfc := 6, conf := 1 }] })] } },
      0x11, 0, { at_ := 5 + 19440000000, errs := 2, sfcHec := true, sfc := 7 },
      { ponHec := true, ponId := 0, corrected := 0, uncorrectable := 0, fsHec := true, ploam := [], bwmap := [] },
      { pos := 5, sfc := 6, conf := 1 }, by decide +kernel⟩,
    ⟨{ up with fr := { up.fr with hunters := [(0x11, { running := true, sync := true, lastPos := 5, sfc := 6 })] } },
      0x11, { at_ := 5 + 19440000000, errs := 2, sfcHec := true, sfc := 7 },
      { ponHec := true, ponId := 0, corrected := 0, uncorrectable := 0, fsHec := true, ploam := [], bwmap := [] },
      by decide +kernel⟩,
    ⟨{ up with fr := { up.fr with hunters := [(0x11, { running := true, sync := true, lastPos := 5, sfc := 6, misses := 1 })] } },
      0x11, { at_ := 5 + 19440000000, errs := 3, sfcHec := true, sfc := 0 },
      { ponHec := true, ponId := 0, corrected := 0, uncorrectable := 0, fsHec := true, ploam := [], bwmap := [] },
      by decide +kernel⟩,
    ⟨{ modPlane 1 (fun x => { x with state := 1 }) up with fr := { (modPlane 1 (fun x => { x with state := 1 }) up).fr with hunters := [(0x110, { running := true, cands := [{ pos := 5, sfc := 2 ^ 51 - 1, conf := 0 }, { pos := 5, sfc := 6, conf := 1 }] }), (0x111, { running := true, cands := [{ pos := 5, sfc := 2 ^ 51 - 1, conf := 0 }, { pos := 5, sfc := 6, conf := 1 }] })] } },
      0x110, 1, { at_ := 5 + 19440000000, errs := 3, sfcHec := true, sfc := 7 },
      { ponHec := true, ponId := 0, corrected := 0, uncorrectable := 0, fsHec := true, ploam := [], bwmap := [] },
      { pos := 5, sfc := 6, conf := 1 }, by decide +kernel⟩⟩

theorem witness_HuntersComplete_3 :
    (∃ (s : State) (k : ℕ) (i : ℕ) (o : PsyncObs) (f : FrameObs) (c : Cand), s.inj.entries = [] ∧ (lineInj s
      (hunterPort s k) o.at_).seen = false ∧ isHunter k = true ∧ (hunter s k).running = true ∧ (hunter s k).sync =
      false ∧ lineRuns (hunterPlane k) s = true ∧ (hunter s k).cands[i]? = some c ∧ o.at_ = c.pos + 19440000000 ∧
      o.errs ≤ (plane s (hunterPlane k)).psyncErr ∧ o.sfcHec = false) ∧
    (∃ (s : State) (k : ℕ) (i : ℕ) (o : PsyncObs) (f : FrameObs) (c : Cand), s.inj.entries = [] ∧ (lineInj s
      (hunterPort s k) o.at_).seen = false ∧ isHunter k = true ∧ (hunter s k).running = true ∧ (hunter s k).sync =
      false ∧ lineRuns (hunterPlane k) s = true ∧ (hunter s k).cands[i]? = some c ∧ o.at_ = c.pos + 19440000000 ∧
      o.errs ≤ (plane s (hunterPlane k)).psyncErr ∧ o.sfcHec = true ∧ o.sfc ≠ (c.sfc + 1) % 2 ^ 51) ∧
    (∃ (s : State) (k : ℕ) (i : ℕ) (o : PsyncObs) (f : FrameObs) (c : Cand), s.inj.entries = [] ∧ (lineInj s
      (hunterPort s k) o.at_).seen = false ∧ isHunter k = true ∧ (hunter s k).running = true ∧ (hunter s k).sync =
      false ∧ lineRuns (hunterPlane k) s = true ∧ (hunter s k).cands[i]? = some c ∧ o.at_ = c.pos + 19440000000 ∧
      o.errs ≤ (plane s (hunterPlane k)).psyncErr ∧ o.sfcHec = true ∧ o.sfc = (c.sfc + 1) % 2 ^ 51 ∧ c.conf ≠ 0 ∧
      isActive s k = true ∧ (plane s (hunterPlane k)).state ≠ 2) ∧
    (∃ (s : State) (k : ℕ) (i : ℕ) (o : PsyncObs) (f : FrameObs) (c : Cand), s.inj.entries = [] ∧ (lineInj s
      (hunterPort s k) o.at_).seen = false ∧ isHunter k = true ∧ (hunter s k).running = true ∧ (hunter s k).sync =
      false ∧ lineRuns (hunterPlane k) s = true ∧ (hunter s k).cands[i]? = some c ∧ o.at_ = c.pos + 19440000000 ∧
      o.errs ≤ (plane s (hunterPlane k)).psyncErr ∧ o.sfcHec = true ∧ o.sfc = (c.sfc + 1) % 2 ^ 51 ∧ c.conf ≠ 0 ∧
      isActive s k = false ∧ 0x100 ≤ k) :=
  ⟨⟨{ modPlane 1 (fun x => { x with state := 1 }) up with fr := { (modPlane 1 (fun x => { x with state := 1 }) up).fr with hunters := [(0x110, { running := true, cands := [{ pos := 5, sfc := 2 ^ 51 - 1, conf := 0 }, { pos := 5, sfc := 6, conf := 1 }] }), (0x111, { running := true, cands := [{ pos := 5, sfc := 2 ^ 51 - 1, conf := 0 }, { pos := 5, sfc := 6, conf := 1 }] })] } },
      0x110, 1, { at_ := 5 + 19440000000, errs := 2, sfcHec := false, sfc := 7 },
      { ponHec := true, ponId := 0, corrected := 0, uncorrectable := 0, fsHec := true, ploam := [], bwmap := [] },
      { pos := 5, sfc := 6, conf := 1 }, by decide +kernel⟩,
    ⟨{ modPlane 1 (fun x => { x with state := 1 }) up with fr := { (modPlane 1 (fun x => { x with state := 1 }) up).fr with hunters := [(0x110, { running := true, cands := [{ pos := 5, sfc := 2 ^ 51 - 1, conf := 0 }, { pos := 5, sfc := 6, conf := 1 }] }), (0x111, { running := true, cands := [{ pos := 5, sfc := 2 ^ 51 - 1, conf := 0 }, { pos := 5, sfc := 6, conf := 1 }] })] } },
      0x110, 1, { at_ := 5 + 19440000000, errs := 2, sfcHec := true, sfc := 8 },
      { ponHec := true, ponId := 0, corrected := 0, uncorrectable := 0, fsHec := true, ploam := [], bwmap := [] },
      { pos := 5, sfc := 6, conf := 1 }, by decide +kernel⟩,
    ⟨{ modPlane 1 (fun x => { x with state := 1 }) up with fr := { (modPlane 1 (fun x => { x with state := 1 }) up).fr with hunters := [(0x110, { running := true, cands := [{ pos := 5, sfc := 6, conf := 1 }] }), (0x111, { running := true, cands := [{ pos := 5, sfc := 6, conf := 1 }] })] } },
      0x110, 0, { at_ := 5 + 19440000000, errs := 2, sfcHec := true, sfc := 7 },
      { ponHec := true, ponId := 0, corrected := 0, uncorrectable := 0, fsHec := true, ploam := [], bwmap := [] },
      { pos := 5, sfc := 6, conf := 1 }, by decide +kernel⟩,
    ⟨{ modPlane 1 (fun x => { x with state := 1 }) up with fr := { (modPlane 1 (fun x => { x with state := 1 }) up).fr with hunters := [(0x110, { running := true, cands := [{ pos := 5, sfc := 6, conf := 1 }] }), (0x111, { running := true, cands := [{ pos := 5, sfc := 6, conf := 1 }] })] } },
      0x111, 0, { at_ := 5 + 19440000000, errs := 2, sfcHec := true, sfc := 7 },
      { ponHec := true, ponId := 0, corrected := 0, uncorrectable := 0, fsHec := true, ploam := [], bwmap := [] },
      { pos := 5, sfc := 6, conf := 1 }, by decide +kernel⟩⟩

theorem witness_HuntersComplete_4 :
    (∃ (s : State) (k : ℕ) (o : PsyncObs) (f : FrameObs), s.inj.entries = [] ∧ (lineInj s (hunterPort s k)
      o.at_).seen = false ∧ isHunter k = true ∧ (hunter s k).running = true ∧ (hunter s k).sync = true ∧ lineRuns
      (hunterPlane k) s = true ∧ o.at_ = (hunter s k).lastPos + 19440000000 ∧ o.errs ≤ (plane s (hunterPlane
      k)).psyncErr ∧ o.sfcHec = true ∧ o.sfc = ((hunter s k).sfc + 1) % 2 ^ 51 ∧ isActive s k = true ∧ (plane s
      (hunterPlane k)).state = 2) ∧
    (∃ (s : State) (k : ℕ) (o : PsyncObs) (f : FrameObs), s.inj.entries = [] ∧ (lineInj s (hunterPort s k)
      o.at_).seen = false ∧ isHunter k = true ∧ (hunter s k).running = true ∧ (hunter s k).sync = true ∧ lineRuns
      (hunterPlane k) s = true ∧ o.at_ = (hunter s k).lastPos + 19440000000 ∧ o.errs ≤ (plane s (hunterPlane
      k)).psyncErr ∧ o.sfcHec = true ∧ o.sfc = ((hunter s k).sfc + 1) % 2 ^ 51 ∧ isActive s k = false ∧ 0x100 ≤ k) ∧
    (∃ (s : State) (k : ℕ) (o : PsyncObs) (f : FrameObs), s.inj.entries = [] ∧ (lineInj s (hunterPort s k)
      o.at_).seen = false ∧ isHunter k = true ∧ (hunter s k).running = true ∧ (hunter s k).sync = true ∧ lineRuns
      (hunterPlane k) s = true ∧ o.at_ = (hunter s k).lastPos + 19440000000 ∧ (plane s (hunterPlane k)).psyncErr <
      o.errs ∧ o.sfcHec = true ∧ o.sfc = ((hunter s k).sfc + 1) % 2 ^ 51 ∧ isActive s k = true ∧ (plane s
      (hunterPlane k)).state = 2 ∧ (hunter s k).misses + 1 < (plane s (hunterPlane k)).syncLoss) ∧
    (∃ (s : State) (k : ℕ) (o : PsyncObs) (f : FrameObs), s.inj.entries = [] ∧ (lineInj s (hunterPort s k)
      o.at_).seen = false ∧ isHunter k = true ∧ (hunter s k).running = true ∧ (hunter s k).sync = true ∧ lineRuns
      (hunterPlane k) s = true ∧ o.at_ = (hunter s k).lastPos + 19440000000 ∧ o.errs = 0 ∧ o.sfcHec = false ∧
      isActive s k = true ∧ (plane s (hunterPlane k)).state = 2 ∧ (hunter s k).misses + 1 < (plane s (hunterPlane
      k)).syncLoss) :=
  ⟨⟨{ modPlane 1 (fun x => { x with state := 2 }) up with fr := { (modPlane 1 (fun x => { x with state := 2 }) up).fr with hunters := [(0x110, { running := true, sync := true, lastPos := 5, sfc := 6 }), (0x111, { running := true, sync := true, lastPos := 5, sfc := 6 })] } },
      0x110, { at_ := 5 + 19440000000, errs := 2, sfcHec := true, sfc := 7 },
      { ponHec := true, ponId := 0, corrected := 0, uncorrectable := 0, fsHec := true, ploam := [], bwmap := [] },
      by decide +kernel⟩,
    ⟨{ modPlane 1 (fun x => { x with state := 2 }) up with fr := { (modPlane 1 (fun x => { x with state := 2 }) up).fr with hunters := [(0x110, { running := true, sync := true, lastPos := 5, sfc := 6 }), (0x111, { running := true, sync := true, lastPos := 5, sfc := 6 })] } },
      0x111, { at_ := 5 + 19440000000, errs := 2, sfcHec := true, sfc := 7 },
      { ponHec := true, ponId := 0, corrected := 0, uncorrectable := 0, fsHec := true, ploam := [], bwmap := [] },
      by decide +kernel⟩,
    ⟨{ modPlane 1 (fun x => { x with state := 2 }) up with fr := { (modPlane 1 (fun x => { x with state := 2 }) up).fr with hunters := [(0x110, { running := true, sync := true, lastPos := 5, sfc := 6 }), (0x111, { running := true, sync := true, lastPos := 5, sfc := 6 })] } },
      0x110, { at_ := 5 + 19440000000, errs := 3, sfcHec := true, sfc := 7 },
      { ponHec := true, ponId := 0, corrected := 0, uncorrectable := 0, fsHec := true, ploam := [], bwmap := [] },
      by decide +kernel⟩,
    ⟨{ modPlane 1 (fun x => { x with state := 2 }) up with fr := { (modPlane 1 (fun x => { x with state := 2 }) up).fr with hunters := [(0x110, { running := true, sync := true, lastPos := 5, sfc := 6 }), (0x111, { running := true, sync := true, lastPos := 5, sfc := 6 })] } },
      0x110, { at_ := 5 + 19440000000, errs := 0, sfcHec := false, sfc := 7 },
      { ponHec := true, ponId := 0, corrected := 0, uncorrectable := 0, fsHec := true, ploam := [], bwmap := [] },
      by decide +kernel⟩⟩

theorem witness_HuntersComplete_5 :
    (∃ (s : State) (k : ℕ) (o : PsyncObs) (f : FrameObs), s.inj.entries = [] ∧ (lineInj s (hunterPort s k)
      o.at_).seen = false ∧ isHunter k = true ∧ (hunter s k).running = true ∧ (hunter s k).sync = true ∧ lineRuns
      (hunterPlane k) s = true ∧ o.at_ = (hunter s k).lastPos + 19440000000 ∧ o.errs = 0 ∧ o.sfcHec = true ∧ o.sfc ≠
      ((hunter s k).sfc + 1) % 2 ^ 51 ∧ (hunter s k).jump = false ∧ isActive s k = true ∧ (plane s (hunterPlane
      k)).state = 2 ∧ (hunter s k).misses + 1 < (plane s (hunterPlane k)).syncLoss) ∧
    (∃ (s : State) (k : ℕ) (o : PsyncObs) (f : FrameObs), s.inj.entries = [] ∧ (lineInj s (hunterPort s k)
      o.at_).seen = false ∧ isHunter k = true ∧ (hunter s k).running = true ∧ (hunter s k).sync = true ∧ lineRuns
      (hunterPlane k) s = true ∧ o.at_ = (hunter s k).lastPos + 19440000000 ∧ (plane s (hunterPlane k)).psyncErr <
      o.errs ∧ k < 0x100 ∧ (hunter s k).misses + 1 < (plane s (hunterPlane k)).syncLoss) ∧
    (∃ (s : State) (k : ℕ) (o : PsyncObs) (f : FrameObs), s.inj.entries = [] ∧ (lineInj s (hunterPort s k)
      o.at_).seen = false ∧ isHunter k = true ∧ (hunter s k).running = true ∧ (hunter s k).sync = true ∧ lineRuns
      (hunterPlane k) s = true ∧ o.at_ = (hunter s k).lastPos + 19440000000 ∧ (plane s (hunterPlane k)).psyncErr <
      o.errs ∧ o.sfcHec = true ∧ o.sfc = ((hunter s k).sfc + 1) % 2 ^ 51 ∧ isActive s k = true ∧ (plane s
      (hunterPlane k)).syncLoss ≤ (hunter s k).misses + 1) :=
  ⟨⟨{ modPlane 1 (fun x => { x with state := 2 }) up with fr := { (modPlane 1 (fun x => { x with state := 2 }) up).fr with hunters := [(0x110, { running := true, sync := true, lastPos := 5, sfc := 6 }), (0x111, { running := true, sync := true, lastPos := 5, sfc := 6 })] } },
      0x110, { at_ := 5 + 19440000000, errs := 0, sfcHec := true, sfc := 6 },
      { ponHec := true, ponId := 0, corrected := 0, uncorrectable := 0, fsHec := true, ploam := [], bwmap := [] },
      by decide +kernel⟩,
    ⟨{ up with fr := { up.fr with hunters := [(0x11, { running := true, sync := true, lastPos := 5, sfc := 6 })] } },
      0x11, { at_ := 5 + 19440000000, errs := 3, sfcHec := true, sfc := 7 },
      { ponHec := true, ponId := 0, corrected := 0, uncorrectable := 0, fsHec := true, ploam := [], bwmap := [] },
      by decide +kernel⟩,
    ⟨{ modPlane 1 (fun x => { x with state := 2 }) up with fr := { (modPlane 1 (fun x => { x with state := 2 }) up).fr with hunters := [(0x110, { running := true, sync := true, lastPos := 5, sfc := 6, misses := 1 }), (0x111, { running := true, sync := true, lastPos := 5, sfc := 6, misses := 1 })] } },
      0x110, { at_ := 5 + 19440000000, errs := 3, sfcHec := true, sfc := 7 },
      { ponHec := true, ponId := 0, corrected := 0, uncorrectable := 0, fsHec := true, ploam := [], bwmap := [] },
      by decide +kernel⟩⟩

theorem witness_FrameContentsComplete_1 :
    (∃ (s : State) (p : ℕ) (m : DsMsg), p ≤ 1 ∧ (plane s p).state = 2 ∧ (plane s p).fsOk = true ∧ lineRuns p s =
      true ∧ m.onu = none) ∧
    (∃ (s : State) (p : ℕ) (m : DsMsg) (n : ℕ), p ≤ 1 ∧ (plane s p).state = 2 ∧ (plane s p).fsOk = true ∧ lineRuns p
      s = true ∧ m.onu = some n ∧ ownOnu s p n = true) ∧
    (∃ (s : State) (p : ℕ) (m : DsMsg) (n : ℕ), p ≤ 1 ∧ (plane s p).state = 2 ∧ (plane s p).fsOk = true ∧ lineRuns p
      s = true ∧ m.onu = some n ∧ ownOnu s p n = false) ∧
    (∃ (s : State) (p : ℕ) (x : XgemObs), s.inj.entries = [] ∧ p ≤ 1 ∧ (plane s p).state = 2 ∧ (plane s p).fsOk =
      true ∧ (plane s p).badXgem = false ∧ lineRuns p s = true ∧ x.kind = 2) :=
  ⟨⟨modPlane 0 (fun x => { x with state := 2, fsOk := true }) up, 0,
      { onu := none, mic := none, ack := false, body := .other, bytes := zeros 48 }, by decide +kernel⟩,
    ⟨{ modPlane 0 (fun x => { x with state := 2, fsOk := true }) up with tm := { terms := [(0, { state := 0x15, onuId := some 1022 })] } },
      0, { onu := some 1022, mic := none, ack := false, body := .other, bytes := zeros 48 }, 1022,
      by decide +kernel⟩,
    ⟨modPlane 0 (fun x => { x with state := 2, fsOk := true }) up, 0,
      { onu := some 1022, mic := none, ack := false, body := .other, bytes := zeros 48 }, 1022, by decide +kernel⟩,
    ⟨modPlane 0 (fun x => { x with state := 2, fsOk := true }) up, 0,
      { kind := 2, fixed := false, portId := 1024, keyIdx := 0, lf := true, fecUnc := false, off := 0, header := zeros 8, payload := zeros 8, pad := [] },
      by decide +kernel⟩⟩

theorem witness_FrameContentsComplete_2 :
    (∃ (s : State) (p : ℕ) (x : XgemObs), s.inj.entries = [] ∧ p ≤ 1 ∧ (plane s p).state = 2 ∧ (plane s p).fsOk =
      true ∧ (plane s p).badXgem = false ∧ lineRuns p s = true ∧ x.kind = 1 ∧ x.fixed = false) ∧
    (∃ (s : State) (p : ℕ) (x : XgemObs), s.inj.entries = [] ∧ p ≤ 1 ∧ (plane s p).state = 2 ∧ (plane s p).fsOk =
      true ∧ (plane s p).badXgem = false ∧ lineRuns p s = true ∧ x.kind ≠ 1 ∧ x.kind ≠ 2 ∧ x.fixed = false) ∧
    (∃ (s : State) (p : ℕ) (port : ℕ) (c : Reasm), tfind (plane s p).reasm port = some c ∧ (plane s p).reasmFrames ≤
      c.age ∧ c.overLong = false ∧ lineRuns p s = true) ∧
    (∃ (s : State) (p : ℕ) (b : TapObs), p ≤ 1 ∧ (plane s p).state = 2 ∧ lineRuns p s = true ∧ (lane s (16 * p +
      2)).cdrLock = true ∧ (∀ i, b.grant = some i → i < (plane s p).expects.length)) :=
  ⟨⟨modPlane 0 (fun x => { x with state := 2, fsOk := true }) up, 0,
      { kind := 1, fixed := false, portId := 1024, keyIdx := 0, lf := true, fecUnc := false, off := 0, header := zeros 8, payload := zeros 8, pad := [] },
      by decide +kernel⟩,
    ⟨modPlane 0 (fun x => { x with state := 2, fsOk := true }) up, 0,
      { kind := 0, fixed := false, portId := 1024, keyIdx := 0, lf := true, fecUnc := false, off := 0, header := zeros 8, payload := zeros 8, pad := [] },
      by decide +kernel⟩,
    ⟨modPlane 0 (fun x => { x with reasm := [(1024, { age := 8 })] }) up, 0, 1024, { age := 8 }, by decide +kernel⟩,
    ⟨modLane 2 (fun x => { x with cdrLock := true }) (modPlane 0 (fun x => { x with state := 2, fsOk := true }) up),
      0,
      { grant := none, at_ := 0, fsHec := true, onuId := 1, words := 4, bipRx := 0, bipCalc := 0, fecCorrected := 0, fecUncorrectable := 0, overhead := [], head := [], frames := [] },
      by decide +kernel⟩⟩

theorem witness_FrameContentsComplete_3 :
    ∃ (s : State) (p : ℕ) (b : TapObs), (lane s (16 * p + 2)).cdrLock = false :=
    ⟨up, 0,
      { grant := none, at_ := 0, fsHec := true, onuId := 1, words := 4, bipRx := 0, bipCalc := 0, fecCorrected := 0, fecUncorrectable := 0, overhead := [], head := [], frames := [] },
      by decide +kernel⟩

theorem witness_DefectEventsComplete_1 :
    (∃ (s : State) (port : ℕ), detectorsRun s port = true ∧ (defPort s port).declared % 2 = 0 ∧ sdSeen s port =
      false) ∧
    (∃ (s : State) (port : ℕ), detectorsRun s port = true ∧ bit (defPort s port).declared 0 = true ∧ sdSeen s port =
      true) ∧
    (∃ (s : State) (port : ℕ), detectorsRun s port = true ∧ (defPort s port).declared % 4 = 0 ∧ sdSeen s port = true
      ∧ (lane s port).cdrLock = false) ∧
    (∃ (s : State) (port : ℕ), detectorsRun s port = true ∧ bit (defPort s port).declared 1 = true ∧ (lane s
      port).cdrLock = true) :=
  ⟨⟨{ modPlane 1 (fun x => { x with state := 2 }) (modLinePort 0x11 (fun x => { x with sdBall := x.sdPol }) (up)) with fr := { (modPlane 1 (fun x => { x with state := 2 }) (modLinePort 0x11 (fun x => { x with sdBall := x.sdPol }) (up))).fr with defects := [(0x11, {  })] } },
      0x11, by decide +kernel⟩,
    ⟨{ modPlane 1 (fun x => { x with state := 2 }) (modLinePort 0x11 (fun x => { x with sdBall := !x.sdPol }) (up)) with fr := { (modPlane 1 (fun x => { x with state := 2 }) (modLinePort 0x11 (fun x => { x with sdBall := !x.sdPol }) (up))).fr with defects := [(0x11, { declared := 1 })] } },
      0x11, by decide +kernel⟩,
    ⟨{ modPlane 1 (fun x => { x with state := 2 }) (modLinePort 0x11 (fun x => { x with sdBall := !x.sdPol }) (modLane 0x11 (fun x => { x with cdrLock := false }) up)) with fr := { (modPlane 1 (fun x => { x with state := 2 }) (modLinePort 0x11 (fun x => { x with sdBall := !x.sdPol }) (modLane 0x11 (fun x => { x with cdrLock := false }) up))).fr with defects := [(0x11, {  })] } },
      0x11, by decide +kernel⟩,
    ⟨{ modPlane 1 (fun x => { x with state := 2 }) (modLinePort 0x11 (fun x => { x with sdBall := x.sdPol }) (modLane 0x11 (fun x => { x with cdrLock := true }) up)) with fr := { (modPlane 1 (fun x => { x with state := 2 }) (modLinePort 0x11 (fun x => { x with sdBall := x.sdPol }) (modLane 0x11 (fun x => { x with cdrLock := true }) up))).fr with defects := [(0x11, { declared := 2 })] } },
      0x11, by decide +kernel⟩⟩

theorem witness_DefectEventsComplete_2 :
    (∃ (s : State) (port : ℕ), detectorsRun s port = true ∧ (defPort s port).declared % 8 = 0 ∧ (hunter s port).sync
      = false) ∧
    (∃ (s : State) (port : ℕ), detectorsRun s port = true ∧ bit (defPort s port).declared 2 = true ∧ (hunter s
      port).sync = true) ∧
    (∃ (s : State) (port : ℕ), detectorsRun s port = true ∧ (defPort s port).declared % 8 = 0 ∧ (defPort s
      port).skipLofec = false ∧ (defPort s port).declared / 8 % 2 = 0 ∧ (defPort s port).winCw ≠ 0 ∧ (defPort s
      port).wLofecSet * (defPort s port).winCw ≤ (defPort s port).winUnc * 1000000 ∧ (defPort s port).lofecRun = 2) ∧
    (∃ (s : State) (port : ℕ), s.inj.entries = [] ∧ detectorsRun s port = true ∧ (defPort s port).declared = 0 ∧
      (defPort s port).skipSd = false ∧ (defPort s port).sdInj = 0 ∧ (defPort s port).sdCw ≠ 0 ∧ (defPort s
      port).sdCw * codewordBits (port / 16) ≤ (defPort s port).sdBits * 10 ^ (defPort s port).wSdSet) :=
  ⟨⟨{ modPlane 1 (fun x => { x with state := 2 }) (modLinePort 0x11 (fun x => { x with sdBall := x.sdPol }) (up)) with fr := { (modPlane 1 (fun x => { x with state := 2 }) (modLinePort 0x11 (fun x => { x with sdBall := x.sdPol }) (up))).fr with defects := [(0x11, {  })] } },
      0x11, by decide +kernel⟩,
    ⟨{ modPlane 1 (fun x => { x with state := 2 }) (modLinePort 0x11 (fun x => { x with sdBall := x.sdPol }) (up)) with fr := { (modPlane 1 (fun x => { x with state := 2 }) (modLinePort 0x11 (fun x => { x with sdBall := x.sdPol }) (up))).fr with defects := [(0x11, { declared := 4 })], hunters := [(0x11, { sync := true })] } },
      0x11, by decide +kernel⟩,
    ⟨{ modPlane 1 (fun x => { x with state := 2 }) (modLinePort 0x11 (fun x => { x with sdBall := !x.sdPol }) (modLane 0x11 (fun x => { x with cdrLock := true }) up)) with fr := { (modPlane 1 (fun x => { x with state := 2 }) (modLinePort 0x11 (fun x => { x with sdBall := !x.sdPol }) (modLane 0x11 (fun x => { x with cdrLock := true }) up))).fr with defects := [(0x11, { winCw := 1000, winUnc := 1, lofecRun := 2 })] } },
      0x11, by decide +kernel⟩,
    ⟨{ modPlane 0 (fun x => { x with state := 2 }) (modLinePort 0x01 (fun x => { x with sdBall := x.sdPol }) (up)) with fr := { (modPlane 0 (fun x => { x with state := 2 }) (modLinePort 0x01 (fun x => { x with sdBall := x.sdPol }) (up))).fr with defects := [(0x01, { sdCw := 10, sdBits := 2 })] } },
      0x01, by decide +kernel⟩⟩

theorem witness_DefectEventsComplete_3 :
    ∃ (s : State) (port : ℕ), detectorsRun s port = true :=
    ⟨{ modPlane 1 (fun x => { x with state := 2 }) (modLinePort 0x11 (fun x => { x with sdBall := x.sdPol }) (up)) with fr := { (modPlane 1 (fun x => { x with state := 2 }) (modLinePort 0x11 (fun x => { x with sdBall := x.sdPol }) (up))).fr with defects := [(0x11, {  })] } },
      0x11, by decide +kernel⟩

theorem witness_TerminalCommandsComplete_1 :
    (∃ (s : State) (r : Req), Accepts termCreateSpec s r ∧ findTerm s (termOf r) = none ∧ (bit (u8 r.payload 2) 3 =
      true ∨ serialTaken s (termOf r) (slice r.payload 4 8) = false)) ∧
    (∃ (s : State) (r : Req) (t : Term), Accepts termDeleteSpec s r ∧ findTerm s (termOf r) = some t ∧ mayChange r
      t.client = true) ∧
    (∃ (s : State) (r : Req) (t : Term), Accepts termEnableSpec s r ∧ findTerm s (termOf r) = some t ∧ mayChange r
      t.client = true ∧ u8 r.payload 2 = 1 ∧ t.state = 0x01) ∧
    (∃ (s : State) (r : Req) (t : Term), Accepts termEnableSpec s r ∧ findTerm s (termOf r) = some t ∧ mayChange r
      t.client = true ∧ u8 r.payload 2 = 0 ∧ enabledState t.state = true) :=
  ⟨⟨ask 0x0501 ([0xFF, 0x83] ++ [15, 0] ++ zeros 8 ++ zeros 36 ++ le 4 187500 ++ le 2 22500 ++ zeros 2) up, req
      0x0501 ([0xFF, 0x83] ++ [15, 0] ++ zeros 8 ++ zeros 36 ++ le 4 187500 ++ le 2 22500 ++ zeros 2),
      by decide +kernel⟩,
    ⟨ask 0x0502 ([0xFF, 0x83] ++ zeros 2) ({ up with tm := { terms := [(2047, { state := 0x15 })] } }), req 0x0502
      ([0xFF, 0x83] ++ zeros 2), { state := 0x15 }, by decide +kernel⟩,
    ⟨ask 0x0503 ([0xFF, 0x83] ++ [1, 0]) ({ up with tm := { terms := [(2047, { state := 0x01 })] } }), req 0x0503
      ([0xFF, 0x83] ++ [1, 0]), { state := 0x01 }, by decide +kernel⟩,
    ⟨ask 0x0503 ([0xFF, 0x83] ++ [0, 0]) ({ up with tm := { terms := [(2047, { state := 0x15 })] } }), req 0x0503
      ([0xFF, 0x83] ++ [0, 0]), { state := 0x15 }, by decide +kernel⟩⟩

theorem witness_TerminalCommandsComplete_2 :
    (∃ (s : State) (r : Req) (t : Term), Accepts termDistanceSpec s r ∧ findTerm s (termOf r) = some t ∧ mayChange r
      t.client = true ∧ t.pendDist = none ∧ sfcRefused s (planeOf (termOf r)) (u8 r.payload 2) (u64 r.payload 16) =
      false ∧ t.state ≠ 0x01 ∧ t.state ≠ 0x11 ∧ t.state ≠ 0x17) ∧
    (∃ (s : State) (r : Req) (t : Term), Accepts termDistanceSpec s r ∧ findTerm s (termOf r) = some t ∧ mayChange r
      t.client = true ∧ t.pendDist = none ∧ sfcRefused s (planeOf (termOf r)) (u8 r.payload 2) (u64 r.payload 16) =
      false ∧ (t.state = 0x01 ∨ t.state = 0x11 ∨ t.state = 0x17)) ∧
    (∃ (s : State) (r : Req) (t : Term), Accepts termDistanceSpec s r ∧ findTerm s (termOf r) = some t ∧ mayChange r
      t.client = true ∧ t.pendDist.isSome = true) ∧
    (∃ (s : State) (r : Req) (t : Term), Accepts termDistanceSpec s r ∧ findTerm s (termOf r) = some t ∧ mayChange r
      t.client = true ∧ t.pendDist = none ∧ u8 r.payload 2 = 1 ∧ (u64 r.payload 16 = (plane s (planeOf (termOf
      r))).sfc ∨ 80000 < (u64 r.payload 16 + 2 ^ 51 - (plane s (planeOf (termOf r))).sfc) % 2 ^ 51)) :=
  ⟨⟨ask 0x0504 ([0xFF, 0x83] ++ [1, 0] ++ le 4 187500 ++ le 2 0 ++ zeros 6 ++ le 8 80000)
      ({ up with tm := { terms := [(2047, { state := 0x15 })] } }), req 0x0504 ([0xFF, 0x83] ++ [1, 0] ++ le 4
      187500 ++ le 2 0 ++ zeros 6 ++ le 8 80000), { state := 0x15 }, by decide +kernel⟩,
    ⟨ask 0x0504 ([0xFF, 0x83] ++ [0, 0] ++ le 4 187500 ++ le 2 21250 ++ zeros 14)
      ({ up with tm := { terms := [(2047, { state := 0x17 })] } }), req 0x0504 ([0xFF, 0x83] ++ [0, 0] ++ le 4
      187500 ++ le 2 21250 ++ zeros 14), { state := 0x17 }, by decide +kernel⟩,
    ⟨ask 0x0504 ([0xFF, 0x83] ++ [0, 0] ++ le 4 187500 ++ le 2 21250 ++ zeros 14)
      ({ up with tm := { terms := [(2047, { state := 0x15, pendDist := some {} })] } }), req 0x0504 ([0xFF, 0x83] ++
      [0, 0] ++ le 4 187500 ++ le 2 21250 ++ zeros 14), { state := 0x15, pendDist := some {} }, by decide +kernel⟩,
    ⟨ask 0x0504 ([0xFF, 0x83] ++ [1, 0] ++ le 4 187500 ++ le 2 0 ++ zeros 6 ++ le 8 80001)
      ({ up with tm := { terms := [(2047, { state := 0x15 })] } }), req 0x0504 ([0xFF, 0x83] ++ [1, 0] ++ le 4
      187500 ++ le 2 0 ++ zeros 6 ++ le 8 80001), { state := 0x15 }, by decide +kernel⟩⟩

theorem witness_TerminalCommandsComplete_3 :
    (∃ (s : State) (r : Req) (t : Term), Accepts termConfigSpec s r ∧ findTerm s (termOf r) = some t ∧ mayChange r
      t.client = true ∧ (t.state = 0x01 ∨ t.state = 0x11)) ∧
    (∃ (s : State) (r : Req) (t : Term), Accepts termConfigSpec s r ∧ findTerm s (termOf r) = some t ∧ mayChange r
      t.client = true ∧ u8 r.payload 2 = b2n t.manual ∧ u8 r.payload 4 = b2n t.fixedKey) ∧
    (∃ (s : State) (r : Req) (t : Term), Accepts termMskSpec s r ∧ findTerm s (termOf r) = some t ∧ mayChange r
      t.client = true ∧ u8 r.payload 2 = 0) ∧
    (∃ (s : State) (r : Req) (t : Term) (kek : BitVec 256), Accepts termMskSpec s r ∧ findTerm s (termOf r) = some t
      ∧ mayChange r t.client = true ∧ u8 r.payload 2 = 1 ∧ s.cip.kek = some kek) :=
  ⟨⟨ask 0x0505 ([0xFF, 0x83] ++ [1, 1, 1, 0, 0, 0]) ({ up with tm := { terms := [(2047, { state := 0x11 })] } }),
      req 0x0505 ([0xFF, 0x83] ++ [1, 1, 1, 0, 0, 0]), { state := 0x11 }, by decide +kernel⟩,
    ⟨ask 0x0505 ([0xFF, 0x83] ++ [0, 1, 0, 0, 0, 0]) ({ up with tm := { terms := [(2047, { state := 0x15 })] } }),
      req 0x0505 ([0xFF, 0x83] ++ [0, 1, 0, 0, 0, 0]), { state := 0x15 }, by decide +kernel⟩,
    ⟨ask 0x0506 ([0xFF, 0x83] ++ zeros 26) ({ up with tm := { terms := [(2047, { state := 0x15 })] } }), req 0x0506
      ([0xFF, 0x83] ++ zeros 26), { state := 0x15 }, by decide +kernel⟩,
    ⟨ask 0x0506 ([0xFF, 0x83] ++ [1] ++ zeros 25)
      ({ up with tm := { terms := [(2047, { state := 0x15 })] }, cip := { up.cip with kek := some 7 } }), req 0x0506
      ([0xFF, 0x83] ++ [1] ++ zeros 25), { state := 0x15 }, 7, by decide +kernel⟩⟩

theorem witness_TerminalCommandsComplete_4 :
    (∃ (s : State) (r : Req) (t : Term), Accepts termPortSpec s r ∧ findTerm s (termOf r) = some t ∧ mayChange r
      t.client = true ∧ (bit (u8 r.payload 3) 0 = false ∨ portTaken s (termOf r) (u8 r.payload 2) (u16 r.payload 4)
      = false) ∧ t.state ≠ 0x15) ∧
    (∃ (s : State) (r : Req) (t : Term), Accepts termPortSpec s r ∧ findTerm s (termOf r) = some t ∧ mayChange r
      t.client = true ∧ (bit (u8 r.payload 3) 0 = false ∨ portTaken s (termOf r) (u8 r.payload 2) (u16 r.payload 4)
      = false) ∧ t.state = 0x15) ∧
    (∃ (s : State) (r : Req) (t : Term), Accepts misbehaveSpec s r ∧ findTerm s (termOf r) = some t ∧ mayChange r
      t.client = true) ∧
    (∃ (s : State) (r : Req), Accepts termPlaneSpec s r) :=
  ⟨⟨ask 0x0507 ([0xFF, 0x83] ++ [15, 15] ++ le 2 65534 ++ zeros 2)
      ({ up with tm := { terms := [(2047, { state := 0x14 })] } }), req 0x0507 ([0xFF, 0x83] ++ [15, 15] ++ le 2
      65534 ++ zeros 2), { state := 0x14 }, by decide +kernel⟩,
    ⟨ask 0x0507 ([0xFF, 0x83] ++ [15, 15] ++ le 2 65534 ++ zeros 2)
      ({ up with tm := { terms := [(2047, { state := 0x15 })] } }), req 0x0507 ([0xFF, 0x83] ++ [15, 15] ++ le 2
      65534 ++ zeros 2), { state := 0x15 }, by decide +kernel⟩,
    ⟨ask 0x0508 ([0xFF, 0x83] ++ [9, 2] ++ le 4 0 ++ le 4 3 ++ le 4 1)
      ({ up with tm := { terms := [(2047, { state := 0x15 })] } }), req 0x0508 ([0xFF, 0x83] ++ [9, 2] ++ le 4 0 ++
      le 4 3 ++ le 4 1), { state := 0x15 }, by decide +kernel⟩,
    ⟨ask 0x050E ([1, 255] ++ le 2 60000 ++ le 2 10000 ++ le 2 30000 ++ zeros 4) up, req 0x050E ([1, 255] ++ le 2
      60000 ++ le 2 10000 ++ le 2 30000 ++ zeros 4), by decide +kernel⟩⟩

theorem witness_TerminalTrafficCompletes_1 :
    (∃ (s : State) (r : Req) (t : Term), Accepts termStatusSpec s r ∧ findTerm s (termOf r) = some t ∧ u8 r.payload
      2 = 0) ∧
    (∃ (s : State) (r : Req) (t : Term), Accepts termStatusSpec s r ∧ findTerm s (termOf r) = some t ∧ u8 r.payload
      2 = 1) ∧
    (∃ (s : State) (r : Req) (t : Term), Accepts ploamSendSpec s r ∧ findTerm s (termOf r) = some t ∧ mayChange r
      t.client = true ∧ (t.state = 0x12 ∨ t.state = 0x14 ∨ t.state = 0x15) ∧ t.ploamUp.length < 8) ∧
    (∃ (s : State) (r : Req) (t : Term), Accepts ploamRecvSpec s r ∧ u8 r.payload 2 = 0 ∧ findTerm s (termOf r) =
      some t) :=
  ⟨⟨ask 0x0509 ([0xFF, 0x83] ++ [0, 0]) ({ up with tm := { terms := [(2047, { state := 0x15 })] } }), req 0x0509
      ([0xFF, 0x83] ++ [0, 0]), { state := 0x15 }, by decide +kernel⟩,
    ⟨ask 0x0509 ([0xFF, 0x83] ++ [1, 0]) ({ up with tm := { terms := [(2047, { state := 0x15 })] } }), req 0x0509
      ([0xFF, 0x83] ++ [1, 0]), { state := 0x15 }, by decide +kernel⟩,
    ⟨ask 0x050A ([0xFF, 0x83] ++ [1, 0] ++ zeros 48) ({ up with tm := { terms := [(2047, { state := 0x12 })] } }),
      req 0x050A ([0xFF, 0x83] ++ [1, 0] ++ zeros 48), { state := 0x12 }, by decide +kernel⟩,
    ⟨ask 0x050B ([0xFF, 0x83] ++ [0, 3]) ({ up with tm := { terms := [(2047, { state := 0x15 })] } }), req 0x050B
      ([0xFF, 0x83] ++ [0, 3]), { state := 0x15 }, by decide +kernel⟩⟩

theorem witness_TerminalTrafficCompletes_2 :
    (∃ (s : State) (r : Req), Accepts ploamRecvSpec s r ∧ u8 r.payload 2 = 1) ∧
    (∃ (s : State) (r : Req) (t : Term), Accepts omciSendSpec s r ∧ findTerm s (termOf r) = some t ∧ mayChange r
      t.client = true ∧ t.state = 0x15 ∧ u16 r.payload 4 = 0 ∧ t.omciQ.length < 16) ∧
    (∃ (s : State) (r : Req) (t : Term), Accepts omciSendSpec s r ∧ findTerm s (termOf r) = some t ∧ mayChange r
      t.client = true ∧ t.state = 0x15 ∧ u16 r.payload 4 ≠ 0 ∧ t.omciTotal = u16 r.payload 2 ∧ t.omciPart.length =
      u16 r.payload 4) ∧
    (∃ (s : State) (r : Req) (t : Term) (o : OmciSdu) (rest : List OmciSdu), Accepts omciRecvSpec s r ∧ u16
      r.payload 0 ≠ 0xFFFF ∧ findTerm s (termOf r) = some t ∧ omciOf s (termOf r) = o :: rest ∧ o.bad = none ∧ u16
      r.payload 2 < o.data.length) :=
  ⟨⟨ask 0x050B [0x00, 0x80, 1, 3] up, req 0x050B [0x00, 0x80, 1, 3], by decide +kernel⟩,
    ⟨ask 0x050C ([0xFF, 0x83] ++ le 2 3 ++ le 2 0 ++ [3, 0, 1, 2, 3])
      ({ up with tm := { terms := [(2047, { state := 0x15 })] } }), req 0x050C ([0xFF, 0x83] ++ le 2 3 ++ le 2 0 ++
      [3, 0, 1, 2, 3]), { state := 0x15 }, by decide +kernel⟩,
    ⟨ask 0x050C ([0xFF, 0x83] ++ le 2 3 ++ le 2 2 ++ [1, 0, 9])
      ({ up with tm := { terms := [(2047, { state := 0x15, omciTotal := 3, omciPart := [1, 2] })] } }), req 0x050C
      ([0xFF, 0x83] ++ le 2 3 ++ le 2 2 ++ [1, 0, 9]), { state := 0x15, omciTotal := 3, omciPart := [1, 2] },
      by decide +kernel⟩,
    ⟨ask 0x050D ([0xFF, 0x83] ++ le 2 2 ++ zeros 2) (modPlane 1 (fun x =>
      { x with omciRx := [{ owner := 2047, data := [1, 2, 3] }] })
      ({ up with tm := { terms := [(2047, { state := 0x15 })] } })), req 0x050D ([0xFF, 0x83] ++ le 2 2 ++ zeros 2),
      { state := 0x15 }, { owner := 2047, data := [1, 2, 3] }, [], by decide +kernel⟩⟩

theorem witness_TerminalTrafficCompletes_3 :
    ∃ (s : State) (r : Req), Accepts omciRecvSpec s r ∧ u16 r.payload 0 = 0xFFFF ∧ omciFirst s = none :=
    ⟨ask 0x050D [0xFF, 0xFF, 0, 0, 0, 0] up, req 0x050D [0xFF, 0xFF, 0, 0, 0, 0], by decide +kernel⟩

theorem witness_TerminalEventsComplete_1 :
    (∃ (s : State) (f : ℕ) (t : Term) (v : DsPloam) (rest : List DsPloam), findTerm s f = some t ∧ t.view = v ::
      rest ∧ lineRuns (planeOf f) s = true) ∧
    (∃ (s : State) (f : ℕ) (t : Term) (n : ℕ) (b : Bulk), findTerm s f = some t ∧ lineRuns (planeOf f) s = true ∧
      bulkOf s f [7] = some (n, b)) ∧
    (∃ (s : State) (f : ℕ) (t : Term) (n : ℕ) (b : Bulk), findTerm s f = some t ∧ lineRuns (planeOf f) s = true ∧
      bulkOf s f [8, 2] = some (n, b) ∧ bulkOf s f [7] = none) ∧
    (∃ (s : State) (f : ℕ) (t : Term) (k : ℕ) (rest : List ℕ), findTerm s f = some t ∧ t.keyView = k :: rest ∧
      lineRuns (planeOf f) s = true ∧ lineKeyValid s f k = false) :=
  ⟨⟨{ up with tm := { terms := [(2047, { state := 0x15, view := [{}] })] } }, 2047,
      { state := 0x15, view := [{}] }, {}, [], by decide +kernel⟩,
    ⟨modPlane 1 (fun x => { x with state := 2, bulks := [{ cause := 7, waiting := [(2047, 0x15)] }] })
      ({ up with tm := { terms := [(2047, { state := 0x15 })] } }), 2047, { state := 0x15 }, 0,
      { cause := 7, waiting := [(2047, 0x15)] }, by decide +kernel⟩,
    ⟨modPlane 1 (fun x => { x with state := 2, bulks := [{ cause := 2, waiting := [(2047, 0x15)] }] })
      ({ up with tm := { terms := [(2047, { state := 0x15 })] } }), 2047, { state := 0x15 }, 0,
      { cause := 2, waiting := [(2047, 0x15)] }, by decide +kernel⟩,
    ⟨{ up with tm := { terms := [(2047, { state := 0x15, keyView := [3] })] } }, 2047,
      { state := 0x15, keyView := [3] }, 3, [], by decide +kernel⟩⟩

theorem witness_TerminalEventsComplete_2 :
    (∃ (s : State) (f : ℕ) (t : Term) (k : ℕ) (rest : List ℕ), findTerm s f = some t ∧ t.keyView = k :: rest ∧
      lineRuns (planeOf f) s = true ∧ lineKeyValid s f k = true ∧ t.lok = false ∧ k ≠ t.keyUp ∧ misbItem t 7 = none) ∧
    (∃ (s : State) (f : ℕ) (t : Term), findTerm s f = some t ∧ t.timer = 1 ∧ t.state = 0x14 ∧ lineRuns (planeOf f) s
      = true) ∧
    (∃ (s : State) (f : ℕ) (t : Term), findTerm s f = some t ∧ t.timer = 2 ∧ t.state = 0x16 ∧ lineRuns (planeOf f) s
      = true ∧ bulkOf s f [10] = none) ∧
    (∃ (s : State) (f : ℕ) (t : Term) (n : ℕ) (b : Bulk), findTerm s f = some t ∧ t.timer = 2 ∧ t.state = 0x16 ∧
      lineRuns (planeOf f) s = true ∧ bulkOf s f [10] = some (n, b) ∧ (plane s (planeOf f)).state = 1) :=
  ⟨⟨{ up with tm := { terms := [(2047, { state := 0x15, keyView := [2] })] }, cip := { up.cip with slots := [(4095, { state := 1 })] } },
      2047, { state := 0x15, keyView := [2] }, 2, [], by decide +kernel⟩,
    ⟨{ up with tm := { terms := [(2047, { state := 0x14, timer := 1 })] } }, 2047, { state := 0x14, timer := 1 },
      by decide +kernel⟩,
    ⟨{ up with tm := { terms := [(2047, { state := 0x16, timer := 2 })] } }, 2047, { state := 0x16, timer := 2 },
      by decide +kernel⟩,
    ⟨modPlane 1 (fun x => { x with state := 1, bulks := [{ cause := 10, waiting := [(2047, 0x15)] }] })
      ({ up with tm := { terms := [(2047, { state := 0x16, timer := 2 })] } }), 2047, { state := 0x16, timer := 2 },
      0, { cause := 10, waiting := [(2047, 0x15)] }, by decide +kernel⟩⟩

theorem witness_TerminalEventsComplete_3 :
    (∃ (s : State) (f : ℕ) (t : Term) (m : DelayedMsg), findTerm s f = some t ∧ t.ploamDelayed = [m]) ∧
    (∃ (s : State) (p : ℕ) (b : Bulk), (plane s p).bulks = [b] ∧ b.waiting = []) :=
  ⟨⟨{ up with tm := { terms := [(2047, { state := 0x15, ploamDelayed := [{}] })] } }, 2047,
      { state := 0x15, ploamDelayed := [{}] }, {}, by decide +kernel⟩,
    ⟨modPlane 1 (fun x => { x with bulks := [{ cause := 2 }] }) up, 1, { cause := 2 }, by decide +kernel⟩⟩

theorem witness_AllocationCommandsComplete_1 :
    (∃ (s : State) (r : Req), Accepts poolReserveSpec s r ∧ (s.up.poolSegs = 0 ∨ mayChange r s.up.poolClient = true)
      ∧ loadRuns s = false ∧ (List.range (u64 r.payload 0 / segBytes)).any (poolDenied s) = false ∧ descsLive s = 0) ∧
    (∃ (s : State) (r : Req), Accepts descSetSpec s r ∧ (descLast s (u16 r.payload 0)).kind = 0 ∧ (u8 r.payload 2 ≠
      1 ∨ u64 r.payload 4 + u32 r.payload 12 ≤ s.up.poolSegs * segBytes) ∧ descNamed s (u16 r.payload 0) = false) ∧
    (∃ (s : State) (r : Req), Accepts descSetSpec s r ∧ (descLast s (u16 r.payload 0)).kind = 0 ∧ (u8 r.payload 2 ≠
      1 ∨ u64 r.payload 4 + u32 r.payload 12 ≤ s.up.poolSegs * segBytes) ∧ descNamed s (u16 r.payload 0) = true) ∧
    (∃ (s : State) (r : Req), Accepts amapWriteSpec s r ∧ r.client = 0 ∧ amapBusy s (u8 r.payload 0) = false ∧ u8
      r.payload 1 = 1) :=
  ⟨⟨ask 0x0601 (le 8 0x200000000) up, req 0x0601 (le 8 0x200000000), by decide +kernel⟩,
    ⟨ask 0x0602 (le 2 16383 ++ [3, 1] ++ zeros 12 ++ le 2 16383 ++ le 2 16383 ++ le 2 16383 ++ [0, 9] ++ le 2 16379
      ++ zeros 6) up, req 0x0602 (le 2 16383 ++ [3, 1] ++ zeros 12 ++ le 2 16383 ++ le 2 16383 ++ le 2 16383 ++ [0,
      9] ++ le 2 16379 ++ zeros 6), by decide +kernel⟩,
    ⟨ask 0x0602 (le 2 16383 ++ [2, 0] ++ zeros 12 ++ le 2 1 ++ le 2 16383 ++ le 2 0 ++ [5, 0] ++ zeros 8) (modPlane
      1 (fun x => { x with active := { ctxs := [(16384, 0x80003FFF)] } }) up), req 0x0602 (le 2 16383 ++ [2, 0] ++
      zeros 12 ++ le 2 1 ++ le 2 16383 ++ le 2 0 ++ [5, 0] ++ zeros 8), by decide +kernel⟩,
    ⟨ask 0x0603 ([1, 1, 1, 0] ++ le 2 32767 ++ [0, 0] ++ le 4 0x80003FFF) up, req 0x0603 ([1, 1, 1, 0] ++ le 2 32767
      ++ [0, 0] ++ le 4 0x80003FFF), by decide +kernel⟩⟩

theorem witness_AllocationCommandsComplete_2 :
    (∃ (s : State) (r : Req), Accepts amapSwapSpec s r ∧ (swapChanges (plane s (u8 r.payload 0))).all (mayTraffic r
      s) = true ∧ amapBusy s (u8 r.payload 0) = false ∧ (plane s (u8 r.payload 0)).state = 2 ∧ u8 r.payload 1 = 0) ∧
    (∃ (s : State) (r : Req), Accepts amapSwapSpec s r ∧ (swapChanges (plane s (u8 r.payload 0))).all (mayTraffic r
      s) = true ∧ amapBusy s (u8 r.payload 0) = false ∧ (plane s (u8 r.payload 0)).state ≠ 2 ∧ u8 r.payload 1 = 0) ∧
    (∃ (s : State) (r : Req), Accepts amapSwapSpec s r ∧ (swapChanges (plane s (u8 r.payload 0))).all (mayTraffic r
      s) = false) ∧
    (∃ (s : State) (p : ℕ) (x : Sched), p ≤ 1 ∧ cpRuns s = true ∧ (plane s p).copying = some x) :=
  ⟨⟨ask 0x0604 ([1] ++ zeros 15) (modPlane 1 (fun x => { x with state := 2 }) up), req 0x0604 ([1] ++ zeros 15),
      by decide +kernel⟩,
    ⟨ask 0x0604 ([1] ++ zeros 15) up, req 0x0604 ([1] ++ zeros 15), by decide +kernel⟩,
    ⟨asked (rawOf 9 0x0604 ([1] ++ zeros 15)) (modPlane 1 (fun x =>
      { x with standby := { ctxs := [(16384, 0x80003FFF)] } })
      ({ up with tm := { terms := [(1024, { client := 5 })] } })), parseReq 0 0 0 (rawOf 9 0x0604 ([1] ++ zeros
      15)), by decide +kernel⟩,
    ⟨modPlane 1 (fun x => { x with copying := some {} }) up, 1, {}, by decide +kernel⟩⟩

theorem witness_AllocationCommandsComplete_3 :
    (∃ (s : State) (r : Req), Accepts shaperSpec s r ∧ mayTraffic r s (u16 r.payload 0 / 4) = true) ∧
    (∃ (s : State) (r : Req) (t : Term), Accepts burstConfigSpec s r ∧ findTerm s (termOf r) = some t ∧ mayChange r
      t.client = true) ∧
    (∃ (s : State) (r : Req), Accepts spoutStatusSpec s r) ∧
    (∃ (s : State) (r : Req), Accepts queueStatusSpec s r) :=
  ⟨⟨ask 0x0605 (le 2 8191 ++ [2, 0] ++ le 4 50000000 ++ le 4 1048576 ++ [64, 0, 0, 0] ++ le 4 67108860 ++ zeros 4)
      up, req 0x0605 (le 2 8191 ++ [2, 0] ++ le 4 50000000 ++ le 4 1048576 ++ [64, 0, 0, 0] ++ le 4 67108860 ++
      zeros 4), by decide +kernel⟩,
    ⟨ask 0x0606 ([0xFF, 0x83] ++ [1, 0]) ({ up with tm := { terms := [(2047, { state := 0x15 })] } }), req 0x0606
      ([0xFF, 0x83] ++ [1, 0]), { state := 0x15 }, by decide +kernel⟩,
    ⟨ask 0x0607 [1, 1, 0, 0] up, req 0x0607 [1, 1, 0, 0], by decide +kernel⟩,
    ⟨ask 0x0608 (le 2 8191 ++ [1, 0]) up, req 0x0608 (le 2 8191 ++ [1, 0]), by decide +kernel⟩⟩

theorem witness_GrantsAndBurstsComplete_1 :
    (∃ (s : State) (p : ℕ) (a : AllocStruct), s.inj.entries = [] ∧ p ≤ 1 ∧ (plane s p).state = 2 ∧ (plane s p).fsOk
      = true ∧ lineRuns p s = true ∧ a.hec = false ∧ a.last = false) ∧
    (∃ (s : State) (p : ℕ) (a : AllocStruct), s.inj.entries = [] ∧ p ≤ 1 ∧ (plane s p).state = 2 ∧ (plane s p).fsOk
      = true ∧ lineRuns p s = true ∧ (plane s p).mode = 0 ∧ (plane s p).structs < 2048 ∧ a.hec = true ∧ a.last =
      false) ∧
    (∃ (s : State) (p : ℕ) (a : AllocStruct), s.inj.entries = [] ∧ p ≤ 1 ∧ (plane s p).state = 2 ∧ (plane s p).fsOk
      = true ∧ lineRuns p s = true ∧ (plane s p).mode = 0 ∧ (plane s p).structs < 2048 ∧ a.hec = true ∧ a.last =
      true) ∧
    (∃ (s : State) (p : ℕ) (b : Burst), p ≤ 1 ∧ (plane s p).state = 2 ∧ lineRuns p s = true ∧ nextBurst s p = some b
      ∧ mayBurst s b = true) :=
  ⟨⟨modPlane 1 (fun x => { x with state := 2, fsOk := true, structs := 2047 }) up, 1,
      { hec := false, alloc := 1, broadcast := false, dbru := true, ploam := false, start := some 10, grant := 100, profile := 0, last := false },
      by decide +kernel⟩,
    ⟨modPlane 1 (fun x => { x with state := 2, fsOk := true, structs := 2047 }) up, 1,
      { hec := true, alloc := 1, broadcast := false, dbru := true, ploam := false, start := some 10, grant := 100, profile := 0, last := false },
      by decide +kernel⟩,
    ⟨modPlane 1 (fun x => { x with state := 2, fsOk := true, structs := 2047 }) up, 1,
      { hec := true, alloc := 1, broadcast := false, dbru := true, ploam := false, start := some 10, grant := 100, profile := 0, last := true },
      by decide +kernel⟩,
    ⟨modPlane 1 (fun x => { x with state := 2, sched := [{ f := 1024, start := 5 }] })
      { up with tm := { up.tm with terms := [(1024, { state := 0x14 })] } }, 1, { f := 1024, start := 5 },
      by decide +kernel⟩⟩

theorem witness_GrantsAndBurstsComplete_2 :
    ∃ (s : State) (p : ℕ) (b : Burst), p ≤ 1 ∧ (plane s p).state = 2 ∧ lineRuns p s = true ∧ nextBurst s p = some b
      ∧ mayBurst s b = false :=
    ⟨modPlane 1 (fun x => { x with state := 2, sched := [{ f := 1024, start := 5 }] }) up, 1,
      { f := 1024, start := 5 }, by decide +kernel⟩

theorem witness_ProtectionEventsComplete_1 :
    (∃ (s : State) (p : ℕ) (m : RillMsg) (rest : List RillMsg), s.inj.entries = [] ∧ (prot s p).rillQ = m :: rest ∧
      rillCarries s p = true) ∧
    (∃ (s : State) (p : ℕ) (m : RillMsg) (rest : List RillMsg), s.inj.entries = [] ∧ (prot s p).rillQ = m :: rest ∧
      rillCarries s p = true) ∧
    (∃ (s : State) (p : ℕ) (m : RillMsg) (rest : List RillMsg), (prot s p).rillQ = m :: rest ∧ m.fails < 3) ∧
    (∃ (s : State) (p : ℕ), s.inj.entries = [] ∧ (prot s p).rillQ = [] ∧ rillCarries s p = true) :=
  ⟨⟨modPlane 1 (fun y => { y with state := 2, prot := { rillQ := [{ record := 0xFFFF }] } }) up, 1,
      { record := 0xFFFF }, [], by decide +kernel⟩,
    ⟨modPlane 1 (fun y => { y with state := 2, prot := { rillQ := [{ record := 0xFFFF }] } }) up, 1,
      { record := 0xFFFF }, [], by decide +kernel⟩,
    ⟨modPlane 1 (fun y => { y with state := 2, prot := { rillQ := [{ record := 0xFFFF }] } }) up, 1,
      { record := 0xFFFF }, [], by decide +kernel⟩,
    ⟨modPlane 1 (fun y => { y with state := 2, prot := {  } }) up, 1, by decide +kernel⟩⟩

theorem witness_ProtectionEventsComplete_2 :
    (∃ (s : State) (p : ℕ), s.inj.entries = [] ∧ (prot s p).rillQ = [] ∧ rillCarries s p = true) ∧
    (∃ (s : State) (p : ℕ), (prot s p).rillQ = [] ∧ (prot s p).keepFails < 3) ∧
    (∃ (s : State) (p : ℕ), (prot s p).rillQ = [] ∧ 3 ≤ (prot s p).keepFails) ∧
    (∃ (s : State) (p : ℕ), p ≤ 1 ∧ (prot s p).rillUp = true ∧ (plane s p).state ≠ 0 ∧ lineRuns p s = true) :=
  ⟨⟨modPlane 1 (fun y => { y with state := 2, prot := { keepFails := 3 } }) up, 1, by decide +kernel⟩,
    ⟨modPlane 1 (fun y => { y with state := 2, prot := { keepFails := 2 } }) up, 1, by decide +kernel⟩,
    ⟨modPlane 1 (fun y => { y with state := 2, prot := { keepFails := 3 } }) up, 1, by decide +kernel⟩,
    ⟨modPlane 1 (fun y => { y with state := 2, prot := {  } }) up, 1, by decide +kernel⟩⟩

theorem witness_ProtectionEventsComplete_3 :
    (∃ (s : State) (p : ℕ) (v : Bool), p ≤ 1 ∧ (prot s p).rillUp = false ∧ lineRuns p s = true) ∧
    (∃ (s : State) (p : ℕ), p ≤ 1 ∧ (prot s p).rillUp = false ∧ (prot s p).rillHeld = true ∧ lineRuns p s = true ∧
      engineStatus s (standbyCode s p) ≠ 3) ∧
    (∃ (s : State) (p : ℕ), p ≤ 1 ∧ (prot s p).rillUp = false ∧ (prot s p).rillHeld = true ∧ lineRuns p s = true ∧
      engineStatus s (standbyCode s p) = 3) ∧
    (∃ (s : State) (p : ℕ), rillCarries s p = true ∧ engineStatus s (standbyCode s p) = 2) :=
  ⟨⟨modPlane 1 (fun y => { y with state := 2, prot := { rillUp := false } }) up, 1, true, by decide +kernel⟩,
    ⟨modPlane 1 (fun y => { y with state := 2, prot := { rillUp := false, rillHeld := true } }) up, 1,
      by decide +kernel⟩,
    ⟨{ modPlane 1 (fun y => { y with state := 2, prot := { rillUp := false, rillHeld := true } }) up with fr := { (modPlane 1 (fun y => { y with state := 2, prot := { rillUp := false, rillHeld := true } }) up).fr with engines := [(0x11, 3)] } },
      1, by decide +kernel⟩,
    ⟨{ modPlane 1 (fun y => { y with state := 2, prot := {  } }) up with fr := { (modPlane 1 (fun y => { y with state := 2, prot := {  } }) up).fr with engines := [(0x11, 2)] } },
      1, by decide +kernel⟩⟩

theorem witness_ProtectionEventsComplete_4 :
    (∃ (s : State) (e : ℕ), isEngine e = true ∧ (plane s (e / 16)).state ≠ 0 ∧ (hunter s (engineKey e)).sync = true
      ∧ lineRuns (e / 16) s = true) ∧
    (∃ (s : State) (e : ℕ), isEngine e = true ∧ e = standbyCode s (e / 16) ∧ (plane s (e / 16)).state = 2 ∧ lineRuns
      (e / 16) s = true ∧ (hunter s (engineKey e)).sync = false) ∧
    (∃ (s : State) (p : ℕ), p ≤ 1 ∧ periodRuns s p = true ∧ lineRuns p s = true) ∧
    (∃ (s : State) (p : ℕ) (origin : ℕ), (prot s p).swap = some origin ∧ p ≤ 1 ∧ (plane s p).state = 2 ∧ (prot s
      p).swapTries < 9 ∧ lineRuns p s = true ∧ swapReady s p = true) :=
  ⟨⟨{ modPlane 1 (fun y => { y with state := 2, prot := {  } }) up with fr := { (modPlane 1 (fun y => { y with state := 2, prot := {  } }) up).fr with hunters := [(0x111, { sync := true })] } },
      0x11, by decide +kernel⟩,
    ⟨modPlane 1 (fun y => { y with state := 2, prot := {  } }) up, 0x11, by decide +kernel⟩,
    ⟨modPlane 1 (fun y => { y with state := 2, prot := { period := 600 } }) up, 1, by decide +kernel⟩,
    ⟨{ modPlane 1 (fun y => { y with state := 2, prot := { swap := some 1, swapTries := 8 } }) up with fr := { (modPlane 1 (fun y => { y with state := 2, prot := { swap := some 1, swapTries := 8 } }) up).fr with hunters := [(0x111, { sync := true })] } },
      1, 1, by decide +kernel⟩⟩

theorem witness_ProtectionEventsComplete_5 :
    (∃ (s : State) (p : ℕ) (origin : ℕ), (prot s p).swap = some origin ∧ p ≤ 1 ∧ 9 ≤ (prot s p).swapTries ∧ lineRuns
      p s = true) ∧
    (∃ (s : State) (p : ℕ), p ≤ 1 ∧ (plane s p).state ≠ 0 ∧ (prot s p).holdRunning = true ∧ (wantedPort s p).2.2 = 2
      ∧ lineRuns p s = true) ∧
    (∃ (s : State) (p : ℕ), p ≤ 1 ∧ (plane s p).state ≠ 0 ∧ (prot s p).wtrRunning = true ∧ (wantedPort s p).2.2 = 3
      ∧ lineRuns p s = true) :=
  ⟨⟨modPlane 1 (fun y => { y with state := 2, prot := { swap := some 0, swapTries := 9 } }) up, 1, 0,
      by decide +kernel⟩,
    ⟨{ modPlane 1 (fun y => { y with state := 2, prot := { holdRunning := true } }) up with fr := { (modPlane 1 (fun y => { y with state := 2, prot := { holdRunning := true } }) up).fr with defects := [(0x10, { declared := 1 })] } },
      1, by decide +kernel⟩,
    ⟨modPlane 1 (fun y => { y with state := 2, prot := { wtrRunning := true, revertive := true, activePort := 1 } })
      up, 1, by decide +kernel⟩⟩

theorem witness_ProtectionCommandsComplete_1 :
    (∃ (s : State) (r : Req), Accepts protConfigSpec s r ∧ (u8 r.payload 1 = (prot s (u8 r.payload 0)).working ∨
      (plane s (u8 r.payload 0)).state = 0)) ∧
    (∃ (s : State) (r : Req), Accepts protSwapSpec s r ∧ (prot s (u8 r.payload 0)).swap = none ∧ (prot s (u8
      r.payload 0)).lineBusy = false ∧ (prot s (u8 r.payload 0)).switchDue = 0 ∧ (plane s (u8 r.payload 0)).state =
      2 ∧ engineStatus s (standbyCode s (u8 r.payload 0)) = 1) ∧
    (∃ (s : State) (r : Req), Accepts protLineSpec s r ∧ (plane s (u8 r.payload 0)).state ≠ 0 ∧ manualRefused s (u8
      r.payload 0) (u8 r.payload 1) = false) ∧
    (∃ (s : State) (r : Req), Accepts protStatusSpec s r) :=
  ⟨⟨ask 0x0701 ([1, 1, 0x1F, 1] ++ le 2 10000 ++ le 2 3600 ++ le 4 604800 ++ zeros 4) up, req 0x0701 ([1, 1, 0x1F,
      1] ++ le 2 10000 ++ le 2 3600 ++ le 4 604800 ++ zeros 4), by decide +kernel⟩,
    ⟨ask 0x0702 [1, 0, 0, 0] (modPlane 1 (fun y => { y with state := 2, prot := {  } }) up), req 0x0702 [1, 0, 0,
      0], by decide +kernel⟩,
    ⟨ask 0x0703 [1, 5, 0, 0] (modPlane 1 (fun y => { y with state := 2, prot := {  } }) up), req 0x0703 [1, 5, 0,
      0], by decide +kernel⟩,
    ⟨ask 0x0704 [1, 0, 0, 0] up, req 0x0704 [1, 0, 0, 0], by decide +kernel⟩⟩

theorem witness_ProtectionCommandsComplete_2 :
    (∃ (s : State) (r : Req), Accepts takeoverListSpec s r) ∧
    (∃ (s : State) (r : Req), Accepts restoreSpec s r ∧ engineStatus s (u8 r.payload 0) = 4 ∧ ((plane s (u8
      r.payload 0 / 16)).state = 0 ∨ (prot s (u8 r.payload 0 / 16)).rillUp = true)) ∧
    (∃ (s : State) (r : Req), Accepts restoreSpec s r ∧ engineStatus s (u8 r.payload 0) = 4 ∧ (plane s (u8 r.payload
      0 / 16)).state ≠ 0 ∧ (prot s (u8 r.payload 0 / 16)).rillUp = false) :=
  ⟨⟨ask 0x0705 [1, 0, 0, 0] up, req 0x0705 [1, 0, 0, 0], by decide +kernel⟩,
    ⟨ask 0x0706 [0x11, 0, 0, 0] ({ up with fr := { (up).fr with engines := [(0x11, 4)] } }), req 0x0706 [0x11, 0, 0,
      0], by decide +kernel⟩,
    ⟨ask 0x0706 [0x11, 0, 0, 0]
      ({ modPlane 1 (fun y => { y with state := 2, prot := { rillUp := false } }) up with fr := { (modPlane 1 (fun y => { y with state := 2, prot := { rillUp := false } }) up).fr with engines := [(0x11, 4)] } }),
      req 0x0706 [0x11, 0, 0, 0], by decide +kernel⟩⟩

theorem witness_ClassifierEventsComplete_1 :
    (∃ (s : State) (n : ℕ) (i : ClsItem), s.inj.entries = [] ∧ itemIn s n 0 = some i ∧ basinsRun s = true ∧
      i.lineBad = none) ∧
    (∃ (s : State) (n : ℕ) (i : ClsItem), itemIn s n 1 = some i ∧ basinsRun s = true) ∧
    (∃ (s : State) (n : ℕ) (i : ClsItem), (s.cls.items.find? fun x => x.id == n) = some i ∧ basinsRun s = true ∧
      i.pass ≠ 1) ∧
    (∃ (s : State) (n : ℕ) (i : ClsItem), (s.cls.items.find? fun x => x.id == n) = some i ∧ basinsRun s = true ∧
      i.pass = 1) :=
  ⟨⟨{ up with cls := { up.cls with items := [{ id := 3 }] } }, 3, { id := 3 }, by decide +kernel⟩,
    ⟨{ up with cls := { up.cls with items := [{ id := 3, pass := 1 }] } }, 3, { id := 3, pass := 1 },
      by decide +kernel⟩,
    ⟨{ up with cls := { up.cls with items := [{ id := 3 }] } }, 3, { id := 3 }, by decide +kernel⟩,
    ⟨{ up with cls := { up.cls with items := [{ id := 3, pass := 1 }] } }, 3, { id := 3, pass := 1 },
      by decide +kernel⟩⟩

theorem witness_ClassifierEventsComplete_2 :
    ∃ (s : State) (vs : List Version) (v : Version) (old : Version), s.cls.versions = vs ++ [v, old] ∧ inVersion s
      old.num = 0 :=
    ⟨{ up with cls := { up.cls with versions := [{ num := 1 }, {}] } }, [], { num := 1 }, {}, by decide +kernel⟩

theorem witness_ClassifierCommandsComplete_1 :
    (∃ (s : State) (r : Req), Accepts ruleSpec s r ∧ mayDraft r s = true ∧ (∀ x, tfind s.cls.draft.rules (u16
      r.payload 0) = some x → mayChange r x.client = true) ∧ (dirtyRules s).length < 8192) ∧
    (∃ (s : State) (r : Req), Accepts profileSpec s r ∧ mayDraft r s = true) ∧
    (∃ (s : State) (r : Req), Accepts clsSourceSpec s r ∧ mayDraft r s = true) ∧
    (∃ (s : State) (r : Req), Accepts commitSpec s r ∧ mayDraft r s = true ∧ u8 r.payload 0 = 1 ∧ s.cls.dirty ≠ [] ∧
      s.cls.versions.length < 4 ∧ (dirtyRules s).length ≤ shadowFree s) :=
  ⟨⟨ask 0x0801 ([0xFF, 0x1F, 1, 0] ++ zeros 112 ++ [3, 1, 3, 7, 16, 3, 4, 0] ++ le 2 16384 ++ zeros 6) up, req
      0x0801 ([0xFF, 0x1F, 1, 0] ++ zeros 112 ++ [3, 1, 3, 7, 16, 3, 4, 0] ++ le 2 16384 ++ zeros 6),
      by decide +kernel⟩,
    ⟨ask 0x0802 ([15, 0] ++ zeros 50) up, req 0x0802 ([15, 0] ++ zeros 50), by decide +kernel⟩,
    ⟨ask 0x0803 ([3, 15, 1] ++ zeros 37) up, req 0x0803 ([3, 15, 1] ++ zeros 37), by decide +kernel⟩,
    ⟨ask 0x0804 [1, 0, 0, 0] ({ up with cls := { up.cls with dirty := [5] } }), req 0x0804 [1, 0, 0, 0],
      by decide +kernel⟩⟩

theorem witness_ClassifierCommandsComplete_2 :
    (∃ (s : State) (r : Req), Accepts commitSpec s r ∧ mayDraft r s = true ∧ u8 r.payload 0 = 0) ∧
    (∃ (s : State) (r : Req), Accepts ruleStatusSpec s r ∧ neverCommitted s (u32 r.payload 0) = false) ∧
    (∃ (s : State) (r : Req), Accepts ruleReadSpec s r ∧ u8 r.payload 2 = 0) ∧
    (∃ (s : State) (r : Req), Accepts ruleReadSpec s r ∧ u8 r.payload 2 = 1) :=
  ⟨⟨ask 0x0804 [0, 0, 0, 0] up, req 0x0804 [0, 0, 0, 0], by decide +kernel⟩,
    ⟨ask 0x0805 (zeros 4) up, req 0x0805 (zeros 4), by decide +kernel⟩,
    ⟨ask 0x0806 (zeros 8) up, req 0x0806 (zeros 8), by decide +kernel⟩,
    ⟨ask 0x0806 [0, 0, 1, 0, 0, 0, 0, 0] up, req 0x0806 [0, 0, 1, 0, 0, 0, 0, 0], by decide +kernel⟩⟩

theorem witness_ClassifierCommandsComplete_3 :
    (∃ (s : State) (r : Req) (v : Version), Accepts ruleReadSpec s r ∧ u8 r.payload 2 = 2 ∧ neverCommitted s (u32
      r.payload 4) = false ∧ liveVersion s (u32 r.payload 4) = some v) ∧
    (∃ (s : State) (r : Req), Accepts clsCountersSpec s r) ∧
    (∃ (s : State) (r : Req), Accepts cpRecvSpec s r ∧ tget [] s.cls.copies (u8 r.payload 0) = []) ∧
    (∃ (s : State) (r : Req) (c : Copy) (rest : List Copy), Accepts cpRecvSpec s r ∧ tget [] s.cls.copies (u8
      r.payload 0) = c :: rest ∧ c.bad = none ∧ u16 r.payload 2 < c.data.length ∧ c.data.length ≤ u16 r.payload 2 +
      208) :=
  ⟨⟨ask 0x0806 [0, 0, 2, 0, 0, 0, 0, 0] up, req 0x0806 [0, 0, 2, 0, 0, 0, 0, 0], {}, by decide +kernel⟩,
    ⟨ask 0x0807 [3, 1, 0, 0] up, req 0x0807 [3, 1, 0, 0], by decide +kernel⟩,
    ⟨ask 0x0808 ([3] ++ zeros 7) up, req 0x0808 ([3] ++ zeros 7), by decide +kernel⟩,
    ⟨ask 0x0808 [3, 0, 2, 0, 0, 0, 0, 0]
      ({ up with cls := { up.cls with copies := [(3, [{ data := zeros 210 }])] } }), req 0x0808 [3, 0, 2, 0, 0, 0,
      0, 0], { data := zeros 210 }, [], by decide +kernel⟩⟩

theorem witness_CaptureCommandsComplete_1 :
    (∃ (s : State) (r : Req) (g : List ℕ), Accepts capConfigSpec s r ∧ mayCapture r (basin s (u8 r.payload 0)) =
      true ∧ ((basin s (u8 r.payload 0)).state = 0 ∨ (basin s (u8 r.payload 0)).state = 1 ∨ (basin s (u8 r.payload
      0)).state = 5) ∧ lowestFree (modBasin (u8 r.payload 0) (fun y => { y with buffer := [], segs := [] }) s) (u32
      r.payload 4) = some g) ∧
    (∃ (s : State) (r : Req), Accepts capStartSpec s r ∧ mayCapture r (basin s (u8 r.payload 0)) = true ∧ ((basin s
      (u8 r.payload 0)).state = 1 ∨ (basin s (u8 r.payload 0)).state = 5) ∧ (s.ctl.devState = .hush → (basin s (u8
      r.payload 0)).cfg.mode = 1) ∧ ((basin s (u8 r.payload 0)).cfg.encrypt = true → (slot s (basin s (u8 r.payload
      0)).cfg.keySlot).state ≠ 0 ∧ (slot s (basin s (u8 r.payload 0)).cfg.keySlot).state ≠ 2) ∧ ((basin s (u8
      r.payload 0)).cfg.trigMode = 0 ∨ ((basin s (u8 r.payload 0)).cfg.trigMode = 2 ∧ (basin s (u8 r.payload
      0)).cfg.startMask = 0))) ∧
    (∃ (s : State) (b : ℕ) (t : Stamp) (c : Option Cause), (basin s b).buffer ≠ []) ∧
    (∃ (s : State) (b : ℕ) (t : Stamp) (c : Option Cause), (basin s b).buffer = []) :=
  ⟨⟨ask 0x0901 ([3, 1, 0, 0] ++ le 4 1 ++ zeros 16 ++ le 4 1000000 ++ zeros 12)
      ({ up with ident := { up.ident with variant := 1 } }), req 0x0901 ([3, 1, 0, 0] ++ le 4 1 ++ zeros 16 ++ le 4
      1000000 ++ zeros 12), [0], by decide +kernel⟩,
    ⟨ask 0x0902 [3, 0, 0, 0]
      ({ modBasin 3 (fun y => { y with state := 1, buffer := [5], cfg := { y.cfg with encrypt := true, keySlot := 4607, trigMode := 2 } }) up with cip := { up.cip with slots := [(4607, { state := 1 })] } }),
      req 0x0902 [3, 0, 0, 0], by decide +kernel⟩,
    ⟨modBasin 3 (fun y => { y with buffer := [5] }) up, 3, nowStamp up, none, by decide +kernel⟩,
    ⟨up, 3, nowStamp up, none, by decide +kernel⟩⟩

theorem witness_CaptureCommandsComplete_2 :
    (∃ (s : State) (r : Req), Accepts capStartSpec s r ∧ mayCapture r (basin s (u8 r.payload 0)) = true ∧ ((basin s
      (u8 r.payload 0)).state = 1 ∨ (basin s (u8 r.payload 0)).state = 5) ∧ (s.ctl.devState = .hush → (basin s (u8
      r.payload 0)).cfg.mode = 1) ∧ ((basin s (u8 r.payload 0)).cfg.encrypt = true → (slot s (basin s (u8 r.payload
      0)).cfg.keySlot).state ≠ 0 ∧ (slot s (basin s (u8 r.payload 0)).cfg.keySlot).state ≠ 2) ∧ ((basin s (u8
      r.payload 0)).cfg.trigMode = 1 ∨ ((basin s (u8 r.payload 0)).cfg.trigMode = 2 ∧ (basin s (u8 r.payload
      0)).cfg.startMask ≠ 0))) ∧
    (∃ (s : State) (r : Req), Accepts capStartSpec s r ∧ mayCapture r (basin s (u8 r.payload 0)) = true ∧ ((basin s
      (u8 r.payload 0)).state = 1 ∨ (basin s (u8 r.payload 0)).state = 5) ∧ (s.ctl.devState = .hush → (basin s (u8
      r.payload 0)).cfg.mode = 1) ∧ (basin s (u8 r.payload 0)).cfg.encrypt = true ∧ (slot s (basin s (u8 r.payload
      0)).cfg.keySlot).state = 2) ∧
    (∃ (s : State) (r : Req), Accepts capStopSpec s r ∧ mayCapture r (basin s (u8 r.payload 0)) = true ∧ ((basin s
      (u8 r.payload 0)).state = 2 ∨ (basin s (u8 r.payload 0)).state = 3 ∨ (basin s (u8 r.payload 0)).state = 4)) ∧
    (∃ (s : State) (r : Req), Accepts capTriggerSpec s r) :=
  ⟨⟨ask 0x0902 [3, 0, 0, 0] (modBasin 3 (fun y =>
      { y with state := 5, buffer := [5], cfg := { y.cfg with trigMode := 2, startMask := 0x8000 } }) up), req
      0x0902 [3, 0, 0, 0], by decide +kernel⟩,
    ⟨ask 0x0902 [3, 0, 0, 0]
      ({ modBasin 3 (fun y => { y with state := 1, buffer := [5], cfg := { y.cfg with encrypt := true, keySlot := 4607 } }) up with cip := { up.cip with slots := [(4607, { state := 2 })] } }),
      req 0x0902 [3, 0, 0, 0], by decide +kernel⟩,
    ⟨ask 0x0903 [3, 0, 0, 0] (modBasin 3 (fun y => { y with state := 4 }) up), req 0x0903 [3, 0, 0, 0],
      by decide +kernel⟩,
    ⟨ask 0x0904 [15, 0, 0, 0, 1, 2, 3, 4] up, req 0x0904 [15, 0, 0, 0, 1, 2, 3, 4], by decide +kernel⟩⟩

theorem witness_CaptureCommandsComplete_3 :
    (∃ (s : State) (r : Req), Accepts capReleaseSpec s r ∧ mayCapture r (basin s (u8 r.payload 0)) = true ∧ capInUse
      s (u8 r.payload 0) = false ∧ ((basin s (u8 r.payload 0)).state = 1 ∨ (basin s (u8 r.payload 0)).state = 5)) ∧
    (∃ (s : State) (r : Req), Accepts capStatusSpec s r) ∧
    (∃ (s : State) (r : Req), Accepts capSegmentsSpec s r) ∧
    (∃ (s : State) (r : Req), Accepts windowSpec s r ∧ u32 r.payload 4 = 0xFFFFFFFF) :=
  ⟨⟨ask 0x0905 [3, 0, 0, 0] (modBasin 3 (fun y => { y with state := 5, buffer := [5] }) up), req 0x0905 [3, 0, 0,
      0], by decide +kernel⟩,
    ⟨ask 0x0906 [3, 0, 0, 0] up, req 0x0906 [3, 0, 0, 0], by decide +kernel⟩,
    ⟨ask 0x0907 ([3] ++ zeros 7) up, req 0x0907 ([3] ++ zeros 7), by decide +kernel⟩,
    ⟨ask 0x0909 [15, 0, 0, 0, 255, 255, 255, 255] up, req 0x0909 [15, 0, 0, 0, 255, 255, 255, 255],
      by decide +kernel⟩⟩

theorem witness_CaptureCommandsComplete_4 :
    ∃ (s : State) (r : Req), Accepts windowSpec s r ∧ u32 r.payload 4 < segCount s ∧ u32 r.payload 4 ≠ 0xFFFFFFFF :=
    ⟨ask 0x0909 ([15, 0, 0, 0] ++ le 4 16383) up, req 0x0909 ([15, 0, 0, 0] ++ le 4 16383), by decide +kernel⟩

theorem witness_CaptureEventsComplete_1 :
    (∃ (s : State) (b : ℕ) (n : ℕ) (i : StageItem) (d : Decision) (ret : Bool), staged s b n = some i ∧ i.decided =
      some d ∧ recording (basin s b) = true ∧ basinsRun s = true ∧ waitsBurst s b n = false) ∧
    (∃ (s : State) (t : State) (b : ℕ) (n : ℕ) (i : StageItem) (ret : Bool), basinsRun s = true ∧ t = passDeadline b
      n s ∧ staged t b n = some i ∧ i.decided = none ∧ recording (basin t b) = true ∧ waitsBurst t b n = false) ∧
    (∃ (s : State) (b : ℕ) (n : ℕ) (i : StageItem) (ret : Bool), staged s b n = some i ∧ i.decided.isSome = true ∧
      recording (basin s b) = true ∧ basinsRun s = true ∧ waitsBurst s b n = true) ∧
    (∃ (s : State) (t : State) (b : ℕ) (n : ℕ) (i : StageItem) (ret : Bool), basinsRun s = true ∧ t = passDeadline b
      n s ∧ staged t b n = some i ∧ i.decided = none ∧ recording (basin t b) = true ∧ waitsBurst t b n = true) :=
  ⟨⟨modBasin 3 (fun y => { y with state := 3, buffer := [5, 6], staging := [{ id := 3, decided := some {} }] }) up,
      3, 3, { id := 3, decided := some {} }, {}, true, by decide +kernel⟩,
    ⟨modBasin 3 (fun y => { y with state := 3, buffer := [5, 6], staging := [{ id := 3 }] }) up, passDeadline 3 3
      (modBasin 3 (fun y => { y with state := 3, buffer := [5, 6], staging := [{ id := 3 }] }) up), 3, 3,
      { id := 3 }, true, by decide +kernel, rfl, by decide +kernel, by decide +kernel, by decide +kernel,
      by decide +kernel⟩,
    ⟨modBasin 3 (fun y =>
      { y with state := 3, buffer := [5, 6], staging := [{ id := 3, decided := some {} }], bursts := [{ ids := [2] }, { ids := [3] }] })
      up, 3, 3, { id := 3, decided := some {} }, true, by decide +kernel⟩,
    ⟨modBasin 3 (fun y =>
      { y with state := 3, buffer := [5, 6], staging := [{ id := 3 }], bursts := [{ ids := [2] }, { ids := [3] }] })
      up, passDeadline 3 3 (modBasin 3 (fun y =>
      { y with state := 3, buffer := [5, 6], staging := [{ id := 3 }], bursts := [{ ids := [2] }, { ids := [3] }] })
      up), 3, 3, { id := 3 }, true, by decide +kernel, rfl, by decide +kernel, by decide +kernel, by decide +kernel,
      by decide +kernel⟩⟩

theorem witness_CaptureEventsComplete_2 :
    (∃ (s : State) (b : ℕ), recording (basin s b) = true ∧ basinsRun s = true) ∧
    (∃ (s : State) (b : ℕ), recording (basin s b) = true ∧ basinsRun s = true) ∧
    (∃ (s : State) (b : ℕ), recording (basin s b) = true ∧ basinsRun s = true ∧ lastRoom s b 0 = false) ∧
    (∃ (s : State) (b : ℕ), recording (basin s b) = true ∧ basinsRun s = true ∧ lastRoom s b 0 = true ∧ (basin s
      b).state = 3) :=
  ⟨⟨modBasin 3 (fun y => { y with state := 3, buffer := [5, 6] }) up, 3, by decide +kernel⟩,
    ⟨modBasin 3 (fun y => { y with state := 4 }) up, 3, by decide +kernel⟩,
    ⟨modBasin 3 (fun y => { y with state := 3, buffer := [5, 6] }) up, 3, by decide +kernel⟩,
    ⟨modBasin 3 (fun y =>
      { y with state := 3, buffer := [5], segs := [{ seg := 5, used := 4194240 }], cfg := { y.cfg with stopFull := true } })
      up, 3, by decide +kernel⟩⟩

theorem witness_CaptureEventsComplete_3 :
    (∃ (s : State) (w : ℕ), weirBusy (weir s w) = true ∧ basinsRun s = true) ∧
    (∃ (s : State) (w : ℕ), s.inj.entries = [] ∧ basinsRun s = true ∧ s.pwr.gated = false ∧ (weir s w).fenced =
      false) ∧
    (∃ (s : State) (w : ℕ), s.inj.entries = [] ∧ basinsRun s = true ∧ s.pwr.gated = false ∧ (weir s w).fenced =
      false) :=
  ⟨⟨{ up with cap := { up.cap with weirs := [(7, { item := some {} })] } }, 7, by decide +kernel⟩,
    ⟨up, 7, by decide +kernel⟩,
    ⟨up, 7, by decide +kernel⟩⟩

theorem witness_ExportsComplete_1 :
    (∃ (s : State) (r : Req) (e : ℕ), Accepts capExportSpec s r ∧ mayCapture r (basin s (u8 r.payload 0)) = true ∧
      (basin s (u8 r.payload 0)).state ≠ 0 ∧ (u8 r.payload 1 ≠ 0 ∨ ringRefusal s (u8 r.payload 2) false = none) ∧
      ((List.range 8).find? fun x => (tfind s.cap.exports x).isNone) = some e) ∧
    (∃ (s : State) (r : Req) (x : Export), Accepts exportStopSpec s r ∧ tfind s.cap.exports (u8 r.payload 0) = some
      x ∧ mayChange r x.client = true ∧ inFlight x = false) ∧
    (∃ (s : State) (r : Req) (x : Export), Accepts exportStopSpec s r ∧ tfind s.cap.exports (u8 r.payload 0) = some
      x ∧ mayChange r x.client = true ∧ inFlight x = true) ∧
    (∃ (s : State) (e : ℕ), (tfind s.cap.exports e).isSome = true ∧ basinsRun s = true ∧ channelHalted s (e % 2) e =
      false ∧ inFlight (export_ s e) = true) :=
  ⟨⟨ask 0x0908 ([3, 1, 3, 7, 0, 0, 0, 0] ++ zeros 8 ++ le 2 9600 ++ zeros 6) (modBasin 3 (fun y =>
      { y with state := 5, buffer := [5], segs := [{ seg := 5, used := 128, records := 1, recs := [64] }], nextSeq := 1 })
      up), req 0x0908 ([3, 1, 3, 7, 0, 0, 0, 0] ++ zeros 8 ++ le 2 9600 ++ zeros 6), 0, by decide +kernel⟩,
    ⟨ask 0x090A [7, 0, 0, 0] ({ up with cap := { (up).cap with exports := [(7, { basin := 3, endSeq := 2 })] } }),
      req 0x090A [7, 0, 0, 0], { basin := 3, endSeq := 2 }, by decide +kernel⟩,
    ⟨ask 0x090A [7, 0, 0, 0] ({ up with cap := { (up).cap with exports := [(7, { record := [5] })] } }), req 0x090A
      [7, 0, 0, 0], { record := [5] }, by decide +kernel⟩,
    ⟨{ modBasin 3 (fun y => { y with state := 5, buffer := [5], segs := [{ seg := 5, used := 128, records := 1, recs := [64] }], nextSeq := 1 }) up with cap := { (modBasin 3 (fun y => { y with state := 5, buffer := [5], segs := [{ seg := 5, used := 128, records := 1, recs := [64] }], nextSeq := 1 }) up).cap with exports := [(7, { basin := 3, endSeq := 1, port := true, mtu := 1024, record := [5] })] } },
      7, by decide +kernel⟩⟩

theorem witness_ExportsComplete_2 :
    (∃ (s : State) (e : ℕ), (tfind s.cap.exports e).isSome = true ∧ basinsRun s = true ∧ channelHalted s (e % 2) e =
      false ∧ inFlight (export_ s e) = false ∧ exportLost s (export_ s e) = false ∧ (export_ s e).compress = false ∧
      mayRead e s = true) ∧
    (∃ (s : State) (e : ℕ), (tfind s.cap.exports e).isSome = true ∧ basinsRun s = true ∧ channelHalted s (e % 2) e =
      false ∧ inFlight (export_ s e) = false ∧ exportLost s (export_ s e) = false ∧ (export_ s e).compress = true ∧
      (export_ s e).charged = true ∧ readingOrd s (export_ s e) = some (export_ s e).chargedSeg ∧ exportHas s
      (export_ s e) = true) ∧
    (∃ (s : State) (e : ℕ), (tfind s.cap.exports e).isSome = true ∧ basinsRun s = true ∧ channelHalted s (e % 2) e =
      false ∧ inFlight (export_ s e) = false ∧ (export_ s e).stale = none ∧ exportLost s (export_ s e) = true) ∧
    (∃ (s : State) (e : ℕ) (q : BitVec 32) (i : BitVec 32), (tfind s.cap.exports e).isSome = true ∧ basinsRun s =
      true ∧ channelHalted s (e % 2) e = false ∧ inFlight (export_ s e) = false ∧ (export_ s e).stale = some (q, i)
      ∧ (export_ s e).follow = true ∧ (export_ s e).compress = false) :=
  ⟨⟨{ modBasin 3 (fun y => { y with state := 5, buffer := [5], segs := [{ seg := 5, used := 128, records := 1, recs := [64] }], nextSeq := 1 }) up with cap := { (modBasin 3 (fun y => { y with state := 5, buffer := [5], segs := [{ seg := 5, used := 128, records := 1, recs := [64] }], nextSeq := 1 }) up).cap with exports := [(7, { basin := 3, endSeq := 1, port := true, mtu := 1024 })] } },
      7, by decide +kernel⟩,
    ⟨{ modBasin 3 (fun y => { y with state := 5, buffer := [5], segs := [{ seg := 5, used := 128, records := 1, recs := [64] }], nextSeq := 1 }) up with cap := { (modBasin 3 (fun y => { y with state := 5, buffer := [5], segs := [{ seg := 5, used := 128, records := 1, recs := [64] }], nextSeq := 1 }) up).cap with exports := [(7, { basin := 3, endSeq := 1, port := true, mtu := 1024, compress := true, charged := true })] } },
      7, by decide +kernel⟩,
    ⟨{ modBasin 3 (fun y => { y with state := 5, buffer := [5], nextSeq := 1 }) up with cap := { (modBasin 3 (fun y => { y with state := 5, buffer := [5], nextSeq := 1 }) up).cap with exports := [(7, { basin := 3, endSeq := 1, port := true, mtu := 1024 })] } },
      7, by decide +kernel⟩,
    ⟨{ up with cap := { (up).cap with exports := [(7, { basin := 3, endSeq := 9, stale := some (5, 1), follow := true })] } },
      7, 5, 1, by decide +kernel⟩⟩

theorem witness_ExportsComplete_3 :
    (∃ (s : State) (e : ℕ) (q : BitVec 32) (i : BitVec 32), (tfind s.cap.exports e).isSome = true ∧ basinsRun s =
      true ∧ channelHalted s (e % 2) e = false ∧ inFlight (export_ s e) = false ∧ (export_ s e).stale = some (q, i)
      ∧ (export_ s e).follow = false) ∧
    (∃ (s : State) (e : ℕ), (tfind s.cap.exports e).isSome = true ∧ (export_ s e).holding = true ∧ basinsRun s =
      true) :=
  ⟨⟨{ up with cap := { (up).cap with exports := [(7, { basin := 3, endSeq := 9, stale := some (5, 1) })] } }, 7, 5,
      1, by decide +kernel⟩,
    ⟨{ modBasin 3 (fun y => { y with state := 5, buffer := [5], segs := [{ seg := 5, used := 128, records := 1, recs := [64] }], nextSeq := 1 }) up with cap := { (modBasin 3 (fun y => { y with state := 5, buffer := [5], segs := [{ seg := 5, used := 128, records := 1, recs := [64] }], nextSeq := 1 }) up).cap with exports := [(7, { basin := 3, endSeq := 1, holding := true })] } },
      7, by decide +kernel⟩⟩

theorem witness_JobCommandsComplete_1 :
    (∃ (s : State) (r : Req), Accepts kernelSpec s r ∧ ((kernel s (u8 r.payload 0)).len = 0 ∨ mayChange r (kernel s
      (u8 r.payload 0)).client = true) ∧ kernelBusy s (u8 r.payload 0) = false ∧ u8 r.payload 1 = 0) ∧
    (∃ (s : State) (r : Req), Accepts kernelSpec s r ∧ mayChange r (kernel s (u8 r.payload 0)).client = true ∧
      kernelBusy s (u8 r.payload 0) = false ∧ u8 r.payload 1 = 1 ∧ (kernel s (u8 r.payload 0)).usable = false ∧ u32
      r.payload 4 = (kernel s (u8 r.payload 0)).data.length ∧ (kernel s (u8 r.payload 0)).data.length + u16
      r.payload 2 ≤ (kernel s (u8 r.payload 0)).len) ∧
    (∃ (s : State) (r : Req), Accepts kernelSpec s r ∧ mayChange r (kernel s (u8 r.payload 0)).client = true ∧
      kernelBusy s (u8 r.payload 0) = false ∧ u8 r.payload 1 = 2 ∧ (kernel s (u8 r.payload 0)).bad = none ∧ (kernel
      s (u8 r.payload 0)).len ≠ 0 ∧ (kernel s (u8 r.payload 0)).data.length = (kernel s (u8 r.payload 0)).len ∧
      crc32c (kernel s (u8 r.payload 0)).data = u32 r.payload 4) ∧
    (∃ (s : State) (r : Req) (base : ℕ), Accepts submitSpec s r ∧ (kernel s (u8 r.payload 0)).usable = true ∧
      ((basin s (u8 r.payload 12)).state = 0 ∨ mayChange r (basin s (u8 r.payload 12)).client = true) ∧ ((kernel s
      (u8 r.payload 0)).len = 0 ∨ mayChange r (kernel s (u8 r.payload 0)).client = true) ∧ parterreUsable s (u8
      r.payload 2) = true ∧ (rangeSegs (basin s (u8 r.payload 12)) (u32 r.payload 16) (u32 r.payload 20)).length =
      u32 r.payload 20 - u32 r.payload 16 + 1 ∧ (∀ g ∈ rangeSegs (basin s (u8 r.payload 12)) (u32 r.payload 16) (u32
      r.payload 20), g.closed = true) ∧ s.ast.jobs.length < 512 ∧ (u16 r.payload 14 = 0 ∨ freeRun s (u16 r.payload
      14) = some base)) :=
  ⟨⟨ask 0x0A01 ([15, 0, 0, 0] ++ le 4 49152) up, req 0x0A01 ([15, 0, 0, 0] ++ le 4 49152), by decide +kernel⟩,
    ⟨ask 0x0A01 ([15, 1, 1, 0] ++ le 4 2 ++ [9])
      ({ up with ast := { up.ast with kernels := [(15, { len := 3, data := [1, 2] })] } }), req 0x0A01 ([15, 1, 1,
      0] ++ le 4 2 ++ [9]), by decide +kernel⟩,
    ⟨ask 0x0A01 ([15, 2, 0, 0] ++ le 4 (crc32c [1, 2]))
      ({ up with ast := { up.ast with kernels := [(15, { len := 2, data := [1, 2] })] } }), req 0x0A01 ([15, 2, 0,
      0] ++ le 4 (crc32c [1, 2])), by decide +kernel⟩,
    ⟨ask 0x0A02 ([15, 7, 0xFF, 0] ++ le 4 1 ++ le 4 600000 ++ [3, 0] ++ le 2 0 ++ le 4 0 ++ le 4 0 ++ zeros 40)
      ({ modBasin 3 (fun y => { y with segs := [{ seg := 5, closed := true }] }) up with ast := { up.ast with kernels := [(15, { usable := true })] }, ident := { up.ident with variant := 1 } }),
      req 0x0A02 ([15, 7, 0xFF, 0] ++ le 4 1 ++ le 4 600000 ++ [3, 0] ++ le 2 0 ++ le 4 0 ++ le 4 0 ++ zeros 40), 0,
      by decide +kernel⟩⟩

theorem witness_JobCommandsComplete_2 :
    (∃ (s : State) (r : Req), Accepts submitSpec s r ∧ (((basin s (u8 r.payload 12)).state ≠ 0 ∧ mayChange r (basin
      s (u8 r.payload 12)).client = false) ∨ ((kernel s (u8 r.payload 0)).len ≠ 0 ∧ mayChange r (kernel s (u8
      r.payload 0)).client = false))) ∧
    (∃ (s : State) (r : Req) (j : Job), Accepts jobStatusSpec s r ∧ tfind s.ast.jobs (u32 r.payload 0) = some j) ∧
    (∃ (s : State) (r : Req) (j : Job), Accepts jobCancelSpec s r ∧ tfind s.ast.jobs (u32 r.payload 0) = some j ∧
      mayChange r j.client = true ∧ j.state = 2) ∧
    (∃ (s : State) (r : Req) (j : Job), Accepts jobCancelSpec s r ∧ tfind s.ast.jobs (u32 r.payload 0) = some j ∧
      mayChange r j.client = true ∧ j.state = 1) :=
  ⟨⟨asked (rawOf 9 0x0A02 ([15, 7, 0xFF, 0] ++ le 4 1 ++ le 4 600000 ++ [3, 0] ++ le 2 256 ++ le 4 0 ++ le 4 0 ++
      zeros 40)) (modBasin 3 (fun y => { y with state := 1, client := 1 })
      ({ modBasin 3 (fun y => { y with segs := [{ seg := 5, closed := true }] }) up with ast := { up.ast with kernels := [(15, { usable := true })] }, ident := { up.ident with variant := 1 } })),
      parseReq 0 0 0 (rawOf 9 0x0A02 ([15, 7, 0xFF, 0] ++ le 4 1 ++ le 4 600000 ++ [3, 0] ++ le 2 256 ++ le 4 0 ++
      le 4 0 ++ zeros 40)), by decide +kernel⟩,
    ⟨ask 0x0A03 (le 4 9) ({ up with ast := { up.ast with jobs := [(9, { state := 2 })] } }), req 0x0A03 (le 4 9),
      { state := 2 }, by decide +kernel⟩,
    ⟨ask 0x0A04 (le 4 9) ({ up with ast := { up.ast with jobs := [(9, { state := 2 })] } }), req 0x0A04 (le 4 9),
      { state := 2 }, by decide +kernel⟩,
    ⟨ask 0x0A04 (le 4 9) ({ up with ast := { up.ast with jobs := [(9, { state := 1 })] } }), req 0x0A04 (le 4 9),
      { state := 1 }, by decide +kernel⟩⟩

theorem witness_JobCommandsComplete_3 :
    ∃ (s : State) (r : Req) (j : Job), Accepts jobReleaseSpec s r ∧ tfind s.ast.jobs (u32 r.payload 0) = some j ∧
      mayChange r j.client = true ∧ j.state = 3 :=
    ⟨ask 0x0A05 (le 4 9) ({ up with ast := { up.ast with jobs := [(9, { state := 3 })] } }), req 0x0A05 (le 4 9),
      { state := 3 }, by decide +kernel⟩

theorem witness_CoreEventsComplete_1 :
    (∃ (s : State) (c : ℕ) (b : Bundle) (n : ℕ) (x : Core), activeJob s c = some n ∧ x = (Machine.core s c).landDue
      ∧ x.svcWait = none ∧ x.bundleTrap c b = 0 ∧ x.badMet b = none) ∧
    (∃ (s : State) (c : ℕ) (n : ℕ), serviceOf s c 1 = some n ∧ channelHalted s (parterreOf c) (16 + c) = false ∧
      (job s n).toOrd < (job s n).readOrd) ∧
    (∃ (s : State) (c : ℕ) (n : ℕ) (k : Block) (t : State), serviceOf s c 1 = some n ∧ channelHalted s (parterreOf
      c) (16 + c) = false ∧ nextBlock ((job s n).toOrd + 2 - (job s n).readOrd) n s = (some k, t)) ∧
    (∃ (s : State) (c : ℕ) (n : ℕ), serviceOf s c 2 = some n ∧ channelHalted s (parterreOf c) (16 + c) = false ∧ 0 <
      (argument s c).toNat ∧ (argument s c).toNat ≤ 65536 ∧ stagingBad (Machine.core s c) c (argument s c).toNat =
      none) :=
  ⟨⟨{ up with ast := { up.ast with jobs := [(9, { state := 2, core := 63 })], cores := [(63, { job := some 9,  })] } },
      63, { ls0 := .none, ls1 := .none, m := .none, a := .none }, 9, (Machine.core
      ({ up with ast := { up.ast with jobs := [(9, { state := 2, core := 63 })], cores := [(63, { job := some 9,  })] } })
      63).landDue, by decide +kernel⟩,
    ⟨{ up with ast := { up.ast with jobs := [(9, { state := 2, core := 63, readOrd := 1 })], cores := [(63, { job := some 9, svcWait := some 1 })] } },
      63, 9, by decide +kernel⟩,
    ⟨{ up with ast := { up.ast with jobs := [(9, { state := 2, core := 63, basin := 3, toOrd := 0, pins := [5], input := [{ seg := 5, closed := true, used := 72, recs := [72] }] })], cores := [(63, { job := some 9, svcWait := some 1 })] } },
      63, 9, { ord := 0, data := zeros 8, next := 72 }, (nextBlock 2 9
      ({ up with ast := { up.ast with jobs := [(9, { state := 2, core := 63, basin := 3, toOrd := 0, pins := [5], input := [{ seg := 5, closed := true, used := 72, recs := [72] }] })], cores := [(63, { job := some 9, svcWait := some 1 })] } })).2,
      by decide +kernel⟩,
    ⟨{ up with ast := { up.ast with jobs := [(9, { state := 2, core := 63 })], cores := [(63, { job := some 9, svcWait := some 2, g := [(1, 65536)] })] } },
      63, 9, by decide +kernel⟩⟩

theorem witness_CoreEventsComplete_2 :
    (∃ (s : State) (c : ℕ) (n : ℕ), serviceOf s c 3 = some n) ∧
    (∃ (s : State) (c : ℕ) (n : ℕ), serviceOf s c 4 = some n) ∧
    (∃ (s : State) (c : ℕ) (n : ℕ), activeJob s c = some n) ∧
    (∃ (s : State) (c : ℕ) (n : ℕ), activeJob s c = some n ∧ (Machine.core s c).svcWait = none) :=
  ⟨⟨{ up with ast := { up.ast with jobs := [(9, { state := 2, core := 63 })], cores := [(63, { job := some 9, svcWait := some 3 })] } },
      63, 9, by decide +kernel⟩,
    ⟨{ up with ast := { up.ast with jobs := [(9, { state := 2, core := 63 })], cores := [(63, { job := some 9, svcWait := some 4 })] } },
      63, 9, by decide +kernel⟩,
    ⟨{ up with ast := { up.ast with jobs := [(9, { state := 2, core := 63 })], cores := [(63, { job := some 9,  })] } },
      63, 9, by decide +kernel⟩,
    ⟨{ up with ast := { up.ast with jobs := [(9, { state := 2, core := 63 })], cores := [(63, { job := some 9,  })] } },
      63, 9, by decide +kernel⟩⟩

theorem witness_MemoryCommandsComplete_1 :
    (∃ (s : State) (r : Req), Accepts memConfigSpec s r) ∧
    (∃ (s : State) (r : Req), Accepts memStatusSpec s r ∧ u8 r.payload 1 = 0) ∧
    (∃ (s : State) (r : Req), Accepts memStatusSpec s r ∧ u8 r.payload 1 = 1) ∧
    (∃ (s : State) (r : Req), Accepts sramStatusSpec s r) :=
  ⟨⟨ask 0x0B01 (le 2 168 ++ [1, 0] ++ le 4 65535 ++ le 4 60000 ++ zeros 4) up, req 0x0B01 (le 2 168 ++ [1, 0] ++ le
      4 65535 ++ le 4 60000 ++ zeros 4), by decide +kernel⟩,
    ⟨ask 0x0B02 [3, 0, 0, 0] up, req 0x0B02 [3, 0, 0, 0], by decide +kernel⟩,
    ⟨ask 0x0B02 [3, 1, 0, 0] up, req 0x0B02 [3, 1, 0, 0], by decide +kernel⟩,
    ⟨ask 0x0B03 [1, 0, 0, 0] up, req 0x0B03 [1, 0, 0, 0], by decide +kernel⟩⟩

theorem witness_MemoryCommandsComplete_2 :
    (∃ (s : State) (r : Req), Accepts memFlipSpec s r ∧ u8 r.payload 0 = 0 ∧ instanceOff s (u16 r.payload 2) =
      false) ∧
    (∃ (s : State) (r : Req), Accepts memFlipSpec s r ∧ u8 r.payload 0 = 1 ∧ u8 r.payload 1 < stackTotal s) ∧
    (∃ (s : State) (r : Req), Accepts memFlipSpec s r ∧ u8 r.payload 0 = 2 ∧ u8 r.payload 1 < stackTotal s) ∧
    (∃ (s : State) (r : Req), Accepts fenceListSpec s r) :=
  ⟨⟨ask 0x0B04 ([0, 0] ++ le 2 0x6001 ++ zeros 4 ++ zeros 15 ++ [128]) up, req 0x0B04 ([0, 0] ++ le 2 0x6001 ++
      zeros 4 ++ zeros 15 ++ [128]), by decide +kernel⟩,
    ⟨ask 0x0B04 ([1, 3] ++ zeros 6 ++ zeros 8 ++ [255] ++ zeros 7) up, req 0x0B04 ([1, 3] ++ zeros 6 ++ zeros 8 ++
      [255] ++ zeros 7), by decide +kernel⟩,
    ⟨ask 0x0B04 ([2, 3] ++ zeros 6 ++ [2] ++ zeros 15) up, req 0x0B04 ([2, 3] ++ zeros 6 ++ [2] ++ zeros 15),
      by decide +kernel⟩,
    ⟨ask 0x0B05 (le 4 16383) up, req 0x0B05 (le 4 16383), by decide +kernel⟩⟩

theorem witness_MemoryEventsComplete_1 :
    (∃ (s : State) (n : ℕ), memRuns s n = true ∧ s.mem.scrubOn = true ∧ (stack s n).scrubRead = none) ∧
    (∃ (s : State) (n : ℕ) (blk : ℕ), memRuns s n = true ∧ s.mem.scrubOn = true ∧ (stack s n).scrubRead = some blk) ∧
    (∃ (s : State) (n : ℕ) (k : ℕ) (m : ℕ), memRuns s n = true ∧ m = k + (stack s n).dieCorr) ∧
    (∃ (s : State) (n : ℕ) (v : Bool), memRuns s n = true) :=
  ⟨⟨up, 3, by decide +kernel⟩,
    ⟨{ up with mem := { up.mem with stackTab := [(3, { scrubRead := some 5 })] } }, 3, 5, by decide +kernel⟩,
    ⟨{ up with mem := { up.mem with stackTab := [(3, { dieCorr := 2 })] } }, 3, 7, 9, by decide +kernel⟩,
    ⟨up, 3, true, by decide +kernel⟩⟩

theorem witness_MemoryEventsComplete_2 :
    (∃ (s : State) (n : ℕ), memRuns s n = true) ∧
    (∃ (s : State) (i : ℕ) (a : ℕ), s.inj.entries = [] ∧ s.mem.sramFlip = [] ∧ repairable i = true ∧ cpRuns s = true
      ∧ hasRepair i a = true ∧ i / 0x1000 ≠ 2) ∧
    (∃ (s : State) (i : ℕ) (a : ℕ), s.inj.entries = [] ∧ s.mem.sramFlip = [] ∧ repairable i = true ∧ cpRuns s = true
      ∧ i / 0x1000 = 2) ∧
    (∃ (s : State) (i : ℕ) (a : ℕ), s.inj.entries = [] ∧ (tget 0 s.mem.sramFlip i).toNat ≠ 0 ∧ repairable i = true ∧
      cpRuns s = true ∧ hasRepair i a = true) :=
  ⟨⟨up, 3, by decide +kernel⟩,
    ⟨up, 0x1001, 0x1005, by decide +kernel⟩,
    ⟨up, 0x2000, 65535, by decide +kernel⟩,
    ⟨{ up with mem := { up.mem with sramFlip := [(0x2000, 1)] } }, 0x2000, 65535, by decide +kernel⟩⟩

theorem witness_MemoryEventsComplete_3 :
    (∃ (s : State) (i : ℕ) (a : ℕ) (ok : Bool), repairable i = true ∧ cpRuns s = true ∧ (ok = false ∨ hasRepair i a
      = false)) ∧
    (∃ (s : State) (p : ℕ) (c : ℕ) (h : ℕ × ℕ × ℕ × Bool), (s.mem.halted.find? fun x => x.1 == p && x.2.1 == c) =
      some h ∧ cpRuns s = true) :=
  ⟨⟨up, 0x2000, 5, false, by decide +kernel⟩,
    ⟨{ up with mem := { up.mem with halted := [(1, 31, 4, true)] } }, 1, 31, (1, 31, 4, true), by decide +kernel⟩⟩

theorem witness_KeyCommandsComplete_1 :
    (∃ (s : State) (r : Req) (secret : ℕ) (host : Bytes), Accepts kekSpec s r ∧ secret = Config.drbg s.cip.draws ∧
      host = slice r.payload 0 97) ∧
    (∃ (s : State) (r : Req) (kek : BitVec 256), Accepts keyUnwrapSpec s r ∧ maySlot r s (u16 r.payload 0) = true ∧
      s.cip.kek = some kek ∧ (u16 r.payload 0 < 4096 → lineFixed s (u16 r.payload 0) = true) ∧ (4096 ≤ u16 r.payload
      0 → slotInCapture s (u16 r.payload 0) = false ∧ slotInXfer s (u16 r.payload 0) = false)) ∧
    (∃ (s : State) (r : Req), Accepts keyZeroiseSpec s r ∧ maySlot r s (u16 r.payload 0) = true ∧ slotInCapture s
      (u16 r.payload 0) = false ∧ slotInXfer s (u16 r.payload 0) = false) ∧
    (∃ (s : State) (r : Req), Accepts keyStatusSpec s r) :=
  ⟨⟨ask 0x0C01 ([4] ++ zeros 99) up, req 0x0C01 ([4] ++ zeros 99), Config.drbg 0, [4] ++ zeros 96,
      by decide +kernel, rfl, by decide +kernel⟩,
    ⟨ask 0x0C02 (le 2 4607 ++ [40] ++ zeros 5 ++ le 8 4294967296 ++ zeros 40)
      ({ up with cip := { up.cip with kek := some 7, slots := [(0, {  })] } }), req 0x0C02 (le 2 4607 ++ [40] ++
      zeros 5 ++ le 8 4294967296 ++ zeros 40), 7, by decide +kernel⟩,
    ⟨ask 0x0C03 (le 2 4607 ++ zeros 2)
      ({ up with cip := { up.cip with kek := some 7, slots := [(4607, { state := 1 })] } }), req 0x0C03 (le 2 4607
      ++ zeros 2), by decide +kernel⟩,
    ⟨ask 0x0C04 (le 2 4607 ++ zeros 2) up, req 0x0C04 (le 2 4607 ++ zeros 2), by decide +kernel⟩⟩

theorem witness_KeyCommandsComplete_2 :
    (∃ (s : State) (r : Req), Accepts cipherStatusSpec s r) ∧
    (∃ (s : State), s.inj.entries = [] ∧ s.ctl.devState ≠ .still) ∧
    (∃ (s : State) (n : ℕ), s.inj.entries = [] ∧ s.ctl.devState ≠ .still ∧ n ≠ 0) :=
  ⟨⟨ask 0x0C08 (zeros 4) up, req 0x0C08 (zeros 4), by decide +kernel⟩,
    ⟨up, by decide +kernel⟩,
    ⟨up, 255, by decide +kernel⟩⟩

theorem witness_TransfersComplete_1 :
    (∃ (s : State) (r : Req) (id : ℕ) (x : Xfer), Accepts bundleLoadSpec s r ∧ maySlot r s (u16 r.payload 0) = true
      ∧ (slot s (u16 r.payload 0)).state = 1 ∧ freeXfer s = some id ∧ ringRefusal s (u8 r.payload 2) true = none ∧
      u64 r.payload 8 + u64 r.payload 16 ≤ s.up.poolSegs * segBytes ∧ x =
      { state := 1, kind := 1, slot := u16 r.payload 0, ring := u8 r.payload 2, offset := u64 r.payload 8, length := u64 r.payload 16, iv := slice r.payload 24 12, tag := slice r.payload 40 16, key := (slot s (u16 r.payload 0)).key, first := u64 r.payload 8 / segBytes, cmd := causeOf r }
      ∧ (∀ g ∈ touched x, tget 0 s.up.poolState g ≠ 1 ∧ fenced s g = false)) ∧
    (∃ (s : State) (r : Req) (id : ℕ) (g : Seg), Accepts sealSpec s r ∧ maySlot r s (u16 r.payload 0) = true ∧ (slot
      s (u16 r.payload 0)).state = 1 ∧ freeXfer s = some id ∧ ringRefusal s (u8 r.payload 2) false = none ∧ u8
      r.payload 3 = 0 ∧ ((basin s (u8 r.payload 4)).segs.find? fun y => y.ord == u32 r.payload 8 && y.closed) = some
      g ∧ g.enc = false) ∧
    (∃ (s : State) (r : Req), Accepts xferStatusSpec s r) ∧
    (∃ (s : State) (n : ℕ), s.inj.entries = [] ∧ s.mem.sramFlip = [] ∧ xferRuns s n = true ∧ descCount s (xfer s
      n).ring ≠ 0 ∧ channelHalted s (n % 2) (8 + n) = false ∧ ((xfer s n).kind ≠ 1 ∨ ((xfer s n).eop = false ∧
      loadUsable s (xfer s n) = true))) :=
  ⟨⟨ask 0x0C05 (le 2 4607 ++ [31, 0] ++ le 4 10000 ++ le 8 4194304 ++ le 8 4194304 ++ zeros 32)
      ({ up with cip := { up.cip with slots := [(4607, { state := 1 })] }, rings := { up.rings with rings := [(31, { en := true, dir := true })] }, up := { up.up with poolSegs := 2 } }),
      req 0x0C05 (le 2 4607 ++ [31, 0] ++ le 4 10000 ++ le 8 4194304 ++ le 8 4194304 ++ zeros 32), 0,
      { state := 1, kind := 1, slot := 4607, ring := 31, offset := 4194304, length := 4194304, iv := zeros 12, tag := zeros 16, key := [], first := 1, cmd := some { channel := 0, client := 0, tag := 7 } },
      by decide +kernel⟩,
    ⟨ask 0x0C06 (le 2 4607 ++ [31, 0, 3, 0, 0, 0] ++ le 4 0 ++ le 4 10000)
      ({ modBasin 3 (fun y => { y with state := 5, segs := [{ seg := 5, closed := true }] }) up with cip := { up.cip with slots := [(4607, { state := 1 })] }, rings := { up.rings with rings := [(31, { en := true })] } }),
      req 0x0C06 (le 2 4607 ++ [31, 0, 3, 0, 0, 0] ++ le 4 0 ++ le 4 10000), 0, { seg := 5, closed := true },
      by decide +kernel⟩,
    ⟨ask 0x0C07 [3, 0, 0, 0] up, req 0x0C07 [3, 0, 0, 0], by decide +kernel⟩,
    ⟨{ up with cip := { up.cip with xfers := [(3, { state := 1, kind := 1, ring := 31 })] }, rings := { up.rings with rings := [(31, { en := true, dir := true, log2 := 6, tail := 1 })], hostMem := [(8, 16), (16, 16)] } },
      3, by decide +kernel⟩⟩

theorem witness_TransfersComplete_2 :
    (∃ (s : State) (n : ℕ) (stop : ℕ) (t : State), s.inj.entries = [] ∧ xferRuns s n = true ∧ (xfer s n).kind = 1 ∧
      (xfer s n).eop = true ∧ stop = (xfer s n).offset + (xfer s n).length ∧ t = storeZero [] (stop + (64 - stop %
      64) % 64) ((segBytes - stop % segBytes) % segBytes - (64 - stop % 64) % 64) (narrowWrite stop (zeros ((64 -
      stop % 64) % 64)) s)) ∧
    (∃ (s : State) (n : ℕ), (xfer s n).state = 1 ∧ (xfer s n).filling = true ∧ s.ctl.devState ≠ .still) ∧
    (∃ (s : State) (n : ℕ), xferRuns s n = true ∧ (xfer s n).eop = false ∧ bufferWaits s n = false) :=
  ⟨⟨{ up with cip := { up.cip with xfers := [(3, { state := 1, kind := 1, eop := true, length := 5 })] } }, 3, 5,
      storeZero [] (5 + (64 - 5 % 64) % 64) ((segBytes - 5 % segBytes) % segBytes - (64 - 5 % 64) % 64) (narrowWrite
      5 (zeros ((64 - 5 % 64) % 64))
      ({ up with cip := { up.cip with xfers := [(3, { state := 1, kind := 1, eop := true, length := 5 })] } })),
      by decide +kernel, by decide +kernel, by decide +kernel, by decide +kernel, by decide +kernel, rfl⟩,
    ⟨{ up with cip := { up.cip with xfers := [(3, { state := 1, filling := true })] } }, 3, by decide +kernel⟩,
    ⟨{ up with cip := { up.cip with xfers := [(3, { state := 1 })] } }, 3, by decide +kernel⟩⟩

theorem witness_HostPortCommandsComplete_1 :
    (∃ (s : State) (r : Req), Accepts hostConfigSpec s r ∧ (hport s (u8 r.payload 0)).state = 0) ∧
    (∃ (s : State) (r : Req), Accepts hostStartSpec s r ∧ (hport s (u8 r.payload 0)).state = 0 ∧ inTest (hostLanes
      (u8 r.payload 0)) s = none) ∧
    (∃ (s : State) (n : ℕ), (hport s n).an = true) ∧
    (∃ (s : State) (r : Req), Accepts hostStopSpec s r ∧ (hport s (u8 r.payload 0)).state ≠ 0) :=
  ⟨⟨ask 0x0D01 ([3, 1, 0, 0, 2, 1] ++ le 2 4094 ++ zeros 12 ++ le 4 10000 ++ le 4 1 ++ le 2 10000 ++ zeros 2) up,
      req 0x0D01 ([3, 1, 0, 0, 2, 1] ++ le 2 4094 ++ zeros 12 ++ le 4 10000 ++ le 4 1 ++ le 2 10000 ++ zeros 2),
      by decide +kernel⟩,
    ⟨ask 0x0D02 [3, 0, 0, 0] up, req 0x0D02 [3, 0, 0, 0], by decide +kernel⟩,
    ⟨modHPort 3 (fun y => { y with an := true }) up, 3, by decide +kernel⟩,
    ⟨ask 0x0D03 [3, 0, 0, 0] (modHPort 3 (fun y => { y with state := 2 }) up), req 0x0D03 [3, 0, 0, 0],
      by decide +kernel⟩⟩

theorem witness_HostPortCommandsComplete_2 :
    (∃ (s : State) (r : Req), Accepts hostStatusSpec s r ∧ (hport s (u8 r.payload 0)).state ≠ 1) ∧
    (∃ (s : State) (r : Req), Accepts hostStatusSpec s r ∧ (hport s (u8 r.payload 0)).state = 1) ∧
    (∃ (s : State) (r : Req), Accepts hostCountersSpec s r) ∧
    (∃ (s : State) (r : Req), Accepts hostClassSpec s r) :=
  ⟨⟨ask 0x0D04 [3, 0, 0, 0] up, req 0x0D04 [3, 0, 0, 0], by decide +kernel⟩,
    ⟨ask 0x0D04 [3, 0, 0, 0] (modHPort 3 (fun y => { y with state := 1, an := true }) up), req 0x0D04 [3, 0, 0, 0],
      by decide +kernel⟩,
    ⟨ask 0x0D05 [3, 1, 0, 0] up, req 0x0D05 [3, 1, 0, 0], by decide +kernel⟩,
    ⟨ask 0x0D06 ([3, 7, 0, 0] ++ le 4 100000 ++ le 4 1048576) up, req 0x0D06 ([3, 7, 0, 0] ++ le 4 100000 ++ le 4
      1048576), by decide +kernel⟩⟩

theorem witness_HostPortCommandsComplete_3 :
    (∃ (s : State) (r : Req), Accepts hostSendSpec s r ∧ (hport s (u8 r.payload 0)).state = 2 ∧ classRoom s (u8
      r.payload 0) (u8 r.payload 1) (slice r.payload 8 (u16 r.payload 6)).length = true) ∧
    (∃ (s : State) (r : Req), Accepts hostRecvSpec s r ∧ (hport s (u8 r.payload 0)).rx = []) ∧
    (∃ (s : State) (r : Req) (f : RxFrame) (fs : List RxFrame), Accepts hostRecvSpec s r ∧ (hport s (u8 r.payload
      0)).rx = f :: fs) ∧
    (∃ (s : State) (r : Req), Accepts ptpReadSpec s r ∧ (hport s (u8 r.payload 0)).stamps.find? (fun t => t.id ==
      u16 r.payload 2) = none) :=
  ⟨⟨ask 0x0D07 ([3, 7, 1, 0] ++ le 2 65535 ++ le 2 60 ++ zeros 60) (modHPort 3 (fun y => { y with state := 2 })
      up), req 0x0D07 ([3, 7, 1, 0] ++ le 2 65535 ++ le 2 60 ++ zeros 60), by decide +kernel⟩,
    ⟨ask 0x0D08 [3, 0, 0, 0] up, req 0x0D08 [3, 0, 0, 0], by decide +kernel, rfl⟩,
    ⟨ask 0x0D08 [3, 0, 0, 0] (modHPort 3 (fun y => { y with rx := [{ data := [1] }] }) up), req 0x0D08 [3, 0, 0, 0],
      { data := [1] }, [], by decide +kernel, rfl⟩,
    ⟨ask 0x0D09 [3, 0, 255, 255] up, req 0x0D09 [3, 0, 255, 255], by decide +kernel⟩⟩

theorem witness_HostPortCommandsComplete_4 :
    ∃ (s : State) (r : Req) (t : TxStamp), Accepts ptpReadSpec s r ∧ (hport s (u8 r.payload 0)).stamps.find? (fun t
      => t.id == u16 r.payload 2) = some t ∧ t.sent = true :=
    ⟨ask 0x0D09 [3, 0, 255, 255] (modHPort 3 (fun y => { y with stamps := [{ id := 65535 }] }) up), req 0x0D09 [3,
      0, 255, 255], { id := 65535 }, by decide +kernel⟩

theorem witness_HostPortEventsComplete_1 :
    (∃ (s : State) (t : State) (p : ℕ) (eee : Bool), hostRuns s = true ∧ (hport s p).state = 1 ∧ t = (if (hport s
      p).lt = true then (hostLanes p).foldl (fun x l => trainLane l x) s else s)) ∧
    (∃ (s : State) (p : ℕ) (c : LinkLoss), hostRuns s = true ∧ (hport s p).state = 2) ∧
    (∃ (s : State) (p : ℕ), hostRuns s = true ∧ (hport s p).state = 1) ∧
    (∃ (s : State) (p : ℕ) (bs : Bytes) (room : Bool) (x : State), s.inj.entries = [] ∧ hostRuns s = true ∧ (hport s
      p).state = 2 ∧ 9600 < bs.length + 4 ∧ (∀ l ∈ hostLanes p, (lane s l).hdrLeft = 0 ∧ (lane s l).hdrBad = 0) ∧ x
      = countHost p 14 0 (countHost p 13 0 (wakeRx p s))) :=
  ⟨⟨modHPort 3 (fun y => { y with state := 1, lt := false }) up, modHPort 3 (fun y =>
      { y with state := 1, lt := false }) up, 3, true, by decide +kernel, by decide +kernel, rfl⟩,
    ⟨modHPort 3 (fun y => { y with state := 2 }) up, 3,
      { blockLock := true, localFault := false, remoteFault := false }, by decide +kernel⟩,
    ⟨modHPort 3 (fun y => { y with state := 1 }) up, 3, by decide +kernel⟩,
    ⟨modHPort 3 (fun y => { y with state := 2 }) up, 3, List.replicate 9597 0, true, countHost 3 14 0 (countHost 3
      13 0 (wakeRx 3 (modHPort 3 (fun y => { y with state := 2 }) up))), by decide +kernel⟩⟩

theorem witness_HostPortEventsComplete_2 :
    (∃ (s : State) (p : ℕ) (bs : Bytes) (c : RxCheck) (j : ℕ) (k : ℕ), s.inj.entries = [] ∧ hostRuns s = true ∧
      (hport s p).state = 2 ∧ (∀ l ∈ hostLanes p, (lane s l).hdrLeft = 0 ∧ (lane s l).hdrBad = 0)) ∧
    (∃ (s : State) (p : ℕ) (bs : Bytes) (c : RxCheck) (j : ℕ) (k : ℕ) (i : Bool × State), hostRuns s = true ∧ (hport
      s p).state = 2 ∧ i = lineBlocks p (((bs.length + 31) / 8 + 79) / 80) (((bs.length + 31) / 8 + 3) / 4) (wakeRx
      p s) ∧ i.1 = true) ∧
    (∃ (s : State) (p : ℕ) (c : ℕ) (f : TxFrame) (fs : List TxFrame), hostRuns s = true ∧ (hport s p).state = 2 ∧
      readyClass s p = some c ∧ (hclass s p c).queue = f :: fs ∧ f.stamp = none) ∧
    (∃ (s : State) (p : ℕ) (c : ℕ) (f : TxFrame) (fs : List TxFrame) (id : ℕ), hostRuns s = true ∧ (hport s p).state
      = 2 ∧ readyClass s p = some c ∧ (hclass s p c).queue = f :: fs ∧ f.stamp = some id) :=
  ⟨⟨modHPort 3 (fun y => { y with state := 2 }) up, 3, zeros 60, { fcsOk := false, room := true }, 1, 0,
      by decide +kernel⟩,
    ⟨modLane 0x8F (fun z => { z with hdrBad := 64, hdrLeft := 1, hdrBlocks := 99 }) (modHPort 3 (fun y =>
      { y with state := 2 }) up), 3, zeros 60, { fcsOk := true, room := true }, 0, 0, lineBlocks 3 ((((zeros
      60).length + 31) / 8 + 79) / 80) ((((zeros 60).length + 31) / 8 + 3) / 4) (wakeRx 3 (modLane 0x8F (fun z =>
      { z with hdrBad := 64, hdrLeft := 1, hdrBlocks := 99 }) (modHPort 3 (fun y => { y with state := 2 }) up))),
      by decide +kernel⟩,
    ⟨modHPort 3 (fun y => { y with state := 2, classes := [(7, { queue := [{ data := zeros 60 }] })] }) up, 3, 7,
      { data := zeros 60 }, [], by decide +kernel⟩,
    ⟨modHPort 3 (fun y =>
      { y with state := 2, classes := [(7, { queue := [{ stamp := some 9, data := zeros 60 }] })] }) up, 3, 7,
      { stamp := some 9, data := zeros 60 }, [], 9, by decide +kernel⟩⟩

theorem witness_HostPortEventsComplete_3 :
    (∃ (s : State) (p : ℕ) (c : ℕ), (hport s p).pauseMode ≠ 1 ∧ (hclass s p c).paused = true) ∧
    (∃ (s : State) (p : ℕ) (c : ℕ), ((pauseClasses s p c).any fun k => (hclass s p k).paused) = true) ∧
    (∃ (s : State) (p : ℕ) (c : ℕ), (hport s p).pauseMode ≠ 1 ∧ (hclass s p c).hold = true) ∧
    (∃ (s : State) (p : ℕ), hostRuns s = true ∧ (hport s p).state = 2 ∧ (hport s p).eeeNeg = true ∧ (hport s
      p).lpiTx ≠ 0 ∧ readyClass s p = none ∧ (lane s (0x80 + 4 * p)).lpiTx = false) :=
  ⟨⟨modHPort 3 (fun y => { y with pauseMode := 2, classes := [(7, { paused := true })] }) up, 3, 7,
      by decide +kernel⟩,
    ⟨modHPort 3 (fun y => { y with classes := [(7, { paused := true })] }) up, 3, 7, by decide +kernel⟩,
    ⟨modHPort 3 (fun y => { y with pauseMode := 2, classes := [(7, { hold := true })] }) up, 3, 7,
      by decide +kernel⟩,
    ⟨modHPort 3 (fun y => { y with state := 2, eeeNeg := true, lpiTx := 1 }) up, 3, by decide +kernel⟩⟩

theorem witness_HostPortEventsComplete_4 :
    (∃ (s : State) (p : ℕ), hostRuns s = true ∧ (hport s p).state = 2 ∧ (hport s p).eeeNeg = true ∧ (hport s
      p).lpiRx ≠ 0) ∧
    (∃ (s : State) (p : ℕ), hostRuns s = true ∧ (hport s p).state = 2 ∧ (hport s p).eeeNeg = true) ∧
    (∃ (s : State) (p : ℕ) (on : Bool), hostRuns s = true ∧ (hport s p).state = 2 ∧ (hport s p).eeeNeg = true ∧
      (hport s p).lpiTx = 2) ∧
    (∃ (s : State) (l : ℕ) (on : Bool), (lane s l).lpiTx = true) :=
  ⟨⟨modHPort 3 (fun y => { y with state := 2, eeeNeg := true, lpiRx := 2 }) up, 3, by decide +kernel⟩,
    ⟨modHPort 3 (fun y => { y with state := 2, eeeNeg := true }) up, 3, by decide +kernel⟩,
    ⟨modHPort 3 (fun y => { y with state := 2, eeeNeg := true, lpiTx := 2 }) up, 3, true, by decide +kernel⟩,
    ⟨modLane 0x8F (fun z => { z with lpiTx := true }) up, 0x8F, true, by decide +kernel⟩⟩

theorem witness_HostPortEventsComplete_5 :
    (∃ (s : State) (p : ℕ) (on : Bool), hostRuns s = true ∧ (hport s p).state = 2 ∧ (hport s p).eeeNeg = true ∧
      (hport s p).lpiRx = 2) ∧
    (∃ (s : State) (l : ℕ), (lane s l).lpiRx = true) :=
  ⟨⟨modHPort 3 (fun y => { y with state := 2, eeeNeg := true, lpiRx := 2 }) up, 3, false, by decide +kernel⟩,
    ⟨modLane 0x8F (fun z => { z with lpiRx := true }) up, 0x8F, by decide +kernel⟩⟩

theorem witness_ChassisBusCompletes_1 :
    (∃ (s : State) (r : Req), Accepts chassisConfigSpec s r) ∧
    (∃ (s : State) (r : Req), Accepts chassisSendSpec s r ∧ s.net.chassis.enable = true ∧ s.net.chassis.queue.length
      < 16) ∧
    (∃ (s : State) (r : Req), Accepts chassisStatusSpec s r) ∧
    (∃ (s : State) (bs : Bytes) (f : ChassisRx), s.net.chassis.enable = true ∧ parseChassis s bs = some f ∧
      s.ctl.devState ≠ .still) :=
  ⟨⟨ask 0x0D0A ([1, 1] ++ le 2 65535 ++ le 2 65535 ++ le 2 60000 ++ zeros 6 ++ le 2 3600 ++ le 2 1000 ++ zeros 6)
      up, req 0x0D0A ([1, 1] ++ le 2 65535 ++ le 2 65535 ++ le 2 60000 ++ zeros 6 ++ le 2 3600 ++ le 2 1000 ++ zeros
      6), by decide +kernel⟩,
    ⟨ask 0x0D0B [1, 15, 0, 0, 1, 2, 3, 4] (modChassis (fun c => { c with enable := true }) up), req 0x0D0B [1, 15,
      0, 0, 1, 2, 3, 4], by decide +kernel⟩,
    ⟨ask 0x0D0C [31, 0, 0, 0] up, req 0x0D0C [31, 0, 0, 0], by decide +kernel⟩,
    ⟨modChassis (fun c => { c with enable := true }) up, zeros 12 ++ be 2 0x88B5 ++ [1, 1, 15] ++ zeros 5 ++ le 8 9
      ++ zeros 30, { kind := 1, trigger := 15, arg := 0, identity := 9, origin := 0, seq := 0 }, by decide +kernel,
      rfl, by decide +kernel⟩⟩

theorem witness_ChassisBusCompletes_2 :
    (∃ (s : State) (bs : Bytes) (f : ChassisRx), s.net.chassis.enable = true ∧ parseChassis s bs = some f ∧
      s.ctl.devState = .still) ∧
    (∃ (s : State) (f : ChFrame) (fs : List ChFrame), s.net.chassis.queue = f :: fs ∧ s.net.chassis.enable = true ∧
      s.net.chassis.sending = false ∧ s.net.chassis.backoff = none) ∧
    (∃ (s : State) (f : ChFrame) (fs : List ChFrame), s.net.chassis.queue = f :: fs ∧ s.net.chassis.enable = true ∧
      s.net.chassis.sending = false ∧ s.net.chassis.backoff = none) ∧
    (∃ (s : State) (f : ChFrame) (fs : List ChFrame), s.net.chassis.queue = f :: fs ∧ s.net.chassis.sending = true ∧
      f.attempts + 1 < 16) :=
  ⟨⟨modChassis (fun c => { c with enable := true }) (inState .still), zeros 12 ++ be 2 0x88B5 ++ [1, 1, 15] ++
      zeros 5 ++ le 8 9 ++ zeros 30, { kind := 1, trigger := 15, arg := 0, identity := 9, origin := 0, seq := 0 },
      by decide +kernel, rfl, by decide +kernel⟩,
    ⟨modChassis (fun c => { c with enable := true, queue := [{ kind := 2 }] }) up, { kind := 2 }, [],
      by decide +kernel⟩,
    ⟨modChassis (fun c => { c with enable := true, queue := [{ kind := 2 }] }) up, { kind := 2 }, [],
      by decide +kernel⟩,
    ⟨modChassis (fun c => { c with enable := true, sending := true, queue := [{ kind := 2, attempts := 14 }] }) up,
      { kind := 2, attempts := 14 }, [], by decide +kernel⟩⟩

theorem witness_ChassisBusCompletes_3 :
    (∃ (s : State) (d : ℕ), s.net.chassis.backoff = some d) ∧
    (∃ (s : State) (f : ChFrame) (fs : List ChFrame), s.net.chassis.queue = f :: fs ∧ s.net.chassis.sending = false) ∧
    (∃ (s : State) (id : BitVec 64), (s.net.chassis.peers.any fun p => p.identity == id) = true) ∧
    (∃ (s : State), s.net.chassis.enable = true ∧ s.net.chassis.markMs ≠ 0 ∧ s.net.chassis.queue.length < 16) :=
  ⟨⟨modChassis (fun c => { c with backoff := some 1023 }) up, 1023, by decide +kernel⟩,
    ⟨modChassis (fun c => { c with queue := [{ kind := 2 }] }) up, { kind := 2 }, [], by decide +kernel⟩,
    ⟨modChassis (fun c => { c with peers := [{ identity := 9 }] }) up, 9, by decide +kernel⟩,
    ⟨modChassis (fun c => { c with enable := true }) up, by decide +kernel⟩⟩

theorem witness_PowerCommandsComplete_1 :
    (∃ (s : State) (r : Req), Accepts powerStateSpec s r ∧ u8 r.payload 0 = 1 ∧ s.ctl.devState = .run ∧
      hushForbidden s = false) ∧
    (∃ (s : State) (r : Req), Accepts powerStateSpec s r ∧ u8 r.payload 0 = 2 ∧ stillRefusal s = none) ∧
    (∃ (s : State) (r : Req) (e : Entry), Accepts powerStateSpec s r ∧ u8 r.payload 0 = 0 ∧ s.ctl.devState = .hush ∧
      (exitHush 7 0 (causeOf r) (takeUp r s)).pwr.entry = some e) ∧
    (∃ (s : State) (r : Req), Accepts powerBudgetSetSpec s r) :=
  ⟨⟨ask 0x0E01 ([1, 0] ++ le 2 255 ++ le 4 86400000 ++ zeros 8) up, req 0x0E01 ([1, 0] ++ le 2 255 ++ le 4 86400000
      ++ zeros 8), by decide +kernel⟩,
    ⟨ask 0x0E01 ([2] ++ zeros 15) up, req 0x0E01 ([2] ++ zeros 15), by decide +kernel⟩,
    ⟨ask 0x0E01 (zeros 16) ({ inState .hush with clk := { up.clk with point := 0 } }), req 0x0E01 (zeros 16),
      { target := 0, fromSt := .hush, waitStep := true, cause := causeOf (req 0x0E01 (zeros 16)) },
      by decide +kernel⟩,
    ⟨ask 0x0E02 (le 4 20000 ++ [105, 0, 0, 0]) up, req 0x0E02 (le 4 20000 ++ [105, 0, 0, 0]), by decide +kernel⟩⟩

theorem witness_PowerCommandsComplete_2 :
    ∃ (s : State) (r : Req), Accepts powerStatusSpec s r :=
    ⟨ask 0x0E03 (zeros 4) up, req 0x0E03 (zeros 4), by decide +kernel⟩

theorem witness_PowerEventsComplete_1 :
    (∃ (s : State) (i : ℕ) (e : Entry), s.pwr.entry = some e ∧ e.target = 2 ∧ stillOrder[e.stopped.length]? = some i
      ∧ i ≠ 10 ∧ (i = 3 → s.cls.items = []) ∧ stillRefusal s = none) ∧
    (∃ (s : State) (e : Entry), s.pwr.entry = some e ∧ e.target = 2 ∧ e.stopped.length = 9 ∧ stillRefusal s = none) ∧
    (∃ (s : State) (i : ℕ) (e : Entry), s.pwr.entry = some e ∧ gateAsked e i = true ∧ i ≠ 2) ∧
    (∃ (s : State), s.pwr.timerMs ≠ 0 ∧ s.ctl.devState = .still ∧ aonRuns s = true ∧ s.pwr.latched = none ∧ bit
      s.pwr.wakeMask 6 = true) :=
  ⟨⟨{ up with pwr := { (up).pwr with entry := some { target := 2, stopped := [3, 5, 6, 4, 1, 2] } } }, 7,
      { target := 2, stopped := [3, 5, 6, 4, 1, 2] }, by decide +kernel⟩,
    ⟨{ up with pwr := { (up).pwr with entry := some { target := 2, stopped := [9, 8, 7, 3, 5, 6, 4, 1, 2] } } },
      { target := 2, stopped := [9, 8, 7, 3, 5, 6, 4, 1, 2] }, by decide +kernel⟩,
    ⟨{ up with pwr := { (up).pwr with entry := some { target := 2, stopped := [3, 5, 6, 4, 1, 2] } } }, 7,
      { target := 2, stopped := [3, 5, 6, 4, 1, 2] }, by decide +kernel⟩,
    ⟨{ inState .still with pwr := { (inState .still).pwr with wakeMask := 64, timerMs := 1 } }, by decide +kernel⟩⟩

theorem witness_PowerEventsComplete_2 :
    (∃ (s : State), s.ctl.devState = .still ∧ aonRuns s = true ∧ s.pwr.latched = none) ∧
    (∃ (s : State) (ns : ℕ) (l : ℕ × ℕ), s.ctl.devState = .still ∧ s.pwr.latched = some l) ∧
    (∃ (s : State) (uj : ℕ), cpRuns s = true ∧ s.pwr.stalled = false ∧ s.pwr.waited = false ∧ s.pwr.pendBudget =
      none) ∧
    (∃ (s : State) (uj : ℕ), cpRuns s = true ∧ (s.pwr.stalled = true ∨ s.pwr.waited = true)) :=
  ⟨⟨inState .still, by decide +kernel⟩,
    ⟨{ inState .still with pwr := { (inState .still).pwr with latched := some (1, 0) } }, 5, (1, 0),
      by decide +kernel⟩,
    ⟨up, 5, by decide +kernel⟩,
    ⟨{ up with pwr := { up.pwr with waited := true } }, 5, by decide +kernel⟩⟩

theorem witness_PowerEventsComplete_3 :
    ∃ (s : State) (ts : List ℤ), s.inj.entries = [] ∧ aonRuns s = true ∧ ts.length = 8 ∧ s.pwr.ceilHit = false ∧
      s.pwr.hot = false ∧ s.pwr.trip = false ∧ s.pwr.ceilingC ≤ 110 ∧ (∀ t ∈ ts, t < (s.pwr.ceilingC : Int) * 16) :=
    ⟨up, [1599, 0, 0, 0, 0, 0, 0, -16], by decide +kernel⟩

theorem witness_StepTakesTheFrontCommand :
    (∃ (s : State) (c : Instr) (rest : List Instr), s.pending = c :: rest) ∧
    (∃ (s : State), s.pending = []) ∧
    (∃ (s : State), timeRuns s = true) ∧
    (∃ (s : State), timeRuns s = false) :=
  ⟨⟨{ up with pending := [.nop] }, .nop, [], by decide +kernel⟩,
    ⟨up, by decide +kernel⟩,
    ⟨up, by decide +kernel⟩,
    ⟨{ State.reset with boot := { State.reset.boot with pllLocked := false } }, by decide +kernel⟩⟩

theorem witness_QueueAndIdentityKept :
    ∃ (i : Instr) (s : State) (t : State), exec i s = .next t :=
    ⟨.nop, up, up, rfl⟩

theorem witness_MemoriesStayCanonical :
    ∃ (s : State) (t : State), Mems s ∧ step s = .next t :=
    ⟨up, tick up, by unfold Mems; decide +kernel, rfl⟩

theorem witness_MeasurementsLockedUntilReset :
    (∃ (i : Instr) (s : State) (t : State), isReset i = false ∧ exec i s = .next t) ∧
    (∃ (i : ℕ) (trial : Bool) (s : State) (k : ℕ), k < 4) :=
  ⟨⟨.nop, up, up, by decide +kernel, rfl⟩,
    ⟨0, false, up, 3, by decide +kernel⟩⟩

theorem witness_FaultLeftOnlyByReset :
    ∃ (i : Instr) (s : State) (t : State), FaultIdle s ∧ isReset i = false ∧ exec i s = .next t :=
    ⟨.nop, inState .fault, inState .fault, by unfold FaultIdle; decide +kernel, by decide +kernel, rfl⟩

theorem witness_FirstFailedCheckDecides_1 :
    (∃ (i : Instr) (c : CmdSpec) (s : State) (r : Req) (st : ℕ), specOf i = some c ∧ nextReq s = some r ∧ r.opcode =
      c.op ∧ injIndex 0x14 r.ch s = none ∧ firstFailure c false r (noteChecksum false r (takeUp r s)) = some st) ∧
    (∃ (c : CmdSpec) (r : Req) (s : State), headerOk false r = false) ∧
    (∃ (c : CmdSpec) (r : Req) (s : State), headerOk false r = true ∧ bindOk s r = false) ∧
    (∃ (c : CmdSpec) (r : Req) (s : State), headerOk false r = true ∧ bindOk s r = true ∧ r.ch = 16 ∧ c.smb = false) :=
  ⟨⟨.nop, nopSpec, ask 0x0000 [1] up, req 0x0000 [1], stBadParam, rfl, rfl, by decide +kernel, by decide +kernel,
      by decide +kernel⟩,
    ⟨nopSpec, { req 0x0000 [] with flags := 2 }, up, by decide +kernel⟩,
    ⟨nopSpec, req 0x0000 [], bound, by decide +kernel⟩,
    ⟨clockSetSpec, smbReq, up, by decide +kernel⟩⟩

theorem witness_FirstFailedCheckDecides_2 :
    (∃ (c : CmdSpec) (r : Req) (s : State), headerOk false r = true ∧ bindOk s r = true ∧ (r.ch ≠ 16 ∨ c.smb = true)
      ∧ c.priv = true ∧ r.client ≠ 0) ∧
    (∃ (c : CmdSpec) (r : Req) (s : State), headerOk false r = true ∧ bindOk s r = true ∧ (r.ch ≠ 16 ∨ c.smb = true)
      ∧ (c.priv = false ∨ r.client = 0) ∧ c.legal s.ctl.devState = false) ∧
    (∃ (c : CmdSpec) (r : Req) (s : State), headerOk false r = true ∧ bindOk s r = true ∧ (r.ch ≠ 16 ∨ c.smb = true)
      ∧ (c.priv = false ∨ r.client = 0) ∧ c.legal s.ctl.devState = true ∧ c.form r.payload = false) :=
  ⟨⟨deviceStopSpec, parseReq 0 0 0 (rawOf 1 0x0003 []), up, by decide +kernel⟩,
    ⟨clockSetSpec, req 0x0207 [], up, by decide +kernel⟩,
    ⟨nopSpec, req 0x0000 [1], up, by decide +kernel⟩⟩

theorem witness_MalformedRequestsRefused_1 :
    (∃ (i : Instr) (c : CmdSpec) (s : State) (r : Req), specOf i = some c ∧ nextReq s = some r ∧ r.opcode = c.op ∧
      injIndex 0x14 r.ch s = none ∧ (r.sum ≠ crc32c (r.head ++ zeros 4 ++ r.payload) ∨ 240 < r.len ∨ r.resv ≠ 0 ∨
      r.flags / 2 ≠ 0)) ∧
    (∃ (s : State) (r : Req), nextReq s = some r ∧ assigned r.opcode = false ∧ injIndex 0x14 r.ch s = none ∧ (r.sum
      ≠ crc32c (r.head ++ zeros 4 ++ r.payload) ∨ 240 < r.len ∨ r.resv ≠ 0 ∨ r.flags / 2 ≠ 0)) ∧
    (∃ (i : Instr) (c : CmdSpec) (s : State) (r : Req) (p : Word) (x : State), specOf i = some c ∧ nextReq s = some
      r ∧ r.opcode = c.op ∧ occurrence 0x14 r.ch s = (some p, x)) ∧
    (∃ (bad : Bool) (s : State) (r : Req), r.ch ≠ 16 ∧ (bad = true ∨ r.sum ≠ crc32c (r.head ++ zeros 4 ++
      r.payload))) :=
  ⟨⟨.nop, nopSpec, askBad 0x0000 up, reqBad 0x0000, rfl, rfl, by decide +kernel, by decide +kernel,
      by decide +kernel⟩,
    ⟨askBad 0x0FFF up, reqBad 0x0FFF, rfl, by decide +kernel, by decide +kernel, by decide +kernel⟩,
    ⟨.nop, nopSpec, injected, req 0x0000 [], 0, (occurrence 0x14 0 injected).2, rfl, rfl, by decide +kernel,
      by decide +kernel⟩,
    ⟨false, up, reqBad 0x0000, by decide +kernel⟩⟩

theorem witness_MalformedRequestsRefused_2 :
    ∃ (s : State) (r : Req), r.sum = crc32c (r.head ++ zeros 4 ++ r.payload) :=
    ⟨up, req 0x0000 [], by decide +kernel⟩

theorem witness_BindingRestrainsClients :
    (∃ (i : Instr) (c : CmdSpec) (s : State) (r : Req), specOf i = some c ∧ nextReq s = some r ∧ r.opcode = c.op ∧
      injIndex 0x14 r.ch s = none ∧ headerOk false r = true ∧ r.ch ≠ 16 ∧ (chan s r.ch).bound = true ∧ r.client ≠
      (chan s r.ch).bindClient) ∧
    (∃ (s : State) (r : Req), nextReq s = some r ∧ assigned r.opcode = false ∧ injIndex 0x14 r.ch s = none ∧
      headerOk false r = true ∧ r.ch ≠ 16 ∧ (chan s r.ch).bound = true ∧ r.client ≠ (chan s r.ch).bindClient) ∧
    (∃ (c : CmdSpec) (s : State) (r : Req), headerOk false r = true ∧ (chan s r.ch).bound = false ∧ (r.ch ≠ 16 ∨
      c.smb = true) ∧ (c.priv = false ∨ r.client = 0) ∧ c.legal s.ctl.devState = true ∧ c.form r.payload = true) :=
  ⟨⟨.nop, nopSpec, modChan 0 (fun c => { c with bound := true, bindClient := 255 }) (ask 0x0000 [] up), req 0x0000
      [], rfl, rfl, by decide +kernel, by decide +kernel, by decide +kernel, by decide +kernel, by decide +kernel,
      by decide +kernel⟩,
    ⟨modChan 0 (fun c => { c with bound := true, bindClient := 255 }) (ask 0x0FFF [] up), req 0x0FFF [], rfl,
      by decide +kernel, by decide +kernel, by decide +kernel, by decide +kernel, by decide +kernel,
      by decide +kernel⟩,
    ⟨nopSpec, up, req 0x0000 [], by decide +kernel⟩⟩

theorem witness_BootAndStillServeNothing :
    (∃ (i : Instr) (c : CmdSpec) (s : State), specOf i = some c ∧ (s.ctl.devState = .boot ∨ s.ctl.devState =
      .still)) ∧
    (∃ (s : State), (s.ctl.devState = .boot ∨ s.ctl.devState = .still)) :=
  ⟨⟨.nop, nopSpec, State.reset, rfl, by decide +kernel⟩,
    ⟨inState .still, by decide +kernel⟩⟩

theorem witness_RequestSlotWritableOnlyWhileFree :
    (∃ (s : State) (t : State) (ch : ℕ) (off : ℕ) (data : Bytes), aonRuns s = true ∧ s.ctl.devState ≠ .still ∧ ch <
      16 ∧ off < 0x400 ∧ slotAccess off data = true ∧ exec (.requestSlotWrite ch off data) s = .next t) ∧
    (∃ (s : State) (t : State) (ch : ℕ) (off : ℕ) (data : Bytes) (ch' : ℕ) (slot : ℕ), exec (.requestSlotWrite ch
      off data) s = .next t ∧ ch' < 16 ∧ slot < 4 ∧ (chan s ch').slots.getD slot .free ≠ .free) :=
  ⟨⟨up, slotWrite 15 0x3F8 (zeros 8) up, 15, 0x3F8, zeros 8, by decide +kernel, by decide +kernel,
      by decide +kernel, by decide +kernel, by decide +kernel, rfl⟩,
    ⟨modChan 3 (fun c => { c with slots := [.free, .done, .free, .free] }) up, slotWrite 3 0x1FC (zeros 4) (modChan
      3 (fun c => { c with slots := [.free, .done, .free, .free] }) up), 3, 0x1FC, zeros 4, 3, 1, rfl,
      by decide +kernel, by decide +kernel, by decide +kernel⟩⟩

theorem witness_DoorbellSubmitsFreeSlots :
    ∃ (s : State) (t : State) (ch : ℕ) (v : BitVec 32), aonRuns s = true ∧ s.ctl.devState ≠ .still ∧ s.ctl.devState
      ≠ .hush ∧ ch < 16 ∧ (chan s ch).slots.length = 4 ∧ exec (.doorbellWrite ch v) s = .next t :=
    ⟨up, ringBell 15 0xF up, 15, 0xF, by decide +kernel, by decide +kernel, by decide +kernel, by decide +kernel,
      by decide +kernel, rfl⟩

theorem witness_ServingChangesOnlyMailboxes :
    (∃ (r : Req) (st : ℕ) (p : Bytes) (s : State) (n : ℕ), n ≠ r.ch) ∧
    (∃ (r : Req) (st : ℕ) (p : Bytes) (s : State), r.ch ≠ 16 ∧ r.slot < (chan s r.ch).slots.length) ∧
    (∃ (r : Req) (st : ℕ) (p : Bytes) (s : State), r.ch = 16) :=
  ⟨⟨req 0x0000 [], 0, [], up, 1, by decide +kernel⟩,
    ⟨{ req 0x0000 [] with slot := 3 }, 0, [], up, by decide +kernel⟩,
    ⟨smbReq, 0, [], up, by decide +kernel⟩⟩

theorem witness_EventRingWritesOrCounts :
    (∃ (e : Event) (s : State), e.code ≠ 0x0002 ∧ (ring s 0).en = false) ∧
    (∃ (e : Event) (s : State), e.code ≠ 0x0002 ∧ (ring s 0).en = true ∧ ((ring s 0).head + 1) % 1024 = (ring s
      0).tail) ∧
    (∃ (e : Event) (s : State), (ring s 0).en = true ∧ ((ring s 0).head + 1) % 1024 ≠ (ring s 0).tail ∧
      s.rings.unreported = 0 ∧ s.rings.held = none) ∧
    (∃ (e : Event) (s : State), (ring s 0).en = true ∧ ((ring s 0).head + 1) % 1024 ≠ (ring s 0).tail ∧ (((ring s
      0).head + 1) % 1024 + 1) % 1024 ≠ (ring s 0).tail ∧ s.rings.unreported ≠ 0 ∧ s.rings.held = none) :=
  ⟨⟨{ code := 3 }, up, by decide +kernel⟩,
    ⟨{ code := 3 }, modRing 0 (fun r => { r with en := true, head := 1023 }) up, by decide +kernel⟩,
    ⟨{ code := 3 }, modRing 0 (fun r => { r with en := true, head := 1022 }) up, by decide +kernel⟩,
    ⟨{ code := 3 },
      { modRing 0 (fun r => { r with en := true, head := 1021 }) up with rings := { (modRing 0 (fun r => { r with en := true, head := 1021 }) up).rings with unreported := 3 } },
      by decide +kernel⟩⟩

theorem witness_EventsWriteOnlyTheirRing :
    (∃ (code : ℕ) (obj : ℕ) (args : Bytes) (cause : Option Cause) (s : State) (a : ℕ), (ring s 0).head < 1024 ∧ (a <
      ringAddr s 0 0 64 ∨ ringAddr s 0 1024 64 ≤ a)) ∧
    (∃ (code : ℕ) (obj : ℕ) (args : Bytes) (cause : Option Cause) (s : State) (n : ℕ), n ≠ 0) :=
  ⟨⟨3, 0, [], none, modRing 0 (fun r => { r with en := true, head := 1023 }) up, 65536, by decide +kernel⟩,
    ⟨3, 0, [], none, up, 31, by decide +kernel⟩⟩

theorem witness_StoreReadsBackWhatWasWritten :
    ∃ (key : List Byte) (a : ℕ) (bs : Bytes) (s : State), s.cap.undef = [] ∧ (key ≠ [] ∨ s.cap.unitKey = []) :=
    ⟨[], 64, zeros 64, up, by decide +kernel⟩

end Sys2Proof.Tests
end

section
/-!
PROOFS. The hunters (R166 to R170) where no injection is armed: what a PSync match, a candidate's position and a position
in SYNC do, each case said once, and from these the completion of the hunters' events.
-/
namespace Sys2Proof.Machine

/-! ### States that differ in the framing part alone -/

/-- The second state is the first but for the planes, hunters, defects, engines and drawn injections. -/
def OnlyFraming (s t : State) : Prop := ∃ x, t = { s with fr := x }

theorem OnlyFraming.eq {s t : State} (h : OnlyFraming s t) : t = { s with fr := t.fr } := by
  obtain ⟨x, rfl⟩ := h
  rfl

theorem OnlyFraming.modHunter {s t : State} (h : OnlyFraming s t) (k : Nat) (f : Hunter → Hunter) :
    OnlyFraming s (modHunter k f t) := by
  obtain ⟨x, rfl⟩ := h
  exact ⟨_, rfl⟩

theorem OnlyFraming.countHunter {s t : State} (h : OnlyFraming s t) (k off n : Nat) :
    OnlyFraming s (countHunter k off n t) := by
  obtain ⟨x, rfl⟩ := h
  unfold Machine.countHunter
  split
  · exact ⟨_, rfl⟩
  · exact ⟨_, rfl⟩

theorem OnlyFraming.cycles {s t : State} (h : OnlyFraming s t) : t.time.cycles = s.time.cycles := by
  obtain ⟨x, rfl⟩ := h
  rfl

/-! ### Counters of a hunter (R189) -/

/-- A counter of a plane changes nothing else of a plane. -/
theorem plane_countPlane (p off n q : Nat) (s : State) :
    ∃ c, plane (countPlane p off n s) q = { plane s q with cnt := c } := by
  unfold countPlane
  rw [plane_modPlane]
  split
  · next h => subst h; exact ⟨_, rfl⟩
  · exact ⟨_, rfl⟩

theorem countHunter_active {k : Nat} {s : State} (h : isActive s k = true) (off n : Nat) :
    countHunter k off n s = countPlane (hunterPlane k) off n s := if_pos h

theorem countHunter_inactive {k : Nat} {s : State} (h : isActive s k = false) (off n : Nat) :
    countHunter k off n s = s := by
  unfold countHunter
  rw [h]
  rfl

@[simp] theorem hunters_countHunter (k off n : Nat) (s : State) :
    (countHunter k off n s).fr.hunters = s.fr.hunters := by
  unfold countHunter
  split
  · rfl
  · rfl

/-- A hunter's counter changes nothing else of a plane. -/
theorem plane_countHunter (k off n q : Nat) (s : State) :
    ∃ c, plane (countHunter k off n s) q = { plane s q with cnt := c } := by
  unfold countHunter
  split
  · exact plane_countPlane ..
  · exact ⟨_, rfl⟩

@[simp] theorem plane_state_countHunter (k off n q : Nat) (s : State) :
    (plane (countHunter k off n s) q).state = (plane s q).state := by
  obtain ⟨c, h⟩ := plane_countHunter k off n q s
  rw [h]

@[simp] theorem plane_syncLoss_countHunter (k off n q : Nat) (s : State) :
    (plane (countHunter k off n s) q).syncLoss = (plane s q).syncLoss := by
  obtain ⟨c, h⟩ := plane_countHunter k off n q s
  rw [h]

@[simp] theorem isActive_countHunter (k off n j : Nat) (s : State) :
    isActive (countHunter k off n s) j = isActive s j := by
  obtain ⟨c, h⟩ := plane_countHunter k off n (hunterPlane j) s
  unfold isActive activeCode prot
  rw [h]

/-- A hunter's counter counts one where a check calls for it. -/
def countWhere (b : Bool) (k off : Nat) (s : State) : State := if b then countHunter k off 1 s else s

section
variable (b : Bool) (k off j : Nat) (s : State)

@[simp] theorem countWhere_true : countWhere true k off s = countHunter k off 1 s := rfl

@[simp] theorem countWhere_false : countWhere false k off s = s := rfl

@[simp] theorem hunters_countWhere : (countWhere b k off s).fr.hunters = s.fr.hunters := by
  cases b with
  | true => exact hunters_countHunter ..
  | false => rfl

@[simp] theorem hunter_countWhere : hunter (countWhere b k off s) j = hunter s j := by
  unfold hunter
  rw [hunters_countWhere]

@[simp] theorem plane_state_countWhere : (plane (countWhere b k off s) j).state = (plane s j).state := by
  cases b with
  | true => exact plane_state_countHunter ..
  | false => rfl

@[simp] theorem plane_syncLoss_countWhere : (plane (countWhere b k off s) j).syncLoss = (plane s j).syncLoss := by
  cases b with
  | true => exact plane_syncLoss_countHunter ..
  | false => rfl

@[simp] theorem isActive_countWhere : isActive (countWhere b k off s) j = isActive s j := by
  cases b with
  | true => exact isActive_countHunter ..
  | false => rfl

theorem countWhere_inactive (h : isActive s k = false) : countWhere b k off s = s := by
  cases b with
  | true => exact countHunter_inactive h ..
  | false => rfl

theorem OnlyFraming.countWhere {s t : State} (h : OnlyFraming s t) (b : Bool) (k off : Nat) :
    OnlyFraming s (countWhere b k off t) := by
  cases b with
  | true => exact h.countHunter ..
  | false => exact h

/-- An accepted PSync is counted where it has bit errors. -/
theorem countErrored_eq (o : PsyncObs) : countErrored k o s = countWhere (o.errs != 0) k 16 s := by
  unfold countErrored
  by_cases h : o.errs = 0
  · simp [h]
  · simp [h, countWhere]

end

/-! ### Updates of a hunter -/

@[simp] theorem planes_modHunter (k : Nat) (f : Hunter → Hunter) (s : State) :
    (modHunter k f s).fr.planes = s.fr.planes := rfl

@[simp] theorem plane_modHunter (k : Nat) (f : Hunter → Hunter) (q : Nat) (s : State) :
    plane (modHunter k f s) q = plane s q := rfl

@[simp] theorem isActive_modHunter (k : Nat) (f : Hunter → Hunter) (j : Nat) (s : State) :
    isActive (modHunter k f s) j = isActive s j := rfl

@[simp] theorem hunter_modHunter_self (k : Nat) (f : Hunter → Hunter) (s : State) :
    hunter (modHunter k f s) k = f (hunter s k) := by
  rw [hunter_modHunter, if_pos rfl]

/-- The active engine's hunter stands at the key of the plane's active engine. -/
theorem eq_engineKey_of_isActive {s : State} {k : Nat} (h : isActive s k = true) :
    k = 0x100 + activeCode s (hunterPlane k) := by
  unfold isActive engineKey at h
  exact eq_of_beq h

/-- A port monitor is never an active engine. -/
theorem isActive_monitor {s : State} {k : Nat} (h : k < 0x100) : isActive s k = false := by
  cases ha : isActive s k with
  | false => rfl
  | true => have := eq_engineKey_of_isActive ha; omega

/-! ### No injection armed (R509) -/

theorem injIndex_disarmed {s : State} (h : s.inj.entries = []) (det target : Nat) : injIndex det target s = none := by
  unfold injIndex
  rw [h]
  rfl

theorem sfcPasses_disarmed {s : State} (h : s.inj.entries = []) (k : Nat) (o : PsyncObs) :
    sfcPasses k o s = (o.sfcHec, countWhere (!o.sfcHec) k 48 s) := by
  have hi : hecInjected (hunterPlane k) 2 s = (false, s) := by
    unfold hecInjected
    rw [injIndex_disarmed h]
    rfl
  unfold sfcPasses
  rw [hi, ite_self]
  cases o.sfcHec with
  | true => rfl
  | false => rfl

/-- The expected PSync of a position has been drawn, and no injection takes it as missed. -/
def psyncDrawn (k at_ : Nat) (s : State) : State :=
  setLineInj (hunterPort s k) { lineInj s (hunterPort s k) at_ with seen := true, miss := false } s

theorem psyncInjected_disarmed {s : State} {k at_ : Nat} (h : s.inj.entries = [])
    (hn : (lineInj s (hunterPort s k) at_).seen = false) :
    psyncInjected (hunterPort s k) at_ s = (false, psyncDrawn k at_ s) := by
  unfold psyncInjected
  rw [occurrence_none (injIndex_disarmed h ..)]
  dsimp only
  rw [hn]
  rfl

@[simp] theorem planes_psyncDrawn (k at_ : Nat) (s : State) : (psyncDrawn k at_ s).fr.planes = s.fr.planes := rfl

@[simp] theorem hunters_psyncDrawn (k at_ : Nat) (s : State) : (psyncDrawn k at_ s).fr.hunters = s.fr.hunters := rfl

@[simp] theorem plane_psyncDrawn (k at_ q : Nat) (s : State) : plane (psyncDrawn k at_ s) q = plane s q := rfl

@[simp] theorem hunter_psyncDrawn (k at_ j : Nat) (s : State) : hunter (psyncDrawn k at_ s) j = hunter s j := rfl

@[simp] theorem isActive_psyncDrawn (k at_ j : Nat) (s : State) : isActive (psyncDrawn k at_ s) j = isActive s j := rfl

theorem onlyFraming_psyncDrawn (k at_ : Nat) (s : State) : OnlyFraming s (psyncDrawn k at_ s) := ⟨_, rfl⟩

/-- A running hunter at a position for which no injection is armed or has been drawn. -/
structure Undisturbed (s : State) (k at_ : Nat) : Prop where
  entries : s.inj.entries = []
  unseen : (lineInj s (hunterPort s k) at_).seen = false
  known : isHunter k = true
  running : (hunter s k).running = true
  line : lineRuns (hunterPlane k) s = true

/-- The state after the SFC's check at a position: a failed HEC is counted (R170). -/
def sfcChecked (k : Nat) (o : PsyncObs) (s : State) : State := countWhere (!o.sfcHec) k 48 (psyncDrawn k o.at_ s)

theorem sfcPasses_psyncDrawn {s : State} (h : s.inj.entries = []) (k : Nat) (o : PsyncObs) :
    sfcPasses k o (psyncDrawn k o.at_ s) = (o.sfcHec, sfcChecked k o s) :=
  sfcPasses_disarmed (s := psyncDrawn k o.at_ s) h k o

theorem sfcChecked_good {k : Nat} {o : PsyncObs} {s : State} (h : o.sfcHec = true) :
    sfcChecked k o s = psyncDrawn k o.at_ s := by
  unfold sfcChecked
  rw [h]
  rfl

theorem onlyFraming_sfcChecked (k : Nat) (o : PsyncObs) (s : State) : OnlyFraming s (sfcChecked k o s) :=
  (onlyFraming_psyncDrawn ..).countWhere ..

/-! ### A PSync match in HUNT (R166, R168) -/

section
variable {s : State} {k : Nat} {o : PsyncObs}

theorem psyncMatchHunt_ignored (h : (hunter s k).tested = some o.at_ ∨ expects (hunter s k) o.at_ = true) :
    exec (.psyncMatchHunt k o) s = .next s := by
  change execPsyncMatchHunt k o s = _
  unfold execPsyncMatchHunt
  apply if_pos
  rcases h with h | h
  · simp [h]
  · simp [h]

/-- A match away from every expected position and from the bit last tested opens a candidate, or is counted where four
are open. -/
theorem psyncMatchHunt_opens (hi : s.inj.entries = []) (hk : isHunter k = true) (hr : (hunter s k).running = true)
    (hs : (hunter s k).sync = false) (hl : lineRuns (hunterPlane k) s = true)
    (he : expects (hunter s k) o.at_ = false) (ht : (hunter s k).tested ≠ some o.at_)
    (hm : o.errs ≤ (plane s (hunterPlane k)).psyncErr) (hc : o.sfcHec = true) :
    exec (.psyncMatchHunt k o) s = .next (if 4 ≤ (hunter s k).cands.length then countHunter k 40 1 s
      else modHunter k (fun x => { x with cands := x.cands ++ [{ pos := o.at_, sfc := o.sfc }] }) s) := by
  change execPsyncMatchHunt k o s = _
  have hm' : ¬ (plane s (hunterPlane k)).psyncErr < o.errs := Nat.not_lt.mpr hm
  unfold execPsyncMatchHunt
  simp only [hk, hr, hs, hl, he, hm', ht, hc, sfcPasses_disarmed hi, Bool.not_true, countWhere_false,
    Bool.or_self, Bool.false_or, beq_iff_eq, Bool.false_eq_true, if_false]
  split
  · rfl
  · rfl

end

/-! ### A frame that a hunter accepts (R166, R169) -/

/-- What accepting the frame at a position under a count makes of the hunter itself. -/
def hunterAccepts (k at_ sfc : Nat) (s : State) : State :=
  modHunter k (fun h => { h with
    sync := true
    cands := []
    lastPos := at_
    sfc
    syncCycles := if h.sync then h.syncCycles else s.time.cycles
    jump := false }) s

@[simp] theorem hunter_hunterAccepts (k at_ sfc : Nat) (s : State) :
    hunter (hunterAccepts k at_ sfc s) k = { hunter s k with
      sync := true
      cands := []
      lastPos := at_
      sfc
      syncCycles := if (hunter s k).sync then (hunter s k).syncCycles else s.time.cycles
      jump := false } := hunter_modHunter_self ..

@[simp] theorem planes_hunterAccepts (k at_ sfc : Nat) (s : State) :
    (hunterAccepts k at_ sfc s).fr.planes = s.fr.planes := rfl

theorem OnlyFraming.hunterAccepts {s t : State} (h : OnlyFraming s t) (k at_ sfc : Nat) :
    OnlyFraming s (hunterAccepts k at_ sfc t) := h.modHunter ..

theorem drawCodewords_fr (port n i : Nat) (r : List Nat × Nat) (s : State) :
    (drawCodewords port n i r s).2.fr = s.fr := by
  induction n generalizing i r s with
  | zero => rfl
  | succ n ih =>
    unfold drawCodewords
    split
    · rfl
    · obtain ⟨o, x, l, j, h⟩ := occurrence_form 0x02 port s
      exact (ih ..).trans (by rw [h])

theorem hunters_fecInjected (port at_ n : Nat) (s : State) : (fecInjected port at_ n s).2.fr.hunters = s.fr.hunters := by
  unfold fecInjected
  dsimp only
  split
  · rfl
  · unfold setLineInj
    dsimp only
    rw [drawCodewords_fr]

/-- A port monitor discards the frame: its hunter is as accepting it left it (R173). -/
theorem hunter_monitorFrame (port : Nat) (o : PsyncObs) (f : FrameObs) (j : Nat) (s : State) :
    hunter (monitorFrame port o f s) j = hunter s j := by
  unfold hunter
  exact congrArg (tget {} · j) (hunters_fecInjected port o.at_ (frameCodewords (port / 16)) s)

section
variable {s : State} {k : Nat} {o : PsyncObs} {f : FrameObs} {sfc : Nat}

/-- A port monitor's hunter after it accepted a frame. -/
theorem hunter_acceptAt_monitor (hk : k < 0x100) :
    hunter (acceptAt k o sfc f s) k = hunter (hunterAccepts k o.at_ sfc s) k :=
  (congrArg (fun t => hunter t k) (if_pos hk)).trans (hunter_monitorFrame ..)

/-- A standby engine works on the frame silently (R15). -/
theorem acceptAt_standby (ha : isActive s k = false) (hk : 0x100 ≤ k) :
    acceptAt k o sfc f s = standbyFrame (k - 0x100) o (hunterAccepts k o.at_ sfc s) :=
  (if_neg (Nat.not_lt.mpr hk)).trans (if_neg (by rw [ha]; exact Bool.false_ne_true))

theorem acceptAt_active (ha : isActive s k = true) :
    acceptAt k o sfc f s = acceptFrame (hunterPlane k) o sfc f
      (if (plane s (hunterPlane k)).state = 2 then hunterAccepts k o.at_ sfc s
        else gainSync (hunterPlane k) sfc (hunterAccepts k o.at_ sfc s)) := by
  have hk : ¬ k < 0x100 := by have := eq_engineKey_of_isActive ha; omega
  exact (if_neg hk).trans (if_pos ha)

theorem acceptAt_active_inSync (ha : isActive s k = true) (hp : (plane s (hunterPlane k)).state = 2) :
    acceptAt k o sfc f s = acceptFrame (hunterPlane k) o sfc f (hunterAccepts k o.at_ sfc s) := by
  rw [acceptAt_active ha, if_pos hp]

theorem activeCode_of_isActive (ha : isActive s k = true) : activeCode s (hunterPlane k) = k - 0x100 := by
  have := eq_engineKey_of_isActive ha
  omega

/-- The active engine's lock raises EV_FRAME_LOCK, its terminals in O6 and O1 are reached by it, and the frame is handed on
(R169, R190, R200, R204). -/
theorem acceptAt_active_locks (ha : isActive s k = true) (hp : (plane s (hunterPlane k)).state ≠ 2) :
    acceptAt k o sfc f s = acceptFrame (hunterPlane k) o sfc f (profileKnown (hunterPlane k)
      (reachTerms (hunterPlane k) 8 (fun st => st == 0x16) (raise 0x0401 (hunterPlane k) (le 1 (hunterPlane k) ++
        le 1 (k - 0x100) ++ le 1 1 ++ le 8 sfc) none (modPlane (hunterPlane k) (fun x => { x with
          state := 2
          sfc }) (hunterAccepts k o.at_ sfc s))))) := by
  have hc : activeCode (modPlane (hunterPlane k) (fun x => { x with state := 2, sfc }) (hunterAccepts k o.at_ sfc s))
      (hunterPlane k) = k - 0x100 := by
    rw [← activeCode_of_isActive ha]
    unfold activeCode prot
    rw [plane_modPlane, if_pos rfl]
    rfl
  rw [acceptAt_active ha, if_neg hp]
  unfold gainSync frameLock
  dsimp only
  rw [hc]
  rfl

end

/-! ### A candidate's expected position (R166) -/

section
variable {s : State} {k i : Nat} {o : PsyncObs} {f : FrameObs} {c : Cand}

/-- The state in which a candidate's second confirmation hands the frame on. -/
def candidateLocks (k : Nat) (o : PsyncObs) (s : State) : State :=
  modHunter k (fun x => { x with misses := 0, tested := some o.at_ })
    (countWhere (o.errs != 0) k 16 (psyncDrawn k o.at_ s))

/-- The state in which a candidate that failed a check is dropped: the SFC is looked at only where the PSync matches. -/
def candidateFails (k : Nat) (o : PsyncObs) (s : State) : State :=
  if o.errs ≤ (plane s (hunterPlane k)).psyncErr then sfcChecked k o s else psyncDrawn k o.at_ s

/-- The candidate at its position: its PSync is drawn, and the SFC is looked at where the PSync matches. -/
theorem candidatePositionReached_eq (h : Undisturbed s k o.at_) (hs : (hunter s k).sync = false)
    (hc : (hunter s k).cands[i]? = some c) (hp : o.at_ = c.pos + frameTicks) :
    exec (.candidatePositionReached k i o f) s = .next
      (if o.errs ≤ (plane s (hunterPlane k)).psyncErr ∧ o.sfcHec = true ∧ o.sfc = nextSfc c.sfc then
        if c.conf = 0 then
          modHunter k (fun x => { x with
            cands := x.cands.set i { pos := o.at_, sfc := o.sfc, conf := 1 }
            tested := some o.at_ }) (psyncDrawn k o.at_ s)
        else
          acceptAt k o o.sfc f (candidateLocks k o s)
      else
        countHunter k 32 1 (modHunter k (fun x => { x with
          cands := x.cands.eraseIdx i
          tested := some o.at_ }) (candidateFails k o s))) := by
  change execCandidatePositionReached k i o f s = _
  have hg : (o.at_ != c.pos + frameTicks) = false := bne_eq_false_iff_eq.mpr hp
  unfold execCandidatePositionReached
  simp only [hc, h.known, h.running, hs, h.line, hg, psyncInjected_disarmed h.entries h.unseen,
    sfcPasses_psyncDrawn h.entries]
  by_cases hm : o.errs ≤ (plane s (hunterPlane k)).psyncErr
  · cases hh : o.sfcHec with
    | false => simp [candidateFails, hm]
    | true =>
      by_cases hv : o.sfc = nextSfc c.sfc
      · by_cases hz : c.conf = 0
        · simp [sfcChecked_good hh, hm, hv, hz]
        · simp [sfcChecked_good hh, candidateLocks, countErrored_eq, hm, hv, hz]
      · simp [candidateFails, hm, hv]
  · simp [candidateFails, hm]

/-- A candidate that no check fails, and that has not been confirmed, is confirmed. -/
theorem candidatePositionReached_confirms (h : Undisturbed s k o.at_) (hs : (hunter s k).sync = false)
    (hc : (hunter s k).cands[i]? = some c) (hp : o.at_ = c.pos + frameTicks)
    (hm : o.errs ≤ (plane s (hunterPlane k)).psyncErr) (hh : o.sfcHec = true) (hv : o.sfc = nextSfc c.sfc)
    (hz : c.conf = 0) :
    exec (.candidatePositionReached k i o f) s = .next (modHunter k (fun x => { x with
      cands := x.cands.set i { pos := o.at_, sfc := o.sfc, conf := 1 }
      tested := some o.at_ }) (psyncDrawn k o.at_ s)) := by
  rw [candidatePositionReached_eq h hs hc hp, if_pos ⟨hm, hh, hv⟩, if_pos hz]

/-- A candidate that no check fails, and that was confirmed before, becomes the lock. -/
theorem candidatePositionReached_locks (h : Undisturbed s k o.at_) (hs : (hunter s k).sync = false)
    (hc : (hunter s k).cands[i]? = some c) (hp : o.at_ = c.pos + frameTicks)
    (hm : o.errs ≤ (plane s (hunterPlane k)).psyncErr) (hh : o.sfcHec = true) (hv : o.sfc = nextSfc c.sfc)
    (hz : c.conf ≠ 0) :
    exec (.candidatePositionReached k i o f) s = .next (acceptAt k o o.sfc f (candidateLocks k o s)) := by
  rw [candidatePositionReached_eq h hs hc hp, if_pos ⟨hm, hh, hv⟩, if_neg hz]

/-- A candidate that fails a check is dropped and counted. -/
theorem candidatePositionReached_drops (h : Undisturbed s k o.at_) (hs : (hunter s k).sync = false)
    (hc : (hunter s k).cands[i]? = some c) (hp : o.at_ = c.pos + frameTicks)
    (hx : ¬ (o.errs ≤ (plane s (hunterPlane k)).psyncErr ∧ o.sfcHec = true ∧ o.sfc = nextSfc c.sfc)) :
    exec (.candidatePositionReached k i o f) s = .next (countHunter k 32 1 (modHunter k (fun x => { x with
      cands := x.cands.eraseIdx i
      tested := some o.at_ }) (candidateFails k o s))) := by
  rw [candidatePositionReached_eq h hs hc hp, if_neg hx]

theorem onlyFraming_candidateFails (k : Nat) (o : PsyncObs) (s : State) : OnlyFraming s (candidateFails k o s) := by
  unfold candidateFails
  split
  · exact onlyFraming_sfcChecked ..
  · exact onlyFraming_psyncDrawn ..

theorem hunters_candidateFails (k : Nat) (o : PsyncObs) (s : State) :
    (candidateFails k o s).fr.hunters = s.fr.hunters := by
  unfold candidateFails
  split
  · simp [sfcChecked]
  · rfl

/-- The planes keep their counters where the PSync does not match, and where the SFC passes its HEC. -/
theorem planes_candidateFails (hx : o.errs ≤ (plane s (hunterPlane k)).psyncErr → o.sfcHec = true) :
    (candidateFails k o s).fr.planes = s.fr.planes := by
  unfold candidateFails
  split
  · next hm => rw [sfcChecked_good (hx hm)]; rfl
  · rfl

theorem onlyFraming_candidateLocks (k : Nat) (o : PsyncObs) (s : State) : OnlyFraming s (candidateLocks k o s) :=
  ((onlyFraming_psyncDrawn ..).countWhere ..).modHunter ..

@[simp] theorem hunter_candidateLocks (k : Nat) (o : PsyncObs) (s : State) :
    hunter (candidateLocks k o s) k = { hunter s k with misses := 0, tested := some o.at_ } := by
  simp [candidateLocks]

@[simp] theorem isActive_candidateLocks (k : Nat) (o : PsyncObs) (j : Nat) (s : State) :
    isActive (candidateLocks k o s) j = isActive s j := by
  simp [candidateLocks]

@[simp] theorem plane_state_candidateLocks (k : Nat) (o : PsyncObs) (q : Nat) (s : State) :
    (plane (candidateLocks k o s) q).state = (plane s q).state := by
  simp [candidateLocks]

theorem planes_candidateLocks (ha : isActive s k = false) : (candidateLocks k o s).fr.planes = s.fr.planes := by
  unfold candidateLocks
  rw [countWhere_inactive _ _ _ _ (by simpa using ha)]
  rfl

end

/-! ### The expected position in SYNC (R166, R167, R170) -/

section
variable {s : State} {k : Nat} {o : PsyncObs} {f : FrameObs}

/-- The state in which a frame in SYNC that no check fails is handed on. -/
def syncHolds (k : Nat) (o : PsyncObs) (s : State) : State :=
  modHunter k (fun x => { x with misses := 0 }) (countWhere (o.errs != 0) k 16 (psyncDrawn k o.at_ s))

/-- The position in SYNC: its PSync is drawn, and the SFC is checked whether the PSync matches or not. -/
theorem syncPositionReached_eq (h : Undisturbed s k o.at_) (hs : (hunter s k).sync = true)
    (hp : o.at_ = (hunter s k).lastPos + frameTicks) :
    exec (.syncPositionReached k o f) s = .next
      (if o.errs ≤ (plane s (hunterPlane k)).psyncErr ∧ o.sfcHec = true ∧
          (o.sfc = nextSfc (hunter s k).sfc ∨ (hunter s k).jump = true) then
        acceptAt k o o.sfc f (syncHolds k o s)
      else
        missedFrame k (decide (o.errs ≤ (plane s (hunterPlane k)).psyncErr)) o.sfcHec o f (sfcChecked k o s)) := by
  change execSyncPositionReached k o f s = _
  have hg : (o.at_ != (hunter s k).lastPos + frameTicks) = false := bne_eq_false_iff_eq.mpr hp
  unfold execSyncPositionReached
  simp only [h.known, h.running, hs, h.line, hg, psyncInjected_disarmed h.entries h.unseen,
    sfcPasses_psyncDrawn h.entries]
  by_cases hm : o.errs ≤ (plane s (hunterPlane k)).psyncErr
  · cases hh : o.sfcHec with
    | false => simp [hm]
    | true =>
      rw [sfcChecked_good hh]
      by_cases hv : o.sfc = nextSfc (hunter s k).sfc ∨ (hunter s k).jump = true
      · simp [hm, hv, syncHolds, countErrored_eq]
      · simp [hm, hv]
  · simp [hm]

theorem syncPositionReached_accepts (h : Undisturbed s k o.at_) (hs : (hunter s k).sync = true)
    (hp : o.at_ = (hunter s k).lastPos + frameTicks) (hm : o.errs ≤ (plane s (hunterPlane k)).psyncErr)
    (hh : o.sfcHec = true) (hv : o.sfc = nextSfc (hunter s k).sfc) :
    exec (.syncPositionReached k o f) s = .next (acceptAt k o o.sfc f (syncHolds k o s)) := by
  rw [syncPositionReached_eq h hs hp, if_pos ⟨hm, hh, .inl hv⟩]

@[simp] theorem hunter_syncHolds (k : Nat) (o : PsyncObs) (s : State) :
    hunter (syncHolds k o s) k = { hunter s k with misses := 0 } := by
  simp [syncHolds]

@[simp] theorem isActive_syncHolds (k : Nat) (o : PsyncObs) (j : Nat) (s : State) :
    isActive (syncHolds k o s) j = isActive s j := by
  simp [syncHolds]

@[simp] theorem plane_state_syncHolds (k : Nat) (o : PsyncObs) (q : Nat) (s : State) :
    (plane (syncHolds k o s) q).state = (plane s q).state := by
  simp [syncHolds]

theorem planes_syncHolds (ha : isActive s k = false) : (syncHolds k o s).fr.planes = s.fr.planes := by
  unfold syncHolds
  rw [countWhere_inactive _ _ _ _ (by simpa using ha)]
  rfl

theorem onlyFraming_syncHolds (k : Nat) (o : PsyncObs) (s : State) : OnlyFraming s (syncHolds k o s) :=
  ((onlyFraming_psyncDrawn ..).countWhere ..).modHunter ..

/-! ### A failed check in SYNC (R166, R170) -/

/-- The SFC at the expected position passes its HEC and is a discontinuity that nothing allows. -/
def sfcJumps (k : Nat) (o : PsyncObs) (s : State) : Bool :=
  o.sfcHec && o.sfc != nextSfc (hunter s k).sfc && !(hunter s k).jump

/-- The parts of a failed check in SYNC are counted: the SFC's HEC, the PSync and the SFC's value. -/
def missCounted (k : Nat) (o : PsyncObs) (s : State) : State :=
  countWhere (sfcJumps k o s) k 184 (countWhere (!decide (o.errs ≤ (plane s (hunterPlane k)).psyncErr)) k 176
    (sfcChecked k o s))

theorem onlyFraming_missCounted (k : Nat) (o : PsyncObs) (s : State) : OnlyFraming s (missCounted k o s) :=
  ((onlyFraming_sfcChecked ..).countWhere ..).countWhere ..

/-- The active engine's PSync did not match, and the SFC was the expected one: the miss is counted. -/
theorem planes_missCounted_psync (ha : isActive s k = true) (hm : (plane s (hunterPlane k)).psyncErr < o.errs)
    (hh : o.sfcHec = true) (hv : o.sfc = nextSfc (hunter s k).sfc) :
    (missCounted k o s).fr.planes = (countPlane (hunterPlane k) 176 1 s).fr.planes := by
  have hj : sfcJumps k o s = false := by simp [sfcJumps, hv]
  unfold missCounted
  rw [hj, decide_eq_false (Nat.not_le.mpr hm), sfcChecked_good hh, countWhere_false, Bool.not_false, countWhere_true,
    countHunter_active (s := psyncDrawn k o.at_ s) ha]
  rfl

/-- The active engine's PSync matched, and the SFC failed its HEC: the failure is counted. -/
theorem planes_missCounted_hec (ha : isActive s k = true) (hm : o.errs ≤ (plane s (hunterPlane k)).psyncErr)
    (hh : o.sfcHec = false) : (missCounted k o s).fr.planes = (countPlane (hunterPlane k) 48 1 s).fr.planes := by
  have hj : sfcJumps k o s = false := by simp [sfcJumps, hh]
  unfold missCounted sfcChecked
  rw [hj, decide_eq_true hm, hh, Bool.not_true, Bool.not_false, countWhere_false, countWhere_false, countWhere_true,
    countHunter_active (s := psyncDrawn k o.at_ s) ha]
  rfl

/-- The active engine's PSync matched, and the SFC is another than the expected one: the discontinuity is counted. -/
theorem planes_missCounted_sfc (ha : isActive s k = true) (hm : o.errs ≤ (plane s (hunterPlane k)).psyncErr)
    (hh : o.sfcHec = true) (hv : o.sfc ≠ nextSfc (hunter s k).sfc) (hn : (hunter s k).jump = false) :
    (missCounted k o s).fr.planes = (countPlane (hunterPlane k) 184 1 s).fr.planes := by
  have hj : sfcJumps k o s = true := by simp [sfcJumps, hh, hv, hn]
  unfold missCounted
  rw [hj, decide_eq_true hm, sfcChecked_good hh, Bool.not_true, countWhere_false, countWhere_true,
    countHunter_active (s := psyncDrawn k o.at_ s) ha]
  rfl

/-- The state in which an allowed frame is handed on: a PSync that matched with bit errors is counted too. -/
def missAllowed (k : Nat) (o : PsyncObs) (s : State) : State :=
  modHunter k (fun x => { x with misses := x.misses + 1 })
    (countWhere (decide (o.errs ≤ (plane s (hunterPlane k)).psyncErr) && o.errs != 0) k 16 (missCounted k o s))

/-- A PSync that does not match, or matches without an error, is not counted as one with bit errors. -/
theorem planes_missAllowed (he : o.errs ≤ (plane s (hunterPlane k)).psyncErr → o.errs = 0) :
    (missAllowed k o s).fr.planes = (missCounted k o s).fr.planes := by
  have hc : (decide (o.errs ≤ (plane s (hunterPlane k)).psyncErr) && o.errs != 0) = false := by simpa using he
  unfold missAllowed
  rw [hc]
  rfl

@[simp] theorem hunter_missAllowed (k : Nat) (o : PsyncObs) (s : State) :
    hunter (missAllowed k o s) k = { hunter s k with misses := (hunter s k).misses + 1 } := by
  simp [missAllowed, missCounted, sfcChecked]

@[simp] theorem isActive_missAllowed (k : Nat) (o : PsyncObs) (j : Nat) (s : State) :
    isActive (missAllowed k o s) j = isActive s j := by
  simp [missAllowed, missCounted, sfcChecked]

@[simp] theorem plane_state_missAllowed (k : Nat) (o : PsyncObs) (q : Nat) (s : State) :
    (plane (missAllowed k o s) q).state = (plane s q).state := by
  simp [missAllowed, missCounted, sfcChecked]

theorem onlyFraming_missAllowed (k : Nat) (o : PsyncObs) (s : State) : OnlyFraming s (missAllowed k o s) :=
  ((onlyFraming_missCounted ..).countWhere ..).modHunter ..

/-- The state in which a hunter has just left SYNC. -/
def syncEnds (k : Nat) (o : PsyncObs) (s : State) : State :=
  modHunter k (fun x => { x with sync := false, cands := [], misses := 0, jump := false }) (missCounted k o s)

@[simp] theorem hunter_syncEnds (k : Nat) (o : PsyncObs) (s : State) :
    hunter (syncEnds k o s) k = { hunter s k with sync := false, cands := [], misses := 0, jump := false } := by
  simp [syncEnds, missCounted, sfcChecked]

theorem onlyFraming_syncEnds (k : Nat) (o : PsyncObs) (s : State) : OnlyFraming s (syncEnds k o s) :=
  (onlyFraming_missCounted k o s).modHunter ..

/-- What a failed check in SYNC does once the position's draws are done. -/
theorem missedFrame_sfcChecked :
    missedFrame k (decide (o.errs ≤ (plane s (hunterPlane k)).psyncErr)) o.sfcHec o f (sfcChecked k o s) =
      if (hunter s k).misses + 1 < (plane s (hunterPlane k)).syncLoss then
        acceptAt k o (nextSfc (hunter s k).sfc) f (missAllowed k o s)
      else if isActive s k then switchNow (hunterPlane k) (loseSync (hunterPlane k) (syncEnds k o s))
      else syncEnds k o s := by
  have hh : hunter (sfcChecked k o s) k = hunter s k := by simp [sfcChecked]
  have hl : (plane (sfcChecked k o s) (hunterPlane k)).syncLoss = (plane s (hunterPlane k)).syncLoss := by
    simp [sfcChecked]
  have ha : isActive (sfcChecked k o s) k = isActive s k := by simp [sfcChecked]
  unfold missedFrame
  simp only [hh, hl, ha, countErrored_eq]
  by_cases hm : o.errs ≤ (plane s (hunterPlane k)).psyncErr
  · simp [missAllowed, syncEnds, missCounted, countWhere, sfcJumps, hm]
  · simp [missAllowed, syncEnds, missCounted, countWhere, sfcJumps, hm]

/-- A failed check that the plane allows: the frame is handed on under the SFC after the last one. -/
theorem syncPositionReached_allows (h : Undisturbed s k o.at_) (hs : (hunter s k).sync = true)
    (hp : o.at_ = (hunter s k).lastPos + frameTicks)
    (hx : ¬ (o.errs ≤ (plane s (hunterPlane k)).psyncErr ∧ o.sfcHec = true ∧
      (o.sfc = nextSfc (hunter s k).sfc ∨ (hunter s k).jump = true)))
    (hl : (hunter s k).misses + 1 < (plane s (hunterPlane k)).syncLoss) :
    exec (.syncPositionReached k o f) s =
      .next (acceptAt k o (nextSfc (hunter s k).sfc) f (missAllowed k o s)) := by
  rw [syncPositionReached_eq h hs hp, if_neg hx, missedFrame_sfcChecked, if_pos hl]

/-- A failed check that the plane does not allow: SYNC ends, and with the active engine's the plane's, at which a waiting
line switch starts (R269). -/
theorem syncPositionReached_ends (h : Undisturbed s k o.at_) (hs : (hunter s k).sync = true)
    (hp : o.at_ = (hunter s k).lastPos + frameTicks)
    (hx : ¬ (o.errs ≤ (plane s (hunterPlane k)).psyncErr ∧ o.sfcHec = true ∧
      (o.sfc = nextSfc (hunter s k).sfc ∨ (hunter s k).jump = true)))
    (hl : (plane s (hunterPlane k)).syncLoss ≤ (hunter s k).misses + 1) :
    exec (.syncPositionReached k o f) s = .next (if isActive s k then
      switchNow (hunterPlane k) (loseSync (hunterPlane k) (syncEnds k o s)) else syncEnds k o s) := by
  rw [syncPositionReached_eq h hs hp, if_neg hx, missedFrame_sfcChecked, if_neg (Nat.not_lt.mpr hl)]

/-- The active engine in SYNC hands an allowed frame on under the SFC after the last one; of the planes only the counters
of what failed have changed. -/
theorem syncPositionReached_allows_active {pl : Tab Plane} (h : Undisturbed s k o.at_) (hs : (hunter s k).sync = true)
    (hp : o.at_ = (hunter s k).lastPos + frameTicks)
    (hx : ¬ (o.errs ≤ (plane s (hunterPlane k)).psyncErr ∧ o.sfcHec = true ∧
      (o.sfc = nextSfc (hunter s k).sfc ∨ (hunter s k).jump = true)))
    (hl : (hunter s k).misses + 1 < (plane s (hunterPlane k)).syncLoss) (ha : isActive s k = true)
    (hq : (plane s (hunterPlane k)).state = 2) (he : o.errs ≤ (plane s (hunterPlane k)).psyncErr → o.errs = 0)
    (hc : (missCounted k o s).fr.planes = pl) :
    ∃ t, exec (.syncPositionReached k o f) s =
        .next (acceptFrame (hunterPlane k) o (nextSfc (hunter s k).sfc) f t) ∧
      (hunter t k).sync = true ∧ (hunter t k).cands = [] ∧ (hunter t k).lastPos = o.at_ ∧
      (hunter t k).sfc = nextSfc (hunter s k).sfc ∧ (hunter t k).misses = (hunter s k).misses + 1 ∧
      t.fr.planes = pl ∧ t = { s with fr := t.fr } := by
  refine ⟨hunterAccepts k o.at_ (nextSfc (hunter s k).sfc) (missAllowed k o s), ?_, ?_⟩
  · rw [syncPositionReached_allows h hs hp hx hl, acceptAt_active_inSync (by simpa using ha) (by simpa using hq)]
  · simp [planes_missAllowed he, hc, ← ((onlyFraming_missAllowed k o s).hunterAccepts ..).eq]

end

/-! ### The completion of the hunters' events -/

/-- Settles O19: each clause is one case of what a match in HUNT, a candidate's position or a position in SYNC does. -/
theorem huntersComplete : Obligations.HuntersComplete := by
  unfold Obligations.HuntersComplete
  refine ⟨?opens, ?full, ?ignored, ?confirms, ?monitorLocks, ?monitorAccepts, ?monitorEnds, ?dropsPsync, ?dropsHec,
    ?dropsSfc, ?activeLocks, ?standbyLocks, ?activeAccepts, ?standbyAccepts, ?allowsPsync, ?allowsHec, ?allowsSfc,
    ?monitorAllows, ?activeEnds⟩
  case opens =>
    intro s k o hi hk hr hs hl he ht hm hh hc
    rw [psyncMatchHunt_opens hi hk hr hs hl he ht hm hh, if_neg (Nat.not_le.mpr hc)]
  case full =>
    intro s k o hi hk hr hs hl he ht hm hh hc
    rw [psyncMatchHunt_opens hi hk hr hs hl he ht hm hh, if_pos hc]
  case ignored =>
    intro s k o h
    exact psyncMatchHunt_ignored h
  case confirms =>
    intro s k i o f c hi hn hk hr hs hl hc hp hm hh hv hz
    exact ⟨_, candidatePositionReached_confirms ⟨hi, hn, hk, hr, hl⟩ hs hc hp hm hh hv hz, by simp [hs]⟩
  case monitorLocks =>
    intro s k i o f c hi hn hk hr hs hl hc hp hm hh hv hz hq
    exact ⟨_, candidatePositionReached_locks ⟨hi, hn, hk, hr, hl⟩ hs hc hp hm hh hv hz,
      by simp [hunter_acceptAt_monitor hq]⟩
  case monitorAccepts =>
    intro s k o f hi hn hk hr hs hl hp hm hh hv hq
    exact ⟨_, syncPositionReached_accepts ⟨hi, hn, hk, hr, hl⟩ hs hp hm hh hv, by simp [hunter_acceptAt_monitor hq]⟩
  case monitorEnds =>
    intro s k o f hi hn hk hr hs hl hp hm hq hc
    refine ⟨syncEnds k o s, ?_, by simp⟩
    rw [syncPositionReached_ends ⟨hi, hn, hk, hr, hl⟩ hs hp (fun h => Nat.not_le.mpr hm h.1) hc,
      if_neg (by simp [isActive_monitor hq])]
  case dropsPsync =>
    intro s k i o f c hi hn hk hr hs hl hc hp hm
    exact ⟨_, candidatePositionReached_drops ⟨hi, hn, hk, hr, hl⟩ hs hc hp fun h => Nat.not_le.mpr hm h.1,
      hunters_candidateFails .., (onlyFraming_candidateFails ..).eq,
      planes_candidateFails fun h => absurd h (Nat.not_le.mpr hm)⟩
  case dropsHec =>
    intro s k i o f c hi hn hk hr hs hl hc hp hm hh
    exact ⟨_, candidatePositionReached_drops ⟨hi, hn, hk, hr, hl⟩ hs hc hp fun h => by simp [hh] at h,
      hunters_candidateFails .., (onlyFraming_candidateFails ..).eq⟩
  case dropsSfc =>
    intro s k i o f c hi hn hk hr hs hl hc hp hm hh hv
    exact ⟨_, candidatePositionReached_drops ⟨hi, hn, hk, hr, hl⟩ hs hc hp fun h => hv h.2.2,
      hunters_candidateFails .., (onlyFraming_candidateFails ..).eq, planes_candidateFails fun _ => hh⟩
  case activeLocks =>
    intro s k i o f c hi hn hk hr hs hl hc hp hm hh hv hz ha hq
    refine ⟨hunterAccepts k o.at_ o.sfc (candidateLocks k o s), ?_, ?_⟩
    · rw [candidatePositionReached_locks ⟨hi, hn, hk, hr, hl⟩ hs hc hp hm hh hv hz,
        acceptAt_active_locks (by simpa using ha) (by simpa using hq)]
    · have ht := onlyFraming_candidateLocks k o s
      simp [hs, ht.cycles, ← (ht.hunterAccepts k o.at_ o.sfc).eq]
  case standbyLocks =>
    intro s k i o f c hi hn hk hr hs hl hc hp hm hh hv hz ha hq
    refine ⟨hunterAccepts k o.at_ o.sfc (candidateLocks k o s), ?_, ?_⟩
    · rw [candidatePositionReached_locks ⟨hi, hn, hk, hr, hl⟩ hs hc hp hm hh hv hz,
        acceptAt_standby (by simpa using ha) hq]
    · simp [planes_candidateLocks ha, ← ((onlyFraming_candidateLocks k o s).hunterAccepts k o.at_ o.sfc).eq]
  case activeAccepts =>
    intro s k o f hi hn hk hr hs hl hp hm hh hv ha hq
    refine ⟨hunterAccepts k o.at_ o.sfc (syncHolds k o s), ?_, ?_⟩
    · rw [syncPositionReached_accepts ⟨hi, hn, hk, hr, hl⟩ hs hp hm hh hv,
        acceptAt_active_inSync (by simpa using ha) (by simpa using hq)]
    · simp [← ((onlyFraming_syncHolds k o s).hunterAccepts k o.at_ o.sfc).eq]
  case standbyAccepts =>
    intro s k o f hi hn hk hr hs hl hp hm hh hv ha hq
    refine ⟨hunterAccepts k o.at_ o.sfc (syncHolds k o s), ?_, ?_⟩
    · rw [syncPositionReached_accepts ⟨hi, hn, hk, hr, hl⟩ hs hp hm hh hv, acceptAt_standby (by simpa using ha) hq]
    · simp [planes_syncHolds ha, ← ((onlyFraming_syncHolds k o s).hunterAccepts k o.at_ o.sfc).eq]
  case allowsPsync =>
    intro s k o f hi hn hk hr hs hl hp hm hh hv ha hq hc
    exact syncPositionReached_allows_active ⟨hi, hn, hk, hr, hl⟩ hs hp (fun h => Nat.not_le.mpr hm h.1) hc ha hq
      (fun h => absurd h (Nat.not_le.mpr hm)) (planes_missCounted_psync ha hm hh hv)
  case allowsHec =>
    intro s k o f hi hn hk hr hs hl hp hm hh ha hq hc
    exact syncPositionReached_allows_active ⟨hi, hn, hk, hr, hl⟩ hs hp (fun h => by simp [hh] at h) hc ha hq
      (fun _ => hm) (planes_missCounted_hec ha (hm ▸ Nat.zero_le _) hh)
  case allowsSfc =>
    intro s k o f hi hn hk hr hs hl hp hm hh hv hj ha hq hc
    exact syncPositionReached_allows_active ⟨hi, hn, hk, hr, hl⟩ hs hp (fun h => h.2.2.elim hv (by simp [hj])) hc ha hq
      (fun _ => hm) (planes_missCounted_sfc ha (hm ▸ Nat.zero_le _) hh hv hj)
  case monitorAllows =>
    intro s k o f hi hn hk hr hs hl hp hm hq hc
    exact ⟨_, syncPositionReached_allows ⟨hi, hn, hk, hr, hl⟩ hs hp (fun h => Nat.not_le.mpr hm h.1) hc,
      by simp [hunter_acceptAt_monitor hq, nextSfc]⟩
  case activeEnds =>
    intro s k o f hi hn hk hr hs hl hp hm hh hv ha hc
    refine ⟨syncEnds k o s, ?_, by simp, by simp, planes_missCounted_psync ha hm hh hv, (onlyFraming_syncEnds k o s).eq⟩
    rw [syncPositionReached_ends ⟨hi, hn, hk, hr, hl⟩ hs hp (fun h => Nat.not_le.mpr hm h.1) hc, if_pos ha]

end Sys2Proof.Machine
end

section
/-!
PROOFS. What every command keeps, from the one lemma of each command: the waiting queue, the identity and the canonical
memories through every command, FAULT through every command but the resets.
-/
namespace Sys2Proof.Machine

/-! ### Every command -/

theorem FirmOut.steady {s : State} {o : Host.Outcome State Fault Refusal} (h : FirmOut s o) : SteadyOut s o := by
  cases o with
  | next t => exact Firm.toSteady h
  | fault _ => trivial
  | refused _ => trivial

/-- Every command but the resets is firm. -/
theorem exec_firm {i : Instr} {s : State} (hr : isReset i = false) : FirmOut s (exec i s) := by
  cases i with
  | porNDeassert _ _ => exact absurd hr Bool.noConfusion
  | porNAssert => exact absurd hr Bool.noConfusion
  | perstNDeassert _ => exact absurd hr Bool.noConfusion
  | softResetWrite _ _ => exact absurd hr Bool.noConfusion
  | deviceResetDelayExpiry _ => exact absurd hr Bool.noConfusion
  | supplyRemoval => exact absurd hr Bool.noConfusion
  | functionLevelReset => exact execFunctionLevelReset_firm
  | trstNAssert => exact execTrstNAssert_firm
  | pllLockTimeout flashAnswers => exact execPllLockTimeout_firm
  | bootComplete => exact execBootComplete_firm
  | cpWatchdogExpiry => exact execCpWatchdogExpiry_firm
  | cpHeartbeatTick => exact execCpHeartbeatTick_firm
  | firmwareFault description => exact execFirmwareFault_firm
  | doorbellWrite ch value => exact execDoorbellWrite_firm
  | requestSlotWrite ch off data => exact execRequestSlotWrite_firm
  | mbReleaseWrite ch value => exact execMbReleaseWrite_firm
  | mbErrRead ch => exact execMbErrRead_firm
  | ringCtrlEnable ring dir => exact execRingCtrlEnable_firm
  | ringCtrlDisable ring => exact execRingCtrlDisable_firm
  | ringTailWrite ring value => exact execRingTailWrite_firm
  | registerWrite off data => exact execRegisterWrite_firm
  | timeNsLoRead => exact execTimeNsLoRead_firm
  | ppsInTsLoRead => exact execPpsInTsLoRead_firm
  | timeStatusRead => exact execTimeStatusRead_firm
  | incrWrite value => exact execIncrWrite_firm
  | clkForcedClear value => exact execClkForcedClear_firm
  | logViewSlotWrite value => exact execLogViewSlotWrite_firm
  | logViewFillDone => exact execLogViewFillDone_firm
  | injectArm value => exact execInjectArm_firm
  | injectDisarm value => exact execInjectDisarm_firm
  | injectStatusRead => exact execInjectStatusRead_firm
  | bar2Read off len => exact execBar2Read_firm
  | bar2Write off data => exact execBar2Write_firm
  | offDomainAccess bar off data len => exact execOffDomainAccess_firm
  | smbusBlockWrite data pecOk => exact execSmbusBlockWrite_firm
  | smbusStatusRead pecOk => exact execSmbusStatusRead_firm
  | smbusBlockRead pecOk => exact execSmbusBlockRead_firm
  | smbusStateRead pecOk => exact execSmbusStateRead_firm
  | nop => exact execNop_firm
  | deviceInfo => exact execDeviceInfo_firm
  | deviceStart => exact execDeviceStart_firm
  | deviceStop => exact execDeviceStop_firm
  | deviceReset => exact execDeviceReset_firm
  | fwUpdateBegin => exact execFwUpdateBegin_firm
  | fwEraseDone => exact execFwEraseDone_firm
  | fwUpdateWrite => exact execFwUpdateWrite_firm
  | fwUpdateEnd => exact execFwUpdateEnd_firm
  | fwTrialDecide => exact execFwTrialDecide_firm
  | fwStatus => exact execFwStatus_firm
  | hwinit => exact execHwinit_firm
  | attest => exact execAttest_firm
  | attestCert => exact execAttestCert_firm
  | clockSet => exact execClockSet_firm
  | corePoint => exact execCorePoint_firm
  | avsbusStatusPoll answer => exact execAvsbusStatusPoll_firm
  | avsbusAck => exact execAvsbusAck_firm
  | avsbusAckTimeout => exact execAvsbusAckTimeout_firm
  | avsbusMonitor good reading => exact execAvsbusMonitor_firm
  | clkForcedSwitch mux => exact execClkForcedSwitch_firm
  | freqSourceSet => exact execFreqSourceSet_firm
  | sourceQualified plane => exact execSourceQualified_firm
  | sourceWtrExpiry => exact execSourceWtrExpiry_firm
  | dpllBridgeExpiry => exact execDpllBridgeExpiry_firm
  | rcTrim refIn ppb => exact execRcTrim_firm
  | timeAdjust => exact execTimeAdjust_firm
  | timeForce => exact execTimeForce_firm
  | timeConfig => exact execTimeConfig_firm
  | clockStatus => exact execClockStatus_firm
  | ppsOutRise => exact execPpsOutRise_firm
  | ppsOutFall => exact execPpsOutFall_firm
  | ppsInEdge => exact execPpsInEdge_firm
  | laneTxEq => exact execLaneTxEq_firm
  | laneRxEq => exact execLaneRxEq_firm
  | portSignals => exact execPortSignals_firm
  | hostLaneLpi => exact execHostLaneLpi_firm
  | laneTest => exact execLaneTest_firm
  | laneStatus => exact execLaneStatus_firm
  | opticsConfig => exact execOpticsConfig_firm
  | opticsStatus => exact execOpticsStatus_firm
  | opticsAccess answer => exact execOpticsAccess_firm
  | opticsPoll port reading => exact execOpticsPoll_firm
  | opticsBusStuck port => exact execOpticsBusStuck_firm
  | cdrLockChange lane locked => exact execCdrLockChange_firm
  | sdInputChange port level => exact execSdInputChange_firm
  | sdTDeassert port => exact execSdTDeassert_firm
  | bmRstPulseStart port => exact execBmRstPulseStart_firm
  | bmRstPulseEnd port => exact execBmRstPulseEnd_firm
  | planeConfig => exact execPlaneConfig_firm
  | planeStart => exact execPlaneStart_firm
  | planeStop => exact execPlaneStop_firm
  | planeStatus => exact execPlaneStatus_firm
  | planeCounters => exact execPlaneCounters_firm
  | defectConfig => exact execDefectConfig_firm
  | psyncMatchHunt hunter psync => exact execPsyncMatchHunt_firm
  | candidatePositionReached hunter cand psync frame => exact execCandidatePositionReached_firm
  | syncPositionReached hunter psync frame => exact execSyncPositionReached_firm
  | bwmapStructure plane alloc => exact execBwmapStructure_firm
  | ploamMessageRx plane msg => exact execPloamMessageRx_firm
  | xgemFrameDelineated plane frame => exact execXgemFrameDelineated_firm
  | reasmTimeout plane portId => exact execReasmTimeout_firm
  | losDeclare port => exact execLosDeclare_firm
  | losClear port => exact execLosClear_firm
  | lolDeclare moment => exact execLolDeclare_firm
  | lolClear moment => exact execLolClear_firm
  | lofDeclare moment => exact execLofDeclare_firm
  | lofClear moment => exact execLofClear_firm
  | lofecWindowEnd moment => exact execLofecWindowEnd_firm
  | sdWindowEnd moment => exact execSdWindowEnd_firm
  | tapBurst plane burst => exact execTapBurst_firm
  | termCreate => exact execTermCreate_firm
  | termDelete => exact execTermDelete_firm
  | termEnable => exact execTermEnable_firm
  | termDistance => exact execTermDistance_firm
  | termConfig => exact execTermConfig_firm
  | termMsk => exact execTermMsk_firm
  | termPortSet => exact execTermPortSet_firm
  | termMisbehave => exact execTermMisbehave_firm
  | termStatus => exact execTermStatus_firm
  | termPloamSend => exact execTermPloamSend_firm
  | termPloamRecv => exact execTermPloamRecv_firm
  | omciSend => exact execOmciSend_firm
  | omciRecv => exact execOmciRecv_firm
  | termPlaneConfig => exact execTermPlaneConfig_firm
  | termViewPloam term => exact execTermViewPloam_firm
  | termViewLods term lost => exact execTermViewLods_firm
  | termViewKeyIndex term keyIndex => exact execTermViewKeyIndex_firm
  | to1Expiry term => exact execTo1Expiry_firm
  | to2Expiry term => exact execTo2Expiry_firm
  | evTermsBulk plane => exact execEvTermsBulk_firm
  | ploamDelayExpiry term => exact execPloamDelayExpiry_firm
  | burstStart plane => exact execBurstStart_firm
  | poolReserve => exact execPoolReserve_firm
  | patternDescSet => exact execPatternDescSet_firm
  | amapWrite => exact execAmapWrite_firm
  | amapSwap => exact execAmapSwap_firm
  | amapCopyDone plane => exact execAmapCopyDone_firm
  | shaperSet => exact execShaperSet_firm
  | burstConfig => exact execBurstConfig_firm
  | spoutStatus => exact execSpoutStatus_firm
  | queueStatus => exact execQueueStatus_firm
  | rillMessage plane crcOk => exact execRillMessage_firm
  | rillKeepalive alive => exact execRillKeepalive_firm
  | rillTimeout plane => exact execRillTimeout_firm
  | rillRetrain plane trained => exact execRillRetrain_firm
  | rillUp plane => exact execRillUp_firm
  | fullCopyDone plane => exact execFullCopyDone_firm
  | engineWatchdog engine => exact execEngineWatchdog_firm
  | mirrorCheckFail engine cause => exact execMirrorCheckFail_firm
  | swapPeriodExpiry plane => exact execSwapPeriodExpiry_firm
  | roleSwap plane => exact execRoleSwap_firm
  | swapAbandon plane => exact execSwapAbandon_firm
  | holdOffExpiry plane => exact execHoldOffExpiry_firm
  | protWtrExpiry plane => exact execProtWtrExpiry_firm
  | protConfig => exact execProtConfig_firm
  | protSwap => exact execProtSwap_firm
  | protLine => exact execProtLine_firm
  | protStatus => exact execProtStatus_firm
  | protTakeoverList => exact execProtTakeoverList_firm
  | protEngineRestore passed => exact execProtEngineRestore_firm
  | clsPass0 item => exact execClsPass0_firm
  | clsPass1 item => exact execClsPass1_firm
  | clsExpiry item => exact execClsExpiry_firm
  | versionRetired => exact execVersionRetired_firm
  | ruleWrite => exact execRuleWrite_firm
  | profileWrite => exact execProfileWrite_firm
  | clsSourceWrite => exact execClsSourceWrite_firm
  | ruleCommit => exact execRuleCommit_firm
  | ruleStatus => exact execRuleStatus_firm
  | ruleRead => exact execRuleRead_firm
  | clsCounters => exact execClsCounters_firm
  | clsCpRecv => exact execClsCpRecv_firm
  | basinDecision basin item returned => exact execBasinDecision_firm
  | stagingTimeout basin item returned => exact execStagingTimeout_firm
  | foldWindowExpiry basin => exact execFoldWindowExpiry_firm
  | epochSecond basin => exact execEpochSecond_firm
  | gapWrite basin => exact execGapWrite_firm
  | weirNoReturn weir => exact execWeirNoReturn_firm
  | capConfig => exact execCapConfig_firm
  | capStart => exact execCapStart_firm
  | capStop => exact execCapStop_firm
  | capTrigger => exact execCapTrigger_firm
  | capRelease => exact execCapRelease_firm
  | capStatus => exact execCapStatus_firm
  | capSegments => exact execCapSegments_firm
  | capExport => exact execCapExport_firm
  | capWindowMap => exact execCapWindowMap_firm
  | capExportStop => exact execCapExportStop_firm
  | exportRecordSend exp => exact execExportRecordSend_firm
  | ringHoldExpiry exp => exact execRingHoldExpiry_firm
  | kernelLoad => exact execKernelLoad_firm
  | jobSubmit => exact execJobSubmit_firm
  | jobStatus => exact execJobStatus_firm
  | jobCancel => exact execJobCancel_firm
  | jobRelease => exact execJobRelease_firm
  | bundleIssue core bundle => exact execBundleIssue_firm
  | blockNext core => exact execBlockNext_firm
  | outFlush core => exact execOutFlush_firm
  | doneService core => exact execDoneService_firm
  | cycles core => exact execCycles_firm
  | jobTimeLimit core => exact execJobTimeLimit_firm
  | coreNoIssue core => exact execCoreNoIssue_firm
  | memConfig => exact execMemConfig_firm
  | memStatus => exact execMemStatus_firm
  | memSramStatus => exact execMemSramStatus_firm
  | memFlip => exact execMemFlip_firm
  | memFenceList => exact execMemFenceList_firm
  | scrubBlock stack => exact execScrubBlock_firm
  | innerCountRead stack count => exact execInnerCountRead_firm
  | stackTempReport stack above85 => exact execStackTempReport_firm
  | stackLinkLost stack => exact execStackLinkLost_firm
  | sramRepairDone inst addr ok => exact execSramRepairDone_firm
  | dmaChannelReset parterre channel => exact execDmaChannelReset_firm
  | kekEstablish => exact execKekEstablish_firm
  | keyUnwrap => exact execKeyUnwrap_firm
  | keyZeroise => exact execKeyZeroise_firm
  | keyStatus => exact execKeyStatus_firm
  | bundleLoad => exact execBundleLoad_firm
  | segSealOut => exact execSegSealOut_firm
  | xferStatus => exact execXferStatus_firm
  | cipherStatus => exact execCipherStatus_firm
  | xferBuffer xfer => exact execXferBuffer_firm
  | bundleTagCheck xfer => exact execBundleTagCheck_firm
  | zeroFillDone xfer => exact execZeroFillDone_firm
  | xferStall xfer => exact execXferStall_firm
  | drbgReseed failed => exact execDrbgReseed_firm
  | hostPortConfig => exact execHostPortConfig_firm
  | hostPortStart => exact execHostPortStart_firm
  | hostPortStop => exact execHostPortStop_firm
  | hostPortStatus => exact execHostPortStatus_firm
  | hostPortCounters => exact execHostPortCounters_firm
  | hostClassSet => exact execHostClassSet_firm
  | hostPortSend => exact execHostPortSend_firm
  | hostPortRecv => exact execHostPortRecv_firm
  | ptpTxTsRead => exact execPtpTxTsRead_firm
  | hostLinkUp port eeeNegotiated => exact execHostLinkUp_firm
  | hostLinkDown port cond => exact execHostLinkDown_firm
  | anRestart port => exact execAnRestart_firm
  | hostFrameRx port data check fecCorrected fecUncorrectable => exact execHostFrameRx_firm
  | hostFrameTx port => exact execHostFrameTx_firm
  | pauseExpiry port cls => exact execPauseExpiry_firm
  | pauseWdExpiry port cls => exact execPauseWdExpiry_firm
  | pauseWdHoldEnd port cls => exact execPauseWdHoldEnd_firm
  | lpiIdleExpiry moment => exact execLpiIdleExpiry_firm
  | chassisConfig => exact execChassisConfig_firm
  | chassisSend => exact execChassisSend_firm
  | chassisStatus => exact execChassisStatus_firm
  | chassisFrameRx data fcsOk => exact execChassisFrameRx_firm
  | chassisTxAttempt collides => exact execChassisTxAttempt_firm
  | chassisCollision late => exact execChassisCollision_firm
  | backoffExpiry => exact execBackoffExpiry_firm
  | chassisTxAged => exact execChassisTxAged_firm
  | peerAgeExpiry identity => exact execPeerAgeExpiry_firm
  | markPeriodExpiry => exact execMarkPeriodExpiry_firm
  | powerState => exact execPowerState_firm
  | powerBudgetSet => exact execPowerBudgetSet_firm
  | powerStatus => exact execPowerStatus_firm
  | gateAck island => exact execGateAck_firm
  | gateTimeout island => exact execGateTimeout_firm
  | wakeTimerExpiry => exact execWakeTimerExpiry_firm
  | wakeComplete stillNs => exact execWakeComplete_firm
  | sluiceWindow fixedUj => exact execSluiceWindow_firm
  | thermalReading temps => exact execThermalReading_firm
  | logRead => exact execLogRead_firm
  | logClear => exact execLogClear_firm
  | logEraseDone => exact execLogEraseDone_firm
  | recordProgrammed => exact execRecordProgrammed_firm
  | hourTick => exact execHourTick_firm
  | pwrFailNAssert => exact execPwrFailNAssert_firm
  | pwrFailNDeassert => exact execPwrFailNDeassert_firm
  | unassignedOpcode => exact execUnassignedOpcode_firm
  | pcieD0ConfigWrite => exact execPcieD0ConfigWrite_firm
  | prbsCheckerLock lane good bad more => exact execPrbsCheckerLock_firm
  | weirSelfCheck weir passed => exact execWeirSelfCheck_firm

/-- Every command is steady: the resets by what they keep, the others because they are firm. -/
theorem exec_steady (i : Instr) (s : State) : SteadyOut s (exec i s) := by
  cases hr : isReset i with
  | false => exact (exec_firm hr).steady
  | true =>
    cases i with
    | porNDeassert straps env => exact execPorNDeassert_steady straps env s
    | porNAssert => exact execPorNAssert_steady s
    | perstNDeassert env => exact execPerstNDeassert_steady env s
    | softResetWrite value env => exact execSoftResetWrite_steady value env s
    | deviceResetDelayExpiry env => exact execDeviceResetDelayExpiry_steady env s
    | supplyRemoval => exact execSupplyRemoval_steady s
    | _ => exact absurd hr Bool.noConfusion

theorem Firm.of_exec {i : Instr} {s t : State} (hr : isReset i = false) (he : exec i s = .next t) : Firm s t := by
  have h : FirmOut s (exec i s) := exec_firm hr
  rw [he] at h
  exact h

theorem Steady.of_exec {i : Instr} {s t : State} (he : exec i s = .next t) : Steady s t := by
  have h := exec_steady i s
  rw [he] at h
  exact h

/-! ### The step -/

theorem step_nil {s : State} (h : s.pending = []) : step s = .next (passTime s) := by
  unfold step
  rw [h]

theorem step_cons {s : State} {c : Instr} {rest : List Instr} (h : s.pending = c :: rest) :
    step s = exec c { s with pending := rest } := by
  unfold step
  rw [h]

theorem passTime_runs {s : State} (h : timeRuns s = true) :
    passTime s = hostCycle 3 (hostCycle 2 (hostCycle 1 (hostCycle 0 (endBursts 1 (endBursts 0 (tick s)))))) := if_pos h

theorem passTime_stands {s : State} (h : timeRuns s = false) : passTime s = s := by
  unfold passTime
  rw [h]
  rfl

/-- The queue is no part of the memories: a step keeps them canonical as its command does, or as time does. -/
theorem step_keeps_mems {s t : State} (hm : Mems s) (h : step s = .next t) : Mems t := by
  cases hp : s.pending with
  | nil =>
    rw [step_nil hp] at h
    cases h
    exact (passTime_firm (Firm.refl s)).mems hm
  | cons c rest =>
    rw [step_cons hp] at h
    exact (Steady.of_exec h).mems hm

/-! ### The identity registers -/

/-- The identity registers read the variant, the stepping and the serial number alone (R40). -/
theorem regRead_of_ident {s t : State} (h : t.ident = s.ident) {off : Nat} (ho : off ∈ [0x0, 0x4, 0x8, 0xC]) :
    regRead t off = regRead s off := by
  have hi : identReg t off = identReg s off := by
    fin_cases ho <;> simp [identReg, stackTotal, h]
  have hlt : off < 0x1000 := by
    fin_cases ho <;> decide
  simp [regRead, hlt, hi]

/-! ### The flash at reset -/

/-- The cells of a byte string from an address on, without those that hold what an unlisted address reads as (log 11). -/
def cellsOf (d : Byte) (a : Nat) (bs : Bytes) : Mem :=
  (bs.zipIdx a).filterMap fun c => if c.1 = d then none else some (c.2, c.1)

theorem factoryFlash_eq : factoryFlash = cellsOf 0xFF 0x100000 factoryHeader := rfl

theorem cellsOf_cons (d b : Byte) (a : Nat) (bs : Bytes) :
    cellsOf d a (b :: bs) = if b = d then cellsOf d (a + 1) bs else (a, b) :: cellsOf d (a + 1) bs := by
  unfold cellsOf
  by_cases h : b = d <;> simp [List.zipIdx_cons, h]

theorem above_cellsOf {d : Byte} {n a : Nat} {bs : Bytes} (h : n < a) : above n (cellsOf d a bs) = true := by
  induction bs generalizing a with
  | nil => rfl
  | cons b bs ih =>
    rw [cellsOf_cons]
    have h' := ih (a := a + 1) (by omega)
    split
    · exact h'
    · simpa [above, h] using h'

/-- The cells of a byte string are in canonical form. -/
theorem wf_cellsOf (d : Byte) (a : Nat) (bs : Bytes) : Memory.wf d (cellsOf d a bs) = true := by
  induction bs generalizing a with
  | nil => rfl
  | cons b bs ih =>
    rw [cellsOf_cons]
    split
    · exact ih (a + 1)
    · next h =>
      have h' := ih (a + 1)
      unfold Memory.wf at h' ⊢
      rw [Bool.and_eq_true] at h' ⊢
      exact ⟨by rw [tsorted_cons, above_cellsOf (Nat.lt_succ_self a), h'.1]; rfl, by simpa [h] using h'.2⟩

/-! ### The obligations -/

/-- Settles O46: every command is steady, and the identity registers read the identity alone. -/
theorem queueAndIdentityKept : Obligations.QueueAndIdentityKept := by
  unfold Obligations.QueueAndIdentityKept
  intro i s t he
  obtain ⟨hp, hi, -⟩ := Steady.of_exec he
  exact ⟨hp, hi, congrArg Ident.certChain hi, regRead_of_ident hi (by simp), regRead_of_ident hi (by simp),
    regRead_of_ident hi (by simp), regRead_of_ident hi (by simp)⟩

/-- Settles O47: a command keeps the memories because it is steady, a cycle of CK_TS because it is firm. -/
theorem memoriesStayCanonical : Obligations.MemoriesStayCanonical := by
  unfold Obligations.MemoriesStayCanonical
  intro s t hm h
  exact step_keeps_mems hm h

/-- Settles O48: at reset the memories hold no byte but the flash's image, and the device in BOOT has no entry under way. -/
theorem invariantsHoldAtReset : Obligations.InvariantsHoldAtReset := by
  unfold Obligations.InvariantsHoldAtReset
  have hf : Memory.wf 0xFF factoryFlash = true := by
    rw [factoryFlash_eq]
    exact wf_cellsOf ..
  exact ⟨⟨rfl, rfl, hf, rfl, rfl⟩, fun _ => rfl⟩
/-- Settles O50: every command but the resets is firm. -/
theorem faultLeftOnlyByReset : Obligations.FaultLeftOnlyByReset := by
  unfold Obligations.FaultLeftOnlyByReset
  intro i s t hidle hr he
  have h := Firm.of_exec hr he
  exact ⟨h.idle hidle, h.fault hidle⟩

/-- Settles O45: the two cases of the queue, and of CK_TS. -/
theorem stepTakesTheFrontCommand : Obligations.StepTakesTheFrontCommand := by
  unfold Obligations.StepTakesTheFrontCommand
  exact ⟨fun _ _ _ => step_cons, fun _ => step_nil, fun _ => passTime_runs, fun _ => passTime_stands⟩

end Sys2Proof.Machine
end

section
/-!
PROOFS. Serving a request: every command of the mailboxes is served alike, so the general checks (R53, R54, R58, R529) are
said once for all of them, and so is what taking up and answering leave alone (R47, R49, R52).
-/
namespace Sys2Proof.Machine

/-! ### Every mailbox command is served -/

/-- A command of the mailboxes is served by its own effect: the model's arms differ in the effect alone. -/
theorem exec_served {i : Instr} {c : CmdSpec} (h : specOf i = some c) : ∃ act, ∀ s, exec i s = .next (serve c act s) := by
  cases i <;> cases h <;> exact ⟨_, fun _ => rfl⟩

theorem exec_unassignedOpcode {s : State} {r : Req} (hn : nextReq s = some r) (ha : assigned r.opcode = false) :
    exec .unassignedOpcode s = .next (serve (unassignedSpec r.opcode) unassignedAct s) := by
  change execUnassignedOpcode s = _
  unfold execUnassignedOpcode
  rw [hn]
  simp [ha]

/-! ### The general checks (R529) -/

section
variable {c : CmdSpec} {bad : Bool} {r : Req} {s : State}

theorem firstFailure_of_header (h : headerOk bad r = false) : firstFailure c bad r s = some stBadParam := by
  simp [firstFailure, h]

theorem firstFailure_of_bind (h : headerOk bad r = true) (hb : bindOk s r = false) :
    firstFailure c bad r s = some stDenied := by
  simp [firstFailure, h, hb]

/-- A request that passes the checks 1 to 3 is decided by privilege, device state and payload form. -/
theorem firstFailure_admitted (h : headerOk bad r = true) (hb : bindOk s r = true) (hs : r.ch ≠ 16 ∨ c.smb = true) :
    firstFailure c bad r s =
      if c.priv ∧ r.client ≠ 0 then some stDenied
      else if !c.legal s.ctl.devState then some stStateConflict
      else if !c.form r.payload then some stBadParam
      else none := by
  have h3 : ¬(r.ch = 16 ∧ (!c.smb) = true) := by
    rintro ⟨h16, hsmb⟩
    cases hs with
    | inl hc => exact hc h16
    | inr hc => simp [hc] at hsmb
  unfold firstFailure
  rw [h, hb, if_neg (by decide), if_neg (by decide), if_neg h3]

theorem firstFailure_privileged (h : headerOk bad r = true) (hb : bindOk s r = true) (hs : r.ch ≠ 16 ∨ c.smb = true)
    (hp : c.priv = false ∨ r.client = 0) :
    firstFailure c bad r s =
      if !c.legal s.ctl.devState then some stStateConflict else if !c.form r.payload then some stBadParam else none := by
  have h4 : ¬((c.priv = true) ∧ r.client ≠ 0) := by
    rintro ⟨hpriv, hcl⟩
    cases hp with
    | inl hc => simp [hc] at hpriv
    | inr hc => exact hcl hc
  rw [firstFailure_admitted h hb hs, if_neg h4]

/-- What R53 calls malformed fails the header check. -/
theorem headerOk_malformed
    (h : r.sum ≠ crc32c (r.head ++ zeros 4 ++ r.payload) ∨ 240 < r.len ∨ r.resv ≠ 0 ∨ r.flags / 2 ≠ 0) :
    headerOk bad r = false := by
  rw [Bool.eq_false_iff]
  intro hok
  simp only [headerOk, sumOk, Bool.and_eq_true, beq_iff_eq, decide_eq_true_eq] at hok
  obtain ⟨⟨⟨⟨⟨-, hsum⟩, hlen⟩, hresv⟩, hflags⟩, -⟩ := hok
  rcases h with h | h | h | h
  · exact h hsum
  · omega
  · exact h hresv
  · exact h hflags

/-- An injected check-sum failure fails the header check (R509, 0x14). -/
theorem headerOk_injected : headerOk true r = false := rfl

theorem sumOk_of_headerOk (h : headerOk bad r = true) : sumOk bad r = true := by
  simp only [headerOk, Bool.and_eq_true] at h
  exact h.1.1.1.1

/-! ### The checksum latch (R44, R53) -/

theorem noteChecksum_good (h : sumOk bad r = true) : noteChecksum bad r s = s := by
  simp [noteChecksum, h]

theorem noteChecksum_latches (h : sumOk bad r = false) (hc : r.ch ≠ 16) :
    noteChecksum bad r s = modChan r.ch (fun c => { c with checksum := true }) s := by
  simp [noteChecksum, h, hc]

theorem sumOk_eq_false (h : bad = true ∨ r.sum ≠ crc32c (r.head ++ zeros 4 ++ r.payload)) : sumOk bad r = false := by
  unfold sumOk
  cases h with
  | inl h => rw [h]; rfl
  | inr h => rw [beq_false_of_ne h, Bool.and_false]

theorem sumOk_of_sum (h : r.sum = crc32c (r.head ++ zeros 4 ++ r.payload)) : sumOk false r = true := by
  unfold sumOk
  rw [← h, beq_self_eq_true]
  rfl

/-! ### The channels of a taken request -/

theorem chan_takeUp_of_ne {n : Nat} (h : n ≠ r.ch) : chan (takeUp r s) n = chan s n := by
  unfold takeUp
  dsimp only
  split
  · rfl
  · rw [chan_modChan, if_neg h]
    rfl

/-- Taking up a request leaves the binding of every channel alone. -/
theorem chan_takeUp_binding (n : Nat) :
    (chan (takeUp r s) n).bound = (chan s n).bound ∧ (chan (takeUp r s) n).bindClient = (chan s n).bindClient := by
  unfold takeUp
  dsimp only
  split
  · exact ⟨rfl, rfl⟩
  · rw [chan_modChan]
    split
    · next h => rw [h]; exact ⟨rfl, rfl⟩
    · exact ⟨rfl, rfl⟩

@[simp] theorem bindOk_takeUp (q : Req) : bindOk (takeUp r s) q = bindOk s q := by
  obtain ⟨hb, hc⟩ := chan_takeUp_binding (r := r) (s := s) q.ch
  simp [bindOk, hb, hc]

theorem bindOk_bound (hc : r.ch ≠ 16) (hb : (chan s r.ch).bound = true) (hn : r.client ≠ (chan s r.ch).bindClient) :
    bindOk s r = false := by
  simp [bindOk, hc, hb, hn]

theorem bindOk_unbound (hb : (chan s r.ch).bound = false) : bindOk s r = true := by
  simp [bindOk, hb]

/-! ### Requests that a check stops -/

theorem failureBytes_eq {st : Nat} (h : st ≠ stStateConflict) : failureBytes st s = [] := if_neg h

/-- A malformed request is answered ST_BAD_PARAM without a payload. -/
theorem serve_malformed (hn : nextReq s = some r) (ho : r.opcode = c.op) (hi : injIndex 0x14 r.ch s = none)
    (h : r.sum ≠ crc32c (r.head ++ zeros 4 ++ r.payload) ∨ 240 < r.len ∨ r.resv ≠ 0 ∨ r.flags / 2 ≠ 0)
    (act : Req → State → Served) :
    serve c act s = answered r stBadParam [] (noteChecksum false r (takeUp r s)) := by
  rw [serve_fails hn ho hi (firstFailure_of_header (headerOk_malformed h)), failureBytes_eq (by decide)]

/-- A request whose check sum an injection spoils is answered ST_BAD_PARAM, from the state after the occurrence. -/
theorem serve_injected {p : Word} {x : State} (hn : nextReq s = some r) (ho : r.opcode = c.op)
    (hi : occurrence 0x14 r.ch s = (some p, x)) (act : Req → State → Served) :
    serve c act s = answered r stBadParam [] (noteChecksum true r (takeUp r x)) := by
  have hf : ∀ x, firstFailure c true r x = some stBadParam := fun _ => firstFailure_of_header headerOk_injected
  have hb : ∀ x, failureBytes stBadParam x = [] := fun _ => failureBytes_eq (by decide)
  simp [serve, hn, ho, hi, hf, hb, answered]

/-- A request from a client that the channel is not bound to is answered ST_DENIED and changes nothing else. -/
theorem serve_denied (hn : nextReq s = some r) (ho : r.opcode = c.op) (hi : injIndex 0x14 r.ch s = none)
    (h : headerOk false r = true) (hb : bindOk s r = false) (act : Req → State → Served) :
    serve c act s = answered r stDenied [] (takeUp r s) := by
  have hs : noteChecksum false r (takeUp r s) = takeUp r s := noteChecksum_good (sumOk_of_headerOk h)
  have hf : firstFailure c false r (takeUp r s) = some stDenied := firstFailure_of_bind h (by simpa using hb)
  rw [serve_fails hn ho hi (hs.symm ▸ hf), hs, failureBytes_eq (by decide)]

/-! ### A CP that does not run (R58) -/

theorem nextReq_of_stopped (h : cpRuns s = false) : nextReq s = none := by
  simp [nextReq, h]

theorem cpRuns_of_stopped (h : s.ctl.devState = .boot ∨ s.ctl.devState = .still) : cpRuns s = false := by
  rcases h with h | h <;> simp [cpRuns, readyToFault, h]

theorem serve_of_stopped (h : s.ctl.devState = .boot ∨ s.ctl.devState = .still) (act : Req → State → Served) :
    serve c act s = s :=
  serve_idle (by simp [nextReq_of_stopped (cpRuns_of_stopped h)]) act

/-! ### A posted response (R47, R52) -/

/-- A signalled vector changes of the ring registers the pending bits alone. -/
theorem rings_signal (v : Nat) (s : State) : ∃ p, (signal v s).rings = { s.rings with pba := p } := by
  unfold signal
  split
  · exact ⟨_, rfl⟩
  · exact ⟨_, rfl⟩

@[simp] theorem mbx_signal (v : Nat) (s : State) : (signal v s).mbx = s.mbx := by
  obtain ⟨o, x, h⟩ := signal_form v s
  rw [h]

/-- The answer of a request of the fallback mailbox waits there. -/
theorem answered_smbus (h : r.ch = 16) (st : Nat) (p : Bytes) (s : State) :
    answered r st p s = { s with mbx := { s.mbx with
      smbState := .ready
      smbResp := responseBytes r.tag st s.ctl.devState p } } := by
  simp [answered, postResponse, reqExec, h]

/-- The response of a channel's request, in its slot. -/
def responsePosted (r : Req) (st : Nat) (p : Bytes) (s : State) : State :=
  modChan r.ch (fun c => { c with slots := c.slots.set r.slot .done }) { s with mbx := { s.mbx with
    resp := tset s.mbx.resp (4 * r.ch + r.slot) (patch (tget (zeros 256) s.mbx.resp (4 * r.ch + r.slot)) 0
      (responseBytes r.tag st s.ctl.devState p)) } }

/-- The answer of a request of a channel: the response, then the channel's vector where the request asks for it. -/
theorem answered_channel (h : r.ch ≠ 16) (st : Nat) (p : Bytes) (s : State) :
    answered r st p s =
      if bit r.flags 0 then signal (r.ch + 1) (responsePosted r st p s) else responsePosted r st p s := by
  unfold answered postResponse
  have hd : ¬(reqExec r).discard = true := Bool.false_ne_true
  have hc : ¬(reqExec r).ch = 16 := h
  dsimp only
  rw [if_neg hd, if_neg hc]
  rfl

/-- Answering changes of the ring registers the pending bits alone. -/
theorem rings_answered (r : Req) (st : Nat) (p : Bytes) (s : State) :
    ∃ b, (answered r st p s).rings = { s.rings with pba := b } := by
  by_cases h : r.ch = 16
  · rw [answered_smbus h]
    exact ⟨_, rfl⟩
  · rw [answered_channel h]
    split
    · exact rings_signal _ _
    · exact ⟨_, rfl⟩

theorem mbx_answered_channel (h : r.ch ≠ 16) (st : Nat) (p : Bytes) (s : State) :
    (answered r st p s).mbx = (responsePosted r st p s).mbx := by
  rw [answered_channel h]
  split
  · exact mbx_signal _ _
  · rfl

theorem req_answered (r : Req) (st : Nat) (p : Bytes) (s : State) : (answered r st p s).mbx.req = s.mbx.req := by
  by_cases h : r.ch = 16
  · rw [answered_smbus h]
  · rw [mbx_answered_channel h]
    rfl

theorem chan_answered (r : Req) (st : Nat) (p : Bytes) (s : State) (n : Nat) :
    chan (answered r st p s) n =
      if n = r.ch ∧ r.ch ≠ 16 then { chan s n with slots := (chan s n).slots.set r.slot .done } else chan s n := by
  by_cases h : r.ch = 16
  · rw [answered_smbus h, if_neg (fun hc => hc.2 h)]
    rfl
  · have hm : chan (answered r st p s) n = chan (responsePosted r st p s) n := by
      unfold chan
      rw [mbx_answered_channel h]
    rw [hm, responsePosted, chan_modChan]
    by_cases hn : n = r.ch
    · subst hn
      rw [if_pos rfl, if_pos ⟨rfl, h⟩]
      rfl
    · rw [if_neg hn, if_neg (fun hc => hn hc.1)]
      rfl

theorem devState_answered (r : Req) (st : Nat) (p : Bytes) (s : State) :
    (answered r st p s).ctl.devState = s.ctl.devState := by
  obtain ⟨o, x, m, h⟩ := postResponse_form (reqExec r) st p s
  rw [answered, h]

/-- A byte string that was patched over another's start is read back there. -/
theorem slice_patch_zero (bs p : Bytes) : slice (patch bs 0 p) 0 p.length = p := by
  simp [slice, patch, zeros]

end

/-! ### The obligations -/

/-- Settles O51: the checks in the order of R529, and a request that one of them stops. -/
theorem firstFailedCheckDecides : Obligations.FirstFailedCheckDecides := by
  unfold Obligations.FirstFailedCheckDecides
  refine ⟨?stops, fun _ _ _ => firstFailure_of_header, fun _ _ _ => firstFailure_of_bind, ?smbus, ?priv, ?state, ?form⟩
  case stops =>
    intro i c s r st hc hn ho hi hf
    obtain ⟨act, he⟩ := exec_served hc
    rw [he, serve_fails hn ho hi hf]
  case smbus =>
    intro c r s h hb hch hs
    simp [firstFailure, h, hb, hch, hs]
  case priv =>
    intro c r s h hb hs hp hcl
    rw [firstFailure_admitted h hb hs, if_pos ⟨hp, hcl⟩]
  case state =>
    intro c r s h hb hs hp hl
    rw [firstFailure_privileged h hb hs hp, hl]
    rfl
  case form =>
    intro c r s h hb hs hp hl hf
    rw [firstFailure_privileged h hb hs hp, hl, hf]
    rfl

/-- Settles O52: what R53 calls malformed fails the first check, and so does an injected failure. -/
theorem malformedRequestsRefused : Obligations.MalformedRequestsRefused := by
  unfold Obligations.MalformedRequestsRefused
  refine ⟨?command, ?unassigned, ?injected, ?latch, ?good⟩
  case command =>
    intro i c s r hc hn ho hi h
    obtain ⟨act, he⟩ := exec_served hc
    rw [he, serve_malformed hn ho hi h]
  case unassigned =>
    intro s r hn ha hi h
    rw [exec_unassignedOpcode hn ha, serve_malformed hn rfl hi h]
  case injected =>
    intro i c s r p x hc hn ho hi
    obtain ⟨act, he⟩ := exec_served hc
    rw [he, serve_injected hn ho hi]
  case latch =>
    intro bad s r hch h
    exact noteChecksum_latches (sumOk_eq_false h) hch
  case good =>
    intro s r h
    exact noteChecksum_good (sumOk_of_sum h)

/-- Settles O53: a bound channel fails the second check of another client's request, and an unbound one passes it. -/
theorem bindingRestrainsClients : Obligations.BindingRestrainsClients := by
  unfold Obligations.BindingRestrainsClients
  refine ⟨?command, ?unassigned, ?unbound⟩
  case command =>
    intro i c s r hc hn ho hi h hch hb hcl
    obtain ⟨act, he⟩ := exec_served hc
    rw [he, serve_denied hn ho hi h (bindOk_bound hch hb hcl)]
  case unassigned =>
    intro s r hn ha hi h hch hb hcl
    rw [exec_unassignedOpcode hn ha, serve_denied hn rfl hi h (bindOk_bound hch hb hcl)]
  case unbound =>
    intro c s r h hb hs hp hl hf
    rw [firstFailure_privileged h (bindOk_unbound hb) hs hp, hl, hf]
    rfl

/-- Settles O54: in BOOT and STILL the CP does not run, so no request is next. -/
theorem bootAndStillServeNothing : Obligations.BootAndStillServeNothing := by
  unfold Obligations.BootAndStillServeNothing
  refine ⟨?command, ?unassigned⟩
  case command =>
    intro i c s hc hs
    obtain ⟨act, he⟩ := exec_served hc
    rw [he, serve_of_stopped hs]
  case unassigned =>
    intro s hs
    change execUnassignedOpcode s = _
    unfold execUnassignedOpcode
    rw [nextReq_of_stopped (cpRuns_of_stopped hs)]

/-- Settles O57: the frames of taking up and of answering, and what the channel's slot holds afterwards. -/
theorem servingChangesOnlyMailboxes : Obligations.ServingChangesOnlyMailboxes := by
  unfold Obligations.ServingChangesOnlyMailboxes
  refine ⟨takeUp_eq, ?frame, ?kept, ?others, ?slot, ?smbus⟩
  case frame =>
    intro r st p s
    obtain ⟨o, x, m, h⟩ := postResponse_form (reqExec r) st p s
    rw [answered, h]
  case kept =>
    intro r st p s
    obtain ⟨b, hb⟩ := rings_answered r st p s
    rw [hb]
    exact ⟨rfl, rfl, rfl, devState_answered r st p s, req_answered r st p s⟩
  case others =>
    intro r st p s n hn
    exact ⟨by rw [chan_answered, if_neg fun h => hn h.1], chan_takeUp_of_ne hn⟩
  case slot =>
    intro r st p s hc hl
    refine ⟨?_, ?_⟩
    · rw [chan_answered, if_pos ⟨rfl, hc⟩]
      simp [hl]
    · rw [mbx_answered_channel hc]
      simp only [responsePosted, modChan, tget_tset_self]
      exact slice_patch_zero ..
  case smbus =>
    intro r st p s hc
    rw [answered_smbus hc]
    exact ⟨rfl, rfl⟩

/-- Settles O1: each of the commands passes the general checks and is then its own effect. -/
theorem deviceCommandsComplete : Obligations.DeviceCommandsComplete := by
  unfold Obligations.DeviceCommandsComplete
  refine ⟨?nop, ?info, ?start, ?stop, ?reset⟩
  case nop => exact fun s r h => congrArg Host.Outcome.next (serve_accepts h nopAct)
  case info => exact fun s r h => congrArg Host.Outcome.next (serve_accepts h deviceInfoAct)
  case start => exact fun s r h => congrArg Host.Outcome.next (serve_accepts h deviceStartAct)
  case stop => exact fun s r h => congrArg Host.Outcome.next (serve_accepts h deviceStopAct)
  case reset => exact fun s r h => congrArg Host.Outcome.next (serve_accepts h deviceResetAct)

/-- Settles O4: an opcode that no command has passes to its own answer, ST_UNSUPPORTED. -/
theorem unassignedOpcodeAnswered : Obligations.UnassignedOpcodeAnswered := by
  unfold Obligations.UnassignedOpcodeAnswered
  intro s r h ha
  rw [exec_unassignedOpcode h.1 ha]
  exact congrArg Host.Outcome.next (serve_accepts h unassignedAct)

end Sys2Proof.Machine
end

section
/-!
PROOFS. The mailboxes as the host sees them (R44, R45, R48, R52, R474) and the SMBus transactions (R69, R70): each access
said once where it reaches the channel page, and from these what the slots hold and what a doorbell submits.
-/
namespace Sys2Proof.Machine

section
variable {s : State} {ch off v : Nat} {data : Bytes}

/-! ### Accesses to a channel page -/

theorem timeRegion_pageOff (hc : ch < 16) (ho : off < 0x1000) : timeRegion (pageOff ch off) = false := by
  unfold timeRegion pageOff
  exact decide_eq_false (by omega)

/-- Outside STILL an access to a channel page has its own effect. -/
theorem barAccess_page {write : Bool} {n : Nat} {f : State → State} (ha : aonRuns s = true) (hs : s.ctl.devState ≠ .still)
    (hc : ch < 16) (ho : off < 0x1000) : barAccess write 0 (pageOff ch off) n f s = f s :=
  barAccess_up ha (offDomain_awake hs (fun _ => timeRegion_pageOff hc ho) (by decide))

/-- A register of a channel page reads as its mailbox register. -/
theorem regRead_pageOff (hc : ch < 16) (ho : off < 0x1000) :
    regRead s (pageOff ch off) = BitVec.ofNat 32 (mailboxReg s ch off) := by
  have h1 : ¬pageOff ch off < 0x1000 := by unfold pageOff; omega
  have h2 : 0x10000 ≤ pageOff ch off ∧ pageOff ch off < 0x20000 := by unfold pageOff; omega
  have h3 : (pageOff ch off - 0x10000) / 0x1000 = ch := by unfold pageOff; omega
  have h4 : pageOff ch off % 0x1000 = off := by unfold pageOff; omega
  unfold regRead
  rw [if_neg h1, if_pos h2, h3, h4]

/-! ### A request slot (R45) -/

/-- Bytes stored in the request slots. -/
def slotStored (ch off : Nat) (data : Bytes) (s : State) : State :=
  { s with mbx := { s.mbx with req := Memory.writeBytes 0 s.mbx.req (ch * 0x1000 + off) data } }

/-- A write that WRITE_DISCARDED records. -/
def slotDiscarded (ch : Nat) (s : State) : State := modChan ch (fun c => { c with writeDiscarded := true }) s

/-- A write that names bytes of a slot is stored while that slot is FREE, and discarded otherwise. -/
theorem slotWrite_eq (hc : ch < 16) (ho : off < 0x400) (hd : slotAccess off data = true) :
    slotWrite ch off data s =
      if (chan s ch).slots.getD (off / 0x100) .free = .free then slotStored ch off data s else slotDiscarded ch s := by
  have h : ¬(16 ≤ ch ∨ 0x400 ≤ off ∨ (!slotAccess off data) = true) := by
    simp only [hd, Bool.not_true, Bool.false_eq_true, or_false]
    omega
  unfold slotWrite
  rw [if_neg h]
  rfl

/-- A write that names no bytes of a slot changes nothing. -/
theorem slotWrite_outside (h : 16 ≤ ch ∨ 0x400 ≤ off ∨ slotAccess off data = false) : slotWrite ch off data s = s := by
  unfold slotWrite
  rw [if_pos (by simpa using h)]

theorem exec_requestSlotWrite (ha : aonRuns s = true) (hs : s.ctl.devState ≠ .still) (hc : ch < 16) (ho : off < 0x400)
    (hd : slotAccess off data = true) :
    exec (.requestSlotWrite ch off data) s = .next
      (if (chan s ch).slots.getD (off / 0x100) .free = .free then slotStored ch off data s else slotDiscarded ch s) := by
  change Host.Outcome.next (barAccess true 0 (pageOff ch off) data.length (slotWrite ch off data) s) = _
  rw [barAccess_page ha hs hc (by omega), slotWrite_eq hc ho hd]

/-- A write to a request slot lies in that slot. -/
theorem slotAccess_inside (hd : slotAccess off data = true) : off % 0x100 + data.length ≤ 0x100 := by
  simp only [slotAccess, Bool.or_eq_true, Bool.and_eq_true, beq_iff_eq] at hd
  omega

/-- A request reads the same where the bytes of its slot do. -/
theorem readReq_congr {t : State} {slot : Nat} (hc : ch < 16)
    (h : ∀ a, ch * 0x1000 + slot * 0x100 ≤ a → a < ch * 0x1000 + slot * 0x100 + 256 →
      Memory.read 0 t.mbx.req a = Memory.read 0 s.mbx.req a) : readReq t ch slot = readReq s ch slot := by
  unfold readReq
  rw [if_neg (Nat.ne_of_lt hc), if_neg (Nat.ne_of_lt hc), Memory.readBytes_congr _ _ _ _ _ h]

/-- Storing bytes in one slot leaves the request of another alone. -/
theorem readReq_slotStored {ch' slot : Nat} (ho : off < 0x400) (hd : slotAccess off data = true) (hc : ch' < 16)
    (hs : slot < 4) (h : ¬(ch' = ch ∧ slot = off / 0x100)) :
    readReq (slotStored ch off data s) ch' slot = readReq s ch' slot := by
  have hin := slotAccess_inside hd
  refine readReq_congr hc fun a h1 h2 => Memory.read_writeBytes_outside _ _ _ _ _ ?_
  omega

/-- A host write never changes the request of a slot that is not FREE. -/
theorem readReq_slotWrite {ch' slot : Nat} (hc : ch' < 16) (hs : slot < 4)
    (h : (chan s ch').slots.getD slot .free ≠ .free) :
    readReq (slotWrite ch off data s) ch' slot = readReq s ch' slot := by
  by_cases hw : 16 ≤ ch ∨ 0x400 ≤ off ∨ slotAccess off data = false
  · rw [slotWrite_outside hw]
  · simp only [not_or, Nat.not_le, Bool.not_eq_false] at hw
    obtain ⟨hch, ho, hd⟩ := hw
    rw [slotWrite_eq hch ho hd]
    split
    · next hf =>
      refine readReq_slotStored ho hd hc hs ?_
      rintro ⟨rfl, rfl⟩
      exact h hf
    · rfl

/-- An access to a stopped island leaves the mailboxes alone. -/
@[simp] theorem mbx_offAccess (write : Bool) (bar off n : Nat) (s : State) : (offAccess write bar off n s).mbx = s.mbx := by
  unfold offAccess
  cases write <;> rfl

theorem readReq_offAccess (write : Bool) (bar off n ch slot : Nat) (s : State) :
    readReq (offAccess write bar off n s) ch slot = readReq s ch slot := by
  unfold readReq
  rw [mbx_offAccess]

/-! ### A doorbell (R48, R49) -/

/-- A channel after a doorbell's bit for one of its slots. -/
def submit (c : Chan) (slot : Nat) : Chan :=
  if c.slots.getD slot .done = .free then { c with slots := c.slots.set slot .submitted, queue := c.queue ++ [slot] }
  else { c with dbIgnored := true }

theorem ringSlot_eq (ch slot : Nat) (s : State) : ringSlot ch slot s = modChan ch (fun c => submit c slot) s := rfl

/-- A doorbell submits slots of its own channel. -/
theorem chan_foldl_ringSlot (l : List Nat) (n : Nat) :
    chan (l.foldl (fun x k => ringSlot ch k x) s) n = if n = ch then l.foldl submit (chan s ch) else chan s n := by
  induction l generalizing s with
  | nil =>
    split
    · next h => rw [h]; rfl
    · rfl
  | cons k l ih =>
    rw [List.foldl_cons, ih, ringSlot_eq, chan_modChan, chan_modChan, if_pos rfl, List.foldl_cons]
    split <;> rfl

theorem chan_ringBell (ch v n : Nat) (s : State) :
    chan (ringBell ch v s) n = if n = ch then (bitsOf 4 v).foldl submit (chan s ch) else chan s n :=
  chan_foldl_ringSlot ..

/-- A FREE slot is one of the channel's, so marking it is read back there. -/
theorem getD_set_submitted {l : List SlotState} {k : Nat} (h : l.getD k .done = .free) (n : Nat) :
    (l.set k .submitted).getD n .done = if n = k then .submitted else l.getD n .done := by
  have hk : k < l.length := by
    by_contra hk
    rw [List.getD_eq_default _ _ (Nat.not_lt.mp hk)] at h
    cases h
  by_cases hn : n = k
  · subst hn
    simp [hk]
  · simp [hn, Ne.symm hn]

/-- What a slot's state is after one bit of a doorbell. -/
theorem getD_submit (c : Chan) (k n : Nat) :
    (submit c k).slots.getD n .done = if n = k ∧ c.slots.getD k .done = .free then .submitted else c.slots.getD n .done := by
  unfold submit
  split
  · next h =>
    rw [getD_set_submitted h]
    simp only [h, and_true]
  · next h => rw [if_neg fun hc => h hc.2]

/-- The slots that a doorbell names, in the order of its bits: the FREE ones are submitted. -/
theorem slots_foldl_submit {l : List Nat} {c : Chan} (n : Nat) :
    (l.foldl submit c).slots.getD n .done =
      if n ∈ l ∧ c.slots.getD n .done = .free then .submitted else c.slots.getD n .done := by
  induction l generalizing c with
  | nil => simp
  | cons k l ih =>
    rw [List.foldl_cons, ih, getD_submit]
    by_cases hk : n = k
    · subst hk
      by_cases hf : c.slots.getD n .done = .free
      · simp only [hf, List.mem_cons_self, and_self, if_true, reduceCtorEq, and_false, if_false]
      · simp only [hf, and_false, if_false]
    · simp only [hk, false_and, if_false, List.mem_cons, false_or]

/-- A slot other than the one a bit names is as FREE as before it. -/
theorem getD_submit_of_notMem {l : List Nat} {c : Chan} {k : Nat} (hk : k ∉ l) {n : Nat} (hn : n ∈ l) :
    (submit c k).slots.getD n .done = c.slots.getD n .done := by
  rw [getD_submit, if_neg]
  rintro ⟨rfl, -⟩
  exact hk hn

/-- The FREE slots among those that a doorbell names join the queue in that order. -/
theorem queue_foldl_submit {l : List Nat} (hl : l.Nodup) {c : Chan} :
    (l.foldl submit c).queue = c.queue ++ l.filter fun n => c.slots.getD n .done == .free := by
  induction l generalizing c with
  | nil => simp
  | cons k l ih =>
    obtain ⟨hk, hl⟩ := List.nodup_cons.mp hl
    have hsame : (l.filter fun n => (submit c k).slots.getD n .done == .free) =
        l.filter fun n => c.slots.getD n .done == .free :=
      List.filter_congr fun n hn => by rw [getD_submit_of_notMem hk hn]
    rw [List.foldl_cons, ih hl, hsame]
    by_cases hf : c.slots.getD k .done = .free
    · rw [List.filter_cons, if_pos (beq_iff_eq.mpr hf), submit, if_pos hf, List.append_assoc]
      rfl
    · rw [List.filter_cons, if_neg fun h => hf (beq_iff_eq.mp h), submit, if_neg hf]

/-- A named slot that is not FREE latches DB_IGNORED. -/
theorem dbIgnored_foldl_submit {l : List Nat} (hl : l.Nodup) {c : Chan} :
    (l.foldl submit c).dbIgnored = (c.dbIgnored || l.any fun n => c.slots.getD n .done != .free) := by
  induction l generalizing c with
  | nil => simp
  | cons k l ih =>
    obtain ⟨hk, hl⟩ := List.nodup_cons.mp hl
    have hsame : (l.any fun n => (submit c k).slots.getD n .done != .free) =
        l.any fun n => c.slots.getD n .done != .free := by
      rw [Bool.eq_iff_iff, List.any_eq_true, List.any_eq_true]
      exact exists_congr fun n => and_congr_right fun hn => by rw [getD_submit_of_notMem hk hn]
    rw [List.foldl_cons, ih hl, hsame, List.any_cons]
    by_cases hf : c.slots.getD k .done = .free
    · have hb : (c.slots.getD k .done != .free) = false := by rw [hf]; rfl
      rw [submit, if_pos hf, hb, Bool.false_or]
    · have hb : (c.slots.getD k .done != .free) = true := bne_iff_ne.mpr hf
      rw [submit, if_neg hf, hb]
      simp

theorem bitsOf_nodup (n v : Nat) : (bitsOf n v).Nodup := List.nodup_range.filter _

theorem mem_bitsOf {n v k : Nat} : k ∈ bitsOf n v ↔ k < n ∧ bit v k = true := by
  simp [bitsOf]

/-! ### Waking by a doorbell (R474) -/

@[simp] theorem ctl_ringBell (ch v : Nat) (s : State) : (ringBell ch v s).ctl = s.ctl := by
  obtain ⟨c, h⟩ := ringBell_form ch v s
  rw [h]

@[simp] theorem pwr_ringBell (ch v : Nat) (s : State) : (ringBell ch v s).pwr = s.pwr := by
  obtain ⟨c, h⟩ := ringBell_form ch v s
  rw [h]

/-- In HUSH a doorbell is a wake source where its bit of the wake mask is set. -/
theorem wakeEnabled_hush_doorbell (h : s.ctl.devState = .hush) : wakeEnabled 1 0 s = bit s.pwr.wakeMask 0 := by
  simp [wakeEnabled, h, maskBit]

theorem wakeSource_hush_doorbell (h : s.ctl.devState = .hush) (hb : bit s.pwr.wakeMask 0 = true)
    (he : s.pwr.entry = none) : wakeSource 1 0 s = exitHush 1 0 none s := by
  simp [wakeSource, wakeEnabled_hush_doorbell h, hb, h, he]

theorem wakeSource_hush_idle (h : s.ctl.devState = .hush) (hb : bit s.pwr.wakeMask 0 = false ∨ s.pwr.entry ≠ none) :
    wakeSource 1 0 s = s := by
  unfold wakeSource
  rw [wakeEnabled_hush_doorbell h, h]
  cases hb with
  | inl hb => rw [hb]; rfl
  | inr he => simp [Option.isSome_iff_ne_none.mpr he]

/-- In STILL the first doorbell is latched; a later one changes nothing. -/
theorem wakeSource_still_doorbell (h : s.ctl.devState = .still) :
    wakeSource 1 0 s =
      if s.pwr.latched.isSome then s else { s with pwr := { s.pwr with latched := some (1, 0) } } := by
  simp [wakeSource, wakeEnabled, h]

theorem exec_doorbellWrite {v : BitVec 32} (ha : aonRuns s = true) (hs : s.ctl.devState ≠ .still) (hc : ch < 16) :
    exec (.doorbellWrite ch v) s = .next (wakeSource 1 0 (ringBell ch v.toNat s)) := by
  change execDoorbellWrite ch v s = _
  simp [execDoorbellWrite, ha, hs, hc]

theorem exec_doorbellWrite_still {v : BitVec 32} (ha : aonRuns s = true) (hs : s.ctl.devState = .still) (hc : ch < 16) :
    exec (.doorbellWrite ch v) s = .next (wakeSource 1 0 s) := by
  change execDoorbellWrite ch v s = _
  simp [execDoorbellWrite, ha, hs, hc]

/-- A doorbell in a state that it does not wake submits, nothing else. -/
theorem exec_doorbellWrite_awake {v : BitVec 32} (ha : aonRuns s = true) (hs : s.ctl.devState ≠ .still)
    (hh : s.ctl.devState ≠ .hush) (hc : ch < 16) : exec (.doorbellWrite ch v) s = .next (ringBell ch v.toNat s) := by
  rw [exec_doorbellWrite ha hs hc, wakeSource_idle (wakeEnabled_awake (by simpa using hh) (by simpa using hs))]

end

/-! ### The obligations -/

/-- Settles O5: the accesses as they reach the channel page, and the doorbell as a wake source. -/
theorem mailboxAccessesComplete : Obligations.MailboxAccessesComplete := by
  unfold Obligations.MailboxAccessesComplete
  refine ⟨?stored, ?discarded, ?submits, ?wakes, ?asleep, ?latched, ?ignored, ?release, ?errors⟩
  case stored =>
    intro s ch off data ha hs hc ho hd hf
    rw [exec_requestSlotWrite ha hs hc ho hd, if_pos hf]
    rfl
  case discarded =>
    intro s ch off data ha hs hc ho hd hf
    rw [exec_requestSlotWrite ha hs hc ho hd, if_neg hf]
    rfl
  case submits =>
    intro s ch v ha hs hh hc
    exact exec_doorbellWrite_awake ha hs hh hc
  case wakes =>
    intro s ch v ha hh hb he hc
    rw [exec_doorbellWrite ha (by simp [hh]) hc, wakeSource_hush_doorbell (by simpa using hh) (by simpa using hb)
      (by simpa using he)]
  case asleep =>
    intro s ch v ha hh hb hc
    rw [exec_doorbellWrite ha (by simp [hh]) hc, wakeSource_hush_idle (by simpa using hh) (by simpa using hb)]
  case latched =>
    intro s ch v ha hs hl hc
    rw [exec_doorbellWrite_still ha hs hc, wakeSource_still_doorbell hs, hl]
    rfl
  case ignored =>
    intro s ch v ha hs hl hc
    rw [exec_doorbellWrite_still ha hs hc, wakeSource_still_doorbell hs, if_pos (Option.isSome_iff_ne_none.mpr hl)]
  case release =>
    intro s ch v ha hs hc
    change execMbReleaseWrite ch v s = _
    unfold execMbReleaseWrite
    rw [if_neg (Nat.not_le.mpr hc), barAccess_page ha hs hc (by decide)]
    rfl
  case errors =>
    intro s ch ha hs hc
    change execMbErrRead ch s = _
    unfold execMbErrRead readAccess
    rw [if_neg (Nat.not_le.mpr hc), barAccess_page ha hs hc (by decide), regRead_pageOff hc (by decide)]
    rfl

/-- Settles O6: the SMBus slave's answer in each state of the fallback mailbox. -/
theorem smbusTransactionsComplete : Obligations.SmbusTransactionsComplete := by
  unfold Obligations.SmbusTransactionsComplete
  refine ⟨?write, ?refused, ?status, ?read, ?state⟩
  case write =>
    intro s data ha hr hi h16 h255
    change execSmbusBlockWrite data true s = _
    simp [execSmbusBlockWrite, ha, hr, hi, h16, h255, smbAnswer, State.modCtl]
  case refused =>
    intro s data pec ha h
    change execSmbusBlockWrite data pec s = _
    rcases h with h | h | h <;> simp [execSmbusBlockWrite, ha, h, smbAnswer, State.modCtl]
  case status =>
    intro s ha
    refine ⟨smbAnswer true (le 1 (smbStatus s)) s, ?_, rfl, ?_, rfl⟩
    · change execSmbusStatusRead true s = _
      simp [execSmbusStatusRead, ha]
    · change le 1 (smbStatus s) = _
      cases hr : cpRuns s with
      | false => simp [le, smbStatus, hr]
      | true =>
        cases hm : s.mbx.smbState with
        | idle => simp [le, smbStatus, hr, hm]
        | executing => simp [le, smbStatus, hr, hm]
        | ready => simp [le, smbStatus, hr, hm]
  case read =>
    intro s ha hr hm
    change execSmbusBlockRead true s = _
    simp [execSmbusBlockRead, ha, hr, hm, smbAnswer, State.modCtl]
  case state =>
    intro s ha
    change execSmbusStateRead true s = _
    simp [execSmbusStateRead, ha, smbAnswer, State.modCtl]

/-- Settles O55: a write that is stored lies in a FREE slot, and every other slot reads as before. -/
theorem requestSlotWritableOnlyWhileFree : Obligations.RequestSlotWritableOnlyWhileFree := by
  unfold Obligations.RequestSlotWritableOnlyWhileFree
  refine ⟨?bytes, ?requests⟩
  case bytes =>
    intro s t ch off data ha hs hc ho hd he
    rw [exec_requestSlotWrite ha hs hc ho hd] at he
    cases he
    by_cases hf : (chan s ch).slots.getD (off / 0x100) .free = .free
    · rw [if_pos hf]
      exact ⟨fun a h => Memory.read_writeBytes_outside _ _ _ _ _ h, fun _ => Memory.readBytes_writeBytes ..,
        fun h => absurd hf h⟩
    · rw [if_neg hf]
      exact ⟨fun _ _ => rfl, fun h => absurd h hf, fun _ => ⟨rfl, by rw [slotDiscarded, chan_modChan, if_pos rfl]⟩⟩
  case requests =>
    intro s t ch off data ch' slot he hc hs hf
    change Host.Outcome.next (barAccess true 0 (pageOff ch off) data.length (slotWrite ch off data) s) = _ at he
    cases he
    cases ha : aonRuns s with
    | false => rw [barAccess_down ha]
    | true =>
      cases ho : offDomain 0 (pageOff ch off) s with
      | true => rw [barAccess_off ha ho, readReq_offAccess]
      | false => rw [barAccess_up ha ho, readReq_slotWrite hc hs hf]

/-- Settles O56: a doorbell is the fold of its bits over its channel. -/
theorem doorbellSubmitsFreeSlots : Obligations.DoorbellSubmitsFreeSlots := by
  unfold Obligations.DoorbellSubmitsFreeSlots
  intro s t ch v ha hs hh hc _ he
  rw [exec_doorbellWrite_awake ha hs hh hc] at he
  cases he
  have hown : chan (ringBell ch v.toNat s) ch = (bitsOf 4 v.toNat).foldl submit (chan s ch) := by
    rw [chan_ringBell, if_pos rfl]
  have hbits : bitsOf 4 v.toNat = [0, 1, 2, 3].filter (bit v.toNat) := rfl
  obtain ⟨c, hform⟩ := ringBell_form ch v.toNat s
  refine ⟨?queue, ?slots, ?ignored, ?others, ?frame⟩
  case queue =>
    rw [hown, queue_foldl_submit (bitsOf_nodup ..), hbits, List.filter_filter]
    simp only [Bool.and_comm]
  case slots =>
    intro n hn
    rw [hown, slots_foldl_submit]
    simp only [mem_bitsOf, hn, true_and]
  case ignored =>
    rw [hown, dbIgnored_foldl_submit (bitsOf_nodup ..), hbits, List.any_filter]
  case others =>
    intro n hn
    rw [chan_ringBell, if_neg hn]
  case frame =>
    rw [hform]
    exact ⟨rfl, rfl, rfl, rfl, rfl, rfl, rfl, rfl, rfl, rfl, rfl, rfl, rfl, rfl, rfl, rfl, rfl, rfl⟩

end Sys2Proof.Machine
end

section
/-!
PROOFS. The event ring (R65 to R68): what one entry writes, when an event is written and when it is counted as lost, and
what an event with all that it lets out leaves alone (R63, R495).
-/
namespace Sys2Proof.Machine

/-! ### The bytes of an entry (R65) -/

@[simp] theorem length_le (n v : Nat) : (le n v).length = n := by
  induction n generalizing v with
  | zero => rfl
  | succ n ih => simp [le, ih]

@[simp] theorem length_zeros (n : Nat) : (zeros n).length = n := List.length_replicate

@[simp] theorem length_slice (bs : Bytes) (o n : Nat) : (slice bs o n).length = n := by
  simp only [slice, List.length_append, length_zeros, List.length_take, List.length_drop]
  omega

@[simp] theorem length_fit (n : Nat) (bs : Bytes) : (fit n bs).length = n := length_slice ..

theorem length_entryBytes (seq : Nat) (phase : Bool) (e : Event) : (entryBytes seq phase e).length = 64 := by
  cases h : e.cause with
  | none => simp [entryBytes, h]
  | some c => simp [entryBytes, h]

section
variable {e : Event} {s : State}

/-! ### Writing an entry (R65, R66) -/

theorem ring_modRing (k n : Nat) (f : Ring → Ring) (s : State) :
    ring (modRing k f s) n = if n = k then f (ring s k) else ring s n := tget_tmod ..

/-- The entries of a ring follow each other. -/
theorem ringAddr_eq (s : State) (n i w : Nat) : ringAddr s n i w = ringAddr s n 0 w + i * w := by
  simp [ringAddr]

/-- The rings after an entry at RING_HEAD, but for the pending bits. -/
def entryRings (e : Event) (s : State) : Rings :=
  { s.rings with
    rings := tmod {} s.rings.rings 0 fun r => { r with head := ((ring s 0).head + 1) % 1024 }
    seq := s.rings.seq + 1
    unreported := 0
    phase := if ((ring s 0).head + 1) % 1024 = 0 then !s.rings.phase else s.rings.phase
    hostMem := Memory.writeBytes 0 s.rings.hostMem (ringAddr s 0 (ring s 0).head 64)
      (entryBytes s.rings.seq.toNat s.rings.phase e) }

/-- An entry is written at RING_HEAD, and vector 0 is signalled. -/
theorem writeEntry_eq (e : Event) (s : State) : writeEntry e s = signal 0 { s with rings := entryRings e s } := rfl

theorem rings_writeEntry (e : Event) (s : State) : ∃ p, (writeEntry e s).rings = { entryRings e s with pba := p } := by
  rw [writeEntry_eq]
  exact rings_signal ..

theorem ring_writeEntry (e : Event) (s : State) (n : Nat) :
    ring (writeEntry e s) n = if n = 0 then { ring s 0 with head := ((ring s 0).head + 1) % 1024 } else ring s n := by
  obtain ⟨p, h⟩ := rings_writeEntry e s
  simp only [ring, h, entryRings]
  exact tget_tmod ..

theorem hostMem_writeEntry (e : Event) (s : State) :
    (writeEntry e s).rings.hostMem = Memory.writeBytes 0 s.rings.hostMem (ringAddr s 0 (ring s 0).head 64)
      (entryBytes s.rings.seq.toNat s.rings.phase e) := by
  obtain ⟨p, h⟩ := rings_writeEntry e s
  rw [h]
  rfl

@[simp] theorem unreported_writeEntry (e : Event) (s : State) : (writeEntry e s).rings.unreported = 0 := by
  obtain ⟨p, h⟩ := rings_writeEntry e s
  rw [h]
  rfl

@[simp] theorem held_writeEntry (e : Event) (s : State) : (writeEntry e s).rings.held = s.rings.held := by
  obtain ⟨p, h⟩ := rings_writeEntry e s
  rw [h]
  rfl

/-- A vector that is not masked leaves the device. -/
theorem out_writeEntry (h : (tget {} s.rings.vectors 0).masked = false) :
    (writeEntry e s).ctl.out = .msix 0 :: s.ctl.out := by
  have hm : (tget {} (entryRings e s).vectors 0).masked = false := h
  rw [writeEntry_eq, signal, if_neg fun h => Bool.false_ne_true (hm.symm.trans h)]
  rfl

/-! ### Room in the ring (R67) -/

theorem eventRoom_of (he : (ring s 0).en = true) (ht : ((ring s 0).head + 1) % 1024 ≠ (ring s 0).tail) :
    eventRoom s = true := by
  simp [eventRoom, he, ht]

theorem eventRoom_full (ht : ((ring s 0).head + 1) % 1024 = (ring s 0).tail) : eventRoom s = false := by
  simp [eventRoom, ht]

/-- A full ring lets nothing out. -/
theorem flushEvents_full (h : eventRoom s = false) : flushEvents s = s := by
  cases hh : s.rings.held <;> simp [flushEvents, h, hh]

/-- Where nothing waits nothing is let out. -/
theorem flushEvents_settled (hu : s.rings.unreported = 0) (hh : s.rings.held = none) : flushEvents s = s := by
  simp [flushEvents, hu, hh]

/-- With room, the events lost so far come out as EV_EVENTS_LOST. -/
theorem flushEvents_lost (hr : eventRoom s = true) (hu : s.rings.unreported ≠ 0) (hh : s.rings.held = none) :
    flushEvents s = writeEntry (lostEvent s) s := by
  simp [flushEvents, hr, hu, hh]

/-! ### Posting an event -/

theorem postEvent_disabled (hc : e.code ≠ 0x0002) (he : (ring s 0).en = false) : postEvent e s = loseEvent s := by
  simp [postEvent, he, hc]

/-- An enabled ring lets out what waits, then takes the event or counts it. -/
theorem postEvent_enabled (he : (ring s 0).en = true) (hh : e.code = 0x0002 → (flushEvents s).rings.held = none) :
    postEvent e s =
      if eventRoom (flushEvents s) && (flushEvents s).rings.unreported == 0 then writeEntry e (flushEvents s)
      else loseEvent (flushEvents s) := by
  have hn : ¬(e.code = 0x0002 ∧ (flushEvents s).rings.held.isSome = true) := by
    rintro ⟨hc, hs⟩
    rw [hh hc] at hs
    cases hs
  unfold postEvent
  rw [if_pos he]
  dsimp only
  rw [if_neg hn]

theorem postEvent_full (hc : e.code ≠ 0x0002) (he : (ring s 0).en = true)
    (ht : ((ring s 0).head + 1) % 1024 = (ring s 0).tail) : postEvent e s = loseEvent s := by
  have hr := eventRoom_full ht
  rw [postEvent_enabled he fun h => absurd h hc, flushEvents_full hr, hr]
  rfl

theorem postEvent_room (he : (ring s 0).en = true) (ht : ((ring s 0).head + 1) % 1024 ≠ (ring s 0).tail)
    (hu : s.rings.unreported = 0) (hh : s.rings.held = none) : postEvent e s = writeEntry e s := by
  have hf := flushEvents_settled hu hh
  rw [postEvent_enabled he fun _ => hf.symm ▸ hh, hf, eventRoom_of he ht, hu]
  rfl

/-- After a loss, two free places take EV_EVENTS_LOST and then the event. -/
theorem postEvent_afterLoss (he : (ring s 0).en = true) (ht : ((ring s 0).head + 1) % 1024 ≠ (ring s 0).tail)
    (h2 : (((ring s 0).head + 1) % 1024 + 1) % 1024 ≠ (ring s 0).tail) (hu : s.rings.unreported ≠ 0)
    (hh : s.rings.held = none) : postEvent e s = writeEntry e (writeEntry (lostEvent s) s) := by
  have hf := flushEvents_lost (eventRoom_of he ht) hu hh
  have hr : eventRoom (writeEntry (lostEvent s) s) = true := by
    refine eventRoom_of ?_ ?_ <;> rw [ring_writeEntry, if_pos rfl]
    · exact he
    · exact h2
  rw [postEvent_enabled he fun _ => by rw [hf, held_writeEntry, hh], hf, hr, unreported_writeEntry]
  rfl

/-! ### A lost event (R67, R68) -/

theorem ring_loseEvent (s : State) (n : Nat) :
    ring (loseEvent s) n = if n = 0 then { ring s 0 with lost := (ring s 0).lost + 1 } else ring s n := by
  unfold loseEvent
  rw [ring_modRing]
  rfl

end

/-! ### What an event leaves alone -/

/-- Of host memory only the event ring's 64 KiB differ, its place and the other rings are the same, and RING_HEAD stays
inside the ring. -/
structure RingOnly (s t : State) : Prop where
  place : ∀ i w, ringAddr t 0 i w = ringAddr s 0 i w
  head : (ring s 0).head < 1024 → (ring t 0).head < 1024
  mem : (ring s 0).head < 1024 → ∀ a, (a < ringAddr s 0 0 64 ∨ ringAddr s 0 1024 64 ≤ a) →
    Memory.read 0 t.rings.hostMem a = Memory.read 0 s.rings.hostMem a
  others : ∀ n, n ≠ 0 → ring t n = ring s n

section
variable {s t u : State}

theorem RingOnly.trans (h : RingOnly s t) (k : RingOnly t u) : RingOnly s u where
  place i w := (k.place i w).trans (h.place i w)
  head hh := k.head (h.head hh)
  mem hh a ha := by
    rw [k.mem (h.head hh) a (by rwa [h.place, h.place]), h.mem hh a ha]
  others n hn := (k.others n hn).trans (h.others n hn)

/-- An update that changes neither the rings' registers nor host memory. -/
theorem RingOnly.same (hr : t.rings.rings = s.rings.rings) (hm : t.rings.hostMem = s.rings.hostMem) : RingOnly s t := by
  have h : ∀ n, ring t n = ring s n := fun n => by rw [ring, hr, ring]
  refine ⟨fun i w => ?_, fun hh => (h 0).symm ▸ hh, fun _ a _ => by rw [hm], fun n _ => h n⟩
  unfold ringAddr
  rw [h]

theorem RingOnly.refl (s : State) : RingOnly s s := .same rfl rfl

theorem ringOnly_writeEntry (e : Event) (s : State) : RingOnly s (writeEntry e s) where
  place i w := by simp only [ringAddr, ring_writeEntry, if_true]
  head _ := by
    rw [ring_writeEntry, if_pos rfl]
    exact Nat.mod_lt _ (by decide)
  mem hh a ha := by
    rw [hostMem_writeEntry]
    refine Memory.read_writeBytes_outside _ _ _ _ _ ?_
    rw [ringAddr_eq s 0 1024] at ha
    rw [length_entryBytes, ringAddr_eq]
    omega
  others n hn := by rw [ring_writeEntry, if_neg hn]

theorem ringOnly_loseEvent (s : State) : RingOnly s (loseEvent s) where
  place i w := by simp only [ringAddr, ring_loseEvent, if_true]
  head hh := by rwa [ring_loseEvent, if_pos rfl]
  mem _ _ _ := rfl
  others n hn := by rw [ring_loseEvent, if_neg hn]

theorem ringOnly_flushEvents (s : State) : RingOnly s (flushEvents s) := by
  have hlost : RingOnly s (if eventRoom s && s.rings.unreported != 0 then writeEntry (lostEvent s) s else s) := by
    split
    · exact ringOnly_writeEntry _ _
    · exact .refl s
  unfold flushEvents
  dsimp only
  generalize (if eventRoom s && s.rings.unreported != 0 then writeEntry (lostEvent s) s else s) = x at hlost ⊢
  split
  · exact hlost
  · split
    · refine hlost.trans (RingOnly.trans ?_ (ringOnly_writeEntry _ _))
      exact .same rfl rfl
    · exact hlost

theorem ringOnly_holdEvent (e : Event) (s : State) : RingOnly s (holdEvent e s) := by
  unfold holdEvent
  dsimp only
  split
  · exact (ringOnly_loseEvent s).trans (.same rfl rfl)
  · exact .same rfl rfl

theorem ringOnly_postEvent (e : Event) (s : State) : RingOnly s (postEvent e s) := by
  have hf := ringOnly_flushEvents s
  unfold postEvent
  dsimp only
  split
  · split
    · exact hf.trans (ringOnly_holdEvent e _)
    · split
      · exact hf.trans (ringOnly_writeEntry e _)
      · exact hf.trans (ringOnly_loseEvent _)
  · split
    · exact ringOnly_holdEvent e s
    · exact ringOnly_loseEvent s

theorem ringOnly_recordEvent (inj only : Bool) (e : Event) (s : State) : RingOnly s (recordEvent inj only e s) := by
  unfold recordEvent
  dsimp only
  split
  · exact .refl s
  · split
    · exact .same rfl rfl
    · split
      · split
        · exact .same rfl rfl
        · refine RingOnly.trans ?_ (ringOnly_postEvent _ _)
          exact .same rfl rfl
      · exact .same rfl rfl

theorem ringOnly_raise (code obj : Nat) (args : Bytes) (cause : Option Cause) (s : State) :
    RingOnly s (raise code obj args cause s) := by
  unfold raise raiseWith
  dsimp only
  split
  · exact (ringOnly_recordEvent ..).trans (ringOnly_postEvent ..)
  · exact ringOnly_postEvent ..

end

/-! ### The obligations -/

/-- Settles O58: the ring's state decides whether an event is lost, written, or written behind EV_EVENTS_LOST. -/
theorem eventRingWritesOrCounts : Obligations.EventRingWritesOrCounts := by
  unfold Obligations.EventRingWritesOrCounts
  refine ⟨fun _ _ => postEvent_disabled, fun _ _ => postEvent_full, ?lost, fun _ _ => postEvent_room,
    fun _ _ => postEvent_afterLoss, ?entry⟩
  case lost =>
    intro s
    exact ⟨rfl, by rw [ring_loseEvent, if_pos rfl], rfl, rfl, rfl⟩
  case entry =>
    intro e s
    obtain ⟨p, h⟩ := rings_writeEntry e s
    refine ⟨?bytes, ?head, ?seq, unreported_writeEntry e s, ?phase, out_writeEntry⟩
    case bytes =>
      rw [hostMem_writeEntry, ← length_entryBytes s.rings.seq.toNat s.rings.phase e]
      exact Memory.readBytes_writeBytes ..
    case head => rw [ring_writeEntry, if_pos rfl]
    case seq => rw [h]; rfl
    case phase => rw [h]; rfl

/-- Settles O59: every entry of an event lies in the ring, and each entry leaves RING_HEAD inside it. -/
theorem eventsWriteOnlyTheirRing : Obligations.EventsWriteOnlyTheirRing := by
  unfold Obligations.EventsWriteOnlyTheirRing
  refine ⟨?frame, ?memory, ?others⟩
  case frame =>
    intro code obj args cause s
    obtain ⟨o, r, l, h⟩ := raise_form code obj args cause s
    rw [h]
  case memory =>
    intro code obj args cause s a hh ha
    exact (ringOnly_raise code obj args cause s).mem hh a ha
  case others =>
    intro code obj args cause s n hn
    exact (ringOnly_raise code obj args cause s).others n hn

end Sys2Proof.Machine
end

section
/-!
PROOFS. Accesses to the direct registers outside the mailboxes (R63, R68, R125, R126, R502), to the windows of BAR2, and to
the islands that STILL stops (R36, R350, R477).
-/
namespace Sys2Proof.Machine

section
variable {s : State}

/-! ### Ring registers (R63, R66 to R68) -/

theorem timeRegion_ringOff {n off : Nat} (hn : n < 32) (ho : off < 0x40) : timeRegion (ringOff n off) = false := by
  unfold timeRegion ringOff
  exact decide_eq_false (by omega)

/-- Outside STILL an access to a ring register has its own effect. -/
theorem barAccess_ring {write : Bool} {n off k : Nat} {f : State → State} (ha : aonRuns s = true)
    (hs : s.ctl.devState ≠ .still) (hn : n < 32) (ho : off < 0x40) : barAccess write 0 (ringOff n off) k f s = f s :=
  barAccess_up ha (offDomain_awake hs (fun _ => timeRegion_ringOff hn ho) (by decide))

theorem exec_ringCtrlEnable {n : Nat} {dir : Bool} (ha : aonRuns s = true) (hs : s.ctl.devState ≠ .still) (hn : n < 32) :
    exec (.ringCtrlEnable n dir) s = .next (enableRing n dir s) := by
  change execRingCtrlEnable n dir s = _
  unfold execRingCtrlEnable
  rw [if_neg (Nat.not_le.mpr hn), barAccess_ring ha hs hn (by decide)]

/-- A ring other than the event ring is enabled with its direction. -/
theorem enableRing_dma {n : Nat} {dir : Bool} (hn : 0 < n) (he : (ring s n).en = false) :
    enableRing n dir s = modRing n (fun r => { r with en := true, dir, head := 0 }) s := by
  have h0 : n ≠ 0 := Nat.ne_of_gt hn
  have hd : (n != 0 && dir) = dir := by simp [h0]
  unfold enableRing
  rw [he, hd]
  simp [h0]

/-- The event ring is enabled in its own direction and with PHASE set, and lets out what waits. -/
theorem enableRing_event {dir : Bool} (he : (ring s 0).en = false) :
    enableRing 0 dir s = flushEvents { modRing 0 (fun r => { r with en := true, dir := false, head := 0 }) s with
      rings := { (modRing 0 (fun r => { r with en := true, dir := false, head := 0 }) s).rings with phase := true } } := by
  unfold enableRing
  rw [he]
  rfl

theorem exec_ringTailWrite {n : Nat} {v : BitVec 32} (ha : aonRuns s = true) (hs : s.ctl.devState ≠ .still) (hn : n < 32) :
    exec (.ringTailWrite n v) s = .next (if n = 0
      then flushEvents (modRing n (fun r => { r with tail := v.toNat % 65536 }) s)
      else modRing n (fun r => { r with tail := v.toNat % 65536 }) s) := by
  change execRingTailWrite n v s = _
  unfold execRingTailWrite
  rw [if_neg (Nat.not_le.mpr hn), barAccess_ring ha hs hn (by decide)]

/-! ### The time region (R125) -/

theorem ofNat_low {w : Nat} (x : BitVec w) (n : Nat) : BitVec.ofNat n (x.toNat % 2 ^ n) = x.setWidth n := by
  apply BitVec.eq_of_toNat_eq
  simp

theorem regRead_timeNsLo (s : State) : regRead s 0x200000 = s.time.ns.setWidth 32 := ofNat_low s.time.ns 32

theorem regRead_ppsTsLo (s : State) : regRead s 0x200014 = s.time.ppsTs.setWidth 32 := ofNat_low s.time.ppsTs 32

theorem regRead_timeStatus (s : State) : regRead s 0x200010 = BitVec.ofNat 32 (timeStatus s) := rfl

/-! ### BAR0 reads of any width (R36) -/

theorem busRead_otherWidth {off n : Nat} (h4 : n ≠ 4) (h8 : n ≠ 8) : busRead s off n = List.replicate ((n + 3) / 4) 0 := by
  simp [busRead, h4, h8]

/-- Only a read of four bytes changes anything. -/
theorem readEffect_otherWidth {off n : Nat} (h4 : n ≠ 4) : readEffect off n s = s := if_pos h4

theorem exec_offDomainAccess_read {off n : Nat} (ha : aonRuns s = true) (ho : offDomain 0 off s = false) :
    exec (.offDomainAccess 0 off none n) s = .next (answerWords (busRead s off n) (readEffect off n s)) :=
  congrArg Host.Outcome.next (barAccess_up ha ho)

end

/-! ### The obligations -/

/-- Settles O7: each register's own effect, where the access reaches it. -/
theorem registerAccessesComplete : Obligations.RegisterAccessesComplete := by
  unfold Obligations.RegisterAccessesComplete
  refine ⟨?plain, ?enable, ?enableEvents, ?disable, ?tail, ?tailEvents, ?time, ?pps, ?status, ?incr, ?forced, ?view⟩
  case plain =>
    intro s off data ha ho hl hm
    refine congrArg Host.Outcome.next ((barAccess_up ha ho).trans ?_)
    rw [if_pos ⟨hl, hm⟩]
  case enable =>
    intro s n dir ha hs h0 hn he
    rw [exec_ringCtrlEnable ha hs hn, enableRing_dma h0 he]
  case enableEvents =>
    intro s dir ha hs he
    rw [exec_ringCtrlEnable ha hs (by decide), enableRing_event he]
  case disable =>
    intro s n ha hs hn
    change execRingCtrlDisable n s = _
    unfold execRingCtrlDisable
    rw [if_neg (Nat.not_le.mpr hn), barAccess_ring ha hs hn (by decide)]
  case tail =>
    intro s n v ha hs h0 hn
    rw [exec_ringTailWrite ha hs hn, if_neg (Nat.ne_of_gt h0)]
  case tailEvents =>
    intro s v ha hs
    rw [exec_ringTailWrite ha hs (by decide), if_pos rfl]
  case time =>
    intro s ha ho
    refine congrArg Host.Outcome.next ((readAccess_up ha ho).trans ?_)
    rw [regRead_timeNsLo]
    rfl
  case pps =>
    intro s ha ho
    have ho' : offDomain 0 0x200014 s = false := ho
    refine congrArg Host.Outcome.next ((readAccess_up ha ho').trans ?_)
    rw [regRead_ppsTsLo]
    rfl
  case status =>
    intro s ha ho
    have ho' : offDomain 0 0x200010 s = false := ho
    refine congrArg Host.Outcome.next ((readAccess_up ha ho').trans ?_)
    rw [regRead_timeStatus]
    rfl
  case incr =>
    intro s v ha ho
    have ho' : offDomain 0 0x20000C s = false := ho
    exact congrArg Host.Outcome.next (barAccess_up ha ho')
  case forced =>
    intro s v ha ho
    have ho' : offDomain 0 0x200020 s = false := ho
    exact congrArg Host.Outcome.next (barAccess_up ha ho')
  case view =>
    intro s v ha hs
    exact congrArg Host.Outcome.next (barAccess_up ha (offDomain_awake hs (fun _ => rfl) (by decide)))

/-- Settles O9: an access reaches a running island's window or register, and a stopped island latches and counts it. -/
theorem windowAccessesComplete : Obligations.WindowAccessesComplete := by
  unfold Obligations.WindowAccessesComplete
  refine ⟨?read, ?write, ?offWrite, ?offRead, ?register, ?width⟩
  case read => exact fun s off n ha ho => congrArg Host.Outcome.next (barAccess_up ha ho)
  case write => exact fun s off data ha ho => congrArg Host.Outcome.next (barAccess_up ha ho)
  case offWrite => exact fun s bar off data n ha ho => congrArg Host.Outcome.next (barAccess_off ha ho)
  case offRead => exact fun s bar off n ha ho => congrArg Host.Outcome.next (barAccess_off ha ho)
  case register => exact fun s off n ha ho => exec_offDomainAccess_read ha ho
  case width =>
    intro s off n ha ho h4 h8
    rw [exec_offDomainAccess_read ha ho, busRead_otherWidth h4 h8, readEffect_otherWidth h4]

end Sys2Proof.Machine
end

section
/-!
PROOFS. The resets, the boot and the CP's own events (R40, R42, R43, R57, R60, R73, R76, R77, R466, R494): the condition
under which each acts, and what it does then.
-/
namespace Sys2Proof.Machine

section
variable {s : State}

theorem powered_of_aonRuns (h : aonRuns s = true) : s.ctl.powered = true ∧ s.ctl.porLow = false := by
  simpa [aonRuns] using h

/-- SOFT_RESET takes one value; every other is ignored (R43). -/
theorem exec_softResetWrite_key {env : BootEnv} (ha : aonRuns s = true) :
    exec (.softResetWrite 0xB0075EED env) s = .next (warmReset true none env s) :=
  if_pos (by simp [ha])

theorem exec_softResetWrite_other {v : BitVec 32} {env : BootEnv} (hv : v ≠ 0xB0075EED) :
    exec (.softResetWrite v env) s = .next s := by
  refine if_neg ?_
  rw [beq_false_of_ne hv, Bool.and_false]
  exact Bool.false_ne_true

theorem exec_deviceResetDelayExpiry {env : BootEnv} (ha : aonRuns s = true) (hp : s.ctl.resetPending = true) :
    exec (.deviceResetDelayExpiry env) s = .next (warmReset true s.ctl.resetBy env s) :=
  if_pos (by simp [ha, hp])

/-- Without an access to a stopped island on record nothing is reported. -/
theorem reportOff_none (h : s.pwr.offAddr = none) : reportOff s = s := by
  unfold reportOff
  rw [h]

/-- A change of the device state leaves the power records alone. -/
theorem pwr_setDevState (d : DevState) (c : Option Cause) (s : State) : (setDevState d c s).pwr = s.pwr := by
  obtain ⟨o, r, l, h⟩ := setDevState_form d c s
  rw [h]

/-- A boot that is no trial, with no access to a stopped island on record, is the change to READY. -/
theorem exec_bootComplete (hd : s.ctl.devState = .boot) (hl : s.boot.pllLocked = true) (hb : s.boot.bootOk = true)
    (ha : aonRuns s = true) (ht : s.boot.trialBoot = false) (ho : s.pwr.offAddr = none) :
    exec .bootComplete s = .next (setDevState .ready none (s.modCtl fun c => { c with
      fwVersion := BitVec.ofNat 32 (u32 (imageHeader s s.boot.image) 8)
      cpAlive := true })) := by
  obtain ⟨hp, hq⟩ := powered_of_aonRuns ha
  change execBootComplete s = _
  unfold execBootComplete
  rw [if_pos (by simp [hd, hl, hb, hp, hq])]
  dsimp only
  rw [ht, if_neg Bool.false_ne_true, reportOff_none]
  rw [pwr_setDevState]
  exact ho

theorem exec_pllLockTimeout {flash : Bool} (hd : s.ctl.devState = .boot) (hl : s.boot.pllLocked = false)
    (ha : aonRuns s = true) : exec (.pllLockTimeout flash) s = .next (bootFails flash 1 s) := by
  obtain ⟨hp, hq⟩ := powered_of_aonRuns ha
  exact if_pos (by simp [hd, hl, hp, hq])

/-- A watchdog that is still served, or has not yet brought FAULT, expires. -/
theorem exec_cpWatchdogExpiry (h : s.ctl.cpAlive = true ∨ s.ctl.devState ≠ .fault) (ha : aonRuns s = true)
    (hi : injIndex 0x1A 0 s = none) :
    exec .cpWatchdogExpiry s = .next (hardwareFault false 0x0F03 0 (le 4 s.ctl.heartbeat.toNat) s) := by
  change execCpWatchdogExpiry s = _
  unfold execCpWatchdogExpiry
  rw [if_pos (by simpa [ha] using h)]
  dsimp only
  rw [occurrence_none hi]
  rfl

end

/-! ### The obligation -/

/-- Settles O10: each reset is the model's one reset of its islands, and each event acts under its condition. -/
theorem resetsAndBootComplete : Obligations.ResetsAndBootComplete := by
  unfold Obligations.ResetsAndBootComplete
  refine ⟨fun _ _ _ => rfl, fun _ => rfl, fun _ => rfl, ?perst, ?soft, ?ignored, ?delay, ?flr, fun _ => rfl, ?pll,
    ?boot, ?heartbeat, ?watchdog, ?firmware⟩
  case perst => exact fun s env ha => if_pos ha
  case soft => exact fun s env ha => exec_softResetWrite_key ha
  case ignored => exact fun s v env hv => exec_softResetWrite_other hv
  case delay => exact fun s env ha hp => exec_deviceResetDelayExpiry ha hp
  case flr =>
    intro s ha
    exact ⟨_, if_pos ha, rfl, rfl, rfl, rfl, rfl, rfl, rfl, rfl, rfl, rfl, rfl, rfl⟩
  case pll => exact fun s hd hl ha => exec_pllLockTimeout hd hl ha
  case boot => exact fun s hd hl hb ha ht ho => exec_bootComplete hd hl hb ha ht ho
  case heartbeat => exact fun s hr => if_pos hr
  case watchdog => exact fun s h ha hi => exec_cpWatchdogExpiry h ha hi
  case firmware =>
    intro s d hr hd
    exact if_pos (by simp [hr, hd])

end Sys2Proof.Machine
end

section
/-!
PROOFS. The plane commands (R162 to R164, R187 to R189): each passes the general checks and then its own object checks,
whose premises the statement names; and the fields of PLANE_STATUS as the host reads them.
-/
namespace Sys2Proof.Machine

/-! ### Fields of a byte string (R8) -/

theorem leNat_le (n v : Nat) : leNat (le n v) = v % 256 ^ n := by
  induction n generalizing v with
  | zero => simp [le, leNat, Nat.mod_one]
  | succ n ih =>
    rw [le, leNat, ih, BitVec.toNat_ofNat, show 256 ^ (n + 1) = 256 * 256 ^ n from Nat.pow_succ']
    exact Nat.mod_mul.symm

/-- A field that lies in the first of two byte strings. -/
theorem slice_append_left {a b : Bytes} {o n : Nat} (h : o + n ≤ a.length) : slice (a ++ b) o n = slice a o n := by
  have hd : (a ++ b).drop o = a.drop o ++ b := List.drop_append_of_le_length (by omega)
  have ht : (a.drop o ++ b).take n = (a.drop o).take n :=
    List.take_append_of_le_length (by rw [List.length_drop]; omega)
  unfold slice
  rw [hd, ht]

/-- The field that the second of two byte strings is. -/
theorem slice_append_end {a b : Bytes} {o n : Nat} (ho : a.length = o) (hn : b.length = n) : slice (a ++ b) o n = b := by
  subst ho hn
  simp [slice, zeros]

/-! ### PLANE_STATUS (R188) -/

section
variable (p : Nat) (s : State)

theorem length_planeStatusBytes : (planeStatusBytes p s).length = 32 := by
  simp [planeStatusBytes]

theorem planeStatusBytes_state : u8 (planeStatusBytes p s) 0 = (plane s p).state % 256 := by
  simp [planeStatusBytes, u8, le]

theorem planeStatusBytes_mode : u8 (planeStatusBytes p s) 1 = (plane s p).mode % 256 := by
  simp [planeStatusBytes, u8, le]

theorem planeStatusBytes_sfc : u64 (planeStatusBytes p s) 8 = (plane s p).sfc % 2 ^ 64 := by
  unfold planeStatusBytes u64
  dsimp only
  rw [slice_append_left (by simp), slice_append_left (by simp), slice_append_left (by simp),
    slice_append_end (by simp) (by simp), leNat_le]
  rfl

end

/-! ### The obligation -/

/-- Settles O18: each command's own effect, past the object checks that the premises exclude. -/
theorem planeCommandsComplete : Obligations.PlaneCommandsComplete := by
  unfold Obligations.PlaneCommandsComplete
  refine ⟨?config, ?start, ?stop, ?status, ?counters, ?clear, ?defects⟩
  case config =>
    intro s r h hst
    refine congrArg Host.Outcome.next ((serve_accepts h planeConfigAct).trans ?_)
    simp only [planeConfigAct, plane_takeUp]
    rw [if_neg (not_not_intro hst), conclude_ok]
  case start =>
    intro s r h hst he hl
    refine congrArg Host.Outcome.next ((serve_accepts h planeStartAct).trans ?_)
    simp only [planeStartAct, plane_takeUp, engineStatus_takeUp, inTest_takeUp]
    rw [if_neg (not_not_intro hst), if_neg he, hl]
    rfl
  case stop =>
    intro s r h hst
    refine congrArg Host.Outcome.next ((serve_accepts h planeStopAct).trans ?_)
    simp only [planeStopAct, plane_takeUp]
    rw [if_neg hst, conclude_ok]
  case status =>
    intro s r h
    refine ⟨planeStatusBytes (u8 r.payload 0) s, ?_, length_planeStatusBytes .., planeStatusBytes_state ..,
      planeStatusBytes_mode .., planeStatusBytes_sfc ..⟩
    refine congrArg Host.Outcome.next ((serve_accepts h planeStatusAct).trans ?_)
    rw [planeStatusAct, planeStatusBytes_takeUp, conclude_okWith]
  case counters =>
    intro s r h hk
    refine congrArg Host.Outcome.next ((serve_accepts h planeCountersAct).trans ?_)
    simp only [planeCountersAct, plane_takeUp]
    rw [hk, if_neg (by decide), conclude_okWith]
  case clear =>
    intro s r h hk
    refine congrArg Host.Outcome.next ((serve_accepts h planeCountersAct).trans ?_)
    simp only [planeCountersAct, plane_takeUp]
    rw [if_pos hk, conclude_okWith]
  case defects => exact fun s r h => congrArg Host.Outcome.next (serve_accepts h defectConfigAct)

end Sys2Proof.Machine
end

section
/-!
PROOFS. Boot and attestation: the measurement registers (R86), the firmware update and its status (R84, R87 to R92), and the
attestation reports (R94 to R96).
-/
namespace Sys2Proof.Machine

/-! ### The measurement registers (R86) -/

/-- A table that lists a function's values reads as the function at the keys it lists. -/
theorem tget_map {α : Type} (d : α) (f : Nat → α) {ks : List Nat} {k : Nat} (h : k ∈ ks) :
    tget d (ks.map fun j => (j, f j)) k = f k := by
  induction ks with
  | nil => exact absurd h List.not_mem_nil
  | cons j ks ih =>
    rw [List.map_cons, tget]
    split
    · next e => rw [e]
    · next e => exact ih ((List.mem_cons.mp h).resolve_left e)

@[simp] theorem program_meas (a : Nat) (bs : Bytes) (s : State) : (program a bs s).boot.meas = s.boot.meas := rfl

/-- A trial boot that is used up leaves the measurements alone. -/
theorem runImage_meas (i : Nat) (trial : Bool) (s : State) :
    (runImage i trial s).boot.meas = [0, 1, 2, 3].map fun k => (k, measure s i k) := by
  cases trial with
  | false => rfl
  | true => exact program_meas ..

/-- Each of M0 to M3 holds the measurement of its stage in the flash that the boot ROM read. -/
theorem tget_runImage_meas {k : Nat} (hk : k < 4) (i : Nat) (trial : Bool) (s : State) :
    tget 0 (runImage i trial s).boot.meas k = measure s i k := by
  rw [runImage_meas]
  exact tget_map 0 (measure s i) (List.mem_range.mpr hk : k ∈ List.range 4)

/-! ### The firmware commands, past their object checks (R87 to R92) -/

section
variable {s : State} {r : Req}

/-- FW_UPDATE_BEGIN without a trial running and without a log clear in progress (R88, R504). -/
theorem fwUpdateBeginAct_ok (hi : imageState s s.boot.image ≠ 0x7F) (hc : s.log.clearing = false) :
    fwUpdateBeginAct r s = ok (changeState .update (causeOf r)
      (modUpdate (fun _ => { phase := 1, imageBytes := u32 r.payload 0, cause := causeOf r })
        (eraseImage (otherImage s) s))) := by
  unfold fwUpdateBeginAct
  rw [hc, if_neg Bool.false_ne_true, if_neg hi]

/-- FW_UPDATE_WRITE of the next bytes of the image, past the erasure (R89). -/
theorem fwUpdateWriteAct_ok (hp : s.boot.update.phase = 2) (ho : u32 r.payload 0 = s.boot.update.next)
    (hn : u32 r.payload 0 + u16 r.payload 4 ≤ s.boot.update.imageBytes)
    (hb : blankFields (u32 r.payload 0) (slice r.payload 8 (u16 r.payload 4)) = true) :
    fwUpdateWriteAct r s = ok (modUpdate (fun x => { x with next := u32 r.payload 0 + u16 r.payload 4 })
      (program (imageBase (otherImage s) + u32 r.payload 0) (slice r.payload 8 (u16 r.payload 4)) s)) := by
  have hbusy : ¬ s.boot.update.phase = 1 := by omega
  have hbad : ¬ (u32 r.payload 0 ≠ s.boot.update.next ∨
      s.boot.update.imageBytes < u32 r.payload 0 + u16 r.payload 4 ∨
      (!blankFields (u32 r.payload 0) (slice r.payload 8 (u16 r.payload 4))) = true) := by
    rintro (h | h | h)
    · exact h ho
    · omega
    · rw [hb] at h
      exact Bool.false_ne_true h
  unfold fwUpdateWriteAct
  dsimp only
  rw [if_neg hbusy, if_neg hbad]

/-- FW_UPDATE_END that abandons the update (R90). -/
theorem fwUpdateEndAct_abandons (hp : s.boot.update.phase = 2) (ha : u8 r.payload 0 = 0) :
    fwUpdateEndAct r s = ok (changeState .ready (causeOf r) (modUpdate (fun _ => {}) s)) := by
  have hbusy : ¬ s.boot.update.phase = 1 := by omega
  unfold fwUpdateEndAct
  dsimp only
  rw [if_neg hbusy, if_pos ha]

/-- FW_UPDATE_END of a whole image whose checks pass: it becomes a TRIAL image with both its boots left (R90). -/
theorem fwUpdateEndAct_finishes (hp : s.boot.update.phase = 2) (ha : u8 r.payload 0 = 1)
    (hn : s.boot.update.next = s.boot.update.imageBytes) (hh : headerGood (imageHeader s (otherImage s)) = true)
    (hs : stagesGood s (otherImage s) = true) :
    fwUpdateEndAct r s = ok (changeState .ready (causeOf r) (modUpdate (fun _ => {})
      (program (imageBase (otherImage s) + 12)
        (le 4 (nextSequence (u32 (imageHeader s s.boot.image) 12)) ++ [0x7F, 0x03]) s))) := by
  have hbusy : ¬ s.boot.update.phase = 1 := by omega
  have hact : ¬ u8 r.payload 0 = 0 := by omega
  unfold fwUpdateEndAct
  dsimp only
  rw [if_neg hbusy, if_neg hact, if_pos ⟨hn, hh, hs⟩]

/-- FW_TRIAL_DECIDE while a TRIAL image runs (R91). -/
theorem fwTrialDecideAct_ok (hi : imageState s s.boot.image = 0x7F) :
    fwTrialDecideAct r s = ok (if u8 r.payload 0 = 0
      then program (imageBase s.boot.image + 16) [0x3F] s
      else program (imageBase s.boot.image + 17) [0x00] s) := by
  unfold fwTrialDecideAct
  dsimp only
  rw [if_neg (not_not_intro hi)]
  split
  · rfl
  · rfl

/-- Outside UPDATE the progress of an update reads as five zero bytes (R92). -/
theorem fwStatusAct_eq :
    fwStatusAct r s = okWith (imageEntry s 0 ++ imageEntry s 1 ++
      (if s.ctl.devState = .update then le 4 s.boot.update.next ++ le 1 s.boot.update.phase else zeros 5) ++
      zeros 3) s := by
  unfold fwStatusAct
  dsimp only
  split
  · simp only [List.append_assoc]
  · have hz : le 4 ({} : Update).next ++ le 1 ({} : Update).phase = zeros 5 := rfl
    rw [← hz]
    simp only [List.append_assoc]

/-- The erasure of the other image ends outside FAULT whatever the recorder holds (R87, R498). -/
theorem exec_fwEraseDone (hp : s.boot.update.phase = 1) (hc : cpRuns s = true) (hd : s.ctl.devState ≠ .fault) :
    exec .fwEraseDone s = .next (raise 0x0101 0 [] s.boot.update.cause
      (modUpdate (fun x => { x with phase := 2, cause := none }) s)) :=
  if_pos (by simp [hp, hc, hd])

/-! ### Attestation (R94, R96) -/

/-- ATTEST of part 0 builds a report and answers its first half. -/
theorem attestAct_builds (hp : u8 r.payload 0 = 0) :
    attestAct r s = okWith (reportHalf r.ch 0 (buildReport r.ch (slice r.payload 8 32) s))
      (buildReport r.ch (slice r.payload 8 32) s) := if_pos hp

/-- ATTEST of part 1 answers the second half of the channel's latest report and builds none. -/
theorem attestAct_second {id : BitVec 32} (hp : u8 r.payload 0 = 1) (hi : (chan s r.ch).reportId = some id)
    (hr : u32 r.payload 4 = id.toNat) : attestAct r s = okWith (reportHalf r.ch 1 s) s := by
  have hact : ¬ u8 r.payload 0 = 0 := by omega
  unfold attestAct
  rw [if_neg hact]
  dsimp only
  rw [hi, hr]
  exact if_pos rfl

/-- ATTEST_CERT from an offset within the chain. -/
theorem attestCertAct_ok (ho : u32 r.payload 0 < s.ident.certChain.length) :
    attestCertAct r s = okWith (le 4 s.ident.certChain.length ++
      (s.ident.certChain.drop (u32 r.payload 0)).take 232) s := if_neg (Nat.not_le.mpr ho)

end

/-! ### The obligations -/

/-- Settles O49: every command but the resets is firm, and the boot ROM's table lists the four measurements. -/
theorem measurementsLockedUntilReset : Obligations.MeasurementsLockedUntilReset := by
  unfold Obligations.MeasurementsLockedUntilReset
  refine ⟨?locked, ?measured⟩
  case locked => exact fun i s t hr he => (Firm.of_exec hr he).meas
  case measured => exact fun i trial s k hk => tget_runImage_meas hk i trial s

/-- Settles O2: each command's own effect, past the object checks that the premises exclude. -/
theorem firmwareCommandsComplete : Obligations.FirmwareCommandsComplete := by
  unfold Obligations.FirmwareCommandsComplete
  refine ⟨?begin, ?erased, ?write, ?abandon, ?finish, ?decide, ?status, ?hwinit⟩
  case begin =>
    intro s r h hi hc
    refine congrArg Host.Outcome.next ((serve_accepts h fwUpdateBeginAct).trans ?_)
    rw [fwUpdateBeginAct_ok (by simpa using hi) (by simpa using hc), conclude_ok, otherImage_takeUp]
  case erased => exact fun s hp hc hd => exec_fwEraseDone hp hc hd
  case write =>
    intro s r h hp ho hn hb
    refine congrArg Host.Outcome.next ((serve_accepts h fwUpdateWriteAct).trans ?_)
    rw [fwUpdateWriteAct_ok (by simpa using hp) (by simpa using ho) (by simpa using hn) hb, conclude_ok,
      otherImage_takeUp]
  case abandon =>
    intro s r h hp ha
    refine congrArg Host.Outcome.next ((serve_accepts h fwUpdateEndAct).trans ?_)
    rw [fwUpdateEndAct_abandons (by simpa using hp) ha, conclude_ok]
  case finish =>
    intro s r h hp ha hn hh hs
    refine congrArg Host.Outcome.next ((serve_accepts h fwUpdateEndAct).trans ?_)
    rw [fwUpdateEndAct_finishes (by simpa using hp) ha (by simpa using hn) (by simpa using hh) (by simpa using hs),
      conclude_ok, otherImage_takeUp, imageHeader_takeUp, takeUp_boot]
  case decide =>
    intro s r h hi
    refine congrArg Host.Outcome.next ((serve_accepts h fwTrialDecideAct).trans ?_)
    rw [fwTrialDecideAct_ok (by simpa using hi), conclude_ok, takeUp_boot]
  case status =>
    intro s r h
    refine congrArg Host.Outcome.next ((serve_accepts h fwStatusAct).trans ?_)
    rw [fwStatusAct_eq, conclude_okWith, imageEntry_takeUp, imageEntry_takeUp, takeUp_devState, takeUp_boot]
  case hwinit =>
    intro s r h
    refine congrArg Host.Outcome.next ((serve_accepts h hwinitAct).trans ?_)
    rw [hwinitAct, conclude_ok, takeUp_boot]

/-- Settles O3: both halves of a report, and the certificate chain from an offset within it. -/
theorem attestationCompletes : Obligations.AttestationCompletes := by
  unfold Obligations.AttestationCompletes
  refine ⟨?first, ?second, ?cert⟩
  case first =>
    intro s r h hp
    refine congrArg Host.Outcome.next ((serve_accepts h attestAct).trans ?_)
    rw [attestAct_builds hp, conclude_okWith]
  case second =>
    intro s r id h hp hi hr
    refine congrArg Host.Outcome.next ((serve_accepts h attestAct).trans ?_)
    rw [attestAct_second hp ((takeUp_reportId r s r.ch).trans hi) hr, conclude_okWith]
  case cert =>
    intro s r h ho
    refine congrArg Host.Outcome.next ((serve_accepts h attestCertAct).trans ?_)
    rw [attestCertAct_ok (by simpa using ho), conclude_okWith, takeUp_ident]

end Sys2Proof.Machine
end

section
/-!
PROOFS. Device time through the recording of captures: a step of device time makes every running Basin write an EPOCH
record (R129), and nothing that a Basin does with a record changes device time. One lemma for each operation that a record
may pass, in the order of the model, then the stepped time itself.
-/
namespace Sys2Proof.Machine

/-- A fold of steps that each keep device time. -/
theorem foldl_time {α : Type} {f : State → α → State} (hf : ∀ x a, (f x a).time = x.time) (l : List α) (s : State) :
    (l.foldl f s).time = s.time := by
  induction l generalizing s with
  | nil => rfl
  | cons a l ih => rw [List.foldl_cons, ih, hf]

/-! ### Events, injections and memory errors -/

@[simp] theorem raiseWith_time (inj : Bool) (code obj : Nat) (args : Bytes) (cause : Option Cause) (s : State) :
    (raiseWith inj code obj args cause s).time = s.time := by
  obtain ⟨o, r, l, h⟩ := raiseWith_form inj code obj args cause s
  rw [h]

@[simp] theorem raise_time (code obj : Nat) (args : Bytes) (cause : Option Cause) (s : State) :
    (raise code obj args cause s).time = s.time := raiseWith_time ..

@[simp] theorem occurrence_time (det target : Nat) (s : State) : (occurrence det target s).2.time = s.time := by
  obtain ⟨o, r, l, j, h⟩ := occurrence_form det target s
  rw [h]

@[simp] theorem sramWrite_time (inst : Nat) (s : State) : (sramWrite inst s).2.time = s.time := by
  unfold sramWrite
  dsimp only
  split
  · exact occurrence_time ..
  · exact occurrence_time ..

@[simp] theorem sramError_time (inj : Bool) (inst outcome addr seq : Nat) (s : State) :
    (sramError inj inst outcome addr seq s).time = s.time := by
  unfold sramError
  extract_lets g s1 due args
  split
  · exact raiseWith_time ..
  · split
    · exact raiseWith_time ..
    · rfl

/-! ### The store (R342, R388, R398) -/

@[simp] theorem symbolsHit_time (outer inner : Nat) (s : State) : (symbolsHit outer inner s).2.time = s.time := by
  unfold symbolsHit
  split
  · rfl
  · rfl

@[simp] theorem blockWritten_time (blk : Nat) (s : State) : (blockWritten blk s).time = s.time := by
  simp [blockWritten]

@[simp] theorem bareUnit_time (s : State) (u : Nat) : (bareUnit s u).time = s.time := by
  unfold bareUnit
  split
  · rfl
  · rfl

/-- Before bytes are written in the clear, the data units that held them encrypted are read through their keys. -/
theorem bareUnits_time (key : Bytes) (l : List Nat) (s : State) :
    (if key = [] then l.foldl bareUnit s else s).time = s.time := by
  split
  · exact foldl_time bareUnit_time l s
  · rfl

theorem blocksWritten_time (l : List Nat) (s : State) : (l.foldl (fun x b => blockWritten b x) s).time = s.time :=
  foldl_time (fun x b => blockWritten_time b x) l s

@[simp] theorem storeWrite_time (key : Bytes) (a : Nat) (bs : Bytes) (s : State) :
    (storeWrite key a bs s).time = s.time := (blocksWritten_time ..).trans (bareUnits_time ..)

@[simp] theorem storeZero_time (key : Bytes) (a n : Nat) (s : State) : (storeZero key a n s).time = s.time :=
  (blocksWritten_time ..).trans (bareUnits_time ..)

@[simp] theorem useOnce_time (n : Nat) (s : State) : (useOnce n s).time = s.time := by
  unfold useOnce
  extract_lets x u s1 near s2
  have h2 : s2.time = s.time := by
    unfold s2
    split
    · exact raise_time ..
    · rfl
  split
  · rfl
  · split
    · exact (raise_time ..).trans h2
    · exact h2

@[simp] theorem useSlot_time (n k : Nat) (s : State) : (useSlot n k s).time = s.time := by
  induction k generalizing s with
  | zero => rfl
  | succ k ih => rw [useSlot, ih, useOnce_time]

/-! ### Segments and records (R322 to R324) -/

@[simp] theorem segWrite_time (b : Nat) (g : Seg) (off : Nat) (bs : Bytes) (s : State) :
    (segWrite b g off bs s).time = s.time := by
  unfold segWrite
  dsimp only
  split
  · simp
  · simp

@[simp] theorem zeroTail_time (b : Nat) (g : Seg) (s : State) : (zeroTail b g s).time = s.time := storeZero_time ..

@[simp] theorem setOpen_time (b : Nat) (g : Seg) (s : State) : (setOpen b g s).time = s.time := rfl

@[simp] theorem countBasin_time (b off k : Nat) (s : State) : (countBasin b off k s).time = s.time := rfl

@[simp] theorem closeSeg_time (b : Nat) (s : State) : (closeSeg b s).time = s.time := by
  unfold closeSeg
  split
  · rfl
  · simp

@[simp] theorem reportStaging_time (b seq : Nat) (d : Draft) (s : State) : (reportStaging b seq d s).time = s.time := by
  unfold reportStaging
  split
  · exact sramError_time ..
  · rfl

@[simp] theorem append_time (b : Nat) (d : Draft) (s : State) : (append b d s).time = s.time := by
  unfold append
  split
  · rfl
  · simp

@[simp] theorem addSeg_time (b : Nat) (seg : Seg) (s : State) : (addSeg b seg s).time = s.time := rfl

@[simp] theorem openHeader_time (b : Nat) (seg : Seg) (s : State) : (openHeader b seg s).time = s.time := segWrite_time ..

@[simp] theorem openSegAt_time (b g : Nat) (enc : Bool) (s : State) : (openSegAt b g enc s).time = s.time := by
  simp [openSegAt]

@[simp] theorem ensureRoom_time (b n : Nat) (s : State) : (ensureRoom b n s).2.time = s.time := by
  unfold ensureRoom
  split
  · rfl
  · split
    · rfl
    · split
      · rfl
      · simp

@[simp] theorem writeSome_time (b : Nat) (g : Seg) (d : Draft) (s : State) : (writeSome b g d s).time = s.time := by
  unfold writeSome
  dsimp only
  split
  · rfl
  · exact segWrite_time ..

@[simp] theorem tryPut_time (b : Nat) (d : Draft) (s : State) : (tryPut b d s).2.time = s.time := by
  unfold tryPut
  dsimp only
  split
  · rfl
  · split
    · rfl
    · rfl
    · split
      · exact ensureRoom_time ..
      · split
        · simp
        · simp

@[simp] theorem spareSeg_time (b : Nat) (s : State) : (spareSeg b s).time = s.time := by
  unfold spareSeg
  dsimp only
  split
  · rfl
  · split
    · rfl
    · split
      · rfl
      · simp

@[simp] theorem spendKey_time (b : Nat) (s : State) : (spendKey b s).time = s.time := by
  unfold spendKey
  extract_lets t left rewrite shut
  have hrewrite : ∀ x (_ : Nat), (rewrite x).time = x.time := by
    intro x _
    unfold rewrite
    split
    · rfl
    · split
      · exact segWrite_time ..
      · rfl
  have hshut : ∀ x, (shut x).time = x.time := by
    intro x
    unfold shut
    split
    · rfl
    · split
      · split
        · rfl
        · exact zeroTail_time ..
      · rfl
  calc ((List.range left).foldl (fun x _ => rewrite x) (shut t)).time
    _ = (shut t).time := foldl_time hrewrite ..
    _ = t.time := hshut t
    _ = s.time := spareSeg_time b s

@[simp] theorem putFit_time (b : Nat) (d : Draft) (s : State) : (putFit b d s).2.time = s.time := by
  unfold putFit
  dsimp only
  split
  · exact tryPut_time ..
  · rfl
  · simp

/-! ### Losses and capture states (R337, R340) -/

@[simp] theorem loseItem_time (b : Nat) (l : Loss) (cause : Nat) (s : State) : (loseItem b l cause s).time = s.time := by
  unfold loseItem
  split
  · rfl
  · rfl

@[simp] theorem gapEvent_time (b : Nat) (s : State) : (gapEvent b s).time = s.time := by
  unfold gapEvent
  extract_lets x due
  split
  · exact raise_time ..
  · rfl

@[simp] theorem writeGap_time (b : Nat) (s : State) : (writeGap b s).time = s.time := by
  unfold writeGap
  dsimp only
  split
  · split
    · simp
    · rfl
  · rfl

@[simp] theorem setCapState_time (b new stopCause : Nat) (cmd : Option Cause) (s : State) :
    (setCapState b new stopCause cmd s).time = s.time := raise_time ..

@[simp] theorem putOrLose_time (b : Nat) (d : Draft) (s : State) : (putOrLose b d s).time = s.time := by
  unfold putOrLose
  dsimp only
  split
  · simp
  · simp

@[simp] theorem putStop_time (b : Nat) (d : Draft) (s : State) : (putStop b d s).time = s.time := by
  unfold putStop
  split
  · exact loseItem_time ..
  · exact putOrLose_time ..

@[simp] theorem keepOrLose_time (b tail : Nat) (d : Draft) (s : State) : (keepOrLose b tail d s).time = s.time := by
  unfold keepOrLose
  split
  · exact putOrLose_time ..
  · exact loseItem_time ..

@[simp] theorem putEnd_time (b : Nat) (d : Draft) (s : State) : (putEnd b d s).time = s.time := by
  unfold putEnd
  split
  · exact keepOrLose_time ..
  · exact putOrLose_time ..

/-! ### Frames on their way into records (R320, R328, R330, R334 to R336), given what commits a record -/

section
variable {put : Draft → State → State} (hput : ∀ d s, (put d s).time = s.time)
include hput

theorem closeRun_time (b : Nat) (s : State) : (closeRun put b s).time = s.time := by
  unfold closeRun
  split
  · rfl
  · exact hput ..

theorem foldFrame_time (b rule flags : Nat) (i : StageItem) (s : State) :
    (foldFrame put b rule flags i s).time = s.time := by
  unfold foldFrame
  extract_lets fresh joins s1 s2 s3
  have h2 : s2.time = s.time := closeRun_time hput ..
  split
  · split
    · exact closeRun_time hput ..
    · rfl
  · split
    · exact h2
    · split
      · exact (hput ..).trans h2
      · exact h2

theorem storeForm_time (b rule mode headN flags : Nat) (i : StageItem) (s : State) :
    (storeForm put b rule mode headN flags i s).time = s.time := by
  unfold storeForm
  split
  · exact foldFrame_time hput ..
  · exact hput ..

theorem fenceWeir_time (inj : Bool) (w cause : Nat) (s : State) : (fenceWeir put inj w cause s).time = s.time := by
  unfold fenceWeir
  dsimp only
  split
  · rfl
  · split
    · exact raiseWith_time ..
    · split
      · exact raiseWith_time ..
      · exact (storeForm_time hput ..).trans (raiseWith_time ..)

theorem throughWeir_time (b rule : Nat) (m : Nat × Nat) (flags w : Nat) (returned : Bool) (i : StageItem) (s : State) :
    (throughWeir put b rule m flags w returned i s).time = s.time := by
  unfold throughWeir
  dsimp only
  split
  · exact (fenceWeir_time hput ..).trans ((sramError_time ..).trans (sramWrite_time ..))
  · split
    · exact (storeForm_time hput ..).trans (sramWrite_time ..)
    · exact sramWrite_time ..

theorem storeItem_time (b rule cmode headN : Nat) (default trig returned : Bool) (i : StageItem) (s : State) :
    (storeItem put b rule cmode headN default trig returned i s).time = s.time := by
  unfold storeItem
  dsimp only
  split
  · exact storeForm_time hput ..
  · split
    · exact storeForm_time hput ..
    · split
      · exact storeForm_time hput ..
      · split
        · exact storeForm_time hput ..
        · exact throughWeir_time hput ..

theorem storeDecided_time (b : Nat) (returned : Bool) (i : StageItem) (s : State) :
    (storeDecided put b returned i s).time = s.time := by
  unfold storeDecided
  split
  · exact storeItem_time hput ..
  · exact storeItem_time hput ..

theorem settleBursts_time (b fuel : Nat) (s : State) : (settleBursts put b fuel s).time = s.time := by
  induction fuel generalizing s with
  | zero => rfl
  | succ fuel ih =>
    have hrun := closeRun_time hput b s
    rw [settleBursts]
    split
    · rfl
    · split
      · split
        · rfl
        · exact (ih _).trans (storeDecided_time hput ..)
      · split
        · rfl
        · dsimp only
          split
          · exact hrun
          · split
            · exact (ih _).trans hrun
            · refine ((ih _).trans (hput ..)).trans ?_
              split
              · exact hrun
              · exact (writeGap_time ..).trans hrun

theorem settleAll_time (b : Nat) (s : State) : (settleAll put b s).time = s.time := settleBursts_time hput ..

theorem flushWeirs_time (b : Nat) (s : State) : (flushWeirs put b s).time = s.time := by
  refine foldl_time (fun x w => ?_) _ s
  dsimp only
  split
  · split
    · exact storeForm_time hput ..
    · rfl
  · rfl

end

/-! ### Stops and the transitions that a record brings (R337, R339, R340, R422) -/

@[simp] theorem flushStaging_time (b : Nat) (s : State) : (flushStaging b s).time = s.time := by
  have hput := putStop_time b
  refine (foldl_time (fun x i => ?_) _ _).trans ((settleAll_time hput ..).trans (flushWeirs_time hput ..))
  split
  · rfl
  · exact (settleAll_time hput ..).trans (storeDecided_time hput ..)

@[simp] theorem loseWeirs_time (b cause : Nat) (s : State) : (loseWeirs b cause s).time = s.time := by
  refine foldl_time (fun x w => ?_) _ s
  dsimp only
  split
  · split
    · exact loseItem_time ..
    · rfl
  · rfl

@[simp] theorem loseHeld_time (b cause : Nat) (s : State) : (loseHeld b cause s).time = s.time :=
  (foldl_time (fun _ _ => loseItem_time ..) _ _).trans
    ((foldl_time (fun _ _ => loseItem_time ..) _ _).trans (loseWeirs_time ..))

@[simp] theorem endCapture_time (b cause : Nat) (cmd : Option Cause) (s : State) :
    (endCapture b cause cmd s).time = s.time := by
  simp [endCapture]

@[simp] theorem stopKey_time (b : Nat) (s : State) : (stopKey b s).time = s.time := by
  have hlose : ∀ t, (closeRun (fun d x => loseItem b d.loss 4 x) b t).time = t.time :=
    closeRun_time (fun _ _ => loseItem_time ..) b
  unfold stopKey
  dsimp only
  split
  · simp [hlose]
  · simp [hlose]

@[simp] theorem settleKeys_time (b : Nat) (s : State) : (settleKeys b s).time = s.time := by
  refine foldl_time (fun x c => ?_) _ s
  split
  · exact stopKey_time ..
  · rfl

@[simp] theorem stopFull_time (b : Nat) (d : Option Draft) (s : State) : (stopFull b d s).time = s.time := by
  have hrun : ∀ t, (closeRun (keepOrLose b 80) b t).time = t.time := closeRun_time (keepOrLose_time b 80) b
  cases d with
  | none => simp [stopFull, hrun]
  | some e => simp [stopFull, hrun]

@[simp] theorem stopCapture_time (b cause : Nat) (cmd : Option Cause) (s : State) :
    (stopCapture b cause cmd s).time = s.time := by
  have hrun : ∀ t, (closeRun (putEnd b) b t).time = t.time := closeRun_time (putEnd_time b) b
  unfold stopCapture
  dsimp only
  split
  · simp [hrun]
  · split
    · exact setCapState_time ..
    · rfl

@[simp] theorem settleBasin_time (b : Nat) (s : State) : (settleBasin b s).time = s.time := by
  unfold settleBasin
  dsimp only
  split
  · simp
  · simp

@[simp] theorem putRec_time (b : Nat) (d : Draft) (s : State) : (putRec b d s).time = s.time := by
  unfold putRec
  split
  · rfl
  · split
    · exact stopFull_time ..
    · simp

@[simp] theorem putNote_time (b : Nat) (d : Draft) (s : State) : (putNote b d s).time = s.time := putRec_time ..

/-- The EPOCH records of a step leave device time as the step made it. -/
@[simp] theorem epochAll_time (s : State) : (epochAll s).time = s.time := by
  refine foldl_time (fun x b => ?_) _ s
  have hrun := closeRun_time (putRec_time b) b x
  split
  · dsimp only
    split
    · exact (putNote_time ..).trans hrun
    · exact hrun
  · rfl

/-! ### The stepped time (R127 to R129, R132) -/

section
variable (v : BitVec 64) (frac : BitVec 24) (s : State)

/-- The time after a step: the new value and fraction, the record of the past, and the edge of PPS_OUT it may bring. -/
theorem stepTime_time :
    (stepTime v frac s).time = { keepPast s.time with
      ns := v
      frac
      ppsOut := s.time.ppsOut || decide (s.time.ppsDone < ppsSecond s.time.ppsOffset v)
      ppsDone := ppsSecond s.time.ppsOffset v } := epochAll_time _

@[simp] theorem stepTime_ns : (stepTime v frac s).time.ns = v := by rw [stepTime_time]

@[simp] theorem stepTime_frac : (stepTime v frac s).time.frac = frac := by rw [stepTime_time]

@[simp] theorem stepTime_unsynced : (stepTime v frac s).time.unsynced = s.time.unsynced := by
  rw [stepTime_time]
  rfl

end

end Sys2Proof.Machine
end

section
/-!
PROOFS. The clock commands, the AVSBus exchange and the forced switch (R104, R107, R108, R110, R112, R135, R479, R481), the
frequency source (R113 to R120), and the commands of device time with PPS (R127, R128, R131 to R133).
-/
namespace Sys2Proof.Machine

section
variable {s : State} {r : Req}

/-! ### CORE_POINT past its object checks (R110, R467, R481) -/

/-- In HUSH, at the point asked for, or held at point 0 by THERM_HOT, CORE_POINT sets the ceiling and is answered. -/
theorem corePointAct_answered (h : s.ctl.devState = .hush ∨
    (s.clk.step = none ∧ (u8 r.payload 0 = s.clk.point ∨ (s.pwr.hot = true ∧ s.clk.point = 0)))) :
    corePointAct r s = okWith (pointBytes s) { s with clk := { s.clk with ceiling := u8 r.payload 0 } } := by
  unfold corePointAct
  dsimp only
  by_cases hush : s.ctl.devState = .hush
  · rw [if_pos hush]
    rfl
  · obtain ⟨hstep, hstay⟩ := h.resolve_left hush
    rw [if_neg hush, hstep, if_neg (by simp), if_pos hstay]
    rfl

/-- In every other case the step to the point asked for begins. -/
theorem corePointAct_steps (hush : s.ctl.devState ≠ .hush) (hstep : s.clk.step = none)
    (hp : u8 r.payload 0 ≠ s.clk.point) (hhot : ¬(s.pwr.hot = true ∧ s.clk.point = 0)) :
    corePointAct r s = .later (startStep { target := u8 r.payload 0, origin := .command }
      { s with clk := { s.clk with ceiling := u8 r.payload 0 } }) := by
  unfold corePointAct
  dsimp only
  rw [if_neg hush, hstep, if_neg (by simp), if_neg (not_or.mpr ⟨hp, hhot⟩)]

/-! ### The AVSBus exchange (R107, R108, R479) -/

theorem avsAck_ends (hs : s.clk.step.isSome = true) (hp : s.clk.avsPending = true) (hw : s.clk.avsWithheld = false) :
    avsAck s = endStep true s := if_pos (by simp [hs, hp, hw])

/-- A poll while a voltage request waits reads the status, and then acts as the slave's answer says. -/
theorem exec_avsbusStatusPoll {a : AvsPoll} (hs : s.clk.step.isSome = true) (hp : s.clk.avsPending = true) :
    exec (.avsbusStatusPoll a) s = .next (
      if a.writeGood = false then emit (.avsWrite s.clk.avsMv) (emit .avsStatus s)
      else if a.readGood = false then emit .avsStatus (emit .avsStatus s)
      else if a.vDone then avsAck (emit .avsStatus s) else emit .avsStatus s) := by
  change execAvsbusStatusPoll a s = _
  unfold execAvsbusStatusPoll
  rw [if_pos ⟨hs, hp⟩]
  cases hw : a.writeGood with
  | false => rfl
  | true => cases hg : a.readGood with
    | false => rfl
    | true => rfl

/-- The AVSBus master reads where Control runs, outside STILL. -/
theorem exec_avsbusMonitor_runs {good : Bool} {v : AvsReading} (ha : aonRuns s = true) (hs : s.ctl.devState ≠ .still) :
    exec (.avsbusMonitor good v) s = .next (if good then { emit .avsRead s with
      clk := { s.clk with vddMv := v.mv % 65536, idd := v.idd % 65536 } } else emit .avsRead (emit .avsRead s)) :=
  congrArg Host.Outcome.next (if_neg (by simp [ha, hs]))

theorem exec_avsbusMonitor_idle {good : Bool} {v : AvsReading} (ha : aonRuns s = false) :
    exec (.avsbusMonitor good v) s = .next s := congrArg Host.Outcome.next (if_pos (by simp [ha]))

end

/-- Settles O12: each command's own effect, and one equation for a poll and one for a readback of the AVSBus. -/
theorem clockCommandsComplete : Obligations.ClockCommandsComplete := by
  unfold Obligations.ClockCommandsComplete
  refine ⟨?set, ?point, ?step, ?status, ?ack, ?polled, ?waits, ?reread, ?rewrite, ?timeout, ?monitor, ?again, ?down,
    ?forced⟩
  case set =>
    intro s r h
    refine congrArg Host.Outcome.next ((serve_accepts h clockSetAct).trans ?_)
    rw [clockSetAct, conclude_ok, takeUp_clk]
  case point =>
    intro s r h hstay
    refine congrArg Host.Outcome.next ((serve_accepts h corePointAct).trans ?_)
    rw [corePointAct_answered (by simpa using hstay), conclude_okWith, pointBytes_takeUp, pointBytes, takeUp_clk]
  case step =>
    intro s r h hush hstep hp hhot
    refine congrArg Host.Outcome.next ((serve_accepts h corePointAct).trans ?_)
    rw [corePointAct_steps (by simpa using hush) (by simpa using hstep) (by simpa using hp) (by simpa using hhot),
      conclude_later, takeUp_clk]
  case status =>
    intro s r h
    refine congrArg Host.Outcome.next ((serve_accepts h clockStatusAct).trans ?_)
    rw [clockStatusAct, conclude_okWith, clockStatusBytes_takeUp, clockStatusBytes]
  case ack => exact fun s hs hp hw => congrArg Host.Outcome.next (avsAck_ends hs hp hw)
  case polled =>
    intro s hs hp hw
    have hend : avsAck (emit .avsStatus s) = endStep true (emit .avsStatus s) := avsAck_ends hs hp hw
    rw [exec_avsbusStatusPoll hs hp, ← hend]
    rfl
  case waits => exact fun s hs hp => exec_avsbusStatusPoll hs hp
  case reread => exact fun s d hs hp => exec_avsbusStatusPoll hs hp
  case rewrite => exact fun s g d hs hp => exec_avsbusStatusPoll hs hp
  case timeout => exact fun s hs => congrArg Host.Outcome.next (if_pos hs)
  case monitor => exact fun s mv idd ha hs => exec_avsbusMonitor_runs ha hs
  case again => exact fun s mv idd ha hs => exec_avsbusMonitor_runs ha hs
  case down => exact fun s good v ha => exec_avsbusMonitor_idle ha
  case forced => exact fun s mux hm ht => if_pos ⟨hm, ht⟩

section
variable {s : State}

/-! ### The frequency source's events (R113, R117, R120) -/

/-- In the automatic order RC_TRIM takes REF_IN where it is there, else REFCLK_SYS, whose offset it reports while the DPLL is
LOCKED. -/
theorem exec_rcTrim_auto (h : s.src.trimRef = 0) (refIn : Bool) (ppb : Int) :
    exec (.rcTrim refIn ppb) s = .next { s with src := { s.src with
      trimUsed := if refIn then 1 else 2
      refPpb := if s.src.state ≠ 1 then 0x80000000 else if timeRuns s then BitVec.ofInt 32 ppb else s.src.refPpb } } := by
  change execRcTrim refIn ppb s = _
  unfold execRcTrim
  simp [h]

theorem exec_dpllBridgeExpiry (hb : s.src.bridging = true) (ht : timeRuns s = true) :
    exec .dpllBridgeExpiry s = .next (if qualified s (s.src.source - 1)
      then { s with src := { s.src with bridging := false } }
      else sourceLost none { s with src := { s.src with bridging := false } }) := if_pos ⟨hb, ht⟩

end

/-- Settles O13: each event acts under its condition, and RC_TRIM reports the trim and the offset alone. -/
theorem frequencySourceCompletes : Obligations.FrequencySourceCompletes := by
  unfold Obligations.FrequencySourceCompletes
  refine ⟨?set, ?qualified, ?restored, ?held, ?lost, ?trim⟩
  case set =>
    intro s r h
    refine congrArg Host.Outcome.next ((serve_accepts h freqSourceAct).trans ?_)
    rw [freqSourceAct, conclude_ok, takeUp_src]
  case qualified =>
    intro s p hp hst ht hq hd
    exact if_pos ⟨hp, hst, hd, by simp [hq], ht⟩
  case restored =>
    intro s hst hsrc hm hrev hb ht
    exact if_pos ⟨hst, hsrc, hm, hrev, hb, ht⟩
  case held =>
    intro s hb ht hq
    rw [exec_dpllBridgeExpiry hb ht, if_pos hq]
  case lost =>
    intro s hb ht hq
    rw [exec_dpllBridgeExpiry hb ht, hq]
    rfl
  case trim =>
    intro s refIn ppb h0
    refine ⟨_, exec_rcTrim_auto h0 refIn ppb, rfl, fun hst => if_pos hst, fun hst ht => ?_, rfl⟩
    exact (if_neg (not_not_intro hst)).trans (if_pos ht)

section
variable {s : State} {r : Req}

/-! ### TIME_ADJUST and TIME_FORCE past their object checks (R127, R128) -/

theorem timeAdjustAct_ok (h : (signed 64 (u64 r.payload 0)).natAbs ≤ s.time.stepMax) :
    timeAdjustAct r s = ok (stepTime (s.time.ns + BitVec.ofNat 64 (u64 r.payload 0)) s.time.frac s) :=
  if_neg (Nat.not_lt.mpr h)

/-- TIME_FORCE of kind 0 sets an absolute value and clears the fraction. -/
theorem timeForceAct_absolute (h : u8 r.payload 0 = 0) :
    timeForceAct r s = ok (raise 0x0204 0
      (le 8 s.time.ns.toNat ++ le 8 (BitVec.ofNat 64 (u64 r.payload 8)).toNat) (causeOf r)
      (stepTime (BitVec.ofNat 64 (u64 r.payload 8)) 0 { s with time := { s.time with unsynced := false } })) := by
  unfold timeForceAct
  dsimp only
  rw [if_pos h, stepTime_ns]

/-- TIME_FORCE of kind 1 adds an offset and leaves the fraction. -/
theorem timeForceAct_offset (h : u8 r.payload 0 ≠ 0) :
    timeForceAct r s = ok (raise 0x0204 0
      (le 8 s.time.ns.toNat ++ le 8 (s.time.ns + BitVec.ofNat 64 (u64 r.payload 8)).toNat) (causeOf r)
      (stepTime (s.time.ns + BitVec.ofNat 64 (u64 r.payload 8)) s.time.frac
        { s with time := { s.time with unsynced := false } })) := by
  unfold timeForceAct
  dsimp only
  rw [if_neg h, stepTime_ns]

theorem leNat_lt (bs : Bytes) : leNat bs < 256 ^ bs.length := by
  induction bs with
  | nil => decide
  | cons b bs ih =>
    have hb : b.toNat < 256 := b.isLt
    rw [leNat, List.length_cons, Nat.pow_succ]
    omega

/-- A 64-bit field as a word is the number it holds. -/
theorem toNat_ofNat_u64 (bs : Bytes) (o : Nat) : (BitVec.ofNat 64 (u64 bs o)).toNat = u64 bs o := by
  have h : u64 bs o < 256 ^ (slice bs o 8).length := leNat_lt (slice bs o 8)
  rw [length_slice] at h
  rw [BitVec.toNat_ofNat]
  exact Nat.mod_eq_of_lt h

/-! ### PPS (R130 to R133) -/

/-- PPS_IN_EDGE latches device time and counts, and raises its event where TIME_CONFIG asks for it. -/
theorem exec_ppsInEdge (ht : timeRuns s = true) :
    exec .ppsInEdge s = .next (wakeSource 6 0 (
      if s.time.ppsEvent then raise 0x0205 0 (le 8 s.time.ns.toNat) none { s with
        time := { s.time with ppsTs := s.time.ns, ppsCount := s.time.ppsCount + 1 } }
      else { s with time := { s.time with ppsTs := s.time.ns, ppsCount := s.time.ppsCount + 1 } })) := if_pos ht

/-- In STILL the time island stands. -/
theorem not_still_of_timeRuns (ht : timeRuns s = true) : s.ctl.devState ≠ .still := by
  intro h
  simp [timeRuns, h] at ht

end

/-- Settles O14: each command steps or configures device time, which the EPOCH records of the step leave alone. -/
theorem deviceTimeCompletes : Obligations.DeviceTimeCompletes := by
  unfold Obligations.DeviceTimeCompletes
  refine ⟨?adjust, ?force, ?offset, ?config, ?rise, ?early, fun _ => rfl, ?edge, ?event⟩
  case adjust =>
    intro s r h hmax
    refine congrArg Host.Outcome.next ((serve_accepts h timeAdjustAct).trans ?_)
    rw [timeAdjustAct_ok (by simpa using hmax), conclude_ok, takeUp_time]
  case force =>
    intro s r h h0
    refine ⟨stepTime (BitVec.ofNat 64 (u64 r.payload 8)) 0
        { takeUp r s with time := { s.time with unsynced := false } }, ?_, by simp, by simp, by simp⟩
    refine congrArg Host.Outcome.next ((serve_accepts h timeForceAct).trans ?_)
    rw [timeForceAct_absolute h0, conclude_ok, toNat_ofNat_u64, takeUp_time]
  case offset =>
    intro s r h h1
    refine ⟨stepTime (s.time.ns + BitVec.ofNat 64 (u64 r.payload 8)) s.time.frac
        { takeUp r s with time := { s.time with unsynced := false } }, ?_, by simp, by simp, by simp⟩
    refine congrArg Host.Outcome.next ((serve_accepts h timeForceAct).trans ?_)
    rw [timeForceAct_offset (by omega), conclude_ok, stepTime_ns, takeUp_time]
  case config =>
    intro s r h
    refine congrArg Host.Outcome.next ((serve_accepts h timeConfigAct).trans ?_)
    rw [timeConfigAct, conclude_ok, takeUp_time, takeUp_src]
  case rise => exact fun s ht hlt => congrArg Host.Outcome.next (if_pos ⟨ht, hlt⟩)
  case early =>
    intro s hle
    exact congrArg Host.Outcome.next (if_neg fun h => absurd h.2 (Int.not_lt.mpr hle))
  case edge =>
    intro s ht he hh
    rw [exec_ppsInEdge ht, he, if_neg Bool.false_ne_true]
    exact congrArg Host.Outcome.next (wakeSource_idle (wakeEnabled_awake hh (not_still_of_timeRuns ht)))
  case event =>
    intro s ht he
    rw [exec_ppsInEdge ht, if_pos he]

end Sys2Proof.Machine
end

section
/-!
PROOFS. The defect events of a receive port (R183 to R187): what declaring and clearing a defect does, said once for every
defect, and when a window of LOFEC or SD declares one.
-/
namespace Sys2Proof.Machine

section
variable {s : State} {port b : Nat}

/-! ### Declaring and clearing a defect (R183, R184) -/

section
variable {o : Host.Outcome State Fault Refusal}

/-- A defect that no higher one suppresses is declared, and its plane is judged after its effects. -/
theorem declares_of (ho : o = .next (declareDefect port b s)) (hr : detectorsRun s port = true)
    (hd : (defPort s port).declared % 2 ^ (b + 1) = 0) :
    ∃ t, o = .next (judge (port / 16) none (defectQual port b (bridgeSwitch port
      (defectEvent port b true (defPort s port).declared none t)))) ∧ (defPort t port).declared = 2 ^ b := by
  refine ⟨_, ho.trans (congrArg Host.Outcome.next (if_neg (by simp [hr, hd]))), ?_⟩
  rw [defPort_modDef, if_pos rfl]

/-- A declared defect is cleared, and its plane is judged. -/
theorem clears_of (ho : o = .next (clearDefect port b s)) (hr : detectorsRun s port = true)
    (hb : bit (defPort s port).declared b = true) :
    ∃ t, o = .next (judge (port / 16) none (defectEvent port b false 0 none t)) ∧ (defPort t port).declared = 0 := by
  refine ⟨_, ho.trans (congrArg Host.Outcome.next (if_neg (by simp [hr, hb]))), ?_⟩
  rw [defPort_modDef, if_pos rfl]

end

/-! ### The events of LOS, LOL and LOF (R183, R186) -/

theorem exec_losDeclare (hs : sdSeen s port = false) : exec (.losDeclare port) s = .next (declareDefect port 0 s) :=
  if_neg (by simp [hs])

theorem exec_losClear (hs : sdSeen s port = true) : exec (.losClear port) s = .next (clearDefect port 0 s) := if_pos hs

theorem exec_lolDeclare (hs : sdSeen s port = true) (hl : (lane s port).cdrLock = false) :
    exec (.lolDeclare { port, higher := false }) s = .next (declareDefect port 1 s) := if_neg (by simp [hs, hl])

theorem exec_lolClear (hl : (lane s port).cdrLock = true) :
    exec (.lolClear { port, higher := false }) s = .next (clearDefect port 1 s) := if_pos (by simp [hl])

theorem exec_lofDeclare (hy : (hunter s port).sync = false) :
    exec (.lofDeclare { port, higher := false }) s = .next (declareDefect port 2 s) := if_neg (by simp [hy])

theorem exec_lofClear (hy : (hunter s port).sync = true) :
    exec (.lofClear { port, higher := false }) s = .next (clearDefect port 2 s) := if_pos (by simp [hy])

/-! ### The windows of LOFEC and SD (R183, R184, R186) -/

/-- A window that counts is judged after the next one has begun. -/
theorem exec_lofecWindowEnd_counts (hr : detectorsRun s port = true) (hd : (defPort s port).declared % 8 = 0)
    (hk : (defPort s port).skipLofec = false) : exec (.lofecWindowEnd { port, higher := false }) s =
      .next (judgeLofec port (defPort s port) (nextLofec port s)) :=
  (if_neg (by simp [hr])).trans (if_neg (by simp [hd, hk]))

/-- The third window in a row at the threshold declares LOFEC. -/
theorem judgeLofec_third {d : DefPort} (hb : bit d.declared 3 = false) (hc : d.winCw ≠ 0)
    (ht : d.wLofecSet * d.winCw ≤ d.winUnc * 1000000) (h2 : d.lofecRun = 2) :
    judgeLofec port d s = declareDefect port 3 (modDef port (fun x => { x with lofecRun := 3 }) s) := by
  simp [judgeLofec, hb, hc, ht, h2]

/-- A window that counts and meets no injection is judged by its own errors. -/
theorem exec_sdWindowEnd_counts (hi : s.inj.entries = []) (hr : detectorsRun s port = true)
    (hd : (defPort s port).declared % 16 = 0) (hk : (defPort s port).skipSd = false) (h0 : (defPort s port).sdInj = 0) :
    exec (.sdWindowEnd { port, higher := false }) s = .next (judgeSd port (defPort s port) false
      (nextSd port (modDef port (fun x => { x with sdInj := 0 }) s))) := by
  have hnone : injIndex 0x06 port s = none := by simp [injIndex, hi]
  refine (if_neg (by simp [hr])).trans ((if_neg (by simp [hd, hk])).trans ?_)
  dsimp only
  rw [if_pos h0, occurrence_none hnone, h0]
  rfl

/-- A window at the threshold declares SD. -/
theorem judgeSd_atThreshold {d : DefPort} (hb : bit d.declared 4 = false) (hc : d.sdCw ≠ 0)
    (ht : d.sdCw * codewordBits (port / 16) ≤ d.sdBits * 10 ^ d.wSdSet) :
    judgeSd port d false s = declareDefect port 4 s := by
  simp [judgeSd, hb, hc, ht]

/-- While a higher defect changes, a window does not count. -/
theorem exec_lofecWindowEnd_suppressed (hr : detectorsRun s port = true) :
    exec (.lofecWindowEnd { port, higher := true }) s = .next (nextLofec port s) :=
  (if_neg (by simp [hr])).trans (if_pos (by simp))

theorem exec_sdWindowEnd_suppressed (hr : detectorsRun s port = true) :
    exec (.sdWindowEnd { port, higher := true }) s = .next (nextSd port s) :=
  (if_neg (by simp [hr])).trans (if_pos (by simp))

end

/-! ### The obligation -/

/-- Settles O21: a defect is declared or cleared where its detector says so, and a window counts where none is suppressed. -/
theorem defectEventsComplete : Obligations.DefectEventsComplete := by
  unfold Obligations.DefectEventsComplete
  refine ⟨?los, ?losEnds, ?lol, ?lolEnds, ?lof, ?lofEnds, ?lofec, ?sd, fun _ _ => ⟨rfl, rfl, rfl, rfl⟩, ?windows⟩
  case los => exact fun s port hr hd hs => declares_of (exec_losDeclare hs) hr hd
  case losEnds => exact fun s port hr hb hs => clears_of (exec_losClear hs) hr hb
  case lol => exact fun s port hr hd hs hl => declares_of (exec_lolDeclare hs hl) hr hd
  case lolEnds => exact fun s port hr hb hl => clears_of (exec_lolClear hl) hr hb
  case lof => exact fun s port hr hd hy => declares_of (exec_lofDeclare hy) hr hd
  case lofEnds => exact fun s port hr hb hy => clears_of (exec_lofClear hy) hr hb
  case lofec =>
    intro s port hr hd hk h3 hc ht h2
    have hb : bit (defPort s port).declared 3 = false := by
      rw [bit, Nat.testBit_eq_decide_div_mod_eq]
      exact decide_eq_false (by omega)
    refine ⟨_, (exec_lofecWindowEnd_counts hr hd hk).trans (congrArg _ (judgeLofec_third hb hc ht h2)), ?_⟩
    simp [nextLofec, defPort_modDef]
  case sd =>
    intro s port hi hr hd hk h0 hc ht
    have hb : bit (defPort s port).declared 4 = false := by simp [bit, hd]
    refine ⟨_, (exec_sdWindowEnd_counts hi hr (by rw [hd]) hk h0).trans
      (congrArg _ (judgeSd_atThreshold hb hc ht)), ?_⟩
    simp [nextSd, defPort_modDef]
  case windows => exact fun s port hr => ⟨exec_lofecWindowEnd_suppressed hr, exec_sdWindowEnd_suppressed hr⟩

end Sys2Proof.Machine
end

section
/-!
PROOFS. The lane commands (R140 to R154, R158): each passes the general checks and then its own object checks, whose
premises the statement names; what LANE_STATUS reads of an adapting equaliser and of the eye.
-/
namespace Sys2Proof.Machine

section
variable {s : State} {r : Req} {c : CmdSpec}

/-! ### Requests that pass the general checks -/

/-- The payload of an accepted request has its command's form (R529 check 6). -/
theorem form_of_accepts (h : Accepts c s r) : c.form r.payload = true := by
  obtain ⟨-, -, -, hf⟩ := h
  unfold firstFailure at hf
  split_ifs at hf with _ _ _ _ _ hform
  simpa using hform

/-! ### Equalisation (R142, R149) -/

/-- In manual mode LANE_RX_EQ keeps the values, and so does a mode 1 after a mode that did not adapt (log 80). -/
theorem rxEqAct_keeps (h2 : u8 r.payload 1 ≠ 2) (h1 : ¬(u8 r.payload 1 = 1 ∧ (lane s (u8 r.payload 0)).rxMode = 0)) :
    rxEqAct r s = ok (modLane (u8 r.payload 0) (fun x => { x with
      rxMode := u8 r.payload 1
      invertRx := u8 r.payload 8 == 1 }) s) := (if_neg h2).trans (if_neg h1)

/-- Mode 1 after adaptation holds what adaptation has reached. -/
theorem rxEqAct_holds (h1 : u8 r.payload 1 = 1) (h0 : (lane s (u8 r.payload 0)).rxMode = 0) :
    rxEqAct r s = ok (modLane (u8 r.payload 0) (fun x => { x with
      rxMode := 1
      ctle := (heldEq (u8 r.payload 0) s).1.1
      dfe := (heldEq (u8 r.payload 0) s).1.2
      invertRx := u8 r.payload 8 == 1 }) (heldEq (u8 r.payload 0) s).2) :=
  (if_neg (by rw [h1]; decide)).trans (if_pos ⟨h1, h0⟩)

theorem heldEq_frozen {l : Nat} {v : Nat × List Int} (h : (lane s l).frozen = some v) : heldEq l s = (v, s) := by
  unfold heldEq
  rw [h]

theorem heldEq_adapting {l : Nat} (h : (lane s l).frozen = none) : heldEq l s = adapted s := by
  unfold heldEq
  rw [h]

theorem heldEq_lane (l : Nat) (s : State) : (heldEq l s).2.lane = s.lane := by
  unfold heldEq
  split
  · rfl
  · rfl

/-! ### Port signals (R146) -/

/-- Two updates of a port that agree on its present value are one. -/
theorem modLinePort_congr {n : Nat} {f g : Port → Port} (h : f (linePort s n) = g (linePort s n)) :
    modLinePort n f s = modLinePort n g s := by
  have ht : tmod {} s.lane.ports n f = tmod {} s.lane.ports n g := congrArg (tset s.lane.ports n) h
  unfold modLinePort
  rw [ht]

@[simp] theorem linePort_takeUp (p : Nat) : linePort (takeUp r s) p = linePort s p := by
  unfold linePort
  rw [takeUp_lane]

@[simp] theorem lineNow_takeUp (p : Nat) : lineNow (takeUp r s) p = lineNow s p := by
  unfold lineNow
  rw [plane_takeUp, takeUp_time]

/-! ### LANE_TEST (R151 to R154) -/

/-- The forcing of TX_EN that a LANE_TEST asks for finds the laser enabled, or it asks for none. -/
abbrev ForceAllowed (r : Req) (s : State) : Prop :=
  u8 r.payload 6 = 0 ∨ (optics s (portOfLane (u8 r.payload 0))).laser = true

theorem forceAllowed_takeUp : ForceAllowed r (takeUp r s) ↔ ForceAllowed r s := by
  unfold ForceAllowed
  rw [optics_takeUp]

theorem force_not_refused (h : ForceAllowed r s) :
    ¬(u8 r.payload 6 = 1 ∧ (!(optics s (portOfLane (u8 r.payload 0))).laser) = true) := by
  rintro ⟨h1, hl⟩
  rcases h with h | h
  · omega
  · simp [h] at hl

/-- The form bounds inject to its three kinds, of which the first error of each is told apart. -/
theorem firstError_eq (hf : laneTestForm r.payload = true) :
    firstError (u8 r.payload 5) (u32 r.payload 8) =
      if u8 r.payload 5 = 2 then u32 r.payload 8 else u8 r.payload 5 := by
  have hi : u8 r.payload 5 ≤ 2 := by
    simp only [laneTestForm, Bool.and_eq_true, decide_eq_true_eq] at hf
    tauto
  match u8 r.payload 5, hi with
  | 0, _ => rfl
  | 1, _ => rfl
  | 2, _ => rfl

/-- Actions 0 and 2 concern no lane but their own. -/
theorem find_no_start {f : Nat → Bool} (h : u8 r.payload 1 ≠ 1) :
    (if u8 r.payload 1 = 1 then testLanes (u8 r.payload 4 == 1) (u8 r.payload 0) else []).find? f = none := by
  rw [if_neg h]
  rfl

/-- Action 0 ends the test on the lane, and on both lanes of a near-end loopback. -/
theorem laneTestAct_ends (h0 : u8 r.payload 1 = 0) (hr : ¬(s.ctl.devState = .run ∧ (lane s (u8 r.payload 0)).state = 1))
    (hl : ForceAllowed r s) :
    laneTestAct r s = ok (settleLane (u8 r.payload 0)
      ((testLanes ((lane s (u8 r.payload 0)).loopback == 1) (u8 r.payload 0)).foldl (fun y k => endTest k y) s)) := by
  unfold laneTestAct
  dsimp only
  rw [if_neg (by simpa using hr), find_no_start (by omega)]
  dsimp only
  rw [if_neg (by omega), if_neg (force_not_refused hl), if_pos h0]

/-- Action 2 changes the errors that a lane in TEST inserts. -/
theorem laneTestAct_inserts (hf : laneTestForm r.payload = true) (h2 : u8 r.payload 1 = 2)
    (hst : (lane s (u8 r.payload 0)).state = 2) (hl : ForceAllowed r s) :
    laneTestAct r s = ok (startErrors (u8 r.payload 0) (modLane (u8 r.payload 0) (fun y => { y with
      inject := u8 r.payload 5
      interval := u32 r.payload 8
      injLeft := if u8 r.payload 5 = 2 then u32 r.payload 8 else u8 r.payload 5 }) s)) := by
  unfold laneTestAct
  dsimp only
  rw [if_neg (by simp [hst]), find_no_start (by omega)]
  dsimp only
  rw [if_neg (by omega), if_neg (force_not_refused hl), if_neg (by omega), if_pos h2, firstError_eq hf]

/-- A start without loopback on one lane of a near-end loopback ends it on both (log 80). -/
def leaveLoop (r : Req) (s : State) : State :=
  if (lane s (u8 r.payload 0)).loopback = 1 ∧ u8 r.payload 4 ≠ 1 then
    (testLanes true (u8 r.payload 0)).foldl (fun y k => modLane k (fun z => { z with loopback := 0 }) y) s
  else s

/-- Action 1 starts a test where no lane that it concerns is in SERVICE of a running device. -/
theorem laneTestAct_starts (hf : laneTestForm r.payload = true) (h1 : u8 r.payload 1 = 1)
    (hr : s.ctl.devState = .run → ∀ k ∈ u8 r.payload 0 :: testLanes (u8 r.payload 4 == 1) (u8 r.payload 0),
      (lane s k).state ≠ 1) (hl : ForceAllowed r s) :
    laneTestAct r s = ok (settleLane (u8 r.payload 0) (startPattern (u8 r.payload 0)
      (modLane (u8 r.payload 0) (fun y => { y with
        gen := u8 r.payload 2
        chk := u8 r.payload 3
        inject := u8 r.payload 5
        interval := u32 r.payload 8
        injLeft := if u8 r.payload 5 = 2 then u32 r.payload 8 else u8 r.payload 5
        user := BitVec.ofNat 64 (u64 r.payload 16)
        txForce := u8 r.payload 6 == 1
        elecIdle := u8 r.payload 4 == 1 || (u8 r.payload 4 == 0 && u8 r.payload 2 == 0) })
      ((testLanes (u8 r.payload 4 == 1) (u8 r.payload 0)).foldl (fun y k => beginTest (u8 r.payload 4) k y)
        (leaveLoop r s))))) := by
  have hown : ¬((s.ctl.devState == .run) = true ∧ (lane s (u8 r.payload 0)).state = 1) := by
    rintro ⟨hrun, hst⟩
    exact hr (eq_of_beq hrun) _ List.mem_cons_self hst
  have hnone : (testLanes (u8 r.payload 4 == 1) (u8 r.payload 0)).find?
      (fun k => s.ctl.devState == .run && (lane s k).state == 1) = none := by
    rw [List.find?_eq_none]
    intro k hk hserves
    obtain ⟨hrun, hst⟩ := Bool.and_eq_true_iff.mp hserves
    exact hr (eq_of_beq hrun) k (List.mem_cons_of_mem _ hk) (eq_of_beq hst)
  unfold laneTestAct leaveLoop
  dsimp only
  rw [if_neg hown, if_pos h1, hnone]
  dsimp only
  rw [if_neg (by omega), if_neg (force_not_refused hl), if_neg (by omega), if_neg (by omega), firstError_eq hf]
  simp only [beq_iff_eq]

/-! ### LANE_STATUS (R158) -/

/-- The equaliser values that LANE_STATUS reports of a lane, and the state after the draw that they may take. -/
def reportedEq (l : Nat) (s : State) : (Nat × List Int) × State :=
  if canReceive l ∧ (lane s l).rxMode = 0 then heldEq l s else (((lane s l).ctle, (lane s l).dfe), s)

/-- The eye margin that LANE_STATUS reports of a lane: a free value under lock (log 14). -/
def reportedMargin (l : Nat) (s : State) : Nat × State :=
  if canReceive l ∧ (lane s l).cdrLock then
    (Config.freeNat (drawFree (reportedEq l s).2).1 % 1001, (drawFree (reportedEq l s).2).2)
  else (0, (reportedEq l s).2)

theorem reportedEq_lane (l : Nat) (s : State) : (reportedEq l s).2.lane = s.lane := by
  unfold reportedEq
  split
  · exact heldEq_lane l s
  · rfl

/-- What LANE_STATUS draws leaves the lanes alone. -/
theorem reportedMargin_lane (l : Nat) (s : State) : (reportedMargin l s).2.lane = s.lane := by
  unfold reportedMargin
  split
  · exact reportedEq_lane l s
  · exact reportedEq_lane l s

theorem reportedEq_fixed {l : Nat} (h : (lane s l).rxMode ≠ 0) :
    (reportedEq l s).1 = ((lane s l).ctle, (lane s l).dfe) := by
  unfold reportedEq
  rw [if_neg fun hc => h hc.2]

theorem reportedEq_frozen {l : Nat} {v : Nat × List Int} (hc : canReceive l = true) (h : (lane s l).rxMode = 0)
    (hv : (lane s l).frozen = some v) : (reportedEq l s).1 = v := by
  unfold reportedEq
  rw [if_pos ⟨hc, h⟩, heldEq_frozen hv]

theorem reportedMargin_unlocked {l : Nat} (h : canReceive l = false ∨ (lane s l).cdrLock = false) :
    (reportedMargin l s).1 = 0 := by
  unfold reportedMargin
  rw [if_neg]
  rintro ⟨hc, hk⟩
  rcases h with h | h
  · simp [h] at hc
  · simp [h] at hk

end

/-! ### The obligation -/

/-- Settles O15: each command's own effect, past the object checks that the premises exclude. -/
theorem laneCommandsComplete : Obligations.LaneCommandsComplete := by
  unfold Obligations.LaneCommandsComplete
  refine ⟨?burstEq, ?hostEq, ?manual, ?adapts, ?keeps, ?frozen, ?holds, ?linePins, ?tapPins, ?lpi, ?ends, ?inserts,
    ?starts, ?status⟩
  case burstEq =>
    intro s r h hl
    refine congrArg Host.Outcome.next ((serve_accepts h txEqAct).trans ?_)
    rw [txEqAct, hl]
    rfl
  case hostEq =>
    intro s r h hl ht
    refine congrArg Host.Outcome.next ((serve_accepts h txEqAct).trans ?_)
    simp only [txEqAct, hport_takeUp, hl, ht]
    rfl
  case manual =>
    intro s r h h2
    refine congrArg Host.Outcome.next ((serve_accepts h rxEqAct).trans ?_)
    rw [rxEqAct, if_pos h2, conclude_ok]
  case adapts =>
    intro s r h h0
    refine congrArg Host.Outcome.next ((serve_accepts h rxEqAct).trans ?_)
    rw [rxEqAct_keeps (by omega) (by omega), h0, conclude_ok]
  case keeps =>
    intro s r h h1 hm
    refine congrArg Host.Outcome.next ((serve_accepts h rxEqAct).trans ?_)
    rw [rxEqAct_keeps (by omega) (by simp [hm]), h1, conclude_ok]
  case frozen =>
    intro s r v h h1 hm hv
    refine congrArg Host.Outcome.next ((serve_accepts h rxEqAct).trans ?_)
    rw [rxEqAct_holds h1 (by simpa using hm), heldEq_frozen (by simpa using hv), conclude_ok]
  case holds =>
    intro s r h h1 hm hv
    refine congrArg Host.Outcome.next ((serve_accepts h rxEqAct).trans ?_)
    rw [rxEqAct_holds h1 (by simpa using hm), heldEq_adapting (by simpa using hv), conclude_ok]
  case linePins =>
    intro s r h hl
    refine congrArg Host.Outcome.next ((serve_accepts h signalsAct).trans ?_)
    rw [signalsAct, if_pos hl, conclude_ok, lineNow_takeUp]
    refine congrArg (answered r stOk []) (modLinePort_congr ?_)
    simp only [linePort_takeUp]
    cases (linePort s (u8 r.payload 0)).lastEnd <;> rfl
  case tapPins =>
    intro s r h hl
    refine congrArg Host.Outcome.next ((serve_accepts h signalsAct).trans ?_)
    rw [signalsAct, hl]
    rfl
  case lpi =>
    intro s r h
    refine congrArg Host.Outcome.next ((serve_accepts h laneLpiAct).trans ?_)
    rw [laneLpiAct, conclude_ok, takeUp_lane]
  case ends =>
    intro s r h h0 hr hl
    refine congrArg Host.Outcome.next ((serve_accepts h laneTestAct).trans ?_)
    rw [laneTestAct_ends h0 (by simpa using hr) (forceAllowed_takeUp.mpr hl), conclude_ok, lane_takeUp]
  case inserts =>
    intro s r h h2 hst hl
    refine congrArg Host.Outcome.next ((serve_accepts h laneTestAct).trans ?_)
    rw [laneTestAct_inserts (form_of_accepts h) h2 (by simpa using hst) (forceAllowed_takeUp.mpr hl), conclude_ok]
  case starts =>
    intro s r h h1 hr hl
    refine congrArg Host.Outcome.next ((serve_accepts h laneTestAct).trans ?_)
    rw [laneTestAct_starts (form_of_accepts h) h1 (by simpa using hr) (forceAllowed_takeUp.mpr hl), conclude_ok,
      leaveLoop, lane_takeUp]
  case status =>
    intro s r h
    refine ⟨(reportedEq (u8 r.payload 0) (takeUp r s)).1.1, (reportedEq (u8 r.payload 0) (takeUp r s)).1.2,
      (reportedMargin (u8 r.payload 0) (takeUp r s)).1, (reportedMargin (u8 r.payload 0) (takeUp r s)).2, ?_, ?_, ?_, ?_⟩
    · refine congrArg Host.Outcome.next ((serve_accepts h laneStatusAct).trans ?_)
      simp only [laneStatusAct, reportedMargin, reportedEq, lane_takeUp, sdBits_takeUp, conclude_okWith]
    · rw [reportedMargin_lane, takeUp_lane]
    · intro hc
      refine ⟨fun hm => ?_, fun v hm hv => ?_⟩
      · rw [reportedEq_fixed (by simpa using hm), lane_takeUp]
        exact ⟨rfl, rfl⟩
      · rw [reportedEq_frozen hc (by simpa using hm) (by simpa using hv)]
        exact ⟨rfl, rfl⟩
    · intro hc
      exact reportedMargin_unlocked (by simpa using hc)

end Sys2Proof.Machine
end

section
/-!
PROOFS. The optics commands and events (R155 to R157): the fields of OPTICS_STATUS as the host reads them, an access past its
object checks, and what a poll leaves.
-/
namespace Sys2Proof.Machine

section
variable {s : State} {r : Req}

/-! ### OPTICS_STATUS (R156) -/

/-- The response of OPTICS_STATUS for a port. -/
def opticsStatusBytes (s : State) (n : Nat) : Bytes :=
  le 1 (optics s n).layout ++ le 1 (optics s n).alarms ++ le 2 (optics s n).temp ++ le 2 (optics s n).vcc ++
    le 2 (optics s n).bias ++ le 2 (optics s n).txPower ++ le 2 (optics s n).rxPower ++
    le 4 (msSince s (optics s n).readAt) ++ le 4 (optics s n).failures.toNat

theorem opticsStatusAct_eq : opticsStatusAct r s = okWith (opticsStatusBytes s (u8 r.payload 0)) s := rfl

@[simp] theorem opticsStatusBytes_takeUp (n : Nat) : opticsStatusBytes (takeUp r s) n = opticsStatusBytes s n := by
  unfold opticsStatusBytes msSince
  rw [optics_takeUp, takeUp_time]

theorem length_opticsStatusBytes (n : Nat) : (opticsStatusBytes s n).length = 20 := by
  simp [opticsStatusBytes]

theorem opticsStatusBytes_layout (n : Nat) : u8 (opticsStatusBytes s n) 0 = (optics s n).layout % 256 := by
  simp [opticsStatusBytes, u8, le]

theorem opticsStatusBytes_alarms (n : Nat) : u8 (opticsStatusBytes s n) 1 = (optics s n).alarms % 256 := by
  simp [opticsStatusBytes, u8, le]

theorem opticsStatusBytes_age (n : Nat) :
    u32 (opticsStatusBytes s n) 12 = (s.time.cycles - (optics s n).readAt) / 625000 % 2 ^ 32 := by
  unfold opticsStatusBytes u32
  rw [slice_append_left (by simp), slice_append_end (by simp) (by simp), leNat_le]
  rfl

theorem opticsStatusBytes_failures (n : Nat) : u32 (opticsStatusBytes s n) 16 = (optics s n).failures.toNat := by
  unfold opticsStatusBytes u32
  rw [slice_append_end (by simp) (by simp), leNat_le]
  exact Nat.mod_eq_of_lt (optics s n).failures.isLt

/-! ### The transmit-disable control (R155) -/

theorem writeDisable_sff {n : Nat} (h : layoutOf s n = 1) :
    writeDisable n s = emit (.opticsDisable n 0x51 110 0x40 !(optics s n).laser) s := if_pos h

theorem selectPage_cmis {n bank page : Nat} (h : layoutOf s n = 2) :
    selectPage n bank page s = emit (.opticsSelect n bank page) s := if_pos h

theorem writeDisable_cmis {n : Nat} (h : layoutOf s n = 2) :
    writeDisable n s =
      emit (.opticsDisable n 0x50 130 0xFF !(optics s n).laser) (emit (.opticsSelect n 0 0x10) s) := by
  unfold writeDisable
  rw [h, selectPage_cmis h]
  rfl

/-! ### OPTICS_ACCESS past its object checks (R156, R157) -/

/-- A bank and a page are named to a CMIS module only. -/
abbrev PageAllowed (r : Req) (s : State) : Prop := layoutOf s (u8 r.payload 0) = 2 ∨ zeroAt r.payload 3 2 = true

theorem pageAllowed_takeUp : PageAllowed r (takeUp r s) ↔ PageAllowed r s := by
  unfold PageAllowed
  rw [layoutOf_takeUp]

theorem page_not_refused (h : PageAllowed r s) :
    ¬(layoutOf s (u8 r.payload 0) ≠ 2 ∧ (!zeroAt r.payload 3 2) = true) := by
  rintro ⟨hl, hz⟩
  rcases h with h | h
  · exact hl h
  · simp [h] at hz

/-- A read returns the bytes that the module answers with, from the page that the master has selected. -/
theorem opticsAccessAct_reads (hp : PageAllowed r s) (h0 : u8 r.payload 1 = 0) (bs : Bytes) :
    opticsAccessAct (some bs) r s = okWith (fit (u8 r.payload 6) bs)
      (selectPage (u8 r.payload 0) (u8 r.payload 3) (u8 r.payload 4) s) := by
  unfold opticsAccessAct
  dsimp only
  rw [if_neg (page_not_refused hp), if_neg (by omega), if_neg (by omega)]

/-- A write away from the transmit-disable byte reaches the module. -/
theorem opticsAccessAct_writes (hp : PageAllowed r s) (h1 : u8 r.payload 1 = 1) (hd : hitsDisable s r.payload = false)
    (bs : Bytes) :
    opticsAccessAct (some bs) r s = ok (emit (.opticsWrite (u8 r.payload 0) (u8 r.payload 2) (u8 r.payload 3)
      (u8 r.payload 4) (u8 r.payload 5) (r.payload.drop 8))
        (selectPage (u8 r.payload 0) (u8 r.payload 3) (u8 r.payload 4) s)) := by
  unfold opticsAccessAct
  dsimp only
  rw [if_neg (page_not_refused hp), if_neg (by simp [hd]), if_pos h1]

/-- A read that the module leaves unacknowledged ends in ST_TIMEOUT. -/
theorem opticsAccessAct_unanswered (hp : PageAllowed r s) (h0 : u8 r.payload 1 = 0) :
    opticsAccessAct none r s = fail stTimeout (opticsFault (u8 r.payload 0) (causeOf r)
      (modOptics (u8 r.payload 0) (fun x => { x with nacks := x.nacks + 3 }) s)) := by
  unfold opticsAccessAct
  dsimp only
  rw [if_neg (page_not_refused hp), if_neg (by omega)]

/-! ### Polls (R155, R156) -/

/-- The masters of the line ports' modules run with the CP. -/
theorem master_runs {port : Nat} (hl : lineRx.contains port = true) (hc : cpRuns s = true) :
    ¬((!lineRx.contains port) = true ∨ (!cpRuns s) = true) := by
  simp only [hl, hc]
  decide

/-- What a poll that is answered leaves of a port's readings. -/
def pollRead (port : Nat) (v : OpticsReading) (s : State) : State :=
  modOptics port (fun x => { x with
    layout := if x.layoutCfg = 0 then layoutOfIdent v.ident else x.layoutCfg
    alarms := v.alarms % 64
    temp := v.temp
    vcc := v.vcc
    bias := v.bias
    txPower := v.txPower
    rxPower := v.rxPower
    readAt := s.time.cycles
    nacks := 0
    faulted := false }) s

/-- A poll whose alarms are those of the last one raises no event. -/
theorem exec_opticsPoll_same {port : Nat} {v : OpticsReading} (hl : lineRx.contains port = true) (hc : cpRuns s = true)
    (ha : v.alarms % 64 = (optics s port).alarms) :
    exec (.opticsPoll port (some v)) s = .next (selectPage port 0 0x11 (writeDisable port (pollRead port v s))) :=
  (if_neg (master_runs hl hc)).trans (if_neg (not_not_intro ha))

end

/-! ### The obligation -/

/-- Settles O16: each command's own effect past its object checks, and each event where the CP runs. -/
theorem opticsCommandsComplete : Obligations.OpticsCommandsComplete := by
  unfold Obligations.OpticsCommandsComplete
  refine ⟨?config, fun s n h => writeDisable_sff h, fun s n h => writeDisable_cmis h, ?status, ?read, ?write, ?unanswered,
    ?poll, ?failed, ?stuck⟩
  case config => exact fun s r h => congrArg Host.Outcome.next (serve_accepts h opticsConfigAct)
  case status =>
    intro s r h
    refine ⟨opticsStatusBytes s (u8 r.payload 0), ?_, length_opticsStatusBytes _, opticsStatusBytes_layout _,
      opticsStatusBytes_alarms _, opticsStatusBytes_age _, opticsStatusBytes_failures _⟩
    refine congrArg Host.Outcome.next ((serve_accepts h opticsStatusAct).trans ?_)
    rw [opticsStatusAct_eq, opticsStatusBytes_takeUp, conclude_okWith]
  case read =>
    intro s r bs h h0 hp
    refine congrArg Host.Outcome.next ((serve_accepts h (opticsAccessAct (some bs))).trans ?_)
    rw [opticsAccessAct_reads (pageAllowed_takeUp.mpr hp) h0, conclude_okWith]
  case write =>
    intro s r bs h h1 hd hp
    refine congrArg Host.Outcome.next ((serve_accepts h (opticsAccessAct (some bs))).trans ?_)
    rw [opticsAccessAct_writes (pageAllowed_takeUp.mpr hp) h1 (by simpa using hd), conclude_ok]
  case unanswered =>
    intro s r h h0 hp
    refine congrArg Host.Outcome.next ((serve_accepts h (opticsAccessAct none)).trans ?_)
    rw [opticsAccessAct_unanswered (pageAllowed_takeUp.mpr hp) h0, conclude_fail]
  case poll => exact fun s port v hl hc ha => exec_opticsPoll_same hl hc ha
  case failed => exact fun s port hl hc => if_neg (master_runs hl hc)
  case stuck => exact fun s port hl hc => if_neg (master_runs hl hc)

end Sys2Proof.Machine
end

section
/-!
PROOFS. The signals from outside the device and the pulses of the tap inputs (R141, R142, R146, R148, R152, R158, R159): a
lane's update as the lane reads it, what a checker makes of a run of bits, and the edges of SD and SD_T.
-/
namespace Sys2Proof.Machine

section
variable {s : State} {l : Nat}

/-! ### A lane after an update -/

theorem lane_modLane (k n : Nat) (f : Lane → Lane) (s : State) :
    lane (modLane k f s) n = if n = k then f (lane s k) else lane s n := by
  by_cases h : n = k
  · subst h
    rw [if_pos rfl]
    exact tget_tset_self ..
  · rw [if_neg h]
    exact tget_tset_of_ne _ _ _ h

@[simp] theorem lane_modLane_self (k : Nat) (f : Lane → Lane) (s : State) : lane (modLane k f s) k = f (lane s k) := by
  rw [lane_modLane, if_pos rfl]

/-! ### CDR lock (R149, R158, R159) -/

theorem canReceive_of_isContinuous (h : isContinuous l = true) : canReceive l = true := by
  simp only [isContinuous, Bool.or_eq_true] at h
  rcases h with h | h
  · simp only [canReceive, h, Bool.true_or]
  · simp only [canReceive, h, Bool.or_true]

theorem canReceive_of_tap (h : tapLanes.contains l = true) : canReceive l = true := by
  simp only [canReceive, h, Bool.or_true, Bool.true_or]

/-- The tap lanes take bursts and are not continuous (R136). -/
theorem isContinuous_tap (h : tapLanes.contains l = true) : isContinuous l = false := by
  have hl : l = 2 ∨ l = 0x12 := by simpa [tapLanes] using h
  rcases hl with rfl | rfl
  · decide
  · decide

/-- A change of lock that the device sees is kept, a loss is counted, and a continuous lane's raises its event. -/
theorem exec_cdrLockChange {v : Bool} (hr : canReceive l = true) (hv : (lane s l).cdrLock ≠ v)
    (hs : s.ctl.devState ≠ .still) (hf : (lane s l).frozen = none) :
    exec (.cdrLockChange l v) s = .next (if isContinuous l
      then raise 0x0301 l (le 1 l ++ le 1 (b2n v)) none (modLane l (fun x => { x with
        cdrLock := v
        cdrLosses := if v then x.cdrLosses else satAdd 32 x.cdrLosses 1 }) s)
      else modLane l (fun x => { x with
        cdrLock := v
        cdrLosses := if v then x.cdrLosses else satAdd 32 x.cdrLosses 1 }) s) :=
  if_neg (by simp [hr, hv, hs, hf])

/-! ### Bits that reach a checker (R152) -/

/-- The occurrences that injections of detector 0x07 meet change of a lane the error counter alone. -/
theorem lane_checkBits (l n : Nat) (s : State) : ∃ e, lane (checkBits l n s) l = { lane s l with prbsErrors := e } := by
  have hseen : ∀ x, lane (occurrence 0x07 l x).2 l = lane x l := by
    intro x
    obtain ⟨o, r, k, j, h⟩ := occurrence_form 0x07 l x
    rw [h]
    rfl
  induction n generalizing s with
  | zero => exact ⟨_, rfl⟩
  | succ n ih =>
    unfold checkBits
    split
    · exact ⟨_, rfl⟩
    · dsimp only
      split
      · rw [← hseen s]
        exact ih _
      · obtain ⟨e, he⟩ := ih (modLane l (fun x => { x with prbsErrors := satAdd 48 x.prbsErrors _ }) (occurrence 0x07 l s).2)
        rw [he, lane_modLane_self, hseen]
        exact ⟨_, rfl⟩

@[simp] theorem chkLock_checkBits (l n : Nat) (s : State) : (lane (checkBits l n s) l).chkLock = (lane s l).chkLock := by
  obtain ⟨e, h⟩ := lane_checkBits l n s
  rw [h]

theorem checkBits_unarmed (h : injIndex 0x07 l s = none) (n : Nat) : checkBits l n s = s := by
  cases n with
  | zero => rfl
  | succ n => unfold checkBits; rw [h]

/-- The run that reaches 64 bits without an error locks the checker. -/
theorem goodBits_locks {n : Nat} (h : (lane s l).chkLock = false) (hn : 64 ≤ (lane s l).chkRun + n) :
    (lane (goodBits l n s) l).chkLock = true := by
  unfold goodBits
  dsimp only
  rw [h, if_neg Bool.false_ne_true, if_neg (by omega), chkLock_checkBits, lane_modLane_self]

/-- A shorter run only grows. -/
theorem goodBits_short {n : Nat} (h : (lane s l).chkLock = false) (hn : (lane s l).chkRun + n < 64) :
    goodBits l n s = modLane l (fun y => { y with chkRun := y.chkRun + n }) s := by
  unfold goodBits
  dsimp only
  rw [h, if_neg Bool.false_ne_true, if_pos hn]

/-- A bit in error ends a hunting checker's run. -/
theorem badBit_hunting (h : (lane s l).chkLock = false) : badBit l s = modLane l (fun y => { y with chkRun := 0 }) s := by
  unfold badBit
  dsimp only
  rw [h]
  rfl

/-- The bit in error past 256 of a group is counted and ends the lock. -/
theorem badBit_loses (h : (lane s l).chkLock = true) (he : 256 ≤ (lane s l).chkErr) (hi : injIndex 0x07 l s = none) :
    badBit l s = modLane l (fun y => { y with chkLock := false, chkRun := 0, prbsLosses := satAdd 32 y.prbsLosses 1 })
      (modLane l (fun y => { y with
        prbsBits := satAdd 48 y.prbsBits 1
        prbsErrors := satAdd 48 y.prbsErrors 1
        chkErr := if y.chkWin = 1023 then 0 else y.chkErr + 1
        chkWin := (y.chkWin + 1) % 1024 }) s) := by
  have hk : ∀ f, checkBits l 1 (modLane l f s) = modLane l f s := fun f => checkBits_unarmed (s := modLane l f s) hi 1
  unfold badBit
  dsimp only
  rw [h, if_neg (by decide), hk, if_pos (by omega)]

/-! ### PRBS_CHECKER_LOCK (R152, R153) -/

section
variable {good bad : Nat} {more : List (Nat × Nat)}

/-- The same polynomial, or the same user pattern as it arrives. -/
theorem samePattern_of {tx rx : Lane} (hg : tx.gen = rx.chk)
    (hu : rx.chk = 7 → rx.user = if tx.tx.invert = rx.invertRx then tx.user else ~~~tx.user) :
    samePattern tx rx = true := by
  by_cases h7 : rx.chk = 7
  · by_cases hp : tx.tx.invert = rx.invertRx
    · simp [samePattern, flipped, hg, h7, hp, hu h7]
    · simp [samePattern, flipped, hg, h7, hp, hu h7]
  · simp [samePattern, hg, h7]

theorem exec_prbsCheckerLock_line (hst : (lane s l).state = 2) (hc : (lane s l).chk ≠ 0) (hr : canReceive l = true)
    (hl : (lane s l).loopback = 1 → samePattern (lane s (loopSource l)) (lane s l) = false) :
    exec (.prbsCheckerLock l good bad more) s = .next (checkRuns l ((good, bad) :: more) s) := by
  refine (if_neg (by simp [hst, hc, hr])).trans (if_neg ?_)
  rintro ⟨h1, hp⟩
  rw [hl h1] at hp
  exact Bool.false_ne_true hp

theorem exec_prbsCheckerLock_loop (hst : (lane s l).state = 2) (hc : (lane s l).chk ≠ 0) (hr : canReceive l = true)
    (h1 : (lane s l).loopback = 1) (hp : samePattern (lane s (loopSource l)) (lane s l) = true) :
    exec (.prbsCheckerLock l good bad more) s =
      .next (loopBits ((lane s l).chk != 7 && flipped (lane s (loopSource l)) (lane s l)) (loopSource l) l
        (good + bad + (more.map fun r => r.1 + r.2).sum + 1) (good + bad + (more.map fun r => r.1 + r.2).sum) s) :=
  (if_neg (by simp [hst, hc, hr])).trans (if_pos ⟨h1, hp⟩)

/-- Between two polarities that differ every bit of a polynomial arrives inverted. -/
theorem loopFlip_eq (tx rx : Lane) :
    (rx.chk != 7 && flipped tx rx) = decide (rx.chk ≠ 7 ∧ tx.tx.invert ≠ rx.invertRx) := by
  rw [Bool.eq_iff_iff]
  simp [flipped]

end

/-! ### Signal detect (R148, R158, R474) -/

section
variable {port : Nat}

theorem linePort_modLinePort_self (p : Nat) (f : Port → Port) (s : State) :
    linePort (modLinePort p f s) p = f (linePort s p) := by
  rw [linePort_modLinePort, if_pos rfl]

/-- A ball's new level as SD after its polarity. -/
theorem sdActive_level (level : Bool) :
    sdActive (modLinePort port (fun y => { y with sdBall := level }) s) port = (level != (linePort s port).sdPol) := by
  unfold sdActive
  rw [linePort_modLinePort_self]

/-- On a tap input a deasserting edge of SD_T asks for a pulse. -/
theorem exec_sdInputChange_tap {level : Bool} (ht : tapLanes.contains port = true) (hl : lineRx.contains port = false) :
    exec (.sdInputChange port level) s = .next (if sdActive s port && !(level != (linePort s port).sdPol)
      then sdTFalls port (modLinePort port (fun y => { y with sdBall := level }) s)
      else modLinePort port (fun y => { y with sdBall := level }) s) := by
  change execSdInputChange port level s = _
  unfold execSdInputChange
  rw [if_neg fun h => by rw [ht] at h; exact Bool.false_ne_true h.2]
  dsimp only
  rw [hl, if_neg Bool.false_ne_true, sdActive_level]

/-- Outside HUSH and STILL an edge of a line port's SD wakes nothing. -/
theorem exec_sdInputChange_line {level : Bool} (hl : lineRx.contains port = true) (hh : s.ctl.devState ≠ .hush)
    (hs : s.ctl.devState ≠ .still) :
    exec (.sdInputChange port level) s = .next (modLinePort port (fun y => { y with sdBall := level }) s) := by
  have hw : wakeSource 4 port (modLinePort port (fun y => { y with sdBall := level }) s) =
      modLinePort port (fun y => { y with sdBall := level }) s := wakeSource_idle (wakeEnabled_awake hh hs)
  change execSdInputChange port level s = _
  unfold execSdInputChange
  rw [if_neg fun h => by rw [hl] at h; exact Bool.false_ne_true h.1]
  dsimp only
  rw [if_pos hl, hw, ite_self]

/-- A started tap input's SD_T that was active falls, and a pulse is due. -/
theorem exec_sdTDeassert_due (ht : tapRuns s port = true) (ha : sdActive s port = true) :
    exec (.sdTDeassert port) s = .next (modLinePort port (fun x => { x with bmCount := x.bmCount + 1 })
      (modLinePort port (fun x => { x with sdBall := x.sdPol }) s)) := by
  have htap : tapLanes.contains port = true := by
    unfold tapRuns at ht
    simp only [Bool.and_eq_true] at ht
    exact ht.1.1
  have hfalls : ∀ f, sdTFalls port (modLinePort port f s) =
      modLinePort port (fun x => { x with bmCount := x.bmCount + 1 }) (modLinePort port f s) := fun f => if_pos ht
  exact (if_neg (by simp only [htap, ha]; decide)).trans (congrArg Host.Outcome.next (hfalls _))

end

end

/-! ### The obligation -/

/-- Settles O17: each signal's own effect where the device sees it, and each run of bits as its checker takes it. -/
theorem laneSignalsComplete : Obligations.LaneSignalsComplete := by
  unfold Obligations.LaneSignalsComplete
  refine ⟨?cdr, ?tapCdr, ?checked, ?looped, fun s l h => goodBits_locks h (by omega), ?short, ?hunting, ?loses, ?falls,
    ?rises, ?line, ?deassert, fun s port ht hc => if_pos ⟨ht, hc⟩, fun s port hb => congrArg Host.Outcome.next (if_pos hb)⟩
  case cdr =>
    intro s l v hl hv hs hf
    rw [exec_cdrLockChange (canReceive_of_isContinuous hl) hv hs hf, if_pos hl]
  case tapCdr =>
    intro s l v hl hv hs hf
    rw [exec_cdrLockChange (canReceive_of_tap hl) hv hs hf, isContinuous_tap hl, if_neg Bool.false_ne_true]
  case checked => exact fun s l good bad more hst hc hr hl => exec_prbsCheckerLock_line hst hc hr hl
  case looped =>
    intro s l good bad more hst hc hr h1 hg hu
    refine ⟨_, ?_, rfl⟩
    rw [exec_prbsCheckerLock_loop hst hc hr h1 (samePattern_of hg hu), loopFlip_eq]
  case short =>
    intro s l n h hn
    rw [goodBits_short h hn, lane_modLane_self]
    exact h
  case hunting =>
    intro s l h
    rw [badBit_hunting h, lane_modLane_self]
    exact ⟨rfl, h⟩
  case loses =>
    intro s l h he hi
    rw [badBit_loses h he hi, lane_modLane_self, lane_modLane_self]
    exact ⟨rfl, rfl, rfl, rfl⟩
  case falls =>
    intro s port ht hl ha
    have hlow : ((!(linePort s port).sdBall) != (linePort s port).sdPol) = false := by
      rw [Bool.not_bne, Bool.not_eq_false']
      exact ha
    rw [exec_sdInputChange_tap ht hl, ha, hlow]
    rfl
  case rises =>
    intro s port level ht hl ha
    rw [exec_sdInputChange_tap ht hl, ha]
    rfl
  case line => exact fun s port level hl hh hs => exec_sdInputChange_line hl hh hs
  case deassert =>
    intro s port ht ha
    refine ⟨_, exec_sdTDeassert_due ht ha, ?_, ?_, rfl⟩
    · rw [linePort_modLinePort_self, linePort_modLinePort_self]
    · rw [linePort_modLinePort_self, linePort_modLinePort_self]

end Sys2Proof.Machine
end

section
/-!
PROOFS. What an accepted frame carries (R176, R178 to R182) and the bursts of a tap (R137, R142, R147, R279), where no
injection is armed.
-/
namespace Sys2Proof.Machine

section
variable {s : State} {p : Nat}

/-! ### The present frame of a plane (R176, R178) -/

/-- The plane's active engine works on the FS frame of a frame that it has accepted. -/
structure InFrame (s : State) (p : Nat) : Prop where
  known : p ≤ 1
  sync : (plane s p).state = 2
  header : (plane s p).fsOk = true
  line : lineRuns p s = true

/-! ### PLOAM messages (R176) -/

/-- A message is counted, and is a broadcast, or for a terminal of the plane, or for another ONU. -/
theorem exec_ploamMessageRx (h : InFrame s p) (m : DsMsg) :
    exec (.ploamMessageRx p m) s = match m.onu with
      | none => .next (broadcastMessage p m (countPlane p 120 1 (countPlane p 112 1 s)))
      | some n => .next (if ownOnu s p n then toViews p m (countPlane p 120 1 (countPlane p 112 1 s))
        else countPlane p 112 1 s) := by
  obtain ⟨hp, hst, hfs, hl⟩ := h
  exact if_neg (by simp [hst, hfs, hl]; omega)

/-! ### XGEM frames (R178, R179) -/

/-- Without an injection armed no HEC check of a plane is corrupted. -/
theorem hecInjected_disarmed (hi : s.inj.entries = []) (p kind : Nat) : hecInjected p kind s = (false, s) := by
  unfold hecInjected
  rw [injIndex_disarmed hi]
  rfl

/-- The next frame of the present frame's payload ends the delineation, is idle, or goes on to its port. -/
theorem exec_xgemFrameDelineated (h : InFrame s p) (hi : s.inj.entries = []) (hb : (plane s p).badXgem = false)
    (x : XgemObs) :
    exec (.xgemFrameDelineated p x) s =
      if x.kind = 2 then .next (modPlane p (fun y => { y with badXgem := true }) (countPlane p 144 1 s))
      else if x.kind = 1 then .next (countPlane p 152 1 (if x.fixed then countPlane p 136 1 s else s))
      else .next (downFrame p x (keySeen p x (countPlane p 128 1 (if x.fixed then countPlane p 136 1 s else s)))) := by
  obtain ⟨hp, hst, hfs, hl⟩ := h
  have hgo : ¬(1 < p ∨ (plane s p).state ≠ 2 ∨ (!(plane s p).fsOk) = true ∨ (plane s p).badXgem = true ∨
      (!lineRuns p s) = true) := by
    simp [hst, hfs, hl, hb]
    omega
  change execXgemFrameDelineated p x s = _
  unfold execXgemFrameDelineated
  dsimp only
  rw [if_neg hgo, hecInjected_disarmed hi]
  simp only [Bool.false_eq_true, or_false]

/-! ### Reassembly (R181) -/

/-- A context that has waited for reasm_frames frames is dropped, and counted unless it was counted as too long. -/
theorem exec_reasmTimeout {port : Nat} {c : Reasm} (hc : tfind (plane s p).reasm port = some c)
    (ha : (plane s p).reasmFrames ≤ c.age) (hl : lineRuns p s = true) :
    exec (.reasmTimeout p port) s = .next (dropContext p port (if c.overLong then s else countPlane p 160 1 s)) := by
  change execReasmTimeout p port s = _
  unfold execReasmTimeout
  dsimp only
  rw [hc]
  exact if_neg (by simp [hl, ha])

/-! ### Tap bursts (R137, R142, R147, R279) -/

/-- The expected grant that a tap burst answers. -/
def answeredGrant (s : State) (p : Nat) (b : TapObs) : Option GrantExp := b.grant.bind fun i => (plane s p).expects[i]?

/-- The state in which a tap burst has been looked at, and the grant that it answers is expected no longer. -/
def tapTaken (p : Nat) (b : TapObs) (s : State) : State := match b.grant with
  | none => (occurrence 0x01 (16 * p + 2) s).2
  | some i => modPlane p (fun y => { y with expects := y.expects.eraseIdx i }) (occurrence 0x01 (16 * p + 2) s).2

/-- The samples of a bit of a tap burst, at the rate of its grant. -/
def burstRatio (p : Nat) (b : TapObs) (s : State) : Nat :=
  sampleRatio p (grantFields p (answeredGrant s p b) b.at_ (tapTaken p b s)).1.1

theorem burstRatio_of_grant {b : TapObs} {i : Nat} {g : GrantExp} (hi : b.grant = some i)
    (hg : (plane s p).expects[i]? = some g) : burstRatio p b s = sampleRatio p g.rate := by
  have ha : answeredGrant s p b = some g := by
    unfold answeredGrant
    rw [hi]
    exact hg
  unfold burstRatio
  rw [ha]
  rfl

/-- A grant that a burst names stands among those expected. -/
theorem answeredGrant_isSome {b : TapObs} (hg : ∀ i, b.grant = some i → i < (plane s p).expects.length) :
    ¬(b.grant.isSome = true ∧ (answeredGrant s p b).isNone = true) := by
  rintro ⟨hsome, hnone⟩
  obtain ⟨i, hi⟩ := Option.isSome_iff_exists.mp hsome
  have hlt := hg i hi
  simp [answeredGrant, hi, hlt] at hnone

/-- A tap burst as its samples decide it, at the grant's rate in the lane's polarity. -/
def decidedBurst (p : Nat) (b : TapObs) (s : State) : TapObs :=
  decimated (burstRatio p b s) (upright (lane s (16 * p + 2)).invertRx b)

/-- The items that the frames of a tap burst wait as, and the state after they have gone in; none past an uncorrectable FS
header. -/
def burstItems (p : Nat) (b : TapObs) (s : State) : List Nat × State :=
  (if b.fsHec then tapFrames (decidedBurst p b s).frames else []).foldl (fun a x => tapFrame p b.at_ x a)
    ([], (grantFields p (answeredGrant s p b) b.at_ (tapTaken p b s)).2)

theorem burstItems_unreadable {b : TapObs} (h : b.fsHec = false) : (burstItems p b s).1 = [] := by
  unfold burstItems
  rw [h]
  rfl

/-- A burst on a locked tap lane waits for its frames with the bytes that its samples decide. -/
theorem exec_tapBurst_waits {b : TapObs} (hp : p ≤ 1) (hst : (plane s p).state = 2) (hl : lineRuns p s = true)
    (hk : (lane s (16 * p + 2)).cdrLock = true) (hg : ∀ i, b.grant = some i → i < (plane s p).expects.length) :
    ∃ t w, exec (.tapBurst p b) s = .next (burstWaits (2 + p) w t) ∧ w.ids = (burstItems p b s).1 ∧
      w.data = if b.fsHec then (decidedBurst p b s).overhead.take 16368 else (decidedBurst p b s).head.take 256 := by
  have hgo : ¬(1 < p ∨ (plane s p).state ≠ 2 ∨ (!lineRuns p s) = true ∨
      (b.grant.isSome = true ∧ (answeredGrant s p b).isNone = true) ∨ (!(lane s (16 * p + 2)).cdrLock) = true) := by
    rintro (h | h | h | h | h)
    · omega
    · exact h hst
    · simp [hl] at h
    · exact answeredGrant_isSome hg h
    · simp [hk] at h
  exact ⟨_, _, if_neg hgo, rfl, rfl⟩

theorem exec_tapBurst_unlocked {b : TapObs} (hk : (lane s (16 * p + 2)).cdrLock = false) :
    exec (.tapBurst p b) s = .next s := if_pos (by simp [hk])

end

/-! ### The obligation -/

/-- Settles O20: what each event of an accepted frame is counted as and where it goes on to, and what a tap burst holds. -/
theorem frameContentsComplete : Obligations.FrameContentsComplete := by
  unfold Obligations.FrameContentsComplete
  refine ⟨?broadcast, ?own, ?other, ?broken, ?idle, ?data, ?timeout, ?burst, fun s p b hk => exec_tapBurst_unlocked hk⟩
  case broadcast =>
    intro s p m hp hst hfs hl hm
    rw [exec_ploamMessageRx ⟨hp, hst, hfs, hl⟩, hm]
  case own =>
    intro s p m n hp hst hfs hl hm ho
    rw [exec_ploamMessageRx ⟨hp, hst, hfs, hl⟩, hm]
    exact congrArg Host.Outcome.next (if_pos ho)
  case other =>
    intro s p m n hp hst hfs hl hm ho
    rw [exec_ploamMessageRx ⟨hp, hst, hfs, hl⟩, hm]
    exact congrArg Host.Outcome.next (if_neg (by simp [ho]))
  case broken =>
    intro s p x hi hp hst hfs hb hl hx
    rw [exec_xgemFrameDelineated ⟨hp, hst, hfs, hl⟩ hi hb, if_pos hx]
  case idle =>
    intro s p x hi hp hst hfs hb hl hx hf
    rw [exec_xgemFrameDelineated ⟨hp, hst, hfs, hl⟩ hi hb, if_neg (by omega), if_pos hx, hf]
    rfl
  case data =>
    intro s p x hi hp hst hfs hb hl h1 h2 hf
    rw [exec_xgemFrameDelineated ⟨hp, hst, hfs, hl⟩ hi hb, if_neg h2, if_neg h1, hf]
    rfl
  case timeout =>
    intro s p port c hc ha ho hl
    rw [exec_reasmTimeout hc ha hl, ho]
    rfl
  case burst =>
    intro s p b hp hst hl hk hg
    obtain ⟨t, w, he, hids, hdata⟩ := exec_tapBurst_waits hp hst hl hk hg
    refine ⟨t, w, burstRatio p b s, he, fun hf => ⟨?_, ?_⟩, fun hf => ?_, fun i g hi hgr => burstRatio_of_grant hi hgr⟩
    · rw [hids, burstItems_unreadable hf]
    · rw [hdata, hf]
      rfl
    · rw [hdata, hf]
      rfl

end Sys2Proof.Machine
end

section
/-!
PROOFS. The bandwidth map and the bursts (R143, R175, R224, R225, R255), where no injection is armed: what a structure of the
map does, and whether the next burst is sent or leaves the schedule.
-/
namespace Sys2Proof.Machine

section
variable {s : State} {p : Nat}

/-! ### Structures of a map (R175, R224, R225) -/

/-- What a structure of a map does before the map's end is looked at. -/
def structureTaken (p : Nat) (a : AllocStruct) (s : State) : State :=
  if a.hec then
    if (plane s p).mode ≠ 0 then
      expectTap p a (modPlane p (fun y => { y with structs := y.structs + 1 }) (countPlane p 96 1 (nextStructure p s)))
    else if 2048 ≤ (plane s p).structs then
      ignoreGrant p 32 (expectTap p a (modPlane p (fun y => { y with structs := y.structs + 1 })
        (countPlane p 96 1 (nextStructure p s))))
    else
      resolveGrant p a (expectTap p a (modPlane p (fun y => { y with structs := y.structs + 1 })
        (countPlane p 96 1 (nextStructure p s))))
  else noChain p (countPlane p 104 1 (nextStructure p s))

/-- A structure marked last ends the map, whose bursts are placed then (log 42). -/
theorem exec_bwmapStructure (h : InFrame s p) (hi : s.inj.entries = []) (a : AllocStruct) :
    exec (.bwmapStructure p a) s =
      .next (if a.last then placeMap p (structureTaken p a s) else structureTaken p a s) := by
  obtain ⟨hp, hst, hfs, hl⟩ := h
  have hgo : ¬(1 < p ∨ (plane s p).state ≠ 2 ∨ (!(plane s p).fsOk) = true ∨ (!lineRuns p s) = true) := by
    simp [hst, hfs, hl]
    omega
  change execBwmapStructure p a s = _
  unfold execBwmapStructure structureTaken
  dsimp only
  rw [if_neg hgo, hecInjected_disarmed hi]
  cases a.hec
  · rfl
  · rfl

/-- A structure that fails its HEC is counted and chains nothing. -/
theorem structureTaken_bad {a : AllocStruct} (h : a.hec = false) :
    structureTaken p a s = noChain p (countPlane p 104 1 (nextStructure p s)) := by
  unfold structureTaken
  rw [h]
  rfl

/-- In an emulating plane a structure within the map's 2,048 is resolved. -/
theorem structureTaken_resolved {a : AllocStruct} (h : a.hec = true) (hm : (plane s p).mode = 0)
    (hn : (plane s p).structs < 2048) :
    structureTaken p a s = resolveGrant p a (expectTap p a
      (modPlane p (fun y => { y with structs := y.structs + 1 }) (countPlane p 96 1 (nextStructure p s)))) := by
  unfold structureTaken
  rw [if_pos h, if_neg (not_not_intro hm), if_neg (Nat.not_le.mpr hn)]

/-! ### The next burst of a plane (R143, R202, R255) -/

/-- The pending burst leaves the schedule. -/
def unscheduled (p : Nat) (b : Burst) (s : State) : State :=
  touch p planeRecord (modPlane p (fun y => { y with sched := y.sched.erase b }) s)

section
variable {b : Burst}

theorem burst_runs (hp : p ≤ 1) (hst : (plane s p).state = 2) (hl : lineRuns p s = true) :
    ¬(1 < p ∨ (plane s p).state ≠ 2 ∨ (!lineRuns p s) = true) := by
  simp [hst, hl]
  omega

theorem exec_burstStart_dropped (hp : p ≤ 1) (hst : (plane s p).state = 2) (hl : lineRuns p s = true)
    (hb : nextBurst s p = some b) (hm : mayBurst s b = false) :
    exec (.burstStart p) s = .next (unscheduled p b s) := by
  change execBurstStart p s = _
  unfold execBurstStart
  dsimp only
  rw [hb]
  dsimp only
  rw [if_neg (burst_runs hp hst hl), hm]
  rfl

/-- A burst is keyed under its terminal's key index and goes out with the frames that its allocations then hold. -/
theorem exec_burstStart_sent (hp : p ≤ 1) (hst : (plane s p).state = 2) (hl : lineRuns p s = true)
    (hb : nextBurst s p = some b) (hm : mayBurst s b = true) :
    ∃ t allocs, exec (.burstStart p) s = .next (keyBurst p (activePort s p)
      { keyed (sendKey s b) b with allocs } (countSpout p 48 1 t)) := by
  change ∃ t allocs, execBurstStart p s = _
  unfold execBurstStart
  dsimp only
  rw [hb]
  dsimp only
  rw [if_neg (burst_runs hp hst hl), hm]
  exact ⟨_, _, rfl⟩

end

end

/-! ### The obligation -/

/-- Settles O26: each structure as it passes its HEC or fails it, and the earliest pending burst. -/
theorem grantsAndBurstsComplete : Obligations.GrantsAndBurstsComplete := by
  unfold Obligations.GrantsAndBurstsComplete
  refine ⟨?bad, ?resolved, ?last, ?sent, fun s p b hp hst hl hb hm => exec_burstStart_dropped hp hst hl hb hm⟩
  case bad =>
    intro s p a hi hp hst hfs hl hh hlast
    rw [exec_bwmapStructure ⟨hp, hst, hfs, hl⟩ hi, hlast, structureTaken_bad hh]
    rfl
  case resolved =>
    intro s p a hi hp hst hfs hl hm hn hh hlast
    rw [exec_bwmapStructure ⟨hp, hst, hfs, hl⟩ hi, hlast, structureTaken_resolved hh hm hn]
    rfl
  case last =>
    intro s p a hi hp hst hfs hl hm hn hh hlast
    rw [exec_bwmapStructure ⟨hp, hst, hfs, hl⟩ hi, if_pos hlast, structureTaken_resolved hh hm hn]
  case sent =>
    intro s p b hp hst hl hb hm
    obtain ⟨t, allocs, he⟩ := exec_burstStart_sent hp hst hl hb hm
    exact ⟨t, _, he, rfl, rfl, rfl, rfl⟩

end Sys2Proof.Machine
end

section
/-!
PROOFS. The host ports' events (R149, R438, R440, R443 to R447), where no injection is armed: what counting leaves alone, the
codewords and blocks of a frame, a frame that is sent, and the moments of low-power idle.
-/
namespace Sys2Proof.Machine

/-! ### The record of what left the device -/

/-- What had left the device in the first state is on the second's record too, as its oldest part. -/
def OutGrows (s t : State) : Prop := s.ctl.out <:+ t.ctl.out

section
variable {s t u : State}

theorem OutGrows.same (h : t.ctl.out = s.ctl.out) : OutGrows s t := by
  rw [OutGrows, h]

theorem OutGrows.refl (s : State) : OutGrows s s := .same rfl

theorem OutGrows.trans (h : OutGrows s t) (k : OutGrows t u) : OutGrows s u := List.IsSuffix.trans h k

theorem OutGrows.contains (h : OutGrows s t) {o : Out} (ho : o ∈ s.ctl.out) : t.ctl.out.contains o = true :=
  List.contains_iff_mem.mpr (h.subset ho)

theorem outGrows_signal (v : Nat) (s : State) : OutGrows s (signal v s) := by
  unfold signal
  split
  · exact .refl s
  · exact List.suffix_cons _ _

theorem outGrows_writeEntry (e : Event) (s : State) : OutGrows s (writeEntry e s) := by
  unfold writeEntry
  refine OutGrows.trans ?_ (outGrows_signal ..)
  exact .same rfl

theorem outGrows_flushEvents (s : State) : OutGrows s (flushEvents s) := by
  have hlost : OutGrows s (if eventRoom s && s.rings.unreported != 0 then writeEntry (lostEvent s) s else s) := by
    split
    · exact outGrows_writeEntry _ _
    · exact .refl s
  unfold flushEvents
  dsimp only
  generalize (if eventRoom s && s.rings.unreported != 0 then writeEntry (lostEvent s) s else s) = x at hlost ⊢
  split
  · exact hlost
  · split
    · refine hlost.trans (OutGrows.trans ?_ (outGrows_writeEntry ..))
      exact .same rfl
    · exact hlost

theorem outGrows_holdEvent (e : Event) (s : State) : OutGrows s (holdEvent e s) := by
  obtain ⟨r, h⟩ := holdEvent_form e s
  rw [h]
  exact .refl s

theorem outGrows_postEvent (e : Event) (s : State) : OutGrows s (postEvent e s) := by
  have hf := outGrows_flushEvents s
  unfold postEvent
  dsimp only
  split
  · split
    · exact hf.trans (outGrows_holdEvent ..)
    · split
      · exact hf.trans (outGrows_writeEntry ..)
      · exact hf
  · split
    · exact outGrows_holdEvent ..
    · exact .refl s

theorem outGrows_recordEvent (inj only : Bool) (e : Event) (s : State) : OutGrows s (recordEvent inj only e s) := by
  unfold recordEvent
  dsimp only
  split
  · exact .refl s
  · split
    · exact .refl s
    · split
      · split
        · exact .refl s
        · refine OutGrows.trans ?_ (outGrows_postEvent ..)
          exact .same rfl
      · exact .refl s

theorem outGrows_raise (code obj : Nat) (args : Bytes) (cause : Option Cause) (s : State) :
    OutGrows s (raise code obj args cause s) := by
  unfold raise raiseWith
  dsimp only
  split
  · exact (outGrows_recordEvent ..).trans (outGrows_postEvent ..)
  · exact outGrows_postEvent ..

end

/-! ### Counters of a host port (R449) -/

section
variable (p i k : Nat) (s : State)

theorem countHost_form : ∃ o r l c, countHost p i k s = { modHPort p (fun x => { x with cnt := c }) s with
    ctl := { s.ctl with out := o }
    rings := r
    log := l } := by
  unfold countHost
  dsimp only
  split
  · obtain ⟨o, r, l, h⟩ := raise_form 0x0D03 p (le 1 i) none
      (modHPort p (fun x => { x with cnt := tset x.cnt i ((tget 0 (hport s p).cnt i + k) % 2 ^ 48) }) s)
    exact ⟨o, r, l, tset (hport s p).cnt i ((tget 0 (hport s p).cnt i + k) % 2 ^ 48), h⟩
  · exact ⟨s.ctl.out, s.rings, s.log, _, rfl⟩

/-- A counter changes nothing else of the host ports. -/
theorem hport_countHost (q : Nat) : ∃ c, hport (countHost p i k s) q = { hport s q with cnt := c } := by
  obtain ⟨o, r, l, c, h⟩ := countHost_form p i k s
  rw [h]
  refine ⟨if q = p then c else (hport s q).cnt, (hport_modHPort p q _ s).trans ?_⟩
  split
  · next hq => rw [hq]
  · rfl

@[simp] theorem hport_rx_countHost (q : Nat) : (hport (countHost p i k s) q).rx = (hport s q).rx := by
  obtain ⟨c, h⟩ := hport_countHost p i k s q
  rw [h]

@[simp] theorem hclass_countHost (q c : Nat) : hclass (countHost p i k s) q c = hclass s q c := by
  obtain ⟨n, h⟩ := hport_countHost p i k s q
  rw [hclass, h]
  rfl

@[simp] theorem inj_countHost : (countHost p i k s).inj = s.inj := by
  obtain ⟨o, r, l, c, h⟩ := countHost_form p i k s
  rw [h]
  rfl

theorem outGrows_countHost : OutGrows s (countHost p i k s) := by
  unfold countHost
  dsimp only
  split
  · refine OutGrows.trans ?_ (outGrows_raise ..)
    exact .same rfl
  · exact .same rfl

end

/-! ### Updates of a port's lanes -/

section
variable {s : State} {p : Nat}

/-- An update of some lanes changes the lanes alone. -/
theorem foldl_modLane_form (f : Lane → Lane) (ls : List Nat) (s : State) :
    ∃ x, ls.foldl (fun y l => modLane l f y) s = { s with lane := x } := by
  induction ls generalizing s with
  | nil => exact ⟨s.lane, rfl⟩
  | cons l ls ih =>
    obtain ⟨x, h⟩ := ih (modLane l f s)
    exact ⟨x, h⟩

/-- What an update keeps of each lane it keeps of all. -/
theorem foldl_modLane_keeps {α : Type} {g : Lane → α} {f : Lane → Lane} (hf : ∀ z, g (f z) = g z) (ls : List Nat)
    (s : State) (n : Nat) : g (lane (ls.foldl (fun y l => modLane l f y) s) n) = g (lane s n) := by
  induction ls generalizing s with
  | nil => rfl
  | cons l ls ih =>
    rw [List.foldl_cons, ih, lane_modLane]
    split
    · next h => rw [hf, h]
    · rfl

theorem wakeRx_form (p : Nat) (s : State) : ∃ x, wakeRx p s = { s with lane := x } := foldl_modLane_form ..

@[simp] theorem hport_wakeRx (q : Nat) : hport (wakeRx p s) q = hport s q := by
  obtain ⟨x, h⟩ := wakeRx_form p s
  rw [h]
  rfl

@[simp] theorem inj_wakeRx : (wakeRx p s).inj = s.inj := by
  obtain ⟨x, h⟩ := wakeRx_form p s
  rw [h]

/-- Waking leaves the block headers of a lane as they are. -/
theorem wakeRx_headers (p l : Nat) (s : State) : (lane (wakeRx p s) l).hdrLeft = (lane s l).hdrLeft ∧
    (lane (wakeRx p s) l).hdrBad = (lane s l).hdrBad := by
  unfold wakeRx
  exact ⟨foldl_modLane_keeps (g := Lane.hdrLeft) (by intro; rfl) ..,
    foldl_modLane_keeps (g := Lane.hdrBad) (by intro; rfl) ..⟩

/-! ### Codewords and blocks without an injection (R436, R509) -/

theorem hostCodeword_disarmed (hi : s.inj.entries = []) : hostCodeword p s = s := by
  unfold hostCodeword
  rw [occurrence_none (injIndex_disarmed hi ..)]

/-- A block whose header no injection spoils leaves a lane without invalid headers as it is. -/
theorem laneBlock_clean {l : Nat} (hi : s.inj.entries = []) (hl : (lane s l).hdrLeft = 0) (hb : (lane s l).hdrBad = 0) :
    laneBlock l s = (false, s) := by
  unfold laneBlock
  dsimp only
  rw [if_pos hl, occurrence_none (injIndex_disarmed hi ..)]
  exact if_pos ⟨hl, hb⟩

/-- Block lock holds while no header is invalid. -/
theorem lineBlocks_clean {words blocks : Nat} (hi : s.inj.entries = [])
    (hl : ∀ l ∈ hostLanes p, (lane s l).hdrLeft = 0 ∧ (lane s l).hdrBad = 0) :
    lineBlocks p words blocks s = (false, s) := by
  have hwords : (List.range words).foldl (fun x _ => hostCodeword p x) s = s :=
    List.foldl_fixed' (fun _ => hostCodeword_disarmed hi) _
  unfold lineBlocks
  rw [hwords]
  refine List.foldlRecOn (motive := (· = (false, s))) _ _ rfl fun x hx l hmem => ?_
  obtain ⟨k, hk, hrep⟩ := List.mem_flatMap.mp hmem
  obtain ⟨hleft, hbad⟩ := hl l (List.eq_of_mem_replicate hrep ▸ hk)
  rw [hx, laneBlock_clean hi hleft hbad]
  rfl

/-! ### Received frames (R443) -/

/-- A frame of a port that is UP has been counted with its codewords. -/
def frameCounted (p n j k : Nat) (s : State) : State :=
  countHost p 1 (n + 4) (countHost p 0 1 (countHost p 14 k (countHost p 13 j (wakeRx p s))))

@[simp] theorem inj_frameCounted (p n j k : Nat) : (frameCounted p n j k s).inj = s.inj := by
  simp [frameCounted]

@[simp] theorem hport_rx_frameCounted (p n j k q : Nat) : (hport (frameCounted p n j k s) q).rx = (hport s q).rx := by
  simp [frameCounted]

/-- Without an injection a frame whose blocks are sound is counted and goes the way of R443. -/
theorem exec_hostFrameRx_kept {bs : Bytes} {c : RxCheck} {j k : Nat} (hi : s.inj.entries = []) (hr : hostRuns s = true)
    (hu : (hport s p).state = 2) (hl : ∀ l ∈ hostLanes p, (lane s l).hdrLeft = 0 ∧ (lane s l).hdrBad = 0) :
    exec (.hostFrameRx p bs c j k) s = .next (keepFrame p bs c.fcsOk c.room (frameCounted p bs.length j k s)) := by
  have hlines : ∀ words blocks, lineBlocks p words blocks (wakeRx p s) = (false, wakeRx p s) := by
    intro words blocks
    refine lineBlocks_clean (by rw [inj_wakeRx, hi]) fun l hmem => ?_
    obtain ⟨hleft, hbad⟩ := wakeRx_headers p l s
    rw [hleft, hbad]
    exact hl l hmem
  have hnone : occurrence 0x08 p (frameCounted p bs.length j k s) = (none, frameCounted p bs.length j k s) :=
    occurrence_none (injIndex_disarmed (by rw [inj_frameCounted, hi]) ..)
  change execHostFrameRx p bs c j k s = _
  unfold execHostFrameRx
  rw [if_pos ⟨hr, hu⟩]
  dsimp only
  rw [hlines, if_neg Bool.false_ne_true]
  change Host.Outcome.next (keepFrame p bs (c.fcsOk && (occurrence 0x08 p (frameCounted p bs.length j k s)).1.isNone) c.room
    (occurrence 0x08 p (frameCounted p bs.length j k s)).2) = _
  rw [hnone]
  simp only [Option.isNone_none, Bool.and_true]

/-- A frame that is too long is counted as such, whatever it is (R443). -/
theorem keepFrame_long {bs : Bytes} {fcsOk room : Bool} (h : 9600 < bs.length + 4) :
    keepFrame p bs fcsOk room s = countHost p 2 1 s := if_pos (Or.inr h)

/-- A frame for which the receive buffer has no room is dropped and counted. -/
theorem cpQueue_noRoom (i : Nat) (ptp : Bool) (bs : Bytes) : cpQueue p i ptp false bs s = countHost p 3 1 s := by
  unfold cpQueue
  exact if_pos (Or.inl rfl)

/-- The loss of block lock takes the link down before the frame is looked at. -/
theorem exec_hostFrameRx_lost {bs : Bytes} {c : RxCheck} {j k : Nat} (hr : hostRuns s = true)
    (hu : (hport s p).state = 2)
    (hl : (lineBlocks p ((frameBlocks bs + 79) / 80) ((frameBlocks bs + 3) / 4) (wakeRx p s)).1 = true) :
    exec (.hostFrameRx p bs c j k) s =
      .next (blockLost p (lineBlocks p ((frameBlocks bs + 79) / 80) ((frameBlocks bs + 3) / 4) (wakeRx p s)).2) :=
  (if_pos ⟨hr, hu⟩).trans (if_pos hl)

/-! ### Frames that are sent (R440) -/

/-- The frame at the head of a class has left the port, and is counted. -/
def frameSent (p c : Nat) (f : TxFrame) (fs : List TxFrame) (s : State) : State :=
  countHost p 9 (f.data.length + 4) (countHost p 8 1
    (emit (.hostFrame p f.data) (modHClass p c (fun k => { k with queue := fs }) (wakeTx p s))))

theorem out_frameSent (p c : Nat) (f : TxFrame) (fs : List TxFrame) (s : State) :
    (frameSent p c f fs s).ctl.out.contains (.hostFrame p f.data) = true :=
  ((outGrows_countHost ..).trans (outGrows_countHost ..)).contains List.mem_cons_self

theorem hclass_modHClass (p c : Nat) (f : HClass → HClass) (s : State) :
    hclass (modHClass p c f s) p c = f (hclass s p c) := by
  unfold hclass modHClass
  rw [hport_modHPort, if_pos rfl, tget_tmod, if_pos rfl]

theorem queue_frameSent (p c : Nat) (f : TxFrame) (fs : List TxFrame) (s : State) :
    (hclass (frameSent p c f fs s) p c).queue = fs := by
  rw [frameSent, hclass_countHost, hclass_countHost]
  exact congrArg HClass.queue (hclass_modHClass ..)

/-- The highest class that is ready sends its first frame, which is stamped where it asks for it (R455). -/
theorem exec_hostFrameTx {c : Nat} {f : TxFrame} {fs : List TxFrame} (hr : hostRuns s = true) (hu : (hport s p).state = 2)
    (hc : readyClass s p = some c) (hq : (hclass s p c).queue = f :: fs) :
    exec (.hostFrameTx p) s = match f.stamp with
      | none => .next (frameSent p c f fs s)
      | some id => .next (enterStamp p id true f.cause (frameSent p c f fs s)) := by
  change execHostFrameTx p s = _
  unfold execHostFrameTx
  rw [if_pos ⟨hr, hu⟩, hc]
  dsimp only
  rw [hq]
  rfl

/-! ### PAUSE and PFC (R445, R446) -/

/-- Outside pause mode 1 a pause concerns its own class. -/
theorem pauseClasses_own {c : Nat} (h : (hport s p).pauseMode ≠ 1) : pauseClasses s p c = [c] := if_neg h

theorem exec_pauseExpiry_own {c : Nat} (hm : (hport s p).pauseMode ≠ 1) (hp : (hclass s p c).paused = true) :
    exec (.pauseExpiry p c) s = .next (wakeTx p (modHClass p c (fun k => { k with paused := false }) s)) := by
  change execPauseExpiry p c s = _
  unfold execPauseExpiry
  rw [pauseClasses_own hm, List.foldl_cons, List.foldl_nil, if_pos hp]

theorem exec_pauseWdHoldEnd_own {c : Nat} (hm : (hport s p).pauseMode ≠ 1) (hh : (hclass s p c).hold = true) :
    exec (.pauseWdHoldEnd p c) s = .next (modHClass p c (fun k => { k with hold := false }) s) := by
  change execPauseWdHoldEnd p c s = _
  unfold execPauseWdHoldEnd
  rw [pauseClasses_own hm, List.foldl_cons, List.foldl_nil, if_pos hh]

/-! ### Low-power idle (R149, R447) -/

/-- The moments of low-power idle belong to a port that is UP and has negotiated it. -/
theorem lpi_runs (hr : hostRuns s = true) (hu : (hport s p).state = 2) (he : (hport s p).eeeNeg = true) :
    ¬((!hostRuns s) = true ∨ (hport s p).state ≠ 2 ∨ (!(hport s p).eeeNeg) = true) := by
  simp [hr, hu, he]

end

/-! ### The obligation -/

/-- Settles O41: each event acts under its condition, and a frame is counted before it goes its way. -/
theorem hostPortEventsComplete : Obligations.HostPortEventsComplete := by
  unfold Obligations.HostPortEventsComplete
  refine ⟨?up, fun s p c hr hu => if_pos ⟨hr, hu⟩, fun s p hr hu => if_pos ⟨hr, hu⟩, ?long, ?kept, ?lost,
    fun s p i ptp bs => cpQueue_noRoom i ptp bs, ?sent, ?stamped, fun s p c hm hp => exec_pauseExpiry_own hm hp,
    fun s p c ha => if_pos ha, fun s p c hm hh => exec_pauseWdHoldEnd_own hm hh, ?idle, ?sleeps, ?wakes, ?refresh,
    fun s l on hl => if_pos hl, ?partner, ?thaws⟩
  case up =>
    intro s t p eee hr hu ht
    subst ht
    exact if_pos ⟨hr, hu⟩
  case long =>
    intro s p bs room x hi hr hu hb hl hx
    subst hx
    rw [exec_hostFrameRx_kept hi hr hu hl, keepFrame_long hb, frameCounted]
  case kept =>
    intro s p bs c j k hi hr hu hl
    exact ⟨frameCounted p bs.length j k s, by rw [inj_frameCounted, hi], hport_rx_frameCounted ..,
      exec_hostFrameRx_kept hi hr hu hl⟩
  case lost =>
    intro s p bs c j k i hr hu hi hl
    subst hi
    exact exec_hostFrameRx_lost hr hu hl
  case sent =>
    intro s p c f fs hr hu hc hq hs
    refine ⟨frameSent p c f fs s, ?_, out_frameSent .., queue_frameSent ..⟩
    rw [exec_hostFrameTx hr hu hc hq, hs]
  case stamped =>
    intro s p c f fs id hr hu hc hq hs
    refine ⟨frameSent p c f fs s, ?_, out_frameSent .., queue_frameSent ..⟩
    rw [exec_hostFrameTx hr hu hc hq, hs]
  case idle =>
    intro s p hr hu he hl hc hi
    exact (if_neg (lpi_runs hr hu he)).trans (if_pos ⟨hl, by rw [hc]; rfl, by rw [hi]; rfl⟩)
  case sleeps =>
    intro s p hr hu he hl
    exact (if_neg (lpi_runs hr hu he)).trans (congrArg Host.Outcome.next (if_neg hl))
  case wakes => exact fun s p hr hu he => if_neg (lpi_runs hr hu he)
  case refresh =>
    intro s p on hr hu he hl
    exact (if_neg (lpi_runs hr hu he)).trans (congrArg Host.Outcome.next (if_pos hl))
  case partner =>
    intro s p on hr hu he hl
    exact (if_neg (lpi_runs hr hu he)).trans (congrArg Host.Outcome.next (if_pos hl))
  case thaws =>
    intro s l hl
    exact (if_neg (by simp [hl])).trans (if_pos rfl)

end Sys2Proof.Machine
end

section
/-!
PROOFS. The commands that make, change and remove a terminal (R192 to R221): what a terminal reads as once it has been changed
or removed, and then each command past the checks that its premises name.
-/
namespace Sys2Proof.Machine

section
variable {s : State} {f : Nat} {t : Term}

/-! ### The entry of a key in a table -/

theorem tfind_tset_self {α : Type} (m : Tab α) (k : Nat) (v : α) : tfind (tset m k v) k = some v := by
  induction m with
  | nil => exact if_pos rfl
  | cons e m ih =>
    obtain ⟨j, w⟩ := e
    unfold tset
    split
    · exact if_pos rfl
    · split
      · exact if_pos rfl
      · next hk => exact (if_neg hk).trans ih

theorem tfind_tdel_self {α : Type} (m : Tab α) (k : Nat) : tfind (tdel m k) k = none := by
  induction m with
  | nil => rfl
  | cons e m ih =>
    obtain ⟨j, w⟩ := e
    unfold tdel
    split
    · exact ih
    · next hk => exact (if_neg hk).trans ih

/-! ### A terminal after a change (R191, R254) -/

@[simp] theorem sramWrite_tm (inst : Nat) (s : State) : (sramWrite inst s).2.tm = s.tm := by
  obtain ⟨o, r, l, j, h⟩ := occurrence_form 0x0D inst s
  unfold sramWrite
  dsimp only
  rw [h]
  split
  · rfl
  · rfl

/-- Mirroring a change leaves the population alone. -/
@[simp] theorem touch_tm (p rec : Nat) (s : State) : (touch p rec s).tm = s.tm := by
  have hw : (recordWritten (activeCode s p) rec s).tm = s.tm := sramWrite_tm ..
  unfold touch
  dsimp only
  split
  · exact hw
  · exact hw

/-- A terminal that leaves the population is found no more. -/
theorem findTerm_touch_deleted (p rec f : Nat) (s : State) :
    findTerm (touch p rec { s with tm := { s.tm with terms := tdel s.tm.terms f } }) f = none := by
  unfold findTerm
  rw [touch_tm]
  exact tfind_tdel_self ..

theorem findTerm_modTerm_self (h : findTerm s f = some t) (g : Term → Term) : findTerm (modTerm f g s) f = some (g t) := by
  unfold modTerm
  rw [h]
  dsimp only
  unfold findTerm
  rw [touch_tm]
  exact tfind_tset_self ..

/-- A distance change that no boundary brings applies as it is made (R206). -/
theorem applyDistance_made (h : findTerm s f = some t) (d : PendDist) :
    applyDistance f noSfc none (modTerm f (fun x => { x with pendDist := some d }) s) =
      raise 0x0508 (termId f) (le 4 t.dist ++ le 4 d.dist ++ le 8 noSfc) d.sched.cause
        (modTerm f (fun x => { x with dist := d.dist, resp := d.resp, pendDist := none })
          (modUnseen f (fun u => { u with dist := d.dist, resp := d.resp })
            (modTerm f (fun x => { x with pendDist := some d }) s))) := by
  unfold applyDistance
  rw [findTerm_modTerm_self h]
  rfl

end

section
variable {s : State} {r : Req} {c : CmdSpec} {t : Term}

/-! ### Commands on a terminal (R55, R193) -/

/-- A command that changes a terminal is its effect on the terminal, once the terminal exists and is the client's to change. -/
theorem serve_onTerm (h : Accepts c s r) (ht : findTerm s (termOf r) = some t) (hc : mayChange r t.client = true)
    (act : Req → State → Served) {go : Term → Served} (ha : act r (takeUp r s) = onTerm r (takeUp r s) go) :
    serve c act s = conclude r (go t) := by
  rw [serve_accepts h, ha, onTerm, findTerm_takeUp, ht]
  exact congrArg (conclude r) (if_pos hc)

/-- A command that reads a terminal is what it reads there, once the terminal exists. -/
theorem serve_readTerm (h : Accepts c s r) (ht : findTerm s (termOf r) = some t)
    (act : Req → State → Served) {go : Term → Served} (ha : act r (takeUp r s) = readTerm r (takeUp r s) go) :
    serve c act s = conclude r (go t) := by
  rw [serve_accepts h, ha, readTerm, findTerm_takeUp, ht]

/-- An apply_sfc that is the plane's present count, or too far ahead of it, is refused (R206). -/
theorem sfcRefused_of_notAhead {p sfc : Nat} (h : sfc = (plane s p).sfc ∨ 80000 < (sfc + 2 ^ 51 - (plane s p).sfc) % 2 ^ 51) :
    sfcRefused s p 1 sfc = true := by
  have hn : ¬(1 ≤ sfcAhead s p sfc ∧ sfcAhead s p sfc ≤ 80000) := by
    unfold sfcAhead
    rcases h with rfl | h
    · simp
    · omega
  simp [sfcRefused, hn]

end

/-! ### The commands that make, change and remove a terminal -/

/-- Settles O22: each command past the checks on its terminal, which the premises name. -/
theorem terminalCommandsComplete : Obligations.TerminalCommandsComplete := by
  unfold Obligations.TerminalCommandsComplete
  refine ⟨?create, ?delete, ?enable, ?disable, ?distance, ?distanceNow, ?distanceBusy, ?distanceRefused, ?config, ?copy,
    ?mskCleared, ?msk, ?port, ?portLater, ?misbehave, fun s r h => congrArg Host.Outcome.next (serve_accepts h termPlaneAct)⟩
  case create =>
    intro s r h ht hs
    have hfree : ¬((!bit (u8 r.payload 2) 3) = true ∧ serialTaken s (termOf r) (slice r.payload 4 8) = true) := by
      rcases hs with hs | hs <;> simp [hs]
    refine congrArg Host.Outcome.next ((serve_accepts h termCreateAct).trans ?_)
    simp only [termCreateAct, findTerm_takeUp, serialTaken_takeUp, takeUp_tm]
    rw [ht, if_neg (by decide), if_neg hfree, conclude_ok]
  case delete =>
    intro s r t h ht hc
    exact ⟨_, _, congrArg Host.Outcome.next (serve_onTerm h ht hc termDeleteAct rfl), findTerm_touch_deleted .., rfl, rfl⟩
  case enable =>
    intro s r t h ht hc hon hst
    refine congrArg Host.Outcome.next ((serve_onTerm h ht hc termEnableAct rfl).trans ?_)
    rw [if_pos hon, if_neg (not_not_intro hst), conclude_ok]
  case disable =>
    intro s r t h ht hc hoff hst
    refine congrArg Host.Outcome.next ((serve_onTerm h ht hc termEnableAct rfl).trans ?_)
    rw [hoff, if_neg (by decide), hst, if_neg (by decide), conclude_ok]
  case distance =>
    intro s r t h ht hc hp hs h01 h11 h17
    refine congrArg Host.Outcome.next ((serve_onTerm h ht hc termDistanceAct rfl).trans ?_)
    dsimp only
    rw [hp, if_neg (by decide), sfcRefused_takeUp, hs, if_neg (by decide), schedOf_takeUp, if_neg (by simp [h01, h11, h17]),
      conclude_ok]
  case distanceNow =>
    intro s r t h ht hc hp hs hst
    refine congrArg Host.Outcome.next ((serve_onTerm h ht hc termDistanceAct rfl).trans ?_)
    dsimp only
    rw [hp, if_neg (by decide), sfcRefused_takeUp, hs, if_neg (by decide), schedOf_takeUp, if_pos hst,
      applyDistance_made ((findTerm_takeUp ..).trans ht), conclude_ok]
    rfl
  case distanceBusy =>
    intro s r t h ht hc hp
    exact congrArg Host.Outcome.next ((serve_onTerm h ht hc termDistanceAct rfl).trans
      (congrArg (conclude r) (if_pos hp)))
  case distanceRefused =>
    intro s r t h ht hc hp hw hs
    refine congrArg Host.Outcome.next ((serve_onTerm h ht hc termDistanceAct rfl).trans ?_)
    dsimp only
    rw [hp, if_neg (by decide), sfcRefused_takeUp, hw, if_pos (sfcRefused_of_notAhead hs), conclude_fail]
  case config =>
    intro s r t h ht hc hst
    refine congrArg Host.Outcome.next ((serve_onTerm h ht hc termConfigAct rfl).trans ?_)
    exact congrArg (conclude r) (if_neg fun hn => hst.elim hn.2.1 hn.2.2)
  case copy =>
    intro s r t h ht hc hm hk
    refine congrArg Host.Outcome.next ((serve_onTerm h ht hc termConfigAct rfl).trans ?_)
    exact congrArg (conclude r) (if_neg fun hn => hn.1.elim (· hm) (· hk))
  case mskCleared =>
    intro s r t h ht hc h0
    exact congrArg Host.Outcome.next ((serve_onTerm h ht hc termMskAct rfl).trans (congrArg (conclude r) (if_pos h0)))
  case msk =>
    intro s r t kek h ht hc h1 hk
    refine congrArg Host.Outcome.next ((serve_onTerm h ht hc termMskAct rfl).trans ?_)
    rw [h1, if_neg (by decide), takeUp_cip, hk]
    dsimp only
    cases Config.aesUnwrap (kekBytes kek) (slice r.payload 4 24) with
    | none => rfl
    | some raw => rfl
  case port =>
    intro s r t h ht hc hfree hst
    refine congrArg Host.Outcome.next ((serve_onTerm h ht hc termPortAct rfl).trans ?_)
    rw [portTaken_takeUp, if_neg (by rcases hfree with hf | hf <;> simp [hf]), if_neg hst, conclude_ok]
  case portLater =>
    intro s r t h ht hc hfree hst
    refine congrArg Host.Outcome.next ((serve_onTerm h ht hc termPortAct rfl).trans ?_)
    rw [portTaken_takeUp, if_neg (by rcases hfree with hf | hf <;> simp [hf]), if_pos hst, conclude_ok]
  case misbehave => exact fun s r t h ht hc => congrArg Host.Outcome.next (serve_onTerm h ht hc misbehaveAct rfl)

end Sys2Proof.Machine
end

section
/-!
PROOFS. The commands that read a terminal and that send for it (R210 to R212, R218 to R220, R222): what OMCI_RECV makes of a
terminal's oldest SDU, and then each command past the checks that its premises name.
-/
namespace Sys2Proof.Machine

section
variable {s : State} {f off : Nat} {o : OmciSdu} {rest : List OmciSdu}

/-! ### The oldest SDU of a terminal (R219, R400) -/

/-- Where the oldest SDU has no line in error, none is discarded. -/
theorem goodOmci_of_good (h : omciOf s f = o :: rest) (hb : o.bad = none) (fuel : Nat) : goodOmci f fuel s = s := by
  cases fuel with
  | zero => rfl
  | succ n =>
    unfold goodOmci
    rw [h]
    dsimp only [List.head?]
    rw [hb]

/-- A read of 208 bytes or fewer reaches the end of an SDU where no more than 208 follow its offset. -/
theorem readsToEnd_eq {n : Nat} (h : off < n) : (off + min 208 (n - off) == n) = decide (n ≤ off + 208) := by
  rw [beq_eq_decide, decide_eq_decide]
  omega

/-- A read within the oldest SDU, which leaves the queue with its last byte. -/
theorem omciRead_within (h : omciOf s f = o :: rest) (hb : o.bad = none) (hn : off < o.data.length) :
    omciRead f off s = okWith
      (le 2 (termId f) ++ le 2 o.data.length ++ le 2 off ++ le 1 (min 208 (o.data.length - off)) ++
        le 1 (b2n (!rest.isEmpty) + 2 * b2n o.fecUnc + 4 * b2n (decide (o.data.length ≤ off + 208))) ++
        le 8 o.time.toNat ++ slice o.data off (min 208 (o.data.length - off)))
      (if o.data.length ≤ off + 208
        then modPlane (planeOf f) (fun x => { x with omciRx := x.omciRx.erase o }) s
        else s) := by
  unfold omciRead
  rw [goodOmci_of_good h hb]
  dsimp only
  rw [h]
  dsimp only
  rw [if_neg (Nat.not_le.mpr hn), readsToEnd_eq hn]
  simp only [decide_eq_true_eq]

end

/-! ### The commands that read a terminal and that send for it -/

/-- Settles O23: each command past the checks on its terminal and its queues, which the premises name. -/
theorem terminalTrafficCompletes : Obligations.TerminalTrafficCompletes := by
  unfold Obligations.TerminalTrafficCompletes
  refine ⟨?status, ?statusCleared, ?ploamSent, ?ploamRead, ?broadcastRead, ?omciFirstPart, ?omciNextPart, ?omciRead,
    ?omciNone⟩
  case status =>
    intro s r t h ht h0
    refine congrArg Host.Outcome.next ((serve_readTerm h ht termStatusAct rfl).trans ?_)
    rw [termStatusBytes_takeUp, h0, if_neg (by decide), conclude_okWith]
  case statusCleared =>
    intro s r t h ht h1
    refine congrArg Host.Outcome.next ((serve_readTerm h ht termStatusAct rfl).trans ?_)
    rw [termStatusBytes_takeUp, if_pos h1, conclude_okWith]
  case ploamSent =>
    intro s r t h ht hc hst hl
    refine congrArg Host.Outcome.next ((serve_onTerm h ht hc ploamSendAct rfl).trans ?_)
    rw [if_neg fun hn => hst.elim hn.1 (Or.elim · hn.2.1 hn.2.2), if_neg (Nat.not_le.mpr hl), conclude_ok]
  case ploamRead =>
    intro s r t h h0 ht
    have ha : ploamRecvAct r (takeUp r s) = readTerm r (takeUp r s) fun t => okWith (ploamRecvBytes t.hostQ (u8 r.payload 3))
        (modTermLocal (termOf r) (fun x => { x with hostQ := x.hostQ.drop (u8 r.payload 3) }) (takeUp r s)) :=
      if_neg (by rw [h0]; decide)
    exact congrArg Host.Outcome.next (serve_readTerm h ht ploamRecvAct ha)
  case broadcastRead =>
    intro s r h h1
    refine congrArg Host.Outcome.next ((serve_accepts h ploamRecvAct).trans ?_)
    rw [ploamRecvAct, if_pos h1]
    dsimp only
    rw [plane_takeUp, conclude_okWith]
  case omciFirstPart =>
    intro s r t h ht hc hst h0 hl
    refine congrArg Host.Outcome.next ((serve_onTerm h ht hc omciSendAct rfl).trans ?_)
    rw [if_neg (not_not_intro hst), if_pos h0, if_neg (Nat.not_le.mpr hl), conclude_ok]
  case omciNextPart =>
    intro s r t h ht hc hst h0 htot hlen
    refine congrArg Host.Outcome.next ((serve_onTerm h ht hc omciSendAct rfl).trans ?_)
    rw [if_neg (not_not_intro hst), if_neg h0, if_neg fun hn => hn.elim (· htot) (· hlen), conclude_ok]
  case omciRead =>
    intro s r t o rest h hw ht ho hb hn
    have ha : omciRecvAct r (takeUp r s) =
        readTerm r (takeUp r s) fun _ => omciRead (termOf r) (u16 r.payload 2) (takeUp r s) := if_neg hw
    refine congrArg Host.Outcome.next ((serve_readTerm h ht omciRecvAct ha).trans ?_)
    rw [omciRead_within ((omciOf_takeUp ..).trans ho) hb hn, conclude_okWith]
  case omciNone =>
    intro s r h hw hf
    refine congrArg Host.Outcome.next ((serve_accepts h omciRecvAct).trans ?_)
    rw [omciRecvAct, if_pos hw, omciFirst_takeUp, hf]
    rfl

end Sys2Proof.Machine
end

section
/-!
PROOFS. The terminals' own events (R200, R203 to R205, R210, R213, R215, R217): each event under the condition that its rule
gives it, which the premises name.
-/
namespace Sys2Proof.Machine

section
variable {s : State} {f : Nat} {t : Term}

/-! ### Messages and LODS in view (R200, R204, R205, R217) -/

/-- The oldest message on its way reaches the terminal, which acts on it. -/
theorem exec_termViewPloam {v : DsPloam} {rest : List DsPloam} (ht : findTerm s f = some t) (hv : t.view = v :: rest)
    (hl : lineRuns (planeOf f) s = true) :
    exec (.termViewPloam f) s = .next (lateAnswers (planeOf f) (actOn f v.msg t
      (modTermLocal f (fun x => { x with view := rest }) s))) := by
  change execTermViewPloam f s = _
  unfold execTermViewPloam
  rw [ht]
  dsimp only
  rw [hv]
  dsimp only
  rw [hl]
  rfl

/-- A terminal comes to the plane-wide cause that waits for it: a loss, or the regain that no loss precedes. -/
theorem exec_termViewLods {lost : Bool} {n : Nat} {b : Bulk} (ht : findTerm s f = some t)
    (hl : lineRuns (planeOf f) s = true) (hb : bulkOf s f (if lost then [7] else [8, 2]) = some (n, b))
    (hn : lost = false → bulkOf s f [7] = none) :
    exec (.termViewLods f lost) s = .next (lateAnswers (planeOf f) (bulkStep f n b t.state s)) := by
  have hgo : ¬((!lost) = true ∧ (bulkOf s f [7]).isSome = true) := by
    rintro ⟨hlost, hsome⟩
    rw [hn (by simpa using hlost)] at hsome
    exact absurd hsome (by decide)
  change execTermViewLods f lost s = _
  unfold execTermViewLods
  dsimp only
  rw [ht]
  dsimp only
  rw [hl, hb]
  exact if_neg hgo

/-! ### Keys in view (R213, R215, R217) -/

section
variable {k : Nat} {rest : List Nat}

/-- The terminal's view has reached the oldest frame on its contexts. -/
def keyReached (f : Nat) (rest : List Nat) (s : State) : State := modTermLocal f (fun x => { x with keyView := rest }) s

/-- A frame under a valid key has ended the run of frames with a lost key, and LOK with it. -/
def keyValid (f : Nat) (t : Term) (s : State) : State :=
  if t.lok then termDefectEvent f 2 false none (modTermLocal f (fun x => { x with lokRun := 0, lok := false }) s)
  else modTermLocal f (fun x => { x with lokRun := 0, lok := false }) s

/-- The frame is lost under an index without a valid key; with a valid one it may move the upstream index too. -/
theorem exec_termViewKeyIndex (ht : findTerm s f = some t) (hk : t.keyView = k :: rest)
    (hl : lineRuns (planeOf f) s = true) :
    exec (.termViewKeyIndex f k) s =
      if (!lineKeyValid s f k) = true then .next (lostKey f t (keyReached f rest s))
      else if k ≠ t.keyUp ∧ (misbItem t 7).isNone = true then
        .next (modTerm f (fun x => { x with keyNext := some k }) (keyValid f t (keyReached f rest s)))
      else .next (keyValid f t (keyReached f rest s)) := by
  have hgo : ¬(k ≠ k ∨ (!lineRuns (planeOf f) s) = true) := by simp [hl]
  change execTermViewKeyIndex f k s = _
  unfold execTermViewKeyIndex
  dsimp only
  rw [ht]
  dsimp only
  rw [hk]
  exact if_neg hgo

theorem exec_termViewKeyIndex_lost (ht : findTerm s f = some t) (hk : t.keyView = k :: rest)
    (hl : lineRuns (planeOf f) s = true) (hv : lineKeyValid s f k = false) :
    exec (.termViewKeyIndex f k) s = .next (lostKey f t (keyReached f rest s)) := by
  rw [exec_termViewKeyIndex ht hk hl, hv]
  exact if_pos rfl

/-- Without LOK a valid index other than the upstream one is the next upstream index, unless an item keeps it. -/
theorem exec_termViewKeyIndex_next (ht : findTerm s f = some t) (hk : t.keyView = k :: rest)
    (hl : lineRuns (planeOf f) s = true) (hv : lineKeyValid s f k = true) (hlok : t.lok = false) (hne : k ≠ t.keyUp)
    (hm : misbItem t 7 = none) :
    exec (.termViewKeyIndex f k) s = .next (modTerm f (fun x => { x with keyNext := some k })
      (modTermLocal f (fun x => { x with lokRun := 0, lok := false }) (keyReached f rest s))) := by
  have hend : keyValid f t (keyReached f rest s) =
      modTermLocal f (fun x => { x with lokRun := 0, lok := false }) (keyReached f rest s) :=
    if_neg (by rw [hlok]; decide)
  rw [exec_termViewKeyIndex ht hk hl, hv, if_neg (by decide), if_pos ⟨hne, by rw [hm]; rfl⟩, hend]

end

/-! ### Timers and held messages (R200, R204, R210, R221) -/

theorem exec_to1Expiry (ht : findTerm s f = some t) (hr : t.timer = 1) (hst : t.state = 0x14)
    (hl : lineRuns (planeOf f) s = true) :
    exec (.to1Expiry f) s =
      .next (lateAnswers (planeOf f) (enterState f 0x12 9 true none none (judgeAhead f s))) := by
  change execTo1Expiry f s = _
  unfold execTo1Expiry
  rw [ht]
  exact if_pos ⟨hr, hst, hl⟩

/-- TO2 takes its terminal to O1, with an event of its own where no plane-wide expiry waits for it. -/
theorem exec_to2Expiry_alone (ht : findTerm s f = some t) (hr : t.timer = 2) (hst : t.state = 0x16)
    (hl : lineRuns (planeOf f) s = true) (hb : bulkOf s f [10] = none) :
    exec (.to2Expiry f) s =
      .next (lateAnswers (planeOf f) (enterState f 0x11 10 true none none (judgeAhead f s))) := by
  change execTo2Expiry f s = _
  unfold execTo2Expiry
  dsimp only
  rw [ht]
  dsimp only
  rw [if_neg (by simp [hr, hst, hl]), hb]

/-- While the plane stays in HUNT the expiry is told together with those of the other terminals. -/
theorem exec_to2Expiry_together {n : Nat} {b : Bulk} (ht : findTerm s f = some t) (hr : t.timer = 2)
    (hst : t.state = 0x16) (hl : lineRuns (planeOf f) s = true) (hb : bulkOf s f [10] = some (n, b))
    (hp : (plane s (planeOf f)).state = 1) :
    exec (.to2Expiry f) s = .next (actedBulk f n (some (0x16, 0x11))
      (enterState f 0x11 10 false none none (judgeAhead f s))) := by
  change execTo2Expiry f s = _
  unfold execTo2Expiry
  dsimp only
  rw [ht]
  dsimp only
  rw [if_neg (by simp [hr, hst, hl]), hb]
  exact if_pos hp

/-- The one held message of a terminal is the one that is due first. -/
theorem exec_ploamDelayExpiry_one {m : DelayedMsg} (ht : findTerm s f = some t) (hm : t.ploamDelayed = [m]) :
    exec (.ploamDelayExpiry f) s = .next (enterUp f m.body
      (modTerm f (fun x => { x with ploamDelayed := x.ploamDelayed.erase m }) s)) := by
  change execPloamDelayExpiry f s = _
  unfold execPloamDelayExpiry
  rw [ht]
  dsimp only
  rw [hm]
  rfl

end

/-! ### Plane-wide causes (R204) -/

/-- The one plane-wide cause of a plane is reported when no terminal has yet to act on it. -/
theorem exec_evTermsBulk_one {s : State} {p : Nat} {b : Bulk} (hb : (plane s p).bulks = [b]) (hw : b.waiting = []) :
    exec (.evTermsBulk p) s = .next (bulkEvents p b.cause b.pairs b.ev
      (modPlane p (fun x => { x with bulks := x.bulks.filter fun y => !y.waiting.isEmpty }) s)) := by
  have hr : ([b].filter fun y => y.waiting.isEmpty) = [b] := by simp [hw]
  change execEvTermsBulk p s = _
  unfold execEvTermsBulk
  dsimp only
  rw [hb, hr]
  rfl

/-! ### The obligation -/

/-- Settles O24: each event under its condition; a regain is acted on once no loss waits before it. -/
theorem terminalEventsComplete : Obligations.TerminalEventsComplete := by
  unfold Obligations.TerminalEventsComplete
  exact ⟨fun s f t v rest ht hv hl => exec_termViewPloam ht hv hl,
    fun s f t n b ht hl hb => exec_termViewLods ht hl hb nofun,
    fun s f t n b ht hl hb hn => exec_termViewLods ht hl hb fun _ => hn,
    fun s f t k rest ht hk hl hv => exec_termViewKeyIndex_lost ht hk hl hv,
    fun s f t k rest ht hk hl hv hlok hne hm => exec_termViewKeyIndex_next ht hk hl hv hlok hne hm,
    fun s f t ht hr hst hl => exec_to1Expiry ht hr hst hl,
    fun s f t ht hr hst hl hb => exec_to2Expiry_alone ht hr hst hl hb,
    fun s f t n b ht hr hst hl hb hp => exec_to2Expiry_together ht hr hst hl hb hp,
    fun s f t m ht hm => exec_ploamDelayExpiry_one ht hm, fun s p b hb hw => exec_evTermsBulk_one hb hw⟩

end Sys2Proof.Machine
end

section
/-!
PROOFS. The commands of the allocation block (R237, R240 to R250): what a change of pages or of the pool asks of the client,
and then each command past the checks that its premises name.
-/
namespace Sys2Proof.Machine

section
variable {s : State} {r : Req}

/-! ### Whose traffic a client may change (R55, R247) -/

/-- Client 0 may change the traffic of every terminal. -/
theorem mayTraffic_of_client_zero (h : r.client = 0) (f : Nat) : mayTraffic r s f = true := by
  unfold mayTraffic
  cases findTerm s f with
  | none => rfl
  | some t => simp [mayChange, h]

/-- Taking up a request leaves open to its client the traffic of the same terminals. -/
theorem all_mayTraffic_takeUp (fs : List Nat) : fs.all (mayTraffic r (takeUp r s)) = fs.all (mayTraffic r s) := by
  rw [funext (mayTraffic_takeUp r s r)]

/-- A swap that its client may make, of pages at rest, is one by the plane's state (R244). -/
theorem amapSwapAct_allowed (hc : (swapChanges (plane s (u8 r.payload 0))).all (mayTraffic r s) = true)
    (hb : amapBusy s (u8 r.payload 0) = false) (hw : u8 r.payload 1 = 0) :
    amapSwapAct r s = ok (if (plane s (u8 r.payload 0)).state = 2
      then modPlane (u8 r.payload 0) (fun y => { y with
        swap := some (schedOf r (u8 r.payload 0) 0 (u64 r.payload 8) s) }) s
      else touch (u8 r.payload 0) planeRecord (swapPages (u8 r.payload 0) 0
        (schedOf r (u8 r.payload 0) 0 (u64 r.payload 8) s) s)) := by
  unfold amapSwapAct
  dsimp only
  rw [hc, hb, hw, if_neg (by decide), if_neg (by decide)]
  by_cases hst : (plane s (u8 r.payload 0)).state = 2
  · rw [if_neg (not_not_intro hst), if_pos hst]
    exact if_neg Bool.false_ne_true
  · rw [if_pos hst, if_neg hst, if_neg (by decide)]

/-! ### Descriptors (R240, R241) -/

/-- A descriptor that is not valid yet becomes the client's, where its region lies in the pool. -/
theorem descSetAct_new (hk : (descLast s (u16 r.payload 0)).kind = 0)
    (hp : u8 r.payload 2 ≠ 1 ∨ u64 r.payload 4 + u32 r.payload 12 ≤ s.up.poolSegs * segBytes) :
    descSetAct r s = ok (if descNamed s (u16 r.payload 0) = true
      then { s with up := { s.up with
        pendDescs := tset s.up.pendDescs (u16 r.payload 0) (newDesc r.client r.payload) } }
      else touchDescs [0, 1] [u16 r.payload 0] { s with up := { s.up with
        descs := tset s.up.descs (u16 r.payload 0) (newDesc r.client r.payload)
        pendDescs := tdel s.up.pendDescs (u16 r.payload 0) } }) := by
  have hin : ¬((newDesc r.client r.payload).kind = 1 ∧
      s.up.poolSegs * segBytes < (newDesc r.client r.payload).base + (newDesc r.client r.payload).region) :=
    fun h => hp.elim (· h.1) (Nat.not_le.mpr h.2)
  unfold descSetAct
  dsimp only
  rw [if_neg fun h => h.1 hk, if_pos hk, if_neg hin]
  exact (apply_ite ok ..).symm

/-! ### The pool (R237) -/

/-- The pool is reserved where its client lets it go, no load runs, every segment can join it and no descriptor is valid. -/
theorem poolReserveAct_free (hc : s.up.poolSegs = 0 ∨ mayChange r s.up.poolClient = true) (hl : loadRuns s = false)
    (hs : (List.range (u64 r.payload 0 / segBytes)).any (poolDenied s) = false) (hd : descsLive s = 0) :
    poolReserveAct r s = ok (reservePool r.client (u64 r.payload 0 / segBytes) s) := by
  have hmine : ¬(s.up.poolSegs ≠ 0 ∧ (!mayChange r s.up.poolClient) = true) := by
    rcases hc with hc | hc <;> simp [hc]
  unfold poolReserveAct
  dsimp only
  rw [if_neg hmine, hl, if_neg (by decide), hs, if_neg (by decide), hd, if_neg (by decide)]

end

/-! ### The commands of the allocation block -/

/-- Settles O25: each command past the checks that its premises name. -/
theorem allocationCommandsComplete : Obligations.AllocationCommandsComplete := by
  unfold Obligations.AllocationCommandsComplete
  refine ⟨?pool, ?desc, ?descLater, ?write, ?swap, ?swapNow, ?swapDenied, ?copied, ?shaper, ?burst, ?spout, ?queue⟩
  case pool =>
    intro s r h hc hl hs hd
    refine congrArg Host.Outcome.next ((serve_accepts h poolReserveAct).trans ?_)
    rw [poolReserveAct_free (by simpa using hc) (by simpa using hl) (by rwa [funext (poolDenied_takeUp r s)])
      (by simpa using hd), conclude_ok]
  case desc =>
    intro s r h hk hp hn
    refine congrArg Host.Outcome.next ((serve_accepts h descSetAct).trans ?_)
    rw [descSetAct_new (by simpa using hk) (by simpa using hp), descNamed_takeUp, hn, if_neg (by decide), conclude_ok,
      takeUp_up]
  case descLater =>
    intro s r h hk hp hn
    refine congrArg Host.Outcome.next ((serve_accepts h descSetAct).trans ?_)
    rw [descSetAct_new (by simpa using hk) (by simpa using hp), descNamed_takeUp, if_pos hn, conclude_ok, takeUp_up]
  case write =>
    intro s r h h0 hb hk
    have hall : ∀ fs : List Nat, fs.all (mayTraffic r (takeUp r s)) = true :=
      fun fs => List.all_eq_true.mpr fun f _ => mayTraffic_of_client_zero h0 f
    refine congrArg Host.Outcome.next ((serve_accepts h amapWriteAct).trans ?_)
    unfold amapWriteAct
    dsimp only
    rw [hall, if_neg (by decide), amapBusy_takeUp, hb, if_neg (by decide), if_neg fun hn => by omega, plane_takeUp,
      conclude_ok]
  case swap =>
    intro s r h hc hb hst hw
    refine congrArg Host.Outcome.next ((serve_accepts h amapSwapAct).trans ?_)
    rw [amapSwapAct_allowed (by rwa [plane_takeUp, all_mayTraffic_takeUp]) (by rwa [amapBusy_takeUp]) hw, plane_takeUp,
      if_pos hst, schedOf_takeUp, conclude_ok]
  case swapNow =>
    intro s r h hc hb hst hw
    refine congrArg Host.Outcome.next ((serve_accepts h amapSwapAct).trans ?_)
    rw [amapSwapAct_allowed (by rwa [plane_takeUp, all_mayTraffic_takeUp]) (by rwa [amapBusy_takeUp]) hw, plane_takeUp,
      if_neg hst, schedOf_takeUp, conclude_ok]
  case swapDenied =>
    intro s r h hc
    refine congrArg Host.Outcome.next ((serve_accepts h amapSwapAct).trans ?_)
    unfold amapSwapAct
    dsimp only
    rw [plane_takeUp, all_mayTraffic_takeUp, hc, if_pos (by decide), conclude_fail]
  case copied =>
    intro s p x hp hr hx
    change execAmapCopyDone p s = _
    unfold execAmapCopyDone
    dsimp only
    rw [hx]
    dsimp only
    rw [if_neg fun h => h.elim (Nat.not_lt.mpr hp) (by simp [hr])]
  case shaper =>
    intro s r h hc
    refine congrArg Host.Outcome.next ((serve_accepts h shaperAct).trans ?_)
    unfold shaperAct
    dsimp only
    rw [mayTraffic_takeUp, hc, if_neg (by decide), conclude_ok]
  case burst => exact fun s r t h ht hc => congrArg Host.Outcome.next (serve_onTerm h ht hc burstConfigAct rfl)
  case spout =>
    intro s r h
    refine congrArg Host.Outcome.next ((serve_accepts h spoutStatusAct).trans ?_)
    rw [spoutStatusAct]
    simp only [plane_takeUp, conclude_okWith]
  case queue =>
    intro s r h
    refine congrArg Host.Outcome.next ((serve_accepts h queueStatusAct).trans ?_)
    rw [queueStatusAct, queueStatusBytes_takeUp, conclude_okWith]

end Sys2Proof.Machine
end

section
/-!
PROOFS. Engine redundancy and line protection (R252 to R276): a failed message of the Rill as a change or a keep-alive, the
Rill's messages where no injection is armed, each command of block 0x07xx past its object checks, and from these the
completion of the protection events and of the commands.
-/
namespace Sys2Proof.Machine

/-! ### Changes of a plane's protection state -/

theorem prot_modProt_self (p : Nat) (f : Prot → Prot) (s : State) : prot (modProt p f s) p = f (prot s p) := by
  unfold prot modProt
  rw [plane_modPlane, if_pos rfl]

/-- A change of a plane's protection state is told by what it makes of the present one. -/
theorem modProt_congr {p : Nat} {f g : Prot → Prot} {s : State} (h : f (prot s p) = g (prot s p)) :
    modProt p f s = modProt p g s :=
  congrArg (fun x => { s with fr := { s.fr with planes := tset s.fr.planes p { plane s p with prot := x } } }) h

section
variable {s : State} {p : Nat}

/-! ### Messages on the Rill (R254, R256) -/

/-- A change that has failed fewer than three times before is counted and resent. -/
theorem rillFailed_resends {m : RillMsg} {rest : List RillMsg} (hq : (prot s p).rillQ = m :: rest) (hm : m.fails < 3) :
    rillFailed p s = modProt p (fun x => { x with
      rillCrc := x.rillCrc + 1
      rillQ := { m with fails := m.fails + 1 } :: rest }) s := by
  unfold rillFailed
  dsimp only
  rw [modProt_congr (g := fun x => { x with
    rillCrc := x.rillCrc + 1
    rillQ := { m with fails := m.fails + 1 } :: rest }) (by simp [hq]), prot_modProt_self]
  exact if_neg (show ¬4 ≤ m.fails + 1 by omega)

/-- A keep-alive that fails is counted in its own run, and the fourth failure takes the Rill DOWN. -/
theorem rillFailed_keepAlive (hq : (prot s p).rillQ = []) :
    rillFailed p s = if 3 ≤ (prot s p).keepFails
      then rillDown p (modProt p (fun x => { x with rillCrc := x.rillCrc + 1, keepFails := x.keepFails + 1 }) s)
      else modProt p (fun x => { x with rillCrc := x.rillCrc + 1, keepFails := x.keepFails + 1 }) s := by
  unfold rillFailed
  dsimp only
  rw [modProt_congr (g := fun x => { x with rillCrc := x.rillCrc + 1, keepFails := x.keepFails + 1 }) (by simp [hq]),
    prot_modProt_self, hq]
  exact if_congr Nat.succ_le_succ_iff rfl rfl

theorem exec_rillMessage {m : RillMsg} {rest : List RillMsg} (hi : s.inj.entries = [])
    (hq : (prot s p).rillQ = m :: rest) (hc : rillCarries s p = true) (crcOk : Bool) :
    exec (.rillMessage p crcOk) s = .next (if crcOk
      then modProt p (fun x => applyMsg m { x with rillQ := rest })
        (recordWritten (standbyCode s p) m.record (modProt p (fun x => { x with keepFails := 0 }) s))
      else rillFailed p (modProt p (fun x => { x with keepFails := 0 }) s)) := by
  change execRillMessage p crcOk s = _
  unfold execRillMessage
  dsimp only
  rw [hq]
  dsimp only
  rw [hc, occurrence_none (s := modProt p (fun x => { x with keepFails := 0 }) s) (injIndex_disarmed hi ..)]
  cases crcOk with
  | true => rfl
  | false => rfl

theorem exec_rillKeepalive (hi : s.inj.entries = []) (hq : (prot s p).rillQ = []) (hc : rillCarries s p = true)
    (crcOk : Bool) :
    exec (.rillKeepalive { plane := p, crcOk }) s =
      .next (if crcOk then modProt p (fun x => { x with keepFails := 0 }) s else rillFailed p s) := by
  change execRillKeepalive { plane := p, crcOk } s = _
  unfold execRillKeepalive
  dsimp only
  rw [hc, hq, occurrence_none (injIndex_disarmed hi ..)]
  cases crcOk with
  | true => rfl
  | false => rfl

/-- A trained link that has held comes UP, and a STALE standby then takes a full copy. -/
theorem exec_rillUp (hp : p ≤ 1) (hd : (prot s p).rillUp = false) (hh : (prot s p).rillHeld = true)
    (hl : lineRuns p s = true) :
    exec (.rillUp p) s = .next (if engineStatus s (standbyCode s p) = 3
      then setMirror p 2 none
        (copyAgain p (modProt p (fun x => { x with rillUp := true, rillHeld := false, keepFails := 0 }) s))
      else modProt p (fun x => { x with rillUp := true, rillHeld := false, keepFails := 0 }) s) :=
  (if_pos ⟨hp, by simp [hd], hh, hl⟩).trans (apply_ite ..).symm

/-! ### Engine faults (R258) -/

/-- A standby out of SYNC beside an active engine in SYNC fails the check of the mirror. -/
theorem mirrorOff_of_unsynced {e : Nat} (hst : (plane s (e / 16)).state = 2)
    (hh : (hunter s (engineKey e)).sync = false) : mirrorOff s e = true := by
  unfold mirrorOff
  dsimp only
  rw [hst, hh]
  rfl

theorem exec_mirrorCheckFail_unsynced {e : Nat} (he : isEngine e = true) (hs : e = standbyCode s (e / 16))
    (hst : (plane s (e / 16)).state = 2) (hl : lineRuns (e / 16) s = true)
    (hh : (hunter s (engineKey e)).sync = false) :
    exec (.mirrorCheckFail e 0) s = .next (engineFault false e 3 s) :=
  if_pos (by simp [he, ← hs, hst, hl, mirrorOff_of_unsynced hst hh])

/-! ### Role swaps (R259, R260) -/

/-- A pending swap takes place at a boundary that meets its conditions, the first one or one of the eight after it. -/
theorem exec_roleSwap_ready {origin : Nat} (hw : (prot s p).swap = some origin) (hp : p ≤ 1)
    (hst : (plane s p).state = 2) (ht : (prot s p).swapTries < 9) (hl : lineRuns p s = true)
    (hr : swapReady s p = true) : exec (.roleSwap p) s = .next (swapRoles p origin s) := by
  have hgo : ¬(1 < p ∨ (plane s p).state ≠ 2 ∨ 9 ≤ (prot s p).swapTries ∨ (!lineRuns p s) = true) := by
    simp [hst, hl]
    omega
  change execRoleSwap p s = _
  unfold execRoleSwap
  dsimp only
  rw [hw]
  dsimp only
  rw [if_neg hgo, if_pos hr]

/-! ### The commands, past their object checks (R271 to R273, R276) -/

variable {r : Req}

/-- The working port of a plane may be given again, and moved while the plane is stopped. -/
theorem protConfigAct_ok
    (h : u8 r.payload 1 = (prot s (u8 r.payload 0)).working ∨ (plane s (u8 r.payload 0)).state = 0) :
    protConfigAct r s = ok (judge (u8 r.payload 0) (causeOf r)
      (restartPeriod (u8 r.payload 0) (modProt (u8 r.payload 0) (fun x => { x with
        working := u8 r.payload 1
        mask := u8 r.payload 2
        revertive := u8 r.payload 3 == 1
        holdOff := u16 r.payload 4
        wtr := u16 r.payload 6
        period := u32 r.payload 8 }) s))) :=
  if_neg fun ⟨hw, hst⟩ => h.elim hw hst

/-- A swap to a CURRENT standby is scheduled, and its command is answered when the swap is. -/
theorem protSwapAct_later (hw : (prot s (u8 r.payload 0)).swap = none)
    (hb : (prot s (u8 r.payload 0)).lineBusy = false) (hd : (prot s (u8 r.payload 0)).switchDue = 0)
    (hst : (plane s (u8 r.payload 0)).state = 2) (he : engineStatus s (standbyCode s (u8 r.payload 0)) = 1) :
    protSwapAct r s = .later (modProt (u8 r.payload 0) (fun y => { y with swap := some 1, swapTries := 0 }) s) := by
  unfold protSwapAct
  dsimp only
  rw [hw, hb, hd, hst, he]
  rfl

theorem protLineAct_ok (hst : (plane s (u8 r.payload 0)).state ≠ 0)
    (hm : manualRefused s (u8 r.payload 0) (u8 r.payload 1) = false) :
    protLineAct r s = ok (judge (u8 r.payload 0) (causeOf r)
      (modProt (u8 r.payload 0) (fun x => { x with request := u8 r.payload 1 }) s)) :=
  if_neg fun h => h.elim hst (by simp [hm])

/-- A FAILED engine in service again: it holds no record yet, and a full copy to it starts (R257, R276). -/
def restoredEngine (code : Nat) (running : Bool) (s : State) : State :=
  copyAnew (code / 16) (modHunter (engineKey code) (fun _ => { running }) (setEngine code 2 (clearState code s)))

/-- An engine that passes its self-test waits for the copy, and is STALE at once where the Rill of a started plane is
DOWN. -/
theorem restoreAct_passed (he : engineStatus s (u8 r.payload 0) = 4) :
    restoreAct true r s = ok (
      if (plane s (u8 r.payload 0 / 16)).state ≠ 0 ∧ (prot s (u8 r.payload 0 / 16)).rillUp = false
      then setMirror (u8 r.payload 0 / 16) 3 (causeOf r)
        (restoredEngine (u8 r.payload 0) ((plane s (u8 r.payload 0 / 16)).state != 0) s)
      else restoredEngine (u8 r.payload 0) ((plane s (u8 r.payload 0 / 16)).state != 0) s) := by
  unfold restoreAct
  dsimp only
  rw [if_neg (not_not_intro he), if_neg (by decide)]
  simp only [Bool.and_eq_true, bne_iff_ne, Bool.not_eq_true']
  rfl

theorem exec_protEngineRestore_passed (h : Accepts restoreSpec s r) (he : engineStatus s (u8 r.payload 0) = 4) :
    exec (.protEngineRestore true) s = .next (answered r stOk [] (
      if (plane s (u8 r.payload 0 / 16)).state ≠ 0 ∧ (prot s (u8 r.payload 0 / 16)).rillUp = false
      then setMirror (u8 r.payload 0 / 16) 3 (causeOf r)
        (restoredEngine (u8 r.payload 0) ((plane s (u8 r.payload 0 / 16)).state != 0) (takeUp r s))
      else restoredEngine (u8 r.payload 0) ((plane s (u8 r.payload 0 / 16)).state != 0) (takeUp r s))) := by
  refine congrArg Host.Outcome.next ((serve_accepts h (restoreAct true)).trans ?_)
  rw [restoreAct_passed (by rwa [engineStatus_takeUp]), conclude_ok, plane_takeUp, prot_takeUp]

end

/-! ### The obligations -/

/-- Settles O27: each event under its condition, and a failed message of the Rill as a change or a keep-alive. -/
theorem protectionEventsComplete : Obligations.ProtectionEventsComplete := by
  unfold Obligations.ProtectionEventsComplete
  refine ⟨fun s p m rest hi hq hc => exec_rillMessage hi hq hc true,
    fun s p m rest hi hq hc => exec_rillMessage hi hq hc false, fun s p m rest hq hm => rillFailed_resends hq hm,
    fun s p hi hq hc => exec_rillKeepalive hi hq hc true, fun s p hi hq hc => exec_rillKeepalive hi hq hc false,
    ?keepResent, ?keepDown, ?timeout, ?retrain, ?up, ?upStale, ?copied, ?watchdog,
    fun s e he hs hst hl hh => exec_mirrorCheckFail_unsynced he hs hst hl hh, ?period,
    fun s p origin hw hp hst ht hl hr => exec_roleSwap_ready hw hp hst ht hl hr, ?abandon, ?holdOff, ?wtr⟩
  case keepResent =>
    intro s p hq hk
    rw [rillFailed_keepAlive hq, if_neg (by omega)]
  case keepDown =>
    intro s p hq hk
    rw [rillFailed_keepAlive hq, if_pos hk]
  case timeout => exact fun s p hp hu hst hl => if_pos ⟨hp, hu, hst, hl⟩
  case retrain => exact fun s p v hp hd hl => if_pos ⟨hp, by simp [hd], hl⟩
  case up =>
    intro s p hp hd hh hl he
    rw [exec_rillUp hp hd hh hl, if_neg he]
  case upStale =>
    intro s p hp hd hh hl he
    rw [exec_rillUp hp hd hh hl, if_pos he]
    rfl
  case copied => exact fun s p hc he => if_pos (by simp [hc, he])
  case watchdog => exact fun s e he hst hh hl => if_pos (by simp [he, hst, hh, hl])
  case period => exact fun s p hp hr hl => if_pos (by simp [hp, hr, hl])
  case abandon => exact fun s p origin hw hp ht hl => if_pos ⟨hp, by simp [hw], .inl ht, hl⟩
  case holdOff => exact fun s p hp hst hr hw hl => ⟨_, rfl, if_pos ⟨hp, hst, hr, hw, hl⟩⟩
  case wtr => exact fun s p hp hst hr hw hl => ⟨_, rfl, if_pos ⟨hp, hst, hr, hw, hl⟩⟩

/-- Settles O28: each command past the object checks that its premises name. -/
theorem protectionCommandsComplete : Obligations.ProtectionCommandsComplete := by
  unfold Obligations.ProtectionCommandsComplete
  refine ⟨?config, ?swap, ?line, ?status, ?list, ?restored, ?restoredStale, fun s p => rfl⟩
  case config =>
    intro s r h hw
    refine congrArg Host.Outcome.next ((serve_accepts h protConfigAct).trans ?_)
    rw [protConfigAct_ok (by rwa [prot_takeUp, plane_takeUp]), conclude_ok]
  case swap =>
    intro s r h hw hb hd hst he
    refine congrArg Host.Outcome.next ((serve_accepts h protSwapAct).trans ?_)
    rw [protSwapAct_later (by simpa using hw) (by simpa using hb) (by simpa using hd) (by simpa using hst)
      (by simpa using he), conclude_later]
  case line =>
    intro s r h hst hm
    refine congrArg Host.Outcome.next ((serve_accepts h protLineAct).trans ?_)
    rw [protLineAct_ok (by simpa using hst) (by simpa using hm), conclude_ok]
  case status =>
    intro s r h
    refine congrArg Host.Outcome.next ((serve_accepts h protStatusAct).trans ?_)
    rw [protStatusAct, protStatusBytes_takeUp, conclude_okWith]
  case list =>
    intro s r h
    refine congrArg Host.Outcome.next ((serve_accepts h takeoverListAct).trans ?_)
    unfold takeoverListAct
    dsimp only
    rw [prot_takeUp, conclude_okWith]
  case restored =>
    intro s r h he hc
    rw [exec_protEngineRestore_passed h he, if_neg fun ⟨hst, hd⟩ => hc.elim hst (by simp [hd])]
    rfl
  case restoredStale =>
    intro s r h he hst hd
    rw [exec_protEngineRestore_passed h he, if_pos ⟨hst, hd⟩, bne_iff_ne.mpr hst]
    rfl

end Sys2Proof.Machine
end

section
/-!
PROOFS. The classifier's events (R289, R298, R301, R307): a first pass where no injection is armed, expiry, and the retirement
of the oldest version; from these the completion of its events.
-/
namespace Sys2Proof.Machine

section
variable {s : State}

/-! ### Counters of the classifier (R317) -/

theorem cnt_countCls (src off k : Nat) (s : State) :
    tget 0 (countCls src off k s).cls.cnt (src * 256 + off) = (tget 0 s.cls.cnt (src * 256 + off) + k) % 2 ^ 48 := by
  unfold countCls modCls
  dsimp only
  rw [tget_tmod, if_pos rfl]

/-! ### Passes and expiry (R289, R298, R307) -/

/-- Without an injection armed, an item whose FIFO line is good takes its first pass as it stands. -/
theorem exec_clsPass0_disarmed {n : Nat} {i : ClsItem} (he : s.inj.entries = []) (hi : itemIn s n 0 = some i)
    (hr : basinsRun s = true) (hb : i.lineBad = none) : exec (.clsPass0 n) s = .next (passZero i false s) := by
  change execClsPass0 n s = _
  unfold execClsPass0
  rw [hi]
  dsimp only
  rw [hr, if_neg (by decide), hb, occurrence_none (injIndex_disarmed he ..)]
  rfl

theorem exec_clsPass1_inPass1 {n : Nat} {i : ClsItem} (hi : itemIn s n 1 = some i) (hr : basinsRun s = true) :
    exec (.clsPass1 n) s = .next (passOne i s) := by
  change execClsPass1 n s = _
  unfold execClsPass1
  rw [hi]
  exact if_pos hr

/-- The state once an item has expired: the item is gone and counted, and in expired_waits too where it awaited its second
pass (R307, R434). -/
def expired (i : ClsItem) (n : Nat) (s : State) : State :=
  let s1 := countCls i.source 112 1 (dropItem n s)
  if i.pass = 1 then { s1 with cip := { s1.cip with expired := (s1.cip.expired + 1) % 2 ^ 48 } } else s1

theorem exec_clsExpiry_found {n : Nat} {i : ClsItem} (hi : (s.cls.items.find? fun x => x.id == n) = some i)
    (hr : basinsRun s = true) : exec (.clsExpiry n) s = .next (drainAll i.source i.portId (expired i n s)) := by
  change execClsExpiry n s = _
  unfold execClsExpiry
  rw [hi]
  exact if_pos hr

theorem expired_of_notWaiting {i : ClsItem} (hp : i.pass ≠ 1) (n : Nat) (s : State) :
    expired i n s = countCls i.source 112 1 (dropItem n s) := if_neg hp

theorem expired_of_waiting {i : ClsItem} (hp : i.pass = 1) (n : Nat) (s : State) :
    expired i n s = { countCls i.source 112 1 (dropItem n s) with
      cip := { s.cip with expired := (s.cip.expired + 1) % 2 ^ 48 } } := if_pos hp

/-! ### Versions (R301) -/

/-- The oldest version retires once no frame that entered under it remains, and the commit of the next one is complete. -/
theorem exec_versionRetired_unused {vs : List Version} {v old : Version} (hv : s.cls.versions = vs ++ [v, old])
    (hn : inVersion s old.num = 0) :
    exec .versionRetired s = .next (raise 0x0801 v.num (le 4 old.num ++ le 4 v.rules ++ le 8 v.time.toNat) v.cause
      (modCls (fun c => { c with
        versions := (vs ++ [v]).map fun x => if x.num = v.num then { x with done := true } else x }) s)) := by
  have hrev : s.cls.versions.reverse = old :: v :: vs.reverse := by simp [hv]
  have hdrop : s.cls.versions.dropLast = vs ++ [v] := by simp [hv]
  change execVersionRetired s = _
  unfold execVersionRetired
  rw [hrev]
  dsimp only
  rw [if_neg (not_not_intro hn), hdrop]

end

/-! ### The obligation -/

/-- Settles O29: each event under its condition; an expiry counts a wait where the item awaited its second pass. -/
theorem classifierEventsComplete : Obligations.ClassifierEventsComplete := by
  unfold Obligations.ClassifierEventsComplete
  refine ⟨fun s n i he hi hr hb => exec_clsPass0_disarmed he hi hr hb, fun s n i hi hr => exec_clsPass1_inPass1 hi hr,
    ?expiry, ?expiryWaiting, fun s vs v old hv hn => ⟨_, exec_versionRetired_unused hv hn, rfl, rfl⟩⟩
  case expiry =>
    intro s n i hi hr hp
    rw [exec_clsExpiry_found hi hr, expired_of_notWaiting hp]
  case expiryWaiting =>
    intro s n i hi hr hp
    refine ⟨_, exec_clsExpiry_found hi hr, ?_⟩
    rw [expired_of_waiting hp]
    exact ⟨rfl, cnt_countCls .., rfl⟩

end Sys2Proof.Machine
end

section
/-!
PROOFS. The classifier's commands (R299 to R303, R310 to R317): what a change of the draft, a commit, and a read of the
oldest copy do once their object checks have passed; from these the completion of the commands.
-/
namespace Sys2Proof.Machine

section
variable {s : State} {r : Req}

/-! ### Changes of the draft (R299, R302, R310 to R312) -/

/-- The draft with its rule entry rewritten: the entry's master is the one that this write has left (R400, R403). -/
def ruleWritten (r : Req) (s : State) : State :=
  draftChange r (u16 r.payload 0) (fun t => { t with rules := tset t.rules (u16 r.payload 0) (ruleOf r) })
    (modCls (fun c => { c with
      badMasters := (c.badMasters.filter fun e => e.1 != u16 r.payload 0) ++
        ((writeLine 0 s).1.map fun inj => (u16 r.payload 0, inj)).toList }) (writeLine 0 s).2)

theorem ruleAct_allowed (hd : mayDraft r s = true)
    (hc : ∀ x, tfind s.cls.draft.rules (u16 r.payload 0) = some x → mayChange r x.client = true)
    (hl : (dirtyRules s).length < 8192) : ruleAct r s = ok (ruleWritten r s) := by
  have hown : ((tfind s.cls.draft.rules (u16 r.payload 0)).map fun x => !mayChange r x.client).getD false = false := by
    cases hx : tfind s.cls.draft.rules (u16 r.payload 0) with
    | none => rfl
    | some x => simp [hc x hx]
  unfold ruleAct
  dsimp only
  rw [hd, if_neg (by decide), hown, if_neg (by decide), if_neg fun h => Nat.not_le.mpr hl h.2]
  rfl

theorem profileAct_allowed (hd : mayDraft r s = true) :
    profileAct r s = ok (draftChange r (0x10000 + u8 r.payload 0)
      (fun t => { t with profiles := tset t.profiles (u8 r.payload 0) (extractorsOf r.payload) }) s) :=
  if_neg (by simp [hd])

theorem clsSourceAct_allowed (hd : mayDraft r s = true) :
    clsSourceAct r s = ok (draftChange r (0x10100 + u8 r.payload 0)
      (fun t => { t with sources := tset t.sources (u8 r.payload 0) {
        profile := u8 r.payload 1
        fcs := u8 r.payload 2 == 1
        noMatch := actionOf r.payload 8
        parseFail := actionOf r.payload 24 } }) s) :=
  if_neg (by simp [hd])

/-! ### RULE_COMMIT (R299, R302, R313) -/

theorem commitAct_commits (hd : mayDraft r s = true) (ha : u8 r.payload 0 = 1) (hn : s.cls.dirty ≠ [])
    (hv : s.cls.versions.length < 4) (hf : (dirtyRules s).length ≤ shadowFree s) :
    commitAct r s = okWith (commitBytes (dirtyRules s).length (commitPoint r s)) (commitPoint r s) := by
  unfold commitAct
  rw [hd, if_neg (by decide), ha, if_neg (by decide), if_neg fun h => h.elim (by omega) (by omega), if_neg hn]

/-- A discard reports the newest version, which it leaves as it is. -/
theorem commitAct_discards (hd : mayDraft r s = true) (ha : u8 r.payload 0 = 0) :
    commitAct r s = okWith (commitBytes 0 s) (freshDraft s) := by
  unfold commitAct
  rw [hd, if_neg (by decide), if_pos ha]
  rfl

/-! ### RULE_STATUS and RULE_READ (R303, R314, R315) -/

theorem ruleStatusAct_committed (hn : neverCommitted s (u32 r.payload 0) = false) :
    ruleStatusAct r s = .done s
      (if (liveVersion s (u32 r.payload 0)).isSome && olderLive s (u32 r.payload 0) then stVersionPending else stOk)
      (le 4 (u32 r.payload 0) ++ le 1 (versionState s (u32 r.payload 0)) ++ le 1 s.cls.versions.length ++ zeros 2 ++
        le 4 (newest s).num ++ le 4 (inVersion s (u32 r.payload 0)) ++ le 4 (shadowFree s)) :=
  if_neg (by simp [hn])

theorem ruleReadAct_draft (hw : u8 r.payload 2 = 0) :
    ruleReadAct r s = okWith (ruleBytes (u16 r.payload 0) 0xFFFFFFFF s.cls.draft s) s := by
  unfold ruleReadAct
  simp only [hw]

theorem ruleReadAct_newest (hw : u8 r.payload 2 = 1) :
    ruleReadAct r s = okWith (ruleBytes (u16 r.payload 0) (newest s).num (newest s).tables s) s := by
  unfold ruleReadAct
  simp only [hw]

theorem ruleReadAct_live {v : Version} (hw : u8 r.payload 2 = 2) (hn : neverCommitted s (u32 r.payload 4) = false)
    (hv : liveVersion s (u32 r.payload 4) = some v) :
    ruleReadAct r s = okWith (ruleBytes (u16 r.payload 0) v.num v.tables s) s := by
  unfold ruleReadAct
  simp only [hw]
  rw [hn, if_neg (by decide), hv]

/-! ### CLS_CP_RECV (R316, R400) -/

/-- Where the oldest copy of a queue has no line in error, a read discards none. -/
theorem goodCopies_of_good {n : Nat} (h : ((tget [] s.cls.copies n).head?.bind fun c => c.bad) = none) (fuel : Nat) :
    goodCopies n fuel s = s := by
  cases fuel with
  | zero => rfl
  | succ k =>
    unfold goodCopies
    rw [h]

theorem cpRecvAct_empty (hq : tget [] s.cls.copies (u8 r.payload 0) = []) :
    cpRecvAct r s = okWith (le 1 (u8 r.payload 0) ++ zeros 3 ++ le 2 (u16 r.payload 2) ++ zeros 18) s := by
  unfold cpRecvAct
  dsimp only
  rw [goodCopies_of_good (by rw [hq]; rfl), hq]

/-- A read that reaches the end of the oldest copy takes the copy from its queue. -/
theorem cpRecvAct_last {c : Copy} {rest : List Copy} (hq : tget [] s.cls.copies (u8 r.payload 0) = c :: rest)
    (hb : c.bad = none) (ho : u16 r.payload 2 < c.data.length) (he : c.data.length ≤ u16 r.payload 2 + 208) :
    cpRecvAct r s = okWith
      (le 1 (u8 r.payload 0) ++ le 1 (b2n (rest != []) + 2) ++ le 2 c.data.length ++ le 2 (u16 r.payload 2) ++
        le 1 (c.data.length - u16 r.payload 2) ++ zeros 1 ++ le 8 c.time.toNat ++ le 2 c.rule ++ zeros 6 ++
        c.data.drop (u16 r.payload 2))
      (modCls (fun x => { x with copies := tset x.copies (u8 r.payload 0) rest }) s) := by
  have hall : (c.data.drop (u16 r.payload 2)).take 208 = c.data.drop (u16 r.payload 2) :=
    List.take_of_length_le (by rw [List.length_drop]; omega)
  have hlast : (u16 r.payload 2 + (c.data.length - u16 r.payload 2) == c.data.length) = true := by
    rw [Nat.add_sub_cancel' ho.le]
    exact beq_self_eq_true _
  unfold cpRecvAct
  dsimp only
  rw [goodCopies_of_good (by rw [hq]; exact hb), hq]
  dsimp only
  rw [if_neg (Nat.not_le.mpr ho), hall, List.length_drop, hlast, if_pos rfl]
  rfl

end

/-! ### The obligation -/

/-- Settles O30: each command past the object checks that its premises name. -/
theorem classifierCommandsComplete : Obligations.ClassifierCommandsComplete := by
  unfold Obligations.ClassifierCommandsComplete
  refine ⟨?rule, ?profile, ?source, ?commit, ?discard, ?status, ?readDraft, ?readNewest, ?readLive, ?counters, ?recvEmpty,
    ?recvLast⟩
  case rule =>
    intro s r h hd hc hl
    refine ⟨_, rfl, congrArg Host.Outcome.next ((serve_accepts h ruleAct).trans ?_)⟩
    rw [ruleAct_allowed (by simpa using hd) (by simpa using hc) (by simpa using hl), conclude_ok]
    rfl
  case profile =>
    intro s r h hd
    refine congrArg Host.Outcome.next ((serve_accepts h profileAct).trans ?_)
    rw [profileAct_allowed (by simpa using hd), conclude_ok]
  case source =>
    intro s r h hd
    refine congrArg Host.Outcome.next ((serve_accepts h clsSourceAct).trans ?_)
    rw [clsSourceAct_allowed (by simpa using hd), conclude_ok]
  case commit =>
    intro s r h hd ha hn hv hf
    refine congrArg Host.Outcome.next ((serve_accepts h commitAct).trans ?_)
    rw [commitAct_commits (by simpa using hd) ha (by simpa using hn) (by simpa using hv) (by simpa using hf), conclude_okWith,
      dirtyRules_takeUp]
  case discard =>
    intro s r h hd ha
    refine congrArg Host.Outcome.next ((serve_accepts h commitAct).trans ?_)
    rw [commitAct_discards (by simpa using hd) ha, conclude_okWith, commitBytes_takeUp]
    unfold freshDraft modCls
    rw [takeUp_cls, newest_takeUp]
  case status =>
    intro s r h hn
    refine congrArg Host.Outcome.next ((serve_accepts h ruleStatusAct).trans ?_)
    rw [ruleStatusAct_committed (by simpa using hn), conclude_done]
    simp only [liveVersion_takeUp, olderLive_takeUp, versionState_takeUp, takeUp_cls, newest_takeUp, inVersion_takeUp,
      shadowFree_takeUp]
  case readDraft =>
    intro s r h hw
    refine congrArg Host.Outcome.next ((serve_accepts h ruleReadAct).trans ?_)
    rw [ruleReadAct_draft hw, ruleBytes_takeUp, takeUp_cls, conclude_okWith]
  case readNewest =>
    intro s r h hw
    refine congrArg Host.Outcome.next ((serve_accepts h ruleReadAct).trans ?_)
    rw [ruleReadAct_newest hw, ruleBytes_takeUp, newest_takeUp, conclude_okWith]
  case readLive =>
    intro s r v h hw hn hv
    refine congrArg Host.Outcome.next ((serve_accepts h ruleReadAct).trans ?_)
    rw [ruleReadAct_live hw (by simpa using hn) (by simpa using hv), ruleBytes_takeUp, conclude_okWith]
  case counters =>
    intro s r h
    refine congrArg Host.Outcome.next ((serve_accepts h clsCountersAct).trans ?_)
    rw [clsCountersAct, takeUp_cls, conclude_okWith]
  case recvEmpty =>
    intro s r h hq
    refine congrArg Host.Outcome.next ((serve_accepts h cpRecvAct).trans ?_)
    rw [cpRecvAct_empty (by rwa [takeUp_cls]), conclude_okWith]
  case recvLast =>
    intro s r c rest h hq hb ho he
    refine congrArg Host.Outcome.next ((serve_accepts h cpRecvAct).trans ?_)
    rw [cpRecvAct_last (by rwa [takeUp_cls]) hb ho he, conclude_okWith]

end Sys2Proof.Machine
end

section
/-!
PROOFS. The capture store (R342, R398): whatever flip masks and injections do to the codes of the blocks written, a write
changes the stored bytes that it names; from this what the store reads back.
-/
namespace Sys2Proof.Machine

/-! ### Writing blocks and units changes no stored byte -/

@[simp] theorem occurrence_cap (det target : Nat) (s : State) : (occurrence det target s).2.cap = s.cap := by
  obtain ⟨o, r, l, j, h⟩ := occurrence_form det target s
  rw [h]

@[simp] theorem symbolsHit_cap (outer inner : Nat) (s : State) : (symbolsHit outer inner s).2.cap = s.cap := by
  unfold symbolsHit
  split
  · rfl
  · rfl

@[simp] theorem blockWritten_cap (blk : Nat) (s : State) : (blockWritten blk s).cap = s.cap := by
  simp [blockWritten]

theorem blocksWritten_cap (l : List Nat) (s : State) : (l.foldl (fun x b => blockWritten b x) s).cap = s.cap := by
  induction l generalizing s with
  | nil => rfl
  | cons b l ih => rw [List.foldl_cons, ih, blockWritten_cap]

/-- Where no data unit is held under a key, there is none to be read through its key before a write in the clear. -/
theorem bareUnits_unkeyed {s : State} (h : s.cap.unitKey = []) (l : List Nat) : l.foldl bareUnit s = s := by
  have hone : ∀ u, bareUnit s u = s := by
    intro u
    unfold bareUnit
    rw [h]
    rfl
  induction l with
  | nil => rfl
  | cons u l ih => rw [List.foldl_cons, hone, ih]

/-! ### The store after a write -/

section
variable {key : Bytes} {s : State}

/-- The part of the state that holds the store, after the steps of a write that come before its bytes. -/
theorem preparedWrite_cap (hk : key ≠ [] ∨ s.cap.unitKey = []) (units blocks : List Nat) :
    (blocks.foldl (fun x b => blockWritten b x) (if key = [] then units.foldl bareUnit s else s)).cap = s.cap := by
  rw [blocksWritten_cap]
  split
  · next hclear => rw [bareUnits_unkeyed (hk.resolve_left (not_not_intro hclear))]
  · rfl

theorem storeWrite_store (hk : key ≠ [] ∨ s.cap.unitKey = []) (a : Nat) (bs : Bytes) :
    (storeWrite key a bs s).cap.store = Memory.writeBytes 0 s.cap.store a bs := by
  unfold storeWrite define
  dsimp only
  rw [preparedWrite_cap hk]

theorem storeWrite_undef (hu : s.cap.undef = []) (hk : key ≠ [] ∨ s.cap.unitKey = []) (a : Nat) (bs : Bytes) :
    (storeWrite key a bs s).cap.undef = [] := by
  unfold storeWrite define
  dsimp only
  rw [preparedWrite_cap hk, hu]
  rfl

/-! ### Reading a store of defined bytes -/

theorem storeByte_defined (hu : s.cap.undef = []) (a : Nat) : storeByte s a = Memory.read 0 s.cap.store a := by
  unfold storeByte
  rw [hu]
  rfl

theorem storePeek_defined (hu : s.cap.undef = []) (a n : Nat) : storePeek s a n = Memory.readBytes 0 s.cap.store a n :=
  if_pos hu

end

/-! ### The obligation -/

/-- Settles O60: a write leaves every byte defined, so the store reads as the memory that the bytes were written into. -/
theorem storeReadsBackWhatWasWritten : Obligations.StoreReadsBackWhatWasWritten := by
  unfold Obligations.StoreReadsBackWhatWasWritten
  intro key a bs s hu hk
  have hdef := storeWrite_undef hu hk a bs
  constructor
  · rw [storePeek_defined hdef, storeWrite_store hk, Memory.readBytes_writeBytes]
  · intro b hb
    rw [storeByte_defined hdef, storeByte_defined hu, storeWrite_store hk, Memory.read_writeBytes_outside _ _ _ _ _ hb]

end Sys2Proof.Machine
end

section
/-!
PROOFS. The capture commands (R340, R350 to R355): what each does once its object checks have passed, and how a capture
begins; from these the completion of the commands.
-/
namespace Sys2Proof.Machine

/-! ### What the transitions read of the state -/

theorem lowestFree_modBasin_takeUp (b : Nat) (f : Basin → Basin) (r : Req) (s : State) (n : Nat) :
    lowestFree (modBasin b f (takeUp r s)) n = lowestFree (modBasin b f s) n := by
  obtain ⟨m, h⟩ := takeUp_form r s
  rw [h]
  rfl

/-- A transition changes of the Basins only the state and the stop cause of the one that makes it. -/
theorem basin_setCapState (b new stopCause n : Nat) (cmd : Option Cause) (s : State) :
    basin (setCapState b new stopCause cmd s) n =
      if n = b then { basin s b with state := new, stopCause } else basin s n := by
  unfold setCapState
  obtain ⟨o, r, l, h⟩ := raise_form 0x0901 b (le 1 (basin s b).state ++ le 1 new ++ le 1 stopCause) cmd
    (modBasin b (fun x => { x with state := new, stopCause }) s)
  rw [h]
  exact basin_modBasin b n _ s

section
variable {s : State} {r : Req}

/-! ### CAP_CONFIG (R340, R352) -/

/-- A Basin with its new configuration and the buffer that CAP_CONFIG gives it. -/
def configured (r : Req) (g : List Nat) (s : State) : State :=
  modBasin (u8 r.payload 0) (fun y => { y with client := r.client, cfg := capCfgOf r.payload, buffer := g })
    (modBasin (u8 r.payload 0) (fun y => { y with buffer := [], segs := [] }) s)

theorem capConfigAct_allowed {g : List Nat} (hm : mayCapture r (basin s (u8 r.payload 0)) = true)
    (hst : (basin s (u8 r.payload 0)).state = 0 ∨ (basin s (u8 r.payload 0)).state = 1 ∨
      (basin s (u8 r.payload 0)).state = 5)
    (hg : lowestFree (modBasin (u8 r.payload 0) (fun y => { y with buffer := [], segs := [] }) s) (u32 r.payload 4) =
      some g) :
    capConfigAct r s = ok (setCapState (u8 r.payload 0) 1 0 (causeOf r)
      (releaseSegments (basin s (u8 r.payload 0)).buffer (configured r g s))) := by
  unfold capConfigAct
  dsimp only
  rw [hm, if_neg (by decide), if_neg (by omega), hg]
  rfl

theorem basin_configured (g : List Nat) :
    basin (configured r g s) (u8 r.payload 0) = { basin s (u8 r.payload 0) with
      client := r.client, cfg := capCfgOf r.payload, buffer := g, segs := [] } := by
  unfold configured
  rw [basin_modBasin, if_pos rfl, basin_modBasin, if_pos rfl]

/-! ### CAP_START (R340, R351) -/

/-- A Basin as CAP_START leaves it before it waits or runs, and the exports that its earlier capture leaves behind. -/
def restarted (b : Nat) (s : State) : State := outdate b (basin s b) (modBasin b freshBasin s)

/-- The object checks of CAP_START up to its storage slot. -/
structure MayStart (r : Req) (s : State) : Prop where
  client : mayCapture r (basin s (u8 r.payload 0)) = true
  ready : (basin s (u8 r.payload 0)).state = 1 ∨ (basin s (u8 r.payload 0)).state = 5
  hush : s.ctl.devState = .hush → (basin s (u8 r.payload 0)).cfg.mode = 1

theorem MayStart.takeUp (h : MayStart r s) : MayStart r (takeUp r s) :=
  ⟨by simpa using h.client, by simpa using h.ready, by simpa using h.hush⟩

theorem capStartAct_allowed (h : MayStart r s)
    (hk : (basin s (u8 r.payload 0)).cfg.encrypt = true →
      (slot s (basin s (u8 r.payload 0)).cfg.keySlot).state ≠ 0 ∧
      (slot s (basin s (u8 r.payload 0)).cfg.keySlot).state ≠ 2) :
    capStartAct r s =
      if (basin s (u8 r.payload 0)).cfg.trigMode = 1 ∨
          ((basin s (u8 r.payload 0)).cfg.trigMode = 2 ∧ (basin s (u8 r.payload 0)).cfg.startMask ≠ 0) then
        ok (setCapState (u8 r.payload 0) 2 0 (causeOf r) (restarted (u8 r.payload 0) s))
      else ok (beginCapture (u8 r.payload 0) (nowStamp (restarted (u8 r.payload 0) s)) (causeOf r)
        (restarted (u8 r.payload 0) s)) := by
  obtain ⟨hm, hst, hh⟩ := h
  unfold capStartAct
  dsimp only
  rw [hm, if_neg (by decide), if_neg (by omega), if_neg fun c => c.2 (hh c.1), if_neg fun c => (hk c.1).2 c.2,
    if_neg fun c => (hk c.1).1 c.2]
  rfl

theorem capStartAct_exhausted (h : MayStart r s) (he : (basin s (u8 r.payload 0)).cfg.encrypt = true)
    (hk : (slot s (basin s (u8 r.payload 0)).cfg.keySlot).state = 2) : capStartAct r s = fail stKeyExhausted s := by
  obtain ⟨hm, hst, hh⟩ := h
  unfold capStartAct
  dsimp only
  rw [hm, if_neg (by decide), if_neg (by omega), if_neg fun c => c.2 (hh c.1), if_pos ⟨he, hk⟩]

/-! ### How a capture begins (R331, R340) -/

theorem beginCapture_buffer {b : Nat} (hb : (basin s b).buffer ≠ []) (t : Stamp) (c : Option Cause) :
    beginCapture b t c s = putNote b (markDraft t 3 0xFF 0xFFFF 0 0)
      (putNote b (epochDraft 3 (setCapState b 3 0 c s)) (setCapState b 3 0 c s)) :=
  if_neg (by rwa [basin_setCapState, if_pos rfl])

theorem beginCapture_noBuffer {b : Nat} (hb : (basin s b).buffer = []) (t : Stamp) (c : Option Cause) :
    beginCapture b t c s = setCapState b 5 7 c (setCapState b 3 0 c s) :=
  if_pos (by rwa [basin_setCapState, if_pos rfl])

/-! ### CAP_STOP, CAP_RELEASE, CAP_WINDOW_MAP (R340, R349 to R351) -/

theorem capStopAct_allowed (hm : mayCapture r (basin s (u8 r.payload 0)) = true)
    (hst : (basin s (u8 r.payload 0)).state = 2 ∨ (basin s (u8 r.payload 0)).state = 3 ∨
      (basin s (u8 r.payload 0)).state = 4) :
    capStopAct r s = ok (stopCapture (u8 r.payload 0) 1 (causeOf r) s) := by
  unfold capStopAct
  dsimp only
  rw [hm, if_neg (by decide), if_neg (by omega)]

theorem capReleaseAct_allowed (hm : mayCapture r (basin s (u8 r.payload 0)) = true)
    (hu : capInUse s (u8 r.payload 0) = false)
    (hst : (basin s (u8 r.payload 0)).state = 1 ∨ (basin s (u8 r.payload 0)).state = 5) :
    capReleaseAct r s = ok (releaseSegments (basin s (u8 r.payload 0)).buffer
      (setCapState (u8 r.payload 0) 0 0 (causeOf r)
        (modBasin (u8 r.payload 0) (fun y => { y with buffer := [], segs := [] }) s))) := by
  unfold capReleaseAct
  dsimp only
  rw [hm, if_neg (by decide), hu, if_neg (by decide), if_neg (by omega)]

theorem windowAct_unmaps (hg : u32 r.payload 4 = 0xFFFFFFFF) :
    windowAct r s = ok { s with cap := { s.cap with windows := tdel s.cap.windows (u8 r.payload 0) } } := if_pos hg

theorem windowAct_maps (hg : u32 r.payload 4 < segCount s) (hn : u32 r.payload 4 ≠ 0xFFFFFFFF) :
    windowAct r s = ok { s with
      cap := { s.cap with windows := tset s.cap.windows (u8 r.payload 0) (u32 r.payload 4) } } := by
  unfold windowAct
  dsimp only
  rw [if_neg hn, if_neg (Nat.not_le.mpr hg)]

end

/-! ### The obligation -/

/-- Settles O31: each command past the object checks that its premises name, and a capture that begins by its buffer. -/
theorem captureCommandsComplete : Obligations.CaptureCommandsComplete := by
  unfold Obligations.CaptureCommandsComplete
  refine ⟨?config, ?begins, fun s b t c hb => ⟨_, rfl, beginCapture_buffer hb t c⟩,
    fun s b t c hb => beginCapture_noBuffer hb t c, ?waits, ?exhausted, ?stop, ?trigger, ?release, ?status, ?segments,
    ?unmap, ?map⟩
  case config =>
    intro s r g h hm hst hg
    refine ⟨configured r g (takeUp r s), congrArg Host.Outcome.next ((serve_accepts h capConfigAct).trans ?_), ?_⟩
    · rw [capConfigAct_allowed (by simpa using hm) (by simpa using hst) (by rwa [lowestFree_modBasin_takeUp]),
        basin_takeUp, conclude_ok]
    · rw [basin_configured]
      exact ⟨rfl, rfl, rfl⟩
  case begins =>
    intro s r h hm hst hh hk ht
    refine ⟨restarted (u8 r.payload 0) (takeUp r s), by rw [restarted, basin_takeUp],
      congrArg Host.Outcome.next ((serve_accepts h capStartAct).trans ?_)⟩
    rw [capStartAct_allowed (MayStart.takeUp ⟨hm, hst, hh⟩) (by simpa using hk), basin_takeUp, if_neg (by omega),
      conclude_ok]
  case waits =>
    intro s r h hm hst hh hk ht
    refine ⟨restarted (u8 r.payload 0) (takeUp r s), by rw [restarted, basin_takeUp],
      congrArg Host.Outcome.next ((serve_accepts h capStartAct).trans ?_)⟩
    rw [capStartAct_allowed (MayStart.takeUp ⟨hm, hst, hh⟩) (by simpa using hk), basin_takeUp, if_pos ht, conclude_ok]
  case exhausted =>
    intro s r h hm hst hh he hk
    refine congrArg Host.Outcome.next ((serve_accepts h capStartAct).trans ?_)
    rw [capStartAct_exhausted (MayStart.takeUp ⟨hm, hst, hh⟩) (by simpa using he) (by simpa using hk), conclude_fail]
  case stop =>
    intro s r h hm hst
    refine congrArg Host.Outcome.next ((serve_accepts h capStopAct).trans ?_)
    rw [capStopAct_allowed (by simpa using hm) (by simpa using hst), conclude_ok]
  case trigger =>
    intro s r h
    refine congrArg Host.Outcome.next ((serve_accepts h capTriggerAct).trans ?_)
    rw [capTriggerAct, nowStamp_takeUp, conclude_ok]
  case release =>
    intro s r h hm hu hst
    refine congrArg Host.Outcome.next ((serve_accepts h capReleaseAct).trans ?_)
    rw [capReleaseAct_allowed (by simpa using hm) (by simpa using hu) (by simpa using hst), basin_takeUp, conclude_ok]
  case status =>
    intro s r h
    refine congrArg Host.Outcome.next ((serve_accepts h capStatusAct).trans ?_)
    rw [capStatusAct, basin_takeUp, conclude_okWith]
  case segments =>
    intro s r h
    refine ⟨_, rfl, congrArg Host.Outcome.next ((serve_accepts h capSegmentsAct).trans ?_)⟩
    rw [capSegmentsAct, basin_takeUp, conclude_okWith]
  case unmap =>
    intro s r h hg
    refine congrArg Host.Outcome.next ((serve_accepts h windowAct).trans ?_)
    rw [windowAct_unmaps hg, takeUp_cap, conclude_ok]
  case map =>
    intro s r h hg hn
    refine congrArg Host.Outcome.next ((serve_accepts h windowAct).trans ?_)
    rw [windowAct_maps (by simpa using hg) hn, takeUp_cap, conclude_ok]

end Sys2Proof.Machine
end

section
/-!
PROOFS. The events of the Basins and the Weirs (R320, R328, R330, R331, R336, R337): an item of staging whose moment has
come, a GAP record by the room that is left, and a Weir's self-check where no injection is armed; from these the completion
of the events.
-/
namespace Sys2Proof.Machine

section
variable {s : State} {b n : Nat} {i : StageItem}

/-! ### Items of staging (R294, R320, R328) -/

theorem id_of_staged (hi : staged s b n = some i) : i.id = n := by
  simpa using List.find?_some hi

/-- A staged item whose moment has come is committed, unless a frame of an earlier tap burst is still to come. -/
theorem commitStaged_free (hi : staged s b n = some i) (hw : waitsBurst s b n = false) (ret : Bool) :
    commitStaged b ret i s = settleAll (putRec b) b (storeDecided (putRec b) b ret i (unstage b n s)) := by
  obtain rfl := id_of_staged hi
  unfold commitStaged
  rw [hw]
  rfl

/-- A frame of a later tap burst is due from now on. -/
theorem commitStaged_held (hi : staged s b n = some i) (hw : waitsBurst s b n = true) (ret : Bool) :
    commitStaged b ret i s = modBasin b (fun x => { x with staging := x.staging.map fun k =>
      if k.id = n then { k with due := some (k.due.getD ret) } else k }) s := by
  obtain rfl := id_of_staged hi
  unfold commitStaged
  rw [hw]
  simp only [beq_iff_eq, if_true]

theorem storeDecided_decided {d : Decision} (hd : i.decided = some d) (put : Draft → State → State) (ret : Bool) :
    storeDecided put b ret i s = storeItem put b d.rule d.cmode d.headN false d.trig ret i s := by
  unfold storeDecided
  rw [hd]

theorem storeDecided_undecided (hd : i.decided = none) (put : Draft → State → State) (ret : Bool) :
    storeDecided put b ret i s = storeItem put b 0xFFFE 0 0 true false ret i s := by
  unfold storeDecided
  rw [hd]

theorem exec_basinDecision_decided (hi : staged s b n = some i) (hd : i.decided.isSome = true)
    (hrec : recording (basin s b) = true) (hr : basinsRun s = true) (ret : Bool) :
    exec (.basinDecision b n ret) s = .next (commitStaged b ret i s) := by
  change execBasinDecision b n ret s = _
  unfold execBasinDecision
  rw [hi]
  dsimp only
  rw [hd, hrec, hr]
  rfl

/-- An item is late once its 2 µs have passed, and one that is still undecided then is committed. -/
theorem exec_stagingTimeout_undecided (hr : basinsRun s = true) (hi : staged (passDeadline b n s) b n = some i)
    (hd : i.decided = none) (hrec : recording (basin (passDeadline b n s) b) = true) (ret : Bool) :
    exec (.stagingTimeout b n ret) s = .next (commitStaged b ret i (passDeadline b n s)) := by
  have hrun : basinsRun (passDeadline b n s) = true := hr
  change execStagingTimeout b n ret s = _
  unfold execStagingTimeout
  dsimp only
  rw [if_pos hr, hi]
  dsimp only
  rw [hd, hrec, hrun]
  rfl

/-! ### FOLD windows, EPOCH and GAP records (R330, R331, R337) -/

theorem exec_foldWindowExpiry_recording (hrec : recording (basin s b) = true) (hr : basinsRun s = true) :
    exec (.foldWindowExpiry b) s = .next (closeRun (putRec b) b s) := if_pos (by rw [hrec, hr]; rfl)

theorem exec_epochSecond_recording (hrec : recording (basin s b) = true) (hr : basinsRun s = true) :
    exec (.epochSecond b) s = .next (putNote b (epochDraft 0 s) s) := if_pos (by rw [hrec, hr]; rfl)

theorem exec_gapWrite_recording (hrec : recording (basin s b) = true) (hr : basinsRun s = true) :
    exec (.gapWrite b) s = if bufferFull s b 0 then .next (stopFull b none s)
      else if lastRoom s b 0 then .next s
      else .next (settleBasin b (writeGap b s)) := if_pos (by rw [hrec, hr]; rfl)

/-- A buffer that has room for the records of a stop is not full. -/
theorem bufferFull_of_room {k : Nat} (hl : lastRoom s b k = false) : bufferFull s b k = false := by
  unfold bufferFull
  rw [hl, Bool.and_false]

theorem bufferFull_of_running {k : Nat} (hst : (basin s b).state = 3) (hl : lastRoom s b k = true) :
    bufferFull s b k = true := by
  unfold bufferFull
  rw [hst, hl]
  rfl

end

/-! ### Weirs (R336) -/

section
variable {s : State} {w : Nat}

theorem exec_weirNoReturn_busy (hb : weirBusy (weir s w) = true) (hr : basinsRun s = true) :
    exec (.weirNoReturn w) s = .next (fenceWeirOf false w 2 s) := if_pos (by rw [hb, hr]; rfl)

/-- Without an injection armed, a Weir fails its self-check only by itself. -/
theorem exec_weirSelfCheck_disarmed (he : s.inj.entries = []) (hr : basinsRun s = true) (hg : s.pwr.gated = false)
    (hf : (weir s w).fenced = false) (passed : Bool) :
    exec (.weirSelfCheck w passed) s = .next (if passed then s else fenceWeirOf false w 1 s) := by
  change execWeirSelfCheck w passed s = _
  unfold execWeirSelfCheck
  rw [hr, hg, hf, occurrence_none (injIndex_disarmed he ..)]
  cases passed with
  | true => rfl
  | false => rfl

end

/-! ### The obligation -/

/-- Settles O32: each event under its condition; a staged item is committed, or waits for the tap bursts before its own. -/
theorem captureEventsComplete : Obligations.CaptureEventsComplete := by
  unfold Obligations.CaptureEventsComplete
  refine ⟨?decided, ?timedOut, ?decidedWaits, ?timedOutWaits, fun s b hrec hr => exec_foldWindowExpiry_recording hrec hr,
    fun s b hrec hr => exec_epochSecond_recording hrec hr, ?gap, ?gapFull, fun s w hb hr => exec_weirNoReturn_busy hb hr,
    fun s w he hr hg hf => exec_weirSelfCheck_disarmed he hr hg hf false,
    fun s w he hr hg hf => exec_weirSelfCheck_disarmed he hr hg hf true⟩
  case decided =>
    intro s b n i d ret hi hd hrec hr hw
    rw [exec_basinDecision_decided hi (by rw [hd]; rfl) hrec hr, commitStaged_free hi hw, storeDecided_decided hd]
  case timedOut =>
    rintro s _ b n i ret hr rfl hi hd hrec hw
    rw [exec_stagingTimeout_undecided hr hi hd hrec, commitStaged_free hi hw, storeDecided_undecided hd]
  case decidedWaits =>
    intro s b n i ret hi hd hrec hr hw
    rw [exec_basinDecision_decided hi hd hrec hr, commitStaged_held hi hw]
  case timedOutWaits =>
    rintro s _ b n i ret hr rfl hi hd hrec hw
    rw [exec_stagingTimeout_undecided hr hi hd hrec, commitStaged_held hi hw]
  case gap =>
    intro s b hrec hr hl
    rw [exec_gapWrite_recording hrec hr, bufferFull_of_room hl, hl]
    rfl
  case gapFull =>
    intro s b hrec hr hl hst
    rw [exec_gapWrite_recording hrec hr, bufferFull_of_running hst hl]
    rfl

end Sys2Proof.Machine
end

section
/-!
PROOFS. The exports (R343 to R348, R351, R353): the two commands past their object checks, and a send by what is in flight
or lost; from these the completion of the exports.
-/
namespace Sys2Proof.Machine

/-! ### CAP_EXPORT and CAP_EXPORT_STOP (R346, R351, R353) -/

section
variable {s : State} {r : Req}

theorem capExportAct_allowed {e : Nat} (hm : mayCapture r (basin s (u8 r.payload 0)) = true)
    (hst : (basin s (u8 r.payload 0)).state ≠ 0)
    (hring : u8 r.payload 1 ≠ 0 ∨ ringRefusal s (u8 r.payload 2) false = none)
    (he : ((List.range 8).find? fun x => (tfind s.cap.exports x).isNone) = some e) :
    capExportAct r s = okWith (le 1 e ++ zeros 3)
      (exportMoved e (modExport e (fun _ => exportOf r (basin s (u8 r.payload 0))) s)) := by
  have hfree : ¬(u8 r.payload 1 = 0 ∧ (ringRefusal s (u8 r.payload 2) false).isSome = true) := by
    rintro ⟨hroute, hrefused⟩
    rw [hring.resolve_left (not_not_intro hroute)] at hrefused
    contradiction
  unfold capExportAct
  dsimp only
  rw [hm, if_neg (by decide), if_neg hst, if_neg hfree, he]

theorem exportStopAct_allowed {x : Export} (hx : tfind s.cap.exports (u8 r.payload 0) = some x)
    (hm : mayChange r x.client = true) :
    exportStopAct r s = if inFlight x
      then ok (modExport (u8 r.payload 0) (fun y => { y with stopping := true }) s)
      else ok (exportDone false (u8 r.payload 0) 1 s) := by
  unfold exportStopAct
  dsimp only
  rw [hx]
  dsimp only
  rw [hm, if_neg (by decide)]

end

/-! ### When records are there to send (R346, R347) -/

section
variable {s : State} {e : Nat}

theorem stale_of_exportHas {x : Export} (h : exportHas s x = true) : x.stale = none := by
  simp only [exportHas, Bool.and_eq_true, Option.isNone_iff_eq_none] at h
  obtain ⟨⟨⟨⟨hs, -⟩, -⟩, -⟩, -⟩ := h
  exact hs

theorem exportHas_of_mayRead (h : mayRead e s = true) : exportHas s (export_ s e) = true := by
  simp only [mayRead, Bool.and_eq_true] at h
  obtain ⟨⟨-, hh⟩, -⟩ := h
  exact hh

/-! ### EXPORT_RECORD_SEND (R343 to R348) -/

/-- One of the exports, with its DMA channel running, while the capture engines run. -/
structure MaySend (s : State) (e : Nat) : Prop where
  found : (tfind s.cap.exports e).isSome = true
  runs : basinsRun s = true
  channel : channelHalted s (e % 2) e = false

/-- A send by what is in flight, and by whether a new capture has left the records behind. -/
theorem exec_exportRecordSend (h : MaySend s e) : exec (.exportRecordSend e) s =
    if inFlight (export_ s e) then .next (sendOnce e s)
    else if (export_ s e).stale.isSome then .next (exportRenew e (((export_ s e).stale.map Prod.fst).getD 0) s)
    else if exportLost s (export_ s e) then .next (segmentRead e (exportMoved e (nextRecord e s).2))
    else if (export_ s e).compress && (export_ s e).charged &&
        readingOrd s (export_ s e) == some (export_ s e).chargedSeg && exportHas s (export_ s e) then
      .next (throughJobWeir e (sendOnce e) s)
    else if !(export_ s e).compress && mayRead e s then .next (sendOnce e s)
    else .next (segmentRead e s) := by
  obtain ⟨hx, hr, hc⟩ := h
  have hnone : (tfind s.cap.exports e).isNone = false := by rw [Option.isNone_eq_false_iff, hx]
  exact if_neg (by rw [hnone, hr, hc]; decide)

theorem exec_exportRecordSend_inFlight (h : MaySend s e) (hf : inFlight (export_ s e) = true) :
    exec (.exportRecordSend e) s = .next (sendOnce e s) := by
  rw [exec_exportRecordSend h, if_pos hf]

/-- Where a new capture has discarded the records still to be sent, they are skipped. -/
theorem exec_exportRecordSend_stale (h : MaySend s e) (hf : inFlight (export_ s e) = false) {q i : BitVec 32}
    (hs : (export_ s e).stale = some (q, i)) : exec (.exportRecordSend e) s = .next (exportRenew e q s) := by
  rw [exec_exportRecordSend h, hf, if_neg (by decide), hs]
  rfl

theorem exec_exportRecordSend_lost (h : MaySend s e) (hf : inFlight (export_ s e) = false)
    (hs : (export_ s e).stale = none) (hl : exportLost s (export_ s e) = true) :
    exec (.exportRecordSend e) s = .next (segmentRead e (exportMoved e (nextRecord e s).2)) := by
  rw [exec_exportRecordSend h, hf, if_neg (by decide), hs, if_neg (by decide), if_pos hl]

/-- A compression job sends through its Weir while it reads the segment that has been charged. -/
theorem exec_exportRecordSend_compressed (h : MaySend s e) (hf : inFlight (export_ s e) = false)
    (hl : exportLost s (export_ s e) = false) (hz : (export_ s e).compress = true) (hc : (export_ s e).charged = true)
    (ho : readingOrd s (export_ s e) = some (export_ s e).chargedSeg) (hh : exportHas s (export_ s e) = true) :
    exec (.exportRecordSend e) s = .next (throughJobWeir e (sendOnce e) s) := by
  rw [exec_exportRecordSend h, hf, if_neg (by decide), stale_of_exportHas hh, if_neg (by decide), hl, if_neg (by decide),
    if_pos (by simp [hz, hc, ho, hh])]

theorem exec_exportRecordSend_plain (h : MaySend s e) (hf : inFlight (export_ s e) = false)
    (hl : exportLost s (export_ s e) = false) (hz : (export_ s e).compress = false) (hm : mayRead e s = true) :
    exec (.exportRecordSend e) s = .next (sendOnce e s) := by
  rw [exec_exportRecordSend h, hf, if_neg (by decide), stale_of_exportHas (exportHas_of_mayRead hm), if_neg (by decide),
    hl, if_neg (by decide), hz, if_neg (by simp), hm]
  rfl

theorem exportRenew_follows (hfo : (export_ s e).follow = true) (hz : (export_ s e).compress = false) (q : BitVec 32) :
    exportRenew e q s = modExport e (fun y => { y with stale := none, nextSeq := 0 }) (exportSkip e q s) := by
  unfold exportRenew
  dsimp only
  rw [if_pos hfo, hz]
  rfl

theorem exportRenew_ends (hfo : (export_ s e).follow = false) (q : BitVec 32) :
    exportRenew e q s = exportDone false e 0 (exportSkip e (export_ s e).endSeq s) := by
  unfold exportRenew
  dsimp only
  rw [hfo]
  rfl

end

/-! ### The obligation -/

/-- Settles O33: each command past its object checks, and each send by the first of its conditions that holds. -/
theorem exportsComplete : Obligations.ExportsComplete := by
  unfold Obligations.ExportsComplete
  refine ⟨?start, ?stop, ?stopInFlight, fun s e hx hr hc hf => exec_exportRecordSend_inFlight ⟨hx, hr, hc⟩ hf,
    fun s e hx hr hc hf hl hz hm => exec_exportRecordSend_plain ⟨hx, hr, hc⟩ hf hl hz hm,
    fun s e hx hr hc hf hl hz hch ho hh => exec_exportRecordSend_compressed ⟨hx, hr, hc⟩ hf hl hz hch ho hh,
    fun s e hx hr hc hf hs hl => exec_exportRecordSend_lost ⟨hx, hr, hc⟩ hf hs hl, ?follows, ?ends, ?holdExpiry⟩
  case start =>
    intro s r e h hm hst hring he
    refine congrArg Host.Outcome.next ((serve_accepts h capExportAct).trans ?_)
    rw [capExportAct_allowed (by simpa using hm) (by simpa using hst) (by simpa using hring) (by simpa using he),
      basin_takeUp, conclude_okWith]
  case stop =>
    intro s r x h hx hm hf
    refine congrArg Host.Outcome.next ((serve_accepts h exportStopAct).trans ?_)
    rw [exportStopAct_allowed (by rwa [takeUp_cap]) hm, hf, if_neg (by decide), conclude_ok]
  case stopInFlight =>
    intro s r x h hx hm hf
    refine congrArg Host.Outcome.next ((serve_accepts h exportStopAct).trans ?_)
    rw [exportStopAct_allowed (by rwa [takeUp_cap]) hm, if_pos hf, conclude_ok]
  case follows =>
    intro s e q i hx hr hc hf hs hfo hz
    rw [exec_exportRecordSend_stale ⟨hx, hr, hc⟩ hf hs, exportRenew_follows hfo hz]
  case ends =>
    intro s e q i hx hr hc hf hs hfo
    rw [exec_exportRecordSend_stale ⟨hx, hr, hc⟩ hf hs, exportRenew_ends hfo]
  case holdExpiry =>
    intro s e hx hh hr
    exact if_pos (by rw [hx, hh, hr]; rfl)

end Sys2Proof.Machine
end

section
/-!
PROOFS. The Aster commands (R374 to R379): each past its object checks; from these the completion of the commands.
-/
namespace Sys2Proof.Machine

section
variable {s : State} {r : Req}

/-! ### KERNEL_LOAD (R374) -/

/-- The checks of KERNEL_LOAD that all of its actions share: the client may change the slot, and no job uses it. -/
structure MayLoad (r : Req) (s : State) : Prop where
  client : (kernel s (u8 r.payload 0)).len = 0 ∨ mayChange r (kernel s (u8 r.payload 0)).client = true
  idle : kernelBusy s (u8 r.payload 0) = false

theorem MayLoad.takeUp (h : MayLoad r s) : MayLoad r (takeUp r s) :=
  ⟨by simpa using h.client, by simpa using h.idle⟩

theorem MayLoad.not_denied (h : MayLoad r s) :
    ¬((kernel s (u8 r.payload 0)).len ≠ 0 ∧ (!mayChange r (kernel s (u8 r.payload 0)).client) = true) := by
  rintro ⟨hlen, hdenied⟩
  rw [h.client.resolve_left hlen] at hdenied
  contradiction

theorem MayLoad.not_busy (h : MayLoad r s) : ¬kernelBusy s (u8 r.payload 0) = true := by
  rw [h.idle]
  exact Bool.false_ne_true

theorem kernelAct_begins (h : MayLoad r s) (ha : u8 r.payload 1 = 0) :
    kernelAct r s = ok (setKernel (u8 r.payload 0) { client := r.client, len := u32 r.payload 4 } s) := by
  unfold kernelAct
  dsimp only
  rw [if_neg h.not_denied, if_neg h.not_busy, ha]
  rfl

/-- Data go to the next unwritten byte, as one write that an armed flip mask acts on (R374, log 56). -/
theorem kernelAct_appends (h : MayLoad r s) (ha : u8 r.payload 1 = 1)
    (hu : (kernel s (u8 r.payload 0)).usable = false)
    (hnext : u32 r.payload 4 = (kernel s (u8 r.payload 0)).data.length)
    (hfit : (kernel s (u8 r.payload 0)).data.length + u16 r.payload 2 ≤ (kernel s (u8 r.payload 0)).len) :
    kernelAct r s = ok (setKernel (u8 r.payload 0) { kernel s (u8 r.payload 0) with
      data := (kernel s (u8 r.payload 0)).data ++ slice r.payload 8 (u16 r.payload 2)
      bad := if (kernel s (u8 r.payload 0)).bad.isSome then (kernel s (u8 r.payload 0)).bad else (writeLine 0 s).1 }
      (writeLine 0 s).2) := by
  have hgood : ¬((kernel s (u8 r.payload 0)).usable = true ∨
      u32 r.payload 4 ≠ (kernel s (u8 r.payload 0)).data.length ∨
      (kernel s (u8 r.payload 0)).len < (kernel s (u8 r.payload 0)).data.length + u16 r.payload 2) :=
    not_or.mpr ⟨by rw [hu]; decide, not_or.mpr ⟨not_not_intro hnext, Nat.not_lt.mpr hfit⟩⟩
  unfold kernelAct
  dsimp only
  rw [if_neg h.not_denied, if_neg h.not_busy, ha]
  exact if_neg hgood

/-- An image that is complete, of good lines and of the CRC given becomes usable. -/
theorem kernelAct_ends (h : MayLoad r s) (ha : u8 r.payload 1 = 2) (hb : (kernel s (u8 r.payload 0)).bad = none)
    (hlen : (kernel s (u8 r.payload 0)).len ≠ 0)
    (hfull : (kernel s (u8 r.payload 0)).data.length = (kernel s (u8 r.payload 0)).len)
    (hcrc : crc32c (kernel s (u8 r.payload 0)).data = u32 r.payload 4) :
    kernelAct r s = ok (setKernel (u8 r.payload 0) { kernel s (u8 r.payload 0) with usable := true } s) := by
  unfold kernelAct
  dsimp only
  rw [if_neg h.not_denied, if_neg h.not_busy, ha, hb]
  exact if_pos ⟨hlen, hfull, hcrc⟩

/-! ### JOB_SUBMIT (R375, R378) -/

theorem maySubmit_iff : maySubmit r s = true ↔
    ((basin s (u8 r.payload 12)).state = 0 ∨ mayChange r (basin s (u8 r.payload 12)).client = true) ∧
    ((kernel s (u8 r.payload 0)).len = 0 ∨ mayChange r (kernel s (u8 r.payload 0)).client = true) := by
  simp only [maySubmit, Bool.and_eq_true, Bool.or_eq_true, beq_iff_eq]

theorem maySubmit_eq_false_iff : maySubmit r s = false ↔
    ((basin s (u8 r.payload 12)).state ≠ 0 ∧ mayChange r (basin s (u8 r.payload 12)).client = false) ∨
    ((kernel s (u8 r.payload 0)).len ≠ 0 ∧ mayChange r (kernel s (u8 r.payload 0)).client = false) := by
  rw [← Bool.not_eq_true, maySubmit_iff]
  simp only [not_and_or, not_or, Bool.not_eq_true, ne_eq]

theorem submitAct_denied (h : maySubmit r s = false) : submitAct r s = fail stDenied s := by
  unfold submitAct
  dsimp only
  rw [h]
  rfl

/-- The segments that a job reads. -/
def jobInput (r : Req) (s : State) : List Seg :=
  rangeSegs (basin s (u8 r.payload 12)) (u32 r.payload 16) (u32 r.payload 20)

theorem jobInput_takeUp : jobInput r (takeUp r s) = jobInput r s := by
  unfold jobInput
  rw [basin_takeUp]

/-- The object checks of JOB_SUBMIT but for the result segments. -/
structure Submittable (r : Req) (s : State) : Prop where
  client : maySubmit r s = true
  retained : (jobInput r s).length = u32 r.payload 20 - u32 r.payload 16 + 1
  closed : ∀ g ∈ jobInput r s, g.closed = true
  loaded : (kernel s (u8 r.payload 0)).usable = true
  room : s.ast.jobs.length < 512
  parterre : parterreUsable s (u8 r.payload 2) = true

theorem maySubmit_takeUp : maySubmit r (takeUp r s) = maySubmit r s := by
  unfold maySubmit
  rw [basin_takeUp, kernel_takeUp]

theorem Submittable.takeUp (h : Submittable r s) : Submittable r (takeUp r s) :=
  ⟨by rw [maySubmit_takeUp, h.client], by rw [jobInput_takeUp, h.retained], by rw [jobInput_takeUp]; exact h.closed,
    by rw [kernel_takeUp, h.loaded], by rw [takeUp_ast]; exact h.room, by rw [parterreUsable_takeUp, h.parterre]⟩

/-- The first result segment of a job: none is needed, or the lowest free run that holds them (R375). -/
def resultBase (r : Req) (s : State) : Option Nat :=
  if u16 r.payload 14 = 0 then some 0 else freeRun s (u16 r.payload 14)

theorem resultBase_eq {base : Nat} (h : u16 r.payload 14 = 0 ∨ freeRun s (u16 r.payload 14) = some base) :
    resultBase r s = some (if u16 r.payload 14 = 0 then 0 else base) := by
  unfold resultBase
  split
  · rfl
  next hn => exact h.resolve_left hn

theorem resultBase_takeUp : resultBase r (takeUp r s) = resultBase r s := by
  unfold resultBase
  rw [freeRun_takeUp]

theorem submitAct_allowed {base : Nat} (h : Submittable r s) (hbase : resultBase r s = some base) :
    submitAct r s = okWith (le 4 s.ast.nextJob.toNat ++ le 4 (if u16 r.payload 14 = 0 then 0xFFFFFFFF else base))
      { s with ast := { s.ast with
        jobs := tset s.ast.jobs s.ast.nextJob.toNat
          (newJob r (basin s (u8 r.payload 12)).cfg.keySlot (jobInput r s) base)
        nextJob := s.ast.nextJob + 1 } } := by
  obtain ⟨hclient, hretained, hclosed, hkernel, hroom, hcore⟩ := h
  have hopen : ¬((jobInput r s).any fun g => !g.closed) = true := by simpa using hclosed
  unfold jobInput at hretained hopen ⊢
  unfold resultBase at hbase
  unfold submitAct
  dsimp only
  rw [hclient, if_neg (by decide), if_neg (not_not_intro hretained), if_neg hopen, hbase]
  dsimp only
  rw [hkernel, if_neg (by decide), if_neg (Nat.not_le.mpr hroom), hcore, if_neg (by decide)]
  rfl

/-! ### JOB_STATUS, JOB_CANCEL and JOB_RELEASE (R376, R379) -/

variable {j : Job}

/-- The response of JOB_STATUS (R379). -/
def jobStatusBytes (s : State) (n : Nat) (j : Job) : Bytes :=
  le 4 n ++ le 1 j.state ++ le 1 j.result ++ le 1 j.retries ++ le 1 j.core ++ le 4 j.code.toNat ++ le 4 j.outBase ++
    le 8 j.outBytes ++ le 8 j.startNs.toNat ++ le 8 j.endNs.toNat ++ le 8 (jobBundles s j) ++ le 2 j.trapPc ++
    le 1 j.trapCause ++ le 1 j.skipped ++ zeros 4

theorem jobStatusAct_found (hj : tfind s.ast.jobs (u32 r.payload 0) = some j) :
    jobStatusAct r s = okWith (jobStatusBytes s (u32 r.payload 0) j) s := by
  unfold jobStatusAct
  dsimp only
  rw [hj]
  rfl

/-- A job that is not done is ended, with the attempt that runs it where there is one (R376). -/
theorem jobCancelAct_allowed (hj : tfind s.ast.jobs (u32 r.payload 0) = some j) (hm : mayChange r j.client = true)
    (hst : j.state ≠ 3) :
    jobCancelAct r s = if j.state = 2 then ok (afterEnd (endAttempt j.core (u32 r.payload 0) 4 s))
      else ok (afterEnd (jobDone (u32 r.payload 0) 4 s)) := by
  unfold jobCancelAct
  dsimp only
  rw [hj]
  dsimp only
  rw [hm, if_neg (by decide), if_neg hst]

theorem jobReleaseAct_allowed (hj : tfind s.ast.jobs (u32 r.payload 0) = some j) (hm : mayChange r j.client = true)
    (hst : j.state = 3) : jobReleaseAct r s = ok (dropJob (u32 r.payload 0) s) := by
  unfold jobReleaseAct
  dsimp only
  rw [hj]
  dsimp only
  rw [hm, if_neg (by decide), if_neg (not_not_intro hst)]

end

/-! ### The obligation -/

/-- Settles O34: each command past the object checks that its premises name. -/
theorem jobCommandsComplete : Obligations.JobCommandsComplete := by
  unfold Obligations.JobCommandsComplete
  refine ⟨?begins, ?appends, ?ends, ?submit, ?denied, ?status, ?cancelRunning, ?cancelQueued, ?release⟩
  case begins =>
    intro s r h hm hb ha
    refine congrArg Host.Outcome.next ((serve_accepts h kernelAct).trans ?_)
    rw [kernelAct_begins (MayLoad.takeUp ⟨hm, hb⟩) ha, conclude_ok]
  case appends =>
    intro s r h hm hb ha hu hnext hfit
    refine ⟨_, rfl, congrArg Host.Outcome.next ((serve_accepts h kernelAct).trans ?_)⟩
    rw [kernelAct_appends (MayLoad.takeUp ⟨.inr hm, hb⟩) ha (by simpa using hu) (by simpa using hnext)
      (by simpa using hfit), kernel_takeUp, conclude_ok]
  case ends =>
    intro s r h hm hb ha hbad hlen hfull hcrc
    refine congrArg Host.Outcome.next ((serve_accepts h kernelAct).trans ?_)
    rw [kernelAct_ends (MayLoad.takeUp ⟨.inr hm, hb⟩) ha (by simpa using hbad) (by simpa using hlen)
      (by simpa using hfull) (by simpa using hcrc), kernel_takeUp, conclude_ok]
  case submit =>
    intro s r base h hk hcap hslot hcore hretained hclosed hroom hbase
    have hmay : Submittable r s := ⟨maySubmit_iff.mpr ⟨hcap, hslot⟩, hretained, hclosed, hk, hroom, hcore⟩
    refine congrArg Host.Outcome.next ((serve_accepts h submitAct).trans ?_)
    rw [submitAct_allowed hmay.takeUp (resultBase_takeUp.trans (resultBase_eq hbase)), basin_takeUp, jobInput_takeUp,
      takeUp_ast, conclude_okWith]
    split
    · rfl
    · rfl
  case denied =>
    intro s r h hm
    refine congrArg Host.Outcome.next ((serve_accepts h submitAct).trans ?_)
    rw [submitAct_denied (maySubmit_takeUp.trans (maySubmit_eq_false_iff.mpr hm)), conclude_fail]
  case status =>
    intro s r j h hj
    refine congrArg Host.Outcome.next ((serve_accepts h jobStatusAct).trans ?_)
    rw [jobStatusAct_found (by rwa [takeUp_ast]), conclude_okWith, jobStatusBytes, jobBundles_takeUp]
  case cancelRunning =>
    intro s r j h hj hm hst
    refine congrArg Host.Outcome.next ((serve_accepts h jobCancelAct).trans ?_)
    rw [jobCancelAct_allowed (by rwa [takeUp_ast]) hm (by omega), if_pos hst, conclude_ok]
  case cancelQueued =>
    intro s r j h hj hm hst
    refine congrArg Host.Outcome.next ((serve_accepts h jobCancelAct).trans ?_)
    rw [jobCancelAct_allowed (by rwa [takeUp_ast]) hm (by omega), if_neg (by omega), conclude_ok]
  case release =>
    intro s r j h hj hm hst
    refine congrArg Host.Outcome.next ((serve_accepts h jobReleaseAct).trans ?_)
    rw [jobReleaseAct_allowed (by rwa [takeUp_ast]) hm hst, conclude_ok]

end Sys2Proof.Machine
end

section
/-!
PROOFS. What a core does (R360 to R373, R376, R377, R380): a bundle that issues, the runtime services, and the limits of
a job; from these the completion of the core's events.
-/
namespace Sys2Proof.Machine

section
variable {s : State} {c n : Nat}

/-! ### BUNDLE_ISSUE (R360 to R370) -/

theorem exec_bundleIssue_issues {b : Bundle} {x : Core} (ha : activeJob s c = some n) (hx : x = (core s c).landDue)
    (hw : x.svcWait = none) (ht : x.bundleTrap c b = 0) (hb : x.badMet b = none) :
    exec (.bundleIssue c b) s = .next (afterIssue c n (spoilStores x c b (setCore c (x.issue c b) s))) := by
  subst hx
  change execBundleIssue c b s = _
  unfold execBundleIssue
  rw [ha]
  dsimp only
  rw [hw, if_neg (by decide), if_neg (not_not_intro ht), hb]

/-! ### BLOCK_NEXT (R372, R373) -/

/-- Past the last segment of its input, a job has no further block. -/
theorem nextBlock_past (h : (job s n).toOrd < (job s n).readOrd) (fuel : Nat) : nextBlock fuel n s = (none, s) := by
  cases fuel with
  | zero => rfl
  | succ fuel => exact if_pos h

/-- What BLOCK_NEXT makes of the block that came of the input: it is delivered, or the service returns a length of 0. -/
def handBlock (c n : Nat) : Option Block → State → State
  | none, s => serviceReturn c [(2, 0)] s
  | some k, s => throughDma c n 2 (deliver c n k) s

theorem exec_blockNext {k : Option Block} {t : State} (hs : serviceOf s c 1 = some n)
    (hc : channelHalted s (parterreOf c) (16 + c) = false)
    (hk : nextBlock ((job s n).toOrd + 2 - (job s n).readOrd) n s = (k, t)) :
    exec (.blockNext c) s = .next (handBlock c n k t) := by
  change execBlockNext c s = _
  unfold execBlockNext
  rw [hs]
  dsimp only
  rw [hc, if_neg (by decide), hk]
  cases k with
  | none => rfl
  | some k => rfl

/-! ### OUT_FLUSH, DONE and CYCLES (R372) -/

theorem exec_outFlush (hs : serviceOf s c 2 = some n) (hc : channelHalted s (parterreOf c) (16 + c) = false)
    (hlow : 0 < (argument s c).toNat) (hhigh : (argument s c).toNat ≤ 65536)
    (hgood : stagingBad (core s c) c (argument s c).toNat = none) :
    exec (.outFlush c) s = .next (throughDma c n 3 (flushOutput c n (argument s c).toNat) s) := by
  change execOutFlush c s = _
  unfold execOutFlush
  rw [hs]
  dsimp only
  rw [if_neg (by omega), hc, if_neg (by decide), hgood]

theorem exec_doneService (hs : serviceOf s c 3 = some n) :
    exec (.doneService c) s =
      .next (afterEnd (endAttempt c n 1 (modJob n (fun j => { j with code := argument s c }) s))) := by
  change execDoneService c s = _
  unfold execDoneService
  rw [hs]

/-- The cycles since entry: the bundles issued and the stalls, whose number is free (log 7). -/
def cyclesSinceEntry (s : State) (c : Nat) : Nat := (core s c).issued + Config.freeNat (drawFree s).1

theorem exec_cycles (hs : serviceOf s c 4 = some n) :
    exec (.cycles c) s = .next (serviceReturn c
      [(1, BitVec.ofNat 32 (cyclesSinceEntry s c)), (2, BitVec.ofNat 32 (cyclesSinceEntry s c / 2 ^ 32))]
      (drawFree s).2) := by
  change execCycles c s = _
  unfold execCycles
  rw [hs]
  rfl

/-! ### The limits of a job (R376, R377, R380) -/

theorem exec_jobTimeLimit (ha : activeJob s c = some n) :
    exec (.jobTimeLimit c) s = .next (afterEnd (endAttempt c n 3 s)) := by
  change execJobTimeLimit c s = _
  unfold execJobTimeLimit
  rw [ha]

theorem exec_coreNoIssue (ha : activeJob s c = some n) (hw : (core s c).svcWait = none) :
    exec (.coreNoIssue c) s = .next (afterEnd (failAttempt false (some 3) c n s)) := by
  change execCoreNoIssue c s = _
  unfold execCoreNoIssue
  rw [ha]
  dsimp only
  rw [hw]
  rfl

end

/-! ### The obligation -/

/-- Settles O35: a bundle past its traps, each service with its job, and each limit on a core with a job. -/
theorem coreEventsComplete : Obligations.CoreEventsComplete := by
  unfold Obligations.CoreEventsComplete
  refine ⟨fun s c b n x => exec_bundleIssue_issues,
    fun s c n hs hc hpast => exec_blockNext hs hc (nextBlock_past hpast _), fun s c n k t => exec_blockNext,
    fun s c n => exec_outFlush, fun s c n => exec_doneService, ?cycles, fun s c n => exec_jobTimeLimit,
    fun s c n => exec_coreNoIssue⟩
  case cycles =>
    intro s c n hs
    exact ⟨cyclesSinceEntry s c, exec_cycles hs, Nat.le_add_right ..⟩

end Sys2Proof.Machine
end

section
/-!
PROOFS. The memory commands (R403 to R407), each past its object checks; the lines of SRAM that a completed repair writes
(R399, R403), the counts of the dies' corrections (R388), and from these the completion of the memory's own events.
-/
namespace Sys2Proof.Machine

section
variable {s : State} {r : Req}

/-! ### The memory commands (R403 to R407) -/

theorem memStatusAct_keeps (h : u8 r.payload 1 = 0) :
    memStatusAct r s = okWith (memStatusBytes s (u8 r.payload 0)) s := by
  unfold memStatusAct
  dsimp only
  rw [if_neg (by rw [h]; decide)]

theorem memStatusAct_clears (h : u8 r.payload 1 = 1) :
    memStatusAct r s = okWith (memStatusBytes s (u8 r.payload 0))
      (modStack (u8 r.payload 0) (fun k => { k with cnt := [] }) s) := by
  unfold memStatusAct
  dsimp only
  rw [if_pos h]

theorem memFlipAct_sram (h0 : u8 r.payload 0 = 0) (ho : instanceOff s (u16 r.payload 2) = false) :
    memFlipAct r s = ok (armSram (u16 r.payload 2) (leNat (slice r.payload 8 16)) s) := by
  unfold memFlipAct
  dsimp only
  rw [if_pos h0, ho, if_neg Bool.false_ne_true]

/-- The flip masks of a fitted stack (R403). -/
theorem memFlipAct_stack (h0 : u8 r.payload 0 ≠ 0) (hn : u8 r.payload 1 < stackTotal s) :
    memFlipAct r s = if u8 r.payload 0 = 1
      then ok (modStack (u8 r.payload 1) (fun k => { k with
        outerFlip := BitVec.ofNat 128 (leNat (slice r.payload 8 16)) }) s)
      else ok (modStack (u8 r.payload 1) (fun k => { k with
        innerFlip := BitVec.ofNat 128 (leNat (slice r.payload 8 16)) }) s) := by
  unfold memFlipAct
  dsimp only
  rw [if_neg h0, if_neg (Nat.not_le.mpr hn)]

end

/-- Settles O36: each command past the object checks that its premises name. -/
theorem memoryCommandsComplete : Obligations.MemoryCommandsComplete := by
  unfold Obligations.MemoryCommandsComplete
  refine ⟨?config, ?status, ?statusClears, ?sram, ?flipSram, ?flipOuter, ?flipInner, ?fences⟩
  case config =>
    intro s r h
    refine congrArg Host.Outcome.next ((serve_accepts h memConfigAct).trans ?_)
    unfold memConfigAct
    rw [takeUp_mem, conclude_ok]
  case status =>
    intro s r h h0
    refine congrArg Host.Outcome.next ((serve_accepts h memStatusAct).trans ?_)
    rw [memStatusAct_keeps h0, conclude_okWith, memStatusBytes_takeUp]
  case statusClears =>
    intro s r h h1
    refine congrArg Host.Outcome.next ((serve_accepts h memStatusAct).trans ?_)
    rw [memStatusAct_clears h1, conclude_okWith, memStatusBytes_takeUp]
  case sram =>
    intro s r h
    refine congrArg Host.Outcome.next ((serve_accepts h sramStatusAct).trans ?_)
    unfold sramStatusAct
    rw [takeUp_mem, conclude_okWith]
  case flipSram =>
    intro s r h h0 ho
    refine congrArg Host.Outcome.next ((serve_accepts h memFlipAct).trans ?_)
    rw [memFlipAct_sram h0 (by rwa [instanceOff_takeUp]), conclude_ok]
  case flipOuter =>
    intro s r h h1 hn
    refine congrArg Host.Outcome.next ((serve_accepts h memFlipAct).trans ?_)
    rw [memFlipAct_stack (by rw [h1]; decide) (by rwa [stackTotal_takeUp]), if_pos h1, conclude_ok]
  case flipInner =>
    intro s r h h2 hn
    refine congrArg Host.Outcome.next ((serve_accepts h memFlipAct).trans ?_)
    rw [memFlipAct_stack (by rw [h2]; decide) (by rwa [stackTotal_takeUp]), if_neg (by rw [h2]; decide), conclude_ok]
  case fences =>
    intro s r h
    refine congrArg Host.Outcome.next ((serve_accepts h fenceListAct).trans ?_)
    unfold fenceListAct
    rw [conclude_okWith]
    simp only [segCount_takeUp, fencedOrMarked_takeUp]

section
variable {s : State} {n i a : Nat}

/-! ### Lines that are written without an injection (R399, R403) -/

theorem sramWrite_disarmed (he : s.inj.entries = []) (inst : Nat) :
    sramWrite inst s = (((tget 0 s.mem.sramFlip inst).toNat, false), if (tget 0 s.mem.sramFlip inst).toNat = 0 then s
      else { s with mem := { s.mem with sramFlip := tdel s.mem.sramFlip inst } }) := by
  unfold sramWrite
  rw [occurrence_none (injIndex_disarmed he 0x0D inst)]
  simp only [Option.map_none, Option.getD_none, Nat.xor_zero, Option.isSome_none]

/-- A line that no mask corrupts is good from then on. -/
theorem rewriteLine_clean (he : s.inj.entries = []) (hf : (tget 0 s.mem.sramFlip i).toNat = 0) :
    rewriteLine i a s = (true, clearSpoilt i a s) := by
  unfold rewriteLine
  rw [sramWrite_disarmed he, hf]
  rfl

/-- A mask corrupts the line and clears. -/
theorem rewriteLine_flipped (he : s.inj.entries = []) (hf : (tget 0 s.mem.sramFlip i).toNat ≠ 0) :
    rewriteLine i a s = (false, { s with mem := { s.mem with
      sramFlip := tdel s.mem.sramFlip i
      spoilt := (i, a, false) :: s.mem.spoilt.filter fun e => !(e.1 == i && e.2.1 == a) } }) := by
  unfold rewriteLine
  rw [sramWrite_disarmed he]
  dsimp only
  rw [beq_false_of_ne hf, if_neg hf, if_neg hf]

/-! ### Repairs (R399, R400) -/

theorem exec_sramRepairDone_mends (hr : repairable i = true) (hc : cpRuns s = true) (hp : hasRepair i a = true) :
    exec (.sramRepairDone i a true) s = .next (sramError (lineInjected s i a) i (repairOutcome i a) a 0
      (if i / 0x1000 = 2 ∧ (rewriteLine i a s).1 = true then lineDone a (rewriteLine i a s).2
        else (rewriteLine i a s).2)) := by
  change execSramRepairDone i a true s = _
  unfold execSramRepairDone
  rw [hr, hc, hp]
  rfl

theorem exec_sramRepairDone_fails {ok : Bool} (hr : repairable i = true) (hc : cpRuns s = true)
    (hp : ok = false ∨ hasRepair i a = false) :
    exec (.sramRepairDone i a ok) s = .next (repairFails (lineInjected s i a) i a
      (sramError (lineInjected s i a) i 3 a 0 (clearSpoilt i a s))) := by
  have hno : (ok && hasRepair i a) = false := Bool.and_eq_false_iff.mpr hp
  change execSramRepairDone i a ok s = _
  unfold execSramRepairDone
  rw [hr, hc, if_neg (by decide)]
  dsimp only
  rw [hno]
  rfl

/-- The compiled rules have a repair for every line. -/
theorem hasRepair_rules (h : i / 0x1000 = 2) : hasRepair i a = true := by
  unfold hasRepair
  rw [h]
  rfl

theorem repairOutcome_of_ne (h : i / 0x1000 ≠ 2) :
    repairOutcome i a = if i / 0x1000 = 1 ∧ 0x1000 ≤ a then 2 else 1 :=
  if_congr (or_iff_right h) rfl rfl

/-! ### The stacks (R388, R395, R396) -/

theorem exec_innerCountRead (hr : memRuns s n = true) (k : Nat) :
    exec (.innerCountRead n k) s = .next (
      if (stack s n).evBlocks + ((stack s n).evInner + (k + (stack s n).dieCorr)) = 0
      then countStack n 16 (k + (stack s n).dieCorr) (modStack n (fun x => { x with
        evInner := x.evInner + (k + (stack s n).dieCorr)
        dieCorr := 0 }) s)
      else correctedEvent n (countStack n 16 (k + (stack s n).dieCorr) (modStack n (fun x => { x with
        evInner := x.evInner + (k + (stack s n).dieCorr)
        dieCorr := 0 }) s))) := by
  change execInnerCountRead n k s = _
  unfold execInnerCountRead
  rw [if_pos hr]
  dsimp only
  unfold countStack
  rw [stack_modStack, if_pos rfl, stack_modStack, if_pos rfl]

theorem exec_scrubBlock_reads (hr : memRuns s n = true) (ho : s.mem.scrubOn = true) (hn : (stack s n).scrubRead = none) :
    exec (.scrubBlock n) s = .next (scrubRead n s) := by
  change execScrubBlock n s = _
  unfold execScrubBlock
  rw [hr, ho, if_neg (by decide), hn]

theorem exec_scrubBlock_writes {blk : Nat} (hr : memRuns s n = true) (ho : s.mem.scrubOn = true)
    (hb : (stack s n).scrubRead = some blk) :
    exec (.scrubBlock n) s = .next (countStack n 56 1 (scrubWrite blk (stack s n).scrubData
      (modStack n (fun x => { x with scrubRead := none, scrubData := [] }) s))) := by
  change execScrubBlock n s = _
  unfold execScrubBlock
  rw [hr, ho, if_neg (by decide), hb]

theorem exec_dmaChannelReset {p c : Nat} {h : Nat × Nat × Nat × Bool}
    (hh : (s.mem.halted.find? fun x => x.1 == p && x.2.1 == c) = some h) (hc : cpRuns s = true) :
    exec (.dmaChannelReset p c) s = .next (raiseWith h.2.2.2 0x0B06 p (le 1 c ++ le 1 h.2.2.1) none
      { s with mem := { s.mem with halted := s.mem.halted.erase h } }) := by
  change execDmaChannelReset p c s = _
  unfold execDmaChannelReset
  rw [hh]
  exact if_pos hc

end

/-- Settles O37: each event on a stack that answers, each repair as it writes its line or fails to, and the reset of a
halted channel. -/
theorem memoryEventsComplete : Obligations.MemoryEventsComplete := by
  unfold Obligations.MemoryEventsComplete
  refine ⟨fun s n => exec_scrubBlock_reads, fun s n blk => exec_scrubBlock_writes, ?inner, ?temp, ?lost,
    ?mended, ?mendedRule, ?flipped, ?fails, ?reset⟩
  case inner =>
    rintro s n k m hr rfl
    refine ⟨_, rfl, ?_⟩
    rw [exec_innerCountRead hr]
    exact congrArg Host.Outcome.next (if_congr Nat.add_eq_zero_iff rfl rfl)
  case temp => exact fun s n v hr => if_pos hr
  case lost => exact fun s n hr => if_pos hr
  case mended =>
    intro s i a he hf hr hc hp h2
    rw [exec_sramRepairDone_mends hr hc hp, rewriteLine_clean he (by rw [hf]; rfl), if_neg fun h => h2 h.1,
      repairOutcome_of_ne h2]
    rfl
  case mendedRule =>
    intro s i a he hf hr hc h2
    rw [exec_sramRepairDone_mends hr hc (hasRepair_rules h2), rewriteLine_clean he (by rw [hf]; rfl), if_pos ⟨h2, rfl⟩]
    exact congrArg (fun o => Host.Outcome.next (sramError _ i o a 0 _)) (if_pos (.inl h2))
  case flipped =>
    intro s i a he hf hr hc hp
    rw [exec_sramRepairDone_mends hr hc hp, rewriteLine_flipped he hf, if_neg fun h => Bool.false_ne_true h.2]
    rfl
  case fails => exact fun s i a ok hr hc hp => exec_sramRepairDone_fails hr hc hp
  case reset => exact fun s p c h hh hc => exec_dmaChannelReset hh hc

end Sys2Proof.Machine
end

section
/-!
PROOFS. The keys of the cipher engine (R412, R414 to R416) and its transfers (R423 to R429): each command past the checks of
its objects, each event of a running transfer where no injection and no flip mask is armed; from these the completion of the
key commands and of the transfers.
-/
namespace Sys2Proof.Machine

section
variable {s : State} {r : Req}

/-! ### The KEK (R411, R412) -/

/-- The state in which a KEK has been derived from the host's point and the device's next secret. -/
def kekDerived (r : Req) (s : State) : State :=
  { s with cip := { s.cip with
    draws := s.cip.draws + 1
    kek := some ((sha384 (be 4 1 ++ Config.p384Shared (Config.drbg s.cip.draws) (slice r.payload 0 97) ++
      (le 8 s.ident.serial.toNat ++ slice r.payload 0 97 ++ fit 97 (Config.p384Public (Config.drbg s.cip.draws))))).extractLsb'
        128 256) } }

theorem kekAct_valid (h : Config.p384Valid (slice r.payload 0 97) = true) :
    kekAct r s = okWith (fit 97 (Config.p384Public (Config.drbg s.cip.draws)) ++ zeros 3) (kekDerived r s) := by
  unfold kekAct
  dsimp only
  rw [h, if_neg (by decide)]
  rfl

theorem kekAct_invalid (h : Config.p384Valid (slice r.payload 0 97) ≠ true) : kekAct r s = fail stBadParam s :=
  if_pos (by simpa using h)

/-! ### KEY_UNWRAP and KEY_ZEROISE (R414 to R416) -/

/-- The object checks of KEY_UNWRAP but for the KEK and the blob: the client may change the slot, a line slot's terminal is
in key mode FIXED, and neither a capture nor a transfer names another slot. -/
structure MayUnwrap (r : Req) (s : State) : Prop where
  client : maySlot r s (u16 r.payload 0) = true
  line : u16 r.payload 0 < 4096 → lineFixed s (u16 r.payload 0) = true
  unused : 4096 ≤ u16 r.payload 0 →
    slotInCapture s (u16 r.payload 0) = false ∧ slotInXfer s (u16 r.payload 0) = false

theorem MayUnwrap.takeUp (h : MayUnwrap r s) : MayUnwrap r (takeUp r s) :=
  ⟨by simpa using h.client, by simpa using h.line, by simpa using h.unused⟩

theorem MayUnwrap.line_not_refused (h : MayUnwrap r s) :
    ¬(u16 r.payload 0 < 4096 ∧ (!lineFixed s (u16 r.payload 0)) = true) := by
  rintro ⟨hlt, hn⟩
  rw [h.line hlt] at hn
  contradiction

theorem MayUnwrap.slot_not_refused (h : MayUnwrap r s) : ¬(4096 ≤ u16 r.payload 0 ∧
    (slotInCapture s (u16 r.payload 0) = true ∨ slotInXfer s (u16 r.payload 0) = true)) := by
  rintro ⟨hle, hn⟩
  obtain ⟨hcap, hxfer⟩ := h.unused hle
  rw [hcap, hxfer] at hn
  simp at hn

/-- The slot holds the key that a blob carried. -/
def keyLoaded (r : Req) (raw : Bytes) (s : State) : State :=
  touchLine (u16 r.payload 0) (modSlot (u16 r.payload 0) (fun x => { x with
    state := 1
    kind := (keyKind (u16 r.payload 0) (u8 r.payload 2)).getD 0
    owner := if x.state = 0 then r.client else x.owner
    usage := 0
    limit := if u64 r.payload 8 = 0 then defaultLimit (u16 r.payload 0) else u64 r.payload 8
    key := fit (u8 r.payload 2 - 8) raw
    told := false }) s)

theorem keyUnwrapAct_badBlob {kek : BitVec 256} (h : MayUnwrap r s) (hk : s.cip.kek = some kek)
    (hw : Config.aesUnwrap (kekBytes kek) (r.payload.drop 16) = none) : keyUnwrapAct r s = fail stBadParam s := by
  unfold keyUnwrapAct
  dsimp only
  rw [h.client, if_neg (by decide), hk]
  dsimp only
  rw [hw]

theorem keyUnwrapAct_unwrapped {kek : BitVec 256} {raw : Bytes} (h : MayUnwrap r s) (hk : s.cip.kek = some kek)
    (hw : Config.aesUnwrap (kekBytes kek) (r.payload.drop 16) = some raw) :
    keyUnwrapAct r s = if 3 ≤ (keyKind (u16 r.payload 0) (u8 r.payload 2)).getD 0 ∧
        halvesEqual (fit (u8 r.payload 2 - 8) raw) = true then fail stBadParam s else ok (keyLoaded r raw s) := by
  unfold keyUnwrapAct
  dsimp only
  rw [h.client, if_neg (by decide), hk]
  dsimp only
  rw [hw]
  dsimp only
  rw [if_neg h.line_not_refused, if_neg h.slot_not_refused]
  rfl

theorem keyZeroiseAct_unused (hm : maySlot r s (u16 r.payload 0) = true)
    (hc : slotInCapture s (u16 r.payload 0) = false) (hx : slotInXfer s (u16 r.payload 0) = false) :
    keyZeroiseAct r s = ok (touchLine (u16 r.payload 0)
      (modSlot (u16 r.payload 0) (fun x => { x with state := 0, kind := 0, key := [] }) s)) := by
  unfold keyZeroiseAct
  dsimp only
  rw [hm, if_neg (by decide), hc, hx, if_neg (by simp)]

/-! ### The DRBG (R430, R434) -/

theorem exec_drbgReseed_disarmed (he : s.inj.entries = []) (hs : s.ctl.devState ≠ .still) (n : Nat) :
    exec (.drbgReseed n) s = .next (if n = 0
      then { s with cip := { s.cip with entropyBad := false, reseeds := (s.cip.reseeds + 1) % 2 ^ 48 } }
      else raise 0x0C04 0 (le 1 n) none
        { s with cip := { s.cip with entropyBad := true, health := (s.cip.health + 1) % 2 ^ 48 } }) := by
  have htest : (if n ≠ 0 then n else 0) = n := by
    split
    · rfl
    · next h => exact (not_not.mp h).symm
  change execDrbgReseed n s = _
  unfold execDrbgReseed
  rw [if_neg hs, occurrence_none (injIndex_disarmed he 0x19 0)]
  simp only [Option.map_none, Option.getD_none, htest]
  split <;> rfl

end

/-- Settles O38: each command past the checks that its premises name, and the health test by its outcome. -/
theorem keyCommandsComplete : Obligations.KeyCommandsComplete := by
  unfold Obligations.KeyCommandsComplete
  refine ⟨?kek, ?unwrap, ?zeroise, ?status, ?cipher, ?healthy, ?failed⟩
  case kek =>
    rintro s r _ _ h rfl rfl
    refine congrArg Host.Outcome.next ((serve_accepts h kekAct).trans ?_)
    split
    · next hv =>
      obtain ⟨m, hm⟩ := takeUp_form r s
      rw [kekAct_valid hv, conclude_okWith, hm]
      rfl
    · next hv => rw [kekAct_invalid hv, conclude_fail]
  case unwrap =>
    intro s r kek h hm hk hl hu
    have hmay : MayUnwrap r (takeUp r s) := MayUnwrap.takeUp ⟨hm, hl, hu⟩
    have hkek : (takeUp r s).cip.kek = some kek := by rwa [takeUp_cip]
    refine congrArg Host.Outcome.next ((serve_accepts h keyUnwrapAct).trans ?_)
    cases hw : Config.aesUnwrap (kekBytes kek) (r.payload.drop 16) with
    | none => rw [keyUnwrapAct_badBlob hmay hkek hw, conclude_fail]
    | some raw =>
      rw [keyUnwrapAct_unwrapped hmay hkek hw, apply_ite (conclude r), conclude_fail, conclude_ok]
      rfl
  case zeroise =>
    intro s r h hm hc hx
    refine congrArg Host.Outcome.next ((serve_accepts h keyZeroiseAct).trans ?_)
    rw [keyZeroiseAct_unused (by rwa [maySlot_takeUp]) (by rwa [slotInCapture_takeUp]) (by rwa [slotInXfer_takeUp]),
      conclude_ok]
  case status =>
    intro s r h
    refine congrArg Host.Outcome.next ((serve_accepts h keyStatusAct).trans ?_)
    unfold keyStatusAct
    rw [keyStatusBytes_takeUp, conclude_okWith]
  case cipher =>
    intro s r h
    refine congrArg Host.Outcome.next ((serve_accepts h cipherStatusAct).trans ?_)
    unfold cipherStatusAct
    simp only [xfer_takeUp, takeUp_cip, conclude_okWith]
  case healthy => exact fun s he hs => exec_drbgReseed_disarmed he hs 0
  case failed =>
    intro s n he hs hn
    rw [exec_drbgReseed_disarmed he hs, if_neg hn]

section
variable {s : State} {r : Req} {n id : Nat}

/-! ### Starting a transfer (R423, R424, R428) -/

theorem xferChecks_passed {ringNo : Nat} {dir : Bool} {go : Nat → Served} (hm : maySlot r s n = true)
    (hs : (slot s n).state = 1) (hf : freeXfer s = some id) (hr : ringRefusal s ringNo dir = none) :
    xferChecks r n ringNo dir s go = go id := by
  have huse : useRefusal n s = none := by
    unfold useRefusal
    rw [hs]
    rfl
  unfold xferChecks
  rw [hm, if_neg (by decide), huse]
  dsimp only
  rw [hf]
  dsimp only
  rw [hr]

/-- The transfer that a BUNDLE_LOAD starts. -/
def bundleXfer (r : Req) (s : State) : Xfer :=
  { state := 1
    kind := 1
    slot := u16 r.payload 0
    ring := u8 r.payload 2
    offset := u64 r.payload 8
    length := u64 r.payload 16
    iv := slice r.payload 24 12
    tag := slice r.payload 40 16
    key := (slot s (u16 r.payload 0)).key
    first := u64 r.payload 8 / segBytes
    cmd := causeOf r }

theorem bundleXfer_takeUp : bundleXfer r (takeUp r s) = bundleXfer r s := by
  unfold bundleXfer
  rw [slot_takeUp]

/-- The object checks of the transfer commands, with the transfer that is free (R416, R420, R423). -/
structure MayTransfer (r : Req) (dir : Bool) (id : Nat) (s : State) : Prop where
  client : maySlot r s (u16 r.payload 0) = true
  usable : (slot s (u16 r.payload 0)).state = 1
  free : freeXfer s = some id
  ring : ringRefusal s (u8 r.payload 2) dir = none

theorem MayTransfer.takeUp {dir : Bool} (h : MayTransfer r dir id s) : MayTransfer r dir id (takeUp r s) :=
  ⟨by simpa using h.client, by simpa using h.usable, by simpa using h.free, by simpa using h.ring⟩

/-- A load into segments of the pool of which none is PENDING or fenced starts. -/
theorem bundleLoadAct_starts (h : MayTransfer r true id s)
    (hfit : u64 r.payload 8 + u64 r.payload 16 ≤ s.up.poolSegs * segBytes)
    (hready : ∀ g ∈ touched (bundleXfer r s), tget 0 s.up.poolState g ≠ 1 ∧ fenced s g = false) :
    bundleLoadAct r s = okWith (le 1 id ++ zeros 3) (useSlot (u16 r.payload 0) 1
      (setPool (touched (bundleXfer r s)) 1 (modXfer id (fun _ => bundleXfer r s) s))) := by
  have hpending : (touched (bundleXfer r s)).find? (fun g => tget 0 s.up.poolState g == 1) = none :=
    List.find?_eq_none.mpr fun g hg => by simpa using (hready g hg).1
  have hfenced : ¬(touched (bundleXfer r s)).any (fenced s) = true := by
    rw [List.any_eq_true]
    rintro ⟨g, hg, hx⟩
    rw [(hready g hg).2] at hx
    contradiction
  unfold bundleXfer at hpending hfenced ⊢
  unfold bundleLoadAct
  rw [xferChecks_passed h.client h.usable h.free h.ring]
  dsimp only
  rw [if_neg (Nat.not_lt.mpr hfit), hpending]
  dsimp only
  rw [if_neg hfenced]

/-- A closed retained segment in the clear is sealed (R428). -/
theorem sealAct_capture {g : Seg} (h : MayTransfer r false id s) (h0 : u8 r.payload 3 = 0)
    (hg : ((basin s (u8 r.payload 4)).segs.find? fun y => y.ord == u32 r.payload 8 && y.closed) = some g)
    (hclear : g.enc = false) :
    sealAct r s = startSeal r id g.seg g.ord (basin s (u8 r.payload 4)).captureId.toNat s := by
  unfold sealAct
  dsimp only
  rw [xferChecks_passed h.client h.usable h.free h.ring, if_pos h0, hg]
  dsimp only
  rw [hclear, if_neg fun h => Bool.false_ne_true h.1]

/-- A seal-out that starts holds its segment, and its slot is used once (R349, R420, R428). -/
theorem startSeal_holds (r : Req) (id seg ordinal owner : Nat) (s : State) : ∃ t,
    startSeal r id seg ordinal owner s = okWith (le 1 id ++ zeros 3 ++ sealIv s (slot s (u16 r.payload 0)).usage)
      (useSlot (u16 r.payload 0) 1 t) ∧
    (xfer t id).state = 1 ∧ (xfer t id).kind = 2 ∧ (xfer t id).pin = some seg ∧ (xfer t id).first = seg ∧
      (xfer t id).length = segBytes := by
  refine ⟨_, rfl, ?_⟩
  rw [xfer_modXfer, if_pos rfl]
  exact ⟨rfl, rfl, rfl, rfl, rfl⟩

/-! ### A running transfer (R423, R425, R426) -/

/-- A buffer moves where the ring has a descriptor that the transfer can use and the line of the DMA complex is good. -/
theorem exec_xferBuffer_moves (he : s.inj.entries = []) (hf : s.mem.sramFlip = []) (hr : xferRuns s n = true)
    (hd : descCount s (xfer s n).ring ≠ 0) (hh : channelHalted s (n % 2) (8 + n) = false)
    (hk : (xfer s n).kind ≠ 1 ∨ ((xfer s n).eop = false ∧ loadUsable s (xfer s n) = true)) :
    exec (.xferBuffer n) s = .next (moveBuffer n s) := by
  have hrun : ¬((!xferRuns s n) = true ∨ descCount s (xfer s n).ring = 0 ∨
      channelHalted s (n % 2) (8 + n) = true) := by simp [hr, hd, hh]
  have hload : ¬((xfer s n).kind = 1 ∧ ((xfer s n).eop = true ∨ (!loadUsable s (xfer s n)) = true)) := by
    rintro ⟨h1, hx⟩
    obtain ⟨heop, huse⟩ := hk.resolve_left (not_not_intro h1)
    rw [heop, huse] at hx
    simp at hx
  have hline : sramWrite (0x8000 + n % 2) s = ((0, false), s) := by
    rw [sramWrite_disarmed he, hf]
    rfl
  change execXferBuffer n s = _
  unfold execXferBuffer
  dsimp only
  rw [if_neg hrun, if_neg hload, hline]
  rfl

/-- The tag decides between the zeros behind the bundle and the failure of the load. -/
theorem exec_bundleTagCheck_disarmed (he : s.inj.entries = []) (hr : xferRuns s n = true) (hk : (xfer s n).kind = 1)
    (hp : (xfer s n).eop = true) {stop : Nat} (hstop : stop = (xfer s n).offset + (xfer s n).length) {t : State}
    (ht : t = storeZero [] (stop + (64 - stop % 64) % 64)
      ((segBytes - stop % segBytes) % segBytes - (64 - stop % 64) % 64)
      (narrowWrite stop (zeros ((64 - stop % 64) % 64)) s)) :
    exec (.bundleTagCheck n) s = .next (if fit 16 (Config.gcmTag (xfer s n).key (xfer s n).iv
        (bundleAad s (xfer s n).offset (xfer s n).length) (xfer s n).cipher) = (xfer s n).tag
      then (if (xfer t n).filling = true then t else xferDone n (setPool (touched (xfer s n)) 0 t))
      else xferFail n 1 stTagFail s) := by
  subst hstop ht
  have hrun : ¬((!xferRuns s n) = true ∨ (xfer s n).kind ≠ 1 ∨ (!(xfer s n).eop) = true) := by simp [hr, hk, hp]
  change execBundleTagCheck n s = _
  unfold execBundleTagCheck
  dsimp only
  rw [if_neg hrun, occurrence_none (injIndex_disarmed he 0x0C 0)]
  simp only [Option.isSome_none, Bool.false_eq_true, false_or, Bool.not_eq_true', beq_eq_false_iff_ne]
  rw [ite_not, apply_ite Host.Outcome.next, apply_ite Host.Outcome.next]

end

/-- Settles O39: each command past the checks of its objects, and each event of a transfer that runs. -/
theorem transfersComplete : Obligations.TransfersComplete := by
  unfold Obligations.TransfersComplete
  refine ⟨?load, ?sealOut, ?status, fun s n => exec_xferBuffer_moves,
    fun s n stop t he hr hk hp hstop ht => exec_bundleTagCheck_disarmed he hr hk hp hstop ht, ?filled, ?stalls⟩
  case load =>
    rintro s r id _ h hm hs hf hr hfit rfl hready
    refine congrArg Host.Outcome.next ((serve_accepts h bundleLoadAct).trans ?_)
    have hready' : ∀ g ∈ touched (bundleXfer r (takeUp r s)),
        tget 0 (takeUp r s).up.poolState g ≠ 1 ∧ fenced (takeUp r s) g = false := by
      intro g hg
      rw [bundleXfer_takeUp] at hg
      rw [takeUp_up, fenced_takeUp]
      exact hready g hg
    rw [bundleLoadAct_starts (MayTransfer.takeUp ⟨hm, hs, hf, hr⟩) (by rwa [takeUp_up]) hready', bundleXfer_takeUp,
      conclude_okWith]
    rfl
  case sealOut =>
    intro s r id g h hm hs hf hr h0 hg hclear
    obtain ⟨t, hstart, ht⟩ := startSeal_holds r id g.seg g.ord (basin s (u8 r.payload 4)).captureId.toNat (takeUp r s)
    refine ⟨t, congrArg Host.Outcome.next ((serve_accepts h sealAct).trans ?_), ht⟩
    rw [sealAct_capture (MayTransfer.takeUp ⟨hm, hs, hf, hr⟩) h0 (by rwa [basin_takeUp]) hclear, basin_takeUp, hstart,
      conclude_okWith, sealIv_takeUp, slot_takeUp]
  case status =>
    intro s r h
    refine congrArg Host.Outcome.next ((serve_accepts h xferStatusAct).trans ?_)
    unfold xferStatusAct
    simp only [xfer_takeUp, conclude_done]
  case filled =>
    intro s n h1 hf hs
    exact if_neg (by simp [h1, hf, hs])
  case stalls =>
    intro s n hr hp hw
    exact if_neg (by simp [hr, hp, hw])

end Sys2Proof.Machine
end

section
/-!
PROOFS. The host port commands (R436 to R441, R449 to R456), each past the checks of its port; from these their completion.
-/
namespace Sys2Proof.Machine

section
variable {s : State} {r : Req}

/-! ### The states of a port (R436 to R438, R451) -/

theorem hostConfigAct_disabled (h0 : (hport s (u8 r.payload 0)).state = 0) :
    hostConfigAct r s = ok (modHPort (u8 r.payload 0) (fun x => { x with
      medium := u8 r.payload 1
      an := u8 r.payload 2 == 1
      lt := u8 r.payload 3 == 1
      pauseMode := u8 r.payload 4
      eee := u8 r.payload 5 == 1
      vlan := u16 r.payload 6
      src := slice r.payload 8 6
      dst := slice r.payload 14 6
      wdLimit := u32 r.payload 20
      wdHold := u32 r.payload 24
      lpiIdle := u16 r.payload 28 }) s) := if_neg (not_not_intro h0)

theorem hostStartAct_disabled (h0 : (hport s (u8 r.payload 0)).state = 0) (ht : inTest (hostLanes (u8 r.payload 0)) s = none) :
    hostStartAct r s = ok (advertise (u8 r.payload 0) (modHPort (u8 r.payload 0)
      (fun x => { x with state := 1, anDone := false, trained := false }) (toService (hostLanes (u8 r.payload 0)) s))) := by
  unfold hostStartAct
  dsimp only
  rw [if_neg (not_not_intro h0), ht]

/-- With auto-negotiation the port advertises its abilities. -/
theorem advertise_enabled {n : Nat} (h : (hport s n).an = true) : advertise n s = emit (.anAdvertise n {
    medium := (hport s n).medium
    rsFec := true
    eee := (hport s n).eee
    honoursPause := true
    sendsPause := false }) s := if_pos h

theorem hostStopAct_started (h0 : (hport s (u8 r.payload 0)).state ≠ 0) :
    hostStopAct r s = ok (hostStop (u8 r.payload 0) s) := if_neg h0

/-! ### What the commands read (R449, R456) -/

theorem hostStatusAct_settled (h1 : (hport s (u8 r.payload 0)).state ≠ 1) :
    hostStatusAct r s = okWith (hostStatusBytes s (u8 r.payload 0) 0) s := if_neg h1

/-- In TRAINING the flags show a free value. -/
theorem hostStatusAct_training (h1 : (hport s (u8 r.payload 0)).state = 1) :
    hostStatusAct r s = okWith (hostStatusBytes s (u8 r.payload 0) (Config.freeNat (drawFree s).1)) (drawFree s).2 :=
  if_pos h1

/-! ### Frames and stamps (R440, R453 to R455) -/

theorem hostSendAct_queues (h2 : (hport s (u8 r.payload 0)).state = 2)
    (hroom : classRoom s (u8 r.payload 0) (u8 r.payload 1) (slice r.payload 8 (u16 r.payload 6)).length = true) :
    hostSendAct r s = ok (wakeTx (u8 r.payload 0) (modHClass (u8 r.payload 0) (u8 r.payload 1) (fun k => { k with
      queue := k.queue ++ [{
        data := slice r.payload 8 (u16 r.payload 6)
        stamp := if u8 r.payload 2 = 1 then some (u16 r.payload 4) else none
        cause := causeOf r }] }) s)) := by
  unfold hostSendAct
  dsimp only
  rw [if_neg (not_not_intro h2), hroom, if_neg (by decide)]
  unfold queueFrame
  simp only [Bool.false_eq_true, false_and, if_false]

theorem hostRecvAct_empty (h : (hport s (u8 r.payload 0)).rx = []) :
    hostRecvAct r s = okWith (le 1 (u8 r.payload 0) ++ zeros 15) s := by
  unfold hostRecvAct
  dsimp only
  rw [h]

theorem hostRecvAct_oldest {f : RxFrame} {fs : List RxFrame} (h : (hport s (u8 r.payload 0)).rx = f :: fs) :
    hostRecvAct r s = okWith (le 1 (u8 r.payload 0) ++ le 1 (b2n (!fs.isEmpty) + 2 * b2n f.ptp) ++ le 2 f.data.length ++
      zeros 4 ++ le 8 f.time.toNat ++ f.data) (modHPort (u8 r.payload 0) (fun x => { x with rx := fs }) s) := by
  unfold hostRecvAct
  dsimp only
  rw [h]

theorem ptpReadAct_none
    (h : ((hport s (u8 r.payload 0)).stamps.find? fun t => t.id == u16 r.payload 2) = none) :
    ptpReadAct r s = okWith (le 1 (u8 r.payload 0) ++ (le 1 0 ++ le 2 (u16 r.payload 2) ++ zeros 4 ++ zeros 8)) s := by
  unfold ptpReadAct
  dsimp only
  rw [h]

theorem ptpReadAct_sent {t : TxStamp}
    (h : ((hport s (u8 r.payload 0)).stamps.find? fun t => t.id == u16 r.payload 2) = some t) (ht : t.sent = true) :
    ptpReadAct r s = okWith (le 1 (u8 r.payload 0) ++
      (le 1 1 ++ le 2 (u16 r.payload 2) ++ zeros 4 ++ le 8 t.time.toNat)) s := by
  unfold ptpReadAct
  dsimp only
  rw [h]
  dsimp only
  rw [ht, if_pos rfl, if_pos rfl]

end

/-- Settles O40: each command past the checks of its port, by the port's state. -/
theorem hostPortCommandsComplete : Obligations.HostPortCommandsComplete := by
  unfold Obligations.HostPortCommandsComplete
  refine ⟨?config, ?start, fun s n h => advertise_enabled h, ?stop, ?status, ?statusTraining, ?counters, ?classSet, ?send,
    ?recvEmpty, ?recv, ?ptpNone, ?ptpSent⟩
  case config =>
    intro s r h h0
    refine congrArg Host.Outcome.next ((serve_accepts h hostConfigAct).trans ?_)
    rw [hostConfigAct_disabled (by rwa [hport_takeUp]), conclude_ok]
  case start =>
    intro s r h h0 ht
    refine congrArg Host.Outcome.next ((serve_accepts h hostStartAct).trans ?_)
    rw [hostStartAct_disabled (by rwa [hport_takeUp]) (by rwa [inTest_takeUp]), conclude_ok]
  case stop =>
    intro s r h h0
    refine congrArg Host.Outcome.next ((serve_accepts h hostStopAct).trans ?_)
    rw [hostStopAct_started (by rwa [hport_takeUp]), conclude_ok]
  case status =>
    intro s r h h1
    refine congrArg Host.Outcome.next ((serve_accepts h hostStatusAct).trans ?_)
    rw [hostStatusAct_settled (by rwa [hport_takeUp]), conclude_okWith, hostStatusBytes_takeUp]
  case statusTraining =>
    intro s r h h1
    refine congrArg Host.Outcome.next ((serve_accepts h hostStatusAct).trans ?_)
    rw [hostStatusAct_training (by rwa [hport_takeUp]), conclude_okWith, hostStatusBytes_takeUp]
  case counters =>
    intro s r h
    refine congrArg Host.Outcome.next ((serve_accepts h hostCountersAct).trans ?_)
    unfold hostCountersAct
    simp only [hport_takeUp, conclude_okWith]
  case classSet =>
    intro s r h
    refine congrArg Host.Outcome.next ((serve_accepts h hostClassAct).trans ?_)
    unfold hostClassAct
    rw [takeUp_time, conclude_ok]
  case send =>
    intro s r h h2 hroom
    refine congrArg Host.Outcome.next ((serve_accepts h hostSendAct).trans ?_)
    rw [hostSendAct_queues (by rwa [hport_takeUp]) (by rwa [classRoom_takeUp]), conclude_ok]
  case recvEmpty =>
    intro s r h hq
    refine congrArg Host.Outcome.next ((serve_accepts h hostRecvAct).trans ?_)
    rw [hostRecvAct_empty (by rwa [hport_takeUp]), conclude_okWith]
  case recv =>
    intro s r f fs h hq
    refine congrArg Host.Outcome.next ((serve_accepts h hostRecvAct).trans ?_)
    rw [hostRecvAct_oldest (by rwa [hport_takeUp]), conclude_okWith]
  case ptpNone =>
    intro s r h hf
    refine congrArg Host.Outcome.next ((serve_accepts h ptpReadAct).trans ?_)
    rw [ptpReadAct_none (by rwa [hport_takeUp]), conclude_okWith]
  case ptpSent =>
    intro s r t h hf ht
    refine congrArg Host.Outcome.next ((serve_accepts h ptpReadAct).trans ?_)
    rw [ptpReadAct_sent (by rwa [hport_takeUp]) ht, conclude_okWith]

end Sys2Proof.Machine
end

section
/-!
PROOFS. The chassis trigger bus (R457 to R464): its commands past their object checks, a received frame by the device state,
and the attempts of the oldest waiting frame; from these the completion of the bus.
-/
namespace Sys2Proof.Machine

section
variable {s : State} {r : Req} {f : ChFrame} {fs : List ChFrame}

/-- A frame that finds room in the queue waits there. -/
theorem chassisQueue_room (h : s.net.chassis.queue.length < 16) (g : ChFrame) :
    chassisQueue g s = modChassis (fun c => { c with queue := c.queue ++ [g] }) s := if_pos h

theorem chassisSendAct_queues (he : s.net.chassis.enable = true) (hroom : s.net.chassis.queue.length < 16) :
    chassisSendAct r s = ok (modChassis (fun c => { c with queue := c.queue ++ [{
      kind := u8 r.payload 0
      trigger := u8 r.payload 1
      arg := BitVec.ofNat 32 (if u8 r.payload 0 = 1 then u32 r.payload 4 else 0)
      origin := s.time.ns
      cause := causeOf r }] }) s) := by
  unfold chassisSendAct
  dsimp only
  rw [he, if_neg (by decide), if_neg (Nat.not_le.mpr hroom), chassisQueue_room hroom]

/-! ### Frames that are received (R460, R461) -/

/-- An accepted frame is counted, acts by the device state, and is a wake source. -/
theorem exec_chassisFrameRx {bs : Bytes} {x : ChassisRx} (he : s.net.chassis.enable = true)
    (hx : parseChassis s bs = some x) :
    exec (.chassisFrameRx bs true) s = .next (wakeSource 3 0 (if s.ctl.devState = .still
      then trackPeer x (modChassis (fun c => { c with rxFrames := c.rxFrames + 1, rxInStill := c.rxInStill + 1 }) s)
      else chassisAct x (modChassis (fun c => { c with rxFrames := c.rxFrames + 1 }) s))) := by
  change execChassisFrameRx bs true s = _
  unfold execChassisFrameRx
  rw [if_pos ⟨rfl, he⟩, hx]
  dsimp only
  split <;> rfl

/-! ### Frames that are sent (R457) -/

theorem exec_chassisTxAttempt (hq : s.net.chassis.queue = f :: fs) (he : s.net.chassis.enable = true)
    (hs : s.net.chassis.sending = false) (hb : s.net.chassis.backoff = none) (collides : Bool) :
    exec (.chassisTxAttempt collides) s = .next (if collides = true
      then modChassis (fun x => { x with sending := true }) s
      else emit (.chassisFrame (chassisBytes s f)) (modChassis (fun x => { x with
        queue := fs
        seq := x.seq + 1
        txFrames := x.txFrames + 1 }) s)) := by
  change execChassisTxAttempt collides s = _
  unfold execChassisTxAttempt
  dsimp only
  rw [hq]
  dsimp only
  rw [he, hs, hb, if_neg (by decide)]
  split <;> rfl

/-- A collision within the first 512 bits, but for the sixteenth, lets the frame wait for the slots drawn. -/
theorem exec_chassisCollision_retries (hq : s.net.chassis.queue = f :: fs) (hs : s.net.chassis.sending = true)
    (hn : f.attempts + 1 < 16) :
    exec (.chassisCollision false) s = .next (modChassis (fun x => { x with
      sending := false
      collisions := x.collisions + 1
      queue := { f with attempts := f.attempts + 1 } :: fs
      backoff := some (Config.drbg s.cip.draws % 2 ^ min (f.attempts + 1) 10) })
        (emit .chassisJam { s with cip := { s.cip with draws := s.cip.draws + 1 } })) := by
  change execChassisCollision false s = _
  unfold execChassisCollision
  dsimp only
  rw [hq]
  dsimp only
  rw [hs, if_neg (by decide), if_neg Bool.false_ne_true, if_neg (Nat.not_le.mpr hn)]
  rfl

theorem exec_chassisTxAged_discards (hq : s.net.chassis.queue = f :: fs) (hs : s.net.chassis.sending = false) :
    exec .chassisTxAged s = .next (chassisFail f.kind f.trigger 3 f.cause (modChassis (fun c => { c with
      queue := fs
      sending := false
      backoff := none }) s)) := by
  change execChassisTxAged s = _
  unfold execChassisTxAged chassisDiscard
  rw [hs, hq, if_neg (by simp)]

end

/-- Settles O42: the commands past their object checks, and each event of the bus under its condition. -/
theorem chassisBusCompletes : Obligations.ChassisBusCompletes := by
  unfold Obligations.ChassisBusCompletes
  refine ⟨?config, ?send, ?status, ?received, ?receivedInStill,
    fun s f fs hq he hs hb => exec_chassisTxAttempt hq he hs hb false,
    fun s f fs hq he hs hb => exec_chassisTxAttempt hq he hs hb true,
    fun s f fs => exec_chassisCollision_retries, ?backoff, fun s f fs => exec_chassisTxAged_discards, ?aged, ?mark⟩
  case config => exact fun s r h => congrArg Host.Outcome.next (serve_accepts h chassisConfigAct)
  case send =>
    intro s r h he hroom
    refine congrArg Host.Outcome.next ((serve_accepts h chassisSendAct).trans ?_)
    rw [chassisSendAct_queues (by rwa [takeUp_net]) (by rwa [takeUp_net]), conclude_ok, takeUp_time]
  case status =>
    intro s r h
    refine congrArg Host.Outcome.next ((serve_accepts h chassisStatusAct).trans ?_)
    unfold chassisStatusAct
    rw [takeUp_net, takeUp_time, conclude_okWith]
  case received =>
    intro s bs f he hf hs
    rw [exec_chassisFrameRx he hf, if_neg hs]
  case receivedInStill =>
    intro s bs f he hf hs
    rw [exec_chassisFrameRx he hf, if_pos hs]
  case backoff =>
    intro s d hb
    exact if_pos (by rw [hb]; rfl)
  case aged => exact fun s id hp => if_pos hp
  case mark =>
    intro s he hm hroom
    change execMarkPeriodExpiry s = _
    unfold execMarkPeriodExpiry
    rw [if_pos ⟨he, hm⟩, chassisQueue_room hroom]

end Sys2Proof.Machine
end

section
/-!
PROOFS. The power commands (R467, R469, R470, R485 to R488): POWER_STATE by its target, and the commands of the budget.
-/
namespace Sys2Proof.Machine

section
variable {s : State} {r : Req}

/-! ### POWER_STATE (R467, R469, R470, R485) -/

theorem powerStateAct_hush (h1 : u8 r.payload 0 = 1) (hd : s.ctl.devState = .run) (hf : hushForbidden s = false) :
    powerStateAct r s = .later (holdWork (beginEntry 1 r s)) := by
  unfold powerStateAct
  rw [h1, hd]
  dsimp only
  rw [hf]
  rfl

theorem powerStateAct_still (h2 : u8 r.payload 0 = 2) (hr : stillRefusal s = none) :
    powerStateAct r s = .later (beginEntry 2 r s) := by
  unfold powerStateAct
  rw [h2]
  dsimp only
  rw [hr]
  rfl

/-- A step to RUN that the point has to be raised for goes on executing. -/
theorem powerStateAct_run {e : Entry} (h0 : u8 r.payload 0 = 0) (hd : s.ctl.devState = .hush)
    (he : (exitHush 7 0 (causeOf r) s).pwr.entry = some e) :
    powerStateAct r s = .later (exitHush 7 0 (causeOf r) s) := by
  unfold powerStateAct
  rw [h0, hd]
  dsimp only
  rw [he]
  rfl

end

/-- Settles O43: POWER_STATE to each state, and the commands of the budget. -/
theorem powerCommandsComplete : Obligations.PowerCommandsComplete := by
  unfold Obligations.PowerCommandsComplete
  refine ⟨?hush, ?still, ?run, ?budget, ?status⟩
  case hush =>
    intro s r h h1 hd hf
    refine congrArg Host.Outcome.next ((serve_accepts h powerStateAct).trans ?_)
    rw [powerStateAct_hush h1 (by rwa [takeUp_devState]) (by rwa [hushForbidden_takeUp]), conclude_later]
  case still =>
    intro s r h h2 hr
    refine congrArg Host.Outcome.next ((serve_accepts h powerStateAct).trans ?_)
    rw [powerStateAct_still h2 (by rwa [stillRefusal_takeUp]), conclude_later]
  case run =>
    intro s r e h h0 hd he
    refine congrArg Host.Outcome.next ((serve_accepts h powerStateAct).trans ?_)
    rw [powerStateAct_run h0 (by rwa [takeUp_devState]) he, conclude_later]
  case budget =>
    intro s r h
    refine congrArg Host.Outcome.next ((serve_accepts h powerBudgetSetAct).trans ?_)
    unfold powerBudgetSetAct
    rw [takeUp_pwr, conclude_ok]
  case status =>
    intro s r h
    refine congrArg Host.Outcome.next ((serve_accepts h powerStatusAct).trans ?_)
    unfold powerStatusAct
    rw [powerStatus_takeUp, conclude_okWith]

end Sys2Proof.Machine
end

section
/-!
PROOFS. A wake restarts what Still stopped (R165, R200, R471, R475), and no restart changes the device state, the power
records or device time: one lemma for each operation that a restart may pass, in the order of the model, then the end of the
wake itself.
-/
namespace Sys2Proof.Machine

/-- The device state, the power records and device time: what the end of a wake sets, and no restart changes. -/
def wakeParts (s : State) : DevState × Power × Time := (s.ctl.devState, s.pwr, s.time)

/-- A fold of steps that each keep these parts. -/
theorem wakeParts_foldl {α : Type} {f : State → α → State} (hf : ∀ x a, wakeParts (f x a) = wakeParts x) (l : List α)
    (s : State) : wakeParts (l.foldl f s) = wakeParts s := by
  induction l generalizing s with
  | nil => rfl
  | cons a l ih => exact (ih _).trans (hf s a)

section
variable {s : State}

/-! ### Events, injections and lines of SRAM -/

@[simp] theorem wakeParts_raise (code obj : Nat) (args : Bytes) (cause : Option Cause) (s : State) :
    wakeParts (raise code obj args cause s) = wakeParts s := by
  obtain ⟨o, r, l, h⟩ := raise_form code obj args cause s
  rw [h]
  rfl

@[simp] theorem wakeParts_recordWritten (code rec : Nat) (s : State) :
    wakeParts (recordWritten code rec s) = wakeParts s := by
  obtain ⟨o, r, l, j, h⟩ := occurrence_form 0x0D (0x1000 + code) s
  unfold recordWritten rewriteLine sramWrite
  dsimp only
  rw [h]
  split
  · rfl
  · rfl

/-! ### Planes and their lanes (R144, R202, R254) -/

@[simp] theorem wakeParts_touch (p rec : Nat) (s : State) : wakeParts (touch p rec s) = wakeParts s := by
  have hw := wakeParts_recordWritten (activeCode s p) rec s
  unfold touch
  dsimp only
  split
  · exact hw
  · exact hw

@[simp] theorem wakeParts_setTxEn (p : Nat) (v : Bool) (at_ : Option Int) (s : State) :
    wakeParts (setTxEn p v at_ s) = wakeParts s := by
  unfold setTxEn
  split
  · rfl
  · rfl

theorem wakeParts_fallTx (p port : Nat) (s : State) : wakeParts (fallTx p port s) = wakeParts s := wakeParts_setTxEn ..

@[simp] theorem wakeParts_endBursts (p : Nat) (s : State) : wakeParts (endBursts p s) = wakeParts s := by
  unfold endBursts
  extract_lets port x now s1 quiet
  split
  · rfl
  · have h1 : wakeParts s1 = wakeParts s := by
      unfold s1
      split
      · exact wakeParts_fallTx ..
      · rfl
    split
    · exact h1
    · exact h1

@[simp] theorem wakeParts_withdraw (p : Nat) (gone : Burst → Bool) (s : State) :
    wakeParts (withdraw p gone s) = wakeParts s := by
  unfold withdraw
  dsimp only
  split
  · exact (wakeParts_touch ..).trans (wakeParts_endBursts ..)
  · rfl

/-! ### Terminals (R197, R200, R206, R215, R217) -/

@[simp] theorem wakeParts_modTerm (f : Nat) (g : Term → Term) (s : State) : wakeParts (modTerm f g s) = wakeParts s := by
  unfold modTerm
  split
  · rfl
  · exact wakeParts_touch ..

@[simp] theorem wakeParts_modTermLocal (f : Nat) (g : Term → Term) (s : State) :
    wakeParts (modTermLocal f g s) = wakeParts s := by
  unfold modTermLocal
  split
  · rfl
  · rfl

@[simp] theorem wakeParts_releaseAllocs (f : Nat) (events : Bool) (cmd : Option Cause) (s : State) :
    wakeParts (releaseAllocs f events cmd s) = wakeParts s := by
  refine wakeParts_foldl (fun x q => ?_) _ s
  dsimp only
  split
  · rfl
  · split
    · exact (wakeParts_raise ..).trans (wakeParts_modTerm ..)
    · exact wakeParts_modTerm ..

@[simp] theorem wakeParts_switchKey (f new : Nat) (cmd : Option Cause) (s : State) :
    wakeParts (switchKey f new cmd s) = wakeParts s := by
  unfold switchKey
  split
  · rfl
  · dsimp only
    split
    · exact wakeParts_modTerm ..
    · exact (wakeParts_raise ..).trans (wakeParts_modTerm ..)

@[simp] theorem wakeParts_zeroiseLine (f : Nat) (cmd : Option Cause) (s : State) :
    wakeParts (zeroiseLine f cmd s) = wakeParts s := wakeParts_switchKey ..

@[simp] theorem wakeParts_modUnseen (f : Nat) (g : Unseen → Unseen) (s : State) :
    wakeParts (modUnseen f g s) = wakeParts s := by
  unfold modUnseen
  dsimp only
  split
  · rfl
  · rfl

@[simp] theorem wakeParts_applyDistance (f sfc : Nat) (cmd : Option Cause) (s : State) :
    wakeParts (applyDistance f sfc cmd s) = wakeParts s := by
  unfold applyDistance
  split
  · rfl
  · split
    · rfl
    · refine ((wakeParts_raise ..).trans (wakeParts_modTerm ..)).trans ?_
      split
      · exact wakeParts_modUnseen ..
      · rfl

@[simp] theorem wakeParts_clearDefects (f new : Nat) (lodsEvent : Bool) (cmd : Option Cause) (s : State) :
    wakeParts (clearDefects f new lodsEvent cmd s) = wakeParts s := by
  unfold clearDefects termDefectEvent
  split
  · rfl
  · dsimp only
    simp only [apply_ite wakeParts, wakeParts_raise, wakeParts_modTermLocal, ite_self]

@[simp] theorem wakeParts_dropOperation (f : Nat) (s : State) : wakeParts (dropOperation f s) = wakeParts s := by
  have hterm := wakeParts_modTerm f (fun t => { t with omciQ := [], omciPart := [], omciTotal := 0 }) s
  unfold dropOperation
  dsimp only
  split
  · exact (wakeParts_touch ..).trans hterm
  · exact hterm

@[simp] theorem wakeParts_dropIdentity (f : Nat) (events : Bool) (cmd : Option Cause) (s : State) :
    wakeParts (dropIdentity f events cmd s) = wakeParts s := (wakeParts_modTerm ..).trans (wakeParts_releaseAllocs ..)

theorem wakeParts_leaveBulks (f : Nat) (causes : List Nat) (s : State) :
    wakeParts (leaveBulks f causes s) = wakeParts s := rfl

@[simp] theorem wakeParts_discardFor (f new : Nat) (alone : Bool) (cmd : Option Cause) (s : State) :
    wakeParts (discardFor f new alone cmd s) = wakeParts s := by
  unfold discardFor
  simp only [apply_ite wakeParts, wakeParts_clearDefects, wakeParts_leaveBulks, wakeParts_applyDistance,
    wakeParts_zeroiseLine, wakeParts_dropIdentity, wakeParts_dropOperation, ite_self]

@[simp] theorem wakeParts_setTermState (f new cause : Nat) (alone : Bool) (onu before : Option Nat) (cmd : Option Cause)
    (s : State) : wakeParts (setTermState f new cause alone onu before cmd s) = wakeParts s := by
  unfold setTermState stateEvent
  split
  · rfl
  · dsimp only
    split
    · exact (wakeParts_raise ..).trans ((wakeParts_withdraw ..).trans (wakeParts_modTerm ..))
    · exact (wakeParts_withdraw ..).trans (wakeParts_modTerm ..)

@[simp] theorem wakeParts_enterState (f new cause : Nat) (alone : Bool) (onu : Option Nat) (cmd : Option Cause) (s : State) :
    wakeParts (enterState f new cause alone onu cmd s) = wakeParts s := by
  unfold enterState
  split
  · rfl
  · dsimp only
    split
    · exact (wakeParts_setTermState ..).trans ((wakeParts_setTermState ..).trans (wakeParts_discardFor ..))
    · exact (wakeParts_setTermState ..).trans (wakeParts_discardFor ..)

@[simp] theorem wakeParts_bulkEvents (p cause : Nat) (pairs : Tab Nat) (cmd : Option Cause) (s : State) :
    wakeParts (bulkEvents p cause pairs cmd s) = wakeParts s := by
  refine wakeParts_foldl (fun x e => ?_) pairs s
  split
  · rfl
  · exact wakeParts_raise ..

@[simp] theorem wakeParts_allToInitial (p cause : Nat) (cmd : Option Cause) (s : State) :
    wakeParts (allToInitial p cause cmd s) = wakeParts s :=
  (wakeParts_bulkEvents ..).trans (wakeParts_foldl (fun _ _ => wakeParts_enterState ..) _ _)

/-! ### The frequency source, the engines and a plane (R113 to R115, R165, R166, R257) -/

@[simp] theorem wakeParts_setSource (state source : Nat) (cmd : Option Cause) (s : State) :
    wakeParts (setSource state source cmd s) = wakeParts s := by
  unfold setSource
  dsimp only
  split
  · rfl
  · exact wakeParts_raise ..

@[simp] theorem wakeParts_loseQual (p : Nat) (cmd : Option Cause) (s : State) :
    wakeParts (loseQual p cmd s) = wakeParts s := by
  have hq : wakeParts (setQualified p false s) = wakeParts s := by
    unfold setQualified
    split
    · rfl
    · rfl
  have hl : wakeParts (sourceLost cmd (setQualified p false s)) = wakeParts s := by
    unfold sourceLost
    split
    · exact (wakeParts_setSource ..).trans hq
    · exact (wakeParts_setSource ..).trans hq
  unfold loseQual
  dsimp only
  split
  · split
    · exact hl
    · exact hq
  · rfl

@[simp] theorem wakeParts_startHunters (p : Nat) (s : State) : wakeParts (startHunters p s) = wakeParts s := by
  unfold startHunters
  exact wakeParts_foldl (fun _ _ => by rfl) _ s

@[simp] theorem wakeParts_enterHunt (p : Nat) (s : State) : wakeParts (enterHunt p s) = wakeParts s := by
  unfold enterHunt
  dsimp only
  rw [wakeParts_withdraw]
  split
  · exact wakeParts_touch ..
  · rfl

@[simp] theorem wakeParts_setMirror (p new : Nat) (cmd : Option Cause) (s : State) :
    wakeParts (setMirror p new cmd s) = wakeParts s := by
  unfold setMirror
  dsimp only
  split
  · rfl
  · exact wakeParts_raise ..

theorem wakeParts_copyAgain (p : Nat) (s : State) : wakeParts (copyAgain p s) = wakeParts s := rfl

theorem wakeParts_restartPlane (p : Nat) (s : State) : wakeParts (restartPlane p s) = wakeParts s := by
  have hhunt : wakeParts (allToInitial p 13 none (enterHunt p (loseQual p none (startHunters p s)))) = wakeParts s := by
    rw [wakeParts_allToInitial, wakeParts_enterHunt, wakeParts_loseQual, wakeParts_startHunters]
  unfold restartPlane
  extract_lets s1 s2
  split
  · rfl
  · split
    · exact hhunt
    · rw [wakeParts_setMirror, wakeParts_copyAgain]
      exact hhunt

/-! ### Host ports (R438, R440, R449) -/

@[simp] theorem wakeParts_countHost (p i k : Nat) (s : State) : wakeParts (countHost p i k s) = wakeParts s := by
  obtain ⟨o, r, l, c, h⟩ := countHost_form (s := s) (p := p) (i := i) (k := k)
  rw [h]
  rfl

theorem wakeParts_enterStamp (p id : Nat) (sent : Bool) (cmd : Option Cause) (s : State) :
    wakeParts (enterStamp p id sent cmd s) = wakeParts s := wakeParts_raise ..

@[simp] theorem wakeParts_discardQueues (p : Nat) (s : State) : wakeParts (discardQueues p s) = wakeParts s := by
  have hempty (t : State) : wakeParts ((List.range 8).foldl (fun x c => modHClass p c (fun k => { k with queue := [] }) x) t) =
      wakeParts t := wakeParts_foldl (fun _ _ => by rfl) _ t
  unfold discardQueues
  dsimp only
  refine (wakeParts_foldl (fun x f => ?_) _ _).trans ?_
  · split
    · exact wakeParts_enterStamp ..
    · rfl
  · split
    · exact hempty s
    · exact (wakeParts_countHost ..).trans (hempty s)

@[simp] theorem wakeParts_advertise (n : Nat) (s : State) : wakeParts (advertise n s) = wakeParts s := by
  unfold advertise
  dsimp only
  split
  · rfl
  · rfl

@[simp] theorem wakeParts_linkDown (port : Nat) (cond : LinkLoss) (s : State) :
    wakeParts (linkDown port cond s) = wakeParts s := by
  unfold linkDown hostLinkEvent
  dsimp only
  rw [wakeParts_advertise, wakeParts_raise]
  refine (wakeParts_foldl (fun _ _ => by rfl) (hostLanes port) _).trans ?_
  split
  · exact (wakeParts_countHost ..).trans (wakeParts_discardQueues ..)
  · exact wakeParts_discardQueues ..

theorem wakeParts_restartPort (p : Nat) (s : State) : wakeParts (restartPort p s) = wakeParts s := by
  unfold restartPort
  dsimp only
  split
  · exact wakeParts_linkDown ..
  · split
    · exact wakeParts_advertise ..
    · rfl

/-! ### The end of a wake (R123, R475 to R477) -/

theorem wakeParts_restartIsland (island : Nat) (s : State) : wakeParts (restartIsland island s) = wakeParts s := by
  unfold restartIsland
  split
  · exact wakeParts_foldl (fun x p => wakeParts_restartPort p x) _ s
  · exact wakeParts_restartPlane 0 s
  · exact wakeParts_restartPlane 1 s
  · rfl

/-- The report of accesses to stopped islands clears their record. -/
theorem reportOff_form (s : State) : ∃ o r l a n, reportOff s = { s with
    ctl := { s.ctl with out := o }
    rings := r
    log := l
    pwr := { s.pwr with offAddr := a, offCount := n } } := by
  unfold reportOff
  split
  · exact ⟨s.ctl.out, s.rings, s.log, s.pwr.offAddr, s.pwr.offCount, rfl⟩
  · obtain ⟨o, r, l, h⟩ := raise_form 0x0E03 0 _ none { s with pwr := { s.pwr with offAddr := none, offCount := 0 } }
    exact ⟨o, r, l, none, 0, h⟩

/-- The state as the wake sets it, before the report of accesses to stopped islands and the restarts. -/
def wokenState (source unit ns : Nat) (s : State) : State :=
  let t := agePeers (ns * 5 / 8) (addStill ns s)
  { t with
    ctl := { t.ctl with devState := s.pwr.entryState }
    pwr := { t.pwr with
      latched := none
      wakeMask := if s.pwr.entryState = .hush then s.pwr.hushWake.1 else t.pwr.wakeMask
      timerMs := if s.pwr.entryState = .hush then s.pwr.hushWake.2 else t.pwr.timerMs
      wake := { source, result := 1, unit, time := t.time.ns } } }

theorem exec_wakeComplete_restarts {l : Nat × Nat} (hd : s.ctl.devState = .still) (hl : s.pwr.latched = some l) (ns : Nat) :
    ∃ t, t.ctl.devState = s.pwr.entryState ∧ t.pwr.wake.source = l.1 ∧ t.pwr.wake.unit = l.2 ∧
      t.time.ns = s.time.ns + BitVec.ofNat 64 ns ∧ t.time.unsynced = true ∧
      exec (.wakeComplete ns) s = .next (powerEvent .still s.pwr.entryState none (answerStill
        (raise 0x0002 0 (le 1 (stateCode .still) ++ le 1 (stateCode s.pwr.entryState)) none t))) := by
  obtain ⟨source, unit⟩ := l
  obtain ⟨o, r, g, a, n, hoff⟩ := reportOff_form (wokenState source unit ns s)
  have hparts := (wakeParts_foldl (fun x i => wakeParts_restartIsland i x) [5, 6, 4] (reportOff (wokenState source unit ns s))).trans
    (congrArg wakeParts hoff)
  obtain ⟨hdev, hrest⟩ := Prod.mk.inj hparts
  obtain ⟨hpwr, htime⟩ := Prod.mk.inj hrest
  have htimes : (wokenState source unit ns s).time = (addStill ns s).time := by
    obtain ⟨m, c, hage⟩ := agePeers_form (ns * 5 / 8) (addStill ns s)
    change (agePeers (ns * 5 / 8) (addStill ns s)).time = _
    rw [hage]
  refine ⟨_, hdev, by rw [hpwr]; rfl, by rw [hpwr]; rfl, by rw [htime, htimes]; rfl, by rw [htime, htimes]; rfl, ?_⟩
  change execWakeComplete ns s = _
  unfold execWakeComplete
  rw [hl]
  exact if_neg (not_not_intro hd)

end

end Sys2Proof.Machine
end

section
/-!
PROOFS. The power events (R470 to R475, R481 to R484): gates that acknowledge or time out, wake sources in STILL, the end of
a wake, the windows of Sluice, and readings of the sensors below every limit; from these the completion of the events.
-/
namespace Sys2Proof.Machine

section
variable {s : State}

/-! ### Gates (R470, R471, R473) -/

/-- An island that Still asks for next stops, and the device with the last of them. -/
theorem exec_gateAck_stops {i : Nat} {e : Entry} (he : s.pwr.entry = some e) (ht : e.target = 2)
    (hi : stillOrder[e.stopped.length]? = some i) (hd : drained i s = true) (hr : stillRefusal s = none) :
    exec (.gateAck i) s = .next (if i = 10 then enterStill e (noteStopped i e (stopIsland i s))
      else noteStopped i e (stopIsland i s)) := by
  have hasked : gateAsked e i = true := by
    unfold gateAsked
    rw [ht, hi]
    exact beq_self_eq_true _
  change execGateAck i s = _
  unfold execGateAck
  rw [he]
  dsimp only
  rw [hasked, hd, if_neg (by decide), if_neg (by rw [ht]; decide), hr]
  dsimp only
  split <;> rfl

theorem exec_gateTimeout_asked {i : Nat} {e : Entry} (he : s.pwr.entry = some e) (ha : gateAsked e i = true)
    (hi : i ≠ 2) : exec (.gateTimeout i) s = .next
      (rollback e i 5 0 (raise 0x0E02 i (le 1 0 ++ le 2 gateLimit) none s)) := by
  change execGateTimeout i s = _
  unfold execGateTimeout
  rw [he]
  dsimp only
  rw [if_pos ha, if_neg hi]

/-! ### Wake sources in STILL (R474, R475) -/

/-- The first wake source that acts in STILL is latched. -/
theorem wakeSource_latches {source unit : Nat} (hd : s.ctl.devState = .still) (hl : s.pwr.latched = none)
    (hw : wakeEnabled source unit s = true) :
    wakeSource source unit s = { s with pwr := { s.pwr with latched := some (source, unit) } } := by
  unfold wakeSource
  rw [if_pos hw, if_pos hd, hl, if_neg (by decide)]

theorem wakeEnabled_timer (hd : s.ctl.devState = .still) (hm : bit s.pwr.wakeMask 6 = true) :
    wakeEnabled 5 0 s = true := by
  unfold wakeEnabled
  rw [hd]
  exact hm

theorem wakeEnabled_access (hd : s.ctl.devState = .still) : wakeEnabled 2 0 s = true := by
  unfold wakeEnabled
  rw [hd]
  rfl

/-! ### The windows of Sluice (R482 to R484) -/

/-- The quiet windows counted at a window's end; no work has waited in the next one yet. -/
def windowEnded (quiet : Nat) (s : State) : State := { s with pwr := { s.pwr with quiet, waited := false } }

theorem exec_sluiceWindow (hc : cpRuns s = true) (uj : Nat) :
    exec (.sluiceWindow uj) s = .next (stepPoint (countWaits (decideWork true (chargeWindow uj (takeBudget
      (windowEnded (if s.pwr.stalled || s.pwr.waited then 0 else s.pwr.quiet + 1) s)))))) := by
  change execSluiceWindow uj s = _
  unfold execSluiceWindow
  rw [hc, if_neg (by decide)]
  rfl

theorem takeBudget_none (h : s.pwr.pendBudget = none) : takeBudget s = s := by
  unfold takeBudget
  rw [h]

/-! ### Readings of the sensors (R480, R481, R484) -/

/-- Without an injection each sensor reads what it senses. -/
theorem readSensors_disarmed (he : s.inj.entries = []) {ts : List Int} (hn : ts.length = 8) :
    readSensors ts s = ((ts, []), s) := by
  have hread : ∀ (l : List Nat) (a : List Int), l.foldl (fun (acc : (List Int × List Nat) × State) i =>
      let r := readSensor i (ts.getD i 0) acc.2
      ((acc.1.1 ++ [r.1.1], if r.1.2 then acc.1.2 ++ [i] else acc.1.2), r.2)) ((a, []), s) =
        ((a ++ l.map fun i => ts.getD i 0, []), s) := by
    intro l
    induction l with
    | nil => simp
    | cons i l ih =>
      intro a
      have hone : readSensor i (ts.getD i 0) s = ((ts.getD i 0, false), s) := by
        unfold readSensor
        rw [occurrence_none (injIndex_disarmed he 0x11 i)]
      rw [List.foldl_cons]
      dsimp only
      rw [hone]
      dsimp only
      rw [if_neg Bool.false_ne_true, ih, List.map_cons, List.append_assoc, List.singleton_append]
  have hall : (List.range 8).map (fun i => ts.getD i 0) = ts := by
    refine List.ext_getElem (by simp [hn]) fun i h1 h2 => ?_
    simp [h2]
  unfold readSensors
  rw [hread, hall, List.nil_append]

/-- A bound on every reading bounds the reading of any sensor. -/
theorem getD_lt {ts : List Int} {b : Int} (hb : 0 < b) (h : ∀ t ∈ ts, t < b) (n : Nat) : ts.getD n 0 < b := by
  rw [List.getD_eq_getElem?_getD]
  cases hn : ts[n]? with
  | none => exact hb
  | some t => exact h t (List.mem_of_getElem? hn)

theorem judgeCeiling_below (inj : List Nat) (hh : s.pwr.ceilHit = false) (hc : atCeiling s = false) :
    judgeCeiling inj s = s := by
  unfold judgeCeiling
  dsimp only
  rw [hh, hc, if_neg (by decide), if_neg (by simp)]

theorem judgeHot_below (inj : List Nat) (hh : s.pwr.hot = false) (ht : ∀ t ∈ s.pwr.temps, t < 1760) :
    judgeHot inj s = s := by
  have htop := getD_lt (by decide) ht (hottest s.pwr.temps)
  unfold judgeHot
  dsimp only
  rw [hh, if_neg (by simpa using htop), if_neg (by simp)]

theorem judgeCrit_below (inj : List Nat) (ht : ∀ t ∈ s.pwr.temps, t < 2000) : judgeCrit inj s = s := by
  have htop := getD_lt (by decide) ht (hottest s.pwr.temps)
  unfold judgeCrit
  have hno : (!s.pwr.trip && decide (2000 ≤ s.pwr.temps.getD (hottest s.pwr.temps) 0)) = false := by
    rw [decide_eq_false (not_le.mpr htop), Bool.and_false]
  dsimp only
  rw [hno, if_neg Bool.false_ne_true]

/-- The state with the readings of the sensors. -/
def sensed (ts : List Int) (s : State) : State := { s with pwr := { s.pwr with temps := ts } }

/-- What CK_CORE judges of the readings in the state that holds them, THERM_HOT apart. -/
def ceilingJudged (s : State) : State := if cpRuns s then judgeCeiling [] s else s

theorem exec_thermalReading_disarmed (he : s.inj.entries = []) (ha : aonRuns s = true) {ts : List Int}
    (hn : ts.length = 8) : exec (.thermalReading ts) s = .next (judgeCrit [] (if s.ctl.devState = .still
      then ceilingJudged (sensed ts s) else judgeHot [] (ceilingJudged (sensed ts s)))) := by
  change execThermalReading ts s = _
  unfold execThermalReading
  rw [ha, if_neg (by decide), readSensors_disarmed he hn]
  rfl

/-- Readings below every limit change the readings alone. -/
theorem exec_thermalReading_below (he : s.inj.entries = []) (ha : aonRuns s = true) {ts : List Int} (hn : ts.length = 8)
    (hh : s.pwr.ceilHit = false) (hot : s.pwr.hot = false) (hc : s.pwr.ceilingC ≤ 110)
    (ht : ∀ t ∈ ts, t < (s.pwr.ceilingC : Int) * 16) :
    exec (.thermalReading ts) s = .next (sensed ts s) := by
  have hceil : atCeiling (sensed ts s) = false :=
    List.any_eq_false.mpr fun t hmem => by
      rw [decide_eq_true_iff]
      exact Int.not_le.mpr (ht t hmem)
  have hlow : ∀ t ∈ ts, t < 1760 := fun t hmem => (ht t hmem).trans_le (by omega)
  have hjudged : ceilingJudged (sensed ts s) = sensed ts s := by
    unfold ceilingJudged
    rw [judgeCeiling_below (s := sensed ts s) [] hh hceil, ite_self]
  rw [exec_thermalReading_disarmed he ha hn, hjudged, judgeHot_below (s := sensed ts s) [] hot hlow, ite_self,
    judgeCrit_below (s := sensed ts s) [] fun t hmem => (hlow t hmem).trans (by decide)]

end

/-- Settles O44: each event under its condition; the parts of the state after a wake are those that no restart changes. -/
theorem powerEventsComplete : Obligations.PowerEventsComplete := by
  unfold Obligations.PowerEventsComplete
  refine ⟨?stops, ?enters, fun s i e => exec_gateTimeout_asked, ?timer, ?access, ?wake, ?quiet, ?waited, ?thermal⟩
  case stops =>
    intro s i e he ht hi h10 h3 hr
    have hdrained : drained i s = true := by
      unfold drained
      by_cases h : i = 3
      · rw [h3 h]; simp
      · simp [h]
    rw [exec_gateAck_stops he ht hi hdrained hr, if_neg h10]
  case enters =>
    intro s e he ht hl hr
    rw [exec_gateAck_stops he ht (by rw [hl]; rfl) rfl hr, if_pos rfl]
    rfl
  case timer =>
    intro s ht hd ha hl hm
    change execWakeTimerExpiry s = _
    unfold execWakeTimerExpiry
    rw [if_pos ⟨ht, .inr hd, ha⟩]
    exact congrArg Host.Outcome.next (wakeSource_latches (s := { s with pwr := { s.pwr with timerMs := 0 } }) hd hl
      (wakeEnabled_timer hd hm))
  case access =>
    intro s hd ha hl
    change execPcieD0ConfigWrite s = _
    unfold execPcieD0ConfigWrite
    rw [if_pos ha, wakeSource_latches hd hl (wakeEnabled_access hd)]
  case wake => exact fun s ns l hd hl => exec_wakeComplete_restarts hd hl ns
  case quiet =>
    intro s uj hc hs hw hb
    rw [exec_sluiceWindow hc, hs, hw, if_neg (by decide),
      takeBudget_none (s := windowEnded (s.pwr.quiet + 1) s) hb]
    rfl
  case waited =>
    intro s uj hc hw
    have hor : (s.pwr.stalled || s.pwr.waited) = true := (Bool.or_eq_true ..).mpr hw
    rw [exec_sluiceWindow hc, if_pos hor]
    rfl
  case thermal => exact fun s ts he ha hn hh hot ht hc hts => exec_thermalReading_below he ha hn hh hot hc hts

end Sys2Proof.Machine
end

section
/-!
PROOFS. The injection window outside STILL (R505, R506, R509): a write to INJECT_ARM by its bits, each end of an arming, and
the read that clears REFUSED.
-/
namespace Sys2Proof.Machine

section
variable {s : State} {v : BitVec 32}

/-! ### Accesses to the window -/

/-- Outside STILL a write to INJECT_ARM has its effect. -/
theorem barAccess_inject (ha : aonRuns s = true) (hs : s.ctl.devState ≠ .still) (write : Bool) (n : Nat) (f : State → State) :
    barAccess write 0 0x400000 n f s = f s :=
  barAccess_up ha (offDomain_awake hs (fun _ => rfl) (by decide))

theorem exec_injectArm (ha : aonRuns s = true) (hs : s.ctl.devState ≠ .still) :
    exec (.injectArm v) s = .next (armWrite v s) := congrArg Host.Outcome.next (barAccess_inject ha hs true 4 _)

theorem exec_injectDisarm (ha : aonRuns s = true) (hs : s.ctl.devState ≠ .still) :
    exec (.injectDisarm v) s = .next (armWrite v s) := congrArg Host.Outcome.next (barAccess_inject ha hs true 4 _)

theorem exec_injectStatusRead (ha : aonRuns s = true) (hs : s.ctl.devState ≠ .still) :
    exec .injectStatusRead s = .next (answerWords [regRead s 0x40001C] (clearRefused s)) :=
  congrArg Host.Outcome.next (readAccess_up ha (offDomain_awake hs (fun _ => rfl) (by decide)))

/-! ### A write to INJECT_ARM (R505, R506, R509) -/

/-- A write that asks for neither or for both of arming and disarming. -/
theorem armWrite_neither (h : v.getLsbD 31 = v.getLsbD 30) : armWrite v s = injRefuse 3 s := by
  unfold armWrite
  rw [h]
  cases v.getLsbD 30 <;> rfl

theorem armWrite_disarms {i : Nat} (h31 : v.getLsbD 31 = false) (h30 : v.getLsbD 30 = true)
    (hi : injIndex (v.toNat % 65536) s.inj.target.toNat s = some i) :
    armWrite v s = { s with inj := { s.inj with entries := tdel s.inj.entries i } } := by
  unfold armWrite
  dsimp only
  rw [h31, h30]
  dsimp only
  rw [hi]

theorem armWrite_notArmed (h31 : v.getLsbD 31 = false) (h30 : v.getLsbD 30 = true)
    (hi : injIndex (v.toNat % 65536) s.inj.target.toNat s = none) : armWrite v s = injRefuse 7 s := by
  unfold armWrite
  dsimp only
  rw [h31, h30]
  dsimp only
  rw [hi]

theorem armWrite_refused {c : Nat} (h31 : v.getLsbD 31 = true) (h30 : v.getLsbD 30 = false)
    (hc : armRefusal (v.toNat % 65536) s = some c) : armWrite v s = injRefuse c s := by
  unfold armWrite
  dsimp only
  rw [h31, h30]
  dsimp only
  rw [hc]

/-- An arming takes its entry; LOS and the pause watchdog act at once. -/
theorem armWrite_arms (h31 : v.getLsbD 31 = true) (h30 : v.getLsbD 30 = false)
    (hc : armRefusal (v.toNat % 65536) s = none) :
    armWrite v s = if v.toNat % 65536 = 0x05 then losInjection s.inj.target.toNat (putEntry (v.toNat % 65536) s)
      else if v.toNat % 65536 = 0x10 then pauseInjection false s.inj.target.toNat (putEntry (v.toNat % 65536) s)
      else putEntry (v.toNat % 65536) s := by
  unfold armWrite
  dsimp only
  rw [h31, h30]
  dsimp only
  rw [hc]

end

/-- Settles O8: each end of a write to INJECT_ARM, and the read of INJECT_STATUS. -/
theorem injectionWindowCompletes : Obligations.InjectionWindowCompletes := by
  unfold Obligations.InjectionWindowCompletes
  refine ⟨?arms, ?los, ?pause, ?neither, ?refused, ?disarms, ?notArmed, ?status⟩
  case arms =>
    intro s v ha hs h31 h30 hc h5 h10
    rw [exec_injectArm ha hs, armWrite_arms h31 h30 hc, if_neg h5, if_neg h10]
  case los =>
    intro s v ha hs h31 h30 hc h5
    rw [exec_injectArm ha hs, armWrite_arms h31 h30 hc, if_pos h5, h5]
  case pause =>
    intro s v ha hs h31 h30 hc h10
    rw [exec_injectArm ha hs, armWrite_arms h31 h30 hc, h10, if_neg (by decide), if_pos rfl]
  case neither =>
    intro s v ha hs h
    rw [exec_injectArm ha hs, armWrite_neither h]
    rfl
  case refused =>
    intro s v c ha hs h31 h30 hc
    rw [exec_injectArm ha hs, armWrite_refused h31 h30 hc]
    rfl
  case disarms =>
    intro s v i ha hs h31 h30 hi
    rw [exec_injectDisarm ha hs, armWrite_disarms h31 h30 hi]
  case notArmed =>
    intro s v ha hs h31 h30 hi
    rw [exec_injectDisarm ha hs, armWrite_notArmed h31 h30 hi]
    rfl
  case status => exact fun s ha hs => exec_injectStatusRead ha hs

end Sys2Proof.Machine
end

section
/-!
PROOFS. The event recorder (R490 to R504, R520): the slots of its table, a waiting record that is programmed, the hours, a
power failure, and the erase of the log; from these the completion of its commands and events.
-/
namespace Sys2Proof.Machine

theorem tfind_tset_of_ne {α : Type} (m : Tab α) {k n : Nat} (v : α) (h : n ≠ k) : tfind (tset m k v) n = tfind m n := by
  induction m with
  | nil => exact if_neg h
  | cons e m ih =>
    obtain ⟨j, w⟩ := e
    unfold tset
    split
    · exact if_neg h
    · split
      · next hk => rw [tfind, tfind, if_neg h, if_neg (hk ▸ h)]
      · rw [tfind, tfind, ih]

/-- What the view tells of a slot is all that a change of the slot touches beside it (R502). -/
theorem viewTouched_form (n : Nat) (l : Recorder) : ∃ b, viewTouched n l = { l with viewBusy := b } := by
  unfold viewTouched
  split
  · exact ⟨true, rfl⟩
  · exact ⟨l.viewBusy, rfl⟩

@[simp] theorem log_postEvent (e : Event) (s : State) : (postEvent e s).log = s.log := by
  obtain ⟨o, r, h⟩ := postEvent_form e s
  rw [h]

section
variable {s : State} {r : Req}

/-! ### The flush engine and the hours (R494, R496, R499) -/

theorem exec_recordProgrammed {x : LogRec} {rest : List LogRec} (hb : s.log.buf = x :: rest) (ha : aonRuns s = true)
    (hc : s.log.clearing = false ∨ s.log.powerFail = true) :
    exec .recordProgrammed s = .next (modLog (fun l => programSlot x.slot (fit 64 x.data) { l with buf := rest }) s) := by
  have hruns : (!aonRuns s || (s.log.clearing && !s.log.powerFail)) = false := by
    rw [ha]
    obtain h | h := hc
    · rw [h]; rfl
    · rw [h, Bool.not_true, Bool.and_false]; rfl
  change execRecordProgrammed s = _
  unfold execRecordProgrammed
  rw [hb]
  dsimp only
  rw [hruns, if_neg Bool.false_ne_true]

/-- The recorder after a whole hour, before its journal is written (R494). -/
def hourCounted (s : State) : State :=
  modLog (fun l => { l with
    hours := (l.hours + 100) % 2 ^ 32
    hourMark := if s.ctl.devState == .still then l.hourMark + 2250000000000 else s.time.cycles
    hourGap := clockStands s && !(s.ctl.devState == .still) }) s

theorem exec_hourTick (ha : aonRuns s = true) :
    exec .hourTick s = .next { hourCounted s with log := journal (hourCounted s) } := if_pos ha

/-- While CK_TS runs, nothing of the hour that begins has passed. -/
theorem hoursNow_hourCounted (hc : clockStands s = false) : hoursNow (hourCounted s) = (s.log.hours + 100) % 2 ^ 32 := by
  have hstill : (s.ctl.devState == .still) = false := (Bool.or_eq_false_iff.mp hc).1
  have hgap : ((hourCounted s).log.hourGap || clockStands (hourCounted s)) = false := by
    change ((clockStands s && !(s.ctl.devState == .still)) || clockStands s) = false
    rw [hc]
    rfl
  have hmark : (hourCounted s).log.hourMark = (hourCounted s).time.cycles := if_neg (by rw [hstill]; decide)
  unfold hoursNow
  dsimp only
  rw [hgap, if_neg Bool.false_ne_true, hmark, Nat.sub_self, Nat.zero_div]
  change ((s.log.hours + 100) % 2 ^ 32 + 0) % 2 ^ 32 = _
  rw [Nat.add_zero, Nat.mod_mod]

/-! ### A power failure (R499, R500) -/

/-- The journal is written, and new events are refused. -/
def failureJournalled (s : State) : Recorder := { journal s with powerFail := true }

/-- Beside that, EV_LOG_POWER_FAIL stands in the next slot. -/
def failureRecorded (s : State) : Recorder :=
  { programSlot s.log.nextSlot (powerFailRecord s) (failureJournalled s) with
    lastSeq := s.log.nextSeq
    lastWritten := s.log.nextSeq
    nextSeq := s.log.nextSeq + 1
    nextSlot := s.log.nextSlot + 1
    lastPf := true }

/-- Where the log has a slot left, the failure is recorded in it. -/
theorem exec_pwrFailNAssert_records (ha : aonRuns s = true) (hp : s.log.powerFail = false) (hn : s.log.nextSlot < 32768)
    (hf : s.log.full = false ∨ s.log.clearing = true) :
    exec .pwrFailNAssert s = .next { s with log := viewTouched s.log.nextSlot (failureRecorded s) } := by
  have hroom : ¬(32768 ≤ s.log.nextSlot ∨ (s.log.full && !s.log.clearing) = true) := by
    rintro (h | h)
    · omega
    · obtain hx | hx := hf <;> rw [hx] at h <;> simp at h
  change execPwrFailNAssert s = _
  unfold execPwrFailNAssert
  rw [ha, hp, if_neg (by decide)]
  exact if_neg hroom

/-! ### Clearing the log (R504) -/

theorem logClearAct_begins (hc : s.log.clearing = false) : logClearAct r s = ok { s with log := { s.log with
    clearing := true
    clearCause := causeOf r
    clearSeq := (s.log.buf.head?.map fun x => BitVec.ofNat 32 (u32 x.data 0)).getD s.log.nextSeq
    usedBefore := min s.log.nextSlot 32768
    slots := tdel s.log.slots 0
    since := []
    buf := renumber 1 s.log.buf
    nextSlot := 1 + s.log.buf.length
    lastSeq := s.log.nextSeq
    lastWritten := if s.log.buf.isEmpty then s.log.nextSeq else s.log.lastWritten + 1
    nextSeq := s.log.nextSeq + 1
    lastPf := s.log.lastPf && !s.log.buf.isEmpty
    viewBusy := true } } := if_neg (by rw [hc]; exact Bool.false_ne_true)

/-- EV_LOG_CLEARED as a record. -/
def clearedRecord (s : State) : Bytes :=
  recordBytes s.log.clearSeq.toNat (hoursNow s) s.log.cycles (2 * b2n s.time.unsynced)
    (eventOf 0x0F06 0 (le 4 s.log.usedBefore) s.log.clearCause s)

theorem exec_logEraseDone_clears (ha : aonRuns s = true) (hc : s.log.clearing = true) (hp : s.log.powerFail = false) :
    exec .logEraseDone s = .next (postEvent (eventOf 0x0F06 0 (le 4 s.log.usedBefore) s.log.clearCause s)
      { s with log := viewTouched 0 { s.log with
        slots := tset s.log.since 0 (clearedRecord s)
        since := []
        clearing := false
        clearCause := none
        full := false
        refused := 0 } }) := by
  change execLogEraseDone s = _
  unfold execLogEraseDone
  rw [ha, hc, hp, if_neg (by decide)]
  rfl

end

/-- Settles O11: each command and event of the recorder under its condition. -/
theorem recorderCommandsComplete : Obligations.RecorderCommandsComplete := by
  unfold Obligations.RecorderCommandsComplete
  refine ⟨?programmed, ?suspended, ?hour, ?hourInStill, ?powerFails, fun s ha => if_pos ha, ?clear, ?erased, ?read, ?fill⟩
  case programmed =>
    intro s r rest hb ha hc
    rw [exec_recordProgrammed hb ha (.inl hc)]
    unfold programSlot modLog
    dsimp only
    rw [hc, if_neg Bool.false_ne_true]
  case suspended =>
    intro s r rest hb ha hc hp
    rw [exec_recordProgrammed hb ha (.inr hp)]
    unfold programSlot modLog
    dsimp only
    rw [hc, if_pos rfl]
  case hour =>
    intro s ha hc
    have hstill : (s.ctl.devState == .still) = false := (Bool.or_eq_false_iff.mp hc).1
    rw [exec_hourTick ha]
    unfold journal
    rw [hoursNow_hourCounted hc]
    unfold hourCounted modLog
    dsimp only
    rw [hc, hstill, if_neg Bool.false_ne_true]
    rfl
  case hourInStill =>
    intro s ha hs
    exact ⟨_, exec_hourTick ha, rfl, if_pos (by rw [hs]; rfl), rfl⟩
  case powerFails =>
    intro s ha hp hn hf
    refine ⟨_, exec_pwrFailNAssert_records ha hp hn hf, ?_⟩
    obtain ⟨b, hview⟩ := viewTouched_form s.log.nextSlot (failureRecorded s)
    rw [hview]
    exact ⟨rfl, rfl, rfl, rfl, tfind_tset_self ..⟩
  case clear =>
    intro s r h hc
    refine congrArg Host.Outcome.next ((serve_accepts h logClearAct).trans ?_)
    rw [logClearAct_begins (by rwa [takeUp_log]), takeUp_log, conclude_ok]
  case erased =>
    intro s ha hc hp
    refine ⟨_, exec_logEraseDone_clears ha hc hp, ?_⟩
    rw [log_postEvent]
    dsimp only
    obtain ⟨b, hview⟩ := viewTouched_form 0 { s.log with
      slots := tset s.log.since 0 (clearedRecord s)
      since := []
      clearing := false
      clearCause := none
      full := false
      refused := 0 }
    rw [hview]
    exact ⟨rfl, rfl, rfl, rfl, rfl, tfind_tset_self .., fun n hn => tfind_tset_of_ne _ _ hn⟩
  case read =>
    intro s r h
    refine congrArg Host.Outcome.next ((serve_accepts h logReadAct).trans ?_)
    unfold logReadAct
    rw [takeUp_log, conclude_okWith]
  case fill =>
    intro s ha hv
    exact if_pos (by rw [ha, hv]; rfl)

end Sys2Proof.Machine
end
